-- ==== Sys2Proof/Word.lean ====
section
/-!
DEFINITION. The word types of the machine and their plainest arithmetic (R7, R8).
-/
namespace Sys2Proof

/-- A 32-bit word: one lane of a vector register, one third of an instruction (R41, R59). -/
abbrev Word := BitVec 32

/-- A 64-bit word: a helm register, a timeline counter, a parameter (R41). -/
abbrev Word64 := BitVec 64

/-- A byte of memory (R8). -/
abbrev Byte := BitVec 8

/-- One bit for each of the 32 lanes of a warp (R185). -/
abbrev LaneMask := BitVec 32

/-- One bit for each of the 8 slices of a warp (R185). -/
abbrev SliceMask := BitVec 8

/-- A 96-bit instruction (R59). -/
abbrev IWord := BitVec 96

end Sys2Proof
end

