-- ==== Sys2Proof/Config.lean ====
section
/-!
DEFINITION. What an implementation fixes, and the free values: constants with no body, so that no proof can see what
they are. Each free value is applied to the model's own counter (State.tick) or to what it depends on, and stands in a
row of notes/assumptions.
-/
namespace Sys2Proof.Config

/-- Logical cores in service (R2, R4). -/
def cores : Nat := 256

/-- Base of the span window and bytes of one core's slice (R241). -/
def spanBase : Nat := 0x7F0000000000

/-- The window's size: 0x7F00_0000_0000 to 0x7F00_FFFF_FFFF (R241). -/
def spanWindow : Nat := 0x100000000

/-- Bytes of one core's span slice (R241). -/
def spanSlice : Nat := 0x200000

/-- Bytes of span in all: the window above this raises PROTECTION (R241). -/
def spanSize : Nat := 0x20000000

/-- Virtual addresses are below this (R130). -/
def vaLimit : Nat := 2 ^ 56

/-- Free: which enabled move comes next where no order is given (log 2, DESIGN CHOICE). -/
opaque choose : Nat → Nat

/-- Free: the cycle count of a core when a gang issues SREAD cycle (R56, log 9, DESIGN CHOICE). -/
opaque cycle : Nat → BitVec 64

/-- Free: bytes the device draws or forms where the manual gives none: keys, nonces, digests and the contents of SPDM
responses (R439, R443, log 11, DESIGN CHOICE). -/
opaque secret : Nat → BitVec 128

/-- Free: the value of a measurement digest (R445, log 11, DESIGN CHOICE). -/
opaque digest : Nat → BitVec 256

/-- Free: the package power that the arbiter measures (R447, log 12, DESIGN CHOICE). -/
opaque draw : Nat → BitVec 12

/-- Free: the vector grant the arbiter leaves under contention (R446, log 12, DESIGN CHOICE). -/
opaque vgrant : Nat → BitVec 8

/-- Free: the grant of HBM traffic the arbiter leaves under contention (R446, log 12, DESIGN CHOICE). -/
opaque hgrant : Nat → BitVec 8

/-- Free: the HBM traffic in flight, in 1/255ths of full traffic (R446, log 12, DESIGN CHOICE). -/
opaque inFlight : Nat → BitVec 8

/-- Free: whether the core at a logical id's own stop fails the boot test (R276, R445, log 107, DESIGN CHOICE). -/
opaque coreFails : Nat → Bool

/-- Free: the hardware stepping that DEVID reports (R448, log 12, DESIGN CHOICE). -/
opaque stepping : BitVec 8

/-- Free: the frames of 64 KiB that firmware has given the staging pool, by number; they hold nothing else (R360, R384; log 13,
DESIGN CHOICE). -/
opaque staging : List Nat

/-- Free: the byte that fabric memory returns to a scale, dither-table, descriptor or list read, by endpoint, remote
address and tick (log 14, DESIGN CHOICE). -/
opaque remote : Nat → Nat → Nat → BitVec 8

/-- Free: whether the fabric answers such a read with an error, by endpoint, remote address and tick (R370, log 14, DESIGN
CHOICE). -/
opaque remoteFails : Nat → Nat → Nat → Bool

/-- Free: byte i of granule g of a region as the key pair of the region decrypts its bytes (R443; log 113, DESIGN CHOICE). -/
opaque decrypted : BitVec 128 → BitVec 128 → Nat → Nat → List (BitVec 8) → BitVec 8

/-- Free: the channel of its stack that holds a granule, and the count of corrected errors above which firmware retires a channel
(R434; log 92, DESIGN CHOICE). -/
opaque channelOf : Nat → Fin 32
opaque channelThreshold : Nat

/-- Free: the port that carried a fabric operation (R364, R449, log 14, DESIGN CHOICE). -/
opaque port : Nat → Fin 16

/-- Free: the core cycles that pass with one step of the model where the manual gives none (log 10, DESIGN CHOICE). -/
opaque elapsed : Nat → Nat

end Sys2Proof.Config
end

