-- ==== Sys2Proof/Syntax.lean ====
section
/-!
DEFINITION. The instructions of Izuth-2 and the part's own steps, one constructor for each row of the opcode table.
An instruction of a stream carries its fields as its form gives them (R61 to R76); an event, which has no word, carries
what it names.
-/
namespace Sys2Proof

/-! ## Fields of the warp stream -/

/-- Guard and hint, bits 17:10 of every word (R61, R63 to R65). -/
structure Ctl where
  pred : Fin 8
  inv : Bool
  hint : BitVec 4
  deriving DecidableEq, Repr

/-- Subword and swizzle views, codes 0x0 to 0xE (R52). -/
inductive View where
  | w | h0 | h1 | b0 | b1 | b2 | b3 | hh0 | hh1 | bb0 | bb1 | bb2 | bb3 | hswap | brev8
  deriving DecidableEq, Repr

/-- The special values of R68. -/
inductive Special where
  | zero | ones | nan | inf | ninf | nzero | imax | one | half
  deriving DecidableEq, Repr

/-- A source field of the warp stream (R66, R67). -/
inductive Src where
  | v (n : Fin 256) (view : View)
  | vx (x : Fin 8) (view : View)
  | o (n : Fin 8) (view : View)
  | latch (view : View)
  | int (i : BitVec 14)
  | flt (f : BitVec 14)
  | spec (k : Special)
  deriving DecidableEq, Repr

/-- A destination field of the warp stream (R70). -/
inductive Dst where
  | v (n : Fin 256) (view : View)
  | vx (x : Fin 8) (view : View)
  | o (n : Fin 8)
  | vo (n : Fin 256) (o : Fin 8) (view : View)
  | latch
  deriving DecidableEq, Repr

/-- A register source of LOP3's source C and of VTAG: no index, view .w (R93, R103). -/
inductive RegSrc where
  | v (n : Fin 256)
  | o (n : Fin 8)
  | latch
  deriving DecidableEq, Repr

/-- A predicate source with its inversion (R69). -/
structure PSrc where
  n : Fin 8
  inv : Bool
  deriving DecidableEq, Repr

/-- Element width of class 000 (R77). -/
inductive Width where
  | w32 | w16 | w8 | w4
  deriving DecidableEq, Repr

/-- Rounding modes of class 001 (R18, R77). -/
inductive RMode where
  | rn | rz | ru | rd
  deriving DecidableEq, Repr

/-- Packing of class 001 (R77). -/
inductive Pack where
  | fp32 | bf16x2 | f16x2
  deriving DecidableEq, Repr

/-- Scopes (R77, R254). -/
inductive Scope where
  | none | wp | bk | cl | dv | sy
  deriving DecidableEq, Repr

/-- Orders (R77). -/
inductive Order where
  | plain | acq | rel | ar
  deriving DecidableEq, Repr

/-- Access sizes (R74). -/
inductive Size where
  | b8 | b16 | b32 | b64 | b128
  deriving DecidableEq, Repr

/-- Integer comparisons of ISETP and SCMP (R90, R226). -/
inductive ICmp where
  | eq | ne | lt | le | gt | ge
  deriving DecidableEq, Repr

/-- Floating-point comparisons of FSETP (R120). -/
inductive FCmp where
  | eq | ne | lt | le | gt | ge | num | nan
  deriving DecidableEq, Repr

/-- Modes of SHFL (R105). -/
inductive ShflMode where
  | from | lo | hi | flip
  deriving DecidableEq, Repr

/-- Modes of VOTE with the destination each takes (R106). -/
inductive VoteForm where
  | every (p : Fin 8)
  | some (p : Fin 8)
  | same (p : Fin 8)
  | bits (d : Dst)
  deriving DecidableEq, Repr

/-- Operations of REDX and SCANX (R107). -/
inductive RedOp where
  | add | min | max | and | or | xor | fadd | fmin | fmax
  deriving DecidableEq, Repr

/-- Operations of PLOP (R110). -/
inductive PLogic where
  | and | or | xor
  deriving DecidableEq, Repr

/-- The two forms of PMOV (R110). -/
inductive PMovForm where
  | toP (p : Fin 8) (a : Src)
  | toV (d : Dst) (p : PSrc)
  deriving DecidableEq, Repr

/-- Type codes of CVT (R100); the ternary and reserved codes have no constructor. -/
inductive CvtType where
  | f32 | bf16 | f16 | e4m3 | e5m2 | s8 | s4 | s32 | u32 | s16 | u16 | u8 | u4
  deriving DecidableEq, Repr

/-- Operations of ATOM and SATOM (R141). -/
inductive AtomOp where
  | add | min | max | and | or | xor | exch | cas
  deriving DecidableEq, Repr

/-- Comparisons of WAITA and CWAIT (R148). -/
inductive WCmp where
  | eq | ne | lt | ge | ltu | geu
  deriving DecidableEq, Repr

/-- Kinds of PREF (R149). -/
inductive PrefKind where
  | mc | tlb
  deriving DecidableEq, Repr

/-- The target of BRU: an offset, or a register under .r (R157). -/
inductive BruTarget where
  | off (o : BitVec 32)
  | reg (a : Src)
  deriving DecidableEq, Repr

/-- The value n of TWAIT: an immediate 0 to 8,191 or a register pair (R234). -/
inductive TwN where
  | imm (n : BitVec 13)
  | pair (k : Fin 128)
  deriving DecidableEq, Repr

/-- The value of SIGOP: a signed immediate or a register pair (R234). -/
inductive SigVal where
  | imm (i : BitVec 14)
  | pair (k : Fin 128)
  deriving DecidableEq, Repr

/-- Signal operations (R239, R309). -/
inductive SigOp where
  | sub | add | set
  deriving DecidableEq, Repr

/-! ## Fields of the helm and engine streams -/

/-- A helm destination (R75). -/
inductive HDst where
  | s (n : Fin 64)
  | q (n : Fin 8)
  deriving DecidableEq, Repr

/-- A helm source (R75). -/
inductive HSrc where
  | s (n : Fin 64)
  | q (n : Fin 8)
  | imm (i : BitVec 14)
  deriving DecidableEq, Repr

/-- A parameter or a count of an engine stream (R76). -/
inductive PC where
  | p (n : Fin 64)
  | c (n : BitVec 16)
  deriving DecidableEq, Repr

/-- The two forms of CSIG (R309). -/
inductive CSigForm where
  | sig (op : SigOp) (scope : Scope) (addr : Fin 64) (val : PC)
  | bar (b : Fin 32) (n : BitVec 16)
  deriving DecidableEq, Repr

/-- The two forms of CWAIT (R310). -/
inductive CWaitForm where
  | sig (cmp : WCmp) (scope : Scope) (addr : Fin 64) (val : PC)
  | bar (b : Fin 32)
  deriving DecidableEq, Repr

/-- Kinds of MMA (R313). -/
inductive MmaKind where
  | fp8 | i8 | ti8 | i8t | bf16
  deriving DecidableEq, Repr

/-- Conversions of MSTORE (R316). -/
inductive MConv where
  | f32 | bf16 | q
  deriving DecidableEq, Repr

/-- Counters of MLOOP (R311). -/
inductive MCtr where
  | none | rowb | colb | kb
  deriving DecidableEq, Repr

/-! ## What events name -/

/-- Who issues an instruction: a gang of a warp, a helm, or an engine stream of a block (R14). Blocks are named by
their place in State.blocks, gangs by their creation number. -/
inductive Party where
  | gang (b w g : Nat)
  | helm (b : Nat)
  | stream (b : Nat) (k : Fin 4)
  deriving DecidableEq, Repr

/-- A place in storage: device memory by physical address, the span by its offset in the window, fabric memory by
context, endpoint index and remote address (R241, R367). -/
inductive Loc where
  | dev (pa : Nat)
  | span (off : Nat)
  | fab (ctx ep : Nat) (ra : Nat)
  deriving DecidableEq, Repr

/-- A register whose error POISON_DETECTED reports (R429, R430). -/
inductive PoisonAt where
  | v (b w : Nat) (n : Fin 256) (lanes : LaneMask)
  | o (b w : Nat) (n : Fin 8) (lanes : LaneMask)
  | p (b w : Nat) (n : Fin 7)
  | x (b w : Nat) (n : Fin 8)
  | latch (b w g : Nat) (lanes : LaneMask)
  | s (b : Nat) (n : Fin 64)
  | spanWord (off : Nat)
  | slot (core : Fin 256) (m : Fin 64)
  | tile (core : Fin 256) (a : Fin 48)
  | granule (pa : Nat)
  deriving DecidableEq, Repr

/-- An incoming fabric request: what the window table matches on, and where (R371). -/
structure Req where
  job : BitVec 24
  pid : BitVec 12
  ri : BitVec 12
  off : Nat
  deriving DecidableEq, Repr

/-- Incoming atomic operations (R363). -/
inductive RmaOp where
  | add | min | max | umin | umax | and | or | xor | swap | cas
  deriving DecidableEq, Repr

/-- What a scrub read found in a granule (R432). -/
inductive ScrubFound where
  | clean | corrected | bad
  deriving DecidableEq, Repr

/-- A path that a recalibration step holds (R437). -/
inductive CalPath where
  | hbm (stack : Fin 8)
  | viaduct (n : Fin 16)
  | port (n : Fin 16)
  deriving DecidableEq, Repr

/-- Firmware that a management session sends: the session, and the image's SM3 digest and bytes (R436, R440, R445). -/
structure FwImage where
  session : Nat
  digest : BitVec 256
  bytes : List Byte := []
  deriving DecidableEq, Repr

/-! ## The instructions -/

/-- One constructor for each row of the opcode table. -/
inductive Instr where
  -- class 000 (R83 to R110)
  | iadd (c : Ctl) (d : Dst) (a b : Src) (w : Width) (sat u : Bool)
  | isub (c : Ctl) (d : Dst) (a b : Src) (w : Width) (sat u : Bool)
  | imul (c : Ctl) (d : Dst) (a b : Src) (w : Width) (sat u : Bool)
  | imulhi (c : Ctl) (d : Dst) (a b : Src) (w : Width) (u : Bool)
  | imad (c : Ctl) (d : Dst) (a b e : Src) (w : Width) (sat u : Bool)
  | imin (c : Ctl) (d : Dst) (a b : Src) (w : Width) (u : Bool)
  | imax (c : Ctl) (d : Dst) (a b : Src) (w : Width) (u : Bool)
  | iabs (c : Ctl) (d : Dst) (a : Src) (w : Width) (sat : Bool)
  | isetp (c : Ctl) (p : Fin 8) (a b : Src) (cmp : ICmp) (u : Bool)
  | shl (c : Ctl) (d : Dst) (a b : Src) (w : Width)
  | shr (c : Ctl) (d : Dst) (a b : Src) (w : Width)
  | sar (c : Ctl) (d : Dst) (a b : Src) (w : Width)
  | and (c : Ctl) (d : Dst) (a b : Src)
  | or (c : Ctl) (d : Dst) (a b : Src)
  | xor (c : Ctl) (d : Dst) (a b : Src)
  | andn (c : Ctl) (d : Dst) (a b : Src)
  | lop3 (c : Ctl) (d : Dst) (a b : Src) (e : RegSrc) (tt : BitVec 8)
  | popc (c : Ctl) (d : Dst) (a : Src) (w : Width)
  | clz (c : Ctl) (d : Dst) (a : Src) (w : Width)
  | brev (c : Ctl) (d : Dst) (a : Src) (w : Width)
  | bfx (c : Ctl) (d : Dst) (a b : Src) (u : Bool)
  | bfi (c : Ctl) (d : Dst) (a b e : Src)
  | sel (c : Ctl) (d : Dst) (a b : Src) (p : PSrc)
  | prmt (c : Ctl) (d : Dst) (a b e : Src)
  | idot4 (c : Ctl) (d : Dst) (a b e : Src) (sat u : Bool)
  | mov (c : Ctl) (d : Dst) (a : Src)
  | movi (c : Ctl) (d : Dst) (imm : Word)
  | cvt (c : Ctl) (d : Dst) (a : Src) (dt st : CvtType) (rm : RMode) (sat : Bool)
  | sread (c : Ctl) (d : Dst) (sel : Fin 10) (hi : Bool)
  | vtag (c : Ctl) (d : Dst) (a : RegSrc)
  | vshape (c : Ctl) (n : Fin 256)
  | vexp (c : Ctl) (n : Fin 256)
  | shfl (c : Ctl) (d : Dst) (a b : Src) (mode : ShflMode)
  | vote (c : Ctl) (form : VoteForm) (p : PSrc)
  | redx (c : Ctl) (d : Dst) (a : Src) (op : RedOp) (sat u : Bool)
  | scanx (c : Ctl) (d : Dst) (a : Src) (op : RedOp) (sat u : Bool)
  | xset (c : Ctl) (x : Fin 8) (base limit vidx : Src)
  | xclr (c : Ctl) (x : Fin 8)
  | plop (c : Ctl) (p : Fin 8) (a b : PSrc) (op : PLogic)
  | pmov (c : Ctl) (form : PMovForm)
  -- class 001 (R111 to R127)
  | fadd (c : Ctl) (d : Dst) (a b : Src) (rm : RMode) (pk : Pack)
  | fsub (c : Ctl) (d : Dst) (a b : Src) (rm : RMode) (pk : Pack)
  | fmul (c : Ctl) (d : Dst) (a b : Src) (rm : RMode) (pk : Pack)
  | ffma (c : Ctl) (d : Dst) (a b e : Src) (rm : RMode) (pk : Pack)
  | fmin (c : Ctl) (d : Dst) (a b : Src) (pk : Pack)
  | fmax (c : Ctl) (d : Dst) (a b : Src) (pk : Pack)
  | fsetp (c : Ctl) (p : Fin 8) (a b : Src) (cmp : FCmp)
  | frnd (c : Ctl) (d : Dst) (a : Src) (rm : RMode) (pk : Pack)
  | fclass (c : Ctl) (d : Dst) (a : Src)
  | fscale (c : Ctl) (d : Dst) (a b : Src) (rm : RMode) (pk : Pack)
  | fdot2 (c : Ctl) (d : Dst) (a b e : Src) (rm : RMode) (pk : Pack)
  | rcp (c : Ctl) (d : Dst) (a : Src)
  | rsq (c : Ctl) (d : Dst) (a : Src)
  | sqrt (c : Ctl) (d : Dst) (a : Src)
  | ex2 (c : Ctl) (d : Dst) (a : Src)
  | lg2 (c : Ctl) (d : Dst) (a : Src)
  | sinpi (c : Ctl) (d : Dst) (a : Src)
  | cospi (c : Ctl) (d : Dst) (a : Src)
  | tanh (c : Ctl) (d : Dst) (a : Src)
  -- class 010 (R128 to R149); an address pair k names v(2k), v(2k+1)
  | ld (c : Ctl) (d : Dst) (addr : Fin 128) (off : BitVec 18) (ord : Order) (scope : Scope) (raw sx : Bool) (size : Size)
  | st (c : Ctl) (addr : Fin 128) (data : Src) (off : BitVec 18) (ord : Order) (scope : Scope) (raw : Bool)
      (ver : Option (BitVec 8)) (size : Size)
  | qst (c : Ctl) (addr : Fin 128) (data : Src) (off : BitVec 18) (ord : Order) (scope : Scope)
      (ver : Option (BitVec 8)) (size : Size)
  | atom (c : Ctl) (d : Option Dst) (addr : Fin 128) (data : Src) (op : AtomOp) (u : Bool) (ord : Order)
      (scope : Scope) (size : Size)
  | atomo (c : Ctl) (addr : Fin 128) (data : Src) (off : BitVec 18)
  | fence (c : Ctl) (ord : Order) (scope : Scope) (flush : Bool)
  | waita (c : Ctl) (d : Dst) (addr : Fin 128) (data : Src) (cmp : WCmp) (ord : Order) (scope : Scope) (size : Size)
  | pref (c : Ctl) (addr : Fin 128) (off : BitVec 18) (kind : PrefKind)
  -- class 011 (R150 to R168, R234 to R239)
  | bra (c : Ctl) (rc : BitVec 18) (off : BitVec 32)
  | bru (c : Ctl) (t : BruTarget)
  | brx (c : Ctl) (rc : BitVec 18) (a : Src)
  | call (c : Ctl) (off : BitVec 32)
  | callx (c : Ctl) (a : Src)
  | ret (c : Ctl)
  | regang (c : Ctl) (a : Src)
  | exit (c : Ctl)
  | yield (c : Ctl)
  | safe (c : Ctl) (n : BitVec 13)
  | xfer (c : Ctl) (a : Src) (bk : Bool)
  | trap (c : Ctl) (n : BitVec 13)
  | nop (c : Ctl)
  | bkpt (c : Ctl)
  | bara (c : Ctl) (b n : Src)
  | barw (c : Ctl) (b : Src)
  | bars (c : Ctl) (b n : Src)
  | twait (c : Ctl) (p : Option (Fin 8)) (k : Fin 4) (n : TwN)
  | dqpop (c : Ctl) (d : Dst)
  | sigop (c : Ctl) (addr : Fin 128) (val : SigVal) (op : SigOp) (scope : Scope)
  -- class 100 (R223 to R233)
  | sadd (c : Ctl) (d : Fin 64) (a b : HSrc)
  | ssub (c : Ctl) (d : Fin 64) (a b : HSrc)
  | smul (c : Ctl) (d : Fin 64) (a b : HSrc)
  | sand (c : Ctl) (d : HDst) (a b : HSrc)
  | sor (c : Ctl) (d : HDst) (a b : HSrc)
  | sxor (c : Ctl) (d : HDst) (a b : HSrc)
  | sshl (c : Ctl) (d : Fin 64) (a b : HSrc)
  | sshr (c : Ctl) (d : Fin 64) (a b : HSrc)
  | ssar (c : Ctl) (d : Fin 64) (a b : HSrc)
  | smin (c : Ctl) (d : Fin 64) (a b : HSrc) (u : Bool)
  | smax (c : Ctl) (d : Fin 64) (a b : HSrc) (u : Bool)
  | scmp (c : Ctl) (q : Fin 8) (a b : HSrc) (cmp : ICmp) (u : Bool)
  | ssel (c : Ctl) (d : Fin 64) (a b : HSrc) (q : Fin 8)
  | smov (c : Ctl) (d : HDst) (a : HSrc)
  | smovi (c : Ctl) (d : Fin 64) (imm : Word) (hi : Bool)
  | sld (c : Ctl) (d a : Fin 64) (off : BitVec 18) (ord : Order) (scope : Scope) (sx : Bool) (size : Size)
  | sst (c : Ctl) (a : Fin 64) (b : HSrc) (off : BitVec 18) (ord : Order) (scope : Scope) (size : Size)
  | satom (c : Ctl) (d : Option (Fin 64)) (a b : Fin 64) (op : AtomOp) (u : Bool) (ord : Order) (scope : Scope)
      (size : Size)
  | sbr (c : Ctl) (off : BitVec 32)
  | sjmp (c : Ctl) (a : Fin 64)
  | scall (c : Ctl) (off : BitVec 32)
  | sret (c : Ctl)
  | dqpush (c : Ctl) (v m : HSrc)
  | fork (c : Ctl) (k : Fin 4) (e : HSrc)
  | join (c : Ctl) (k : Fin 4)
  | hend (c : Ctl)
  -- class 101 (R295, R302 to R311)
  | cpy (c : Ctl) (p : Fin 64)
  | cpys (c : Ctl) (p : Fin 64)
  | cgath (c : Ctl) (p : Fin 64)
  | cscat (c : Ctl) (p : Fin 64)
  | tgath (c : Ctl) (d a b : Fin 128) (len : Src)
  | cred (c : Ctl) (p : Fin 64)
  | cfill (c : Ctl) (p : Fin 64)
  | cslot (c : Ctl) (m p : Fin 64)
  | crecode (c : Ctl) (p : Fin 64) (t : Bool)
  | csig (c : Ctl) (form : CSigForm)
  | cwait (c : Ctl) (form : CWaitForm)
  | cloop (c : Ctl) (n : PC) (len : BitVec 16)
  | cend (c : Ctl)
  -- class 110 (R296, R312 to R319)
  | mclaim (c : Ctl) (a : Fin 48) (m : Fin 64) (ns nt : BitVec 16)
  | mrel (c : Ctl) (a : Fin 48) (m : Fin 64) (ns nt : BitVec 16)
  | mma (c : Ctl) (d : Fin 48) (a b : Fin 64) (kind : MmaKind)
  | mmag (c : Ctl) (d : Fin 48) (x g : Fin 64) (p : Fin 64)
  | mzero (c : Ctl) (d : Fin 48)
  | mstore (c : Ctl) (a : Fin 48) (p : Fin 64) (conv : MConv)
  | macc (c : Ctl) (d a : Fin 48)
  | mbara (c : Ctl) (b : Fin 32) (n : BitVec 16)
  | mbarw (c : Ctl) (b : Fin 32)
  | mloop (c : Ctl) (n : PC) (len : BitVec 16) (ctr : MCtr)
  | msave (c : Ctl) (p : Fin 64)
  | mresume (c : Ctl) (p : Fin 64)
  | mcur (c : Ctl) (profile : BitVec 16)
  | mend (c : Ctl)
  -- class 111 (R423 to R428)
  | csrr (c : Ctl) (d : Dst) (sel : Fin 8)
  | csrw (c : Ctl) (sel : Fin 8) (a : Src)
  | trapret (c : Ctl)
  | cont (c : Ctl) (a : Src)
  | fresume (c : Ctl)
  -- events of the cores
  | loadDataArrives (id : Nat)
  | atomReturn (id : Nat)
  | cellClose (l : Loc)
  | waitaSatisfied (p : Party)
  | fabricPoll (p : Party)
  | versionTransfer (b w : Nat)
  | barrierWaitComplete (p : Party)
  | twaitSatisfied (p : Party)
  | dqpopDeliver (p : Party)
  | helmLoadReturn (id : Nat)
  | dqpushAppend (b : Nat)
  | forkStart (b : Nat)
  | joinComplete (b : Nat)
  | tgathAccept (p : Party)
  | cwaitSatisfied (b : Nat) (k : Fin 4)
  | mclaimTaken (b : Nat)
  | mbarwSatisfied (b : Nat)
  | matrixGrant (b : Nat)
  | operationComplete (b : Nat) (k : Fin 4) (n : Nat)
  | watchdog
  | storeImprecise (r : Nat)
  | poisonDetected (at_ : PoisonAt)
  -- events of the command processor and the Pontoon
  | writeIndexObserved (q : Nat)
  | nodePacket (q : Nat)
  | graphPacket (q : Nat)
  | copyPacket (q : Nat)
  | barrierPacket (q : Nat)
  | barrierRound (q n : Nat)
  | barrierPoll (q n : Nat)
  | signalPacket (q : Nat)
  | xferPacket (q : Nat)
  | nopPacket (q : Nat)
  | packetRetire (q n : Nat)
  | graphNodeComplete (n : Nat)
  | blockRelease
  | selectedBlockTimeout (q : Nat)
  | interimCharge (b : Nat)
  | blockEnd (b : Nat)
  | blockEvict (b : Nat)
  | blockWake (b : Nat)
  | blockRestore (b : Nat)
  | fabricLoadIntoImage (id : Nat) (data : List Byte)
  | adapterPrefetch (q n h : Nat)
  -- events of translation and migration
  | faultService (ctx n : Nat)
  | migrationRequest (ctx va : Nat) (tier : Bool) (ep : BitVec 8) (dst : Nat)
  | migrationCopyDone (m : Nat) (ok : Bool)
  | sdgo (session : Nat)
  | shootdownComplete
  -- events of the fabric
  | fabricDeliveryComplete (id : Nat) (data : List Byte)
  | fabricOperationFailed (id : Nat)
  | rmaWrite (r : Req) (data : List Byte)
  | rmaRead (r : Req) (len : Nat)
  | atomicNonFetching (r : Req) (op : RmaOp) (wide : Bool) (val : Word64)
  | atomicFetching (r : Req) (op : RmaOp) (wide : Bool) (val cmp : Word64)
  | unsupportedRequest (code : Nat)
  | securityCheckDrop
  | laneRetire (port : Fin 16) (lane : Fin 4)
  | portRetrainDone (port : Fin 16)
  -- events of service
  | patrolScrub (pa : Nat) (found : ScrubFound)
  | scrubWriteBack (pa : Nat)
  | channelRetire (stack : Fin 8) (ch : Fin 32)
  | channelCopyComplete (stack : Fin 8) (ch : Fin 32)
  | spareTakeover (c : Fin 256)
  | spanSliceCopyComplete (c : Fin 256)
  | spanRangeCleared (base : Nat)
  | firmwareReplacement (image : FwImage) (ok : Bool)
  | recalibration (p : CalPath)
  | arbiterEpoch
  | powerOn
  -- management requests and writes
  | registerQueue
  | deregisterQueue
  | moveCode
  | retireVersion
  | resetPort
  | endNode
  | priorityLevelWrite (session : Nat) (level : Fin 24) (val : Word)
  | pwrbudgetWrite (session : Nat) (val : Word)
  | dbgresume (session : Nat) (n : Fin 64) (val : Word)
  | managementWrite (session off : Nat) (size : Nat) (val : Word64)
  -- SPDM and TDISP messages
  | getVersion
  | getCapabilities
  | negotiateAlgorithms
  | getDigests
  | getCertificate (slot : BitVec 8)
  | challenge (slot : BitVec 8)
  | getMeasurements (idx : BitVec 8)
  | keyExchange (authOk : Bool)
  | finish (session : Nat) (ok : Bool)
  | heartbeat (session : Nat)
  | keyUpdate (session : Nat)
  | endSession (session : Nat)
  | spdmUnsupported (code : BitVec 8)
  | lockInterfaceRequest (session : Nat) (n : Fin 64)
  | startInterfaceRequest (session : Nat) (n : Fin 64)
  | stopInterfaceRequest (session : Nat) (n : Fin 64)
  | getDeviceInterfaceState (session : Nat) (n : Fin 64)
  | getDeviceInterfaceReport (session : Nat) (n : Fin 64)
  | keyStoreError (n : Fin 64)
  deriving DecidableEq, Repr

end Sys2Proof
end

