-- ==== Sys2Proof/Machine/State.lean ====
section
/-!
DEFINITION. The state of the ZL90: every piece of state the manual gives the part, as plain data, and its value at reset.
Lists that stand for sparse storage (memory, line versions, slots, tiles) hold (address, byte) pairs in one canonical
form: addresses strictly rising, no zero byte; an unlisted address reads 0 (log 1).
-/
namespace Sys2Proof.Machine

open Sys2Proof

/-- Sparse bytes by address, in canonical form (log 1, DESIGN CHOICE). -/
abbrev Mem := List Host.Cell

/-! ## Registers of a warp -/

/-- The value of a tagged register (R42): uniform, affine or general. Its constructor is its tag. -/
inductive VVal where
  | u (x : Word)
  | a (base stride : Word)
  | g (lanes : Vector Word 32)
  deriving DecidableEq, Repr

/-- A vector register, operand-file slot or latch: its value and the poison bit of each lane (R42, R430). -/
structure VReg where
  val : VVal
  poison : LaneMask
  deriving DecidableEq, Repr

/-- A predicate: uniform or general (R42). -/
inductive PVal where
  | u (x : Bool)
  | g (bits : LaneMask)
  deriving DecidableEq, Repr

/-- A predicate register with the poison bit of each lane (R429, R430). -/
structure PReg where
  val : PVal
  poison : LaneMask
  deriving DecidableEq, Repr

/-- An index descriptor (R50) and its poison (R429). -/
structure XDesc where
  limit : BitVec 9
  vidx : BitVec 8
  base : BitVec 8
  poison : Bool
  deriving DecidableEq, Repr

/-- Kinds of mask-stack entry (R152). -/
inductive MKind where
  | path | join | ret
  deriving DecidableEq, Repr

/-- A mask-stack entry (R152). -/
structure MEntry where
  kind : MKind
  mask : BitVec 4
  resume : Word
  rpc : Word
  deriving DecidableEq, Repr

/-- A slice: whether it has not ended, its active lanes, and its mask stack with the top first (R152, R162). -/
structure Slice where
  live : Bool
  active : BitVec 4
  stack : List MEntry
  deriving DecidableEq, Repr

/-- One element of a format page (R20, R250): its format, the byte that holds it, its place in that byte, its dither in
eighths (R26), its block scale (R27), whether it is the one element of a ternary page's last byte (R21), and the places
of its scale and dither entry whose read met uncorrectable data or failed (R134, R249, R370). -/
structure Elem where
  fmt : BitVec 4
  loc : Loc
  sub : Nat
  d8 : Int
  scale : BitVec 16
  last : Bool
  bad : List Loc
  deriving DecidableEq, Repr

/-- One lane's access: its address, the byte where it starts, and, for a decoding or quantising access, its elements
(R130, R136, R139). -/
structure LaneAcc where
  lane : Nat
  ea : Nat
  loc : Loc
  els : List Elem
  mig : Bool := false
  deriving DecidableEq, Repr

/-- What a pending result of class 010 is (R135, R141). -/
inductive PendKind where
  | load (raw sx : Bool)
  | atomic (olds : List (Nat × Word64))
  deriving DecidableEq, Repr

/-- A result of a warp that arrives after issue (R49, R176): a load or a returning atomic. It names lanes and no gang,
since gangs part and merge while it is on its way. takes lists the lines held for it (R49); data holds the bytes fabric memory
has returned by lane (R369), failed the lanes whose fabric operation failed (R370). -/
structure Pend where
  id : Nat
  kind : PendKind
  dst : Dst
  /-- The registers that an indexed destination reached at issue, by lane (R51). -/
  idx : List (Nat × Fin 256)
  lanes : LaneMask
  accs : List LaneAcc
  size : Size
  uni : Bool
  acq : Bool
  takes : List (Fin 256)
  data : List (Nat × List Byte)
  failed : LaneMask
  deriving DecidableEq, Repr

/-- One lane of a WAITA: its address and place, the value it compares with, and its first satisfying value or its poison
(R148). -/
structure WaitLane where
  lane : Nat
  ea : Nat
  loc : Loc
  cmp : Word64
  got : Option Word64
  bad : Bool
  deriving DecidableEq, Repr

/-- Where a gang stands (R171, R201, R240). `none` is running. -/
inductive GWait where
  | none
  | regang (mask : SliceMask)
  | safe (n : BitVec 13)
  | bkpt
  | bar (bar : Nat) (phase : Word)
  | twait (k : Fin 4) (n : Word64) (pd : Option (Fin 8)) (lanes : LaneMask)
  | dqpop (d : Dst) (lanes : LaneMask)
  | waita (d : Dst) (lanes : LaneMask) (ls : List WaitLane) (cmp : WCmp) (size : Size) (uni : Bool)
  | fabric (id : Nat)
  | page (ctx va lane : Nat)
  /-- For a record that waits for a slot of the ring, with a continuation to enter once it is written (R382, R397). -/
  | ring (ctx va lane ea : Nat)
  | mig (ctx vpage : Nat)
  | tgath (d : Fin 128) (lanes : LaneMask) (rows : List (Nat × Nat × Nat)) (dst len : Nat)
  | fresume (va lane : Nat)
  /-- At the end of a RECOMP sequence, until every gang of the warp is there (R410). -/
  | recomp
  deriving DecidableEq, Repr

/-- The RECOMP sequences of a transfer that a gang runs: where it lands, with the mask of the REGANG at which it waits there,
the sequences left, and whether it is in a handler (R410). -/
structure RecompRun where
  land : Word
  back : Option SliceMask
  rest : List Word
  inHandler : Bool
  deriving DecidableEq, Repr

/-- The state a gang saves on entering its continuation (R397): latch, with the results that it awaits, predicates, PC, the
faulting address and lane, and the STATUS of its record that was acted on meanwhile, 0 for none. -/
structure ContSave where
  latch : VReg
  lat : List (Nat × LaneMask) := []
  preds : Vector PReg 7
  pc : Word
  va : Nat
  lane : Nat
  got : Nat
  deriving DecidableEq, Repr

/-- A gang (R175, R199): creation number, slices, PC, latch, slot (0 for none), wait, trap registers (R424), watchdog count
(R421), when it last issued (R171), the pending results that its scoreboard tracks (R176, R178), the results its latch still
awaits with the lanes each will give it (R178, R179), the lines held for the result it waits for (R49) and the registers that
its indexed destination reached at issue, by lane (R51), a saved continuation, and whether its next issue replays an access
(R380). -/
structure Gang where
  gid : Nat
  slices : SliceMask
  pc : Word
  latch : VReg
  slot : Fin 3
  wait : GWait
  epc : Word
  inHandler : Bool
  tlane : Fin 32
  tcode : BitVec 16
  wd : Word64
  last : Nat
  board : List Nat := []
  lat : List (Nat × LaneMask)
  takes : List (Fin 256)
  reach : List (Nat × Fin 256) := []
  contSave : Option ContSave
  replay : Bool
  recomp : Option RecompRun
  deriving DecidableEq, Repr

/-- A warp (R41, R185, R189, R424). -/
structure Warp where
  role : Fin 4
  width : Fin 9
  gmax : Nat
  regs : Vector VReg 256
  ofile : Vector VReg 8
  preds : Vector PReg 7
  xd : Vector XDesc 8
  slices : Vector Slice 8
  gangs : List Gang
  nextGid : Nat
  tvec : Word
  cont : Word
  version : BitVec 16
  dirIdx : Nat
  xferReq : Option (BitVec 16)
  /-- A request recorded after a transfer has started: it takes effect at the next SAFE after it (R411). -/
  xferNext : Option (BitVec 16)
  safeN : Option (BitVec 13)
  /-- ISSUED of k0 to k3 as the warp stopped for a transfer (R410). -/
  drainAt : Option (List Nat)
  dqPos : Nat
  pend : List Pend
  /-- Slot 2 has issue after a hand-over (R172). -/
  handover : Bool
  /-- When a gang of the warp last executed YIELD (R163). -/
  yieldAt : Nat := 0
  deriving DecidableEq, Repr

/-! ## The helm and the engine streams of a block -/

/-- Where the helm stands (R210, R240). -/
inductive HWait where
  | none
  | dqpush (v : Word) (mask : BitVec 4)
  | fork (k : Fin 4) (e : Word)
  | join (k : Fin 4)
  | load (id : Nat)
  | page (ctx va : Nat)
  | mig (ctx vpage : Nat)
  deriving DecidableEq, Repr

/-- A helm load or returning SATOM not yet complete (R227). old is the value an atomic has read, data what fabric
memory returned. -/
structure HPend where
  id : Nat
  d : Fin 64
  acc : LaneAcc
  size : Size
  sx : Bool
  old : Option Word64
  data : Option (List Byte)
  failed : Bool
  acq : Bool
  deriving DecidableEq, Repr

/-- The helm of a block (R58, R209, R224, R230). -/
structure Helm where
  s : Vector Word64 64
  q : Vector Bool 8
  poison : Vector Bool 64
  pc : Word
  stack : List Word
  wd : Word64
  wait : HWait
  ended : Bool
  pend : List HPend
  replay : Bool
  deriving DecidableEq, Repr

/-- A loop level of a stream (R299): its trip count, remaining count, body and counter. -/
structure Loop where
  trip : Nat
  left : Nat
  first : Word
  last : Word
  ctr : MCtr
  deriving DecidableEq, Repr

/-- Where an engine stream stands (R240, R298, R310, R312). drop says that a fatal page abandons the numbered operation that
waits for it. -/
inductive SWait where
  | none
  | bar (bar : Nat) (phase : Word)
  | sig (l : Loc) (cmp : WCmp) (v : Word64)
  | claim (a m ns nt : Nat)
  | grant (req : BitVec 16)
  /-- At an MMAG whose segments are being added (R281, R298). -/
  | seg
  | page (ctx va : Nat) (drop : Bool)
  | mig (ctx vpage : Nat)
  deriving DecidableEq, Repr

/-- An engine stream (R76, R215, R291, R299). -/
structure Stream where
  running : Bool
  pc : Word
  params : Vector Word64 64
  loops : List Loop
  rowb : BitVec 16
  colb : BitVec 16
  kb : BitVec 16
  profile : BitVec 16
  granted : Option (BitVec 16)
  wait : SWait
  deriving DecidableEq, Repr

/-- The origin of a slot (R282): plain, or the format entry's fields with its dither table as read at the fill. -/
structure Origin where
  plain : Bool
  fmt : BitVec 4
  den : Bool
  dither : Nat
  dtab : List Byte
  e0 : Nat
  rho : Nat
  rv : Nat
  kv : Nat
  scales : List (BitVec 16)
  deriving DecidableEq, Repr

/-- The copy instructions whose rows come from a descriptor (R302). -/
inductive CopyKind where
  | cpy
  | cpys
  | cgath
  | cscat
  | cred
  | cfill
  | cslot (m : Fin 64)
  | crecode (t : Bool)
  deriving DecidableEq, Repr

/-- What one row of an engine operation does (R292, R302, R308, R316, R314). Addresses are virtual. -/
inductive RowKind where
  /-- bytes, or codes, from src to dst (R292) -/
  | raw (src dst len : Nat)
  /-- a TGATH row: bytes between plain places (R308) -/
  | gather (src dst len : Nat)
  /-- a reduction of len bytes by REDOP (R304) -/
  | red (src dst len op : Nat)
  /-- a fill of len bytes with a pattern of w bytes (R305) -/
  | fill (dst len : Nat) (pat : Word64) (w : Nat)
  /-- row r of CRECODE: n elements (R307) -/
  | recode (src dst r n : Nat) (dstride : Int) (t : Bool)
  /-- row r of a slot (R306) -/
  | slot (src r n : Nat)
  /-- row i of a tile to memory (R316) -/
  | tile (a i dst n : Nat) (conv : MConv)
  /-- the segments of an MMAG from row i on: table, list of ids, slots and counters as at its start (R314, R323) -/
  | seg (d x g table : Nat) (ids : List (BitVec 16)) (i : Nat) (colb kb : BitVec 16)
  /-- the start of a copy operation: its descriptor's address, read at the start, and its pass (R301) -/
  | plan (c : CopyKind) (desc pass : Nat)
  /-- what the rows of a versioned operation have gathered is written, after all of them (R140, R292) -/
  | put
  deriving DecidableEq, Repr

/-- A row of an operation that is still to be performed: its index, what it does, its fabric reads that have not
returned, by id with the address read, the fabric bytes read so far, by address, and, for a segment, its entry as read
(R293, R323, R369); the page it waits for; and whether it has met a recoverable fault and has still to be replayed (R293). -/
structure Row where
  n : Nat
  kind : RowKind
  fabs : List (Nat × Nat)
  data : List (Nat × List Byte)
  stalled : Option (Nat × Nat) := none
  missed : Bool := false
  deriving DecidableEq, Repr

/-- What a versioned operation writes once its lines have been checked (R140, R292): at an address of device memory, named by
a virtual address, bytes, or a code with its format, its place in the byte and whether the byte is a ternary page's last. -/
structure VerW where
  addr : Nat
  va : Nat
  data : List Byte
  code : Option (Nat × Nat × Nat × Bool)
  deriving DecidableEq, Repr

/-- A fill in progress: its slot, its origin so far, and the rows read, with their bytes (R282, R306). -/
structure Fill where
  m : Fin 64
  origin : Origin
  rows : List (Nat × List Byte)
  deriving DecidableEq, Repr

/-- A numbered operation that has not completed (R214, R217, R293, R303, R391): its number, issuer's PC, the warp of a TGATH,
the rows still to be performed, its versioned write with what it has still to write (R292), its fill, whether it has started,
and the ranges of addresses that it writes. -/
structure EngOp where
  n : Nat
  pc : Word
  warp : Option Nat
  rows : List Row
  ver : Option (BitVec 8)
  writes : List VerW
  fill : Option Fill
  started : Bool
  dsts : List (Nat × Nat)
  deriving DecidableEq, Repr

/-- An engine context (R214, R217, R219, R237). -/
structure EngCtx where
  issued : Nat
  done : Nat
  faulted : Bool
  abandoned : Option Nat
  forked : Bool
  stream : Option Stream
  ops : List EngOp
  deriving DecidableEq, Repr

/-- A numbered barrier (R220, R221). -/
structure Bar where
  phase : Word
  count : Nat
  arrived : Nat
  deriving DecidableEq, Repr

/-- A party of the barriers (R221). -/
inductive BParty where
  | helm
  | warp (w : Nat)
  | stream (k : Fin 4)
  deriving DecidableEq, Repr

/-- An entry of the decision queue (R211): its place in push order, value, role mask. -/
structure DqEnt where
  seq : Nat
  val : Word
  mask : BitVec 4
  deriving DecidableEq, Repr

/-- A claim of slots and tiles (R280). -/
structure Claim where
  slots : List Nat
  tiles : List Nat
  deriving DecidableEq, Repr

/-- An entry of the atomic buffer in deterministic mode (R142, R228): helm first, then (warp, lane), program order. acq says
that it orders later accesses of its lane behind it, rel that it follows every earlier one (R141). -/
structure BufAtom where
  warp : Option Nat
  lane : Nat
  ea : Nat
  loc : Loc
  op : AtomOp
  u : Bool
  size : Size
  b1 : Word64
  b2 : Word64
  pc : Word
  acq : Bool := false
  rel : Bool := false
  deriving DecidableEq, Repr

/-- Life of a block (R191 to R193, R388 to R396): saving is frozen, with its image still to be written (R389, R390). -/
inductive BStatus where
  | resident
  | saving
  | evicted (ready : Bool)
  | ending
  | ended
  deriving DecidableEq, Repr

/-- An operand slot (R279): FREE without an owner, else CLAIMED or FILLED. -/
structure Slot where
  owner : Option Nat
  filled : Bool
  origin : Origin
  deriving DecidableEq, Repr

/-- Modes of an accumulator tile (R288). -/
inductive TMode where
  | empty | fp | fix
  deriving DecidableEq, Repr

/-- An accumulator tile without its elements (R279, R288). -/
structure Tile where
  owner : Option Nat
  mode : TMode
  sR : List (BitVec 16)
  sC : List (BitVec 16)
  deriving DecidableEq, Repr

/-- The image of an evicted block beside the block itself: its bytes in the save pool, its claimed slots and tiles with
their contents and poison (R392; log 56, DESIGN CHOICE). -/
structure Image where
  size : Nat
  slots : List (Nat × Slot)
  slotBytes : Mem
  tiles : List (Nat × Tile)
  tileBytes : Mem
  badSlots : List Nat
  badTiles : List Nat
  deriving DecidableEq, Repr

/-- A block (R185, R191, R244, R362, R392, R419, R422). node is its node's place in State.nodes. -/
structure Block where
  node : Nat
  idx : Nat
  incarnation : Nat
  ctx : Fin 64
  core : Fin 256
  helmPos : Fin 16
  spanOff : Nat
  spanLen : Nat
  status : BStatus
  helm : Helm
  helmDir : Nat
  warps : List Warp
  dq : List DqEnt
  dqNext : Nat
  ctxs : Vector EngCtx 4
  bars : List Bar
  arrivals : List (BParty × Nat × Word)
  claim : Option Claim
  esum : BitVec 9
  buffer : List BufAtom
  token : Nat
  charge : Nat
  flops : Nat
  bytes : Nat
  retries : Nat
  warpRetries : List (Nat × Nat)
  /-- An evicted block has left its core (R352, R388). -/
  away : Bool := false
  /-- A wake condition has been met since the freeze (R389, R394). -/
  woken : Bool := false
  /-- What an evicted block held on its core, and the bytes of its image (R392, R396). -/
  image : Option Image
  deriving DecidableEq, Repr

/-! ## Cores -/

/-- A cached translation (R379): the leaf entry's 128 bits, the first address and the size it maps. -/
structure TlbEnt where
  ctx : Nat
  va : Nat
  len : Nat
  pte : BitVec 128
  deriving DecidableEq, Repr

/-- A core (R2, R278, R288, R379, R172, R435): the physical core that answers, slots, tiles (64 KiB a tile, 16 KiB a
slot), poisoned slots and tiles (R429), TLB, each partition's current warp, and a takeover in progress. -/
structure Core where
  phys : Nat
  slots : Vector Slot 64
  slotBytes : Mem
  tiles : Vector Tile 48
  tileBytes : Mem
  badSlots : List Nat
  badTiles : List Nat
  tlb : List TlbEnt
  current : Vector (Option (Nat × Nat)) 16
  takeover : Option Nat
  copying : Bool
  deriving DecidableEq, Repr

/-! ## Contexts and their registers -/

/-- States of an interface instance (R441). -/
inductive IState where
  | unlocked | locked | run | error
  deriving DecidableEq, Repr

/-- A region of a context (R443). -/
structure Region where
  base : BitVec 56
  valid : Bool
  len : BitVec 40
  deriving DecidableEq, Repr

/-- A context: translation record (R375), save pool (R387), fault log (R415), code directory (R403), legacy mask
(R438), modes (R448), cell pool (R454), regions and keys (R443), instance (R441), forwarding table (R406). -/
structure Ctx where
  valid : Bool
  frlog : BitVec 4
  fring : BitVec 56
  eptab : BitVec 56
  fmttab : BitVec 56
  root : BitVec 56
  poolBase : BitVec 56
  poolLen : BitVec 16
  flogBase : BitVec 56
  flogSize : BitVec 5
  dirBase : BitVec 56
  dirCount : BitVec 12
  legacy : Word64
  det : Bool
  debug : Bool
  cellBase : BitVec 56
  cellLen : Word
  regions : Vector Region 16
  keys : List (Fin 16 × BitVec 128 × BitVec 128)
  inst : IState
  bound : Option Nat
  leaving : Option (IState × Bool) := none
  forward : List (Nat × Nat)
  deriving DecidableEq, Repr

/-! ## Work: nodes, graphs, queues -/

/-- A role of a kernel descriptor (R186). -/
structure Role where
  entry : Word
  nslice : Fin 9
  gmax : Nat
  warps : Nat
  deriving DecidableEq, Repr

/-- A kernel descriptor as the Pontoon read it (R186, R188). -/
structure KDesc where
  cluster : Nat
  barriers : Nat
  span : Nat
  args : Nat
  codebase : Nat
  polcl : BitVec 2
  polbk : BitVec 2
  polwp : BitVec 2
  version : BitVec 16
  helmpc : Word
  roles : List Role
  deriving DecidableEq, Repr

/-- The first fault of a packet in the order of R342. -/
structure FirstFault where
  block : Nat
  warp : Nat
  pc : Word
  code : BitVec 8
  level : BitVec 8
  deriving DecidableEq, Repr

/-- Life of a node. -/
inductive NStatus where
  | waiting      -- a graph node whose counter is above 0 (R349)
  | ready        -- blocks may be released
  | ended        -- every block has ended, and the node has not completed
  | aborted      -- ended by its containment, and not completed
  | done         -- completed (R335)
  deriving DecidableEq, Repr

/-- Classes of R358. -/
inductive NClass where
  | unknown | compute | balanced | memory
  deriving DecidableEq, Repr

/-- A COPY under way (R345): its row, its version, the page it waits for, the page judged fatal for it, and whether its bytes
have been written. -/
structure CopyJob where
  row : Row
  ver : Option (BitVec 8)
  stalled : Option (Nat × Nat)
  fatal : Option (Nat × Nat)
  written : Bool
  deriving DecidableEq, Repr

/-- A node (R187, R188, R197, R342, R354, R358): what was read at launch and what it has counted. A graph's COPY node
has copy set. readyAt and endedAt are the ticks at which it became ready and ended. -/
structure Node where
  ctx : Fin 64
  qid : Nat
  pidx : Nat
  graph : Option (Nat × Nat)
  copy : Option CopyJob
  kd : KDesc
  dirIdx : Nat
  nblocks : Nat
  args : Word64
  wdlog : BitVec 6
  policy : BitVec 2
  det : Bool
  debug : Bool
  legacy : Word64
  status : NStatus
  next : Nat
  /-- Blocks to be released again, with their incarnation and retries (R419). -/
  redo : List (Nat × Nat × Nat)
  incarnation : Nat
  retries : Nat
  clRetries : List (Nat × Nat)
  nfault : Nat
  summary : BitVec 9
  cycles : Nat
  first : Option FirstFault
  samples : List (Nat × Nat)
  readyAt : Nat
  endedAt : Nat
  affinity : Option Nat
  placed : List (Nat × Nat)
  succ : List Nat
  count : Nat
  /-- The version that an XFER packet has requested for the node's warps (R344). -/
  xfer : Option (BitVec 16)
  deriving DecidableEq, Repr

/-- A graph (R347 to R350): its nodes' places in State.nodes, its policy, and whether it has ended. -/
structure Graph where
  ctx : Fin 64
  qid : Nat
  pidx : Nat
  policy : BitVec 2
  nodes : List Nat
  retries : Nat
  ended : Bool
  aborted : Bool
  nfault : Nat
  summary : BitVec 9
  first : Option FirstFault
  deriving DecidableEq, Repr

/-- What a started packet is doing (R335). -/
inductive FKind where
  | nop
  | node (n : Nat)
  | graph (g : Nat)
  | copy (j : CopyJob)
  | barrier (sigs : List Nat) (got : List (Nat × Word64))
  | signal (op : SigOp) (addr : Nat) (v : Word64)
  | xfer
  | bad
  deriving DecidableEq, Repr

/-- How far a packet's retirement has come (R336, R374). -/
inductive RStage where
  | record       -- the record is to be written
  | recordSent   -- a record in fabric memory is on its way
  | signal       -- the signal is to be updated
  | signalRead   -- a signal in fabric memory is being read
  | swap
  | signalSwap   -- and its new value is on its way
  | last         -- both have been tried
  deriving DecidableEq, Repr

/-- A packet that has started and not retired, or retired behind an earlier one (R335, R336): index, header scopes and
HOLD, signal and record addresses, what it does, whether it has completed or aborted, what its record holds, how far its
retirement has come with the value that its signal read, whether a write has failed, and whether this is the further
attempt of R370; the page it waits for and the page judged fatal for it. -/
structure Flight where
  idx : Nat
  hold : Bool
  acq : Scope
  rel : Scope
  csiga : Nat
  creca : Nat
  kind : FKind
  finished : Bool
  abort : BitVec 8
  nfault : Nat
  summary : BitVec 9
  first : Option FirstFault
  cycles : Nat
  stage : RStage
  sigv : Word64
  failed : Bool
  again : Bool
  retired : Bool
  stalled : Option (Nat × Nat)
  fatal : Option (Nat × Nat)
  deriving DecidableEq, Repr

/-- A node record of a graph as read: its raw bits, its successors, and the kernel that it launches with its directory entry
(R348, R349). -/
structure GRec where
  raw : Nat
  succ : List Nat
  launch : Option (KDesc × Nat)
  deriving DecidableEq, Repr

/-- What has been read of a graph whose reading waits: its record, the node records before the present one, and of the present one
its raw bits and the bytes of its successor list so far (R349). -/
structure GraphPart where
  head : Nat
  recs : List GRec
  cur : Option (Nat × List Byte)
  deriving DecidableEq, Repr

/-- A registered queue (R328 to R330, R341, R355): its descriptor's address and the fields read at registration, the
index of the next packet to start, READIDX, the highest observed write index, its packets, its resident place and
deficit, whether its turn goes on, its selected node with the block that is released next and the cores reserved for it (R359),
whether it is being deregistered, the page it waits for, the page judged fatal for it, and its next packet where the slot has
been read (R330), and what has been read of a graph that starts (R349). -/
structure Queue where
  qid : Nat
  desc : Nat
  ctx : Fin 64
  level : Fin 24
  sizelog : Nat
  quantum : Nat
  ring : Nat
  widx : Nat
  next : Nat
  readIdx : Nat
  observed : Nat
  err : BitVec 8
  holding : Bool
  flights : List Flight
  resident : Bool
  since : Nat
  deficit : Int
  turn : Bool
  selected : Option Nat
  pick : List (Nat × Nat × Nat) := []
  selectedAt : Nat
  reserved : List (Fin 256)
  closing : Bool
  stalled : Option (Nat × Nat)
  fatal : Option (Nat × Nat)
  fetched : Option Nat := none
  part : Option GraphPart := none
  deriving DecidableEq, Repr

/-! ## Homes -/

/-- An open exact-accumulation cell (R143 to R146): where, and by which virtual address, its sum in units of 2^-149, count,
marks, poison, the tag of its first contribution, the nodes that contributed, and whether it lies in the overflow area (R145).
-/
structure ACell where
  loc : Loc
  va : Nat
  ctx : Fin 64
  sum : Int
  count : Nat
  nan : Bool
  pinf : Bool
  ninf : Bool
  poison : Bool
  firstBy : Party
  firstPc : Word
  firstWarp : Nat
  nodes : List Nat
  overflow : Bool
  deriving DecidableEq, Repr

/-- A failure found at a home that waits to be offered (R414): the tag of the write, and, where a FENCE.flush closed a cell,
its issuer, to whom it is offered (R146). -/
structure Report where
  party : Party
  warp : Nat
  pc : Word
  incarnation : Nat
  cause : BitVec 8
  addr : Nat
  node : Nat
  flush : Option Party := none
  deriving DecidableEq, Repr

/-- A range of the span in use (R244, R245): offset in the window, length, context, owner block; free = false and
clearing once its block has ended. -/
structure SpanRange where
  off : Nat
  len : Nat
  ctx : Fin 64
  clearing : Bool
  deriving DecidableEq, Repr

/-! ## Translation, fabric, service -/

/-- A fault-ring record that has not been acted on, or one that waits for a slot; die is the compute die whose MMU met the fault,
none for the hub die's (R380, R382). -/
structure RingRec where
  ctx : Nat
  die : Option (Fin 4)
  n : Option Nat
  vpage : Nat
  kind : BitVec 4
  deriving DecidableEq, Repr

/-- A submitted shootdown (R383): the session that reads of it in SDSTAT, none where it has ended; own for a step of a
migration. -/
structure Shoot where
  session : Option (Fin 16)
  own : Bool
  ctx : Fin 64
  vbase : Nat
  npages : Nat
  pteAddr : Nat
  newPte : BitVec 128
  deriving DecidableEq, Repr

/-- A migration in progress (R384, R385): the page, its bytes and where its entry lies, the entry before and after, whether its
bytes have been copied, and the adapter entry whose hint asked for it (R360). -/
structure Mig where
  ctx : Fin 64
  va : Nat
  len : Nat
  pteAddr : Nat
  oldPte : BitVec 128
  newPte : BitVec 128
  copied : Bool
  hint : Option Nat
  deriving DecidableEq, Repr

/-- A request for a migration that waits: for the cells of its page to close, or, without a destination, for a frame of the
staging pool (R360, R384). -/
structure MigReq where
  ctx : Fin 64
  va : Nat
  tier : Bool
  ep : Nat
  dst : Option Nat
  hint : Option Nat
  deriving DecidableEq, Repr

/-- A run of frames of the staging pool in use: the page that it holds or is to hold with its bytes, that page's entry before it
moved, and when the page was last accessed (R360). -/
structure Staged where
  frame : Nat
  ctx : Fin 64
  va : Nat
  len : Nat
  home : BitVec 128
  last : Nat
  deriving DecidableEq, Repr

/-- Why a fabric operation was sent (R368, R369, R374). -/
inductive FabFor where
  | load (b w id lane : Nat)
  | helmLoad (b id : Nat)
  | waita (p : Party)
  | cwait (b : Nat) (k : Fin 4)
  | row (b : Nat) (k : Fin 4) (n row : Nat)
  | copyPacket (q idx : Nat)
  | copyNode (n : Nat)
  | store (p : Party) (warp : Nat) (pc : Word) (incarnation : Nat)
  | barrier (q idx : Nat) (j : Nat)
  | record (q idx : Nat)
  | signal (q idx : Nat)
  | signalOp (q idx : Nat)
  /-- a part of an incoming request to a page in fabric memory, by its own number, and whether another part has failed (R372) -/
  | incoming (n : Nat) (bad : Bool)
  deriving DecidableEq, Repr

/-- What a fabric operation does (R363, R368). -/
inductive FabKind where
  | read (len : Nat)
  | write (data : List Byte)
  | atomic (op : AtomOp) (u : Bool) (size : Size) (b1 b2 : Word64) (fetch : Bool)
  /-- a code merged into its byte by a compare-swap on the 8-byte unit that holds it, which compares with cmp (R139) -/
  | merge (fmt : BitVec 4) (sub code : Nat) (last : Bool) (cmp : Word64)
  deriving DecidableEq, Repr

/-- An outgoing fabric operation that has not been performed (R369), with its virtual address. acq says that later accesses of
its agent wait until it is (R141). -/
structure FabOp where
  id : Nat
  loc : Loc
  kind : FabKind
  why : FabFor
  acq : Bool := false
  va : Nat := 0
  held : Bool := false
  tag : Option Report := none
  deriving DecidableEq, Repr

/-- An Ethernet port (R364 to R366). -/
structure Port where
  retired : BitVec 4
  active : BitVec 4
  width : BitVec 2
  retrains : BitVec 6
  training : Bool
  deriving DecidableEq, Repr

/-- An HBM stack's channels: those on a spare, the spares left, those being copied, whether the stack is reported as degraded, the
corrected errors counted of each, and those that firmware is to retire (R434). -/
structure Stack where
  errors : Vector Nat 32
  due : List (Fin 32)
  retired : List (Fin 32)
  spares : Fin 3
  copying : List (Fin 32)
  degraded : Bool
  deriving DecidableEq, Repr

/-- An entry of the window table (R371). -/
structure Window where
  job : BitVec 24
  pid : BitVec 12
  ri : BitVec 12
  ctx : Fin 64
  wr : Bool
  rd : Bool
  valid : Bool
  base : BitVec 56
  len : BitVec 40
  deriving DecidableEq, Repr

/-- A priority level (R351). -/
structure Level where
  cap : BitVec 13
  floor : BitVec 8
  deriving DecidableEq, Repr

/-- A device error event (R449), its 128 bits. -/
abbrev ErrEvent := BitVec 128

/-- A management session (R439, R440) with its shootdown registers (R383) and general request block (R450). -/
structure Session where
  isOpen : Bool
  finished : Bool
  sdWords : Vector Word64 4
  sdBusy : Bool
  sdDone : Word
  sdResult : BitVec 8
  args : Vector Word64 8
  reqBusy : Bool
  reqDone : Word
  reqResult : BitVec 8
  key : BitVec 128
  deriving DecidableEq, Repr

/-- A general request that has been submitted, by a session, none for one that has ended (R450): its code, its arguments as
submitted, and whether it has begun. -/
structure GenReq where
  session : Option (Fin 16)
  code : BitVec 8
  args : Vector Word64 8
  started : Bool
  deriving DecidableEq, Repr

/-- An SPDM algorithm: SM2 signatures, SM3-256, key exchange by SM2 on the same curve, SM4-GCM with a 128-bit key (R439). -/
inductive SpdmAlg where
  | sm2Sign | sm3 | sm2Exchange | sm4Gcm
  deriving DecidableEq, Repr

/-- Where a parity error is found: an entry of a core's or a die's TLB, a fetch or instruction buffer of a core, the
memory-side cache line of a physical address, a transfer over a viaduct (R429, R449). -/
inductive ParityAt where
  | coreTlb (core : Fin 256) (ctx va : Nat)
  | dieTlb (die : Fin 4) (ctx va : Nat)
  | buffer (core : Fin 256)
  | cache (pa : Nat)
  | viaduct (v : Fin 16)
  deriving DecidableEq, Repr

/-- What the device sends outside in answer to a request (R371, R363, R439 to R441). -/
inductive Out where
  | rmaOk
  | rmaErr
  | rmaData (d : List Byte)
  | atomOld (v : Word64)
  | mgmtOk
  | mgmtErr
  /-- a queue stopped with an ERR code (R330) -/
  | queueErr (qid : Nat) (err : BitVec 8)
  | mgmtData (v : Word64)
  | spdm (what : BitVec 8) (v : BitVec 256)
  /-- whether pre-shared keys are supported and mutual authentication is required, and what the manual does not give (R439) -/
  | spdmCapabilities (psk mutualAuth : Bool) (rest : BitVec 256)
  /-- the algorithms offered (R439) -/
  | spdmAlgorithms (offered : List SpdmAlg)
  | spdmErr (code : BitVec 8)
  | tdisp (n : Fin 64) (st : IState)
  | tdispReport (n : Fin 64) (rs : List Region) (digest : BitVec 256)
  | tdispErr
  deriving DecidableEq, Repr

/-- What a migration holds: a party's instruction, an operation's row, a packet's access, a graph's COPY node, or an incoming
request (R385). -/
inductive Held where
  | party (p : Party)
  | op (b : Nat) (k : Fin 4) (n : Nat)
  | flight (q idx : Nat)
  | node (n : Nat)
  | req (i : Instr)
  | access (id : Nat)
  deriving DecidableEq, Repr

/-- A request that waits for a page (R372): served again once the fault is serviced. -/
structure HeldReq where
  ctx : Nat
  vpage : Nat
  instr : Instr
  deriving DecidableEq, Repr

/-- A scrub read whose write-back is due (R433). -/
structure Scrub where
  granule : Nat
  dropped : Bool
  deriving DecidableEq, Repr

/-- How far the measured boot has come (R445). -/
inductive Boot where
  | off | up | stopped
  deriving DecidableEq, Repr

/-- What comes next (log 2, DESIGN CHOICE): an event, an issue by a party, an engine's work on an operation (R293), an access
that was held and is performed now (R385), the passing of time in core cycles, a management read (R440), a request of a
session that fails its AEAD check (R440), an error that the storage corrects (R429), a parity error (R429), the removal of a
forwarding entry on the management path (R406), the loading of calibration tables, given by their digest (R437). -/
inductive Move where
  | event (i : Instr)
  | issue (p : Party)
  | run (b : Nat) (k : Fin 4) (n : Nat)
  | resume (ctx vpage : Nat) (h : Held)
  | time (n : Nat)
  | mgmtRead (session off size : Nat)
  | badRequest (session : Nat)
  | corrected (at_ : PoisonAt)
  | parity (at_ : ParityAt)
  | dropForward (session : Nat) (ctx : Fin 64) (n : Nat)
  | loadCal (session : Nat) (tables : BitVec 256)
  deriving DecidableEq, Repr

/-- The whole part. Fields of the model itself: agenda, cur, tick, now, out, nextId (log 2, DESIGN CHOICE). -/
structure State where
  agenda : List Move
  cur : Party
  tick : Nat
  now : Nat
  out : List Out
  nextId : Nat
  boot : Boot
  -- storage
  mem : Mem
  span : Mem
  lineVer : Mem
  badGranules : List Nat
  badSpan : List Nat
  cells : List ACell
  reports : List Report
  spanRanges : List SpanRange
  scrubs : List Scrub
  /-- The places that writes of this step have reached, with their bytes (R394). -/
  wrote : List (Loc × Nat)
  -- the cores and the work on them
  cores : Vector Core 256
  blocks : List Block
  nodes : List Node
  graphs : List Graph
  queues : List Queue
  counters : Nat
  charges : List (Nat × Nat × Nat)
  lastTurn : List (Nat × Nat)
  -- contexts, translation, migration
  ctxs : Vector Ctx 64
  dieTlb : Vector (List TlbEnt) 4
  ring : List RingRec
  shoots : List Shoot
  migs : List Mig
  migWait : List MigReq
  staged : List Staged
  /-- What migrations hold, by context and page, in arrival order (R385). -/
  migHeld : List (Nat × Nat × Held)
  -- fabric
  ports : Vector Port 16
  windows : Vector Window 1024
  fabOps : List FabOp
  held : List HeldReq
  -- management and service
  pwrBudget : BitVec 12
  vgrant : BitVec 8
  /-- The lowest grant of an HBM stack's traffic, in 1/255ths (R446). -/
  hgrant : BitVec 8
  /-- The share of the matrix rates granted that the arbiter lets the arrays run at, in 1/255ths (R294, R446). -/
  mgrant : BitVec 8
  draw : BitVec 12
  matrixReqs : List Nat
  epochs : Nat
  levels : Vector Level 24
  errlog : List ErrEvent
  errCount : Nat
  errlist : Vector (BitVec 16) 64
  sessions : Vector Session 16
  requests : List GenReq
  hbmStacks : Vector Stack 8
  spares : Vector (List Nat) 4
  banks : Vector (BitVec 256 × Bool) 2
  /-- The command processor's tightly coupled memory: bank b stands at 131,072 · b (R4, R436; log 124,
  DEDUCED). -/
  tcm : Mem
  bank : Fin 2
  measures : Vector (BitVec 256) 5
  /-- The paths for which the calibration tables loaded last have not taken effect yet (R437). -/
  calWait : List CalPath
  deriving DecidableEq, Repr

/-- Why the machine stops with a fault. Every fault of R412 is taken as the manual describes and is a next state; these
name states that no run reaches. -/
inductive Fault where
  /-- Raised by any meaning when State.cur, or an event, names a block, warp, gang, queue or operation that does not
  exist. Safe: the manual has no such step. -/
  | noParty
  deriving DecidableEq, Repr

/-- Why an instruction has no meaning. -/
inductive Refusal where
  /-- Raised by an arm of exec whose instruction has no meaning yet. Safe. -/
  | notModelled (mnemonic : String)
  deriving DecidableEq, Repr

/-! ## Reset -/

/-- A register at warp start: U 0 (R57). -/
def VReg.zero : VReg := { val := .u 0, poison := 0 }

/-- A predicate at warp start: U false (R57). -/
def PReg.zero : PReg := { val := .u false, poison := 0 }

/-- A plain origin (R282). -/
def Origin.none : Origin :=
  { plain := true, fmt := 0, den := false, dither := 0, dtab := [], e0 := 0, rho := 0, rv := 0, kv := 0, scales := [] }

/-- A FREE slot (R279). -/
def Slot.free : Slot := { owner := none, filled := false, origin := Origin.none }

/-- A free tile (R279, R288). -/
def Tile.free : Tile := { owner := none, mode := .empty, sR := [], sC := [] }

/-- A core after reset: nothing claimed, nothing cached (R279, R445). -/
def Core.reset : Core :=
  { phys := 0, slots := Vector.replicate 64 Slot.free, slotBytes := [], tiles := Vector.replicate 48 Tile.free,
    tileBytes := [], badSlots := [], badTiles := [], tlb := [], current := Vector.replicate 16 none, takeover := none,
    copying := false }

/-- A region after reset (R443). -/
def Region.reset : Region := { base := 0, valid := false, len := 0 }

/-- A context after reset: CONFIG_UNLOCKED, every register 0 (R375, R387, R403, R415, R438, R441, R443, R448, R454). -/
def Ctx.reset : Ctx :=
  { valid := false, frlog := 0, fring := 0, eptab := 0, fmttab := 0, root := 0, poolBase := 0, poolLen := 0,
    flogBase := 0, flogSize := 0, dirBase := 0, dirCount := 0, legacy := 0, det := false, debug := false,
    cellBase := 0, cellLen := 0, regions := Vector.replicate 16 Region.reset, keys := [], inst := .unlocked,
    bound := none, forward := [] }

/-- A port after reset (R366). -/
def Port.reset : Port := { retired := 0, active := 0xF, width := 3, retrains := 0, training := false }

/-- A window entry after reset (R371). -/
def Window.reset : Window :=
  { job := 0, pid := 0, ri := 0, ctx := 0, wr := false, rd := false, valid := false, base := 0, len := 0 }

/-- A session that is not open (R439, R383, R450). -/
def Session.reset : Session :=
  { isOpen := false, finished := false, sdWords := Vector.replicate 4 0, sdBusy := false, sdDone := 0, sdResult := 0,
    args := Vector.replicate 8 0, reqBusy := false, reqDone := 0, reqResult := 0, key := 0 }

/-- The part right after reset: power present, nothing booted (R445); the first step boots it (log 23, DESIGN CHOICE).
-/
def State.reset : State :=
  { agenda := [], cur := .helm 0, tick := 0, now := 0, out := [], nextId := 0, boot := .off,
    mem := [], span := [], lineVer := [], badGranules := [], badSpan := [], cells := [], reports := [],
    spanRanges := [], scrubs := [], wrote := [],
    cores := Vector.replicate 256 Core.reset, blocks := [], nodes := [], graphs := [], queues := [], counters := 0,
    charges := [], lastTurn := [],
    ctxs := Vector.replicate 64 Ctx.reset, dieTlb := Vector.replicate 4 [], ring := [], shoots := [], migs := [],
    migWait := [], staged := [], migHeld := [],
    ports := Vector.replicate 16 Port.reset, windows := Vector.replicate 1024 Window.reset, fabOps := [], held := [],
    pwrBudget := 2600, vgrant := 255, hgrant := 255, mgrant := 255, draw := 0, matrixReqs := [], epochs := 0,
    levels := Vector.replicate 24 { cap := 64, floor := 0 }, errlog := [], errCount := 0,
    errlist := Vector.replicate 64 0, sessions := Vector.replicate 16 Session.reset, requests := [],
    hbmStacks := Vector.replicate 8
      { errors := Vector.replicate 32 0, due := [], retired := [], spares := 2, copying := [], degraded := false },
    spares := Vector.replicate 4 [0, 1, 2, 3], banks := Vector.replicate 2 (0, true), tcm := [], bank := 0,
    measures := Vector.replicate 5 0, calWait := [] }

end Sys2Proof.Machine
end

