-- ==== Sys2Proof/Machine/Ops.lean ====
section
/-!
DEFINITION. The named operations over memory, blocks and parties that the meanings share, and the taking of a fault
(R412 to R421), of a trap and the return from it (R426).
-/
namespace Sys2Proof.Machine

open Sys2Proof

/-! ## Bytes and sparse memory (R8, log 1) -/

/-- The canonical form of sparse memory: addresses strictly rising, no zero byte. -/
def Memory.wf : Mem → Bool
  | [] => true
  | [(_, v)] => v != 0
  | (a, v) :: (b, w) :: r => v != 0 && a < b && Memory.wf ((b, w) :: r)

/-- Read one byte; an unlisted address reads 0 (log 1, DESIGN CHOICE). -/
def memGet : Mem → Nat → Byte
  | [], _ => 0
  | (b, w) :: r, a => if a = b then w else if a < b then 0 else memGet r a

/-- Write one byte, keeping the canonical form. -/
def memSet : Mem → Nat → Byte → Mem
  | [], a, v => if v = 0 then [] else [(a, v)]
  | (b, w) :: r, a, v =>
    if a < b then (if v = 0 then (b, w) :: r else (a, v) :: (b, w) :: r)
    else if a = b then (if v = 0 then r else (a, v) :: r)
    else (b, w) :: memSet r a v

/-- The bytes at n consecutive addresses. -/
def memRead (m : Mem) (a n : Nat) : List Byte := (List.range n).map fun i => memGet m (a + i)

/-- Write bytes at consecutive addresses. -/
def memWrite (m : Mem) (a : Nat) : List Byte → Mem
  | [] => m
  | v :: r => memWrite (memSet m a v) (a + 1) r

/-- The little-endian number that bytes hold (R8). -/
def leNat : List Byte → Nat
  | [] => 0
  | b :: r => b.toNat + 256 * leNat r

/-- The k low bytes of a number, little-endian (R8). -/
def leBytes (k n : Nat) : List Byte := (List.range k).map fun i => BitVec.ofNat 8 (n / 256 ^ i)

/-- Bits hi:lo of a number (R8). -/
def bitsOf (n lo len : Nat) : Nat := n / 2 ^ lo % 2 ^ len

/-- A little-endian number of k bytes in memory (R8). -/
def memNat (m : Mem) (a k : Nat) : Nat := leNat (memRead m a k)

/-! ## Blocks, warps, gangs -/

/-- Update block b. -/
def modBlock (s : State) (b : Nat) (f : Block → Block) : State := { s with blocks := s.blocks.modify b f }

/-- Update warp w of block b. -/
def modWarp (s : State) (b w : Nat) (f : Warp → Warp) : State :=
  modBlock s b fun k => { k with warps := k.warps.modify w f }

/-- Update the gang with creation number g of a warp. -/
def modGangs (wp : Warp) (g : Nat) (f : Gang → Gang) : Warp :=
  { wp with gangs := wp.gangs.map fun x => if x.gid = g then f x else x }

/-- Update gang g of warp w of block b. -/
def modGang (s : State) (b w g : Nat) (f : Gang → Gang) : State := modWarp s b w fun k => modGangs k g f

/-! ## Gang slots (R175) -/

/-- Whether a gang that stands so keeps its slot: it runs, waits for a page, a migration or the copy engine's acceptance;
at a blocking point, REGANG or a barrier it gives the slot up (R175, R308, R380). -/
def keepsSlot : GWait → Bool
  | .none | .page _ _ _ | .ring _ _ _ _ | .mig _ _ | .tgath _ _ _ _ _ => true
  | _ => false

/-- The first address of a block's span range; 0 where it has none (R56, R244). -/
def spanBaseOf (blk : Block) : Word64 :=
  if blk.spanLen = 0 then 0 else BitVec.ofNat 64 (Config.spanBase + blk.spanOff)

/-- The creation number of the oldest gang that waits for a slot and can proceed. -/
def oldestQueued (gs : List Gang) : Option Nat :=
  (gs.filter fun g => g.slot = 0 && keepsSlot g.wait).foldl
    (fun a g => match a with | none => some g.gid | some x => some (min x g.gid)) none

/-- A free slot passes to the oldest gang that can proceed (R175). -/
def fillSlot (n : Fin 3) (gs : List Gang) : List Gang :=
  if gs.any (·.slot = n) then gs
  else
    match oldestQueued gs with
    | none => gs
    | some i => gs.map fun g => if g.gid = i then { g with slot := n } else g

/-- Slots after gangs have begun or ended a wait: a hand-over ends when slot 2 loses its gang (R172, R175). -/
def settle (wp : Warp) : Warp :=
  let lost2 := wp.gangs.any fun g => g.slot = 2 && !keepsSlot g.wait
  let gs := wp.gangs.map fun g => if keepsSlot g.wait then g else { g with slot := 0 }
  { wp with gangs := fillSlot 2 (fillSlot 1 gs), handover := wp.handover && !lost2 && gs.any (·.slot = 2) }

/-- Update gang g of warp w of block b, and the slots with it. -/
def modGangW (s : State) (b w g : Nat) (f : Gang → Gang) : State := modWarp s b w fun k => settle (modGangs k g f)

/-- Update the helm of block b. -/
def modHelm (s : State) (b : Nat) (f : Helm → Helm) : State := modBlock s b fun k => { k with helm := f k.helm }

/-- Update context k of block b. -/
def modEng (s : State) (b : Nat) (k : Fin 4) (f : EngCtx → EngCtx) : State :=
  modBlock s b fun blk => { blk with ctxs := blk.ctxs.set k (f blk.ctxs[k]) }

/-- Update the stream of context k of block b. -/
def modStream (s : State) (b : Nat) (k : Fin 4) (f : Stream → Stream) : State :=
  modEng s b k fun e => { e with stream := e.stream.map f }

/-- Work of a block counted for the class of its node (R358). -/
def addWork (s : State) (b flops bytes : Nat) : State :=
  modBlock s b fun k => { k with flops := k.flops + flops, bytes := k.bytes + bytes }

/-- Update node n. -/
def modNode (s : State) (n : Nat) (f : Node → Node) : State := { s with nodes := s.nodes.modify n f }

/-- Update a core. -/
def modCore (s : State) (c : Fin 256) (f : Core → Core) : State := { s with cores := s.cores.set c (f s.cores[c]) }

/-- Update a context. -/
def modCtx (s : State) (c : Fin 64) (f : Ctx → Ctx) : State := { s with ctxs := s.ctxs.set c (f s.ctxs[c]) }

/-- Update the queue with id q. -/
def modQueue (s : State) (q : Nat) (f : Queue → Queue) : State :=
  { s with queues := s.queues.map fun x => if x.qid = q then f x else x }

/-- The queue with id q. -/
def getQueue (s : State) (q : Nat) : Option Queue := s.queues.find? (·.qid = q)

/-- Update the packet with index n of queue q. -/
def modFlight (s : State) (q n : Nat) (f : Flight → Flight) : State :=
  modQueue s q fun x => { x with flights := x.flights.map fun y => if y.idx = n then f y else y }

/-- The issuing gang with its warp and block. -/
structure GCtx where
  b : Nat
  w : Nat
  blk : Block
  wp : Warp
  g : Gang

/-- The gang that a party names, if it stands in the state. -/
def gangOf (s : State) : Party → Option GCtx
  | .gang b w g =>
    match s.blocks[b]? with
    | none => none
    | some blk =>
      match blk.warps[w]? with
      | none => none
      | some wp =>
        match wp.gangs.find? (·.gid = g) with
        | none => none
        | some gg => some { b := b, w := w, blk := blk, wp := wp, g := gg }
  | _ => none

/-- The issuing helm with its block. -/
structure HCtx where
  b : Nat
  blk : Block

/-- The helm that a party names. -/
def helmOf (s : State) : Party → Option HCtx
  | .helm b =>
    match s.blocks[b]? with
    | none => none
    | some blk => some { b := b, blk := blk }
  | _ => none

/-- The issuing stream with its context and block. -/
structure SCtx where
  b : Nat
  k : Fin 4
  blk : Block
  e : EngCtx
  st : Stream

/-- The stream that a party names. -/
def streamOf (s : State) : Party → Option SCtx
  | .stream b k =>
    match s.blocks[b]? with
    | none => none
    | some blk =>
      match blk.ctxs[k].stream with
      | none => none
      | some st => some { b := b, k := k, blk := blk, e := blk.ctxs[k], st := st }
  | _ => none

/-- The block of a party. -/
def partyBlock : Party → Nat
  | .gang b _ _ => b
  | .helm b => b
  | .stream b _ => b

/-- Whether a party stands in the state. -/
def partyExists (s : State) (p : Party) : Bool :=
  (gangOf s p).isSome || (helmOf s p).isSome || (streamOf s p).isSome

/-! ## Lanes and slices -/

/-- Bit l of a lane mask. -/
def laneBit (m : LaneMask) (l : Nat) : Bool := m.getLsbD l

/-- A lane mask from a predicate on lanes. -/
def maskOf (p : Nat → Bool) : LaneMask :=
  BitVec.ofNat 32 ((List.range 32).foldl (fun a l => if p l then a + 2 ^ l else a) 0)

/-- The lanes set in a mask, ascending. -/
def lanesOf (m : LaneMask) : List Nat := (List.range 32).filter (laneBit m)

/-- The lowest lane set in a mask; 0 for none. -/
def lowLane (m : LaneMask) : Nat := ((lanesOf m).head?).getD 0

/-- The lanes of a warp's width (R189). -/
def widthMask (wp : Warp) : LaneMask := maskOf fun l => l < 4 * wp.width.val

/-- The slices of a gang. -/
def sliceIn (m : SliceMask) (k : Nat) : Bool := m.getLsbD k

/-- Slice k of a warp. -/
def sliceAt (wp : Warp) (k : Nat) : Slice := wp.slices[k]?.getD { live := false, active := 0, stack := [] }

/-- The active lanes of a gang: those active in their slice's mask (R83). -/
def activeLanes (wp : Warp) (g : Gang) : LaneMask :=
  maskOf fun l => sliceIn g.slices (l / 4) && (sliceAt wp (l / 4)).live && (sliceAt wp (l / 4)).active.getLsbD (l % 4)

/-- The lanes of a gang's slices, active or not. -/
def gangLanes (g : Gang) : LaneMask := maskOf fun l => sliceIn g.slices (l / 4)

/-- Whether a warp has ended: none of its slices is live (R162). -/
def warpEnded (wp : Warp) : Bool := !(List.range wp.width.val).any fun k => (sliceAt wp k).live

/-! ## Tag counting (R48, R49) -/

/-- Whether a value is held as G (R42). -/
def isG : VVal → Bool
  | .g _ => true
  | _ => false

/-- The tag code of a value (R42). -/
def tagCode : VVal → Nat
  | .u _ => 0
  | .a _ _ => 1
  | .g _ => 2

/-- The lines a warp holds: its G registers, and those held for results still to arrive (R49). -/
def linesHeld (wp : Warp) : Nat :=
  (wp.regs.toList.zipIdx.filter fun x =>
    isG x.1.val || (wp.pend.any fun p => p.takes.any fun n => n.val = x.2) ||
    (wp.gangs.any fun g => g.takes.any fun n => n.val = x.2)).length

/-! ## Ending instances (R162, R192, R419) -/

/-- An engine context whose streams and operations are stopped: operations not complete are abandoned (R219, R419). -/
def stopEng (e : EngCtx) : EngCtx :=
  { e with
    stream := e.stream.map fun st => { st with running := false, wait := .none, granted := none, loops := [] }
    done := e.issued
    faulted := e.faulted || !e.ops.isEmpty
    abandoned := match e.ops.map (·.n) with
      | [] => e.abandoned
      | n :: r =>
        let lo := r.foldl min n
        some (match e.abandoned with | none => lo | some a => min a lo)
    ops := [] }

/-- A warp of which every lane has ended (R162, R419): its gangs are gone and its pending results dropped. -/
def stopWarp (wp : Warp) : Warp :=
  { wp with
    slices := wp.slices.map fun _ => { live := false, active := 0, stack := [] }
    gangs := []
    pend := []
    handover := false }

/-- Queue entries that some warp still has to pop (R213): an entry is freed when every warp of every role in its mask
has popped it or ended. -/
def freeDq (blk : Block) : Block :=
  { blk with dq := blk.dq.filter fun e =>
      blk.warps.any fun wp => !warpEnded wp && e.mask.getLsbD wp.role.val && wp.dqPos ≤ e.seq }

/-- End a warp (R419). -/
def endWarp (s : State) (b w : Nat) : State :=
  modBlock (modWarp s b w stopWarp) b freeDq

/-- Release what block b has claimed on a core (R279, R419). -/
def releaseClaims (c : Core) (b : Nat) : Core :=
  { c with
    slots := c.slots.map fun x => if x.owner = some b then Slot.free else x
    tiles := c.tiles.map fun x => if x.owner = some b then Tile.free else x }

/-- Stop a block: helm, warps and streams issue nothing more, claims are released; the block then ends under R192. An
evicted block's image is discarded (R419). -/
def stopBlock (blk : Block) : Block :=
  { blk with
    helm := { blk.helm with ended := true, wait := .none, pend := [] }
    warps := blk.warps.map stopWarp
    dq := []
    ctxs := blk.ctxs.map stopEng
    claim := none
    image := none
    status := match blk.status with
      | .ended => .ended
      | _ => .ending }

/-- End block b (R419). -/
def endBlock (s : State) (b : Nat) : State :=
  match s.blocks[b]? with
  | none => s
  | some blk => modCore (modBlock s b stopBlock) blk.core fun c => releaseClaims c b

/-- End every block that satisfies p. -/
def endBlocks (s : State) (p : Block → Bool) : State :=
  (List.range s.blocks.length).foldl
    (fun t b => match t.blocks[b]? with
      | none => t
      | some blk => if p blk && blk.status != .ended then endBlock t b else t) s

/-- Whether a block has neither ended nor begun to end. -/
def blockLives (blk : Block) : Bool := blk.status != .ended && blk.status != .ending

/-- The packet that node n answers to, directly or through its graph, takes an abort code if it has none (R340). -/
def abortFlight (s : State) (qid idx : Nat) (code : BitVec 8) : State :=
  modFlight s qid idx fun f => if f.abort = 0 then { f with abort := code } else f

/-- End node n: every block ends, unreleased blocks are never released, the packet completes aborted with 0x03 (R419). A
node of a graph aborts as part of its graph (R350). -/
def endNode (s : State) (n : Nat) (code : BitVec 8) : State :=
  match s.nodes[n]? with
  | none => s
  | some nd =>
    let s1 := endBlocks s fun blk => blk.node = n
    let s2 := modNode s1 n fun x =>
      { x with
        status := if x.status = .done then .done else .aborted
        redo := []
        next := x.nblocks
        endedAt := if x.status = .ready || x.status = .waiting then s.tick else x.endedAt }
    if nd.graph.isNone then abortFlight s2 nd.qid nd.pidx code else s2

/-- End graph g: nodes not completed end or never start, and the GRAPH completes aborted (R419). -/
def endGraph (s : State) (g : Nat) (code : BitVec 8) : State :=
  match s.graphs[g]? with
  | none => s
  | some gr =>
    let s1 := gr.nodes.foldl (fun t n => endNode t n code) s
    let s2 := { s1 with graphs := s1.graphs.modify g fun x => { x with ended := true, aborted := true } }
    abortFlight s2 gr.qid gr.pidx code

/-- End one cluster of node n: the blocks idx / CLUSTER = c (R194, R419). -/
def endCluster (s : State) (n c : Nat) : State :=
  match s.nodes[n]? with
  | none => s
  | some nd => endBlocks s fun blk => blk.node = n && blk.idx / (max nd.kd.cluster 1) = c

/-! ## Faults (R412 to R421) -/

/-- Fault codes (R412). -/
inductive FCode where
  | illegal | wrongStream | regIndex | uniform | regpool | maskStack | misaligned | pageNotPresent | protection
  | execProtection | spanProtection | formatMismatch | ditherMismatch | slotState | barrierOverflow | watchdog
  | uncorrectable | transferNoMap | storeImprecise | aborted
  deriving DecidableEq, Repr

/-- The number of a fault code (R412). -/
def FCode.num : FCode → Nat
  | .illegal => 0x01 | .wrongStream => 0x02 | .regIndex => 0x03 | .uniform => 0x04 | .regpool => 0x05
  | .maskStack => 0x06 | .misaligned => 0x07 | .pageNotPresent => 0x08 | .protection => 0x09
  | .execProtection => 0x0A | .spanProtection => 0x0B | .formatMismatch => 0x0C | .ditherMismatch => 0x0D
  | .slotState => 0x0E | .barrierOverflow => 0x0F | .watchdog => 0x10 | .uncorrectable => 0x11
  | .transferNoMap => 0x12 | .storeImprecise => 0x13 | .aborted => 0x14

/-- What an instruction raises: the code, its cause, the lane named and the faulting address (R11, R412, R416). -/
structure Raise where
  code : FCode
  cause : Nat
  lane : Option Nat
  addr : Nat
  deriving DecidableEq, Repr

/-- A fault without address. -/
def raise (code : FCode) (lane : Option Nat) (cause : Nat := 0) (addr : Nat := 0) : Raise :=
  { code := code, cause := cause, lane := lane, addr := addr }

/-- A fault on its way through the containment walk (R416, R418). Level 0 warp, 1 block, 2 cluster, 3 node, 4 graph. -/
structure FRec where
  r : Raise
  source : Nat
  block : Option Nat
  warp : Option Nat
  gid : Option Nat
  pc : Word
  slices : SliceMask
  node : Nat
  incarnation : Nat
  start : Nat
  precise : Bool
  /-- An instruction stands at its party's PC: ignore skips it, and a warp may issue it again (R197, R414). -/
  stands : Bool
  retired : Bool
  /-- The block and warp that the record names, where a FENCE.flush is offered what another contributed (R146). -/
  named : Option (Nat × Option Nat) := none

/-- The cluster number of the block a fault names. -/
def clusterOf (s : State) (f : FRec) : Nat :=
  match f.block.bind (s.blocks[·]?), s.nodes[f.node]? with
  | some blk, some nd => blk.idx / (max nd.kd.cluster 1)
  | _, _ => 0

/-- Whether f names an earlier incarnation of its block: a later one is there or is to be released (R418, R419). -/
def superseded (s : State) (f : FRec) : Bool :=
  match f.block.bind (s.blocks[·]?), s.nodes[f.node]? with
  | some blk, some nd =>
    (s.blocks.any fun y => y.node = f.node && y.idx = blk.idx && y.incarnation > f.incarnation) ||
    (nd.redo.any fun r => r.1 = blk.idx && r.2.1 > f.incarnation) ||
    nd.next ≤ blk.idx
  | _, _ => false

/-- Whether the instance of f at a level is ending or ended, or f names an earlier incarnation (R418). -/
def levelEnded (s : State) (f : FRec) (lvl : Nat) : Bool :=
  superseded s f || match lvl with
  | 0 =>
    match f.block.bind (s.blocks[·]?) with
    | none => true
    | some blk =>
      !blockLives blk || blk.incarnation != f.incarnation ||
      (match f.warp.bind (blk.warps[·]?) with | none => true | some wp => warpEnded wp)
  | 1 =>
    match f.block.bind (s.blocks[·]?) with
    | none => true
    | some blk => !blockLives blk || blk.incarnation != f.incarnation
  | 2 =>
    match s.nodes[f.node]? with
    | none => true
    | some nd => !(s.blocks.any fun blk => blk.node = f.node && blockLives blk &&
        blk.idx / (max nd.kd.cluster 1) = clusterOf s f)
  | 3 =>
    match s.nodes[f.node]? with
    | none => true
    | some nd => nd.status == .done || nd.status == .aborted
  | _ =>
    match (s.nodes[f.node]?).bind (·.graph) with
    | none => true
    | some (g, _) => match s.graphs[g]? with | none => true | some gr => gr.ended

/-- The policy of the instance at a level (R186, R197, R333, R347). -/
def policyAt (s : State) (f : FRec) (lvl : Nat) : BitVec 2 :=
  match s.nodes[f.node]? with
  | none => 2
  | some nd =>
    match lvl with
    | 0 => nd.kd.polwp
    | 1 => nd.kd.polbk
    | 2 => nd.kd.polcl
    | 3 => nd.policy
    | _ => match nd.graph.bind (fun g => s.graphs[g.1]?) with | none => 2 | some gr => gr.policy

/-- Retries of the instance at a level so far (R197). -/
def retriesAt (s : State) (f : FRec) (lvl : Nat) : Nat :=
  match lvl with
  | 0 =>
    match f.block.bind (s.blocks[·]?), f.warp with
    | some blk, some w => ((blk.warpRetries.find? (·.1 = w)).map (·.2)).getD 0
    | _, _ => 0
  | 1 => match f.block.bind (s.blocks[·]?) with | none => 0 | some blk => blk.retries
  | 2 =>
    match s.nodes[f.node]? with
    | none => 0
    | some nd => ((nd.clRetries.find? (·.1 = clusterOf s f)).map (·.2)).getD 0
  | 3 => match s.nodes[f.node]? with | none => 0 | some nd => nd.retries
  | _ => match ((s.nodes[f.node]?).bind (·.graph)).bind (fun g => s.graphs[g.1]?) with
    | none => 0 | some gr => gr.retries

/-- End the instance of f at a level (R419). -/
def endAt (s : State) (f : FRec) : Nat → State
  | 0 => match f.block, f.warp with | some b, some w => endWarp s b w | _, _ => s
  | 1 => match f.block with | some b => endBlock s b | none => s
  | 2 => endCluster s f.node (clusterOf s f)
  | 3 => endNode s f.node 0x03
  | _ => match (s.nodes[f.node]?).bind (·.graph) with | some (g, _) => endGraph s g 0x03 | none => s

/-- DONE of a context: the number below its lowest operation that has not completed (R217). -/
def engDone (e : EngCtx) : EngCtx :=
  { e with done := match e.ops.map (·.n) with
      | [] => e.issued
      | n :: r => r.foldl min n - 1 }

/-- Operation n of a context is abandoned: it counts as completed, and the lowest such number is kept (R219, R237). -/
def abandonOp (e : EngCtx) (n : Nat) : EngCtx :=
  engDone { e with
    ops := e.ops.filter (·.n != n)
    faulted := true
    abandoned := some (match e.abandoned with | none => n | some a => min a n) }

/-- A precise fault that is ignored: the instruction completes without a write and its party goes on at PC + 1; an
ignored WATCHDOG sets the count to 0 (R197, R298, R421). A stopped stream whose instruction is a numbered operation
takes its number, which counts as abandoned (R298); numbered says so. -/
def ignoreFault (s : State) (p : Party) (r : Raise) (numbered : Bool) : State :=
  match p with
  | .gang b w g => modGangW s b w g fun x =>
      { x with pc := x.pc + 1, wait := .none, replay := false, wd := if r.code = .watchdog then 0 else x.wd }
  | .helm b => modHelm s b fun h =>
      { h with pc := h.pc + 1, wait := .none, replay := false, wd := if r.code = .watchdog then 0 else h.wd }
  | .stream b k => modEng s b k fun e =>
      let n := e.issued + 1
      let e1 := { e with stream := e.stream.map fun st => { st with pc := st.pc + 1, wait := .none } }
      if numbered then abandonOp { e1 with issued := n } n else e1

/-- The last incarnation of a block of a node, and its retries. -/
def lastOf (s : State) (n idx : Nat) : Nat × Nat :=
  (s.blocks.filter fun blk => blk.node = n && blk.idx = idx).foldl
    (fun a blk => if blk.incarnation ≥ a.1 then (blk.incarnation, blk.retries) else a) (0, 0)

/-- Every block of cluster c of node n, those that have ended too, to be released again together, each as a new
incarnation; the block whose fault is retried counts one retry more (R197, R419). -/
def redoCluster (s : State) (n : Nat) (nd : Node) (c : Nat) (faulty : Option Nat) : List (Nat × Nat × Nat) :=
  let cl := max nd.kd.cluster 1
  ((List.range cl).map (cl * c + ·)).map fun i =>
    let (inc, re) := lastOf s n i
    (i, inc + 1, if faulty = some i then re + 1 else re)

/-- A node taken back to its launch state (R419): it releases every block again from index 0, and the counts of retries of its
blocks and clusters start again at 0 (log 121, DESIGN CHOICE). -/
def relaunch (nd : Node) : Node :=
  { nd with status := .ready, next := 0, redo := [], incarnation := nd.incarnation + 1, retries := nd.retries + 1,
            clRetries := [], placed := [], copy := nd.copy.map fun j => { j with
              row := { j.row with fabs := [], data := [] }, stalled := none, fatal := none, written := false } }

/-- No queue keeps blocks of a node selected: those of a node taken back come again in their order (R359, R419). -/
def unselect (n : Nat) (s : State) : State :=
  { s with queues := s.queues.map fun q => if q.selected = some n then { q with selected := none, pick := [], reserved := [] } else q }

/-- Retry the instance of f at a level (R197, R419). -/
def retryAt (s : State) (f : FRec) (p : Party) : Nat → State
  | 0 =>
    match p, f.block, f.warp with
    | .gang b w g, some _, some _ =>
      let s1 := modBlock s b fun blk =>
        { blk with warpRetries :=
            (w, ((blk.warpRetries.find? (·.1 = w)).map (·.2)).getD 0 + 1) :: blk.warpRetries.filter (·.1 != w) }
      modGangW s1 b w g fun x => { x with wd := 0, wait := .none, replay := false }
    | _, _, _ => s
  | 1 =>
    match f.block with
    | none => s
    | some b =>
      match s.blocks[b]?, s.nodes[f.node]? with
      | some blk, some nd =>
        if nd.kd.cluster ≤ 1 then
          modNode (endBlock s b) f.node fun x =>
            { x with redo := x.redo ++ [(blk.idx, blk.incarnation + 1, blk.retries + 1)] }
        else
          let c := clusterOf s f
          let again := redoCluster s f.node nd c (some blk.idx)
          modNode (endCluster s f.node c) f.node fun x => { x with redo := x.redo ++ again }
      | _, _ => s
  | 2 =>
    match s.nodes[f.node]? with
    | none => s
    | some nd =>
      let c := clusterOf s f
      let again := redoCluster s f.node nd c none
      modNode (endCluster s f.node c) f.node fun x =>
        { x with
          redo := x.redo ++ again
          clRetries := (c, ((x.clRetries.find? (·.1 = c)).map (·.2)).getD 0 + 1) :: x.clRetries.filter (·.1 != c) }
  | 3 => unselect f.node (modNode (endBlocks s fun blk => blk.node = f.node) f.node relaunch)
  | _ =>
    match ((s.nodes[f.node]?).bind (·.graph)) with
    | none => s
    | some (g, _) =>
      match s.graphs[g]? with
      | none => s
      | some gr =>
        let preds (n : Nat) : Nat :=
          ((gr.nodes.flatMap fun m => ((s.nodes[m]?).map (·.succ)).getD []).filter (· = n)).length
        let s1 := gr.nodes.foldl
          (fun t n => unselect n (modNode (endBlocks t fun blk => blk.node = n) n fun x =>
            { relaunch x with status := if preds n = 0 then .ready else .waiting, retries := x.retries, count := preds n })) s
        { s1 with graphs := s1.graphs.modify g fun x => { x with retries := x.retries + 1 } }

/-- Where the walk stopped (R416, R418). -/
structure Stop where
  s : State
  stopped : Nat
  action : Nat
  suppressed : Bool
  retry : Nat

/-- The containment walk of R418, from a level that has not ended upward; fuel is the number of levels left. -/
def walk (p : Party) (numbered : Bool) (f : FRec) : Nat → Nat → State → Stop
  | 0, lvl, s => { s := s, stopped := lvl, action := 3, suppressed := true, retry := retriesAt s f lvl }
  | fuel + 1, lvl, s =>
    let n := retriesAt s f lvl
    let administrative := f.r.code = .aborted || (f.r.code = .illegal && (f.r.cause = 2 || f.r.cause = 3))
    let pol0 : BitVec 2 := if administrative then 2 else policyAt s f lvl
    let pol1 : BitVec 2 := if pol0 = 1 && (n ≥ 3 || (lvl = 0 && !f.stands)) then 2 else pol0
    let inGraph := ((s.nodes[f.node]?).bind (·.graph)).isSome
    let pol : BitVec 2 := if pol1 = 3 && (lvl ≥ 4 || (lvl = 3 && !inGraph)) then 2 else pol1
    if pol = 3 then
      let cl := match s.nodes[f.node]? with | none => 1 | some nd => nd.kd.cluster
      walk p numbered f fuel (if lvl = 1 && cl ≤ 1 then 3 else lvl + 1) (endAt s f lvl)
    else if pol = 2 then { s := endAt s f lvl, stopped := lvl, action := 2, suppressed := false, retry := n }
    else if pol = 1 then
      { s := retryAt s f p lvl, stopped := lvl, action := 1, suppressed := false, retry := n }
    else
      { s := if f.stands && lvl = f.start then ignoreFault s p f.r numbered else s,
        stopped := lvl, action := 0, suppressed := false, retry := n }

/-- Where a fault stops: it is suppressed where the instance at its first level is ending or ended, or it names an earlier
incarnation; an instance that stands has parents that stand (R418). -/
def walkFrom (s : State) (p : Party) (numbered : Bool) (f : FRec) : Stop :=
  if levelEnded s f f.start then
    { s := s, stopped := f.start, action := 3, suppressed := true, retry := retriesAt s f f.start }
  else walk p numbered f 5 f.start s

/-- The tag codes of v0 to v255, two bits each (R416). -/
def tagsField (wp : Warp) : Nat :=
  (List.finRange 256).foldl (fun a n => a + tagCode wp.regs[n].val * 4 ^ n.val) 0

/-- The block and warp that a fault's record names. -/
def FRec.place (f : FRec) : Option Nat × Option Nat :=
  match f.named with
  | some (b, w) => (some b, w)
  | none => (f.block, f.warp)

/-- The 1024 bits of a fault record (R416). -/
def faultRecord (s : State) (f : FRec) (st : Stop) (seq : Nat) : Nat :=
  let nd := s.nodes[f.node]?
  let warp := f.place.2
  let blk := f.place.1.bind (s.blocks[·]?)
  let wp := match blk, warp with | some k, some w => k.warps[w]? | _, _ => none
  let tags := match wp with | none => 0 | some w => tagsField w
  let ctx := (nd.map (·.ctx.val)).getD 0
  let ver := match wp with
    | some w => w.version.toNat
    | none => (nd.map (·.kd.version.toNat)).getD 0
  let flags := (if f.precise then 1 else 0) + (if f.retired then 2 else 0) + (if st.suppressed then 4 else 0) +
    (if wp.isSome then 16 else 0)
  tags * 2 ^ 512 + f.r.addr % 2 ^ 64 * 2 ^ 448 + (nd.map (·.pidx)).getD 0 % 2 ^ 64 * 2 ^ 384 +
  (nd.map (·.qid)).getD 0 % 4096 * 2 ^ 364 + ctx * 2 ^ 358 + (blk.map (·.core.val)).getD 0 * 2 ^ 350 +
  ver * 2 ^ 320 + (blk.map (·.idx)).getD 0 % 2 ^ 32 * 2 ^ 288 + f.pc.toNat * 2 ^ 256 +
  (match warp with | some w => w % 65536 | none => 0xFFFF) * 2 ^ 240 +
  (match f.r.lane with | some l => l % 256 | none => 0xFF) * 2 ^ 232 + f.slices.toNat * 2 ^ 224 +
  f.source * 2 ^ 216 + f.r.cause % 256 * 2 ^ 208 + f.r.code.num * 2 ^ 200 + f.start * 2 ^ 192 +
  st.stopped * 2 ^ 184 + st.action * 2 ^ 176 + st.retry % 256 * 2 ^ 168 + flags * 2 ^ 128 + seq % 2 ^ 64

/-- Units of w bytes that an access touches. -/
def unitsOf (w a n : Nat) : List Nat := (List.range ((a + n - 1) / w + 1 - a / w)).map (a / w + ·)

/-- A write reaches n bytes of device memory: a scrub of one of its granules is dropped (R433), and the write is noted for the
waits of frozen blocks (R394). -/
def reachDev (s : State) (a n : Nat) : State :=
  { s with
    wrote := (.dev a, n) :: s.wrote
    scrubs := s.scrubs.map fun x => if (unitsOf 32 a n).contains x.granule then { x with dropped := true } else x }

/-- The part of a write that falls into granule g: none where it is discarded, a partial write to a poisoned granule; a full one
clears the poison (R431). -/
def putGranule (a : Nat) (bytes : List Byte) (s : State) (g : Nat) : Option State :=
  let lo := max a (32 * g)
  let hi := min (a + bytes.length) (32 * g + 32)
  if s.badGranules.contains g && hi - lo < 32 then none
  else
    some { s with
      mem := memWrite s.mem lo ((bytes.drop (lo - a)).take (hi - lo))
      badGranules := s.badGranules.filter (· != g) }

/-- A write of the device's own to its memory: a part that is discarded is reported to no block, for it carries no tag (R414,
R431; log 112, DEDUCED). -/
def writeOwn (s : State) (a : Nat) (bytes : List Byte) : State :=
  reachDev ((unitsOf 32 a bytes.length).foldl (fun u g => (putGranule a bytes u g).getD u) s) a bytes.length

/-- Append a record to a context's fault log (R415): the record, then the write index. -/
def logFault (s : State) (ctx : Fin 64) (mk : Nat → Nat) : State :=
  let c := s.ctxs[ctx]
  if c.flogSize.toNat < 4 then s
  else
    let base := c.flogBase.toNat
    let n := memNat s.mem base 8
    writeOwn (writeOwn s (base + 128 + 128 * (n % 2 ^ c.flogSize.toNat)) (leBytes 128 (mk n))) base (leBytes 8 (n + 1))

/-- Whether a fault comes first in the order of R342. -/
def faultBefore (a b : FirstFault) : Bool :=
  a.block < b.block || (a.block = b.block && (a.warp < b.warp || (a.warp = b.warp && a.pc.toNat < b.pc.toNat)))

/-- The earlier of a packet's first fault so far and a new one (R342). -/
def firstOf (old : Option FirstFault) (n : FirstFault) : Option FirstFault :=
  match old with
  | none => some n
  | some o => if faultBefore n o then some n else some o

/-- Offer a fault: walk upward, write its record, count it (R416 to R418). -/
def offer (s : State) (p : Party) (numbered : Bool) (f : FRec) : State :=
  let st := walkFrom s p numbered f
  let nd := s.nodes[f.node]?
  let ctx := (nd.map (·.ctx)).getD 0
  let s1 := logFault st.s ctx fun seq => faultRecord s f st seq
  let first : FirstFault :=
    { block := ((f.place.1.bind (s.blocks[·]?)).map (·.idx)).getD 0
      warp := f.place.2.getD 0xFFFF, pc := f.pc, code := BitVec.ofNat 8 f.r.code.num, level := BitVec.ofNat 8 st.stopped }
  modNode s1 f.node fun x => { x with nfault := x.nfault + 1, first := firstOf x.first first }

/-- The fault of a party on its way: where it starts and what its record names (R198, R224, R298, R416). -/
def faultOf (s : State) (p : Party) (r : Raise) : FRec :=
  match p with
  | .gang b w g =>
    let blk := s.blocks[b]?
    let gg := (gangOf s p).map (·.g)
    { r := r, source := 0, block := some b, warp := some w, gid := some g, pc := (gg.map (·.pc)).getD 0,
      slices := (gg.map (·.slices)).getD 0, node := (blk.map (·.node)).getD 0,
      incarnation := (blk.map (·.incarnation)).getD 0, start := 0, precise := true, stands := true, retired := false }
  | .helm b =>
    let blk := s.blocks[b]?
    { r := { r with lane := none }, source := 1, block := some b, warp := none, gid := none,
      pc := (blk.map (·.helm.pc)).getD 0, slices := 0, node := (blk.map (·.node)).getD 0,
      incarnation := (blk.map (·.incarnation)).getD 0, start := 1, precise := true, stands := true, retired := false }
  | .stream b k =>
    let blk := s.blocks[b]?
    { r := { r with lane := none }, source := 2 + k.val, block := some b, warp := none, gid := none,
      pc := ((blk.bind (·.ctxs[k].stream)).map (·.pc)).getD 0, slices := 0, node := (blk.map (·.node)).getD 0,
      incarnation := (blk.map (·.incarnation)).getD 0, start := 1, precise := true, stands := true, retired := false }

/-- TAKING A FAULT: a precise fault of a party is offered to its containment (R413, R418). numbered says whether an
ignored stream instruction is a numbered operation (R298). -/
def takeFault (s : State) (p : Party) (r : Raise) (numbered : Bool := false) : State :=
  offer s p numbered (faultOf s p r)

/-! ## Traps (R166, R426) -/

/-- TAKING A TRAP: epc := PC, tcause := (1, lane, n), and the gang continues at tvec (R426). -/
def enterTrap (s : State) (k : GCtx) (lane : Nat) (n : BitVec 13) : State :=
  modGang s k.b k.w k.g.gid fun x =>
    { x with epc := x.pc, inHandler := true, tlane := Fin.ofNat 32 lane, tcode := n.setWidth 16, pc := k.wp.tvec }

/-- RETURN FROM A TRAP: tcause bit 31 is cleared and the gang continues at epc + 1 (R426). -/
def leaveTrap (s : State) (k : GCtx) : State :=
  modGang s k.b k.w k.g.gid fun x => { x with inHandler := false, pc := x.epc + 1 }

/-! ## Outcomes of a meaning -/

/-- A meaning's outcome. -/
abbrev Out1 := Host.Outcome State Fault Refusal

/-- Run a warp-stream meaning for the issuing gang: a raised fault is taken, and another stream that meets the
instruction takes WRONG_STREAM (R14, R413). -/
def onGang (s : State) (f : GCtx → Except Raise State) : Out1 :=
  match gangOf s s.cur with
  | some k =>
    match f k with
    | .ok t => .next t
    | .error r => .next (takeFault s s.cur r)
  | none => if partyExists s s.cur then .next (takeFault s s.cur (raise .wrongStream none)) else .fault .noParty

/-- Run a helm meaning for the issuing helm. -/
def onHelm (s : State) (f : HCtx → Except Raise State) : Out1 :=
  match helmOf s s.cur with
  | some k =>
    match f k with
    | .ok t => .next t
    | .error r => .next (takeFault s s.cur r)
  | none => if partyExists s s.cur then .next (takeFault s s.cur (raise .wrongStream none)) else .fault .noParty

/-- Run an engine-stream meaning; numbered says whether the instruction is a numbered operation (R214, R298), copies
whether the stream is a copy stream. -/
def onStream (s : State) (copies numbered : Bool) (f : SCtx → Except Raise State) : Out1 :=
  match streamOf s s.cur with
  | some k =>
    if (k.k == 0) == copies then .next (takeFault s s.cur (raise .wrongStream none) numbered)
    else
      match f k with
      | .ok t => .next t
      | .error r => .next (takeFault s s.cur r numbered)
  | none => if partyExists s s.cur then .next (takeFault s s.cur (raise .wrongStream none)) else .fault .noParty

/-- The issuing gang goes on at its next PC (R59). -/
def advance (s : State) (k : GCtx) : State := modGang s k.b k.w k.g.gid fun x => { x with pc := x.pc + 1 }

/-- The issuing helm goes on at its next PC. -/
def advanceHelm (s : State) (b : Nat) : State := modHelm s b fun h => { h with pc := h.pc + 1 }

end Sys2Proof.Machine
end

