-- ==== Sys2Proof/Machine/Flags.lean ====
section
/-!
DEFINITION. The exception flags (R24, R343), raised into a block's sticky view and its packet's summary (R422).
-/
namespace Sys2Proof.Machine

open Sys2Proof

/-- A set of flags in the order of R343. -/
abbrev Flags := BitVec 9

def Flags.none : Flags := 0
def Flags.invalid : Flags := 0x001
def Flags.divZero : Flags := 0x002
def Flags.overflow : Flags := 0x004
def Flags.underflow : Flags := 0x008
def Flags.inexact : Flags := 0x010
def Flags.saturate : Flags := 0x020
def Flags.invalidScale : Flags := 0x040
def Flags.corrupt : Flags := 0x080
def Flags.nondet : Flags := 0x100

/-- The flags when a condition holds. -/
def Flags.when (c : Bool) (f : Flags) : Flags := if c then f else 0

/-- Raise flags in a block: its sticky view and its node's summary (R422). -/
def raiseFlags (s : State) (b : Nat) (f : Flags) : State :=
  match s.blocks[b]? with
  | .none => s
  | some blk =>
    modNode (modBlock s b fun x => { x with esum := x.esum ||| f }) blk.node fun n => { n with summary := n.summary ||| f }

end Sys2Proof.Machine
end

