-- ==== Sys2Proof/WellFormed.lean ====
section
/-!
DEFINITION. Which instructions a word can hold: the static checks of R80 (checks 3 to 5) on guards, modifiers, views,
levels, register numbers and selector ranges. An event has no word and nothing to check.
-/
namespace Sys2Proof

/-- Guard 0b0111 (R64, R150 "pt only"). -/
def Ctl.ptOnly (c : Ctl) : Bool := c.pred == 7 && !c.inv

/-! ## Source and destination fields -/

/-- Views of R52 that an integer instruction of a width admits on a source. -/
def View.okInt (w : Width) : View → Bool
  | .w | .h0 | .h1 | .b0 | .b1 | .b2 | .b3 | .brev8 => true
  | .hh0 | .hh1 | .hswap => w == .w16
  | .bb0 | .bb1 | .bb2 | .bb3 => w == .w8 || w == .w4

/-- Views of R113 on a source of class 001. -/
def View.okF (pk : Pack) : View → Bool
  | .w => true
  | .h0 | .h1 => pk == .fp32
  | .hh0 | .hh1 | .hswap => pk != .fp32
  | _ => false

/-- Views of R53 on a destination of an integer instruction: class 000, DQPOP and CSRR (log 27, DEDUCED). -/
def View.okDst : View → Bool
  | .w | .h0 | .h1 | .b0 | .b1 | .b2 | .b3 => true
  | _ => false

/-- The view of a register source; a constant has none. -/
def Src.view? : Src → Option View
  | .v _ x | .vx _ x | .o _ x | .latch x => some x
  | _ => none

/-- A source of class 000 (R85). -/
def Src.okInt (w : Width) (s : Src) : Bool :=
  match s.view? with
  | some x => x.okInt w
  | none => true

/-- A source of REDX and SCANX: that of an integer instruction, but under .fadd, .fmin and .fmax the views of a 32-bit
floating-point one (R52, R107; log 96, DEDUCED). -/
def Src.okRed (op : RedOp) (s : Src) : Bool :=
  match op, s.view? with
  | .fadd, some x | .fmin, some x | .fmax, some x => x.okF .fp32
  | _, _ => s.okInt .w32

/-- A source of XSET: a register or an integer constant (R109). -/
def Src.okX (s : Src) : Bool :=
  match s with
  | .flt _ | .spec _ => false
  | _ => s.okInt .w32

/-- A source of class 001: a register, a float or a special constant (R113). -/
def Src.okF (pk : Pack) (s : Src) : Bool :=
  match s with
  | .int _ => false
  | .flt _ | .spec _ => true
  | _ => match s.view? with | some x => x.okF pk | none => false

/-- Source B of FSCALE: a register or an integer constant (R113, R123). -/
def Src.okScale (pk : Pack) (s : Src) : Bool :=
  match s with
  | .int _ => true
  | .flt _ | .spec _ => false
  | _ => match s.view? with | some x => x.okF pk | none => false

/-- A register source with view .w (R150, R423). -/
def Src.okReg (s : Src) : Bool :=
  match s.view? with
  | some x => x == .w
  | none => false

/-- The value of an integer constant lies in lo to hi; signed 14 bits. -/
def intIn (i : BitVec 14) (lo hi : Int) : Bool := lo ≤ i.toInt && i.toInt ≤ hi

/-- A register source with view .w, or an integer from lo to hi (R150, R423). -/
def Src.okRegOr (lo hi : Int) (s : Src) : Bool :=
  match s with
  | .int i => intIn i lo hi
  | _ => s.okReg

/-- A register source with a view of an integer instruction, or an integer from lo to hi: the b and n of R234, the length
of R308 (R52; log 27, DEDUCED). -/
def Src.okViewOr (lo hi : Int) (s : Src) : Bool :=
  match s with
  | .int i => intIn i lo hi
  | .flt _ | .spec _ => false
  | _ => s.okInt .w32

/-- A source with view .w, at level 3 of any kind (CSRW, R423). -/
def Src.okW (s : Src) : Bool :=
  match s.view? with
  | some x => x == .w
  | none => true

/-- A destination whose view an integer instruction admits (R53). -/
def Dst.okInt : Dst → Bool
  | .v _ x | .vx _ x | .vo _ _ x => x.okDst
  | _ => true

/-- A destination with view .w (R113, R129). -/
def Dst.okW : Dst → Bool
  | .v _ x | .vx _ x | .vo _ _ x => x == .w
  | _ => true

/-- Registers that one lane's data of a size fills (R74). -/
def Size.regs : Size → Nat
  | .b64 => 2
  | .b128 => 4
  | _ => 1

/-- Bytes of a size (R74). -/
def Size.bytes : Size → Nat
  | .b8 => 1 | .b16 => 2 | .b32 => 4 | .b64 => 8 | .b128 => 16

/-- A data source of n consecutive registers (R129): for one register any level, an integer or a special constant; for
more, level 0 with a number that is a multiple of n. -/
def Src.okData (n : Nat) (s : Src) : Bool :=
  if n ≤ 1 then
    match s with
    | .flt _ => false
    | _ => s.okW
  else
    match s with
    | .v k x => x == .w && k.val % n == 0
    | _ => false

/-- A data destination of n consecutive registers (R129). -/
def Dst.okData (n : Nat) (d : Dst) : Bool :=
  if n ≤ 1 then d.okW
  else
    match d with
    | .v k x => x == .w && k.val % n == 0
    | _ => false

/-! ## Modifiers -/

/-- An order with its scope: an order other than plain needs a scope (R77). -/
def okOrder (o : Order) (sc : Scope) : Bool := o == .plain || sc != .none

/-- LD, SLD and WAITA admit plain and .acq (R128). -/
def Order.okLoad : Order → Bool
  | .plain | .acq => true
  | _ => false

/-- ST, QST and SST admit plain and .rel (R128). -/
def Order.okStore : Order → Bool
  | .plain | .rel => true
  | _ => false

/-- Scopes that SIGOP, CSIG and CWAIT admit (R239, R309). -/
def Scope.okSig : Scope → Bool
  | .bk | .cl | .dv | .sy => true
  | _ => false

/-- .u is admitted on .min and .max only (R141). -/
def AtomOp.okU (op : AtomOp) (u : Bool) : Bool := !u || op == .min || op == .max

/-- Sizes of ATOM, SATOM and WAITA (R128). -/
def Size.okAtom : Size → Bool
  | .b32 | .b64 => true
  | _ => false

/-- Registers of the data of an ATOM: .cas takes two operands (R141). -/
def atomRegs (op : AtomOp) (sz : Size) : Nat := if op == .cas then 2 * sz.regs else sz.regs

/-- Whether a CVT type is a float, and its code (R100). -/
def CvtType.isFloat : CvtType → Bool
  | .f32 | .bf16 | .f16 | .e4m3 | .e5m2 => true
  | _ => false

/-- Whether a float type holds every value of another (R101). -/
def CvtType.holds : CvtType → CvtType → Bool
  | .f32, t => t.isFloat
  | .bf16, .bf16 | .bf16, .e4m3 | .bf16, .e5m2 => true
  | .f16, .f16 | .f16, .e4m3 | .f16, .e5m2 => true
  | .e4m3, .e4m3 | .e5m2, .e5m2 => true
  | _, _ => false

/-- Width and signedness of an integer type (R100). -/
def CvtType.intW : CvtType → Nat × Bool
  | .s8 => (8, true) | .s4 => (4, true) | .s32 => (32, true) | .u32 => (32, false) | .s16 => (16, true)
  | .u16 => (16, false) | .u8 => (8, false) | .u4 => (4, false) | _ => (32, true)

/-- The least value of an integer type. -/
def CvtType.lo (t : CvtType) : Int := if t.intW.2 then -(2 ^ (t.intW.1 - 1) : Int) else 0

/-- The greatest value of an integer type. -/
def CvtType.hi (t : CvtType) : Int := if t.intW.2 then 2 ^ (t.intW.1 - 1) - 1 else 2 ^ t.intW.1 - 1

/-- Rounding and .sat that CVT admits for its types (R101). -/
def cvtOk (dt st : CvtType) (rm : RMode) (sat : Bool) : Bool :=
  if st.isFloat != dt.isFloat then !sat
  else if st.isFloat then !sat && (rm == .rn || !dt.holds st)
  else rm == .rn && !(sat && dt.lo ≤ st.lo && st.hi ≤ dt.hi)

/-- .sat and .u that REDX and SCANX admit (R107). -/
def redOk (op : RedOp) (sat u : Bool) : Bool :=
  (!sat || op == .add) && (!u || op == .add || op == .min || op == .max)

/-- A profile of MCUR: a format set, bits 15:9 zero (R319). -/
def profileOk (p : BitVec 16) : Bool := p.toNat % 32 != 0 && p.toNat < 512

/-- A helm field at level 0 or 3 (R223 "s"). -/
def HSrc.okS : HSrc → Bool
  | .q _ => false
  | _ => true

/-- A helm field at level 1. -/
def HSrc.isQ : HSrc → Bool
  | .q _ => true
  | _ => false

/-- A helm destination at level 1. -/
def HDst.isQ : HDst → Bool
  | .q _ => true
  | _ => false

/-- SAND, SOR and SXOR take s operands only, or q operands only (R225). An immediate counts as s. -/
def okLogic (d : HDst) (a b : HSrc) : Bool := d.isQ == a.isQ && d.isQ == b.isQ

/-- Sizes of SLD and SST (R227). -/
def Size.okHelm : Size → Bool
  | .b128 => false
  | _ => true

/-! ## Instructions -/

/-- The static checks of R80 on an instruction's guard, modifiers and fields.
A CSIG.bar whose count is outside 1 to 1,023 is ill-formed, though R295 gives its count no range (log 115, DESIGN CHOICE). -/
def Instr.wf : Instr → Bool
  | .iadd _ d a b w _ _ | .isub _ d a b w _ _ | .imul _ d a b w _ _ => d.okInt && a.okInt w && b.okInt w
  | .imulhi _ d a b w _ => w != .w4 && d.okInt && a.okInt w && b.okInt w
  | .imad _ d a b e w _ _ => d.okInt && a.okInt w && b.okInt w && e.okInt w
  | .imin _ d a b w _ | .imax _ d a b w _ => d.okInt && a.okInt w && b.okInt w
  | .iabs _ d a w _ => d.okInt && a.okInt w
  | .isetp _ _ a b _ _ => a.okInt .w32 && b.okInt .w32
  | .shl _ d a b w | .shr _ d a b w | .sar _ d a b w => d.okInt && a.okInt w && b.okInt w
  | .and _ d a b | .or _ d a b | .xor _ d a b | .andn _ d a b => d.okInt && a.okInt .w32 && b.okInt .w32
  | .lop3 _ d a b _ _ => d.okInt && a.okInt .w32 && b.okInt .w32
  | .popc _ d a w | .clz _ d a w | .brev _ d a w => d.okInt && a.okInt w
  | .bfx _ d a b _ => d.okInt && a.okInt .w32 && b.okInt .w32
  | .bfi _ d a b e => d.okInt && a.okInt .w32 && b.okInt .w32 && e.okInt .w32
  | .sel _ d a b _ => d.okInt && a.okInt .w32 && b.okInt .w32
  | .prmt _ d a b e => d.okInt && a.okInt .w32 && b.okInt .w32 && e.okInt .w32
  | .idot4 _ d a b e _ _ => d.okInt && a.okInt .w32 && b.okInt .w32 && e.okInt .w32
  | .mov _ d a => d.okInt && a.okInt .w32
  | .movi _ d _ => d.okInt
  | .cvt _ d a ty sy rm sat => d.okInt && a.okInt .w32 && cvtOk ty sy rm sat
  | .sread _ d n hi => d.okInt && (!hi || n == 7 || n == 9)
  | .vtag _ d _ => d.okInt
  | .vshape _ _ | .vexp _ _ => true
  | .shfl _ d a b _ => d.okInt && a.okInt .w32 && b.okInt .w32
  | .vote _ form _ => match form with | .bits d => d.okInt | _ => true
  | .redx _ d a op sat u | .scanx _ d a op sat u => d.okInt && a.okRed op && redOk op sat u
  | .xset _ _ a b e => a.okX && b.okX && e.okX
  | .xclr _ _ => true
  | .plop _ _ _ _ _ => true
  | .pmov _ form => match form with | .toP _ a => a.okInt .w32 | .toV d _ => d.okInt
  | .fadd _ d a b _ pk | .fsub _ d a b _ pk | .fmul _ d a b _ pk => d.okW && a.okF pk && b.okF pk
  | .ffma _ d a b e _ pk => d.okW && a.okF pk && b.okF pk && e.okF pk
  | .fmin _ d a b pk | .fmax _ d a b pk => d.okW && a.okF pk && b.okF pk
  | .fsetp _ _ a b _ => a.okF .fp32 && b.okF .fp32
  | .frnd _ d a _ pk => d.okW && a.okF pk
  | .fclass _ d a => d.okW && a.okF .fp32
  | .fscale _ d a b _ pk => d.okW && a.okF pk && b.okScale pk
  | .fdot2 _ d a b e _ pk => pk != .fp32 && d.okW && a.okF pk && b.okF pk && e.okF .fp32
  | .rcp _ d a | .rsq _ d a | .sqrt _ d a | .ex2 _ d a | .lg2 _ d a | .sinpi _ d a | .cospi _ d a | .tanh _ d a =>
      d.okW && a.okF .fp32
  | .ld _ d _ _ o sc _ sx sz =>
      d.okData sz.regs && o.okLoad && okOrder o sc && (!sx || sz == .b8 || sz == .b16)
  | .st _ _ data _ o sc _ _ sz => data.okData sz.regs && o.okStore && okOrder o sc
  | .qst _ _ data _ o sc _ sz =>
      data.okData sz.regs && o.okStore && okOrder o sc && (sz == .b32 || sz == .b64 || sz == .b128)
  | .atom _ d _ data op u _ sc sz =>
      (match d with | some x => x.okData sz.regs | none => true) && data.okData (atomRegs op sz) && op.okU u &&
      sc != .none && sz.okAtom
  | .atomo _ _ data _ => data.okData 1
  | .fence _ o sc fl => o != .plain && sc != .none && (!fl || sc == .dv || sc == .sy)
  | .waita _ d _ data _ o sc sz => d.okData sz.regs && data.okData sz.regs && o.okLoad && sc != .none && sz.okAtom
  | .pref _ _ _ _ => true
  | .bra c rc _ => rc != 0 || c.ptOnly
  | .bru _ t => match t with | .off _ => true | .reg a => a.okReg
  | .brx _ rc a => rc != 0 && a.okReg
  | .call c _ => c.ptOnly
  | .callx c a => c.ptOnly && a.okReg
  | .ret c => c.ptOnly
  | .regang c a => c.ptOnly && a.okRegOr 0 255
  | .exit _ | .yield _ => true
  | .safe c _ => c.ptOnly
  | .xfer _ a _ => a.okRegOr 0 8191
  | .trap _ _ | .nop _ | .bkpt _ => true
  | .bara _ b n | .bars _ b n => b.okViewOr 0 31 && n.okViewOr 1 1023
  | .barw _ b => b.okViewOr 0 31
  | .twait _ _ _ _ => true
  | .dqpop _ d => d.okInt
  | .sigop _ _ _ _ sc => sc.okSig
  | .sadd _ _ a b | .ssub _ _ a b | .smul _ _ a b => a.okS && b.okS
  | .sand _ d a b | .sor _ d a b | .sxor _ d a b => okLogic d a b
  | .sshl _ _ a b | .sshr _ _ a b | .ssar _ _ a b => a.okS && b.okS
  | .smin _ _ a b _ | .smax _ _ a b _ => a.okS && b.okS
  | .scmp _ _ a b _ _ => a.okS && b.okS
  | .ssel _ _ a b _ => a.okS && b.okS
  | .smov _ _ _ | .smovi _ _ _ _ => true
  | .sld _ _ _ _ o sc sx sz =>
      o.okLoad && okOrder o sc && sz.okHelm && (!sx || sz == .b8 || sz == .b16 || sz == .b32)
  | .sst _ _ b _ o sc sz => b.okS && o.okStore && okOrder o sc && sz.okHelm
  | .satom _ _ _ b op u _ sc sz => op.okU u && sc != .none && sz.okAtom && (op != .cas || b.val % 2 == 0)
  | .sbr _ _ | .sjmp _ _ | .scall _ _ | .sret _ => true
  | .dqpush _ v m => v.okS && (match m with | .imm i => intIn i 0 15 | .s _ => true | .q _ => false)
  | .fork _ _ e => match e with | .imm i => intIn i 0 8191 | .s _ => true | .q _ => false
  | .join _ _ | .hend _ => true
  | .cpy c _ | .cpys c _ | .cgath c _ | .cscat c _ | .cred c _ | .cfill c _ => c.ptOnly
  | .tgath _ _ _ _ len => match len with | .int i => intIn i 4 4096 && i.toNat % 4 == 0 | _ => len.okViewOr 4 4096
  | .cslot c _ _ => c.ptOnly
  | .crecode c _ _ => c.ptOnly
  | .csig c form =>
      c.ptOnly && (match form with | .sig _ sc _ _ => sc.okSig | .bar _ n => 1 ≤ n.toNat && n.toNat ≤ 1023)
  | .cwait c form => c.ptOnly && (match form with | .sig _ sc _ _ => sc.okSig | .bar _ => true)
  | .cloop c _ len => c.ptOnly && len != 0
  | .cend c => c.ptOnly
  | .mclaim c a m ns nt | .mrel c a m ns nt =>
      c.ptOnly && ns.toNat + nt.toNat != 0 && m.val + ns.toNat ≤ 64 && a.val + nt.toNat ≤ 48
  | .mma c _ a b k => c.ptOnly && (k != .ti8 || b.val ≤ 59) && (k != .i8t || a.val ≤ 59)
  | .mmag c _ _ g p => c.ptOnly && g.val ≤ 62 && p.val ≤ 62
  | .mzero c _ => c.ptOnly
  | .mstore c _ _ _ => c.ptOnly
  | .macc c d a => c.ptOnly && d != a
  | .mbara c _ n => c.ptOnly && 1 ≤ n.toNat && n.toNat ≤ 1023
  | .mbarw c _ => c.ptOnly
  | .mloop c _ len _ => c.ptOnly && len != 0
  | .msave c _ | .mresume c _ => c.ptOnly
  | .mcur c p => c.ptOnly && profileOk p
  | .mend c => c.ptOnly
  | .csrr _ d _ => d.okInt
  | .csrw _ n a => (n == 0 || n == 1 || n == 6) && a.okW
  | .trapret c | .fresume c => c.ptOnly
  | .cont _ a => a.okRegOr 0 8191
  -- events have no word
  | _ => true

end Sys2Proof
end

