-- ==== Sys2Proof/Machine/Float.lean ====
section
/-!
DEFINITION. Exact arithmetic on codes: formats (R15), rounding (R18), sums of products (R115), minimum, maximum,
comparison, conversion (R23), and the special functions (R39, R40, R126).
-/
namespace Sys2Proof.Machine

open Sys2Proof

/-! ## Dyadic numbers -/

/-- The exact number m·2^e. -/
structure Dy where
  m : Int
  e : Int
  deriving DecidableEq, Repr

/-- Both mantissas at the smaller exponent. -/
def Dy.align (a b : Dy) : Int × Int × Int :=
  let e := min a.e b.e
  (a.m * 2 ^ (a.e - e).toNat, b.m * 2 ^ (b.e - e).toNat, e)

def Dy.add (a b : Dy) : Dy := let (x, y, e) := a.align b; { m := x + y, e := e }
def Dy.neg (a : Dy) : Dy := { a with m := -a.m }
def Dy.sub (a b : Dy) : Dy := a.add b.neg
def Dy.mul (a b : Dy) : Dy := { m := a.m * b.m, e := a.e + b.e }
def Dy.ofInt (n : Int) : Dy := { m := n, e := 0 }
def Dy.zero : Dy := { m := 0, e := 0 }

/-- a ≤ b. -/
def Dy.le (a b : Dy) : Bool := let (x, y, _) := a.align b; x ≤ y
/-- a < b. -/
def Dy.lt (a b : Dy) : Bool := let (x, y, _) := a.align b; x < y
/-- a = b as numbers. -/
def Dy.eq (a b : Dy) : Bool := let (x, y, _) := a.align b; x = y
def Dy.abs (a : Dy) : Dy := { a with m := a.m.natAbs }

/-- The sum of a list. -/
def Dy.sum (l : List Dy) : Dy := l.foldl Dy.add Dy.zero

/-! ## Formats (R15, R16) -/

/-- A format: exponent bits, fraction bits, bias, and whether it is E4M3, which has no infinity. -/
structure Fmt where
  eb : Nat
  mb : Nat
  bias : Int
  e4m3 : Bool
  deriving DecidableEq, Repr

def Fmt.f32 : Fmt := { eb := 8, mb := 23, bias := 127, e4m3 := false }
def Fmt.bf16 : Fmt := { eb := 8, mb := 7, bias := 127, e4m3 := false }
def Fmt.f16 : Fmt := { eb := 5, mb := 10, bias := 15, e4m3 := false }
def Fmt.e4m3f : Fmt := { eb := 4, mb := 3, bias := 7, e4m3 := true }
def Fmt.e5m2 : Fmt := { eb := 5, mb := 2, bias := 15, e4m3 := false }

/-- The least biased-exponent code that holds no finite value, as a magnitude code: infinity, or E4M3's NaN. -/
def Fmt.top (f : Fmt) : Nat := if f.e4m3 then 0x7F else (2 ^ f.eb - 1) * 2 ^ f.mb

/-- The magnitude code of the largest finite value. -/
def Fmt.maxFin (f : Fmt) : Nat := f.top - 1

/-- The sign bit. -/
def Fmt.sign (f : Fmt) (neg : Bool) : Nat := if neg then 2 ^ (f.eb + f.mb) else 0

/-- The canonical NaN (R15, R17). -/
def Fmt.nan (f : Fmt) : Nat := if f.e4m3 then 0x7F else f.top + 2 ^ (f.mb - 1)

/-- The infinity of a sign; for E4M3 its largest finite value (R23). -/
def Fmt.inf (f : Fmt) (neg : Bool) : Nat := f.sign neg + (if f.e4m3 then f.maxFin else f.top)

/-- What a code stands for. -/
inductive FVal where
  | nan (signalling : Bool)
  | inf (neg : Bool)
  | fin (neg : Bool) (m : Nat) (e : Int)
  deriving DecidableEq, Repr

/-- The value of a code (R16, R17). -/
def unpackF (f : Fmt) (c : Nat) : FVal :=
  let neg := c / 2 ^ (f.eb + f.mb) % 2 = 1
  let e := c / 2 ^ f.mb % 2 ^ f.eb
  let m := c % 2 ^ f.mb
  if f.e4m3 && e = 15 && m = 7 then .nan false
  else if !f.e4m3 && e = 2 ^ f.eb - 1 then if m = 0 then .inf neg else .nan (m < 2 ^ (f.mb - 1))
  else if e = 0 then .fin neg m (1 - f.bias - f.mb)
  else .fin neg (m + 2 ^ f.mb) (e - f.bias - f.mb)

def FVal.isNan : FVal → Bool
  | .nan _ => true
  | _ => false

def FVal.isSnan : FVal → Bool
  | .nan x => x
  | _ => false

def FVal.neg : FVal → FVal
  | .nan x => .nan x
  | .inf n => .inf !n
  | .fin n m e => .fin (!n) m e

/-- The exact number of a finite value. -/
def FVal.dy : FVal → Dy
  | .fin n m e => { m := if n then -(m : Int) else m, e := e }
  | _ => Dy.zero

/-- The sign of a value. -/
def FVal.sgn : FVal → Bool
  | .nan _ => false
  | .inf n => n
  | .fin n _ _ => n

/-! ## Rounding (R18) -/

/-- Whether a quotient q with remainder r over d is rounded up in magnitude. -/
def roundUp (rm : RMode) (neg : Bool) (q r d : Nat) : Bool :=
  match rm with
  | .rn => 2 * r > d || (2 * r = d && q % 2 = 1)
  | .rz => false
  | .ru => !neg && r != 0
  | .rd => neg && r != 0

/-- num/den rounded to an integer in the mode, and whether it was exact. -/
def roundInt (rm : RMode) (neg : Bool) (num den : Nat) : Nat × Bool :=
  let q := num / den
  let r := num % den
  (if roundUp rm neg q r den then q + 1 else q, r = 0)

/-- ⌊log2(num/den)⌋ for positive num and den. -/
def log2Rat (num den : Nat) : Int :=
  let l : Int := (Nat.log2 num : Int) - Nat.log2 den
  let big : Bool := if l ≥ 0 then num ≥ den * 2 ^ l.toNat else num * 2 ^ (-l).toNat ≥ den
  if big then l else l - 1

/-- num/den in units of 2^u, as a fraction of naturals. -/
def inUnits (num den : Nat) (u : Int) : Nat × Nat :=
  if u ≥ 0 then (num, den * 2 ^ u.toNat) else (num * 2 ^ (-u).toNat, den)

/-- The magnitude num/den with a sign rounded once to a format, with its flags (R18, R23; log 26, DEDUCED). -/
def roundRat (f : Fmt) (rm : RMode) (neg : Bool) (num den : Nat) : Nat × Flags :=
  if num = 0 then (f.sign neg, 0)
  else
    let e := log2Rat num den
    let emin : Int := 1 - f.bias
    let ex := max e emin
    let (n, d) := inUnits num den (ex - f.mb)
    let (q, exact) := roundInt rm neg n d
    let code := (ex + f.bias - 1).toNat * 2 ^ f.mb + q
    if code ≥ f.top then
      let toInf := match rm with | .rn => true | .rz => false | .ru => !neg | .rd => neg
      ((if toInf then f.inf neg else f.sign neg + f.maxFin), Flags.overflow ||| Flags.inexact)
    else
      -- tininess after rounding, with an unbounded exponent range
      let (n1, d1) := inUnits num den (e - f.mb)
      let tiny := e < emin && (roundInt rm neg n1 d1).1 < 2 ^ (f.mb + 1) || e < emin - 1
      (f.sign neg + code, Flags.when (!exact) (Flags.inexact ||| Flags.when tiny Flags.underflow))

/-- An exact dyadic rounded once; a zero takes the sign given. -/
def roundDy (f : Fmt) (rm : RMode) (zneg : Bool) (x : Dy) : Nat × Flags :=
  if x.m = 0 then (f.sign zneg, 0)
  else if x.e ≥ 0 then roundRat f rm (x.m < 0) (x.m.natAbs * 2 ^ x.e.toNat) 1
  else roundRat f rm (x.m < 0) x.m.natAbs (2 ^ (-x.e).toNat)

/-- RoundRN of a dyadic to FP32 (R11). -/
def roundRN32 (x : Dy) : Nat × Flags := roundDy .f32 .rn false x

/-! ## Sums of products (R115) -/

/-- A factor of one: an addend is a product with it. -/
def FVal.one : FVal := .fin false 1 0

/-- Whether a product is 0 × ∞. -/
def zeroInf (t : FVal × FVal) : Bool :=
  match t with
  | (.inf _, .fin _ 0 _) => true
  | (.fin _ 0 _, .inf _) => true
  | _ => false

/-- The signs of the infinite products. -/
def infSigns (ts : List (FVal × FVal)) : List Bool :=
  ts.filterMap fun (a, b) =>
    if a.isNan || b.isNan then none
    else match a, b with
      | .inf x, y => some (x != y.sgn)
      | y, .inf x => some (x != y.sgn)
      | _, _ => none

/-- A sum of exact products, resolved and rounded once (R115). -/
def sumProd (f : Fmt) (rm : RMode) (ts : List (FVal × FVal)) : Nat × Flags :=
  let infs := infSigns ts
  if ts.any fun t => t.1.isSnan || t.2.isSnan then (f.nan, Flags.invalid)
  else if ts.any zeroInf || (infs.contains true && infs.contains false) then (f.nan, Flags.invalid)
  else if ts.any fun t => t.1.isNan || t.2.isNan then (f.nan, 0)
  else if infs.contains true then (f.inf true, 0)
  else if infs.contains false then (f.inf false, 0)
  else
    let sum := Dy.sum (ts.map fun t => t.1.dy.mul t.2.dy)
    let zeros := ts.all fun t => t.1.dy.m * t.2.dy.m = 0
    let zneg :=
      if zeros && ts.all fun t => t.1.sgn != t.2.sgn then true
      else if zeros && ts.all fun t => t.1.sgn == t.2.sgn then false
      else rm == .rd
    roundDy f rm zneg sum

/-! ## Minimum, maximum, comparison (R119, R120) -/

/-- Order of two values that are not NaN, −0 below +0 when signed zeros count. -/
def fvLt (zeros : Bool) (a b : FVal) : Bool :=
  match a, b with
  | .inf true, .inf true => false
  | .inf true, _ => true
  | _, .inf true => false
  | .inf false, _ => false
  | _, .inf false => true
  | a, b => a.dy.lt b.dy || (zeros && a.dy.eq b.dy && a.dy.m = 0 && a.sgn && !b.sgn)

/-- minimumNumber and maximumNumber (R119). -/
def minMaxF (f : Fmt) (max : Bool) (x y : Nat) : Nat × Flags :=
  let a := unpackF f x
  let b := unpackF f y
  let fl := Flags.when (a.isSnan || b.isSnan) Flags.invalid
  if a.isNan && b.isNan then (f.nan, fl)
  else if a.isNan then (y, fl)
  else if b.isNan then (x, fl)
  else if max then (if fvLt true a b then y else x, fl)
  else (if fvLt true b a then y else x, fl)

/-- A comparison of FSETP (R120). -/
def cmpF (k : FCmp) (x y : Nat) : Bool × Flags :=
  let a := unpackF .f32 x
  let b := unpackF .f32 y
  let un := a.isNan || b.isNan
  let lt := !un && fvLt false a b
  let gt := !un && fvLt false b a
  let eq := !un && !lt && !gt
  let r := match k with
    | .eq => eq | .ne => !eq | .lt => lt | .le => lt || eq | .gt => gt | .ge => gt || eq | .num => !un | .nan => un
  (r, Flags.when (a.isSnan || b.isSnan) Flags.invalid)

/-! ## Rounding to integral, scaling, classes (R121 to R123) -/

/-- FRND (R121). -/
def rndF (f : Fmt) (rm : RMode) (x : Nat) : Nat × Flags :=
  match unpackF f x with
  | .nan sg => (f.nan, Flags.when sg Flags.invalid)
  | .inf _ => (x, 0)
  | .fin neg m e =>
    if e ≥ 0 then (x, 0)
    else
      let (q, _) := roundInt rm neg m (2 ^ (-e).toNat)
      ((roundRat f .rn neg q 1).1, 0)

/-- FSCALE: a·2^n rounded once (R123). Beyond ±2000 the result is the overflowed or underflowed one. -/
def scaleF (f : Fmt) (rm : RMode) (x : Nat) (n : Int) : Nat × Flags :=
  match unpackF f x with
  | .nan sg => (f.nan, Flags.when sg Flags.invalid)
  | .inf _ => (x, 0)
  | .fin neg m e =>
    let k := max (-2000) (min 2000 n)
    if m = 0 then (x, 0) else roundDy f rm neg { m := if neg then -(m : Int) else m, e := e + k }

/-- FCLASS (R122). -/
def classF (x : Nat) : Nat :=
  match unpackF .f32 x with
  | .nan true => 0x100
  | .nan false => 0x200
  | .inf true => 0x001
  | .inf false => 0x080
  | .fin neg m _ =>
    if m = 0 then (if neg then 0x008 else 0x010)
    else if m < 2 ^ 23 then (if neg then 0x004 else 0x020)
    else if neg then 0x002 else 0x040

/-! ## Conversions (R23, R101) -/

/-- The format of a float type. -/
def CvtType.fmt : CvtType → Fmt
  | .bf16 => .bf16 | .f16 => .f16 | .e4m3 => .e4m3f | .e5m2 => .e5m2 | _ => .f32

/-- Bits of a type (R100). -/
def CvtType.bits (t : CvtType) : Nat :=
  if t.isFloat then (match t with | .f32 => 32 | .bf16 | .f16 => 16 | _ => 8) else t.intW.1

/-- Float to float (R23). -/
def cvtFF (st dt : Fmt) (rm : RMode) (x : Nat) : Nat × Flags :=
  match unpackF st x with
  | .nan sg => (dt.nan, Flags.when sg Flags.invalid)
  | .inf neg => (dt.inf neg, Flags.when dt.e4m3 (Flags.overflow ||| Flags.inexact))
  | .fin neg m e =>
    let (c, fl) := roundDy dt rm neg { m := if neg then -(m : Int) else m, e := e }
    if dt.e4m3 && (fl &&& Flags.overflow != 0) then (dt.inf neg, fl) else (c, fl)

/-- Float to integer in lo to hi (R23). -/
def cvtFI (st : Fmt) (lo hi : Int) (rm : RMode) (x : Nat) : Int × Flags :=
  match unpackF st x with
  | .nan _ => (0, Flags.invalid)
  | .inf neg => (if neg then lo else hi, Flags.invalid)
  | .fin neg m e =>
    let (q, exact) := if e ≥ 0 then (m * 2 ^ e.toNat, true) else roundInt rm neg m (2 ^ (-e).toNat)
    let v : Int := if neg then -(q : Int) else q
    if v < lo then (lo, Flags.invalid)
    else if v > hi then (hi, Flags.invalid)
    else (v, Flags.when (!exact) Flags.inexact)

/-- Integer to float (R101). -/
def cvtIF (dt : Fmt) (rm : RMode) (n : Int) : Nat × Flags :=
  let (c, fl) := roundDy dt rm false (Dy.ofInt n)
  if dt.e4m3 && (fl &&& Flags.overflow != 0) then (dt.inf (n < 0), fl) else (c, fl)

/-- The signed reading of the low w bits. -/
def sextN (w n : Nat) : Int := let x := n % 2 ^ w; if x < 2 ^ (w - 1) then x else (x : Int) - 2 ^ w

/-- CVT of one word (R100, R101). -/
def cvtWord (dt st : CvtType) (rm : RMode) (sat : Bool) (x : Word) : Word × Flags :=
  let src := x.toNat % 2 ^ CvtType.bits st
  let ival : Int := if st.intW.2 then sextN (CvtType.bits st) src else src
  if st.isFloat then
    if dt.isFloat then
      let (c, fl) := cvtFF (CvtType.fmt st) (CvtType.fmt dt) rm src
      (BitVec.ofNat 32 c, fl)
    else
      let (v, fl) := cvtFI (CvtType.fmt st) dt.lo dt.hi rm src
      (BitVec.ofInt 32 v, fl)
  else if dt.isFloat then
    let (c, fl) := cvtIF (CvtType.fmt dt) rm ival
    (BitVec.ofNat 32 c, fl)
  else
    let clamped := max dt.lo (min dt.hi ival)
    let low : Int := if dt.intW.2 then sextN (CvtType.bits dt) (ival % 2 ^ 32).toNat
      else ((ival % 2 ^ 32).toNat % 2 ^ CvtType.bits dt : Nat)
    if sat then (BitVec.ofInt 32 clamped, Flags.when (clamped != ival) Flags.saturate)
    else (BitVec.ofInt 32 low, 0)

/-! ## Special functions (R39, R40, R126) -/

/-- Integer square root, from bit k down. -/
def isqrtGo (n : Nat) : Nat → Nat → Nat
  | 0, root => root
  | k + 1, root => isqrtGo n k (if (root + 2 ^ k) * (root + 2 ^ k) ≤ n then root + 2 ^ k else root)

/-- ⌊√n⌋. -/
def isqrt (n : Nat) : Nat := isqrtGo n (Nat.log2 n / 2 + 1) 0

/-- Σ x^(2k+1)/(2k+1) in units of 2^-p, x in those units and |x| < 1/2: the series of atanh. -/
def atanhGo (p : Nat) (x2 : Int) : Nat → Nat → Int → Int → Int
  | 0, _, _, acc => acc
  | fuel + 1, k, t, acc => atanhGo p x2 fuel (k + 1) (t * x2 / 2 ^ p) (acc + t / (2 * k + 1))

def atanhFix (p : Nat) (x : Int) : Int := atanhGo p (x * x / 2 ^ p) p 0 x 0

/-- ln 2 in units of 2^-p: 2·atanh(1/3). -/
def ln2Fix (p : Nat) : Int := 2 * atanhFix p (2 ^ p / 3)

/-- Σ y^k/k! in units of 2^-p. -/
def expGo (p : Nat) (y : Int) : Nat → Nat → Int → Int → Int
  | 0, _, _, acc => acc
  | fuel + 1, k, t, acc => expGo p y fuel (k + 1) (t * y / 2 ^ p / (k + 1)) (acc + t)

def expFix (p : Nat) (y : Int) : Int := expGo p y p 0 (2 ^ p) 0

/-- Σ (−1)^k x^(2k+1)/(2k+1) in units of 2^-p: the series of arctan, for 1/n. -/
def atanInvGo (n2 : Nat) : Nat → Nat → Int → Int → Int
  | 0, _, _, acc => acc
  | fuel + 1, k, t, acc =>
    atanInvGo n2 fuel (k + 1) (t / n2) (if k % 2 = 0 then acc + t / (2 * k + 1) else acc - t / (2 * k + 1))

/-- π in units of 2^-p: 16·atan(1/5) − 4·atan(1/239). -/
def piFix (p : Nat) : Int := 16 * atanInvGo 25 p 0 (2 ^ p / 5) 0 - 4 * atanInvGo 57121 p 0 (2 ^ p / 239) 0

/-- Σ (−1)^k y^(2k+1)/(2k+1)! in units of 2^-p. -/
def sinGo (p : Nat) (y2 : Int) : Nat → Nat → Int → Int → Int
  | 0, _, _, acc => acc
  | fuel + 1, k, t, acc => sinGo p y2 fuel (k + 1) (-(t * y2 / 2 ^ p / ((2 * k + 2) * (2 * k + 3)))) (acc + t)

def sinFix (p : Nat) (y : Int) : Int := sinGo p (y * y / 2 ^ p) p 0 y 0

/-- A positive irrational number known to lie within err of v, in units of 2^-p, rounded; none while the bounds round
apart. -/
def roundNear (neg : Bool) (v err : Int) (p : Int) : Option (Nat × Flags) :=
  let a := roundDy .f32 .rn neg { m := if neg then -(v - err) else v - err, e := -p }
  let b := roundDy .f32 .rn neg { m := if neg then -(v + err) else v + err, e := -p }
  if a.1 = b.1 && v > err then some (a.1, a.2 ||| b.2 ||| Flags.inexact) else none

/-- The error bound of the series above, in units: far above the number of terms. -/
def seriesErr : Int := 2 ^ 20

/-- Try growing precisions until the bounds agree. -/
def tryPrec (g : Nat → Option (Nat × Flags)) : Nat → Nat → Nat × Flags
  | 0, _ => (Fmt.nan .f32, 0)
  | fuel + 1, p =>
    match g p with
    | some r => r
    | none => tryPrec g fuel (2 * p)

/-- A finite value in units of 2^-p, rounded down. -/
def fixOf (m : Nat) (e : Int) (p : Nat) : Int := if e + p ≥ 0 then m * 2 ^ (e + p).toNat else m / 2 ^ (-(e + p)).toNat

/-- 2^x for finite x = ±m·2^e that is no integer: n + f with 0 < f < 1. -/
def ex2Fin (neg : Bool) (m : Nat) (e : Int) : Nat × Flags :=
  if e + Nat.log2 m ≥ 9 then
    -- |x| ≥ 512
    if neg then roundDy .f32 .rn false { m := 1, e := -1000 } else roundDy .f32 .rn false { m := 1, e := 1000 }
  else
    tryPrec (fun p =>
      let x := if neg then -(fixOf m e p) else fixOf m e p
      let n := x / 2 ^ p
      let f := x % 2 ^ p
      roundNear false (expFix p (f * ln2Fix p / 2 ^ p)) seriesErr (p - n)) 5 96

/-- log2 of m·2^e, m > 0, not a power of two. -/
def lg2Fin (m : Nat) (e : Int) : Nat × Flags :=
  let l := Nat.log2 m
  -- m/2^l in [1, 2); above 4/3 it is halved
  let up := 3 * m > 4 * 2 ^ l
  let ex : Int := e + l + (if up then 1 else 0)
  let den := if up then 2 ^ (l + 1) else 2 ^ l
  tryPrec (fun p =>
    let z : Int := ((m : Int) - den) * 2 ^ p / (m + den)
    let v := ex * 2 ^ p + 2 * atanhFix p z * 2 ^ p / ln2Fix p
    roundNear (v < 0) v.natAbs seriesErr p) 5 128

/-- sin(π·r) for 0 < r < 1, r = m·2^e, r ≠ 1/2, with a sign. -/
def sinpiFin (neg : Bool) (m : Nat) (e : Int) : Nat × Flags :=
  let d := (-e).toNat
  let m1 := if 2 * m > 2 ^ d then 2 ^ d - m else m
  let lead : Nat := d - Nat.log2 m1
  tryPrec (fun p0 =>
    let p := p0 + lead
    roundNear neg (sinFix p (piFix p * fixOf m1 e p / 2 ^ p)) seriesErr p) 5 96

/-- tanh of m·2^e, m > 0. -/
def tanhFin (neg : Bool) (m : Nat) (e : Int) : Nat × Flags :=
  let mag := e + Nat.log2 m
  -- below 2^-13, x − x^3/3 < tanh x < x rounds to x
  if mag < -13 then
    let (c, fl) := roundDy .f32 .rn neg { m := (if neg then -1 else 1) * (m * 2 ^ 40 - 1), e := e - 40 }
    (c, fl ||| Flags.inexact)
  else if mag ≥ 4 then ((Fmt.sign .f32 neg) + 0x3F800000, Flags.inexact)
  else
    tryPrec (fun p =>
      let y := 2 * fixOf m e p
      let n := y / ln2Fix p
      let ey := expFix p (y - n * ln2Fix p) * 2 ^ n.toNat
      roundNear neg ((ey - 2 ^ p) * 2 ^ p / (ey + 2 ^ p)) (seriesErr * 2 ^ 40) p) 5 160

/-- The eight special functions. -/
inductive SFun where
  | rcp | rsq | sqrt | ex2 | lg2 | sinpi | cospi | tanh
  deriving DecidableEq, Repr

/-- √ of m·2^e in sticky form: (2q + s)·2^k. -/
def sqrtFin (m : Nat) (e : Int) : Dy :=
  let odd := e % 2 = 1
  let m1 := (if odd then 2 * m else m) * 2 ^ 64
  let e1 := (if odd then e - 1 else e) - 64
  let q := isqrt m1
  { m := 2 * q + (if q * q = m1 then 0 else 1), e := e1 / 2 - 1 }

/-- 1/√ of m·2^e in sticky form. -/
def rsqFin (m : Nat) (e : Int) : Dy :=
  let odd := e % 2 = 1
  let m1 := if odd then 2 * m else m
  let e1 := if odd then e - 1 else e
  let q := isqrt (2 ^ 128 / m1)
  { m := 2 * q + (if q * q * m1 = 2 ^ 128 then 0 else 1), e := -e1 / 2 - 64 - 1 }

/-- The fraction and the parity of the integer part of m·2^e with e < 0: (fraction mantissa, odd). -/
def fracPart (m : Nat) (e : Int) : Nat × Bool := (m % 2 ^ (-e).toNat, m / 2 ^ (-e).toNat % 2 = 1)

/-- A special function of an FP32 code (R39, R40, R126, R127). -/
def special (k : SFun) (x : Nat) : Nat × Flags :=
  let f := Fmt.f32
  let one := 0x3F800000
  match unpackF f x with
  | .nan sg => (f.nan, Flags.when sg Flags.invalid)
  | .inf neg =>
    match k, neg with
    | .rcp, n => (f.sign n, 0)
    | .rsq, false => (0, 0)
    | .sqrt, false => (f.inf false, 0)
    | .ex2, true => (0, 0)
    | .ex2, false => (f.inf false, 0)
    | .lg2, false => (f.inf false, 0)
    | .tanh, n => (f.sign n + one, 0)
    | _, _ => (f.nan, Flags.invalid)
  | .fin neg 0 _ =>
    match k with
    | .rcp | .rsq => (f.inf neg, Flags.divZero)
    | .lg2 => (f.inf true, Flags.divZero)
    | .ex2 | .cospi => (one, 0)
    | _ => (x, 0)
  | .fin neg m e =>
    match k with
    | .rcp => if e ≥ 0 then roundRat f .rn neg 1 (m * 2 ^ e.toNat) else roundRat f .rn neg (2 ^ (-e).toNat) m
    | .rsq => if neg then (f.nan, Flags.invalid) else roundDy f .rn false (rsqFin m e)
    | .sqrt => if neg then (f.nan, Flags.invalid) else roundDy f .rn false (sqrtFin m e)
    | .ex2 =>
      if e ≥ 0 || m % 2 ^ (-e).toNat = 0 then
        let n : Int := if e ≥ 0 then m * 2 ^ (min e 20).toNat else m / 2 ^ (-e).toNat
        roundDy f .rn false { m := 1, e := max (-2000) (min 2000 (if neg then -n else n)) }
      else ex2Fin neg m e
    | .lg2 =>
      if neg then (f.nan, Flags.invalid)
      else if m = 2 ^ Nat.log2 m then roundDy f .rn false (Dy.ofInt (e + Nat.log2 m))
      else lg2Fin m e
    | .sinpi =>
      if e ≥ 0 then (f.sign neg, 0)
      else
        let (r, odd) := fracPart m e
        if r = 0 then (f.sign neg, 0)
        else if 2 * r = 2 ^ (-e).toNat then (f.sign (neg != odd) + one, 0)
        else sinpiFin (neg != odd) r e
    | .cospi =>
      if e ≥ 0 then (f.sign (e = 0 && m % 2 = 1) + one, 0)
      else
        let (r, odd) := fracPart m e
        let half := 2 ^ ((-e).toNat - 1)
        if r = 0 then (f.sign odd + one, 0)
        else if r = half then (0, 0)
        else if r < half then sinpiFin odd (half - r) e
        else sinpiFin (!odd) (r - half) e
    | .tanh => tanhFin neg m e

end Sys2Proof.Machine
end

