-- ==== Sys2Proof/Machine/Operands.lean ====
section
/-!
DEFINITION. Operands of the warp stream: guards (R63), tagged values (R42, R45), views (R52, R53), constants (R67, R68),
index descriptors (R51), partial writes (R46), line counting (R49), the latch (R55), poison (R430); and the operands of
the helm and engine streams (R75, R76).
-/
namespace Sys2Proof.Machine

open Sys2Proof

/-! ## Tagged values -/

/-- The value of lane l (R42). -/
def laneVal (v : VVal) (l : Nat) : Word :=
  match v with
  | .u x => x
  | .a b d => b + d * BitVec.ofNat 32 l
  | .g xs => xs[l]?.getD 0

/-- A G value from its lanes. -/
def mkG (f : Nat → Word) : VVal := .g (Vector.ofFn fun l => f l.val)

/-- Whether a value is held as U. -/
def isU : VVal → Bool
  | .u _ => true
  | _ => false

/-- Base and stride of a U or A value (R45). -/
def baseOf : VVal → Word
  | .u x => x
  | .a b _ => b
  | .g _ => 0

def strideOf : VVal → Word
  | .a _ d => d
  | _ => 0

/-- The general rule of R45 for one operand: U for U, else G. -/
def lift1 (f : Word → Word) : VVal → VVal
  | .u x => .u (f x)
  | v => mkG fun l => f (laneVal v l)

/-- The general rule for two operands. -/
def lift2 (f : Word → Word → Word) (a b : VVal) : VVal :=
  match a, b with
  | .u x, .u y => .u (f x y)
  | a, b => mkG fun l => f (laneVal a l) (laneVal b l)

/-- The general rule for three operands. -/
def lift3 (f : Word → Word → Word → Word) (a b c : VVal) : VVal :=
  match a, b, c with
  | .u x, .u y, .u z => .u (f x y z)
  | a, b, c => mkG fun l => f (laneVal a l) (laneVal b l) (laneVal c l)

/-- The flags that participating lanes raise: once for a U result (R116), else from each lane. -/
def laneFlags (mask : LaneMask) (uni : Bool) (f : Nat → Flags) : Flags :=
  if uni then f (lowLane mask) else (lanesOf mask).foldl (fun a l => a ||| f l) 0

/-- The general rule with flags, for one, two and three operands. -/
def lift1F (mask : LaneMask) (f : Word → Word × Flags) (a : VVal) : VVal × Flags :=
  (lift1 (fun x => (f x).1) a, laneFlags mask (isU a) fun l => (f (laneVal a l)).2)

def lift2F (mask : LaneMask) (f : Word → Word → Word × Flags) (a b : VVal) : VVal × Flags :=
  (lift2 (fun x y => (f x y).1) a b,
   laneFlags mask (isU a && isU b) fun l => (f (laneVal a l) (laneVal b l)).2)

def lift3F (mask : LaneMask) (f : Word → Word → Word → Word × Flags) (a b c : VVal) : VVal × Flags :=
  (lift3 (fun x y z => (f x y z).1) a b c,
   laneFlags mask (isU a && isU b && isU c) fun l => (f (laneVal a l) (laneVal b l) (laneVal c l)).2)

/-- A predicate from two values: U when both are U (R45). -/
def liftP2 (f : Word → Word → Bool) (a b : VVal) : PVal :=
  match a, b with
  | .u x, .u y => .u (f x y)
  | a, b => .g (maskOf fun l => f (laneVal a l) (laneVal b l))

/-! ## Guards and predicates (R41, R63, R69) -/

/-- Predicate n of a warp; pt reads true (R41). -/
def predReg (wp : Warp) (n : Fin 8) : PReg :=
  match wp.preds[n.val]? with
  | some p => p
  | none => { val := .u true, poison := 0 }

/-- The bit of lane l. -/
def predBit (p : PVal) (l : Nat) : Bool :=
  match p with
  | .u x => x
  | .g m => laneBit m l

/-- The value of a predicate after an inversion (R69). -/
def predInv (p : PVal) (inv : Bool) : PVal :=
  match p with
  | .u x => .u (x != inv)
  | .g m => if inv then .g (~~~m) else .g m

/-- The participating lanes (R63, R83): active lanes whose guard is true. A guard reads its predicate (R430). -/
def partLanes (k : GCtx) (c : Ctl) : Except Raise LaneMask :=
  let act := activeLanes k.wp k.g
  if c.pred = 7 then .ok (if c.inv then 0 else act)
  else
    let p := predReg k.wp c.pred
    if p.poison &&& act != 0 then .error (raise .uncorrectable (some (lowLane (p.poison &&& act))))
    else .ok (act &&& maskOf fun l => predBit p.val l != c.inv)

/-- Read a predicate source in the participating lanes (R69, R430). -/
def readPred (k : GCtx) (mask : LaneMask) (p : PSrc) : Except Raise PVal :=
  let r := predReg k.wp p.n
  if r.poison &&& mask != 0 then .error (raise .uncorrectable (some (lowLane (r.poison &&& mask))))
  else .ok (predInv r.val p.inv)

/-! ## Views (R52) -/

/-- A view of a word; sg sign-extends halves and bytes, fl reads halves as BF16 (R52, R113). -/
def viewWord (v : View) (sg fl : Bool) (w : Word) : Word :=
  let half (h : BitVec 16) : Word := if fl then h ++ (0 : BitVec 16) else if sg then h.signExtend 32 else h.setWidth 32
  let byte (b : BitVec 8) : Word := if sg then b.signExtend 32 else b.setWidth 32
  let hh (h : BitVec 16) : Word := h ++ h
  let bb (b : BitVec 8) : Word := b ++ b ++ b ++ b
  match v with
  | .w => w
  | .h0 => half (w.extractLsb' 0 16) | .h1 => half (w.extractLsb' 16 16)
  | .b0 => byte (w.extractLsb' 0 8) | .b1 => byte (w.extractLsb' 8 8)
  | .b2 => byte (w.extractLsb' 16 8) | .b3 => byte (w.extractLsb' 24 8)
  | .hh0 => hh (w.extractLsb' 0 16) | .hh1 => hh (w.extractLsb' 16 16)
  | .bb0 => bb (w.extractLsb' 0 8) | .bb1 => bb (w.extractLsb' 8 8)
  | .bb2 => bb (w.extractLsb' 16 8) | .bb3 => bb (w.extractLsb' 24 8)
  | .hswap => w.extractLsb' 0 16 ++ w.extractLsb' 16 16
  | .brev8 => w.extractLsb' 0 8 ++ w.extractLsb' 8 8 ++ w.extractLsb' 16 8 ++ w.extractLsb' 24 8

/-- A view of a value: .w keeps the tag; any other view makes an A value G (R52). -/
def viewVal (v : View) (sg fl : Bool) (x : VVal) : VVal :=
  match v with
  | .w => x
  | _ => lift1 (viewWord v sg fl) x

/-! ## Constants (R67, R68) -/

/-- How an instruction reads its sources: the width that an integer constant fills, the packing that a float constant
fills, and whether halves are BF16 codes. -/
inductive SrcKind where
  | int (w : Width)
  | fp (p : Pack)
  | scale (p : Pack)
  deriving DecidableEq, Repr

/-- Bits of a width. -/
def widthBits : Width → Nat
  | .w32 => 32 | .w16 => 16 | .w8 => 8 | .w4 => 4

/-- The pattern of a special value (R68). -/
def specialWord : Special → Word
  | .zero => 0 | .ones => 0xFFFFFFFF | .nan => 0x7FC00000 | .inf => 0x7F800000 | .ninf => 0xFF800000
  | .nzero => 0x80000000 | .imax => 0x7FFFFFFF | .one => 0x3F800000 | .half => 0x3F000000

/-- A w-bit element in every element of a word (R67). -/
def fillWord (w : Nat) (x : Nat) : Word :=
  BitVec.ofNat 32 ((List.range (32 / w)).foldl (fun a j => a + x % 2 ^ w * 2 ^ (w * j)) 0)

/-- An integer constant (R67). -/
def intConst (k : SrcKind) (i : BitVec 14) : Word :=
  let x := i.signExtend 32
  match k with
  | .int .w32 => x
  | .int w => fillWord (widthBits w) x.toNat
  | .scale .fp32 => x
  | .scale _ => fillWord 16 x.toNat
  | .fp _ => x

/-- A float constant: bits 15:2 of a BF16 code, of an FP16 code under .f16x2; it fills both halves of a packed form
(R67). -/
def fltConst (k : SrcKind) (i : BitVec 14) : Word :=
  let h : BitVec 16 := i ++ (0 : BitVec 2)
  match k with
  | .fp .bf16x2 | .fp .f16x2 | .scale .bf16x2 | .scale .f16x2 => h ++ h
  | _ => h ++ (0 : BitVec 16)

/-- Whether halves read as BF16 (R113). -/
def SrcKind.isF : SrcKind → Bool
  | .int _ => false
  | _ => true

/-! ## Index descriptors (R50, R51) -/

/-- The register that lane l reaches through descriptor x. -/
def idxLane (wp : Warp) (x : Fin 8) (l : Nat) : Except Raise (Fin 256) :=
  let d := wp.xd[x]
  if d.poison then .error (raise .uncorrectable (some l))
  else
    let r := wp.regs[d.vidx.toNat]?.getD VReg.zero
    if laneBit r.poison l then .error (raise .uncorrectable (some l))
    else
      let i := (laneVal r.val l).toNat
      if i ≥ d.limit.toNat || d.base.toNat + i > 255 then .error (raise .regIndex (some l))
      else .ok (Fin.ofNat 256 (d.base.toNat + i))

/-- Visit lanes in ascending order, stopping at the first that raises. -/
def forLanes {α : Type} (f : Nat → Except Raise α) : List Nat → Except Raise (List α)
  | [] => .ok []
  | l :: r =>
    match f l with
    | .error e => .error e
    | .ok x =>
      match forLanes f r with
      | .error e => .error e
      | .ok xs => .ok (x :: xs)

/-- The registers that the lanes of a mask reach, with their lanes (R51). -/
def idxLanes (wp : Warp) (x : Fin 8) (mask : LaneMask) : Except Raise (List (Nat × Fin 256)) :=
  forLanes (fun l => (idxLane wp x l).map fun n => (l, n)) (lanesOf mask)

/-! ## Reading sources (R54, R430) -/

/-- Raise UNCORRECTABLE for the lowest poisoned lane of a mask (R430). -/
def checkPoison (r : VReg) (mask : LaneMask) : Except Raise Unit :=
  if r.poison &&& mask != 0 then .error (raise .uncorrectable (some (lowLane (r.poison &&& mask)))) else .ok ()

/-- The register that a direct source names. -/
def srcReg (k : GCtx) : Src → Option VReg
  | .v n _ => some k.wp.regs[n]
  | .o n _ => some k.wp.ofile[n]
  | .latch _ => some k.g.latch
  | _ => none

/-- Read a register in the participating lanes. -/
def readReg (r : VReg) (mask : LaneMask) (v : View) (sg fl : Bool) : Except Raise VVal :=
  match checkPoison r mask with
  | .error e => .error e
  | .ok _ => .ok (viewVal v sg fl r.val)

/-- Read a source in the participating lanes. An indexed source is G whatever the tag of its index (R51). -/
def readSrc (k : GCtx) (mask : LaneMask) (sk : SrcKind) (sg : Bool) (s : Src) : Except Raise VVal :=
  match s with
  | .v n x => readReg k.wp.regs[n] mask x sg sk.isF
  | .o n x => readReg k.wp.ofile[n] mask x sg sk.isF
  | .latch x => readReg k.g.latch mask x sg sk.isF
  | .vx x vw =>
    match idxLanes k.wp x mask with
    | .error e => .error e
    | .ok ls =>
      match forLanes (fun l =>
        match ls.find? (·.1 = l) with
        | none => .ok (l, (0 : Word))
        | some (_, n) =>
          match checkPoison k.wp.regs[n] (maskOf (· = l)) with
          | .error e => .error e
          | .ok _ => .ok (l, laneVal k.wp.regs[n].val l)) (lanesOf mask) with
      | .error e => .error e
      | .ok xs => .ok (viewVal vw sg sk.isF (mkG fun l => ((xs.find? (·.1 = l)).map (·.2)).getD 0))
  | .int i => .ok (.u (intConst sk i))
  | .flt i => .ok (.u (fltConst sk i))
  | .spec p => .ok (.u (specialWord p))

/-- Read a source that must agree across the participating lanes: its value in the lowest, else UNIFORM_VIOLATION for
the first lane that differs from it (R157, R235). -/
def readUni (k : GCtx) (mask : LaneMask) (s : Src) : Except Raise Word :=
  match readSrc k mask (.int .w32) false s with
  | .error e => .error e
  | .ok v =>
    let x := laneVal v (lowLane mask)
    match (lanesOf mask).find? fun l => laneVal v l != x with
    | some l => .error (raise .uniform (some l))
    | none => .ok x

/-- A register of a pair or a run, in the participating lanes. -/
def readV (k : GCtx) (mask : LaneMask) (n : Nat) : Except Raise VVal :=
  readReg (k.wp.regs[n]?.getD VReg.zero) mask .w false false

/-- The 64-bit value that a register pair holds in lane l. -/
def pairLane (lo hi : VVal) (l : Nat) : Word64 := laneVal hi l ++ laneVal lo l

/-- A register pair that must agree across the participating lanes (R235). -/
def readPairUni (k : GCtx) (mask : LaneMask) (p : Fin 128) : Except Raise Word64 :=
  match readV k mask (2 * p.val), readV k mask (2 * p.val + 1) with
  | .error e, _ => .error e
  | _, .error e => .error e
  | .ok lo, .ok hi =>
    let x := pairLane lo hi (lowLane mask)
    match (lanesOf mask).find? fun l => pairLane lo hi l != x with
    | some l => .error (raise .uniform (some l))
    | none => .ok x

/-! ## Writing destinations (R46, R49, R53, R55) -/

/-- Whether a mask covers every lane of the warp (R46). -/
def isFull (wp : Warp) (mask : LaneMask) : Bool := widthMask wp &&& ~~~mask = 0

/-- A register after a write of a value to the lanes of a mask (R46, R430). -/
def mergeReg (full : Bool) (old : VReg) (new : VVal) (mask : LaneMask) : VReg :=
  if full then { val := new, poison := 0 }
  else
    let mixed : VReg :=
      { val := mkG fun l => if laneBit mask l then laneVal new l else laneVal old.val l, poison := old.poison &&& ~~~mask }
    match old.val, new with
    | .u x, .u y => if old.poison = 0 && x = y then old else mixed
    | _, _ => mixed

/-- The word that a subword view writes (R53). -/
def insertView (v : View) (old x : Word) : Word :=
  match v with
  | .h0 => old.extractLsb' 16 16 ++ x.extractLsb' 0 16
  | .h1 => x.extractLsb' 0 16 ++ old.extractLsb' 0 16
  | .b0 => old.extractLsb' 8 24 ++ x.extractLsb' 0 8
  | .b1 => old.extractLsb' 16 16 ++ x.extractLsb' 0 8 ++ old.extractLsb' 0 8
  | .b2 => old.extractLsb' 24 8 ++ x.extractLsb' 0 8 ++ old.extractLsb' 0 16
  | .b3 => x.extractLsb' 0 8 ++ old.extractLsb' 0 24
  | _ => x

/-- One register written through a view: a subword view reads the old word, which counts as one more input (R53). -/
def writeReg (wp : Warp) (old : VReg) (v : View) (new : VVal) (mask : LaneMask) : Except Raise VReg :=
  match v with
  | .w => .ok (mergeReg (isFull wp mask) old new mask)
  | _ =>
    match checkPoison old mask with
    | .error e => .error e
    | .ok _ => .ok (mergeReg (isFull wp mask) old (lift2 (insertView v) old.val new) mask)

/-- A main-file register of a warp replaced. -/
def setReg (wp : Warp) (n : Fin 256) (r : VReg) : Warp := { wp with regs := wp.regs.set n r }

/-- An operand-file slot of a warp replaced. -/
def setO (wp : Warp) (n : Fin 8) (r : VReg) : Warp := { wp with ofile := wp.ofile.set n r }

/-- The writes of an indexed destination: each register reached takes one write with the lanes that chose it (R51). -/
def writeIdx (wp0 : Warp) (v : View) (new : VVal) : List (Nat × Fin 256) → List (Fin 256) → Warp → Except Raise Warp
  | _, [], wp => .ok wp
  | ls, n :: ns, wp =>
    match writeReg wp0 wp0.regs[n] v new (maskOf fun l => ls.contains (l, n)) with
    | .error e => .error e
    | .ok r => writeIdx wp0 v new ls ns (setReg wp n r)

/-- What the latch takes of a level: its value, none of its poison (R55, R430). -/
def VReg.clean (r : VReg) : VReg := { r with poison := 0 }

/-- The registers that an indexed destination reaches at issue (R51). -/
def dstIdx (k : GCtx) (d : Dst) (m : LaneMask) : Except Raise (List (Nat × Fin 256)) :=
  match d with
  | .vx x _ => idxLanes k.wp x m
  | _ => .ok []

/-- Whether a destination is written through a subword view (R53). -/
def dstSubword : Dst → Bool
  | .v _ v | .vo _ _ v | .vx _ v => v != .w
  | .o _ | .latch => false

/-- What the latch takes of a write to its first level: the result in the lanes written, which through a subword view is not
the merged word, and what the level then holds in the others (R11, R55, R430). -/
def latchOf (wp : Warp) (level : VReg) (v : View) (new : VVal) (mask : LaneMask) : VReg :=
  match v with
  | .w => level.clean
  | _ => mergeReg (isFull wp mask) level.clean new mask

/-- What a destination vN+oM writes to its slot: the value that the register takes, into which a subword view has merged
the register's old bits (R53, R54; log 97, DEDUCED). -/
def slotValue (old : VReg) (v : View) (new : VVal) : VVal :=
  match v with
  | .w => new
  | _ => lift2 (insertView v) old.val new

/-- The registers and slots after a write to a destination, whose index, if it has one, reaches the registers idx, with what
the latch takes (R11, R54, R55): the other lanes keep the latch's value where the destination is the latch alone, and where it
is indexed (log 7, DEDUCED). -/
def writeLevelsAt (k : GCtx) (d : Dst) (idx : List (Nat × Fin 256)) (new : VVal) (mask : LaneMask) :
    Except Raise (Warp × VReg) :=
  let wp := k.wp
  let merged := mergeReg (isFull wp mask) k.g.latch new mask
  match d with
  | .v n v => (writeReg wp wp.regs[n] v new mask).map fun r => (setReg wp n r, latchOf wp r v new mask)
  | .o n => (writeReg wp wp.ofile[n] .w new mask).map fun r => (setO wp n r, r.clean)
  | .vo n o v =>
    (writeReg wp wp.regs[n] v new mask).map fun r =>
      (setO (setReg wp n r) o (mergeReg (isFull wp mask) wp.ofile[o] (slotValue wp.regs[n] v new) mask),
       latchOf wp r v new mask)
  | .latch => .ok (wp, merged)
  | .vx _ v => (writeIdx wp v new idx (idx.map (·.2)).eraseDups wp).map fun w => (w, merged)

/-- The same for a destination that is written as it stands. -/
def writeLevels (k : GCtx) (d : Dst) (new : VVal) (mask : LaneMask) : Except Raise (Warp × VReg) :=
  match dstIdx k d mask with
  | .error e => .error e
  | .ok idx => writeLevelsAt k d idx new mask

/-- REGPOOL_EXHAUSTED where a warp would hold more than gmax lines (R49; log 25, DEDUCED). -/
def checkLines (wp : Warp) (mask : LaneMask) : Except Raise Unit :=
  if linesHeld wp > wp.gmax then .error (raise .regpool (some (lowLane mask))) else .ok ()

/-- A warp and the gang's latch after a result is written (R11 Write). -/
def writeDst (k : GCtx) (d : Dst) (new : VVal) (mask : LaneMask) : Except Raise (Warp × VReg) :=
  match writeLevels k d new mask with
  | .error e => .error e
  | .ok (wp, l) =>
    match checkLines wp mask with
    | .error e => .error e
    | .ok _ => .ok (wp, l)

/-- A warp and the latch after values are written to consecutive registers from n on (R129): the latch takes the first, without
its poison (R430). -/
def writeRun (k : GCtx) (n : Nat) (vals : List VVal) (mask : LaneMask) : Warp × VReg :=
  let full := isFull k.wp mask
  let step (acc : Warp × Nat) (v : VVal) : Warp × Nat :=
    let m := Fin.ofNat 256 acc.2
    (setReg acc.1 m (mergeReg full acc.1.regs[m] v mask), acc.2 + 1)
  let wp := (vals.foldl step (k.wp, n)).1
  (wp, (wp.regs[Fin.ofNat 256 n]).clean)

/-- The gang's latch, written registers and next PC. -/
def commit (s : State) (k : GCtx) (wp : Warp) (l : VReg) : State :=
  modWarp s k.b k.w fun _ => modGangs wp k.g.gid fun g => { g with latch := l, lat := [], pc := g.pc + 1 }

/-- Values of one or more words written to a data field: one word to any destination, more to a run (R129). -/
def putWords (s : State) (k : GCtx) (d : Dst) (vals : List VVal) (mask : LaneMask) : Except Raise State :=
  match vals, d with
  | [v], d => (writeDst k d v mask).map fun r => commit s k r.1 r.2
  | vs, .v n _ => let (wp, l) := writeRun k n.val vs mask; (checkLines wp mask).map fun _ => commit s k wp l
  | vs, d => (writeDst k d (vs.headD (.u 0)) mask).map fun r => commit s k r.1 r.2

/-- A result written, the latch with it, and the gang at its next PC. -/
def putResult (s : State) (k : GCtx) (d : Dst) (new : VVal) (mask : LaneMask) : Except Raise State :=
  match writeDst k d new mask with
  | .error e => .error e
  | .ok (wp, l) => .ok (commit s k wp l)

/-- A predicate after a write to the lanes of a mask (R46, R430). -/
def mergePred (full : Bool) (old : PReg) (new : PVal) (mask : LaneMask) : PReg :=
  if full then { val := new, poison := 0 }
  else
    let mixed : PReg :=
      { val := .g (maskOf fun l => if laneBit mask l then predBit new l else predBit old.val l)
        poison := old.poison &&& ~~~mask }
    match old.val, new with
    | .u x, .u y => if old.poison = 0 && x = y then old else mixed
    | _, _ => mixed

/-- A predicate of a warp replaced; a write to pt is discarded (R41). -/
def setPred (wp : Warp) (n : Fin 8) (r : PReg) : Warp :=
  if h : n.val < 7 then { wp with preds := wp.preds.set n.val r h } else wp

/-- A predicate written in the participating lanes, and the gang at its next PC. -/
def putPred (s : State) (k : GCtx) (p : Fin 8) (new : PVal) (mask : LaneMask) : State :=
  advance (modWarp s k.b k.w fun wp =>
    setPred wp p (mergePred (isFull wp mask) (predReg wp p) new mask)) k

/-- Run a warp-stream meaning in its participating lanes; where no lane participates the gang only goes on (R63, R83;
log 24, DEDUCED). -/
def onLanes (s : State) (c : Ctl) (f : GCtx → LaneMask → Except Raise State) : Out1 :=
  onGang s fun k =>
    match partLanes k c with
    | .error e => .error e
    | .ok m => if m = 0 then .ok (advance s k) else f k m

/-- What the latch takes of the first level of a destination that is not written; the latch itself for a latch or an indexed
destination (R55, R430). -/
def levelNow (k : GCtx) : Dst → VReg
  | .v n _ | .vo n _ _ => k.wp.regs[n].clean
  | .o n => k.wp.ofile[n].clean
  | .latch | .vx _ _ => k.g.latch

/-- Run a meaning that produces a result for the latch: where no lane participates, under a guard other than (!pt),
every latch lane takes what the destination holds (R55, R63, R179; log 8, DEDUCED). -/
def onResult (s : State) (c : Ctl) (d : Dst) (f : GCtx → LaneMask → Except Raise State) : Out1 :=
  onGang s fun k =>
    match partLanes k c with
    | .error e => .error e
    | .ok m =>
      if m = 0 then
        if c.pred = 7 && c.inv then .ok (advance s k) else .ok (commit s k k.wp (levelNow k d))
      else f k m

/-- The same for a meaning that may have no destination. -/
def onDst (s : State) (c : Ctl) (d : Option Dst) (f : GCtx → LaneMask → Except Raise State) : Out1 :=
  match d with
  | some x => onResult s c x f
  | none => onLanes s c f

/-- A result written with the flags it raises (R24, R86). -/
def putResultF (s : State) (k : GCtx) (d : Dst) (r : VVal × Flags) (mask : LaneMask) : Except Raise State :=
  (putResult s k d r.1 mask).map fun t => raiseFlags t k.b r.2

/-! ## Elements (R84) -/

/-- Element j of a word at width w, signed or unsigned. -/
def elem (w : Nat) (sg : Bool) (x : Word) (j : Nat) : Int :=
  let n := x.toNat / 2 ^ (w * j) % 2 ^ w
  if sg && n ≥ 2 ^ (w - 1) then (n : Int) - 2 ^ w else n

/-- A word from its elements, each taken modulo 2^w. -/
def ofElems (w : Nat) (f : Nat → Int) : Word :=
  BitVec.ofNat 32 ((List.range (32 / w)).foldl (fun a j => a + (f j % 2 ^ w).toNat * 2 ^ (w * j)) 0)

/-- One operation on each element. -/
def elems1 (w : Width) (sg : Bool) (f : Int → Int) (x : Word) : Word :=
  ofElems (widthBits w) fun j => f (elem (widthBits w) sg x j)

def elems2 (w : Width) (sg : Bool) (f : Int → Int → Int) (x y : Word) : Word :=
  ofElems (widthBits w) fun j => f (elem (widthBits w) sg x j) (elem (widthBits w) sg y j)

def elems3 (w : Width) (sg : Bool) (f : Int → Int → Int → Int) (x y z : Word) : Word :=
  ofElems (widthBits w) fun j =>
    f (elem (widthBits w) sg x j) (elem (widthBits w) sg y j) (elem (widthBits w) sg z j)

/-- The least and the greatest value of w bits. -/
def loOf (w : Nat) (u : Bool) : Int := if u then 0 else -(2 ^ (w - 1))
def hiOf (w : Nat) (u : Bool) : Int := if u then 2 ^ w - 1 else 2 ^ (w - 1) - 1

/-- Clamp to the range of w bits under .sat (R19). -/
def satTo (w : Nat) (sat u : Bool) (x : Int) : Int := if sat then max (loOf w u) (min (hiOf w u) x) else x

/-! ## The helm (R64, R75, R224) -/

/-- Whether a helm instruction's guard is true (R64). -/
def helmGuard (k : HCtx) (c : Ctl) : Bool := if c.pred = 7 then !c.inv else k.blk.helm.q[c.pred] != c.inv

/-- An s register; a poisoned one raises UNCORRECTABLE (R224). -/
def readS (k : HCtx) (n : Fin 64) : Except Raise Word64 :=
  if k.blk.helm.poison[n] then .error (raise .uncorrectable none) else .ok k.blk.helm.s[n]

/-- A helm source at level 0 or 3, as 64 bits; a q register reads as 1 or 0 (R226). -/
def readH (k : HCtx) : HSrc → Except Raise Word64
  | .s n => readS k n
  | .q n => .ok (if k.blk.helm.q[n] then 1 else 0)
  | .imm i => .ok (i.signExtend 64)

/-- An s register written; any write clears its poison (R224). -/
def setS (h : Helm) (n : Fin 64) (x : Word64) : Helm := { h with s := h.s.set n x, poison := h.poison.set n false }

/-- A q register written. -/
def setQ (h : Helm) (n : Fin 8) (x : Bool) : Helm := { h with q := h.q.set n x }

/-- The helm writes an s register and goes on at its next PC. -/
def putS (s : State) (k : HCtx) (n : Fin 64) (x : Word64) : State :=
  modHelm s k.b fun h => { setS h n x with pc := h.pc + 1 }

/-- The helm writes a q register and goes on at its next PC. -/
def putQ (s : State) (k : HCtx) (n : Fin 8) (x : Bool) : State :=
  modHelm s k.b fun h => { setQ h n x with pc := h.pc + 1 }

/-! ## Engine streams (R76) -/

/-- The value of a parameter or a count. -/
def pcVal (st : Stream) : PC → Word64
  | .p n => st.params[n]
  | .c n => n.setWidth 64

end Sys2Proof.Machine
end

