-- ==== Sys2Proof/Machine/Fp.lean ====
section
/-!
DEFINITION. Class 001: floating-point and special functions (R111 to R127).
-/
namespace Sys2Proof.Machine

open Sys2Proof

/-- Code element j of a packed word (R114). -/
def halfAt (x : Word) (j : Nat) : Nat := x.toNat / 65536 ^ j % 65536

/-- The element format of a packing. -/
def packFmt : Pack → Fmt
  | .fp32 => .f32
  | .bf16x2 => .bf16
  | .f16x2 => .f16

/-- A result formed for each element of a packing, with the union of the flags (R114). -/
def packed (pk : Pack) (f : Fmt → Nat → Nat × Flags) : Word × Flags :=
  match pk with
  | .fp32 => let (r, fl) := f .f32 0; (BitVec.ofNat 32 r, fl)
  | pk =>
    let (r0, f0) := f (packFmt pk) 0
    let (r1, f1) := f (packFmt pk) 1
    (BitVec.ofNat 32 (r1 * 65536 + r0), f0 ||| f1)

/-- The code of element j under a packing. -/
def codeOf (pk : Pack) (x : Word) (j : Nat) : Nat :=
  match pk with
  | .fp32 => x.toNat
  | _ => halfAt x j

/-- An instruction of one source (R116). -/
def fop1 (s : State) (c : Ctl) (d : Dst) (a : Src) (pk : Pack) (f : Word → Word × Flags) : Out1 :=
  onResult s c d fun k m => do
    let x ← readSrc k m (.fp pk) false a
    putResultF s k d (lift1F m f x) m

/-- An instruction of two sources; kb is how source B is read (R113, R123). -/
def fop2 (s : State) (c : Ctl) (d : Dst) (a b : Src) (pk : Pack) (kb : SrcKind) (f : Word → Word → Word × Flags) : Out1 :=
  onResult s c d fun k m => do
    let x ← readSrc k m (.fp pk) false a
    let y ← readSrc k m kb false b
    putResultF s k d (lift2F m f x y) m

/-- An instruction of three sources; pc is the packing source C is read with (R124). -/
def fop3 (s : State) (c : Ctl) (d : Dst) (a b e : Src) (pk pc : Pack) (f : Word → Word → Word → Word × Flags) : Out1 :=
  onResult s c d fun k m => do
    let x ← readSrc k m (.fp pk) false a
    let y ← readSrc k m (.fp pk) false b
    let z ← readSrc k m (.fp pc) false e
    putResultF s k d (lift3F m f x y z) m

/-! ## R118 -/

/-- x + y of codes. -/
def faddCode (f : Fmt) (rm : RMode) (x y : Nat) : Nat × Flags :=
  sumProd f rm [(FVal.one, unpackF f x), (FVal.one, unpackF f y)]

/-- x − y of codes. -/
def fsubCode (f : Fmt) (rm : RMode) (x y : Nat) : Nat × Flags :=
  sumProd f rm [(FVal.one, unpackF f x), (FVal.one, (unpackF f y).neg)]

/-- x·y of codes. -/
def fmulCode (f : Fmt) (rm : RMode) (x y : Nat) : Nat × Flags := sumProd f rm [(unpackF f x, unpackF f y)]

/-- x·y + z of codes, rounded once. -/
def ffmaCode (f : Fmt) (rm : RMode) (x y z : Nat) : Nat × Flags :=
  sumProd f rm [(unpackF f x, unpackF f y), (FVal.one, unpackF f z)]

/-- A code operation on words of a packing. -/
def packed1 (pk : Pack) (g : Fmt → Nat → Nat × Flags) (x : Word) : Word × Flags := packed pk fun f j => g f (codeOf pk x j)

def packed2 (pk : Pack) (g : Fmt → Nat → Nat → Nat × Flags) (x y : Word) : Word × Flags :=
  packed pk fun f j => g f (codeOf pk x j) (codeOf pk y j)

def packed3 (pk : Pack) (g : Fmt → Nat → Nat → Nat → Nat × Flags) (x y z : Word) : Word × Flags :=
  packed pk fun f j => g f (codeOf pk x j) (codeOf pk y j) (codeOf pk z j)

def execFadd (c : Ctl) (d : Dst) (a b : Src) (rm : RMode) (pk : Pack) (s : State) : Out1 :=
  fop2 s c d a b pk (.fp pk) (packed2 pk fun f => faddCode f rm)

def execFsub (c : Ctl) (d : Dst) (a b : Src) (rm : RMode) (pk : Pack) (s : State) : Out1 :=
  fop2 s c d a b pk (.fp pk) (packed2 pk fun f => fsubCode f rm)

def execFmul (c : Ctl) (d : Dst) (a b : Src) (rm : RMode) (pk : Pack) (s : State) : Out1 :=
  fop2 s c d a b pk (.fp pk) (packed2 pk fun f => fmulCode f rm)

def execFfma (c : Ctl) (d : Dst) (a b e : Src) (rm : RMode) (pk : Pack) (s : State) : Out1 :=
  fop3 s c d a b e pk pk (packed3 pk fun f => ffmaCode f rm)

/-! ## R119 to R124 -/

def execFmin (c : Ctl) (d : Dst) (a b : Src) (pk : Pack) (s : State) : Out1 :=
  fop2 s c d a b pk (.fp pk) (packed2 pk fun f => minMaxF f false)

def execFmax (c : Ctl) (d : Dst) (a b : Src) (pk : Pack) (s : State) : Out1 :=
  fop2 s c d a b pk (.fp pk) (packed2 pk fun f => minMaxF f true)

def execFsetp (c : Ctl) (p : Fin 8) (a b : Src) (cmp : FCmp) (s : State) : Out1 :=
  onLanes s c fun k m => do
    let x ← readSrc k m (.fp .fp32) false a
    let y ← readSrc k m (.fp .fp32) false b
    let fl := laneFlags m (isU x && isU y) fun l => (cmpF cmp (laneVal x l).toNat (laneVal y l).toNat).2
    pure (raiseFlags (putPred s k p (liftP2 (fun v w => (cmpF cmp v.toNat w.toNat).1) x y) m) k.b fl)

def execFrnd (c : Ctl) (d : Dst) (a : Src) (rm : RMode) (pk : Pack) (s : State) : Out1 :=
  fop1 s c d a pk (packed1 pk fun f => rndF f rm)

def execFclass (c : Ctl) (d : Dst) (a : Src) (s : State) : Out1 :=
  fop1 s c d a .fp32 fun x => (BitVec.ofNat 32 (classF x.toNat), 0)

/-- The scale of element j: the signed word, or the signed half of a packed form (R123). -/
def scaleOfElem (pk : Pack) (y : Word) (j : Nat) : Int :=
  match pk with
  | .fp32 => y.toInt
  | _ => sextN 16 (halfAt y j)

def execFscale (c : Ctl) (d : Dst) (a b : Src) (rm : RMode) (pk : Pack) (s : State) : Out1 :=
  fop2 s c d a b pk (.scale pk) fun x y => packed pk fun f j => scaleF f rm (codeOf pk x j) (scaleOfElem pk y j)

/-- FDOT2: two products of element codes and an FP32 addend, rounded once to FP32 (R124). -/
def dot2 (rm : RMode) (pk : Pack) (x y z : Word) : Word × Flags :=
  let f := packFmt pk
  let u (v : Word) (j : Nat) : FVal := unpackF f (halfAt v j)
  let (r, fl) := sumProd .f32 rm
    [(u x 0, u y 0), (u x 1, u y 1), (FVal.one, unpackF .f32 z.toNat)]
  (BitVec.ofNat 32 r, fl)

def execFdot2 (c : Ctl) (d : Dst) (a b e : Src) (rm : RMode) (pk : Pack) (s : State) : Out1 :=
  fop3 s c d a b e pk .fp32 (dot2 rm pk)

/-! ## Special functions (R125) -/

/-- A special function of a source (R125). -/
def sfun (s : State) (c : Ctl) (d : Dst) (a : Src) (k : SFun) : Out1 :=
  fop1 s c d a .fp32 fun x => let (r, fl) := special k x.toNat; (BitVec.ofNat 32 r, fl)

def execRcp (c : Ctl) (d : Dst) (a : Src) (s : State) : Out1 := sfun s c d a .rcp
def execRsq (c : Ctl) (d : Dst) (a : Src) (s : State) : Out1 := sfun s c d a .rsq
def execSqrt (c : Ctl) (d : Dst) (a : Src) (s : State) : Out1 := sfun s c d a .sqrt
def execEx2 (c : Ctl) (d : Dst) (a : Src) (s : State) : Out1 := sfun s c d a .ex2
def execLg2 (c : Ctl) (d : Dst) (a : Src) (s : State) : Out1 := sfun s c d a .lg2
def execSinpi (c : Ctl) (d : Dst) (a : Src) (s : State) : Out1 := sfun s c d a .sinpi
def execCospi (c : Ctl) (d : Dst) (a : Src) (s : State) : Out1 := sfun s c d a .cospi
def execTanh (c : Ctl) (d : Dst) (a : Src) (s : State) : Out1 := sfun s c d a .tanh

end Sys2Proof.Machine
end

