-- ==== Sys2Proof/Machine/Int.lean ====
section
/-!
DEFINITION. Class 000: integer, logic, data and cross-lane instructions (R83 to R110).
-/
namespace Sys2Proof.Machine

open Sys2Proof

/-! ## Instructions of one, two and three sources -/

/-- An instruction of one source (R83, R84). -/
def op1 (s : State) (c : Ctl) (d : Dst) (a : Src) (w : Width) (sg : Bool) (f : VVal → VVal) : Out1 :=
  onResult s c d fun k m => do
    let x ← readSrc k m (.int w) sg a
    putResult s k d (f x) m

/-- An instruction of two sources; sga and sgb say whether each is signed (R52). -/
def op2 (s : State) (c : Ctl) (d : Dst) (a b : Src) (w : Width) (sga sgb : Bool) (f : VVal → VVal → VVal) : Out1 :=
  onResult s c d fun k m => do
    let x ← readSrc k m (.int w) sga a
    let y ← readSrc k m (.int w) sgb b
    putResult s k d (f x y) m

/-- An instruction of three sources. -/
def op3 (s : State) (c : Ctl) (d : Dst) (a b e : Src) (w : Width) (sg : Bool) (f : VVal → VVal → VVal → VVal) : Out1 :=
  onResult s c d fun k m => do
    let x ← readSrc k m (.int w) sg a
    let y ← readSrc k m (.int w) sg b
    let z ← readSrc k m (.int w) sg e
    putResult s k d (f x y z) m

/-! ## Shape rules (R45) -/

/-- Whether the affine rules apply: width 32 without .sat (R88). -/
def affine (w : Width) (sat : Bool) : Bool := w = .w32 && !sat

/-- The result of an addition or subtraction: A from U and A inputs, else the general rule (R45, R88). -/
def addShape (aff : Bool) (f : Word → Word → Word) (g : Word → Word → Word) (x y : VVal) : VVal :=
  match aff, x, y with
  | true, .a b d, .u n => .a (f b n) (f d 0)
  | true, .u n, .a b d => .a (f n b) (f 0 d)
  | true, .a b d, .a b' d' => .a (f b b') (f d d')
  | _, x, y => lift2 g x y

/-- The result of a product: A from one A and one U input (R45, R88). -/
def mulShape (aff : Bool) (g : Word → Word → Word) (x y : VVal) : VVal :=
  match aff, x, y with
  | true, .a b d, .u n => .a (b * n) (d * n)
  | true, .u n, .a b d => .a (n * b) (n * d)
  | _, x, y => lift2 g x y

/-- Whether a value is U or A. -/
def isUA (v : VVal) : Bool := !isG v

/-! ## R88 -/

/-- Wrap or clamp an exact result (R19, R84). -/
def wrapOrClamp (w : Width) (sat u : Bool) (x : Int) : Int := satTo (widthBits w) sat u x

/-- IADD on words. -/
def addWord (w : Width) (sat u : Bool) : Word → Word → Word := elems2 w (!u) fun x y => wrapOrClamp w sat u (x + y)
/-- ISUB on words. -/
def subWord (w : Width) (sat u : Bool) : Word → Word → Word := elems2 w (!u) fun x y => wrapOrClamp w sat u (x - y)
/-- IMUL on words. -/
def mulWord (w : Width) (sat u : Bool) : Word → Word → Word := elems2 w (!u) fun x y => wrapOrClamp w sat u (x * y)
/-- IMULHI on words. -/
def mulhiWord (w : Width) (u : Bool) : Word → Word → Word := elems2 w (!u) fun x y => x * y / 2 ^ widthBits w
/-- IMAD on words: one wrap or clamp. -/
def madWord (w : Width) (sat u : Bool) : Word → Word → Word → Word := elems3 w (!u) fun x y z => wrapOrClamp w sat u (x * y + z)

def execIadd (c : Ctl) (d : Dst) (a b : Src) (w : Width) (sat u : Bool) (s : State) : Out1 :=
  op2 s c d a b w (!u) (!u) (addShape (affine w sat) (· + ·) (addWord w sat u))

def execIsub (c : Ctl) (d : Dst) (a b : Src) (w : Width) (sat u : Bool) (s : State) : Out1 :=
  op2 s c d a b w (!u) (!u) (addShape (affine w sat) (· - ·) (subWord w sat u))

def execImul (c : Ctl) (d : Dst) (a b : Src) (w : Width) (sat u : Bool) (s : State) : Out1 :=
  op2 s c d a b w (!u) (!u) (mulShape (affine w sat) (mulWord w sat u))

def execImulhi (c : Ctl) (d : Dst) (a b : Src) (w : Width) (u : Bool) (s : State) : Out1 :=
  op2 s c d a b w (!u) (!u) (lift2 (mulhiWord w u))

/-- The result of IMAD: A when a·b is A or U under the rule of IMUL and c is U or A (R88). -/
def madShape (w : Width) (sat u : Bool) (x y z : VVal) : VVal :=
  if affine w sat && isUA z && ((isU x && isUA y) || (isUA x && isU y)) then
    addShape true (· + ·) (addWord w sat u) (mulShape true (mulWord w sat u) x y) z
  else lift3 (madWord w sat u) x y z

def execImad (c : Ctl) (d : Dst) (a b e : Src) (w : Width) (sat u : Bool) (s : State) : Out1 :=
  op3 s c d a b e w (!u) (madShape w sat u)

/-! ## R89, R90 -/

def execImin (c : Ctl) (d : Dst) (a b : Src) (w : Width) (u : Bool) (s : State) : Out1 :=
  op2 s c d a b w (!u) (!u) (lift2 (elems2 w (!u) min))

def execImax (c : Ctl) (d : Dst) (a b : Src) (w : Width) (u : Bool) (s : State) : Out1 :=
  op2 s c d a b w (!u) (!u) (lift2 (elems2 w (!u) max))

def execIabs (c : Ctl) (d : Dst) (a : Src) (w : Width) (sat : Bool) (s : State) : Out1 :=
  op1 s c d a w true (lift1 (elems1 w true fun x => wrapOrClamp w sat false x.natAbs))

/-- A comparison of ISETP (R90). -/
def icmp (cmp : ICmp) (u : Bool) (x y : Word) : Bool :=
  let a : Int := if u then x.toNat else x.toInt
  let b : Int := if u then y.toNat else y.toInt
  match cmp with
  | .eq => a = b | .ne => a != b | .lt => a < b | .le => a ≤ b | .gt => a > b | .ge => a ≥ b

def execIsetp (c : Ctl) (p : Fin 8) (a b : Src) (cmp : ICmp) (u : Bool) (s : State) : Out1 :=
  onLanes s c fun k m => do
    let x ← readSrc k m (.int .w32) (!u) a
    let y ← readSrc k m (.int .w32) (!u) b
    pure (putPred s k p (liftP2 (icmp cmp u) x y) m)

/-! ## Shifts (R91) -/

/-- A shift of every element by the element of b, read unsigned and never taken modulo w (R91). -/
def shiftWord (w : Width) (sg : Bool) (f : Int → Nat → Int) (x y : Word) : Word :=
  ofElems (widthBits w) fun j => f (elem (widthBits w) sg x j) (elem (widthBits w) false y j).toNat

/-- An amount of w or more shifts every bit out. -/
def shlWord (w : Width) : Word → Word → Word :=
  shiftWord w false fun x n => if n < widthBits w then x * 2 ^ n else 0
def shrWord (w : Width) : Word → Word → Word :=
  shiftWord w false fun x n => if n < widthBits w then x / 2 ^ n else 0
def sarWord (w : Width) : Word → Word → Word :=
  shiftWord w true fun x n => if n < widthBits w then x / 2 ^ n else if x < 0 then -1 else 0

/-- SHL of an A value by a U amount at width 32 shifts base and stride (R91). -/
def shlShape (w : Width) (x y : VVal) : VVal :=
  match w, x, y with
  | .w32, .a b d, .u n => .a (shlWord .w32 b n) (shlWord .w32 d n)
  | w, x, y => lift2 (shlWord w) x y

def execShl (c : Ctl) (d : Dst) (a b : Src) (w : Width) (s : State) : Out1 :=
  op2 s c d a b w false false (shlShape w)

def execShr (c : Ctl) (d : Dst) (a b : Src) (w : Width) (s : State) : Out1 :=
  op2 s c d a b w false false (lift2 (shrWord w))

def execSar (c : Ctl) (d : Dst) (a b : Src) (w : Width) (s : State) : Out1 :=
  op2 s c d a b w true false (lift2 (sarWord w))

/-! ## Logic and bits (R92 to R97) -/

def execAnd (c : Ctl) (d : Dst) (a b : Src) (s : State) : Out1 :=
  op2 s c d a b .w32 false false (lift2 (· &&& ·))

def execOr (c : Ctl) (d : Dst) (a b : Src) (s : State) : Out1 :=
  op2 s c d a b .w32 false false (lift2 (· ||| ·))

def execXor (c : Ctl) (d : Dst) (a b : Src) (s : State) : Out1 :=
  op2 s c d a b .w32 false false (lift2 (· ^^^ ·))

def execAndn (c : Ctl) (d : Dst) (a b : Src) (s : State) : Out1 :=
  op2 s c d a b .w32 false false (lift2 fun x y => x &&& ~~~y)

/-- A register source as a source with view .w. -/
def RegSrc.src : RegSrc → Src
  | .v n => .v n .w
  | .o n => .o n .w
  | .latch => .latch .w

/-- One where bit j of a table is set, in every lane bit. -/
def spread (b : Bool) : Word := if b then BitVec.allOnes 32 else 0

/-- The table lookup of LOP3: bit n of tt for n = a + 2b + 4c, at every bit (R92). -/
def lop3 (tt : BitVec 8) (x y z : Word) : Word :=
  (List.range 8).foldl (fun r n =>
    r ||| (spread (tt.getLsbD n) &&& (if n % 2 = 1 then x else ~~~x) &&& (if n / 2 % 2 = 1 then y else ~~~y) &&&
      (if n / 4 = 1 then z else ~~~z))) 0

def execLop3 (c : Ctl) (d : Dst) (a b : Src) (e : RegSrc) (tt : BitVec 8) (s : State) : Out1 :=
  op3 s c d a b (RegSrc.src e) .w32 false (lift3 (lop3 tt))

/-- Bits set among the low w of n. -/
def popBits (w n : Nat) : Nat := ((List.range w).filter n.testBit).length

/-- Zero bits above the highest one bit of w (R94). -/
def clzBits (w n : Nat) : Nat := if n = 0 then w else w - 1 - Nat.log2 n

/-- The low w bits in reverse order (R94). -/
def revBits (w n : Nat) : Nat := (List.range w).foldl (fun a i => if n.testBit i then a + 2 ^ (w - 1 - i) else a) 0

/-- A bit function of every element. -/
def bitWord (w : Width) (f : Nat → Nat → Nat) : Word → Word := elems1 w false fun x => f (widthBits w) x.toNat

def execPopc (c : Ctl) (d : Dst) (a : Src) (w : Width) (s : State) : Out1 := op1 s c d a w false (lift1 (bitWord w popBits))

def execClz (c : Ctl) (d : Dst) (a : Src) (w : Width) (s : State) : Out1 := op1 s c d a w false (lift1 (bitWord w clzBits))

def execBrev (c : Ctl) (d : Dst) (a : Src) (w : Width) (s : State) : Out1 := op1 s c d a w false (lift1 (bitWord w revBits))

/-- Position and length that a control word names (R95). -/
def fieldOf (ctl : Word) : Nat × Nat :=
  let p := min (ctl.toNat % 256) 32
  (p, min (ctl.toNat / 256 % 64) (32 - p))

/-- BFX (R95). -/
def bfxWord (u : Bool) (x ctl : Word) : Word :=
  let (p, n) := fieldOf ctl
  if n = 0 then 0
  else
    let v := x.toNat / 2 ^ p % 2 ^ n
    if u then BitVec.ofNat 32 v else BitVec.ofInt 32 (sextN n v)

/-- BFI (R95). -/
def bfiWord (x y ctl : Word) : Word :=
  let (p, n) := fieldOf ctl
  let hole := (2 ^ n - 1) * 2 ^ p
  (y &&& ~~~BitVec.ofNat 32 hole) ||| BitVec.ofNat 32 (x.toNat % 2 ^ n * 2 ^ p)

def execBfx (c : Ctl) (d : Dst) (a b : Src) (u : Bool) (s : State) : Out1 :=
  op2 s c d a b .w32 false false (lift2 (bfxWord u))

def execBfi (c : Ctl) (d : Dst) (a b e : Src) (s : State) : Out1 := op3 s c d a b e .w32 false (lift3 bfiWord)

/-- SEL: U when a, b and the predicate are all U (R96). -/
def selVal (p : PVal) (x y : VVal) : VVal :=
  match p, x, y with
  | .u t, .u a, .u b => .u (if t then a else b)
  | p, x, y => mkG fun l => if predBit p l then laneVal x l else laneVal y l

def execSel (c : Ctl) (d : Dst) (a b : Src) (p : PSrc) (s : State) : Out1 :=
  onResult s c d fun k m => do
    let x ← readSrc k m (.int .w32) false a
    let y ← readSrc k m (.int .w32) false b
    let q ← readPred k m p
    putResult s k d (selVal q x y) m

/-- Byte i of a word. -/
def byteAt (x : Word) (i : Nat) : Nat := x.toNat / 256 ^ i % 256

/-- Bytes of PRMT from byte 0 on; last is the byte before (R97). -/
def prmtGo (x y sel : Word) : Nat → Nat → Nat → Nat
  | 0, _, _ => 0
  | n + 1, i, last =>
    let f := sel.toNat / 16 ^ i % 16
    let b :=
      if f < 4 then byteAt x f
      else if f < 8 then byteAt y (f - 4)
      else if f = 9 then 255
      else if f = 10 then (if last ≥ 128 then 255 else 0)
      else if f = 11 then last
      else 0
    b * 256 ^ i + prmtGo x y sel n (i + 1) b

/-- PRMT (R97). -/
def prmt (x y sel : Word) : Word := BitVec.ofNat 32 (prmtGo x y sel 4 0 0)

def execPrmt (c : Ctl) (d : Dst) (a b e : Src) (s : State) : Out1 := op3 s c d a b e .w32 false (lift3 prmt)

/-! ## R98 to R101 -/

/-- IDOT4 (R98). -/
def dot4 (sat u : Bool) (x y z : Word) : Word :=
  let term (i : Nat) : Int := elem 8 (!u) x i * elem 8 (!u) y i
  BitVec.ofInt 32 (satTo 32 sat u (elem 32 (!u) z 0 + term 0 + term 1 + term 2 + term 3))

def execIdot4 (c : Ctl) (d : Dst) (a b e : Src) (sat u : Bool) (s : State) : Out1 :=
  op3 s c d a b e .w32 (!u) (lift3 (dot4 sat u))

def execMov (c : Ctl) (d : Dst) (a : Src) (s : State) : Out1 := op1 s c d a .w32 false id

def execMovi (c : Ctl) (d : Dst) (imm : Word) (s : State) : Out1 :=
  onResult s c d fun k m => putResult s k d (.u imm) m

def execCvt (c : Ctl) (d : Dst) (a : Src) (dt st : CvtType) (rm : RMode) (sat : Bool) (s : State) : Out1 :=
  onResult s c d fun k m => do
    let x ← readSrc k m (.int .w32) false a
    putResultF s k d (lift1F m (cvtWord dt st rm sat) x) m

/-! ## SREAD, VTAG, VSHAPE, VEXP (R102 to R104) -/

/-- A half of a 64-bit register. -/
def halfOf (hi : Bool) (x : Word64) : Word := x.extractLsb' (if hi then 32 else 0) 32

/-- The special registers of R56. -/
def specialReg (s : State) (k : GCtx) (sel : Fin 10) (hi : Bool) : VVal :=
  let nd := s.nodes[k.blk.node]?
  match sel.val with
  | 0 => .a 0 1
  | 1 => mkG fun l => BitVec.ofNat 32 (l / 4)
  | 2 => .u (BitVec.ofNat 32 k.w)
  | 3 => .u (BitVec.ofNat 32 k.blk.idx)
  | 4 => .u (BitVec.ofNat 32 ((nd.map (·.nblocks)).getD 0))
  | 5 => .u (BitVec.ofNat 32 (k.blk.idx / max ((nd.map (·.kd.cluster)).getD 1) 1))
  | 6 => .u (BitVec.ofNat 32 k.blk.core.val)
  | 7 => .u (halfOf hi (spanBaseOf k.blk))
  | 8 => .u (k.wp.version.setWidth 32)
  | _ => .u (halfOf hi (Config.cycle s.tick))

def execSread (c : Ctl) (d : Dst) (sel : Fin 10) (hi : Bool) (s : State) : Out1 :=
  onResult s c d fun k m => putResult s k d (specialReg s k sel hi) m

/-- The register that VTAG names. -/
def tagReg (k : GCtx) : RegSrc → VReg
  | .v n => k.wp.regs[n]
  | .o n => k.wp.ofile[n]
  | .latch => k.g.latch

def execVtag (c : Ctl) (d : Dst) (a : RegSrc) (s : State) : Out1 :=
  onResult s c d fun k m => putResult s k d (.u (BitVec.ofNat 32 (tagCode (tagReg k a).val))) m

/-- The most compact tag that the lanes of a warp's width fit (R47, R104). -/
def compact (wp : Warp) (v : VVal) : VVal :=
  let lanes := List.range (4 * wp.width.val)
  let v0 := laneVal v 0
  let dv := laneVal v 1 - v0
  if lanes.all fun l => laneVal v l = v0 then .u v0
  else if lanes.all fun l => laneVal v l = v0 + dv * BitVec.ofNat 32 l then .a v0 dv
  else v

/-- VSHAPE: a poisoned register keeps its tag (R104). -/
def reshape (wp : Warp) (r : VReg) : VReg := if r.poison != 0 then r else { r with val := compact wp r.val }

/-- VEXP: every lane keeps its value (R104). -/
def expand (r : VReg) : VReg := { r with val := mkG fun l => laneVal r.val l }

def execVshape (c : Ctl) (n : Fin 256) (s : State) : Out1 :=
  onLanes s c fun k _ => .ok (advance (modWarp s k.b k.w fun wp => setReg wp n (reshape wp wp.regs[n])) k)

def execVexp (c : Ctl) (n : Fin 256) (s : State) : Out1 :=
  onLanes s c fun k m => do
    let wp := setReg k.wp n (expand k.wp.regs[n])
    checkLines wp m
    pure (advance (modWarp s k.b k.w fun _ => wp) k)

/-! ## Cross-lane instructions (R105 to R108) -/

/-- The lane that lane l reads: its own where the named one does not participate (R105). -/
def shflLane (mode : ShflMode) (m : LaneMask) (l n : Nat) : Nat :=
  let j : Option Nat := match mode with
    | .from => some (n % 32)
    | .lo => if n ≤ l then some (l - n) else none
    | .hi => if l + n < 32 then some (l + n) else none
    | .flip => some (l ^^^ n % 32)
  match j with
  | some x => if laneBit m x then x else l
  | none => l

/-- Every indexed source checks its index in every participating lane (R51). -/
def checkIndex (k : GCtx) (m : LaneMask) : Src → Except Raise Unit
  | .vx x _ => (idxLanes k.wp x m).map fun _ => ()
  | _ => .ok ()

/-- The tag that a source has (R45, R52). -/
def srcIsU (k : GCtx) (a : Src) : Bool :=
  match a with
  | .vx _ _ => false
  | a => match srcReg k a with | some r => isU r.val | none => true

def execShfl (c : Ctl) (d : Dst) (a b : Src) (mode : ShflMode) (s : State) : Out1 :=
  onResult s c d fun k m => do
    checkIndex k m a
    let n ← readSrc k m (.int .w32) false b
    let xs ← forLanes (fun l =>
      let j := shflLane mode m l (laneVal n l).toNat
      (readSrc k (maskOf (· = j)) (.int .w32) false a).map fun v => (l, laneVal v j)) (lanesOf m)
    let get (l : Nat) : Word := ((xs.find? (·.1 = l)).map (·.2)).getD 0
    putResult s k d (if srcIsU k a then .u (get (lowLane m)) else mkG get) m

/-- The lanes of a mask where a predicate is true. -/
def trueLanes (m : LaneMask) (p : PVal) : LaneMask := m &&& maskOf (predBit p)

def execVote (c : Ctl) (form : VoteForm) (p : PSrc) (s : State) : Out1 :=
  onLanes s c fun k m => do
    let v ← readPred k m p
    let t := trueLanes m v
    match form with
    | .every q => pure (putPred s k q (.u (t = m)) m)
    | .some q => pure (putPred s k q (.u (t != 0)) m)
    | .same q => pure (putPred s k q (.u (t = m || t = 0)) m)
    | .bits d => putResult s k d (.u t) m

/-- A combining step of REDX and SCANX (R107). -/
def combine (op : RedOp) (sat u : Bool) (x y : Word) : Word × Flags :=
  let n (v : Word) : Int := elem 32 (!u) v 0
  let f (r : Nat × Flags) : Word × Flags := (BitVec.ofNat 32 r.1, r.2)
  match op with
  | .add => (BitVec.ofInt 32 (satTo 32 sat u (n x + n y)), 0)
  | .min => (if n x ≤ n y then x else y, 0)
  | .max => (if n x ≥ n y then x else y, 0)
  | .and => (x &&& y, 0)
  | .or => (x ||| y, 0)
  | .xor => (x ^^^ y, 0)
  | .fadd => f (sumProd .f32 .rn [(FVal.one, unpackF .f32 x.toNat), (FVal.one, unpackF .f32 y.toNat)])
  | .fmin => f (minMaxF .f32 false x.toNat y.toNat)
  | .fmax => f (minMaxF .f32 true x.toNat y.toNat)

/-- The identity of an operation (R107). -/
def identity (op : RedOp) (u : Bool) : Word :=
  match op with
  | .add | .or | .xor => 0
  | .and => 0xFFFFFFFF
  | .min => if u then 0xFFFFFFFF else 0x7FFFFFFF
  | .max => if u then 0 else 0x80000000
  | .fadd => 0x80000000
  | .fmin | .fmax => 0x7FC00000

/-- Whether an operation is one of 32-bit floating-point (R86, R107). -/
def redIsF : RedOp → Bool
  | .fadd | .fmin | .fmax => true
  | _ => false

/-- How REDX and SCANX read their source: under .fadd, .fmin and .fmax a half is a BF16 (R52; log 96, DEDUCED). -/
def redReads (op : RedOp) : SrcKind := if redIsF op then .fp .fp32 else .int .w32

/-- What lane 0 of a scan receives, which no step combines: a NaN is canonical there too (R17, R108). -/
def redAlone (op : RedOp) (x : Word) : Word :=
  match redIsF op, unpackF .f32 x.toNat with
  | true, .nan _ => 0x7FC00000
  | _, _ => x

/-- Whether an operation reads its source signed (R52). -/
def RedOp.signed : RedOp → Bool
  | .add | .min | .max => true
  | _ => false

/-- The tree of R37 from a list of 2^n terms. -/
def redTree (f : Word → Word → Word × Flags) : Nat → List Word → Word × Flags
  | 0, t => (t.headD 0, 0)
  | n + 1, t =>
    let r := (List.range (2 ^ n)).map fun l => f (t.getD l 0) (t.getD (l + 2 ^ n) 0)
    let (x, fl) := redTree f n (r.map (·.1))
    (x, (r.map (·.2)).foldl (· ||| ·) fl)

/-- The scan of R38 with strides h, 2h, ... -/
def scanSteps (f : Word → Word → Word × Flags) : Nat → Nat → List Word → List Word × Flags
  | 0, _, t => (t, 0)
  | n + 1, h, t =>
    let r := (List.range 32).map fun l => if l ≥ h then f (t.getD (l - h) 0) (t.getD l 0) else (t.getD l 0, 0)
    let (x, fl) := scanSteps f n (2 * h) (r.map (·.1))
    (x, (r.map (·.2)).foldl (· ||| ·) fl)

/-- The terms of R37: lane values of participating lanes and identities. -/
def redTerms (op : RedOp) (u : Bool) (m : LaneMask) (v : VVal) : List Word :=
  (List.range 32).map fun l => if laneBit m l then laneVal v l else identity op u

/-- What REDX and SCANX read (R52, R107). An integer constant is the same in both kinds of source (R67). -/
def readRed (k : GCtx) (m : LaneMask) (op : RedOp) (u : Bool) (a : Src) : Except Raise VVal :=
  readSrc k m (redReads op) (RedOp.signed op && !u) a

def execRedx (c : Ctl) (d : Dst) (a : Src) (op : RedOp) (sat u : Bool) (s : State) : Out1 :=
  onResult s c d fun k m => do
    let x ← readRed k m op u a
    let (r, fl) := redTree (combine op sat u) 5 (redTerms op u m x)
    putResultF s k d (.u r, fl) m

def execScanx (c : Ctl) (d : Dst) (a : Src) (op : RedOp) (sat u : Bool) (s : State) : Out1 :=
  onResult s c d fun k m => do
    let x ← readRed k m op u a
    let (r, fl) := scanSteps (combine op sat u) 5 1 (redTerms op u m x)
    putResultF s k d (mkG fun l => if l = 0 then redAlone op (r.getD l 0) else r.getD l 0, fl) m

/-! ## XSET, XCLR, PLOP, PMOV (R109, R110) -/

/-- An index descriptor of a warp replaced (R50). -/
def setX (wp : Warp) (x : Fin 8) (d : XDesc) : Warp := { wp with xd := wp.xd.set x d }

def execXset (c : Ctl) (x : Fin 8) (base limit vidx : Src) (s : State) : Out1 :=
  onLanes s c fun k m => do
    let b ← readUni k m base
    let n ← readUni k m limit
    let v ← readUni k m vidx
    if b.toNat > 255 || n.toNat > 256 || v.toNat > 255 then .error (raise .regIndex (some (lowLane m)))
    else
      let dsc : XDesc := { limit := n.setWidth 9, vidx := v.setWidth 8, base := b.setWidth 8, poison := false }
      pure (advance (modWarp s k.b k.w fun wp => setX wp x dsc) k)

def execXclr (c : Ctl) (x : Fin 8) (s : State) : Out1 :=
  onLanes s c fun k _ =>
    .ok (advance (modWarp s k.b k.w fun wp => setX wp x { limit := 0, vidx := 0, base := 0, poison := false }) k)

/-- PLOP on two bits (R110). -/
def plogic (op : PLogic) (x y : Bool) : Bool :=
  match op with
  | .and => x && y
  | .or => x || y
  | .xor => x != y

def execPlop (c : Ctl) (p : Fin 8) (a b : PSrc) (op : PLogic) (s : State) : Out1 :=
  onLanes s c fun k m => do
    let x ← readPred k m a
    let y ← readPred k m b
    let r : PVal := match x, y with
      | .u v, .u w => .u (plogic op v w)
      | x, y => .g (maskOf fun l => plogic op (predBit x l) (predBit y l))
    pure (putPred s k p r m)

def execPmov (c : Ctl) (form : PMovForm) (s : State) : Out1 :=
  match form with
  | .toP p a =>
    onLanes s c fun k m => do
      let x ← readSrc k m (.int .w32) false a
      pure (putPred s k p (match x with | .u v => .u (v != 0) | v => .g (maskOf fun l => laneVal v l != 0)) m)
  | .toV d p =>
    onResult s c d fun k m => do
      let x ← readPred k m p
      putResult s k d (match x with
        | .u v => .u (if v then 1 else 0)
        | v => mkG fun l => if predBit v l then 1 else 0) m

end Sys2Proof.Machine
end

