-- ==== Sys2Proof/Decode.lean ====
section
/-!
DEFINITION. Instruction words: the fields of R61, the decoder of R62 to R81 with the entries' own fields (R85, R112,
R128, R150, R223, R234, R295, R296, R308, R423), and the encoder from the same tables.
-/
namespace Sys2Proof

/-! ## The word (R59, R61) -/

/-- The fields of a word (R61). -/
structure Fields where
  mod : BitVec 6
  c : BitVec 18
  b : BitVec 18
  a : BitVec 18
  dst : BitVec 18
  hint : BitVec 4
  inv : BitVec 1
  pred : BitVec 3
  cls : BitVec 3
  op : BitVec 7
  deriving DecidableEq, Repr

/-- Take a word apart (R61). -/
def splitWord (w : IWord) : Fields :=
  { mod := w.extractLsb' 90 6, c := w.extractLsb' 72 18, b := w.extractLsb' 54 18, a := w.extractLsb' 36 18,
    dst := w.extractLsb' 18 18, hint := w.extractLsb' 14 4, inv := w.extractLsb' 13 1, pred := w.extractLsb' 10 3,
    cls := w.extractLsb' 7 3, op := w.extractLsb' 0 7 }

/-- Put a word together (R61). -/
def packWord (f : Fields) : IWord :=
  f.mod ++ f.c ++ f.b ++ f.a ++ f.dst ++ f.hint ++ f.inv ++ f.pred ++ f.cls ++ f.op

/-- The word that 12 little-endian bytes hold (R59). -/
def wordOfBytes : List Byte → IWord
  | [] => 0
  | b :: r => (wordOfBytes r <<< 8) ||| b.setWidth 96

/-- The 12 bytes of a word (R59). -/
def bytesOfWord (w : IWord) : List Byte := (List.range 12).map fun i => w.extractLsb' (8 * i) 8

/-- The streams of R14. -/
inductive StreamKind where
  | warp | helm | copy | matrix
  deriving DecidableEq, Repr

/-- Assigned values of OP in each class (R78): 1 to this number. -/
def opsOf (cls : Nat) : Nat :=
  match cls with
  | 0 => 0x28 | 1 => 0x13 | 2 => 0x08 | 3 => 0x14 | 4 => 0x1A | 5 => 0x0D | 6 => 0x0E | _ => 0x05

/-- Whether an opcode is assigned (R78, R80 check 1). -/
def opAssigned (f : Fields) : Bool := 1 ≤ f.op.toNat && f.op.toNat ≤ opsOf f.cls.toNat

/-- The stream that accepts an opcode (R14, R79). -/
def opStream (f : Fields) : StreamKind :=
  match f.cls.toNat with
  | 4 => .helm
  | 5 => if f.op = 5 then .warp else .copy
  | 6 => .matrix
  | _ => .warp

/-! ## Operand fields -/

/-- Succeed when a check holds. -/
def need (b : Bool) : Option Unit := if b then some () else none

/-- Views (R52); 0xF is reserved. -/
def decView (v : BitVec 4) : Option View :=
  match v.toNat with
  | 0 => some .w | 1 => some .h0 | 2 => some .h1 | 3 => some .b0 | 4 => some .b1 | 5 => some .b2 | 6 => some .b3
  | 7 => some .hh0 | 8 => some .hh1 | 9 => some .bb0 | 10 => some .bb1 | 11 => some .bb2 | 12 => some .bb3
  | 13 => some .hswap | 14 => some .brev8 | _ => none

def encView : View → BitVec 4
  | .w => 0 | .h0 => 1 | .h1 => 2 | .b0 => 3 | .b1 => 4 | .b2 => 5 | .b3 => 6 | .hh0 => 7 | .hh1 => 8 | .bb0 => 9
  | .bb1 => 10 | .bb2 => 11 | .bb3 => 12 | .hswap => 13 | .brev8 => 14

/-- Special selectors (R68). -/
def decSpecial (v : BitVec 8) : Option Special :=
  match v.toNat with
  | 0 => some .zero | 1 => some .ones | 2 => some .nan | 3 => some .inf | 4 => some .ninf | 5 => some .nzero
  | 6 => some .imax | 7 => some .one | 8 => some .half | _ => none

def encSpecial : Special → BitVec 8
  | .zero => 0 | .ones => 1 | .nan => 2 | .inf => 3 | .ninf => 4 | .nzero => 5 | .imax => 6 | .one => 7 | .half => 8

/-- A register number of 8 bits. -/
def fin256 (v : BitVec 8) : Fin 256 := v.toFin

/-- A number of 3 bits. -/
def fin8 (v : BitVec 3) : Fin 8 := v.toFin

/-- A source field (R66 to R68; log 27, DEDUCED). -/
def decSrc (f : BitVec 18) : Option Src :=
  let vw := decView (f.extractLsb' 14 4)
  match (f.extractLsb' 0 2).toNat with
  | 0 =>
    if f.getLsbD 10 then
      if f.extractLsb' 2 8 = 0 then vw.map fun x => .vx (fin8 (f.extractLsb' 11 3)) x else none
    else if f.extractLsb' 11 3 = 0 then vw.map fun x => .v (fin256 (f.extractLsb' 2 8)) x else none
  | 1 => if f.extractLsb' 5 9 = 0 then vw.map fun x => .o (fin8 (f.extractLsb' 2 3)) x else none
  | 2 => if f.extractLsb' 2 12 = 0 then vw.map .latch else none
  | _ =>
    match (f.extractLsb' 16 2).toNat with
    | 0 => some (.int (f.extractLsb' 2 14))
    | 1 => some (.flt (f.extractLsb' 2 14))
    | 2 => if f.extractLsb' 10 6 = 0 then (decSpecial (f.extractLsb' 2 8)).map .spec else none
    | _ => none

def encSrc : Src → BitVec 18
  | .v n x => encView x ++ (0 : BitVec 3) ++ (0 : BitVec 1) ++ (BitVec.ofFin (w := 8) n) ++ (0 : BitVec 2)
  | .vx k x => encView x ++ (BitVec.ofFin (w := 3) k) ++ (1 : BitVec 1) ++ (0 : BitVec 8) ++ (0 : BitVec 2)
  | .o n x => encView x ++ (0 : BitVec 9) ++ (BitVec.ofFin (w := 3) n) ++ (1 : BitVec 2)
  | .latch x => encView x ++ (0 : BitVec 12) ++ (2 : BitVec 2)
  | .int i => (0 : BitVec 2) ++ i ++ (3 : BitVec 2)
  | .flt i => (1 : BitVec 2) ++ i ++ (3 : BitVec 2)
  | .spec k => (2 : BitVec 2) ++ (0 : BitVec 6) ++ encSpecial k ++ (3 : BitVec 2)

/-- A destination field (R70). -/
def decDst (f : BitVec 18) : Option Dst :=
  let vw := decView (f.extractLsb' 14 4)
  match (f.extractLsb' 0 2).toNat with
  | 0 =>
    if f.getLsbD 10 then
      if f.extractLsb' 2 8 = 0 then vw.map fun x => .vx (fin8 (f.extractLsb' 11 3)) x else none
    else if f.extractLsb' 11 3 = 0 then vw.map fun x => .v (fin256 (f.extractLsb' 2 8)) x else none
  | 1 => if f.extractLsb' 5 13 = 0 then some (.o (fin8 (f.extractLsb' 2 3))) else none
  | 2 =>
    if f.getLsbD 10 then none
    else vw.map fun x => .vo (fin256 (f.extractLsb' 2 8)) (fin8 (f.extractLsb' 11 3)) x
  | _ => if f.extractLsb' 2 16 = 0 then some .latch else none

def encDst : Dst → BitVec 18
  | .v n x => encView x ++ (0 : BitVec 3) ++ (0 : BitVec 1) ++ (BitVec.ofFin (w := 8) n) ++ (0 : BitVec 2)
  | .vx k x => encView x ++ (BitVec.ofFin (w := 3) k) ++ (1 : BitVec 1) ++ (0 : BitVec 8) ++ (0 : BitVec 2)
  | .o n => (0 : BitVec 13) ++ (BitVec.ofFin (w := 3) n) ++ (1 : BitVec 2)
  | .vo n o x => encView x ++ (BitVec.ofFin (w := 3) o) ++ (0 : BitVec 1) ++ (BitVec.ofFin (w := 8) n) ++ (2 : BitVec 2)
  | .latch => (0 : BitVec 16) ++ (3 : BitVec 2)

/-- The ten low bits that name a register at level 0, 1 or 2 (R93). -/
def decReg10 (f : BitVec 10) : Option RegSrc :=
  match (f.extractLsb' 0 2).toNat with
  | 0 => some (.v (fin256 (f.extractLsb' 2 8)))
  | 1 => if f.extractLsb' 5 5 = 0 then some (.o (fin8 (f.extractLsb' 2 3))) else none
  | 2 => if f.extractLsb' 2 8 = 0 then some .latch else none
  | _ => none

def encReg10 : RegSrc → BitVec 10
  | .v n => (BitVec.ofFin (w := 8) n) ++ (0 : BitVec 2)
  | .o n => (0 : BitVec 5) ++ (BitVec.ofFin (w := 3) n) ++ (1 : BitVec 2)
  | .latch => (0 : BitVec 8) ++ (2 : BitVec 2)

/-- A register source without index, view .w (R103). -/
def decRegSrc (f : BitVec 18) : Option RegSrc :=
  if f.extractLsb' 10 8 = 0 then decReg10 (f.extractLsb' 0 10) else none

def encRegSrc (r : RegSrc) : BitVec 18 := (0 : BitVec 8) ++ encReg10 r

/-- A plain main-file register (R104). -/
def decVReg (f : BitVec 18) : Option (Fin 256) :=
  if f.extractLsb' 0 2 = 0 && f.extractLsb' 10 8 = 0 then some (fin256 (f.extractLsb' 2 8)) else none

def encVReg (n : Fin 256) : BitVec 18 := (0 : BitVec 8) ++ (BitVec.ofFin (w := 8) n) ++ (0 : BitVec 2)

/-- A register pair vN, vN+1 with N even, by N / 2 (R73, R234). -/
def decPair (f : BitVec 18) : Option (Fin 128) :=
  if f.extractLsb' 0 3 = 0 && f.extractLsb' 10 8 = 0 then some (f.extractLsb' 3 7).toFin else none

def encPair (k : Fin 128) : BitVec 18 := (0 : BitVec 8) ++ (BitVec.ofFin (w := 7) k) ++ (0 : BitVec 3)

/-- A predicate or descriptor number (R69). -/
def decP (f : BitVec 18) : Option (Fin 8) :=
  if f.extractLsb' 0 2 = 0 && f.extractLsb' 5 13 = 0 then some (fin8 (f.extractLsb' 2 3)) else none

def encP (n : Fin 8) : BitVec 18 := (0 : BitVec 13) ++ (BitVec.ofFin (w := 3) n) ++ (0 : BitVec 2)

/-- A predicate source with its inversion in bit 14 (R69). -/
def decPS (f : BitVec 18) : Option PSrc :=
  if f.extractLsb' 0 2 = 0 && f.extractLsb' 5 9 = 0 && f.extractLsb' 15 3 = 0 then
    some { n := fin8 (f.extractLsb' 2 3), inv := f.getLsbD 14 }
  else none

def encPS (p : PSrc) : BitVec 18 :=
  (0 : BitVec 3) ++ BitVec.ofBool p.inv ++ (0 : BitVec 9) ++ (BitVec.ofFin (w := 3) p.n) ++ (0 : BitVec 2)

/-- A level-3 field of integer kind (R67). -/
def decK (f : BitVec 18) : Option (BitVec 14) :=
  if f.extractLsb' 0 2 = 3 && f.extractLsb' 16 2 = 0 then some (f.extractLsb' 2 14) else none

def encK (i : BitVec 14) : BitVec 18 := (0 : BitVec 2) ++ i ++ (3 : BitVec 2)

/-- A level-3 integer from 0 to 8,191 (R150 "n"). -/
def decN (f : BitVec 18) : Option (BitVec 13) :=
  (decK f).bind fun i => if i.getLsbD 13 then none else some (i.setWidth 13)

def encN (n : BitVec 13) : BitVec 18 := encK (n.setWidth 14)

/-- A selector below 2^w: the integer's other bits are zero. -/
def decSel (w : Nat) (f : BitVec 18) : Option (BitVec w) :=
  (decK f).bind fun i => if (i.setWidth w).setWidth 14 = i then some (i.setWidth w) else none

def encSel (w : Nat) (v : BitVec w) : BitVec 18 := encK (v.setWidth 14)

/-- A helm source (R75). -/
def decHSrc (f : BitVec 18) : Option HSrc :=
  match (f.extractLsb' 0 2).toNat with
  | 0 => if f.extractLsb' 8 10 = 0 then some (.s (f.extractLsb' 2 6).toFin) else none
  | 1 => if f.extractLsb' 5 13 = 0 then some (.q (fin8 (f.extractLsb' 2 3))) else none
  | 2 => none
  | _ => if f.extractLsb' 16 2 = 0 then some (.imm (f.extractLsb' 2 14)) else none

def encHSrc : HSrc → BitVec 18
  | .s n => (0 : BitVec 10) ++ (BitVec.ofFin (w := 6) n) ++ (0 : BitVec 2)
  | .q n => (0 : BitVec 13) ++ (BitVec.ofFin (w := 3) n) ++ (1 : BitVec 2)
  | .imm i => (0 : BitVec 2) ++ i ++ (3 : BitVec 2)

/-- A helm destination (R75). -/
def decHDst (f : BitVec 18) : Option HDst :=
  match decHSrc f with
  | some (.s n) => some (.s n)
  | some (.q n) => some (.q n)
  | _ => none

def encHDst : HDst → BitVec 18
  | .s n => encHSrc (.s n)
  | .q n => encHSrc (.q n)

/-- An s register (R223 "s0"). -/
def decS (f : BitVec 18) : Option (Fin 64) :=
  match decHSrc f with
  | some (.s n) => some n
  | _ => none

def encS (n : Fin 64) : BitVec 18 := encHSrc (.s n)

/-- A q register. -/
def decQ (f : BitVec 18) : Option (Fin 8) :=
  match decHSrc f with
  | some (.q n) => some n
  | _ => none

def encQ (n : Fin 8) : BitVec 18 := encHSrc (.q n)

/-- A resource below n, in an engine field (R76). -/
def decRes (n : Nat) (f : BitVec 18) : Option (Fin n) :=
  if f.extractLsb' 0 2 = 0 && f.extractLsb' 10 8 = 0 then
    if h : (f.extractLsb' 2 8).toNat < n then some ⟨(f.extractLsb' 2 8).toNat, h⟩ else none
  else none

def encRes {n : Nat} (k : Fin n) : BitVec 18 := (0 : BitVec 8) ++ BitVec.ofNat 8 k.val ++ (0 : BitVec 2)

/-- A parameter field (R76). -/
def decPar (f : BitVec 18) : Option (Fin 64) :=
  if f.extractLsb' 0 2 = 1 && f.extractLsb' 8 10 = 0 then some (f.extractLsb' 2 6).toFin else none

def encPar (n : Fin 64) : BitVec 18 := (0 : BitVec 10) ++ (BitVec.ofFin (w := 6) n) ++ (1 : BitVec 2)

/-- A count field (R76). -/
def decCnt (f : BitVec 18) : Option (BitVec 16) :=
  if f.extractLsb' 0 2 = 3 then some (f.extractLsb' 2 16) else none

def encCnt (n : BitVec 16) : BitVec 18 := n ++ (3 : BitVec 2)

/-- A parameter or a count (R76). -/
def decPC (f : BitVec 18) : Option PC :=
  match (f.extractLsb' 0 2).toNat with
  | 1 => (decPar f).map .p
  | 3 => (decCnt f).map .c
  | _ => none

def encPC : PC → BitVec 18
  | .p n => encPar n
  | .c n => encCnt n

/-! ## Access descriptors and modifiers -/

/-- Sizes (R74). -/
def decSize (v : BitVec 3) : Option Size :=
  match v.toNat with
  | 0 => some .b8 | 1 => some .b16 | 2 => some .b32 | 3 => some .b64 | 4 => some .b128 | _ => none

def encSize : Size → BitVec 3
  | .b8 => 0 | .b16 => 1 | .b32 => 2 | .b64 => 3 | .b128 => 4

/-- An access descriptor (R74). -/
structure Desc where
  opx : BitVec 12
  ver : Bool
  sx : Bool
  raw : Bool
  size : Size
  deriving DecidableEq, Repr

def decDesc (f : BitVec 18) : Option Desc :=
  (decSize (f.extractLsb' 0 3)).map fun z =>
    { opx := f.extractLsb' 6 12, ver := f.getLsbD 5, sx := f.getLsbD 4, raw := f.getLsbD 3, size := z }

def encDesc (d : Desc) : BitVec 18 :=
  d.opx ++ BitVec.ofBool d.ver ++ BitVec.ofBool d.sx ++ BitVec.ofBool d.raw ++ encSize d.size

/-- Widths (R77). -/
def decWidth (v : BitVec 2) : Width :=
  match v.toNat with
  | 0 => .w32 | 1 => .w16 | 2 => .w8 | _ => .w4

def encWidth : Width → BitVec 2
  | .w32 => 0 | .w16 => 1 | .w8 => 2 | .w4 => 3

/-- Rounding modes (R77). -/
def decRMode (v : BitVec 2) : RMode :=
  match v.toNat with
  | 0 => .rn | 1 => .rz | 2 => .ru | _ => .rd

def encRMode : RMode → BitVec 2
  | .rn => 0 | .rz => 1 | .ru => 2 | .rd => 3

/-- Packings (R77). -/
def decPack (v : BitVec 2) : Option Pack :=
  match v.toNat with
  | 0 => some .fp32 | 1 => some .bf16x2 | 2 => some .f16x2 | _ => none

def encPack : Pack → BitVec 2
  | .fp32 => 0 | .bf16x2 => 1 | .f16x2 => 2

/-- Scopes (R77). -/
def decScope (v : BitVec 3) : Option Scope :=
  match v.toNat with
  | 0 => some .none | 1 => some .wp | 2 => some .bk | 3 => some .cl | 4 => some .dv | 5 => some .sy | _ => none

def encScope : Scope → BitVec 3
  | .none => 0 | .wp => 1 | .bk => 2 | .cl => 3 | .dv => 4 | .sy => 5

/-- Scopes of CSIG and CWAIT in two bits (R309). -/
def decScope2 (v : BitVec 2) : Scope :=
  match v.toNat with
  | 0 => .bk | 1 => .cl | 2 => .dv | _ => .sy

def encScope2 : Scope → BitVec 2
  | .cl => 1 | .dv => 2 | .sy => 3 | _ => 0

/-- Orders (R77). -/
def decOrder (v : BitVec 2) : Order :=
  match v.toNat with
  | 0 => .plain | 1 => .acq | 2 => .rel | _ => .ar

def encOrder : Order → BitVec 2
  | .plain => 0 | .acq => 1 | .rel => 2 | .ar => 3

/-- Integer comparisons (R90, R226). -/
def decICmp (v : BitVec 3) : Option ICmp :=
  match v.toNat with
  | 0 => some .eq | 1 => some .ne | 2 => some .lt | 3 => some .le | 4 => some .gt | 5 => some .ge | _ => none

def encICmp : ICmp → BitVec 3
  | .eq => 0 | .ne => 1 | .lt => 2 | .le => 3 | .gt => 4 | .ge => 5

/-- Floating-point comparisons (R120). -/
def decFCmp (v : BitVec 3) : FCmp :=
  match v.toNat with
  | 0 => .eq | 1 => .ne | 2 => .lt | 3 => .le | 4 => .gt | 5 => .ge | 6 => .num | _ => .nan

def encFCmp : FCmp → BitVec 3
  | .eq => 0 | .ne => 1 | .lt => 2 | .le => 3 | .gt => 4 | .ge => 5 | .num => 6 | .nan => 7

/-- Types of CVT (R100). -/
def decCvt (v : BitVec 4) : Option CvtType :=
  match v.toNat with
  | 0 => some .f32 | 1 => some .bf16 | 2 => some .f16 | 3 => some .e4m3 | 4 => some .e5m2 | 5 => some .s8
  | 6 => some .s4 | 8 => some .s32 | 9 => some .u32 | 10 => some .s16 | 11 => some .u16 | 12 => some .u8
  | 13 => some .u4 | _ => none

def encCvt : CvtType → BitVec 4
  | .f32 => 0 | .bf16 => 1 | .f16 => 2 | .e4m3 => 3 | .e5m2 => 4 | .s8 => 5 | .s4 => 6 | .s32 => 8 | .u32 => 9
  | .s16 => 10 | .u16 => 11 | .u8 => 12 | .u4 => 13

/-- Modes of SHFL (R105). -/
def decShfl (v : BitVec 2) : ShflMode :=
  match v.toNat with
  | 0 => .from | 1 => .lo | 2 => .hi | _ => .flip

def encShfl : ShflMode → BitVec 2
  | .from => 0 | .lo => 1 | .hi => 2 | .flip => 3

/-- Operations of REDX and SCANX (R107). -/
def decRed (v : BitVec 4) : Option RedOp :=
  match v.toNat with
  | 0 => some .add | 1 => some .min | 2 => some .max | 3 => some .and | 4 => some .or | 5 => some .xor
  | 6 => some .fadd | 7 => some .fmin | 8 => some .fmax | _ => none

def encRed : RedOp → BitVec 4
  | .add => 0 | .min => 1 | .max => 2 | .and => 3 | .or => 4 | .xor => 5 | .fadd => 6 | .fmin => 7 | .fmax => 8

/-- Operations of PLOP (R110). -/
def decPLogic (v : BitVec 2) : Option PLogic :=
  match v.toNat with
  | 0 => some .and | 1 => some .or | 2 => some .xor | _ => none

def encPLogic : PLogic → BitVec 2
  | .and => 0 | .or => 1 | .xor => 2

/-- Operations of ATOM and SATOM (R141). -/
def decAtom (v : BitVec 3) : AtomOp :=
  match v.toNat with
  | 0 => .add | 1 => .min | 2 => .max | 3 => .and | 4 => .or | 5 => .xor | 6 => .exch | _ => .cas

def encAtom : AtomOp → BitVec 3
  | .add => 0 | .min => 1 | .max => 2 | .and => 3 | .or => 4 | .xor => 5 | .exch => 6 | .cas => 7

/-- Comparisons of WAITA and CWAIT (R148). -/
def decWCmp (v : BitVec 3) : Option WCmp :=
  match v.toNat with
  | 0 => some .eq | 1 => some .ne | 2 => some .lt | 3 => some .ge | 4 => some .ltu | 5 => some .geu | _ => none

def encWCmp : WCmp → BitVec 3
  | .eq => 0 | .ne => 1 | .lt => 2 | .ge => 3 | .ltu => 4 | .geu => 5

/-- Signal operations (R239, R309). -/
def decSigOp (v : BitVec 2) : Option SigOp :=
  match v.toNat with
  | 0 => some .sub | 1 => some .add | 2 => some .set | _ => none

def encSigOp : SigOp → BitVec 2
  | .sub => 0 | .add => 1 | .set => 2

/-- Kinds of MMA (R313). -/
def decMma (v : BitVec 3) : Option MmaKind :=
  match v.toNat with
  | 0 => some .fp8 | 1 => some .i8 | 2 => some .ti8 | 3 => some .i8t | 4 => some .bf16 | _ => none

def encMma : MmaKind → BitVec 3
  | .fp8 => 0 | .i8 => 1 | .ti8 => 2 | .i8t => 3 | .bf16 => 4

/-- Conversions of MSTORE (R316). -/
def decConv (v : BitVec 2) : Option MConv :=
  match v.toNat with
  | 0 => some .f32 | 1 => some .bf16 | 2 => some .q | _ => none

def encConv : MConv → BitVec 2
  | .f32 => 0 | .bf16 => 1 | .q => 2

/-- Counters of MLOOP (R311). -/
def decCtr (v : BitVec 2) : MCtr :=
  match v.toNat with
  | 0 => .none | 1 => .rowb | 2 => .colb | _ => .kb

def encCtr : MCtr → BitVec 2
  | .none => 0 | .rowb => 1 | .colb => 2 | .kb => 3

/-! ## The decoder -/

/-- Guard and hint (R61). -/
def ctlOf (f : Fields) : Ctl := { pred := fin8 f.pred, inv := f.inv = 1, hint := f.hint }

/-- The modifier bits outside a mask are zero (R62). -/
def modOnly (f : Fields) (mask : BitVec 6) : Bool := f.mod &&& ~~~mask = 0

/-- bits 85:54 of the I-form and the branch form (R71). -/
def immOf (f : Fields) : BitVec 32 := f.c.extractLsb' 0 14 ++ f.b

/-- bits 89:86 zero (R71). -/
def immOk (f : Fields) : Bool := f.c.extractLsb' 14 4 = 0

/-- Class 000 (R85). -/
def decInt (f : Fields) : Option Instr :=
  let c := ctlOf f
  let w := decWidth (f.mod.extractLsb' 0 2)
  let sat := f.mod.getLsbD 2
  let u := f.mod.getLsbD 3
  let hi := f.mod.extractLsb' 4 2
  match f.op.toNat with
  | 0x01 => do
    need (modOnly f 0xF && f.c = 0); return .iadd c (← decDst f.dst) (← decSrc f.a) (← decSrc f.b) w sat u
  | 0x02 => do
    need (modOnly f 0xF && f.c = 0); return .isub c (← decDst f.dst) (← decSrc f.a) (← decSrc f.b) w sat u
  | 0x03 => do
    need (modOnly f 0xF && f.c = 0); return .imul c (← decDst f.dst) (← decSrc f.a) (← decSrc f.b) w sat u
  | 0x04 => do
    need (modOnly f 0xB && f.c = 0); return .imulhi c (← decDst f.dst) (← decSrc f.a) (← decSrc f.b) w u
  | 0x05 => do
    need (modOnly f 0xF)
    return .imad c (← decDst f.dst) (← decSrc f.a) (← decSrc f.b) (← decSrc f.c) w sat u
  | 0x06 => do
    need (modOnly f 0xB && f.c = 0); return .imin c (← decDst f.dst) (← decSrc f.a) (← decSrc f.b) w u
  | 0x07 => do
    need (modOnly f 0xB && f.c = 0); return .imax c (← decDst f.dst) (← decSrc f.a) (← decSrc f.b) w u
  | 0x08 => do
    need (modOnly f 0x7 && f.b = 0 && f.c = 0); return .iabs c (← decDst f.dst) (← decSrc f.a) w sat
  | 0x09 => do
    need (modOnly f 0x8)
    return .isetp c (← decP f.dst) (← decSrc f.a) (← decSrc f.b) (← (decSel 3 f.c).bind decICmp) u
  | 0x0A => do
    need (modOnly f 0x3 && f.c = 0); return .shl c (← decDst f.dst) (← decSrc f.a) (← decSrc f.b) w
  | 0x0B => do
    need (modOnly f 0x3 && f.c = 0); return .shr c (← decDst f.dst) (← decSrc f.a) (← decSrc f.b) w
  | 0x0C => do
    need (modOnly f 0x3 && f.c = 0); return .sar c (← decDst f.dst) (← decSrc f.a) (← decSrc f.b) w
  | 0x0D => do need (modOnly f 0 && f.c = 0); return .and c (← decDst f.dst) (← decSrc f.a) (← decSrc f.b)
  | 0x0E => do need (modOnly f 0 && f.c = 0); return .or c (← decDst f.dst) (← decSrc f.a) (← decSrc f.b)
  | 0x0F => do need (modOnly f 0 && f.c = 0); return .xor c (← decDst f.dst) (← decSrc f.a) (← decSrc f.b)
  | 0x10 => do need (modOnly f 0 && f.c = 0); return .andn c (← decDst f.dst) (← decSrc f.a) (← decSrc f.b)
  | 0x11 => do
    need (modOnly f 0)
    return .lop3 c (← decDst f.dst) (← decSrc f.a) (← decSrc f.b) (← decReg10 (f.c.extractLsb' 0 10))
      (f.c.extractLsb' 10 8)
  | 0x12 => do need (modOnly f 0x3 && f.b = 0 && f.c = 0); return .popc c (← decDst f.dst) (← decSrc f.a) w
  | 0x13 => do need (modOnly f 0x3 && f.b = 0 && f.c = 0); return .clz c (← decDst f.dst) (← decSrc f.a) w
  | 0x14 => do need (modOnly f 0x3 && f.b = 0 && f.c = 0); return .brev c (← decDst f.dst) (← decSrc f.a) w
  | 0x15 => do
    need (modOnly f 0x8 && f.c = 0); return .bfx c (← decDst f.dst) (← decSrc f.a) (← decSrc f.b) u
  | 0x16 => do
    need (modOnly f 0); return .bfi c (← decDst f.dst) (← decSrc f.a) (← decSrc f.b) (← decSrc f.c)
  | 0x17 => do need (modOnly f 0); return .sel c (← decDst f.dst) (← decSrc f.a) (← decSrc f.b) (← decPS f.c)
  | 0x18 => do
    need (modOnly f 0); return .prmt c (← decDst f.dst) (← decSrc f.a) (← decSrc f.b) (← decSrc f.c)
  | 0x19 => do
    need (modOnly f 0xC); return .idot4 c (← decDst f.dst) (← decSrc f.a) (← decSrc f.b) (← decSrc f.c) sat u
  | 0x1A => do need (modOnly f 0 && f.b = 0 && f.c = 0); return .mov c (← decDst f.dst) (← decSrc f.a)
  | 0x1B => do need (modOnly f 0 && f.a = 0 && immOk f); return .movi c (← decDst f.dst) (immOf f)
  | 0x1C => do
    need (modOnly f 0x4 && f.b = 0)
    let k ← decSel 10 f.c
    return .cvt c (← decDst f.dst) (← decSrc f.a) (← decCvt (k.extractLsb' 4 4)) (← decCvt (k.extractLsb' 0 4))
      (decRMode (k.extractLsb' 8 2)) sat
  | 0x1D => do
    need (modOnly f 0x10 && f.b = 0 && f.c = 0)
    let k ← decSel 4 f.a
    if h : k.toNat < 10 then return .sread c (← decDst f.dst) ⟨k.toNat, h⟩ (f.mod.getLsbD 4) else none
  | 0x1E => do need (modOnly f 0 && f.b = 0 && f.c = 0); return .vtag c (← decDst f.dst) (← decRegSrc f.a)
  | 0x1F => do need (modOnly f 0 && f.a = 0 && f.b = 0 && f.c = 0); return .vshape c (← decVReg f.dst)
  | 0x20 => do need (modOnly f 0 && f.a = 0 && f.b = 0 && f.c = 0); return .vexp c (← decVReg f.dst)
  | 0x21 => do
    need (modOnly f 0x30 && f.c = 0)
    return .shfl c (← decDst f.dst) (← decSrc f.a) (← decSrc f.b) (decShfl hi)
  | 0x22 => do
    need (modOnly f 0x30 && f.b = 0 && f.c = 0)
    let p ← decPS f.a
    match hi.toNat with
    | 0 => return .vote c (.every (← decP f.dst)) p
    | 1 => return .vote c (.some (← decP f.dst)) p
    | 2 => return .vote c (.same (← decP f.dst)) p
    | _ => return .vote c (.bits (← decDst f.dst)) p
  | 0x23 => do
    need (modOnly f 0xC && f.b = 0)
    return .redx c (← decDst f.dst) (← decSrc f.a) (← (decSel 4 f.c).bind decRed) sat u
  | 0x24 => do
    need (modOnly f 0xC && f.b = 0)
    return .scanx c (← decDst f.dst) (← decSrc f.a) (← (decSel 4 f.c).bind decRed) sat u
  | 0x25 => do need (modOnly f 0); return .xset c (← decP f.dst) (← decSrc f.a) (← decSrc f.b) (← decSrc f.c)
  | 0x26 => do need (modOnly f 0 && f.a = 0 && f.b = 0 && f.c = 0); return .xclr c (← decP f.dst)
  | 0x27 => do
    need (modOnly f 0x30 && f.c = 0); return .plop c (← decP f.dst) (← decPS f.a) (← decPS f.b) (← decPLogic hi)
  | 0x28 => do
    need (modOnly f 0x10 && f.b = 0 && f.c = 0)
    if f.mod.getLsbD 4 then return .pmov c (.toV (← decDst f.dst) (← decPS f.a))
    else return .pmov c (.toP (← decP f.dst) (← decSrc f.a))
  | _ => none

/-- Class 001 (R112). -/
def decFp (f : Fields) : Option Instr :=
  let c := ctlOf f
  let rm := decRMode (f.mod.extractLsb' 0 2)
  let pk := f.mod.extractLsb' 2 2
  match f.op.toNat with
  | 0x01 => do
    need (modOnly f 0xF && f.c = 0); return .fadd c (← decDst f.dst) (← decSrc f.a) (← decSrc f.b) rm (← decPack pk)
  | 0x02 => do
    need (modOnly f 0xF && f.c = 0); return .fsub c (← decDst f.dst) (← decSrc f.a) (← decSrc f.b) rm (← decPack pk)
  | 0x03 => do
    need (modOnly f 0xF && f.c = 0); return .fmul c (← decDst f.dst) (← decSrc f.a) (← decSrc f.b) rm (← decPack pk)
  | 0x04 => do
    need (modOnly f 0xF)
    return .ffma c (← decDst f.dst) (← decSrc f.a) (← decSrc f.b) (← decSrc f.c) rm (← decPack pk)
  | 0x05 => do
    need (modOnly f 0xC && f.c = 0); return .fmin c (← decDst f.dst) (← decSrc f.a) (← decSrc f.b) (← decPack pk)
  | 0x06 => do
    need (modOnly f 0xC && f.c = 0); return .fmax c (← decDst f.dst) (← decSrc f.a) (← decSrc f.b) (← decPack pk)
  | 0x07 => do
    need (modOnly f 0); return .fsetp c (← decP f.dst) (← decSrc f.a) (← decSrc f.b) (decFCmp (← decSel 3 f.c))
  | 0x08 => do
    need (modOnly f 0xF && f.b = 0 && f.c = 0); return .frnd c (← decDst f.dst) (← decSrc f.a) rm (← decPack pk)
  | 0x09 => do need (modOnly f 0 && f.b = 0 && f.c = 0); return .fclass c (← decDst f.dst) (← decSrc f.a)
  | 0x0A => do
    need (modOnly f 0xF && f.c = 0); return .fscale c (← decDst f.dst) (← decSrc f.a) (← decSrc f.b) rm (← decPack pk)
  | 0x0B => do
    need (modOnly f 0xF)
    return .fdot2 c (← decDst f.dst) (← decSrc f.a) (← decSrc f.b) (← decSrc f.c) rm (← decPack pk)
  | 0x0C => do need (modOnly f 0 && f.b = 0 && f.c = 0); return .rcp c (← decDst f.dst) (← decSrc f.a)
  | 0x0D => do need (modOnly f 0 && f.b = 0 && f.c = 0); return .rsq c (← decDst f.dst) (← decSrc f.a)
  | 0x0E => do need (modOnly f 0 && f.b = 0 && f.c = 0); return .sqrt c (← decDst f.dst) (← decSrc f.a)
  | 0x0F => do need (modOnly f 0 && f.b = 0 && f.c = 0); return .ex2 c (← decDst f.dst) (← decSrc f.a)
  | 0x10 => do need (modOnly f 0 && f.b = 0 && f.c = 0); return .lg2 c (← decDst f.dst) (← decSrc f.a)
  | 0x11 => do need (modOnly f 0 && f.b = 0 && f.c = 0); return .sinpi c (← decDst f.dst) (← decSrc f.a)
  | 0x12 => do need (modOnly f 0 && f.b = 0 && f.c = 0); return .cospi c (← decDst f.dst) (← decSrc f.a)
  | 0x13 => do need (modOnly f 0 && f.b = 0 && f.c = 0); return .tanh c (← decDst f.dst) (← decSrc f.a)
  | _ => none

/-- Scope of class 010 and its helm kin (R77). -/
def scopeOf (f : Fields) : Option Scope := decScope (f.mod.extractLsb' 0 3)

/-- Order of class 010 (R77). -/
def orderOf (f : Fields) : Order := decOrder (f.mod.extractLsb' 3 2)

/-- The expected version that a store's descriptor carries (R140). -/
def verOf (d : Desc) : Option (Option (BitVec 8)) :=
  if d.ver then if d.opx.extractLsb' 8 4 = 0 then some (some (d.opx.extractLsb' 0 8)) else none
  else if d.opx = 0 then some none else none

/-- Operation and .u of an atomic descriptor (R141). -/
def atomOf (d : Desc) : Option (AtomOp × Bool) :=
  if d.opx.extractLsb' 5 7 = 0 && !d.opx.getLsbD 3 && !d.ver && !d.sx && !d.raw then
    some (decAtom (d.opx.extractLsb' 0 3), d.opx.getLsbD 4)
  else none

/-- Class 010 (R128). -/
def decMem (f : Fields) : Option Instr :=
  let c := ctlOf f
  match f.op.toNat with
  | 0x01 => do
    need (modOnly f 0x1F)
    let d ← decDesc f.b
    need (d.opx = 0 && !d.ver)
    return .ld c (← decDst f.dst) (← decPair f.a) f.c (orderOf f) (← scopeOf f) d.raw d.sx d.size
  | 0x02 => do
    need (modOnly f 0x1F)
    let d ← decDesc f.dst
    need (!d.sx)
    return .st c (← decPair f.a) (← decSrc f.b) f.c (orderOf f) (← scopeOf f) d.raw (← verOf d) d.size
  | 0x03 => do
    need (modOnly f 0x1F)
    let d ← decDesc f.dst
    need (!d.sx && !d.raw)
    return .qst c (← decPair f.a) (← decSrc f.b) f.c (orderOf f) (← scopeOf f) (← verOf d) d.size
  | 0x04 => do
    let d ← decDesc f.c
    let (op, u) ← atomOf d
    if f.mod.getLsbD 5 then
      need (f.dst = 0)
      return .atom c none (← decPair f.a) (← decSrc f.b) op u (orderOf f) (← scopeOf f) d.size
    else return .atom c (some (← decDst f.dst)) (← decPair f.a) (← decSrc f.b) op u (orderOf f) (← scopeOf f) d.size
  | 0x05 => do
    need (modOnly f 0)
    let d ← decDesc f.dst
    need (d = { opx := 0, ver := false, sx := false, raw := false, size := .b32 })
    return .atomo c (← decPair f.a) (← decSrc f.b) f.c
  | 0x06 => do
    need (f.dst = 0 && f.a = 0 && f.b = 0 && f.c = 0)
    return .fence c (orderOf f) (← scopeOf f) (f.mod.getLsbD 5)
  | 0x07 => do
    need (modOnly f 0x1F)
    let d ← decDesc f.c
    need (d.opx.extractLsb' 3 9 = 0 && !d.ver && !d.sx && !d.raw)
    return .waita c (← decDst f.dst) (← decPair f.a) (← decSrc f.b) (← decWCmp (d.opx.extractLsb' 0 3)) (orderOf f)
      (← scopeOf f) d.size
  | 0x08 => do
    need (modOnly f 0 && f.b = 0)
    let d ← decDesc f.dst
    need (d.opx.extractLsb' 1 11 = 0 && !d.ver && !d.sx && !d.raw && d.size = .b8)
    return .pref c (← decPair f.a) f.c (if d.opx.getLsbD 0 then .tlb else .mc)
  | _ => none

/-- Class 011 (R150, R234). -/
def decCtl (f : Fields) : Option Instr :=
  let c := ctlOf f
  let rest := f.dst = 0 && f.b = 0 && f.c = 0
  match f.op.toNat with
  | 0x01 => do need (modOnly f 0 && f.a = 0 && immOk f); return .bra c f.dst (immOf f)
  | 0x02 => do
    need (modOnly f 1 && f.dst = 0)
    if f.mod.getLsbD 0 then need (f.b = 0 && f.c = 0); return .bru c (.reg (← decSrc f.a))
    else need (f.a = 0 && immOk f); return .bru c (.off (immOf f))
  | 0x03 => do need (modOnly f 0 && f.b = 0 && f.c = 0); return .brx c f.dst (← decSrc f.a)
  | 0x04 => do need (modOnly f 0 && f.dst = 0 && f.a = 0 && immOk f); return .call c (immOf f)
  | 0x05 => do need (modOnly f 0 && rest); return .callx c (← decSrc f.a)
  | 0x06 => do need (modOnly f 0 && rest && f.a = 0); return .ret c
  | 0x07 => do need (modOnly f 0 && rest); return .regang c (← decSrc f.a)
  | 0x08 => do need (modOnly f 0 && rest && f.a = 0); return .exit c
  | 0x09 => do need (modOnly f 0 && rest && f.a = 0); return .yield c
  | 0x0A => do need (modOnly f 0 && rest); return .safe c (← decN f.a)
  | 0x0B => do need (modOnly f 1 && rest); return .xfer c (← decSrc f.a) (f.mod.getLsbD 0)
  | 0x0C => do need (modOnly f 0 && rest); return .trap c (← decN f.a)
  | 0x0D => do need (modOnly f 0 && rest && f.a = 0); return .nop c
  | 0x0E => do need (modOnly f 0 && rest && f.a = 0); return .bkpt c
  | 0x0F => do
    need (modOnly f 0 && f.dst = 0 && f.c = 0); return .bara c (← decSrc f.a) (← decSrc f.b)
  | 0x10 => do need (modOnly f 0 && rest); return .barw c (← decSrc f.a)
  | 0x11 => do
    need (modOnly f 0 && f.dst = 0 && f.c = 0); return .bars c (← decSrc f.a) (← decSrc f.b)
  | 0x12 => do
    need (modOnly f 1 && f.c = 0)
    let p ← if f.mod.getLsbD 0 then (decP f.dst).map some else (need (f.dst = 0)).map fun _ => none
    let n ← if f.b.extractLsb' 0 2 = 3 then (decN f.b).map TwN.imm else (decPair f.b).map TwN.pair
    return .twait c p (← decSel 2 f.a).toFin n
  | 0x13 => do need (modOnly f 0 && f.a = 0 && f.b = 0 && f.c = 0); return .dqpop c (← decDst f.dst)
  | 0x14 => do
    need (modOnly f 0x1F && f.dst = 0 && f.c = 0)
    let v ← if f.b.extractLsb' 0 2 = 3 then (decK f.b).map SigVal.imm else (decPair f.b).map SigVal.pair
    return .sigop c (← decPair f.a) v (← decSigOp (f.mod.extractLsb' 3 2)) (← scopeOf f)
  | _ => none

/-- Class 100 (R223). -/
def decHelm (f : Fields) : Option Instr :=
  let c := ctlOf f
  let u := f.mod.getLsbD 0
  match f.op.toNat with
  | 0x01 => do need (modOnly f 0 && f.c = 0); return .sadd c (← decS f.dst) (← decHSrc f.a) (← decHSrc f.b)
  | 0x02 => do need (modOnly f 0 && f.c = 0); return .ssub c (← decS f.dst) (← decHSrc f.a) (← decHSrc f.b)
  | 0x03 => do need (modOnly f 0 && f.c = 0); return .smul c (← decS f.dst) (← decHSrc f.a) (← decHSrc f.b)
  | 0x04 => do need (modOnly f 0 && f.c = 0); return .sand c (← decHDst f.dst) (← decHSrc f.a) (← decHSrc f.b)
  | 0x05 => do need (modOnly f 0 && f.c = 0); return .sor c (← decHDst f.dst) (← decHSrc f.a) (← decHSrc f.b)
  | 0x06 => do need (modOnly f 0 && f.c = 0); return .sxor c (← decHDst f.dst) (← decHSrc f.a) (← decHSrc f.b)
  | 0x07 => do need (modOnly f 0 && f.c = 0); return .sshl c (← decS f.dst) (← decHSrc f.a) (← decHSrc f.b)
  | 0x08 => do need (modOnly f 0 && f.c = 0); return .sshr c (← decS f.dst) (← decHSrc f.a) (← decHSrc f.b)
  | 0x09 => do need (modOnly f 0 && f.c = 0); return .ssar c (← decS f.dst) (← decHSrc f.a) (← decHSrc f.b)
  | 0x0A => do need (modOnly f 1 && f.c = 0); return .smin c (← decS f.dst) (← decHSrc f.a) (← decHSrc f.b) u
  | 0x0B => do need (modOnly f 1 && f.c = 0); return .smax c (← decS f.dst) (← decHSrc f.a) (← decHSrc f.b) u
  | 0x0C => do
    need (modOnly f 1)
    return .scmp c (← decQ f.dst) (← decHSrc f.a) (← decHSrc f.b) (← (decSel 3 f.c).bind decICmp) u
  | 0x0D => do
    need (modOnly f 0); return .ssel c (← decS f.dst) (← decHSrc f.a) (← decHSrc f.b) (← decQ f.c)
  | 0x0E => do need (modOnly f 0 && f.b = 0 && f.c = 0); return .smov c (← decHDst f.dst) (← decHSrc f.a)
  | 0x0F => do need (modOnly f 1 && f.a = 0 && immOk f); return .smovi c (← decS f.dst) (immOf f) u
  | 0x10 => do
    need (modOnly f 0x1F)
    let d ← decDesc f.b
    need (d.opx = 0 && !d.ver && !d.raw)
    return .sld c (← decS f.dst) (← decS f.a) f.c (orderOf f) (← scopeOf f) d.sx d.size
  | 0x11 => do
    need (modOnly f 0x1F)
    let d ← decDesc f.dst
    need (d.opx = 0 && !d.ver && !d.raw && !d.sx)
    return .sst c (← decS f.a) (← decHSrc f.b) f.c (orderOf f) (← scopeOf f) d.size
  | 0x12 => do
    let d ← decDesc f.c
    let (op, uu) ← atomOf d
    if f.mod.getLsbD 5 then
      need (f.dst = 0)
      return .satom c none (← decS f.a) (← decS f.b) op uu (orderOf f) (← scopeOf f) d.size
    else return .satom c (some (← decS f.dst)) (← decS f.a) (← decS f.b) op uu (orderOf f) (← scopeOf f) d.size
  | 0x13 => do need (modOnly f 0 && f.dst = 0 && f.a = 0 && immOk f); return .sbr c (immOf f)
  | 0x14 => do need (modOnly f 0 && f.dst = 0 && f.b = 0 && f.c = 0); return .sjmp c (← decS f.a)
  | 0x15 => do need (modOnly f 0 && f.dst = 0 && f.a = 0 && immOk f); return .scall c (immOf f)
  | 0x16 => do need (modOnly f 0 && f.dst = 0 && f.a = 0 && f.b = 0 && f.c = 0); return .sret c
  | 0x17 => do need (modOnly f 0 && f.dst = 0 && f.c = 0); return .dqpush c (← decHSrc f.a) (← decHSrc f.b)
  | 0x18 => do
    need (modOnly f 0 && f.dst = 0 && f.c = 0); return .fork c (← decSel 2 f.a).toFin (← decHSrc f.b)
  | 0x19 => do need (modOnly f 0 && f.dst = 0 && f.b = 0 && f.c = 0); return .join c (← decSel 2 f.a).toFin
  | 0x1A => do need (modOnly f 0 && f.dst = 0 && f.a = 0 && f.b = 0 && f.c = 0); return .hend c
  | _ => none

/-- Class 101 (R295, R308). -/
def decCopy (f : Fields) : Option Instr :=
  let c := ctlOf f
  let only := f.dst = 0 && f.b = 0 && f.c = 0
  match f.op.toNat with
  | 0x01 => do need (modOnly f 0 && only); return .cpy c (← decPar f.a)
  | 0x02 => do need (modOnly f 0 && only); return .cpys c (← decPar f.a)
  | 0x03 => do need (modOnly f 0 && only); return .cgath c (← decPar f.a)
  | 0x04 => do need (modOnly f 0 && only); return .cscat c (← decPar f.a)
  | 0x05 => do need (modOnly f 0); return .tgath c (← decPair f.dst) (← decPair f.a) (← decPair f.b) (← decSrc f.c)
  | 0x06 => do need (modOnly f 0 && only); return .cred c (← decPar f.a)
  | 0x07 => do need (modOnly f 0 && only); return .cfill c (← decPar f.a)
  | 0x08 => do need (modOnly f 0 && f.b = 0 && f.c = 0); return .cslot c (← decRes 64 f.dst) (← decPar f.a)
  | 0x09 => do need (modOnly f 1 && only); return .crecode c (← decPar f.a) (f.mod.getLsbD 0)
  | 0x0A => do
    need (f.dst = 0 && f.c = 0)
    if f.mod.getLsbD 5 then
      need (modOnly f 0x20); return .csig c (.bar (← decRes 32 f.a) (← decCnt f.b))
    else
      need (modOnly f 0x1B)
      return .csig c (.sig (← decSigOp (f.mod.extractLsb' 0 2)) (decScope2 (f.mod.extractLsb' 3 2)) (← decPar f.a)
        (← decPC f.b))
  | 0x0B => do
    need (f.dst = 0 && f.c = 0)
    if f.mod.getLsbD 5 then need (modOnly f 0x20 && f.b = 0); return .cwait c (.bar (← decRes 32 f.a))
    else
      return .cwait c (.sig (← decWCmp (f.mod.extractLsb' 0 3)) (decScope2 (f.mod.extractLsb' 3 2)) (← decPar f.a)
        (← decPC f.b))
  | 0x0C => do need (modOnly f 0 && f.dst = 0 && f.c = 0); return .cloop c (← decPC f.a) (← decCnt f.b)
  | 0x0D => do need (modOnly f 0 && only && f.a = 0); return .cend c
  | _ => none

/-- Class 110 (R296). -/
def decMat (f : Fields) : Option Instr :=
  let c := ctlOf f
  match f.op.toNat with
  | 0x01 => do
    need (modOnly f 0); return .mclaim c (← decRes 48 f.dst) (← decRes 64 f.a) (← decCnt f.b) (← decCnt f.c)
  | 0x02 => do
    need (modOnly f 0); return .mrel c (← decRes 48 f.dst) (← decRes 64 f.a) (← decCnt f.b) (← decCnt f.c)
  | 0x03 => do
    need (modOnly f 7 && f.c = 0)
    return .mma c (← decRes 48 f.dst) (← decRes 64 f.a) (← decRes 64 f.b) (← decMma (f.mod.extractLsb' 0 3))
  | 0x04 => do
    need (modOnly f 0); return .mmag c (← decRes 48 f.dst) (← decRes 64 f.a) (← decRes 64 f.b) (← decPar f.c)
  | 0x05 => do need (modOnly f 0 && f.a = 0 && f.b = 0 && f.c = 0); return .mzero c (← decRes 48 f.dst)
  | 0x06 => do
    need (modOnly f 3 && f.dst = 0 && f.c = 0)
    return .mstore c (← decRes 48 f.a) (← decPar f.b) (← decConv (f.mod.extractLsb' 0 2))
  | 0x07 => do need (modOnly f 0 && f.b = 0 && f.c = 0); return .macc c (← decRes 48 f.dst) (← decRes 48 f.a)
  | 0x08 => do need (modOnly f 0 && f.dst = 0 && f.c = 0); return .mbara c (← decRes 32 f.a) (← decCnt f.b)
  | 0x09 => do need (modOnly f 0 && f.dst = 0 && f.b = 0 && f.c = 0); return .mbarw c (← decRes 32 f.a)
  | 0x0A => do
    need (modOnly f 3 && f.dst = 0 && f.c = 0)
    return .mloop c (← decPC f.a) (← decCnt f.b) (decCtr (f.mod.extractLsb' 0 2))
  | 0x0B => do need (modOnly f 0 && f.dst = 0 && f.b = 0 && f.c = 0); return .msave c (← decPar f.a)
  | 0x0C => do need (modOnly f 0 && f.dst = 0 && f.b = 0 && f.c = 0); return .mresume c (← decPar f.a)
  | 0x0D => do need (modOnly f 0 && f.dst = 0 && f.b = 0 && f.c = 0); return .mcur c (← decCnt f.a)
  | 0x0E => do need (modOnly f 0 && f.dst = 0 && f.a = 0 && f.b = 0 && f.c = 0); return .mend c
  | _ => none

/-- Class 111 (R423). -/
def decSys (f : Fields) : Option Instr :=
  let c := ctlOf f
  match f.op.toNat with
  | 0x01 => do
    need (modOnly f 0 && f.b = 0 && f.c = 0); return .csrr c (← decDst f.dst) (fin8 (← decSel 3 f.a))
  | 0x02 => do
    need (modOnly f 0 && f.dst = 0 && f.c = 0); return .csrw c (fin8 (← decSel 3 f.a)) (← decSrc f.b)
  | 0x03 => do need (modOnly f 0 && f.dst = 0 && f.a = 0 && f.b = 0 && f.c = 0); return .trapret c
  | 0x04 => do need (modOnly f 0 && f.dst = 0 && f.b = 0 && f.c = 0); return .cont c (← decSrc f.a)
  | 0x05 => do need (modOnly f 0 && f.dst = 0 && f.a = 0 && f.b = 0 && f.c = 0); return .fresume c
  | _ => none

/-- The instruction that the fields spell, before the checks of WellFormed. -/
def decFields (f : Fields) : Option Instr :=
  match f.cls.toNat with
  | 0 => decInt f
  | 1 => decFp f
  | 2 => decMem f
  | 3 => decCtl f
  | 4 => decHelm f
  | 5 => decCopy f
  | 6 => decMat f
  | _ => decSys f

/-- Decode a word: none where R80 checks 1 and 3 to 5 raise ILLEGAL_INSTRUCTION. -/
def decode (w : IWord) : Option Instr :=
  match decFields (splitWord w) with
  | some i => if i.wf then some i else none
  | none => none

/-- Why bytes are no instruction: fewer than 12, an unassigned opcode, or another pattern of R80 and R81. -/
inductive Reject where
  | short | unassigned | illegal
  deriving DecidableEq, Repr

/-- Decode the first 12 of any bytes, and the bytes after them. -/
def decodeBytes (bs : List Byte) : Except Reject (Instr × List Byte) :=
  if bs.length < 12 then .error .short
  else
    let w := wordOfBytes (bs.take 12)
    if opAssigned (splitWord w) then
      match decode w with
      | some i => .ok (i, bs.drop 12)
      | none => .error .illegal
    else .error .unassigned

/-- The instruction that a table word spells: its 12 bytes as the part stores them (R59), decoded. -/
def decodeTableWord (nbits w : Nat) : Option Instr :=
  if nbits = 0 then none
  else
    match decodeBytes (bytesOfWord (BitVec.ofNat 96 (w % 2 ^ nbits))) with
    | .ok (i, _) => some i
    | .error _ => none

/-! ## The encoder -/

/-- Fields of a word with class, opcode and guard; what an instruction does not use is zero (R62). -/
def mk (cls : BitVec 3) (op : BitVec 7) (c : Ctl) (dst a b e : BitVec 18 := 0) (mod : BitVec 6 := 0) : IWord :=
  packWord { mod := mod, c := e, b := b, a := a, dst := dst, hint := c.hint, inv := BitVec.ofBool c.inv,
             pred := BitVec.ofFin (w := 3) c.pred, cls := cls, op := op }

/-- MOD of class 000: the two high bits, .u, .sat, width (R77). -/
def modInt (hi : BitVec 2) (u sat : Bool) (w : Width) : BitVec 6 :=
  hi ++ BitVec.ofBool u ++ BitVec.ofBool sat ++ encWidth w

/-- MOD of class 001 (R77). -/
def modFp (pk : Pack) (rm : RMode) : BitVec 6 := (0 : BitVec 2) ++ encPack pk ++ encRMode rm

/-- MOD of class 010 (R77). -/
def modMem (top : Bool) (o : Order) (sc : Scope) : BitVec 6 := BitVec.ofBool top ++ encOrder o ++ encScope sc

/-- SRCB and SRCC of an I-form or branch form (R71). -/
def immB (x : BitVec 32) : BitVec 18 := x.extractLsb' 0 18

def immC (x : BitVec 32) : BitVec 18 := (0 : BitVec 4) ++ x.extractLsb' 18 14

/-- A descriptor with OPX and SIZE only. -/
def descOf (opx : BitVec 12) (sz : Size) (ver sx raw : Bool := false) : BitVec 18 :=
  encDesc { opx := opx, ver := ver, sx := sx, raw := raw, size := sz }

/-- The descriptor of a store (R140). -/
def descSt (v : Option (BitVec 8)) (raw : Bool) (sz : Size) : BitVec 18 :=
  match v with
  | none => descOf 0 sz (raw := raw)
  | some n => descOf ((0 : BitVec 4) ++ n) sz (ver := true) (raw := raw)

/-- OPX of an atomic (R141). -/
def opxAtom (op : AtomOp) (u : Bool) : BitVec 12 := (0 : BitVec 7) ++ BitVec.ofBool u ++ (0 : BitVec 1) ++ encAtom op

def encTwN : TwN → BitVec 18
  | .imm n => encN n
  | .pair k => encPair k

def encSigVal : SigVal → BitVec 18
  | .imm i => encK i
  | .pair k => encPair k

/-- A bit in MOD[90]. -/
def mod0 (b : Bool) : BitVec 6 := (0 : BitVec 5) ++ BitVec.ofBool b

/-- The word of an instruction; events have none. -/
def encode : Instr → Option IWord
  | .iadd c d a b w sat u => some (mk 0 0x01 c (encDst d) (encSrc a) (encSrc b) 0 (modInt 0 u sat w))
  | .isub c d a b w sat u => some (mk 0 0x02 c (encDst d) (encSrc a) (encSrc b) 0 (modInt 0 u sat w))
  | .imul c d a b w sat u => some (mk 0 0x03 c (encDst d) (encSrc a) (encSrc b) 0 (modInt 0 u sat w))
  | .imulhi c d a b w u => some (mk 0 0x04 c (encDst d) (encSrc a) (encSrc b) 0 (modInt 0 u false w))
  | .imad c d a b e w sat u => some (mk 0 0x05 c (encDst d) (encSrc a) (encSrc b) (encSrc e) (modInt 0 u sat w))
  | .imin c d a b w u => some (mk 0 0x06 c (encDst d) (encSrc a) (encSrc b) 0 (modInt 0 u false w))
  | .imax c d a b w u => some (mk 0 0x07 c (encDst d) (encSrc a) (encSrc b) 0 (modInt 0 u false w))
  | .iabs c d a w sat => some (mk 0 0x08 c (encDst d) (encSrc a) 0 0 (modInt 0 false sat w))
  | .isetp c p a b cmp u =>
      some (mk 0 0x09 c (encP p) (encSrc a) (encSrc b) (encSel 3 (encICmp cmp)) (modInt 0 u false .w32))
  | .shl c d a b w => some (mk 0 0x0A c (encDst d) (encSrc a) (encSrc b) 0 (modInt 0 false false w))
  | .shr c d a b w => some (mk 0 0x0B c (encDst d) (encSrc a) (encSrc b) 0 (modInt 0 false false w))
  | .sar c d a b w => some (mk 0 0x0C c (encDst d) (encSrc a) (encSrc b) 0 (modInt 0 false false w))
  | .and c d a b => some (mk 0 0x0D c (encDst d) (encSrc a) (encSrc b))
  | .or c d a b => some (mk 0 0x0E c (encDst d) (encSrc a) (encSrc b))
  | .xor c d a b => some (mk 0 0x0F c (encDst d) (encSrc a) (encSrc b))
  | .andn c d a b => some (mk 0 0x10 c (encDst d) (encSrc a) (encSrc b))
  | .lop3 c d a b e tt => some (mk 0 0x11 c (encDst d) (encSrc a) (encSrc b) (tt ++ encReg10 e))
  | .popc c d a w => some (mk 0 0x12 c (encDst d) (encSrc a) 0 0 (modInt 0 false false w))
  | .clz c d a w => some (mk 0 0x13 c (encDst d) (encSrc a) 0 0 (modInt 0 false false w))
  | .brev c d a w => some (mk 0 0x14 c (encDst d) (encSrc a) 0 0 (modInt 0 false false w))
  | .bfx c d a b u => some (mk 0 0x15 c (encDst d) (encSrc a) (encSrc b) 0 (modInt 0 u false .w32))
  | .bfi c d a b e => some (mk 0 0x16 c (encDst d) (encSrc a) (encSrc b) (encSrc e))
  | .sel c d a b p => some (mk 0 0x17 c (encDst d) (encSrc a) (encSrc b) (encPS p))
  | .prmt c d a b e => some (mk 0 0x18 c (encDst d) (encSrc a) (encSrc b) (encSrc e))
  | .idot4 c d a b e sat u => some (mk 0 0x19 c (encDst d) (encSrc a) (encSrc b) (encSrc e) (modInt 0 u sat .w32))
  | .mov c d a => some (mk 0 0x1A c (encDst d) (encSrc a))
  | .movi c d x => some (mk 0 0x1B c (encDst d) 0 (immB x) (immC x))
  | .cvt c d a ty sy rm sat =>
      some (mk 0 0x1C c (encDst d) (encSrc a) 0 (encSel 10 (encRMode rm ++ encCvt ty ++ encCvt sy))
        (modInt 0 false sat .w32))
  | .sread c d n hi =>
      some (mk 0 0x1D c (encDst d) (encSel 4 (BitVec.ofNat 4 n.val)) 0 0 ((0 : BitVec 1) ++ BitVec.ofBool hi ++ (0 : BitVec 4)))
  | .vtag c d a => some (mk 0 0x1E c (encDst d) (encRegSrc a))
  | .vshape c n => some (mk 0 0x1F c (encVReg n))
  | .vexp c n => some (mk 0 0x20 c (encVReg n))
  | .shfl c d a b m => some (mk 0 0x21 c (encDst d) (encSrc a) (encSrc b) 0 (encShfl m ++ (0 : BitVec 4)))
  | .vote c (.every p) a => some (mk 0 0x22 c (encP p) (encPS a) 0 0 0x00)
  | .vote c (.some p) a => some (mk 0 0x22 c (encP p) (encPS a) 0 0 0x10)
  | .vote c (.same p) a => some (mk 0 0x22 c (encP p) (encPS a) 0 0 0x20)
  | .vote c (.bits d) a => some (mk 0 0x22 c (encDst d) (encPS a) 0 0 0x30)
  | .redx c d a op sat u =>
      some (mk 0 0x23 c (encDst d) (encSrc a) 0 (encSel 4 (encRed op)) (modInt 0 u sat .w32))
  | .scanx c d a op sat u =>
      some (mk 0 0x24 c (encDst d) (encSrc a) 0 (encSel 4 (encRed op)) (modInt 0 u sat .w32))
  | .xset c x a b e => some (mk 0 0x25 c (encP x) (encSrc a) (encSrc b) (encSrc e))
  | .xclr c x => some (mk 0 0x26 c (encP x))
  | .plop c p a b op => some (mk 0 0x27 c (encP p) (encPS a) (encPS b) 0 (encPLogic op ++ (0 : BitVec 4)))
  | .pmov c (.toP p a) => some (mk 0 0x28 c (encP p) (encSrc a))
  | .pmov c (.toV d p) => some (mk 0 0x28 c (encDst d) (encPS p) 0 0 0x10)
  | .fadd c d a b rm pk => some (mk 1 0x01 c (encDst d) (encSrc a) (encSrc b) 0 (modFp pk rm))
  | .fsub c d a b rm pk => some (mk 1 0x02 c (encDst d) (encSrc a) (encSrc b) 0 (modFp pk rm))
  | .fmul c d a b rm pk => some (mk 1 0x03 c (encDst d) (encSrc a) (encSrc b) 0 (modFp pk rm))
  | .ffma c d a b e rm pk => some (mk 1 0x04 c (encDst d) (encSrc a) (encSrc b) (encSrc e) (modFp pk rm))
  | .fmin c d a b pk => some (mk 1 0x05 c (encDst d) (encSrc a) (encSrc b) 0 (modFp pk .rn))
  | .fmax c d a b pk => some (mk 1 0x06 c (encDst d) (encSrc a) (encSrc b) 0 (modFp pk .rn))
  | .fsetp c p a b cmp => some (mk 1 0x07 c (encP p) (encSrc a) (encSrc b) (encSel 3 (encFCmp cmp)))
  | .frnd c d a rm pk => some (mk 1 0x08 c (encDst d) (encSrc a) 0 0 (modFp pk rm))
  | .fclass c d a => some (mk 1 0x09 c (encDst d) (encSrc a))
  | .fscale c d a b rm pk => some (mk 1 0x0A c (encDst d) (encSrc a) (encSrc b) 0 (modFp pk rm))
  | .fdot2 c d a b e rm pk => some (mk 1 0x0B c (encDst d) (encSrc a) (encSrc b) (encSrc e) (modFp pk rm))
  | .rcp c d a => some (mk 1 0x0C c (encDst d) (encSrc a))
  | .rsq c d a => some (mk 1 0x0D c (encDst d) (encSrc a))
  | .sqrt c d a => some (mk 1 0x0E c (encDst d) (encSrc a))
  | .ex2 c d a => some (mk 1 0x0F c (encDst d) (encSrc a))
  | .lg2 c d a => some (mk 1 0x10 c (encDst d) (encSrc a))
  | .sinpi c d a => some (mk 1 0x11 c (encDst d) (encSrc a))
  | .cospi c d a => some (mk 1 0x12 c (encDst d) (encSrc a))
  | .tanh c d a => some (mk 1 0x13 c (encDst d) (encSrc a))
  | .ld c d k off o sc raw sx sz =>
      some (mk 2 0x01 c (encDst d) (encPair k) (descOf 0 sz (sx := sx) (raw := raw)) off (modMem false o sc))
  | .st c k v off o sc raw ver sz =>
      some (mk 2 0x02 c (descSt ver raw sz) (encPair k) (encSrc v) off (modMem false o sc))
  | .qst c k v off o sc ver sz =>
      some (mk 2 0x03 c (descSt ver false sz) (encPair k) (encSrc v) off (modMem false o sc))
  | .atom c (some d) k v op u o sc sz =>
      some (mk 2 0x04 c (encDst d) (encPair k) (encSrc v) (descOf (opxAtom op u) sz) (modMem false o sc))
  | .atom c none k v op u o sc sz =>
      some (mk 2 0x04 c 0 (encPair k) (encSrc v) (descOf (opxAtom op u) sz) (modMem true o sc))
  | .atomo c k v off => some (mk 2 0x05 c (descOf 0 .b32) (encPair k) (encSrc v) off)
  | .fence c o sc fl => some (mk 2 0x06 c 0 0 0 0 (modMem fl o sc))
  | .waita c d k v cmp o sc sz =>
      some (mk 2 0x07 c (encDst d) (encPair k) (encSrc v) (descOf ((0 : BitVec 9) ++ encWCmp cmp) sz)
        (modMem false o sc))
  | .pref c k off kind => some (mk 2 0x08 c (descOf (if kind = .tlb then 1 else 0) .b8) (encPair k) 0 off)
  | .bra c rc x => some (mk 3 0x01 c rc 0 (immB x) (immC x))
  | .bru c (.off x) => some (mk 3 0x02 c 0 0 (immB x) (immC x))
  | .bru c (.reg a) => some (mk 3 0x02 c 0 (encSrc a) 0 0 1)
  | .brx c rc a => some (mk 3 0x03 c rc (encSrc a))
  | .call c x => some (mk 3 0x04 c 0 0 (immB x) (immC x))
  | .callx c a => some (mk 3 0x05 c 0 (encSrc a))
  | .ret c => some (mk 3 0x06 c)
  | .regang c a => some (mk 3 0x07 c 0 (encSrc a))
  | .exit c => some (mk 3 0x08 c)
  | .yield c => some (mk 3 0x09 c)
  | .safe c n => some (mk 3 0x0A c 0 (encN n))
  | .xfer c a bk => some (mk 3 0x0B c 0 (encSrc a) 0 0 (mod0 bk))
  | .trap c n => some (mk 3 0x0C c 0 (encN n))
  | .nop c => some (mk 3 0x0D c)
  | .bkpt c => some (mk 3 0x0E c)
  | .bara c b n => some (mk 3 0x0F c 0 (encSrc b) (encSrc n))
  | .barw c b => some (mk 3 0x10 c 0 (encSrc b))
  | .bars c b n => some (mk 3 0x11 c 0 (encSrc b) (encSrc n))
  | .twait c (some p) k n => some (mk 3 0x12 c (encP p) (encSel 2 (BitVec.ofFin (w := 2) k)) (encTwN n) 0 1)
  | .twait c none k n => some (mk 3 0x12 c 0 (encSel 2 (BitVec.ofFin (w := 2) k)) (encTwN n))
  | .dqpop c d => some (mk 3 0x13 c (encDst d))
  | .sigop c k v op sc =>
      some (mk 3 0x14 c 0 (encPair k) (encSigVal v) 0 ((0 : BitVec 1) ++ encSigOp op ++ encScope sc))
  | .sadd c d a b => some (mk 4 0x01 c (encS d) (encHSrc a) (encHSrc b))
  | .ssub c d a b => some (mk 4 0x02 c (encS d) (encHSrc a) (encHSrc b))
  | .smul c d a b => some (mk 4 0x03 c (encS d) (encHSrc a) (encHSrc b))
  | .sand c d a b => some (mk 4 0x04 c (encHDst d) (encHSrc a) (encHSrc b))
  | .sor c d a b => some (mk 4 0x05 c (encHDst d) (encHSrc a) (encHSrc b))
  | .sxor c d a b => some (mk 4 0x06 c (encHDst d) (encHSrc a) (encHSrc b))
  | .sshl c d a b => some (mk 4 0x07 c (encS d) (encHSrc a) (encHSrc b))
  | .sshr c d a b => some (mk 4 0x08 c (encS d) (encHSrc a) (encHSrc b))
  | .ssar c d a b => some (mk 4 0x09 c (encS d) (encHSrc a) (encHSrc b))
  | .smin c d a b u => some (mk 4 0x0A c (encS d) (encHSrc a) (encHSrc b) 0 (mod0 u))
  | .smax c d a b u => some (mk 4 0x0B c (encS d) (encHSrc a) (encHSrc b) 0 (mod0 u))
  | .scmp c q a b cmp u =>
      some (mk 4 0x0C c (encQ q) (encHSrc a) (encHSrc b) (encSel 3 (encICmp cmp)) (mod0 u))
  | .ssel c d a b q => some (mk 4 0x0D c (encS d) (encHSrc a) (encHSrc b) (encQ q))
  | .smov c d a => some (mk 4 0x0E c (encHDst d) (encHSrc a))
  | .smovi c d x hi => some (mk 4 0x0F c (encS d) 0 (immB x) (immC x) (mod0 hi))
  | .sld c d a off o sc sx sz =>
      some (mk 4 0x10 c (encS d) (encS a) (descOf 0 sz (sx := sx)) off (modMem false o sc))
  | .sst c a b off o sc sz => some (mk 4 0x11 c (descOf 0 sz) (encS a) (encHSrc b) off (modMem false o sc))
  | .satom c (some d) a b op u o sc sz =>
      some (mk 4 0x12 c (encS d) (encS a) (encS b) (descOf (opxAtom op u) sz) (modMem false o sc))
  | .satom c none a b op u o sc sz =>
      some (mk 4 0x12 c 0 (encS a) (encS b) (descOf (opxAtom op u) sz) (modMem true o sc))
  | .sbr c x => some (mk 4 0x13 c 0 0 (immB x) (immC x))
  | .sjmp c a => some (mk 4 0x14 c 0 (encS a))
  | .scall c x => some (mk 4 0x15 c 0 0 (immB x) (immC x))
  | .sret c => some (mk 4 0x16 c)
  | .dqpush c v m => some (mk 4 0x17 c 0 (encHSrc v) (encHSrc m))
  | .fork c k e => some (mk 4 0x18 c 0 (encSel 2 (BitVec.ofFin (w := 2) k)) (encHSrc e))
  | .join c k => some (mk 4 0x19 c 0 (encSel 2 (BitVec.ofFin (w := 2) k)))
  | .hend c => some (mk 4 0x1A c)
  | .cpy c p => some (mk 5 0x01 c 0 (encPar p))
  | .cpys c p => some (mk 5 0x02 c 0 (encPar p))
  | .cgath c p => some (mk 5 0x03 c 0 (encPar p))
  | .cscat c p => some (mk 5 0x04 c 0 (encPar p))
  | .tgath c d a b len => some (mk 5 0x05 c (encPair d) (encPair a) (encPair b) (encSrc len))
  | .cred c p => some (mk 5 0x06 c 0 (encPar p))
  | .cfill c p => some (mk 5 0x07 c 0 (encPar p))
  | .cslot c m p => some (mk 5 0x08 c (encRes m) (encPar p))
  | .crecode c p t => some (mk 5 0x09 c 0 (encPar p) 0 0 (mod0 t))
  | .csig c (.sig op sc p v) =>
      some (mk 5 0x0A c 0 (encPar p) (encPC v) 0 ((0 : BitVec 1) ++ encScope2 sc ++ (0 : BitVec 1) ++ encSigOp op))
  | .csig c (.bar b n) => some (mk 5 0x0A c 0 (encRes b) (encCnt n) 0 0x20)
  | .cwait c (.sig cmp sc p v) =>
      some (mk 5 0x0B c 0 (encPar p) (encPC v) 0 ((0 : BitVec 1) ++ encScope2 sc ++ encWCmp cmp))
  | .cwait c (.bar b) => some (mk 5 0x0B c 0 (encRes b) 0 0 0x20)
  | .cloop c n len => some (mk 5 0x0C c 0 (encPC n) (encCnt len))
  | .cend c => some (mk 5 0x0D c)
  | .mclaim c a m ns nt => some (mk 6 0x01 c (encRes a) (encRes m) (encCnt ns) (encCnt nt))
  | .mrel c a m ns nt => some (mk 6 0x02 c (encRes a) (encRes m) (encCnt ns) (encCnt nt))
  | .mma c d a b k => some (mk 6 0x03 c (encRes d) (encRes a) (encRes b) 0 ((0 : BitVec 3) ++ encMma k))
  | .mmag c d x g p => some (mk 6 0x04 c (encRes d) (encRes x) (encRes g) (encPar p))
  | .mzero c d => some (mk 6 0x05 c (encRes d))
  | .mstore c a p v => some (mk 6 0x06 c 0 (encRes a) (encPar p) 0 ((0 : BitVec 4) ++ encConv v))
  | .macc c d a => some (mk 6 0x07 c (encRes d) (encRes a))
  | .mbara c b n => some (mk 6 0x08 c 0 (encRes b) (encCnt n))
  | .mbarw c b => some (mk 6 0x09 c 0 (encRes b))
  | .mloop c n len r => some (mk 6 0x0A c 0 (encPC n) (encCnt len) 0 ((0 : BitVec 4) ++ encCtr r))
  | .msave c p => some (mk 6 0x0B c 0 (encPar p))
  | .mresume c p => some (mk 6 0x0C c 0 (encPar p))
  | .mcur c p => some (mk 6 0x0D c 0 (encCnt p))
  | .mend c => some (mk 6 0x0E c)
  | .csrr c d n => some (mk 7 0x01 c (encDst d) (encSel 3 (BitVec.ofFin (w := 3) n)))
  | .csrw c n a => some (mk 7 0x02 c 0 (encSel 3 (BitVec.ofFin (w := 3) n)) (encSrc a))
  | .trapret c => some (mk 7 0x03 c)
  | .cont c a => some (mk 7 0x04 c 0 (encSrc a))
  | .fresume c => some (mk 7 0x05 c)
  | _ => none

end Sys2Proof
end

