-- ==== Sys2Proof/Machine/Format.lean ====
section
/-!
DEFINITION. Codes of format pages: their places (R20, R250), dither (R25, R26), Decode (R27) and QuantiseToGrid (R30).
Formats are the codes 3 to 7 of R22.
-/
namespace Sys2Proof.Machine

open Sys2Proof

/-! ## Places of codes (R20, R250) -/

/-- Bytes of a page's frame (R250). -/
def frameSize (f : Nat) : Nat := if f = 6 then 32768 else if f = 7 then 16384 else 65536

/-- Codes to a byte (R20). -/
def perByte (f : Nat) : Nat := if f = 6 then 2 else if f = 7 then 5 else 1

/-- The byte of element i of a page, and its place in the byte (R250). -/
def elemPlace (f i : Nat) : Nat × Nat := (i / perByte f, i % perByte f)

/-- The code at a place of a byte: a byte, a nibble or a digit (R20). -/
def codeAt (f : Nat) (b : Byte) (sub : Nat) : Nat :=
  if f = 6 then b.toNat / 16 ^ sub % 16 else if f = 7 then b.toNat / 3 ^ sub % 3 else b.toNat

/-- Whether a byte is a reserved ternary byte (R21). -/
def reservedTern (f : Nat) (b : Byte) : Bool := f = 7 && b.toNat ≥ 243

/-- A code merged into its byte: a reserved ternary byte first takes zero digits, and the last byte of a ternary page
keeps only its digit 0 (R21, R139). -/
def mergeCode (f : Nat) (old : Byte) (sub code : Nat) (last : Bool) : Byte :=
  if f = 6 then BitVec.ofNat 8 (if sub = 0 then old.toNat / 16 * 16 + code % 16 else code % 16 * 16 + old.toNat % 16)
  else if f = 7 then
    let o := if old.toNat ≥ 243 then 0 else old.toNat
    let n := o - o / 3 ^ sub % 3 * 3 ^ sub + code % 3 * 3 ^ sub
    BitVec.ofNat 8 (if last then n % 3 else n)
  else BitVec.ofNat 8 code

/-- The integer of an integer or ternary code (R20). -/
def intOfCode (f c : Nat) : Int :=
  if f = 5 then sextN 8 c else if f = 6 then sextN 4 c else if c = 1 then 1 else if c = 2 then -1 else 0

/-- The floating-point format of an FP8 code (R22). -/
def fp8Of (f : Nat) : Fmt := if f = 3 then .e4m3f else .e5m2

/-- Whether a format is FP8. -/
def isFp8 (f : Nat) : Bool := f = 3 || f = 4

/-! ## Dither (R25, R26) -/

/-- The index into the table of 1,024 entries that domain index e selects (R25). -/
def ditherIndex (e : Nat) : Nat := (e ^^^ (e / 2 ^ 10) ^^^ (e / 2 ^ 20) ^^^ (e / 2 ^ 30)) % 1024

/-- The two-bit entry that index t selects from its byte (R25). -/
def ditherCode (b : Byte) (t : Nat) : Nat := b.toNat / 4 ^ (t % 4) % 4

/-- The dither in eighths of table entry c (R26). -/
def ditherOf (f c : Nat) : Int := if f = 7 then (if c % 2 = 1 then 2 else -2) else 2 * c - 3

/-! ## Decoding (R27) -/

/-- The exact point q − d·u(q) of a code, with d in eighths (R26, R27). A zero takes the sign of a −0 code. -/
def present (f c : Nat) (d8 : Int) : FVal :=
  let point (neg : Bool) (m : Int) (e : Int) : FVal :=
    let n : Int := (if neg then -8 * m else 8 * m) - d8
    .fin (if n = 0 then neg else n < 0) n.natAbs (e - 3)
  if isFp8 f then
    match unpackF (fp8Of f) c with
    | .fin neg m e => point neg m e
    | x => x
  else
    let n : Int := 8 * intOfCode f c - d8
    .fin (n < 0) n.natAbs (-3)

/-- A block scale's exact value, if it is a positive finite BF16 (R27). -/
def scaleDy (s : BitVec 16) : Option Dy :=
  match unpackF .bf16 s.toNat with
  | .fin false m e => if m = 0 then none else some { m := m, e := e }
  | _ => none

/-- Decode(f, c, e, s) with the byte that holds c, its place and its dither (R27). -/
def decodeElem (f : Nat) (b : Byte) (sub : Nat) (d8 : Int) (s : BitVec 16) : Word × Flags :=
  if reservedTern f b then (0x7FC00000, Flags.corrupt)
  else
    match scaleDy s with
    | none => (0x7FC00000, Flags.invalidScale)
    | some k =>
      match present f (codeAt f b sub) d8 with
      | .nan _ => (0x7FC00000, 0)
      | .inf neg => (BitVec.ofNat 32 (Fmt.f32.inf neg), 0)
      | .fin neg m e =>
        let (w, fl) := roundDy .f32 .rn neg (({ m := if neg then -(m : Int) else m, e := e } : Dy).mul k)
        (BitVec.ofNat 32 w, fl)

/-! ## Quantising (R29 to R31) -/

/-- The codes on the grid (R29); +0 stands for both zeros. -/
def gridCodes (f : Nat) : List Nat :=
  if f = 5 then (List.range 256).filter (· != 128)
  else if f = 6 then (List.range 16).filter (· != 8)
  else if f = 7 then [0, 1, 2]
  else (List.range 256).filter fun c => c != 128 && (match unpackF (fp8Of f) c with | .fin _ _ _ => true | _ => false)

/-- Whether a tie goes to a code: an even last significand bit, or an even integer (R30). -/
def evenCode (f c : Nat) : Bool := if isFp8 f then c % 2 = 0 else intOfCode f c % 2 = 0

/-- The code of the outermost point on a side (R29, R30). -/
def outerCode (f : Nat) (neg : Bool) : Nat :=
  if f = 3 then (if neg then 0xFE else 0x7E)
  else if f = 4 then (if neg then 0xFB else 0x7B)
  else if f = 5 then (if neg then 0x81 else 0x7F)
  else if f = 6 then (if neg then 0x9 else 0x7)
  else (if neg then 2 else 1)

/-- The nearest of the codes to x, by the exact distance of x from each point times the scale (R30). -/
def nearest (f : Nat) (d8 : Int) (k x : Dy) : List Nat → Dy × Nat → Nat
  | [], b => b.2
  | c :: r, b =>
    let dist := (x.sub (((present f c d8).dy).mul k)).abs
    nearest f d8 k x r (if dist.lt b.1 || (dist.eq b.1 && evenCode f c) then (dist, c) else b)

/-- QuantiseToGrid (R30, R31): the code of a value at a scale and a dither. -/
def quantise (f : Nat) (x : FVal) (d8 : Int) (s : BitVec 16) : Nat × Flags :=
  let bad := if isFp8 f then (fp8Of f).nan else 0
  match scaleDy s with
  | none => (bad, Flags.invalidScale)
  | some k =>
    match x with
    | .nan _ => (bad, Flags.invalid)
    | .inf neg =>
      if f = 4 then (Fmt.e5m2.inf neg, 0) else (outerCode f neg, Flags.saturate ||| Flags.inexact)
    | .fin neg _ _ =>
      let v := x.dy
      let at_ (c : Nat) : Dy := ((present f c d8).dy).mul k
      if v.lt (at_ (outerCode f true)) then (outerCode f true, Flags.saturate ||| Flags.inexact)
      else if (at_ (outerCode f false)).lt v then (outerCode f false, Flags.saturate ||| Flags.inexact)
      else
        let c := nearest f d8 k v (gridCodes f) ((v.sub (at_ 0)).abs, 0)
        let z := if isFp8 f && c = 0 && d8 = 0 && neg then 0x80 else c
        (z, Flags.when (!(at_ c).eq v) Flags.inexact)

end Sys2Proof.Machine
end

