-- ==== Sys2Proof/Machine/Translate.lean ====
section
/-!
DEFINITION. Address translation (R375 to R379), fabric endpoints (R367), format entries (R247 to R250), and the checks of
one access in the order of R134.
-/
namespace Sys2Proof.Machine

open Sys2Proof

/-- Why an access does not go on: a fault with its address, or a page that is not present (R134, R380). -/
inductive AErr where
  | fault (code : FCode) (addr : Nat)
  | absent (ctx va : Nat)
  deriving DecidableEq, Repr

/-- Kinds of access, in the order of KIND of R382. -/
inductive AKind where
  | load | store | atomic | fetch | engR | engW | inR | inW | tbl
  deriving DecidableEq, Repr

/-- KIND of a fault-ring record (R382; log 80, DEDUCED). -/
def AKind.num : AKind → BitVec 4
  | .load => 0 | .store => 1 | .atomic => 2 | .fetch => 3 | .engR => 4 | .engW => 5 | .inR => 6 | .inW => 6 | .tbl => 7

/-- Whether a kind needs W (R378). -/
def AKind.writes : AKind → Bool
  | .store | .atomic | .engW | .inW => true
  | _ => false

/-! ## The walk (R376 to R378) -/

/-- The page that holds an address (R382). -/
def pageBase (va : Nat) : Nat := va / 65536 * 65536

/-- Where a walk ends. -/
inductive WalkRes where
  | leaf (e : TlbEnt)
  | absent
  | malformed
  deriving DecidableEq, Repr

/-- One level of R376: the lowest index bit, index bits, alignment of the next table (0 where a leaf must stand), and the
bytes a leaf maps (0 where none may stand). -/
structure Lvl where
  lo : Nat
  bits : Nat
  next : Nat
  page : Nat

/-- The levels of R376. -/
def levels : List Lvl :=
  [{ lo := 39, bits := 17, next := 8192, page := 0 }, { lo := 30, bits := 9, next := 8192, page := 2 ^ 30 },
   { lo := 21, bits := 9, next := 512, page := 2 ^ 21 }, { lo := 16, bits := 5, next := 0, page := 65536 }]

/-- ADDR of an entry (R377). -/
def pteAddr (e : Nat) : Nat := bitsOf e 64 56

/-- Whether a present entry at a level is malformed (R377, R378; log 33, DEDUCED). -/
def pteBad (l : Lvl) (e : Nat) : Bool :=
  let rsv := bitsOf e 120 8 != 0 || bitsOf e 24 40 != 0 || bitsOf e 14 2 != 0 || bitsOf e 7 1 != 0
  let leaf := bitsOf e 1 1 = 1
  if leaf then
    rsv || l.page = 0 || (bitsOf e 3 1 = 1 && bitsOf e 4 1 = 1) || (bitsOf e 5 1 = 0 && bitsOf e 16 8 != 0) ||
    pteAddr e % (if l.page = 65536 && bitsOf e 8 6 != 0 then 16384 else max l.page 1) != 0
  else rsv || l.next = 0 || bitsOf e 2 12 != 0 || bitsOf e 16 8 != 0 || pteAddr e % max l.next 1 != 0

/-- The walk from a table (R376, R378). -/
def walkTable (m : Mem) (ctx va : Nat) : List Lvl → Nat → WalkRes
  | [], _ => .malformed
  | l :: r, table =>
    let e := memNat m (table + 16 * bitsOf va l.lo l.bits) 16
    if e % 2 = 0 then .absent
    else if pteBad l e then .malformed
    else if bitsOf e 1 1 = 1 then
      .leaf { ctx := ctx, va := va / max l.page 1 * max l.page 1, len := l.page, pte := BitVec.ofNat 128 e }
    else walkTable m ctx va r (pteAddr e)

/-- A cached leaf for an address (R379). -/
def findTlb (l : List TlbEnt) (ctx va : Nat) : Option TlbEnt :=
  l.find? fun t => t.ctx = ctx && t.va ≤ va && va < t.va + t.len

/-- The die of a core (R2). -/
def dieOf (c : Fin 256) : Fin 4 := Fin.ofNat 4 (c.val / 64)

/-- A translation that a core's TLB or its die's holds; an agent with no core has none (R379). -/
def cachedLeaf (s : State) (who : Option (Fin 256)) (ctx : Fin 64) (va : Nat) : Option TlbEnt :=
  who.bind fun c =>
    match findTlb s.cores[c].tlb ctx.val va with
    | some t => some t
    | none => findTlb s.dieTlb[dieOf c] ctx.val va

/-- The leaf entry of an address: cached, or from a walk (R379). While VALID is 0 no address of the context translates
(R375; log 93, DEDUCED). -/
def leafOf (s : State) (who : Option (Fin 256)) (ctx : Fin 64) (va : Nat) : WalkRes :=
  if !s.ctxs[ctx].valid then .malformed
  else
    match cachedLeaf s who ctx va with
    | some t => .leaf t
    | none => walkTable s.mem ctx.val va levels s.ctxs[ctx].root.toNat

/-- A translation added to a TLB of n entries, the oldest dropped (R379, log 15, DEDUCED). -/
def addTlb (n : Nat) (l : List TlbEnt) (t : TlbEnt) : List TlbEnt := if l.contains t then l else (t :: l).take n

/-- A page of the staging pool has been accessed (R360). -/
def noteUse (s : State) (ctx : Fin 64) (va : Nat) : State :=
  if s.staged.isEmpty then s
  else { s with staged := s.staged.map fun x => if x.ctx = ctx && x.va ≤ va && va < x.va + x.len then { x with last := s.tick } else x }

/-- The TLBs after an access used a translation (R379), and the use of a staged page (R360). -/
def touch (s : State) (who : Option (Fin 256)) (ctx : Fin 64) (va : Nat) : State :=
  match who, leafOf s who ctx va with
  | some c, .leaf t =>
    let s1 := modCore (noteUse s ctx va) c fun k => { k with tlb := addTlb 512 k.tlb t }
    { s1 with dieTlb := s1.dieTlb.set (dieOf c) (addTlb 65536 s1.dieTlb[dieOf c] t) }
  | _, _ => s

/-! ## Pages -/

/-- What a leaf says of an address: tier, the place of the address (of the frame, on a format page), endpoint, format
index, and MIG (R377). -/
structure Page where
  tier : Bool
  base : Nat
  ep : Nat
  fmt : Nat
  mig : Bool
  deriving DecidableEq, Repr

/-- Whether an address lies in the span window (R241). -/
def inSpan (va : Nat) : Bool := Config.spanBase ≤ va && va < Config.spanBase + Config.spanWindow

/-- Whether endpoint entry ep of a context is usable (R367). -/
def endpointOk (s : State) (ctx : Fin 64) (ep : Nat) : Bool :=
  let e := memNat s.mem (s.ctxs[ctx].eptab.toNat + 32 * ep) 32
  bitsOf e 128 1 = 1 && bitsOf e 224 2 != 3 && bitsOf e 226 30 = 0 && bitsOf e 129 47 = 0

/-- Translate an address outside the span window for an access of a kind (R134 step 2, R367, R375, R378). A large page
with a format index fails at step 3 (R248). -/
def pageOf (s : State) (who : Option (Fin 256)) (ctx : Fin 64) (k : AKind) (va : Nat) : Except AErr Page :=
  let bad : FCode := if k = .fetch then .execProtection else .protection
  match leafOf s who ctx va with
  | .absent => .error (.absent ctx.val va)
  | .malformed => .error (.fault bad va)
  | .leaf t =>
    let e := t.pte.toNat
    let tier : Bool := bitsOf e 5 1 = 1
    let fmt := bitsOf e 8 6
    let big : Bool := t.len != 65536
    let p : Page :=
      { tier := tier, base := if fmt = 0 || big then pteAddr e + (va - t.va) else pteAddr e, ep := bitsOf e 16 8,
        fmt := fmt, mig := bitsOf e 6 1 = 1 }
    if k = .fetch then
      if bitsOf e 4 1 = 1 && !tier && fmt = 0 then .ok p else .error (.fault .execProtection va)
    else if bitsOf e (if k.writes then 3 else 2) 1 = 0 then .error (.fault .protection va)
    else if tier && !endpointOk s ctx p.ep then .error (.fault .protection va)
    else if big && fmt != 0 then .error (.fault .formatMismatch va)
    else .ok p

/-- The place of byte off of a page. A frame that lies above the part's memory (R4) is held like any other: the manual says
nothing of it (log 16, DESIGN CHOICE). -/
def placeOf (ctx : Fin 64) (p : Page) (off : Nat) : Loc :=
  if p.tier then .fab ctx.val p.ep (p.base + off) else .dev (p.base + off)

/-! ## Uncorrectable data (R429, R431) -/

/-- Whether a read meets uncorrectable data (R429, R431). -/
def poisonAt (s : State) (l : Loc) (n : Nat) : Bool :=
  match l with
  | .dev a => (unitsOf 32 a n).any s.badGranules.contains
  | .span o => (unitsOf 8 o n).any s.badSpan.contains
  | .fab _ _ _ => false

/-! ## Format entries and elements (R247 to R250) -/

/-- A usable format entry (R247). -/
structure FEnt where
  fmt : Nat
  den : Bool
  blockLen : Nat
  scaleBase : Nat
  domain : Nat
  dither : Nat
  deriving DecidableEq, Repr

/-- Format entry idx of a context, as memory holds it when it is used, unless R248 rejects it (R249; log 123, DESIGN CHOICE). -/
def fmtEnt (s : State) (ctx : Fin 64) (idx : Nat) : Option FEnt :=
  let e := memNat s.mem (s.ctxs[ctx].fmttab.toNat + 32 * idx) 32
  let f := bitsOf e 0 4
  let lc := bitsOf e 4 3
  if bitsOf e 8 1 = 0 || f < 3 || f > 7 || lc > 5 || bitsOf e 216 40 != 0 || bitsOf e 136 32 != 0 ||
     bitsOf e 88 8 != 0 || bitsOf e 9 24 != 0 then none
  else
    some { fmt := f, den := bitsOf e 7 1 = 1, blockLen := if lc = 0 then 0 else 8 * 2 ^ lc, scaleBase := bitsOf e 32 56,
           domain := bitsOf e 96 40, dither := bitsOf e 160 56 }

/-- The entry of a format page, with its frame aligned to the entry's frame size (R248). -/
def pageEnt (s : State) (ctx : Fin 64) (p : Page) (va : Nat) : Except AErr FEnt :=
  match fmtEnt s ctx p.fmt with
  | none => .error (.fault .formatMismatch va)
  | some e => if p.base % frameSize e.fmt = 0 then .ok e else .error (.fault .formatMismatch va)

/-- Where a byte of a scale, a dither table, a descriptor or a list lies: on a plain page of device or fabric memory; the
span holds none (R241, R248, R249). -/
def auxLoc (s : State) (who : Option (Fin 256)) (ctx : Fin 64) (k : AKind) (va : Nat) : Except AErr Loc :=
  if va ≥ Config.vaLimit || (inSpan va && va ≥ Config.spanBase + Config.spanSize) then .error (.fault .protection va)
  else if inSpan va then .error (.fault .formatMismatch va)
  else
    match pageOf s who ctx k va with
    | .error e => .error e
    | .ok p => if p.fmt != 0 then .error (.fault .formatMismatch va) else .ok (placeOf ctx p 0)

/-- n bytes from such a place; those of fabric memory are free (log 14, DESIGN CHOICE). -/
def auxHere (s : State) (l : Loc) (n : Nat) : List Byte :=
  match l with
  | .dev a => memRead s.mem a n
  | .span _ => List.replicate n 0
  | .fab _ e a => (List.range n).map fun i => Config.remote e (a + i) s.tick

/-- Whether the read of n bytes of such a place meets uncorrectable data or fails (R370, R431; log 14, DESIGN CHOICE). -/
def auxBad (s : State) (l : Loc) (n : Nat) : Bool :=
  match l with
  | .fab _ e a => Config.remoteFails e a s.tick
  | l => poisonAt s l n

/-- A byte of a scale, a dither table, a descriptor or a list (R248, R249). -/
def auxByte (s : State) (who : Option (Fin 256)) (ctx : Fin 64) (k : AKind) (va : Nat) : Except AErr Byte :=
  (auxLoc s who ctx k va).map fun l => (auxHere s l 1).headD 0

/-- n bytes at a virtual address, each read as auxByte gives. -/
def auxEach (s : State) (who : Option (Fin 256)) (ctx : Fin 64) (k : AKind) : Nat → Nat → Except AErr (List Byte)
  | 0, _ => .ok []
  | n + 1, va =>
    match auxByte s who ctx k va with
    | .error e => .error e
    | .ok b => (auxEach s who ctx k n (va + 1)).map (b :: ·)

/-- n bytes on one page: one translation serves them all. -/
def auxRun (s : State) (who : Option (Fin 256)) (ctx : Fin 64) (k : AKind) (n va : Nat) : Except AErr (List Byte) :=
  (auxLoc s who ctx k va).map fun l => auxHere s l n

/-- n bytes at a virtual address, those of the first page together. -/
def auxBytes (s : State) (who : Option (Fin 256)) (ctx : Fin 64) (k : AKind) (n va : Nat) : Except AErr (List Byte) :=
  let n1 := min n (65536 - va % 65536)
  if n = 0 then .ok []
  else if n1 = n then auxRun s who ctx k n va
  else
    match auxRun s who ctx k n1 va with
    | .error e => .error e
    | .ok a => (auxEach s who ctx k (n - n1) (va + n1)).map (a ++ ·)

/-- A little-endian number of n bytes at a virtual address. -/
def auxNat (s : State) (who : Option (Fin 256)) (ctx : Fin 64) (k : AKind) (n va : Nat) : Except AErr Nat :=
  (auxBytes s who ctx k n va).map leNat

/-- The domain index of an element address (R250). -/
def domainIndex (e : FEnt) (va : Nat) : Nat := (va + 2 ^ 40 - e.domain) % 2 ^ 40

/-- Where the scale of domain index i lies (R249). -/
def scaleAddr (e : FEnt) (i : Nat) : Nat := e.scaleBase + (if e.blockLen = 0 then 0 else 2 * (i / e.blockLen))

/-- The bytes of the scales and dither entries of n elements from an address on (R249, R358; log 38, DESIGN CHOICE). -/
def auxWork (e : FEnt) (va n : Nat) : Nat :=
  let at_ := (List.range n).map fun i => domainIndex e (va + i)
  2 * ((at_.map (scaleAddr e)).eraseDups).length +
    (if e.den then ((at_.map fun i => ditherIndex i / 4).eraseDups).length else 0)

/-- The places of the two bytes of an element's block scale (R27, R249). -/
def scaleLocs (s : State) (who : Option (Fin 256)) (ctx : Fin 64) (k : AKind) (e : FEnt) (va : Nat) :
    Except AErr (Loc × Loc) :=
  let a := scaleAddr e (domainIndex e va)
  match auxLoc s who ctx k a, auxLoc s who ctx k (a + 1) with
  | .ok lo, .ok hi => .ok (lo, hi)
  | .error x, _ => .error x
  | _, .error x => .error x

/-- The place of the byte that holds an element's dither entry, none where the format is undithered (R25, R249). -/
def ditherLoc (s : State) (who : Option (Fin 256)) (ctx : Fin 64) (k : AKind) (e : FEnt) (va : Nat) :
    Except AErr (Option Loc) :=
  if e.den then (auxLoc s who ctx k (e.dither + ditherIndex (domainIndex e va) / 4)).map some else .ok none

/-- The element at an address of a format page: its scale, its dither in eighths as memory holds them, and what their reads met
(R25, R26, R249, R250, R265; log 123, DESIGN CHOICE). -/
def elemOf (s : State) (who : Option (Fin 256)) (ctx : Fin 64) (k : AKind) (p : Page) (e : FEnt) (va : Nat) :
    Except AErr Elem :=
  match scaleLocs s who ctx k e va, ditherLoc s who ctx k e va with
  | .ok (lo, hi), .ok d =>
    let (off, sub) := elemPlace e.fmt (va % 65536)
    let here (l : Loc) : Byte := (auxHere s l 1).headD 0
    .ok { fmt := BitVec.ofNat 4 e.fmt, loc := placeOf ctx p off, sub := sub
          d8 := d.elim 0 fun l => ditherOf e.fmt (ditherCode (here l) (ditherIndex (domainIndex e va)))
          scale := here hi ++ here lo, last := e.fmt = 7 && off = 13107
          bad := ([lo, hi] ++ d.toList).filter fun l => auxBad s l 1 }
  | .error x, _ => .error x
  | _, .error x => .error x

/-- The elements at n addresses from va on. -/
def elemsOf (s : State) (who : Option (Fin 256)) (ctx : Fin 64) (k : AKind) (p : Page) (e : FEnt) :
    Nat → Nat → Except AErr (List Elem)
  | 0, _ => .ok []
  | n + 1, va =>
    match elemOf s who ctx k p e va with
    | .error x => .error x
    | .ok a => (elemsOf s who ctx k p e n (va + 1)).map (a :: ·)

/-! ## The span (R244, R245) -/

/-- Whether every byte of a span access lies in ranges of blocks of the context (R245). -/
def spanCovers (rs : List SpanRange) (ctx : Fin 64) : Nat → Nat → Nat → Bool
  | _, _, 0 => true
  | 0, _, _ => false
  | fuel + 1, off, n =>
    match rs.find? fun r => r.ctx = ctx && !r.clearing && r.off ≤ off && off < r.off + r.len with
    | none => false
    | some r => let k := min n (r.off + r.len - off); spanCovers rs ctx fuel (off + k) (n - k)

/-- Whether a span access is permitted (R245). -/
def spanAllowed (s : State) (ctx : Fin 64) (off n : Nat) : Bool :=
  spanCovers s.spanRanges ctx (s.spanRanges.length + 1) off n

/-- Whether the slice of a place in the window is being copied into a spare core, so that accesses to it are held (R435). -/
def sliceHeld (s : State) (off : Nat) : Bool := (s.cores[Fin.ofNat 256 (off / Config.spanSlice)]).copying

/-! ## The checks of one access (R134) -/

/-- The forms of a memory access as R134 to R148 tell them apart. -/
inductive AccForm where
  | ld | ldRaw | st | stRaw | qst | atom | atomo | watch
  deriving DecidableEq, Repr

/-- The kind of a form's access (R382). -/
def AccForm.kind : AccForm → AKind
  | .ld | .ldRaw | .watch => .load
  | .st | .stRaw | .qst => .store
  | .atom | .atomo => .atomic

/-- Whether a form decodes or quantises elements (R136, R139). -/
def AccForm.coded : AccForm → Bool
  | .ld | .qst => true
  | _ => false

/-- An access that passed its checks, and whether a migration or a takeover holds it (R385, R435). -/
structure Checked where
  acc : LaneAcc
  held : Bool
  deriving DecidableEq, Repr

/-- Elements or registers of a size (R129, R136). -/
def sizeCount : Size → Nat
  | .b64 => 2
  | .b128 => 4
  | _ => 1

/-- Steps 3 and 4 on a format page (R136, R137, R139, R248). Scales and dither entries are read, with R, before the
alignment is judged, so their faults come first (R249; log 32, DEDUCED); a raw access past a ternary frame's bytes fails
before it is judged misaligned (R134, R137). -/
def checkFormat (s : State) (who : Option (Fin 256)) (ctx : Fin 64) (f : AccForm) (size : Size) (p : Page) (ea : Nat) :
    Except AErr LaneAcc :=
  match pageEnt s ctx p ea with
  | .error x => .error x
  | .ok e =>
    let i := ea % 65536
    let loc := placeOf ctx p (elemPlace e.fmt i).1
    if f.coded then
      if size = .b8 || size = .b16 then .error (.fault .formatMismatch ea)
      else
        match elemsOf s who ctx .load p e (sizeCount size) ea with
        | .error x => .error x
        | .ok els =>
          if ea % sizeCount size != 0 then .error (.fault .misaligned ea)
          else .ok { lane := 0, ea := ea, loc := loc, els := els }
    else if f = .ldRaw || f = .stRaw then
      if size = .b64 || size = .b128 then .error (.fault .formatMismatch ea)
      else if e.fmt = 7 && i / 5 + size.bytes > 13108 then .error (.fault .protection ea)
      else if i % (perByte e.fmt * size.bytes) != 0 then .error (.fault .misaligned ea)
      else .ok { lane := 0, ea := ea, loc := loc, els := [] }
    else .error (.fault .formatMismatch ea)

/-- The checks of R134 for one access of a form, in their order; ver says whether it is a versioned write (R140). -/
def checkAcc (s : State) (who : Option (Fin 256)) (ctx : Fin 64) (f : AccForm) (ver : Bool) (size : Size) (ea : Int) :
    Except AErr Checked :=
  if ea < 0 || ea ≥ Config.vaLimit then .error (.fault .protection (ea % 2 ^ 64).toNat)
  else
    let a := ea.toNat
    if inSpan a then
      if a ≥ Config.spanBase + Config.spanSize || ver then .error (.fault .protection a)
      else if f = .qst then .error (.fault .formatMismatch a)
      else if a % size.bytes != 0 then .error (.fault .misaligned a)
      else if !spanAllowed s ctx (a - Config.spanBase) size.bytes then .error (.fault .spanProtection a)
      else .ok { acc := { lane := 0, ea := a, loc := .span (a - Config.spanBase), els := [] },
                 held := sliceHeld s (a - Config.spanBase) }
    else
      match pageOf s who ctx f.kind a with
      | .error x => .error x
      | .ok p =>
        let mig := p.mig && f.kind.writes
        let held := mig && (ver || f = .atomo)
        if p.tier && (ver || f = .atomo) then .error (.fault .protection a)
        else if p.fmt != 0 then (checkFormat s who ctx f size p a).map fun l => { acc := { l with mig := mig }, held := held }
        else if f = .qst then .error (.fault .formatMismatch a)
        else if a % size.bytes != 0 then .error (.fault .misaligned a)
        else .ok { acc := { lane := 0, ea := a, loc := placeOf ctx p 0, els := [], mig := mig }, held := held }

end Sys2Proof.Machine
end

