-- ==== Sys2Proof/Machine/Home.lean ====
section
/-!
DEFINITION. What a home does: reads and writes of a place, poisoned granules (R431), scrubs (R433), reports (R414),
atomics (R141), signal updates (R239), line versions (R140), outgoing fabric operations (R368), and the device error log
(R449).
-/
namespace Sys2Proof.Machine

open Sys2Proof

/-- The place n bytes further on. -/
def locAdd (l : Loc) (n : Nat) : Loc :=
  match l with
  | .dev a => .dev (a + n)
  | .span o => .span (o + n)
  | .fab c e a => .fab c e (a + n)

/-- Whether a place lies in fabric memory (R367). -/
def isFab : Loc → Bool
  | .fab _ _ _ => true
  | _ => false

/-- Bytes of a place of the device; none are held of fabric memory. -/
def readLoc (s : State) (l : Loc) (n : Nat) : List Byte :=
  match l with
  | .dev a => memRead s.mem a n
  | .span o => memRead s.span o n
  | .fab _ _ _ => List.replicate n 0

/-! ## The device error log (R449) -/

/-- UNIT and KIND codes of R449 that the model writes. -/
inductive EUnit where
  | regs | shapes | helm | span | slot | hbm | cache | port | session | cp | keys | viaduct
  deriving DecidableEq, Repr

def EUnit.num : EUnit → Nat
  | .regs => 0 | .shapes => 1 | .helm => 2 | .span => 3 | .slot => 4 | .hbm => 5 | .cache => 6 | .port => 7 | .keys => 9
  | .session => 10 | .cp => 11 | .viaduct => 8

/-- An event: unit, index, kind, address, lane, context and queue id (R449). -/
def errEvent (u : EUnit) (index kind addr lane ctx qid : Nat) : ErrEvent :=
  BitVec.ofNat 128 (addr % 2 ^ 56 * 2 ^ 72 + lane % 256 * 2 ^ 64 + index % 256 * 2 ^ 56 + u.num * 2 ^ 48 +
    kind % 256 * 2 ^ 40 + ctx % 64 * 2 ^ 34 + qid % 4096)

/-- Whether two events merge: UNIT, INDEX, KIND and ADDR agree (R449). -/
def sameEvent (a b : ErrEvent) : Bool :=
  bitsOf a.toNat 72 56 = bitsOf b.toNat 72 56 && bitsOf a.toNat 40 24 = bitsOf b.toNat 40 24

/-- An event with one more repeat (R449). -/
def repeatEvent (a : ErrEvent) : ErrEvent := if bitsOf a.toNat 16 16 = 65535 then a else a + BitVec.ofNat 128 65536

/-- Log an event; errlog holds the newest first (R449). -/
def logErr (s : State) (e : ErrEvent) : State :=
  match s.errlog with
  | a :: r =>
    if sameEvent a e then { s with errlog := repeatEvent a :: r }
    else { s with errlog := (e :: a :: r).take 4096, errCount := s.errCount + 1 }
  | [] => { s with errlog := [e], errCount := s.errCount + 1 }

/-- The stack of a physical address (R4; log 16, DESIGN CHOICE). -/
def stackOf (pa : Nat) : Nat := pa / (48 * 2 ^ 30) % 8

/-- An event of the granule of HBM that holds an address: LANE is its channel (R449). -/
def hbmEvent (kind a ctx : Nat) : ErrEvent :=
  errEvent .hbm (stackOf a) kind (a / 32 * 32) (Config.channelOf (a / 32)).val ctx 0

/-- Log uncorrectable data met by a read, or the failure of a fabric read (R134, R370, R429). -/
def logPoison (s : State) (l : Loc) (ctx : Nat) : State :=
  match l with
  | .dev a => logErr s (hbmEvent 1 a ctx)
  | .span o => logErr s (errEvent .span (o / Config.spanSlice) 1 0 0xFF ctx 0)
  | .fab c _ _ => logErr s (errEvent .port (Config.port s.tick).val 7 0 0xFF c 0)

/-! ## Reports (R414) -/

/-- The tag that a write carries to its home (R414); its cause and the address are filled in by the access and its failure. -/
def tagOf (s : State) (p : Party) : Report :=
  let f := faultOf s p (raise .storeImprecise none)
  { party := p, warp := f.warp.getD 0xFFFF, pc := f.pc, incarnation := f.incarnation, cause := 0, addr := 0,
    node := f.node }

/-- The tag of an access at a virtual address (R414, R416). -/
def Report.at (t : Report) (va : Nat) : Report := { t with addr := va }

/-- A failure found at the home waits to be offered; off is where in the access it lies (R414, R416). -/
def report (s : State) (t : Report) (cause : Nat) (off : Nat := 0) : State :=
  { s with reports := s.reports ++ [{ t with cause := BitVec.ofNat 8 cause, addr := t.addr + off }] }

/-! ## Writes -/

/-- The part of a write that falls into granule g; one that is discarded is reported (R431). -/
def writeGranule (t : Report) (a : Nat) (bytes : List Byte) (s : State) (g : Nat) : State :=
  (putGranule a bytes s g).getD (report s t 0 (max a (32 * g) - a))

/-- Write bytes to device memory. -/
def writeDev (s : State) (t : Report) (a : Nat) (bytes : List Byte) : State :=
  reachDev ((unitsOf 32 a bytes.length).foldl (writeGranule t a bytes) s) a bytes.length

/-- Write bytes to the span; a word written whole loses its poison (log 17, DEDUCED). -/
def writeSpan (s : State) (o : Nat) (bytes : List Byte) : State :=
  { s with
    span := memWrite s.span o bytes
    wrote := (.span o, bytes.length) :: s.wrote
    badSpan := s.badSpan.filter fun w => !(o ≤ 8 * w && 8 * w + 8 ≤ o + bytes.length) }

/-- Whether two ranges of bytes share a location (R256). -/
def locsMeet (a : Loc) (n : Nat) (b : Loc) (m : Nat) : Bool :=
  let cross (x y : Nat) : Bool := x < y + m && y < x + n
  match a, b with
  | .dev x, .dev y | .span x, .span y => cross x y
  | .fab c e x, .fab d f y => c = d && e = f && cross x y
  | _, _ => false

/-- The place and the bytes that a fabric operation covers: of a merged code, the 8-byte unit that holds its byte (R368). -/
def fabSpan (o : FabOp) : Loc × Nat :=
  match o.kind, o.loc with
  | .read n, l => (l, n)
  | .write d, l => (l, d.length)
  | .atomic _ _ size _ _ _, l => (l, size.bytes)
  | .merge _ _ _ _ _, .fab c e a => (.fab c e (a / 8 * 8), 8)
  | .merge _ _ _ _ _, l => (l, 1)

/-- Whether a fabric operation overlaps a place (R369). -/
def fabMeets (o : FabOp) (l : Loc) (n : Nat) : Bool := locsMeet (fabSpan o).1 (fabSpan o).2 l n

/-- Whether a fabric operation is a read. -/
def isRead : FabKind → Bool
  | .read _ => true
  | _ => false

/-- Whether the command processor sends a fabric operation itself (R374). -/
def fromCp : FabFor → Bool
  | .barrier _ _ _ | .record _ _ | .signal _ _ | .signalOp _ _ => true
  | _ => false

/-- Whether two fabric operations are sent by one agent: an engine context, one COPY, or the command processor (R369). -/
def sameAgent : FabFor → FabFor → Bool
  | .row b k _ _, .row x y _ _ => b = x && k = y
  | a, c => a = c || (fromCp a && fromCp c)

/-- Send a fabric operation (R368); acq says that later accesses of its agent wait for it (R141, R369); tag is that of an
engine's write (R414). -/
def sendFab (s : State) (l : Loc) (k : FabKind) (why : FabFor) (acq : Bool := false) (va : Nat := 0)
    (tag : Option Report := none) : State :=
  { s with
    fabOps := s.fabOps ++ [{ id := s.nextId, loc := l, kind := k, why := why, acq := acq, va := va, tag := tag }]
    nextId := s.nextId + 1 }

/-- An access joins those that a migration of its page holds (R385). -/
def holdFor (s : State) (ctx vpage : Nat) (h : Held) : State :=
  if s.migHeld.contains (ctx, vpage, h) then s else { s with migHeld := s.migHeld ++ [(ctx, vpage, h)] }

/-- A write or an atomic through an entry with MIG = 1 is held at the die's MMU: it is outstanding, at the source, until the
migration ends (R385, R386). -/
def holdAcc (s : State) (ctx : Nat) (l : Loc) (k : FabKind) (why : FabFor) (acq : Bool) (va : Nat) : State :=
  holdFor { s with
    fabOps := s.fabOps ++ [{ id := s.nextId, loc := l, kind := k, why := why, acq := acq, va := va, held := true }]
    nextId := s.nextId + 1 } ctx (pageBase va) (.access s.nextId)

/-- Whether an access is answered later than it is made: over the fabric, or once a migration has ended (R369, R385). -/
def later (a : LaneAcc) : Bool := isFab a.loc || a.mig

/-- An access that is answered later (R368, R385). -/
def sendAcc (s : State) (ctx : Nat) (a : LaneAcc) (k : FabKind) (why : FabFor) (acq : Bool) (va : Nat) : State :=
  if a.mig then holdAcc s ctx a.loc k why acq va else sendFab s a.loc k why acq va

/-- The context of the node that a tag names. -/
def tagCtx (s : State) (t : Report) : Nat := ((s.nodes[t.node]?).map (·.ctx.val)).getD 0

/-- Why a write of a tag is sent. -/
def storeWhy (t : Report) : FabFor := .store t.party t.warp t.pc t.incarnation

/-- Write bytes to a place (R138, R431, R368; log 3, DESIGN CHOICE). -/
def writeLoc (s : State) (t : Report) (l : Loc) (bytes : List Byte) : State :=
  if bytes.isEmpty then s
  else
    match l with
    | .dev a => writeDev s t a bytes
    | .span o => writeSpan s o bytes
    | .fab _ _ _ => sendFab s l (.write bytes) (storeWhy t) false t.addr

/-- How a code reaches fabric memory: written as its byte, or, of INT4 and ternary, merged by a compare-swap that is retried
until it succeeds (R139, R368); what the first attempt compares with is the model's (log 104, DESIGN CHOICE). -/
def fabCode (fmt : BitVec 4) (sub code : Nat) (last : Bool) : FabKind :=
  if perByte fmt.toNat = 1 then .write [BitVec.ofNat 8 code] else .merge fmt sub code last 0

/-- Merge a code into its byte at its home, or, where a migration holds it, later (R139, R368, R385). -/
def mergeElem (s : State) (t : Report) (e : Elem) (code : Nat) (mig : Bool := false) : State :=
  if mig then holdAcc s (tagCtx s t) e.loc (fabCode e.fmt e.sub code e.last) (storeWhy t) false t.addr
  else
  match e.loc with
  | .fab _ _ _ => sendFab s e.loc (fabCode e.fmt e.sub code e.last) (storeWhy t) false t.addr
  | l => writeLoc s t l [mergeCode e.fmt.toNat ((readLoc s l 1).headD 0) e.sub code e.last]

/-! ## Atomics (R141, R239) -/

/-- The signed reading of the low w bits. -/
def signedOf (w : Nat) (u : Bool) (n : Nat) : Int := if u then n % 2 ^ w else sextN w n

/-- The new memory value of an atomic (R141). -/
def atomNew (op : AtomOp) (u : Bool) (w : Nat) (old b b2 : Nat) : Nat :=
  let o := old % 2 ^ w
  let x := b % 2 ^ w
  match op with
  | .add => (o + x) % 2 ^ w
  | .min => if signedOf w u o ≤ signedOf w u x then o else x
  | .max => if signedOf w u o ≥ signedOf w u x then o else x
  | .and => o &&& x
  | .or => o ||| x
  | .xor => o ^^^ x
  | .exch => x
  | .cas => if o = x then b2 % 2 ^ w else o

/-- One atomic at a home of the device: the old value, or none where it met uncorrectable data. The event is logged; of an
atomic that returns nothing, which carries a tag, the discarded write is reported (R134, R141, R414, R431). -/
def rmw (s : State) (t : Report) (l : Loc) (op : AtomOp) (u : Bool) (size : Size) (b1 b2 : Word64)
    (returns : Bool := false) : State × Option Word64 :=
  let n := size.bytes
  if poisonAt s l n then
    let s1 := logPoison s l (tagCtx s t)
    (if returns then s1 else report s1 t 0, none)
  else
    let old := leNat (readLoc s l n)
    let w := atomNew op u (8 * n) old b1.toNat b2.toNat
    (writeLoc s t l (leBytes n w), some (BitVec.ofNat 64 old))

/-- A signal operation as an atomic of 64 bits (R239, R309). -/
def sigAtom (op : SigOp) (v : Word64) : AtomOp × Word64 :=
  match op with
  | .sub => (.add, -v)
  | .add => (.add, v)
  | .set => (.exch, v)

/-- A signal update of a place (R239, R309, R368, R385). -/
def signalLoc (s : State) (t : Report) (a : LaneAcc) (op : SigOp) (v : Word64) : State :=
  let (o, x) := sigAtom op v
  if later a then sendAcc s (tagCtx s t) a (.atomic o false .b64 x 0 false) (storeWhy t) false t.addr
  else (rmw s t a.loc o false .b64 x 0).1

/-! ## Versions (R140) -/

/-- The lines of device memory that writes touch, each once, with the virtual address where the first of them reaches it. -/
def linesOf (ws : List (Nat × Nat × Nat)) : List (Nat × Nat) :=
  (ws.flatMap fun w => (unitsOf 128 w.1 w.2.2).map fun line => (line, w.2.1 + (128 * line - w.1))).foldl
    (fun l x => if l.any (·.1 = x.1) then l else l ++ [x]) []

/-- The version check of one line: on a match the version rises and the line is among those written; on a mismatch it is
reported (R140). -/
def checkLine (t : Report) (n : BitVec 8) (acc : State × List Nat) (line : Nat × Nat) : State × List Nat :=
  if memGet acc.1.lineVer line.1 = n then
    ({ acc.1 with lineVer := memSet acc.1.lineVer line.1 (n + 1) }, line.1 :: acc.2)
  else (report acc.1 (t.at line.2) 1, acc.2)

/-- What the bytes and codes of a versioned write have made of one byte so far: its value, the places of a code that are written,
and whether it is written whole. -/
abbrev ByteW := Byte × List Nat × Bool

/-- A further write of a versioned write, seen at address a, where the byte held old. -/
def byteStep (old : Byte) (a : Nat) (acc : Option ByteW) (w : VerW) : Option ByteW :=
  match w.code with
  | none => if w.addr ≤ a && a < w.addr + w.data.length then some (w.data.getD (a - w.addr) 0, [], true) else acc
  | some (f, sub, c, last) =>
    if w.addr != a then acc
    else
      let (b, subs, whole) := acc.getD (old, [], false)
      some (mergeCode f b sub c last, sub :: subs, whole || last || (List.range (perByte f)).all (sub :: subs).contains)

/-- The bytes that a versioned write gives granule g, by address; true where a byte is written whole. -/
def granuleBytes (s : State) (ws : List VerW) (g : Nat) : List (Nat × Byte × Bool) :=
  (List.range 32).filterMap fun i =>
    let a := 32 * g + i
    (ws.foldl (byteStep (memGet s.mem a) a) none).map fun x => (a, x.1, x.2.2)

/-- The part of a versioned write that falls into granule g, as one write of it; a line comes with the virtual address of its
first byte (R140, R431). -/
def writeCover (t : Report) (ws : List VerW) (line : Nat × Nat) (s : State) (g : Nat) : State :=
  let bs := granuleBytes s ws g
  match bs with
  | [] => s
  | (a, _) :: _ =>
    let full := bs.length = 32 && bs.all (·.2.2)
    if s.badGranules.contains g && !full then report s (t.at (line.2 + (a - 128 * line.1))) 0
    else
      { reachDev { s with
          mem := bs.foldl (fun m x => memSet m x.1 x.2.1) s.mem
          badGranules := if full then s.badGranules.filter (· != g) else s.badGranules } (32 * g) 32 with
        wrote := bs.map (fun x => (.dev x.1, 1)) ++ s.wrote }

/-- All the bytes and codes of a versioned write in one line, as one write of the line (R140, R431). -/
def writeLine (t : Report) (ws : List VerW) (s : State) (line : Nat × Nat) : State :=
  (List.range 4).foldl (fun u i => writeCover t ws line u (4 * line.1 + i)) s

/-- A versioned write of device memory, one check a line (R140). -/
def writeVersioned (s : State) (t : Report) (n : BitVec 8) (ws : List VerW) : State :=
  let ls := linesOf (ws.map fun w => (w.addr, w.va, max 1 w.data.length))
  let (s1, ok) := ls.foldl (checkLine t n) (s, [])
  (ls.filter fun l => ok.contains l.1).foldl (writeLine t ws) s1

/-! ## The fault ring (R380, R382) -/

/-- Whether a ring slot still holds a record that has not been acted on (R382). -/
def slotHeld (s : State) (ctx : Fin 64) (n : Nat) : Bool :=
  let size := 2 ^ s.ctxs[ctx].frlog.toNat
  s.ring.any fun r => r.ctx = ctx.val && (match r.n with | some m => m % size = n % size | none => false)

/-- The address of ring record n (R382). -/
def ringAddr (s : State) (ctx : Fin 64) (n : Nat) : Nat :=
  s.ctxs[ctx].fring.toNat + 64 + 32 * (n % 2 ^ s.ctxs[ctx].frlog.toNat)

/-- Write a fault record, then the write index (R382; log 31, DEDUCED). -/
def writeRing (s : State) (ctx : Fin 64) (n vpage : Nat) (kind : BitVec 4) : State :=
  let rec_ := vpage % 2 ^ 56 * 2 ^ 64 + ctx.val * 2 ^ 8 + kind.toNat
  writeOwn (writeOwn s (ringAddr s ctx n) (leBytes 32 rec_)) s.ctxs[ctx].fring.toNat (leBytes 8 (n + 1))

/-- The die whose MMU serves an agent: a core's, none for the hub die's (R2, R379, R380). -/
def mmuOf (who : Option (Fin 256)) : Option (Fin 4) := who.map dieOf

/-- A page fault at an address: the MMU of a die writes one record for a page, whatever the number of its accesses that wait on
it; a record that finds the ring full, or others waiting for it, waits (R380, R382). -/
def ringFault (s : State) (ctx : Fin 64) (va : Nat) (kind : BitVec 4) (who : Option (Fin 256)) : State :=
  let vpage := pageBase va
  let die := mmuOf who
  let rec_ (n : Option Nat) : RingRec := { ctx := ctx.val, die := die, n := n, vpage := vpage, kind := kind }
  if s.ring.any fun r => r.ctx = ctx.val && r.die = die && r.vpage = vpage then s
  else
    let n := memNat s.mem s.ctxs[ctx].fring.toNat 8
    if slotHeld s ctx n || s.ring.any fun r => r.ctx = ctx.val && r.n.isNone then { s with ring := s.ring ++ [rec_ none] }
    else
      let t := writeRing s ctx n vpage kind
      { t with ring := t.ring ++ [rec_ (some n)] }

end Sys2Proof.Machine
end

