-- ==== Sys2Proof/Machine/Versions.lean ====
section
/-!
DEFINITION. The code directory (R403 to R406), maps (R408, R409), transfer requests (R165, R344) and the transfer of a
warp to another version (R410).
-/
namespace Sys2Proof.Machine

open Sys2Proof

/-! ## The directory (R404, R405) -/

/-- A directory entry (R404). -/
structure DirEnt where
  kid : Nat
  version : Nat
  valid : Bool
  codebase : Nat
  len : Nat
  nmaps : Nat
  maptab : Nat
  deriving DecidableEq, Repr

/-- Entry i of a context's directory; none where it does not translate (log 49, DEDUCED). -/
def dirEnt (s : State) (ctx : Fin 64) (i : Nat) : Option DirEnt :=
  if i ≥ s.ctxs[ctx].dirCount.toNat then none
  else
    match auxNat s none ctx .load 32 (s.ctxs[ctx].dirBase.toNat + 32 * i) with
    | .error _ => none
    | .ok e =>
      some { kid := bitsOf e 0 32, version := bitsOf e 32 16, valid := bitsOf e 48 1 = 1, codebase := bitsOf e 64 56,
             len := bitsOf e 128 32, nmaps := bitsOf e 160 16, maptab := bitsOf e 192 56 }

/-- The first directory entry that satisfies p, with its index. -/
def findDir (s : State) (ctx : Fin 64) (p : Nat → DirEnt → Bool) : Option (Nat × DirEnt) :=
  (List.range s.ctxs[ctx].dirCount.toNat).findSome? fun i =>
    match dirEnt s ctx i with
    | some e => if p i e then some (i, e) else none
    | none => none

/-- The entry that a version of the kernel of entry i is loaded in (R405). -/
def loadedAs (s : State) (ctx : Fin 64) (i v : Nat) : Option (Nat × DirEnt) :=
  match dirEnt s ctx i with
  | none => none
  | some e => findDir s ctx fun _ x => x.valid && x.kid = e.kid && x.version = v

/-! ## Maps (R408) -/

/-- A map's header, with its address (R408). -/
structure MapHdr where
  addr : Nat
  hdr : Nat
  deriving DecidableEq, Repr

def MapHdr.from_ (m : MapHdr) : Nat := bitsOf m.hdr 0 16
def MapHdr.dest (m : MapHdr) : Nat := bitsOf m.hdr 16 16
def MapHdr.safe (m : MapHdr) : Nat := bitsOf m.hdr 32 16
def MapHdr.nval (m : MapHdr) : Nat := bitsOf m.hdr 48 16
def MapHdr.land (m : MapHdr) : Nat := bitsOf m.hdr 64 32
def MapHdr.nmask (m : MapHdr) : Nat := bitsOf m.hdr 96 16
def MapHdr.nregang (m : MapHdr) : Nat := bitsOf m.hdr 112 16
/-- Whether counter k is drained (R408). -/
def MapHdr.drains (m : MapHdr) (k : Nat) : Bool := bitsOf m.hdr (128 + 2 * k) 2 = 1
def MapHdr.drainV (m : MapHdr) (k : Nat) : Nat := bitsOf m.hdr (256 + 64 * k) 64

/-- The first map of an entry that satisfies p. -/
def findMap (s : State) (ctx : Fin 64) (e : DirEnt) (p : MapHdr → Bool) : Option MapHdr :=
  (List.range e.nmaps).findSome? fun j =>
    match auxNat s none ctx .load 8 (e.maptab + 8 * j) with
    | .error _ => none
    | .ok a =>
      match auxNat s none ctx .load 64 a with
      | .error _ => none
      | .ok h => if p { addr := a, hdr := h } then some { addr := a, hdr := h } else none

/-- The map of (version, n) to a target of a warp (R164, R410). -/
def mapFor (s : State) (ctx : Fin 64) (wp : Warp) (n dest : Nat) : Option MapHdr :=
  (dirEnt s ctx wp.dirIdx).bind fun e =>
    findMap s ctx e fun m => m.from_ = wp.version.toNat && m.safe = n && m.dest = dest

/-- n PC pairs from an address, (from, to). -/
def pcPairs (s : State) (ctx : Fin 64) (a n : Nat) : List (Word × Word) :=
  (List.range n).map fun j =>
    let x := ((auxNat s none ctx .load 8 (a + 8 * j)).toOption).getD 0
    (BitVec.ofNat 32 x, BitVec.ofNat 32 (x / 2 ^ 32))

def MapHdr.maskPairs (s : State) (ctx : Fin 64) (m : MapHdr) : List (Word × Word) :=
  pcPairs s ctx (m.addr + 64 + 16 * m.nval) m.nmask

def MapHdr.regangPairs (s : State) (ctx : Fin 64) (m : MapHdr) : List (Word × Word) :=
  pcPairs s ctx (m.addr + 64 + 16 * m.nval + 8 * m.nmask) m.nregang

/-- The value records of a map (R409). -/
def MapHdr.records (s : State) (ctx : Fin 64) (m : MapHdr) : List Nat :=
  (List.range m.nval).map fun j => ((auxNat s none ctx .load 16 (m.addr + 64 + 16 * j)).toOption).getD 0

/-- The target of a PC in a list of pairs. -/
def pairOf (ps : List (Word × Word)) (pc : Word) : Option Word := (ps.find? (·.1 = pc)).map (·.2)

/-! ## Requests (R165, R410) -/

/-- The request that stands once the present one is withdrawn or its transfer to a version is done: one recorded after the
transfer started, unless it names that version (R165, R411; log 54, DEDUCED). -/
def laterReq (v : BitVec 16) (wp : Warp) : Option (BitVec 16) := wp.xferNext.filter (· != v)

/-- A withdrawn request: the stopped gangs complete their SAFE and run on (R410). -/
def withdraw (wp : Warp) : Warp :=
  settle { wp with
    xferReq := laterReq wp.version wp, xferNext := none, safeN := none, drainAt := none
    gangs := wp.gangs.map fun g => match g.wait with
      | .safe _ => { g with wait := .none, pc := g.pc + 1, wd := 0 }
      | _ => g }

/-- A request recorded for a warp; one naming the version being executed withdraws any. Once the transfer has started it is
kept for the next SAFE after it (R165, R411). -/
def requestXfer (v : BitVec 16) (wp : Warp) : Warp :=
  if wp.drainAt.isSome then { wp with xferNext := some v }
  else if wp.version = v then (if wp.xferReq.isSome then withdraw wp else wp) else { wp with xferReq := some v }

/-! ## Recipes (R409) -/

/-- AFFINE on a value. -/
def affineVal (m c : Word) : VVal → VVal
  | .u x => .u (x * m + c)
  | .a b d => .a (b * m + c) (d * m)
  | v => mkG fun l => laneVal v l * m + c

/-- The addresses that a SPAN record reads, by lane (R409). -/
def spanAddrs (blk : Block) (wp : Warp) (a : Nat) : List Nat :=
  (List.range (4 * wp.width.val)).map fun l => (spanBaseOf blk).toNat + a + 4 * l

/-- Whether a SPAN record may read an address (R245). -/
def spanReadable (s : State) (ctx : Fin 64) (va : Nat) : Bool := inSpan va && spanAllowed s ctx (va - Config.spanBase) 4

/-- Whether a record is of a kind. -/
def recKind (r : Nat) : Nat := bitsOf r 8 3

/-- The value that a record gives (R409). -/
def recValue (s : State) (blk : Block) (wp : Warp) (r : Nat) : VReg :=
  let src := wp.regs[Fin.ofNat 256 (bitsOf r 16 8)]
  let c := BitVec.ofNat 32 (bitsOf r 32 32)
  match recKind r with
  | 0 => src
  | 1 => { val := .u c, poison := 0 }
  | 2 => { src with val := affineVal (BitVec.ofNat 32 (bitsOf r 64 32)) c src.val }
  | 4 =>
    let offs := (spanAddrs blk wp c.toNat).map (· - Config.spanBase)
    { val := mkG fun l => BitVec.ofNat 32 (memNat s.span (offs.getD l 0) 4)
      poison := maskOf fun l => l < offs.length && poisonAt s (.span (offs.getD l 0)) 4 }
  | _ => VReg.zero

/-- The registers after the recipes other than RECOMP; a register that no record names is UNDEF (R409). -/
def recRegs (s : State) (blk : Block) (wp : Warp) (rs : List Nat) : Vector VReg 256 :=
  Vector.ofFn fun n : Fin 256 =>
    match rs.find? fun r => bitsOf r 0 8 = n.val with
    | some r => recValue s blk wp r
    | none => VReg.zero

/-! ## Transfer (R410) -/

/-- Whether a gang stands at a blocking point (R168, R201, R240). -/
def atBlocking : GWait → Bool
  | .regang _ | .safe _ | .bkpt | .bar _ _ | .twait _ _ _ _ | .dqpop _ _ | .waita _ _ _ _ _ _ | .fabric _
  | .fresume _ _ => true
  | _ => false

/-- The lowest active lane of a gang. -/
def lowActive (wp : Warp) (g : Gang) : Nat := lowLane (activeLanes wp g)

/-- The oldest of some gangs. -/
def eldest (gs : List Gang) : Option Gang :=
  gs.foldl (fun a g => match a with | none => some g | some x => if g.gid < x.gid then some g else some x) none

/-- A transfer that fails: precise at the SAFE of the gang with the earliest creation time, and the request is
withdrawn (R410). addr is the address of a SPAN read that is not permitted, else 0 (R416). -/
def failTransfer (s : State) (b w : Nat) (wp : Warp) (code : FCode) (cause : Nat) (addr : Nat := 0) : State :=
  match eldest (wp.gangs.filter fun g => match g.wait with | .safe _ => true | _ => false) with
  | none => modWarp s b w withdraw
  | some g => modWarp (takeFault s (.gang b w g.gid) (raise code (some (lowActive wp g)) cause addr)) b w withdraw

/-- How a gang stands where it lands: again at its REGANG, or running. -/
def backWait : Option SliceMask → GWait
  | some m => .regang m
  | none => .none

/-- A stack entry in the target version (R410). -/
def mapEntry (ps : List (Word × Word)) (e : MEntry) : MEntry :=
  { e with resume := (pairOf ps e.resume).getD e.resume, rpc := if e.rpc = 0 then 0 else (pairOf ps e.rpc).getD e.rpc }

/-- Whether an entry's PCs have pairs. -/
def entryMapped (ps : List (Word × Word)) (e : MEntry) : Bool :=
  (pairOf ps e.resume).isSome && (e.rpc = 0 || (pairOf ps e.rpc).isSome)

/-- A gang after the transfer: at its landing, waiting at its REGANG, or on its way through the RECOMP sequences
(R410). -/
def landGang (rp : List (Word × Word)) (land : Word) (recomp : List Word) (g : Gang) : Gang :=
  let back := match g.wait with
    | .regang m => some m
    | _ => none
  let dest := if back.isSome then (pairOf rp g.pc).getD g.pc else land
  let g1 := { g with latch := VReg.zero, lat := [], wd := 0 }
  match recomp with
  | [] => { g1 with pc := dest, wait := backWait back }
  | p :: r => { g1 with
      pc := p, wait := .none, recomp := some { land := dest, back := back, rest := r, inHandler := g.inHandler } }

/-- A gang once every gang of its warp has come to the end of a RECOMP sequence: at the next one, or where it lands
(R410). -/
def nextRecomp (g : Gang) : Gang :=
  match g.recomp with
  | none => g
  | some r =>
    match r.rest with
    | p :: ps => { g with pc := p, wait := .none, recomp := some { r with rest := ps } }
    | [] => { g with pc := r.land, wait := backWait r.back, recomp := none }

/-- Whether every gang of a warp that runs RECOMP sequences stands at the end of one. -/
def recompDone (wp : Warp) : Bool := wp.gangs.all fun g => g.recomp.isNone || g.wait = .recomp

/-- The warp in version w (R410). -/
def transferWarp (s : State) (ctx : Fin 64) (blk : Block) (wp : Warp) (m : MapHdr) (dirIdx : Nat) : Warp :=
  let rs := MapHdr.records s ctx m
  let mp := MapHdr.maskPairs s ctx m
  let rp := MapHdr.regangPairs s ctx m
  let recomp := (rs.filter (recKind · = 3)).map fun r => BitVec.ofNat 32 (bitsOf r 32 32)
  settle { wp with
    regs := recRegs s blk wp (rs.filter (recKind · != 3))
    ofile := Vector.replicate 8 VReg.zero
    xd := Vector.replicate 8 { limit := 0, vidx := 0, base := 0, poison := false }
    slices := wp.slices.map fun sl => { sl with stack := sl.stack.map (mapEntry mp) }
    gangs := wp.gangs.map (landGang rp (BitVec.ofNat 32 m.land) recomp)
    cont := 0xFFFFFFFF
    version := BitVec.ofNat 16 m.dest
    dirIdx := dirIdx
    xferReq := laterReq (BitVec.ofNat 16 m.dest) wp
    xferNext := none
    safeN := none
    drainAt := none }

/-- DRAIN values that are met: all ones stands for ISSUED at the stop (R408, R410). -/
def drained (blk : Block) (m : MapHdr) (at_ : List Nat) : Bool :=
  (List.finRange 4).all fun k =>
    !m.drains k.val || blk.ctxs[k].done ≥ (if m.drainV k.val = 2 ^ 64 - 1 then at_.getD k.val 0 else m.drainV k.val)

/-- Whether a gang stands for the transfer at SAFE n: stopped there, or waiting at a REGANG that the map lists (R410). -/
def standsAt (rp : List (Word × Word)) (n : BitVec 13) (g : Gang) : Bool :=
  match g.wait with
  | .safe x => x = n
  | .regang _ => (pairOf rp g.pc).isSome
  | _ => false

/-- A warp whose gangs have all come to stand for its transfer: what its block's contexts have issued at the stop (R410). -/
def noteStop (s : State) (blk : Block) (wp : Warp) : Warp :=
  match wp.xferReq, wp.safeN, wp.drainAt with
  | some v, some n, none =>
    match mapFor s blk.ctx wp n.toNat v.toNat with
    | some m =>
      if wp.gangs.all (standsAt (MapHdr.regangPairs s blk.ctx m) n) then
        { wp with drainAt := some ((List.finRange 4).map fun k => blk.ctxs[k].issued) }
      else wp
    | none => wp
  | _, _, _ => wp

/-- The stops that a step has brought about (R410). -/
def noteStops (s : State) : State :=
  if s.blocks.any fun blk => blk.warps.any (·.safeN.isSome) then
    { s with blocks := s.blocks.map fun blk => { blk with warps := blk.warps.map (noteStop s blk) } }
  else s

end Sys2Proof.Machine
end

