-- ==== Sys2Proof/Machine/Fetch.lean ====
section
/-!
DEFINITION. Fetching an instruction's twelve bytes (R59, R60, R378, R404).
-/
namespace Sys2Proof.Machine

open Sys2Proof

/-- Where the byte at a code address lies in device memory (R378); the span holds no code. -/
def fetchPlace (s : State) (core : Fin 256) (ctx : Fin 64) (va : Nat) : Except AErr Nat :=
  if va ≥ Config.vaLimit || inSpan va then .error (.fault .execProtection va)
  else (pageOf s (some core) ctx .fetch va).map (·.base)

/-- The twelve bytes at a code address, which may cross into the next page (log 42, DEDUCED). -/
def fetchBytes (s : State) (core : Fin 256) (ctx : Fin 64) (va : Nat) : Except AErr (List Byte) :=
  match fetchPlace s core ctx va with
  | .error e => .error e
  | .ok a =>
    let n := min 12 (65536 - va % 65536)
    if n = 12 then
      if poisonAt s (.dev a) 12 then .error (.fault .uncorrectable va) else .ok (memRead s.mem a 12)
    else
      match fetchPlace s core ctx (va + n) with
      | .error e => .error e
      | .ok b =>
        if poisonAt s (.dev a) n || poisonAt s (.dev b) (12 - n) then .error (.fault .uncorrectable va)
        else .ok (memRead s.mem a n ++ memRead s.mem b (12 - n))

/-- The instruction word at a PC of the version of directory entry dir (R404, R453). -/
def fetchWord (s : State) (core : Fin 256) (ctx : Fin 64) (dir : Nat) (pc : Word) : Except AErr IWord :=
  match dirEnt s ctx dir with
  | none => .error (.fault .execProtection 0)
  | some e => (fetchBytes s core ctx (e.codebase + 12 * pc.toNat)).map wordOfBytes

/-- Whether a fetched word is an instruction that a stream of another kind accepts (R14, R80, R232). -/
def wrongFor (k : StreamKind) (w : IWord) : Bool :=
  let f := splitWord w
  opAssigned f && opStream f != k

end Sys2Proof.Machine
end

