-- ==== Sys2Proof/Machine/Control.lean ====
section
/-!
DEFINITION. Class 011, control flow: the mask stack (R152 to R155, R160), branches, calls, REGANG, EXIT, YIELD, SAFE,
XFER, TRAP, NOP and BKPT (R150 to R168).
-/
namespace Sys2Proof.Machine

open Sys2Proof

/-! ## Slices and parts (R152 to R155) -/

/-- The lanes of slice k in a lane mask. -/
def sliceLanes (m : LaneMask) (k : Nat) : BitVec 4 := m.extractLsb' (4 * k) 4

/-- The slices of a gang, ascending. -/
def slicesOf (g : Gang) : List Nat := (List.range 8).filter (sliceIn g.slices)

/-- A slice replaced. -/
def setSlice (wp : Warp) (k : Nat) (sl : Slice) : Warp :=
  if h : k < 8 then { wp with slices := wp.slices.set k sl h } else wp

/-- The lowest active lane of slice k. -/
def sliceLow (wp : Warp) (k : Nat) : Nat :=
  4 * k + (((List.range 4).filter fun i => (sliceAt wp k).active.getLsbD i).head?).getD 0

/-- A slice mask from a list. -/
def sliceMaskOf (ks : List Nat) : SliceMask := BitVec.ofNat 8 (ks.foldl (fun a k => a + 2 ^ k) 0)

/-- The gangs of a part: the PC of the lowest slice stays, other PCs get new gangs in ascending order of their lowest
slice, with copies of the latch, the scoreboard, the watchdog count and the gang registers (R155, R178, R207, R424), and
with the parting gang's time of last issue (log 119, DESIGN CHOICE). -/
def newGangs (g : Gang) : Nat → List Word → List (Nat × Word) → List Gang
  | _, [], _ => []
  | n, p :: ps, pcs =>
    { g with gid := n, slices := sliceMaskOf ((pcs.filter (·.2 = p)).map (·.1)), pc := p, slot := 0, wait := .none } ::
      newGangs g (n + 1) ps pcs

/-- A gang continues with its slices at PCs: it parts where they differ, and is gone where none is left (R155, R199). -/
def regroup (wp : Warp) (g : Gang) (pcs : List (Nat × Word)) : Warp :=
  match pcs with
  | [] => settle { wp with gangs := wp.gangs.filter (·.gid != g.gid) }
  | (_, first) :: _ =>
    let others := ((pcs.map (·.2)).filter (· != first)).eraseDups
    let stay := sliceMaskOf ((pcs.filter (·.2 = first)).map (·.1))
    let wp1 := modGangs wp g.gid fun x => { x with slices := stay, pc := first }
    if others.isEmpty then wp1
    else
      settle { wp1 with
        gangs := wp1.gangs ++ newGangs { g with replay := false } wp.nextGid others pcs
        nextGid := wp.nextGid + others.length }

/-- The check of R154 on one slice at a PC. -/
def checkStack : Nat → Slice → Word → Slice × Word
  | 0, sl, pc => (sl, pc)
  | n + 1, sl, pc =>
    match sl.stack with
    | [] => (sl, pc)
    | e :: r =>
      if e.kind = .ret || !(e.mask = 0 || e.rpc = pc) then (sl, pc)
      else if e.mask = 0 then checkStack n { sl with stack := r } pc
      else
        let sl1 := { sl with stack := r, active := e.mask }
        if e.kind = .path && e.resume != pc then (sl1, e.resume) else checkStack n sl1 e.resume

/-- Before a gang issues, each of its slices checks its stack, and the gang parts where the slices differ (R154, R155). -/
def settleGang (wp : Warp) (g : Gang) : Warp :=
  let rs := (slicesOf g).map fun k => (k, checkStack 17 (sliceAt wp k) g.pc)
  regroup (rs.foldl (fun w r => setSlice w r.1 r.2.1) wp) g (rs.map fun r => (r.1, r.2.2))

/-- Groups of a slice's active lanes with their next PCs, in the order of R153. -/
abbrev Groups := List (BitVec 4 × Word)

/-- Whether a branch accumulates into the PATH on top (R153). -/
def accumulates (bra : Bool) (sl : Slice) (gs : Groups) (r next : Word) : Bool :=
  bra && gs.length > 1 && (match sl.stack with | e :: _ => e.kind = .path && e.rpc = r && e.resume = next | [] => false)

/-- Entries of a slice's stack after a branch. -/
def stackNeed (bra : Bool) (sl : Slice) (gs : Groups) (r next : Word) : Nat :=
  sl.stack.length + (if gs.length ≤ 1 || accumulates bra sl gs r next then 0 else gs.length)

/-- A slice after a branch, with its PC (R153). -/
def branchSlice (bra : Bool) (sl : Slice) (gs : Groups) (r next : Word) : Slice × Word :=
  match gs with
  | [] => (sl, next)
  | [(_, pc)] => (sl, pc)
  | (m, pc) :: rest =>
    if accumulates bra sl gs r next then
      match sl.stack with
      | e :: st => ({ sl with active := m, stack := { e with mask := e.mask ||| ((rest.head?).map (·.1)).getD 0 } :: st }, pc)
      | [] => (sl, pc)
    else
      let paths := rest.map fun g => ({ kind := .path, mask := g.1, resume := g.2, rpc := r } : MEntry)
      ({ sl with active := m, stack := paths ++ { kind := .join, mask := sl.active, resume := r, rpc := r } :: sl.stack }, pc)

/-- A branch of the whole gang: every slice's stack is checked before any changes (R153, R155). -/
def branchGang (s : State) (k : GCtx) (bra : Bool) (r : Word) (groups : Nat → Groups) : Except Raise State :=
  let next := k.g.pc + 1
  let ks := slicesOf k.g
  match ks.find? fun i => stackNeed bra (sliceAt k.wp i) (groups i) r next > 16 with
  | some i => .error (raise .maskStack (some (sliceLow k.wp i)))
  | none =>
    let rs := ks.map fun i => (i, branchSlice bra (sliceAt k.wp i) (groups i) r next)
    .ok (modWarp s k.b k.w fun wp =>
      regroup (rs.foldl (fun w x => setSlice w x.1 x.2.1) wp) k.g (rs.map fun x => (x.1, x.2.2)))

/-- A PC at a signed offset of 18 bits. -/
def pcOff18 (pc : Word) (off : BitVec 18) : Word := pc + off.signExtend 32

/-! ## BRA, BRU, BRX (R151, R156 to R158) -/

/-- Groups of a slice for BRA: taken, then fall-through (R153). -/
def braGroups (act taken : BitVec 4) (target next : Word) : Groups :=
  let t := act &&& taken
  let f := act &&& ~~~taken
  if t = 0 then [(act, next)]
  else if f = 0 || target = next then [(act, target)]
  else [(t, target), (f, next)]

def execBra (c : Ctl) (rc : BitVec 18) (off : BitVec 32) (s : State) : Out1 :=
  onGang s fun k => do
    let taken ← partLanes k c
    branchGang s k true (pcOff18 k.g.pc rc) fun i =>
      braGroups (sliceAt k.wp i).active (sliceLanes taken i) (k.g.pc + off) (k.g.pc + 1)

/-- The first active lane whose guard differs from that of the lowest active lane (R157). -/
def guardDiffers (act taken : LaneMask) : Option Nat :=
  let ref := laneBit taken (lowLane act)
  (lanesOf act).find? fun l => laneBit taken l != ref

/-- The target of BRU, which a register gives in the gang's active lanes (R151, R157). -/
def bruTarget (k : GCtx) (t : BruTarget) : Except Raise Word :=
  match t with
  | .off o => .ok (k.g.pc + o)
  | .reg a => readUni k (activeLanes k.wp k.g) a

/-- BRU (R157). Under (!pt) it reads no target: every lane goes on (R63, R151). -/
def execBru (c : Ctl) (t : BruTarget) (s : State) : Out1 :=
  onGang s fun k => do
    let taken ← partLanes k c
    if c.pred = 7 && c.inv then pure (advance s k)
    else
      match guardDiffers (activeLanes k.wp k.g) taken with
      | some l => .error (raise .uniform (some l))
      | none =>
        let target ← bruTarget k t
        pure (modGang s k.b k.w k.g.gid fun g => { g with pc := if taken = 0 then g.pc + 1 else target })

/-- Groups of a slice for BRX: lanes with one next PC form a group, by ascending lowest lane (R153, R158). -/
def brxGroups (act : BitVec 4) (pcOf : Nat → Word) : Groups :=
  let lanes := (List.range 4).filter act.getLsbD
  ((lanes.map pcOf).eraseDups).map fun p =>
    (BitVec.ofNat 4 ((lanes.filter fun i => pcOf i = p).foldl (fun a i => a + 2 ^ i) 0), p)

def execBrx (c : Ctl) (rc : BitVec 18) (a : Src) (s : State) : Out1 :=
  onGang s fun k => do
    let taken ← partLanes k c
    let v ← readSrc k taken (.int .w32) false a
    branchGang s k false (pcOff18 k.g.pc rc) fun i =>
      brxGroups (sliceAt k.wp i).active fun j =>
        if laneBit taken (4 * i + j) then laneVal v (4 * i + j) else k.g.pc + 1

/-! ## CALL, CALLX, RET (R159, R160) -/

/-- A call to a PC: a RETURN entry on every slice (R159). -/
def callTo (s : State) (k : GCtx) (target : Word) : State :=
  let push (wp : Warp) (i : Nat) : Warp :=
    let sl := sliceAt wp i
    setSlice wp i { sl with
      stack := { kind := .ret, mask := sl.active, resume := k.g.pc + 1, rpc := 0 } :: sl.stack }
  modWarp s k.b k.w fun wp => modGangs ((slicesOf k.g).foldl push wp) k.g.gid fun g => { g with pc := target }

/-- The first slice whose stack is full (R159). -/
def fullSlice (k : GCtx) : Option Nat := (slicesOf k.g).find? fun i => (sliceAt k.wp i).stack.length ≥ 16

def execCall (_c : Ctl) (off : BitVec 32) (s : State) : Out1 :=
  onGang s fun k =>
    match fullSlice k with
    | some i => .error (raise .maskStack (some (sliceLow k.wp i)))
    | none => .ok (callTo s k (k.g.pc + off))

def execCallx (_c : Ctl) (a : Src) (s : State) : Out1 :=
  onGang s fun k =>
    match fullSlice k with
    | some i => .error (raise .maskStack (some (sliceLow k.wp i)))
    | none => (readUni k (activeLanes k.wp k.g) a).map fun t => callTo s k t

/-- A slice with no active lane left pops to the next entry that holds lanes; none where the stack is empty (R160). -/
def unwind : List MEntry → Option (MEntry × List MEntry)
  | [] => none
  | e :: r => if e.mask = 0 then unwind r else some (e, r)

/-- A slice unwound, with its PC; a slice with nothing left ends (R160, R162). -/
def unwindSlice (sl : Slice) : Slice × Option Word :=
  match unwind sl.stack with
  | some (e, r) => ({ sl with active := e.mask, stack := r }, some e.resume)
  | none => ({ live := false, active := 0, stack := [] }, none)

/-- A stack with lanes removed from the entries above the topmost RETURN (R159). -/
def dropAbove (m : BitVec 4) : List MEntry → List MEntry
  | [] => []
  | e :: r => if e.kind = .ret then e :: r else { e with mask := e.mask &&& ~~~m } :: dropAbove m r

/-- The slices of a gang after each has changed, and the gang with those that go on. -/
def applySlices (wp : Warp) (g : Gang) (rs : List (Nat × Slice × Option Word)) : Warp :=
  regroup (rs.foldl (fun w r => setSlice w r.1 r.2.1) wp) g (rs.filterMap fun r => r.2.2.map fun p => (r.1, p))

def execRet (_c : Ctl) (s : State) : Out1 :=
  onGang s fun k =>
    match (slicesOf k.g).find? fun i => !((sliceAt k.wp i).stack.any fun e => e.kind = .ret) with
    | some i => .error (raise .maskStack (some (sliceLow k.wp i)) 1)
    | none =>
      let rs := (slicesOf k.g).map fun i =>
        let sl := sliceAt k.wp i
        (i, unwindSlice { sl with active := 0, stack := dropAbove sl.active sl.stack })
      .ok (modWarp s k.b k.w fun wp => applySlices wp k.g rs)

/-! ## REGANG (R161, R178, R205, R206, R426) -/

/-- The mask with which a gang waits at REGANG. -/
def regangMask (g : Gang) : Option SliceMask :=
  match g.wait with
  | .regang m => some m
  | _ => none

/-- The gangs that wait at REGANG at p. -/
def waitingAt (wp : Warp) (p : Word) : List Gang := wp.gangs.filter fun g => (regangMask g).isSome && g.pc = p

/-- Whether every awaited slice of p that has not ended waits there (R161). -/
def awaitedHere (wp : Warp) (p : Word) : Bool :=
  let gs := waitingAt wp p
  let present := gs.foldl (fun a g => a ||| g.slices) 0
  let awaited := gs.foldl (fun a g => a ||| (regangMask g).getD 0) present
  !gs.isEmpty && (List.range 8).all fun i => !(sliceIn awaited i && (sliceAt wp i).live) || sliceIn present i

/-- The lanes that gang g gives to a merged latch: those of its slices, and, where it holds the lowest slice, those of
ended slices and beyond the width (R178). -/
def latchShare (gs : List Gang) (g : Gang) : LaneMask :=
  let all := gs.foldl (fun a x => a ||| x.slices) 0
  let low := (slicesOf { g with slices := all }).head?.getD 0
  maskOf fun l => sliceIn g.slices (l / 4) || (sliceIn g.slices low && !sliceIn all (l / 4))

/-- The latch of a merged gang (R178), by what the parts' latches hold at the merge, a result still on its way apart (log 120,
DESIGN CHOICE). -/
def mergedLatch (gs : List Gang) : VReg :=
  let lane (l : Nat) : Word :=
    match gs.find? fun g => laneBit (latchShare gs g) l with
    | some g => laneVal g.latch.val l
    | none => 0
  let poison := gs.foldl (fun a g => a ||| (g.latch.poison &&& latchShare gs g)) 0
  match gs with
  | g :: r =>
    match g.latch.val with
    | .u x => if r.all fun h => h.latch.val = .u x then { val := .u x, poison := poison } else { val := mkG lane, poison := poison }
    | _ => { val := mkG lane, poison := poison }
  | [] => VReg.zero

/-- The awaited results of a merged gang's latch (R178). -/
def mergedLat (gs : List Gang) : List (Nat × LaneMask) :=
  let all := gs.flatMap fun g => g.lat.map fun p => (p.1, p.2 &&& latchShare gs g)
  let ids := (all.map (·.1)).eraseDups
  ids.map fun i => (i, (all.filter (·.1 = i)).foldl (fun a p => a ||| p.2) 0)

/-- The gang that holds the lowest-numbered slice. -/
def lowestHolder (gs : List Gang) : Option Gang :=
  (List.range 8).findSome? fun i => gs.find? fun g => sliceIn g.slices i

/-- The merged gang at p + 1 (R161, R178, R199); it issued last when the latest of its parts did (log 119, DESIGN CHOICE). -/
def mergeGangs (wp : Warp) (gs : List Gang) (slot : Fin 3) (p : Word) : Warp :=
  match lowestHolder gs with
  | none => wp
  | some g =>
    let m : Gang :=
      { g with
        gid := gs.foldl (fun a x => min a x.gid) g.gid
        slices := gs.foldl (fun a x => a ||| x.slices) 0
        pc := p + 1, latch := mergedLatch gs, slot := slot, wait := .none, wd := 0
        last := gs.foldl (fun a x => max a x.last) 0
        board := (gs.flatMap (·.board)).eraseDups, lat := mergedLat gs, takes := (gs.flatMap (·.takes)).eraseDups }
    settle { wp with gangs := wp.gangs.filter (fun x => !gs.contains x) ++ [m] }

/-- The gangs that wait at p merge if every awaited slice is there; where some are in a handler and some are not, the
earliest raises ILLEGAL_INSTRUCTION instead (R161, R426). slot is the slot of an arriving gang; waited says whether a lone
gang has waited. -/
def regangTry (s : State) (b w : Nat) (slot : Fin 3) (waited : Bool) (p : Word) : State :=
  match (s.blocks[b]?).bind (·.warps[w]?) with
  | none => s
  | some wp =>
    let gs := waitingAt wp p
    if !awaitedHere wp p then s
    else if gs.any (·.inHandler) && !gs.all (·.inHandler) then
      match eldest gs with
      | none => s
      | some g => takeFault s (.gang b w g.gid) (raise .illegal (some (lowActive wp g)) 8)
    else
      match gs with
      | [g] => modGangW s b w g.gid fun x =>
          { x with pc := x.pc + 1, wait := .none, slot := if waited then x.slot else slot, wd := if waited then 0 else x.wd }
      | gs => modWarp s b w fun wp => mergeGangs wp gs slot p

/-- Every waiting place of a warp is looked at again (R161). -/
def regangPlaces (s : State) (b w : Nat) : State :=
  match (s.blocks[b]?).bind (·.warps[w]?) with
  | none => s
  | some wp =>
    (((wp.gangs.filter fun g => (regangMask g).isSome).map (·.pc)).eraseDups).foldl (fun t p => regangTry t b w 0 true p) s

/-- Where every gang of a warp waits at a REGANG and no awaited set can complete, WATCHDOG is raised at the earliest; where it
goes on, the others may complete without it (R161, R206). -/
def regangDead (s : State) (b w : Nat) : State :=
  match (s.blocks[b]?).bind (·.warps[w]?) with
  | none => s
  | some wp =>
    if wp.gangs.isEmpty || !(wp.gangs.all fun g => (regangMask g).isSome) || wp.gangs.any (awaitedHere wp ·.pc) then s
    else
      match eldest wp.gangs with
      | none => s
      | some g => regangPlaces (takeFault s (.gang b w g.gid) (raise .watchdog (some (lowActive wp g)) 1)) b w

/-- After slices end, every waiting place is looked at again (R161, R206). -/
def regangAll (s : State) (b w : Nat) : State := regangDead (regangPlaces s b w) b w

/-- REGANG (R161): a register operand agrees where its 32-bit words agree (log 117, DESIGN CHOICE). -/
def execRegang (_c : Ctl) (a : Src) (s : State) : Out1 :=
  onGang s fun k => do
    let m ← readUni k (activeLanes k.wp k.g) a
    let mask : SliceMask := m.setWidth 8 &&& sliceMaskOf (List.range k.wp.width.val)
    let s1 := modGang s k.b k.w k.g.gid fun g => { g with wait := .regang mask }
    let s2 := regangTry s1 k.b k.w k.g.slot false k.g.pc
    pure (regangAll (modWarp s2 k.b k.w settle) k.b k.w)

/-! ## EXIT (R162) -/

/-- A slice after lanes end, with its PC, none where it ends (R160, R162). -/
def exitSlice (gone : BitVec 4) (next : Word) (sl : Slice) : Slice × Option Word :=
  let sl1 := { sl with active := sl.active &&& ~~~gone, stack := sl.stack.map fun e => { e with mask := e.mask &&& ~~~gone } }
  if sl1.active = 0 then unwindSlice sl1 else (sl1, some next)

/-- A warp of which no slice is live has ended (R162). -/
def endIfDone (s : State) (b w : Nat) : State :=
  match (s.blocks[b]?).bind (·.warps[w]?) with
  | none => s
  | some wp => if warpEnded wp then endWarp s b w else s

/-- EXIT (R162). A slot that it frees passes before a merge that it completes (R175; log 100, DESIGN CHOICE). -/
def execExit (c : Ctl) (s : State) : Out1 :=
  onLanes s c fun k gone =>
    let rs := (slicesOf k.g).map fun i => (i, exitSlice (sliceLanes gone i) (k.g.pc + 1) (sliceAt k.wp i))
    let s1 := modWarp s k.b k.w fun wp => applySlices wp k.g rs
    .ok (endIfDone (regangAll s1 k.b k.w) k.b k.w)

/-! ## YIELD, SAFE, XFER (R163 to R165, R172, R175) -/

/-- The partition of a warp (R190). -/
def partitionOf (blk : Block) (w : Nat) : Fin 16 := Fin.ofNat 16 (blk.helmPos.val + w)

/-- Whether a warp has a gang that does not wait at a barrier or a blocking point (R172). -/
def warpMoves (wp : Warp) : Bool := wp.gangs.any fun g => keepsSlot g.wait

/-- Whether a warp comes before another: by logical warp index, then, of several blocks, by the block's place (R172; log 101,
DESIGN CHOICE). -/
def warpBefore (a b : Nat × Nat) : Bool := a.2 < b.2 || (a.2 = b.2 && a.1 < b.1)

/-- A warp put into a list in the order of warpBefore. -/
def insertWarp (a : Nat × Nat) : List (Nat × Nat) → List (Nat × Nat)
  | [] => [a]
  | b :: r => if warpBefore a b then a :: b :: r else b :: insertWarp a r

/-- The warps of a partition in deterministic mode that can move, in ascending logical warp index (R172). -/
def detWarps (s : State) (core : Fin 256) (part : Fin 16) : List (Nat × Nat) :=
  ((s.blocks.zipIdx).flatMap fun (blk, b) =>
    if blk.core = core && blk.status = .resident && ((s.nodes[blk.node]?).map (·.det)).getD false then
      ((blk.warps.zipIdx).filter fun p => partitionOf blk p.2 = part && !warpEnded p.1 && warpMoves p.1).map
        fun p => (b, p.2)
    else []).foldl (fun l p => insertWarp p l) []

/-- The next warp after one, cyclically (R172). -/
def nextAfter (cur : Option (Nat × Nat)) (ws : List (Nat × Nat)) : Option (Nat × Nat) :=
  match cur with
  | none => ws.head?
  | some c =>
    match ws.find? (warpBefore c) with
    | some p => some p
    | none => ws.head?

/-- The current warp of a partition: kept while it can move, else replaced by the next (R172). -/
def currentWarp (s : State) (core : Fin 256) (part : Fin 16) : Option (Nat × Nat) :=
  let ws := detWarps s core part
  match s.cores[core].current[part] with
  | some p => if ws.contains p then some p else nextAfter (some p) ws
  | none => ws.head?

/-- A YIELD of the gang of slot 1 in deterministic mode starts a hand-over if slot 2 holds a gang; one of slot 2 ends it
(R172). -/
def handOver (det : Bool) (slot : Fin 3) (wp : Warp) : Warp :=
  if det && slot = 1 then { wp with handover := wp.gangs.any (·.slot = 2) }
  else if slot = 2 then { wp with handover := false }
  else wp

/-- A gang gives its slot to the oldest gang that waits for one, if there is any (R163, R175). -/
def passSlot (wp : Warp) (gid : Nat) (slot : Fin 3) : Warp :=
  match oldestQueued wp.gangs with
  | none => wp
  | some i => { wp with gangs := wp.gangs.map fun g =>
      if g.gid = i then { g with slot := slot } else if g.gid = gid then { g with slot := 0 } else g }

/-- Parties of a block's token in its order: 0 the helm, then the warps; whether one has ended, and whether it stands at
a blocking point (R362). -/
def tokenEnded (blk : Block) (i : Nat) : Bool :=
  if i = 0 then blk.helm.ended else (blk.warps[i - 1]?).elim true warpEnded

def tokenStands (blk : Block) (i : Nat) : Bool :=
  if i = 0 then (match blk.helm.wait with | .none | .page _ _ | .mig _ _ => false | _ => true)
  else (blk.warps[i - 1]?).elim true fun wp => !warpMoves wp

/-- The token passes to the next party that has not ended (R362). -/
def passToken (blk : Block) : Block :=
  let n := blk.warps.length + 1
  match (List.range n).find? fun j => !tokenEnded blk ((blk.token + 1 + j) % n) with
  | some j => { blk with token := (blk.token + 1 + j) % n }
  | none => blk

/-- The token after a step: where its holder has ended or stands at a blocking point, the next party that does neither
takes it (R362; log 37, DEDUCED). -/
def settleToken (blk : Block) : Block :=
  let n := blk.warps.length + 1
  match (List.range n).find? fun j =>
    !tokenEnded blk ((blk.token + j) % n) && !tokenStands blk ((blk.token + j) % n) with
  | some j => { blk with token := (blk.token + j) % n }
  | none => blk

def execYield (c : Ctl) (s : State) : Out1 :=
  onLanes s c fun k _ =>
    let det := ((s.nodes[k.blk.node]?).map (·.det)).getD false
    let s1 := advance (modWarp s k.b k.w fun wp => passSlot (handOver det k.g.slot wp) k.g.gid k.g.slot) k
    let s2 := modWarp s1 k.b k.w fun wp => { wp with yieldAt := s.tick }
    if det then
      let p := partitionOf k.blk k.w
      let nxt := nextAfter (some (k.b, k.w)) (detWarps s2 k.blk.core p)
      let s3 := modBlock s2 k.b fun blk => if blk.token = k.w + 1 then passToken blk else blk
      .ok (modCore s3 k.blk.core fun c => { c with current := c.current.set p nxt })
    else .ok s2

def execSafe (_c : Ctl) (n : BitVec 13) (s : State) : Out1 :=
  onGang s fun k =>
    match k.wp.xferReq with
    | none => .ok (advance s k)
    | some v =>
      if k.g.inHandler then .error (raise .illegal (some (lowActive k.wp k.g)) 8)
      else if k.wp.safeN.isSome && k.wp.safeN != some n then .ok (advance s k)
      else if (mapFor s k.blk.ctx k.wp n.toNat v.toNat).isNone then
        .ok (modWarp (takeFault s s.cur (raise .transferNoMap (some (lowActive k.wp k.g)))) k.b k.w withdraw)
      else
        .ok (modGangW (modWarp s k.b k.w fun wp => { wp with safeN := some n }) k.b k.w k.g.gid
          fun g => { g with wait := .safe n })

/-- XFER (R165); TRANSFER_NO_MAP names the lowest participating lane (log 118, DESIGN CHOICE). -/
def execXfer (c : Ctl) (a : Src) (bk : Bool) (s : State) : Out1 :=
  onLanes s c fun k m => do
    let v ← readUni k m a
    if v.toNat ≥ 65536 || (loadedAs s k.blk.ctx k.wp.dirIdx v.toNat).isNone then
      .error (raise .transferNoMap (some (lowLane m)))
    else
      let r := requestXfer (v.setWidth 16)
      let s1 := if bk then modBlock s k.b fun blk => { blk with warps := blk.warps.map r } else modWarp s k.b k.w r
      pure (advance s1 k)

/-! ## TRAP, NOP, BKPT (R166, R167) -/

def execTrap (c : Ctl) (n : BitVec 13) (s : State) : Out1 :=
  onLanes s c fun k m =>
    if k.g.inHandler then .error (raise .illegal (some (lowLane m)) 8)
    else if k.wp.tvec = 0xFFFFFFFF then .error (raise .illegal (some (lowLane m)) 1 n.toNat)
    else .ok (enterTrap s k (lowLane m) n)

/-- Whether a NOP ends a RECOMP sequence of its gang: it stands in the sequence itself, not in a handler that a fault of the
sequence entered. -/
def endsRecomp (g : Gang) : Bool := g.recomp.any (·.inHandler = g.inHandler)

/-- A gang comes to the end of a RECOMP sequence. The last one takes every gang of the warp to the next record, or to where
it lands, where gangs that wait at one REGANG merge (R410; log 34, DEDUCED). -/
def finishRecomp (s : State) (k : GCtx) : State :=
  let s1 := modGangW s k.b k.w k.g.gid fun g => { g with wait := .recomp }
  match (s1.blocks[k.b]?).bind (·.warps[k.w]?) with
  | none => s1
  | some wp =>
    if recompDone wp then
      regangAll (modWarp s1 k.b k.w fun x => settle { x with gangs := x.gangs.map nextRecomp }) k.b k.w
    else s1

/-- NOP changes no state (R167); in a RECOMP sequence it ends it (R410). -/
def execNop (_c : Ctl) (s : State) : Out1 :=
  onGang s fun k => .ok (if endsRecomp k.g then finishRecomp s k else advance s k)

def execBkpt (c : Ctl) (s : State) : Out1 :=
  onLanes s c fun k _ =>
    if ((s.nodes[k.blk.node]?).map (·.debug)).getD false then
      .ok (modGangW s k.b k.w k.g.gid fun g => { g with wait := .bkpt })
    else .ok (advance s k)

/-! ## VERSION_TRANSFER (R410) -/

/-- VERSION_TRANSFER (R410): the warp moves once each of its gangs stands at SAFE n or at a listed REGANG, its counters are
drained and no result is on its way to its registers, and gangs whose REGANG is now one merge; where every gang stands at a
blocking point but not so, the request is withdrawn (log 34, DEDUCED; log 35, DEDUCED). -/
def execVersionTransfer (b w : Nat) (s : State) : Out1 :=
  match s.blocks[b]? with
  | none => .fault .noParty
  | some blk =>
    match blk.warps[w]? with
    | none => .fault .noParty
    | some wp =>
      match wp.xferReq, wp.safeN with
      | some v, some n =>
        let ctx := blk.ctx
        match mapFor s ctx wp n.toNat v.toNat, loadedAs s ctx wp.dirIdx v.toNat with
        | some m, some (di, _) =>
          let rp := MapHdr.regangPairs s ctx m
          if !wp.gangs.all (standsAt rp n) then
            if wp.gangs.all fun g => atBlocking g.wait then .next (modWarp s b w withdraw) else .next s
          else
            let at_ := wp.drainAt.getD ((List.finRange 4).map fun k => blk.ctxs[k].issued)
            let s1 := modWarp s b w fun x => { x with drainAt := some at_ }
            if !drained blk m at_ || !wp.pend.isEmpty then .next s1
            else
              let rs := MapHdr.records s ctx m
              let mp := MapHdr.maskPairs s ctx m
              let spans := (rs.filter (recKind · = 4)).flatMap fun r => spanAddrs blk wp (bitsOf r 32 32)
              let nw := transferWarp s ctx blk wp m di
              if !(wp.slices.toList.all fun sl => sl.stack.all (entryMapped mp)) then
                .next (failTransfer s b w wp .transferNoMap 1)
              else
                match spans.find? fun va => !spanReadable s ctx va with
                | some va => .next (failTransfer s b w wp .spanProtection 0 va)
                | none =>
                  if linesHeld nw > wp.gmax then .next (failTransfer s b w wp .regpool 0)
                  else if spans.any fun va => sliceHeld s (va - Config.spanBase) then .next s1
                  else .next (regangAll (modWarp s1 b w fun _ => nw) b w)
        | _, _ => .next (failTransfer s b w wp .transferNoMap 0)
      | _, _ => .next s

end Sys2Proof.Machine
end

