-- ==== Sys2Proof/Machine/Mem.lean ====
section
/-!
DEFINITION. Class 010: memory instructions (R128 to R149), and the arrival of their results.
-/
namespace Sys2Proof.Machine

open Sys2Proof

/-! ## Addresses and checks (R130, R131, R134) -/

/-- The effective addresses of the participating lanes, one for the gang where the address is U (R130, R131). -/
def laneEas (k : GCtx) (m : LaneMask) (addr : Fin 128) (off : BitVec 18) :
    Except Raise (Bool × List (Nat × Int)) := do
  let lo ← readV k m (2 * addr.val)
  let hi ← readV k m (2 * addr.val + 1)
  let uni := isU lo && isU hi
  let lanes := if uni then [lowLane m] else lanesOf m
  pure (uni, lanes.map fun l => (l, ((pairLane lo hi l).toNat : Int) + off.toInt))

/-- The lanes' accesses in ascending order, or the first lane that fails with its first failing check (R134). -/
def checkLanes (s : State) (who : Fin 256) (ctx : Fin 64) (f : AccForm) (ver : Bool) (size : Size) :
    List (Nat × Int) → Except (Nat × Int × AErr) (List Checked)
  | [] => .ok []
  | (l, ea) :: r =>
    match checkAcc s (some who) ctx f ver size ea with
    | .error x => .error (l, ea, x)
    | .ok c =>
      match checkLanes s who ctx f ver size r with
      | .error x => .error x
      | .ok cs => .ok ({ c with acc := { c.acc with lane := l } } :: cs)

/-- Enter the continuation of a warp (R397; log 39, DEDUCED). -/
def enterCont (s : State) (k : GCtx) (n lane va ea : Nat) : State :=
  let status := ringAddr s k.blk.ctx n + 24
  let u (x : Nat) : VReg := { val := .u (BitVec.ofNat 32 x), poison := 0 }
  let vals := [u ea, u (ea / 2 ^ 32), u k.g.pc.toNat, u n, u status, u (status / 2 ^ 32)]
  modWarp s k.b k.w fun wp =>
    let w1 := (vals.zipIdx 240).foldl (fun w p => setReg w (Fin.ofNat 256 p.2) p.1) wp
    modGangs w1 k.g.gid fun g =>
      { g with
        contSave := some { latch := g.latch, lat := g.lat, preds := wp.preds, pc := g.pc, va := va, lane := lane, got := 0 }
        pc := wp.cont
        wait := .none
        replay := false }

/-- A page that is not present: its record is written; the gang waits for service, or, where the instruction may and the
warp has registered one, enters its continuation once the record is written (R380, R397). -/
def pageWait (s : State) (k : GCtx) (cont : Bool) (kind : AKind) (ctx va lane ea : Nat) : State :=
  let s1 := ringFault s (Fin.ofNat 64 ctx) va kind.num (some k.blk.core)
  let may := cont && k.wp.cont != 0xFFFFFFFF && k.g.contSave.isNone
  match (s1.ring.find? fun r => r.ctx = ctx && r.die = some (dieOf k.blk.core) && r.vpage = pageBase va).bind (·.n) with
  | some n =>
    if may then enterCont s1 k n lane va ea
    else modGang s1 k.b k.w k.g.gid fun g => { g with wait := .page ctx va lane }
  | none =>
    modGang s1 k.b k.w k.g.gid fun g => { g with wait := if may then .ring ctx va lane ea else .page ctx va lane }

/-- The translations that a gang's accesses used enter the TLBs (R379). -/
def touchAll (s : State) (who : Fin 256) (ctx : Fin 64) (accs : List LaneAcc) : State :=
  accs.foldl (fun t a => if inSpan a.ea then t else touch t (some who) ctx a.ea) s

/-- Whether a place lies in the span. -/
def isSpanLoc : Loc → Bool
  | .span _ => true
  | _ => false

/-- The bytes of device and fabric memory that an access reads and writes: an atomic does both, and elements come with their
scales and dither entries (R358). -/
def accWork (s : State) (core : Fin 256) (ctx : Fin 64) (f : AccForm) (size : Size) (a : LaneAcc) : Nat :=
  if isSpanLoc a.loc then 0
  else if a.els.isEmpty then (if f.kind = .atomic then 2 else 1) * size.bytes
  else
    ((a.els.map (·.loc)).eraseDups).length +
    match pageOf s (some core) ctx f.kind a.ea with
    | .ok p => (match pageEnt s ctx p a.ea with | .ok e => auxWork e a.ea a.els.length | .error _ => 0)
    | .error _ => 0

/-- The bytes that the accesses of an instruction move (R358). -/
def workBytes (s : State) (core : Fin 256) (ctx : Fin 64) (f : AccForm) (size : Size) (accs : List LaneAcc) : Nat :=
  (accs.map (accWork s core ctx f size)).foldl (· + ·) 0

/-- KIND of the record of a page that an access at ea misses: a scale or a dither entry is read (R249, R382). -/
def missKind (f : AccForm) (ea va : Nat) : AKind := if pageBase va = pageBase ea then f.kind else .load

/-- Whether a die's MMU holds as many accesses as it can (R385). -/
def mmuFull (s : State) (core : Fin 256) : Bool :=
  (s.fabOps.filter fun o => o.held && match o.why with
    | .load b _ _ _ | .helmLoad b _ => ((s.blocks[b]?).map fun x => dieOf x.core) = some (dieOf core)
    | .store p _ _ _ => ((s.blocks[partyBlock p]?).map fun x => dieOf x.core) = some (dieOf core)
    | _ => false).length ≥ 4096

/-- A gang whose access to an address cannot be held apart from it waits until the migration of the page, or the copy of the
slice, completes (R385, R435; log 18, DESIGN CHOICE). -/
def holdGang (s : State) (k : GCtx) (ea : Nat) : State :=
  let vp := pageBase ea
  holdFor (modGang s k.b k.w k.g.gid fun g => { g with wait := .mig k.blk.ctx.val vp }) k.blk.ctx.val vp (.party s.cur)

/-- Check every participating lane before any accesses memory, then go on (R134, R385, R435). -/
def withAccs (s : State) (k : GCtx) (m : LaneMask) (cont : Bool) (f : AccForm) (ver : Bool) (size : Size)
    (addr : Fin 128) (off : BitVec 18) (go : State → Bool → List LaneAcc → Except Raise State) : Except Raise State :=
  match laneEas k m addr off with
  | .error e => .error e
  | .ok (uni, eas) =>
    match checkLanes s k.blk.core k.blk.ctx f ver size eas with
    | .error (l, _, .fault c a) => .error (raise c (some l) 0 a)
    | .error (l, ea, .absent ctx va) => .ok (pageWait s k cont (missKind f ea.toNat va) ctx va l ea.toNat)
    | .ok cs =>
      match cs.find? fun c => c.held || (c.acc.mig && mmuFull s k.blk.core) with
      | some c => .ok (holdGang s k c.acc.ea)
      | none =>
        let accs := cs.map (·.acc)
        go (addWork (touchAll s k.blk.core k.blk.ctx accs) k.b 0
          (workBytes s k.blk.core k.blk.ctx f size accs)) uni accs

/-! ## Results that arrive after issue (R49, R176, R179) -/

/-- Registers of a data destination with the lanes that reach them (R129). -/
def dstRegs (d : Dst) (idx : List (Nat × Fin 256)) (n : Nat) : List (Fin 256) :=
  match d with
  | .v r _ | .vo r _ _ => (List.range n).map fun i => Fin.ofNat 256 (r.val + i)
  | .vx _ _ => (idx.map (·.2)).eraseDups
  | _ => []

/-- The lanes that a write to a destination gives to register r: of an indexed one, those that chose it (R51). -/
def lanesTo (d : Dst) (idx : List (Nat × Fin 256)) (m : LaneMask) (r : Fin 256) : LaneMask :=
  match d with
  | .vx _ _ => maskOf fun l => idx.contains (l, r)
  | _ => m

/-- The lines held for a result that arrives later: every destination register that the write could turn G, by its value, by the
lanes it writes, or by an old value that a subword view merges into (R49, R51, R53). -/
def linesFor (wp : Warp) (d : Dst) (idx : List (Nat × Fin 256)) (n : Nat) (mayG : Bool) (m : LaneMask) :
    List (Fin 256) :=
  (dstRegs d idx n).filter fun r => !isG wp.regs[r].val &&
    (mayG || !isFull wp (lanesTo d idx m r) || (dstSubword d && !isU wp.regs[r].val))

/-- A gang that holds lines for the result it issues for, or REGPOOL_EXHAUSTED (R49). -/
def takeLines (k : GCtx) (takes : List (Fin 256)) (m : LaneMask) : Except Raise Unit :=
  checkLines (modGangs k.wp k.g.gid fun g => { g with takes := takes }) m

/-- A pending result is recorded, the scoreboard tracks it and the latch awaits it; the gang goes on (R49, R176, R179). -/
def addPend (s : State) (k : GCtx) (p : Pend) : Except Raise State :=
  let wp := { k.wp with pend := k.wp.pend ++ [p] }
  (checkLines wp p.lanes).map fun _ =>
    advance (modWarp s k.b k.w fun w =>
      modGangs { w with pend := w.pend ++ [p] } k.g.gid fun g =>
        { g with lat := [(p.id, BitVec.allOnes 32)], board := p.id :: g.board }) k

/-- A register after a value arrives; bad lanes take poison (R134). -/
def landReg (full : Bool) (old : VReg) (v : VVal) (m bad : LaneMask) : VReg :=
  let r := mergeReg full old v m
  { r with poison := r.poison ||| bad }

/-- A warp after values arrive at a destination, with the first level's value, none where it is indexed or the latch
(R54, R55). -/
def landDst (wp : Warp) (d : Dst) (idx : List (Nat × Fin 256)) (vals : List VVal) (m bad : LaneMask) :
    Warp × Option VReg :=
  let full := isFull wp m
  let v0 := vals.headD (.u 0)
  match d with
  | .v n _ =>
    let step (acc : Warp × Nat) (v : VVal) : Warp × Nat :=
      let r := Fin.ofNat 256 acc.2
      (setReg acc.1 r (landReg full acc.1.regs[r] v m bad), acc.2 + 1)
    let w := (vals.foldl step (wp, n.val)).1
    (w, some w.regs[n])
  | .o n => let r := landReg full wp.ofile[n] v0 m bad; (setO wp n r, some r)
  | .vo n o _ =>
    let r := landReg full wp.regs[n] v0 m bad
    (setO (setReg wp n r) o (landReg full wp.ofile[o] v0 m bad), some r)
  | .vx _ _ =>
    let w := (idx.map (·.2)).eraseDups.foldl (fun w n =>
      let mm := maskOf fun l => idx.contains (l, n)
      setReg w n (landReg (isFull wp mm) w.regs[n] v0 mm (bad &&& mm))) wp
    (w, none)
  | .latch => (wp, none)

/-- A latch, with the results it awaits, after one of them arrives, in the lanes it awaits it for (R178, R179). Of the poison
of a first level it takes that of the result only (R430). A latch merged before the result came keeps the tag it was merged
with, in the lanes that the result does not write (log 120, DESIGN CHOICE). -/
def landIn (id : Nat) (first : Option VReg) (full : Bool) (v0 : VVal) (m bad : LaneMask)
    (x : VReg × List (Nat × LaneMask)) : VReg × List (Nat × LaneMask) :=
  match x.2.find? (·.1 = id) with
  | none => x
  | some (_, lm) =>
    let r := match first with
      | some y => { y with poison := y.poison &&& bad }
      | none => landReg full x.1 v0 m bad
    let l := if lm = BitVec.allOnes 32 then r
      else
        let y := mergeReg false x.1 r.val lm
        { y with poison := y.poison ||| (r.poison &&& lm) }
    (l, x.2.filter (·.1 != id))

/-- A gang after a result arrives that its latch awaits, or the latch that its continuation has saved (R178, R179, R397). -/
def landLatch (id : Nat) (first : Option VReg) (full : Bool) (v0 : VVal) (m bad : LaneMask) (g : Gang) : Gang :=
  let x := landIn id first full v0 m bad (g.latch, g.lat)
  let c := g.contSave.map fun c =>
    let y := landIn id first full v0 m bad (c.latch, c.lat)
    { c with latch := y.1, lat := y.2 }
  { g with latch := x.1, lat := x.2, contSave := c }

/-- The bytes that a lane's access covers: of the elements of a coded one, else its size (R130, R136). -/
def accBytes (a : LaneAcc) (size : Size) : Nat :=
  match a.els with
  | [] => size.bytes
  | e :: r =>
    let off (l : Loc) : Nat := match l with | .dev x => x | .span x => x | .fab _ _ x => x
    off ((r.getLast?.getD e).loc) - off e.loc + 1

/-- Words of a lane's plain or raw data (R135). -/
def plainWords (size : Size) (sx : Bool) (n : Nat) : List Word :=
  match size with
  | .b8 => [BitVec.ofInt 32 (if sx then sextN 8 n else n)]
  | .b16 => [BitVec.ofInt 32 (if sx then sextN 16 n else n)]
  | _ => (List.range size.regs).map fun i => BitVec.ofNat 32 (n / 2 ^ (32 * i))

/-- What a lane's load gives from its bytes: words and flags (R135, R136). -/
def lanesWords (a : LaneAcc) (size : Size) (sx : Bool) (bytes : List Byte) : List Word × Flags :=
  match a.els with
  | [] => (plainWords size sx (leNat bytes), 0)
  | els =>
    let off (l : Loc) : Nat := match l with | .dev x => x | .span x => x | .fab _ _ x => x
    let base := (els.head?.map fun e => off e.loc).getD 0
    let rs := els.map fun e => decodeElem e.fmt.toNat (bytes.getD (off e.loc - base) 0) e.sub e.d8 e.scale
    (rs.map (·.1), (rs.map (·.2)).foldl (· ||| ·) 0)

/-- What one access of a load reads: words, flags, and whether it, or the read of a scale or dither entry, met uncorrectable
data or failed (R134, R249, R370). -/
def readAcc (s : State) (p : Pend) (sx : Bool) (a : LaneAcc) : List Word × Flags × Bool :=
  let n := accBytes a p.size
  let aux := a.els.any fun e => !e.bad.isEmpty
  if isFab a.loc then
    match p.data.find? (·.1 = a.lane) with
    | some (_, d) => let (w, f) := lanesWords a p.size sx d; (w, f, aux)
    | none => (List.replicate (sizeCount p.size) 0, 0, true)
  else
    let (w, f) := lanesWords a p.size sx (readLoc s a.loc n)
    (w, f, aux || poisonAt s a.loc n)

/-- The values of a load or a returning atomic, its flags and its bad lanes (R131, R136, R141). -/
def pendValues (s : State) (p : Pend) : List VVal × Flags × LaneMask :=
  let rs : List (Nat × List Word × Flags × Bool) := match p.kind with
    | .load _ sx => p.accs.map fun a => (a.lane, readAcc s p sx a)
    | .atomic olds => (lanesOf p.lanes).map fun l =>
      match olds.find? (·.1 = l) with
      | some (_, o) => (l, (plainWords p.size false o.toNat, 0, laneBit p.failed l))
      | none => (l, (List.replicate p.size.regs 0, 0, true))
  let fl := rs.foldl (fun f r => f ||| r.2.2.1) 0
  if p.uni then
    match rs with
    | (_, ws, _, bad) :: _ => (ws.map .u, fl, if bad then p.lanes else 0)
    | [] => ([], fl, 0)
  else
    let at_ (l i : Nat) : Word := ((rs.find? (·.1 = l)).map fun r => r.2.1.getD i 0).getD 0
    ((List.range (sizeCount p.size)).map fun i => mkG fun l => at_ l i, fl,
     maskOf fun l => rs.any fun r => r.1 = l && r.2.2.2)

/-- A pending result takes effect: registers, latches, flags, log of uncorrectable data; a gang that waited for a fabric
load goes on (R49, R134, R135, R179). -/
def landPend (s : State) (b w : Nat) (p : Pend) : State :=
  let (vals, fl, bad) := pendValues s p
  let ctx := ((s.blocks[b]?).map (·.ctx.val)).getD 0
  let logged := p.accs.foldl (fun t a =>
    (a.els.flatMap (·.bad)).foldl (fun u l => logPoison u l ctx)
      (if poisonAt s a.loc (accBytes a p.size) then logPoison t a.loc ctx else t)) s
  let t := modWarp logged b w fun wp =>
    let (w1, first) := landDst wp p.dst p.idx vals p.lanes bad
    let gs := w1.gangs.map fun g =>
      let g1 := landLatch p.id first (isFull wp p.lanes) (vals.headD (.u 0)) p.lanes bad g
      if g1.wait = .fabric p.id then { g1 with wait := .none, wd := 0 } else g1
    settle { w1 with pend := w1.pend.filter (·.id != p.id), gangs := gs }
  raiseFlags t b fl

/-! ## LD (R135 to R137) -/

/-- The fabric reads of a load (R368). -/
def sendReads (s : State) (k : GCtx) (id : Nat) (size : Size) (accs : List LaneAcc) : State :=
  accs.foldl (fun t a =>
    if isFab a.loc then sendFab t a.loc (.read (accBytes a size)) (.load k.b k.w id a.lane) false a.ea else t) s

def execLd (c : Ctl) (d : Dst) (addr : Fin 128) (off : BitVec 18) (ord : Order) (_scope : Scope) (raw sx : Bool)
    (size : Size) (s : State) : Out1 :=
  onResult s c d fun k m => do
    let idx ← dstIdx k d m
    withAccs s k m true (if raw then .ldRaw else .ld) false size addr off fun t uni accs => do
      let id := t.nextId
      let p : Pend :=
        { id := id, kind := .load raw sx, dst := d, idx := idx, lanes := m, accs := accs, size := size, uni := uni,
          acq := ord = .acq, takes := linesFor k.wp d idx size.regs (!uni) m, data := [], failed := 0 }
      let u ← addPend { t with nextId := id + 1 } k p
      let v := sendReads u k id size accs
      if accs.any fun a => isFab a.loc then pure (modGangW v k.b k.w k.g.gid fun g => { g with wait := .fabric id })
      else pure v

/-! ## ST, QST (R138 to R140) -/

/-- The words of a data field, one value a register (R129). -/
def dataVals (k : GCtx) (m : LaneMask) (n : Nat) (src : Src) : Except Raise (List VVal) :=
  match n, src with
  | 1, src => (readSrc k m (.int .w32) false src).map fun v => [v]
  | n, .v r _ => forLanes (fun i => readV k m (r.val + i)) (List.range n)
  | _, src => (readSrc k m (.int .w32) false src).map fun v => [v]

/-- The bytes that lane l stores (R138). -/
def storeBytes (size : Size) (vals : List VVal) (l : Nat) : List Byte :=
  (vals.flatMap fun v => leBytes 4 (laneVal v l).toNat).take size.bytes

/-- The lanes of an access with its place: every participating lane shares a U address (R131). -/
def spreadAccs (uni : Bool) (m : LaneMask) (accs : List LaneAcc) : List LaneAcc :=
  if uni then accs.flatMap fun a => (lanesOf m).map fun l => { a with lane := l } else accs

/-- The physical address of a place of device memory. -/
def devAddr : Loc → Nat
  | .dev a => a
  | _ => 0

/-- The bytes of every lane written in ascending lane order, so the highest lane's remain (R138, R140). -/
def storeLanes (s : State) (t : Report) (ver : Option (BitVec 8)) (ws : List (LaneAcc × List Byte)) : State :=
  match ver with
  | none => ws.foldl (fun u w =>
      if w.1.mig then holdAcc u (tagCtx u t) w.1.loc (.write w.2) (storeWhy t) false w.1.ea
      else writeLoc u (t.at w.1.ea) w.1.loc w.2) s
  | some n => writeVersioned s t n (ws.map fun w => { addr := devAddr w.1.loc, va := w.1.ea, data := w.2, code := none })

def execSt (c : Ctl) (addr : Fin 128) (data : Src) (off : BitVec 18) (_ord : Order) (_scope : Scope) (raw : Bool)
    (ver : Option (BitVec 8)) (size : Size) (s : State) : Out1 :=
  onLanes s c fun k m => do
    let _ ← laneEas k m addr off
    let vals ← dataVals k m size.regs data
    withAccs s k m true (if raw then .stRaw else .st) ver.isSome size addr off fun t uni accs =>
      let ws := (spreadAccs uni m accs).map fun a => (a, storeBytes size vals a.lane)
      .ok (advance (storeLanes t (tagOf s s.cur) ver ws) k)

/-- A code that a lane writes: its element and address, whether a migration holds it, and the code (R139). -/
structure LaneCode where
  el : Elem
  ea : Nat
  mig : Bool
  code : Nat

/-- The codes of a lane's elements, with the flags of their quantisation (R139). -/
def laneCodes (vals : List VVal) (a : LaneAcc) : List (LaneCode × Flags) :=
  (a.els.zip vals).zipIdx.map fun p =>
    let (c, f) := quantise p.1.1.fmt.toNat (unpackF .f32 (laneVal p.1.2 a.lane).toNat) p.1.1.d8 p.1.1.scale
    ({ el := p.1.1, ea := a.ea + p.2, mig := a.mig, code := c }, f)

/-- Codes written in order. One whose scale or dither entry met uncorrectable data has no value: it is not written, and the write
is reported with the event logged (R139, R140, R414; log 98, DESIGN CHOICE). -/
def mergeCodes (s : State) (t : Report) (ver : Option (BitVec 8)) (cs : List LaneCode) : State :=
  let s1 := (cs.filter fun c => !c.el.bad.isEmpty).foldl
    (fun u c => report (c.el.bad.foldl (fun u l => logPoison u l (tagCtx s t)) u) (t.at c.ea) 0) s
  let good := cs.filter fun c => c.el.bad.isEmpty
  match ver with
  | none => good.foldl (fun u c => mergeElem u (t.at c.ea) c.el c.code c.mig) s1
  | some n =>
    writeVersioned s1 t n (good.map fun c =>
      { addr := devAddr c.el.loc, va := c.ea, data := [], code := some (c.el.fmt.toNat, c.el.sub, c.code, c.el.last) })

def execQst (c : Ctl) (addr : Fin 128) (data : Src) (off : BitVec 18) (_ord : Order) (_scope : Scope)
    (ver : Option (BitVec 8)) (size : Size) (s : State) : Out1 :=
  onLanes s c fun k m => do
    let _ ← laneEas k m addr off
    let vals ← dataVals k m size.regs data
    withAccs s k m true .qst ver.isSome size addr off fun t uni accs =>
      let cs := (spreadAccs uni m accs).flatMap (laneCodes vals)
      let fl := cs.foldl (fun f x => f ||| x.2) 0
      .ok (raiseFlags (advance (mergeCodes t (tagOf s s.cur) ver (cs.map (·.1))) k) k.b fl)

/-! ## ATOM (R141, R142) -/

/-- Registers of an atomic's data: twice as many for .cas (R141). -/
def atomRegsOf (op : AtomOp) (size : Size) : Nat := if op = .cas then 2 * size.regs else size.regs

/-- The operands b1 and b2 of lane l. -/
def atomData (size : Size) (vals : List VVal) (l : Nat) : Word64 × Word64 :=
  let w (i : Nat) : Word := ((vals[i]?).map fun v => laneVal v l).getD 0
  match size with
  | .b64 => (w 1 ++ w 0, w 3 ++ w 2)
  | _ => ((w 0).setWidth 64, (w 1).setWidth 64)

/-- The order in which a buffer drains: helm first, then warp and lane ascending (R142, R228). -/
def bufBefore (a b : BufAtom) : Bool :=
  match a.warp, b.warp with
  | none, none => false
  | none, some _ => true
  | some _, none => false
  | some x, some y => x < y || (x = y && a.lane < b.lane)

/-- Insert behind every entry that does not come after it, so program order is kept. -/
def bufInsert (a : BufAtom) : List BufAtom → List BufAtom
  | [] => [a]
  | b :: r => if bufBefore a b then a :: b :: r else b :: bufInsert a r

/-- Whether a fabric operation belongs to a warp (R369). -/
def fabOfWarp (b w : Nat) (o : FabOp) : Bool :=
  match o.why with
  | .load x y _ _ => x = b && y = w
  | .store (.gang x y _) _ _ _ | .waita (.gang x y _) => x = b && y = w
  | _ => false

/-- Whether a fabric operation reads: an atomic does, one that returns nothing too (R132, R141). -/
def fabReads : FabKind → Bool
  | .atomic _ _ _ _ _ _ => true
  | _ => false

/-- Whether a fabric operation belongs to a helm. -/
def fabOfHelm (b : Nat) (o : FabOp) : Bool :=
  match o.why with
  | .helmLoad x _ => x = b
  | .store (.helm x) _ _ _ => x = b
  | _ => false

/-- Whether a place lies in a slice of the span that is being copied into a spare core (R435). -/
def locHeld (s : State) : Loc → Bool
  | .span o => sliceHeld s o
  | .dev _ | .fab _ _ _ => false

/-- Whether a buffered atomic has to wait: for a slice that is copied, for a fabric operation of its party that reads,
acquires, or shares its place, or, as a release, for any (R132, R141, R369, R435; log 102, DEDUCED). -/
def entryWaits (s : State) (b : Nat) (a : BufAtom) : Bool :=
  locHeld s a.loc ||
  s.fabOps.any fun o =>
    (match a.warp with | some w => fabOfWarp b w o | none => fabOfHelm b o) &&
    (a.rel || o.acq || fabReads o.kind || fabMeets o a.loc a.size.bytes)

/-- A buffered atomic performed (R142). -/
def runBuffered (b : Nat) (s : State) (a : BufAtom) : State :=
  let f := faultOf s (.helm b) (raise .storeImprecise none)
  let t : Report :=
    { party := match a.warp with | some w => .gang b w 0 | none => .helm b
      warp := a.warp.getD 0xFFFF, pc := a.pc, incarnation := f.incarnation, cause := 0, addr := a.ea, node := f.node }
  if isFab a.loc then sendFab s a.loc (.atomic a.op a.u a.size a.b1 a.b2 false) (storeWhy t) a.acq a.ea
  else (rmw s t a.loc a.op a.u a.size a.b1 a.b2).1

/-- The entries of a buffer in the order in which they drain (R142, R228). -/
def drainOrder (l : List BufAtom) : List BufAtom := l.foldl (fun l a => bufInsert a l) []

/-- Entries are performed in order up to the first that has to wait; it and those behind it are left. -/
def runEntries (b : Nat) : List BufAtom → State → State × List BufAtom
  | [], s => (s, [])
  | a :: r, s => if entryWaits s b a then (s, a :: r) else runEntries b r (runBuffered b s a)

/-- A flush point: the block's buffer drains as far as it may (R142). -/
def drain (s : State) (b : Nat) : State :=
  match s.blocks[b]? with
  | none => s
  | some blk =>
    let r := runEntries b (drainOrder blk.buffer) s
    modBlock r.1 b fun x => { x with buffer := r.2 }

/-- Whether a buffer cannot drain at the moment: its first entry has to wait. -/
def drainStuck (s : State) (b : Nat) (blk : Block) : Bool :=
  match drainOrder blk.buffer with
  | a :: _ => entryWaits s b a
  | [] => false

/-- Whether a block's node runs in deterministic mode (R448). -/
def isDet (s : State) (blk : Block) : Bool := ((s.nodes[blk.node]?).map (·.det)).getD false

/-- Whether a scope is .wp or .bk. -/
def narrow (sc : Scope) : Bool := sc = .wp || sc = .bk

/-- One lane's atomic at issue: fabric operations are sent, others performed in ascending lane order (R141, R368). -/
def atomLane (k : GCtx) (id : Nat) (t : Report) (op : AtomOp) (u fetch acq : Bool) (size : Size) (vals : List VVal)
    (acc : State × List (Nat × Word64)) (a : LaneAcc) : State × List (Nat × Word64) :=
  let (b1, b2) := atomData size vals a.lane
  if later a then
    (sendAcc acc.1 k.blk.ctx.val a (.atomic op u size b1 b2 fetch) (if fetch then .load k.b k.w id a.lane else storeWhy t)
      acq a.ea, acc.2)
  else
    match rmw acc.1 (t.at a.ea) a.loc op u size b1 b2 fetch with
    | (s1, some o) => (s1, acc.2 ++ [(a.lane, o)])
    | (s1, none) => (s1, acc.2)

def execAtom (c : Ctl) (d : Option Dst) (addr : Fin 128) (data : Src) (op : AtomOp) (u : Bool) (ord : Order)
    (scope : Scope) (size : Size) (s : State) : Out1 :=
  onDst s c d fun k m => do
    let _ ← laneEas k m addr 0
    let vals ← dataVals k m (atomRegsOf op size) data
    let idx ← match d with | some x => dstIdx k x m | none => .ok []
    withAccs s k m true .atom false size addr 0 fun t uni accs => do
      let lanes := spreadAccs uni m accs
      let tag := tagOf s s.cur
      let acq := ord = .acq || ord = .ar
      match d with
      | none =>
        if isDet s k.blk && narrow scope && lanes.any (·.mig) then
          pure (holdGang s k (((lanes.find? (·.mig)).map (·.ea)).getD 0))
        else if isDet s k.blk && narrow scope then
          let es : List BufAtom := lanes.map fun a =>
            let (b1, b2) := atomData size vals a.lane
            { warp := some k.w, lane := a.lane, ea := a.ea, loc := a.loc, op := op, u := u, size := size, b1 := b1, b2 := b2,
              pc := k.g.pc, acq := acq, rel := ord = .rel || ord = .ar }
          pure (advance (modBlock t k.b fun x => { x with buffer := x.buffer ++ es }) k)
        else pure (advance (lanes.foldl (atomLane k 0 tag op u false acq size vals) (t, [])).1 k)
      | some dst =>
        let id := t.nextId
        let fabLanes := maskOf fun l => lanes.any fun a => a.lane = l && later a
        let p0 : Pend :=
          { id := id, kind := .atomic [], dst := dst, idx := idx, lanes := m,
            accs := lanes.filter later, size := size, uni := false, acq := acq,
            takes := linesFor k.wp dst idx size.regs true m, data := [], failed := 0 }
        let _ ← checkLines { k.wp with pend := k.wp.pend ++ [p0] } m
        let (t1, olds) := lanes.foldl (atomLane k id tag op u true acq size vals) ({ t with nextId := id + 1 }, [])
        let bad := m &&& ~~~fabLanes &&& maskOf fun l => !olds.any fun o => o.1 = l
        let v ← addPend t1 k { p0 with kind := .atomic olds, failed := bad }
        pure (if isDet s k.blk && !narrow scope then raiseFlags v k.b Flags.nondet else v)

/-! ## ATOMO (R143 to R146) -/

/-- A contribution to a cell's sum and marks (R143). -/
def addToCell (x : Word) (c : ACell) : ACell :=
  match unpackF .f32 x.toNat with
  | .nan _ => { c with nan := true }
  | .inf n => if n then { c with ninf := true } else { c with pinf := true }
  | .fin n m e => let v : Int := (m * 2 ^ (e + 149).toNat : Nat); { c with sum := if n then c.sum - v else c.sum + v }

/-- Whether a cell that would open finds room, and whether it takes an overflow entry (R145, R454). -/
def cellRoom (s : State) (ctx : Fin 64) (l : Loc) : Option Bool :=
  match l with
  | .span o =>
    let here := (s.cells.filter fun c => match c.loc with
      | .span p => p / Config.spanSlice = o / Config.spanSlice
      | _ => false).length
    if here < 1024 then some false else none
  | .dev a =>
    let here := (s.cells.filter fun c => match c.loc with
      | .dev p => stackOf p = stackOf a && !c.overflow
      | _ => false).length
    if here < 65536 then some false
    else if (s.cells.filter fun c => c.ctx = ctx && c.overflow).length < s.ctxs[ctx].cellLen.toNat then some true
    else none
  | .fab _ _ _ => none

/-- One contribution of a party, at the word's home (R143 to R146); to a word that has an open cell it goes into that cell, of
whichever context the cell is (log 116, DESIGN CHOICE). -/
def contribute (s : State) (t : Report) (b : Nat) (ctx : Fin 64) (l : Loc) (x : Word) : State :=
  let snan := match unpackF .f32 x.toNat with | .nan sg => sg | _ => false
  let found := s.cells.any fun c => c.loc = l
  let add (c : ACell) : ACell :=
    let c1 := { c with count := c.count + 1, nodes := if c.nodes.contains t.node then c.nodes else t.node :: c.nodes }
    if c.poison then c1 else addToCell x c1
  if found then
    let bad := s.cells.any fun c => c.loc = l && c.poison
    raiseFlags { s with cells := s.cells.map fun c => if c.loc = l then add c else c } b
      (Flags.when (snan && !bad) Flags.invalid)
  else
    match cellRoom s ctx l with
    | none => report s t 2
    | some inPool =>
      let bad := poisonAt s l 4
      let c0 : ACell :=
        { loc := l, va := t.addr, ctx := ctx, sum := 0, count := 0, nan := false, pinf := false, ninf := false, poison := bad,
          firstBy := t.party, firstPc := t.pc, firstWarp := t.warp, nodes := [], overflow := inPool }
      let c1 := if bad then c0 else addToCell (BitVec.ofNat 32 (leNat (readLoc s l 4))) c0
      raiseFlags { s with cells := s.cells ++ [add c1] } b (Flags.when (snan && !bad) Flags.invalid)

/-- The word that a closing cell writes, with its flags (R144). -/
def cellWord (c : ACell) : Word × Flags :=
  if c.nan || (c.pinf && c.ninf) || c.count > 2 ^ 32 then (0x7FC00000, Flags.invalid)
  else if c.pinf then (0x7F800000, 0)
  else if c.ninf then (0xFF800000, 0)
  else
    let (r, fl) := roundDy .f32 .rn false { m := c.sum, e := -149 }
    (BitVec.ofNat 32 r, fl)

/-- A cell closes for a node, at its end or at the FENCE.flush of a party: its word is written, or, where it is poisoned,
reported with the tag of its first contribution (R144, R146). -/
def closeCell (node : Nat) (by_ : Option Party) (s : State) (c : ACell) : State :=
  let t : Report :=
    { party := c.firstBy, warp := c.firstWarp, pc := c.firstPc,
      incarnation := ((s.blocks[partyBlock c.firstBy]?).map (·.incarnation)).getD 0, cause := 0, addr := c.va, node := node,
      flush := by_ }
  let s1 := { s with cells := s.cells.filter fun x => x.loc != c.loc }
  if c.poison || poisonAt s c.loc 4 then report s1 t 0
  else
    let (w, fl) := cellWord c
    modNode (writeLoc s1 t c.loc (leBytes 4 w.toNat)) node fun n => { n with summary := n.summary ||| fl }

def execAtomo (c : Ctl) (addr : Fin 128) (data : Src) (off : BitVec 18) (s : State) : Out1 :=
  onLanes s c fun k m => do
    let _ ← laneEas k m addr off
    let v ← readSrc k m (.int .w32) false data
    withAccs s k m true .atomo false .b32 addr off fun t uni accs =>
      let tag := tagOf s s.cur
      .ok (advance ((spreadAccs uni m accs).foldl (fun u a =>
        contribute u (tag.at a.ea) k.b k.blk.ctx a.loc (laneVal v a.lane)) t) k)

/-! ## FENCE, WAITA, PREF (R147 to R149) -/

/-- Close every open cell of a context for the node of a FENCE.flush's issuer (R144, R147). -/
def flushCells (s : State) (ctx : Fin 64) (node : Nat) (by_ : Party) : State :=
  (s.cells.filter fun c => c.ctx = ctx).foldl (closeCell node (some by_)) s

def execFence (c : Ctl) (_ord : Order) (scope : Scope) (flush : Bool) (s : State) : Out1 :=
  onLanes s c fun k _ =>
    let s1 := if scope = .wp then s else drain s k.b
    .ok (advance (if flush then flushCells s1 k.blk.ctx k.blk.node s.cur else s1) k)

/-- A comparison of WAITA and CWAIT on w bits (R148). -/
def wcmp (cmp : WCmp) (w : Nat) (m b : Nat) : Bool :=
  let x := m % 2 ^ w
  let y := b % 2 ^ w
  match cmp with
  | .eq => x = y | .ne => x != y
  | .lt => sextN w x < sextN w y | .ge => sextN w x ≥ sextN w y
  | .ltu => x < y | .geu => x ≥ y

/-- One read of a watched word by a lane that is not satisfied; uncorrectable data satisfies it (R148). -/
def watchLane (s : State) (cmp : WCmp) (size : Size) (w : WaitLane) : WaitLane :=
  if w.got.isSome || w.bad || isFab w.loc then w
  else if poisonAt s w.loc size.bytes then { w with bad := true }
  else
    let v := leNat (readLoc s w.loc size.bytes)
    if wcmp cmp (8 * size.bytes) v w.cmp.toNat then { w with got := some (BitVec.ofNat 64 v) } else w

/-- The values that the lanes of a satisfied WAITA receive, and its bad lanes (R148). -/
def watchValues (uni : Bool) (size : Size) (ls : List WaitLane) : List VVal × LaneMask :=
  let val (l i : Nat) : Word :=
    ((ls.find? (·.lane = l)).bind (·.got)).elim 0 fun v => v.extractLsb' (32 * i) 32
  let low := (ls.head?.map (·.lane)).getD 0
  ((List.range size.regs).map fun i => if uni then .u (val low i) else mkG fun l => val l i,
   maskOf fun l => ls.any fun w => w.lane = l && w.bad)

/-- Whether every lane of a WAITA is satisfied. -/
def watchDone (ls : List WaitLane) : Bool := ls.all fun w => w.got.isSome || w.bad

/-- WAITA completes: its result is written, an indexed one to the registers reached at issue, and the gang goes on (R51, R148);
its lines were counted at issue (R49). -/
def finishWatch (s : State) (k : GCtx) (d : Dst) (idx : List (Nat × Fin 256)) (m : LaneMask) (ls : List WaitLane)
    (size : Size) (uni : Bool) : State :=
  let (vals, bad) := watchValues uni size ls
  let k0 := { k with wp := modGangs k.wp k.g.gid fun g => { g with takes := [], reach := [] } }
  let s0 := modWarp s k.b k.w fun _ => k0.wp
  let logged := ls.foldl (fun t w => if w.bad then logPoison t w.loc k.blk.ctx.val else t) s0
  let (wp, first) := landDst k0.wp d idx vals m bad
  let l := match first with
    | some r => { r with poison := r.poison &&& bad }
    | none => landReg (isFull k.wp m) k.g.latch (vals.headD (.u 0)) m bad
  commit logged { k0 with wp := wp } wp l

/-- The fabric reads of a watch (R368). -/
def sendWatch (s : State) (p : Party) (size : Size) (ls : List WaitLane) : State :=
  ls.foldl (fun t w =>
    if isFab w.loc && w.got.isNone && !w.bad &&
       !(t.fabOps.any fun o => o.why = .waita p && o.loc = w.loc) then sendFab t w.loc (.read size.bytes) (.waita p)
    else t) s

def execWaita (c : Ctl) (d : Dst) (addr : Fin 128) (data : Src) (cmp : WCmp) (_ord : Order) (_scope : Scope)
    (size : Size) (s : State) : Out1 :=
  onResult s c d fun k m => do
    let _ ← laneEas k m addr 0
    let vals ← dataVals k m size.regs data
    let idx ← dstIdx k d m
    withAccs s k m true .watch false size addr 0 fun t uni accs => do
      let both := uni && vals.all isU
      let ls := (spreadAccs uni m accs).map fun a =>
        watchLane t cmp size
          { lane := a.lane, ea := a.ea, loc := a.loc, cmp := (atomData size vals a.lane).1, got := none, bad := false }
      let takes := linesFor k.wp d idx size.regs (!both) m
      takeLines k takes m
      if watchDone ls then pure (finishWatch t k d idx m ls size both)
      else
        pure (modGangW (sendWatch t s.cur size ls) k.b k.w k.g.gid fun g =>
          { g with wait := .waita d m ls cmp size both, takes := takes, reach := idx })

/-- The lanes of a PREF: an active lane whose guard is poisoned is left out, as PREF raises no fault (R149; log 95,
DEDUCED). -/
def prefLanes (k : GCtx) (c : Ctl) : LaneMask :=
  let act := activeLanes k.wp k.g
  if c.pred = 7 then (if c.inv then 0 else act)
  else
    let p := predReg k.wp c.pred
    act &&& ~~~p.poison &&& maskOf fun l => predBit p.val l != c.inv

/-- PREF translates the address of each lane, which passes the checks of a raw load of one byte (R149; log 95, DEDUCED). -/
def execPref (c : Ctl) (addr : Fin 128) (off : BitVec 18) (_kind : PrefKind) (s : State) : Out1 :=
  onGang s fun k =>
    let m := prefLanes k c
    let lo := k.wp.regs[Fin.ofNat 256 (2 * addr.val)]
    let hi := k.wp.regs[Fin.ofNat 256 (2 * addr.val + 1)]
    let good := (lanesOf m).filter fun l => !laneBit (lo.poison ||| hi.poison) l
    .ok (advance (good.foldl (fun t l =>
      let ea : Int := ((pairLane lo.val hi.val l).toNat : Int) + off.toInt
      match checkAcc s (some k.blk.core) k.blk.ctx .ldRaw false .b8 ea with
      | .ok _ => if inSpan ea.toNat then t else touch t (some k.blk.core) k.blk.ctx ea.toNat
      | .error _ => t) s) k)

end Sys2Proof.Machine
end

