-- ==== Sys2Proof/Machine/Sync.lean ====
section
/-!
DEFINITION. Warp-side synchronisation of class 011 (R234 to R240): barriers (R220 to R222), timeline waits (R218, R237),
the decision queue (R212, R213, R238), signals (R239), and the completion of their waits.
-/
namespace Sys2Proof.Machine

open Sys2Proof

/-! ## Barriers (R220 to R222) -/

/-- A barrier after one arrival with count n (R220). -/
def barAfter (br : Bar) (n : Nat) : Bar :=
  if br.arrived + 1 = n then { phase := br.phase + 1, count := 0, arrived := 0 }
  else { br with count := n, arrived := br.arrived + 1 }

/-- The phase in which a party last arrived at a barrier (R221). -/
def lastArrival (blk : Block) (p : BParty) (bar : Nat) : Option Word :=
  (blk.arrivals.find? fun x => x.1 = p && x.2.1 = bar).map (·.2.2)

/-- One arrival of a party at a barrier; none where it overflows (R220 to R222). -/
def arrive (blk : Block) (p : BParty) (bar n : Nat) : Option Block :=
  match blk.bars[bar]? with
  | none => none
  | some br =>
    if n = 0 || n > 1023 || (br.arrived > 0 && br.count != n) then none
    else
      some { blk with
        bars := blk.bars.set bar (barAfter br n)
        arrivals := (p, bar, br.phase) :: blk.arrivals.filter fun x => !(x.1 = p && x.2.1 = bar) }

/-- The phase that a wait of a party is for, and whether it has completed; none where it overflows (R221, R222). -/
def waitPhase (blk : Block) (p : BParty) (bar : Nat) : Option (Word × Bool) :=
  match blk.bars[bar]? with
  | none => none
  | some br =>
    let ph := (lastArrival blk p bar).getD br.phase
    some (ph, ph != br.phase)

/-- Whether a phase of a barrier has completed. -/
def phaseDone (blk : Block) (bar : Nat) (ph : Word) : Bool :=
  match blk.bars[bar]? with
  | none => false
  | some br => ph != br.phase

/-- A gang whose wait has ended goes on at its next PC with its watchdog count at 0 (R421). -/
def wakeGang (s : State) (k : GCtx) : State :=
  modGangW s k.b k.w k.g.gid fun g => { g with wait := .none, wd := 0, pc := g.pc + 1 }

/-- BARA (R221, R236); a BARRIER_OVERFLOW of BARA, BARW or BARS names the lowest participating lane (log 118, DESIGN CHOICE). -/
def execBara (c : Ctl) (b n : Src) (s : State) : Out1 :=
  onLanes s c fun k m => do
    let bar ← readUni k m b
    let cnt ← readUni k m n
    match arrive k.blk (.warp k.w) bar.toNat cnt.toNat with
    | none => .error (raise .barrierOverflow (some (lowLane m)))
    | some blk =>
      .ok (drain (advance (modBlock s k.b fun x => { x with bars := blk.bars, arrivals := blk.arrivals }) k) k.b)

/-- A wait begins or completes at once (R221); the instruction is a flush point (R236; log 81, DEDUCED). -/
def waitBar (s : State) (k : GCtx) (bar : Nat) (r : Word × Bool) : State :=
  let s1 := drain s k.b
  if r.2 then advance s1 k else modGangW s1 k.b k.w k.g.gid fun g => { g with wait := .bar bar r.1 }

def execBarw (c : Ctl) (b : Src) (s : State) : Out1 :=
  onLanes s c fun k m => do
    let bar ← readUni k m b
    match waitPhase k.blk (.warp k.w) bar.toNat with
    | none => .error (raise .barrierOverflow (some (lowLane m)))
    | some r => .ok (waitBar s k bar.toNat r)

def execBars (c : Ctl) (b n : Src) (s : State) : Out1 :=
  onLanes s c fun k m => do
    let bar ← readUni k m b
    let cnt ← readUni k m n
    match arrive k.blk (.warp k.w) bar.toNat cnt.toNat with
    | none => .error (raise .barrierOverflow (some (lowLane m)))
    | some blk =>
      match waitPhase blk (.warp k.w) bar.toNat with
      | none => .error (raise .barrierOverflow (some (lowLane m)))
      | some r =>
        .ok (waitBar (modBlock s k.b fun x => { x with bars := blk.bars, arrivals := blk.arrivals }) k bar.toNat r)

/-- BARRIER_WAIT_COMPLETE: the phase that a gang waits on has completed (R221, R240). -/
def execBarrierWaitComplete (p : Party) (s : State) : Out1 :=
  match gangOf s p with
  | none => .fault .noParty
  | some k =>
    match k.g.wait with
    | .bar bar ph => .next (if phaseDone k.blk bar ph then wakeGang s k else s)
    | _ => .next s

/-! ## TWAIT (R218, R237) -/

/-- Whether an operation numbered n or below has been abandoned (R237). -/
def abandonedBy (e : EngCtx) (n : Nat) : Bool :=
  match e.abandoned with
  | none => false
  | some a => a ≤ n

/-- TWAIT completes: pd is written with the flag that holds at this moment (R237). -/
def finishTwait (s : State) (k : GCtx) (ctx : Fin 4) (n : Word64) (pd : Option (Fin 8)) (m : LaneMask) : State :=
  match pd with
  | none => s
  | some p => modWarp s k.b k.w fun wp =>
      setPred wp p (mergePred (isFull wp m) (predReg wp p) (.u (abandonedBy k.blk.ctxs[ctx] n.toNat)) m)

def execTwait (c : Ctl) (p : Option (Fin 8)) (k : Fin 4) (n : TwN) (s : State) : Out1 :=
  onLanes s c fun g m => do
    let v ← match n with
      | .imm i => pure (i.setWidth 64 : Word64)
      | .pair r => readPairUni g m r
    if g.blk.ctxs[k].done ≥ v.toNat then pure (advance (finishTwait s g k v p m) g)
    else pure (modGangW s g.b g.w g.g.gid fun x => { x with wait := .twait k v p m })

/-- TWAIT_SATISFIED: DONE has reached the number that a gang waits for (R218, R237). -/
def execTwaitSatisfied (p : Party) (s : State) : Out1 :=
  match gangOf s p with
  | none => .fault .noParty
  | some k =>
    match k.g.wait with
    | .twait c n pd m => .next (if k.blk.ctxs[c].done ≥ n.toNat then wakeGang (finishTwait s k c n pd m) k else s)
    | _ => .next s

/-! ## DQPOP (R212, R213, R238) -/

/-- What a pop of a warp delivers: the oldest entry for its role that it has not popped, or, where the helm has ended and
none is left, all ones (R212). The second part is the warp's next position. -/
def popFor (blk : Block) (wp : Warp) : Option (Word × Nat) :=
  match blk.dq.find? fun e => e.mask.getLsbD wp.role.val && wp.dqPos ≤ e.seq with
  | some e => some (e.val, e.seq + 1)
  | none => if blk.helm.ended then some (0xFFFFFFFF, wp.dqPos) else none

/-- Whether another gang of the warp that issued its DQPOP earlier still waits (R213). -/
def popBehind (wp : Warp) (g : Gang) : Bool :=
  wp.gangs.any fun x => x.gid != g.gid && (match x.wait with | .dqpop _ _ => true | _ => false) &&
    (match g.wait with | .dqpop _ _ => x.last < g.last || (x.last = g.last && x.gid < g.gid) | _ => true)

/-- A pop delivers: value and latch are written, an indexed one to the registers reached at issue, the position advances, and
entries that nobody is to pop any more are freed (R51, R213, R238); its lines were counted at issue (R49). -/
def deliverPop (s : State) (k : GCtx) (d : Dst) (idx : List (Nat × Fin 256)) (m : LaneMask) (r : Word × Nat) :
    Except Raise State :=
  let k1 := { k with wp :=
    { modGangs k.wp k.g.gid (fun g => { g with takes := [], reach := [], wait := .none }) with dqPos := r.2 } }
  (writeLevelsAt k1 d idx (.u r.1) m).map fun x => modBlock (commit s k1 x.1 x.2) k.b freeDq

def execDqpop (c : Ctl) (d : Dst) (s : State) : Out1 :=
  onLanes s c fun k m => do
    let idx ← dstIdx k d m
    let takes := linesFor k.wp d idx 1 false m
    takeLines k takes m
    match (if popBehind k.wp k.g then none else popFor k.blk k.wp) with
    | some r => deliverPop s k d idx m r
    | none =>
      pure (modGangW s k.b k.w k.g.gid fun g => { g with wait := .dqpop d m, takes := takes, reach := idx })

/-- DQPOP_DELIVER: an entry for a waiting gang is held, or the helm has ended (R212). -/
def execDqpopDeliver (p : Party) (s : State) : Out1 :=
  match gangOf s p with
  | none => .fault .noParty
  | some k =>
    match k.g.wait with
    | .dqpop d m =>
      if popBehind k.wp k.g then .next s
      else
        match popFor k.blk k.wp with
        | none => .next s
        | some r =>
          match deliverPop s k d k.g.reach m r with
          | .ok t => .next (modGangW t k.b k.w k.g.gid fun g => { g with wd := 0 })
          | .error e => .next (takeFault s p e)
    | _ => .next s

/-! ## SIGOP (R239) -/

/-- The value of a SIGOP. -/
def sigVal (k : GCtx) (m : LaneMask) : SigVal → Except Raise Word64
  | .imm i => .ok (i.signExtend 64)
  | .pair p => readPairUni k m p

def execSigop (c : Ctl) (addr : Fin 128) (val : SigVal) (op : SigOp) (_scope : Scope) (s : State) : Out1 :=
  onLanes s c fun k m => do
    let a ← readPairUni k m addr
    let v ← sigVal k m val
    match checkAcc s (some k.blk.core) k.blk.ctx .atom false .b64 a.toNat with
    | .error (.fault code x) => .error (raise code (some (lowLane m)) 0 x)
    | .error (.absent ctx va) => .ok (pageWait s k false .atomic ctx va (lowLane m) a.toNat)
    | .ok ch =>
      if ch.held || (ch.acc.mig && mmuFull s k.blk.core) then .ok (holdGang s k ch.acc.ea)
      else .ok (advance (signalLoc (touchAll s k.blk.core k.blk.ctx [ch.acc]) ((tagOf s s.cur).at ch.acc.ea) ch.acc op v) k)

end Sys2Proof.Machine
end

