-- ==== Sys2Proof/Machine/Helm.lean ====
section
/-!
DEFINITION. Class 100: the helm (R209, R210, R223 to R233), and the completion of its waits and loads.
-/
namespace Sys2Proof.Machine

open Sys2Proof

/-- Run a helm meaning where its guard is true; a false guard changes nothing and waits for nothing (R223). -/
def onHelmC (s : State) (c : Ctl) (f : HCtx → Except Raise State) : Out1 :=
  onHelm s fun k => if helmGuard k c then f k else .ok (advanceHelm s k.b)

/-- A two-source instruction that writes an s register. -/
def helmBin (s : State) (c : Ctl) (d : Fin 64) (a b : HSrc) (f : Word64 → Word64 → Word64) : Out1 :=
  onHelmC s c fun k => do
    let x ← readH k a
    let y ← readH k b
    pure (putS s k d (f x y))

/-- A bitwise instruction: on s registers, or on q registers (R225). -/
def helmLogic (s : State) (c : Ctl) (d : HDst) (a b : HSrc) (f : Word64 → Word64 → Word64) : Out1 :=
  onHelmC s c fun k => do
    let x ← readH k a
    let y ← readH k b
    match d with
    | .s n => pure (putS s k n (f x y))
    | .q n => pure (putQ s k n (f x y != 0))

/-! ## Arithmetic (R225) -/

def execSadd (c : Ctl) (d : Fin 64) (a b : HSrc) (s : State) : Out1 := helmBin s c d a b fun x y => x + y

def execSsub (c : Ctl) (d : Fin 64) (a b : HSrc) (s : State) : Out1 := helmBin s c d a b fun x y => x - y

def execSmul (c : Ctl) (d : Fin 64) (a b : HSrc) (s : State) : Out1 := helmBin s c d a b fun x y => x * y

def execSand (c : Ctl) (d : HDst) (a b : HSrc) (s : State) : Out1 := helmLogic s c d a b fun x y => x &&& y

def execSor (c : Ctl) (d : HDst) (a b : HSrc) (s : State) : Out1 := helmLogic s c d a b fun x y => x ||| y

def execSxor (c : Ctl) (d : HDst) (a b : HSrc) (s : State) : Out1 := helmLogic s c d a b fun x y => x ^^^ y

def execSshl (c : Ctl) (d : Fin 64) (a b : HSrc) (s : State) : Out1 :=
  helmBin s c d a b fun x y => if y.toNat < 64 then x <<< y.toNat else 0

def execSshr (c : Ctl) (d : Fin 64) (a b : HSrc) (s : State) : Out1 :=
  helmBin s c d a b fun x y => if y.toNat < 64 then x >>> y.toNat else 0

def execSsar (c : Ctl) (d : Fin 64) (a b : HSrc) (s : State) : Out1 :=
  helmBin s c d a b fun x y => x.sshiftRight (min y.toNat 64)

def execSmin (c : Ctl) (d : Fin 64) (a b : HSrc) (u : Bool) (s : State) : Out1 :=
  helmBin s c d a b fun x y => if (if u then decide (x.toNat ≤ y.toNat) else decide (x.toInt ≤ y.toInt)) then x else y

def execSmax (c : Ctl) (d : Fin 64) (a b : HSrc) (u : Bool) (s : State) : Out1 :=
  helmBin s c d a b fun x y => if (if u then decide (x.toNat ≥ y.toNat) else decide (x.toInt ≥ y.toInt)) then x else y

/-! ## Compare, select, move (R226) -/

/-- The comparisons of SCMP. -/
def scmpHolds (cmp : ICmp) (u : Bool) (x y : Word64) : Bool :=
  let a : Int := if u then x.toNat else x.toInt
  let b : Int := if u then y.toNat else y.toInt
  match cmp with
  | .eq => a = b | .ne => a != b | .lt => a < b | .le => a ≤ b | .gt => a > b | .ge => a ≥ b

def execScmp (c : Ctl) (q : Fin 8) (a b : HSrc) (cmp : ICmp) (u : Bool) (s : State) : Out1 :=
  onHelmC s c fun k => do
    let x ← readH k a
    let y ← readH k b
    pure (putQ s k q (scmpHolds cmp u x y))

def execSsel (c : Ctl) (d : Fin 64) (a b : HSrc) (q : Fin 8) (s : State) : Out1 :=
  onHelmC s c fun k => do
    let x ← readH k a
    let y ← readH k b
    pure (putS s k d (if k.blk.helm.q[q] then x else y))

def execSmov (c : Ctl) (d : HDst) (a : HSrc) (s : State) : Out1 :=
  onHelmC s c fun k => do
    let x ← readH k a
    match d with
    | .s n => pure (putS s k n x)
    | .q n => pure (putQ s k n (x != 0))

/-- SMOVI.hi keeps bits 31:0 of its register, and so reads it. -/
def execSmovi (c : Ctl) (d : Fin 64) (imm : Word) (hi : Bool) (s : State) : Out1 :=
  onHelmC s c fun k =>
    if hi then (readS k d).map fun x => putS s k d (imm ++ x.setWidth 32)
    else .ok (putS s k d (imm.signExtend 64))

/-! ## Memory (R227, R228) -/

/-- One checked access of the helm, or its wait for a page or a migration (R134, R380, R385). -/
def helmAcc (s : State) (k : HCtx) (f : AccForm) (size : Size) (ea : Int) (go : State → LaneAcc → Except Raise State) :
    Except Raise State :=
  match checkAcc s (some k.blk.core) k.blk.ctx f false size ea with
  | .error (.fault code a) => .error (raise code none 0 a)
  | .error (.absent ctx va) =>
    .ok (modHelm (ringFault s (Fin.ofNat 64 ctx) va f.kind.num (some k.blk.core)) k.b fun h => { h with wait := .page ctx va })
  | .ok ch =>
    if ch.held || (ch.acc.mig && mmuFull s k.blk.core) then
      let vp := pageBase ch.acc.ea
      .ok (holdFor (modHelm s k.b fun h => { h with wait := .mig k.blk.ctx.val vp }) k.blk.ctx.val vp (.party (.helm k.b)))
    else go (addWork (touchAll s k.blk.core k.blk.ctx [ch.acc]) k.b 0 (workBytes s k.blk.core k.blk.ctx f size [ch.acc])) ch.acc

/-- A pending helm load is recorded and the helm goes on, or, for a fabric load, waits (R227). -/
def addHPend (s : State) (k : HCtx) (p : HPend) (wait : Bool) : State :=
  modHelm s k.b fun h => { h with pend := h.pend ++ [p], pc := h.pc + 1, wait := if wait then .load p.id else .none }

def execSld (c : Ctl) (d a : Fin 64) (off : BitVec 18) (ord : Order) (_scope : Scope) (sx : Bool) (size : Size)
    (s : State) : Out1 :=
  onHelmC s c fun k => do
    let x ← readS k a
    helmAcc s k .watch size ((x.toNat : Int) + off.toInt) fun t acc =>
      let id := t.nextId
      let p : HPend :=
        { id := id, d := d, acc := acc, size := size, sx := sx, old := none, data := none, failed := false,
          acq := ord = .acq }
      let t1 := addHPend { t with nextId := id + 1 } k p (isFab acc.loc)
      .ok (if isFab acc.loc then sendFab t1 acc.loc (.read size.bytes) (.helmLoad k.b id) else t1)

def execSst (c : Ctl) (a : Fin 64) (b : HSrc) (off : BitVec 18) (_ord : Order) (_scope : Scope) (size : Size)
    (s : State) : Out1 :=
  onHelmC s c fun k => do
    let x ← readS k a
    let y ← readH k b
    helmAcc s k .st size ((x.toNat : Int) + off.toInt) fun t acc =>
      let tag := (tagOf s s.cur).at acc.ea
      let bytes := leBytes size.bytes y.toNat
      .ok (advanceHelm (if acc.mig then holdAcc t k.blk.ctx.val acc.loc (.write bytes) (storeWhy tag) false acc.ea
        else writeLoc t tag acc.loc bytes) k.b)

/-- The register b2 of a .cas (R228). -/
def casReg (b : Fin 64) : Fin 64 := Fin.ofNat 64 (b.val + 1)

def execSatom (c : Ctl) (d : Option (Fin 64)) (a b : Fin 64) (op : AtomOp) (u : Bool) (ord : Order) (scope : Scope)
    (size : Size) (s : State) : Out1 :=
  onHelmC s c fun k => do
    let x ← readS k a
    let b1 ← readS k b
    let b2 ← if op = .cas then readS k (casReg b) else pure 0
    helmAcc s k .atom size x.toNat fun t acc =>
      let tag := (tagOf s s.cur).at acc.ea
      let det := isDet s k.blk
      let acq := ord = .acq || ord = .ar
      match d with
      | none =>
        if det && narrow scope && acc.mig then
          .ok (holdFor (modHelm s k.b fun h => { h with wait := .mig k.blk.ctx.val (pageBase acc.ea) }) k.blk.ctx.val
            (pageBase acc.ea) (.party (.helm k.b)))
        else if det && narrow scope then
          let e : BufAtom :=
            { warp := none, lane := 0, ea := acc.ea, loc := acc.loc, op := op, u := u, size := size, b1 := b1, b2 := b2,
              pc := k.blk.helm.pc, acq := acq, rel := ord = .rel || ord = .ar }
          .ok (advanceHelm (modBlock t k.b fun y => { y with buffer := y.buffer ++ [e] }) k.b)
        else if later acc then
          .ok (advanceHelm (sendAcc t k.blk.ctx.val acc (.atomic op u size b1 b2 false) (storeWhy tag) acq acc.ea) k.b)
        else .ok (advanceHelm (rmw t tag acc.loc op u size b1 b2).1 k.b)
      | some dst =>
        let id := t.nextId
        let t0 := { t with nextId := id + 1 }
        let p : HPend :=
          { id := id, d := dst, acc := acc, size := size, sx := false, old := none, data := none, failed := false,
            acq := acq }
        let t1 :=
          if later acc then
            sendAcc (addHPend t0 k p false) k.blk.ctx.val acc (.atomic op u size b1 b2 true) (.helmLoad k.b id) false acc.ea
          else
            let (t2, old) := rmw t0 tag acc.loc op u size b1 b2 true
            addHPend t2 k { p with old := old, failed := old.isNone } false
        .ok (if det && !narrow scope then raiseFlags t1 k.b Flags.nondet else t1)

/-- What a helm load or returning atomic writes, and whether it met uncorrectable data (R224, R227, R228). -/
def hpendValue (s : State) (p : HPend) : Word64 × Bool :=
  match p.old with
  | some o => (o, false)
  | none =>
    let n := p.size.bytes
    let ext (x : Nat) : Word64 := BitVec.ofInt 64 (if p.sx then sextN (8 * n) x else (x : Int))
    if p.failed then (0, true)
    else
      match p.data with
      | some d => (ext (leNat d), false)
      | none => (ext (leNat (readLoc s p.acc.loc n)), poisonAt s p.acc.loc n)

/-- Whether a helm's pending result can be returned: fabric memory has answered it. -/
def hpendReady (p : HPend) : Bool := !later p.acc || p.data.isSome || p.old.isSome || p.failed

/-- HELM_LOAD_RETURN: a load or returning atomic of a helm completes (R224, R227); what an atomic met was logged as it read
(R228). -/
def execHelmLoadReturn (id : Nat) (s : State) : Out1 :=
  match (s.blocks.zipIdx).findSome? fun x => (x.1.helm.pend.find? (·.id = id)).map fun p => (x.2, p) with
  | none => .fault .noParty
  | some (b, p) =>
    if !hpendReady p then .next s
    else
      let (v, bad) := hpendValue s p
      let ctx := ((s.blocks[b]?).map (·.ctx.val)).getD 0
      let s1 := if bad && !p.failed then logPoison s p.acc.loc ctx else s
      .next (modHelm s1 b fun h =>
        let h1 := setS h p.d v
        { h1 with
          poison := h1.poison.set p.d bad
          pend := h.pend.filter (·.id != id)
          wd := if h.wait = .load id then 0 else h.wd
          wait := if h.wait = .load id then .none else h.wait })

/-! ## Branches (R229, R230) -/

def execSbr (c : Ctl) (off : BitVec 32) (s : State) : Out1 :=
  onHelmC s c fun k => .ok (modHelm s k.b fun h => { h with pc := h.pc + off })

def execSjmp (c : Ctl) (a : Fin 64) (s : State) : Out1 :=
  onHelmC s c fun k => (readS k a).map fun x => modHelm s k.b fun h => { h with pc := x.setWidth 32 }

def execScall (c : Ctl) (off : BitVec 32) (s : State) : Out1 :=
  onHelmC s c fun k =>
    if k.blk.helm.stack.length ≥ 16 then .error (raise .maskStack none 2)
    else .ok (modHelm s k.b fun h => { h with stack := (h.pc + 1) :: h.stack, pc := h.pc + off })

def execSret (c : Ctl) (s : State) : Out1 :=
  onHelmC s c fun k =>
    match k.blk.helm.stack with
    | [] => .error (raise .maskStack none 1)
    | p :: r => .ok (modHelm s k.b fun h => { h with stack := r, pc := p })

/-! ## The decision queue (R211, R231) -/

/-- Whether a mask names a declared role (R211). -/
def namesRole (s : State) (blk : Block) (mask : BitVec 4) : Bool :=
  let n := ((s.nodes[blk.node]?).map (·.kd.roles.length)).getD 0
  (List.range (min n 4)).any fun j => mask.getLsbD j

/-- An entry appended; one that no warp will pop is freed at once (R211, R213). -/
def appendDq (v : Word) (mask : BitVec 4) (blk : Block) : Block :=
  freeDq { blk with dq := blk.dq ++ [{ seq := blk.dqNext, val := v, mask := mask }], dqNext := blk.dqNext + 1 }

def execDqpush (c : Ctl) (v m : HSrc) (s : State) : Out1 :=
  onHelmC s c fun k => do
    let x ← readH k v
    let y ← readH k m
    let val : Word := x.setWidth 32
    let mask : BitVec 4 := y.setWidth 4
    if !namesRole s k.blk mask then pure (advanceHelm s k.b)
    else if k.blk.dq.length < 64 then pure (advanceHelm (modBlock s k.b (appendDq val mask)) k.b)
    else pure (modHelm s k.b fun h => { h with wait := .dqpush val mask })

/-- The helm goes on after a wait, with its count at 0 (R421). -/
def wakeHelm (s : State) (b : Nat) : State :=
  modHelm s b fun h => { h with wait := .none, wd := 0, pc := h.pc + 1 }

/-- DQPUSH_APPEND: the queue holds fewer than 64 entries and the waiting push completes (R211, R231). -/
def execDqpushAppend (b : Nat) (s : State) : Out1 :=
  match s.blocks[b]? with
  | none => .fault .noParty
  | some blk =>
    match blk.helm.wait with
    | .dqpush v m => if blk.dq.length < 64 then .next (wakeHelm (modBlock s b (appendDq v m)) b) else .next s
    | _ => .next s

/-! ## FORK, JOIN, HEND (R215, R216, R232, R233) -/

/-- Whether the previous stream of a context has not reached its end (R215). -/
def streamRuns (e : EngCtx) : Bool :=
  match e.stream with
  | some st => st.running
  | none => false

/-- A stream as FORK starts it (R76, R232, R311). -/
def newStream (h : Helm) (entry : Word) : Stream :=
  { running := true, pc := entry, params := h.s, loops := [], rowb := 0, colb := 0, kb := 0, profile := 0,
    granted := none, wait := .none }

/-- Steps 2 to 4 of FORK (R232). An entry that does not translate faults in the stream, when it would issue (R60; log
43, DEDUCED). -/
def forkNow (s : State) (k : HCtx) (ctx : Fin 4) (entry : Word) : Except Raise State :=
  let kind : StreamKind := if ctx = 0 then .matrix else .copy
  let wrong := match fetchWord s k.blk.core k.blk.ctx k.blk.helmDir entry with
    | .ok w => wrongFor kind w
    | .error _ => false
  if wrong then .error (raise .wrongStream none)
  else if (List.finRange 64).any fun n => k.blk.helm.poison[n] then .error (raise .uncorrectable none)
  else .ok (modEng s k.b ctx fun e => { e with stream := some (newStream k.blk.helm entry), forked := true })

def execFork (c : Ctl) (k : Fin 4) (e : HSrc) (s : State) : Out1 :=
  onHelmC s c fun h => do
    let x ← readH h e
    if streamRuns h.blk.ctxs[k] then pure (modHelm s h.b fun y => { y with wait := .fork k (x.setWidth 32) })
    else
      let t ← forkNow s h k (x.setWidth 32)
      pure (advanceHelm t h.b)

/-- FORK_START: the previous stream has ended and the waiting FORK acts (R215, R232). -/
def execForkStart (b : Nat) (s : State) : Out1 :=
  match s.blocks[b]? with
  | none => .fault .noParty
  | some blk =>
    match blk.helm.wait with
    | .fork k e =>
      if streamRuns blk.ctxs[k] then .next s
      else
        match forkNow s { b := b, blk := blk } k e with
        | .ok t => .next (wakeHelm t b)
        | .error r => .next (takeFault (modHelm s b fun h => { h with wait := .none, wd := 0 }) (.helm b) r)
    | _ => .next s

/-- Whether JOIN completes: nothing forked since the last one, or the stream has ended and every operation of the context that a
stream has numbered has completed, those of earlier streams among them and no TGATH (R216; log 122, DESIGN CHOICE). -/
def joinDone (e : EngCtx) : Bool := !e.forked || (!streamRuns e && !e.ops.any (·.warp.isNone))

/-- A JOIN has completed. -/
def joined (s : State) (b : Nat) (k : Fin 4) : State := modEng s b k fun e => { e with forked := false }

def execJoin (c : Ctl) (k : Fin 4) (s : State) : Out1 :=
  onHelmC s c fun h =>
    if joinDone h.blk.ctxs[k] then .ok (advanceHelm (joined s h.b k) h.b)
    else .ok (modHelm s h.b fun y => { y with wait := .join k })

/-- JOIN_COMPLETE: the condition of R216 is met for a waiting JOIN. -/
def execJoinComplete (b : Nat) (s : State) : Out1 :=
  match s.blocks[b]? with
  | none => .fault .noParty
  | some blk =>
    match blk.helm.wait with
    | .join k => if joinDone blk.ctxs[k] then .next (wakeHelm (joined s b k) b) else .next s
    | _ => .next s

/-- HEND ends the helm, once its outstanding loads have completed (R227, R233). -/
def execHend (c : Ctl) (s : State) : Out1 :=
  onHelmC s c fun k =>
    match k.blk.helm.pend with
    | p :: _ => .ok (modHelm s k.b fun h => { h with wait := .load p.id })
    | [] => .ok (modHelm s k.b fun h => { h with ended := true })

end Sys2Proof.Machine
end

