-- ==== Sys2Proof/Machine/Engine.lean ====
section
/-!
DEFINITION. Rows of engine operations: where they lie, the check of R251, reading, and writing (R292, R293, R302 to R307).
The rows of an operation run in their order; a row that waits holds no other row (R293).
-/
namespace Sys2Proof.Machine

open Sys2Proof

/-- Whose accesses an engine makes: the core whose translations it uses, its context, its tag, its block, and why a fabric
operation of row n is sent. -/
structure EAgent where
  who : Option (Fin 256)
  ctx : Fin 64
  tag : Report
  b : Option Nat
  why : Nat → FabFor

/-- What a versioned operation has still to write (R292). -/
abbrev Lines := List VerW

/-- Why a row does not complete: a fault of its operation; a fault that is precise at the sequencer (R298, R429); a page to
wait for, with the kind of its record where it is absent and none where a migration or a takeover holds it; fabric reads to be
sent, by address, place and length; or an outstanding fabric operation of its agent that it overlaps (R293, R369, R385). -/
inductive RowStop where
  | fault (r : Raise)
  | here (r : Raise)
  | page (ctx va : Nat) (kind : Option (BitVec 4))
  | wants (rs : List (Nat × Loc × Nat))
  | busy

/-- A stop from a failed check. -/
def stopOf (k : AKind) : AErr → RowStop
  | .fault c a => .fault (raise c none 0 a)
  | .absent ctx vp => .page ctx vp (some k.num)

/-- An address from an exact value; one outside the address space stays outside (R130). -/
def toAddr (x : Int) : Nat := (x % 2 ^ 64).toNat

/-! ## Runs -/

/-- Units of a row within one page: bytes or words of u bytes on a plain page or in the span, elements on a format page
(R250, R301). off is the place in the row of its first unit. -/
structure Run where
  va : Nat
  off : Nat
  n : Nat
  u : Nat
  loc : Loc
  page : Option Page
  ent : Option FEnt
  mig : Bool

/-- Bytes that a run covers. -/
def Run.bytes (r : Run) : Nat :=
  match r.ent with
  | none => r.n * r.u
  | some e => (elemPlace e.fmt (r.va % 65536 + r.n - 1)).1 - (elemPlace e.fmt (r.va % 65536)).1 + 1

/-- The runs of n units from an address on, each translated and checked (R134, R245, R248). -/
def runsOf (s : State) (a : EAgent) (k : AKind) (u : Nat) : Nat → Nat → Nat → Nat → Except RowStop (List Run)
  | 0, _, _, _ => .ok []
  | fuel + 1, off, va, n =>
    if n = 0 then .ok []
    else if va ≥ Config.vaLimit then .error (.fault (raise .protection none 0 va))
    else
      let room := (65536 - va % 65536) / u
      if inSpan va then
        let m := min n room
        if m = 0 then .error (.fault (raise .misaligned none 0 va))
        else if va ≥ Config.spanBase + Config.spanSize then .error (.fault (raise .protection none 0 va))
        else if !spanAllowed s a.ctx (va - Config.spanBase) (m * u) then .error (.fault (raise .spanProtection none 0 va))
        else if sliceHeld s (va - Config.spanBase) then .error (.page a.ctx.val (pageBase va) none)
        else
          (runsOf s a k u fuel (off + m) (va + m * u) (n - m)).map
            ({ va := va, off := off, n := m, u := u, loc := .span (va - Config.spanBase), page := none, ent := none,
               mig := false } :: ·)
      else
        match pageOf s a.who a.ctx k va with
        | .error x => .error (stopOf k x)
        | .ok p =>
          if p.fmt = 0 then
            let m := min n room
            if m = 0 then .error (.fault (raise .misaligned none 0 va))
            else
              (runsOf s a k u fuel (off + m) (va + m * u) (n - m)).map
                ({ va := va, off := off, n := m, u := u, loc := placeOf a.ctx p 0, page := some p, ent := none,
                   mig := p.mig } :: ·)
          else
            match pageEnt s a.ctx p va with
            | .error x => .error (stopOf k x)
            | .ok e =>
              let m := min n (65536 - va % 65536)
              (runsOf s a k u fuel (off + m) (va + m) (n - m)).map
                ({ va := va, off := off, n := m, u := u, loc := placeOf a.ctx p (elemPlace e.fmt (va % 65536)).1,
                   page := some p, ent := some e, mig := p.mig } :: ·)

/-- The runs of a side. -/
def sideRuns (s : State) (a : EAgent) (k : AKind) (u va n : Nat) : Except RowStop (List Run) :=
  runsOf s a k u (n + 1) 0 va n

/-- Whether a run lies on a format page. -/
def Run.coded (r : Run) : Bool := r.ent.isSome

/-- FORMAT_MISMATCH where a run lies on a format page. -/
def needPlain (rs : List Run) : Except RowStop Unit :=
  match rs.find? (·.coded) with
  | some r => .error (.fault (raise .formatMismatch none 0 r.va))
  | none => .ok ()

/-- Whether a fabric access waits for an outstanding one of its agent that it overlaps: a write for any, a read for one that
writes (R369). -/
def fabBusy (s : State) (a : EAgent) (wr : Bool) (r : Run) : Bool :=
  isFab r.loc && s.fabOps.any fun o => sameAgent o.why (a.why 0) && (wr || !isRead o.kind) && fabMeets o r.loc r.bytes

/-- A write to a migrating page is held (R385); one of a versioned operation needs device memory (R302); one that overlaps an
outstanding fabric operation of its agent waits for it (R369). -/
def needWritable (s : State) (a : EAgent) (ver : Option (BitVec 8)) (rs : List Run) : Except RowStop Unit :=
  match rs.find? fun r => ver.isSome && (match r.loc with | .dev _ => false | _ => true) with
  | some r => .error (.fault (raise .protection none 0 r.va))
  | none =>
    match rs.find? (·.mig) with
    | some r => .error (.page a.ctx.val (pageBase r.va) none)
    | none => if rs.any (fabBusy s a true) then .error .busy else .ok ()

/-! ## Reading -/

/-- The bytes of every run, or the fabric reads that are still to be made (R369, R431). -/
def readRuns (s : State) (a : EAgent) (row : Row) (rs : List Run) : Except RowStop (List (Run × List Byte)) :=
  match rs.find? fun r => poisonAt s r.loc r.bytes with
  | some r => .error (.fault (raise .uncorrectable none 0 r.va))
  | none =>
    let got (r : Run) : Option (List Byte) := (row.data.find? fun x => x.1 = r.va && x.2.length = r.bytes).map (·.2)
    let missing := rs.filter fun r => isFab r.loc && (got r).isNone
    if missing.isEmpty then
      .ok (rs.map fun r => (r, if isFab r.loc then (got r).getD [] else readLoc s r.loc r.bytes))
    else
      let free := missing.filter fun r => !fabBusy s a false r
      if free.isEmpty then .error .busy else .error (.wants (free.map fun r => (r.va, r.loc, r.bytes)))

/-- The codes of a run's elements: each element's byte, its place in it, and its place in its page (R250). -/
def runCodes (r : Run) (f : Nat) (bytes : List Byte) : List (Byte × Nat × Nat) :=
  let i0 := r.va % 65536
  let b0 := (elemPlace f i0).1
  (List.range r.n).map fun j => let p := elemPlace f (i0 + j); (bytes.getD (p.1 - b0) 0, p.2, i0 + j)

/-! ## Writing -/

/-- Bytes written by row n at a virtual address. Those of a versioned operation join its other writes: a line is checked once,
as it is written (R140, R270, R292). -/
def putBytes (a : EAgent) (n : Nat) (ver : Option (BitVec 8)) (acc : State × Lines) (va : Nat) (l : Loc)
    (bytes : List Byte) : State × Lines :=
  if bytes.isEmpty then acc
  else
    match l, ver with
    | .dev x, some _ => (acc.1, acc.2 ++ [{ addr := x, va := va, data := bytes, code := none }])
    | .fab _ _ _, _ => (sendFab acc.1 l (.write bytes) (a.why n) false va (some a.tag), acc.2)
    | l, _ => (writeLoc acc.1 (a.tag.at va) l bytes, acc.2)

/-- A code merged into its byte by row n (R139, R368). -/
def putCode (a : EAgent) (n : Nat) (ver : Option (BitVec 8)) (f : Nat) (acc : State × Lines) (va : Nat) (l : Loc)
    (sub code : Nat) (last : Bool) : State × Lines :=
  match l, ver with
  | .fab _ _ _, _ => (sendFab acc.1 l (fabCode (BitVec.ofNat 4 f) sub code last) (a.why n) false va (some a.tag), acc.2)
  | .dev x, some _ => (acc.1, acc.2 ++ [{ addr := x, va := va, data := [], code := some (f, sub, code, last) }])
  | l, _ => putBytes a n none acc va l [mergeCode f ((readLoc acc.1 l 1).headD 0) sub code last]

/-- Where a write that a versioned operation has gathered goes now: its page may have moved since its row was performed (R292,
R385). -/
def verPlace (s : State) (a : EAgent) (w : VerW) : Except RowStop VerW :=
  match pageOf s a.who a.ctx .engW w.va with
  | .error x => .error (stopOf .engW x)
  | .ok p =>
    if p.mig then .error (.page a.ctx.val (pageBase w.va) none)
    else if p.tier then .error (.fault (raise .protection none 0 w.va))
    else if p.fmt = 0 then .ok { w with addr := p.base }
    else
      match pageEnt s a.ctx p w.va with
      | .error x => .error (stopOf .engW x)
      | .ok e => .ok { w with addr := p.base + (elemPlace e.fmt (w.va % 65536)).1 }

/-- Map in order, stopping at the first that stops. -/
def mapStop {α β : Type} (f : α → Except RowStop β) : List α → Except RowStop (List β)
  | [] => .ok []
  | x :: r =>
    match f x with
    | .error e => .error e
    | .ok y => (mapStop f r).map (y :: ·)

/-- What a versioned operation has gathered is written (R292). -/
def putRow (s : State) (a : EAgent) (ver : Option (BitVec 8)) (ws : Lines) : Except RowStop (State × Lines × Flags) :=
  match ver with
  | none => .ok (s, [], 0)
  | some n => (mapStop (verPlace s a) ws).map fun xs => (writeVersioned s a.tag n xs, [], 0)

/-- What an abandoned versioned operation had gathered is written where it can be at once (R219, R293; log 19, DEDUCED). -/
def flushVer (s : State) (a : EAgent) (ver : Option (BitVec 8)) (ws : Lines) : State :=
  match ver with
  | none => s
  | some n => writeVersioned s a.tag n (ws.filterMap fun w => (verPlace s a w).toOption)

/-- What one byte of a coded destination receives: a whole byte, or codes at some places; last names the last byte of a
ternary page, whose digits 1 to 4 a merge writes as 0 (R21, R139). -/
inductive CodeW where
  | whole (off : Nat) (b : Byte)
  | part (off : Nat) (cs : List (Nat × Nat)) (last : Bool)

/-- The code of a source element in a raw copy; a digit taken from a reserved byte is 0 (R21). -/
def rawCode (f : Nat) (b : Byte) (sub : Nat) : Nat := if reservedTern f b then 0 else codeAt f b sub

/-- Codes of a raw copy placed from element i of a page on, byte by byte; five digits of one byte pass unchanged, and a
reserved byte taken in part raises corrupt code (R21). A reserved byte whose five digits go to two destination bytes, or to two
rows, counts as taken in part at each (log 103, DESIGN CHOICE). -/
def packRaw (f : Nat) : Nat → Nat → List (Byte × Nat × Nat) → List CodeW × Flags
  | 0, _, _ => ([], 0)
  | _, _, [] => ([], 0)
  | fuel + 1, i, xs =>
    let (off, sub) := elemPlace f i
    let g := min xs.length (if f = 7 && off = 13107 then 1 else perByte f - sub)
    let here := xs.take g
    let (rest, fl) := packRaw f fuel (i + g) (xs.drop g)
    match here with
    | [] => (rest, fl)
    | (b0, s0, e0) :: _ =>
      let same := here.all fun x => x.1 = b0 && x.2.2 / perByte f = e0 / perByte f
      if sub = 0 && g = perByte f && s0 = 0 && same then (.whole off b0 :: rest, fl)
      else
        let bad := here.any fun x => reservedTern f x.1
        let cs := here.zipIdx.map fun x => (sub + x.2, rawCode f x.1.1 x.1.2.1)
        let w : CodeW :=
          if g = perByte f && sub = 0 then
            .whole off (cs.foldl (fun b c => mergeCode f b c.1 c.2 false) 0)
          else .part off cs (f = 7 && off = 13107)
        (w :: rest, fl ||| Flags.when bad Flags.corrupt)

/-- Whole bytes that follow one another are written as one; va gives the element address of a byte. -/
def putCodes (a : EAgent) (n : Nat) (ver : Option (BitVec 8)) (f : Nat) (base : Loc) (va : Nat → Nat) :
    List CodeW → Option (Nat × List Byte) → State × Lines → State × Lines
  | [], none, acc => acc
  | [], some (o, bs), acc => putBytes a n ver acc (va o) (locAdd base o) bs
  | .whole off b :: r, none, acc => putCodes a n ver f base va r (some (off, [b])) acc
  | .whole off b :: r, some (o, bs), acc =>
    if o + bs.length = off then putCodes a n ver f base va r (some (o, bs ++ [b])) acc
    else putCodes a n ver f base va r (some (off, [b])) (putBytes a n ver acc (va o) (locAdd base o) bs)
  | .part off cs last :: r, p, acc =>
    let acc1 := match p with
      | some (o, bs) => putBytes a n ver acc (va o) (locAdd base o) bs
      | none => acc
    putCodes a n ver f base va r none
      (cs.foldl (fun w c => putCode a n ver f w (va off) (locAdd base off) c.1 c.2 last) acc1)

/-! ## Raw rows (R251, R292) -/

/-- The check of R251 on the part that a source and a destination run share. -/
def pairOk (x y : Run) : Option FCode :=
  let o := max x.off y.off
  if o ≥ min (x.off + x.n) (y.off + y.n) then none
  else
    match x.ent, y.ent with
    | none, none => none
    | some e, some d =>
      if e.fmt = d.fmt && e.den = d.den && (!e.den || e.dither = d.dither) &&
         domainIndex e (x.va + (o - x.off)) = domainIndex d (y.va + (o - y.off)) then none
      else some .ditherMismatch
    | _, _ => some .formatMismatch

/-- The first failure of R251 between two sides. -/
def rawCheck (xs ys : List Run) : Except RowStop Unit :=
  match xs.findSome? fun x => ys.findSome? fun y => (pairOk x y).map fun c => (c, y.va) with
  | some (c, va) => .error (.fault (raise c none 0 va))
  | none => .ok ()

/-- Both sides of a raw row (R302). -/
def rawSides (s : State) (a : EAgent) (src dst len : Nat) : Except RowStop (List Run × List Run) := do
  let xs ← sideRuns s a .engR 1 src len
  let ys ← sideRuns s a .engW 1 dst len
  rawCheck xs ys
  pure (xs, ys)

/-- What a row gives when it completes: the state, lines, and flags. -/
abbrev RowOut := State × Lines × Flags

/-- The part of a source run's units that a destination run takes (R251). -/
def shared {α : Type} (x y : Run) (units : List α) : List α :=
  let o := max x.off y.off
  (units.drop (o - x.off)).take (min (x.off + x.n) (y.off + y.n) - o)

/-- One destination run of a raw row: bytes from plain sources, codes from coded ones, as R251 pairs them. -/
def rawRun (a : EAgent) (n : Nat) (ver : Option (BitVec 8)) (data : List (Run × List Byte)) (w : (State × Lines) × Flags)
    (y : Run) : (State × Lines) × Flags :=
  match y.ent with
  | none =>
    let bytes := data.flatMap fun x => if x.1.coded then [] else shared x.1 y x.2
    (putBytes a n ver w.1 y.va y.loc bytes, w.2)
  | some e =>
    let f := e.fmt
    let i := y.va % 65536
    let codes := data.flatMap fun x => match x.1.ent with
      | none => []
      | some d => shared x.1 y (runCodes x.1 d.fmt x.2)
    let (cs, fl) := packRaw f (y.n + 1) i codes
    let off0 := (elemPlace f i).1
    let cs0 := cs.map fun c => match c with
      | .whole o b => CodeW.whole (o - off0) b
      | .part o xs last => CodeW.part (o - off0) xs last
    let va (o : Nat) : Nat := max y.va (pageBase y.va + (off0 + o) * perByte f)
    (putCodes a n ver f y.loc va cs0 none w.1, w.2 ||| fl)

/-- One raw row. -/
def rawRow (s : State) (a : EAgent) (ver : Option (BitVec 8)) (lines : Lines) (row : Row) (src dst len : Nat) :
    Except RowStop RowOut := do
  let (xs, ys) ← rawSides s a src dst len
  needWritable s a ver ys
  let data ← readRuns s a row xs
  let w := ys.foldl (rawRun a row.n ver data) ((s, lines), 0)
  pure (w.1.1, w.1.2, w.2)

/-- One row of a TGATH: a format page on either side is fatal (R308). -/
def gatherRow (s : State) (a : EAgent) (lines : Lines) (row : Row) (src dst len : Nat) : Except RowStop RowOut := do
  let xs ← sideRuns s a .engR 1 src len
  let ys ← sideRuns s a .engW 1 dst len
  needPlain xs
  needPlain ys
  rawRow s a none lines row src dst len

/-- UNCORRECTABLE of a read that met it, with its cause: 1 where the fabric answered with an error (R370, R412). -/
def badRead (l : Loc) (va : Nat) : RowStop := .fault (raise .uncorrectable none (if isFab l then 1 else 0) va)

/-- Whether the read of n bytes of a descriptor, a list or a scale meets uncorrectable data or fails (R370, R431). -/
def readFails (s : State) (l : Loc) (n : Nat) : Bool :=
  match l with
  | .fab _ _ _ => (List.range n).any fun i => auxBad s (locAdd l i) 1
  | l => poisonAt s l n

/-- Bytes of a descriptor, a list or an image, on plain pages or in the span; those of fabric memory are free, and so is
whether their read fails (R370, log 14, DESIGN CHOICE). -/
def engBytes (s : State) (a : EAgent) (k : AKind) (va n : Nat) : Except RowStop (List Byte) := do
  let rs ← sideRuns s a k 1 va n
  needPlain rs
  match rs.find? fun r => readFails s r.loc r.bytes with
  | some r => .error (badRead r.loc r.va)
  | none =>
    pure (rs.flatMap fun r => match r.loc with
      | .fab _ e x => (List.range r.bytes).map fun i => Config.remote e (x + i) s.tick
      | l => readLoc s l r.bytes)

/-- n bytes of a scale or a dither table that an engine reads (R249, R370). -/
def engAux (s : State) (a : EAgent) (n va : Nat) : Except RowStop (List Byte) :=
  match auxBytes s a.who a.ctx .engR n va with
  | .error x => .error (stopOf .engR x)
  | .ok bs =>
    match (List.range n).findSome? fun i => match auxLoc s a.who a.ctx .engR (va + i) with
      | .ok l => if auxBad s l 1 then some (badRead l (va + i)) else none
      | .error _ => none with
    | some x => .error x
    | none => .ok bs

/-! ## CRED and CFILL (R304, R305) -/

/-- The addresses and places of the 4-byte words of plain runs. -/
def wordLocs (rs : List Run) : List (Nat × Loc) :=
  rs.flatMap fun r => (List.range (r.n * r.u / 4)).map fun j => (r.va + 4 * j, locAdd r.loc (4 * j))

/-- The little-endian words of bytes. -/
def wordsOf (bs : List Byte) : List Word :=
  (List.range (bs.length / 4)).map fun j => BitVec.ofNat 32 (leNat ((bs.drop (4 * j)).take 4))

/-- One element of a reduction (R304). -/
def redOne (a : EAgent) (n op : Nat) (s : State) (p : Nat × Loc) (x : Word) : State :=
  let (va, l) := p
  if op = 3 then contribute s (a.tag.at va) (a.b.getD 0) a.ctx l x
  else
    let o : AtomOp := if op = 0 then .add else if op = 1 then .min else .max
    if isFab l then sendFab s l (.atomic o false .b32 (x.setWidth 64) 0 false) (a.why n) false va (some a.tag)
    else (rmw s (a.tag.at va) l o false .b32 (x.setWidth 64) 0).1

/-- One row of CRED. -/
def redRow (s : State) (a : EAgent) (lines : Lines) (row : Row) (src dst len op : Nat) : Except RowStop RowOut := do
  let xs ← sideRuns s a .engR 1 src len
  let ys ← sideRuns s a .engW 1 dst len
  needPlain xs
  needPlain ys
  needWritable s a none ys
  match ys.find? fun y => op = 3 && isFab y.loc with
  | some y => .error (.fault (raise .protection none 0 y.va))
  | none =>
    let data ← readRuns s a row xs
    let ws := wordsOf (data.flatMap (·.2))
    pure (((wordLocs ys).zip ws).foldl (fun t p => redOne a row.n op t p.1 p.2) s, lines, 0)

/-- One row of CFILL. -/
def fillRow (s : State) (a : EAgent) (ver : Option (BitVec 8)) (lines : Lines) (row : Row) (dst len : Nat) (pat : Word64)
    (w : Nat) : Except RowStop RowOut := do
  let ys ← sideRuns s a .engW 1 dst len
  needPlain ys
  needWritable s a ver ys
  let bytes : List Byte := (List.range len).map fun i => pat.extractLsb' (8 * (i % w)) 8
  let r := ys.foldl (fun x y => putBytes a row.n ver x y.va y.loc ((bytes.drop y.off).take y.n)) (s, lines)
  pure (r.1, r.2, 0)

/-! ## CRECODE (R307) and quantised stores (R290, R316) -/

/-- The elements of coded runs, by address, with their dither and scale (R27); a scale or dither entry that met uncorrectable
data or whose read failed is a fault of the row (R370, R431). -/
def runElems (s : State) (a : EAgent) (r : Run) : Except RowStop (List (Nat × Elem)) :=
  match r.page, r.ent with
  | some p, some e =>
    match elemsOf s a.who a.ctx .engR p e r.n r.va with
    | .error x => .error (stopOf .engR x)
    | .ok xs =>
      let ys := xs.zipIdx.map fun x => (r.va + x.2, x.1)
      match ys.findSome? fun y => (y.2.bad.head?).map fun l => badRead l y.1 with
      | some x => .error x
      | none => .ok ys
  | _, _ => .ok []

/-- A value quantised at its destination element and merged (R30, R139). -/
def putElem (a : EAgent) (n : Nat) (ver : Option (BitVec 8)) (x : FVal) (acc : (State × Lines) × Flags)
    (p : Nat × Elem) : (State × Lines) × Flags :=
  let e := p.2
  let (c, fl) := quantise e.fmt.toNat x e.d8 e.scale
  (putCode a n ver e.fmt.toNat acc.1 p.1 e.loc e.sub c e.last, acc.2 ||| fl)

/-- Bytes of one unit on the side that an address begins: 4 for FP32 words on a plain side, 1 for elements. -/
def sideUnit (s : State) (a : EAgent) (k : AKind) (va : Nat) : Except RowStop Nat := do
  let rs ← sideRuns s a k 1 va 1
  pure (if rs.any (·.coded) then 1 else 4)

/-- MISALIGNED for a word of a plain side that is not 4-byte aligned (R307). -/
def aligned (u : Nat) (vas : List Nat) : Except RowStop Unit :=
  match vas.find? fun v => v % u != 0 with
  | some v => .error (.fault (raise .misaligned none 0 v))
  | none => .ok ()

/-- A side of one kind: every run coded for unit 1, plain for unit 4. -/
def oneKind (u : Nat) (rs : List Run) : Except RowStop Unit :=
  match rs.find? fun r => r.coded != (u = 1) with
  | some r => .error (.fault (raise .formatMismatch none 0 r.va))
  | none => .ok ()

/-- One row of CRECODE: decoded at the source, quantised or stored at the destination (R307). -/
def recodeRow (s : State) (a : EAgent) (ver : Option (BitVec 8)) (lines : Lines) (row : Row) (src dst r n : Nat)
    (ds : Int) (t : Bool) : Except RowStop RowOut := do
  let us ← sideUnit s a .engR src
  let ud ← sideUnit s a .engW dst
  if us = 4 && ud = 4 then .error (.fault (raise .formatMismatch none 0 dst))
  else
    aligned us [src]
    let dvas := (List.range n).map fun (c : Nat) =>
      toAddr (if t then (dst : Int) + (c : Int) * ds + (ud * r : Nat) else (dst : Int) + (r : Int) * ds + (ud * c : Nat))
    aligned ud dvas
    let xs ← sideRuns s a .engR us src n
    oneKind us xs
    let ys ← (mapStop (fun v => sideRuns s a .engW ud v 1) dvas).map List.flatten
    oneKind ud ys
    needWritable s a ver ys
    let data ← readRuns s a row xs
    let elems ← mapStop (fun x => (runElems s a x.1).map fun es => (x, es)) data
    let vals : List (Word × Flags) := elems.flatMap fun x =>
      let ((run, bytes), es) := x
      if us = 4 then (wordsOf bytes).map fun w => (w, 0)
      else (es.zip (runCodes run (es.head?.map (·.2.fmt.toNat) |>.getD 0) bytes)).map fun p =>
        decodeElem p.1.2.fmt.toNat p.2.1 p.1.2.sub p.1.2.d8 p.1.2.scale
    let fl := vals.foldl (fun f v => f ||| v.2) 0
    if ud = 4 then
      let w := (ys.zip vals).foldl (fun w p => putBytes a row.n ver w p.1.va p.1.loc (leBytes 4 p.2.1.toNat)) (s, lines)
      pure (w.1, w.2, fl)
    else
      let des ← (mapStop (runElems s a) ys).map List.flatten
      let w := (des.zip vals).foldl (fun w p => putElem a row.n ver (unpackF .f32 p.2.1.toNat) w p.1) ((s, lines), fl)
      pure (w.1.1, w.1.2, w.2)

/-! ## CSLOT rows (R278, R282, R306) -/

/-- Elements of a row of a slot format (R278). -/
def slotK (f : Nat) : Nat := if f = 1 then 64 else if f = 6 then 256 else if f = 7 then 640 else 128

/-- Bytes that n elements of a slot format take (R278). -/
def slotBytesOf (f n : Nat) : Nat :=
  if f = 1 then 2 * n else if f = 6 then (n + 1) / 2 else if f = 7 then (n + 4) / 5 else n

/-- Codes packed from element 0 on (R278); a slot byte that takes a digit of a reserved byte is reserved (log 20,
DEDUCED). -/
def packSlot (f : Nat) (xs : List (Byte × Nat × Nat)) : List Byte :=
  (List.range (slotBytesOf f xs.length)).map fun j =>
    let here := (xs.drop (j * perByte f)).take (perByte f)
    if here.any fun x => reservedTern f x.1 then 243
    else here.zipIdx.foldl (fun b x => mergeCode f b x.2 (codeAt f x.1.1 x.1.2.1) false) 0

/-- The scales of a slot's rows with that of row r set. -/
def setScale (l : List (BitVec 16)) (r : Nat) (sc : BitVec 16) : List (BitVec 16) :=
  (l ++ List.replicate (r + 1 - l.length) 0x3F80).set r sc

/-- One row of a fill: its bytes and, from a format page, its scale (R281, R306). -/
def slotRow (s : State) (a : EAgent) (row : Row) (fl : Fill) (src r n : Nat) : Except RowStop Fill := do
  let f := fl.origin.fmt.toNat
  if fl.origin.plain then
    let xs ← sideRuns s a .engR 1 src (slotBytesOf f n)
    needPlain xs
    let data ← readRuns s a row xs
    pure { fl with rows := fl.rows ++ [(r, data.flatMap (·.2))] }
  else
    let xs ← sideRuns s a .engR 1 src n
    match xs.find? fun x => (match x.ent with
      | some e => e.fmt != f || e.den != fl.origin.den || (e.den && e.dither != fl.origin.dither)
      | none => true) with
    | some x => .error (.fault (raise .formatMismatch none 0 x.va))
    | none =>
      let blocks := xs.flatMap fun x => match x.ent with
        | some e => [scaleAddr e (domainIndex e x.va), scaleAddr e (domainIndex e (x.va + x.n - 1))]
        | none => []
      match blocks with
      | [] => .ok fl
      | sa :: rest =>
        if rest.any (· != sa) then .error (.fault (raise .slotState none 0 src))
        else
          match engAux s a 2 sa with
          | .error x => .error x
          | .ok sc =>
            let data ← readRuns s a row xs
            let codes := data.flatMap fun x => runCodes x.1 f x.2
            let whole := codes.zipIdx.all fun x => x.1.2.1 = x.2 % perByte f
            let bytes := if whole then data.flatMap (·.2) else packSlot f codes
            pure { fl with
              rows := fl.rows ++ [(r, bytes)]
              origin := { fl.origin with scales := setScale fl.origin.scales r (BitVec.ofNat 16 (leNat sc)) } }

/-- Bytes written over a slot: its rows, every other byte 0. -/
def slotImage (m : Fin 64) (rows : List (Nat × List Byte)) (mem : Mem) : Mem :=
  rows.foldl (fun x r => memWrite x (16384 * m.val + 128 * r.1) (r.2.take 128))
    (mem.filter fun c => !(16384 * m.val ≤ c.1 && c.1 < 16384 * m.val + 16384))

/-- A fill completes: its slot is FILLED, or, where the block does not hold it, SLOT_STATE (R279, R306). -/
def commitFill (s : State) (b : Nat) (core : Fin 256) (fl : Fill) : Option State :=
  let c := s.cores[core]
  if c.slots[fl.m].owner = some b then
    some (modCore s core fun c =>
      { c with
        slots := c.slots.set fl.m { c.slots[fl.m] with filled := true, origin := fl.origin }
        slotBytes := slotImage fl.m fl.rows c.slotBytes
        badSlots := c.badSlots.filter (· != fl.m.val) })
  else none

end Sys2Proof.Machine
end

