-- ==== Sys2Proof/Machine/Array.lean ====
section
/-!
DEFINITION. The matrix array: operand ports (R283), accumulator tiles (R288), the products of R33 to R36 and R286, adapter
products (R314), MACC (R315) and the conversions of MSTORE (R290).
-/
namespace Sys2Proof.Machine

open Sys2Proof

/-! ## Exact values -/

/-- A dyadic as a value; a zero takes the sign given. -/
def ofDy (zneg : Bool) (x : Dy) : FVal := .fin (if x.m = 0 then zneg else x.m < 0) x.m.natAbs x.e

/-- A value times a positive dyadic. -/
def scaleVal (x : FVal) (k : Dy) : FVal :=
  match x with
  | .fin n m e => .fin n (m * k.m.natAbs) (e + k.e)
  | y => y

/-- Whether a sum of products is the canonical NaN under R33: a NaN product, or opposite infinities. -/
def sumBad (ts : List (FVal × FVal)) : Bool :=
  let infs := infSigns ts
  ts.any (fun t => t.1.isNan || t.2.isNan || zeroInf t) || (infs.contains true && infs.contains false)

/-- A sum of products rounded once to FP32, with the NaN rule of R33. -/
def mmaSum (ts : List (FVal × FVal)) : Word × Flags :=
  if sumBad ts then (0x7FC00000, Flags.invalid)
  else let (w, f) := sumProd .f32 .rn ts; (BitVec.ofNat 32 w, f)

/-- A sum of products, exact (R314). -/
def exactSum (ts : List (FVal × FVal)) : FVal × Flags :=
  let infs := infSigns ts
  if sumBad ts then (.nan false, Flags.invalid)
  else if infs.contains true then (.inf true, 0)
  else if infs.contains false then (.inf false, 0)
  else
    (ofDy (ts.all fun t => t.1.dy.m * t.2.dy.m = 0 && t.1.sgn != t.2.sgn) (Dy.sum (ts.map fun t => t.1.dy.mul t.2.dy)), 0)

/-- The value of an FP32 word. -/
def f32Val (w : Word) : FVal := unpackF .f32 w.toNat

/-- RoundRN(a + b) on FP32 words (R18). -/
def addRN (a b : Word) : Word × Flags :=
  let (w, f) := sumProd .f32 .rn [(f32Val a, FVal.one), (f32Val b, FVal.one)]
  (BitVec.ofNat 32 w, f)

/-! ## Operand ports (R283) -/

/-- Byte off of slot m. -/
def slotByte (c : Core) (m : Nat) (off : Nat) : Byte := memGet c.slotBytes (16384 * m + off)

/-- The dither of element (i, k) in eighths, from the origin (R282). -/
def originDither (o : Origin) (i k : Nat) : Int :=
  if o.den then
    let t := ditherIndex ((o.e0 + i * o.rho + k) % 2 ^ 40)
    ditherOf o.fmt.toNat (ditherCode (o.dtab.getD (t / 4) 0) t)
  else 0

/-- The value that the port presents for element (i, k) of slot m, with its flags (R283). -/
def portVal (c : Core) (m : Fin 64) (i k : Nat) : FVal × Flags :=
  let o := c.slots[m].origin
  let f := o.fmt.toNat
  if i ≥ o.rv || k ≥ o.kv then (.fin false 0 0, 0)
  else if f = 1 then
    (unpackF .bf16 ((slotByte c m (128 * i + 2 * k)).toNat + 256 * (slotByte c m (128 * i + 2 * k + 1)).toNat), 0)
  else
    let b := slotByte c m (128 * i + k / perByte f)
    let d := originDither o i k
    if reservedTern f b then (.fin false 0 0, Flags.corrupt)
    else if f = 5 && b = 128 then
      let n : Int := -1016 - d
      (.fin (n < 0) n.natAbs (-3), Flags.saturate)
    else (present f (codeAt f b (k % perByte f)) d, 0)

/-- The scale of row i of a slot: 0x3F80 for a plain origin (R282; log 89, DEDUCED). -/
def rowScale (o : Origin) (i : Nat) : BitVec 16 := if o.plain then 0x3F80 else o.scales.getD i 0x3F80

/-- A presented integer or ternary value in eighths. -/
def eighths : FVal → Int
  | .fin n m _ => if n then -(m : Int) else m
  | _ => 0

/-- An operand of a product: one slot, or five whose slot c holds positions 128c to 128c + 127 (R313). -/
def operandVal (c : Core) (ms : List (Fin 64)) (i k : Nat) : FVal × Flags :=
  match ms with
  | [m] => portVal c m i k
  | ms => portVal c (ms.getD (k / 128) 0) i (k % 128)

/-! ## Tiles (R288) -/

/-- The place of element (i, j) of tile a in a core's accumulator store. -/
def tileAddr (a i j : Nat) : Nat := 65536 * a + 4 * (128 * i + j)

/-- An element of a tile as 32 bits; every element of an EMPTY tile is +0 (R288). -/
def tileWord (c : Core) (a : Fin 48) (i j : Nat) : Word :=
  if c.tiles[a].mode = .empty then 0 else BitVec.ofNat 32 (memNat c.tileBytes (tileAddr a i j) 4)

/-- Rows lo to hi − 1 of a tile replaced. -/
def setTileRows (c : Core) (a : Fin 48) (lo hi : Nat) (f : Nat → Nat → Word) : Core :=
  let ws := (List.range (hi - lo)).flatMap fun r => (List.range 128).flatMap fun j => leBytes 4 (f (lo + r) j).toNat
  { c with tileBytes := memWrite c.tileBytes (tileAddr a lo 0) ws }

/-- A tile's mode and scales replaced. -/
def setTileMode (c : Core) (a : Fin 48) (m : TMode) (sR sC : List (BitVec 16)) : Core :=
  { c with tiles := c.tiles.set a { c.tiles[a] with mode := m, sR := sR, sC := sC } }

/-- Whether a block holds a tile. -/
def holdsTile (c : Core) (b : Nat) (a : Fin 48) : Bool := c.tiles[a].owner = some b

/-- Whether a block holds a FILLED slot. -/
def holdsFilled (c : Core) (b : Nat) (m : Fin 64) : Bool := c.slots[m].owner = some b && c.slots[m].filled

/-! ## Products (R33 to R36, R286) -/

/-- The depth of a kind (R285). -/
def kindK : MmaKind → Nat
  | .fp8 | .i8 => 128
  | .ti8 | .i8t => 640
  | .bf16 => 64

/-- The slots of an operand, five or one. -/
def slotRun (m : Fin 64) (n : Nat) : List (Fin 64) := (List.range n).map fun j => Fin.ofNat 64 (m.val + j)

/-- The slots of A and of B (R313). -/
def kindSlots (kind : MmaKind) (a b : Fin 64) : List (Fin 64) × List (Fin 64) :=
  match kind with
  | .ti8 => (slotRun a 1, slotRun b 5)
  | .i8t => (slotRun a 5, slotRun b 1)
  | _ => (slotRun a 1, slotRun b 1)

/-- Whether a slot's format suits one side of a kind (R313). -/
def kindFmt (kind : MmaKind) (left : Bool) (o : Origin) : Bool :=
  match kind with
  | .fp8 => o.fmt = 3 || o.fmt = 4
  | .i8 => o.fmt = 5
  | .ti8 => if left then o.fmt = 7 else o.fmt = 5
  | .i8t => if left then o.fmt = 5 else o.fmt = 7
  | .bf16 => o.fmt = 1 && o.plain

/-- Whether the slots of a five-slot operand record equal scales, row by row (R313). -/
def scalesAgree (os : List Origin) : Bool :=
  (List.range 128).all fun i =>
    match (os.filter fun o => i < o.rv).map fun o => rowScale o i with
    | [] => true
    | x :: r => r.all (· = x)

/-- Whether a kind is an integer or ternary product. -/
def kindFix : MmaKind → Bool
  | .fp8 | .bf16 => false
  | _ => true

/-- The scales of an operand's rows: of the first slot that fills the row. -/
def operandScales (os : List Origin) : List (BitVec 16) :=
  (List.range 128).map fun i => ((os.find? fun o => i < o.rv).map fun o => rowScale o i).getD 0x3F80

/-- Rows that an operand fills. -/
def operandRows (os : List Origin) : Nat := os.foldl (fun n o => max n o.rv) 0

/-- Whether the tile's scales are those of a product, for every filled row (R289). -/
def scalesMatch (have_ new : List (BitVec 16)) (n : Nat) : Bool :=
  (List.range n).all fun i => have_.getD i 0x3F80 = new.getD i 0x3F80

/-- The checks of an MMA that are precise at the sequencer; none if all pass (R281, R289, R313, R36). -/
def mmaCheck (c : Core) (b : Nat) (d : Fin 48) (ma mb : Fin 64) (kind : MmaKind) : Option FCode :=
  let (as, bs) := kindSlots kind ma mb
  let oa := as.map fun m => c.slots[m].origin
  let ob := bs.map fun m => c.slots[m].origin
  let t := c.tiles[d]
  if !((as ++ bs).all (holdsFilled c b)) || !holdsTile c b d then some .slotState
  else if !(oa.all (kindFmt kind true)) || !(ob.all (kindFmt kind false)) then some .slotState
  else if kind = .i8 && oa.any (·.den) && ob.any (·.den) then some .slotState
  else if !scalesAgree oa || !scalesAgree ob then some .slotState
  else if (kindFix kind && t.mode = .fp) || (!kindFix kind && t.mode = .fix) then some .slotState
  else if kindFix kind && t.mode = .fix &&
      !(scalesMatch t.sR (operandScales oa) (operandRows oa) && scalesMatch t.sC (operandScales ob) (operandRows ob)) then
    some .slotState
  else if (as ++ bs).any (fun m => c.badSlots.contains m.val) || c.badTiles.contains d.val then some .uncorrectable
  else none

/-- An element of an FP8 product (R33, R286). -/
def fp8Elem (ts : List (FVal × FVal)) (sa sb : BitVec 16) (acc : Word) : Word × Flags :=
  match scaleDy sa, scaleDy sb with
  | some x, some y =>
    let (t, f) := mmaSum (ts.map fun p => (scaleVal p.1 (x.mul y), p.2))
    let (r, g) := addRN acc t
    (r, f ||| g)
  | _, _ => (0x7FC00000, Flags.invalidScale)

/-- ⌊log2 |x|⌋ of a non-zero dyadic. -/
def dyLog (x : Dy) : Int := Nat.log2 x.m.natAbs + x.e

/-- A dyadic truncated toward zero to a multiple of 2^u. -/
def dyTrunc (x : Dy) (u : Int) : Dy :=
  if x.e ≥ u then x
  else { m := (if x.m < 0 then -((x.m.natAbs / 2 ^ (u - x.e).toNat : Nat) : Int) else (x.m.natAbs / 2 ^ (u - x.e).toNat : Nat)), e := u }

/-- One group of eight products of a BF16 MMA (R34). -/
def bf16Group (ts : List (FVal × FVal)) : Word × Flags :=
  let infs := infSigns ts
  if sumBad ts then (0x7FC00000, Flags.invalid)
  else if infs.contains true then (0xFF800000, 0)
  else if infs.contains false then (0x7F800000, 0)
  else
    let ps := ts.map fun t => t.1.dy.mul t.2.dy
    match (ps.filter fun p => p.m != 0).map dyLog with
    | [] => (if ts.all fun t => t.1.sgn != t.2.sgn then 0x80000000 else 0, 0)
    | e :: r =>
      let top := r.foldl max e
      let (w, f) := roundRN32 (Dy.sum (ps.map fun p => dyTrunc p (top - 39)))
      (BitVec.ofNat 32 w, f)

/-- An element of a BF16 product (R34): eight groups, added in order, then into the accumulator. -/
def bf16Elem (ts : List (FVal × FVal)) (acc : Word) : Word × Flags :=
  let gs := (List.range 8).map fun g => bf16Group ((ts.drop (8 * g)).take 8)
  let (t, f) := gs.tail.foldl (fun (a : Word × Flags) g => let (x, y) := addRN a.1 g.1; (x, a.2 ||| g.2 ||| y))
    (gs.headD (0, 0))
  let (r, g) := addRN acc t
  (r, f ||| g)

/-- A sum clamped to the accumulator's range, in units of 2^−5 (R35). -/
def clampFix (x : Int) : Int × Flags :=
  if x < -2 ^ 31 then (-2 ^ 31, Flags.saturate) else if x > 2 ^ 31 - 1 then (2 ^ 31 - 1, Flags.saturate) else (x, 0)

/-- An element of an integer or ternary product, in units of 2^−5: products of eighths are 64ths (R35). -/
def fixElem (ts : List (FVal × FVal)) (acc : Word) : Word × Flags :=
  let sum : Int := ts.foldl (fun a t => a + eighths t.1 * eighths t.2) 0
  let (r, f) := clampFix (acc.toInt + sum / 2)
  (BitVec.ofInt 32 r, f)

/-- What an MMA makes of its tile, with the flags of every element read and formed (R286, R313). -/
def mmaCompute (c : Core) (d : Fin 48) (ma mb : Fin 64) (kind : MmaKind) : Core × Flags :=
  let (as, bs) := kindSlots kind ma mb
  let sa := operandScales (as.map fun m => c.slots[m].origin)
  let sb := operandScales (bs.map fun m => c.slots[m].origin)
  let K := kindK kind
  let elem (i j : Nat) : Word × Flags :=
    let ts := (List.range K).map fun k => ((operandVal c as i k).1, (operandVal c bs j k).1)
    match kind with
    | .fp8 => fp8Elem ts (sa.getD i 0x3F80) (sb.getD j 0x3F80) (tileWord c d i j)
    | .bf16 => bf16Elem ts (tileWord c d i j)
    | _ => fixElem ts (tileWord c d i j)
  let reads := (List.range 128).foldl (fun f i => (List.range K).foldl (fun g k =>
    g ||| (operandVal c as i k).2 ||| (operandVal c bs i k).2) f) (0 : Flags)
  let fl := (List.range 128).foldl (fun f i => (List.range 128).foldl (fun g j => g ||| (elem i j).2) f) reads
  let c1 := setTileRows c d 0 128 fun i j => (elem i j).1
  let t := c.tiles[d]
  let mode : TMode := if kindFix kind then .fix else .fp
  (if t.mode = .empty then setTileMode c1 d mode (if kindFix kind then sa else []) (if kindFix kind then sb else []) else c1,
   fl)

/-! ## Adapter products (R314, R327) -/

/-- A scale that joins exact products: invalid scale gives the canonical NaN (R27, R286). -/
def scaled (x : FVal) (s : BitVec 16) : FVal × Flags :=
  match scaleDy s with
  | some k => (scaleVal x k, 0)
  | none => (.nan false, Flags.invalidScale)

/-- T of one activation row and one row of A (R314). -/
def adapterT (c : Core) (x g : Fin 64) (i rho : Nat) : Word × Flags :=
  let sx := rowScale c.slots[x].origin i
  let sa := rowScale c.slots[g].origin rho
  match scaleDy sx, scaleDy sa with
  | some p, some q =>
    mmaSum ((List.range 128).map fun k => (scaleVal (portVal c x i k).1 (p.mul q), (portVal c g rho k).1))
  | _, _ => (0x7FC00000, Flags.invalidScale)

/-- Rows lo to hi − 1 of a tile after one segment (R314). -/
def adapterRows (c : Core) (d : Fin 48) (x g : Fin 64) (lo hi r : Nat) (sigma : Word) : Core × Flags :=
  let g1 : Fin 64 := Fin.ofNat 64 (g.val + 1)
  let tRow (i : Nat) : List (Word × Flags) := (List.range r).map fun rho => adapterT c x g i rho
  let elem (ts : List (Word × Flags)) (i j : Nat) : Word × Flags :=
    let sb := rowScale c.slots[g1].origin j
    let (u, f1) := exactSum (ts.zipIdx.map fun t => ((scaled (f32Val t.1.1) sb).1, (portVal c g1 j t.2).1))
    let f1 := if (scaleDy sb).isNone then Flags.invalidScale else f1
    let (v, f2) := if u.isNan then ((0x7FC00000 : Word), (0 : Flags)) else mmaSum [(f32Val sigma, u)]
    let (w, f3) := addRN (tileWord c d i j) v
    (w, f1 ||| f2 ||| f3)
  let c1 := setTileRows c d lo hi fun i j => (elem (tRow i) i j).1
  let fl := (List.range (hi - lo)).foldl (fun f n =>
    let ts := tRow (lo + n)
    let f1 := ts.foldl (fun a t => a ||| t.2) f
    (List.range 128).foldl (fun a j => a ||| (elem ts (lo + n) j).2) f1) (0 : Flags)
  let reads := (List.range (hi - lo)).foldl (fun f n => (List.range 128).foldl (fun a k => a ||| (portVal c x (lo + n) k).2) f)
    ((List.range 128).foldl (fun f j => (List.range 128).foldl (fun a k =>
      a ||| (portVal c g j k).2 ||| (portVal c g1 j k).2) f) (0 : Flags))
  (c1, fl ||| reads)

/-! ## MACC (R315) -/

/-- The exact value of an element of a FIX tile: F·s_R·s_C, or the canonical NaN for an invalid scale (R290; log 91,
DEDUCED). -/
def fixVal (t : Tile) (w : Word) (i j : Nat) : FVal × Flags :=
  match scaleDy (t.sR.getD i 0x3F80), scaleDy (t.sC.getD j 0x3F80) with
  | some x, some y => (ofDy false (({ m := w.toInt, e := -5 } : Dy).mul (x.mul y)), 0)
  | _, _ => (.nan false, Flags.invalidScale)

/-- Whether MACC admits the modes and scales of two tiles (R315). -/
def maccOk (d s : Tile) : Bool :=
  match d.mode, s.mode with
  | .fix, .fp => false
  | .fix, .fix => d.sR = s.sR && d.sC = s.sC
  | _, _ => true

/-- Tile d with tile s added (R315). -/
def maccCompute (c : Core) (d s : Fin 48) : Core × Flags :=
  let td := c.tiles[d]
  let ts := c.tiles[s]
  let elem (i j : Nat) : Word × Flags :=
    let x := tileWord c d i j
    let y := tileWord c s i j
    match td.mode, ts.mode with
    | .fp, .fp => addRN x y
    | .fp, .fix =>
      let (v, f) := fixVal ts y i j
      let (w, g) := sumProd .f32 .rn [(f32Val x, FVal.one), (v, FVal.one)]
      (BitVec.ofNat 32 w, f ||| g)
    | .fix, .fix => let (r, f) := clampFix (x.toInt + y.toInt); (BitVec.ofInt 32 r, f)
    | _, _ => (y, 0)
  if ts.mode = .empty then
    (c, 0)
  else
    let c1 := setTileRows c d 0 128 fun i j => (elem i j).1
    let fl := (List.range 128).foldl (fun f i => (List.range 128).foldl (fun g j => g ||| (elem i j).2) f) (0 : Flags)
    (if td.mode = .empty then setTileMode c1 d ts.mode ts.sR ts.sC else c1, fl)

/-! ## MSTORE (R290, R316) -/

/-- The value of element (i, j) of a tile, with its flags. -/
def tileVal (c : Core) (a : Fin 48) (i j : Nat) : FVal × Flags :=
  let t := c.tiles[a]
  match t.mode with
  | .empty => (.fin false 0 0, 0)
  | .fp => (f32Val (tileWord c a i j), 0)
  | .fix => fixVal t (tileWord c a i j) i j

/-- An element converted to FP32 or BF16, as bytes (R290). -/
def storeElem (c : Core) (a : Fin 48) (i j : Nat) (bf : Bool) : List Byte × Flags :=
  let f : Fmt := if bf then .bf16 else .f32
  let n := if bf then 2 else 4
  if !bf && c.tiles[a].mode != .fix then (leBytes 4 (tileWord c a i j).toNat, 0)
  else
    let (v, fl) := tileVal c a i j
    let (w, g) := sumProd f .rn [(v, FVal.one)]
    (leBytes n w, fl ||| g)

/-- Bytes of a unit of a conversion on a plain side; elements count 1. -/
def convUnit : MConv → Nat
  | .f32 => 4
  | .bf16 => 2
  | .q => 1

/-- The runs of a row of MSTORE, of the kind that its conversion needs (R316). -/
def storeRuns (s : State) (a : EAgent) (dst n : Nat) (conv : MConv) : Except RowStop (List Run) := do
  let ys ← sideRuns s a .engW 1 dst (convUnit conv * n)
  match ys.find? fun r => r.coded != (conv = .q) with
  | some r => .error (.fault (raise .formatMismatch none 0 r.va))
  | none =>
    if dst % convUnit conv != 0 then .error (.fault (raise .misaligned none 0 dst)) else pure ys

/-- Row i of a tile stored; one of a tile found bad since acceptance abandons the operation (R290, R316, R429; log 125,
DEDUCED). -/
def tileRow (s : State) (a : EAgent) (core : Fin 256) (ver : Option (BitVec 8)) (lines : Lines) (row : Row) (t i dst n : Nat)
    (conv : MConv) : Except RowStop RowOut := do
  let c := s.cores[core]
  let ti : Fin 48 := Fin.ofNat 48 t
  if c.badTiles.contains t then .error (.here (raise .uncorrectable none)) else pure ()
  let ys ← storeRuns s a dst n conv
  needWritable s a ver ys
  match conv with
  | .q =>
    let des ← (mapStop (runElems s a) ys).map List.flatten
    let w := des.zipIdx.foldl (fun w p =>
      let (v, fl) := tileVal c ti i p.2
      let r := putElem a row.n ver v w p.1
      (r.1, r.2 ||| fl)) ((s, lines), (0 : Flags))
    pure (w.1.1, w.1.2, w.2)
  | _ =>
    let els := (List.range n).map fun j => storeElem c ti i j (conv = .bf16)
    let bytes := els.flatMap (·.1)
    let fl := els.foldl (fun f e => f ||| e.2) (0 : Flags)
    let w := ys.foldl (fun w y => putBytes a row.n ver w y.va y.loc ((bytes.drop y.off).take y.n)) (s, lines)
    pure (w.1, w.2, fl)

end Sys2Proof.Machine
end

