-- ==== Sys2Proof/Machine/EngRun.lean ====
section
/-!
DEFINITION. Running engine operations: their rows, stalls, faults and completion (R217, R219, R293, R298, R303), the
segments of an MMAG (R320 to R326), and the loops of a stream (R299).
-/
namespace Sys2Proof.Machine

open Sys2Proof

/-! ## Agents -/

/-- The tag of an operation's writes: a TGATH's warp, or the stream (R414). -/
def opTag (s : State) (b : Nat) (k : Fin 4) (op : EngOp) : Report :=
  let blk := s.blocks[b]?
  let party : Party := match op.warp with | some w => .gang b w 0 | none => .stream b k
  { party := party, warp := op.warp.getD 0xFFFF, pc := op.pc, incarnation := (blk.map (·.incarnation)).getD 0,
    cause := 0, addr := 0, node := (blk.map (·.node)).getD 0 }

/-- The agent of an operation. -/
def opAgent (s : State) (b : Nat) (k : Fin 4) (op : EngOp) (blk : Block) : EAgent :=
  { who := some blk.core, ctx := blk.ctx, tag := opTag s b k op, b := some b, why := fun r => .row b k op.n r }

/-- The engine context of an operation's agent. -/
def opCtx (a : EAgent) : Fin 4 :=
  match a.why 0 with
  | .row _ k _ _ => k
  | _ => 0

/-! ## Segments of an MMAG (R320 to R323) -/

/-- A table entry (R320). -/
structure AEnt where
  bld : Nat
  ald : Nat
  bbase : Nat
  abase : Nat
  sigma : Word
  rank : Nat
  fmt : Nat

/-- The entry that 64 bytes hold, unless it fails its check (R321). -/
def adapterEnt (bytes : List Byte) : Option AEnt :=
  let e := leNat bytes
  let rsv := bitsOf e 248 264 != 0 || bitsOf e 216 8 != 0 || bitsOf e 184 8 != 0 || bitsOf e 120 8 != 0 ||
    bitsOf e 17 15 != 0 || bitsOf e 4 4 != 0
  let r := bitsOf e 8 8
  let f := bitsOf e 0 4
  if rsv || bitsOf e 16 1 = 0 || f < 3 || f > 5 || r = 0 || r > 128 then none
  else
    some { bld := bitsOf e 224 24, ald := bitsOf e 192 24, bbase := bitsOf e 128 56, abase := bitsOf e 64 56,
           sigma := BitVec.ofNat 32 (e / 2 ^ 32), rank := r, fmt := f }

/-- The origin of a fill that starts at an element address (R282; log 6, DEDUCED; log 90, DEDUCED). -/
def originAt (s : State) (a : EAgent) (va : Nat) (rho rv kv : Nat) : Except RowStop Origin :=
  match sideRuns s a .engR 1 va 1 with
  | .error x => .error x
  | .ok rs =>
    match rs.head?.bind (·.ent) with
    | none =>
      .ok { Origin.none with rho := rho, rv := rv, kv := kv }
    | some e =>
      (if e.den then engAux s a 256 e.dither else .ok []).map fun t =>
        { plain := false, fmt := BitVec.ofNat 4 e.fmt, den := e.den, dither := e.dither, dtab := t,
          e0 := domainIndex e va, rho := rho, rv := rv, kv := kv, scales := [] }

/-- SLOT_STATE where a row of a factor lies on a plain page, in the span, or on a format page of another format than its
entry's; past the span there is no place at all (R241, R321). -/
def factorOk (s : State) (a : EAgent) (va n fmt : Nat) : Except RowStop Unit :=
  if inSpan va && va ≥ Config.spanBase + Config.spanSize then .error (.fault (raise .protection none 0 va))
  else if inSpan va || inSpan (va + n - 1) then .error (.fault (raise .slotState none 0 va))
  else
    match sideRuns s a .engR 1 va n with
    | .error x => .error x
    | .ok rs =>
      match rs.find? fun r => (match r.ent with | some e => e.fmt != fmt | none => true) with
      | some r => .error (.fault (raise .slotState none 0 r.va))
      | none => .ok ()

/-- Rows r to r + n − 1 of a factor, one after the other, with the row that stopped where one does (R321, R326). -/
def factorRows (s : State) (a : EAgent) (row : Row) (base stride len fmt : Nat) : Nat → Nat → Fill → Fill × Option RowStop
  | 0, _, fl => (fl, none)
  | n + 1, r, fl =>
    let va := (base + r * stride) % 2 ^ 56
    match (do factorOk s a va len fmt; slotRow s a row fl va r len) with
    | .error x => (fl, some x)
    | .ok fl1 => factorRows s a row base stride len fmt n (r + 1) fl1

/-- A factor filled: its rows at a stride, each of len elements, going on after those that a fill in progress has read; the
fill so far where one stops, without an origin where its first access does (R321, R326). -/
def factorFill (s : State) (a : EAgent) (row : Row) (m : Fin 64) (base stride rows len fmt : Nat) (sofar : Option Fill) :
    Fill × Option RowStop :=
  let new : Fill := { m := m, origin := Origin.none, rows := [] }
  let start : Except RowStop Fill := match sofar with
    | some fl => if fl.origin.plain then begin_ else .ok fl
    | none => begin_
  match start with
  | .error x => (new, some x)
  | .ok fl => factorRows s a row base stride len fmt (rows - fl.rows.length) fl.rows.length fl
where
  begin_ : Except RowStop Fill := do
    factorOk s a (base % 2 ^ 56) len fmt
    let o ← originAt s a (base % 2 ^ 56) stride rows len
    pure { m := m, origin := o, rows := [] }

/-- The translations that the rows read so far of a factor used (R360, R379). -/
def touchFactor (s : State) (a : EAgent) (base stride len n : Nat) : State :=
  (((List.range n).flatMap fun r => let va := (base + r * stride) % 2 ^ 56; [pageBase va, pageBase (va + len - 1)]).eraseDups).foldl
    (fun t va => touch t a.who a.ctx va) s

/-- The end of the segment that starts at row i of a list (R322). -/
def segEnd (ids : List (BitVec 16)) (i : Nat) : Nat := i + ((ids.drop i).takeWhile (· = ids.getD i 0)).length

/-- The entry of a segment, as its row has read it or read now, and the row that keeps it (R320, R323). -/
def segEntry (s : State) (a : EAgent) (row : Row) (ea : Nat) : Except RowStop (AEnt × Row) :=
  let got : Except RowStop (List Byte) := match row.data.find? fun x => x.1 = ea && x.2.length = 64 with
    | some (_, bs) => .ok bs
    | none => engBytes s a .tbl ea 64
  match got with
  | .error x => .error x
  | .ok bytes =>
    match adapterEnt bytes with
    | none => .error (.here (raise .slotState none 0 ea))
    | some en => .ok (en, { row with data := (ea, bytes) :: row.data.filter (·.1 != ea) })

/-- One of a segment's two fills, completed into its slot (R279, R321, R323). -/
def segFill (b : Nat) (core : Fin 256) (s : State) (a : EAgent) (row : Row) (m : Fin 64) (base stride rows len fmt : Nat)
    (sofar : Option Fill) : State × Option Fill × Option RowStop :=
  let (fl, x) := factorFill s a row m base stride rows len fmt sofar
  let s1 := touchFactor s a base stride len fl.rows.length
  match x with
  | some z => (s1, some fl, some z)
  | none =>
    match commitFill s1 b core fl with
    | some t => (t, none, none)
    | none => (s1, none, some (.here (raise .slotState none)))

/-- Whether a slot or a tile that a segment reads has met an uncorrectable error (R429). -/
def segBad (c : Core) (d x mg mg1 : Nat) : Bool := [x, mg, mg1].any c.badSlots.contains || c.badTiles.contains d

/-- The segments from row i on; each is added once both its fills are complete. Where an access stops, the fill in progress is
kept, and the access alone is replayed (R323, R326). -/
def runSegs (b : Nat) (core : Fin 256) (a : EAgent) : Nat → State → Row → Option Fill → State × Row × Option Fill × Option RowStop
  | 0, s, row, fl => (s, row, fl, none)
  | fuel + 1, s, row, fl =>
    match row.kind with
    | .seg d x g table ids i colb kb =>
      if i ≥ 128 then (s, row, none, none)
      else
        let e := max (segEnd ids i) (i + 1)
        let next : Row := { row with kind := .seg d x g table ids e colb kb, data := [], fabs := [] }
        let id := ids.getD i 0
        if id = 0xFFFF then runSegs b core a fuel s next none
        else
          match segEntry s a row ((table + 64 * id.toNat) % 2 ^ 56) with
          | .error z => (s, row, none, some z)
          | .ok (en, row1) =>
            let mg : Fin 64 := Fin.ofNat 64 g
            let mg1 : Fin 64 := Fin.ofNat 64 (g + 1)
            let second := (fl.map (·.m)) = some mg1
            match (if second then (s, none, none)
                else segFill b core s a row1 mg (en.abase + 128 * kb.toNat) en.ald en.rank 128 en.fmt fl) with
            | (s1, f1, some z) => (s1, row1, f1, some z)
            | (s1, _, none) =>
              match segFill b core s1 a row1 mg1 (en.bbase + 128 * colb.toNat * en.bld) en.bld 128 en.rank en.fmt
                  (if second then fl else none) with
              | (s2, f2, some z) => (s2, row1, f2, some z)
              | (s2, _, none) =>
                let c := s2.cores[core]
                if segBad c d x g (g + 1) then (s2, row1, none, some (.here (raise .uncorrectable none)))
                else
                  let td : Fin 48 := Fin.ofNat 48 d
                  let (c1, fl) := adapterRows c td (Fin.ofNat 64 x) mg i e en.rank en.sigma
                  let work := addWork s2 b (512 * (e - i) * en.rank) (64 + 256 * en.rank + 2 * (en.rank + 128))
                  let s3 := raiseFlags (modCore work core fun _ => c1) b fl
                  runSegs b core a fuel s3 next none
    | _ => (s, row, fl, none)

/-! ## Rows of an operation -/

/-- The bytes of device and fabric memory of a side's runs and, where its elements are decoded or quantised, of their scales
and dither entries (R358). -/
def runWork (aux : Bool) (r : Run) : Nat :=
  if isSpanLoc r.loc then 0
  else r.bytes + (match r.ent with | some e => if aux then auxWork e r.va r.n else 0 | none => 0)

/-- The bytes that n units from an address on stand for. -/
def sideWork (s : State) (a : EAgent) (k : AKind) (u va n : Nat) (aux : Bool) : Nat :=
  match sideRuns s a k u va n with
  | .ok rs => (rs.map (runWork aux)).foldl (· + ·) 0
  | .error _ => 0

/-- Whether an operation fills a slot from a plain page or the span. -/
def plainFill (op : EngOp) : Bool := (op.fill.map (·.origin.plain)) = some true

/-- The bytes of a row of n elements of a fill's format (R278, R306). -/
def fillBytes (op : EngOp) (n : Nat) : Nat := slotBytesOf (((op.fill.map fun f => f.origin.fmt.toNat)).getD 0) n

/-- The bytes of device and fabric memory that a row of an operation moves (R358). -/
def rowBytes (s : State) (a : EAgent) (op : EngOp) (r : RowKind) : Nat :=
  match r with
  | .raw src dst len | .gather src dst len => sideWork s a .engR 1 src len false + sideWork s a .engW 1 dst len false
  | .red src dst len _ => sideWork s a .engR 1 src len false + 2 * sideWork s a .engW 1 dst len false
  | .fill dst len _ _ => sideWork s a .engW 1 dst len false
  | .recode src dst r n ds t =>
    let u (k : AKind) (va : Nat) : Nat := match sideUnit s a k va with | .ok u => u | .error _ => 1
    let ud := u .engW dst
    sideWork s a .engR (u .engR src) src n true +
      ((List.range n).map fun (c : Nat) => sideWork s a .engW ud
        (toAddr (if t then (dst : Int) + (c : Int) * ds + (ud * r : Nat) else (dst : Int) + (r : Int) * ds + (ud * c : Nat)))
        1 true).foldl (· + ·) 0
  | .slot src _ n => if plainFill op then sideWork s a .engR 1 src (fillBytes op n) false else sideWork s a .engR 1 src n false + 2
  | .tile _ _ dst n conv => sideWork s a .engW 1 dst (convUnit conv * n) true
  | .seg _ _ _ _ _ _ _ _ | .plan _ _ _ | .put => 0

/-- The bytes of a unit on the side of a CRECODE that an address begins; where its page does not translate, either may come. -/
def unitsAt (s : State) (a : EAgent) (k : AKind) (va : Nat) : List Nat :=
  match sideUnit s a k va with
  | .ok u => [u]
  | .error _ => [1, 4]

/-- The ranges of addresses that a row reads (R303). -/
def rowSrcs (s : State) (a : EAgent) (op : EngOp) : RowKind → List (Nat × Nat)
  | .raw src _ len | .gather src _ len | .red src _ len _ => [(src, len)]
  | .recode src _ _ n _ _ => (unitsAt s a .engR src).map fun u => (src, u * n)
  | .slot src _ n => [(src, if plainFill op then fillBytes op n else n)]
  | _ => []

/-- The ranges of addresses that a row writes (R302, R303). -/
def rowDsts (s : State) (a : EAgent) : RowKind → List (Nat × Nat)
  | .raw _ dst len | .gather _ dst len | .red _ dst len _ | .fill dst len _ _ => [(dst, len)]
  | .recode _ dst r n ds t => (unitsAt s a .engW dst).flatMap fun u =>
    if t then (List.range n).map fun (c : Nat) => (toAddr ((dst : Int) + (c : Int) * ds + (u * r : Nat)), u)
    else [(toAddr ((dst : Int) + (r : Int) * ds), u * n)]
  | .tile _ _ dst n conv => [(dst, convUnit conv * n)]
  | _ => []

/-- The parts of a range of addresses that lie in one page of 64 KiB. -/
def piecesIn (r : Nat × Nat) : List (Nat × Nat) :=
  ((List.range ((r.1 % 65536 + r.2 + 65535) / 65536)).map fun i =>
    let lo := max r.1 (pageBase r.1 + 65536 * i)
    (lo, min (r.1 + r.2) (pageBase r.1 + 65536 * (i + 1)) - lo)).filter (·.2 != 0)

/-- The places of a range of addresses, as far as its pages translate. -/
def placesOf (s : State) (a : EAgent) (k : AKind) (r : Nat × Nat) : List (Loc × Nat) :=
  (piecesIn r).flatMap fun p => match sideRuns s a k 1 p.1 p.2 with
    | .ok rs => rs.map fun x => (x.loc, x.bytes)
    | .error _ => []

/-- Whether two ranges of addresses meet. -/
def rangesMeet (a b : Nat × Nat) : Bool := a.1 < b.1 + b.2 && b.1 < a.1 + a.2

/-- Whether ranges that are written meet ranges that are read or written: as addresses, or as places through another mapping
(R256, R303). -/
def rangesOverlap (s : State) (a : EAgent) (xs : List (Nat × Nat)) (k : AKind) (ys : List (Nat × Nat)) : Bool :=
  xs.any fun x => ys.any fun y =>
    rangesMeet x y ||
    (placesOf s a .engW x).any fun p => (placesOf s a k y).any fun q => locsMeet p.1 p.2 q.1 q.2

/-- The translations that a row of an operation used enter the TLBs (R379); an address of its first and of its last byte stand for
its pages. -/
def touchRow (s : State) (a : EAgent) (op : EngOp) (r : RowKind) : State :=
  (rowSrcs s a op r ++ rowDsts s a r).foldl (fun t x =>
    [x.1, x.1 + (x.2 - 1)].foldl (fun u va => if inSpan va then u else touch u a.who a.ctx va) t) s

/-- One row: state, operation and row after it, and why it stops if it does. -/
def runRow (b : Nat) (blk : Block) (a : EAgent) (s : State) (op : EngOp) (row : Row) :
    State × EngOp × Row × Option RowStop :=
  let work (t : State) : State := touchRow (addWork t b 0 (rowBytes s a op row.kind)) a op row.kind
  let fin (r : Except RowStop RowOut) : State × EngOp × Row × Option RowStop :=
    match r with
    | .ok (t, ws, fl) => (work (raiseFlags t b fl), { op with writes := ws }, row, none)
    | .error x => (s, op, row, some x)
  match row.kind with
  | .raw src dst len => fin (rawRow s a op.ver op.writes row src dst len)
  | .gather src dst len => fin (gatherRow s a op.writes row src dst len)
  | .red src dst len o => fin (redRow s a op.writes row src dst len o)
  | .fill dst len pat w => fin (fillRow s a op.ver op.writes row dst len pat w)
  | .recode src dst r n ds t => fin (recodeRow s a op.ver op.writes row src dst r n ds t)
  | .tile t i dst n conv => fin (tileRow s a blk.core op.ver op.writes row t i dst n conv)
  | .slot src r n =>
    match op.fill with
    | none => (s, op, row, none)
    | some fl =>
      match slotRow s a row fl src r n with
      | .ok fl1 => (work s, { op with fill := some fl1 }, row, none)
      | .error x => (s, op, row, some x)
  | .seg _ _ _ _ _ _ _ _ =>
    let (t, r, fl, x) := runSegs b blk.core a 129 s row op.fill
    (t, { op with fill := fl }, r, x)
  | .put => fin (putRow s a op.ver op.writes)
  | .plan _ _ _ => (s, op, row, none)

/-- Fabric reads of a row sent, those not yet on their way (R369). -/
def sendRow (a : EAgent) (s : State) (row : Row) (rs : List (Nat × Loc × Nat)) : State × Row :=
  let new := rs.filter fun r => !row.fabs.any (·.2 = r.1)
  let (t, fs) := new.foldl (fun (p : State × List (Nat × Nat)) r =>
    (sendFab p.1 r.2.1 (.read r.2.2) (a.why row.n) false r.1, p.2 ++ [(p.1.nextId, r.1)])) (s, row.fabs)
  (t, { row with fabs := fs })

/-- An operation with a row replaced. -/
def setRow (op : EngOp) (row : Row) : EngOp := { op with rows := op.rows.map fun r => if r.n = row.n then row else r }

/-- An operation with a row performed. -/
def dropRow (op : EngOp) (n : Nat) : EngOp := { op with rows := op.rows.filter (·.n != n) }

/-- Whether two rows of an operation write a common byte (R292). Reductions add to what is there, in either order. -/
def rowsMeet (s : State) (a : EAgent) (x y : RowKind) : Bool :=
  match x, y with
  | .red _ _ _ _, .red _ _ _ _ => false
  | _, _ => rangesOverlap s a (rowDsts s a x) .engW (rowDsts s a y)

/-- Whether a row waits for nothing: no page, no fabric read, no row more than 64 below it in its operation (R391), no lower row
that writes a byte of its own (R292), and, for what a versioned operation has gathered, no row at all. -/
def rowReady (s : State) (a : EAgent) (op : EngOp) (r : Row) : Bool :=
  r.stalled.isNone && r.fabs.isEmpty && r.n ≤ ((op.rows.head?).map (·.n)).getD 0 + 64 &&
  (r.kind != .put || op.rows.length = 1) && !(op.rows.any fun x => x.n < r.n && rowsMeet s a x.kind r.kind)

/-- A fault that ends an operation: its row's index, and whether it is precise at the sequencer. -/
structure RowFail where
  r : Raise
  lane : Nat
  here : Bool := false

/-- A row waits for a page. -/
def waitRow (s : State) (b : Nat) (a : EAgent) (op : EngOp) (row : Row) (ctx vp : Nat) (kind : Option (BitVec 4)) :
    State × EngOp :=
  (match kind with
   | some kd => ringFault s (Fin.ofNat 64 ctx) vp kd a.who
   | none => holdFor s ctx vp (.op b (opCtx a) op.n),
   setRow op { row with stalled := some (ctx, vp), missed := row.missed || kind.isSome })

/-- The rows of an operation in order; one that waits holds no other but those that overlap it; the last part is a fault with the
row's index (R292, R293). -/
def runRows (b : Nat) (blk : Block) (a : EAgent) : List Row → State → EngOp → State × EngOp × Option RowFail
  | [], s, op => (s, op, none)
  | row :: rest, s, op =>
    if !rowReady s a op row then runRows b blk a rest s op
    else
      match runRow b blk a s op row with
      | (t, op1, _, none) => runRows b blk a rest t (dropRow op1 row.n)
      | (t, op1, _, some (.fault r)) => (t, op1, some { r := r, lane := row.n })
      | (t, op1, _, some (.here r)) => (t, op1, some { r := r, lane := row.n, here := true })
      | (t, op1, row1, some (.page ctx vp kind)) =>
        let (t1, op2) := waitRow t b a op1 row1 ctx vp kind
        runRows b blk a rest t1 op2
      | (t, op1, row1, some (.wants rs)) =>
        let (t1, row2) := sendRow a t row1 rs
        runRows b blk a rest t1 (setRow op1 row2)
      | (t, op1, row1, some .busy) => runRows b blk a rest t (setRow op1 row1)

/-! ## Operations of a context -/

/-- The fault of an operation: its block's, or, for a TGATH, its warp's, naming the lane (R219, R293, R298); one of a write that
failed is imprecise (R414, R416). -/
def opRec (s : State) (b : Nat) (k : Fin 4) (op : EngOp) (r : Raise) (lane : Nat) : FRec :=
  let f := faultOf s (.stream b k) r
  let f1 := { f with pc := op.pc, stands := false, precise := r.code != .storeImprecise }
  match op.warp with
  | none => f1
  | some w => { f1 with r := { r with lane := some lane }, source := 0, warp := some w, start := 0 }

/-- A fault of an operation that is abandoned is offered (R219, R298). -/
def opFault (s : State) (b : Nat) (k : Fin 4) (op : EngOp) (r : Raise) (lane : Nat) : State :=
  offer s (.stream b k) false (opRec s b k op r lane)

/-- An operation replaced in its context. -/
def setOp (s : State) (b : Nat) (k : Fin 4) (op : EngOp) : State :=
  modEng s b k fun e => { e with ops := e.ops.map fun o => if o.n = op.n then op else o }

/-- The rows that are done are complete: an operation's fill (R306). -/
def finishRows (s : State) (b : Nat) (core : Fin 256) (op : EngOp) : State × EngOp × Option RowFail :=
  match op.fill with
  | none => (s, op, none)
  | some fl =>
    match commitFill s b core fl with
    | some t => (t, { op with fill := none }, none)
    | none => (s, op, some { r := raise .slotState none, lane := 0 })

/-- Whether an operation is an MMAG, at which its stream stands until its segments have been added. -/
def isSeg (op : EngOp) : Bool := op.rows.any fun r => match r.kind with | .seg _ _ _ _ _ _ _ _ => true | _ => false

/-- An operation is accepted: it is numbered (R217; log 5, DEDUCED). -/
def accept (s : State) (b : Nat) (k : Fin 4) (op : EngOp) : State :=
  modEng s b k fun e => { e with issued := e.issued + 1, ops := e.ops ++ [{ op with n := e.issued + 1 }] }

/-- Rows numbered in order; those of a versioned operation end with the writing of what they gather (R292). -/
def numberRows (ver : Option (BitVec 8)) (rows : List RowKind) : List Row :=
  (rows ++ if ver.isSome then [RowKind.put] else []).zipIdx.map fun (r : RowKind × Nat) => { n := r.2, kind := r.1, fabs := [], data := [] }

/-- A new operation with its rows numbered. -/
def mkOp (pc : Word) (warp : Option Nat) (ver : Option (BitVec 8)) (fill : Option Fill) (rows : List RowKind) : EngOp :=
  { n := 0, pc := pc, warp := warp, rows := numberRows ver rows, ver := ver, writes := [], fill := fill, started := false,
    dsts := [] }

/-- Whether no operation of a context has rows left to perform: the matrix sequencer goes on to the next (R287). -/
def engIdle (e : EngCtx) : Bool := e.ops.all fun o => o.rows.isEmpty && o.fill.isNone

/-- Whether every operation of a stream has completed; a TGATH is none of its operations. -/
def engDrained (e : EngCtx) : Bool := !e.ops.any (·.warp.isNone)

/-- Whether fabric writes of an operation are outstanding (R369). -/
def opFabs (s : State) (b : Nat) (k : Fin 4) (n : Nat) : Bool :=
  s.fabOps.any fun o => match o.why with | .row x y m _ => x = b && y = k && m = n | _ => false

/-- OPERATION_COMPLETE: operation n of context k of block b completes, and DONE advances where it can (R217). -/
def execOperationComplete (b : Nat) (k : Fin 4) (n : Nat) (s : State) : Out1 :=
  match s.blocks[b]? with
  | none => .fault .noParty
  | some blk =>
    match blk.ctxs[k].ops.find? (·.n = n) with
    | none => .next s
    | some op =>
      if op.rows.isEmpty && op.fill.isNone && !opFabs s b k n then
        .next (modEng s b k fun e => engDone { e with ops := e.ops.filter (·.n != n) })
      else .next s

/-! ## Streams (R299) -/

/-- A counter of a stream set (R311). -/
def setCtr (st : Stream) (c : MCtr) (f : BitVec 16 → BitVec 16) : Stream :=
  match c with
  | .none => st
  | .rowb => { st with rowb := f st.rowb }
  | .colb => { st with colb := f st.colb }
  | .kb => { st with kb := f st.kb }

/-- The stream after the instruction at pc has issued: the innermost level whose body ends there counts a pass, and so on
outward for levels that close; a level whose body does not end there stays as it is (R299). -/
def passLoops (pc : Word) : List Loop → Stream → Stream
  | [], st => { st with loops := [], pc := pc + 1 }
  | l :: r, st =>
    if l.last != pc then let t := passLoops pc r st; { t with loops := l :: t.loops }
    else
      let st1 := setCtr st l.ctr (· + 1)
      if l.left > 1 then { st1 with loops := { l with left := l.left - 1 } :: r, pc := l.first }
      else passLoops pc r st1

/-- A stream's instruction has issued. -/
def stepStream (st : Stream) : Stream := { passLoops st.pc st.loops st with wait := .none }

/-- A loop instruction; its trip count is the low 32 bits of a parameter (R291, R297, R299, R311). -/
def openLoop (st : Stream) (count len : Nat) (ctr : MCtr) : Except Raise Stream :=
  let last := st.pc + BitVec.ofNat 32 len
  let trip := count % 2 ^ 32
  match st.loops.find? fun l =>
    l.first.toNat ≤ st.pc.toNat && st.pc.toNat ≤ l.last.toNat && l.last.toNat < st.pc.toNat + len with
  | some _ => .error (raise .illegal none 5)
  | none =>
    let st1 := setCtr st ctr fun _ => 0
    if trip = 0 then .ok (passLoops last st1.loops st1)
    else if st.loops.length ≥ 4 then .error (raise .maskStack none 3)
    else
      .ok { st1 with
        pc := st.pc + 1
        loops := { trip := trip, left := trip, first := st.pc + 1, last := last, ctr := ctr } :: st.loops }

/-- Completed passes of the innermost open level (R299). -/
def passIndex (st : Stream) : Nat :=
  match st.loops with
  | [] => 0
  | l :: _ => l.trip - l.left

/-- The stream goes on after its instruction. -/
def goOn (s : State) (k : SCtx) : State := modStream s k.b k.k stepStream

/-- The stream waits for a page, whose record is written (R298). -/
def streamPage (s : State) (k : SCtx) (kind : AKind) (ctx va : Nat) : State :=
  modStream (ringFault s (Fin.ofNat 64 ctx) va kind.num (some k.blk.core)) k.b k.k fun st => { st with wait := .page ctx va false }

/-- A copy operation that is numbered and abandoned at once; the stream goes on (R298). -/
def dropOp (s : State) (k : SCtx) (r : Raise) : State :=
  let op := mkOp k.st.pc none none none []
  let n := k.e.issued + 1
  let s1 := goOn (modEng s k.b k.k fun e => abandonOp { e with issued := n } n) k
  opFault s1 k.b k.k { op with n := n } r 0

/-- A stop before an operation is accepted: the stream waits for the page, or the operation is dropped. -/
def stopOp (s : State) (k : SCtx) : RowStop → State
  | .fault r | .here r => dropOp s k r
  | .page ctx va (some kd) =>
    modStream (ringFault s (Fin.ofNat 64 ctx) va kd (some k.blk.core)) k.b k.k fun st =>
      { st with wait := .page ctx va true }
  | .page ctx vp none =>
    holdFor (modStream s k.b k.k fun st => { st with wait := .mig ctx vp }) ctx vp (.party (.stream k.b k.k))
  | .wants _ | .busy => s

/-! ## The copy descriptor (R300, R301) -/

/-- The fields of a descriptor. -/
structure CDesc where
  aux : Nat
  fillw : Nat
  slotfmt : Nat
  redop : Nat
  ver : Option (BitVec 8)
  dstep : Int
  sstep : Int
  dps : Int
  sps : Int
  ds : Int
  ss : Int
  planes : Nat
  rows : Nat
  rowlen : Nat
  dst : Nat
  src : Nat

/-- The descriptor that 64 bytes hold, unless a reserved bit is 1. -/
def parseDesc (bytes : List Byte) : Option CDesc :=
  let e := leNat bytes
  let sg (lo : Nat) : Int := sextN 32 (bitsOf e lo 32)
  if bitsOf e 402 46 != 0 || bitsOf e 152 8 != 0 || bitsOf e 120 8 != 0 || bitsOf e 56 8 != 0 then none
  else
    some { aux := bitsOf e 448 64, fillw := bitsOf e 400 2, slotfmt := bitsOf e 396 4, redop := bitsOf e 393 3,
           ver := if bitsOf e 392 1 = 1 then some (BitVec.ofNat 8 (bitsOf e 384 8)) else none,
           dstep := sg 352, sstep := sg 320, dps := sg 288, sps := sg 256, ds := sg 224, ss := sg 192,
           planes := bitsOf e 176 16, rows := bitsOf e 160 16, rowlen := bitsOf e 128 24, dst := bitsOf e 64 56,
           src := bitsOf e 0 56 }

/-- A descriptor error (R301). -/
def descError (addr : Nat) : RowStop := .fault (raise .illegal none 4 addr)

/-- The descriptor at an address (R301). -/
def readDesc (s : State) (a : EAgent) (va : Nat) : Except RowStop CDesc :=
  if va % 64 != 0 then .error (.fault (raise .misaligned none 0 va))
  else
    match engBytes s a .engR va 64 with
    | .error x => .error x
    | .ok bytes =>
      match parseDesc bytes with
      | none => .error (descError va)
      | some d => .ok d

/-- The bytes that reading a descriptor moves (R358). -/
def descWork (va : Nat) : Nat := if inSpan va then 0 else 64

/-- SRC′ and DST′ on pass i (R301). -/
def CDesc.src' (d : CDesc) (i : Nat) : Nat := (((d.src : Int) + i * d.sstep) % 2 ^ 56).toNat
def CDesc.dst' (d : CDesc) (i : Nat) : Nat := (((d.dst : Int) + i * d.dstep) % 2 ^ 56).toNat

/-- Addresses of rows n = p·ROWS + r of a base with strides (R302). -/
def planeRows (base : Nat) (planes rows : Nat) (ps rs : Int) : List Nat :=
  (List.range planes).flatMap fun (p : Nat) => (List.range rows).map fun (r : Nat) =>
    toAddr ((base : Int) + (p : Int) * ps + (r : Int) * rs)

/-- The index list of CGATH and CSCAT (R301). -/
def indexList (s : State) (a : EAgent) (d : CDesc) : Except RowStop (List Nat) :=
  if d.aux % 4 != 0 then .error (.fault (raise .misaligned none 0 d.aux))
  else (engBytes s a .engR d.aux (4 * d.rows)).map fun bs => (wordsOf bs).map BitVec.toNat

/-- The rows of a copy instruction and its fill, when it has one (R302, R304 to R307). -/
abbrev Plan := List RowKind × Option (BitVec 8) × Option Fill

/-- R251 for every row whose pages translate, before any byte is written. -/
def preCheck (s : State) (a : EAgent) (rows : List RowKind) : Except RowStop Unit :=
  match rows.findSome? fun r => match r with
    | .raw src dst len =>
      match sideRuns s a .engR 1 src len, sideRuns s a .engW 1 dst len with
      | .ok xs, .ok ys => (match rawCheck xs ys with | .error x => some x | .ok _ => none)
      | _, _ => none
    | _ => none with
  | some x => .error x
  | none => .ok ()

/-- Raw rows from pairs of addresses. -/
def rawPlan (s : State) (a : EAgent) (d : CDesc) (xs ys : List Nat) : Except RowStop Plan := do
  let rows := (xs.zip ys).map fun p => RowKind.raw p.1 p.2 d.rowlen
  preCheck s a rows
  pure (rows, d.ver, none)

/-- The ranges of the fields that an instruction uses: planes and rows only where it has them (R300, R301). -/
def descOk (d : CDesc) (rows planes : Bool) : Except RowStop Unit :=
  if d.rowlen = 0 || (rows && d.rows = 0) || (planes && d.planes = 0) then .error (descError 0) else .ok ()

/-- The rows, the version and the fill of an operation on pass i of its descriptor (R301, R302, R304 to R307). -/
def planOf (s : State) (a : EAgent) (c : CopyKind) (d : CDesc) (i : Nat) : Except RowStop Plan :=
  match c with
  | .cpy => do
    descOk d false false
    rawPlan s a d [d.src' i] [d.dst' i]
  | .cpys => do
    descOk d true true
    rawPlan s a d (planeRows (d.src' i) d.planes d.rows d.sps d.ss) (planeRows (d.dst' i) d.planes d.rows d.dps d.ds)
  | .cgath => do
    descOk d true false
    let idx ← indexList s a d
    rawPlan s a d (idx.map fun (x : Nat) => toAddr ((d.src' i : Int) + (x : Int) * d.ss)) (planeRows (d.dst' i) 1 d.rows 0 d.ds)
  | .cscat => do
    descOk d true false
    let idx ← indexList s a d
    rawPlan s a d (planeRows (d.src' i) 1 d.rows 0 d.ss) (idx.map fun (x : Nat) => toAddr ((d.dst' i : Int) + (x : Int) * d.ds))
  | .cred => do
    descOk d true true
    if d.ver.isSome || d.redop > 3 then .error (descError 0)
    else if d.rowlen % 4 != 0 || d.src' i % 4 != 0 || d.dst' i % 4 != 0 || d.ss % 4 != 0 || d.ds % 4 != 0 ||
        d.sps % 4 != 0 || d.dps % 4 != 0 then
      .error (.fault (raise .misaligned none 0 (d.dst' i)))
    else
      pure (((planeRows (d.src' i) d.planes d.rows d.sps d.ss).zip (planeRows (d.dst' i) d.planes d.rows d.dps d.ds)).map
        fun x => RowKind.red x.1 x.2 d.rowlen d.redop, none, none)
  | .cfill => do
    descOk d true true
    let w := 2 ^ d.fillw
    if d.rowlen % w != 0 || d.dst' i % w != 0 || d.ds % w != 0 || d.dps % w != 0 then
      .error (.fault (raise .misaligned none 0 (d.dst' i)))
    else
      pure ((planeRows (d.dst' i) d.planes d.rows d.dps d.ds).map
        fun x => RowKind.fill x d.rowlen (BitVec.ofNat 64 d.aux) w, d.ver, none)
  | .cslot m => do
    descOk d true false
    let src := d.src' i
    let o0 ← originAt s a src (d.ss % 2 ^ 40).toNat d.rows d.rowlen
    let o := if o0.plain then { o0 with fmt := BitVec.ofNat 4 d.slotfmt } else o0
    let f := o.fmt.toNat
    if d.rows > 128 || f = 0 || f = 2 || f > 7 || d.rowlen > slotK f ||
        (!o.plain && (d.ss < 0 || d.ss ≥ 2 ^ 24)) then .error (descError 0)
    else
      pure ((planeRows src 1 d.rows 0 d.ss).zipIdx.map fun x => RowKind.slot x.1 x.2 d.rowlen, none,
            some { m := m, origin := o, rows := [] })
  | .crecode t => do
    descOk d true false
    pure ((planeRows (d.src' i) 1 d.rows 0 d.ss).zipIdx.map
      fun x => RowKind.recode x.1 (d.dst' i) x.2 d.rowlen d.ds t, d.ver, none)

/-! ## The start of an operation (R282, R293, R298, R301, R303) -/

/-- The ranges that an operation reads, and those that it writes. -/
def opSrcs (s : State) (a : EAgent) (op : EngOp) : List (Nat × Nat) := op.rows.flatMap fun r => rowSrcs s a op r.kind
def opDsts (s : State) (a : EAgent) (op : EngOp) : List (Nat × Nat) := op.rows.flatMap fun r => rowDsts s a r.kind

/-- What an operation that has not started is to read, where it reads its rows from a descriptor: its instruction, the
descriptor's address, and the pass. -/
def planRow (op : EngOp) : Option (CopyKind × Nat × Nat) :=
  match op.rows with
  | [r] => (match r.kind with | .plan c va i => some (c, va, i) | _ => none)
  | _ => none

/-- An operation as it starts, with the bytes that its start reads: a copy operation reads its descriptor and its index list,
and fixes its rows and the origin of its fill (R282, R301, R358). -/
def starting (s : State) (a : EAgent) (op : EngOp) : Except RowStop (EngOp × Nat) :=
  match planRow op with
  | some (c, va, i) =>
    match readDesc s a va with
    | .error x => .error x
    | .ok d =>
      match planOf s a c d i with
      | .error x => .error x
      | .ok (rows, ver, fill) =>
        let op1 := { op with rows := numberRows ver rows, ver := ver, fill := fill, started := true }
        let list := (c = .cgath || c = .cscat) && !inSpan d.aux
        .ok ({ op1 with dsts := opDsts s a op1 }, descWork va + if list then 4 * d.rows else 0)
  | none => .ok ({ op with started := true, dsts := opDsts s a op }, 0)

/-- Whether the destination of an earlier operation overlaps the source or the destination of a later one (R303). -/
def opsMeet (s : State) (a : EAgent) (o op : EngOp) : Bool :=
  rangesOverlap s a o.dsts .engW op.dsts || rangesOverlap s a o.dsts .engR (opSrcs s a op) ||
  (o.fill.isSome && (o.fill.map (·.m)) = (op.fill.map (·.m)))

/-- Whether an earlier operation holds a later one that is about to start: one that has not started itself counts as its
descriptor stands, and holds while that cannot be read (R303; log 19, DEDUCED). -/
def holdsBack (s : State) (a : EAgent) (o op : EngOp) : Bool :=
  if o.started then opsMeet s a o op
  else
    match starting s a o with
    | .ok (o1, _) => opsMeet s a o1 op
    | .error _ => true

/-- Whether an operation may start: no other of its context has a row that met a recoverable fault and is still to be replayed,
its stream does not wait for a page of an operation, and every earlier one that it overlaps has completed (R293, R298, R303). -/
def mayStart (s : State) (a : EAgent) (e : EngCtx) (op : EngOp) : Bool :=
  !(e.ops.any fun o => o.n != op.n && o.rows.any (·.missed)) && (op.rows.all fun r => r.stalled.isNone) &&
  !(match e.stream.map (·.wait) with | some (SWait.page _ _ drop) => drop | _ => false) &&
  (match starting s a op with
   | .ok (op1, _) => !(e.ops.any fun o => o.n < op.n && holdsBack s a o op1)
   | .error _ => true)

/-! ## The engines at work (R293, R298, R303) -/

/-- A stream that stands at an MMAG goes on after it. -/
def passSeg (s : State) (b : Nat) (k : Fin 4) : State :=
  match streamOf s (.stream b k) with
  | some x => if x.st.wait = .seg then goOn s x else s
  | none => s

/-- A row of an operation has failed: what its rows have done stays done. SLOT_STATE and an error of a slot or a tile at a segment
of an MMAG are precise at the sequencer, and the MMAG takes no number; any other fault abandons the operation (R219, R281, R293,
R298, R314, R321, R429). -/
def stopRows (s : State) (b : Nat) (k : Fin 4) (a : EAgent) (op : EngOp) (x : RowFail) : State :=
  let s1 := flushVer s a op.ver op.writes
  if isSeg op && (x.here || x.r.code = .slotState) then
    let s2 := modEng s1 b k fun e => engDone { e with issued := e.issued - 1, ops := e.ops.filter (·.n != op.n) }
    takeFault (modStream s2 b k fun st => { st with wait := .none }) (.stream b k) x.r true
  else passSeg (opFault (modEng s1 b k fun e => abandonOp e op.n) b k op x.r x.lane) b k

/-- An operation of a context runs on: its rows, and, on a fault, its end (R219, R293). -/
def pump (s : State) (b : Nat) (k : Fin 4) (blk : Block) (op : EngOp) : State :=
  let a := opAgent s b k op blk
  match runRows b blk a op.rows s op with
  | (t, op1, some x) => stopRows t b k a op1 x
  | (t, op1, none) =>
    if !op1.rows.isEmpty then setOp t b k op1
    else
      match finishRows t b blk.core op1 with
      | (u, op2, some x) => stopRows u b k a op2 x
      | (u, op2, none) => passSeg (setOp u b k op2) b k

/-- An operation starts, or waits for a page that its start reads, or is abandoned (R293, R298, R301). -/
def startOp (s : State) (b : Nat) (k : Fin 4) (blk : Block) (op : EngOp) : State :=
  let a := opAgent s b k op blk
  match starting s a op, op.rows with
  | .ok (op1, w), _ => setOp (addWork s b 0 w) b k op1
  | .error (.fault r), _ | .error (.here r), _ => stopRows s b k a op { r := r, lane := 0 }
  | .error (.page ctx vp kind), row :: _ => let (t, op1) := waitRow s b a op row ctx vp kind; setOp t b k op1
  | _, _ => s

/-- Whether an operation has something to do: to start, or a row that waits for nothing. -/
def runReady (s : State) (b : Nat) (k : Fin 4) (blk : Block) (op : EngOp) : Bool :=
  let a := opAgent s b k op blk
  !(op.rows.isEmpty && op.fill.isNone) &&
  (if op.started then op.rows.isEmpty || op.rows.any (rowReady s a op) else mayStart s a blk.ctxs[k] op)

/-- An engine works on an operation: it starts it, or performs its rows that wait for nothing (R293, R303; log 19, DEDUCED). -/
def runOp (s : State) (b : Nat) (k : Fin 4) (n : Nat) : State :=
  match s.blocks[b]? with
  | none => s
  | some blk =>
    match blk.ctxs[k].ops.find? (·.n = n) with
    | none => s
    | some op =>
      if (blk.status != .resident && blk.status != .saving) || !runReady s b k blk op then s
      else if op.started then pump s b k blk op
      else startOp s b k blk op

end Sys2Proof.Machine
end

