-- ==== Sys2Proof/Machine/Packets.lean ====
section
/-!
DEFINITION. Queues and packets (R328 to R345), graph records (R347 to R350), and the retirement of packets (R336, R340 to
R343, R370, R374).
-/
namespace Sys2Proof.Machine

open Sys2Proof

/-! ## Accesses of the hub die -/

/-- What an access of the hub die meets: a place, a fatal failure, or a page to wait for (R330, R336, R380, R385). -/
inductive HubRes where
  | ok (l : Loc)
  | bad
  | wait (ctx vpage : Nat) (kind : Option (BitVec 4))
  deriving DecidableEq, Repr

/-- Whether an access waited for a page that was judged fatal: it fails even where the page has come since (R380). -/
def judgedFatal (fatal : Option (Nat × Nat)) (ctx va : Nat) : Bool :=
  fatal.any fun x => x.1 = ctx && pageBase x.2 = pageBase va

/-- Translate an access of the hub die to a plain page; fatal is a page that was judged fatal for it (R330, R380). A kernel
descriptor on a format page or in the span window cannot be read (log 48, DEDUCED). -/
def hubPlace (s : State) (ctx : Fin 64) (k : AKind) (fatal : Option (Nat × Nat)) (va : Nat) : HubRes :=
  if va ≥ Config.vaLimit || inSpan va || judgedFatal fatal ctx.val va then .bad
  else
    match pageOf s none ctx k va with
    | .error (.fault _ _) => .bad
    | .error (.absent c vp) => .wait c vp (some k.num)
    | .ok p =>
      if p.fmt != 0 then .bad
      else if p.mig && k.writes then .wait ctx.val (pageBase va) none
      else .ok (placeOf ctx p 0)

/-- The page that an access of the hub die waits for: a record where it is absent; a migration holds the access (R380, R385). -/
def hubFault (s : State) (ctx vp : Nat) (kind : Option (BitVec 4)) (h : Held) : State :=
  match kind with
  | some kd => ringFault s (Fin.ofNat 64 ctx) vp kd none
  | none => holdFor s ctx vp h

/-- What a read of the hub die gives (R330, R187). -/
inductive HubRead where
  | ok (bytes : List Byte)
  | bad
  | wait (ctx vpage : Nat) (kind : Option (BitVec 4))

/-- n bytes on one plain page of device memory (R330). -/
def hubRead (s : State) (ctx : Fin 64) (fatal : Option (Nat × Nat)) (va n : Nat) : HubRead :=
  match hubPlace s ctx .load fatal va with
  | .bad => .bad
  | .wait c vp kd => .wait c vp kd
  | .ok (.dev a) => if poisonAt s (.dev a) n then .bad else .ok (memRead s.mem a n)
  | .ok _ => .bad

/-- n bytes read as a load reads them, from device or fabric memory, whose bytes are free, and whether it answers (R187, R349,
R370; log 14, DESIGN CHOICE). -/
def hubLoad (s : State) (ctx : Fin 64) (fatal : Option (Nat × Nat)) (va n : Nat) : HubRead :=
  match hubPlace s ctx .load fatal va with
  | .bad => .bad
  | .wait c vp kd => .wait c vp kd
  | .ok (.fab c ep ra) =>
    if (List.range n).any fun i => auxBad s (.fab c ep (ra + i)) 1 then .bad
    else .ok ((List.range n).map fun i => Config.remote ep (ra + i) s.tick)
  | .ok l => if poisonAt s l n then .bad else .ok (readLoc s l n)

/-- A tag for writes that carry none: what they report is dropped. -/
def noTag : Report := { party := .helm 0, warp := 0xFFFF, pc := 0, incarnation := 0, cause := 0, addr := 0, node := 0 }

/-- Bytes written at a physical address by the hub die. -/
def hubWrite (s : State) (a : Nat) (bytes : List Byte) : State :=
  { writeDev s noTag a bytes with reports := s.reports }

/-! ## Descriptors of queues (R328, R329, R356) -/

/-- Whether ENABLE is set in a queue's descriptor and its ERR is 0 (R328, R329). -/
def qEnabled (s : State) (q : Queue) : Bool := q.err = 0 && (memGet s.mem (q.desc + 39)).getLsbD 0

/-- BOUND of a queue among those of its level (R356); a quotient is rounded down (log 46, DEDUCED). -/
def boundOf (s : State) (q : Queue) : Nat :=
  let lv := s.levels[q.level]
  let others := s.queues.filter fun p => p.level = q.level && p.qid != q.qid && qEnabled s p
  if lv.floor = 0 then 0
  else (others.foldl (fun a p => a + p.quantum + 2 ^ 20 * lv.cap.toNat) 0) * 256 / lv.floor.toNat % 2 ^ 64

/-- BOUND written into every descriptor of a level (R356). -/
def writeBounds (s : State) (lv : Fin 24) : State :=
  (s.queues.filter (·.level = lv)).foldl (fun t q => hubWrite t (q.desc + 24) (leBytes 8 (boundOf t q))) s

/-- A bit of byte 39 of a descriptor: 0 ENABLE, 1 HOLDING (R328). -/
def descBit (s : State) (q : Queue) (i : Nat) (v : Bool) : State :=
  let b := memGet s.mem (q.desc + 39)
  let m : Byte := BitVec.ofNat 8 (2 ^ i)
  hubWrite s (q.desc + 39) [if v then b ||| m else b &&& ~~~m]

/-- A queue stops with an error: ERR is set and ENABLE cleared, which is reported on the management path (R330; log 51,
DEDUCED). -/
def queueError (s : State) (q : Queue) (e : BitVec 8) : State :=
  let s1 := descBit (hubWrite s (q.desc + 40) [e]) q 0 false
  let s2 := writeBounds (modQueue s1 q.qid fun x => { x with err := e, stalled := none }) q.level
  { s2 with out := s2.out ++ [.queueErr q.qid e] }

/-- Holding set or cleared (R341). -/
def setHolding (s : State) (q : Queue) (v : Bool) : State :=
  modQueue (descBit s q 1 v) q.qid fun x => { x with holding := v }

/-! ## Places (R355) -/

/-- Whether packets of a context's queues start (R442). -/
def ctxStarts (s : State) (ctx : Fin 64) : Bool :=
  (s.ctxs[ctx].inst = .unlocked || s.ctxs[ctx].inst = .run) && s.ctxs[ctx].leaving.isNone

/-- Whether packets of a context that have not retired retire aborted with code 0x07: it is leaving RUN, or has left for ERROR
(R340, R442, R444). -/
def ctxAborts (s : State) (ctx : Fin 64) : Bool := s.ctxs[ctx].inst = .error || s.ctxs[ctx].leaving.isSome

/-- Whether a queue has a packet to start. -/
def toStart (s : State) (q : Queue) : Bool := qEnabled s q && q.next < q.observed && !q.closing

/-- Whether a queue keeps its place. -/
def keepsPlace (s : State) (q : Queue) : Bool := toStart s q || q.flights.any fun f => !f.retired

/-- Whether a waiting queue comes before another: higher level, then longer wait, then lower id. -/
def placeBefore (a b : Queue) : Bool :=
  a.level.val > b.level.val ||
  (a.level = b.level && (a.since < b.since || (a.since = b.since && a.qid < b.qid)))

/-- One free place given, if there is one and a queue waits for it. -/
def givePlace (s : State) : State :=
  if (s.queues.filter (·.resident)).length ≥ 256 then s
  else
    let best := (s.queues.filter fun q => !q.resident && q.since > 0).foldl
      (fun a q => match a with | none => some q | some x => if placeBefore q x then some q else some x) none
    match best with
    | none => s
    | some q => modQueue s q.qid fun x => { x with resident := true, since := 0, deficit := 0, turn := false }

/-- A queue that gives up its place, or begins to wait for one. -/
def placeState (s : State) (q : Queue) : Queue :=
  if !q.resident then { q with since := if toStart s q then (if q.since = 0 then s.tick + 1 else q.since) else 0 }
  else if keepsPlace s q then q
  else { q with resident := false, since := 0, deficit := 0, turn := false, selected := none, reserved := [] }

/-- Places given up and given (R355). -/
def settlePlaces (s : State) : State :=
  let s1 := { s with queues := s.queues.map (placeState s) }
  (List.range s1.queues.length).foldl (fun t _ => givePlace t) s1

/-! ## Reading a packet (R330 to R335) -/

/-- Bytes b to b + n − 1 of a packet as a number (R331). -/
def pkB (p b n : Nat) : Nat := bitsOf p (8 * b) (8 * n)

/-- TYPE, and the flags of a header (R332). -/
def pkType (p : Nat) : Nat := bitsOf p 0 4
def pkHold (p : Nat) : Bool := bitsOf p 4 1 = 1
def pkResync (p : Nat) : Bool := bitsOf p 5 1 = 1

/-- A scope code of a header (R332). -/
def pkScope (c : Nat) : Scope := if c = 4 then .dv else if c = 5 then .sy else .none

/-- Whether every earlier packet with HOLD has completed (R335); its retirement follows its completion (log 50,
DEDUCED). -/
def holdsDone (q : Queue) : Bool := q.flights.all fun f => !f.hold || f.retired

/-- Whether the command processor may start the queue's next packet (R329, R335, R355, R442). -/
def canStart (s : State) (q : Queue) : Bool :=
  toStart s q && q.resident && q.stalled.isNone && holdsDone q && ctxStarts s q.ctx

/-- Whether the command processor may take the queue's next packet only to retire it aborted (R442, R444). -/
def canAbort (s : State) (q : Queue) : Bool := toStart s q && q.stalled.isNone && ctxAborts s q.ctx

/-- The queue waits for a page (R330). -/
def stallQueue (s : State) (q : Queue) (c vp : Nat) (kd : Option (BitVec 4)) : State :=
  modQueue (ringFault s (Fin.ofNat 64 c) vp (kd.getD 0) none) q.qid fun x => { x with stalled := some (c, vp) }

/-- The next packet of a queue, whose slot is read once, or the state where it cannot be read (R330). -/
def fetchPacket (s : State) (q : Queue) : Except State Nat :=
  match q.fetched with
  | some p => .ok p
  | none =>
    match hubRead s q.ctx q.fatal (q.ring + 64 * (q.next % 2 ^ q.sizelog)) 64 with
    | .ok bs => .ok (leNat bs)
    | .bad => .error (settlePlaces (queueError s q 2))
    | .wait c vp kd => .error (stallQueue s q c vp kd)

/-- Whether an address of a signal or a record is a cause of malformation (R334). -/
def badAddr (s : State) (ctx : Fin 64) (align a : Nat) : Bool :=
  a ≥ 2 ^ 56 || a % align != 0 || inSpan a ||
  (match leafOf s none ctx a with | .leaf t => bitsOf t.pte.toNat 8 6 != 0 | _ => false)

/-- The payload bytes that each type lists (R333). -/
def usedBytes : Nat → List (Nat × Nat)
  | 1 => [(24, 21), (48, 16)]
  | 2 => [(24, 8), (48, 16)]
  | 3 => [(24, 23)]
  | 4 => [(24, 32)]
  | 5 => [(24, 16)]
  | 6 => [(32, 12)]
  | _ => []

/-- Whether a payload byte that a type does not list is nonzero (R333). -/
def unusedSet (t p : Nat) : Bool :=
  (List.range 40).any fun i => pkB p (24 + i) 1 != 0 && !((usedBytes t).any fun r => r.1 ≤ 24 + i && 24 + i < r.1 + r.2)

/-- The addresses of a BARRIER's signals (R333). -/
def barrierSigs (p : Nat) : List Int :=
  (List.range (bitsOf p 16 3)).map fun j => (pkB p 24 8 : Int) + sextN 32 (pkB p (32 + 4 * j) 4)

/-- Whether the payload of a NODE, GRAPH or COPY is malformed, in a packet or a node record (R333, R334). A KDESC address
that is no multiple of 64, a block count of 0 and bits 63:56 of ARGS are malformed, and do not come to the check of R187 (log
48, DEDUCED). -/
def payloadBad (t p : Nat) : Bool :=
  unusedSet t p ||
  match t with
  | 1 =>
    let wd := pkB p 44 1 % 64
    pkB p 24 8 ≥ 2 ^ 56 || pkB p 24 8 % 64 != 0 || pkB p 32 8 ≥ 2 ^ 56 || pkB p 40 4 = 0 || (wd != 0 && (wd < 10 || wd > 48))
  | 2 => pkB p 24 8 ≥ 2 ^ 56 || pkB p 24 8 % 64 != 0
  | 3 => pkB p 24 8 ≥ 2 ^ 56 || pkB p 32 8 ≥ 2 ^ 56 || pkB p 40 5 = 0 || pkB p 46 1 > 1
  | _ => false

/-- Whether a header is malformed (R332, R334; log 47, DEDUCED). -/
def headerBad (p : Nat) : Bool :=
  let t := pkType p
  let sc (c : Nat) : Bool := c = 0 || c = 4 || c = 5
  t > 6 || bitsOf p 22 42 != 0 || bitsOf p 19 1 != 0 || !sc (bitsOf p 6 3) || !sc (bitsOf p 9 3) ||
  bitsOf p 20 2 = 3 || (t != 5 && bitsOf p 20 2 != 0) || bitsOf p 16 3 > 6 || (t != 4 && bitsOf p 16 3 != 0) ||
  bitsOf p 12 4 > 4 || (t != 1 && t != 2 && bitsOf p 12 4 != 0)

/-- The completion signal and record addresses, one that is itself a cause of malformation taken as 0 (R334). -/
def csigOf (s : State) (ctx : Fin 64) (p : Nat) : Nat := if badAddr s ctx 8 (pkB p 8 8) then 0 else pkB p 8 8
def crecOf (s : State) (ctx : Fin 64) (p : Nat) : Nat := if badAddr s ctx 64 (pkB p 16 8) then 0 else pkB p 16 8

/-- Whether a packet is malformed (R334, R344). -/
def malformed (s : State) (q : Queue) (p : Nat) : Bool :=
  let t := pkType p
  csigOf s q.ctx p != pkB p 8 8 || crecOf s q.ctx p != pkB p 16 8 || headerBad p || payloadBad t p ||
  ((t = 1 || t = 2) && (pkB p 48 8 ≥ 2 ^ 56 || (bitsOf p 12 4 = 0 && pkB p 48 8 != 0))) ||
  (t = 4 && (pkB p 24 8 ≥ 2 ^ 56 || (barrierSigs p).any fun a => a < 0 || badAddr s q.ctx 8 a.toNat)) ||
  (t = 5 && badAddr s q.ctx 8 (pkB p 24 8)) ||
  (t = 6 && (pkB p 40 2 ≥ 4096 || (match getQueue s (pkB p 40 2) with | none => true | some x => x.ctx != q.ctx)))

/-- A packet as it starts. -/
def newFlight (s : State) (q : Queue) (p : Nat) (kind : FKind) : Flight :=
  { idx := q.next, hold := pkHold p, acq := pkScope (bitsOf p 6 3), rel := pkScope (bitsOf p 9 3),
    csiga := csigOf s q.ctx p, creca := crecOf s q.ctx p, kind := kind, finished := false, abort := 0, nfault := 0,
    summary := 0, first := none, cycles := 0, stage := .record, sigv := 0, failed := false, again := false,
    retired := false, stalled := none, fatal := none }

/-- A packet has started. -/
def addFlight (s : State) (q : Queue) (f : Flight) : State :=
  modQueue s q.qid fun x => { x with flights := x.flights ++ [f], next := x.next + 1, fatal := none, fetched := none, part := none }

/-- Start the next packet of a queue if it is of a wanted type. One that a holding queue reaches, without RESYNC, aborts
with 0x02; a malformed one with 0x04 (R334, R335, R341). -/
def startPacket (s : State) (qid : Nat) (want : Nat → Bool) (go : State → Queue → Nat → State) : Out1 :=
  match getQueue s qid with
  | none => .fault .noParty
  | some q =>
    if !canStart s q && !canAbort s q then .next s
    else
      match fetchPacket s q with
      | .error t => .next t
      | .ok p =>
        let s0 := modQueue s qid fun x => { x with fetched := some p }
        if ctxAborts s q.ctx then .next (addFlight s0 q { newFlight s q p .bad with abort := 0x07, finished := true })
        else if q.holding && !pkResync p then
          .next (addFlight s0 q { newFlight s q p .bad with abort := 0x02, finished := true })
        else if !want (pkType p) then .next s0
        else
          let s1 := if q.holding then setHolding s0 q false else s0
          if malformed s q p then .next (addFlight s1 q { newFlight s q p .bad with abort := 0x04, finished := true })
          else .next (go s1 q p)

/-- WRITE_INDEX_OBSERVED: the write index is read, and a packet that no other step takes is retired: one of a reserved
type, or one that a holding queue reaches (R330, R334, R341, R355, R356). -/
def execWriteIndexObserved (qid : Nat) (s : State) : Out1 :=
  match getQueue s qid with
  | none => .fault .noParty
  | some q =>
    if !(qEnabled s q) || q.stalled.isSome || q.closing then .next (writeBounds (settlePlaces s) q.level)
    else
      match hubRead s q.ctx q.fatal q.widx 8 with
      | .bad => .next (settlePlaces (queueError s q 2))
      | .wait c vp kd => .next (stallQueue s q c vp kd)
      | .ok bs =>
        let v := leNat bs
        if v > q.observed && v > q.readIdx + 2 ^ q.sizelog then .next (settlePlaces (queueError s q 1))
        else
          let s1 := modQueue s qid fun x => { x with observed := max v x.observed }
          startPacket (writeBounds (settlePlaces s1) q.level) qid (· > 6) fun t _ _ => t

/-! ## NODE (R186 to R188) -/

/-- A role of a descriptor (R186). -/
def roleOf (e j : Nat) : Role :=
  let w := bitsOf e (288 + 64 * j) 32
  let n := bitsOf w 15 3
  { entry := BitVec.ofNat 32 (bitsOf e (256 + 64 * j) 32), nslice := Fin.ofNat 9 (if n = 0 then 8 else n),
    gmax := bitsOf w 6 9, warps := bitsOf w 0 6 }

/-- Whether role j of a descriptor is outside its ranges (R186). -/
def roleBad (e j : Nat) : Bool :=
  let w := bitsOf e (288 + 64 * j) 32
  bitsOf w 18 14 != 0 || bitsOf w 6 9 > 256 || bitsOf w 0 6 = 0 || bitsOf w 0 6 > 32

/-- The descriptor that 64 bytes hold, unless a field is out of range (R186, R187). -/
def parseKdesc (bytes : List Byte) : Option KDesc :=
  let e := leNat bytes
  let n := bitsOf e 7 2 + 1
  let cl := bitsOf e 15 5
  let bad :=
    bitsOf e 24 8 != 0 || bitsOf e 20 4 != 2 || cl = 0 || cl > 16 || bitsOf e 9 6 > 32 || bitsOf e 0 7 != 0 ||
    bitsOf e 48 16 > 32768 || bitsOf e 45 3 != 0 || bitsOf e 32 13 > 4096 || bitsOf e 64 6 != 0 || bitsOf e 120 8 != 0 ||
    bitsOf e 150 10 != 0 || bitsOf e 192 64 != 0 || (List.range n).any (roleBad e) ||
    (List.range (4 - n)).any fun j => bitsOf e (256 + 64 * (n + j)) 64 != 0
  let roles := (List.range n).map (roleOf e)
  if bad || (roles.foldl (fun a r => a + r.warps) 0) > 32 then none
  else
    some { cluster := cl, barriers := bitsOf e 9 6, span := 64 * bitsOf e 48 16, args := bitsOf e 32 13,
           codebase := bitsOf e 64 56, polcl := BitVec.ofNat 2 (bitsOf e 148 2), polbk := BitVec.ofNat 2 (bitsOf e 146 2),
           polwp := BitVec.ofNat 2 (bitsOf e 144 2), version := BitVec.ofNat 16 (bitsOf e 128 16),
           helmpc := BitVec.ofNat 32 (bitsOf e 160 32), roles := roles }

/-- A descriptor with nothing in it, of a node that has none. -/
def KDesc.none : KDesc :=
  { cluster := 1, barriers := 0, span := 0, args := 0, codebase := 0, polcl := 2, polbk := 2, polwp := 2, version := 0,
    helmpc := 0, roles := [] }

/-- The directory index of the code that a descriptor names, where it is loaded (R187, R404, R406). -/
def launchDir (s : State) (ctx : Fin 64) (kd : KDesc) : Option Nat :=
  (findDir s ctx fun i e => e.valid && e.version = kd.version.toNat &&
    (e.codebase = kd.codebase || s.ctxs[ctx].forward.contains (kd.codebase, i))).map (·.1)

/-- A node from a payload, with what is read at its launch (R188, R333, R401, R448). -/
def newNode (s : State) (ctx : Fin 64) (qid pidx : Nat) (graph : Option (Nat × Nat)) (p : Nat) (kd : KDesc) (di : Nat) :
    Node :=
  let c := s.ctxs[ctx]
  { ctx := ctx, qid := qid, pidx := pidx, graph := graph, copy := none, kd := kd, dirIdx := di, nblocks := pkB p 40 4,
    args := BitVec.ofNat 64 (pkB p 32 8), wdlog := BitVec.ofNat 6 (pkB p 44 1), policy := BitVec.ofNat 2 (pkB p 44 1 / 64),
    det := c.det, debug := c.debug, legacy := c.legacy, status := .ready, next := 0, redo := [], incarnation := 0,
    retries := 0, clRetries := [], nfault := 0, summary := 0, cycles := 0, first := none, samples := [],
    readyAt := s.tick, endedAt := 0, affinity := none, placed := [], succ := [], count := 0, xfer := none }

/-- What a node's descriptor gives (R187). -/
inductive Launch where
  | ok (kd : KDesc) (di : Nat)
  | bad
  | wait (ctx vpage : Nat) (kind : Option (BitVec 4))

/-- The check of R187 on a NODE's payload. -/
def checkLaunch (s : State) (ctx : Fin 64) (fatal : Option (Nat × Nat)) (p : Nat) : Launch :=
  match hubLoad s ctx fatal (pkB p 24 8) 64 with
  | .bad => .bad
  | .wait c vp kd => .wait c vp kd
  | .ok bs =>
    match parseKdesc bs with
    | none => .bad
    | some kd =>
      if pkB p 40 4 = 0 || pkB p 40 4 % kd.cluster != 0 then .bad
      else
        match launchDir s ctx kd with
        | none => .bad
        | some di => .ok kd di

/-- A fault that arises at a node (R418). -/
def nodeFault (n : Nat) (r : Raise) : FRec :=
  { r := r, source := 7, block := none, warp := none, gid := none, pc := 0, slices := 0, node := n, incarnation := 0,
    start := 3, precise := r.code != .aborted, stands := false, retired := false }

/-- The Pontoon takes a NODE packet: its node is ready, or takes ILLEGAL_INSTRUCTION with cause launch descriptor (R187). -/
def takeNode (s : State) (q : Queue) (p : Nat) : State :=
  let n := s.nodes.length
  match checkLaunch s q.ctx q.fatal p with
  | .wait c vp kd => stallQueue s q c vp kd
  | .ok kd di =>
    addFlight { s with nodes := s.nodes ++ [newNode s q.ctx q.qid q.next none p kd di] } q (newFlight s q p (.node n))
  | .bad =>
    let nd := newNode s q.ctx q.qid q.next none p KDesc.none 0
    let s1 := addFlight { s with nodes := s.nodes ++ [{ nd with nblocks := 0 }] } q (newFlight s q p (.node n))
    offer s1 (.helm 0) false (nodeFault n (raise .illegal none 2))

/-- NODE_PACKET. -/
def execNodePacket (qid : Nat) (s : State) : Out1 := startPacket s qid (· = 1) takeNode

/-! ## Records of faults that no block raised (R345, R349, R350, R416) -/

/-- A fault record of a COPY or a graph: SOURCE 7, no block, offered and stopped at one level (R345, R416). -/
def plainRecord (ctx : Fin 64) (qid pidx : Nat) (r : Raise) (lvl action : Nat) (precise : Bool) (seq : Nat) : Nat :=
  r.addr % 2 ^ 64 * 2 ^ 448 + pidx % 2 ^ 64 * 2 ^ 384 + qid % 4096 * 2 ^ 364 + ctx.val * 2 ^ 358 + 0xFFFF * 2 ^ 240 +
  0xFF * 2 ^ 232 + 7 * 2 ^ 216 + r.cause % 256 * 2 ^ 208 + r.code.num * 2 ^ 200 + lvl * 2 ^ 192 + lvl * 2 ^ 184 +
  action * 2 ^ 176 + (if precise then 2 ^ 128 else 0) + seq % 2 ^ 64

/-- The first-fault fields of such a fault (R342, R345). -/
def plainFirst (r : Raise) (lvl : Nat) : FirstFault :=
  { block := 0, warp := 0xFFFF, pc := 0, code := BitVec.ofNat 8 r.code.num, level := BitVec.ofNat 8 lvl }

/-! ## COPY (R345) -/

/-- The job of a COPY payload: one raw row. -/
def copyJob (p : Nat) : CopyJob :=
  { row := { n := 0, kind := .raw (pkB p 24 8) (pkB p 32 8) (pkB p 40 5), fabs := [], data := [] }
    ver := if pkB p 46 1 = 1 then some (BitVec.ofNat 8 (pkB p 45 1)) else none
    stalled := none, fatal := none, written := false }

/-- Whether a range of addresses meets the span window. -/
def touchesSpan (va n : Nat) : Bool := va < Config.spanBase + Config.spanWindow && Config.spanBase < va + n

/-- Whether a COPY names a span address (R345). -/
def copySpan (j : CopyJob) : Bool :=
  match j.row.kind with
  | .raw src dst len => touchesSpan src len || touchesSpan dst len
  | _ => false

/-- A COPY after it has run on: the state, the job, its faults with the action each takes, its flags, whether it failed. -/
structure CopyOut where
  s : State
  j : CopyJob
  faults : List (Raise × Nat)
  flags : Flags
  failed : Bool

/-- Reports of a COPY's writes, which are faults of the packet (R345, R431). -/
def copyReports (rs : List Report) : List (Raise × Nat) :=
  rs.map fun t => (raise .storeImprecise none t.cause.toNat t.addr, 0)

/-- What of a COPY a migration holds. -/
def copyHeld : FabFor → Held
  | .copyPacket q idx => .flight q idx
  | .copyNode n => .node n
  | _ => .node 0

/-- A COPY runs on: its row is written whole, or waits for a page, for fabric reads or for its own fabric operations, or fails
(R345). -/
def runCopy (s : State) (ctx : Fin 64) (why : FabFor) (j : CopyJob) : CopyOut :=
  let a : EAgent := { who := none, ctx := ctx, tag := noTag, b := none, why := fun _ => why }
  let stop (r : Raise) : CopyOut := { s := s, j := j, faults := [(r, 2)], flags := 0, failed := true }
  let wait (t : State) (j1 : CopyJob) : CopyOut := { s := t, j := j1, faults := [], flags := 0, failed := false }
  match j.fatal, j.row.kind with
  | some (_, va), _ => stop (raise .pageNotPresent none 0 va)
  | none, .raw src dst len =>
    match rawRow { s with reports := [] } a j.ver [] j.row src dst len with
    | .ok (t, ws, fl) =>
      let u := match j.ver with | some n => writeVersioned t noTag n ws | none => t
      { s := { u with reports := s.reports }, j := { j with written := true, stalled := none },
        faults := copyReports u.reports, flags := fl, failed := false }
    | .error (.fault r) | .error (.here r) => stop r
    | .error (.page c va kind) => wait (hubFault s c va kind (copyHeld why)) { j with stalled := some (c, va) }
    | .error (.wants rs) =>
      let new := rs.filter fun r => !j.row.fabs.any (·.2 = r.1)
      let (t, fs) := new.foldl (fun (x : State × List (Nat × Nat)) r =>
        (sendFab x.1 r.2.1 (.read r.2.2) why false r.1, x.2 ++ [(x.1.nextId, r.1)])) (s, j.row.fabs)
      wait t { j with row := { j.row with fabs := fs }, stalled := none }
    | .error .busy => wait s { j with stalled := none }
  | none, _ => { s := s, j := { j with written := true }, faults := [], flags := 0, failed := false }

/-- The faults of a COPY recorded in its context's log (R345, R416). -/
def logCopy (s : State) (ctx : Fin 64) (qid pidx : Nat) (fs : List (Raise × Nat)) : State :=
  fs.foldl (fun t f => logFault t ctx fun seq => plainRecord ctx qid pidx f.1 3 f.2 (f.2 = 2) seq) s

/-- The first of a COPY's faults together with one seen earlier. -/
def copyFirst (old : Option FirstFault) (fs : List (Raise × Nat)) : Option FirstFault :=
  fs.foldl (fun o f => firstOf o (plainFirst f.1 3)) old

/-- A COPY packet takes what its job gives. -/
def landCopyPacket (qid idx : Nat) (ctx : Fin 64) (o : CopyOut) : State :=
  modFlight (logCopy o.s ctx qid idx o.faults) qid idx fun f =>
    { f with
      kind := .copy o.j
      nfault := f.nfault + o.faults.length
      first := copyFirst f.first o.faults
      summary := f.summary ||| o.flags
      abort := if o.failed && f.abort = 0 then 0x06 else f.abort }

/-- A COPY packet runs on. -/
def pumpCopyPacket (s : State) (qid idx : Nat) : State :=
  match getQueue s qid with
  | none => s
  | some q =>
    match q.flights.find? (·.idx = idx) with
    | none => s
    | some f =>
      match f.kind with
      | .copy j =>
        if f.abort != 0 || j.written then s else landCopyPacket qid idx q.ctx (runCopy s q.ctx (.copyPacket qid idx) j)
      | _ => s

/-- A COPY node of a graph takes what its job gives; a fatal fault ends it alone (R350). -/
def landCopyNode (n : Nat) (nd : Node) (o : CopyOut) : State :=
  modNode (logCopy o.s nd.ctx nd.qid nd.pidx o.faults) n fun x =>
    { x with
      copy := some o.j
      nfault := x.nfault + o.faults.length
      first := copyFirst x.first o.faults
      summary := x.summary ||| o.flags
      status := if o.failed then .aborted else if o.j.written then .ended else x.status
      endedAt := if o.failed || o.j.written then s0tick o.s else x.endedAt }
where
  /-- The tick of a state. -/
  s0tick (s : State) : Nat := s.tick

/-- A COPY node of a graph runs on. -/
def pumpCopyNode (s : State) (n : Nat) : State :=
  match s.nodes[n]? with
  | none => s
  | some nd =>
    match nd.copy with
    | none => s
    | some j =>
      if nd.status != .ready then s
      else if copySpan j then modNode s n fun x => { x with status := .aborted, endedAt := s.tick }
      else landCopyNode n nd (runCopy s nd.ctx (.copyNode n) j)

/-- A ready COPY node of a graph of a queue that no engine has taken. -/
def readyCopy (s : State) (qid : Nat) : Option Nat :=
  (s.nodes.zipIdx).findSome? fun x =>
    match x.1.copy with
    | some j =>
      if x.1.qid = qid && x.1.graph.isSome && x.1.status = .ready && j.stalled.isNone && j.row.fabs.isEmpty then some x.2
      else none
    | none => none

/-- COPY_PACKET: a copy engine accepts a ready COPY node of the queue's graphs, else the queue's next packet (R345, R348). -/
def execCopyPacket (qid : Nat) (s : State) : Out1 :=
  match readyCopy s qid with
  | some n => .next (pumpCopyNode s n)
  | none => startPacket s qid (· = 3) fun t q p =>
      let j := copyJob p
      let f := newFlight t q p (.copy j)
      if copySpan j then addFlight t q { f with abort := 0x06 } else pumpCopyPacket (addFlight t q f) qid q.next

/-! ## BARRIER (R339, R374) -/

/-- What a round reads of one signal: a value, that it must be read over the fabric, a failure, or a page to wait for. -/
inductive SigRead where
  | val (v : Word64)
  | far (l : Loc)
  | bad
  | wait (ctx vpage : Nat) (kind : Option (BitVec 4))

/-- One signal of a BARRIER, with the value that this round has read of it, if it has. -/
def readSig (s : State) (ctx : Fin 64) (fatal : Option (Nat × Nat)) (got : Option Word64) (va : Nat) : SigRead :=
  match got with
  | some v => .val v
  | none =>
    match hubPlace s ctx .load fatal va with
    | .bad => .bad
    | .wait c vp kd => .wait c vp kd
    | .ok l => if isFab l then .far l else if poisonAt s l 8 then .bad else .val (BitVec.ofNat 64 (leNat (readLoc s l 8)))

/-- The value that this round has read of signal j. -/
def gotOf (got : List (Nat × Word64)) (j : Nat) : Option Word64 := (got.find? (·.1 = j)).map (·.2)

/-- Whether an access of the command processor to a place in fabric memory waits for one of its own that it overlaps (R369). -/
def cpBusy (s : State) (l : Loc) (n : Nat) : Bool :=
  s.fabOps.any fun o => sameAgent o.why (.signalOp 0 0) && fabMeets o l n

/-- Whether an operation of the command processor itself is on its way. -/
def cpSent (s : State) (w : FabFor) : Bool := s.fabOps.any fun o => o.why = w

/-- Whether a read of the command processor waits for an outstanding write or atomic of its own that it overlaps (R369). -/
def cpReadBusy (s : State) (l : Loc) (n : Nat) : Bool :=
  s.fabOps.any fun o => sameAgent o.why (.signalOp 0 0) && !isRead o.kind && fabMeets o l n

/-- Reads of a BARRIER's fabric signals that are not yet on their way and wait for nothing (R369, R374). -/
def sendSigs (s : State) (qid idx : Nat) (rs : List (Nat × SigRead)) : State :=
  rs.foldl (fun t r => match r.2 with
    | .far l =>
      if cpSent t (.barrier qid idx r.1) || cpReadBusy t l 8 then t else sendFab t l (.read 8) (.barrier qid idx r.1) false 0
    | _ => t) s

/-- One round of a BARRIER; one that waits keeps the values it has read (R339). -/
def runRound (s : State) (q : Queue) (f : Flight) (sigs : List Nat) (got : List (Nat × Word64)) : State :=
  let rs := sigs.zipIdx.map fun x => (x.2, readSig s q.ctx f.fatal (gotOf got x.2) x.1)
  let set (g : Flight → Flight) : State := modFlight s q.qid f.idx g
  let again (x : Flight) : Flight := { x with kind := .barrier sigs [], stalled := none, fatal := none }
  let read := rs.filterMap fun r => match r.2 with | .val v => some (r.1, v) | _ => none
  if rs.any fun r => (match r.2 with | .bad => true | _ => false) then set fun x => { again x with abort := 0x0A }
  else
    match rs.find? fun r => (match r.2 with | .wait _ _ _ => true | _ => false) with
    | some (_, .wait c vp kd) =>
      modFlight (hubFault s c vp kd (.flight q.qid f.idx)) q.qid f.idx fun x =>
        { x with kind := .barrier sigs read, stalled := some (c, vp) }
    | _ =>
      if rs.any fun r => (match r.2 with | .far _ => true | _ => false) then
        sendSigs (set fun x => { x with kind := .barrier sigs read }) q.qid f.idx rs
      else
        let vs := read.map (·.2)
        if vs.any fun v => v.toInt < 0 then set fun x => { again x with abort := 0x01 }
        else if vs.all (· = 0) then set fun x => { again x with finished := true }
        else set again

/-- BARRIER_PACKET: evaluation begins with a first round; a barrier without signals completes at once (R335, R339). -/
def execBarrierPacket (qid : Nat) (s : State) : Out1 :=
  startPacket s qid (· = 4) fun t q p =>
    let sigs := (barrierSigs p).map Int.toNat
    let f := newFlight t q p (.barrier sigs [])
    if sigs.isEmpty then addFlight t q { f with finished := true }
    else runRound (addFlight t q f) q f sigs []

/-- The packet with index n of a queue, with its queue. -/
def findFlight (s : State) (qid n : Nat) : Option (Queue × Flight) :=
  match getQueue s qid with
  | none => none
  | some q => (q.flights.find? (·.idx = n)).map fun f => (q, f)

/-- Whether a packet still evaluates. -/
def evaluates (f : Flight) : Bool := !f.finished && f.abort = 0 && f.stalled.isNone

/-- A further round of a BARRIER, or the one in progress goes on. -/
def nextRound (s : State) (qid n : Nat) : Out1 :=
  match findFlight s qid n with
  | none => .fault .noParty
  | some (q, f) =>
    match f.kind with
    | .barrier sigs got => .next (if evaluates f then runRound s q f sigs got else s)
    | _ => .next s

/-- BARRIER_ROUND: a write has reached the home of a signal of the BARRIER (R339). -/
def execBarrierRound (qid n : Nat) (s : State) : Out1 := nextRound s qid n

/-- BARRIER_POLL: the fabric signals of a BARRIER are read again (R374). -/
def execBarrierPoll (qid n : Nat) (s : State) : Out1 := nextRound s qid n

/-! ## SIGNAL, XFER, NOP (R335, R338, R344) -/

/-- The operation of a SIGNAL is sent and, at a home of the device, performed (R335, R338). -/
def trySignal (s : State) (qid idx : Nat) : State :=
  match findFlight s qid idx with
  | none => s
  | some (q, f) =>
    match f.kind with
    | .signal op va v =>
      if !evaluates f || cpSent s (.signalOp qid idx) then s
      else
        match hubPlace s q.ctx .atomic f.fatal va with
        | .bad => modFlight s qid idx fun x => { x with abort := 0x0A, fatal := none }
        | .wait c vp kd =>
          modFlight (hubFault s c vp kd (.flight qid idx)) qid idx fun x => { x with stalled := some (c, vp) }
        | .ok l =>
          let (o, x) := sigAtom op v
          if isFab l then
            if cpBusy s l 8 then s
            else sendFab s l (.atomic o false .b64 x 0 false) (.signalOp qid idx)
          else if poisonAt s l 8 then modFlight s qid idx fun y => { y with abort := 0x0A }
          else modFlight (rmw s noTag l o false .b64 x 0).1 qid idx fun y => { y with finished := true }
    | _ => s

/-- SIGNAL_PACKET. -/
def execSignalPacket (qid : Nat) (s : State) : Out1 :=
  startPacket s qid (· = 5) fun t q p =>
    let op : SigOp := if bitsOf p 20 2 = 0 then .sub else if bitsOf p 20 2 = 1 then .add else .set
    trySignal (addFlight t q (newFlight t q p (.signal op (pkB p 24 8) (BitVec.ofNat 64 (pkB p 32 8))))) qid q.next

/-- The node of a NODE packet that has started and not retired (R344). -/
def startedNode (s : State) (qid idx : Nat) : Option Nat :=
  match findFlight s qid idx with
  | some (_, f) => if f.retired then none else (match f.kind with | .node n => some n | _ => none)
  | none => none

/-- A version requested for the warps of a block of node n, unless the block has ended. -/
def requestBlock (n : Nat) (v : BitVec 16) (blk : Block) : Block :=
  if blk.node = n && blockLives blk then { blk with warps := blk.warps.map (requestXfer v) } else blk

/-- A version requested for every warp of a node, as XFER.bk requests it, and kept for warps released later (R165, R344). -/
def requestNode (s : State) (n : Nat) (v : BitVec 16) : State :=
  { modNode s n (fun x => { x with xfer := some v }) with blocks := s.blocks.map (requestBlock n v) }

/-- XFER_PACKET (R344). -/
def execXferPacket (qid : Nat) (s : State) : Out1 :=
  startPacket s qid (· = 6) fun t q p =>
    let f := { newFlight t q p .xfer with finished := true }
    match startedNode t (pkB p 40 2) (pkB p 32 8) with
    | none => addFlight t q f
    | some n =>
      match t.nodes[n]? with
      | none => addFlight t q f
      | some nd =>
        if (loadedAs t nd.ctx nd.dirIdx (pkB p 42 2)).isNone then addFlight t q { f with abort := 0x05 }
        else if nd.status = .ready then requestNode (addFlight t q f) n (BitVec.ofNat 16 (pkB p 42 2))
        else addFlight t q f

/-- NOP_PACKET. -/
def execNopPacket (qid : Nat) (s : State) : Out1 :=
  startPacket s qid (· = 0) fun t q p => addFlight t q { newFlight t q p .nop with finished := true }

/-! ## GRAPH (R347 to R350) -/

/-- What reading a graph gives; where it waits for a page, what has been read so far. -/
inductive GraphRead where
  | ok (rs : List GRec)
  | bad
  | wait (ctx vpage : Nat) (kind : Option (BitVec 4)) (recs : List GRec) (cur : Option (Nat × List Byte))

/-- KIND, PCOUNT and AFFN of a node record (R348). -/
def recKindOf (e : Nat) : Nat := bitsOf e 16 8
def recCount (e : Nat) : Nat := bitsOf e 0 16
def recAff (e : Nat) : Nat := bitsOf e 32 16

/-- Whether a node record is malformed (R334, R348, R349). -/
def recBad (nn e : Nat) : Bool :=
  let k := recKindOf e
  bitsOf e 49 15 != 0 || bitsOf e 128 64 != 0 || (k != 1 && k != 3) || payloadBad k e ||
  (k = 1 && pkB e 48 16 != 0) || bitsOf e 64 64 ≥ 2 ^ 56 || bitsOf e 64 64 % 2 != 0 ||
  (bitsOf e 24 8 = 0 && bitsOf e 64 64 != 0) || recAff e ≥ nn

/-- The 16-bit numbers of a list of bytes. -/
def u16s : List Byte → List Nat
  | a :: b :: r => leNat [a, b] :: u16s r
  | _ => []

/-- What reading one node record gives; where it waits, its raw bits and the bytes of its successors so far. -/
inductive RecRead where
  | ok (r : GRec)
  | bad
  | wait (ctx vpage : Nat) (kind : Option (BitVec 4)) (cur : Option (Nat × List Byte))

/-- The successors of a node record from the bytes already read on: all of them, or where the reading stops (R349). -/
def readSucc (s : State) (ctx : Fin 64) (fatal : Option (Nat × Nat)) (e : Nat) : Nat → List Byte → Except RecRead (List Byte)
  | 0, got => .ok got
  | n + 1, got =>
    match hubLoad s ctx fatal (bitsOf e 64 64 + got.length) 2 with
    | .bad => .error .bad
    | .wait c vp kd => .error (.wait c vp kd (some (e, got)))
    | .ok xs => readSucc s ctx fatal e n (got ++ xs)

/-- One node record with its successors and its launch, from what has been read of it (R349). -/
def readRec (s : State) (ctx : Fin 64) (fatal : Option (Nat × Nat)) (nn va : Nat) (cur : Option (Nat × List Byte)) : RecRead :=
  let raw : HubRead := match cur with
    | some (e, _) => .ok (leBytes 64 e)
    | none => hubLoad s ctx fatal va 64
  match raw with
  | .bad => .bad
  | .wait c vp kd => .wait c vp kd none
  | .ok bs =>
    let e := leNat bs
    if recBad nn e then .bad
    else
      let got := (cur.map (·.2)).getD []
      match readSucc s ctx fatal e (bitsOf e 24 8 - got.length / 2) got with
      | .error x => x
      | .ok xs =>
        let succ := u16s xs
        if succ.any (· ≥ nn) then .bad
        else if recKindOf e = 3 then .ok { raw := e, succ := succ, launch := none }
        else
          match checkLaunch s ctx fatal e with
          | .ok kd di => .ok { raw := e, succ := succ, launch := some (kd, di) }
          | .bad => .bad
          | .wait c vp kd => .wait c vp kd (some (e, xs))

/-- The node records of a graph that are still to be read, each read once, after those read before (R349). -/
def readRecs (s : State) (ctx : Fin 64) (fatal : Option (Nat × Nat)) (nn base : Nat) : Nat → List GRec → Option (Nat × List Byte) → GraphRead
  | 0, got, _ => .ok got
  | n + 1, got, cur =>
    match readRec s ctx fatal nn (base + 64 * got.length) cur with
    | .bad => .bad
    | .wait c vp kd cur1 => .wait c vp kd got cur1
    | .ok r => readRecs s ctx fatal nn base n (got ++ [r]) none

/-- Whether PCOUNT of every node is the number of times it appears in the successor lists (R349). -/
def countsAgree (rs : List GRec) : Bool :=
  let all := rs.flatMap (·.succ)
  rs.zipIdx.all fun r => (all.filter (· = r.2)).length = recCount r.1.raw

/-- Live counters that the Pontoon holds (R349). -/
def counterLimit : Nat := 262144

/-- The nodes of a graph, with the places they take in State.nodes from n0 on. -/
def graphNodes (s : State) (q : Queue) (g n0 : Nat) (rs : List GRec) : List Node :=
  rs.zipIdx.map fun r =>
    let e := r.1.raw
    let (kd, di) := r.1.launch.getD (KDesc.none, 0)
    let nd := newNode s q.ctx q.qid q.next (some (g, r.2)) e kd di
    let nd1 : Node := { nd with
      succ := r.1.succ.map (n0 + ·)
      count := recCount e
      status := if recCount e = 0 then .ready else .waiting
      affinity := if bitsOf e 48 1 = 1 then some (n0 + recAff e) else none }
    if recKindOf e = 3 then { nd1 with copy := some (copyJob e), nblocks := 0, args := 0, wdlog := 0, policy := 2 } else nd1

/-- A fault of a graph as a whole, recorded at its level (R349, R350, R418). -/
def graphFault (s : State) (g : Nat) (r : Raise) : State :=
  match s.graphs[g]? with
  | none => s
  | some gr =>
    let s1 := endGraph s g 0x03
    let s2 := logFault s1 gr.ctx fun seq => plainRecord gr.ctx gr.qid gr.pidx r 4 2 (r.code != .aborted) seq
    { s2 with graphs := s2.graphs.modify g fun x =>
      { x with nfault := x.nfault + 1, first := firstOf x.first (plainFirst r 4) } }

/-- A graph of which no node is ready or running while some node has not completed (R350). -/
def graphStuck (s : State) (g : Nat) : Bool :=
  match s.graphs[g]? with
  | none => false
  | some gr =>
    let st (n : Nat) : NStatus := ((s.nodes[n]?).map (·.status)).getD .done
    !gr.ended && gr.nodes.any (fun n => st n != .done) && gr.nodes.all fun n => st n = .done || st n = .waiting

/-- A stuck graph aborts with cause dependence cycle (R350). -/
def breakCycle (s : State) (g : Nat) : State := if graphStuck s g then graphFault s g (raise .aborted none 2) else s

/-- The Pontoon takes a graph record (R349). -/
def takeGraph (s : State) (q : Queue) (p : Nat) : State :=
  let g := s.graphs.length
  let gr : Graph :=
    { ctx := q.ctx, qid := q.qid, pidx := q.next, policy := 2, nodes := [], retries := 0, ended := false, aborted := false,
      nfault := 0, summary := 0, first := none }
  let fail (t : State) : State :=
    let t1 := addFlight { t with graphs := t.graphs ++ [gr] } q (newFlight t q p (.graph g))
    graphFault t1 g (raise .illegal none 3)
  let head : HubRead := match q.part with
    | some g => .ok (leBytes 64 g.head)
    | none => hubRead s q.ctx q.fatal (pkB p 24 8) 64
  match head with
  | .bad => fail s
  | .wait c vp kd => stallQueue s q c vp kd
  | .ok bs =>
    let e := leNat bs
    let nn := bitsOf e 64 16
    let keep (t : State) (recs : List GRec) (cur : Option (Nat × List Byte)) : State :=
      modQueue t q.qid fun x => { x with part := some { head := e, recs := recs, cur := cur } }
    if bitsOf e 98 414 != 0 || bitsOf e 80 16 != 0 || nn = 0 || bitsOf e 0 64 % 64 != 0 || bitsOf e 56 8 != 0 then fail s
    else
      let got := (q.part.map (·.recs)).getD []
      match readRecs s q.ctx q.fatal nn (bitsOf e 0 64) (nn - got.length) got (q.part.bind (·.cur)) with
      | .bad => fail s
      | .wait c vp kd recs cur => keep (stallQueue s q c vp kd) recs cur
      | .ok rs =>
        if !countsAgree rs then fail s
        else if s.counters + nn > counterLimit then keep s rs none
        else
          let n0 := s.nodes.length
          let s1 := { s with
            nodes := s.nodes ++ graphNodes s q g n0 rs
            graphs := s.graphs ++ [{ gr with policy := BitVec.ofNat 2 (bitsOf e 96 2), nodes := (List.range nn).map (n0 + ·) }]
            counters := s.counters + nn }
          breakCycle (addFlight s1 q (newFlight s q p (.graph g))) g

/-- GRAPH_PACKET. -/
def execGraphPacket (qid : Nat) (s : State) : Out1 := startPacket s qid (· = 2) takeGraph

/-! ## Completion (R335) -/

/-- Whether an outstanding operation is an access of node n: one of its blocks, their engines, or its copy. -/
def fabOfNode (s : State) (n : Nat) (o : FabOp) : Bool :=
  match o.why with
  | .store p _ _ _ => ((s.blocks[partyBlock p]?).map (·.node)) = some n
  | .row b _ _ _ | .load b _ _ _ | .helmLoad b _ => ((s.blocks[b]?).map (·.node)) = some n
  | .copyNode m => m = n
  | _ => false

/-- Whether a node still runs or waits to run. -/
def nodeOpen (s : State) (n : Nat) : Bool :=
  match s.nodes[n]? with
  | none => false
  | some nd => nd.status = .ready || nd.status = .waiting

/-- Whether a node has completed, or ended and left nothing to be done: every block has ended, the cells that its end
closes are written back, and every write is performed or reported (R335, R414). -/
def nodeSettled (s : State) (n : Nat) : Bool :=
  match s.nodes[n]? with
  | none => true
  | some nd =>
    nd.status = .done ||
    ((nd.status = .ended || nd.status = .aborted) &&
     (s.blocks.all fun blk => blk.node != n || blk.status = .ended) &&
     !(s.cells.any fun c => c.nodes.contains n && !c.nodes.any (nodeOpen s)) &&
     !(s.reports.any (·.node = n)) && !(s.fabOps.any (fabOfNode s n)))

/-- A completed node's successors, each counted down once for each time it is listed; one that reaches 0 is ready (R350). -/
def countDown (s : State) (succ : List Nat) : State :=
  succ.foldl (fun t m => modNode t m fun x =>
    if x.status = .waiting then
      if x.count ≤ 1 then { x with count := 0, status := .ready, readyAt := s.tick } else { x with count := x.count - 1 }
    else x) s

/-- Whether node n has completed. -/
def nodeDone (s : State) (n : Nat) : Bool :=
  match s.nodes[n]? with
  | none => true
  | some nd => nd.status = .done

/-- Whether every node of a graph has completed. -/
def graphOver (s : State) (g : Nat) : Bool :=
  match s.graphs[g]? with
  | none => true
  | some gr => gr.nodes.all (nodeDone s)

/-- GRAPH_NODE_COMPLETE: a node of a graph completes and its successors are counted down (R350). -/
def execGraphNodeComplete (n : Nat) (s : State) : Out1 :=
  match s.nodes[n]? with
  | none => .fault .noParty
  | some nd =>
    match nd.graph with
    | none => .next s
    | some (g, _) =>
      if nd.status = .done || !nodeSettled s n then .next s
      else
        let stopped := ((s.graphs[g]?).map (·.aborted)).getD true
        let s1 := modNode s n fun x => { x with status := .done }
        let s2 := if stopped then s1 else countDown s1 nd.succ
        if graphOver s2 g then
          let k := ((s2.graphs[g]?).map (·.nodes.length)).getD 0
          .next { s2 with graphs := s2.graphs.modify g fun x => { x with ended := true }, counters := s2.counters - k }
        else .next (breakCycle s2 g)

/-- Whether a packet has completed or aborted with nothing of it left to be done (R335); one of a context that leaves RUN
waits for nothing (R444). -/
def flightReady (s : State) (qid : Nat) (f : Flight) : Bool :=
  f.abort = 0x07 ||
  match f.kind with
  | .node n => nodeSettled s n
  | .graph g => graphOver s g
  | .copy j => (f.abort != 0 || j.written) && !(s.fabOps.any fun o => o.why = .copyPacket qid f.idx)
  | _ => f.finished || f.abort != 0

/-! ## Records (R342, R343) -/

/-- What a record says of faults, flags and cycles. -/
structure Tally where
  nfault : Nat
  summary : BitVec 9
  first : Option FirstFault
  cycles : Nat

/-- The tally of a node. -/
def Node.tally (nd : Node) : Tally := { nfault := nd.nfault, summary := nd.summary, first := nd.first, cycles := nd.cycles }

/-- Two tallies merged (R342, R343, R350). -/
def Tally.merge (a b : Tally) : Tally :=
  { nfault := a.nfault + b.nfault, summary := a.summary ||| b.summary
    first := (match b.first with | none => a.first | some x => firstOf a.first x), cycles := a.cycles + b.cycles }

/-- The tally of a packet. -/
def flightTally (s : State) (f : Flight) : Tally :=
  let own : Tally := { nfault := f.nfault, summary := f.summary, first := f.first, cycles := f.cycles }
  match f.kind with
  | .node n => (match s.nodes[n]? with | none => own | some nd => Tally.merge own nd.tally)
  | .graph g =>
    (match s.graphs[g]? with
     | none => own
     | some gr =>
       gr.nodes.foldl (fun t n => match s.nodes[n]? with | none => t | some nd => Tally.merge t nd.tally)
         { nfault := gr.nfault, summary := gr.summary, first := gr.first, cycles := 0 })
  | _ => own

/-- The 64 bytes of a completion record (R342). -/
def recordBytes (s : State) (f : Flight) : List Byte :=
  let t := flightTally s f
  let quiet := f.abort = 0x02 || f.abort = 0x04
  let base := f.idx % 2 ^ 64 * 2 ^ 64 + f.abort.toNat * 2 ^ 8 + (if f.abort = 0 then 0 else 1)
  let more :=
    if quiet then 0
    else
      let ff := match t.first with
        | none => 0
        | some x => x.pc.toNat * 2 ^ 256 + x.block % 2 ^ 32 * 2 ^ 224 + x.level.toNat * 2 ^ 200 + x.code.toNat * 2 ^ 192
      ff + t.cycles % 2 ^ 64 * 2 ^ 128 + min t.nfault 0xFFFFFFFF * 2 ^ 32 + t.summary.toNat * 2 ^ 16
  leBytes 64 (base + more)

/-! ## Retirement (R336, R340, R341, R370, R374) -/

/-- The value that a packet gives its signal, from the value it read (R336, R340). -/
def signalNew (abort : BitVec 8) (old : Word64) : Word64 := if abort = 0 then old - 1 else -(abort.setWidth 64)

/-- READIDX passes every leading retired packet, which is then forgotten (R336). -/
def advanceRead : Nat → Queue → Queue
  | 0, q => q
  | n + 1, q =>
    match q.flights with
    | f :: r => if f.idx = q.readIdx && f.retired then advanceRead n { q with flights := r, readIdx := q.readIdx + 1 } else q
    | [] => q

/-- A packet is retired: holding begins where it aborts with HOLD, and READIDX advances (R336, R341). -/
def retireNow (s : State) (q : Queue) (f : Flight) : State :=
  let s1 := modFlight s q.qid f.idx fun x => { x with retired := true }
  let s2 := modQueue s1 q.qid fun x => advanceRead x.flights.length x
  let s3 := if f.hold && f.abort != 0 && !q.holding then setHolding s2 q true else s2
  match getQueue s3 q.qid with
  | none => s3
  | some x => settlePlaces (hubWrite s3 (x.desc + 16) (leBytes 8 x.readIdx))

/-- The retirement of a packet, as far as it comes (R336, R370, R374). -/
def retireSteps (qid idx : Nat) : Nat → State → State
  | 0, s => s
  | fuel + 1, s =>
    match findFlight s qid idx with
    | none => s
    | some (q, f) =>
      let set (t : State) (g : Flight → Flight) : State := modFlight t qid idx g
      let stageTo (t : State) (st : RStage) : State := retireSteps qid idx fuel (set t fun x => { x with stage := st })
      let fail (t : State) (st : RStage) : State :=
        retireSteps qid idx fuel (set t fun x => { x with stage := st, failed := true, fatal := none })
      let wait (t : State) (c va : Nat) (kd : Option (BitVec 4)) : State :=
        set (hubFault t c va kd (.flight qid idx)) fun x => { x with stalled := some (c, va) }
      match f.stage with
      | .record =>
        if f.creca = 0 then stageTo s .signal
        else
          match hubPlace s q.ctx .store f.fatal f.creca with
          | .bad => fail s .signal
          | .wait c va kd => wait s c va kd
          | .ok l =>
            if isFab l then
              if cpBusy s l 64 then s
              else set (sendFab s l (.write (recordBytes s f)) (.record qid idx)) fun x => { x with stage := .recordSent }
            else (match l with
              | .dev a => stageTo (hubWrite s a (recordBytes s f)) .signal
              | _ => fail s .signal)
      | .recordSent => s
      | .signal =>
        let f1 := if f.failed && f.abort = 0 then { f with abort := 0x08 } else f
        let s1 := set s fun x => { x with abort := f1.abort }
        if f.csiga = 0 then stageTo s1 .last
        else
          match hubPlace s1 q.ctx .atomic f.fatal f.csiga with
          | .bad => fail s1 .last
          | .wait c va kd => wait s1 c va kd
          | .ok l =>
            if isFab l then
              if cpBusy s1 l 8 then s1
              else set (sendFab s1 l (.atomic .add false .b64 0 0 true) (.signal qid idx)) fun x => { x with stage := .signalRead }
            else if poisonAt s1 l 8 then fail s1 .last
            else (match l with
              | .dev a =>
                let old : Word64 := BitVec.ofNat 64 (memNat s1.mem a 8)
                stageTo (if old.toInt < 0 then s1 else hubWrite s1 a (leBytes 8 (signalNew f1.abort old).toNat)) .last
              | _ => fail s1 .last)
      | .swap =>
        match hubPlace s q.ctx .atomic f.fatal f.csiga with
        | .bad => fail s .last
        | .wait c va kd => wait s c va kd
        | .ok l =>
          if isFab l then
            if cpBusy s l 8 then s
            else
              set (sendFab s l (.atomic .cas false .b64 f.sigv (signalNew f.abort f.sigv) true) (.signal qid idx)) fun x =>
                { x with stage := .signalSwap }
          else stageTo s .signal
      | .signalRead | .signalSwap => s
      | .last =>
        if !f.failed then retireNow s q f
        else if !f.again then
          retireSteps qid idx fuel (set s fun x =>
            { x with abort := if x.abort = 0 then 0x08 else x.abort, again := true, failed := false, stage := .record })
        else retireNow (logErr s (errEvent .cp (qid % 256) 8 idx 0xFF q.ctx.val qid)) q f

/-- A node whose packet completes has completed (R335). -/
def closeNode (s : State) (f : Flight) : State :=
  match f.kind with
  | .node n => modNode s n fun x => { x with status := .done }
  | _ => s

/-- PACKET_RETIRE: a packet that has completed or aborted retires; a SIGNAL whose operation could not be sent sends it (R336,
R369). -/
def execPacketRetire (qid n : Nat) (s : State) : Out1 :=
  match findFlight s qid n with
  | none => .fault .noParty
  | some (_, f) =>
    if f.retired || f.stalled.isSome then .next s
    else if !flightReady s qid f then .next (trySignal s qid n)
    else .next (retireSteps qid n 12 (closeNode s f))

/-- What a fabric answer to a record or a signal of a packet does: the retirement goes on (R370, R374). -/
def answerRetire (s : State) (qid idx : Nat) (v : Option Word64) (ok : Bool) : State :=
  match findFlight s qid idx with
  | none => s
  | some (_, f) =>
    let set (st : RStage) (bad : Bool) : State :=
      retireSteps qid idx 12 (modFlight s qid idx fun x => { x with stage := st, failed := x.failed || bad })
    match f.stage with
    | .recordSent => set .signal (!ok)
    | .signalRead =>
      if !ok then set .last true
      else
        let old := v.getD 0
        if old.toInt < 0 then set .last false
        else retireSteps qid idx 12 (modFlight s qid idx fun x => { x with stage := .swap, sigv := old })
    | .signalSwap => if !ok then set .last true else if v = some f.sigv then set .last false else set .signal false
    | _ => s

end Sys2Proof.Machine
end

