-- ==== Sys2Proof/Machine/Copy.lean ====
section
/-!
DEFINITION. Class 101: copy streams (R295, R300 to R311) and TGATH (R308).
-/
namespace Sys2Proof.Machine

open Sys2Proof

/-! ## Copy instructions (R302, R304 to R307) -/

/-- A copy instruction's operation is accepted and numbered; it reads its descriptor when it starts (R217, R293, R301). -/
def copyOp (s : State) (k : SCtx) (p : Fin 64) (c : CopyKind) : Except Raise State :=
  .ok (accept (goOn s k) k.b k.k
    (mkOp k.st.pc none none none [.plan c (k.st.params[p].toNat % 2 ^ 56) (passIndex k.st)]))

def execCpy (_c : Ctl) (p : Fin 64) (s : State) : Out1 := onStream s true true fun k => copyOp s k p .cpy

def execCpys (_c : Ctl) (p : Fin 64) (s : State) : Out1 := onStream s true true fun k => copyOp s k p .cpys

def execCgath (_c : Ctl) (p : Fin 64) (s : State) : Out1 := onStream s true true fun k => copyOp s k p .cgath

def execCscat (_c : Ctl) (p : Fin 64) (s : State) : Out1 := onStream s true true fun k => copyOp s k p .cscat

def execCred (_c : Ctl) (p : Fin 64) (s : State) : Out1 := onStream s true true fun k => copyOp s k p .cred

def execCfill (_c : Ctl) (p : Fin 64) (s : State) : Out1 := onStream s true true fun k => copyOp s k p .cfill

def execCslot (_c : Ctl) (m p : Fin 64) (s : State) : Out1 := onStream s true true fun k => copyOp s k p (.cslot m)

def execCrecode (_c : Ctl) (p : Fin 64) (t : Bool) (s : State) : Out1 :=
  onStream s true true fun k => copyOp s k p (.crecode t)

/-! ## TGATH (R308) -/

/-- The lanes' row addresses with their destinations, or the first lane that fails (R308). -/
def gatherRows (k : GCtx) (m : LaneMask) (a : Fin 128) (dest len : Nat) (fromReg : Bool) :
    Except Raise (List (Nat × Nat × Nat)) := do
  let lo ← readV k m (2 * a.val)
  let hi ← readV k m (2 * a.val + 1)
  forLanes (fun l =>
    let ea := (pairLane lo hi l).toNat
    if ea ≥ Config.vaLimit then .error (raise .protection (some l) 0 ea)
    else if ea % 4 != 0 || dest % 4 != 0 then .error (raise .misaligned (some l) 0 ea)
    else if fromReg && (len < 4 || len > 4096 || len % 4 != 0) then .error (raise .illegal (some l) 6)
    else .ok (l, ea, dest + l * len)) (lanesOf m)

/-- The copy engine accepts a TGATH in k1: it is numbered, and its number written (R217, R293, R308; log 44, DEDUCED). -/
def acceptGather (s : State) (k : GCtx) (d : Fin 128) (m : LaneMask) (rows : List (Nat × Nat × Nat)) (len : Nat) :
    Except Raise State := do
  let n := k.blk.ctxs[(1 : Fin 4)].issued + 1
  let k1 := { k with wp := modGangs k.wp k.g.gid fun g => { g with takes := [], reach := [], wait := .none } }
  let (wp, l) := writeRun k1 (2 * d.val) [.u (BitVec.ofNat 32 n), .u (BitVec.ofNat 32 (n / 2 ^ 32))] m
  let t := commit s k1 wp l
  let op : EngOp :=
    { mkOp k.g.pc (some k.w) none none [] with
      rows := rows.map fun r => { n := r.1, kind := .gather r.2.1 r.2.2 len, fabs := [], data := [] } }
  pure (accept t k.b 1 op)

def execTgath (c : Ctl) (d a b : Fin 128) (len : Src) (s : State) : Out1 :=
  onLanes s c fun k m => do
    let dest ← readPairUni k m b
    let n ← readUni k m len
    let fromReg := match len with | .int _ => false | _ => true
    let rows ← gatherRows k m a dest.toNat n.toNat fromReg
    let dst : Dst := .v (Fin.ofNat 256 (2 * d.val)) .w
    if engIdle k.blk.ctxs[(1 : Fin 4)] then do
      takeLines k (linesFor k.wp dst [] 2 false m) m
      acceptGather s k d m rows n.toNat
    else do
      let takes := linesFor k.wp dst [] 2 false m
      takeLines k takes m
      pure (modGangW s k.b k.w k.g.gid fun g =>
        { g with wait := .tgath d m rows dest.toNat n.toNat, takes := takes })

/-- TGATH_ACCEPT: the copy engine accepts a waiting TGATH, whatever operations of k1 it has accepted before; the gang has not
been at a blocking point (R293, R308). -/
def execTgathAccept (p : Party) (s : State) : Out1 :=
  match gangOf s p with
  | none => .fault .noParty
  | some k =>
    match k.g.wait with
    | .tgath d m rows _ len =>
      match acceptGather s k d m rows len with
      | .ok t => .next t
      | .error r => .next (takeFault s p r)
    | _ => .next s

/-! ## CSIG and CWAIT (R309, R310) -/

/-- The bytes of device or fabric memory that n bytes at a place stand for (R358). -/
def wordWork (l : Loc) (n : Nat) : Nat := if isSpanLoc l then 0 else n

def execCsig (_c : Ctl) (form : CSigForm) (s : State) : Out1 :=
  onStream s true true fun k =>
    if !engDrained k.e then .ok s
    else
      let op := mkOp k.st.pc none none none []
      match form with
      | .bar bar n =>
        match arrive k.blk (.stream k.k) bar.val n.toNat with
        | none => .ok (dropOp s k (raise .barrierOverflow none))
        | some blk =>
          .ok (accept (goOn (modBlock s k.b fun x => { x with bars := blk.bars, arrivals := blk.arrivals }) k) k.b k.k op)
      | .sig o _ addr val =>
        let ea : Nat := k.st.params[addr].toNat % 2 ^ 56
        match checkAcc s (some k.blk.core) k.blk.ctx .atom false .b64 ea with
        | .error x => .ok (stopOp s k (stopOf .engW x))
        | .ok ch =>
          if ch.held || ch.acc.mig then .ok (stopOp s k (.page k.blk.ctx.val (pageBase ea) none))
          else
            let n := k.e.issued + 1
            let tag := (opTag s k.b k.k op).at ea
            let (ao, v) := sigAtom o (pcVal k.st val)
            if poisonAt s ch.acc.loc 8 then
              .ok (dropOp (logPoison s ch.acc.loc k.blk.ctx.val) k (raise .storeImprecise none 0 ea))
            else
              let s1 := accept (addWork (goOn s k) k.b 0 (wordWork ch.acc.loc 16)) k.b k.k op
              if isFab ch.acc.loc then
                .ok (sendFab s1 ch.acc.loc (.atomic ao false .b64 v 0 false) (.row k.b k.k n 0) false ea (some tag))
              else .ok (rmw s1 tag ch.acc.loc ao false .b64 v 0).1

/-- A read of CWAIT at a place of the device: satisfied, not yet, or uncorrectable (R310). -/
def cwaitRead (s : State) (l : Loc) (cmp : WCmp) (v : Word64) : Option Bool :=
  if poisonAt s l 8 then none else some (wcmp cmp 64 (leNat (readLoc s l 8)) v.toNat)

def execCwait (_c : Ctl) (form : CWaitForm) (s : State) : Out1 :=
  onStream s true false fun k =>
    match form with
    | .bar bar =>
      match waitPhase k.blk (.stream k.k) bar.val with
      | none => .error (raise .barrierOverflow none)
      | some (ph, done) =>
        if done then .ok (goOn s k) else .ok (modStream s k.b k.k fun st => { st with wait := .bar bar.val ph })
    | .sig cmp _ addr val =>
      let ea : Nat := k.st.params[addr].toNat % 2 ^ 56
      let v := pcVal k.st val
      match checkAcc s (some k.blk.core) k.blk.ctx .watch false .b64 ea with
      | .error (.fault c a) => .error (raise c none 0 a)
      | .error (.absent ctx vp) => .ok (streamPage s k .engR ctx vp)
      | .ok ch =>
        let wait (t : State) : State := modStream t k.b k.k fun st => { st with wait := .sig ch.acc.loc cmp v }
        let t := addWork s k.b 0 (wordWork ch.acc.loc 8)
        if isFab ch.acc.loc then .ok (wait (sendFab t ch.acc.loc (.read 8) (.cwait k.b k.k) false ea))
        else
          match cwaitRead s ch.acc.loc cmp v with
          | none => .error (raise .uncorrectable none 0 ea)
          | some true => .ok (goOn t k)
          | some false => .ok (wait t)

/-- CWAIT_SATISFIED: the word satisfies the comparison, or the phase has completed (R310). -/
def execCwaitSatisfied (b : Nat) (k : Fin 4) (s : State) : Out1 :=
  match streamOf s (.stream b k) with
  | none => .fault .noParty
  | some x =>
    match x.st.wait with
    | .bar bar ph => .next (if phaseDone x.blk bar ph then goOn s x else s)
    | .sig l cmp v =>
      if isFab l then .next s
      else
        match cwaitRead s l cmp v with
        | none => .next (takeFault (modStream s b k fun st => { st with wait := .none }) (.stream b k) (raise .uncorrectable none))
        | some true => .next (goOn s x)
        | some false => .next s
    | _ => .next s

/-! ## CLOOP, CEND (R299, R311) -/

def execCloop (_c : Ctl) (n : PC) (len : BitVec 16) (s : State) : Out1 :=
  onStream s true false fun k =>
    (openLoop k.st (pcVal k.st n).toNat len.toNat .none).map fun st => modStream s k.b k.k fun _ => st

/-- A stream ends: every level closes and its grant is given up (R299, R311). -/
def endStream (st : Stream) : Stream := { st with running := false, loops := [], wait := .none, granted := none }

def execCend (_c : Ctl) (s : State) : Out1 :=
  onStream s true false fun k => .ok (modStream s k.b k.k endStream)

end Sys2Proof.Machine
end

