-- ==== Sys2Proof/Machine/Matrix.lean ====
section
/-!
DEFINITION. Class 110: the matrix stream (R296, R311 to R319) and the events of its waits (R280, R294, R317).
-/
namespace Sys2Proof.Machine

open Sys2Proof

/-! ## MCLAIM, MREL (R280, R312) -/

/-- The numbers of a range. -/
def rangeFrom (a n : Nat) : List Nat := (List.range n).map (a + ·)

/-- The core of a stream's block. -/
def coreOf (s : State) (k : SCtx) : Core := s.cores[k.blk.core]

/-- Whether every slot and tile of a claim is FREE (R280). -/
def claimFree (c : Core) (a m ns nt : Nat) : Bool :=
  (rangeFrom m ns).all (fun x => (c.slots[Fin.ofNat 64 x]).owner.isNone) &&
  (rangeFrom a nt).all (fun x => (c.tiles[Fin.ofNat 48 x]).owner.isNone)

/-- A claim taken in one step; the tiles become EMPTY (R280, R312). -/
def takeClaim (s : State) (b : Nat) (core : Fin 256) (a m ns nt : Nat) : State :=
  let s1 := modCore s core fun c =>
    { c with
      slots := (rangeFrom m ns).foldl (fun v x => v.set (Fin.ofNat 64 x) { Slot.free with owner := some b }) c.slots
      tiles := (rangeFrom a nt).foldl (fun v x => v.set (Fin.ofNat 48 x) { Tile.free with owner := some b }) c.tiles
      badTiles := c.badTiles.filter fun x => !(rangeFrom a nt).contains x }
  modBlock s1 b fun blk => { blk with claim := some { slots := rangeFrom m ns, tiles := rangeFrom a nt } }

def execMclaim (_c : Ctl) (a : Fin 48) (m : Fin 64) (ns nt : BitVec 16) (s : State) : Out1 :=
  onStream s false false fun k =>
    if k.blk.claim.isSome then .error (raise .slotState none)
    else if claimFree (coreOf s k) a.val m.val ns.toNat nt.toNat then
      .ok (goOn (takeClaim s k.b k.blk.core a.val m.val ns.toNat nt.toNat) k)
    else .ok (modStream s k.b k.k fun st => { st with wait := .claim a.val m.val ns.toNat nt.toNat })

/-- MCLAIM_TAKEN: every slot and tile that a waiting MCLAIM names is FREE, and the claim is taken (R280). -/
def execMclaimTaken (b : Nat) (s : State) : Out1 :=
  match streamOf s (.stream b 0) with
  | none => .fault .noParty
  | some k =>
    match k.st.wait with
    | .claim a m ns nt =>
      if k.blk.status = .resident && claimFree (coreOf s k) a m ns nt then .next (goOn (takeClaim s b k.blk.core a m ns nt) k) else .next s
    | _ => .next s

/-- A claim after some of its slots and tiles are released; it ends with its last (R280). -/
def claimAfter (cl : Claim) (ms as : List Nat) : Option Claim :=
  let c : Claim := { slots := cl.slots.filter fun x => !ms.contains x, tiles := cl.tiles.filter fun x => !as.contains x }
  if c.slots.isEmpty && c.tiles.isEmpty then none else some c

def execMrel (_c : Ctl) (a : Fin 48) (m : Fin 64) (ns nt : BitVec 16) (s : State) : Out1 :=
  onStream s false false fun k =>
    if !engDrained k.e then .ok s
    else
      let ms := rangeFrom m.val ns.toNat
      let as := rangeFrom a.val nt.toNat
      let c := coreOf s k
      if !(ms.all fun x => (c.slots[Fin.ofNat 64 x]).owner = some k.b) ||
         !(as.all fun x => (c.tiles[Fin.ofNat 48 x]).owner = some k.b) then .error (raise .slotState none)
      else
        let s1 := modCore s k.blk.core fun c =>
          { c with
            slots := ms.foldl (fun v x => v.set (Fin.ofNat 64 x) Slot.free) c.slots
            tiles := as.foldl (fun v x => v.set (Fin.ofNat 48 x) Tile.free) c.tiles }
        .ok (goOn (modBlock s1 k.b fun blk => { blk with claim := blk.claim.bind fun cl => claimAfter cl ms as }) k)

/-! ## Grants (R294, R319) -/

/-- Whether a profile grants a format bit. -/
def grants (g : BitVec 16) (bit : Nat) : Bool := g.getLsbD bit

/-- A request for a profile reaches the arbiter. -/
def askGrant (s : State) (b : Nat) : State :=
  { s with matrixReqs := if s.matrixReqs.contains b then s.matrixReqs else s.matrixReqs ++ [b] }

/-- A product of a format: it goes on under a grant that covers it; else the stream waits for the profile of its MCUR, or,
where that does not name the format, for the full profile (R294). -/
def withGrant (s : State) (k : SCtx) (bit : Nat) (go : Except Raise State) : Except Raise State :=
  let need : BitVec 16 := 0x1E0 ||| BitVec.ofNat 16 (2 ^ bit)
  match k.st.granted with
  | some g =>
    if grants g bit then go
    else .ok (askGrant (modStream s k.b k.k fun st => { st with wait := .grant need }) k.b)
  | none =>
    let req := if grants k.st.profile bit then k.st.profile else need
    .ok (askGrant (modStream s k.b k.k fun st => { st with wait := .grant req }) k.b)

def execMcur (_c : Ctl) (profile : BitVec 16) (s : State) : Out1 :=
  onStream s false false fun k =>
    .ok (askGrant (goOn (modStream s k.b k.k fun st => { st with profile := profile, granted := none }) k) k.b)

/-- The fraction of full rate that a profile asks for, in 1/16ths (R294, R319). -/
def profileRate (p : BitVec 16) : Nat := bitsOf p.toNat 5 4 + 1

/-- The profiles granted to the matrix streams of the blocks of each core, with the core; a frozen block has its grant until its
save (R390). -/
def grantedRates (s : State) : List (Fin 256 × Nat) :=
  s.blocks.filterMap fun blk =>
    if blk.status = .ended then none
    else (blk.ctxs[(0 : Fin 4)].stream.bind (·.granted)).map fun p => (blk.core, profileRate p)

/-- The matrix rate granted over all cores, in 1/16ths of a core's array: the streams of one core share its array (R294; log
12, DESIGN CHOICE). -/
def matrixRate (s : State) : Nat :=
  let gs := grantedRates s
  ((gs.map (·.1)).eraseDups).foldl (fun n c => n + min 16 ((gs.filter (·.1 = c)).foldl (fun m x => m + x.2) 0)) 0

/-- Whether the sum of the grants is within the budget with the matrix arrays at m of the rates granted to them, the vector
partitions at v and the HBM at h, in 1/255ths: the base current counts 16%, full matrix rate 52%, full vector rate 45% and full
HBM traffic 18% of 2,600 W (R5, R446). -/
def powerFits (s : State) (m v h : Nat) : Bool :=
  26 * (16 * 4096 * 255 + 52 * matrixRate s * m + 45 * 4096 * v + 18 * 4096 * h) ≤ s.pwrBudget.toNat * 4096 * 255

/-- The highest grant up to n that fits. -/
def topGrant (fits : Nat → Bool) : Nat → Nat
  | 0 => 0
  | n + 1 => if fits (n + 1) then n + 1 else topGrant fits n

/-- The lowest HBM grant: none goes below the traffic in flight (R446). -/
def leastHbm (s : State) : Nat := min s.hgrant.toNat (Config.inFlight s.tick).toNat

/-- The arbiter's grants beside the profiles granted: vector issue and HBM traffic at most v and h. Vector partitions are lowered
first, then HBM traffic as far as the traffic in flight, then the rate of the matrix arrays (R294, R446; log 12, DESIGN
CHOICE). -/
def divide (s : State) (v h : Nat) : State :=
  let least := leastHbm s
  let m1 := topGrant (fun x => powerFits s x 0 least) 255
  let h1 := topGrant (fun x => x ≤ least || powerFits s m1 0 x) (max h least)
  let v1 := topGrant (fun x => powerFits s m1 x h1) v
  { s with mgrant := BitVec.ofNat 8 m1, vgrant := BitVec.ofNat 8 v1, hgrant := BitVec.ofNat 8 h1 }

/-- The profile that a block's matrix stream has asked for is granted whole (R294). -/
def giveGrant (s : State) (b : Nat) : State :=
  let s1 := { s with matrixReqs := s.matrixReqs.filter (· != b) }
  modStream s1 b 0 fun st => match st.wait with
    | .grant r => { st with granted := some r, wait := .none }
    | _ => { st with granted := some st.profile }

/-- MATRIX_GRANT: the arbiter grants the request that arrived first where it fits the budget beside the other grants; else the
next epoch makes room for it (R5, R294, R446). -/
def execMatrixGrant (b : Nat) (s : State) : Out1 :=
  match streamOf s (.stream b 0) with
  | none => .fault .noParty
  | some _ =>
    if s.matrixReqs.head? != some b then .next s
    else
      let s1 := giveGrant s b
      .next (if powerFits s1 s.mgrant.toNat s.vgrant.toNat s.hgrant.toNat then s1 else s)

/-! ## Products (R313 to R315) -/

/-- An operation that acts on tiles and slots at once, once earlier operations have no rows left (R287). -/
def matrixOp (s : State) (k : SCtx) (check : Core → Option FCode) (act : Core → Core × Flags) : Except Raise State :=
  if !engIdle k.e then .ok s
  else
    match check (coreOf s k) with
    | some c => .error (raise c none)
    | none =>
      let (c, fl) := act (coreOf s k)
      .ok (accept (goOn (raiseFlags (modCore s k.blk.core fun _ => c) k.b fl) k) k.b k.k (mkOp k.st.pc none none none []))

/-- The format bit of a product in an MCUR profile (R319). -/
def kindBit (c : Core) (ma mb : Fin 64) : MmaKind → Nat
  | .fp8 => 0
  | .i8 => 1
  | .ti8 => if c.slots[ma].origin.den then 2 else 3
  | .i8t => if c.slots[mb].origin.den then 2 else 3
  | .bf16 => 4

def execMma (_c : Ctl) (d : Fin 48) (a b : Fin 64) (kind : MmaKind) (s : State) : Out1 :=
  onStream s false true fun k =>
    if !engIdle k.e then .ok s
    else
      match mmaCheck (coreOf s k) k.b d a b kind with
      | some c => .error (raise c none)
      | none =>
        withGrant s k (kindBit (coreOf s k) a b kind)
          (matrixOp (addWork s k.b (32768 * slotK (coreOf s k).slots[a].origin.fmt.toNat) 0) k
            (fun c => mmaCheck c k.b d a b kind) fun c => mmaCompute c d a b kind)

/-- The checks of MMAG that are precise at the sequencer (R281, R314). -/
def mmagCheck (c : Core) (b : Nat) (d : Fin 48) (x : Fin 64) : Option FCode :=
  let f := c.slots[x].origin.fmt
  if !holdsFilled c b x || !holdsTile c b d then some .slotState
  else if !(f = 3 || f = 4 || f = 5) || c.tiles[d].mode = .fix then some .slotState
  else if c.badSlots.contains x.val || c.badTiles.contains d.val then some .uncorrectable
  else none

/-- Whether an MMAG of a list would fill a slot that the block does not hold (R281, R314). -/
def pairMissing (c : Core) (b : Nat) (g : Fin 64) (ids : List (BitVec 16)) : Bool :=
  (ids.any (· != 0xFFFF)) && (c.slots[g].owner != some b || c.slots[(Fin.ofNat 64 (g.val + 1) : Fin 64)].owner != some b)

/-- Halfwords of a list, little-endian. -/
def halfwords (bs : List Byte) : List (BitVec 16) :=
  (List.range (bs.length / 2)).map fun j => BitVec.ofNat 16 (leNat ((bs.drop (2 * j)).take 2))

/-- MMAG (R314, R320, R323): the list is read once; an EMPTY tile becomes FP; the sequencer stands at it until its segments
have been added (R281, R287, R298; log 105, DEDUCED). -/
def execMmag (_c : Ctl) (d : Fin 48) (x g p : Fin 64) (s : State) : Out1 :=
  onStream s false true fun k =>
    if !engIdle k.e then .ok s
    else
      let table := k.st.params[p].toNat % 2 ^ 56
      let list := k.st.params[Fin.ofNat 64 (p.val + 1)].toNat % 2 ^ 56
      let c := coreOf s k
      match mmagCheck c k.b d x with
      | some c => .error (raise c none)
      | none =>
        if table % 64 != 0 || list % 256 != 0 then .error (raise .misaligned none)
        else
          withGrant s k (if c.slots[x].origin.fmt = 5 then 1 else 0) (
            let op := mkOp k.st.pc none none none []
            let ids := (list + 256 * k.st.rowb.toNat) % 2 ^ 56
            match engBytes s (opAgent s k.b k.k op k.blk) .engR ids 256 with
            | .error z => .ok (stopOp s k z)
            | .ok bytes =>
              if pairMissing c k.b g (halfwords bytes) then .error (raise .slotState none)
              else
              let s1 := if c.tiles[d].mode = .empty then
                  modCore s k.blk.core fun c => setTileMode (setTileRows c d 0 128 fun _ _ => 0) d .fp [] []
                else s
              .ok (accept (modStream (addWork s1 k.b 0 (if inSpan ids then 0 else 256)) k.b k.k fun st =>
                  { st with wait := .seg }) k.b k.k
                (mkOp k.st.pc none none none
                  [.seg d.val x.val g.val table (halfwords bytes) 0 k.st.colb k.st.kb])))

def execMzero (_c : Ctl) (d : Fin 48) (s : State) : Out1 :=
  onStream s false true fun k =>
    matrixOp s k (fun c => if holdsTile c k.b d then none else some .slotState)
      fun c => ({ setTileMode c d .empty [] [] with badTiles := c.badTiles.filter (· != d.val) }, 0)

/-- The checks of MACC (R281, R315). -/
def maccCheck (c : Core) (b : Nat) (d a : Fin 48) : Option FCode :=
  if !holdsTile c b d || !holdsTile c b a then some .slotState
  else if !maccOk c.tiles[d] c.tiles[a] then some .slotState
  else if c.badTiles.contains d.val || c.badTiles.contains a.val then some .uncorrectable
  else none

def execMacc (_c : Ctl) (d a : Fin 48) (s : State) : Out1 :=
  onStream s false true fun k => matrixOp s k (fun c => maccCheck c k.b d a) fun c => maccCompute c d a

/-! ## MSTORE (R316) -/

/-- Row addresses of an MSTORE. -/
def storeRows (d : CDesc) (i : Nat) : List Nat := planeRows (d.dst' i) 1 d.rows 0 d.ds

/-- FORMAT_MISMATCH and MISALIGNED are found before any row is stored, and so a row whose page is not present is waited for
first (R298, R316). -/
def storeCheck (s : State) (a : EAgent) (vas : List Nat) (n : Nat) (conv : MConv) : Option RowStop :=
  vas.findSome? fun va =>
    match storeRuns s a va n conv with
    | .error (.fault r) => if r.code = .formatMismatch || r.code = .misaligned then some (.fault r) else none
    | .error (.page ctx vp kd) => some (.page ctx vp kd)
    | _ => none

def execMstore (_c : Ctl) (a : Fin 48) (p : Fin 64) (conv : MConv) (s : State) : Out1 :=
  onStream s false true fun k =>
    if !engIdle k.e then .ok s
    else if !holdsTile (coreOf s k) k.b a then .error (raise .slotState none)
    else if (coreOf s k).badTiles.contains a.val then .error (raise .uncorrectable none)
    else
      let op := mkOp k.st.pc none none none []
      let ag := opAgent s k.b k.k op k.blk
      match readDesc s ag (k.st.params[p].toNat % 2 ^ 56) with
      | .error (.fault r) =>
        if r.code = .illegal || r.code = .misaligned then .error r else .ok (stopOp s k (.fault r))
      | .error z => .ok (stopOp s k z)
      | .ok d =>
        if d.rows = 0 || d.rows > 128 || d.rowlen = 0 || d.rowlen > 128 then .error (raise .illegal none 4)
        else
          let vas := storeRows d (passIndex k.st)
          match storeCheck s ag vas d.rowlen conv with
          | some (.fault r) => .error r
          | some z => .ok (stopOp s k z)
          | none =>
            .ok (accept (addWork (goOn s k) k.b 0 (descWork (k.st.params[p].toNat % 2 ^ 56))) k.b k.k
              (mkOp k.st.pc none d.ver none (vas.zipIdx.map fun x => RowKind.tile a.val x.2 x.1 d.rowlen conv)))

/-! ## MBARA, MBARW (R317) -/

def execMbara (_c : Ctl) (b : Fin 32) (n : BitVec 16) (s : State) : Out1 :=
  onStream s false false fun k =>
    if !engDrained k.e then .ok s
    else
      match arrive k.blk (.stream k.k) b.val n.toNat with
      | none => .error (raise .barrierOverflow none)
      | some blk => .ok (goOn (modBlock s k.b fun x => { x with bars := blk.bars, arrivals := blk.arrivals }) k)

def execMbarw (_c : Ctl) (b : Fin 32) (s : State) : Out1 :=
  onStream s false false fun k =>
    match waitPhase k.blk (.stream k.k) b.val with
    | none => .error (raise .barrierOverflow none)
    | some (ph, done) =>
      if done then .ok (goOn s k) else .ok (modStream s k.b k.k fun st => { st with wait := .bar b.val ph })

/-- MBARW_SATISFIED: the awaited phase has completed (R317). -/
def execMbarwSatisfied (b : Nat) (s : State) : Out1 :=
  match streamOf s (.stream b 0) with
  | none => .fault .noParty
  | some k =>
    match k.st.wait with
    | .bar bar ph => .next (if phaseDone k.blk bar ph then goOn s k else s)
    | _ => .next s

/-! ## MLOOP, MEND (R299, R311) -/

def execMloop (_c : Ctl) (n : PC) (len : BitVec 16) (ctr : MCtr) (s : State) : Out1 :=
  onStream s false false fun k =>
    (openLoop k.st (pcVal k.st n).toNat len.toNat ctr).map fun st => modStream s k.b k.k fun _ => st

def execMend (_c : Ctl) (s : State) : Out1 :=
  onStream s false false fun k =>
    .ok { modStream s k.b k.k endStream with matrixReqs := s.matrixReqs.filter (· != k.b) }

/-! ## MSAVE, MRESUME (R291, R318) -/

/-- The 64-byte image of a stream's loop state; level 0 is the outermost (R291, log 21, DEDUCED). -/
def loopImage (st : Stream) : List Byte :=
  let ls := st.loops.reverse
  let level (n : Nat) : List Word := match ls[n]? with
    | some l => [BitVec.ofNat 32 l.left, l.first]
    | none => [0, 0]
  let words : List Word :=
    [st.pc, BitVec.ofNat 32 (2 ^ 24 + ls.length)] ++ (List.range 4).flatMap level ++
    [st.colb ++ st.rowb, st.kb.setWidth 32, st.profile.setWidth 32, 0, 0, 0]
  words.flatMap fun w => leBytes 4 w.toNat

/-- The runs of an image: device memory or the span (R318; log 45, DEDUCED). -/
def imageRuns (s : State) (a : EAgent) (k : AKind) (va : Nat) : Except RowStop (List Run) := do
  let rs ← sideRuns s a k 1 va 64
  needPlain rs
  match rs.find? fun r => isFab r.loc with
  | some r => .error (.fault (raise .protection none 0 r.va))
  | none => pure rs

/-- MSAVE writes the state in which the stream goes on after it (R291, log 21, DEDUCED). -/
def execMsave (_c : Ctl) (p : Fin 64) (s : State) : Out1 :=
  onStream s false true fun k =>
    if !engDrained k.e then .ok s
    else
      let va := k.st.params[p].toNat % 2 ^ 56
      let op := mkOp k.st.pc none none none []
      let a := opAgent s k.b k.k op k.blk
      if va % 64 != 0 then .error (raise .misaligned none 0 va)
      else
        match imageRuns s a .engW va with
        | .error z => .ok (stopOp s k z)
        | .ok rs =>
          match needWritable s a none rs with
          | .error z => .ok (stopOp s k z)
          | .ok _ =>
            let img := loopImage (stepStream k.st)
            let s1 := rs.foldl (fun t r => writeLoc t (a.tag.at r.va) r.loc ((img.drop r.off).take r.n)) s
            .ok (accept (goOn s1 k) k.b k.k op)

/-- The level that an image names, from the MLOOP before its body, none where there is none (R291, log 21, DEDUCED). -/
def levelAt (s : State) (k : SCtx) (left : Nat) (first : Word) : Except RowStop (Option Loop) :=
  match fetchWord s k.blk.core k.blk.ctx k.blk.helmDir (first - 1) with
  | .error (.absent ctx va) => .error (.page ctx va (some AKind.fetch.num))
  | .error _ => .ok none
  | .ok w =>
    match decode w with
    | some (.mloop _ n len ctr) =>
      .ok (some { trip := (pcVal k.st n).toNat % 2 ^ 32, left := left, first := first, last := first - 1 + len.setWidth 32,
                  ctr := ctr })
    | _ => .ok none

/-- The levels of an image, innermost first; none where one of them is no MLOOP's. -/
def levelsOf (s : State) (k : SCtx) (ws : List Word) : Nat → Except RowStop (Option (List Loop))
  | 0 => .ok (some [])
  | n + 1 =>
    match levelAt s k (ws.getD (2 + 2 * n) 0).toNat (ws.getD (3 + 2 * n) 0), levelsOf s k ws n with
    | .error z, _ | _, .error z => .error z
    | .ok (some l), .ok (some r) => .ok (some (l :: r))
    | _, _ => .ok none

/-- Whether an image is usable: its revision, its depth, and its reserved bits (R291). -/
def imageOk (ws : List Word) : Bool :=
  let w (n : Nat) : Nat := (ws.getD n 0).toNat
  w 1 / 2 ^ 24 = 1 && w 1 / 8 % 2 ^ 21 = 0 && w 1 % 8 ≤ 4 && w 11 / 65536 = 0 && w 13 = 0 && w 14 = 0 && w 15 = 0

/-- MRESUME replaces the loop state and counters, requests the grant of PROFILE, and continues at the image's PC
(R318). -/
def execMresume (_c : Ctl) (p : Fin 64) (s : State) : Out1 :=
  onStream s false true fun k =>
    if !engIdle k.e then .ok s
    else
      let va := k.st.params[p].toNat % 2 ^ 56
      let op := mkOp k.st.pc none none none []
      let a := opAgent s k.b k.k op k.blk
      if va % 64 != 0 then .error (raise .misaligned none 0 va)
      else
        match imageRuns s a .engR va with
        | .error z => .ok (stopOp s k z)
        | .ok rs =>
          match rs.find? fun r => poisonAt s r.loc r.bytes with
          | some r => .ok (stopOp s k (.fault (raise .uncorrectable none 0 r.va)))
          | none =>
            let ws := wordsOf (rs.flatMap fun r => readLoc s r.loc r.bytes)
            if !imageOk ws then .error (raise .slotState none)
            else
              match levelsOf s k ws ((ws.getD 1 0).toNat % 8) with
              | .error z => .ok (stopOp s k z)
              | .ok none => .error (raise .slotState none)
              | .ok (some ls) =>
                let w10 := ws.getD 10 0
                let prof : BitVec 16 := (ws.getD 12 0).setWidth 16
                let s1 := modStream s k.b k.k fun st =>
                  { st with
                    pc := ws.getD 0 0, loops := ls, rowb := w10.setWidth 16, colb := w10.extractLsb' 16 16,
                    kb := (ws.getD 11 0).setWidth 16, profile := prof, granted := none, wait := .none }
                .ok (accept (askGrant s1 k.b) k.b k.k op)

end Sys2Proof.Machine
end

