-- ==== Sys2Proof/Machine/Sys.lean ====
section
/-!
DEFINITION. Class 111: control and status registers, the return from a trap, and continuations (R423 to R428, R398).
-/
namespace Sys2Proof.Machine

open Sys2Proof

/-- The value of a control and status register for the issuing gang (R424). -/
def csrValue (s : State) (k : GCtx) (sel : Fin 8) : Word :=
  match sel with
  | 0 => k.wp.tvec
  | 1 => k.g.epc
  | 2 => BitVec.ofNat 32 ((if k.g.inHandler then 2 ^ 31 else 0) + k.g.tlane.val * 2 ^ 16 + k.g.tcode.toNat)
  | 3 => k.wp.cont
  | 4 => BitVec.ofNat 32 (min k.g.wd.toNat 0xFFFFFFFF)
  | 5 => ((s.nodes[k.blk.node]?).map fun n => n.wdlog.setWidth 32).getD 0
  | 6 => k.blk.esum.setWidth 32
  | 7 => BitVec.ofNat 32 (k.blk.ctx.val + (if isDet s k.blk then 256 else 0))

def execCsrr (c : Ctl) (d : Dst) (sel : Fin 8) (s : State) : Out1 :=
  onLanes s c fun k m => putResult s k d (.u (csrValue s k sel)) m

/-- A control and status register written (R424, R425): each 1 bit clears its flag of esum; a read-only one is none. -/
def csrWrite (s : State) (k : GCtx) (sel : Fin 8) (x : Word) : Option State :=
  match sel with
  | 0 => some (modWarp s k.b k.w fun wp => { wp with tvec := x })
  | 1 => some (modGang s k.b k.w k.g.gid fun g => { g with epc := x })
  | 6 => some (modBlock s k.b fun blk => { blk with esum := blk.esum &&& ~~~(x.setWidth 9) })
  | _ => none

def execCsrw (c : Ctl) (sel : Fin 8) (a : Src) (s : State) : Out1 :=
  onLanes s c fun k m => do
    let x ← readUni k m a
    match csrWrite s k sel x with
    | some t => .ok (advance t k)
    | none => .error (raise .illegal (some (lowLane m)))

/-- TRAPRET goes on at epc + 1 (R426); its guard is pt (R423). -/
def execTrapret (_c : Ctl) (s : State) : Out1 :=
  onGang s fun k =>
    if k.g.inHandler then .ok (leaveTrap s k) else .error (raise .illegal (some (lowActive k.wp k.g)) 8)

def execCont (c : Ctl) (a : Src) (s : State) : Out1 :=
  onLanes s c fun k m => do
    let x ← readUni k m a
    pure (advance (modWarp s k.b k.w fun wp => { wp with cont := x }) k)

/-- A predicate restored in the lanes of a gang. -/
def backPred (full : Bool) (old saved : PReg) (m : LaneMask) : PReg :=
  let r := mergePred full old saved.val m
  { r with poison := r.poison ||| (saved.poison &&& m) }

/-- A gang back at the instruction that entered its continuation, with its latch and its lanes of the predicates (R398). -/
def leaveCont (s : State) (k : GCtx) (c : ContSave) (wait : GWait) : State :=
  let m := gangLanes k.g
  modWarp s k.b k.w fun wp =>
    settle (modGangs { wp with preds := Vector.ofFn fun i : Fin 7 => backPred (isFull wp m) wp.preds[i] c.preds[i] m } k.g.gid
      fun g => { g with latch := c.latch, lat := c.lat, pc := c.pc, wait := wait, contSave := none, replay := wait = .none })

/-- FRESUME restores the latch and p0 to p6 and re-issues the faulting instruction, which waits until STATUS is nonzero
(R398, R428); a STATUS that was acted on during the continuation counts at once. -/
def execFresume (_c : Ctl) (s : State) : Out1 :=
  onGang s fun k =>
    match k.g.contSave with
    | none => .error (raise .illegal (some (lowActive k.wp k.g)) 7)
    | some c =>
      if c.got = 0 then .ok (leaveCont s k c (.fresume c.va c.lane))
      else if c.got = 2 then
        .ok (takeFault (leaveCont s k c .none) s.cur (raise .pageNotPresent (some c.lane) 0 c.va))
      else .ok (leaveCont s k c .none)

end Sys2Proof.Machine
end

