-- ==== Sys2Proof/Machine/Warps.lean ====
section
/-!
DEFINITION. Events of the cores: results that arrive (R131, R135, R141, R176), exact-accumulation cells that close (R144,
R146), waits on memory (R148, R368), the watchdog (R421), imprecise faults (R414) and poison found in storage (R429, R430).
-/
namespace Sys2Proof.Machine

open Sys2Proof

/-! ## Results that arrive -/

/-- The warp that holds pending result id, with its block. -/
def findPend (s : State) (id : Nat) : Option (Nat × Nat × Pend) :=
  (s.blocks.zipIdx).findSome? fun x => (x.1.warps.zipIdx).findSome? fun y =>
    (y.1.pend.find? (·.id = id)).map fun p => (x.2, y.2, p)

/-- Whether fabric memory has answered every lane of a pending result (R369, R370). -/
def pendReady (p : Pend) : Bool :=
  p.accs.all fun a => !later a || laneBit p.failed a.lane ||
    (match p.kind with
     | .load _ _ => p.data.any (·.1 = a.lane)
     | .atomic olds => olds.any (·.1 = a.lane))

/-- Whether a pending result is a load. -/
def Pend.isLoad (p : Pend) : Bool :=
  match p.kind with
  | .load _ _ => true
  | .atomic _ => false

/-- LOAD_DATA_ARRIVES: the data of a warp's load arrive (R131, R134, R135). -/
def execLoadDataArrives (id : Nat) (s : State) : Out1 :=
  match findPend s id with
  | none => .fault .noParty
  | some (b, w, p) => .next (if p.isLoad && pendReady p then landPend s b w p else s)

/-- ATOM_RETURN: the old values of a returning atomic arrive (R141). -/
def execAtomReturn (id : Nat) (s : State) : Out1 :=
  match findPend s id with
  | none => .fault .noParty
  | some (b, w, p) => .next (if !p.isLoad && pendReady p then landPend s b w p else s)

/-! ## Cells (R144) -/

/-- Whether a node still runs. -/
def nodeRuns (s : State) (n : Nat) : Bool :=
  match s.nodes[n]? with
  | none => false
  | some nd => nd.status = .ready || nd.status = .waiting

/-- The node of a list that ended last; of several that ended in one step, the first of the list (R144; log 99, DESIGN
CHOICE). -/
def lastEnded (s : State) (ns : List Nat) : Nat :=
  let at_ (n : Nat) : Nat := ((s.nodes[n]?).map (·.endedAt)).getD 0
  match ns with
  | [] => 0
  | n :: r => r.foldl (fun a x => if at_ x > at_ a then x else a) n

/-- CELL_CLOSE: no node that contributed to the cell of a word still runs; it is written back for the node whose end closed
it, once the slice of its word is not being copied (R144, R146, R435). -/
def execCellClose (l : Loc) (s : State) : Out1 :=
  match s.cells.find? (·.loc = l) with
  | none => .next s
  | some c =>
    .next (if c.nodes.any (nodeRuns s) || locHeld s c.loc then s else closeCell (lastEnded s c.nodes) none s c)

/-! ## Waits on memory (R148, R368) -/

/-- WAITA_SATISFIED: the watched words are read again; WAITA completes once every lane is satisfied (R148). -/
def execWaitaSatisfied (p : Party) (s : State) : Out1 :=
  match gangOf s p with
  | none => .fault .noParty
  | some k =>
    match k.g.wait with
    | .waita d m ls cmp size uni =>
      let ls1 := ls.map (watchLane s cmp size)
      if watchDone ls1 then
        let k1 := { k with wp := settle (modGangs k.wp k.g.gid fun g => { g with wait := .none, wd := 0 }) }
        let s1 := modWarp s k.b k.w fun _ => k1.wp
        .next (finishWatch s1 k1 d k.g.reach m ls1 size uni)
      else .next (modGang s k.b k.w k.g.gid fun g => { g with wait := .waita d m ls1 cmp size uni })
    | _ => .next s

/-- FABRIC_POLL: a WAITA or CWAIT on fabric memory reads its words again (R368; log 28, DEDUCED). -/
def execFabricPoll (p : Party) (s : State) : Out1 :=
  match gangOf s p with
  | some k =>
    match k.g.wait with
    | .waita _ _ ls _ size _ => .next (sendWatch s p size ls)
    | _ => .next s
  | none =>
    match streamOf s p with
    | some k =>
      match k.st.wait with
      | .sig l _ _ =>
        if isFab l && !(s.fabOps.any fun o => o.why = .cwait k.b k.k) then .next (sendFab s l (.read 8) (.cwait k.b k.k))
        else .next s
      | _ => .next s
    | none => .fault .noParty

/-! ## Watchdog (R421) -/

/-- The watchdog limit of a block's node (R333, R421). -/
def wdLimit (s : State) (blk : Block) : Nat :=
  let w := ((s.nodes[blk.node]?).map (·.wdlog.toNat)).getD 0
  2 ^ (if w = 0 then 32 else w)

/-- WATCHDOG: a party whose count has reached the limit faults instead of issuing; a gang names its lowest active lane
(R421). -/
def execWatchdog (s : State) : Out1 :=
  match gangOf s s.cur with
  | some k =>
    if k.g.wd.toNat ≥ wdLimit s k.blk then .next (takeFault s s.cur (raise .watchdog (some (lowActive k.wp k.g)))) else .next s
  | none =>
    match helmOf s s.cur with
    | some h => if h.blk.helm.wd.toNat ≥ wdLimit s h.blk then .next (takeFault s s.cur (raise .watchdog none)) else .next s
    | none => .next s

/-! ## Imprecise faults (R414) -/

/-- The party to whose containment a report is offered: the issuer of the write, or of the FENCE.flush (R146, R414). -/
def reportTo (t : Report) : Party := t.flush.getD t.party

/-- The fault of a report, with the level at which it is offered (R414); one found for a warp's write has SOURCE 6, the home
(R416). gid is the gang at whose issue a running warp takes it (log 52, DEDUCED). -/
def imprecise (s : State) (t : Report) (gid : Option Nat) : FRec :=
  let f := faultOf s (reportTo t) (raise .storeImprecise none t.cause.toNat t.addr)
  let ended : Bool := match s.blocks[partyBlock (reportTo t)]? with
    | none => true
    | some blk => blk.status == .ended
  let g : FRec := { f with
    pc := t.pc, incarnation := if t.flush.isSome then f.incarnation else t.incarnation, node := t.node, slices := 0
    gid := gid, precise := false, stands := false, start := if ended then 3 else 1
    named := if t.flush.isSome then some (partyBlock t.party, match t.party with | .gang _ w _ => some w | _ => none) else none }
  match reportTo t with
  | .gang _ _ _ =>
    let h : FRec := { g with source := 6 }
    if gid.isSome then { h with start := 0 } else { h with retired := true }
  | _ => g

/-- Whether the warp that a report is offered to has not ended. -/
def reportWarp (s : State) (t : Report) : Bool :=
  match reportTo t with
  | .gang b w _ =>
    match (s.blocks[b]?).bind (·.warps[w]?) with
    | some wp => !warpEnded wp
    | none => false
  | _ => false

/-- Whether the issuing gang belongs to the warp that a report is offered to. -/
def reportHere (s : State) (t : Report) : Option Nat :=
  match reportTo t, s.cur with
  | .gang b w _, .gang x y g => if b = x && w = y then some g else none
  | _, _ => none

/-- STORE_IMPRECISE: report r is offered, to a warp that has not ended at its next issue, else where R414 gives. -/
def execStoreImprecise (r : Nat) (s : State) : Out1 :=
  match s.reports[r]? with
  | none => .fault .noParty
  | some t =>
    let s1 := { s with reports := s.reports.eraseIdx r }
    if reportWarp s t then
      match reportHere s t with
      | some g => .next (offer s1 (reportTo t) false (imprecise s t (some g)))
      | none => .next s
    else .next (offer s1 (reportTo t) false (imprecise s t none))

/-! ## Poison found (R429, R430, R449) -/

/-- A register after an error: the lanes found bad, or, for a U or A register, whose bits stand in the shape file, every
lane (R429). -/
def poisonReg (r : VReg) (m : LaneMask) : VReg :=
  { r with poison := r.poison ||| (if isG r.val then m else BitVec.allOnes 32) }

/-- The core and the context of a block. -/
def blockPlace (s : State) (b : Nat) : Nat × Nat :=
  match s.blocks[b]? with
  | none => (0, 0)
  | some blk => (blk.core.val, blk.ctx.val)

/-- The event of an error in a register of block b (R449). -/
def regEvent (s : State) (kind b : Nat) (u : EUnit) (lane : Nat) : ErrEvent :=
  errEvent u (blockPlace s b).1 kind 0 lane (blockPlace s b).2 0

/-- The unit and lane that the event of a poisoned register names (R449). -/
def regUnit (r : VReg) (m : LaneMask) : EUnit × Nat := if isG r.val then (.regs, lowLane m) else (.shapes, 0xFF)

/-- A granule of device memory marked poisoned, with the open cells on it (R146, R431). -/
def poisonGranule (s : State) (g : Nat) : State :=
  { s with
    badGranules := if s.badGranules.contains g then s.badGranules else g :: s.badGranules
    cells := s.cells.map fun c => match c.loc with
      | .dev a => if a / 32 = g then { c with poison := true } else c
      | _ => c }

/-- The ADDR of a slot's event: its place within the core's 1 MiB of slots (R449; log 110, DESIGN CHOICE). -/
def slotPlace (m : Fin 64) : Nat := 0x4000 * m.val

/-- The ADDR of a tile's event: its place within the core's tiles, after the slots (R449; log 110, DESIGN CHOICE). -/
def tilePlace (a : Fin 48) : Nat := 0x100000 + 0x10000 * a.val

/-- The event of an error in storage, of KIND 0 corrected or 1 uncorrectable; none where no such register exists (R429,
R449). -/
def storageEvent (s : State) (kind : Nat) (at_ : PoisonAt) : Option ErrEvent :=
  match at_ with
  | .v b w n m =>
    ((s.blocks[b]?).bind (·.warps[w]?)).map fun wp => regEvent s kind b (regUnit wp.regs[n] m).1 (regUnit wp.regs[n] m).2
  | .o b w _ m => ((s.blocks[b]?).bind (·.warps[w]?)).map fun _ => regEvent s kind b .regs (lowLane m)
  | .p b _ _ => some (regEvent s kind b .shapes 0xFF)
  | .x b _ _ => some (regEvent s kind b .shapes 0xFF)
  | .latch b _ _ m => some (regEvent s kind b .regs (lowLane m))
  | .s b _ => some (regEvent s kind b .helm 0xFF)
  | .spanWord off => some (errEvent .span (off / Config.spanSlice) kind 0 0xFF 0 0)
  | .slot c m => some (errEvent .slot c.val kind (slotPlace m) 0xFF 0 0)
  | .tile c a => some (errEvent .slot c.val kind (tilePlace a) 0xFF 0 0)
  | .granule pa => some (hbmEvent kind pa 0)

/-- An uncorrectable error sets poison (R429, R430, R431). -/
def setPoison (at_ : PoisonAt) (s : State) : State :=
  match at_ with
  | .v b w n m => modWarp s b w fun x => setReg x n (poisonReg x.regs[n] m)
  | .o b w n m => modWarp s b w fun x => setO x n { x.ofile[n] with poison := x.ofile[n].poison ||| m }
  | .p b w n =>
    modWarp s b w fun x => { x with preds := x.preds.set n { x.preds[n] with poison := BitVec.allOnes 32 } }
  | .x b w n => modWarp s b w fun x => { x with xd := x.xd.set n { x.xd[n] with poison := true } }
  | .latch b w g m =>
    modGang s b w g fun x => { x with latch := { x.latch with poison := x.latch.poison ||| m } }
  | .s b n => modHelm s b fun h => { h with poison := h.poison.set n true }
  | .spanWord off =>
    { s with badSpan := if s.badSpan.contains (off / 8) then s.badSpan else (off / 8) :: s.badSpan }
  | .slot c m => modCore s c fun k => { k with badSlots := m.val :: k.badSlots }
  | .tile c a => modCore s c fun k => { k with badTiles := a.val :: k.badTiles }
  | .granule pa => poisonGranule s (pa / 32)

/-- An error found in a granule of HBM counts against its channel, which firmware is to retire once its corrected errors exceed
the threshold, or at an uncorrectable one (R434). -/
def countChannel (s : State) (pa : Nat) (corrected : Bool) : State :=
  let st : Fin 8 := Fin.ofNat 8 (stackOf pa)
  let k := s.hbmStacks[st]
  let ch := Config.channelOf (pa / 32)
  let n := k.errors[ch] + (if corrected then 1 else 0)
  let due := if (!corrected || n > Config.channelThreshold) && !k.due.contains ch then k.due ++ [ch] else k.due
  { s with hbmStacks := s.hbmStacks.set st { k with errors := k.errors.set ch n, due := due } }

/-- An error of storage counted where it is one of HBM. -/
def countError (s : State) (corrected : Bool) : PoisonAt → State
  | .granule pa => countChannel s pa corrected
  | _ => s

/-- POISON_DETECTED: the error sets poison and is logged; it raises no fault (R429, R430; log 94, DESIGN CHOICE). -/
def execPoisonDetected (at_ : PoisonAt) (s : State) : Out1 :=
  match storageEvent s 1 at_ with
  | none => .fault .noParty
  | some e => .next (countError (setPoison at_ (logErr s e)) false at_)

/-- An error that the storage corrects changes no value: it is logged, and one of HBM counts against its channel (R429, R434). -/
def correctedError (at_ : PoisonAt) (s : State) : Out1 :=
  match storageEvent s 0 at_ with
  | none => .fault .noParty
  | some e => .next (countError (logErr s e) true at_)

/-- Whether a TLB entry holds an address of a context. -/
def tlbHolds (ctx va : Nat) (t : TlbEnt) : Bool := t.ctx = ctx && t.va ≤ va && va < t.va + t.len

/-- A parity error: the entry is discarded and read again from memory; it is logged as corrected (R429, R449; log 108,
DEDUCED). -/
def parityError (at_ : ParityAt) (s : State) : Out1 :=
  let drop (ctx va : Nat) (l : List TlbEnt) : List TlbEnt := l.filter fun t => !tlbHolds ctx va t
  .next (match at_ with
    | .coreTlb c ctx va =>
      modCore (logErr s (errEvent .cache c.val 0 0 0xFF ctx 0)) c fun k => { k with tlb := drop ctx va k.tlb }
    | .dieTlb d ctx va =>
      let s1 := logErr s (errEvent .cache d.val 0 0 0xFF ctx 0)
      { s1 with dieTlb := s1.dieTlb.set d (drop ctx va s1.dieTlb[d]) }
    | .buffer c => logErr s (errEvent .cache c.val 0 0 0xFF 0 0)
    | .cache pa => logErr s (errEvent .cache (stackOf pa) 0 (pa / 128 * 128) 0xFF 0 0)
    | .viaduct v => logErr s (errEvent .viaduct v.val 0 0 0xFF 0 0))

end Sys2Proof.Machine
end

