-- ==== Sys2Proof/Machine/Pontoon.lean ====
section
/-!
DEFINITION. The Pontoon (R189 to R194, R351 to R359): charges and the window, the choice of a block, its place and its
release, its end, and its eviction and restore (R388 to R396).
-/
namespace Sys2Proof.Machine

open Sys2Proof

/-! ## Time, charges and the window (R352) -/

/-- Whether a block stands on a core: it has not ended and no eviction has taken it away (R352). -/
def onCore (c : Fin 256) (blk : Block) : Bool := blk.core = c && blk.status != .ended && !blk.away

/-- The blocks on a core. -/
def blocksOn (s : State) (c : Fin 256) : List Block := s.blocks.filter (onCore c)

/-- A core-cycle in units of Block.charge: 1/n of it is whole for every n from 1 to 16 (R352, log 10, DESIGN CHOICE). -/
def chargeUnit : Nat := 720720

/-- The charge of a block for n cycles. -/
def chargeFor (s : State) (n : Nat) (blk : Block) : Block :=
  if onCore blk.core blk then { blk with charge := blk.charge + n * (chargeUnit / max (blocksOn s blk.core).length 1) }
  else blk

/-- n cycles of every core pass (R352, log 10, DESIGN CHOICE). -/
def passTime (s : State) (n : Nat) : State := { s with now := s.now + n, blocks := s.blocks.map (chargeFor s n) }

/-- The step of the window that a moment lies in: 2^20 core-cycles of 256 cores (R352). -/
def windowStep (now : Nat) : Nat := now / 4096

/-- A charge that lies in the window. -/
def inWindow (s : State) (c : Nat × Nat × Nat) : Bool := windowStep s.now < c.2.1 + 16

/-- The queue that a block belongs to. -/
def queueOfBlock (s : State) (blk : Block) : Nat := ((s.nodes[blk.node]?).map (·.qid)).getD 0

/-- A charge of c core-cycles of a block reaches the Pontoon: its queue's deficit, its level's window, and the cycles of
its packet (R342, R352, R353). -/
def takeCharge (s : State) (blk : Block) (c : Nat) : State :=
  match getQueue s (queueOfBlock s blk) with
  | none => s
  | some q =>
    let s1 := modQueue s q.qid fun x => { x with deficit := x.deficit - c }
    let s2 := { s1 with charges := (q.level.val, windowStep s.now, c) :: s1.charges.filter (inWindow s) }
    modNode s2 blk.node fun n => { n with cycles := n.cycles + c }

/-- INTERIM_CHARGE: a block has accumulated 2^20 core-cycles (R352; log 30, DEDUCED). -/
def execInterimCharge (b : Nat) (s : State) : Out1 :=
  match s.blocks[b]? with
  | none => .fault .noParty
  | some blk =>
    if blk.charge < 2 ^ 20 * chargeUnit then .next s
    else .next (takeCharge (modBlock s b fun x => { x with charge := x.charge - 2 ^ 20 * chargeUnit }) blk (2 ^ 20))

/-- Charges of a level within the window. -/
def chargedTo (s : State) (lv : Fin 24) : Nat :=
  ((s.charges.filter fun c => c.1 = lv.val && inWindow s c).map (·.2.2)).foldl (· + ·) 0

/-- Whether a level is under floor (R352). -/
def underFloor (s : State) (lv : Fin 24) : Bool := chargedTo s lv < s.levels[lv].floor.toNat * 65536

/-! ## What a block needs, and where it fits (R190, R191, R244) -/

/-- What a block needs of a core: its warps by logical index with their lines, span bytes, barriers. -/
structure Need where
  warps : List (Nat × Nat)
  span : Nat
  bars : Nat

/-- The warps of a descriptor in index order, each with its role's number (R189). -/
def roleWarps (kd : KDesc) : List (Nat × Role) :=
  kd.roles.zipIdx.flatMap fun r => List.replicate r.1.warps (r.2, r.1)

/-- What a block of a descriptor needs. -/
def KDesc.need (kd : KDesc) : Need :=
  { warps := (roleWarps kd).zipIdx.map fun x => (x.2, x.1.2.gmax), span := kd.span, bars := kd.barriers }

/-- The warps of blocks that stand in partition p: each holds its positions and lines until it ends (R190, R192). -/
def warpsAt (bs : List Block) (p : Nat) : List Warp :=
  bs.flatMap fun blk =>
    (blk.warps.zipIdx.filter fun x => !warpEnded x.1 && (blk.helmPos.val + x.2) % 16 = p).map (·.1)

/-- Lines reserved in partition p. -/
def linesAt (bs : List Block) (p : Nat) : Nat := ((warpsAt bs p).map (·.gmax)).foldl (· + ·) 0

/-- The needed warps that position h places in partition p. -/
def needAt (n : Need) (h p : Nat) : List (Nat × Nat) := n.warps.filter fun w => (h + w.1) % 16 = p

/-- Whether a block fits a core at helm position h (R191). -/
def fitsAt (bs : List Block) (n : Need) (h : Nat) : Bool :=
  !(bs.any fun blk => blk.helmPos.val = h) &&
  (List.range 16).all fun p =>
    let new := needAt n h p
    (warpsAt bs p).length + new.length ≤ 8 && linesAt bs p + (new.map (·.2)).foldl (· + ·) 0 ≤ 512

/-- Whether n bytes at an offset of the window meet no range in use. -/
def spanFree (s : State) (o n : Nat) : Bool := s.spanRanges.all fun r => o + n ≤ r.off || r.off + r.len ≤ o

/-- The first place of n bytes in a core's slice (R244; log 55, DESIGN CHOICE). -/
def spanPlace (s : State) (c : Fin 256) (n : Nat) : Option Nat :=
  let lo := c.val * Config.spanSlice
  if n = 0 then some lo
  else
    let ends := (s.spanRanges.map fun r => r.off + r.len).filter fun o => lo ≤ o
    let good := (lo :: ends).filter fun o => o + n ≤ lo + Config.spanSlice && spanFree s o n
    good.foldl (fun a o => match a with | none => some o | some x => some (min x o)) none

/-- The lowest free helm position of a core at which a block fits (R191, R357). -/
def helmFit (s : State) (c : Fin 256) (n : Need) : Option Nat :=
  let bs := blocksOn s c
  if (bs.map (·.bars.length)).foldl (· + ·) 0 + n.bars > 512 || (spanPlace s c n.span).isNone then none
  else (List.range 16).find? (fitsAt bs n)

/-- Blocks that are released in one step: a node, and each block's index, incarnation and retries. -/
structure Batch where
  node : Nat
  blocks : List (Nat × Nat × Nat)

/-- The blocks that a queue keeps selected, where they are still to be released (R359). -/
def keptBatch (s : State) (q : Queue) : Option Batch :=
  match q.selected.bind fun n => (s.nodes[n]?).map fun nd => (n, nd) with
  | none => none
  | some (n, nd) =>
    if nd.status = .ready && !q.pick.isEmpty && q.pick.all fun r => nd.redo.contains r || nd.next ≤ r.1 then
      some { node := n, blocks := q.pick }
    else none

/-- Whether a queue has a core reserved for the blocks it keeps selected (R359). -/
def coreKept (s : State) (c : Fin 256) (q : Queue) : Bool := q.reserved.contains c && (keptBatch s q).isSome

/-- Whether a core takes new blocks of a queue: no spare is taking it over, and no other queue has it reserved (R359, R435). -/
def coreOpen (s : State) (qid : Nat) (c : Fin 256) : Bool :=
  s.cores[c].takeover.isNone && !(s.queues.any fun q => q.qid != qid && coreKept s c q)

/-! ## Preferences (R357, R358) -/

/-- The class of a node (R358). -/
def nodeClass (nd : Node) : NClass :=
  let f : Nat := (nd.samples.map (·.1)).foldl (· + ·) 0
  let b : Nat := (nd.samples.map (·.2)).foldl (· + ·) 0
  if nd.samples.isEmpty then .unknown
  else if f ≥ 64 * b then .compute
  else if f ≥ 8 * b then .balanced
  else .memory

/-- Whether two classes complement each other: compute-bound beside memory-bound, and balanced beside either; an unknown one is
placed as balanced (R357, R358). -/
def complements : NClass → NClass → Bool
  | .compute, .compute | .memory, .memory => false
  | .compute, _ | .memory, _ | _, .compute | _, .memory => true
  | _, _ => false

/-- How a core stands in the order of R357. -/
structure Pref where
  aff : Nat
  cls : Bool
  lines : Nat
  core : Nat

/-- The preference for a core of block idx of a node. -/
def prefOf (s : State) (nd : Node) (idx : Nat) (c : Fin 256) : Pref :=
  let ran := nd.affinity.bind fun m => (s.nodes[m]?).bind fun x => (x.placed.find? (·.1 = idx)).map (·.2)
  let bs := blocksOn s c
  let used := (List.range 16).foldl (fun a p => max a (linesAt bs p)) 0
  { aff := match ran with
      | none => 0
      | some k => if k = c.val then 2 else if k / 64 = c.val / 64 then 1 else 0
    cls := !bs.isEmpty && bs.all fun blk => match s.nodes[blk.node]? with
      | none => false
      | some x => complements (nodeClass nd) (nodeClass x)
    lines := 512 - used, core := c.val }

/-- Whether the first of two cores is preferred (R357). -/
def prefBefore (a b : Pref) : Bool :=
  a.aff > b.aff || (a.aff = b.aff && ((a.cls && !b.cls) || (a.cls = b.cls &&
    (a.lines > b.lines || (a.lines = b.lines && a.core < b.core)))))

/-- The preferred core of some. -/
def bestCore (s : State) (nd : Node) (idx : Nat) (cs : List (Fin 256)) : Option (Fin 256) :=
  (cs.foldl (fun (a : Option (Fin 256 × Pref)) c =>
    let p := prefOf s nd idx c
    match a with
    | none => some (c, p)
    | some x => if prefBefore p x.2 then some (c, p) else some x) none).map (·.1)

/-- One core for each of some blocks, distinct. -/
def spreadCores (s : State) (nd : Node) : List Nat → List (Fin 256) → Option (List (Fin 256))
  | [], _ => some []
  | i :: r, cs =>
    match bestCore s nd i cs with
    | none => none
    | some c => (spreadCores s nd r (cs.filter (· != c))).map (c :: ·)

/-- Cores for blocks that are released together: one core, or distinct cores of the die that is best for the lowest
block (R194, R357). -/
def chooseCores (s : State) (nd : Node) (idxs : List Nat) (cs : List (Fin 256)) : Option (List (Fin 256)) :=
  let enough := cs.filter fun c => (cs.filter fun x => dieOf x = dieOf c).length ≥ idxs.length
  match bestCore s nd (idxs.headD 0) enough with
  | none => none
  | some c => spreadCores s nd idxs (enough.filter fun x => dieOf x = dieOf c)

/-! ## Which block comes next (R353, R354) -/

/-- Whether every earlier incarnation of a block has ended. -/
def incarnationOver (s : State) (n idx : Nat) : Bool :=
  s.blocks.all fun blk => blk.node != n || blk.idx != idx || blk.status = .ended

/-- The incarnation of a block that is released for the first time since its node's launch. -/
def nextIncarnation (s : State) (n idx : Nat) : Nat :=
  (s.blocks.filter fun blk => blk.node = n && blk.idx = idx).foldl (fun a blk => max a (blk.incarnation + 1)) 0

/-- The next blocks of a node: those released again first, then the next of the node (R354, R419). -/
def nextOfNode (s : State) (n : Nat) (nd : Node) : Option Batch :=
  let cl := max nd.kd.cluster 1
  let again := nd.redo.filter fun r => nd.redo.all fun x => x.1 / cl != r.1 / cl || incarnationOver s n x.1
  match again.foldl (fun (a : Option Nat) r => match a with | none => some r.1 | some x => some (min x r.1)) none with
  | some i => some { node := n, blocks := nd.redo.filter fun r => r.1 / cl = i / cl }
  | none =>
    if nd.next < nd.nblocks && s.blocks.all fun blk => blk.node != n || blk.idx < nd.next || blk.status = .ended then
      some { node := n, blocks := (List.range cl).map fun i => (nd.next + i, nextIncarnation s n (nd.next + i), 0) }
    else none

/-- Whether a node is served before another of its queue (R354). -/
def nodeBefore (a b : Node × Nat) : Bool :=
  a.1.pidx < b.1.pidx || (a.1.pidx = b.1.pidx && (a.1.readyAt < b.1.readyAt || (a.1.readyAt = b.1.readyAt && a.2 < b.2)))

/-- The next blocks of a queue. -/
def nextBatch (s : State) (qid : Nat) : Option Batch :=
  let ns := s.nodes.zipIdx.filter fun x =>
    x.1.qid = qid && x.1.status = .ready && x.1.copy.isNone && (nextOfNode s x.2 x.1).isSome
  match ns.foldl (fun (a : Option (Node × Nat)) x => match a with
    | none => some x
    | some y => if nodeBefore x y then some x else some y) none with
  | none => none
  | some (nd, n) => nextOfNode s n nd

/-- An evicted block of a queue that is ready for restore (R394). -/
def readyEvicted (s : State) (qid : Nat) : Option Nat :=
  (s.blocks.zipIdx.find? fun x => x.1.status = .evicted true && queueOfBlock s x.1 = qid).map (·.2)

/-- Resident blocks of a queue. -/
def residentBlocks (s : State) (qid : Nat) : Nat :=
  (s.blocks.filter fun blk => onCore blk.core blk && queueOfBlock s blk = qid).length

/-- Whether a queue is backlogged (R353; log 62, DEDUCED). -/
def backlogged (s : State) (q : Queue) : Bool :=
  q.resident && residentBlocks s q.qid < s.levels[q.level].cap.toNat &&
  ((readyEvicted s q.qid).isSome || (nextBatch s q.qid).isSome)

/-- Queues that are not backlogged keep no credit and have no turn (R353). -/
def settleTurns (s : State) : State :=
  { s with queues := s.queues.map fun q => if backlogged s q then q else { q with deficit := min q.deficit 0, turn := false } }

/-- The level that is served (R353). -/
def servedLevel (s : State) : Option (Fin 24) :=
  let ls := (s.queues.filter (backlogged s)).map (·.level)
  let low := ls.filter (underFloor s)
  (if low.isEmpty then ls else low).foldl (fun a l => match a with | none => some l | some x => some (if x < l then l else x)) none

/-- The next queue id after the last one served, cyclically; the least where none has been served. -/
def nextInTurn (ids : List Nat) (last : Option Nat) : Option Nat :=
  let least (xs : List Nat) : Option Nat := xs.foldl (fun a x => match a with | none => some x | some y => some (min x y)) none
  match least (ids.filter fun x => match last with | none => true | some y => y < x) with
  | some x => some x
  | none => least ids

/-- A turn passes to a queue: it gets its quantum (R353). -/
def giveTurn (s : State) (lv : Fin 24) (qid : Nat) : State :=
  let s1 := { s with
    queues := s.queues.map fun (q : Queue) =>
      if q.level != lv then q
      else if q.qid = qid then
        { q with turn := true, deficit := q.deficit + q.quantum }
      else { q with turn := false } }
  { s1 with lastTurn := (lv.val, qid) :: s1.lastTurn.filter (·.1 != lv.val) }

/-- One turn of the deficit round-robin: the queue that may release now, if any (R353). -/
def serve (s0 : State) : State × Option Nat :=
  let s := settleTurns s0
  match servedLevel s with
  | none => (s, none)
  | some lv =>
    let qs := s.queues.filter fun q => q.level = lv && backlogged s q
    match qs.find? fun q => q.turn && q.deficit > 0 with
    | some q => (s, some q.qid)
    | none =>
      match nextInTurn (qs.map (·.qid)) ((s.lastTurn.find? (·.1 = lv.val)).map (·.2)) with
      | none => (s, none)
      | some qid =>
        let s1 := giveTurn s lv qid
        match getQueue s1 qid with
        | none => (s1, none)
        | some q => if q.deficit > 0 then (s1, some qid) else (s1, none)

/-! ## Release (R57, R58, R189, R191, R244) -/

/-- A gang at warp start (R57). -/
def firstGang (pc : Word) (slices : SliceMask) : Gang :=
  { gid := 0, slices := slices, pc := pc, latch := VReg.zero, slot := 1, wait := .none, epc := 0, inHandler := false,
    tlane := 0, tcode := 0, wd := 0, last := 0, lat := [], takes := [], contSave := none, replay := false, recomp := none }

/-- A warp at its start (R57, R189, R424). A version that an XFER packet has requested is requested of it (R344). -/
def launchWarp (nd : Node) (j : Nat) (r : Role) : Warp :=
  let u (x : Word) : VReg := { val := .u x, poison := 0 }
  { role := Fin.ofNat 4 j, width := r.nslice, gmax := r.gmax
    regs := ((Vector.replicate 256 VReg.zero).set 0 (u (nd.args.extractLsb' 0 32))).set 1 (u (nd.args.extractLsb' 32 32))
    ofile := Vector.replicate 8 VReg.zero
    preds := Vector.replicate 7 PReg.zero
    xd := Vector.replicate 8 { limit := 0, vidx := 0, base := 0, poison := false }
    slices := Vector.ofFn fun k : Fin 8 =>
      { live := k.val < r.nslice.val, active := if k.val < r.nslice.val then 0xF else 0, stack := [] }
    gangs := [firstGang r.entry (BitVec.ofNat 8 (2 ^ r.nslice.val - 1))]
    nextGid := 1, tvec := 0xFFFFFFFF, cont := 0xFFFFFFFF, version := nd.kd.version, dirIdx := nd.dirIdx
    xferReq := match nd.xfer with
      | some v => if v = nd.kd.version then none else some v
      | none => none
    xferNext := none, safeN := none, drainAt := none, dqPos := 0, pend := [], handover := false }

/-- A helm at its start (R58). -/
def launchHelm (nd : Node) : Helm :=
  { s := (Vector.replicate 64 (0 : Word64)).set 0 nd.args, q := Vector.replicate 8 false, poison := Vector.replicate 64 false,
    pc := nd.kd.helmpc, stack := [], wd := 0, wait := .none, ended := false, pend := [], replay := false }

/-- An engine context at its start (R214). -/
def EngCtx.fresh : EngCtx :=
  { issued := 0, done := 0, faulted := false, abandoned := none, forked := false, stream := none, ops := [] }

/-- A block at its start on a core. -/
def launchBlock (n : Nat) (nd : Node) (b : Nat × Nat × Nat) (c : Fin 256) (h off : Nat) : Block :=
  { node := n, idx := b.1, incarnation := b.2.1, ctx := nd.ctx, core := c, helmPos := Fin.ofNat 16 h, spanOff := off,
    spanLen := nd.kd.span, status := .resident, helm := launchHelm nd, helmDir := nd.dirIdx,
    warps := (roleWarps nd.kd).map fun r => launchWarp nd r.1 r.2, dq := [], dqNext := 0,
    ctxs := Vector.replicate 4 EngCtx.fresh, bars := List.replicate nd.kd.barriers { phase := 0, count := 0, arrived := 0 },
    arrivals := [], claim := none, esum := 0, buffer := [], token := 0, charge := 0, flops := 0, bytes := 0,
    retries := b.2.2, warpRetries := [], image := none }

/-- One block released on a core: everything is reserved at once (R191), and its span range is zero (R244). -/
def releaseOne (n : Nat) (nd : Node) (s : State) (x : (Nat × Nat × Nat) × Fin 256) : State :=
  match helmFit s x.2 nd.kd.need, spanPlace s x.2 nd.kd.span with
  | some h, some off =>
    let s1 := { s with blocks := s.blocks ++ [launchBlock n nd x.1 x.2 h off] }
    let s2 := if nd.kd.span = 0 then s1 else
      { s1 with spanRanges := s1.spanRanges ++ [{ off := off, len := nd.kd.span, ctx := nd.ctx, clearing := false }] }
    modNode s2 n fun y => { y with placed := (x.1.1, x.2.val) :: y.placed.filter (·.1 != x.1.1) }
  | _, _ => s

/-- Every block of a batch released, one on each core. -/
def releaseBatch (s : State) (b : Batch) (nd : Node) (cs : List (Fin 256)) : State :=
  let s1 := (b.blocks.zip cs).foldl (releaseOne b.node nd) s
  let idxs := b.blocks.map (·.1)
  let s2 := modNode s1 b.node fun x =>
    if idxs.any fun i => x.redo.any (·.1 = i) then { x with redo := x.redo.filter fun r => !idxs.contains r.1 }
    else { x with next := x.next + idxs.length }
  modQueue s2 nd.qid fun q => { q with selected := none, pick := [], reserved := [] }

/-- The blocks that a queue releases next: those it keeps selected, else those that come next (R354, R359). -/
def selectedBatch (s : State) (q : Queue) : Option Batch :=
  match keptBatch s q with
  | some b => some b
  | none => nextBatch s q.qid

/-- The selected block fits no core: it stays selected and the turn passes (R359). -/
def keepSelected (s : State) (q : Queue) (b : Batch) : State :=
  let kept := (keptBatch s q).isSome
  modQueue s q.qid fun x =>
    { x with turn := false, selectedAt := if kept then x.selectedAt else s.now, selected := some b.node, pick := b.blocks,
             reserved := if kept then x.reserved else [] }

/-- The cores on which a block of a node may be released for a queue. -/
def coresFor (s : State) (qid : Nat) (nd : Node) : List (Fin 256) :=
  (List.finRange 256).filter fun c => coreOpen s qid c && (helmFit s c nd.kd.need).isSome

/-- BLOCK_RELEASE: the Pontoon selects a queue's next block and releases it on a core that satisfies R191 (R353 to
R359). -/
def execBlockRelease (s : State) : Out1 :=
  match serve s with
  | (s1, none) => .next s1
  | (s1, some qid) =>
    if (readyEvicted s1 qid).isSome then .next s1
    else
      match getQueue s1 qid with
      | none => .next s1
      | some q =>
        match selectedBatch s1 q with
        | none => .next s1
        | some b =>
          match s1.nodes[b.node]? with
          | none => .next s1
          | some nd =>
            match chooseCores s1 nd (b.blocks.map (·.1)) (coresFor s1 qid nd) with
            | some xs => .next (releaseBatch s1 b nd xs)
            | none => .next (keepSelected s1 q b)

/-- Whether a queue's selected block has waited 2^22 core-cycles of the window (R359, R388). -/
def waitedLong (s : State) (q : Queue) : Bool := (keptBatch s q).isSome && 256 * (s.now - q.selectedAt) ≥ 2 ^ 22

/-- SELECTED_BLOCK_TIMEOUT: a selected block has waited 2^22 core-cycles of the window; cores are kept for it (R359). -/
def execSelectedBlockTimeout (qid : Nat) (s : State) : Out1 :=
  match getQueue s qid with
  | none => .fault .noParty
  | some q =>
    if !waitedLong s q || !q.reserved.isEmpty then .next s
    else
      match selectedBatch s q with
      | none => .next s
      | some b =>
        match s.nodes[b.node]? with
        | none => .next s
        | some nd =>
          match chooseCores s nd (b.blocks.map (·.1)) ((List.finRange 256).filter (coreOpen s qid)) with
          | some cs => .next (modQueue s qid fun x => { x with reserved := cs })
          | none => .next s

/-! ## The end of a block (R192) -/

/-- Whether an operation writes a range of addresses; one that has not started counts as its descriptor stands, and counts as
long as that waits for a page. -/
def opTargets (s : State) (b : Nat) (k : Fin 4) (blk : Block) (o : EngOp) (r : Nat × Nat) : Bool :=
  if o.started then o.dsts.any (rangesMeet r)
  else
    match starting s (opAgent s b k o blk) o with
    | .ok (o1, _) => o1.dsts.any (rangesMeet r)
    | .error (.fault _) => false
    | .error _ => true

/-- Whether an operation that targets a block's span has not completed (R192, R246). -/
def spanTargeted (s : State) (blk : Block) : Bool :=
  blk.spanLen != 0 && s.blocks.zipIdx.any fun x => x.1.ctx = blk.ctx && (List.finRange 4).any fun k =>
    x.1.ctxs[k].ops.any fun o => opTargets s x.2 k x.1 o (Config.spanBase + blk.spanOff, blk.spanLen)

/-- Whether a block may end (R192). -/
def mayEnd (s : State) (blk : Block) : Bool :=
  (blk.status = .resident || blk.status = .ending) && blk.helm.ended && blk.warps.all warpEnded &&
  ((List.finRange 4).all fun k => !streamRuns blk.ctxs[k] && blk.ctxs[k].ops.isEmpty) && !spanTargeted s blk

/-- A node of which every block has been released and has ended has ended. -/
def endCheck (s : State) (n : Nat) : State :=
  modNode s n fun nd =>
    if nd.status = .ready && nd.copy.isNone && nd.next = nd.nblocks && nd.redo.isEmpty &&
       s.blocks.all fun blk => blk.node != n || blk.status = .ended then
      { nd with status := .ended, endedAt := s.tick }
    else nd

/-- What a block that has ended gives back (R192, R244, R279), and its node's sample (R358). -/
def closeBlock (s : State) (b : Nat) (blk : Block) : State :=
  let s1 := modCore s blk.core fun c =>
    { releaseClaims c b with current := c.current.map fun x => if (x.map (·.1)) = some b then none else x }
  let s2 := { s1 with
    spanRanges := s1.spanRanges.map fun r =>
      if r.off = blk.spanOff && r.len = blk.spanLen && !r.clearing then { r with clearing := true } else r
    matrixReqs := s1.matrixReqs.filter (· != b) }
  let s3 := modBlock s2 b fun x => { x with status := .ended, charge := 0, claim := none }
  modNode s3 blk.node fun nd =>
    { nd with samples := if nd.samples.length < 4 then nd.samples ++ [(blk.flops, blk.bytes)] else nd.samples }

/-- BLOCK_END: a block whose conditions of R192 all hold ends once its buffer has drained; its remaining charge is reported (R142,
R352). -/
def execBlockEnd (b : Nat) (s : State) : Out1 :=
  match s.blocks[b]? with
  | none => .fault .noParty
  | some blk =>
    let s0 := drain s b
    if !mayEnd s blk then .next s
    else if ((s0.blocks[b]?).map (·.buffer)) != some [] then .next s0
    else .next (endCheck (closeBlock (takeCharge s0 blk (blk.charge / chargeUnit)) b blk) blk.node)

/-! ## The image (R392, R393) -/

/-- A size padded to 16 bytes. -/
def pad16 (n : Nat) : Nat := (n + 15) / 16 * 16

/-- Bytes of a register by its tag (R393). -/
def valSize : VVal → Nat
  | .u _ => 4
  | .a _ _ => 8
  | .g _ => 128

/-- Bytes that the destination of a result on its way needs: the tag that R131 gives it at issue, U for a broadcast that writes
every lane and all of the word; lanes or bytes kept beside it need G (R53, R131, R395; log 114, DEDUCED). -/
def pendSize (wp : Warp) (p : Pend) (lanes : LaneMask) : Nat :=
  if p.uni && isFull wp lanes && !dstSubword p.dst then 4 else 128

/-- Bytes of register n: those of its tag, or of the tag that a result on its way gives it (R131, R393, R395). -/
def regSize (wp : Warp) (n : Fin 256) : Nat :=
  match wp.pend.find? fun p => (dstRegs p.dst p.idx p.size.regs).contains n with
  | some p => pendSize wp p (lanesTo p.dst p.idx p.lanes n)
  | none => valSize wp.regs[n].val

/-- Bytes of operand-file slot n, likewise. -/
def slotSize (wp : Warp) (n : Fin 8) : Nat :=
  match wp.pend.find? fun p => match p.dst with | .o m => m = n | .vo _ m _ => m = n | _ => false with
  | some p => pendSize wp p p.lanes
  | none => valSize wp.ofile[n].val

/-- Bytes of a warp record: each of its parts is padded (R392, R393). -/
def warpSize (wp : Warp) : Nat :=
  let regs := ((List.finRange 256).map (regSize wp)).foldl (· + ·) 0
  let os := ((List.finRange 8).map (slotSize wp)).foldl (· + ·) 0
  let gangs := (wp.gangs.map fun g => pad16 (64 + valSize g.latch.val)).foldl (· + ·) 0
  let stackBytes := ((List.range wp.width.val).map fun k => 4 + 16 * (sliceAt wp k).stack.length).foldl (· + ·) 0
  let bad := ((wp.regs.toList ++ wp.ofile.toList).filter fun r => r.poison != 0).length
  128 + 64 + pad16 regs + pad16 (8 + os) + 64 + gangs + pad16 stackBytes + pad16 (8 * bad) + 16 * wp.pend.length

/-- The slots and tiles that block b claims on a core, with their contents: an image without its size. -/
def imageOf (c : Core) (b : Nat) : Image :=
  let ms := (List.finRange 64).filter fun m => c.slots[m].owner = some b
  let as := (List.finRange 48).filter fun a => c.tiles[a].owner = some b
  let mNos := ms.map (·.val)
  let aNos := as.map (·.val)
  { size := 0
    slots := ms.map fun m => (m.val, c.slots[m])
    slotBytes := c.slotBytes.filter fun x => mNos.contains (x.1 / 16384)
    tiles := as.map fun a => (a.val, c.tiles[a])
    tileBytes := c.tileBytes.filter fun x => aNos.contains (x.1 / 65536)
    badSlots := c.badSlots.filter mNos.contains
    badTiles := c.badTiles.filter aNos.contains }

/-- Bytes of a block's image (R392). -/
def imageSize (blk : Block) (im : Image) : Nat :=
  let live := blk.warps.filter fun wp => !warpEnded wp
  let streams := ((List.finRange 4).filter fun k => streamRuns blk.ctxs[k]).length
  let ctxs := 4 * 128 + 512 * streams
  let ops := 64 * (((List.finRange 4).map fun k => blk.ctxs[k].ops.length).foldl (· + ·) 0)
  256 + 768 + pad16 (8 * blk.dq.length) + ctxs + ops +
  pad16 (8 * blk.bars.length + 4 * blk.bars.length * (1 + live.length + streams)) +
  im.slots.length * (16384 + 320) + im.tiles.length * (65536 + 576) + (live.map warpSize).foldl (· + ·) 0

/-- The image of a block with its size. -/
def sized (s : State) (b : Nat) (blk : Block) : Image :=
  let im := imageOf s.cores[blk.core] b
  { im with size := imageSize blk im }

/-- The bytes that images of a context hold of its save pool. -/
def poolUsed (s : State) (ctx : Fin 64) : Nat :=
  ((s.blocks.filter fun blk => blk.ctx = ctx).map fun blk => (blk.image.map (·.size)).getD 0).foldl (· + ·) 0

/-- The bytes of a context's save pool that no block may take: those its images hold, and those that the blocks being saved will
hold (R387). -/
def poolTaken (s : State) (ctx : Fin 64) : Nat :=
  (s.blocks.zipIdx.filter fun x => x.1.ctx = ctx && x.1.status = .saving).foldl (fun n x => n + (sized s x.2 x.1).size)
    (poolUsed s ctx)

/-- USED of SAVEPOOLn, in 64 KiB units, rounded up (R387). -/
def poolUnits (s : State) (ctx : Fin 64) : Nat := (poolUsed s ctx + 65535) / 65536

/-! ## Eviction (R388 to R391) -/

/-- Whether a helm stands at a blocking point, or has ended (R193, R240). -/
def helmStands (h : Helm) : Bool :=
  h.ended || match h.wait with
  | .dqpush _ _ | .fork _ _ | .join _ | .load _ => true
  | _ => false

/-- Whether a migration or the copy of a slice holds a row of an operation (R385, R435). -/
def opHeld (s : State) (b : Nat) (k : Fin 4) (n : Nat) : Bool := s.migHeld.any fun h => h.2.2 = .op b k n

/-- Whether the engine work of a context is at rest: no operation can go on, each waits for a page whose fault is recoverable or
behind one that does, none of its accesses is held or outstanding, and no stream waits for a grant (R390). -/
def engRests (s : State) (b : Nat) (k : Fin 4) (blk : Block) : Bool :=
  let e := blk.ctxs[k]
  (e.ops.all fun o =>
    !runReady s b k blk o && !(o.rows.isEmpty && o.fill.isNone) && !opFabs s b k o.n && !opHeld s b k o.n) &&
  (match e.stream with | some st => (match st.wait with | .grant _ => false | _ => true) | none => true)

/-- Whether a party of the block, or an operation of it, is still to go on (log 59, DEDUCED). -/
def hasWaiter (blk : Block) : Bool :=
  !blk.helm.ended || (blk.warps.any fun wp => !warpEnded wp) ||
  (List.finRange 4).any fun k => streamRuns blk.ctxs[k] || !blk.ctxs[k].ops.isEmpty

/-- Whether a block qualifies for eviction: its helm and every gang stand at blocking points (R388). -/
def mayFreeze (blk : Block) : Bool :=
  blk.status = .resident && hasWaiter blk && helmStands blk.helm &&
  blk.warps.all fun wp => warpEnded wp || wp.gangs.all fun g => atBlocking g.wait

/-- Whether a block's buffer is empty and its engine work at rest (R390). -/
def blockRests (s : State) (b : Nat) (blk : Block) : Bool :=
  blk.buffer.isEmpty && (List.finRange 4).all fun k => engRests s b k blk

/-- The results of a block that wait for no answer of fabric memory arrive (R390, R395). -/
def landNear (s : State) (b : Nat) : State :=
  match s.blocks[b]? with
  | none => s
  | some blk =>
    let s1 := (blk.warps.zipIdx.flatMap fun x => (x.1.pend.filter pendReady).map fun p => (x.2, p)).foldl
      (fun t x => landPend t b x.1 x.2) s
    (blk.helm.pend.filter hpendReady).foldl (fun t p => match execHelmLoadReturn p.id t with | .next u => u | _ => t) s1

/-- A block is frozen: nothing of it issues any more (R389). -/
def freeze (s : State) (b : Nat) : State :=
  modBlock (drain (landNear s b) b) b fun blk => { blk with status := .saving, woken := false }

/-- An operation as an image holds it: the segment at which an MMAG stands starts again from the read of its entry (R326). -/
def savedOp (o : EngOp) : EngOp :=
  if isSeg o then { o with rows := o.rows.map fun r => { r with data := [] }, fill := none } else o

/-- A frozen block whose engine work is at rest is saved: its claims leave the core with their contents, its grant is released,
its span stays (R246, R390). One that has nothing left to go on with ends instead (R192), and one whose image no longer fits
in the pool is not evicted (R387). -/
def saveImage (s0 : State) (b : Nat) : State :=
  let s := drain (landNear s0 b) b
  match s.blocks[b]? with
  | none => s
  | some blk =>
    if blk.status != .saving || !blockRests s b blk then s
    else
      let im := sized s b blk
      if !hasWaiter blk || poolUsed s blk.ctx + im.size > 65536 * s.ctxs[blk.ctx].poolLen.toNat then
        modBlock s b fun x => { x with status := .resident, woken := false, warps := x.warps.map settle }
      else
      let s1 := modCore s blk.core fun c =>
        { releaseClaims c b with current := c.current.map fun x => if (x.map (·.1)) = some b then none else x }
      modBlock { s1 with matrixReqs := s1.matrixReqs.filter (· != b) } b fun x =>
        { x with
          status := .evicted false
          away := true
          image := some im
          ctxs := x.ctxs.map fun e =>
            { e with stream := e.stream.map fun st => { st with granted := none }, ops := e.ops.map savedOp } }

/-- The blocks of the cluster of block b that have not ended, with their places (R194). -/
def clusterMates (s : State) (b : Nat) : List (Nat × Block) :=
  match s.blocks[b]? with
  | none => []
  | some blk =>
    let cl := max (((s.nodes[blk.node]?).map (·.kd.cluster)).getD 1) 1
    (s.blocks.zipIdx.filter fun x => x.1.node = blk.node && x.1.idx / cl = blk.idx / cl && x.1.status != .ended).map
      fun x => (x.2, x.1)

/-- BLOCK_EVICT: a block is frozen, with its cluster, where all of them qualify and their images fit in the pool; else the
request lapses. A frozen block is saved once its engine work is at rest (R387 to R390). -/
def execBlockEvict (b : Nat) (s : State) : Out1 :=
  match s.blocks[b]? with
  | none => .fault .noParty
  | some blk =>
    if blk.status = .saving then .next (saveImage s b)
    else
      let ms := clusterMates s b
      let need := (ms.map fun m => (sized s m.1 m.2).size).foldl (· + ·) 0
      if ms.all (fun m => mayFreeze m.2) && ms.any (·.1 = b) &&
         poolTaken s blk.ctx + need ≤ 65536 * s.ctxs[blk.ctx].poolLen.toNat then
        .next (ms.foldl (fun t m => saveImage (freeze t m.1) m.1) s)
      else .next s

/-- A state in which a block, with its cluster, has left its core. -/
def without (s : State) (b : Nat) : State :=
  (clusterMates s b).foldl (fun t m => modBlock t m.1 fun x => { x with away := true }) s

/-- Whether the selected block of a queue fits (R191, R388). -/
def selectedFits (s : State) (q : Queue) : Bool :=
  match selectedBatch s q with
  | none => false
  | some bt =>
    match s.nodes[bt.node]? with
    | none => false
    | some nd => (chooseCores s nd (bt.blocks.map (·.1)) (coresFor s q.qid nd)).isSome

/-- Whether the Pontoon asks for the eviction of a resident block: a selected block has waited and would fit once it leaves, or
its core is being taken over (R388, R435). -/
def evictWanted (s : State) (b : Nat) (blk : Block) : Bool :=
  s.cores[blk.core].takeover.isSome || s.queues.any fun q => waitedLong s q && selectedFits (without s b) q

/-! ## Waking and restore (R394 to R396) -/

/-- Whether the transfer that a warp's stopped gangs wait for is ready (R394, R410). -/
def transferReady (s : State) (blk : Block) (wp : Warp) : Bool :=
  match wp.xferReq, wp.safeN with
  | some v, some n =>
    match mapFor s blk.ctx wp n.toNat v.toNat with
    | some m => wp.pend.isEmpty && drained blk m (wp.drainAt.getD ((List.finRange 4).map fun k => blk.ctxs[k].issued))
    | none => true
  | _, _ => true

/-- Whether a cancelled operation can go on: the fault that a row of it met has been serviced (R394). -/
def reissuable (e : EngCtx) : Bool := e.ops.any fun o => o.rows.any fun r => r.missed && r.stalled.isNone

/-- Whether a write of this step has reached n bytes of the device's memory (R394). -/
def wordWritten (s : State) (l : Loc) (n : Nat) : Bool := s.wrote.any fun x => locsMeet x.1 x.2 l n

/-- Whether the wake condition of a gang is met (R394). -/
def gangWakes (s : State) (blk : Block) (wp : Warp) (g : Gang) : Bool :=
  match g.wait with
  | .bar bar ph => phaseDone blk bar ph
  | .dqpop _ _ => !popBehind wp g && (popFor blk wp).isSome
  | .waita _ _ ls cmp size _ => watchDone (ls.map (watchLane s cmp size)) || ls.any fun w => wordWritten s w.loc size.bytes
  | .twait k n _ _ => blk.ctxs[k].done ≥ n.toNat || reissuable blk.ctxs[k]
  | .safe _ => transferReady s blk wp
  | .regang _ | .bkpt | .fabric _ | .fresume _ _ | .page _ _ _ | .ring _ _ _ _ | .mig _ _ | .recomp => false
  | .none | .tgath _ _ _ _ _ => true

/-- Whether the wake condition of a helm is met (R394). -/
def helmWakes (blk : Block) : Bool :=
  !blk.helm.ended && match blk.helm.wait with
  | .dqpush _ _ => blk.dq.length < 64
  | .fork k _ => !streamRuns blk.ctxs[k] || reissuable blk.ctxs[k]
  | .join k => joinDone blk.ctxs[k] || reissuable blk.ctxs[k]
  | .load id => !blk.helm.pend.any (·.id = id)
  | .page _ _ | .mig _ _ => false
  | .none => true

/-- Whether the wake condition of a stream is met (R390, R394). -/
def streamWakes (s : State) (blk : Block) (st : Stream) : Bool :=
  st.running && match st.wait with
  | .bar bar ph => phaseDone blk bar ph
  | .sig l cmp v => !isFab l && (cwaitRead s l cmp v != some false || wordWritten s l 8)
  | .claim a m ns nt => claimFree s.cores[blk.core] a m ns nt
  | .seg | .page _ _ _ | .mig _ _ => false
  | .none | .grant _ => true

/-- Whether a wake condition of an evicted block is met (R394). -/
def blockWakes (s : State) (blk : Block) : Bool :=
  helmWakes blk || (blk.warps.any fun wp => wp.gangs.any (gangWakes s blk wp)) ||
  (List.finRange 4).any fun k => reissuable blk.ctxs[k] ||
    match blk.ctxs[k].stream with | some st => streamWakes s blk st | none => false

/-- A wake condition that a frozen or evicted block meets is recorded (R389, R394). -/
def noteWake (s : State) (blk : Block) : Block :=
  if (blk.status = .saving || blk.status = .evicted false) && !blk.woken && blockWakes s blk then { blk with woken := true }
  else blk

/-- The wake conditions that a step has met are recorded. -/
def noteWakes (s : State) : State := { s with blocks := s.blocks.map (noteWake s) }

/-- BLOCK_WAKE: an evicted block becomes ready for restore once a wake condition is met (R394). -/
def execBlockWake (b : Nat) (s : State) : Out1 :=
  match s.blocks[b]? with
  | none => .fault .noParty
  | some blk =>
    if blk.status = .evicted false && (blk.woken || blockWakes s blk) then
      .next (modBlock s b fun x => { x with status := .evicted true })
    else .next s

/-- What a block needs in order to return: its warps that have not ended, and its barriers; its span has stayed (R396). -/
def needOf (blk : Block) : Need :=
  { warps := (blk.warps.zipIdx.filter fun x => !warpEnded x.1).map fun x => (x.2, x.1.gmax), span := 0,
    bars := blk.bars.length }

/-- Whether the slots and tiles of an image are free on a core. -/
def imageFits (c : Core) (im : Image) : Bool :=
  (im.slots.all fun x => (c.slots[Fin.ofNat 64 x.1]).owner.isNone) &&
  im.tiles.all fun x => (c.tiles[Fin.ofNat 48 x.1]).owner.isNone

/-- Whether an evicted block may be restored: every pending load has been performed, its core is not taken over nor kept for a
selected block, and has room (R359, R395, R396, R435). -/
def mayRestore (s : State) (blk : Block) : Bool :=
  (match blk.status with | .evicted _ => true | _ => false) &&
  (blk.warps.all fun wp => wp.pend.isEmpty) && blk.helm.pend.isEmpty && s.cores[blk.core].takeover.isNone && !(s.queues.any (coreKept s blk.core)) &&
  (helmFit s blk.core (needOf blk)).isSome && ((blk.image.map (imageFits s.cores[blk.core])).getD true)

/-- Sparse bytes added to others. -/
def memMerge (m : Mem) (xs : Mem) : Mem := xs.foldl (fun t x => memSet t x.1 x.2) m

/-- Slots and tiles of an image put back under their numbers (R396). -/
def putImage (c : Core) (im : Image) : Core :=
  { c with
    slots := im.slots.foldl (fun v x => v.set (Fin.ofNat 64 x.1) x.2) c.slots
    slotBytes := memMerge (c.slotBytes.filter fun y => !(im.slots.any fun x => x.1 = y.1 / 16384)) im.slotBytes
    tiles := im.tiles.foldl (fun v x => v.set (Fin.ofNat 48 x.1) x.2) c.tiles
    tileBytes := memMerge (c.tileBytes.filter fun y => !(im.tiles.any fun x => x.1 = y.1 / 65536)) im.tileBytes
    badSlots := c.badSlots.filter (fun y => !(im.slots.any (·.1 = y))) ++ im.badSlots
    badTiles := c.badTiles.filter (fun y => !(im.tiles.any (·.1 = y))) ++ im.badTiles }

/-- One block put back on its core; its engines take its cancelled operations up again before any other (R391, R396). -/
def restoreOne (s : State) (b : Nat) : State :=
  match s.blocks[b]? with
  | none => s
  | some blk =>
    match helmFit s blk.core (needOf blk) with
    | none => s
    | some h =>
      let s1 := modCore s blk.core fun c => match blk.image with | some im => putImage c im | none => c
      modBlock s1 b fun x =>
        { x with
          status := .resident, away := false, woken := false, image := none, helmPos := Fin.ofNat 16 h
          warps := x.warps.map settle }

/-- BLOCK_RESTORE: in its queue's turn, a ready evicted block returns to its core, with its cluster (R394, R396). -/
def execBlockRestore (b : Nat) (s : State) : Out1 :=
  match s.blocks[b]? with
  | none => .fault .noParty
  | some blk =>
    match serve s with
    | (s1, none) => .next s1
    | (s1, some qid) =>
      if qid != queueOfBlock s blk || readyEvicted s1 qid != some b then .next s1
      else
        let ms := clusterMates s1 b
        if ms.all fun m => mayRestore s1 m.2 then .next (ms.foldl (fun t m => restoreOne t m.1) s1)
        else .next (modQueue s1 qid fun q => { q with turn := false })

end Sys2Proof.Machine
end

