-- ==== Sys2Proof/Machine/Fabric.lean ====
section
/-!
DEFINITION. The fabric: outgoing operations that complete or fail (R368 to R370, R374, R395), incoming requests (R363, R371
to R373), and the ports (R364 to R366).
-/
namespace Sys2Proof.Machine

open Sys2Proof

/-! ## Outgoing operations (R369, R370) -/

/-- Bytes returned for a read of n bytes. -/
def fitBytes (n : Nat) (data : List Byte) : List Byte := (List.range n).map fun i => data.getD i 0

/-- The number that returned bytes hold. -/
def valueOf (data : List Byte) : Word64 := BitVec.ofNat 64 (leNat (fitBytes 8 data))

/-- A pending result of a warp changed. -/
def modPend (s : State) (b w id : Nat) (f : Pend → Pend) : State :=
  modWarp s b w fun wp => { wp with pend := wp.pend.map fun p => if p.id = id then f p else p }

/-- What fabric memory returns for a lane of a warp's load or returning atomic. -/
def takeData (lane : Nat) (data : List Byte) (p : Pend) : Pend :=
  match p.kind with
  | .load _ _ =>
    let n := ((p.accs.find? (·.lane = lane)).map fun a => accBytes a p.size).getD 0
    { p with data := (lane, fitBytes n data) :: p.data.filter (·.1 != lane) }
  | .atomic olds => { p with kind := .atomic (olds ++ [(lane, BitVec.ofNat 64 (leNat (fitBytes p.size.bytes data)))]) }

/-- A pending result of a helm changed. -/
def modHPend (s : State) (b id : Nat) (f : HPend → HPend) : State :=
  modHelm s b fun h => { h with pend := h.pend.map fun p => if p.id = id then f p else p }

/-- What fabric memory returns for a helm's load or returning atomic. -/
def takeHData (atomic : Bool) (data : List Byte) (p : HPend) : HPend :=
  let d := fitBytes p.size.bytes data
  if atomic then { p with old := some (BitVec.ofNat 64 (leNat d)) } else { p with data := some d }

/-- The lanes of a WAITA that read a place, with the value read (R148, R368). -/
def takeWatch (l : Loc) (cmp : WCmp) (size : Size) (data : List Byte) (w : WaitLane) : WaitLane :=
  let v := leNat (fitBytes size.bytes data)
  if w.loc != l || w.got.isSome || w.bad then w
  else if wcmp cmp (8 * size.bytes) v w.cmp.toNat then { w with got := some (BitVec.ofNat 64 v) }
  else w

/-- A WAITA's lanes changed. -/
def modWatch (s : State) (p : Party) (f : WCmp → Size → WaitLane → WaitLane) : State :=
  match gangOf s p with
  | none => s
  | some k =>
    match k.g.wait with
    | .waita d m ls cmp size uni =>
      modGang s k.b k.w k.g.gid fun g => { g with wait := .waita d m (ls.map (f cmp size)) cmp size uni }
    | _ => s

/-- What fabric memory returns for a row, kept by its address (R369). -/
def takeRow (id : Nat) (data : List Byte) (r : Row) : Row :=
  match r.fabs.find? (·.1 = id) with
  | none => r
  | some (_, va) => { r with fabs := r.fabs.filter (·.1 != id), data := (va, data) :: r.data.filter (·.1 != va) }

/-- What fabric memory returns for an operation's row. -/
def takeOpRow (id : Nat) (data : List Byte) (o : EngOp) : EngOp := { o with rows := o.rows.map (takeRow id data) }

/-- What fabric memory returns for a COPY. -/
def takeJob (id : Nat) (data : List Byte) (j : CopyJob) : CopyJob := { j with row := takeRow id data j.row }

/-- The bytes that a fabric operation returns. -/
def returned (o : FabOp) (data : List Byte) : List Byte :=
  match o.kind with
  | .read n => fitBytes n data
  | _ => data

/-- A CWAIT whose word has been read (R310, R368). -/
def takeCwait (s : State) (b : Nat) (k : Fin 4) (l : Loc) (data : List Byte) : State :=
  match streamOf s (.stream b k) with
  | none => s
  | some x =>
    match x.st.wait with
    | .sig l1 cmp v => if l1 = l && wcmp cmp 64 (valueOf data).toNat v.toNat then goOn s x else s
    | _ => s

/-- A BARRIER's signal that has been read; its round goes on (R374). -/
def takeSig (s : State) (qid idx j : Nat) (data : List Byte) : State :=
  match findFlight s qid idx with
  | none => s
  | some (q, f) =>
    match f.kind with
    | .barrier sigs got =>
      let got1 := (j, valueOf data) :: got.filter (·.1 != j)
      let s1 := modFlight s qid idx fun x => { x with kind := .barrier sigs got1 }
      if evaluates f then runRound s1 q { f with kind := .barrier sigs got1 } sigs got1 else s1
    | _ => s

/-- An answer sent to the requester. -/
def answer (s : State) (o : Out) : State := { s with out := s.out ++ [o] }

/-- A part of an incoming request has been performed or has failed; the last one answers (R372). -/
def answerPart (s : State) (n : Nat) (bad : Bool) (o : Out) : State :=
  let mine (w : FabFor) : Bool := match w with | .incoming m _ => m = n | _ => false
  if s.fabOps.any fun x => mine x.why then
    { s with fabOps := s.fabOps.map fun x => if mine x.why && bad then { x with why := .incoming n true } else x }
  else answer s (if bad then .rmaErr else o)

/-- A merge whose compare-swap found another value is sent again, comparing with that value (R139, R368). -/
def mergeAgain (o : FabOp) (v : Word64) : Option FabKind :=
  match o.kind with
  | .merge f sub code last cmp => if v = cmp then none else some (.merge f sub code last v)
  | _ => none

/-- A fabric operation is performed: what its answer does (R368, R369, R374). -/
def perform (s : State) (o : FabOp) (data0 : List Byte) : State :=
  let data := returned o data0
  match mergeAgain o (valueOf data) with
  | some k => sendFab s o.loc k o.why o.acq o.va
  | none =>
  match o.why with
  | .load b w id lane => modPend s b w id (takeData lane data)
  | .helmLoad b id => modHPend s b id (takeHData (!isRead o.kind) data)
  | .waita p => modWatch s p (fun cmp size => takeWatch o.loc cmp size data)
  | .cwait b k => takeCwait s b k o.loc data
  | .row b k n _ =>
    if isRead o.kind then
      modEng s b k fun e => { e with ops := e.ops.map fun x => if x.n = n then takeOpRow o.id data x else x }
    else s
  | .copyPacket qid idx =>
    pumpCopyPacket (modFlight s qid idx fun f =>
      { f with kind := match f.kind with | .copy j => .copy (takeJob o.id data j) | k => k }) qid idx
  | .copyNode n => pumpCopyNode (modNode s n fun x => { x with copy := x.copy.map (takeJob o.id data) }) n
  | .store _ _ _ _ => s
  | .barrier qid idx j => takeSig s qid idx j data
  | .record qid idx => answerRetire s qid idx none true
  | .signal qid idx => answerRetire s qid idx (some (valueOf data)) true
  | .signalOp qid idx => modFlight s qid idx fun f => { f with finished := true }
  | .incoming n bad =>
    answerPart s n bad (match o.kind with | .atomic _ _ _ _ _ true => .atomOld (valueOf data) | _ => .rmaOk)

/-- Whether a block is evicted. -/
def isEvicted (s : State) (b : Nat) : Bool :=
  match s.blocks[b]? with
  | none => false
  | some blk => match blk.status with | .evicted _ => true | _ => false

/-- A load of an evicted block whose answers have all come is performed in the image (R395). -/
def landInImage (s : State) (o : FabOp) : Out1 :=
  match o.why with
  | .load b w pid _ =>
    if !isEvicted s b then .next s
    else
      match findPend s pid with
      | none => .next s
      | some (_, _, p) => .next (if pendReady p then landPend s b w p else s)
  | .helmLoad b pid => if !isEvicted s b then .next s else execHelmLoadReturn pid s
  | _ => .next s

/-- FABRIC_DELIVERY_COMPLETE: the completion or the data of an outgoing operation returns (R369). -/
def execFabricDeliveryComplete (id : Nat) (data : List Byte) (s : State) : Out1 :=
  match s.fabOps.find? fun o => o.id = id && !o.held with
  | none => .fault .noParty
  | some o => landInImage (perform { s with fabOps := s.fabOps.filter (·.id != id) } o data) o

/-- A failed part of a COPY: it is fatal (R345, R370). -/
def failJob (s : State) (j : CopyJob) (r : Raise) : CopyOut :=
  { s := s, j := j, faults := [(r, 2)], flags := 0, failed := true }

/-- The fault of a row whose fabric operation failed (R370). -/
def rowFailure (o : FabOp) : Raise :=
  if isRead o.kind then raise .uncorrectable none 1 o.va else raise .storeImprecise none 3 o.va

/-- A row has failed: its numbered operation is abandoned; where that has been abandoned before, a write that failed is reported
with its own tag (R219, R370, R414; log 106, DEDUCED). -/
def failOp (s : State) (o : FabOp) (b : Nat) (k : Fin 4) (n row : Nat) : State :=
  match s.blocks[b]? with
  | none => s
  | some blk =>
    match blk.ctxs[k].ops.find? (·.n = n) with
    | some op => stopRows s b k (opAgent s b k op blk) op { r := rowFailure o, lane := row }
    | none =>
      match o.tag with
      | some t => if isRead o.kind then s else report s (t.at o.va) 3
      | none => s

/-- A fabric operation has failed: what that does (R370; log 70, DEDUCED). -/
def failFab (s : State) (o : FabOp) : State :=
  match o.why with
  | .load b w id lane =>
    modPend s b w id fun p => { p with failed := p.failed ||| maskOf fun l => l = lane }
  | .helmLoad b id => modHPend s b id fun p => { p with failed := true }
  | .waita p => modWatch s p (fun _ _ w => if w.loc = o.loc && w.got.isNone then { w with bad := true } else w)
  | .cwait b k =>
    match streamOf s (.stream b k) with
    | none => s
    | some x =>
      match x.st.wait with
      | .sig _ _ _ =>
        takeFault (modStream s b k fun st => { st with wait := .none }) (.stream b k)
          (raise .uncorrectable none 1 o.va)
      | _ => s
  | .row b k n row => failOp s o b k n row
  | .copyPacket qid idx =>
    match findFlight s qid idx with
    | none => s
    | some (q, f) =>
      match f.kind with
      | .copy j => landCopyPacket qid idx q.ctx (failJob s j (rowFailure o))
      | _ => s
  | .copyNode n =>
    match s.nodes[n]? with
    | none => s
    | some nd =>
      match nd.copy with
      | none => s
      | some j => landCopyNode n nd (failJob s j (rowFailure o))
  | .store p w pc inc =>
    report s { party := p, warp := w, pc := pc, incarnation := inc, cause := 0, addr := o.va,
               node := ((s.blocks[partyBlock p]?).map (·.node)).getD 0 } 3
  | .barrier qid idx _ | .signalOp qid idx => modFlight s qid idx fun f => { f with abort := if f.abort = 0 then 0x0A else f.abort }
  | .record qid idx | .signal qid idx => answerRetire s qid idx none false
  | .incoming n _ => answerPart s n true .rmaErr

/-- The tag of a write that was held (R414). -/
def heldTag (s : State) (o : FabOp) : Report :=
  let tag (p : Party) (w : Nat) (pc : Word) (inc : Nat) : Report :=
    { party := p, warp := w, pc := pc, incarnation := inc, cause := 0, addr := o.va,
      node := ((s.blocks[partyBlock p]?).map (·.node)).getD 0 }
  match o.why with
  | .store p w pc inc => tag p w pc inc
  | .load b w _ _ => tag (.gang b w 0) w 0 0
  | .helmLoad b _ => tag (.helm b) 0xFFFF 0 0
  | _ => tag (.helm 0) 0xFFFF 0 0

/-- An access that was held is performed at a place of the device: what it does there, and what it returns, none where it met
uncorrectable data (R385, R431). -/
def performHeld (s : State) (o : FabOp) (l : Loc) : State × Option (List Byte) :=
  let t := heldTag s o
  match o.kind with
  | .write bytes => (writeLoc s t l bytes, some [])
  | .merge f sub code last _ => (writeLoc s t l [mergeCode f.toNat ((readLoc s l 1).headD 0) sub code last], some [])
  | .atomic op u size b1 b2 fetch =>
    let (s1, old) := rmw s t l op u size b1 b2 fetch
    (s1, if fetch then old.map fun x => leBytes 8 x.toNat else some [])
  | .read _ => (s, some [])

/-- A held access is performed once the migration of its page has ended: at the device, or over the fabric where the page has
moved there; one whose page no longer admits it has failed (R385, R386). -/
def performAccess (s : State) (ctx vpage id : Nat) : Out1 :=
  match s.fabOps.find? fun o => o.id = id && o.held with
  | none => .next s
  | some o =>
    let c : Fin 64 := Fin.ofNat 64 ctx
    let gone : State := { s with fabOps := s.fabOps.filter (·.id != id) }
    let place : Option (Loc × Bool) :=
      match pageOf s none c .store o.va with
      | .error _ => none
      | .ok p =>
        if p.fmt = 0 then some (placeOf c p 0, p.mig)
        else (pageEnt s c p o.va).toOption.map fun e => (placeOf c p (elemPlace e.fmt (o.va % 65536)).1, p.mig)
    match place with
    | none => landInImage (failFab gone o) o
    | some (_, true) => .next (holdFor s ctx vpage (.access id))
    | some (l, false) =>
      if isFab l then
        .next { s with fabOps := s.fabOps.map fun x => if x.id = id then { x with loc := l, held := false } else x }
      else
        match performHeld gone o l with
        | (s1, some data) => landInImage (perform s1 { o with held := false } data) o
        | (s1, none) => landInImage (failFab s1 o) o

/-- FABRIC_OPERATION_FAILED: UET reports an outgoing operation as failed; the event is logged (R370, R449). -/
def execFabricOperationFailed (id : Nat) (s : State) : Out1 :=
  match s.fabOps.find? fun o => o.id = id && !o.held with
  | none => .fault .noParty
  | some o =>
    let ctx := match o.loc with | .fab c _ _ => c | _ => 0
    let s1 := logErr { s with fabOps := s.fabOps.filter (·.id != id) }
      (errEvent .port (Config.port s.tick).val 7 0 0xFF ctx 0)
    landInImage (failFab s1 o) o

/-- FABRIC_LOAD_INTO_IMAGE: a fabric load that was outstanding at the freeze returns, and is written into the image
(R395). -/
def execFabricLoadIntoImage (id : Nat) (data : List Byte) (s : State) : Out1 :=
  match s.fabOps.find? fun o => o.id = id && !o.held with
  | none => .fault .noParty
  | some o =>
    let ours := match o.why with
      | .load b _ _ _ | .helmLoad b _ => isEvicted s b
      | _ => false
    if ours then landInImage (perform { s with fabOps := s.fabOps.filter (·.id != id) } o data) o else .next s

/-! ## Incoming requests (R363, R371 to R373) -/

/-- The window that an incoming request matches (R371). -/
def windowOf (s : State) (r : Req) : Option Window :=
  s.windows.toList.find? fun w => w.valid && w.job = r.job && w.pid = r.pid && w.ri = r.ri

/-- The context and first address of a request, where its window admits it (R371). -/
def matchWindow (s : State) (r : Req) (len : Nat) (wr : Bool) : Option (Fin 64 × Nat) :=
  match windowOf s r with
  | none => none
  | some w =>
    if r.off + len ≤ w.len.toNat && (if wr then w.wr else w.rd) then some (w.ctx, w.base.toNat + r.off) else none

/-- What the translation of a request's range gives: the places of its bytes, an error, or a page to wait for (R372). -/
inductive InRes where
  | ok (ls : List (Loc × Nat))
  | bad
  | wait (vpage : Nat) (kind : Option (BitVec 4))

/-- The bytes of n from an address on that one page holds, and where, be it in fabric memory; on a format page they are code bytes
(R137, R372; log 67, DEDUCED; log 69, DEDUCED). -/
def inPiece (s : State) (ctx : Fin 64) (p : Page) (va n : Nat) : Option (Loc × Nat) :=
  if p.fmt = 0 then some (placeOf ctx p 0, min n (65536 - va % 65536))
  else
    match pageEnt s ctx p va with
    | .error _ => none
    | .ok e =>
      let off := (elemPlace e.fmt (va % 65536)).1
      let room := (elemPlace e.fmt 65535).1 + 1 - off
      if n ≤ room then some (placeOf ctx p off, n) else none

/-- The places of a request's bytes. -/
def inPlaces (s : State) (ctx : Fin 64) (k : AKind) : Nat → Nat → Nat → InRes
  | 0, _, _ => .ok []
  | fuel + 1, va, n =>
    if n = 0 then .ok []
    else if va ≥ Config.vaLimit || inSpan va then .bad
    else
      match pageOf s none ctx k va with
      | .error (.absent _ a) => .wait (pageBase a) (some k.num)
      | .error (.fault _ _) => .bad
      | .ok p =>
        if p.mig && k.writes then .wait (pageBase va) none
        else
          match inPiece s ctx p va n with
          | none => .bad
          | some (l, m) =>
            match inPlaces s ctx k fuel (va + m) (n - m) with
            | .ok ls => .ok ((l, m) :: ls)
            | x => x

/-- A request held until its page is serviced, or until a migration of it ends (R372, R385). -/
def holdReq (s : State) (ctx : Fin 64) (vp : Nat) (kind : Option (BitVec 4)) (i : Instr) : State :=
  match kind with
  | none => { s with migHeld := s.migHeld ++ [(ctx.val, vp, .req i)] }
  | some kd =>
    let t := ringFault s ctx vp kd none
    { t with held := t.held ++ [{ ctx := ctx.val, vpage := vp, instr := i }] }

/-- Bytes written at places in order, those in fabric memory sent on as parts of request n; whether none was discarded (log 67,
DEDUCED; log 68, DEDUCED). -/
def putPlaces (s : State) (n : Nat) (ls : List (Loc × Nat)) (data : List Byte) : State × Bool :=
  let put (t : State) (l : Loc) (bytes : List Byte) : State :=
    if isFab l then sendFab t l (.write bytes) (.incoming n false) else writeLoc t noTag l bytes
  let r := ls.foldl (fun (x : State × List Byte) l => (put x.1 l.1 (x.2.take l.2), x.2.drop l.2)) ({ s with reports := [] }, data)
  ({ r.1 with reports := s.reports }, r.1.reports.isEmpty)

/-- An incoming write (R371, R372). -/
def serveWrite (s : State) (r : Req) (data : List Byte) : State :=
  match matchWindow s r data.length true with
  | none => answer s .rmaErr
  | some (ctx, va) =>
    match inPlaces s ctx .inW (data.length + 1) va data.length with
    | .bad => answer s .rmaErr
    | .wait vp kd => holdReq s ctx vp kd (.rmaWrite r data)
    | .ok ls =>
      let (t, ok) := putPlaces { s with nextId := s.nextId + 1 } s.nextId ls data
      answerPart t s.nextId (!ok) .rmaOk

/-- RMA_WRITE. -/
def execRmaWrite (r : Req) (data : List Byte) (s : State) : Out1 := .next (serveWrite s r data)

/-- An incoming read; one of a poisoned granule receives an error; what fabric memory gives is free (R371, R372, R431; log 14,
DESIGN CHOICE). -/
def serveRead (s : State) (r : Req) (len : Nat) : State :=
  match matchWindow s r len false with
  | none => answer s .rmaErr
  | some (ctx, va) =>
    match inPlaces s ctx .inR (len + 1) va len with
    | .bad => answer s .rmaErr
    | .wait vp kd => holdReq s ctx vp kd (.rmaRead r len)
    | .ok ls =>
      if ls.any fun l => readFails s l.1 l.2 then answer s .rmaErr
      else answer s (.rmaData (ls.flatMap fun l => if isFab l.1 then auxHere s l.1 l.2 else readLoc s l.1 l.2))

/-- RMA_READ. -/
def execRmaRead (r : Req) (len : Nat) (s : State) : Out1 := .next (serveRead s r len)

/-- The operation of an incoming atomic, and whether it compares unsigned (R363). -/
def rmaAtom : RmaOp → AtomOp × Bool
  | .add => (.add, false) | .min => (.min, false) | .max => (.max, false) | .umin => (.min, true) | .umax => (.max, true)
  | .and => (.and, false) | .or => (.or, false) | .xor => (.xor, false) | .swap => (.exch, false) | .cas => (.cas, false)

/-- Whether a non-fetching atomic is implemented (R363). -/
def nonFetching : RmaOp → Bool
  | .swap | .cas => false
  | _ => true

/-- An incoming atomic on one aligned word; on a compare-swap cmp is compared and val written. One that the part does not
implement is counted (R363, R371, R372; log 73, DEDUCED). -/
def serveAtomic (s : State) (r : Req) (op : RmaOp) (wide fetch : Bool) (val cmp : Word64) (i : Instr) : State :=
  let n := if wide then 8 else 4
  let size : Size := if wide then .b64 else .b32
  if !fetch && !nonFetching op then answer (logErr s (errEvent .port (Config.port s.tick).val 6 0 0xFF 0 0)) .rmaErr
  else
  match matchWindow s r n true with
  | none => answer s .rmaErr
  | some (ctx, va) =>
    if va % n != 0 then answer s .rmaErr
    else
      match inPlaces s ctx .inW (n + 1) va n with
      | .bad => answer s .rmaErr
      | .wait vp kd => holdReq s ctx vp kd i
      | .ok [(l, _)] =>
        let (o, u) := rmaAtom op
        let (b1, b2) := if op = .cas then (cmp, val) else (val, 0)
        if isFab l then sendFab { s with nextId := s.nextId + 1 } l (.atomic o u size b1 b2 fetch) (.incoming s.nextId false) else
        (match rmw s noTag l o u size b1 b2 with
        | (t, none) => answer { t with reports := s.reports } .rmaErr
        | (t, some old) => answer t (if fetch then .atomOld old else .rmaOk))
      | .ok _ => answer s .rmaErr

/-- ATOMIC_NON_FETCHING. -/
def execAtomicNonFetching (r : Req) (op : RmaOp) (wide : Bool) (val : Word64) (s : State) : Out1 :=
  .next (serveAtomic s r op wide false val 0 (.atomicNonFetching r op wide val))

/-- ATOMIC_FETCHING. -/
def execAtomicFetching (r : Req) (op : RmaOp) (wide : Bool) (val cmp : Word64) (s : State) : Out1 :=
  .next (serveAtomic s r op wide true val cmp (.atomicFetching r op wide val cmp))

/-- A held request is served again (R372). -/
def serveAgain (s : State) (i : Instr) : State :=
  match i with
  | .rmaWrite r d => serveWrite s r d
  | .rmaRead r n => serveRead s r n
  | .atomicNonFetching r op w v => serveAtomic s r op w false v 0 i
  | .atomicFetching r op w v c => serveAtomic s r op w true v c i
  | _ => s

/-- UNSUPPORTED_REQUEST: an error response, nothing in memory changes, and the event is counted (R363; log 73, DEDUCED).
-/
def execUnsupportedRequest (_code : Nat) (s : State) : Out1 :=
  .next (answer (logErr s (errEvent .port (Config.port s.tick).val 6 0 0xFF 0 0)) .rmaErr)

/-- SECURITY_CHECK_DROP: a packet that fails the checks of the transport security sublayer is dropped (R363). -/
def execSecurityCheckDrop (s : State) : Out1 := .next s

/-! ## Ports (R364 to R366) -/

/-- The widest width that uses no retired lane: active lanes and WIDTH (R364, R365). -/
def widest (retired : BitVec 4) : BitVec 4 × BitVec 2 :=
  let free (m : BitVec 4) : Bool := retired &&& m = 0
  if free 0xF then (0xF, 3)
  else if free 0x3 then (0x3, 2)
  else if free 0xC then (0xC, 2)
  else if free 1 then (1, 1)
  else if free 2 then (2, 1)
  else if free 4 then (4, 1)
  else if free 8 then (8, 1)
  else (0, 0)

/-- LANE_RETIRE: the lane is retired; the port carries nothing while it retrains, and goes down with its last lane (R365,
R449). -/
def execLaneRetire (port : Fin 16) (lane : Fin 4) (s : State) : Out1 :=
  let p := s.ports[port]
  if p.retired.getLsbD lane.val then .next s
  else
    let r := p.retired ||| BitVec.ofNat 4 (2 ^ lane.val)
    let s1 := logErr s (errEvent .port port.val 4 0 lane.val 0 0)
    let p1 : Port := { p with retired := r, active := 0, width := 0, training := (widest r).2 != 0 }
    .next { s1 with ports := s1.ports.set port p1 }

/-- PORT_RETRAIN_DONE: the port carries traffic again at the widest width of R364 (R365, R366; log 74, DEDUCED). -/
def execPortRetrainDone (port : Fin 16) (s : State) : Out1 :=
  let p := s.ports[port]
  if !p.training then .next s
  else
    let (a, w) := widest p.retired
    let n := if p.retrains = 63 then 63 else p.retrains + 1
    .next { s with ports := s.ports.set port { p with active := a, width := w, training := false, retrains := n } }

end Sys2Proof.Machine
end

