-- ==== Sys2Proof/Machine/Paging.lean ====
section
/-!
DEFINITION. Fault service (R380 to R382), shootdowns (R381, R383), migration (R384 to R386) and the adapter prefetcher
(R360).
-/
namespace Sys2Proof.Machine

open Sys2Proof

/-! ## Waiting accesses (R293, R298, R330, R336, R345, R372, R380, R385) -/

/-- What becomes of the accesses that wait for a page: they are replayed whole, or take a fatal fault (R380). -/
inductive Verdict where
  | replay
  | fatal
  deriving DecidableEq, Repr

/-- Whether a stalled access waits for a page. -/
def waitsFor (ctx vp : Nat) (x : Option (Nat × Nat)) : Bool :=
  match x with
  | none => false
  | some (c, va) => c = ctx && pageBase va = vp

/-- The lane and address of a gang's access that waits for a page. -/
def gangWaits (ctx vp bctx : Nat) (g : Gang) : Option (Nat × Nat) :=
  match g.wait with
  | .page c va lane => if c = ctx && pageBase va = vp then some (lane, va) else none
  | .fresume va lane => if bctx = ctx && pageBase va = vp then some (lane, va) else none
  | _ => none

/-- A gang that replays its instruction; one that stood at FRESUME's blocking point counts anew (R421, R428). -/
def replayGang (g : Gang) : Gang :=
  match g.wait with
  | .fresume _ _ => { g with wait := .none, replay := true, wd := 0 }
  | _ => { g with wait := .none, replay := true }

/-- A gang of a block after a page has been served. A gang in its continuation keeps the STATUS for its FRESUME (R398). -/
def serveGang (ctx vp : Nat) (v : Verdict) (bctx : Nat) (g : Gang) : Gang :=
  let g1 : Gang := match g.contSave with
    | some c => if bctx = ctx && pageBase c.va = vp then { g with contSave := some { c with got := if v = .replay then 1 else 2 } } else g
    | none => g
  if v = .replay && (gangWaits ctx vp bctx g1).isSome then replayGang g1 else g1

/-- A helm after a page has been served. -/
def serveHelm (ctx vp : Nat) (v : Verdict) (h : Helm) : Helm :=
  match h.wait, v with
  | .page c va, .replay => if c = ctx && pageBase va = vp then { h with wait := .none, replay := true } else h
  | _, _ => h

/-- A stream after a page has been served. -/
def serveStream (ctx vp : Nat) (v : Verdict) (st : Stream) : Stream :=
  match st.wait, v with
  | .page c va _, .replay => if c = ctx && pageBase va = vp then { st with wait := .none } else st
  | _, _ => st

/-- A row after a page has been served. -/
def serveRow (ctx vp : Nat) (v : Verdict) (r : Row) : Row :=
  if v = .replay && waitsFor ctx vp r.stalled then { r with stalled := none } else r

/-- The operations of a context after a page has been served: their rows go on (R293, R391). -/
def serveEng (ctx vp : Nat) (v : Verdict) (e : EngCtx) : EngCtx :=
  { e with
    stream := e.stream.map (serveStream ctx vp v)
    ops := e.ops.map fun o => { o with rows := o.rows.map (serveRow ctx vp v) } }

/-- A warp after a page has been served: a gang at FRESUME's blocking point competes for a slot again (R175, R428). -/
def serveWarp (ctx vp : Nat) (v : Verdict) (bctx : Nat) (wp : Warp) : Warp :=
  settle { wp with gangs := wp.gangs.map (serveGang ctx vp v bctx) }

/-- The parties of a block whose core lies on a die replay, replay (log 58, DEDUCED). -/
def serveBlock (ctx vp : Nat) (v : Verdict) (die : Option (Fin 4)) (blk : Block) : Block :=
  if some (dieOf blk.core) != die then blk
  else
    { blk with
      helm := serveHelm ctx vp v blk.helm
      warps := blk.warps.map (serveWarp ctx vp v blk.ctx.val)
      ctxs := blk.ctxs.map (serveEng ctx vp v) }

/-- Who takes a fatal fault: a party, or an operation of a context. -/
inductive Victim where
  | party (p : Party)
  | op (b : Nat) (k : Fin 4) (n : Nat)

/-- The parties and operations of a block that may wait for a page, each with its place in the order of R420: the block's index,
the helm before its warps and its engines after them, and the PC. -/
def victimsOf (x : Block × Nat) : List (List Nat × Victim) :=
  let (blk, b) := x
  let at_ (c : Nat) (pc : Word) (v : Victim) : List Nat × Victim := ([blk.node, blk.idx, c, pc.toNat], v)
  at_ 0 blk.helm.pc (.party (.helm b)) ::
  (blk.warps.zipIdx.flatMap fun w => w.1.gangs.map fun g => at_ (1 + w.2) g.pc (.party (.gang b w.2 g.gid))) ++
  (List.finRange 4).flatMap fun k =>
    (match blk.ctxs[k].stream with | some st => [at_ 100 st.pc (.party (.stream b k))] | none => []) ++
    blk.ctxs[k].ops.map fun o => at_ 100 o.pc (.op b k o.n)

/-- A victim put before those that come after it. -/
def putVictim (x : List Nat × Victim) : List (List Nat × Victim) → List (List Nat × Victim)
  | [] => [x]
  | y :: r => if x.1 < y.1 then x :: y :: r else y :: putVictim x r

/-- The row of an operation that waits for a page. -/
def waitingRow (ctx vp : Nat) (op : EngOp) : Option Row := op.rows.find? fun r => waitsFor ctx vp r.stalled

/-- Operation n of a context. -/
def opOf (s : State) (b : Nat) (k : Fin 4) (n : Nat) : Option EngOp := (s.blocks[b]?).bind fun blk => blk.ctxs[k].ops.find? (·.n = n)

/-- The fatal PAGE_NOT_PRESENT of a victim whose access waits for a page, with the party that it is offered for; none where it
waits for no such page (R298, R380, R416). -/
def fatalRec (ctx vp : Nat) (s : State) (v : Victim) : Option (Party × FRec) :=
  let own (p : Party) (lane : Option Nat) (va : Nat) : Option (Party × FRec) :=
    some (p, faultOf s p (raise .pageNotPresent lane 0 va))
  match v with
  | .party (.gang b w g) =>
    (gangOf s (.gang b w g)).bind fun k =>
      (gangWaits ctx vp k.blk.ctx.val k.g).bind fun x => own (.gang b w g) (some x.1) x.2
  | .party (.helm b) =>
    (s.blocks[b]?).bind fun blk => match blk.helm.wait with
      | .page c va => if c = ctx && pageBase va = vp then own (.helm b) none va else none
      | _ => none
  | .party (.stream b k) =>
    (streamOf s (.stream b k)).bind fun x => match x.st.wait with
      | .page c va _ => if c = ctx && pageBase va = vp then own (.stream b k) none va else none
      | _ => none
  | .op b k n =>
    (opOf s b k n).bind fun op => (waitingRow ctx vp op).map fun r =>
      (.stream b k, opRec s b k op (raise .pageNotPresent none 0 ((r.stalled.map (·.2)).getD 0)) r.n)

/-- A victim whose access waits for the page takes the fault: a party at its instruction, a stream at the operation that could not
be accepted, an operation as it is abandoned (R219, R293, R298, R380). -/
def fatalTaken (ctx vp : Nat) (s : State) (v : Victim) (f : FRec) : State :=
  match v with
  | .party (.gang b w g) => takeFault (modGangW s b w g fun x => { replayGang x with replay := false }) (.gang b w g) f.r
  | .party (.helm b) => takeFault (modHelm s b fun h => { h with wait := .none }) (.helm b) f.r
  | .party (.stream b k) =>
    let drop := match (streamOf s (.stream b k)).map (·.st.wait) with | some (SWait.page _ _ d) => d | _ => false
    let s1 := modStream s b k fun st => { st with wait := .none }
    if drop then (match streamOf s1 (.stream b k) with | some y => dropOp s1 y f.r | none => s1) else takeFault s1 (.stream b k) f.r
  | .op b k n =>
    match s.blocks[b]?, opOf s b k n with
    | some blk, some op =>
      match waitingRow ctx vp op with
      | some r =>
        stopRows s b k (opAgent s b k op blk) op
          { r := raise .pageNotPresent none 0 ((r.stalled.map (·.2)).getD 0), lane := r.n }
      | none => s
    | _, _ => s

/-- One victim takes its fault; one whose instance an earlier of these faults has ended has it recorded as suppressed (R417,
R420). -/
def fatalOne (ctx vp : Nat) (s : State) (x : Victim × Party × FRec) : State :=
  match fatalRec ctx vp s x.1 with
  | some (_, f) => fatalTaken ctx vp s x.1 f
  | none => offer s x.2.1 false x.2.2

/-- Every access from a die that waits for a page takes a fatal fault, in the order in which a node's faults of one moment are
offered (R380, R420). -/
def fatalAll (ctx vp : Nat) (die : Option (Fin 4)) (s : State) : State :=
  let vs := (s.blocks.zipIdx.filter fun x => some (dieOf x.1.core) = die).flatMap victimsOf
  let order := (vs.foldl (fun l x => putVictim x l) []).map (·.2)
  (order.filterMap fun v => (fatalRec ctx vp s v).map fun f => (v, f)).foldl (fatalOne ctx vp) s

/-- The part of a packet that waited goes on: a COPY, a SIGNAL, a BARRIER's round (R336, R339, R345). -/
def goFlight (s : State) (qid idx : Nat) : State :=
  match findFlight s qid idx with
  | none => s
  | some (q, f) =>
    match f.kind with
    | .copy _ => pumpCopyPacket s qid idx
    | .signal _ _ _ => trySignal s qid idx
    | .barrier sigs got => if evaluates f then runRound s q f sigs got else s
    | _ => s

/-- What a page that was judged fatal leaves for the access that waited for it. -/
def judged (v : Verdict) (x : Option (Nat × Nat)) : Option (Nat × Nat) := if v = .fatal then x else none

/-- A packet whose access waits for the page goes on, or its access fails (R330, R336, R345). -/
def serveFlight (ctx vp : Nat) (v : Verdict) (s : State) (qid idx : Nat) : State :=
  match findFlight s qid idx with
  | none => s
  | some (_, f) =>
    let own := waitsFor ctx vp f.stalled
    let job := match f.kind with | .copy j => waitsFor ctx vp j.stalled | _ => false
    if !own && !job then s
    else
      goFlight (modFlight s qid idx fun x =>
        { x with
          stalled := if own then none else x.stalled
          fatal := if own then judged v x.stalled else x.fatal
          kind := match x.kind with
            | .copy j => if job then .copy { j with stalled := none, fatal := judged v j.stalled } else .copy j
            | k => k }) qid idx

/-- A queue that waits for the page reads again, and so do its packets. -/
def serveQueue (ctx vp : Nat) (v : Verdict) (s : State) (q : Queue) : State :=
  let s1 := if waitsFor ctx vp q.stalled then
      modQueue s q.qid fun x => { x with stalled := none, fatal := judged v x.stalled }
    else s
  (q.flights.map (·.idx)).foldl (fun t i => serveFlight ctx vp v t q.qid i) s1

/-- A COPY node of a graph that waits for the page goes on. -/
def serveNode (ctx vp : Nat) (v : Verdict) (s : State) (n : Nat) : State :=
  match (s.nodes[n]?).bind (·.copy) with
  | none => s
  | some j =>
    if waitsFor ctx vp j.stalled then
      pumpCopyNode (modNode s n fun x => { x with copy := some { j with stalled := none, fatal := judged v j.stalled } }) n
    else s

/-- Incoming requests that wait for the page are served, or receive an error response (R372). -/
def serveHeld (ctx vp : Nat) (v : Verdict) (s : State) : State :=
  let mine := s.held.filter fun h => h.ctx = ctx && h.vpage = vp
  let s1 := { s with held := s.held.filter fun h => !(h.ctx = ctx && h.vpage = vp) }
  mine.foldl (fun t h => if v = .fatal then answer t .rmaErr else serveAgain t h.instr) s1

/-- Every access that waits at one MMU for a page is served: those of a die's cores, or those of the hub die (R380). -/
def servePage (s : State) (ctx vp : Nat) (v : Verdict) (die : Option (Fin 4)) : State :=
  let s1 := { s with blocks := s.blocks.map (serveBlock ctx vp v die) }
  let s2 := if v = .fatal then fatalAll ctx vp die s1 else s1
  if die.isSome then s2
  else
    let s3 := s2.queues.foldl (serveQueue ctx vp v) s2
    serveHeld ctx vp v ((List.range s3.nodes.length).foldl (serveNode ctx vp v) s3)

/-- The gangs that are to enter their continuation with a record once it is written (R382, R397). -/
def enterWith (s : State) (r : RingRec) (n : Nat) : State :=
  let gs := s.blocks.zipIdx.flatMap fun x =>
    if some (dieOf x.1.core) != r.die then []
    else x.1.warps.zipIdx.flatMap fun y => y.1.gangs.map fun g => Party.gang x.2 y.2 g.gid
  gs.foldl (fun t p =>
    match gangOf t p with
    | none => t
    | some k =>
      match k.g.wait with
      | .ring c va lane ea => if c = r.ctx && pageBase va = r.vpage then enterCont t k n lane va ea else t
      | _ => t) s

/-- The records that wait for a slot are written in order, as far as slots are free (R382). -/
def fillRing (ctx : Fin 64) : Nat → State → State
  | 0, s => s
  | fuel + 1, s =>
    match s.ring.find? fun r => r.ctx = ctx.val && r.n.isNone with
    | none => s
    | some r =>
      let n := memNat s.mem s.ctxs[ctx].fring.toNat 8
      if slotHeld s ctx n then s
      else
        let t := writeRing s ctx n r.vpage r.kind
        let u := { t with ring := t.ring.map fun x => if x = r then { x with n := some n } else x }
        fillRing ctx fuel (enterWith u r n)

/-- FAULT_SERVICE: the STATUS of ring record n of a context is read; 1 replays the accesses that wait for its page, any
other value but 0 is fatal for them (R380, R382; log 57, DEDUCED). Records that waited for its slot are written. -/
def execFaultService (ctx n : Nat) (s : State) : Out1 :=
  match s.ring.find? fun r => r.ctx = ctx && r.n = some n with
  | none => .fault .noParty
  | some r =>
    let c : Fin 64 := Fin.ofNat 64 ctx
    let st := memNat s.mem (ringAddr s c n + 24) 8
    if st = 0 then .next s
    else
      let s1 := fillRing c s.ring.length { s with ring := s.ring.filter (· != r) }
      .next (servePage s1 ctx r.vpage (if st = 1 then .replay else .fatal) r.die)

/-! ## Shootdowns (R383) -/

/-- The request that a session's shootdown registers hold, unless it is refused (R383). -/
def shootOf (s : State) (i : Fin 16) : Option Shoot :=
  let w := s.sessions[i].sdWords
  let e := w[0].toNat + w[1].toNat * 2 ^ 64 + w[2].toNat * 2 ^ 128 + w[3].toNat * 2 ^ 192
  let ctx : Fin 64 := Fin.ofNat 64 (bitsOf e 64 6)
  if bitsOf e 70 2 != 0 || bitsOf e 56 8 != 0 || bitsOf e 72 56 % 16 != 0 || !s.ctxs[ctx].valid || s.sessions[i].sdBusy then
    none
  else
    some { session := some i, own := false, ctx := ctx, vbase := bitsOf e 16 40 * 65536, npages := bitsOf e 0 16 + 1,
           pteAddr := bitsOf e 72 56, newPte := BitVec.ofNat 128 (e / 2 ^ 128) }

/-- A session updated. -/
def modSession (s : State) (i : Fin 16) (f : Session → Session) : State :=
  { s with sessions := s.sessions.set i (f s.sessions[i]) }

/-- The session's shootdown request is submitted, or refused at once (R383). -/
def submitShoot (s : State) (i : Fin 16) : State :=
  match shootOf s i with
  | none => modSession s i fun x => { x with sdDone := x.sdDone + 1, sdResult := 1 }
  | some sh => { modSession s i (fun x => { x with sdBusy := true }) with shoots := s.shoots ++ [sh] }

/-- Run a request in an open session; one outside a session is dropped and counted (R440, R445; log 84, DEDUCED). -/
def inSession (s : State) (session : Nat) (f : Fin 16 → State) : Out1 :=
  let i : Fin 16 := Fin.ofNat 16 session
  if s.boot = .up && session < 16 && s.sessions[i].isOpen && s.sessions[i].finished then .next (f i)
  else .next (logErr s (errEvent .session i.val 6 0 0xFF 0 0))

/-- The response to a write. -/
def mgmtAnswer (r : State × Bool) : State := answer r.1 (if r.2 then .mgmtOk else .mgmtErr)

/-- SDGO (R383, R448). -/
def execSdgo (session : Nat) (s : State) : Out1 := inSession s session fun i => mgmtAnswer (submitShoot s i, true)

/-- Where the leaf entry of an address lies, with the entry and the bytes that it maps (R376). -/
def entryOf (m : Mem) (va : Nat) : List Lvl → Nat → Option (Nat × Nat × Nat)
  | [], _ => none
  | l :: r, table =>
    let a := table + 16 * bitsOf va l.lo l.bits
    let e := memNat m a 16
    if e % 2 = 0 || pteBad l e then none
    else if bitsOf e 1 1 = 1 then some (a, e, l.page)
    else entryOf m va r (pteAddr e)

/-- Whether a page of a context lies in the range of a shootdown. -/
def Shoot.covers (sh : Shoot) (ctx va : Nat) : Bool := ctx = sh.ctx.val && sh.vbase ≤ va && va < sh.vbase + 65536 * sh.npages

/-- Whether a page of the range of a request is migrating, or is part of one that is (R383). -/
def shootBlocked (s : State) (sh : Shoot) : Bool :=
  !sh.own && s.migs.any fun m => m.ctx = sh.ctx && m.va < sh.vbase + 65536 * sh.npages && sh.vbase < m.va + m.len

/-- The request that is served next: the first, or, where it waits for a migration, the next step of a migration (R383;
log 64, DEDUCED). -/
def nextShoot (s : State) : Option Shoot :=
  match s.shoots with
  | [] => none
  | sh :: _ => if shootBlocked s sh then s.shoots.find? (·.own) else some sh

/-- Whether a cached translation covers a page of the range. -/
def Shoot.hits (sh : Shoot) (t : TlbEnt) : Bool :=
  t.ctx = sh.ctx.val && t.va < sh.vbase + 65536 * sh.npages && sh.vbase < t.va + t.len

/-- Whether a migration holds a lane's, or the helm's, part of a pending result (R385). -/
def pendHeld (s : State) (id : Nat) (lane : Option Nat) : Bool :=
  s.fabOps.any fun o => o.held && match o.why with
    | .load _ _ i l => i = id && some l = lane
    | .helmLoad _ i => i = id && lane.isNone
    | _ => false

/-- Whether an access that a block issued through the range is still to be performed; one that a migration holds does not count
(R383, R385; log 65, DEDUCED). -/
def accessOpen (s : State) (sh : Shoot) (x : Block × Nat) : Bool :=
  x.1.ctx = sh.ctx &&
  ((x.1.warps.any fun wp => wp.pend.any fun p => p.accs.any fun a => sh.covers sh.ctx.val a.ea && !pendHeld s p.id (some a.lane)) ||
   (x.1.helm.pend.any fun p => sh.covers sh.ctx.val p.acc.ea && !pendHeld s p.id none) ||
   (x.1.buffer.any fun a => sh.covers sh.ctx.val a.ea) ||
   s.fabOps.any fun o => !o.held && match o.why with | .store p _ _ _ => partyBlock p = x.2 | .row b _ _ _ => b = x.2 | _ => false)

/-- A watch of the range translates again: a WAITA with no lane satisfied, and a CWAIT, issue again, the WAITA resuming from
its blocking point (R421); a WAITA with some
lane satisfied keeps what its lanes have received (R148, R383; log 66, DEDUCED). -/
def rewatch (s : State) (sh : Shoot) (blk : Block) : Block :=
  if blk.ctx != sh.ctx then blk
  else
    let again (w : WaitLane) : WaitLane :=
      if !sh.covers sh.ctx.val w.ea then w
      else
        match checkAcc s none blk.ctx .watch false .b8 w.ea with
        | .ok c => { w with loc := c.acc.loc }
        | .error _ => w
    { blk with
      warps := blk.warps.map fun wp => settle { wp with gangs := wp.gangs.map fun g => match g.wait with
        | .waita d m ls cmp size uni =>
          if !(ls.any fun w => sh.covers sh.ctx.val w.ea) then g
          else if ls.all fun w => w.got.isNone && !w.bad then
            { g with wait := .none, replay := true, takes := [], reach := [], wd := 0 }
          else { g with wait := .waita d m (ls.map again) cmp size uni }
        | _ => g }
      ctxs := blk.ctxs.map fun e => { e with stream := e.stream.map fun st => match st.wait with
        | .sig _ _ _ => { st with wait := .none }
        | _ => st } }

/-- Step 2 to 4 of a shootdown: translations of the range are dropped and the entry is written (R383). -/
def shootDown (s : State) (sh : Shoot) : State :=
  let drop (l : List TlbEnt) : List TlbEnt := l.filter fun t => !sh.hits t
  let s0 := if sh.pteAddr = 0 then s else writeOwn s sh.pteAddr (leBytes 16 sh.newPte.toNat)
  let s1 := { s0 with
    cores := s0.cores.map fun (c : Core) => { c with tlb := drop c.tlb }
    dieTlb := s0.dieTlb.map drop }
  { s1 with blocks := s1.blocks.map fun blk => rewatch s1 sh blk }

/-- Accesses that were held come next, in the order in which they arrived (R385, R435). -/
def releaseHeld (s : State) (mine : Nat → Nat → Bool) : State :=
  { s with
    agenda := ((s.migHeld.filter fun h => mine h.1 h.2.1).map fun h => Move.resume h.1 h.2.1 h.2.2) ++ s.agenda
    migHeld := s.migHeld.filter fun h => !mine h.1 h.2.1 }

/-- Whether an address lies in the page of a migration. -/
def Mig.covers (m : Mig) (ctx va : Nat) : Bool := m.ctx.val = ctx && m.va ≤ va && va < m.va + m.len

/-- The frames of the staging pool after a migration has ended: one that the page has left, or that it has not reached, is free
(R360, R385). -/
def freeFrames (s : State) (m : Mig) (e : BitVec 128) : State :=
  { s with staged := s.staged.filter fun x => !(x.ctx = m.ctx && x.va = m.va) ||
      (bitsOf e.toNat 5 1 = 0 && pteAddr e.toNat = x.frame) }

/-- Whether an access to an address is held by the entry of a migration: the page itself, or another page that the same entry
maps (R386). -/
def Mig.holds (s : State) (m : Mig) (ctx va : Nat) : Bool :=
  m.covers ctx va || ((entryOf s.mem va levels s.ctxs[Fin.ofNat 64 ctx].root.toNat).map (·.1)) = some m.pteAddr

/-- What the end of a migration's shootdown brings: step 1 sets MIG; step 3 ends the migration, and the held writes are
performed (R385). -/
def migStep (s : State) (sh : Shoot) : State :=
  match s.migs.find? fun m => m.ctx = sh.ctx && m.va = sh.vbase && m.copied with
  | none => s
  | some m => releaseHeld (freeFrames { s with migs := s.migs.filter (· != m) } m sh.newPte) (m.holds s)

/-- SHOOTDOWN_COMPLETE: every core has acknowledged; the entry is written and SDSTAT reports (R383). -/
def execShootdownComplete (s : State) : Out1 :=
  match nextShoot s with
  | none => .fault .noParty
  | some sh =>
    if s.blocks.zipIdx.any (accessOpen s sh) then .next s
    else
      let s1 := { shootDown s sh with shoots := s.shoots.erase sh }
      if sh.own then .next (migStep s1 sh)
      else
        match sh.session with
        | some i => .next (modSession s1 i fun x => { x with sdBusy := false, sdDone := x.sdDone + 1, sdResult := 0 })
        | none => .next s1

/-! ## Migration (R384 to R386) -/

/-- Bytes of the frame of a page (R248). -/
def frameLen (s : State) (ctx : Fin 64) (e len : Nat) : Nat :=
  if bitsOf e 8 6 = 0 then len
  else match fmtEnt s ctx (bitsOf e 8 6) with | some f => frameSize f.fmt | none => len

/-- Whether an open cell lies in a range of device memory. -/
def cellIn (s : State) (a n : Nat) : Bool :=
  s.cells.any fun c => match c.loc with | .dev x => a ≤ x && x < a + n | _ => false

/-- A migration of a page begins with the shootdown that sets MIG (R385). -/
def beginMig (s : State) (r : MigReq) (a e len dst : Nat) : State :=
  let vp := r.va / len * len
  let keep := bitsOf e 8 6 * 256 + bitsOf e 0 5
  let new := keep + (if r.tier then 32 + r.ep % 256 * 2 ^ 16 else 0) + dst % 2 ^ 56 * 2 ^ 64
  { s with
    migs := s.migs ++ [{ ctx := r.ctx, va := vp, len := len, pteAddr := a, oldPte := BitVec.ofNat 128 e,
                         newPte := BitVec.ofNat 128 new, copied := false, hint := r.hint }]
    shoots := s.shoots ++ [{ session := none, own := true, ctx := r.ctx, vbase := vp, npages := len / 65536, pteAddr := a,
                             newPte := BitVec.ofNat 128 (e ||| 64) }] }

/-- The staging pool's least recently accessed page, of those that no migration moves. -/
def leastUsed (s : State) : Option Staged :=
  (s.staged.filter fun x => !(s.migs.any fun m => m.covers x.ctx.val x.va)).foldl
    (fun o x => match o with | none => some x | some y => if x.last < y.last then some x else some y) none

/-- The runs of frames of the staging pool that a page of len bytes can take, by address (R384; log 13, DESIGN CHOICE). -/
def stagingRuns (len : Nat) : List Nat :=
  (Config.staging.map (· * 65536)).filter fun a =>
    a % len = 0 && (List.range (len / 65536)).all fun i => Config.staging.contains (a / 65536 + i)

/-- A free run of the staging pool. -/
def freeRun (s : State) (len : Nat) : Option Nat :=
  (stagingRuns len).find? fun a => !s.staged.any fun x => x.frame < a + len && a < x.frame + x.len

/-- A frame of the staging pool that a page moves to is in use (R360, R384). -/
def noteStaged (s : State) (r : MigReq) (e len dst : Nat) : State :=
  if r.tier || !Config.staging.contains (dst / 65536) then s
  else { s with staged := s.staged ++ [{ frame := dst, ctx := r.ctx, va := r.va / len * len, len := len,
                                         home := BitVec.ofNat 128 e, last := s.tick }] }

/-- The pool gives up its least recently accessed page, which moves back to where it came from (R360). -/
def giveUp (s : State) : State :=
  match leastUsed s with
  | none => s
  | some x =>
    match entryOf s.mem x.va levels s.ctxs[x.ctx].root.toNat with
    | none => s
    | some (a, e, len) =>
      let o := x.home.toNat
      if cellIn s x.frame x.len then s
      else beginMig s { ctx := x.ctx, va := x.va, tier := bitsOf o 5 1 = 1, ep := bitsOf o 16 8, dst := none, hint := none } a e len
        (pteAddr o)

/-- Whether the pool is giving up a page. -/
def givingUp (s : State) : Bool := s.migs.any fun m => s.staged.any fun x => m.covers x.ctx.val x.va && x.frame != pteAddr m.newPte.toNat

/-- What a request for a migration comes to: it begins; it waits, for the cells of the page or for room in the pool; or it is
ignored, of a page that is not mapped, that is migrating, or for which the pool has no run of frames (R360, R384, R385; log 13,
DESIGN CHOICE). -/
def tryMig (s : State) (r : MigReq) : State :=
  let wait (t : State) : State := { t with migWait := t.migWait ++ [r] }
  if inSpan r.va || !s.ctxs[r.ctx].valid || s.migs.any (fun m => m.covers r.ctx.val r.va) then s
  else
    match entryOf s.mem r.va levels s.ctxs[r.ctx].root.toNat with
    | none => s
    | some (a, e, len) =>
      if bitsOf e 5 1 = 0 && cellIn s (pteAddr e) (frameLen s r.ctx e len) then wait s
      else
        match r.dst with
        | some dst => noteStaged (beginMig s r a e len dst) r e len dst
        | none =>
          match freeRun s len with
          | some dst => noteStaged (beginMig s r a e len dst) r e len dst
          | none =>
            if (stagingRuns len).isEmpty then s
            else if givingUp s then wait s
            else wait (giveUp s)

/-- Whether a request of the page already waits. -/
def migWaits (s : State) (r : MigReq) : Bool := s.migWait.any fun x => x.ctx = r.ctx && pageBase x.va = pageBase r.va

/-- A request for a migration (R384). -/
def askMig (s : State) (r : MigReq) : State := if migWaits s r then s else tryMig s r

/-- The requests that wait are tried again, in order (R360, R384). -/
def settleMigs (s : State) : State := s.migWait.foldl tryMig { s with migWait := [] }

/-- MIGRATION_REQUEST: the page of an address moves to a frame of a tier (R384, R385). -/
def execMigrationRequest (ctx va : Nat) (tier : Bool) (ep : BitVec 8) (dst : Nat) (s : State) : Out1 :=
  .next (askMig s { ctx := Fin.ofNat 64 ctx, va := va, tier := tier, ep := ep.toNat, dst := some dst, hint := none })

/-- Lines of a frame take version 0 (R384). -/
def clearVersions (m : Mem) (a n : Nat) : Mem := m.filter fun x => !(a / 128 ≤ x.1 && x.1 < (a + n) / 128)

/-- Granules of a frame are sound. -/
def clearPoison (l : List Nat) (a n : Nat) : List Nat := l.filter fun g => !(a / 32 ≤ g && g < (a + n) / 32)

/-- The frame's bytes copied (R384, R385): those of fabric memory are free (log 14, DESIGN CHOICE). -/
def copyFrame (s : State) (m : Mig) : State :=
  let o := m.oldPte.toNat
  let e := m.newPte.toNat
  let n := frameLen s m.ctx o m.len
  let bytes : List Byte :=
    if bitsOf o 5 1 = 1 then (List.range n).map fun i => Config.remote (bitsOf o 16 8) (pteAddr o + i) s.tick
    else memRead s.mem (pteAddr o) n
  let s1 := if bitsOf o 5 1 = 0 then { s with lineVer := clearVersions s.lineVer (pteAddr o) n } else s
  if bitsOf e 5 1 = 1 then s1
  else
    { s1 with
      mem := memWrite s1.mem (pteAddr e) bytes
      lineVer := clearVersions s1.lineVer (pteAddr e) n
      badGranules := clearPoison s1.badGranules (pteAddr e) n }

/-- MIGRATION_COPY_DONE: the copy of migration i is complete, and the shootdown that maps the destination is requested; one
that failed, or that met uncorrectable data, maps the source again (R385). -/
def execMigrationCopyDone (i : Nat) (ok : Bool) (s : State) : Out1 :=
  match s.migs[i]? with
  | none => .fault .noParty
  | some m =>
    if m.copied || s.shoots.any fun sh => sh.own && sh.ctx = m.ctx && sh.vbase = m.va then .next s
    else
      let o := m.oldPte.toNat
      let bad := bitsOf o 5 1 = 0 && poisonAt s (.dev (pteAddr o)) (frameLen s m.ctx o m.len)
      let good := ok && !bad
      let s1 := if good then copyFrame s m else s
      .next { s1 with
        migs := s1.migs.map fun x => if x = m then { x with copied := true } else x
        shoots := s1.shoots ++ [{ session := none, own := true, ctx := m.ctx, vbase := m.va, npages := m.len / 65536, pteAddr := m.pteAddr,
                                  newPte := if good then m.newPte else m.oldPte }] }

/-! ## Adapter prefetch (R320, R346, R360) -/

/-- The pages of n element addresses from va on. -/
def pagesOf (va n : Nat) : List Nat :=
  if n = 0 then [] else (List.range ((va + n - 1) / 65536 + 1 - va / 65536)).map fun i => (va / 65536 + i) * 65536

/-- A page that lies in fabric memory is requested into the staging pool (R360). -/
def prefetchPage (ctx : Fin 64) (ea : Nat) (s : State) (vp : Nat) : State :=
  match leafOf s none ctx vp with
  | .leaf t =>
    if bitsOf t.pte.toNat 5 1 = 1 then
      askMig s { ctx := ctx, va := vp, tier := false, ep := 0, dst := none, hint := some ea }
    else s
  | _ => s

/-- Hinted entries in progress (R360). -/
def hintsOpen (s : State) : Nat :=
  ((s.migs.filterMap (fun m => m.hint.map fun h => (m.ctx, h)) ++
    s.migWait.filterMap fun r => r.hint.map fun h => (r.ctx, h)).eraseDups).length

/-- ADAPTER_PREFETCH: hint h of packet n of a queue, a NODE or GRAPH not yet started, is acted on; one that names no usable
entry is ignored (R346, R360). -/
def execAdapterPrefetch (qid n h : Nat) (s : State) : Out1 :=
  match getQueue s qid with
  | none => .fault .noParty
  | some q =>
    if !q.resident || n < q.next || n ≥ q.observed || n ≥ q.next + 64 || hintsOpen s ≥ 256 then .next s
    else
      match hubRead s q.ctx none (q.ring + 64 * (n % 2 ^ q.sizelog)) 64 with
      | .bad | .wait _ _ _ => .next s
      | .ok bs =>
        let p := leNat bs
        if (pkType p != 1 && pkType p != 2) || bitsOf p 12 4 ≤ h || bitsOf p 12 4 > 4 then .next s
        else
          let ea := (pkB p 48 8 + 64 * pkB p (56 + 2 * h) 2) % 2 ^ 56
          match auxBytes s none q.ctx .load 64 ea with
          | .error _ => .next s
          | .ok bytes =>
            match adapterEnt bytes with
            | none => .next s
            | some en =>
              let pages := pagesOf en.abase (en.rank * en.ald) ++ pagesOf en.bbase (128 * en.bld)
              .next (pages.eraseDups.foldl (prefetchPage q.ctx ea) s)

end Sys2Proof.Machine
end

