-- ==== Sys2Proof/Machine/Service.lean ====
section
/-!
DEFINITION. Errors and repair in service (R432 to R437), the current arbiter (R446, R447), and the measured boot (R445).
-/
namespace Sys2Proof.Machine

open Sys2Proof

/-! ## Patrol scrub (R432, R433) -/

/-- PATROL_SCRUB: a scrub reads a granule. A correctable error is logged and its write-back comes due; an uncorrectable one
marks the granule poisoned and is logged; either counts against the channel (R432, R434, R449). -/
def execPatrolScrub (pa : Nat) (found : ScrubFound) (s : State) : Out1 :=
  let ev (kind : Nat) : ErrEvent := hbmEvent kind pa 0
  match found with
  | .clean => .next s
  | .corrected =>
    let s1 := countChannel (logErr s (ev 0)) pa true
    .next { s1 with scrubs := { granule := pa / 32, dropped := false } :: s1.scrubs.filter (·.granule != pa / 32) }
  | .bad => .next (countChannel (poisonGranule (logErr s (ev 2)) (pa / 32)) pa false)

/-- SCRUB_WRITE_BACK: corrected data are written back, or the write-back was dropped for a demand write; either leaves the
granule's bytes, its version and its poison as they are (R432, R433). -/
def execScrubWriteBack (pa : Nat) (s : State) : Out1 :=
  .next { s with scrubs := s.scrubs.filter (·.granule != pa / 32) }

/-! ## Channels (R434) -/

/-- CHANNEL_RETIRE: a channel, or the spare that serves its range, begins to be copied into a spare; with no spare left the
retirement is refused and the stack is reported as degraded (R434; log 92, DESIGN CHOICE). -/
def execChannelRetire (stack : Fin 8) (ch : Fin 32) (s : State) : Out1 :=
  let k := s.hbmStacks[stack]
  let k0 : Stack := { k with due := k.due.filter (· != ch) }
  if k.copying.contains ch then .next { s with hbmStacks := s.hbmStacks.set stack k0 }
  else if k.spares = 0 then .next { s with hbmStacks := s.hbmStacks.set stack { k0 with degraded := true } }
  else
    let s1 := logErr s (errEvent .hbm stack.val 3 0 ch.val 0 0)
    let k1 : Stack := { k0 with spares := k.spares - 1, copying := k.copying ++ [ch], errors := k.errors.set ch 0 }
    .next { s1 with hbmStacks := s1.hbmStacks.set stack k1 }

/-- CHANNEL_COPY_COMPLETE: every access of the range goes to the spare; no byte and no version changes (R434). -/
def execChannelCopyComplete (stack : Fin 8) (ch : Fin 32) (s : State) : Out1 :=
  let k := s.hbmStacks[stack]
  if !k.copying.contains ch then .next s
  else
    let k1 : Stack := { k with copying := k.copying.filter (· != ch), retired := k.retired.filter (· != ch) ++ [ch] }
    .next { s with hbmStacks := s.hbmStacks.set stack k1 }

/-! ## Spare cores (R435) -/

/-- SPARE_TAKEOVER: a spare of the die is to take over a logical core: no further block is released there, and once its
blocks have left the copy of its span slice begins (R435; log 76, DEDUCED). -/
def execSpareTakeover (c : Fin 256) (s : State) : Out1 :=
  let k := s.cores[c]
  match k.takeover with
  | some _ => if (blocksOn s c).isEmpty then .next (modCore s c fun x => { x with copying := true }) else .next s
  | none =>
    match s.spares[dieOf c] with
    | [] => .next s
    | sp :: r =>
      let s1 := { s with spares := s.spares.set (dieOf c) r }
      .next (modCore s1 c fun x => { x with takeover := some sp, copying := (blocksOn s c).isEmpty })

/-- SPAN_SLICE_COPY_COMPLETE: the spare answers to the logical core, with the same span addresses; measurement 4 is
replaced; the accesses that were held go on (R242, R435, R445; log 75, DESIGN CHOICE). -/
def execSpanSliceCopyComplete (c : Fin 256) (s : State) : Out1 :=
  let k := s.cores[c]
  match k.takeover with
  | none => .next s
  | some sp =>
    if !k.copying then .next s
    else
      let s1 := logErr s (errEvent .regs c.val 5 0 0xFF 0 0)
      let s2 := modCore s1 c fun _ => { Core.reset with phys := sp + 1 }
      let s3 := { s2 with measures := s2.measures.set 3 (Config.digest s.tick) }
      .next (releaseHeld s3 fun _ vp => inSpan vp && (vp - Config.spanBase) / Config.spanSlice = c.val)

/-- SPAN_RANGE_CLEARED: the range freed at an offset of the window reads as zero and becomes free; a cell still open on a word of
it goes with it (R244; log 111, DESIGN CHOICE). -/
def execSpanRangeCleared (base : Nat) (s : State) : Out1 :=
  match s.spanRanges.find? fun r => r.off = base && r.clearing with
  | none => .next s
  | some r =>
    let inside (a : Nat) : Bool := r.off ≤ a && a < r.off + r.len
    .next { s with
      span := s.span.filter fun x => !inside x.1
      badSpan := s.badSpan.filter fun w => !inside (8 * w)
      cells := s.cells.filter fun c => match c.loc with | .span o => !inside o | _ => true
      spanRanges := s.spanRanges.filter (· != r) }

/-! ## Firmware and calibration (R436, R437, R445) -/

/-- Bytes of a firmware bank (R436). -/
def bankSize : Nat := 131072

/-- The tightly coupled memory once an image is written into a bank. -/
def loadBank (m : Mem) (b : Fin 2) (bytes : List Byte) : Mem :=
  memWrite (m.filter fun x => x.1 / bankSize != b.val) (bankSize * b.val) (bytes.take bankSize)

/-- FIRMWARE_REPLACEMENT: a session's image is written into the idle bank; one that verifies takes over, and replaces
measurement 2 (R436, R440, R445). Queues go on at their first packet not yet started. -/
def execFirmwareReplacement (image : FwImage) (ok : Bool) (s : State) : Out1 :=
  inSession s image.session fun _ =>
    let idle : Fin 2 := 1 - s.bank
    let s1 := { s with banks := s.banks.set idle (image.digest, ok), tcm := loadBank s.tcm idle image.bytes }
    if ok then { s1 with bank := idle, measures := s1.measures.set 1 image.digest } else s1

/-- Every path that is calibrated (R434, R437). -/
def calPaths : List CalPath :=
  (List.finRange 8).map .hbm ++ (List.finRange 16).map .viaduct ++ (List.finRange 16).map .port

/-- Calibration tables loaded through the management path replace measurement 3, and take effect on each path at its next
step (R437, R445). -/
def loadCalibration (session : Nat) (tables : BitVec 256) (s : State) : Out1 :=
  inSession s session fun _ => { s with measures := s.measures.set 2 tables, calWait := calPaths }

/-- RECALIBRATION: traffic on a path is held, which changes only time, and the tables loaded last are in effect on it
(R437). -/
def execRecalibration (p : CalPath) (s : State) : Out1 := .next { s with calWait := s.calWait.filter (· != p) }

/-! ## The arbiter (R446, R447) -/

/-- ARBITER_EPOCH: every matrix request that waits is granted whole, in arrival order, the budget is divided again beside the
grants, and DRAW is measured. Only time changes (R5, R294, R446, R447; log 12, DESIGN CHOICE). -/
def execArbiterEpoch (s : State) : Out1 :=
  let s1 := s.matrixReqs.foldl giveGrant s
  .next { divide s1 (Config.vgrant s.tick).toNat (Config.hgrant s.tick).toNat with
    epochs := s.epochs + 1, draw := Config.draw s.tick }

/-! ## Boot (R445) -/

/-- Mesh hops from the stop of logical id c to corner k: (0, 0), (7, 0), (0, 7), (7, 7) (R276). -/
def hopsTo (c k : Nat) : Nat :=
  let far (x : Nat) (isFar : Bool) : Nat := if isFar then 7 - x else x
  far (c % 8) (k % 2 = 1) + far (c % 64 / 8) (k / 2 = 1)

/-- The nearest of some spares to a logical id, the lower-numbered of two (R276; log 107, DESIGN CHOICE). -/
def nearestSpare (c : Nat) (ks : List Nat) : Option Nat :=
  ks.foldl (fun a k => match a with
    | none => some k
    | some x => if hopsTo c k < hopsTo c x then some k else some x) none

/-- A core that fails its boot test gives its logical id to the nearest spare of its die that is left (R276, R445; log 107,
DESIGN CHOICE); no event is logged at the boot (log 75, DESIGN CHOICE). -/
def testCore (s : State) (c : Fin 256) : State :=
  if !Config.coreFails c.val then s
  else
    match nearestSpare c.val s.spares[dieOf c] with
    | none => s
    | some k =>
      modCore { s with spares := s.spares.set (dieOf c) (s.spares[dieOf c].filter (· != k)) } c fun x =>
        { x with phys := k + 1 }

/-- POWER_ON: the ROM verifies bank 0, then bank 1; the part comes up with its cores tested and every measurement taken, or
stops with only the management endpoint answering (R445). -/
def execPowerOn (s : State) : Out1 :=
  match s.boot with
  | .off =>
    let start (b : Fin 2) : State :=
      { (List.finRange 256).foldl testCore s with
        boot := .up
        bank := b
        measures := Vector.ofFn fun i : Fin 5 => if i = 1 then s.banks[b].1 else Config.digest i.val }
    if s.banks[(0 : Fin 2)].2 then .next (start 0)
    else if s.banks[(1 : Fin 2)].2 then .next (start 1)
    else .next { s with boot := .stopped, measures := s.measures.set 0 (Config.digest 0) }
  | _ => .next s

end Sys2Proof.Machine
end

