-- ==== Sys2Proof/Machine/Manage.lean ====
section
/-!
DEFINITION. The management path: interface instances that leave RUN (R441, R444), the general request block (R329, R405,
R406, R450), and the management space (R375, R387, R403, R415, R438, R440, R443, R447, R448, R454).
-/
namespace Sys2Proof.Machine

open Sys2Proof

/-! ## Leaving RUN (R441, R444) -/

/-- Whether an instance's configuration is locked. -/
def ctxLocked (s : State) (n : Fin 64) : Bool := s.ctxs[n].inst = .locked || s.ctxs[n].inst = .run

/-- Every packet of a context that has not retired is to retire aborted with code 0x07, its record and its signal written as such
(R340, R442, R444). -/
def abortPackets (s : State) (n : Fin 64) : State :=
  { s with queues := s.queues.map fun (q : Queue) =>
    if q.ctx != n then q
    else { q with stalled := none, part := none, flights := q.flights.map fun (f : Flight) =>
      if f.retired then f else { f with abort := 0x07, stalled := none, fatal := none, stage := .record } } }

/-- Whether a node has not completed or ended. -/
def nodeLive (nd : Node) : Bool := nd.status = .ready || nd.status = .waiting

/-- Every node of a context ends with ABORTED, cause 1 (R419, R444). -/
def abortNodes (s : State) (n : Fin 64) : State :=
  (List.range s.nodes.length).foldl (fun t i => match t.nodes[i]? with
    | none => t
    | some nd => if nd.ctx = n && nodeLive nd then offer t (.helm 0) false (nodeFault i (raise .aborted none 1)) else t) s

/-- Whether a fabric operation in flight belongs to a context's work and not to the retirement of a packet. -/
def dropsFab (s : State) (n : Fin 64) (o : FabOp) : Bool :=
  let ofBlock (b : Nat) : Bool := ((s.blocks[b]?).map (·.ctx)) = some n
  match o.why with
  | .load b _ _ _ | .helmLoad b _ | .cwait b _ | .row b _ _ _ => ofBlock b
  | .waita p | .store p _ _ _ => ofBlock (partyBlock p)
  | .copyPacket q _ | .barrier q _ _ | .signalOp q _ => ((getQueue s q).map (·.ctx)) = some n
  | .copyNode m => ((s.nodes[m]?).map (·.ctx)) = some n
  | .record _ _ | .signal _ _ => false
  | .incoming _ _ => match o.loc with | .fab c _ _ => c = n.val | _ => false

/-- The granules of a region. -/
def regionGranules (r : Region) : List Nat :=
  if r.valid then (List.range (r.len.toNat / 32)).map (r.base.toNat / 32 + ·) else []

/-- Whether every packet of a context's queues has retired, those in the rings too (R444). -/
def ctxDrained (s : State) (n : Fin 64) : Bool :=
  s.queues.all fun q => q.ctx != n || (q.flights.all (·.retired) && !toStart s q)

/-- Steps 4 to 6 of leaving RUN: what is in flight is dropped, the keys are destroyed, and the regions of an instance that was in
RUN are poisoned (R444; log 86, DEDUCED; log 87, DEDUCED). -/
def dropWork (s : State) (n : Fin 64) : State :=
  let isReq (h : Held) : Bool := match h with | .req _ => true | _ => false
  let sent := (s.fabOps.filter (dropsFab s n)).filterMap fun o => match o.why with | .incoming m _ => some m | _ => none
  let lost := sent.eraseDups.length + (s.held.filter (·.ctx = n.val)).length + (s.migHeld.filter fun x => x.1 = n.val && isReq x.2.2).length
  let s2 := { s with
    fabOps := s.fabOps.filter fun o => !dropsFab s n o
    held := s.held.filter (·.ctx != n.val)
    migHeld := s.migHeld.filter (·.1 != n.val)
    migWait := s.migWait.filter (·.ctx != n)
    cells := s.cells.filter (·.ctx != n)
    blocks := s.blocks.map fun blk => if blk.ctx = n then { blk with buffer := [] } else blk
    out := s.out ++ List.replicate lost Out.rmaErr }
  let s3 := modCtx s2 n fun c => { c with keys := [] }
  if s.ctxs[n].inst = .run then
    (s.ctxs[n].regions.toList.flatMap regionGranules).foldl poisonGranule s3
  else s3

/-- The leaving of RUN comes to its end once every packet of the context has retired: the instance takes its new state, and a
STOP_INTERFACE_REQUEST is answered (R441, R444). -/
def settleLeave (s : State) (n : Fin 64) : State :=
  match s.ctxs[n].leaving with
  | none => s
  | some (st, reply) =>
    if !ctxDrained s n then s
    else
      let s1 := modCtx (dropWork s n) n fun c =>
        { c with inst := st, leaving := none, bound := if st = .unlocked then none else c.bound }
      if reply then answer s1 (.tdisp n st) else s1

/-- An instance leaves RUN, or CONFIG_LOCKED, for a state: its queues start nothing more, its blocks end, and its packets abort
(R441, R444). -/
def leaveRun (s : State) (n : Fin 64) (st : IState) (reply : Bool) : State :=
  settleLeave (abortPackets (abortNodes (modCtx s n fun c => { c with leaving := some (st, reply) }) n) n) n

/-- The instance moves to ERROR (R441). -/
def toError (s : State) (n : Fin 64) : State := leaveRun s n .error false

/-! ## The general request block (R450) -/

/-- Whether a session may make requests about a context (R442). -/
def ctxAdmits (s : State) (n : Fin 64) (i : Option (Fin 16)) : Bool :=
  s.ctxs[n].inst = .unlocked || (i.isSome && s.ctxs[n].bound = i.map (·.val))

/-- The first request completes with a RESULT. -/
def endReq (s : State) (result : BitVec 8) : State :=
  match s.requests with
  | [] => s
  | r :: rest =>
    let s1 := { s with requests := rest }
    match r.session with
    | none => s1
    | some i => modSession s1 i fun x => { x with reqBusy := false, reqDone := x.reqDone + 1, reqResult := result }

/-- Whether a request's code is one of R450. -/
def knownCode (c : BitVec 8) : Bool := 1 ≤ c.toNat && c.toNat ≤ 6

/-- Requests of unknown codes are refused as they come to be served (R450). -/
def refuseUnknown : Nat → State → State
  | 0, s => s
  | fuel + 1, s =>
    match s.requests with
    | r :: _ => if knownCode r.code then s else refuseUnknown fuel (endReq s 1)
    | [] => s

/-- A request completes, and the next one is served. -/
def finishReq (s : State) (result : BitVec 8) : State :=
  refuseUnknown (s.requests.length + 1) (endReq s result)

/-- The first request has begun. -/
def beginReq (s : State) : State :=
  { s with requests := match s.requests with | r :: rest => { r with started := true } :: rest | [] => [] }

/-- Serve the first request if it is of a code. -/
def onReq (s : State) (code : BitVec 8) (f : GenReq → State) : Out1 :=
  match s.requests with
  | r :: _ => if r.code = code then .next (f r) else .next s
  | [] => .next s

/-- The descriptor's fields fail the check of registration (R328, R329). -/
def descBad (e : Nat) : Bool :=
  let sz := bitsOf e 288 5
  bitsOf e 328 184 != 0 || bitsOf e 314 6 != 0 || bitsOf e 310 2 != 0 || bitsOf e 301 3 != 0 || bitsOf e 293 3 != 0 ||
  bitsOf e 296 5 > 23 || sz < 3 || sz > 16 || bitsOf e 64 64 ≥ 2 ^ 56 || bitsOf e 64 64 % 8 != 0 ||
  bitsOf e 0 64 ≥ 2 ^ 56 || bitsOf e 0 64 % (64 * 2 ^ sz) != 0

/-- A queue as its descriptor registers it. -/
def newQueue (qid desc e : Nat) (err : BitVec 8) : Queue :=
  { qid := qid, desc := desc, ctx := Fin.ofNat 64 (bitsOf e 304 6), level := Fin.ofNat 24 (bitsOf e 296 5),
    sizelog := bitsOf e 288 5, quantum := bitsOf e 256 32, ring := bitsOf e 0 64, widx := bitsOf e 64 64, next := 0,
    readIdx := 0, observed := 0, err := err, holding := false, flights := [], resident := false, since := 0, deficit := 0,
    turn := false, selected := none, selectedAt := 0, reserved := [], closing := false, stalled := none, fatal := none }

/-- The fields that the command processor writes at registration (R328). -/
def writeDesc (s : State) (desc : Nat) (err : BitVec 8) : State :=
  let s1 := hubWrite s (desc + 16) (List.replicate 16 0)
  let b := memGet s.mem (desc + 39)
  hubWrite s1 (desc + 39) [if err = 0 then b &&& 0xFD else b &&& 0xFC, err]

/-- REGISTER_QUEUE: request 1 (R328, R329, R450; log 71, DEDUCED). -/
def execRegisterQueue (s : State) : Out1 :=
  onReq s 1 fun r =>
    let desc := r.args[0].toNat
    let qid := r.args[1].toNat
    let e := memNat s.mem desc 64
    let ctx : Fin 64 := Fin.ofNat 64 (bitsOf e 304 6)
    if qid ≥ 4096 || desc % 64 != 0 || desc ≥ 2 ^ 56 || (getQueue s qid).isSome || s.queues.any (·.desc = desc) then
      finishReq s 1
    else if s.queues.length ≥ 4096 then finishReq s 2
    else if !ctxAdmits s ctx r.session then finishReq s 5
    else
      let bad := poisonAt s (.dev desc) 64 || descBad e
      let err : BitVec 8 := if bad then 2 else 0
      let q := newQueue qid desc e err
      let s1 := { writeDesc s desc err with queues := s.queues ++ [q] }
      finishReq (writeBounds s1 q.level) (if bad then 3 else 0)

/-- A barrier that still evaluates retires aborted with code 0x09 (R450). -/
def abortBarrier (f : Flight) : Flight :=
  match f.kind with
  | .barrier _ _ => if f.finished || f.abort != 0 then f else { f with abort := 0x09, stalled := none }
  | _ => f

/-- DEREGISTER_QUEUE: request 2: no further packet is read, and the request completes once every started packet has retired
(R329, R450). -/
def execDeregisterQueue (s : State) : Out1 :=
  onReq s 2 fun r =>
    let qid := r.args[1].toNat
    match getQueue s qid with
    | none => finishReq s (if qid ≥ 4096 then 1 else 4)
    | some q =>
      if !r.started && !ctxAdmits s q.ctx r.session then finishReq s 5
      else
        let s1 := beginReq (modQueue s qid fun x =>
          { x with closing := true, stalled := none, flights := x.flights.map abortBarrier })
        if q.flights.all (·.retired) then
          let s2 := { s1 with queues := s1.queues.filter (·.qid != qid) }
          finishReq (settlePlaces (writeBounds s2 q.level)) 0
        else s1

/-- CTX and directory index of a request about code; none where a reserved bit is set. -/
def codeArgs (r : GenReq) : Option (Fin 64 × Nat) :=
  let a := r.args[0].toNat
  if bitsOf a 6 10 != 0 || bitsOf a 28 36 != 0 then none else some (Fin.ofNat 64 (bitsOf a 0 6), bitsOf a 16 12)

/-- Bytes of a directory entry written by the device, from byte k on. -/
def writeDir (s : State) (ctx : Fin 64) (i k : Nat) (bytes : List Byte) : State :=
  match hubPlace s ctx .load none (s.ctxs[ctx].dirBase.toNat + 32 * i + k) with
  | .ok (.dev a) => hubWrite s a bytes
  | _ => s

/-- MOVE_CODE: request 3: the old base is entered in the forwarding table, and the new one is written into the entry
(R406, R450). -/
def execMoveCode (s : State) : Out1 :=
  onReq s 3 fun r =>
    let old := r.args[1].toNat
    let new := r.args[2].toNat
    match codeArgs r with
    | none => finishReq s 1
    | some (ctx, i) =>
      if old ≥ 2 ^ 56 || new ≥ 2 ^ 56 || old % 64 != 0 || new % 64 != 0 || r.args[3].toNat ≥ 2 ^ 32 then finishReq s 1
      else if (dirEnt s ctx i).isNone then finishReq s 4
      else if !ctxAdmits s ctx r.session then finishReq s 5
      else
        let fw := s.ctxs[ctx].forward
        if fw.length ≥ 256 then finishReq s 2
        else
          let s1 := modCtx s ctx fun c => { c with forward := (old, i) :: fw }
          finishReq (writeDir s1 ctx i 8 (leBytes 7 new)) 0

/-- Whether a party of a block, resident or saved, fetches through a directory entry (R405). -/
def entryInUse (i : Nat) (blk : Block) : Bool :=
  (blk.helmDir = i && (!blk.helm.ended || (List.finRange 4).any fun k => streamRuns blk.ctxs[k])) ||
  blk.warps.any fun wp => !warpEnded wp && wp.dirIdx = i

/-- Whether a recorded request names the version of an entry (R405). -/
def entryRequested (s : State) (ctx : Fin 64) (i : Nat) : Bool :=
  let names (di : Nat) (v : Option (BitVec 16)) : Bool := match v with
    | none => false
    | some x => ((loadedAs s ctx di x.toNat).map (·.1)) = some i
  (s.blocks.any fun blk => blk.ctx = ctx && blockLives blk && blk.warps.any fun wp => !warpEnded wp && (names wp.dirIdx wp.xferReq || names wp.dirIdx wp.xferNext)) ||
  s.nodes.any fun nd => nd.ctx = ctx && nodeLive nd && names nd.dirIdx nd.xfer

/-- RETIRE_VERSION: request 4: once nothing uses the entry, it is no longer valid (R405, R450; log 77, DEDUCED). -/
def execRetireVersion (s : State) : Out1 :=
  onReq s 4 fun r =>
    match codeArgs r with
    | none => finishReq s 1
    | some (ctx, i) =>
      match dirEnt s ctx i with
      | none => finishReq s 4
      | some e =>
        if !e.valid then finishReq s 4
        else if !r.started && !ctxAdmits s ctx r.session then finishReq s 5
        else if (s.blocks.any fun blk => blk.ctx = ctx && blockLives blk && entryInUse i blk) || entryRequested s ctx i then
          beginReq s
        else
          match auxNat s none ctx .load 1 (s.ctxs[ctx].dirBase.toNat + 32 * i + 6) with
          | .ok b => finishReq (writeDir s ctx i 6 [BitVec.ofNat 8 (b / 2 * 2)]) 0
          | .error _ => finishReq s 4

/-- RESET_PORT: request 5: the retired lanes are cleared, and the request completes once the port has retrained (R365,
R450). -/
def execResetPort (s : State) : Out1 :=
  onReq s 5 fun r =>
    let a := r.args[0].toNat
    if a ≥ 16 then finishReq s 1
    else
      let n : Fin 16 := Fin.ofNat 16 a
      if r.started then (if s.ports[n].training then s else finishReq s 0)
      else
        let p : Port := { retired := 0, active := 0, width := 0, retrains := 0, training := true }
        beginReq { s with ports := s.ports.set n p }

/-- END_NODE: request 6: the node ends with ABORTED, cause 0, and the request completes once its packet has retired (R419,
R450). -/
def execEndNode (s : State) : Out1 :=
  onReq s 6 fun r =>
    let a := r.args[0].toNat
    let ctx : Fin 64 := Fin.ofNat 64 (bitsOf a 0 6)
    let qid := bitsOf a 16 12
    let idx := r.args[1].toNat
    if bitsOf a 6 10 != 0 || bitsOf a 28 36 != 0 then finishReq s 1
    else if r.started then
      match findFlight s qid idx with
      | some (_, f) => if f.retired then finishReq s 0 else s
      | none => finishReq s 0
    else
      match startedNode s qid idx, getQueue s qid with
      | some n, some q =>
        if q.ctx != ctx then finishReq s 4
        else if !ctxAdmits s ctx r.session then finishReq s 5
        else beginReq (offer s (.helm 0) false (nodeFault n (raise .aborted none 0)))
      | _, _ => finishReq s 4

/-! ## Registers of the management space (R448) -/

/-- The registers. -/
inductive MReg where
  | devid | pwrbudget | pwrstat
  | portstat (n : Fin 16)
  | level (l : Fin 24)
  | errCount
  | errlog (n : Fin 4096)
  | ctxrec (n : Fin 64)
  | savepool (n : Fin 64)
  | flog (n : Fin 64)
  | codedir (n : Fin 64)
  | legacy (n : Fin 64)
  | errlist (b : Fin 64)
  | ctxmode (n : Fin 64)
  | cellpool (n : Fin 64)
  | region (n : Fin 64) (r : Fin 16)
  | window (i : Fin 1024)
  | sdWord (k : Fin 4)
  | sdgo | sdstat
  | arg (k : Fin 8)
  | reqgo | reqstat
  | dbgresume (n : Fin 64)
  deriving DecidableEq, Repr

/-- The index and byte of an offset within an array of registers. -/
def place (off base stride count width : Nat) : Option (Nat × Nat) :=
  if base ≤ off && off < base + stride * count && (off - base) % stride < width then
    some ((off - base) / stride, (off - base) % stride)
  else none

/-- The register that a byte of the management space belongs to, with the byte's place in it (R448). -/
def regAt (off : Nat) : Option (MReg × Nat) :=
  let arr (base stride count width : Nat) (f : Nat → MReg) : Option (MReg × Nat) :=
    (place off base stride count width).map fun x => (f x.1, x.2)
  (arr 0 4 1 4 fun _ => .devid) <|> (arr 0x10 4 1 4 fun _ => .pwrbudget) <|> (arr 0x14 4 1 4 fun _ => .pwrstat) <|>
  (arr 0x1000 4 16 4 fun n => .portstat (Fin.ofNat 16 n)) <|> (arr 0x2000 4 24 4 fun n => .level (Fin.ofNat 24 n)) <|>
  (arr 0x4FFF8 8 1 8 fun _ => .errCount) <|> (arr 0x50000 16 4096 16 fun n => .errlog (Fin.ofNat 4096 n)) <|>
  (arr 0x10000 32 64 32 fun n => .ctxrec (Fin.ofNat 64 n)) <|> (arr 0x11000 16 64 16 fun n => .savepool (Fin.ofNat 64 n)) <|>
  (arr 0x11400 16 64 16 fun n => .flog (Fin.ofNat 64 n)) <|> (arr 0x11800 16 64 16 fun n => .codedir (Fin.ofNat 64 n)) <|>
  (arr 0x11C00 8 64 8 fun n => .legacy (Fin.ofNat 64 n)) <|> (arr 0x11E00 2 64 2 fun n => .errlist (Fin.ofNat 64 n)) <|>
  (arr 0x12000 4 64 4 fun n => .ctxmode (Fin.ofNat 64 n)) <|> (arr 0x12400 16 64 16 fun n => .cellpool (Fin.ofNat 64 n)) <|>
  (arr 0x13000 16 1024 16 fun n => .region (Fin.ofNat 64 (n / 16)) (Fin.ofNat 16 n)) <|>
  (arr 0x20000 32 1024 32 fun n => .window (Fin.ofNat 1024 n)) <|> (arr 0x30000 8 4 8 fun n => .sdWord (Fin.ofNat 4 n)) <|>
  (arr 0x30020 8 1 8 fun _ => .sdgo) <|> (arr 0x30028 8 1 8 fun _ => .sdstat) <|>
  (arr 0x30100 8 8 8 fun n => .arg (Fin.ofNat 8 n)) <|> (arr 0x30140 8 1 8 fun _ => .reqgo) <|>
  (arr 0x30148 8 1 8 fun _ => .reqstat) <|> (arr 0x40000 128 64 8 fun n => .dbgresume (Fin.ofNat 64 n))

/-- The event that a slot of the log holds (R449). -/
def errAt (s : State) (n : Nat) : Nat :=
  (s.errlog.zipIdx.findSome? fun x => if (s.errCount - 1 - x.2) % 4096 = n then some x.1.toNat else none).getD 0

/-- The 256 bits of a window entry (R371). -/
def windowBits (w : Window) : Nat :=
  let b (x : Bool) : Nat := if x then 1 else 0
  w.job.toNat * 2 ^ 226 + w.pid.toNat * 2 ^ 214 + w.ri.toNat * 2 ^ 202 + w.ctx.val * 2 ^ 196 + b w.wr * 2 ^ 195 +
  b w.rd * 2 ^ 194 + b w.valid * 2 ^ 193 + w.base.toNat * 2 ^ 64 + w.len.toNat

/-- A register's value for a session; one that is WO reads 0 (R448; log 78, DEDUCED). -/
def readMReg (s : State) (i : Fin 16) : MReg → Nat
  | .devid => 0x5A900002 + Config.stepping.toNat * 256
  | .pwrbudget => s.pwrBudget.toNat
  | .pwrstat => s.vgrant.toNat * 2 ^ 24 + min s.matrixReqs.length 4095 * 2 ^ 12 + s.draw.toNat
  | .portstat n =>
    let p := s.ports[n]
    p.retired.toNat * 2 ^ 12 + p.active.toNat * 2 ^ 8 + p.width.toNat * 2 ^ 6 + p.retrains.toNat
  | .level l => s.levels[l].cap.toNat * 2 ^ 8 + s.levels[l].floor.toNat
  | .errCount => s.errCount
  | .errlog n => errAt s n.val
  | .ctxrec n =>
    let c := s.ctxs[n]
    (if c.valid then 2 ^ 255 else 0) + c.frlog.toNat * 2 ^ 248 + c.fring.toNat * 2 ^ 192 + c.eptab.toNat * 2 ^ 128 +
    c.fmttab.toNat * 2 ^ 64 + c.root.toNat
  | .savepool n => s.ctxs[n].poolBase.toNat * 2 ^ 64 + poolUnits s n % 65536 * 2 ^ 16 + s.ctxs[n].poolLen.toNat
  | .flog n => s.ctxs[n].flogBase.toNat * 2 ^ 64 + s.ctxs[n].flogSize.toNat
  | .codedir n => s.ctxs[n].dirCount.toNat * 2 ^ 64 + s.ctxs[n].dirBase.toNat
  | .legacy n => s.ctxs[n].legacy.toNat
  | .errlist b => s.errlist[b].toNat
  | .ctxmode n => (if s.ctxs[n].det then 1 else 0) + (if s.ctxs[n].debug then 2 else 0)
  | .cellpool n => s.ctxs[n].cellBase.toNat * 2 ^ 64 + s.ctxs[n].cellLen.toNat
  | .region n r =>
    let g := s.ctxs[n].regions[r]
    g.base.toNat * 2 ^ 64 + (if g.valid then 2 ^ 40 else 0) + g.len.toNat
  | .window k => windowBits s.windows[k]
  | .sdstat =>
    let x := s.sessions[i]
    x.sdDone.toNat * 2 ^ 32 + x.sdResult.toNat * 2 ^ 8 + (if x.sdBusy then 1 else 0)
  | .reqstat =>
    let x := s.sessions[i]
    x.reqDone.toNat * 2 ^ 32 + x.reqResult.toNat * 2 ^ 8 + (if x.reqBusy then 1 else 0)
  | .sdWord _ | .sdgo | .arg _ | .reqgo | .dbgresume _ => 0

/-- What a register holds before a write: that of one written in parts, though it reads 0. -/
def heldMReg (s : State) (i : Fin 16) : MReg → Nat
  | .sdWord k => s.sessions[i].sdWords[k].toNat
  | .arg k => s.sessions[i].args[k].toNat
  | r => readMReg s i r

/-! ## Writes -/

/-- Whether a block, a packet or a window of a context is in service (R375, R442). -/
def ctxInService (s : State) (n : Fin 64) : Bool :=
  (s.blocks.any fun blk => blk.ctx = n && blk.status != .ended) ||
  (s.queues.any fun q => q.ctx = n && q.flights.any fun f => !f.retired) ||
  s.windows.toList.any fun w => w.valid && w.ctx = n

/-- A number with its low k bits 0 (log 72, DEDUCED). -/
def alignBits (k n : Nat) : Nat := n / 2 ^ k * 2 ^ k

/-- A priority level's entry; a write that R351 refuses changes nothing. -/
def setLevel (s : State) (l : Fin 24) (v : Nat) : State × Bool :=
  let cap := bitsOf v 8 13
  let fl := bitsOf v 0 8
  let others := ((List.finRange 24).filter (· != l)).foldl (fun a k => a + s.levels[k].floor.toNat) 0
  if cap = 0 || cap > 4096 || others + fl > 256 then (s, false)
  else
    let lv : Level := { cap := BitVec.ofNat 13 cap, floor := BitVec.ofNat 8 fl }
    (writeBounds { s with levels := s.levels.set l lv } l, true)

/-- The package budget (R447). -/
def setBudget (s : State) (v : Nat) : State × Bool :=
  let w := v % 4096
  if w < 1200 || w > 2600 then (s, false)
  else
    let t := { s with pwrBudget := BitVec.ofNat 12 w }
    (divide t t.vgrant.toNat t.hgrant.toNat, true)

/-- A gang halted at BKPT goes on at BKPT + 1 (R167). -/
def resumeGang (g : Gang) : Gang :=
  match g.wait with
  | .bkpt => { g with wait := .none, wd := 0, pc := g.pc + 1 }
  | _ => g

/-- Every gang of a context halted at BKPT resumes (R448). -/
def resumeAll (s : State) (n : Fin 64) : State :=
  { s with blocks := s.blocks.map fun blk =>
    if blk.ctx != n then blk
    else { blk with warps := blk.warps.map fun wp => settle { wp with gangs := wp.gangs.map resumeGang } } }

/-- A general request is submitted, under the unknown code 0 where a reserved bit of REQGO is set; one written while the
session's BUSY is 1 is ignored and logged (R450). -/
def submitReq (s : State) (i : Fin 16) (v : Nat) : State :=
  if s.sessions[i].reqBusy then logErr s (errEvent .session i.val 6 0 0xFF 0 0)
  else
    let code : BitVec 8 := if v < 256 then BitVec.ofNat 8 v else 0
    let r : GenReq := { session := some i, code := code, args := s.sessions[i].args, started := false }
    let s1 := modSession s i fun x => { x with reqBusy := true }
    refuseUnknown (s.requests.length + 2) { s1 with requests := s1.requests ++ [r] }

/-- The context whose configuration a register belongs to (R441). -/
def configOf (s : State) : MReg → Option (Fin 64)
  | .ctxrec n | .savepool n | .flog n | .codedir n | .legacy n | .ctxmode n | .cellpool n | .region n _ => some n
  | .window k => some s.windows[k].ctx
  | _ => none

/-- The contexts that a write is a request about: those that a window entry names before and after it (R442; log 82, DEDUCED). -/
def requestsAbout (s : State) (v : Nat) : MReg → List (Fin 64)
  | .window k => [s.windows[k].ctx, Fin.ofNat 64 (bitsOf v 196 6)]
  | _ => []

/-- The window entry that 256 bits give (R371). -/
def windowOfBits (v : Nat) : Window :=
  { job := BitVec.ofNat 24 (bitsOf v 226 24), pid := BitVec.ofNat 12 (bitsOf v 214 12),
    ri := BitVec.ofNat 12 (bitsOf v 202 12), ctx := Fin.ofNat 64 (bitsOf v 196 6), wr := bitsOf v 195 1 = 1,
    rd := bitsOf v 194 1 = 1, valid := bitsOf v 193 1 = 1, base := BitVec.ofNat 56 (bitsOf v 64 56),
    len := BitVec.ofNat 40 (bitsOf v 0 40) }

/-- The bits of a legacy mask whose entries are used (R438). -/
def legacyBits (s : State) (v : Nat) : Word64 :=
  BitVec.ofNat 64 ((List.finRange 64).foldl (fun a b =>
    if s.errlist[b] != 0 && bitsOf v b.val 1 = 1 then a + 2 ^ b.val else a) 0)

/-- A register written whole, for a session; false where the write is refused. Reserved bits are not kept (R448; log 79,
DEDUCED; log 83, DEDUCED). -/
def writeMReg (s : State) (i : Fin 16) (r : MReg) (v : Nat) : State × Bool :=
  match r with
  | .pwrbudget => setBudget s v
  | .level l => setLevel s l v
  | .ctxrec n =>
    if ctxInService s n || (bitsOf v 255 1 = 1 && bitsOf v 248 4 < 4) then (s, false)
    else
      (modCtx s n fun c =>
        { c with
          valid := bitsOf v 255 1 = 1, frlog := BitVec.ofNat 4 (bitsOf v 248 4)
          fring := BitVec.ofNat 56 (alignBits 6 (bitsOf v 192 56)), eptab := BitVec.ofNat 56 (alignBits 13 (bitsOf v 128 56))
          fmttab := BitVec.ofNat 56 (alignBits 11 (bitsOf v 64 56)), root := BitVec.ofNat 56 (alignBits 21 (bitsOf v 0 56)) },
       true)
  | .savepool n =>
    let len := BitVec.ofNat 16 (bitsOf v 0 16)
    if len != s.ctxs[n].poolLen && poolUsed s n != 0 then (s, false)
    else (modCtx s n fun c => { c with poolBase := BitVec.ofNat 56 (alignBits 16 (bitsOf v 64 56)), poolLen := len }, true)
  | .flog n =>
    let z := bitsOf v 0 5
    if z != 0 && (z < 4 || z > 16) then (s, false)
    else
      (modCtx s n fun c =>
        { c with flogBase := BitVec.ofNat 56 (alignBits 7 (bitsOf v 64 56)), flogSize := BitVec.ofNat 5 z }, true)
  | .codedir n =>
    (modCtx s n fun c =>
      { c with dirBase := BitVec.ofNat 56 (alignBits 5 (bitsOf v 0 56)), dirCount := BitVec.ofNat 12 (bitsOf v 64 12) }, true)
  | .legacy n => (modCtx s n fun c => { c with legacy := legacyBits s v }, true)
  | .ctxmode n => (modCtx s n fun c => { c with det := bitsOf v 0 1 = 1, debug := bitsOf v 1 1 = 1 }, true)
  | .cellpool n =>
    if s.cells.any (·.ctx = n) then (s, false)
    else
      (modCtx s n fun c =>
        { c with cellBase := BitVec.ofNat 56 (alignBits 6 (bitsOf v 64 56)), cellLen := BitVec.ofNat 32 (bitsOf v 0 32) }, true)
  | .region n k =>
    let g : Region :=
      { base := BitVec.ofNat 56 (alignBits 16 (bitsOf v 64 56)), valid := bitsOf v 40 1 = 1
        len := BitVec.ofNat 40 (alignBits 16 (bitsOf v 0 40)) }
    (modCtx s n fun c => { c with regions := c.regions.set k g }, true)
  | .window k => ({ s with windows := s.windows.set k (windowOfBits v) }, true)
  | .sdWord k => (modSession s i fun x => { x with sdWords := x.sdWords.set k (BitVec.ofNat 64 v) }, true)
  | .sdgo => (submitShoot s i, true)
  | .arg k => (modSession s i fun x => { x with args := x.args.set k (BitVec.ofNat 64 v) }, true)
  | .reqgo => (submitReq s i v, true)
  | .dbgresume n => (if v % 2 ^ 32 = 1 then resumeAll s n else s, true)
  | .devid | .pwrstat | .portstat _ | .errCount | .errlog _ | .errlist _ | .sdstat | .reqstat => (s, true)

/-- A write of a register, refused where it belongs to a locked configuration, which moves the instance to ERROR (R441,
R448), or to a window of a context that admits no request of the session (R442). -/
def writeGuarded (s : State) (i : Fin 16) (r : MReg) (v : Nat) : State × Bool :=
  match (configOf s r).filter (ctxLocked s) with
  | some n => (toError s n, false)
  | none => if (requestsAbout s v r).all fun n => ctxAdmits s n (some i) then writeMReg s i r v else (s, false)

/-- The registers that n bytes at an offset reach, each with the place in it of its first byte and the place among the bytes
written. -/
def regsAt (off n : Nat) : List (MReg × Nat × Nat) :=
  (List.range n).foldl (fun l k => match regAt (off + k) with
    | none => l
    | some (r, b) => if l.any (·.1 = r) then l else l ++ [(r, b, k)]) []

/-- Bytes merged into a register's number. -/
def mergeBytes (width old at_ : Nat) (bytes : List Byte) : Nat :=
  leNat ((List.range width).map fun j =>
    if at_ ≤ j && j < at_ + bytes.length then bytes.getD (j - at_) 0 else BitVec.ofNat 8 (old / 256 ^ j))

/-- The bytes of a register. -/
def MReg.width : MReg → Nat
  | .devid | .pwrbudget | .pwrstat | .portstat _ | .level _ | .ctxmode _ => 4
  | .errlist _ => 2
  | .errlog _ | .savepool _ | .flog _ | .codedir _ | .cellpool _ | .region _ _ => 16
  | .ctxrec _ | .window _ => 32
  | _ => 8

/-- A management write performed: each register that it reaches is written whole (R448). -/
def mgmtWrite (s : State) (i : Fin 16) (off n : Nat) (v : Nat) : State × Bool :=
  (regsAt off n).foldl (fun (x : State × Bool) r =>
    let bytes := ((leBytes n v).drop r.2.2).take (min (n - r.2.2) (r.1.width - r.2.1))
    let (t, ok) := writeGuarded x.1 i r.1 (mergeBytes r.1.width (heldMReg x.1 i r.1) r.2.1 bytes)
    (t, x.2 && ok)) (s, true)

/-- Whether a request is of 4 or 8 bytes, naturally aligned (R440). -/
def mgmtAligned (off size : Nat) : Bool := (size = 4 || size = 8) && off % size = 0

/-- A request of another size or alignment receives an error and is counted (R440). -/
def mgmtBad (s : State) (i : Fin 16) : State := answer (logErr s (errEvent .session i.val 6 0 0xFF 0 0)) .mgmtErr

/-- MANAGEMENT_WRITE (R440, R448). -/
def execManagementWrite (session off size : Nat) (val : Word64) (s : State) : Out1 :=
  inSession s session fun i =>
    if mgmtAligned off size then mgmtAnswer (mgmtWrite s i off size (val.toNat % 256 ^ size)) else mgmtBad s i

/-- PRIORITY_LEVEL_WRITE (R351). -/
def execPriorityLevelWrite (session : Nat) (level : Fin 24) (val : Word) (s : State) : Out1 :=
  inSession s session fun _ => mgmtAnswer (setLevel s level val.toNat)

/-- PWRBUDGET_WRITE (R447). -/
def execPwrbudgetWrite (session : Nat) (val : Word) (s : State) : Out1 :=
  inSession s session fun _ => mgmtAnswer (setBudget s val.toNat)

/-- DBGRESUME (R167, R448). -/
def execDbgresume (session : Nat) (n : Fin 64) (val : Word) (s : State) : Out1 :=
  inSession s session fun _ => mgmtAnswer (if val = 1 then resumeAll s n else s, true)

/-- A management read (R440, R448): reserved offsets read 0. -/
def mgmtRead (session off size : Nat) (s : State) : Out1 :=
  inSession s session fun i =>
    if mgmtAligned off size then
      let byte (k : Nat) : Byte := match regAt (off + k) with
        | none => 0
        | some (r, b) => BitVec.ofNat 8 (readMReg s i r / 256 ^ b)
      answer s (.mgmtData (BitVec.ofNat 64 (leNat ((List.range size).map byte))))
    else mgmtBad s i

/-- A request of a session that fails its AEAD check is dropped and counted (R440, R449). -/
def badRequest (session : Nat) (s : State) : Out1 := .next (logErr s (errEvent .session (session % 16) 6 0 0xFF 0 0))

/-- Entry n of a context's forwarding table is removed on the management path (R406; log 109, DESIGN CHOICE). -/
def dropForward (session : Nat) (ctx : Fin 64) (n : Nat) (s : State) : Out1 :=
  inSession s session fun i =>
    if ctxAdmits s ctx (some i) then
      answer (modCtx s ctx fun c => { c with forward := c.forward.eraseIdx n }) .mgmtOk
    else answer s .mgmtErr

end Sys2Proof.Machine
end

