-- ==== Sys2Proof/Machine/Spdm.lean ====
section
/-!
DEFINITION. SPDM messages and sessions (R439, R445), and the messages of the interface instances (R441 to R444).
-/
namespace Sys2Proof.Machine

open Sys2Proof

/-! ## SPDM (R439) -/

/-- Codes of the responses that the device sends. -/
inductive SpdmResp where
  | version | digests | certificate | challengeAuth | measurements | keyExchange | finish
  | heartbeatAck | keyUpdateAck | endSessionAck
  deriving DecidableEq, Repr

/-- The number of a response in State.out (log 11, DESIGN CHOICE). -/
def SpdmResp.num : SpdmResp → BitVec 8
  | .version => 4 | .digests => 1 | .certificate => 2 | .challengeAuth => 3
  | .measurements => 0x60 | .keyExchange => 0x64 | .finish => 0x65 | .heartbeatAck => 0x68 | .keyUpdateAck => 0x69
  | .endSessionAck => 0x6C

/-- A response with its contents; where the manual gives none they are free (log 11, DESIGN CHOICE). -/
def spdmSay (s : State) (r : SpdmResp) (v : BitVec 256) : State := answer s (.spdm r.num v)

/-- ERROR with a code. -/
def spdmFail (s : State) (code : BitVec 8) : State := answer s (.spdmErr code)

/-- A message that the ROM answers even where the boot has stopped (R445). -/
def whenBooted (s : State) (f : State) : Out1 := if s.boot = .off then .next s else .next f

/-- A message that is answered once the management endpoint accepts sessions (R445). -/
def whenUp (s : State) (f : State) : Out1 := if s.boot = .up then .next f else .next s

def execGetVersion (s : State) : Out1 := whenBooted s (spdmSay s .version 0x13)

/-- GET_CAPABILITIES: no pre-shared keys, and mutual authentication (R439). -/
def execGetCapabilities (s : State) : Out1 :=
  whenBooted s (answer s (.spdmCapabilities false true (Config.digest s.tick)))

/-- NEGOTIATE_ALGORITHMS: exactly the algorithms of R439 are offered. -/
def execNegotiateAlgorithms (s : State) : Out1 :=
  whenBooted s (answer s (.spdmAlgorithms [.sm2Sign, .sm3, .sm2Exchange, .sm4Gcm]))

def execGetDigests (s : State) : Out1 := whenUp s (spdmSay s .digests (Config.digest s.tick))

def execGetCertificate (_slot : BitVec 8) (s : State) : Out1 := whenBooted s (spdmSay s .certificate (Config.digest s.tick))

def execChallenge (_slot : BitVec 8) (s : State) : Out1 := whenUp s (spdmSay s .challengeAuth (Config.digest s.tick))

/-- GET_MEASUREMENTS: measurements 1 to 5 (R445). -/
def execGetMeasurements (idx : BitVec 8) (s : State) : Out1 :=
  whenBooted s (
    if 1 ≤ idx.toNat && idx.toNat ≤ 5 then spdmSay s .measurements (s.measures[Fin.ofNat 5 (idx.toNat - 1)])
    else spdmFail s 1)

/-! ## Sessions (R439) -/

/-- A session as KEY_EXCHANGE opens it. -/
def Session.opened (key : BitVec 128) : Session := { Session.reset with isOpen := true, key := key }

/-- KEY_EXCHANGE opens a session, with mutual authentication, at most 16 at once (R439). -/
def execKeyExchange (authOk : Bool) (s : State) : Out1 :=
  whenUp s (
    if !authOk then spdmFail s 1
    else
      match (List.finRange 16).find? fun i => !s.sessions[i].isOpen with
      | none => spdmFail s 1
      | some i => spdmSay (modSession s i fun _ => Session.opened (Config.secret s.tick)) .keyExchange (BitVec.ofNat 256 i.val))

/-- Run a message of a session; one outside a session is dropped and counted (R440). -/
def onSession (s : State) (session : Nat) (f : Fin 16 → State) : Out1 :=
  let i : Fin 16 := Fin.ofNat 16 session
  if s.boot = .up && session < 16 && s.sessions[i].isOpen then .next (f i)
  else .next (logErr s (errEvent .session (session % 16) 6 0 0xFF 0 0))

/-- The instances bound to a session that are CONFIG_LOCKED or in RUN. -/
def boundTo (s : State) (i : Fin 16) : List (Fin 64) :=
  (List.finRange 64).filter fun n => s.ctxs[n].bound = some i.val && ctxLocked s n

/-- The binding of an instance whose session has ended: to a number that no session has. -/
def endedSession : Nat := 16

/-- A session ends: its registers are gone, its submitted requests run on without it, and the instances bound to it move
to ERROR and stay bound to no session that can come after it (R439, R441; log 85, DEDUCED). -/
def closeSession (s : State) (i : Fin 16) : State :=
  let s0 := (boundTo s i).foldl toError s
  let unbind (c : Ctx) : Ctx := if c.bound = some i.val then { c with bound := some endedSession } else c
  let s1 : State := { s0 with ctxs := s0.ctxs.map unbind }
  modSession { s1 with
    requests := s1.requests.map fun r => if r.session = some i then { r with session := none } else r
    shoots := s1.shoots.map fun r => if r.session = some i then { r with session := none } else r } i fun _ => Session.reset

/-- FINISH completes the handshake of a session; one that fails closes it. -/
def execFinish (session : Nat) (ok : Bool) (s : State) : Out1 :=
  onSession s session fun i =>
    if ok then spdmSay (modSession s i fun x => { x with finished := true }) .finish 0
    else spdmFail (closeSession s i) 1

def execHeartbeat (session : Nat) (s : State) : Out1 := inSession s session fun _ => spdmSay s .heartbeatAck 0

/-- KEY_UPDATE: the session goes on under a new key. -/
def execKeyUpdate (session : Nat) (s : State) : Out1 :=
  inSession s session fun i => spdmSay (modSession s i fun x => { x with key := Config.secret s.tick }) .keyUpdateAck 0

def execEndSession (session : Nat) (s : State) : Out1 :=
  onSession s session fun i => spdmSay (closeSession s i) .endSessionAck 0

/-- SPDM_UNSUPPORTED: ERROR with code UnsupportedRequest (R439); no answer where the boot has stopped (R445). -/
def execSpdmUnsupported (_code : BitVec 8) (s : State) : Out1 := whenUp s (spdmFail s 7)

/-! ## Interface instances (R441 to R444) -/

/-- The answer to a message that changed an instance. -/
def tdispOk (s : State) (n : Fin 64) : State := answer s (.tdisp n s.ctxs[n].inst)

/-- LOCK_INTERFACE_REQUEST binds an idle context's instance to the session (R441, R442). -/
def execLockInterfaceRequest (session : Nat) (n : Fin 64) (s : State) : Out1 :=
  inSession s session fun i =>
    if s.ctxs[n].inst = .unlocked && !ctxInService s n then
      tdispOk (modCtx s n fun c => { c with inst := .locked, bound := some i.val }) n
    else answer s .tdispErr

/-- The key pair of region r drawn at a tick (R443). -/
def drawKeys (tick : Nat) (r : Fin 16) : BitVec 128 × BitVec 128 :=
  (Config.secret (32 * tick + 2 * r.val), Config.secret (32 * tick + 2 * r.val + 1))

/-- Keys for every valid region (R443). -/
def regionKeys (s : State) (n : Fin 64) : List (Fin 16 × BitVec 128 × BitVec 128) :=
  ((List.finRange 16).filter fun r => s.ctxs[n].regions[r].valid).map fun r => (r, drawKeys s.tick r)

/-- What the memory of a context's regions holds once their granules are decrypted with a key pair each: a free value of the
keys, the granule's address and its bytes (R443; log 113, DESIGN CHOICE). -/
def decryptRegions (s : State) (n : Fin 64) (keys : List (Fin 16 × BitVec 128 × BitVec 128)) : State :=
  { s with mem := keys.foldl (fun m k =>
      (regionGranules s.ctxs[n].regions[k.1]).foldl (fun m g =>
        memWrite m (32 * g) ((List.range 32).map fun i => Config.decrypted k.2.1 k.2.2 g i (memRead m (32 * g) 32))) m) s.mem }

/-- START_INTERFACE_REQUEST draws the region keys and enters RUN (R441, R443). -/
def execStartInterfaceRequest (session : Nat) (n : Fin 64) (s : State) : Out1 :=
  inSession s session fun i =>
    if s.ctxs[n].inst = .locked && s.ctxs[n].bound = some i.val && s.ctxs[n].leaving.isNone then
      let keys := regionKeys s n
      tdispOk (modCtx (decryptRegions s n keys) n fun c => { c with inst := .run, keys := keys }) n
    else answer s .tdispErr

/-- STOP_INTERFACE_REQUEST leaves CONFIG_LOCKED or RUN, or takes an instance out of ERROR, which any session may (R441,
R442, R444). -/
def execStopInterfaceRequest (session : Nat) (n : Fin 64) (s : State) : Out1 :=
  inSession s session fun i =>
    let c := s.ctxs[n]
    match c.inst with
    | .unlocked => answer s .tdispErr
    | .error => tdispOk (modCtx s n fun x => { x with inst := .unlocked, bound := none }) n
    | .locked | .run =>
      if c.bound = some i.val && c.leaving.isNone then leaveRun s n .unlocked true else answer s .tdispErr

/-- Whether a session may ask after an instance: the bound one, or any where none is bound (R441). -/
def mayAsk (s : State) (i : Fin 16) (n : Fin 64) : Bool :=
  match s.ctxs[n].bound with
  | none => true
  | some b => b = i.val

def execGetDeviceInterfaceState (session : Nat) (n : Fin 64) (s : State) : Out1 :=
  inSession s session fun i => if mayAsk s i n then tdispOk s n else answer s .tdispErr

/-- GET_DEVICE_INTERFACE_REPORT lists the context's valid regions and its measurement digest (R441; log 11, DESIGN
CHOICE). -/
def execGetDeviceInterfaceReport (session : Nat) (n : Fin 64) (s : State) : Out1 :=
  inSession s session fun i =>
    if mayAsk s i n then
      answer s (.tdispReport n (s.ctxs[n].regions.toList.filter (·.valid)) (Config.digest s.tick))
    else answer s .tdispErr

/-- KEY_STORE_ERROR: an uncorrectable error in a context's key store is logged and moves its instance to ERROR (R441,
R449). -/
def execKeyStoreError (n : Fin 64) (s : State) : Out1 :=
  let s1 := logErr s (errEvent .keys 0 1 0 0xFF n.val 0)
  .next (if ctxLocked s1 n then toError s1 n else s1)

end Sys2Proof.Machine
end

