-- ==== Sys2Proof/Machine/Dispatch.lean ====
section
/-!
DEFINITION. One arm for each instruction: its meaning.
-/
namespace Sys2Proof.Machine

open Sys2Proof

def exec (i : Instr) (s : State) : Host.Outcome State Fault Refusal :=
  match i with
  | .iadd c d a b w sat u => Sys2Proof.Machine.execIadd c d a b w sat u s
  | .isub c d a b w sat u => Sys2Proof.Machine.execIsub c d a b w sat u s
  | .imul c d a b w sat u => Sys2Proof.Machine.execImul c d a b w sat u s
  | .imulhi c d a b w u => Sys2Proof.Machine.execImulhi c d a b w u s
  | .imad c d a b e w sat u => Sys2Proof.Machine.execImad c d a b e w sat u s
  | .imin c d a b w u => Sys2Proof.Machine.execImin c d a b w u s
  | .imax c d a b w u => Sys2Proof.Machine.execImax c d a b w u s
  | .iabs c d a w sat => Sys2Proof.Machine.execIabs c d a w sat s
  | .isetp c p a b cmp u => Sys2Proof.Machine.execIsetp c p a b cmp u s
  | .shl c d a b w => Sys2Proof.Machine.execShl c d a b w s
  | .shr c d a b w => Sys2Proof.Machine.execShr c d a b w s
  | .sar c d a b w => Sys2Proof.Machine.execSar c d a b w s
  | .and c d a b => Sys2Proof.Machine.execAnd c d a b s
  | .or c d a b => Sys2Proof.Machine.execOr c d a b s
  | .xor c d a b => Sys2Proof.Machine.execXor c d a b s
  | .andn c d a b => Sys2Proof.Machine.execAndn c d a b s
  | .lop3 c d a b e tt => Sys2Proof.Machine.execLop3 c d a b e tt s
  | .popc c d a w => Sys2Proof.Machine.execPopc c d a w s
  | .clz c d a w => Sys2Proof.Machine.execClz c d a w s
  | .brev c d a w => Sys2Proof.Machine.execBrev c d a w s
  | .bfx c d a b u => Sys2Proof.Machine.execBfx c d a b u s
  | .bfi c d a b e => Sys2Proof.Machine.execBfi c d a b e s
  | .sel c d a b p => Sys2Proof.Machine.execSel c d a b p s
  | .prmt c d a b e => Sys2Proof.Machine.execPrmt c d a b e s
  | .idot4 c d a b e sat u => Sys2Proof.Machine.execIdot4 c d a b e sat u s
  | .mov c d a => Sys2Proof.Machine.execMov c d a s
  | .movi c d imm => Sys2Proof.Machine.execMovi c d imm s
  | .cvt c d a dt st rm sat => Sys2Proof.Machine.execCvt c d a dt st rm sat s
  | .sread c d sel hi => Sys2Proof.Machine.execSread c d sel hi s
  | .vtag c d a => Sys2Proof.Machine.execVtag c d a s
  | .vshape c n => Sys2Proof.Machine.execVshape c n s
  | .vexp c n => Sys2Proof.Machine.execVexp c n s
  | .shfl c d a b mode => Sys2Proof.Machine.execShfl c d a b mode s
  | .vote c form p => Sys2Proof.Machine.execVote c form p s
  | .redx c d a op sat u => Sys2Proof.Machine.execRedx c d a op sat u s
  | .scanx c d a op sat u => Sys2Proof.Machine.execScanx c d a op sat u s
  | .xset c x base limit vidx => Sys2Proof.Machine.execXset c x base limit vidx s
  | .xclr c x => Sys2Proof.Machine.execXclr c x s
  | .plop c p a b op => Sys2Proof.Machine.execPlop c p a b op s
  | .pmov c form => Sys2Proof.Machine.execPmov c form s
  | .fadd c d a b rm pk => Sys2Proof.Machine.execFadd c d a b rm pk s
  | .fsub c d a b rm pk => Sys2Proof.Machine.execFsub c d a b rm pk s
  | .fmul c d a b rm pk => Sys2Proof.Machine.execFmul c d a b rm pk s
  | .ffma c d a b e rm pk => Sys2Proof.Machine.execFfma c d a b e rm pk s
  | .fmin c d a b pk => Sys2Proof.Machine.execFmin c d a b pk s
  | .fmax c d a b pk => Sys2Proof.Machine.execFmax c d a b pk s
  | .fsetp c p a b cmp => Sys2Proof.Machine.execFsetp c p a b cmp s
  | .frnd c d a rm pk => Sys2Proof.Machine.execFrnd c d a rm pk s
  | .fclass c d a => Sys2Proof.Machine.execFclass c d a s
  | .fscale c d a b rm pk => Sys2Proof.Machine.execFscale c d a b rm pk s
  | .fdot2 c d a b e rm pk => Sys2Proof.Machine.execFdot2 c d a b e rm pk s
  | .rcp c d a => Sys2Proof.Machine.execRcp c d a s
  | .rsq c d a => Sys2Proof.Machine.execRsq c d a s
  | .sqrt c d a => Sys2Proof.Machine.execSqrt c d a s
  | .ex2 c d a => Sys2Proof.Machine.execEx2 c d a s
  | .lg2 c d a => Sys2Proof.Machine.execLg2 c d a s
  | .sinpi c d a => Sys2Proof.Machine.execSinpi c d a s
  | .cospi c d a => Sys2Proof.Machine.execCospi c d a s
  | .tanh c d a => Sys2Proof.Machine.execTanh c d a s
  | .ld c d addr off ord scope raw sx size => Sys2Proof.Machine.execLd c d addr off ord scope raw sx size s
  | .st c addr data off ord scope raw ver size => Sys2Proof.Machine.execSt c addr data off ord scope raw ver size s
  | .qst c addr data off ord scope ver size => Sys2Proof.Machine.execQst c addr data off ord scope ver size s
  | .atom c d addr data op u ord scope size => Sys2Proof.Machine.execAtom c d addr data op u ord scope size s
  | .atomo c addr data off => Sys2Proof.Machine.execAtomo c addr data off s
  | .fence c ord scope flush => Sys2Proof.Machine.execFence c ord scope flush s
  | .waita c d addr data cmp ord scope size => Sys2Proof.Machine.execWaita c d addr data cmp ord scope size s
  | .pref c addr off kind => Sys2Proof.Machine.execPref c addr off kind s
  | .bra c rc off => Sys2Proof.Machine.execBra c rc off s
  | .bru c t => Sys2Proof.Machine.execBru c t s
  | .brx c rc a => Sys2Proof.Machine.execBrx c rc a s
  | .call c off => Sys2Proof.Machine.execCall c off s
  | .callx c a => Sys2Proof.Machine.execCallx c a s
  | .ret c => Sys2Proof.Machine.execRet c s
  | .regang c a => Sys2Proof.Machine.execRegang c a s
  | .exit c => Sys2Proof.Machine.execExit c s
  | .yield c => Sys2Proof.Machine.execYield c s
  | .safe c n => Sys2Proof.Machine.execSafe c n s
  | .xfer c a bk => Sys2Proof.Machine.execXfer c a bk s
  | .trap c n => Sys2Proof.Machine.execTrap c n s
  | .nop c => Sys2Proof.Machine.execNop c s
  | .bkpt c => Sys2Proof.Machine.execBkpt c s
  | .bara c b n => Sys2Proof.Machine.execBara c b n s
  | .barw c b => Sys2Proof.Machine.execBarw c b s
  | .bars c b n => Sys2Proof.Machine.execBars c b n s
  | .twait c p k n => Sys2Proof.Machine.execTwait c p k n s
  | .dqpop c d => Sys2Proof.Machine.execDqpop c d s
  | .sigop c addr val op scope => Sys2Proof.Machine.execSigop c addr val op scope s
  | .sadd c d a b => Sys2Proof.Machine.execSadd c d a b s
  | .ssub c d a b => Sys2Proof.Machine.execSsub c d a b s
  | .smul c d a b => Sys2Proof.Machine.execSmul c d a b s
  | .sand c d a b => Sys2Proof.Machine.execSand c d a b s
  | .sor c d a b => Sys2Proof.Machine.execSor c d a b s
  | .sxor c d a b => Sys2Proof.Machine.execSxor c d a b s
  | .sshl c d a b => Sys2Proof.Machine.execSshl c d a b s
  | .sshr c d a b => Sys2Proof.Machine.execSshr c d a b s
  | .ssar c d a b => Sys2Proof.Machine.execSsar c d a b s
  | .smin c d a b u => Sys2Proof.Machine.execSmin c d a b u s
  | .smax c d a b u => Sys2Proof.Machine.execSmax c d a b u s
  | .scmp c q a b cmp u => Sys2Proof.Machine.execScmp c q a b cmp u s
  | .ssel c d a b q => Sys2Proof.Machine.execSsel c d a b q s
  | .smov c d a => Sys2Proof.Machine.execSmov c d a s
  | .smovi c d imm hi => Sys2Proof.Machine.execSmovi c d imm hi s
  | .sld c d a off ord scope sx size => Sys2Proof.Machine.execSld c d a off ord scope sx size s
  | .sst c a b off ord scope size => Sys2Proof.Machine.execSst c a b off ord scope size s
  | .satom c d a b op u ord scope size => Sys2Proof.Machine.execSatom c d a b op u ord scope size s
  | .sbr c off => Sys2Proof.Machine.execSbr c off s
  | .sjmp c a => Sys2Proof.Machine.execSjmp c a s
  | .scall c off => Sys2Proof.Machine.execScall c off s
  | .sret c => Sys2Proof.Machine.execSret c s
  | .dqpush c v m => Sys2Proof.Machine.execDqpush c v m s
  | .fork c k e => Sys2Proof.Machine.execFork c k e s
  | .join c k => Sys2Proof.Machine.execJoin c k s
  | .hend c => Sys2Proof.Machine.execHend c s
  | .cpy c p => Sys2Proof.Machine.execCpy c p s
  | .cpys c p => Sys2Proof.Machine.execCpys c p s
  | .cgath c p => Sys2Proof.Machine.execCgath c p s
  | .cscat c p => Sys2Proof.Machine.execCscat c p s
  | .tgath c d a b len => Sys2Proof.Machine.execTgath c d a b len s
  | .cred c p => Sys2Proof.Machine.execCred c p s
  | .cfill c p => Sys2Proof.Machine.execCfill c p s
  | .cslot c m p => Sys2Proof.Machine.execCslot c m p s
  | .crecode c p t => Sys2Proof.Machine.execCrecode c p t s
  | .csig c form => Sys2Proof.Machine.execCsig c form s
  | .cwait c form => Sys2Proof.Machine.execCwait c form s
  | .cloop c n len => Sys2Proof.Machine.execCloop c n len s
  | .cend c => Sys2Proof.Machine.execCend c s
  | .mclaim c a m ns nt => Sys2Proof.Machine.execMclaim c a m ns nt s
  | .mrel c a m ns nt => Sys2Proof.Machine.execMrel c a m ns nt s
  | .mma c d a b kind => Sys2Proof.Machine.execMma c d a b kind s
  | .mmag c d x g p => Sys2Proof.Machine.execMmag c d x g p s
  | .mzero c d => Sys2Proof.Machine.execMzero c d s
  | .mstore c a p conv => Sys2Proof.Machine.execMstore c a p conv s
  | .macc c d a => Sys2Proof.Machine.execMacc c d a s
  | .mbara c b n => Sys2Proof.Machine.execMbara c b n s
  | .mbarw c b => Sys2Proof.Machine.execMbarw c b s
  | .mloop c n len ctr => Sys2Proof.Machine.execMloop c n len ctr s
  | .msave c p => Sys2Proof.Machine.execMsave c p s
  | .mresume c p => Sys2Proof.Machine.execMresume c p s
  | .mcur c profile => Sys2Proof.Machine.execMcur c profile s
  | .mend c => Sys2Proof.Machine.execMend c s
  | .csrr c d sel => Sys2Proof.Machine.execCsrr c d sel s
  | .csrw c sel a => Sys2Proof.Machine.execCsrw c sel a s
  | .trapret c => Sys2Proof.Machine.execTrapret c s
  | .cont c a => Sys2Proof.Machine.execCont c a s
  | .fresume c => Sys2Proof.Machine.execFresume c s
  | .loadDataArrives id => Sys2Proof.Machine.execLoadDataArrives id s
  | .atomReturn id => Sys2Proof.Machine.execAtomReturn id s
  | .cellClose l => Sys2Proof.Machine.execCellClose l s
  | .waitaSatisfied p => Sys2Proof.Machine.execWaitaSatisfied p s
  | .fabricPoll p => Sys2Proof.Machine.execFabricPoll p s
  | .versionTransfer b w => Sys2Proof.Machine.execVersionTransfer b w s
  | .barrierWaitComplete p => Sys2Proof.Machine.execBarrierWaitComplete p s
  | .twaitSatisfied p => Sys2Proof.Machine.execTwaitSatisfied p s
  | .dqpopDeliver p => Sys2Proof.Machine.execDqpopDeliver p s
  | .helmLoadReturn id => Sys2Proof.Machine.execHelmLoadReturn id s
  | .dqpushAppend b => Sys2Proof.Machine.execDqpushAppend b s
  | .forkStart b => Sys2Proof.Machine.execForkStart b s
  | .joinComplete b => Sys2Proof.Machine.execJoinComplete b s
  | .tgathAccept p => Sys2Proof.Machine.execTgathAccept p s
  | .cwaitSatisfied b k => Sys2Proof.Machine.execCwaitSatisfied b k s
  | .mclaimTaken b => Sys2Proof.Machine.execMclaimTaken b s
  | .mbarwSatisfied b => Sys2Proof.Machine.execMbarwSatisfied b s
  | .matrixGrant b => Sys2Proof.Machine.execMatrixGrant b s
  | .operationComplete b k n => Sys2Proof.Machine.execOperationComplete b k n s
  | .watchdog => Sys2Proof.Machine.execWatchdog s
  | .storeImprecise r => Sys2Proof.Machine.execStoreImprecise r s
  | .poisonDetected at_ => Sys2Proof.Machine.execPoisonDetected at_ s
  | .writeIndexObserved q => Sys2Proof.Machine.execWriteIndexObserved q s
  | .nodePacket q => Sys2Proof.Machine.execNodePacket q s
  | .graphPacket q => Sys2Proof.Machine.execGraphPacket q s
  | .copyPacket q => Sys2Proof.Machine.execCopyPacket q s
  | .barrierPacket q => Sys2Proof.Machine.execBarrierPacket q s
  | .barrierRound q n => Sys2Proof.Machine.execBarrierRound q n s
  | .barrierPoll q n => Sys2Proof.Machine.execBarrierPoll q n s
  | .signalPacket q => Sys2Proof.Machine.execSignalPacket q s
  | .xferPacket q => Sys2Proof.Machine.execXferPacket q s
  | .nopPacket q => Sys2Proof.Machine.execNopPacket q s
  | .packetRetire q n => Sys2Proof.Machine.execPacketRetire q n s
  | .graphNodeComplete n => Sys2Proof.Machine.execGraphNodeComplete n s
  | .blockRelease => Sys2Proof.Machine.execBlockRelease s
  | .selectedBlockTimeout q => Sys2Proof.Machine.execSelectedBlockTimeout q s
  | .interimCharge b => Sys2Proof.Machine.execInterimCharge b s
  | .blockEnd b => Sys2Proof.Machine.execBlockEnd b s
  | .blockEvict b => Sys2Proof.Machine.execBlockEvict b s
  | .blockWake b => Sys2Proof.Machine.execBlockWake b s
  | .blockRestore b => Sys2Proof.Machine.execBlockRestore b s
  | .fabricLoadIntoImage id data => Sys2Proof.Machine.execFabricLoadIntoImage id data s
  | .adapterPrefetch q n h => Sys2Proof.Machine.execAdapterPrefetch q n h s
  | .faultService ctx n => Sys2Proof.Machine.execFaultService ctx n s
  | .migrationRequest ctx va tier ep dst => Sys2Proof.Machine.execMigrationRequest ctx va tier ep dst s
  | .migrationCopyDone m ok => Sys2Proof.Machine.execMigrationCopyDone m ok s
  | .sdgo session => Sys2Proof.Machine.execSdgo session s
  | .shootdownComplete => Sys2Proof.Machine.execShootdownComplete s
  | .fabricDeliveryComplete id data => Sys2Proof.Machine.execFabricDeliveryComplete id data s
  | .fabricOperationFailed id => Sys2Proof.Machine.execFabricOperationFailed id s
  | .rmaWrite r data => Sys2Proof.Machine.execRmaWrite r data s
  | .rmaRead r len => Sys2Proof.Machine.execRmaRead r len s
  | .atomicNonFetching r op wide val => Sys2Proof.Machine.execAtomicNonFetching r op wide val s
  | .atomicFetching r op wide val cmp => Sys2Proof.Machine.execAtomicFetching r op wide val cmp s
  | .unsupportedRequest code => Sys2Proof.Machine.execUnsupportedRequest code s
  | .securityCheckDrop => Sys2Proof.Machine.execSecurityCheckDrop s
  | .laneRetire port lane => Sys2Proof.Machine.execLaneRetire port lane s
  | .portRetrainDone port => Sys2Proof.Machine.execPortRetrainDone port s
  | .patrolScrub pa found => Sys2Proof.Machine.execPatrolScrub pa found s
  | .scrubWriteBack pa => Sys2Proof.Machine.execScrubWriteBack pa s
  | .channelRetire stack ch => Sys2Proof.Machine.execChannelRetire stack ch s
  | .channelCopyComplete stack ch => Sys2Proof.Machine.execChannelCopyComplete stack ch s
  | .spareTakeover c => Sys2Proof.Machine.execSpareTakeover c s
  | .spanSliceCopyComplete c => Sys2Proof.Machine.execSpanSliceCopyComplete c s
  | .spanRangeCleared base => Sys2Proof.Machine.execSpanRangeCleared base s
  | .firmwareReplacement image ok => Sys2Proof.Machine.execFirmwareReplacement image ok s
  | .recalibration p => Sys2Proof.Machine.execRecalibration p s
  | .arbiterEpoch => Sys2Proof.Machine.execArbiterEpoch s
  | .powerOn => Sys2Proof.Machine.execPowerOn s
  | .registerQueue => Sys2Proof.Machine.execRegisterQueue s
  | .deregisterQueue => Sys2Proof.Machine.execDeregisterQueue s
  | .moveCode => Sys2Proof.Machine.execMoveCode s
  | .retireVersion => Sys2Proof.Machine.execRetireVersion s
  | .resetPort => Sys2Proof.Machine.execResetPort s
  | .endNode => Sys2Proof.Machine.execEndNode s
  | .priorityLevelWrite session level val => Sys2Proof.Machine.execPriorityLevelWrite session level val s
  | .pwrbudgetWrite session val => Sys2Proof.Machine.execPwrbudgetWrite session val s
  | .dbgresume session n val => Sys2Proof.Machine.execDbgresume session n val s
  | .managementWrite session off size val => Sys2Proof.Machine.execManagementWrite session off size val s
  | .getVersion => Sys2Proof.Machine.execGetVersion s
  | .getCapabilities => Sys2Proof.Machine.execGetCapabilities s
  | .negotiateAlgorithms => Sys2Proof.Machine.execNegotiateAlgorithms s
  | .getDigests => Sys2Proof.Machine.execGetDigests s
  | .getCertificate slot => Sys2Proof.Machine.execGetCertificate slot s
  | .challenge slot => Sys2Proof.Machine.execChallenge slot s
  | .getMeasurements idx => Sys2Proof.Machine.execGetMeasurements idx s
  | .keyExchange authOk => Sys2Proof.Machine.execKeyExchange authOk s
  | .finish session ok => Sys2Proof.Machine.execFinish session ok s
  | .heartbeat session => Sys2Proof.Machine.execHeartbeat session s
  | .keyUpdate session => Sys2Proof.Machine.execKeyUpdate session s
  | .endSession session => Sys2Proof.Machine.execEndSession session s
  | .spdmUnsupported code => Sys2Proof.Machine.execSpdmUnsupported code s
  | .lockInterfaceRequest session n => Sys2Proof.Machine.execLockInterfaceRequest session n s
  | .startInterfaceRequest session n => Sys2Proof.Machine.execStartInterfaceRequest session n s
  | .stopInterfaceRequest session n => Sys2Proof.Machine.execStopInterfaceRequest session n s
  | .getDeviceInterfaceState session n => Sys2Proof.Machine.execGetDeviceInterfaceState session n s
  | .getDeviceInterfaceReport session n => Sys2Proof.Machine.execGetDeviceInterfaceReport session n s
  | .keyStoreError n => Sys2Proof.Machine.execKeyStoreError n s

end Sys2Proof.Machine
end

