-- ==== Sys2Proof/Machine/Issue.lean ====
section
/-!
DEFINITION. Issue: what must hold before a party's next instruction issues (R80, R132, R171, R172, R176, R177, R179, R210,
R227, R362, R369, R398, R421), and its issue.
-/
namespace Sys2Proof.Machine

open Sys2Proof

/-! ## What an instruction of the warp stream names -/

/-- The operands that a warp-stream instruction names: sources and destinations with the registers each takes, further
main-file registers it reads, and registers and slots whose whole state it reads or changes (R129, R177). -/
structure Names where
  srcs : List (Src × Nat) := []
  dsts : List (Dst × Nat) := []
  regs : List Nat := []
  whole : List (Fin 256) := []
  wholeO : List (Fin 8) := []

/-- A pair of main-file registers. -/
def pairRegs (k : Fin 128) : List Nat := [2 * k.val, 2 * k.val + 1]

/-- Sources of one register, and one destination. -/
def nm (d : Dst) (xs : List Src) : Names := { srcs := xs.map fun x => (x, 1), dsts := [(d, 1)] }

/-- Sources of one register only. -/
def nmS (xs : List Src) : Names := { srcs := xs.map fun x => (x, 1) }

/-- What an instruction names. -/
def names : Instr → Names
  | .iadd _ d a b _ _ _ | .isub _ d a b _ _ _ | .imul _ d a b _ _ _ | .imulhi _ d a b _ _ | .imin _ d a b _ _
  | .imax _ d a b _ _ | .shl _ d a b _ | .shr _ d a b _ | .sar _ d a b _ | .and _ d a b | .or _ d a b | .xor _ d a b
  | .andn _ d a b | .bfx _ d a b _ | .sel _ d a b _ | .shfl _ d a b _ | .fadd _ d a b _ _ | .fsub _ d a b _ _
  | .fmul _ d a b _ _ | .fmin _ d a b _ | .fmax _ d a b _ | .fscale _ d a b _ _ => nm d [a, b]
  | .imad _ d a b e _ _ _ | .bfi _ d a b e | .prmt _ d a b e | .idot4 _ d a b e _ _ | .ffma _ d a b e _ _
  | .fdot2 _ d a b e _ _ => nm d [a, b, e]
  | .lop3 _ d a b e _ => nm d [a, b, RegSrc.src e]
  | .iabs _ d a _ _ | .popc _ d a _ | .clz _ d a _ | .brev _ d a _ | .mov _ d a | .cvt _ d a _ _ _ _ | .redx _ d a _ _ _
  | .scanx _ d a _ _ _ | .frnd _ d a _ _ | .fclass _ d a | .rcp _ d a | .rsq _ d a | .sqrt _ d a | .ex2 _ d a | .lg2 _ d a
  | .sinpi _ d a | .cospi _ d a | .tanh _ d a => nm d [a]
  | .movi _ d _ | .sread _ d _ _ | .vote _ (.bits d) _ | .pmov _ (.toV d _) | .csrr _ d _ | .dqpop _ d => nm d []
  | .isetp _ _ a b _ _ | .fsetp _ _ a b _ | .bara _ a b | .bars _ a b => nmS [a, b]
  | .xset _ _ a b e => nmS [a, b, e]
  | .pmov _ (.toP _ a) | .bru _ (.reg a) | .brx _ _ a | .callx _ a | .regang _ a | .xfer _ a _ | .barw _ a | .csrw _ _ a
  | .cont _ a => nmS [a]
  | .vtag _ d a =>
    { dsts := [(d, 1)], srcs := [(RegSrc.src a, 1)], whole := match a with | .v n => [n] | _ => []
      wholeO := match a with | .o n => [n] | _ => [] }
  | .vshape _ n | .vexp _ n => { whole := [n] }
  | .ld _ d k _ _ _ _ _ sz => { dsts := [(d, sz.regs)], regs := pairRegs k }
  | .st _ k v _ _ _ _ _ sz | .qst _ k v _ _ _ _ sz => { srcs := [(v, sz.regs)], regs := pairRegs k }
  | .atom _ d k v op _ _ _ sz =>
    { srcs := [(v, atomRegsOf op sz)], dsts := (d.toList).map fun x => (x, sz.regs), regs := pairRegs k }
  | .atomo _ k v _ => { srcs := [(v, 1)], regs := pairRegs k }
  | .waita _ d k v _ _ _ sz => { srcs := [(v, sz.regs)], dsts := [(d, sz.regs)], regs := pairRegs k }
  | .pref _ k _ _ => { regs := pairRegs k }
  | .twait _ _ _ (.pair k) => { regs := pairRegs k }
  | .sigop _ k (.pair v) _ _ => { regs := pairRegs k ++ pairRegs v }
  | .sigop _ k (.imm _) _ _ => { regs := pairRegs k }
  | .tgath _ d a b len =>
    { dsts := [(.v (Fin.ofNat 256 (2 * d.val)) .w, 2)], srcs := [(len, 1)], regs := pairRegs a ++ pairRegs b }
  | _ => {}

/-- The guard of an instruction; an event has none. -/
def guardOf : Instr → Option Ctl
  | .iadd c .. | .isub c .. | .imul c .. | .imulhi c .. | .imad c .. | .imin c .. | .imax c .. | .iabs c .. | .isetp c ..
  | .shl c .. | .shr c .. | .sar c .. | .and c .. | .or c .. | .xor c .. | .andn c .. | .lop3 c .. | .popc c .. | .clz c ..
  | .brev c .. | .bfx c .. | .bfi c .. | .sel c .. | .prmt c .. | .idot4 c .. | .mov c .. | .movi c .. | .cvt c ..
  | .sread c .. | .vtag c .. | .vshape c .. | .vexp c .. | .shfl c .. | .vote c .. | .redx c .. | .scanx c .. | .xset c ..
  | .xclr c .. | .plop c .. | .pmov c .. | .fadd c .. | .fsub c .. | .fmul c .. | .ffma c .. | .fmin c .. | .fmax c ..
  | .fsetp c .. | .frnd c .. | .fclass c .. | .fscale c .. | .fdot2 c .. | .rcp c .. | .rsq c .. | .sqrt c .. | .ex2 c ..
  | .lg2 c .. | .sinpi c .. | .cospi c .. | .tanh c .. | .ld c .. | .st c .. | .qst c .. | .atom c .. | .atomo c ..
  | .fence c .. | .waita c .. | .pref c .. | .bra c .. | .bru c .. | .brx c .. | .call c .. | .callx c .. | .ret c ..
  | .regang c .. | .exit c .. | .yield c .. | .safe c .. | .xfer c .. | .trap c .. | .nop c .. | .bkpt c .. | .bara c ..
  | .barw c .. | .bars c .. | .twait c .. | .dqpop c .. | .sigop c .. | .sadd c .. | .ssub c .. | .smul c .. | .sand c ..
  | .sor c .. | .sxor c .. | .sshl c .. | .sshr c .. | .ssar c .. | .smin c .. | .smax c .. | .scmp c .. | .ssel c ..
  | .smov c .. | .smovi c .. | .sld c .. | .sst c .. | .satom c .. | .sbr c .. | .sjmp c .. | .scall c .. | .sret c ..
  | .dqpush c .. | .fork c .. | .join c .. | .hend c .. | .tgath c .. | .csrr c .. | .csrw c .. | .trapret c .. | .cont c ..
  | .fresume c .. => some c
  | _ => none

/-- Flop-equivalents of one lane of an instruction (R358; log 38, DESIGN CHOICE). -/
def laneFlops : Instr → Nat
  | .imad .. | .ffma .. => 2
  | .idot4 .. => 8
  | .fdot2 .. => 4
  | .iadd .. | .isub .. | .imul .. | .imulhi .. | .imin .. | .imax .. | .iabs .. | .isetp .. | .shl .. | .shr .. | .sar ..
  | .and .. | .or .. | .xor .. | .andn .. | .lop3 .. | .popc .. | .clz .. | .brev .. | .bfx .. | .bfi .. | .sel .. | .prmt ..
  | .mov .. | .movi .. | .cvt .. | .sread .. | .vtag .. | .vshape .. | .vexp .. | .xset .. | .xclr .. | .shfl .. | .vote .. | .redx .. | .scanx .. | .plop .. | .pmov ..
  | .fadd .. | .fsub .. | .fmul .. | .fmin .. | .fmax .. | .fsetp .. | .frnd .. | .fclass .. | .fscale .. | .rcp .. | .rsq ..
  | .sqrt .. | .ex2 .. | .lg2 .. | .sinpi .. | .cospi .. | .tanh .. => 1
  | _ => 0

/-! ## The scoreboard (R176, R177, R179) -/

/-- The registers that an indexed operand reads or reaches. -/
def idxRegs (wp : Warp) (x : Fin 8) (m : LaneMask) : List (Fin 256) :=
  Fin.ofNat 256 (wp.xd[x]).vidx.toNat ::
    (match idxLanes wp x m with
     | .ok ls => ls.map (·.2)
     | .error _ => [])

/-- Consecutive registers from n on. -/
def runRegs (n : Fin 256) (len : Nat) : List (Fin 256) := (List.range len).map fun i => Fin.ofNat 256 (n.val + i)

/-- The main-file registers that an instruction reads or writes. -/
def usedRegs (wp : Warp) (m : LaneMask) (n : Names) : List (Fin 256) :=
  (n.srcs.flatMap fun x => match x.1 with
    | .v r _ => runRegs r x.2
    | .vx k _ => idxRegs wp k m
    | _ => []) ++
  (n.dsts.flatMap fun x => match x.1 with
    | .v r _ | .vo r _ _ => runRegs r x.2
    | .vx k _ => idxRegs wp k m
    | _ => []) ++
  n.regs.map (Fin.ofNat 256 ·) ++ n.whole

/-- The operand-file slots that it reads or writes. -/
def usedSlots (n : Names) : List (Fin 8) :=
  (n.srcs.flatMap fun x => match x.1 with | .o k _ => [k] | _ => []) ++
  n.dsts.flatMap fun x => match x.1 with | .o k | .vo _ k _ => [k] | _ => []

/-- Whether it reads the latch, or keeps latch lanes that it does not write (R55). -/
def usesLatch (n : Names) : Bool :=
  (n.srcs.any fun x => match x.1 with | .latch _ => true | _ => false) || n.dsts.any fun x => match x.1 with | .latch | .vx _ _ => true | _ => false

/-- The slot that a destination writes. -/
def dstSlots : Dst → List (Fin 8)
  | .o k | .vo _ k _ => [k]
  | _ => []

/-- Registers that a pending result writes. -/
def pendRegs (p : Pend) : List (Fin 256) := dstRegs p.dst p.idx p.size.regs

/-- The registers and slots that the result of a gang's wait will write (R176). -/
def waitWrites (g : Gang) : List (Fin 256) × List (Fin 8) :=
  match g.wait with
  | .waita d _ _ _ size _ => (dstRegs d g.reach size.regs, dstSlots d)
  | .dqpop d _ => (dstRegs d g.reach 1, dstSlots d)
  | .tgath d _ _ _ _ => (runRegs (Fin.ofNat 256 (2 * d.val)) 2, [])
  | _ => ([], [])

/-- Whether a gang waits at the scoreboard: for a result that it tracks at a register or slot that the instruction names, for
its latch, or for any result, of a pending load or of another gang's wait, at a register or slot whose whole state it uses
(R176, R177, R178, R179; log 36, DESIGN CHOICE). -/
def scoreWaits (k : GCtx) (m : LaneMask) (i : Instr) : Bool :=
  let n := names i
  let regs := usedRegs k.wp m n
  let slots := usedSlots n
  (usesLatch n && !k.g.lat.isEmpty) ||
  (k.wp.pend.any fun p =>
    (k.g.board.contains p.id && ((pendRegs p).any regs.contains || (dstSlots p.dst).any slots.contains)) ||
    (pendRegs p).any n.whole.contains || (dstSlots p.dst).any n.wholeO.contains) ||
  k.wp.gangs.any fun g => g.gid != k.g.gid &&
    ((waitWrites g).1.any n.whole.contains || (waitWrites g).2.any n.wholeO.contains)

/-! ## Order of a gang's accesses (R132, R147, R369) -/

/-- How an instruction accesses memory: its address, offset, form, size, whether it stores, releases, or acquires. -/
structure MemUse where
  addr : Fin 128
  off : BitVec 18
  form : AccForm
  size : Size
  stores : Bool
  rel : Bool

/-- The access of a class-010 instruction or a SIGOP. -/
def memUse : Instr → Option MemUse
  | .ld _ _ k off _ _ raw _ sz =>
    some { addr := k, off := off, form := if raw then .ldRaw else .ld, size := sz, stores := false, rel := false }
  | .st _ k _ off o _ raw _ sz =>
    some { addr := k, off := off, form := if raw then .stRaw else .st, size := sz, stores := true, rel := o = .rel }
  | .qst _ k _ off o _ _ sz => some { addr := k, off := off, form := .qst, size := sz, stores := true, rel := o = .rel }
  | .atom _ _ k _ _ _ o _ sz =>
    some { addr := k, off := 0, form := .atom, size := sz, stores := true, rel := o = .rel || o = .ar }
  | .atomo _ k _ off => some { addr := k, off := off, form := .atomo, size := .b32, stores := true, rel := false }
  | .waita _ _ k _ _ _ _ sz => some { addr := k, off := 0, form := .watch, size := sz, stores := false, rel := false }
  | .sigop _ k _ _ _ => some { addr := k, off := 0, form := .atom, size := .b64, stores := true, rel := true }
  | _ => none

/-- The accesses that an instruction would make, none where a check fails or the address is not read. -/
def plannedAccs (s : State) (k : GCtx) (m : LaneMask) (u : MemUse) : List LaneAcc :=
  match laneEas k m u.addr u.off with
  | .error _ => []
  | .ok (uni, eas) =>
    match checkLanes s k.blk.core k.blk.ctx u.form false u.size eas with
    | .error _ => []
    | .ok cs => spreadAccs uni m (cs.map (·.acc))

/-- Whether a pending load or atomic of one of the lanes reads a location that these accesses touch. -/
def pendMeets (p : Pend) (size : Size) (accs : List LaneAcc) : Bool :=
  (spreadAccs p.uni p.lanes p.accs).any fun x => accs.any fun y =>
    x.lane = y.lane && locsMeet x.loc (accBytes x p.size) y.loc (accBytes y size)

/-- Whether an instruction is a release of every earlier access of its party: an arrival at a barrier of the whole warp's
accesses, TGATH of the participating lanes' (R221, R236, R308). -/
def releases : Instr → Bool × Bool
  | .bara _ _ _ | .bars _ _ _ => (true, true)
  | .tgath .. => (true, false)
  | _ => (false, false)

/-- Whether a gang waits for the order of its accesses (R132, R141, R147, R221, R308, R369). -/
def orderWaits (s : State) (k : GCtx) (m : LaneMask) (i : Instr) : Bool :=
  let mine := k.wp.pend.filter fun p => p.lanes &&& m != 0
  let fabs := s.fabOps.filter (fabOfWarp k.b k.w)
  if m = 0 then false
  else if (releases i).1 then
    !fabs.isEmpty || !(if (releases i).2 then k.wp.pend else mine).isEmpty
  else
    match i with
    | .fence _ o _ _ =>
      !mine.isEmpty || (fabs.any fun o => fabReads o.kind) || ((o = .rel || o = .ar) && !fabs.isEmpty)
    | _ =>
      match memUse i with
      | none => false
      | some u =>
        mine.any (·.acq) || fabs.any (·.acq) ||
        (u.stores && (!mine.isEmpty || fabs.any fun o => fabReads o.kind)) || (u.rel && !fabs.isEmpty) ||
        (if mine.isEmpty && fabs.isEmpty then false
         else
           let accs := plannedAccs s k m u
           mine.any (fun p => pendMeets p u.size accs) ||
           fabs.any fun o => accs.any fun a => fabMeets o a.loc (accBytes a u.size))

/-! ## The atomic buffer of deterministic mode (R142, R271) -/

/-- Whether an ATOM is held in the buffer (R142). -/
def isBuffered (s : State) (blk : Block) (i : Instr) : Bool :=
  match i with
  | .atom _ none _ _ _ _ _ sc _ | .satom _ none _ _ _ _ _ sc _ => isDet s blk && narrow sc
  | _ => false

/-- Whether the buffer drains before a gang's instruction issues: at a flush point, or where an entry of one of its lanes comes
before it: before any store, as the entry reads, before a FENCE, behind an acquire, or at a shared location (R132, R142, R147,
R271; log 102, DEDUCED). -/
def drainsFirst (s : State) (k : GCtx) (m : LaneMask) (i : Instr) : Bool :=
  let mine := k.blk.buffer.filter fun a => a.warp = some k.w && laneBit m a.lane
  if m = 0 || k.blk.buffer.isEmpty then false
  else
    match i with
    | .bara _ _ _ | .bars _ _ _ | .barw _ _ => true
    | .fence _ _ sc _ => sc != .wp || !mine.isEmpty
    | .tgath .. => !mine.isEmpty
    | _ =>
      match memUse i with
      | none => false
      | some u =>
        !mine.isEmpty && !isBuffered s k.blk i &&
        (u.stores || mine.any (·.acq) ||
          (plannedAccs s k m u).any fun a => mine.any fun b =>
            a.lane = b.lane && locsMeet a.loc (accBytes a u.size) b.loc b.size.bytes)

/-- Whether an instruction that may enter a continuation waits for the gang's latch, which the entry saves (R397). -/
def contWaits (k : GCtx) (i : Instr) : Bool :=
  k.wp.cont != 0xFFFFFFFF && !k.g.lat.isEmpty && (memUse i).isSome

/-! ## Continuations (R398) -/

/-- The registers that an instruction in a continuation may write (log 41, DEDUCED). -/
def contDst (wp : Warp) (m : LaneMask) (d : Dst × Nat) : Bool :=
  match d.1 with
  | .v r _ => r.val ≥ 240
  | .latch => true
  | .vx x _ => (match idxLanes wp x m with | .ok ls => ls.all fun l => l.2.val ≥ 240 | .error _ => true)
  | .o _ | .vo _ _ _ => false

/-- Whether a continuation may not execute an instruction (R398; log 40, DEDUCED). -/
def contBars (wp : Warp) (m : LaneMask) (i : Instr) : Bool :=
  match i with
  | .bra .. | .brx .. | .call .. | .callx .. | .ret .. | .regang .. | .exit .. | .safe .. | .xfer .. | .cont .. => true
  | .xset .. | .xclr .. => true
  | .vshape _ n | .vexp _ n => n.val < 240
  | i => !(names i).dsts.all (contDst wp m)

/-! ## Deterministic mode (R172, R362) -/

/-- Whether a gang may issue under the schedule of deterministic mode (R172). -/
def detAllows (s : State) (k : GCtx) : Bool :=
  !isDet s k.blk ||
  (currentWarp s k.blk.core (partitionOf k.blk k.w) = some (k.b, k.w) &&
    (if k.g.slot = 2 then k.wp.handover || !k.wp.gangs.any (·.slot = 1) else !k.wp.handover))

/-- Whether an instruction needs its block's token: a returning atomic at .wp or .bk (R362). -/
def needsToken : Instr → Bool
  | .atom _ (some _) _ _ _ _ _ sc _ | .satom _ (some _) _ _ _ _ _ sc _ => narrow sc
  | _ => false

/-- The current warps and tokens of deterministic mode after a step (R172, R362). -/
def settleDet (s : State) : State :=
  let det := s.blocks.filter fun blk => blk.status = .resident && isDet s blk
  if det.isEmpty then s
  else
    let s1 := { s with blocks := s.blocks.map fun blk => if isDet s blk then settleToken blk else blk }
    (det.map (·.core)).eraseDups.foldl (fun t c =>
      let cur : Vector (Option (Nat × Nat)) 16 := Vector.ofFn fun p : Fin 16 =>
        match currentWarp t c p with
        | some w => some w
        | none => (t.cores[c]).current[p]
      modCore t c fun x => { x with current := cur }) s1

/-! ## Fetching -/

/-- What a fetch gives. -/
inductive Fetched where
  | instr (i : Instr)
  | stop (r : Raise)
  | page (ctx va : Nat)

/-- The instruction at a PC for a stream, with its checks in the order of R80; lane is what a fault names. -/
def fetchInstr (s : State) (kind : StreamKind) (core : Fin 256) (ctx : Fin 64) (dir : Nat) (pc : Word)
    (lane : Option Nat) : Fetched :=
  match fetchWord s core ctx dir pc with
  | .error (.fault c a) => .stop (raise c lane 0 a)
  | .error (.absent c va) => .page c va
  | .ok w =>
    let f := splitWord w
    if !opAssigned f then .stop (raise .illegal lane)
    else if opStream f != kind then .stop (raise .wrongStream lane)
    else
      match decode w with
      | some i => .instr i
      | none => .stop (raise .illegal lane)

/-- The translation that a fetch used enters the TLBs (R379). -/
def touchFetch (s : State) (core : Fin 256) (ctx : Fin 64) (dir : Nat) (pc : Word) : State :=
  match dirEnt s ctx dir with
  | some e => touch s (some core) ctx (e.codebase + 12 * pc.toNat)
  | none => s

/-! ## The issue of a party -/

/-- Reports of the issuing warp's stores are offered before its next instruction (R414). -/
def offerReports : Nat → State → Out1
  | 0, s => .next s
  | fuel + 1, s =>
    match s.reports.zipIdx.find? fun r => reportWarp s r.1 && (reportHere s r.1).isSome with
    | none => .next s
    | some (_, n) =>
      match exec (.storeImprecise n) s with
      | .next t => if (gangOf t t.cur).isSome then offerReports fuel t else .next t
      | o => o

/-- A gang counts an issue, unless it replays one (R380, R421; log 29, DEDUCED; log 53, DEDUCED). -/
def countGang (s : State) (k : GCtx) : State :=
  modGang s k.b k.w k.g.gid fun g =>
    { g with wd := if g.replay then g.wd else g.wd + 1, replay := false, last := s.tick }

/-- Whether a gang holds a slot and waits for nothing in a resident block (R171). -/
def gangReady (k : GCtx) : Bool :=
  k.g.slot != 0 && k.g.wait = .none && k.blk.status = .resident && !warpEnded k.wp

/-- The lanes in which an instruction would issue: where its guard is poisoned, the active ones. A BRU reads its target in every
active lane, but under (!pt) (R151, R157). -/
def issueLanes (k : GCtx) (i : Instr) : LaneMask :=
  match i with
  | .bru c (.reg _) => if c.pred = 7 && c.inv then 0 else activeLanes k.wp k.g
  | _ =>
    match (guardOf i).map (partLanes k) with
    | some (.ok m) => m
    | _ => activeLanes k.wp k.g

/-- Whether a FENCE.flush waits for a cell of its context in a slice of the span that is being copied (R147, R435). -/
def flushWaits (s : State) (k : GCtx) (i : Instr) : Bool :=
  match i with
  | .fence _ _ _ true => s.cells.any fun c => c.ctx = k.blk.ctx && locHeld s c.loc
  | _ => false

/-- Whether an instruction waits at the scoreboard, for the order of its gang's accesses, for a slice that is copied, for its
latch, or for the block's token (R132, R176, R362, R397, R435). -/
def issueWaits (s : State) (k : GCtx) (m : LaneMask) (i : Instr) : Bool :=
  scoreWaits k m i || orderWaits s k m i || contWaits k i || (m != 0 && flushWaits s k i) ||
  (needsToken i && isDet s k.blk && m != 0 && k.blk.token != k.w + 1)

/-- A gang's instruction issues, once the buffer, the scoreboard and the order of its accesses allow it. -/
def issueInstr (s : State) (k : GCtx) (i : Instr) : Out1 :=
  let m := issueLanes k i
  if drainsFirst s k m i then .next (drain s k.b)
  else if issueWaits s k m i then .next s
  else
    let s1 := countGang (touchFetch s k.blk.core k.blk.ctx k.wp.dirIdx k.g.pc) k
    if k.g.contSave.isSome && contBars k.wp m i then
      .next (takeFault s1 s.cur (raise .illegal (some (lowActive k.wp k.g)) 7))
    else exec i (addWork s1 k.b (laneFlops i * (lanesOf m).length) 0)

/-- A gang issues: stack checks, reports, the watchdog, the fetch, the instruction (R80, R154, R414, R421). -/
def issueGang (s0 : State) (k0 : GCtx) : Out1 :=
  if !gangReady k0 || !detAllows s0 k0 then .next s0
  else
    match offerReports (s0.reports.length + 1) (modWarp s0 k0.b k0.w fun wp => settleGang wp k0.g) with
    | .next s =>
      (match gangOf s s.cur with
       | none => .next s
       | some k =>
         if !gangReady k then .next s
         else if !k.g.replay && k.g.wd.toNat ≥ wdLimit s k.blk then exec .watchdog s
         else
           let lane := lowActive k.wp k.g
           match fetchInstr s .warp k.blk.core k.blk.ctx k.wp.dirIdx k.g.pc (some lane) with
           | .stop r => .next (takeFault (countGang s k) s.cur r)
           | .page ctx va => .next (pageWait (countGang s k) k false .fetch ctx va lane va)
           | .instr i => issueInstr s k i)
    | o => o

/-! ## The helm -/

/-- The s registers that a helm instruction reads or writes. -/
def helmRegs : Instr → List (Fin 64)
  | .sadd _ d a b | .ssub _ d a b | .smul _ d a b | .sshl _ d a b | .sshr _ d a b | .ssar _ d a b | .smin _ d a b _
  | .smax _ d a b _ | .ssel _ d a b _ => d :: src a ++ src b
  | .sand _ d a b | .sor _ d a b | .sxor _ d a b => dst d ++ src a ++ src b
  | .scmp _ _ a b _ _ => src a ++ src b
  | .smov _ d a => dst d ++ src a
  | .smovi _ d _ _ => [d]
  | .sld _ d a _ _ _ _ _ => [d, a]
  | .sst _ a b _ _ _ _ => a :: src b
  | .satom _ d a b op _ _ _ _ => d.toList ++ [a, b] ++ (if op = .cas then [casReg b] else [])
  | .sjmp _ a => [a]
  | .dqpush _ v m => src v ++ src m
  | .fork _ _ _ => List.finRange 64
  | _ => []
where
  src : HSrc → List (Fin 64)
    | .s n => [n]
    | _ => []
  dst : HDst → List (Fin 64)
    | .s n => [n]
    | _ => []

/-- The access of a helm instruction: whether it stores, releases, its address register, offset, form and size. -/
def helmMem : Instr → Option (Bool × Bool × Fin 64 × BitVec 18 × AccForm × Size)
  | .sld _ _ a off _ _ _ sz => some (false, false, a, off, .watch, sz)
  | .sst _ a _ off o _ sz => some (true, o = .rel, a, off, .st, sz)
  | .satom _ _ a _ _ _ o _ sz => some (true, o = .rel || o = .ar, a, 0, .atom, sz)
  | _ => none

/-- Whether the helm waits for the order of its accesses; DQPUSH and FORK release every earlier one (R132, R210, R227, R231,
R232, R369). -/
def helmOrder (s : State) (k : HCtx) (i : Instr) : Bool :=
  let ps := k.blk.helm.pend
  let fabs := s.fabOps.filter (fabOfHelm k.b)
  match i with
  | .dqpush .. | .fork .. => !ps.isEmpty || !fabs.isEmpty
  | _ =>
  match helmMem i with
  | none => false
  | some (stores, rel, a, off, f, size) =>
    ps.any (·.acq) || fabs.any (·.acq) || (stores && (!ps.isEmpty || fabs.any fun o => fabReads o.kind)) ||
    (rel && !fabs.isEmpty) ||
    (match checkAcc s (some k.blk.core) k.blk.ctx f false size (((k.blk.helm.s[a]).toNat : Int) + off.toInt) with
     | .error _ => false
     | .ok c =>
       (ps.any fun p => locsMeet p.acc.loc p.size.bytes c.acc.loc size.bytes) ||
       fabs.any fun o => fabMeets o c.acc.loc size.bytes)

/-- Whether the buffer drains before a helm instruction issues (R142, R228, R271; log 102, DEDUCED). -/
def helmDrains (s : State) (k : HCtx) (i : Instr) : Bool :=
  let mine := k.blk.buffer.filter (·.warp.isNone)
  if mine.isEmpty then false
  else
    match i with
    | .dqpush .. | .fork .. => true
    | _ =>
      match helmMem i with
      | none => false
      | some (stores, _, a, off, f, size) =>
        !isBuffered s k.blk i &&
        (stores || mine.any (·.acq) ||
          (match checkAcc s (some k.blk.core) k.blk.ctx f false size (((k.blk.helm.s[a]).toNat : Int) + off.toInt) with
           | .error _ => false
           | .ok c => mine.any fun b => locsMeet c.acc.loc size.bytes b.loc b.size.bytes))

/-- The pending result that a helm instruction waits for (R227). -/
def helmWaits (k : HCtx) (i : Instr) : Option Nat :=
  (k.blk.helm.pend.find? fun p => (helmRegs i).contains p.d).map (·.id)

/-- The helm counts an issue, unless it replays one (R421). -/
def countHelm (s : State) (b : Nat) : State :=
  modHelm s b fun h => { h with wd := if h.replay then h.wd else h.wd + 1, replay := false }

/-- A helm's instruction issues, or waits. A false guard waits for nothing (R223). -/
def issueHelmInstr (s : State) (k : HCtx) (i : Instr) : Out1 :=
  let on := match guardOf i with | some c => helmGuard k c | none => true
  match (if on then helmWaits k i else none) with
  | some id => .next (modHelm s k.b fun h => { h with wait := .load id })
  | none =>
    if on && helmDrains s k i then .next (drain s k.b)
    else if on && (helmOrder s k i || (needsToken i && isDet s k.blk && k.blk.token != 0)) then .next s
    else exec i (countHelm (touchFetch s k.blk.core k.blk.ctx k.blk.helmDir k.blk.helm.pc) k.b)

/-- The helm issues (R209, R210, R421). -/
def issueHelm (s : State) (k : HCtx) : Out1 :=
  let h := k.blk.helm
  if h.ended || h.wait != .none || k.blk.status != .resident then .next s
  else if !h.replay && h.wd.toNat ≥ wdLimit s k.blk then exec .watchdog s
  else
    match fetchInstr s .helm k.blk.core k.blk.ctx k.blk.helmDir h.pc none with
    | .stop r => .next (takeFault (countHelm s k.b) s.cur r)
    | .page ctx va =>
      .next (modHelm (ringFault (countHelm s k.b) (Fin.ofNat 64 ctx) va AKind.fetch.num (some k.blk.core)) k.b fun y => { y with wait := .page ctx va })
    | .instr i => issueHelmInstr s k i

/-! ## Streams -/

/-- Whether the word at a stream's PC is a numbered operation of the stream, one that fails a check of R297 too (R214, R298). -/
def numberedAt (s : State) (k : SCtx) : Bool :=
  match fetchWord s k.blk.core k.blk.ctx k.blk.helmDir k.st.pc with
  | .error _ => false
  | .ok w =>
    let f := splitWord w
    if k.k = 0 then f.cls = 6 && [3, 4, 5, 6, 7, 0x0B, 0x0C].contains f.op.toNat
    else f.cls = 5 && [1, 2, 3, 4, 6, 7, 8, 9, 0x0A].contains f.op.toNat

/-- A stream issues (R291, R298). -/
def issueStream (s : State) (k : SCtx) : Out1 :=
  if !k.st.running || k.st.wait != .none || k.blk.status != .resident then .next s
  else
    match fetchInstr s (if k.k = 0 then .matrix else .copy) k.blk.core k.blk.ctx k.blk.helmDir k.st.pc none with
    | .stop r => .next (takeFault s s.cur r (numberedAt s k))
    | .page ctx va => .next (streamPage s k .fetch ctx va)
    | .instr i => exec i (touchFetch s k.blk.core k.blk.ctx k.blk.helmDir k.st.pc)

/-- Party p issues its next instruction, if it may. -/
def issue (s0 : State) (p : Party) : Out1 :=
  let s := { s0 with cur := p }
  match gangOf s p with
  | some k => issueGang s k
  | none =>
    match helmOf s p with
    | some k => issueHelm s k
    | none =>
      match streamOf s p with
      | some k => issueStream s k
      | none => .next s

end Sys2Proof.Machine
end

