-- ==== Sys2Proof/Machine/Schedule.lean ====
section
/-!
DEFINITION. What comes next (log 2): the moves that a state enables, the doing of a move, and the placing of one
instruction where a party fetches it.
-/
namespace Sys2Proof.Machine

open Sys2Proof

/-! ## Enabled moves -/

/-- Whether the next instruction of a gang waits for nothing; a fetch that gives no instruction holds nothing up. -/
def nextPasses (s : State) (k : GCtx) : Bool :=
  match fetchInstr s .warp k.blk.core k.blk.ctx k.wp.dirIdx k.g.pc none with
  | .instr i =>
    if drainsFirst s k (issueLanes k i) i then !drainStuck s k.b k.blk else !(issueWaits s k (issueLanes k i) i)
  | _ => true

/-- Whether a gang is eligible: it holds a slot, waits for nothing, and its next instruction, after its slices' stacks are
checked, passes the scoreboard and the order of its accesses (R154, R171, R172, R176). -/
def gangEligible (s : State) (k : GCtx) : Bool :=
  let wp := settleGang k.wp k.g
  gangReady k && detAllows s k &&
  match wp.gangs.find? (·.gid = k.g.gid) with
  | some g => nextPasses s { k with wp := wp, g := g }
  | none => true

/-- The gangs of a partition of a core that hold a slot, with their parties (R170, R190). -/
def gangsOfPartition (s : State) (core : Fin 256) (part : Fin 16) : List (Party × GCtx) :=
  s.blocks.zipIdx.flatMap fun (blk, b) =>
    if blk.core = core && blk.status = .resident then
      blk.warps.zipIdx.flatMap fun (wp, w) =>
        if partitionOf blk w = part then
          (wp.gangs.filter (·.slot != 0)).map fun g => (.gang b w g.gid, { b := b, w := w, blk := blk, wp := wp, g := g })
        else []
    else []

/-- When a gang had its last turn: its last issue, or its warp's last YIELD (R163, R171). -/
def lastTurnOf (k : GCtx) : Nat := max k.g.last k.wp.yieldAt

/-- Whether a gang goes before another: it issued less recently; ties go to the lower warp position, then to slot 1 (R171; log
4, DESIGN CHOICE). -/
def issuesBefore (a b : GCtx) : Bool :=
  let key (k : GCtx) : List Nat := [lastTurnOf k, k.blk.helmPos.val, k.w, k.g.slot.val]
  key a < key b

/-- The issue of a partition: its first eligible gang (R171). -/
def partitionIssue (s : State) (core : Fin 256) (part : Fin 16) : List Move :=
  let ks := (gangsOfPartition s core part).filter fun x => gangEligible s x.2
  match ks.foldl (fun (a : Option (Party × GCtx)) x => match a with
    | none => some x
    | some y => if issuesBefore x.2 y.2 then some x else some y) none with
  | some x => [.issue x.1]
  | none => []

/-- The issues of the cores that hold resident blocks, one move of each partition (R170, R171). -/
def issueMoves (s : State) : List Move :=
  (((s.blocks.filter fun blk => blk.status = .resident).map (·.core)).eraseDups).flatMap fun c =>
    (List.finRange 16).flatMap (partitionIssue s c)

/-- The moves of a gang that waits: the end of its wait. -/
def gangMoves (b w : Nat) (g : Gang) : List Move :=
  let p : Party := .gang b w g.gid
  match g.wait with
  | .none => []
  | .bar _ _ => [.event (.barrierWaitComplete p)]
  | .twait _ _ _ _ => [.event (.twaitSatisfied p)]
  | .dqpop _ _ => [.event (.dqpopDeliver p)]
  | .waita _ _ _ _ _ _ => [.event (.waitaSatisfied p), .event (.fabricPoll p)]
  | .tgath _ _ _ _ _ => [.event (.tgathAccept p)]
  | .regang _ | .safe _ | .bkpt | .fabric _ | .page _ _ _ | .ring _ _ _ _ | .mig _ _ | .fresume _ _ | .recomp => []

/-- The moves of a warp. -/
def warpMovesAt (b : Nat) (x : Warp × Nat) : List Move :=
  x.1.gangs.flatMap (gangMoves b x.2) ++
  (x.1.pend.filter pendReady).map (fun p => .event (if p.isLoad then .loadDataArrives p.id else .atomReturn p.id)) ++
  (if x.1.xferReq.isSome && x.1.safeN.isSome then [.event (.versionTransfer b x.2)] else [])

/-- The moves of a helm. -/
def helmMoves (b : Nat) (h : Helm) : List Move :=
  (match h.wait with
   | .none => if h.ended then [] else [.issue (.helm b)]
   | .dqpush _ _ => [.event (.dqpushAppend b)]
   | .fork _ _ => [.event (.forkStart b)]
   | .join _ => [.event (.joinComplete b)]
   | .load _ | .page _ _ | .mig _ _ => []) ++
  (h.pend.filter hpendReady).map fun p => .event (.helmLoadReturn p.id)

/-- The work on a context's operations: those that have something to do, in their order, and completions (R217, R293, R303). -/
def opMoves (s : State) (b : Nat) (k : Fin 4) (blk : Block) : List Move :=
  (blk.ctxs[k].ops.filter (runReady s b k blk)).map (fun o => .run b k o.n) ++
  blk.ctxs[k].ops.map fun o => .event (.operationComplete b k o.n)

/-- The moves of a stream and of its context's operations. -/
def engMoves (s : State) (b : Nat) (k : Fin 4) (blk : Block) : List Move :=
  (match blk.ctxs[k].stream with
   | none => []
   | some st =>
     match st.wait with
     | .none => if st.running then [.issue (.stream b k)] else []
     | .bar _ _ => if k = 0 then [.event (.mbarwSatisfied b)] else [.event (.cwaitSatisfied b k)]
     | .sig _ _ _ => [.event (.cwaitSatisfied b k), .event (.fabricPoll (.stream b k))]
     | .claim _ _ _ _ => [.event (.mclaimTaken b)]
     | .grant _ | .seg
     | .page _ _ _ | .mig _ _ => []) ++
  opMoves s b k blk

/-- The fabric reads of the waits of a frozen or evicted block (R368, R394; log 60, DEDUCED). -/
def evictedPolls (b : Nat) (blk : Block) : List Move :=
  (blk.warps.zipIdx.flatMap fun x => x.1.gangs.flatMap fun g => match g.wait with
    | .waita _ _ _ _ _ _ => [.event (.fabricPoll (.gang b x.2 g.gid))]
    | _ => []) ++
  (List.finRange 4).flatMap fun k => match blk.ctxs[k].stream with
    | some st => (match st.wait with | .sig _ _ _ => [.event (.fabricPoll (.stream b k))] | _ => [])
    | none => []

/-- The moves of a block (log 88, DESIGN CHOICE). -/
def blockMoves (s : State) (x : Block × Nat) : List Move :=
  let (blk, b) := x
  match blk.status with
  | .ended => []
  | .saving =>
    .event (.blockEvict b) :: (List.finRange 4).flatMap (fun k => opMoves s b k blk) ++ evictedPolls b blk
  | .evicted r => .event (if r then .blockRestore b else .blockWake b) :: evictedPolls b blk
  | .ending => [.event (.blockEnd b)]
  | .resident =>
    blk.warps.zipIdx.flatMap (warpMovesAt b) ++ helmMoves b blk.helm ++
    (List.finRange 4).flatMap (fun k => engMoves s b k blk) ++
    [.event (.blockEnd b), .event (.interimCharge b)] ++
    (if evictWanted s b blk then [.event (.blockEvict b)] else [])

/-- The moves of a queue and its packets. -/
def queueMoves (q : Queue) : List Move :=
  [.event (.writeIndexObserved q.qid), .event (.nodePacket q.qid), .event (.graphPacket q.qid),
   .event (.copyPacket q.qid), .event (.barrierPacket q.qid), .event (.signalPacket q.qid), .event (.xferPacket q.qid),
   .event (.nopPacket q.qid), .event (.selectedBlockTimeout q.qid)] ++
  (q.flights.flatMap fun f =>
    [.event (.barrierRound q.qid f.idx), .event (.barrierPoll q.qid f.idx), .event (.packetRetire q.qid f.idx)]) ++
  (List.range (min 64 (q.observed - q.next))).flatMap fun n =>
    (List.range 4).map fun h => .event (.adapterPrefetch q.qid (q.next + n) h)

/-- The moves of the homes: cells that close, reports, scrubs (R144, R414, R433). -/
def homeMoves (s : State) : List Move :=
  let cells := s.cells.map fun c => Move.event (.cellClose c.loc)
  let reports := (s.reports.zipIdx.filter fun r => !reportWarp s r.1).map fun r => Move.event (.storeImprecise r.2)
  let scrubs := s.scrubs.map fun x => Move.event (.scrubWriteBack (32 * x.granule))
  cells ++ reports ++ scrubs

/-- The moves of translation and migration (R380, R383, R385). -/
def pageMoves (s : State) : List Move :=
  let rings := s.ring.filterMap fun r => r.n.map fun n => Move.event (.faultService r.ctx n)
  let migs := s.migs.zipIdx.map fun m => Move.event (.migrationCopyDone m.2 true)
  rings ++ migs ++ (if s.shoots.isEmpty then [] else [.event .shootdownComplete])

/-- The moves of the general request block (R450). -/
def requestMoves (s : State) : List Move :=
  if s.requests.isEmpty then []
  else
    [.event .registerQueue, .event .deregisterQueue, .event .moveCode, .event .retireVersion, .event .resetPort,
     .event .endNode]

/-- The moves of repair in service (R244, R365, R434, R435). -/
def serviceMoves (s : State) : List Move :=
  let ranges := (s.spanRanges.filter (·.clearing)).map fun r => Move.event (.spanRangeCleared r.off)
  let ports := ((List.finRange 16).filter fun p => s.ports[p].training).map fun p => Move.event (.portRetrainDone p)
  let channels : List Move :=
    (List.finRange 8).flatMap fun k => s.hbmStacks[k].copying.map (fun ch => .event (.channelCopyComplete k ch)) ++
      s.hbmStacks[k].due.map fun ch => .event (.channelRetire k ch)
  let spares : List Move := ((List.finRange 256).filter fun c => s.cores[c].takeover.isSome).flatMap
    fun c => [.event (.spareTakeover c), .event (.spanSliceCopyComplete c)]
  ranges ++ ports ++ channels ++ spares

/-- The moves of the arbiter and of the nodes (R349, R446). -/
def arbiterMoves (s : State) : List Move :=
  let nodes := (s.nodes.zipIdx.filter fun n => n.1.status != .done).map fun n => Move.event (.graphNodeComplete n.2)
  let grant : List Move := match s.matrixReqs with | b :: _ => [.event (.matrixGrant b)] | [] => []
  nodes ++ grant ++ [.event .arbiterEpoch]

/-- The moves of translation, service and management. -/
def deviceMoves (s : State) : List Move :=
  homeMoves s ++ pageMoves s ++ requestMoves s ++ serviceMoves s ++ arbiterMoves s

/-- The moves that a state enables. One whose condition does not hold changes nothing but the tick. -/
def enabled (s : State) : List Move :=
  match s.boot with
  | .off | .stopped => []
  | .up =>
    issueMoves s ++ s.blocks.zipIdx.flatMap (blockMoves s) ++ s.queues.flatMap queueMoves ++
    (if s.queues.isEmpty then [] else [.event .blockRelease]) ++ deviceMoves s ++ [.time (Config.elapsed s.tick)]

/-- The next move: the first of the agenda, else, before the boot, POWER_ON, and after it one of those enabled, which
Config.choose picks; none where nothing is enabled. -/
def nextMove (s : State) : Option (Move × State) :=
  match s.agenda, s.boot with
  | m :: r, _ => some (m, { s with agenda := r })
  | [], .off => some (.event .powerOn, s)
  | [], _ =>
    let ms := enabled s
    (ms[Config.choose s.tick % ms.length]?).map fun m => (m, s)

/-- A row's wait for a page ends, and its operation runs on (R385). -/
def resumeOp (ctx vpage b : Nat) (k : Fin 4) (n : Nat) (s : State) : State :=
  runOp (modEng s b k fun e => { e with
    ops := e.ops.map fun o => if o.n = n then { o with rows := o.rows.map (serveRow ctx vpage .replay) } else o }) b k n

/-- An access that was held is performed: its instruction is issued again, its row runs, its packet goes on, its request is
served (R385, R435; log 18, DESIGN CHOICE). -/
def resumeHeld (ctx vpage : Nat) (h : Held) (s : State) : Out1 :=
  match h with
  | .party p =>
    (match p with
    | .gang b w g =>
      if ((gangOf s p).map (·.g.wait)) = some (.mig ctx vpage) then issue (modGangW s b w g replayGang) p else .next s
    | .helm b =>
      if ((helmOf s p).map (·.blk.helm.wait)) = some (.mig ctx vpage) then
        issue (modHelm s b fun x => { x with wait := .none, replay := true }) p
      else .next s
    | .stream b k =>
      if ((streamOf s p).map (·.st.wait)) = some (.mig ctx vpage) then
        issue (modStream s b k fun x => { x with wait := .none }) p
      else .next s)
  | .op b k n => .next (resumeOp ctx vpage b k n s)
  | .flight q idx => .next (serveFlight ctx vpage .replay s q idx)
  | .node n => .next (serveNode ctx vpage .replay s n)
  | .req i => .next (serveAgain s i)
  | .access id => performAccess s ctx vpage id

/-- A move is done. -/
def doMove (m : Move) (s : State) : Out1 :=
  match m with
  | .event i => exec i s
  | .issue p => issue s p
  | .run b k n => .next (runOp s b k n)
  | .resume ctx vpage h => resumeHeld ctx vpage h s
  | .time n => .next (passTime s n)
  | .mgmtRead i off n => mgmtRead i off n s
  | .badRequest i => badRequest i s
  | .corrected x => correctedError x s
  | .parity x => parityError x s
  | .dropForward i ctx n => dropForward i ctx n s
  | .loadCal i tables => loadCalibration i tables s

/-- What settles at the end of every step: the contexts whose packets have retired as they leave RUN, the schedules of
deterministic mode, the warps that have come to stand for a transfer, the wake conditions of frozen blocks, migrations that
waited, and the turns of queues that are no longer backlogged (R172, R353, R384, R389, R444). -/
def settleAll (s : State) : State :=
  let s0 := if s.ctxs.toList.any (·.leaving.isSome) then (List.finRange 64).foldl settleLeave s else s
  let s1 := noteWakes (noteStops (settleDet s0))
  let s2 := if s1.migWait.isEmpty then s1 else settleMigs s1
  if s2.queues.any fun q => q.turn || q.deficit > 0 then settleTurns s2 else s2

/-- A state after its move: what settles has settled, the writes of the step have woken whom they wake, and the tick advances. -/
def afterMove (s : State) : State := { settleAll s with tick := s.tick + 1, wrote := [] }

/-! ## One instruction placed where a party fetches it -/

/-- Physical and virtual base of the page that holds the directory and the code. -/
def loadPage : Nat := 0x10000

/-- The bytes that a load writes: tables at 0 to 0x6200, which map loadPage readable and executable to itself, one
directory entry at loadPage + 0x1000, and the code at loadPage (R59, R376, R377, R404). -/
def loadImage (m : Mem) (code : List Byte) : Mem :=
  let entry (m : Mem) (a e : Nat) : Mem := memWrite m a (leBytes 16 e)
  let m1 := entry m 0 (0x2000 * 2 ^ 64 + 1)
  let m2 := entry m1 0x2000 (0x4000 * 2 ^ 64 + 1)
  let m3 := entry m2 0x4000 (0x6000 * 2 ^ 64 + 1)
  let m4 := entry m3 0x6010 (loadPage * 2 ^ 64 + 0x17)
  let dir := 2 ^ 48 + loadPage * 2 ^ 64 + 4096 * 2 ^ 128
  memWrite (memWrite m4 (loadPage + 0x1000) (leBytes 32 dir)) loadPage code

/-- The descriptor of the loaded kernel: one block of one warp of 8 slices, 32 barriers and the whole pool (R186). -/
def loadKdesc : KDesc :=
  { cluster := 1, barriers := 32, span := 0, args := 0, codebase := loadPage, polcl := 2, polbk := 2, polwp := 2,
    version := 0, helmpc := 0, roles := [{ entry := 0, nslice := 8, gmax := 256, warps := 1 }] }

/-- The party of block b that fetches a word: the stream that accepts it, the warp's where none does (R14). -/
def loadParty (b : Nat) (w : IWord) : Party :=
  let f := splitWord w
  if !opAssigned f then .gang b 0 0
  else
    match opStream f with
    | .warp => .gang b 0 0
    | .helm => .helm b
    | .copy => .stream b 1
    | .matrix => .stream b 0

/-- A context of the loaded kernel: its tables and its directory (R375, R403). -/
def loadCtx (c : Ctx) : Ctx :=
  { c with valid := true, root := 0, dirBase := BitVec.ofNat 56 (loadPage + 0x1000), dirCount := 1, det := false }

/-- A block of the loaded kernel on core 0, its streams running from PC 0 (log 22, DESIGN CHOICE). -/
def loadBlock (s : State) : State :=
  let n := s.nodes.length
  let nd : Node := { newNode s 0 0 0 none 0 loadKdesc 0 with nblocks := 1, next := 1 }
  let blk := launchBlock n nd (0, 0, 0) 0 0 0
  let run (e : EngCtx) : EngCtx := { e with stream := some (newStream blk.helm 0), forked := true }
  { s with nodes := s.nodes ++ [nd], blocks := s.blocks ++ [{ blk with ctxs := blk.ctxs.map run }] }

/-- A program of one word loaded from outside, the issue of its party next (log 22, DESIGN CHOICE). -/
def placeWord (s : State) (w : IWord) : State :=
  let keep (l : List TlbEnt) : List TlbEnt := l.filter fun t => t.ctx != 0
  let s1 := modCore (modCtx s 0 loadCtx) 0 fun c => { c with tlb := keep c.tlb }
  let s2 : State :=
    { s1 with
      mem := loadImage s1.mem (bytesOfWord w)
      badGranules := s1.badGranules.filter fun g => g / 2048 != 1
      dieTlb := s1.dieTlb.set 0 (keep s1.dieTlb[0])
      boot := .up }
  { loadBlock s2 with agenda := .issue (loadParty s.blocks.length w) :: s.agenda }

end Sys2Proof.Machine
end

