-- ==== Sys2Proof/Machine/Step.lean ====
section
/-!
DEFINITION. One step of the part: one move (log 2), and the placing of an instruction where the next step fetches it.
-/
namespace Sys2Proof.Machine

open Sys2Proof

/-- One step. Where nothing is enabled only the tick advances. -/
def step (s : State) : Host.Outcome State Fault Refusal :=
  match nextMove s with
  | none => .next (afterMove s)
  | some (m, t) =>
    match doMove m t with
    | .next u => .next (afterMove u)
    | .fault r => .fault r
    | .refused r => .refused r

/-- The state with an instruction stored where the next step fetches it (log 22, DESIGN CHOICE). -/
def State.withFetchWord (s : State) (nbits w : Nat) : State := placeWord s (BitVec.ofNat 96 (w % 2 ^ nbits))

end Sys2Proof.Machine
end

