-- ==== Sys2Proof/Safety.lean ====
section
/-!
DEFINITION. What counts as a safe run: every sparse memory of the state keeps its canonical form, and no step ends in a
fault or a refusal. And the words that statements about single instructions are made of.
-/
namespace Sys2Proof.Machine

open Sys2Proof

/-- The sparse memories of a core are canonical. -/
def Core.memWf (c : Core) : Bool := Memory.wf c.slotBytes && Memory.wf c.tileBytes

/-- The sparse memories of an evicted block's image are canonical. -/
def Image.memWf (im : Image) : Bool := Memory.wf im.slotBytes && Memory.wf im.tileBytes

/-- Device memory, the span and the line versions are canonical (R4, R140, R241; log 1, DESIGN CHOICE). -/
def State.homesWf (s : State) : Bool := Memory.wf s.mem && Memory.wf s.span && Memory.wf s.lineVer

/-- Every sparse memory of the state is canonical. -/
def State.memWf (s : State) : Bool :=
  s.homesWf && Memory.wf s.tcm && (s.cores.toList.all Core.memWf) && s.blocks.all fun blk => (blk.image.map Image.memWf).getD true

/-- A step that goes on. -/
def State.goesOn (s : State) : Prop := ∃ t, step s = .next t

/-- A run of n steps in which no step stops and every state keeps its memories canonical. -/
def safeFor : Nat → State → Prop
  | 0, s => s.memWf = true
  | n + 1, s => s.memWf = true ∧ ∃ t, step s = .next t ∧ safeFor n t

end Sys2Proof.Machine

namespace Sys2Proof.Claims

open Sys2Proof Sys2Proof.Machine

/-! ## Words of the statements -/

/-- Device memory, the span and every line's version read as before, at every address. -/
def SameStores (s t : State) : Prop :=
  ∀ a, memGet t.mem a = memGet s.mem a ∧ memGet t.span a = memGet s.span a ∧ memGet t.lineVer a = memGet s.lineVer a

/-- Gang k issues an instruction with guard c, in the lanes m, of which there is at least one (R63, R83). -/
structure Issues (s : State) (k : GCtx) (c : Ctl) (m : LaneMask) : Prop where
  gang : gangOf s s.cur = some k
  part : partLanes k c = .ok m
  some : m ≠ 0

/-- The helm k issues an instruction whose guard is true (R64, R223). -/
structure HelmIssues (s : State) (k : HCtx) (c : Ctl) : Prop where
  helm : helmOf s s.cur = some k
  guard : helmGuard k c = true

/-- The stream k issues; copies says whether it is a copy stream. -/
structure StreamIssues (s : State) (k : SCtx) (copies : Bool) : Prop where
  stream : streamOf s s.cur = some k
  kind : (k.k == 0) ≠ copies

/-- The register of the main file that a destination names in lane l (R50, R54). -/
def vTarget (k : GCtx) (d : Dst) (l : Nat) : Option (Fin 256) :=
  match d with
  | .v n _ | .vo n _ _ => some n
  | .vx x _ => (idxLane k.wp x l).toOption
  | .o _ | .latch => none

/-- The operand-file slot that a destination names (R54). -/
def oTarget : Dst → Option (Fin 8)
  | .o n | .vo _ n _ => some n
  | .v _ _ | .vx _ _ | .latch => none

/-- The view with which a destination is written (R53). -/
def dView : Dst → View
  | .v _ v | .vo _ _ v | .vx _ v => v
  | .o _ | .latch => .w

/-- Nothing stops the write of destination d in the lanes m: an index is in range, and a subword view, which reads the old
word, meets no poison (R51, R53, R430). -/
def CanWrite (k : GCtx) (d : Dst) (m : LaneMask) : Prop :=
  ∀ l ∈ lanesOf m,
    (∀ x v, d = .vx x v → ∃ n, idxLane k.wp x l = .ok n) ∧
    (dView d = .w ∨ ∀ n, vTarget k d l = some n → laneBit k.wp.regs[n].poison l = false)

/-- One register after a write: in the lanes that the write reaches the new word put in through the view, and no poison; in
the other lanes of the warp's width what it held (R46, R53, R430). -/
def LanesWritten (k : GCtx) (old new : VReg) (view : View) (hit : Nat → Bool) (v : VVal) : Prop :=
  ∀ l < 4 * k.wp.width.val,
    laneVal new.val l = (if hit l then insertView view (laneVal old.val l) (laneVal v l) else laneVal old.val l) ∧
    laneBit new.poison l = (if hit l then false else laneBit old.poison l)

/-- What a destination's slot takes of value v: for vN+oM, the word that the register takes (R53, R54). -/
def oValue (k : GCtx) (d : Dst) (v : VVal) : VVal :=
  match d with
  | .vo n _ vw => mkG fun l => insertView vw (laneVal k.wp.regs[n].val l) (laneVal v l)
  | _ => v

/-- The warp wp and the latch after value v is written to destination d in the lanes m: the registers that d names, and no
others; the latch takes the result in the lanes written and in the others the first level's value after the write, with none of
its poison, or, where that level is indexed or the latch, what it held (R54, R55, R430). -/
def WarpWrote (k : GCtx) (d : Dst) (m : LaneMask) (v : VVal) (wp : Warp) (latch : VReg) : Prop :=
  wp = { k.wp with regs := wp.regs, ofile := wp.ofile } ∧
  (∀ n : Fin 256, LanesWritten k k.wp.regs[n] wp.regs[n] (dView d) (fun l => laneBit m l && (vTarget k d l == some n)) v) ∧
  (∀ n : Fin 8, LanesWritten k k.wp.ofile[n] wp.ofile[n] .w (fun l => laneBit m l && (oTarget d == some n)) (oValue k d v)) ∧
  (∀ n : Fin 256, (∀ l ∈ lanesOf m, vTarget k d l ≠ some n) → wp.regs[n] = k.wp.regs[n]) ∧
  (∀ n : Fin 8, oTarget d ≠ some n → wp.ofile[n] = k.wp.ofile[n]) ∧
  match d with
  | .v n vw | .vo n _ vw => (vw = .w → latch = wp.regs[n].clean) ∧ LanesWritten k wp.regs[n].clean latch .w (laneBit m) v
  | .o n => latch = wp.ofile[n].clean
  | .vx _ _ | .latch => LanesWritten k k.g.latch latch .w (laneBit m) v

/-- What an instruction does that produces v for destination d in the lanes m: where the warp then holds no more lines
than gmax, registers, latch and PC change and nothing else, but for what post adds; else REGPOOL_EXHAUSTED is taken (R49). -/
def Produces (s : State) (k : GCtx) (d : Dst) (m : LaneMask) (v : VVal) (post : State → State) (out : Out1) : Prop :=
  ∃ wp latch, WarpWrote k d m v wp latch ∧
    (linesHeld wp ≤ wp.gmax →
      out = .next (post (modWarp s k.b k.w fun _ =>
        modGangs wp k.g.gid fun g => { g with latch := latch, lat := [], pc := g.pc + 1 }))) ∧
    (wp.gmax < linesHeld wp → out = .next (takeFault s s.cur (raise .regpool (some (lowLane m)))))

end Sys2Proof.Claims
end

