-- ==== Sys2Proof/Certificates/Slice0/Obligations.lean ====
section
/-!
DEFINITION. The statements for the provers. The words that they share stand in Sys2Proof/Safety.lean.
-/
open Sys2Proof Sys2Proof.Machine Sys2Proof.Claims

/-! ## Decoding, stepping, storage, reset -/

namespace Sys2Proof.Claims

open Sys2Proof Sys2Proof.Machine

/-- An instruction word from its three 32-bit words (R59). -/
def word3 (w0 w1 w2 : Nat) : IWord := BitVec.ofNat 96 (w0 + 2 ^ 32 * w1 + 2 ^ 64 * w2)

/-- The guard 0b0111: every active lane, no hint (R63). -/
def pt : Ctl := { pred := 7, inv := false, hint := 0 }

end Sys2Proof.Claims

/-- Words that the manual writes out, one or more of each class but 100 and 111, and one of each of those: each decodes to
the instruction that it stands for (R59, R61, R66, R67, R69 to R78). -/
def Obligations.WrittenWordsDecode : Prop :=
  decode (word3 0x00501C11 0x02000040 0x03A80C00) =
    some (.lop3 pt (.v 5 .w) (.v 1 .w) (.v 2 .w) (.v 3) 0xEA) ∧
  decode (word3 0x20482801 0x40C00100 0) =
    some (.iadd { pred := 2, inv := true, hint := 0 } (.vo 4 1 .w) (.v 4 .w) (.int 64) .w32 false false) ∧
  decode (word3 0x00001C09 0x06000020 0x00000B00) = some (.isetp pt 0 (.latch .w) (.v 6 .w) .lt false) ∧
  decode (word3 0x00301C84 0x01000040 0x0C000800) =
    some (.ffma pt (.v 3 .w) (.v 1 .w) (.v 1 .w) (.v 2 .w) .rd .fp32) ∧
  decode (word3 0x00601D01 0x00800100 0x30001000) = some (.ld pt (.v 6 .w) 2 16 .acq .dv false false .b32) ∧
  decode (word3 0x00081D02 0x00800100 0) = some (.st pt 2 (.latch .w) 0 .plain .none false none .b32) ∧
  decode (word3 0x00100181 0x00C00000 0) = some (.bra { pred := 0, inv := false, hint := 0 } 4 3) ∧
  decode (word3 0x00001D91 0x02C00030 0) = some (.bars pt (.int 0) (.int 2)) ∧
  decode (word3 0x00041E0C 0x03C00040 0x00000B00) = some (.scmp pt 0 (.s 1) (.imm 3) .lt false) ∧
  decode (word3 0x01401E85 0x08000100 0x00040300) = some (.tgath pt 10 2 4 (.int 256)) ∧
  decode (word3 0x00001E8A 0x02C00040 0x80000000) = some (.csig pt (.bar 1 2)) ∧
  decode (word3 0x00201F03 0x0A000140 0x08000000) = some (.mma pt 2 5 10 .ti8) ∧
  decode (word3 0x00101F04 0x06000000 0x00001900) = some (.mmag pt 1 0 6 6) ∧
  decode (word3 0x00501F81 0x000001B0 0) = some (.csrr pt (.v 5 .w) 6)

/-- The decoder reads every instruction back from the bytes of its word, whatever the operands: for every well-formed
instruction that has a word, and every instruction of the eight classes has one, decoding the twelve bytes of its
encoding, lowest first, gives it and leaves the bytes that follow (R59 to R81). -/
def Obligations.DecodingInvertsEncoding : Prop :=
  ∀ i x rest, Instr.wf i = true → encode i = some x → decodeBytes (bytesOfWord x ++ rest) = .ok (i, rest)

/-- A step runs the instruction that the bytes at the issuing party's PC decode to. For a gang: its word is fetched from its
version's code, nothing makes the gang wait, no entry of the buffer drains first, and the step is exec of the decoded
instruction, after the issue is counted and before the state settles and the tick advances (R14, R59, R80, R142, R171, R421).
-/
def Sys2Proof.Claims.StepRunsDecodedWarpInstruction : Prop :=
  ∀ (s : State) (b w g : Nat) (rest : List Move) (k0 k : GCtx) (e : DirEnt) (bs : List Byte) (i : Instr),
    let p : Party := .gang b w g
    let s0 : State := { s with agenda := rest, cur := p }
    let s1 := modWarp s0 b w fun wp => settleGang wp k0.g
    let m := issueLanes k i
    s.agenda = .issue p :: rest →
    gangOf s0 p = some k0 → gangReady k0 = true → detAllows s0 k0 = true →
    (∀ r ∈ s.reports, reportHere s0 r = none) →
    gangOf s1 p = some k → gangReady k = true → (k.g.replay = true ∨ k.g.wd.toNat < wdLimit s1 k.blk) →
    dirEnt s1 k.blk.ctx k.wp.dirIdx = some e →
    fetchBytes s1 k.blk.core k.blk.ctx (e.codebase + 12 * k.g.pc.toNat) = .ok bs →
    opAssigned (splitWord (wordOfBytes bs)) = true → opStream (splitWord (wordOfBytes bs)) = .warp →
    decode (wordOfBytes bs) = some i →
    drainsFirst s1 k m i = false → issueWaits s1 k m i = false →
    (k.g.contSave.isSome && contBars k.wp m i) = false →
    step s =
      match exec i (addWork (countGang (touchFetch s1 k.blk.core k.blk.ctx k.wp.dirIdx k.g.pc) k) k.b
          (laneFlops i * (lanesOf m).length) 0) with
      | .next u => .next (afterMove u)
      | .fault r => .fault r
      | .refused r => .refused r

/-- The same for a helm and for an engine stream (R14, R59, R80, R209, R291, R421). -/
def Sys2Proof.Claims.StepRunsDecodedHelmAndStreamInstruction : Prop :=
  (∀ (s : State) (b : Nat) (rest : List Move) (blk : Block) (e : DirEnt) (bs : List Byte) (i : Instr),
    let p : Party := .helm b
    let s0 : State := { s with agenda := rest, cur := p }
    let k : HCtx := { b := b, blk := blk }
    let on := match guardOf i with
      | some c => helmGuard k c
      | none => true
    s.agenda = .issue p :: rest → s.blocks[b]? = some blk →
    blk.helm.ended = false → blk.helm.wait = .none → blk.status = .resident →
    (blk.helm.replay = true ∨ blk.helm.wd.toNat < wdLimit s0 blk) →
    dirEnt s0 blk.ctx blk.helmDir = some e →
    fetchBytes s0 blk.core blk.ctx (e.codebase + 12 * blk.helm.pc.toNat) = .ok bs →
    opAssigned (splitWord (wordOfBytes bs)) = true → opStream (splitWord (wordOfBytes bs)) = .helm →
    decode (wordOfBytes bs) = some i →
    (on = true → helmWaits k i = none ∧ helmDrains s0 k i = false ∧ helmOrder s0 k i = false ∧
      (needsToken i && isDet s0 blk && blk.token != 0) = false) →
    step s =
      match exec i (countHelm (touchFetch s0 blk.core blk.ctx blk.helmDir blk.helm.pc) b) with
      | .next u => .next (afterMove u)
      | .fault r => .fault r
      | .refused r => .refused r) ∧
  (∀ (s : State) (b : Nat) (n : Fin 4) (rest : List Move) (blk : Block) (st : Stream) (e : DirEnt) (bs : List Byte)
    (i : Instr),
    let p : Party := .stream b n
    let s0 : State := { s with agenda := rest, cur := p }
    s.agenda = .issue p :: rest → s.blocks[b]? = some blk → blk.ctxs[n].stream = some st →
    st.running = true → st.wait = .none → blk.status = .resident →
    dirEnt s0 blk.ctx blk.helmDir = some e →
    fetchBytes s0 blk.core blk.ctx (e.codebase + 12 * st.pc.toNat) = .ok bs →
    opAssigned (splitWord (wordOfBytes bs)) = true →
    opStream (splitWord (wordOfBytes bs)) = (if n = 0 then .matrix else .copy) →
    decode (wordOfBytes bs) = some i →
    step s =
      match exec i (touchFetch s0 blk.core blk.ctx blk.helmDir st.pc) with
      | .next u => .next (afterMove u)
      | .fault r => .fault r
      | .refused r => .refused r)

/-- A stream accepts only its own instructions: a warp instruction that a helm or an engine stream meets, a helm
instruction that a gang or an engine stream meets, or an engine instruction that a gang, a helm or the other engine
stream meets, takes WRONG_STREAM; shown of one instruction of each stream (R14, R80). -/
def Obligations.OtherStreamsTakeWrongStream : Prop :=
  (∀ s c d a b w sat u, gangOf s s.cur = none → partyExists s s.cur = true →
    exec (.iadd c d a b w sat u) s = .next (takeFault s s.cur (raise .wrongStream none))) ∧
  (∀ s c d a b, helmOf s s.cur = none → partyExists s s.cur = true →
    exec (.sadd c d a b) s = .next (takeFault s s.cur (raise .wrongStream none))) ∧
  (∀ s c p, streamOf s s.cur = none → partyExists s s.cur = true →
    exec (.cpy c p) s = .next (takeFault s s.cur (raise .wrongStream none))) ∧
  (∀ s k c p, streamOf s s.cur = some k → k.k = 0 →
    exec (.cpy c p) s = .next (takeFault s s.cur (raise .wrongStream none) true)) ∧
  (∀ s k c d, streamOf s s.cur = some k → k.k ≠ 0 →
    exec (.mzero c d) s = .next (takeFault s s.cur (raise .wrongStream none) true))

/-- Reset: power present and nothing booted, no work, no page mapped, nothing listed in memory, the budget at 2,600, every
priority level at CAP 64 and FLOOR 0, and every context CONFIG_UNLOCKED with no valid record. The values that the manual does
not give are the model's (log 2, log 23). Every sparse memory of the state after reset is in canonical form (log 1). -/
def Obligations.ResetState : Prop := State.reset.memWf = true ∧
  State.reset.boot = .off ∧ State.reset.mem = [] ∧ State.reset.span = [] ∧ State.reset.blocks = [] ∧
  State.reset.queues = [] ∧ State.reset.pwrBudget = 2600 ∧
  (∀ n : Fin 24, State.reset.levels[n] = { cap := 64, floor := 0 }) ∧
  (∀ n : Fin 64, State.reset.ctxs[n].valid = false ∧ State.reset.ctxs[n].inst = .unlocked) ∧
  (∀ n : Fin 16, State.reset.ports[n].active = 0xF) ∧ State.reset.errCount = 0

/-- Whatever a step does, device memory, the span and the versions of the lines stay in canonical form: addresses strictly
rising, no byte listed that an unlisted address reads as (log 1). -/
def Obligations.StoresStayCanonical : Prop :=
  ∀ s t, s.homesWf = true → step s = .next t → t.homesWf = true

/-- A place of the device reads back what was written to it, and every other address of its memory reads as before, where
no granule of the written range is poisoned (R8, R138, R431). -/
def Sys2Proof.Claims.ReadAfterWrite : Prop :=
  ∀ (s : State) (t : Report) (a : Nat) (bs : List Byte), s.homesWf = true →
    ((∀ g ∈ unitsOf 32 a bs.length, s.badGranules.contains g = false) →
      readLoc (writeLoc s t (.dev a) bs) (.dev a) bs.length = bs ∧
      ∀ x, (x < a ∨ a + bs.length ≤ x) → memGet (writeLoc s t (.dev a) bs).mem x = memGet s.mem x) ∧
    readLoc (writeLoc s t (.span a) bs) (.span a) bs.length = bs ∧
    ∀ x, (x < a ∨ a + bs.length ≤ x) → memGet (writeLoc s t (.span a) bs).span x = memGet s.span x

/-- A write that covers part of a poisoned granule is discarded and reported; one that covers all of it is performed and
clears the poison (R431). -/
def Sys2Proof.Claims.PoisonedGranuleWrites : Prop :=
  ∀ (s : State) (t : Report) (g o : Nat) (bs : List Byte), s.badGranules.contains g = true →
    (0 < bs.length → bs.length < 32 → o + bs.length ≤ 32 → (∀ x ∈ s.scrubs, x.granule ≠ g) →
      writeLoc s t (.dev (32 * g + o)) bs = { report s t 0 with wrote := (.dev (32 * g + o), bs.length) :: s.wrote }) ∧
    (bs.length = 32 → s.homesWf = true →
      readLoc (writeLoc s t (.dev (32 * g)) bs) (.dev (32 * g)) 32 = bs ∧
      (writeLoc s t (.dev (32 * g)) bs).badGranules.contains g = false ∧
      (writeLoc s t (.dev (32 * g)) bs).reports = s.reports)

/-- A step runs the decoded instruction: of a gang, of the helm, of a stream (R59, R171, R291; log 22). -/
def Obligations.StepRunsTheDecodedInstruction : Prop :=
  Sys2Proof.Claims.StepRunsDecodedWarpInstruction ∧ Sys2Proof.Claims.StepRunsDecodedHelmAndStreamInstruction

/-- A byte read after a write is the byte written, and every other byte reads as before; a partial write of a poisoned
granule is discarded and reported, a full one clears the poison (R431; log 1). -/
def Obligations.ReadAfterWriteAndPoison : Prop :=
  Sys2Proof.Claims.ReadAfterWrite ∧ Sys2Proof.Claims.PoisonedGranuleWrites
/-! ## Operands, guards and results of the warp stream -/

namespace Sys2Proof.Claims

open Sys2Proof Sys2Proof.Machine

/-- The value that a source has in lane l for an instruction that reads it as kind sk: the register's word through its
view, sign-extended under sg, or the constant (R51, R52, R67, R68). -/
def srcLane (k : GCtx) (sk : SrcKind) (sg : Bool) (a : Src) (l : Nat) : Option Word :=
  match a with
  | .v n vw => some (viewWord vw sg sk.isF (laneVal k.wp.regs[n].val l))
  | .o n vw => some (viewWord vw sg sk.isF (laneVal k.wp.ofile[n].val l))
  | .latch vw => some (viewWord vw sg sk.isF (laneVal k.g.latch.val l))
  | .vx x vw => ((idxLane k.wp x l).toOption).map fun n => viewWord vw sg sk.isF (laneVal k.wp.regs[n].val l)
  | .int i => some (intConst sk i)
  | .flt i => some (fltConst sk i)
  | .spec p => some (specialWord p)

/-- The poison of a source in lane l; a constant has none (R430). -/
def srcPoison (k : GCtx) (a : Src) (l : Nat) : Bool :=
  match a with
  | .v n _ => laneBit k.wp.regs[n].poison l
  | .o n _ => laneBit k.wp.ofile[n].poison l
  | .latch _ => laneBit k.g.latch.poison l
  | .vx x _ => (match idxLane k.wp x l with | .ok n => laneBit k.wp.regs[n].poison l | .error _ => true)
  | .int _ | .flt _ | .spec _ => false

/-- Instruction i of one source, read at width w, gives f of it in every lane (R45, R83). -/
def Gives1 (i : Ctl → Dst → Src → Instr) (w : Width) (sg : Bool) (f : Word → Word) : Prop :=
  ∀ (s : State) (k : GCtx) (c : Ctl) (m : LaneMask) (d : Dst) (a : Src) (x : VVal), Issues s k c m →
    readSrc k m (.int w) sg a = .ok x → CanWrite k d m →
    ∃ v, (∀ l < 32, laneVal v l = f (laneVal x l)) ∧ Produces s k d m v id (exec (i c d a) s)

/-- The same for two sources. -/
def Gives2 (i : Ctl → Dst → Src → Src → Instr) (w : Width) (sa sb : Bool) (f : Word → Word → Word) : Prop :=
  ∀ (s : State) (k : GCtx) (c : Ctl) (m : LaneMask) (d : Dst) (a b : Src) (x y : VVal), Issues s k c m →
    readSrc k m (.int w) sa a = .ok x → readSrc k m (.int w) sb b = .ok y → CanWrite k d m →
    ∃ v, (∀ l < 32, laneVal v l = f (laneVal x l) (laneVal y l)) ∧ Produces s k d m v id (exec (i c d a b) s)

/-- The same for three sources. -/
def Gives3 (i : Ctl → Dst → Src → Src → Src → Instr) (w : Width) (sg : Bool) (f : Word → Word → Word → Word) : Prop :=
  ∀ (s : State) (k : GCtx) (c : Ctl) (m : LaneMask) (d : Dst) (a b e : Src) (x y z : VVal), Issues s k c m →
    readSrc k m (.int w) sg a = .ok x → readSrc k m (.int w) sg b = .ok y → readSrc k m (.int w) sg e = .ok z →
    CanWrite k d m →
    ∃ v, (∀ l < 32, laneVal v l = f (laneVal x l) (laneVal y l) (laneVal z l)) ∧
      Produces s k d m v id (exec (i c d a b e) s)

end Sys2Proof.Claims

/-- What a source gives in the participating lanes: every lane its own register word through the view, or the constant;
and a read in a poisoned lane raises UNCORRECTABLE for the lowest such lane, an index out of range REG_INDEX_RANGE for the first
lane that meets it (R51, R52, R67, R68, R430). -/
def Sys2Proof.Claims.SourcesReadLaneByLane : Prop :=
  ∀ (k : GCtx) (m : LaneMask) (sk : SrcKind) (sg : Bool) (a : Src),
    ((∀ l ∈ lanesOf m, srcPoison k a l = false ∧ (srcLane k sk sg a l).isSome) →
      ∃ v, readSrc k m sk sg a = .ok v ∧ ∀ l ∈ lanesOf m, srcLane k sk sg a l = some (laneVal v l)) ∧
    (∀ n vw, (a = .v n vw → k.wp.regs[n].poison &&& m ≠ 0 →
      readSrc k m sk sg a = .error (raise .uncorrectable (some (lowLane (k.wp.regs[n].poison &&& m)))))) ∧
    (∀ x vw l e, a = .vx x vw → l ∈ lanesOf m → idxLane k.wp x l = .error e →
      (∀ j ∈ lanesOf m, j < l → ∃ n, idxLane k.wp x j = .ok n) → readSrc k m sk sg a = .error e)

/-- An index descriptor: lane l reaches register base + i for its index i, REG_INDEX_RANGE where i is at or above the limit or
the register is above 255 (R51). -/
def Sys2Proof.Claims.IndexDescriptorReaches : Prop :=
  ∀ (wp : Warp) (x : Fin 8) (l : Nat),
    let d := wp.xd[x]
    let r := wp.regs[d.vidx.toNat]?.getD VReg.zero
    let i := (laneVal r.val l).toNat
    d.poison = false → laneBit r.poison l = false →
    idxLane wp x l =
      if d.limit.toNat ≤ i ∨ 255 < d.base.toNat + i then .error (raise .regIndex (some l))
      else .ok (Fin.ofNat 256 (d.base.toNat + i))

/-- Where no lane participates, the gang only goes on: a result-producing instruction gives every latch lane what its
destination holds unless its guard is (!pt), and any other changes nothing; shown of one of each (R55, R63). That the latch
keeps its value where the destination is indexed is the model's choice (log 8). -/
def Sys2Proof.Claims.NoLaneNoEffect : Prop :=
  ∀ (s : State) (k : GCtx) (c : Ctl), gangOf s s.cur = some k → partLanes k c = .ok 0 →
    (∀ d a b w sat u, ¬(c.pred = 7 ∧ c.inv = true) →
      exec (.iadd c d a b w sat u) s = .next (modWarp s k.b k.w fun _ =>
        modGangs k.wp k.g.gid fun g => { g with latch := levelNow k d, lat := [], pc := g.pc + 1 })) ∧
    (∀ d a b w sat u, c.pred = 7 → c.inv = true →
      exec (.iadd c d a b w sat u) s = .next (modGang s k.b k.w k.g.gid fun g => { g with pc := g.pc + 1 })) ∧
    (∀ addr data off o sc raw v sz, exec (.st c addr data off o sc raw v sz) s =
      .next (modGang s k.b k.w k.g.gid fun g => { g with pc := g.pc + 1 })) ∧
    exec (.exit c) s = .next (modGang s k.b k.w k.g.gid fun g => { g with pc := g.pc + 1 })

/-- A predicate register in a guard: the lanes that participate are the active ones whose bit is true, or false under an
inversion; pt reads true; a poisoned lane that is active raises UNCORRECTABLE (R41, R63, R83, R430). -/
def Sys2Proof.Claims.GuardsSelectLanes : Prop :=
  ∀ (k : GCtx) (c : Ctl),
    (c.pred = 7 → partLanes k c = .ok (if c.inv then 0 else activeLanes k.wp k.g)) ∧
    (∀ (h : c.pred.val < 7),
      let p := k.wp.preds[c.pred.val]
      (p.poison &&& activeLanes k.wp k.g ≠ 0 →
        partLanes k c = .error (raise .uncorrectable (some (lowLane (p.poison &&& activeLanes k.wp k.g))))) ∧
      (p.poison &&& activeLanes k.wp k.g = 0 → ∃ m, partLanes k c = .ok m ∧
        ∀ l < 32, laneBit m l = (laneBit (activeLanes k.wp k.g) l && (predBit p.val l != c.inv))))

/-- Integer and logic instructions of two sources: result lanes, destination, latch, PC and frame (R83, R88, R89, R91, R92,
R95). -/
def Sys2Proof.Claims.IntegerOfTwoSources : Prop :=
  (∀ w sat u, Gives2 (fun c d a b => .iadd c d a b w sat u) w (!u) (!u) (addWord w sat u)) ∧
  (∀ w sat u, Gives2 (fun c d a b => .isub c d a b w sat u) w (!u) (!u) (subWord w sat u)) ∧
  (∀ w sat u, Gives2 (fun c d a b => .imul c d a b w sat u) w (!u) (!u) (mulWord w sat u)) ∧
  (∀ w u, Gives2 (fun c d a b => .imulhi c d a b w u) w (!u) (!u) (mulhiWord w u)) ∧
  (∀ w u, Gives2 (fun c d a b => .imin c d a b w u) w (!u) (!u) (elems2 w (!u) min)) ∧
  (∀ w u, Gives2 (fun c d a b => .imax c d a b w u) w (!u) (!u) (elems2 w (!u) max)) ∧
  (∀ w, Gives2 (fun c d a b => .shl c d a b w) w false false (shlWord w)) ∧
  (∀ w, Gives2 (fun c d a b => .shr c d a b w) w false false (shrWord w)) ∧
  (∀ w, Gives2 (fun c d a b => .sar c d a b w) w true false (sarWord w)) ∧
  Gives2 (fun c d a b => .and c d a b) .w32 false false (fun x y => x &&& y) ∧
  Gives2 (fun c d a b => .or c d a b) .w32 false false (fun x y => x ||| y) ∧
  Gives2 (fun c d a b => .xor c d a b) .w32 false false (fun x y => x ^^^ y) ∧
  Gives2 (fun c d a b => .andn c d a b) .w32 false false (fun x y => x &&& ~~~y) ∧
  (∀ u, Gives2 (fun c d a b => .bfx c d a b u) .w32 false false (bfxWord u))

/-- Integer and data instructions of one and of three sources (R88, R89, R92, R94, R95, R97 to R99). -/
def Sys2Proof.Claims.IntegerOfOneAndThreeSources : Prop :=
  (∀ w sat, Gives1 (fun c d a => .iabs c d a w sat) w true (elems1 w true fun x => satTo (widthBits w) sat false x.natAbs)) ∧
  (∀ w, Gives1 (fun c d a => .popc c d a w) w false (elems1 w false fun x => popBits (widthBits w) x.toNat)) ∧
  (∀ w, Gives1 (fun c d a => .clz c d a w) w false (elems1 w false fun x => clzBits (widthBits w) x.toNat)) ∧
  (∀ w, Gives1 (fun c d a => .brev c d a w) w false (elems1 w false fun x => revBits (widthBits w) x.toNat)) ∧
  Gives1 (fun c d a => .mov c d a) .w32 false (fun x => x) ∧
  (∀ w sat u, Gives3 (fun c d a b e => .imad c d a b e w sat u) w (!u) (madWord w sat u)) ∧
  (∀ tt, ∀ (s : State) (k : GCtx) (c : Ctl) (m : LaneMask) (d : Dst) (a b : Src) (e : RegSrc) (x y z : VVal),
    Issues s k c m → readSrc k m (.int .w32) false a = .ok x → readSrc k m (.int .w32) false b = .ok y →
    readSrc k m (.int .w32) false (RegSrc.src e) = .ok z → CanWrite k d m →
    ∃ v, (∀ l < 32, laneVal v l = lop3 tt (laneVal x l) (laneVal y l) (laneVal z l)) ∧
      Produces s k d m v id (exec (.lop3 c d a b e tt) s)) ∧
  Gives3 (fun c d a b e => .bfi c d a b e) .w32 false bfiWord ∧
  Gives3 (fun c d a b e => .prmt c d a b e) .w32 false prmt ∧
  (∀ sat u, Gives3 (fun c d a b e => .idot4 c d a b e sat u) .w32 (!u) (dot4 sat u))

/-- Element by element: sum, difference, product and high product of two elements, wrapped, or clamped under .sat; shifts
by an amount that is never taken modulo the width (R19, R84, R88, R91). -/
def Sys2Proof.Claims.ElementsOfIntegerArithmetic : Prop :=
  ∀ (w : Width) (x y : Word) (j : Nat), j < 32 / widthBits w →
    let W := widthBits w
    (∀ u, elem W false (addWord w false u x y) j = (elem W (!u) x j + elem W (!u) y j) % 2 ^ W) ∧
    (∀ u, elem W (!u) (addWord w true u x y) j = max (loOf W u) (min (hiOf W u) (elem W (!u) x j + elem W (!u) y j))) ∧
    (∀ u, elem W false (subWord w false u x y) j = (elem W (!u) x j - elem W (!u) y j) % 2 ^ W) ∧
    (∀ u, elem W (!u) (subWord w true u x y) j = max (loOf W u) (min (hiOf W u) (elem W (!u) x j - elem W (!u) y j))) ∧
    (∀ u, elem W false (mulWord w false u x y) j = (elem W (!u) x j * elem W (!u) y j) % 2 ^ W) ∧
    (∀ u, elem W (!u) (mulhiWord w u x y) j = elem W (!u) x j * elem W (!u) y j / 2 ^ W) ∧
    elem W false (shlWord w x y) j =
      (if elem W false y j < W then elem W false x j * 2 ^ (elem W false y j).toNat % 2 ^ W else 0) ∧
    elem W false (shrWord w x y) j = (if elem W false y j < W then elem W false x j / 2 ^ (elem W false y j).toNat else 0) ∧
    elem W true (sarWord w x y) j =
      (if elem W false y j < W then elem W true x j / 2 ^ (elem W false y j).toNat
       else if elem W true x j < 0 then -1 else 0)

/-- LOP3 looks each result bit up: bit n of the table for n = a + 2b + 4c (R92). -/
def Sys2Proof.Claims.Lop3LooksUpEachBit : Prop :=
  ∀ (tt : BitVec 8) (x y z : Word) (i : Nat), i < 32 →
    (lop3 tt x y z).getLsbD i =
      tt.getLsbD ((if x.getLsbD i then 1 else 0) + (if y.getLsbD i then 2 else 0) + (if z.getLsbD i then 4 else 0))

/-- AND, OR, XOR and ANDN give the bitwise function of two words, and LOP3 the table's bit of each three: with the tables of a, b, c,
their AND, OR and XOR, the majority, the choice by c, a OR (b AND c), and the constants (R92). -/
def Sys2Proof.Claims.BitwiseFunctions : Prop :=
  (∀ (s : State) (k : GCtx) (c : Ctl) (m : LaneMask) (n : Fin 256) (a b : Src) (x y : VVal), Issues s k c m →
    readSrc k m (.int .w32) false a = .ok x → readSrc k m (.int .w32) false b = .ok y → CanWrite k (.v n .w) m →
    let gives (i : Instr) (f : Bool → Bool → Bool) : Prop :=
      ∃ v, (∀ l < 32, ∀ j < 32, (laneVal v l).getLsbD j = f ((laneVal x l).getLsbD j) ((laneVal y l).getLsbD j)) ∧
        Produces s k (.v n .w) m v id (exec i s)
    gives (.and c (.v n .w) a b) (fun p q => p && q) ∧ gives (.or c (.v n .w) a b) (fun p q => p || q) ∧
    gives (.xor c (.v n .w) a b) (fun p q => p != q) ∧ gives (.andn c (.v n .w) a b) (fun p q => p && !q) ∧
    ∀ (tt : BitVec 8) (e : RegSrc) (z : VVal), readSrc k m (.int .w32) false (RegSrc.src e) = .ok z →
      ∃ v, (∀ l < 32, ∀ j < 32, (laneVal v l).getLsbD j = tt.getLsbD ((if (laneVal x l).getLsbD j then 1 else 0) +
          (if (laneVal y l).getLsbD j then 2 else 0) + (if (laneVal z l).getLsbD j then 4 else 0))) ∧
        Produces s k (.v n .w) m v id (exec (.lop3 c (.v n .w) a b e tt) s)) ∧
  ∀ x y z : Word, lop3 0xAA x y z = x ∧ lop3 0xCC x y z = y ∧ lop3 0xF0 x y z = z ∧ lop3 0x80 x y z = x &&& y &&& z ∧
    lop3 0xFE x y z = x ||| y ||| z ∧ lop3 0x96 x y z = x ^^^ y ^^^ z ∧
    lop3 0xE8 x y z = (x &&& y) ||| (x &&& z) ||| (y &&& z) ∧ lop3 0xCA x y z = (y &&& z) ||| (x &&& ~~~z) ∧
    lop3 0xEA x y z = x ||| (y &&& z) ∧ lop3 0x00 x y z = 0 ∧ lop3 0xFF x y z = BitVec.allOnes 32

/-- Tags (R45, R88, R91): a sum of U and A values without .sat at width 32 is A or U, with the bases and strides added; a
product of an A and a U value is A, in either order, a multiply-add of them too, and a left shift of an A value by a U amount below
32 scales base and stride; an instruction of one, two or three U sources gives U; and a full write at view .w leaves the register
with the result's tag. -/
def Sys2Proof.Claims.ResultTags : Prop :=
  (∀ u b d n, addShape (affine .w32 false) (· + ·) (addWord .w32 false u) (.a b d) (.u n) = .a (b + n) d) ∧
  (∀ u b d b' d', addShape (affine .w32 false) (· + ·) (addWord .w32 false u) (.a b d) (.a b' d') =
    .a (b + b') (d + d')) ∧
  (∀ u b d n, addShape (affine .w32 false) (· + ·) (addWord .w32 false u) (.u n) (.a b d) = .a (n + b) d) ∧
  (∀ w sat u x y, addShape (affine w sat) (· + ·) (addWord w sat u) (.u x) (.u y) = .u (addWord w sat u x y)) ∧
  (∀ u b d n, mulShape (affine .w32 false) (mulWord .w32 false u) (.a b d) (.u n) = .a (b * n) (d * n)) ∧
  (∀ w sat u x y, mulShape (affine w sat) (mulWord w sat u) (.u x) (.u y) = .u (mulWord w sat u x y)) ∧
  (∀ u b d n, mulShape (affine .w32 false) (mulWord .w32 false u) (.u n) (.a b d) = .a (n * b) (n * d)) ∧
  (∀ u b d n b' d', madShape .w32 false u (.a b d) (.u n) (.a b' d') = .a (b * n + b') (d * n + d') ∧
    madShape .w32 false u (.u n) (.a b d) (.u b') = .a (n * b + b') (n * d)) ∧
  (∀ w sat u x y z, madShape w sat u (.u x) (.u y) (.u z) = .u (madWord w sat u x y z)) ∧
  (∀ b d n, shlShape .w32 (.a b d) (.u n) = .a (shlWord .w32 b n) (shlWord .w32 d n)) ∧
  (∀ w x y, shlShape w (.u x) (.u y) = .u (shlWord w x y)) ∧
  (∀ w x n, ∀ l < 32, laneVal (shlShape w x (.u n)) l = shlWord w (laneVal x l) n) ∧
  (∀ f x, lift1 f (.u x) = .u (f x)) ∧ (∀ f x y z, lift3 f (.u x) (.u y) (.u z) = .u (f x y z)) ∧
  (∀ f x y, lift2 f (.u x) (.u y) = .u (f x y)) ∧
  (∀ f x y, isU x = false ∨ isU y = false → isG (lift2 f x y) = true) ∧
  (∀ (k : GCtx) (n : Fin 256) (v : VVal) (m : LaneMask) (wp : Warp) (latch : VReg), isFull k.wp m = true →
    writeLevels k (.v n .w) v m = .ok (wp, latch) → wp.regs[n] = { val := v, poison := 0 })

/-- SEL, MOVI, CVT, SREAD, VTAG and CSRR: what each writes to its destination (R56, R96, R99, R100, R102, R103, R424). -/
def Sys2Proof.Claims.DataInstructionsWrite : Prop :=
  ∀ (s : State) (k : GCtx) (c : Ctl) (m : LaneMask) (d : Dst), Issues s k c m → CanWrite k d m →
    (∀ a b p x y q, readSrc k m (.int .w32) false a = .ok x → readSrc k m (.int .w32) false b = .ok y →
      readPred k m p = .ok q →
      ∃ v, (∀ l < 32, laneVal v l = if predBit q l then laneVal x l else laneVal y l) ∧
        Produces s k d m v id (exec (.sel c d a b p) s)) ∧
    (∀ imm, Produces s k d m (.u imm) id (exec (.movi c d imm) s)) ∧
    (∀ a dt st rm sat x, readSrc k m (.int .w32) false a = .ok x →
      ∃ v, (∀ l < 32, laneVal v l = (cvtWord dt st rm sat (laneVal x l)).1) ∧
        Produces s k d m v (raiseFlags · k.b (laneFlags m (isU x) fun l => (cvtWord dt st rm sat (laneVal x l)).2))
          (exec (.cvt c d a dt st rm sat) s)) ∧
    (∀ sel hi, Produces s k d m (specialReg s k sel hi) id (exec (.sread c d sel hi) s)) ∧
    (∀ a, Produces s k d m (.u (BitVec.ofNat 32 (tagCode (tagReg k a).val))) id (exec (.vtag c d a) s)) ∧
    (∀ sel, Produces s k d m (.u (csrValue s k sel)) id (exec (.csrr c d sel) s))

/-- The special registers and the control and status registers (R56, R424): what SREAD and CSRR read of each. The
cycle count is a free value (log 9). -/
def Sys2Proof.Claims.SpecialRegisterValues : Prop :=
  ∀ (s : State) (k : GCtx) (nd : Node), s.nodes[k.blk.node]? = some nd →
    (∀ hi, ∀ l < 32, laneVal (specialReg s k 0 hi) l = BitVec.ofNat 32 l) ∧
    (∀ hi, ∀ l < 32, laneVal (specialReg s k 1 hi) l = BitVec.ofNat 32 (l / 4)) ∧
    (∀ hi, specialReg s k 2 hi = .u (BitVec.ofNat 32 k.w)) ∧
    (∀ hi, specialReg s k 3 hi = .u (BitVec.ofNat 32 k.blk.idx)) ∧
    (∀ hi, specialReg s k 4 hi = .u (BitVec.ofNat 32 nd.nblocks)) ∧
    (∀ hi, specialReg s k 5 hi = .u (BitVec.ofNat 32 (k.blk.idx / max nd.kd.cluster 1))) ∧
    (∀ hi, specialReg s k 6 hi = .u (BitVec.ofNat 32 k.blk.core.val)) ∧
    (k.blk.spanLen ≠ 0 → specialReg s k 7 true = .u ((BitVec.ofNat 64 (0x7F0000000000 + k.blk.spanOff)).extractLsb' 32 32)) ∧
    (k.blk.spanLen ≠ 0 → specialReg s k 7 false = .u ((BitVec.ofNat 64 (0x7F0000000000 + k.blk.spanOff)).extractLsb' 0 32)) ∧
    specialReg s k 9 false = .u ((Config.cycle s.tick).extractLsb' 0 32) ∧
    specialReg s k 9 true = .u ((Config.cycle s.tick).extractLsb' 32 32) ∧
    (∀ hi, specialReg s k 8 hi = .u (k.wp.version.setWidth 32)) ∧
    csrValue s k 0 = k.wp.tvec ∧ csrValue s k 1 = k.g.epc ∧ csrValue s k 3 = k.wp.cont ∧
    (csrValue s k 2).getLsbD 31 = k.g.inHandler ∧ (csrValue s k 2).extractLsb' 0 16 = k.g.tcode ∧
    (csrValue s k 2).extractLsb' 16 5 = BitVec.ofNat 5 k.g.tlane.val ∧ (csrValue s k 2).extractLsb' 21 10 = 0 ∧
    (csrValue s k 4 = BitVec.ofNat 32 (min k.g.wd.toNat 0xFFFFFFFF)) ∧
    csrValue s k 5 = nd.wdlog.setWidth 32 ∧ csrValue s k 6 = k.blk.esum.setWidth 32 ∧
    csrValue s k 7 = BitVec.ofNat 32 (k.blk.ctx.val + if nd.det then 256 else 0)

/-- Guards select the lanes, and an instruction without a lane has no effect but its PC (R63, R64, R83). -/
def Obligations.GuardsSelectTheLanes : Prop :=
  Sys2Proof.Claims.GuardsSelectLanes ∧ Sys2Proof.Claims.NoLaneNoEffect

/-- Integer instructions of one, two and three sources (class 000). The latch of an indexed destination is log 7, the slot that
vN+oM names log 97. -/
def Obligations.IntegerInstructions : Prop :=
  Sys2Proof.Claims.IntegerOfTwoSources ∧ Sys2Proof.Claims.IntegerOfOneAndThreeSources

/-- Elements of integer arithmetic, the bitwise functions and LOP3, and the tag of a result. -/
def Obligations.IntegerElementsAndTags : Prop :=
  Sys2Proof.Claims.ElementsOfIntegerArithmetic ∧ Sys2Proof.Claims.Lop3LooksUpEachBit ∧
  Sys2Proof.Claims.BitwiseFunctions ∧ Sys2Proof.Claims.ResultTags

/-- Data instructions, and the values of SREAD. The latch of an indexed destination is log 7, the slot that vN+oM names log 97. -/
def Obligations.DataInstructionsAndSpecialRegisters : Prop :=
  Sys2Proof.Claims.DataInstructionsWrite ∧ Sys2Proof.Claims.SpecialRegisterValues
/-! ## The values of floating-point results, and the dithered grid -/

namespace Sys2Proof.Claims

open Sys2Proof Sys2Proof.Machine

/-- The number that a finite value is; 0 for a NaN and an infinity (R16). -/
def FRat : FVal → ℚ
  | .fin neg m e => (if neg then -1 else 1) * (m : ℚ) * (2 : ℚ) ^ e
  | _ => 0

/-- Whether a value is a number. -/
def FFin (v : FVal) : Prop := v.isNan = false ∧ ∀ n, v ≠ .inf n

/-- r is x rounded once to f in a mode, with its flags: one of the format's numbers that the mode selects, ties to even, or past
the largest one the infinity or that number, by the mode. An E4M3 infinity is its largest number. Inexact is raised where the
result differs from x, underflow only where it does and x is below the least normal number, and there up to the greatest
subnormal one in every mode (R18, R23). -/
def Rounded (f : Fmt) (rm : RMode) (neg : Bool) (x : ℝ) (r : Nat × Flags) : Prop :=
  let v (c : Nat) : ℝ := (FRat (unpackF f c) : ℝ)
  let num (c : Nat) : Prop := FFin (unpackF f c)
  (r.2 &&& Flags.overflow ≠ 0 → v f.maxFin < |x| ∧ r.2 = Flags.overflow ||| Flags.inexact ∧
    r.1 = if rm = .rn ∨ (rm = .ru ∧ neg = false) ∨ (rm = .rd ∧ neg = true) then f.inf neg else f.sign neg + f.maxFin) ∧
  (r.2 &&& Flags.overflow = 0 → num r.1 ∧
    (rm = .rn → ∀ c, num c → |v r.1 - x| ≤ |v c - x| ∧ (|v r.1 - x| = |v c - x| → v c = v r.1 ∨ r.1 % 2 = 0)) ∧
    (rm = .rz → |v r.1| ≤ |x| ∧ 0 ≤ v r.1 * x ∧ ∀ c, num c → |v c| ≤ |x| → |v c| ≤ |v r.1|) ∧
    (rm = .ru → x ≤ v r.1 ∧ ∀ c, num c → x ≤ v c → v r.1 ≤ v c) ∧
    (rm = .rd → v r.1 ≤ x ∧ ∀ c, num c → v c ≤ x → v c ≤ v r.1) ∧
    (r.2 &&& Flags.inexact ≠ 0 ↔ v r.1 ≠ x) ∧
    (r.2 &&& Flags.underflow ≠ 0 → v r.1 ≠ x ∧ |x| < (2 : ℝ) ^ (1 - f.bias)) ∧
    (v r.1 ≠ x → |x| ≤ v (2 ^ f.mb - 1) → r.2 &&& Flags.underflow ≠ 0))

/-- Sums of products, FADD, FSUB, FMUL, FFMA and FDOT2 among them, FSCALE and conversions round the exact number once in the
mode. Opposite infinities, and zero times an infinity, are invalid, even beside a quiet NaN; an exact zero has the sign of its
addends where they agree, and else −0 only under .rd. A conversion to E4M3 past its range gives its largest number in every mode,
and so does one of an infinity; one to an integer gives the nearest end of its range, or an integer beside the number, by the mode
(R18, R23, R115, R118, R123). -/
def FloatResultsAreRounded : Prop :=
  (∀ f ∈ [Fmt.f32, .bf16, .f16, .e4m3f, .e5m2], ∀ (rm : RMode) (neg : Bool) (num den : Nat), 0 < num → 0 < den →
    Rounded f rm neg ((if neg then -1 else 1) * ((num : ℝ) / den)) (roundRat f rm neg num den)) ∧
  (∀ f ∈ [Fmt.f32, .bf16, .f16], ∀ (rm : RMode) (ts : List (FVal × FVal)) (x : ℚ), ts ≠ [] →
    (∀ t ∈ ts, FFin t.1 ∧ FFin t.2) → x = (ts.map fun t => FRat t.1 * FRat t.2).sum →
    (x ≠ 0 → Rounded f rm (x < 0) (x : ℝ) (sumProd f rm ts)) ∧
    (x = 0 → ∃ z, sumProd f rm ts = (f.sign z, 0) ∧
      ((∀ t ∈ ts, FRat t.1 * FRat t.2 = 0 ∧ t.1.sgn ≠ t.2.sgn) → z = true) ∧
      ((∀ t ∈ ts, FRat t.1 * FRat t.2 = 0 ∧ t.1.sgn = t.2.sgn) → z = false) ∧
      (¬(∀ t ∈ ts, FRat t.1 * FRat t.2 = 0 ∧ t.1.sgn ≠ t.2.sgn) → ¬(∀ t ∈ ts, FRat t.1 * FRat t.2 = 0 ∧ t.1.sgn = t.2.sgn) →
        (z = true ↔ rm = .rd)))) ∧
  (∀ f ∈ [Fmt.f32, .bf16, .f16], ∀ (rm : RMode) (b : Bool) (y z : FVal), FFin y →
    sumProd f rm [(FVal.one, .inf b), (FVal.one, y)] = (f.inf b, 0) ∧
    (z.isSnan = false → sumProd f rm [(FVal.one, .inf b), (FVal.one, .inf !b), (FVal.one, z)] = (f.nan, Flags.invalid) ∧
      (FRat y = 0 → sumProd f rm [(.inf b, y), (FVal.one, z)] = (f.nan, Flags.invalid)))) ∧
  (∀ f ∈ [Fmt.f32, .bf16, .f16], ∀ (rm : RMode) (x : Nat) (n : Int), FFin (unpackF f x) → FRat (unpackF f x) ≠ 0 →
    Rounded f rm (FRat (unpackF f x) < 0) ((FRat (unpackF f x) * (2 : ℚ) ^ n : ℚ) : ℝ) (scaleF f rm x n)) ∧
  (∀ dt ∈ [Fmt.f32, .bf16, .f16, .e4m3f, .e5m2], ∀ (st : Fmt) (rm : RMode) (x : Nat), st ∈ [Fmt.f32, .bf16, .f16, .e4m3f, .e5m2] →
    let y := unpackF st x
    let r := cvtFF st dt rm x
    (FFin y → FRat y ≠ 0 → dt ≠ .e4m3f ∨ r.2 &&& Flags.overflow = 0 → Rounded dt rm (FRat y < 0) (FRat y : ℝ) r) ∧
    (FFin y → dt = .e4m3f → r.2 &&& Flags.overflow ≠ 0 →
      448 < |FRat y| ∧ r = (if FRat y < 0 then 0xFE else 0x7E, Flags.overflow ||| Flags.inexact)) ∧
    (∀ b, y = .inf b → r = if dt = .e4m3f then (if b then 0xFE else 0x7E, Flags.overflow ||| Flags.inexact) else (dt.inf b, 0))) ∧
  ∀ st ∈ [Fmt.f32, .bf16, .f16, .e4m3f, .e5m2], ∀ (lo hi : Int) (rm : RMode) (x : Nat),
    let y := unpackF st x
    let r := cvtFI st lo hi rm x
    (y.isNan = true → r = (0, Flags.invalid)) ∧ (∀ b, y = .inf b → r = (if b then lo else hi, Flags.invalid)) ∧
    (FFin y → r.2 &&& Flags.invalid ≠ 0 → (r.1 = lo ∧ FRat y < lo) ∨ (r.1 = hi ∧ (hi : ℚ) < FRat y)) ∧
    (FFin y → r.2 &&& Flags.invalid = 0 → lo ≤ r.1 ∧ r.1 ≤ hi ∧ |(r.1 : ℚ) - FRat y| < 1 ∧
      (rm = .rn → |(r.1 : ℚ) - FRat y| ≤ 1 / 2 ∧ (|(r.1 : ℚ) - FRat y| = 1 / 2 → r.1 % 2 = 0)) ∧
      (rm = .rz → |(r.1 : ℚ)| ≤ |FRat y|) ∧ (rm = .ru → FRat y ≤ r.1) ∧ (rm = .rd → (r.1 : ℚ) ≤ FRat y) ∧
      (r.2 &&& Flags.inexact ≠ 0 ↔ (r.1 : ℚ) ≠ FRat y))

/-- The special functions: of a NaN, of an infinity and of zero as the table gives; RCP, SQRT and RSQ of a number correctly rounded;
and the cases that are exact or reach a limit, EX2 and LG2 of integers and powers of two, SINPI and COSPI of integers and of
halves, TANH of large and of subnormal numbers (R39, R40, R125 to R127). -/
def SpecialFunctionValues : Prop :=
  let inv : Nat × Flags := (0x7FC00000, Flags.invalid)
  let dz (c : Nat) : Nat × Flags := (c, Flags.divZero)
  (∀ k x, (unpackF .f32 x).isNan = true → special k x =
    (0x7FC00000, if (unpackF .f32 x).isSnan then Flags.invalid else 0)) ∧
  (∀ k r, (k, r) ∈ [(SFun.rcp, ((0x80000000, 0) : Nat × Flags)), (.rsq, inv), (.sqrt, inv), (.ex2, (0, 0)), (.lg2, inv),
    (.sinpi, inv), (.cospi, inv), (.tanh, (0xBF800000, 0))] → special k 0xFF800000 = r) ∧
  (∀ k r, (k, r) ∈ [(SFun.rcp, dz 0xFF800000), (.rsq, dz 0xFF800000), (.sqrt, (0x80000000, 0)), (.ex2, (0x3F800000, 0)),
    (.lg2, dz 0xFF800000), (.sinpi, (0x80000000, 0)), (.cospi, (0x3F800000, 0)), (.tanh, (0x80000000, 0))] →
    special k 0x80000000 = r) ∧
  (∀ k r, (k, r) ∈ [(SFun.rcp, dz 0x7F800000), (.rsq, dz 0x7F800000), (.sqrt, (0, 0)), (.ex2, (0x3F800000, 0)),
    (.lg2, dz 0xFF800000), (.sinpi, (0, 0)), (.cospi, (0x3F800000, 0)), (.tanh, (0, 0))] → special k 0 = r) ∧
  (∀ k r, (k, r) ∈ [(SFun.rcp, ((0, 0) : Nat × Flags)), (.rsq, (0, 0)), (.sqrt, (0x7F800000, 0)), (.ex2, (0x7F800000, 0)),
    (.lg2, (0x7F800000, 0)), (.sinpi, inv), (.cospi, inv), (.tanh, (0x3F800000, 0))] → special k 0x7F800000 = r) ∧
  ∀ (x : Nat) (a : ℚ), FFin (unpackF .f32 x) → a = FRat (unpackF .f32 x) →
    let val (r : Nat × Flags) : ℚ := FRat (unpackF .f32 r.1)
    (a < 0 → special .rsq x = inv ∧ special .sqrt x = inv ∧ special .lg2 x = inv) ∧
    (a ≠ 0 → Rounded .f32 .rn (a < 0) (1 / (a : ℝ)) (special .rcp x)) ∧
    (0 < a → Rounded .f32 .rn false (Real.sqrt a) (special .sqrt x) ∧
      Rounded .f32 .rn false (1 / Real.sqrt a) (special .rsq x)) ∧
    (∀ n : Int, a = n →
      (-149 ≤ n → n ≤ 127 → val (special .ex2 x) = (2 : ℚ) ^ n ∧ (special .ex2 x).2 = 0) ∧
      (128 ≤ n → special .ex2 x = (0x7F800000, Flags.overflow ||| Flags.inexact)) ∧
      (n ≤ -150 → special .ex2 x = (0, Flags.underflow ||| Flags.inexact)) ∧
      FFin (unpackF .f32 (special .sinpi x).1) ∧ val (special .sinpi x) = 0 ∧
      (unpackF .f32 (special .sinpi x).1).sgn = (unpackF .f32 x).sgn ∧ (special .sinpi x).2 = 0 ∧
      val (special .cospi x) = (if n % 2 = 0 then 1 else -1) ∧ (special .cospi x).2 = 0) ∧
    (∀ n : Int, a = (2 : ℚ) ^ n → val (special .lg2 x) = n ∧ (special .lg2 x).2 = 0) ∧
    (∀ n : Int, a = n + 1 / 2 →
      val (special .sinpi x) = (if n % 2 = 0 then 1 else -1) ∧ (special .sinpi x).2 = 0 ∧ special .cospi x = (0, 0)) ∧
    (16 ≤ a → special .tanh x = (0x3F800000, Flags.inexact)) ∧ (a ≤ -16 → special .tanh x = (0xBF800000, Flags.inexact)) ∧
    (0 < |a| → |a| < (2 : ℚ) ^ (-126 : ℤ) → val (special .tanh x) = a ∧
      (special .tanh x).2 = Flags.underflow ||| Flags.inexact)

/-- FMIN and FMAX: of a NaN and a number the number, of two NaNs the canonical NaN, invalid where one signals; else one of the two,
at or below, or at or above, the other, with −0 below +0, and no flag (R119). -/
def MinimumAndMaximum : Prop :=
  ∀ f ∈ [Fmt.f32, .bf16, .f16], ∀ (x y : Nat) (mx : Bool),
    let a := unpackF f x
    let b := unpackF f y
    let r := minMaxF f mx x y
    r.2 = (if a.isSnan ∨ b.isSnan then Flags.invalid else 0) ∧
    (a.isNan = true → b.isNan = true → r.1 = f.nan) ∧ (a.isNan = true → b.isNan = false → r.1 = y) ∧
    (a.isNan = false → b.isNan = true → r.1 = x) ∧
    (a.isNan = false → b.isNan = false → (r.1 = x ∨ r.1 = y) ∧
      (FFin a → FFin b → FRat (unpackF f r.1) = if mx then max (FRat a) (FRat b) else min (FRat a) (FRat b)) ∧
      (FFin a → FFin b → FRat a = 0 → FRat b = 0 → (unpackF f r.1).sgn = if mx then a.sgn && b.sgn else a.sgn || b.sgn) ∧
      (∀ n, a = .inf n → r.1 = (if n = mx then y else x) ∨ unpackF f r.1 = a) ∧
      (∀ n, a = .inf n → FFin b → r.1 = if n = mx then y else x) ∧
      ∀ n, b = .inf n → FFin a → r.1 = if n = mx then x else y)

/-- The dither of domain index e with table byte b: which of its two-bit entries e selects, and what the entry stands for, in
eighths (R25, R26). -/
def DitherIsTheTables : Prop :=
  (∀ e, ditherIndex e = (e ^^^ (e >>> 10) ^^^ (e >>> 20) ^^^ (e >>> 30)) &&& 1023) ∧
  (∀ (b : Byte) (t : Nat), ditherCode b t = ((b >>> (2 * (t % 4))) &&& 3).toNat) ∧
  (∀ c < 4, ditherOf 7 c = (if c % 2 = 1 then 2 else -2) ∧ ∀ f ∈ [3, 4, 5, 6], ditherOf f c = 2 * (c : Int) - 3)

/-- The point of code c on its grid, less its dither of d eighths of a unit: q − d·u(q) (R26, R27). -/
def gridPoint (f c : Nat) (d : Int) : ℚ :=
  if isFp8 f then
    match unpackF (fp8Of f) c with
    | .fin neg m e => (if neg then -1 else 1) * (m : ℚ) * (2 : ℚ) ^ e - (d : ℚ) / 8 * (2 : ℚ) ^ e
    | _ => 0
  else (intOfCode f c : ℚ) - (d : ℚ) / 8

/-- Decode: a reserved ternary byte and a scale that is not a positive number give NaN under their flags; an FP8 NaN gives NaN and
an E5M2 infinity itself, without a flag; else the dithered point times the scale, rounded once to FP32, a zero with the sign of a
−0 code. With dither a zero code is not zero before that rounding (R21, R27, R28). -/
def DecodeOfDitheredCodes : Prop :=
  ∀ f ∈ [3, 4, 5, 6, 7], ∀ (b : Byte) (sub : Nat) (d : Int) (s : BitVec 16) (v : ℚ), -3 ≤ d → d ≤ 3 →
    let c := codeAt f b sub
    let k := unpackF .bf16 s.toNat
    let r := decodeElem f b sub d s
    v = gridPoint f c d * FRat k →
    (reservedTern f b = true → r = (0x7FC00000, Flags.corrupt)) ∧
    (reservedTern f b = false → ¬(FFin k ∧ 0 < FRat k) → r = (0x7FC00000, Flags.invalidScale)) ∧
    (reservedTern f b = false → FFin k → 0 < FRat k →
      (isFp8 f = true → (unpackF (fp8Of f) c).isNan = true → r = (0x7FC00000, 0)) ∧
      (isFp8 f = true → ∀ n, unpackF (fp8Of f) c = .inf n → r = (if n then 0xFF800000 else 0x7F800000, 0)) ∧
      ((isFp8 f = true → FFin (unpackF (fp8Of f) c)) →
        (v = 0 → r = (if isFp8 f = true ∧ c = 0x80 then 0x80000000 else 0, 0)) ∧
        (v ≠ 0 → Rounded .f32 .rn (v < 0) (v : ℝ) (r.1.toNat, r.2)) ∧
        (d ≠ 0 → v ≠ 0)))

/-- QuantiseToGrid: a scale that is not a positive number and a NaN give the format's NaN, or code 0, under their flags; an infinity
is kept by E5M2; a value beyond the outermost point gives that point under saturate and inexact; every other gives the code of the
point nearest to its quotient by the scale, a tie the even code, with inexact where the point is not it. A zero is written +0, or
without dither with the value's sign (R29 to R31). -/
def QuantiseGivesTheNearestPoint : Prop :=
  ∀ f ∈ [3, 4, 5, 6, 7], ∀ (x : FVal) (d : Int) (s : BitVec 16), -3 ≤ d → d ≤ 3 →
    let k := unpackF .bf16 s.toNat
    let r := quantise f x d s
    let bad := if isFp8 f then (fp8Of f).nan else 0
    let y := FRat x / FRat k
    let p (c : Nat) : ℚ := gridPoint f c d
    (¬(FFin k ∧ 0 < FRat k) → r = (bad, Flags.invalidScale)) ∧
    (FFin k → 0 < FRat k →
      (x.isNan = true → r = (bad, Flags.invalid)) ∧
      (∀ n, x = .inf n → r = if f = 4 then (if n then 0xFC else 0x7C, 0) else (outerCode f n, Flags.saturate ||| Flags.inexact)) ∧
      (FFin x → y < p (outerCode f true) → r = (outerCode f true, Flags.saturate ||| Flags.inexact)) ∧
      (FFin x → p (outerCode f false) < y → r = (outerCode f false, Flags.saturate ||| Flags.inexact)) ∧
      (FFin x → p (outerCode f true) ≤ y → y ≤ p (outerCode f false) →
        (r.1 ∈ gridCodes f ∨ (r.1 = 0x80 ∧ isFp8 f = true)) ∧
        (∀ c ∈ gridCodes f, |p r.1 - y| ≤ |p c - y| ∧ (|p r.1 - y| = |p c - y| → p c = p r.1 ∨ evenCode f r.1 = true)) ∧
        r.2 = (if p r.1 = y then 0 else Flags.inexact) ∧
        (isFp8 f = true → (r.1 = 0 ∨ r.1 = 0x80) → (r.1 = 0x80 ↔ d = 0 ∧ x.sgn = true)))) ∧
    (∀ c, c ∈ gridCodes f ↔ if f = 5 then c < 256 ∧ c ≠ 128 else if f = 6 then c < 16 ∧ c ≠ 8 else if f = 7 then c < 3
      else c < 256 ∧ c ≠ 128 ∧ FFin (unpackF (fp8Of f) c)) ∧
    ∀ n, outerCode f n ∈ gridCodes f ∧ ∀ c ∈ gridCodes f, if n then p (outerCode f n) ≤ p c else p c ≤ p (outerCode f n)

end Sys2Proof.Claims

/-! ## Cross-lane, predicates, warp registers, floating point -/

namespace Sys2Proof.Claims

open Sys2Proof Sys2Proof.Machine

/-- A predicate after a write of value v in the lanes m, at every lane of the width (R46, R430). -/
def PredWritten (k : GCtx) (old new : PReg) (m : LaneMask) (v : Nat → Bool) : Prop :=
  ∀ l < 4 * k.wp.width.val,
    predBit new.val l = (if laneBit m l then v l else predBit old.val l) ∧
    laneBit new.poison l = (if laneBit m l then false else laneBit old.poison l)

/-- What an instruction does that writes predicate p in the lanes m: that register, nothing for pt, and the PC; and what
post adds (R41). -/
def ProducesPred (s : State) (k : GCtx) (p : Fin 8) (m : LaneMask) (v : Nat → Bool) (post : State → State) (out : Out1) :
    Prop :=
  ∃ preds : Vector PReg 7,
    (∀ n : Fin 7, n.val = p.val → PredWritten k k.wp.preds[n] preds[n] m v) ∧
    (∀ n : Fin 7, n.val ≠ p.val → preds[n] = k.wp.preds[n]) ∧
    out = .next (post (modWarp s k.b k.w fun _ =>
      modGangs { k.wp with preds := preds } k.g.gid fun g => { g with pc := g.pc + 1 }))

/-- What an instruction does that only changes its warp to wp and the PC. -/
def WarpBecomes (s : State) (k : GCtx) (wp : Warp) (out : Out1) : Prop :=
  out = .next (modWarp s k.b k.w fun _ => modGangs wp k.g.gid fun g => { g with pc := g.pc + 1 })

/-- A floating-point instruction of two sources gives code and flags of f in every lane; a result of U sources raises its
flags once (R113 to R116). -/
def FGives2 (i : Ctl → Dst → Src → Src → Instr) (pk : Pack) (kb : SrcKind) (f : Word → Word → Word × Flags) : Prop :=
  ∀ (s : State) (k : GCtx) (c : Ctl) (m : LaneMask) (d : Dst) (a b : Src) (x y : VVal), Issues s k c m →
    readSrc k m (.fp pk) false a = .ok x → readSrc k m kb false b = .ok y → CanWrite k d m →
    ∃ v, (∀ l < 32, laneVal v l = (f (laneVal x l) (laneVal y l)).1) ∧
      Produces s k d m v
        (raiseFlags · k.b (laneFlags m (isU x && isU y) fun l => (f (laneVal x l) (laneVal y l)).2)) (exec (i c d a b) s)

/-- The same for one source. -/
def FGives1 (i : Ctl → Dst → Src → Instr) (pk : Pack) (f : Word → Word × Flags) : Prop :=
  ∀ (s : State) (k : GCtx) (c : Ctl) (m : LaneMask) (d : Dst) (a : Src) (x : VVal), Issues s k c m →
    readSrc k m (.fp pk) false a = .ok x → CanWrite k d m →
    ∃ v, (∀ l < 32, laneVal v l = (f (laneVal x l)).1) ∧
      Produces s k d m v (raiseFlags · k.b (laneFlags m (isU x) fun l => (f (laneVal x l)).2)) (exec (i c d a) s)

/-- The same for three sources; pc is the packing of the third. -/
def FGives3 (i : Ctl → Dst → Src → Src → Src → Instr) (pk pc : Pack) (f : Word → Word → Word → Word × Flags) : Prop :=
  ∀ (s : State) (k : GCtx) (c : Ctl) (m : LaneMask) (d : Dst) (a b e : Src) (x y z : VVal), Issues s k c m →
    readSrc k m (.fp pk) false a = .ok x → readSrc k m (.fp pk) false b = .ok y → readSrc k m (.fp pc) false e = .ok z →
    CanWrite k d m →
    ∃ v, (∀ l < 32, laneVal v l = (f (laneVal x l) (laneVal y l) (laneVal z l)).1) ∧
      Produces s k d m v
        (raiseFlags · k.b (laneFlags m (isU x && isU y && isU z) fun l => (f (laneVal x l) (laneVal y l) (laneVal z l)).2))
        (exec (i c d a b e) s)

/-- An FP32 special function. -/
def sfWord (k : SFun) (x : Word) : Word × Flags := (BitVec.ofNat 32 (special k x.toNat).1, (special k x.toNat).2)

end Sys2Proof.Claims

/-- SHFL gives a lane the source's value in the lane that the mode names, its own where that lane does not participate; REDX
gives every lane the tree's result; SCANX each lane its prefix, lane 0 its own term with a NaN made canonical; VOTE.bits the
mask of the true participating lanes (R37, R38, R105 to R107). -/
def Sys2Proof.Claims.CrossLaneInstructionsWrite : Prop :=
  ∀ (s : State) (k : GCtx) (c : Ctl) (m : LaneMask) (d : Dst), Issues s k c m → CanWrite k d m →
    (∀ a b mode n x, readSrc k m (.int .w32) false b = .ok n →
      readSrc k m (.int .w32) false a = .ok x →
      ∃ v, (∀ l ∈ lanesOf m, laneVal v l = laneVal x (shflLane mode m l (laneVal n l).toNat)) ∧
        Produces s k d m v id (exec (.shfl c d a b mode) s)) ∧
    (∀ a op sat u x, readSrc k m (redReads op) (RedOp.signed op && !u) a = .ok x →
      Produces s k d m (.u (redTree (combine op sat u) 5 (redTerms op u m x)).1)
        (raiseFlags · k.b (redTree (combine op sat u) 5 (redTerms op u m x)).2) (exec (.redx c d a op sat u) s)) ∧
    (∀ a op sat u x, readSrc k m (redReads op) (RedOp.signed op && !u) a = .ok x →
      ∃ v, (∀ l < 32, 0 < l → laneVal v l = (scanSteps (combine op sat u) 5 1 (redTerms op u m x)).1.getD l 0) ∧
        laneVal v 0 = redAlone op ((redTerms op u m x).getD 0 0) ∧
        Produces s k d m v (raiseFlags · k.b (scanSteps (combine op sat u) 5 1 (redTerms op u m x)).2)
          (exec (.scanx c d a op sat u) s)) ∧
    (∀ p q, readPred k m p = .ok q → Produces s k d m (.u (m &&& maskOf (predBit q))) id (exec (.vote c (.bits d) p) s)) ∧
    (∀ p q, readPred k m p = .ok q →
      ∃ v, (∀ l < 32, laneVal v l = if predBit q l then 1 else 0) ∧
        Produces s k d m v id (exec (.pmov c (.toV d p)) s))

/-- The tree of REDX for the associative integer operations is the sum, least, greatest, conjunction, disjunction and
exclusive disjunction of the participating lanes' values, whatever lanes those are, and lane l of SCANX is that of the
participating lanes up to l; least and greatest are signed, or unsigned under .u (R37, R38, R107, R108). -/
def Sys2Proof.Claims.ReductionIsOverParticipatingLanes : Prop :=
  ∀ (m : LaneMask) (v : VVal),
    let all := (lanesOf m).map (laneVal v)
    let upTo (l : Nat) := ((lanesOf m).filter (· ≤ l)).map (laneVal v)
    let is (op : RedOp) (u : Bool) (f : Word → Word → Word) (e : Word) : Prop :=
      (redTree (combine op false u) 5 (redTerms op u m v)).1 = all.foldl f e ∧
      ∀ l < 32, (scanSteps (combine op false u) 5 1 (redTerms op u m v)).1.getD l 0 = (upTo l).foldl f e
    (∀ u, is .add u (· + ·) 0 ∧ is .xor u (· ^^^ ·) 0 ∧ is .and u (· &&& ·) (BitVec.allOnes 32) ∧ is .or u (· ||| ·) 0) ∧
    is .min false (fun x y => if x.toInt ≤ y.toInt then x else y) 0x7FFFFFFF ∧
    is .max false (fun x y => if y.toInt ≤ x.toInt then x else y) 0x80000000 ∧
    is .min true (fun x y => if x.toNat ≤ y.toNat then x else y) 0xFFFFFFFF ∧
    is .max true (fun x y => if y.toNat ≤ x.toNat then x else y) 0

/-- Instructions that write a predicate: comparison, logic, votes and PMOV; a write to pt is discarded and the PC goes on
(R41, R90, R106, R110, R120). -/
def Sys2Proof.Claims.PredicateInstructionsWrite : Prop :=
  ∀ (s : State) (k : GCtx) (c : Ctl) (m : LaneMask) (p : Fin 8), Issues s k c m →
    (∀ a b cmp u x y, readSrc k m (.int .w32) (!u) a = .ok x → readSrc k m (.int .w32) (!u) b = .ok y →
      ProducesPred s k p m (fun l => icmp cmp u (laneVal x l) (laneVal y l)) id (exec (.isetp c p a b cmp u) s)) ∧
    (∀ a b cmp x y, readSrc k m (.fp .fp32) false a = .ok x → readSrc k m (.fp .fp32) false b = .ok y →
      ProducesPred s k p m (fun l => (cmpF cmp (laneVal x l).toNat (laneVal y l).toNat).1)
        (raiseFlags · k.b (laneFlags m (isU x && isU y) fun l => (cmpF cmp (laneVal x l).toNat (laneVal y l).toNat).2))
        (exec (.fsetp c p a b cmp) s)) ∧
    (∀ a b op x y, readPred k m a = .ok x → readPred k m b = .ok y →
      ProducesPred s k p m (fun l => plogic op (predBit x l) (predBit y l)) id (exec (.plop c p a b op) s)) ∧
    (∀ a x, readSrc k m (.int .w32) false a = .ok x →
      ProducesPred s k p m (fun l => laneVal x l != 0) id (exec (.pmov c (.toP p a)) s)) ∧
    (∀ q x, readPred k m q = .ok x →
      ProducesPred s k p m (fun _ => (lanesOf m).all (predBit x)) id (exec (.vote c (.every p) q) s) ∧
      ProducesPred s k p m (fun _ => (lanesOf m).any (predBit x)) id (exec (.vote c (.some p) q) s) ∧
      ProducesPred s k p m (fun _ => (lanesOf m).all (predBit x) || !(lanesOf m).any (predBit x)) id
        (exec (.vote c (.same p) q) s))

/-- XSET and XCLR write an index descriptor; VSHAPE gives a register the most compact tag that its lanes fit, U, A or G, and a
poisoned one keeps its tag; VEXP makes it G; neither changes a lane. CONT and CSRW write the warp's registers; XSET out of range raises REG_INDEX_RANGE and writes nothing, and an esum bit written as 1 clears its
flag (R50, R104, R109, R397, R424, R425). -/
def Obligations.WarpRegistersWritten : Prop :=
  ∀ (s : State) (k : GCtx) (c : Ctl) (m : LaneMask), Issues s k c m →
    (∀ (x : Fin 8) base limit vidx b n v, readUni k m base = .ok b → readUni k m limit = .ok n → readUni k m vidx = .ok v →
      (b.toNat ≤ 255 → n.toNat ≤ 256 → v.toNat ≤ 255 →
        WarpBecomes s k { k.wp with xd := (k.wp.xd.set x
          { limit := n.setWidth 9, vidx := v.setWidth 8, base := b.setWidth 8, poison := false }) }
          (exec (.xset c x base limit vidx) s)) ∧
      ((255 < b.toNat ∨ 256 < n.toNat ∨ 255 < v.toNat) →
        exec (.xset c x base limit vidx) s = .next (takeFault s s.cur (raise .regIndex (some (lowLane m)))))) ∧
    (∀ (x : Fin 8), WarpBecomes s k { k.wp with xd := (k.wp.xd.set x { limit := 0, vidx := 0, base := 0, poison := false }) }
      (exec (.xclr c x) s)) ∧
    (∀ n : Fin 256, let old := k.wp.regs[n]
      let x (l : Nat) : Word := laneVal old.val l
      ∃ r, WarpBecomes s k { k.wp with regs := k.wp.regs.set n r } (exec (.vshape c n) s) ∧
      r.poison = old.poison ∧ (∀ l < 4 * k.wp.width.val, laneVal r.val l = x l) ∧ (old.poison ≠ 0 → r = old) ∧
      (old.poison = 0 → (∀ l < 4 * k.wp.width.val, x l = x 0) → r.val = .u (x 0)) ∧
      (old.poison = 0 → ¬(∀ l < 4 * k.wp.width.val, x l = x 0) →
        (∀ l < 4 * k.wp.width.val, x l = x 0 + (x 1 - x 0) * BitVec.ofNat 32 l) → r.val = .a (x 0) (x 1 - x 0)) ∧
      (old.poison = 0 → ¬(∀ l < 4 * k.wp.width.val, x l = x 0 + (x 1 - x 0) * BitVec.ofNat 32 l) →
        isG r.val = true)) ∧
    (∀ n : Fin 256, ∃ r, r.poison = k.wp.regs[n].poison ∧ isG r.val = true ∧ (∀ l < 32, laneVal r.val l = laneVal k.wp.regs[n].val l) ∧
      (linesHeld { k.wp with regs := k.wp.regs.set n r } ≤ k.wp.gmax →
        WarpBecomes s k { k.wp with regs := k.wp.regs.set n r } (exec (.vexp c n) s)) ∧
      (k.wp.gmax < linesHeld { k.wp with regs := k.wp.regs.set n r } →
        exec (.vexp c n) s = .next (takeFault s s.cur (raise .regpool (some (lowLane m)))))) ∧
    (∀ a x, readUni k m a = .ok x →
      WarpBecomes s k { k.wp with cont := x } (exec (.cont c a) s) ∧
      WarpBecomes s k { k.wp with tvec := x } (exec (.csrw c 0 a) s) ∧
      exec (.csrw c 1 a) s = .next (modGang s k.b k.w k.g.gid fun g => { g with epc := x, pc := g.pc + 1 }) ∧
      exec (.csrw c 6 a) s = .next (modGang (modBlock s k.b fun y => { y with esum := y.esum &&& ~~~(x.setWidth 9) })
        k.b k.w k.g.gid fun g => { g with pc := g.pc + 1 }) ∧
      ∀ n : Fin 8, n ≠ 0 → n ≠ 1 → n ≠ 6 →
        exec (.csrw c n a) s = .next (takeFault s s.cur (raise .illegal (some (lowLane m)))))

/-- A source that must be uniform: its value where the participating lanes agree, else UNIFORM_VIOLATION for the first lane
that differs from the lowest (R157, R235). -/
def Sys2Proof.Claims.UniformSources : Prop :=
  ∀ (k : GCtx) (m : LaneMask) (a : Src) (v : VVal), readSrc k m (.int .w32) false a = .ok v →
    ((∀ l ∈ lanesOf m, laneVal v l = laneVal v (lowLane m)) → readUni k m a = .ok (laneVal v (lowLane m))) ∧
    (∀ l ∈ lanesOf m, laneVal v l ≠ laneVal v (lowLane m) →
      (∀ j ∈ lanesOf m, j < l → laneVal v j = laneVal v (lowLane m)) →
      readUni k m a = .error (raise .uniform (some l)))

/-- Floating-point instructions: every lane's code and flags, destination, latch, PC and frame (R113 to R124). -/
def Sys2Proof.Claims.FloatArithmetic : Prop :=
  (∀ rm pk, FGives2 (fun c d a b => .fadd c d a b rm pk) pk (.fp pk) (packed2 pk fun f => faddCode f rm)) ∧
  (∀ rm pk, FGives2 (fun c d a b => .fsub c d a b rm pk) pk (.fp pk) (packed2 pk fun f => fsubCode f rm)) ∧
  (∀ rm pk, FGives2 (fun c d a b => .fmul c d a b rm pk) pk (.fp pk) (packed2 pk fun f => fmulCode f rm)) ∧
  (∀ rm pk, FGives3 (fun c d a b e => .ffma c d a b e rm pk) pk pk (packed3 pk fun f => ffmaCode f rm)) ∧
  (∀ pk, FGives2 (fun c d a b => .fmin c d a b pk) pk (.fp pk) (packed2 pk fun f => minMaxF f false)) ∧
  (∀ pk, FGives2 (fun c d a b => .fmax c d a b pk) pk (.fp pk) (packed2 pk fun f => minMaxF f true)) ∧
  (∀ rm pk, FGives1 (fun c d a => .frnd c d a rm pk) pk (packed1 pk fun f => rndF f rm)) ∧
  FGives1 (fun c d a => .fclass c d a) .fp32 (fun x => (BitVec.ofNat 32 (classF x.toNat), 0)) ∧
  (∀ rm pk, FGives2 (fun c d a b => .fscale c d a b rm pk) pk (.scale pk)
    fun x y => packed pk fun f j => scaleF f rm (codeOf pk x j) (scaleOfElem pk y j)) ∧
  (∀ rm pk, FGives3 (fun c d a b e => .fdot2 c d a b e rm pk) pk .fp32 (dot2 rm pk))

/-- Special functions: RCP, RSQ, SQRT, EX2, LG2, SINPI, COSPI and TANH (R125). -/
def Sys2Proof.Claims.SpecialFunctions : Prop :=
  FGives1 (fun c d a => .rcp c d a) .fp32 (sfWord .rcp) ∧ FGives1 (fun c d a => .rsq c d a) .fp32 (sfWord .rsq) ∧
  FGives1 (fun c d a => .sqrt c d a) .fp32 (sfWord .sqrt) ∧ FGives1 (fun c d a => .ex2 c d a) .fp32 (sfWord .ex2) ∧
  FGives1 (fun c d a => .lg2 c d a) .fp32 (sfWord .lg2) ∧ FGives1 (fun c d a => .sinpi c d a) .fp32 (sfWord .sinpi) ∧
  FGives1 (fun c d a => .cospi c d a) .fp32 (sfWord .cospi) ∧ FGives1 (fun c d a => .tanh c d a) .fp32 (sfWord .tanh)

/-- Sources, index descriptors and uniform sources (R42, R50 to R54). -/
def Obligations.SourcesAreReadAsTheyName : Prop :=
  Sys2Proof.Claims.SourcesReadLaneByLane ∧ Sys2Proof.Claims.IndexDescriptorReaches ∧ Sys2Proof.Claims.UniformSources

/-- Cross-lane and predicate instructions, with reductions over the participating lanes. The latch of an indexed destination is
log 7, the slot that vN+oM names log 97. -/
def Obligations.CrossLaneAndPredicates : Prop :=
  Sys2Proof.Claims.CrossLaneInstructionsWrite ∧ Sys2Proof.Claims.PredicateInstructionsWrite ∧
  Sys2Proof.Claims.ReductionIsOverParticipatingLanes

/-- Floating-point arithmetic and the special functions, and the values of their results. The latch of an indexed
destination is log 7, the slot that vN+oM names log 97. -/
def Obligations.FloatInstructions : Prop :=
  Sys2Proof.Claims.FloatArithmetic ∧ Sys2Proof.Claims.SpecialFunctions ∧ Sys2Proof.Claims.FloatResultsAreRounded ∧
  Sys2Proof.Claims.SpecialFunctionValues

/-- Every NaN that a float operation gives is the canonical NaN of its format: of sums of products, minimum and maximum,
FRND, FSCALE, conversions and the special functions. A NaN operand makes a sum NaN, a signalling one raises invalid, and
minimum and maximum of a NaN and a number give the number, and else the lesser or the greater of the two (R17, R23, R115, R119). -/
def Obligations.NansAreCanonical : Prop := Sys2Proof.Claims.MinimumAndMaximum ∧
  let canon (f : Fmt) (r : Nat × Flags) : Prop := (unpackF f r.1).isNan = true → r.1 = f.nan
  (∀ f ∈ [Fmt.f32, .bf16, .f16],
    (∀ rm ts, canon f (sumProd f rm ts)) ∧
    (∀ rm ts, (∃ t ∈ ts, t.1.isNan = true ∨ t.2.isNan = true) → (sumProd f rm ts).1 = f.nan) ∧
    (∀ rm ts, (∃ t ∈ ts, t.1.isSnan = true ∨ t.2.isSnan = true) → sumProd f rm ts = (f.nan, Flags.invalid)) ∧
    (∀ mx x y, canon f (minMaxF f mx x y)) ∧
    (∀ mx x y, (unpackF f x).isNan = true → (unpackF f y).isNan = false →
      (minMaxF f mx x y).1 = y ∧ (minMaxF f mx y x).1 = y) ∧
    (∀ rm x, canon f (rndF f rm x)) ∧ ∀ rm x n, canon f (scaleF f rm x n)) ∧
  (∀ dt ∈ [Fmt.f32, .bf16, .f16, .e4m3f, .e5m2],
    (∀ st rm x, canon dt (cvtFF st dt rm x)) ∧ ∀ rm n, canon dt (cvtIF dt rm n)) ∧
  ∀ k x, canon .f32 (special k x)

/-! ## Memory instructions -/

namespace Sys2Proof.Claims

open Sys2Proof Sys2Proof.Machine

/-- Every participating lane's access passes its checks, and none makes the gang wait for a migration or a copy of a slice; uni says
that one access serves all (R130, R131, R134, R385, R435; log 18). -/
structure Reaches (s : State) (k : GCtx) (m : LaneMask) (f : AccForm) (ver : Bool) (size : Size) (addr : Fin 128)
    (off : BitVec 18) (uni : Bool) (accs : List LaneAcc) : Prop where
  passed : ∃ eas cs, laneEas k m addr off = .ok (uni, eas) ∧ checkLanes s k.blk.core k.blk.ctx f ver size eas = .ok cs ∧
    cs.find? (fun c => c.held || (c.acc.mig && mmuFull s k.blk.core)) = none ∧ accs = cs.map (·.acc)

/-- What passing the checks leaves: the translations used are cached, the use of staged pages noted and the bytes counted,
and nothing else (R358, R360, R379). -/
def reached (s : State) (k : GCtx) (f : AccForm) (size : Size) (accs : List LaneAcc) : State :=
  addWork (touchAll s k.blk.core k.blk.ctx accs) k.b 0 (workBytes s k.blk.core k.blk.ctx f size accs)

/-- The pending result of a load. -/
def loadPend (k : GCtx) (m : LaneMask) (d : Dst) (idx : List (Nat × Fin 256)) (accs : List LaneAcc) (size : Size)
    (uni raw sx : Bool) (ord : Order) (id : Nat) : Pend :=
  { id := id, kind := .load raw sx, dst := d, idx := idx, lanes := m, accs := accs, size := size, uni := uni,
    acq := ord = .acq, takes := linesFor k.wp d idx size.regs (!uni) m, data := [], failed := 0 }

/-- The state in which pending result p is recorded: the scoreboard tracks it, the latch awaits it, and the gang goes on (R49,
R176, R179). -/
def withPend (s : State) (k : GCtx) (p : Pend) : State :=
  advance (modWarp s k.b k.w fun w =>
    modGangs { w with pend := w.pend ++ [p] } k.g.gid fun g =>
      { g with lat := [(p.id, BitVec.allOnes 32)], board := p.id :: g.board }) k

/-- Whether an address of device memory lies in one of the stored places. -/
def storedDev (accs : List LaneAcc) (n a : Nat) : Prop := ∃ x ∈ accs, ∃ p, x.loc = .dev p ∧ p ≤ a ∧ a < p + n

/-- The same for the span. -/
def storedSpan (accs : List LaneAcc) (n a : Nat) : Prop := ∃ x ∈ accs, ∃ p, x.loc = .span p ∧ p ≤ a ∧ a < p + n

end Sys2Proof.Claims

/-- LD goes on with its result pending: latch awaited, PC + 1; no memory changes. A load from fabric memory sends its
reads and holds the gang; too many lines raise REGPOOL_EXHAUSTED (R49, R135, R179, R368). -/
def Obligations.LoadGoesOn : Prop :=
  ∀ (s : State) (k : GCtx) (c : Ctl) (m : LaneMask) (d : Dst) (addr : Fin 128) (off : BitVec 18) (ord : Order)
    (scope : Scope) (raw sx : Bool) (size : Size) (uni : Bool) (accs : List LaneAcc) (idx : List (Nat × Fin 256)),
    Issues s k c m → dstIdx k d m = .ok idx → Reaches s k m (if raw then .ldRaw else .ld) false size addr off uni accs →
    ∀ t id p, t = reached s k (if raw then .ldRaw else .ld) size accs → id = t.nextId → p = loadPend k m d idx accs size uni raw sx ord id →
      SameStores s t ∧
      (linesHeld { k.wp with pend := k.wp.pend ++ [p] } ≤ k.wp.gmax →
        (∀ a ∈ accs, isFab a.loc = false) →
        exec (.ld c d addr off ord scope raw sx size) s = .next (withPend { t with nextId := id + 1 } k p)) ∧
      (linesHeld { k.wp with pend := k.wp.pend ++ [p] } ≤ k.wp.gmax →
        (∃ a ∈ accs, isFab a.loc = true) →
        exec (.ld c d addr off ord scope raw sx size) s =
          .next (modGangW (sendReads (withPend { t with nextId := id + 1 } k p) k id size accs) k.b k.w k.g.gid
            fun g => { g with wait := .fabric id })) ∧
      (k.wp.gmax < linesHeld { k.wp with pend := k.wp.pend ++ [p] } →
        exec (.ld c d addr off ord scope raw sx size) s = .next (takeFault s s.cur (raise .regpool (some (lowLane p.lanes)))))

/-- The checks come before any effect, in lane order: the lowest lane that fails gives the fault or the page that is not
present, every lane below it passes, and no lane accesses memory; a page that a scale or a dither entry needs is missed as a
read (R134, R249, R380). -/
def Obligations.LowestFailingLaneFaults : Prop :=
  (∀ (s : State) (who : Fin 256) (ctx : Fin 64) (f : AccForm) (ver : Bool) (size : Size) (eas : List (Nat × Int))
      (l : Nat) (ea : Int) (x : AErr),
    checkLanes s who ctx f ver size eas = .error (l, ea, x) ↔
      ∃ before after, eas = before ++ (l, ea) :: after ∧ checkAcc s (some who) ctx f ver size ea = .error x ∧
        ∀ e ∈ before, ∃ c, checkAcc s (some who) ctx f ver size e.2 = .ok c) ∧
  ∀ (s : State) (k : GCtx) (c : Ctl) (m : LaneMask) (addr : Fin 128) (off : BitVec 18) (uni : Bool)
    (eas : List (Nat × Int)) (l : Nat) (ea : Int) (x : AErr), Issues s k c m → laneEas k m addr off = .ok (uni, eas) →
    (∀ d ord scope (raw : Bool) sx size idx, dstIdx k d m = .ok idx →
      checkLanes s k.blk.core k.blk.ctx (if raw then .ldRaw else .ld) false size eas = .error (l, ea, x) →
      (∀ code a, x = .fault code a → exec (.ld c d addr off ord scope raw sx size) s =
        .next (takeFault s s.cur (raise code (some l) 0 a))) ∧
      (∀ ctx va, x = .absent ctx va → exec (.ld c d addr off ord scope raw sx size) s =
        .next (pageWait s k true (missKind (if raw then .ldRaw else .ld) ea.toNat va) ctx va l ea.toNat))) ∧
    (∀ data ord scope (raw : Bool) (ver : Option (BitVec 8)) size vals, dataVals k m size.regs data = .ok vals →
      checkLanes s k.blk.core k.blk.ctx (if raw then .stRaw else .st) ver.isSome size eas = .error (l, ea, x) →
      (∀ code a, x = .fault code a → exec (.st c addr data off ord scope raw ver size) s =
        .next (takeFault s s.cur (raise code (some l) 0 a))) ∧
      (∀ ctx va, x = .absent ctx va → exec (.st c addr data off ord scope raw ver size) s =
        .next (pageWait s k true (missKind (if raw then .stRaw else .st) ea.toNat va) ctx va l ea.toNat))) ∧
    (∀ data ord scope (ver : Option (BitVec 8)) size vals, dataVals k m size.regs data = .ok vals →
      checkLanes s k.blk.core k.blk.ctx .qst ver.isSome size eas = .error (l, ea, x) →
      (∀ code a, x = .fault code a → exec (.qst c addr data off ord scope ver size) s =
        .next (takeFault s s.cur (raise code (some l) 0 a))) ∧
      (∀ ctx va, x = .absent ctx va → exec (.qst c addr data off ord scope ver size) s =
        .next (pageWait s k true (missKind .qst ea.toNat va) ctx va l ea.toNat))) ∧
    (∀ data v, readSrc k m (.int .w32) false data = .ok v →
      checkLanes s k.blk.core k.blk.ctx .atomo false .b32 eas = .error (l, ea, x) →
      (∀ code a, x = .fault code a → exec (.atomo c addr data off) s =
        .next (takeFault s s.cur (raise code (some l) 0 a))) ∧
      (∀ ctx va, x = .absent ctx va → exec (.atomo c addr data off) s =
        .next (pageWait s k true (missKind .atomo ea.toNat va) ctx va l ea.toNat)))

/-- The order of the checks of one access outside format pages: the address limit first, then translation, then permission,
then alignment; each stops the access under its own code. While VALID of the context is 0 no address translates; else a cached
translation stays in use, and without one the tables are walked (R130, R134, R245, R375, R379); that a cached translation is used
as it stands, though its leaf in memory no longer is valid, is the model's reading (log 93). An entry with MIG = 1 holds a versioned
write and an ATOMO with its gang, any other write or atomic by itself (R385; log 18). -/
def Obligations.AccessChecksInOrder : Prop :=
  ∀ (s : State) (who : Fin 256) (ctx : Fin 64) (f : AccForm) (ver : Bool) (size : Size) (ea : Int),
    ((ea < 0 ∨ (Config.vaLimit : Int) ≤ ea) →
      checkAcc s (some who) ctx f ver size ea = .error (.fault .protection (ea % 2 ^ 64).toNat)) ∧
    (∀ a : Nat, ea = a → a < Config.vaLimit → inSpan a = false →
      (s.ctxs[ctx].valid = false → checkAcc s (some who) ctx f ver size ea = .error (.fault .protection a)) ∧
      (∀ t, s.ctxs[ctx].valid = true → cachedLeaf s (some who) ctx a = some t → leafOf s (some who) ctx a = .leaf t) ∧
      (s.ctxs[ctx].valid = true → cachedLeaf s (some who) ctx a = none →
        leafOf s (some who) ctx a = walkTable s.mem ctx.val a levels s.ctxs[ctx].root.toNat) ∧
      (leafOf s (some who) ctx a = .absent → checkAcc s (some who) ctx f ver size ea = .error (.absent ctx.val a)) ∧
      (leafOf s (some who) ctx a = .malformed →
        checkAcc s (some who) ctx f ver size ea = .error (.fault .protection a)) ∧
      (∀ t, leafOf s (some who) ctx a = .leaf t →
        bitsOf t.pte.toNat (if f.kind.writes then 3 else 2) 1 = 0 →
        checkAcc s (some who) ctx f ver size ea = .error (.fault .protection a)) ∧
      (∀ t, leafOf s (some who) ctx a = .leaf t →
        bitsOf t.pte.toNat (if f.kind.writes then 3 else 2) 1 = 1 → bitsOf t.pte.toNat 5 1 = 0 →
        bitsOf t.pte.toNat 8 6 = 0 → f ≠ .qst →
        (a % size.bytes ≠ 0 → checkAcc s (some who) ctx f ver size ea = .error (.fault .misaligned a)) ∧
        (a % size.bytes = 0 → checkAcc s (some who) ctx f ver size ea =
          .ok { acc := { lane := 0, ea := a, loc := .dev (pteAddr t.pte.toNat + (a - t.va)), els := [],
                         mig := decide (bitsOf t.pte.toNat 6 1 = 1) && f.kind.writes },
                held := decide (bitsOf t.pte.toNat 6 1 = 1) && f.kind.writes && (ver || decide (f = .atomo)) }))) ∧
    (∀ a : Nat, ea = a → inSpan a = true → a < Config.spanBase + Config.spanSize → ver = false → f ≠ .qst →
      (a % size.bytes ≠ 0 → checkAcc s (some who) ctx f ver size ea = .error (.fault .misaligned a)) ∧
      (a % size.bytes = 0 → spanAllowed s ctx (a - Config.spanBase) size.bytes = false →
        checkAcc s (some who) ctx f ver size ea = .error (.fault .spanProtection a)) ∧
      (a % size.bytes = 0 → spanAllowed s ctx (a - Config.spanBase) size.bytes = true →
        checkAcc s (some who) ctx f ver size ea =
          .ok { acc := { lane := 0, ea := a, loc := .span (a - Config.spanBase), els := [] },
                held := sliceHeld s (a - Config.spanBase) }))

/-- LOAD_DATA_ARRIVES and ATOM_RETURN: the registers that the result names take it, lane by lane, from memory as it now
stands, little-endian; poisoned data poison the lanes that read them; the result is no longer pending (R134, R135, R141). -/
def Sys2Proof.Claims.ResultsArrive : Prop :=
  ∀ (s : State) (b w : Nat) (p : Pend) (blk : Block) (wp : Warp), findPend s p.id = some (b, w, p) →
    s.blocks[b]? = some blk → blk.warps[w]? = some wp → pendReady p = true →
    (p.isLoad = true → exec (.loadDataArrives p.id) s = .next (landPend s b w p)) ∧
    (p.isLoad = false → exec (.atomReturn p.id) s = .next (landPend s b w p)) ∧
    SameStores s (landPend s b w p) ∧
    ∀ n vw, p.dst = .v n vw → (pendValues s p).1.length = 1 → ∃ blk' wp',
      (landPend s b w p).blocks[b]? = some blk' ∧ blk'.warps[w]? = some wp' ∧
      wp'.pend = wp.pend.filter (·.id != p.id) ∧
      (∀ j : Fin 256, j ≠ n → wp'.regs[j] = wp.regs[j]) ∧ wp'.ofile = wp.ofile ∧ wp'.preds = wp.preds ∧
      ∀ l < 4 * wp.width.val,
        laneVal wp'.regs[n].val l =
          (if laneBit p.lanes l then laneVal ((pendValues s p).1.headD (.u 0)) l else laneVal wp.regs[n].val l) ∧
        (laneBit p.lanes l = true → laneBit wp'.regs[n].poison l = laneBit (pendValues s p).2.2 l)

/-- The value of a plain load is the little-endian number in memory, zero- or sign-extended to its registers (R8, R135). -/
def Sys2Proof.Claims.LoadedValues : Prop :=
  ∀ (s : State) (p : Pend) (sx raw : Bool) (a : LaneAcc) (addr : Nat), p.kind = .load raw sx → p.uni = true →
    p.accs = [a] → a.loc = .dev addr → a.els = [] →
    (p.size = .b8 → (pendValues s p).1 = [.u (if sx then (memGet s.mem addr).signExtend 32 else (memGet s.mem addr).setWidth 32)]) ∧
    (p.size = .b16 → (pendValues s p).1 =
      [.u (if sx then (memGet s.mem (addr + 1) ++ memGet s.mem addr).signExtend 32
        else (memGet s.mem (addr + 1) ++ memGet s.mem addr).setWidth 32)]) ∧
    (p.size = .b32 → (pendValues s p).1 = [.u (memGet s.mem (addr + 3) ++ memGet s.mem (addr + 2) ++
      memGet s.mem (addr + 1) ++ memGet s.mem addr)]) ∧
    (p.size = .b64 → (pendValues s p).1 =
      [.u (memGet s.mem (addr + 3) ++ memGet s.mem (addr + 2) ++ memGet s.mem (addr + 1) ++ memGet s.mem addr),
       .u (memGet s.mem (addr + 7) ++ memGet s.mem (addr + 6) ++ memGet s.mem (addr + 5) ++ memGet s.mem (addr + 4))]) ∧
    ((unitsOf 32 addr p.size.bytes).any s.badGranules.contains = false → (pendValues s p).2.2 = 0)

/-- ST and QST store at the places their lanes' addresses translate to, in ascending lane order, and go on, a store to a migrating
page held apart; every other byte of device memory and of the span reads as before, and registers and predicates do (R138 to R140,
R385, R414). -/
def Obligations.StoresWriteOnlyTheirPlaces : Prop :=
  ∀ (s : State) (k : GCtx) (c : Ctl) (m : LaneMask) (addr : Fin 128) (data : Src) (off : BitVec 18) (ord : Order)
    (scope : Scope) (ver : Option (BitVec 8)) (size : Size) (uni : Bool) (accs : List LaneAcc) (vals : List VVal),
    Issues s k c m → s.homesWf = true → dataVals k m size.regs data = .ok vals →
    (∀ raw, Reaches s k m (if raw then .stRaw else .st) ver.isSome size addr off uni accs →
      ∃ t, exec (.st c addr data off ord scope raw ver size) s = .next t ∧
        t = advance (storeLanes (reached s k (if raw then .stRaw else .st) size accs) (tagOf s s.cur) ver
          ((spreadAccs uni m accs).map fun a => (a, storeBytes size vals a.lane))) k ∧
        (∀ a, ¬ storedDev accs size.bytes a → memGet t.mem a = memGet s.mem a) ∧
        (∀ a, ¬ storedSpan accs size.bytes a → memGet t.span a = memGet s.span a) ∧
        t.blocks = (advance (reached s k (if raw then .stRaw else .st) size accs) k).blocks ∧
        (ver = none → t.lineVer = s.lineVer)) ∧
    (Reaches s k m .qst ver.isSome size addr off uni accs →
      ∃ t, exec (.qst c addr data off ord scope ver size) s = .next t ∧
        t = raiseFlags (advance (mergeCodes (reached s k .qst size accs) (tagOf s s.cur) ver
          (((spreadAccs uni m accs).flatMap (laneCodes vals)).map (·.1))) k) k.b
          (((spreadAccs uni m accs).flatMap (laneCodes vals)).foldl (fun f x => f ||| x.2) 0) ∧
        (∀ a, (∀ x ∈ accs, ∀ e ∈ x.els, e.loc ≠ .dev a) → memGet t.mem a = memGet s.mem a) ∧
        (∀ a, (∀ x ∈ accs, ∀ e ∈ x.els, e.loc ≠ .span a) → memGet t.span a = memGet s.span a) ∧
        (ver = none → t.lineVer = s.lineVer))

/-- Where no stored place is poisoned or migrating, a plain store leaves each lane's bytes in memory, little-endian from the data
registers, unless a higher lane stores over them: the highest lane's bytes remain (R8, R138). -/
def Sys2Proof.Claims.HighestLaneStoreRemains : Prop :=
  ∀ (s : State) (t : Report) (ws : List (LaneAcc × List Byte)) (i : Nat) (x : LaneAcc) (p : Nat) (bytes : List Byte) (j : Nat),
    s.homesWf = true → (∀ w ∈ ws, poisonAt s w.1.loc w.2.length = false ∧ w.1.mig = false) →
    ws[i]? = some (x, bytes) → x.loc = .dev p → j < bytes.length →
    (∀ i' > i, ∀ y q bs, ws[i']? = some (y, bs) → y.loc = .dev q → p + j < q ∨ q + bs.length ≤ p + j) →
    memGet (storeLanes s t none ws).mem (p + j) = bytes.getD j 0

/-- A versioned write to a line whose version equals its NVER stores and raises the version by one modulo 256; to any other
line it stores nothing, changes no version, and is reported as STORE_IMPRECISE with cause 1 and the virtual
address at which the write reaches it (R140, R416). -/
def Sys2Proof.Claims.VersionedWriteChecksItsLine : Prop :=
  ∀ (s : State) (t : Report) (n : BitVec 8) (a va : Nat) (bytes : List Byte), s.homesWf = true → bytes ≠ [] →
    a / 128 = (a + bytes.length - 1) / 128 →
    let w : VerW := { addr := a, va := va, data := bytes, code := none }
    (memGet s.lineVer (a / 128) = n → s.badGranules = [] →
      ∃ u, writeVersioned s t n [w] = u ∧ memGet u.lineVer (a / 128) = n + 1 ∧ u.reports = s.reports ∧
        (∀ l ≠ a / 128, memGet u.lineVer l = memGet s.lineVer l) ∧
        (∀ j < bytes.length, memGet u.mem (a + j) = bytes.getD j 0) ∧
        ∀ b, (b < a ∨ a + bytes.length ≤ b) → memGet u.mem b = memGet s.mem b) ∧
    (memGet s.lineVer (a / 128) ≠ n →
      writeVersioned s t n [w] = report s (t.at va) 1)

/-- Results of a load arrive with the values that its places hold, a code of a format page decoded with its dither. -/
def Obligations.ResultsArriveWithTheirValues : Prop :=
  Sys2Proof.Claims.ResultsArrive ∧ Sys2Proof.Claims.LoadedValues ∧ Sys2Proof.Claims.DitherIsTheTables ∧
  Sys2Proof.Claims.DecodeOfDitheredCodes

/-- Of several lanes that store to one byte the highest remains, a value is quantised to the nearest point of the grid, and a
versioned write checks its line first. -/
def Obligations.StoresInLaneOrderAndByVersion : Prop :=
  Sys2Proof.Claims.HighestLaneStoreRemains ∧ Sys2Proof.Claims.QuantiseGivesTheNearestPoint ∧
  Sys2Proof.Claims.VersionedWriteChecksItsLine

/-! ## Atomics, exact accumulation, fences, waits -/

namespace Sys2Proof.Claims

open Sys2Proof Sys2Proof.Machine

/-- The pending result of a returning atomic, before its old values are known. -/
def atomPend (k : GCtx) (m : LaneMask) (d : Dst) (idx : List (Nat × Fin 256)) (lanes : List LaneAcc) (size : Size)
    (ord : Order) (id : Nat) : Pend :=
  { id := id, kind := .atomic [], dst := d, idx := idx, lanes := m, accs := lanes.filter later, size := size,
    uni := false, acq := ord = .acq || ord = .ar, takes := linesFor k.wp d idx size.regs true m, data := [], failed := 0 }

end Sys2Proof.Claims

/-- ATOM: without destination its lanes' operations are performed in ascending lane order, or, at a narrow scope in
deterministic mode, buffered; with one the old values read become a pending result. The PC goes on (R141, R142, R448). A lane whose
page migrates is held apart, and one to be buffered waits with its gang (R385; log 18). -/
def Sys2Proof.Claims.AtomicsPerformInLaneOrder : Prop :=
  ∀ (s : State) (k : GCtx) (c : Ctl) (m : LaneMask) (addr : Fin 128) (data : Src) (op : AtomOp) (u : Bool) (ord : Order)
    (scope : Scope) (size : Size) (uni : Bool) (accs lanes : List LaneAcc) (vals : List VVal), Issues s k c m →
    dataVals k m (atomRegsOf op size) data = .ok vals → Reaches s k m .atom false size addr 0 uni accs →
    lanes = spreadAccs uni m accs →
    ((isDet s k.blk && narrow scope) = false →
      exec (.atom c none addr data op u ord scope size) s =
        .next (advance (lanes.foldl (atomLane k 0 (tagOf s s.cur) op u false (ord = .acq || ord = .ar) size vals) (reached s k .atom size accs, [])).1 k)) ∧
    ((isDet s k.blk && narrow scope) = true → (∀ a ∈ lanes, a.mig = false) →
      ∃ es : List BufAtom, exec (.atom c none addr data op u ord scope size) s =
        .next (advance (modBlock (reached s k .atom size accs) k.b fun x => { x with buffer := x.buffer ++ es }) k) ∧
        es.map (fun e => (e.warp, e.lane, e.ea, e.loc)) = lanes.map (fun a => (some k.w, a.lane, a.ea, a.loc)) ∧
        ∀ e ∈ es, e.op = op ∧ e.u = u ∧ e.size = size ∧ e.pc = k.g.pc ∧ e.acq = (ord = .acq || ord = .ar) ∧
          e.rel = (ord = .rel || ord = .ar) ∧ (e.b1, e.b2) = atomData size vals e.lane) ∧
    ((isDet s k.blk && narrow scope) = true → ∀ a, lanes.find? (·.mig) = some a →
      exec (.atom c none addr data op u ord scope size) s = .next (holdGang s k a.ea)) ∧
    (∀ d idx t id p, dstIdx k d m = .ok idx → t = reached s k .atom size accs → id = t.nextId →
      p = atomPend k m d idx lanes size ord id →
      (k.wp.gmax < linesHeld { k.wp with pend := k.wp.pend ++ [p] } →
        exec (.atom c (some d) addr data op u ord scope size) s =
          .next (takeFault s s.cur (raise .regpool (some (lowLane m))))) ∧
      (linesHeld { k.wp with pend := k.wp.pend ++ [p] } ≤ k.wp.gmax →
        ∃ r bad, r = lanes.foldl (atomLane k id (tagOf s s.cur) op u true (ord = .acq || ord = .ar) size vals) ({ t with nextId := id + 1 }, []) ∧
          (∀ l, laneBit bad l = true → ∀ o, (l, o) ∉ r.2) ∧
          ∃ v, v = withPend r.1 k { p with kind := .atomic r.2, failed := bad } ∧
          exec (.atom c (some d) addr data op u ord scope size) s =
            .next (if isDet s k.blk && !narrow scope then raiseFlags v k.b Flags.nondet else v)))

/-- One atomic on a word that holds no uncorrectable data: it returns the old value, and memory then holds the new one; other
bytes keep theirs. On uncorrectable data nothing is written, and the failure of an atomic that returns nothing is reported
(R141, R414, R431). -/
def Sys2Proof.Claims.AtomicReadsModifiesWrites : Prop :=
  ∀ (s : State) (t : Report) (a : Nat) (op : AtomOp) (u : Bool) (size : Size) (b1 b2 : Word64), s.homesWf = true →
    (poisonAt s (.dev a) size.bytes = false →
      (rmw s t (.dev a) op u size b1 b2).2 = some (BitVec.ofNat 64 (memNat s.mem a size.bytes)) ∧
      memNat (rmw s t (.dev a) op u size b1 b2).1.mem a size.bytes =
        atomNew op u (8 * size.bytes) (memNat s.mem a size.bytes) b1.toNat b2.toNat % 2 ^ (8 * size.bytes) ∧
      ∀ b, (b < a ∨ a + size.bytes ≤ b) → memGet (rmw s t (.dev a) op u size b1 b2).1.mem b = memGet s.mem b) ∧
    (poisonAt s (.dev a) size.bytes = true →
      (∀ ret, (rmw s t (.dev a) op u size b1 b2 ret).2 = none ∧ (rmw s t (.dev a) op u size b1 b2 ret).1.mem = s.mem) ∧
      (rmw s t (.dev a) op u size b1 b2 true).1.reports = s.reports ∧
      ∃ r, (rmw s t (.dev a) op u size b1 b2).1.reports = s.reports ++ [r] ∧ r.cause = 0 ∧ r.party = t.party)

/-- The new value of each atomic operation, on 32-bit words (R141). -/
def Obligations.AtomicOperations : Prop :=
  ∀ (o x y : Word),
    (∀ u, atomNew .add u 32 o.toNat x.toNat y.toNat = (o + x).toNat ∧ atomNew .and u 32 o.toNat x.toNat y.toNat = (o &&& x).toNat ∧
      atomNew .or u 32 o.toNat x.toNat y.toNat = (o ||| x).toNat ∧
      atomNew .xor u 32 o.toNat x.toNat y.toNat = (o ^^^ x).toNat ∧ atomNew .exch u 32 o.toNat x.toNat y.toNat = x.toNat ∧
      atomNew .cas u 32 o.toNat x.toNat y.toNat = (if o = x then y else o).toNat) ∧
    atomNew .min false 32 o.toNat x.toNat y.toNat = (if o.toInt ≤ x.toInt then o else x).toNat ∧
    atomNew .max false 32 o.toNat x.toNat y.toNat = (if x.toInt ≤ o.toInt then o else x).toNat ∧
    atomNew .min true 32 o.toNat x.toNat y.toNat = (if o ≤ x then o else x).toNat ∧
    atomNew .max true 32 o.toNat x.toNat y.toNat = (if x ≤ o then o else x).toNat

/-- ATOMO contributes each participating lane's value to its word's cell, and the order of two contributions to an open cell
makes no difference: sum, marks and count agree (R143, R144). -/
def Sys2Proof.Claims.ExactAccumulationHasNoOrder : Prop :=
  (∀ (s : State) (k : GCtx) (c : Ctl) (m : LaneMask) (addr : Fin 128) (data : Src) (off : BitVec 18) (uni : Bool)
      (accs : List LaneAcc) (v : VVal), Issues s k c m → readSrc k m (.int .w32) false data = .ok v →
    Reaches s k m .atomo false .b32 addr off uni accs →
    exec (.atomo c addr data off) s = .next (advance ((spreadAccs uni m accs).foldl (fun u a =>
      contribute u ((tagOf s s.cur).at a.ea) k.b k.blk.ctx a.loc (laneVal v a.lane)) (reached s k .atomo .b32 accs)) k)) ∧
  (∀ (x y : Word) (c : ACell), addToCell x (addToCell y c) = addToCell y (addToCell x c)) ∧
  (∀ (s : State) (t : Report) (b : Nat) (ctx : Fin 64) (l : Loc) (x : Word) (c : ACell), s.cells = [c] → c.loc = l →
    c.poison = false →
    ∃ d, (contribute s t b ctx l x).cells = [d] ∧ SameStores s (contribute s t b ctx l x) ∧ d.count = c.count + 1 ∧
      d.sum = (addToCell x c).sum ∧ d.nan = (addToCell x c).nan ∧ d.pinf = (addToCell x c).pinf ∧
      d.ninf = (addToCell x c).ninf ∧ d.poison = false)

/-- CELL_CLOSE: while a contributing node runs, or the word's slice is being copied, nothing happens; then the cell goes, and its word becomes the sum rounded once
to nearest even, the canonical NaN with invalid for a NaN or infinities of both signs, or the infinity (R144, R146, R435). -/
def Sys2Proof.Claims.CellCloses : Prop :=
  ∀ (s : State) (l : Loc) (c : ACell), s.cells.find? (·.loc = l) = some c →
    ((∃ n ∈ c.nodes, nodeRuns s n = true) → exec (.cellClose l) s = .next s) ∧
    (locHeld s c.loc = true → exec (.cellClose l) s = .next s) ∧
    ((∀ n ∈ c.nodes, nodeRuns s n = false) → locHeld s c.loc = false →
      exec (.cellClose l) s = .next (closeCell (lastEnded s c.nodes) none s c) ∧
      (∀ x ∈ (closeCell (lastEnded s c.nodes) none s c).cells, x.loc ≠ l) ∧
      (∀ o, l = .span o → c.poison = false → poisonAt s l 4 = false →
        (closeCell (lastEnded s c.nodes) none s c).span = memWrite s.span o (leBytes 4 (cellWord c).1.toNat))) ∧
    ((c.nan = true ∨ (c.pinf = true ∧ c.ninf = true)) → cellWord c = (0x7FC00000, Flags.invalid)) ∧
    (c.nan = false → c.count ≤ 2 ^ 32 → c.pinf = true → c.ninf = false → cellWord c = (0x7F800000, 0)) ∧
    (c.nan = false → c.count ≤ 2 ^ 32 → c.pinf = false → c.ninf = true → cellWord c = (0xFF800000, 0)) ∧
    (c.nan = false → c.count ≤ 2 ^ 32 → c.pinf = false → c.ninf = false →
      cellWord c = (BitVec.ofNat 32 (roundDy .f32 .rn false { m := c.sum, e := -149 }).1,
        (roundDy .f32 .rn false { m := c.sum, e := -149 }).2))

/-- What a PREF does for one address of a gang: one that passes the checks of a raw load of one byte, and lies outside the span,
has its translation cached and its staged page's use noted (R149, R360, R379). -/
def Sys2Proof.Claims.prefAt (k : GCtx) (t : State) (ea : Int) : State :=
  match checkAcc t (some k.blk.core) k.blk.ctx .ldRaw false .b8 ea with
  | .ok _ => if inSpan ea.toNat then t else touch t (some k.blk.core) k.blk.ctx ea.toNat
  | .error _ => t

/-- FENCE goes on: beyond the warp it is a flush point of the block's atomic buffer, and .flush closes the context's open cells. A
prefetch goes on whatever its addresses are and raises nothing, even for a poisoned guard or address: each of its lanes may have one
translation cached, in the TLB of the gang's own core and of its die and nowhere else, and its staged page's use noted, and nothing
else changes (R142, R147, R149, R236, R360, R379; log 95). -/
def Sys2Proof.Claims.FenceAndPrefetchGoOn : Prop :=
  (∀ (s : State) (k : GCtx) (c : Ctl) (m : LaneMask), Issues s k c m →
    (∀ ord, exec (.fence c ord .wp false) s = .next (advance s k)) ∧
    (∀ ord scope, scope ≠ .wp → exec (.fence c ord scope false) s = .next (advance (drain s k.b) k)) ∧
    (∀ ord scope, exec (.fence c ord scope true) s =
      .next (advance (flushCells (if scope = .wp then s else drain s k.b) k.blk.ctx k.blk.node s.cur) k))) ∧
  (∀ (s : State) (k : GCtx) (c : Ctl), gangOf s s.cur = some k → partLanes k c = .ok 0 → ∀ ord scope flush,
    exec (.fence c ord scope flush) s = .next (advance s k)) ∧
  (∀ (s : State) (k : GCtx) (c : Ctl) (addr : Fin 128) (off : BitVec 18) (kind : PrefKind), gangOf s s.cur = some k →
    let lo := k.wp.regs[Fin.ofNat 256 (2 * addr.val)]
    let hi := k.wp.regs[Fin.ofNat 256 (2 * addr.val + 1)]
    let eas := (((lanesOf (activeLanes k.wp k.g)).filter fun l =>
        !laneBit (predReg k.wp c.pred).poison l && (predBit (predReg k.wp c.pred).val l != c.inv) &&
        !laneBit lo.poison l && !laneBit hi.poison l).map fun l =>
      ((laneVal hi.val l ++ laneVal lo.val l).toNat : Int) + off.toInt)
    ∃ t, exec (.pref c addr off kind) s = .next (advance t k) ∧ t = eas.foldl (prefAt k) s) ∧
  (∀ (k : GCtx) (t : State) (ea : Int), ∃ cores dies staged,
    prefAt k t ea = { t with cores := cores, dieTlb := dies, staged := staged } ∧
    (∀ c, c ≠ k.blk.core → cores[c] = t.cores[c]) ∧ (∀ d, d ≠ dieOf k.blk.core → dies[d] = t.dieTlb[d]) ∧
    (∃ l, cores[k.blk.core] = { t.cores[k.blk.core] with tlb := l }) ∧
    (∀ e ∈ cores[k.blk.core].tlb, e ∈ t.cores[k.blk.core].tlb ∨ leafOf t (some k.blk.core) k.blk.ctx ea.toNat = .leaf e) ∧
    (∀ e ∈ dies[dieOf k.blk.core], e ∈ t.dieTlb[dieOf k.blk.core] ∨ leafOf t (some k.blk.core) k.blk.ctx ea.toNat = .leaf e) ∧
    staged.length = t.staged.length ∧
    ∀ (i : Nat) (x : Staged), t.staged[i]? = some x → ∃ n, staged[i]? = some { x with last := n } ∧
      (n = x.last ∨ (n = t.tick ∧ x.ctx = k.blk.ctx ∧ x.va ≤ ea.toNat ∧ ea.toNat < x.va + x.len))) ∧
  (∀ (k : GCtx) (t : State) (a : Nat) (x : Checked) (e : TlbEnt), inSpan a = false →
    checkAcc t (some k.blk.core) k.blk.ctx .ldRaw false .b8 a = .ok x → leafOf t (some k.blk.core) k.blk.ctx a = .leaf e →
    e ∈ (prefAt k t a).cores[k.blk.core].tlb ∧ e ∈ (prefAt k t a).dieTlb[dieOf k.blk.core])

/-- A flush point performs the entries of the block's buffer one after the other, each as an atomic of its party, up to the first
that has to wait, and empties it where none has to. They come helm first, then in ascending order of warp and lane, those of one
party's lane in the order in which they were issued (R142, R228; log 102). -/
def Sys2Proof.Claims.BufferDrainsInOneOrder : Prop :=
  (∀ (s : State) (b : Nat) (blk : Block), s.blocks[b]? = some blk →
    ((∀ pre a post, drainOrder blk.buffer = pre ++ a :: post → entryWaits (pre.foldl (runBuffered b) s) b a = false) →
      drain s b = modBlock ((drainOrder blk.buffer).foldl (runBuffered b) s) b fun x => { x with buffer := [] }) ∧
    (∀ pre a post, drainOrder blk.buffer = pre ++ a :: post →
      (∀ p x q, pre = p ++ x :: q → entryWaits (p.foldl (runBuffered b) s) b x = false) →
      entryWaits (pre.foldl (runBuffered b) s) b a = true →
      drain s b = modBlock (pre.foldl (runBuffered b) s) b fun x => { x with buffer := a :: post })) ∧
  ∀ (l : List BufAtom), (drainOrder l).Perm l ∧
    (drainOrder l).Pairwise (fun x y => (y.warp = none → x.warp = none) ∧
      ∀ v w, x.warp = some v → y.warp = some w → v < w ∨ (v = w ∧ x.lane ≤ y.lane)) ∧
    (∀ w n, (drainOrder l).filter (fun x => x.warp = w ∧ (w = none ∨ x.lane = n)) =
      l.filter fun x => x.warp = w ∧ (w = none ∨ x.lane = n))

/-- WAITA counts the lines of its result, completes at once where every lane's word satisfies the comparison, and else waits; WAITA_SATISFIED reads the words
again and completes it in the registers named at issue, or leaves it waiting; FABRIC_POLL sends its reads again (R49, R51, R148,
R368). -/
def Obligations.WatchWaitsForItsWords : Prop :=
  (∀ (s : State) (k : GCtx) (c : Ctl) (m : LaneMask) (d : Dst) (addr : Fin 128) (data : Src) (cmp : WCmp) (ord : Order)
      (scope : Scope) (size : Size) (uni both : Bool) (accs : List LaneAcc) (vals : List VVal)
      (idx : List (Nat × Fin 256)) (ls : List WaitLane) (t : State),
    Issues s k c m → dataVals k m size.regs data = .ok vals → dstIdx k d m = .ok idx →
    Reaches s k m .watch false size addr 0 uni accs → both = (uni && vals.all isU) → t = reached s k .watch size accs →
    ls = ((spreadAccs uni m accs).map fun a => watchLane t cmp size
      { lane := a.lane, ea := a.ea, loc := a.loc, cmp := (atomData size vals a.lane).1, got := none, bad := false }) →
    ∀ takes, takes = linesFor k.wp d idx size.regs (!both) m →
    (k.wp.gmax < linesHeld (modGangs k.wp k.g.gid fun g => { g with takes := takes }) →
      exec (.waita c d addr data cmp ord scope size) s = .next (takeFault s s.cur (raise .regpool (some (lowLane m))))) ∧
    (linesHeld (modGangs k.wp k.g.gid fun g => { g with takes := takes }) ≤ k.wp.gmax →
      (watchDone ls = true → exec (.waita c d addr data cmp ord scope size) s = .next (finishWatch t k d idx m ls size both) ∧
        SameStores s (finishWatch t k d idx m ls size both)) ∧
      (watchDone ls = false → exec (.waita c d addr data cmp ord scope size) s =
        .next (modGangW (sendWatch t s.cur size ls) k.b k.w k.g.gid fun g =>
          { g with wait := .waita d m ls cmp size both, takes := takes, reach := idx })))) ∧
  (∀ (s : State) (p : Party) (k : GCtx) (d : Dst) (m : LaneMask) (ls ls1 : List WaitLane) (cmp : WCmp) (size : Size)
      (uni : Bool), gangOf s p = some k → k.g.wait = .waita d m ls cmp size uni → ls1 = ls.map (watchLane s cmp size) →
    (watchDone ls1 = false → exec (.waitaSatisfied p) s =
      .next (modGang s k.b k.w k.g.gid fun g => { g with wait := .waita d m ls1 cmp size uni })) ∧
    (watchDone ls1 = true → ∃ t, exec (.waitaSatisfied p) s = .next t ∧
      SameStores s t ∧ (∀ k', gangOf t p = some k' → k'.g.wait = .none ∧ k'.g.pc = k.g.pc + 1) ∧
      (∀ n v, d = .v n v → size.regs = 1 → ∃ k', gangOf t p = some k' ∧ (∀ i : Fin 256, i ≠ n → k'.wp.regs[i] = k.wp.regs[i]) ∧
        ∀ w ∈ ls1, ∀ x, w.got = some x → w.lane < 4 * k.wp.width.val → laneBit m w.lane = true → uni = false →
          (∀ y ∈ ls1, y.lane = w.lane → y = w) → laneVal k'.wp.regs[n].val w.lane = x.setWidth 32)) ∧
    exec (.fabricPoll p) s = .next (sendWatch s p size ls)) ∧
  (∀ (s : State) (cmp : WCmp) (size : Size) (w : WaitLane) (a : Nat), w.loc = .dev a → w.got = none → w.bad = false →
    poisonAt s w.loc size.bytes = false →
    (wcmp cmp (8 * size.bytes) (memNat s.mem a size.bytes) w.cmp.toNat = true →
      (watchLane s cmp size w).got = some (BitVec.ofNat 64 (memNat s.mem a size.bytes))) ∧
    (wcmp cmp (8 * size.bytes) (memNat s.mem a size.bytes) w.cmp.toNat = false → watchLane s cmp size w = w))

/-- Atomics are performed in lane order, each as one read, operation and write. -/
def Obligations.AtomicsReadModifyWrite : Prop :=
  Sys2Proof.Claims.AtomicsPerformInLaneOrder ∧ Sys2Proof.Claims.AtomicReadsModifiesWrites

/-- Exact accumulation gives one result in any order, and its cells close. -/
def Obligations.ExactAccumulation : Prop :=
  Sys2Proof.Claims.ExactAccumulationHasNoOrder ∧ Sys2Proof.Claims.CellCloses

/-- FENCE and PREF go on, and a flush point drains the buffer in one order. -/
def Obligations.FencesAndFlushPoints : Prop :=
  Sys2Proof.Claims.FenceAndPrefetchGoOn ∧ Sys2Proof.Claims.BufferDrainsInOneOrder

/-! ## Control flow -/

/-- BRA and BRX of a gang whose stacks have room: each slice's active lanes split into groups by their next PC, and the gang
parts where its slices differ; a stack that would hold more than 16 entries raises MASK_STACK and no slice changes (R151 to
R155, R158). -/
def Sys2Proof.Claims.BranchesSplitTheirSlices : Prop :=
  ∀ (s : State) (k : GCtx) (c : Ctl) (taken : LaneMask), gangOf s s.cur = some k → partLanes k c = .ok taken →
    ∀ (rc : BitVec 18) (bra : Bool) (i : Instr) (groups : Nat → Groups),
    ((∃ off, bra = true ∧ i = .bra c rc off ∧
        groups = fun j => braGroups (sliceAt k.wp j).active (sliceLanes taken j) (k.g.pc + off) (k.g.pc + 1)) ∨
      (∃ a v, bra = false ∧ i = .brx c rc a ∧ readSrc k taken (.int .w32) false a = .ok v ∧
        groups = fun j => brxGroups (sliceAt k.wp j).active fun l =>
          if laneBit taken (4 * j + l) then laneVal v (4 * j + l) else k.g.pc + 1)) →
    ((∀ j ∈ slicesOf k.g, stackNeed bra (sliceAt k.wp j) (groups j) (pcOff18 k.g.pc rc) (k.g.pc + 1) ≤ 16) →
      ∃ rs : List (Nat × Slice × Word), exec i s = .next (modWarp s k.b k.w fun wp =>
          regroup (rs.foldl (fun w x => setSlice w x.1 x.2.1) wp) k.g (rs.map fun x => (x.1, x.2.2))) ∧
        rs = (slicesOf k.g).map fun j =>
          (j, branchSlice bra (sliceAt k.wp j) (groups j) (pcOff18 k.g.pc rc) (k.g.pc + 1))) ∧
    (∀ j, (slicesOf k.g).find? (fun j => stackNeed bra (sliceAt k.wp j) (groups j) (pcOff18 k.g.pc rc) (k.g.pc + 1) > 16) =
        some j → exec i s = .next (takeFault s s.cur (raise .maskStack (some (sliceLow k.wp j)))))

/-- A slice that diverges at BRA runs its taken lanes first; at the reconvergence PC it runs the lanes that fell through from
their PC; when they arrive there too it has its mask back and the stack it had (R152 to R154). -/
def Sys2Proof.Claims.DivergedSliceReconverges : Prop :=
  ∀ (sl : Slice) (taken : BitVec 4) (target next r : Word), sl.active &&& taken ≠ 0 → sl.active &&& ~~~taken ≠ 0 →
    target ≠ next → next ≠ r →
    accumulates true sl (braGroups sl.active taken target next) r next = false →
    ∃ s1, branchSlice true sl (braGroups sl.active taken target next) r next = (s1, target) ∧
      s1.active = sl.active &&& taken ∧
      ∃ s2, checkStack 17 s1 r = (s2, next) ∧ s2.active = sl.active &&& ~~~taken ∧ s2.live = sl.live ∧
        checkStack 17 s2 r = checkStack 16 sl r

/-- The groups of a branch share out the active lanes: every active lane is in one group, no other lane is in any, and the
groups' PCs differ (R153, R158). -/
def Sys2Proof.Claims.BranchGroupsPartitionLanes : Prop :=
  (∀ (act taken : BitVec 4) (target next : Word),
    ((braGroups act taken target next).map (·.1)).foldl (· ||| ·) 0 = act ∧
    ((braGroups act taken target next).map (·.2)).Nodup ∧
    (braGroups act taken target next).Pairwise fun x y => x.1 &&& y.1 = 0) ∧
  (∀ (act : BitVec 4) (pcOf : Nat → Word),
    ((brxGroups act pcOf).map (·.1)).foldl (· ||| ·) 0 = act ∧ ((brxGroups act pcOf).map (·.2)).Nodup ∧
    (brxGroups act pcOf).Pairwise (fun x y => x.1 &&& y.1 = 0) ∧
    ∀ i < 4, act.getLsbD i = true → ∃ g ∈ brxGroups act pcOf, g.1.getLsbD i = true ∧ g.2 = pcOf i)

/-- BRU goes to its target where the guard is true in every active lane, to the next PC where it is false in every one, and
under (!pt) without reading a target (R63, R151); it raises UNIFORM_VIOLATION for the first that differs from the lowest
(R157). -/
def Sys2Proof.Claims.UniformBranch : Prop :=
  ∀ (s : State) (k : GCtx) (c : Ctl) (t : BruTarget) (taken act : LaneMask), gangOf s s.cur = some k →
    partLanes k c = .ok taken → act = activeLanes k.wp k.g →
    (taken = act → taken ≠ 0 → ∀ pc, (∃ o, t = .off o ∧ pc = k.g.pc + o) ∨ (∃ a, t = .reg a ∧ readUni k act a = .ok pc) →
      exec (.bru c t) s = .next (modGang s k.b k.w k.g.gid fun g => { g with pc := pc })) ∧
    (taken = 0 → ((∃ o, t = .off o) ∨ ∃ a pc, t = .reg a ∧ readUni k act a = .ok pc) →
      exec (.bru c t) s = .next (advance s k)) ∧
    (c.pred = 7 → c.inv = true → exec (.bru c t) s = .next (advance s k)) ∧
    (∀ l ∈ lanesOf act, laneBit taken l ≠ laneBit taken (lowLane act) →
      (∀ j ∈ lanesOf act, j < l → laneBit taken j = laneBit taken (lowLane act)) →
      exec (.bru c t) s = .next (takeFault s s.cur (raise .uniform (some l))))

/-- CALL and CALLX push a RETURN entry with the next PC on every slice and go to their target; RET takes each slice back to
it; MASK_STACK is raised on a full stack, and with cause 1 where a slice has no RETURN entry (R159, R160). -/
def Sys2Proof.Claims.CallsReturn : Prop :=
  ∀ (s : State) (k : GCtx) (c : Ctl), gangOf s s.cur = some k →
    ((∀ i ∈ slicesOf k.g, (sliceAt k.wp i).stack.length < 16) →
      (∀ off, exec (.call c off) s = .next (callTo s k (k.g.pc + off))) ∧
      (∀ a t, readUni k (activeLanes k.wp k.g) a = .ok t → exec (.callx c a) s = .next (callTo s k t))) ∧
    (∀ i, fullSlice k = some i → ∀ off a,
      exec (.call c off) s = .next (takeFault s s.cur (raise .maskStack (some (sliceLow k.wp i)))) ∧
      exec (.callx c a) s = .next (takeFault s s.cur (raise .maskStack (some (sliceLow k.wp i))))) ∧
    ((∀ i ∈ slicesOf k.g, ∃ e ∈ (sliceAt k.wp i).stack, e.kind = .ret) →
      exec (.ret c) s = .next (modWarp s k.b k.w fun wp => applySlices wp k.g ((slicesOf k.g).map fun i =>
        (i, unwindSlice { live := (sliceAt k.wp i).live, active := 0, stack := dropAbove (sliceAt k.wp i).active (sliceAt k.wp i).stack })))) ∧
    (∀ i, (slicesOf k.g).find? (fun i => !((sliceAt k.wp i).stack.any fun e => e.kind = .ret)) = some i →
      exec (.ret c) s = .next (takeFault s s.cur (raise .maskStack (some (sliceLow k.wp i)) 1)))

/-- A slice that returns right after its call has its mask and stack back and goes on behind the call; a slice with nothing
left to run ends; lanes that exit are gone from every entry of the stack (R160, R162). -/
def Sys2Proof.Claims.ReturnAndExitUnwind : Prop :=
  (∀ (sl : Slice) (pc : Word), sl.active ≠ 0 →
    unwindSlice { live := sl.live, active := 0, stack := dropAbove sl.active ({ kind := .ret, mask := sl.active, resume := pc, rpc := 0 } :: sl.stack) } =
      (sl, some pc)) ∧
  (∀ sl : Slice, (∀ e ∈ sl.stack, e.mask = 0) →
    unwindSlice { sl with active := 0 } = ({ live := false, active := 0, stack := [] }, none)) ∧
  (∀ (gone : BitVec 4) (next : Word) (sl : Slice), (exitSlice gone next sl).1.active &&& gone = 0 ∧
    ∀ e ∈ (exitSlice gone next sl).1.stack, e.mask &&& gone = 0) ∧
  (∀ (gone : BitVec 4) (next : Word) (sl : Slice), sl.active &&& ~~~gone ≠ 0 →
    (exitSlice gone next sl).2 = some next ∧ (exitSlice gone next sl).1.active = sl.active &&& ~~~gone) ∧
  (∀ (s : State) (k : GCtx) (c : Ctl) (m : LaneMask), Issues s k c m →
    exec (.exit c) s = .next (endIfDone (regangAll (modWarp s k.b k.w fun wp => applySlices wp k.g
      ((slicesOf k.g).map fun i => (i, exitSlice (sliceLanes m i) (k.g.pc + 1) (sliceAt k.wp i)))) k.b k.w) k.b k.w))

/-- REGANG waits with its mask of slices, and once every awaited live slice of its PC waits there the gangs merge at the next
PC: one gang with their slices and the earliest of their numbers takes the place of all of them, and each lane's latch comes from
its own gang (R161, R178, R199). That a register operand agrees by its whole word is the model's choice (log 117). -/
def Obligations.RegangMerges : Prop :=
  (∀ (s : State) (k : GCtx) (c : Ctl) (a : Src) (m : Word), gangOf s s.cur = some k →
    readUni k (activeLanes k.wp k.g) a = .ok m →
    exec (.regang c a) s = .next (regangAll (modWarp (regangTry (modGang s k.b k.w k.g.gid fun g =>
      { g with wait := .regang (m.setWidth 8 &&& sliceMaskOf (List.range k.wp.width.val)) })
      k.b k.w k.g.slot false k.g.pc) k.b k.w settle) k.b k.w)) ∧
  (∀ (s : State) (b w : Nat) (slot : Fin 3) (p : Word) (blk : Block) (wp : Warp), s.blocks[b]? = some blk →
    blk.warps[w]? = some wp →
    (awaitedHere wp p = false → ∀ waited, regangTry s b w slot waited p = s) ∧
    (awaitedHere wp p = true → (∀ g ∈ wp.gangs, g.inHandler = false) → 2 ≤ (waitingAt wp p).length →
      ∀ waited, regangTry s b w slot waited p = modWarp s b w fun x => mergeGangs x (waitingAt wp p) slot p)) ∧
  (∀ (wp : Warp) (gs : List Gang) (g : Gang) (slot : Fin 3) (p : Word), lowestHolder gs = some g →
    ∃ n, (∃ h ∈ gs, h.gid = n) ∧ (∀ h ∈ gs, n ≤ h.gid) ∧
      (mergeGangs wp gs slot p).gangs.map (·.gid) = (wp.gangs.filter fun x => !gs.contains x).map (·.gid) ++ [n] ∧
      ∃ m, (mergeGangs wp gs slot p).gangs.getLast? = some m ∧ m.gid = n ∧ m.pc = p + 1 ∧ m.wait = .none ∧
        m.latch = mergedLatch gs ∧ m.slices = gs.foldl (fun a x => a ||| x.slices) 0) ∧
  (∀ (gs : List Gang) (g : Gang) (l : Nat), g ∈ gs → l < 32 → sliceIn g.slices (l / 4) = true →
    (∀ h ∈ gs, sliceIn h.slices (l / 4) = true → h = g) → laneVal (mergedLatch gs).val l = laneVal g.latch.val l)

/-- A TRAP saves the PC in epc and its number and lowest participating lane in tcause, and goes to tvec in the handler;
TRAPRET leaves the handler at epc + 1. Within a handler TRAP raises ILLEGAL_INSTRUCTION cause 8, as TRAPRET does outside; a
trap with no handler raises cause 1 with its number as the address, and a TRAP without a participating lane does nothing. A
warp starts without a handler, and installs its own with CSRW (R166, R424, R426). -/
def Obligations.TrapsEnterAndLeave : Prop :=
  ∀ (s : State) (k : GCtx) (c : Ctl), gangOf s s.cur = some k →
    (∀ m n, Issues s k c m →
      (k.g.inHandler = false → k.wp.tvec ≠ 0xFFFFFFFF → exec (.trap c n) s =
        .next (modGang s k.b k.w k.g.gid fun g => { g with
          epc := g.pc, inHandler := true, tlane := Fin.ofNat 32 (lowLane m), tcode := n.setWidth 16, pc := k.wp.tvec })) ∧
      (k.g.inHandler = true → exec (.trap c n) s =
        .next (takeFault s s.cur (raise .illegal (some (lowLane m)) 8))) ∧
      (k.g.inHandler = false → k.wp.tvec = 0xFFFFFFFF → exec (.trap c n) s =
        .next (takeFault s s.cur (raise .illegal (some (lowLane m)) 1 n.toNat)))) ∧
    (partLanes k c = .ok 0 → ∀ n, exec (.trap c n) s = .next (modGang s k.b k.w k.g.gid fun g => { g with pc := g.pc + 1 })) ∧
    (∀ nd j r, (launchWarp nd j r).tvec = 0xFFFFFFFF) ∧
    (∀ m a x, Issues s k c m → readUni k m a = .ok x → WarpBecomes s k { k.wp with tvec := x } (exec (.csrw c 0 a) s)) ∧
    (k.g.inHandler = true → exec (.trapret c) s =
      .next (modGang s k.b k.w k.g.gid fun g => { g with inHandler := false, pc := g.epc + 1 })) ∧
    (k.g.inHandler = false → exec (.trapret c) s =
      .next (takeFault s s.cur (raise .illegal (some (lowActive k.wp k.g)) 8)))

/-- NOP changes the PC only, or ends a RECOMP sequence of its gang; YIELD hands its gang's slot over, every gang of its warp
issued at this moment, and goes on at the next PC; BKPT stops the gang where its context is debugged and else only goes on
(R163, R167, R172, R410). -/
def Obligations.NopYieldBreakpoint : Prop :=
  ∀ (s : State) (k : GCtx) (c : Ctl), gangOf s s.cur = some k →
    (endsRecomp k.g = false → exec (.nop c) s = .next (advance s k)) ∧
    (endsRecomp k.g = true → exec (.nop c) s = .next (finishRecomp s k) ∧
      ((∃ g ∈ k.wp.gangs, g.gid ≠ k.g.gid ∧ g.recomp ≠ none ∧ g.wait ≠ .recomp) →
        finishRecomp s k = modGangW s k.b k.w k.g.gid fun g => { g with wait := .recomp })) ∧
    (∀ m, Issues s k c m →
      (((s.nodes[k.blk.node]?).map (·.debug)).getD false = true →
        exec (.bkpt c) s = .next (modGangW s k.b k.w k.g.gid fun g => { g with wait := .bkpt })) ∧
      (((s.nodes[k.blk.node]?).map (·.debug)).getD false = false → exec (.bkpt c) s = .next (advance s k)) ∧
      (((s.nodes[k.blk.node]?).map (·.det)).getD false = false → exec (.yield c) s =
        .next (modWarp (advance (modWarp s k.b k.w fun wp => passSlot (handOver false k.g.slot wp) k.g.gid k.g.slot) k)
          k.b k.w fun wp => { wp with yieldAt := s.tick })) ∧
      (((s.nodes[k.blk.node]?).map (·.det)).getD false = true → ∃ t, exec (.yield c) s = .next t ∧ SameStores s t ∧
        t.nodes = s.nodes ∧ ∀ k', gangOf t s.cur = some k' → k'.g.pc = k.g.pc + 1 ∧ k'.wp.regs = k.wp.regs))

/-- SAFE without a request only goes on (where a transfer has started a later request is kept aside, log 54); with one that has a map at n its gang waits there, and with none it raises
TRANSFER_NO_MAP and the request is withdrawn. XFER records a request for a loaded version, or raises TRANSFER_NO_MAP (R164,
R165, R410). -/
def Sys2Proof.Claims.TransferRequests : Prop :=
  ∀ (s : State) (k : GCtx) (c : Ctl), gangOf s s.cur = some k →
    (∀ n, k.wp.xferReq = none → exec (.safe c n) s = .next (advance s k)) ∧
    (∀ n v, k.wp.xferReq = some v → k.g.inHandler = false → (k.wp.safeN = none ∨ k.wp.safeN = some n) →
      (∀ mp, mapFor s k.blk.ctx k.wp n.toNat v.toNat = some mp → exec (.safe c n) s =
        .next (modGangW (modWarp s k.b k.w fun wp => { wp with safeN := some n }) k.b k.w k.g.gid
          fun g => { g with wait := .safe n })) ∧
      (mapFor s k.blk.ctx k.wp n.toNat v.toNat = none → exec (.safe c n) s =
        .next (modWarp (takeFault s s.cur (raise .transferNoMap (some (lowActive k.wp k.g)))) k.b k.w withdraw))) ∧
    (∀ m a v, Issues s k c m → readUni k m a = .ok v →
      (v.toNat < 65536 → ∀ e, loadedAs s k.blk.ctx k.wp.dirIdx v.toNat = some e →
        exec (.xfer c a false) s = .next (advance (modWarp s k.b k.w (requestXfer (v.setWidth 16))) k) ∧
        exec (.xfer c a true) s = .next (advance (modBlock s k.b fun blk =>
          { blk with warps := blk.warps.map (requestXfer (v.setWidth 16)) }) k)) ∧
      (∀ (x : BitVec 16) (wp : Warp), (wp.drainAt.isSome = true → requestXfer x wp = { wp with xferNext := some x }) ∧
        (wp.drainAt = none → wp.version ≠ x → requestXfer x wp = { wp with xferReq := some x }) ∧
        (wp.drainAt = none → wp.version = x → wp.xferReq.isSome = true → requestXfer x wp = withdraw wp)) ∧
      (v.toNat < 65536 → loadedAs s k.blk.ctx k.wp.dirIdx v.toNat = none → ∀ bk, exec (.xfer c a bk) s =
        .next (takeFault s s.cur (raise .transferNoMap (some (lowLane m))))))

/-- VERSION_TRANSFER: with every gang at its SAFE, the counters drained and every check passed, the warp becomes its image in
the other version; registers that no record names are 0, predicates and slices' masks stay (R408 to R410). A stack entry whose
PCs no pair names, or a SPAN address that may not be read, fails the transfer; one whose slice moves to a spare core holds it
(R409, R410, R416, R435). A request recorded after the transfer has started waits for the next SAFE (R411). What ISSUED was as the
last gang came to stand is what all ones in a DRAIN value stands for. That a transfer waits for the results on their way to its
registers, and starts as its gangs stand, is the model's reading (log 34, log 54). -/
def Sys2Proof.Claims.VersionTransferMovesTheWarp : Prop :=
  ∀ (s : State) (b w : Nat) (blk : Block) (wp : Warp) (v : BitVec 16) (n : BitVec 13) (mp : MapHdr) (di : Nat) (e : DirEnt)
    (at_ spans : List Nat), s.blocks[b]? = some blk → blk.warps[w]? = some wp → wp.xferReq = some v → wp.safeN = some n →
    mapFor s blk.ctx wp n.toNat v.toNat = some mp → loadedAs s blk.ctx wp.dirIdx v.toNat = some (di, e) →
    (∀ g ∈ wp.gangs, g.wait = .safe n) →
    at_ = wp.drainAt.getD ((List.finRange 4).map fun k => blk.ctxs[k].issued) →
    spans = ((MapHdr.records s blk.ctx mp).filter (recKind · = 4)).flatMap (fun r => spanAddrs blk wp (bitsOf r 32 32)) →
    (wp.drainAt = none → (noteStop s blk wp).drainAt = some ((List.finRange 4).map fun k => blk.ctxs[k].issued)) ∧
    ((drained blk mp at_ = false ∨ wp.pend ≠ []) →
      exec (.versionTransfer b w) s = .next (modWarp s b w fun x => { x with drainAt := some at_ })) ∧
    (wp.pend = [] → drained blk mp at_ = true →
      (∃ sl ∈ wp.slices.toList, ∃ x ∈ sl.stack, entryMapped (MapHdr.maskPairs s blk.ctx mp) x = false) →
      exec (.versionTransfer b w) s = .next (failTransfer s b w wp .transferNoMap 1)) ∧
    (wp.pend = [] → drained blk mp at_ = true →
      (∀ sl ∈ wp.slices.toList, ∀ x ∈ sl.stack, entryMapped (MapHdr.maskPairs s blk.ctx mp) x = true) →
      (∀ va, spans.find? (fun va => !spanReadable s blk.ctx va) = some va →
        exec (.versionTransfer b w) s = .next (failTransfer s b w wp .spanProtection 0 va)) ∧
      ((∀ va ∈ spans, spanReadable s blk.ctx va = true) → linesHeld (transferWarp s blk.ctx blk wp mp di) ≤ wp.gmax →
        (∃ va ∈ spans, sliceHeld s (va - Config.spanBase) = true) →
        exec (.versionTransfer b w) s = .next (modWarp s b w fun x => { x with drainAt := some at_ }))) ∧
    (wp.pend = [] → drained blk mp at_ = true →
      (∀ sl ∈ wp.slices.toList, ∀ x ∈ sl.stack, entryMapped (MapHdr.maskPairs s blk.ctx mp) x = true) →
      (∀ va ∈ spans, spanReadable s blk.ctx va = true ∧ sliceHeld s (va - Config.spanBase) = false) →
      linesHeld (transferWarp s blk.ctx blk wp mp di) ≤ wp.gmax →
      ∃ t, exec (.versionTransfer b w) s = .next t ∧ SameStores s t ∧
        ∃ blk' wp', t.blocks[b]? = some blk' ∧ blk'.warps[w]? = some wp' ∧ wp' = transferWarp s blk.ctx blk wp mp di ∧
          wp'.preds = wp.preds ∧ wp'.version = BitVec.ofNat 16 mp.dest ∧
          (wp.xferNext = none → wp'.xferReq = none) ∧
          (∀ i : Fin 256, (∀ r ∈ MapHdr.records s blk.ctx mp, bitsOf r 0 8 ≠ i.val) → wp'.regs[i] = VReg.zero) ∧
          ∀ k : Fin 8, wp'.slices[k].active = wp.slices[k].active ∧ wp'.slices[k].live = wp.slices[k].live)

/-- Branches split slices, a uniform branch moves the gang. -/
def Obligations.Branches : Prop :=
  Sys2Proof.Claims.BranchesSplitTheirSlices ∧ Sys2Proof.Claims.UniformBranch

/-- A diverged slice reconverges, and groups partition the lanes. -/
def Obligations.Reconvergence : Prop :=
  Sys2Proof.Claims.DivergedSliceReconverges ∧ Sys2Proof.Claims.BranchGroupsPartitionLanes

/-- Calls push and returns and exits unwind. -/
def Obligations.CallsReturnsAndExits : Prop :=
  Sys2Proof.Claims.CallsReturn ∧ Sys2Proof.Claims.ReturnAndExitUnwind

/-- A transfer is requested, and moves the warp at its SAFE. -/
def Obligations.VersionTransfers : Prop :=
  Sys2Proof.Claims.TransferRequests ∧ Sys2Proof.Claims.VersionTransferMovesTheWarp

/-! ## Synchronisation of warps -/

/-- An arrival counts at its barrier: the arrival that reaches the count completes the phase, resets the barrier, and another
only raises the number arrived; a count of 0, above 1023 or unlike the phase's overflows (R220 to R222). -/
def Sys2Proof.Claims.BarrierArrivals : Prop :=
  ∀ (blk : Block) (p : BParty) (bar n : Nat) (br : Bar), blk.bars[bar]? = some br →
    ((n = 0 ∨ 1023 < n ∨ (0 < br.arrived ∧ br.count ≠ n)) → arrive blk p bar n = none) ∧
    (1 ≤ n → n ≤ 1023 → (br.arrived = 0 ∨ br.count = n) → ∃ out, arrive blk p bar n = some out ∧
      out.bars[bar]? = some (if br.arrived + 1 = n then { phase := br.phase + 1, count := 0, arrived := 0 }
        else { phase := br.phase, count := n, arrived := br.arrived + 1 }) ∧
      (∀ j, j ≠ bar → out.bars[j]? = blk.bars[j]?) ∧ out = { blk with bars := out.bars, arrivals := out.arrivals } ∧
      waitPhase out p bar = some (br.phase, decide (br.arrived + 1 = n)))

/-- BARA arrives and goes on; BARW waits for the phase in which its warp last arrived, and goes on where that has completed;
BARS does both; each is a flush point (the wait's drain as it issues is the reading of log 81). An overflow names the lowest
participating lane (log 118). BARRIER_WAIT_COMPLETE wakes the gang at the next PC (R220, R221, R236, R240). -/
def Sys2Proof.Claims.BarrierInstructions : Prop :=
  (∀ (s : State) (k : GCtx) (c : Ctl) (m : LaneMask) (b n : Src) (bar cnt : Word), Issues s k c m →
    readUni k m b = .ok bar → readUni k m n = .ok cnt →
    (∀ out, arrive k.blk (.warp k.w) bar.toNat cnt.toNat = some out →
      exec (.bara c b n) s = .next (drain (advance (modBlock s k.b fun x =>
        { x with bars := out.bars, arrivals := out.arrivals }) k) k.b) ∧
      ∀ r, waitPhase out (.warp k.w) bar.toNat = some r → exec (.bars c b n) s = .next
        (if r.2 then advance (drain (modBlock s k.b fun x => { x with bars := out.bars, arrivals := out.arrivals }) k.b) k
          else modGangW (drain (modBlock s k.b fun x => { x with bars := out.bars, arrivals := out.arrivals }) k.b)
            k.b k.w k.g.gid fun g => { g with wait := .bar bar.toNat r.1 })) ∧
    (arrive k.blk (.warp k.w) bar.toNat cnt.toNat = none →
      exec (.bara c b n) s = .next (takeFault s s.cur (raise .barrierOverflow (some (lowLane m)))) ∧
      exec (.bars c b n) s = .next (takeFault s s.cur (raise .barrierOverflow (some (lowLane m))))) ∧
    (∀ r, waitPhase k.blk (.warp k.w) bar.toNat = some r → exec (.barw c b) s = .next
      (if r.2 then advance (drain s k.b) k
        else modGangW (drain s k.b) k.b k.w k.g.gid fun g => { g with wait := .bar bar.toNat r.1 }))) ∧
  (∀ (s : State) (p : Party) (k : GCtx) (bar : Nat) (ph : Word), gangOf s p = some k → k.g.wait = .bar bar ph →
    exec (.barrierWaitComplete p) s = .next (if phaseDone k.blk bar ph then
      modGangW s k.b k.w k.g.gid fun g => { g with wait := .none, wd := 0, pc := g.pc + 1 } else s))

/-- TWAIT goes on once DONE has reached its number, else it waits; its predicate then takes whether an operation up to that
number was abandoned (R218, R237). -/
def Sys2Proof.Claims.TimelineWaits : Prop :=
  (∀ (s : State) (k : GCtx) (c : Ctl) (m : LaneMask) (ctx : Fin 4) (p : Option (Fin 8)), Issues s k c m →
    ∀ n v, ((∃ i, n = .imm i ∧ v = i.setWidth 64) ∨ (∃ r, n = .pair r ∧ readPairUni k m r = .ok v)) →
    (v.toNat ≤ k.blk.ctxs[ctx].done →
      exec (.twait c p ctx n) s = .next (advance (finishTwait s k ctx v p m) k)) ∧
    (k.blk.ctxs[ctx].done < v.toNat →
      exec (.twait c p ctx n) s = .next (modGangW s k.b k.w k.g.gid fun x => { x with wait := .twait ctx v p m }))) ∧
  (∀ (s : State) (p : Party) (k : GCtx) (ctx : Fin 4) (n : Word64) (pd : Option (Fin 8)) (m : LaneMask),
    gangOf s p = some k → k.g.wait = .twait ctx n pd m →
    (n.toNat ≤ k.blk.ctxs[ctx].done →
      exec (.twaitSatisfied p) s = .next (wakeGang (finishTwait s k ctx n pd m) k)) ∧
    (k.blk.ctxs[ctx].done < n.toNat → exec (.twaitSatisfied p) s = .next s)) ∧
  (∀ (s : State) (k : GCtx) (ctx : Fin 4) (n : Word64) (m : LaneMask),
    finishTwait s k ctx n none m = s ∧
    ∀ p : Fin 8, s.blocks[k.b]? = some k.blk → k.blk.warps[k.w]? = some k.wp → ∃ preds : Vector PReg 7,
      finishTwait s k ctx n (some p) m = modWarp s k.b k.w (fun _ => { k.wp with preds := preds }) ∧
      (∀ j : Fin 7, j.val ≠ p.val → preds[j] = k.wp.preds[j]) ∧
      ∀ j : Fin 7, j.val = p.val →
        PredWritten k k.wp.preds[j] preds[j] m fun _ => abandonedBy k.blk.ctxs[ctx] n.toNat)

/-- DQPOP takes the oldest entry for its role that its warp has not popped, or all ones where the helm has ended and none is
left; else it waits, holding its lines, and DQPOP_DELIVER delivers, to the registers that an index reached at issue; too many lines
raise REGPOOL_EXHAUSTED (R49, R51). An entry that
every warp has popped leaves the queue (R212, R213, R238). -/
def Sys2Proof.Claims.DecisionQueueDelivers : Prop :=
  (∀ (s : State) (k : GCtx) (c : Ctl) (m : LaneMask) (d : Dst), Issues s k c m → popBehind k.wp k.g = false →
    (∀ idx takes, dstIdx k d m = .ok idx → takes = linesFor k.wp d idx 1 false m →
      (∀ r, popFor k.blk k.wp = some r → CanWrite k d m → 256 ≤ k.wp.gmax → ∃ t, deliverPop s k d idx m r = .ok t ∧
        exec (.dqpop c d) s = .next t ∧ SameStores s t) ∧
      (popFor k.blk k.wp = none → linesHeld (modGangs k.wp k.g.gid fun g => { g with takes := takes }) ≤ k.wp.gmax →
        exec (.dqpop c d) s =
          .next (modGangW s k.b k.w k.g.gid fun g => { g with wait := .dqpop d m, takes := takes, reach := idx })) ∧
      (k.wp.gmax < linesHeld (modGangs k.wp k.g.gid fun g => { g with takes := takes }) →
        exec (.dqpop c d) s = .next (takeFault s s.cur (raise .regpool (some (lowLane m))))))) ∧
  (∀ (s : State) (p : Party) (k : GCtx) (d : Dst) (m : LaneMask), gangOf s p = some k → k.g.wait = .dqpop d m →
    popBehind k.wp k.g = false →
    (popFor k.blk k.wp = none → exec (.dqpopDeliver p) s = .next s) ∧
    (∀ r t, popFor k.blk k.wp = some r → deliverPop s k d k.g.reach m r = .ok t → exec (.dqpopDeliver p) s =
      .next (modGangW t k.b k.w k.g.gid fun g => { g with wd := 0 }))) ∧
  (∀ (blk : Block) (wp : Warp),
    (∀ e ∈ blk.dq, e.mask.getLsbD wp.role.val = true → e.seq < wp.dqPos) →
    popFor blk wp = if blk.helm.ended then some (0xFFFFFFFF, wp.dqPos) else none) ∧
  (∀ (blk : Block) (wp : Warp) (before after : List DqEnt) (e : DqEnt), blk.dq = before ++ e :: after →
    (∀ x ∈ before, x.mask.getLsbD wp.role.val = false ∨ x.seq < wp.dqPos) → e.mask.getLsbD wp.role.val = true →
    wp.dqPos ≤ e.seq → popFor blk wp = some (e.val, e.seq + 1)) ∧
  (∀ (blk : Block) (e : DqEnt), e ∈ (freeDq blk).dq ↔ e ∈ blk.dq ∧
    ∃ wp ∈ blk.warps, warpEnded wp = false ∧ e.mask.getLsbD wp.role.val = true ∧ wp.dqPos ≤ e.seq)

/-- SIGOP updates its 64-bit word as one atomic and goes on: .add adds, .sub subtracts, .set stores; only the word's eight
bytes change. On a migrating page its access is held and it goes on, or it waits where the MMU is full (R239, R385; log 18). -/
def Sys2Proof.Claims.SignalUpdates : Prop :=
  ∀ (s : State) (k : GCtx) (c : Ctl) (m : LaneMask) (addr : Fin 128) (val : SigVal) (op : SigOp) (scope : Scope)
    (a v : Word64) (ch : Checked), Issues s k c m → readPairUni k m addr = .ok a → sigVal k m val = .ok v →
    checkAcc s (some k.blk.core) k.blk.ctx .atom false .b64 a.toNat = .ok ch →
    (ch.held = true ∨ (ch.acc.mig = true ∧ mmuFull s k.blk.core = true) →
      exec (.sigop c addr val op scope) s = .next (holdGang s k ch.acc.ea)) ∧
    (ch.held = false → (ch.acc.mig = false ∨ mmuFull s k.blk.core = false) →
      ∃ t, exec (.sigop c addr val op scope) s = .next (advance t k) ∧
      t = signalLoc (touchAll s k.blk.core k.blk.ctx [ch.acc]) ((tagOf s s.cur).at ch.acc.ea) ch.acc op v ∧
      (ch.acc.mig = true → SameStores s t ∧ ∃ o : FabOp, t.fabOps = s.fabOps ++ [o] ∧ o.held = true ∧ o.loc = ch.acc.loc) ∧
      ∀ p, ch.acc.loc = .dev p → ch.acc.mig = false → poisonAt s (.dev p) 8 = false → s.homesWf = true →
        memNat t.mem p 8 = (match op with
          | .add => BitVec.ofNat 64 (memNat s.mem p 8) + v
          | .sub => BitVec.ofNat 64 (memNat s.mem p 8) - v
          | .set => v).toNat ∧
        ∀ b, (b < p ∨ p + 8 ≤ b) → memGet t.mem b = memGet s.mem b)

/-! ## The helm -/

namespace Sys2Proof.Claims

open Sys2Proof Sys2Proof.Machine

/-- A helm instruction of two sources writes f of them to its s register, clears its poison and goes on; nothing else
changes. A false guard only goes on (R223 to R225). -/
def HGives2 (i : Ctl → Fin 64 → HSrc → HSrc → Instr) (f : Word64 → Word64 → Word64) : Prop :=
  ∀ (s : State) (k : HCtx) (c : Ctl) (d : Fin 64) (a b : HSrc) (x y : Word64), helmOf s s.cur = some k →
    readH k a = .ok x → readH k b = .ok y →
    (helmGuard k c = true → exec (i c d a b) s = .next (modHelm s k.b fun h =>
      { h with s := h.s.set d (f x y), poison := h.poison.set d false, pc := h.pc + 1 })) ∧
    (helmGuard k c = false → exec (i c d a b) s = .next (modHelm s k.b fun h => { h with pc := h.pc + 1 }))

/-- A pending load or returning atomic of a helm. -/
def helmPend (t : State) (d : Fin 64) (acc : LaneAcc) (size : Size) (sx : Bool) (old : Option Word64) (failed acq : Bool) :
    HPend :=
  { id := t.nextId, d := d, acc := acc, size := size, sx := sx, old := old, data := none, failed := failed, acq := acq }

/-- The same for an instruction that may also write a q register, which takes whether the value is not 0. -/
def HGivesQ (i : Ctl → HDst → HSrc → HSrc → Instr) (f : Word64 → Word64 → Word64) : Prop :=
  ∀ (s : State) (k : HCtx) (c : Ctl) (a b : HSrc) (x y : Word64), HelmIssues s k c →
    readH k a = .ok x → readH k b = .ok y →
    (∀ n : Fin 64, exec (i c (.s n) a b) s = .next (modHelm s k.b fun h =>
      { h with s := h.s.set n (f x y), poison := h.poison.set n false, pc := h.pc + 1 })) ∧
    ∀ n : Fin 8, exec (i c (.q n) a b) s = .next (modHelm s k.b fun h =>
      { h with q := h.q.set n (f x y != 0), pc := h.pc + 1 })

end Sys2Proof.Claims

/-- Helm arithmetic on 64 bits: sums, products, logic, shifts by 64 or more, least and greatest (R225). -/
def Sys2Proof.Claims.HelmArithmetic : Prop :=
  HGives2 (fun c d a b => .sadd c d a b) (fun x y => x + y) ∧ HGives2 (fun c d a b => .ssub c d a b) (fun x y => x - y) ∧
  HGives2 (fun c d a b => .smul c d a b) (fun x y => x * y) ∧
  HGivesQ (fun c d a b => .sand c d a b) (fun x y => x &&& y) ∧ HGivesQ (fun c d a b => .sor c d a b) (fun x y => x ||| y) ∧
  HGivesQ (fun c d a b => .sxor c d a b) (fun x y => x ^^^ y) ∧
  HGives2 (fun c d a b => .sshl c d a b) (fun x y => x <<< y.toNat) ∧
  HGives2 (fun c d a b => .sshr c d a b) (fun x y => x >>> y.toNat) ∧
  HGives2 (fun c d a b => .ssar c d a b) (fun x y => x.sshiftRight y.toNat) ∧
  HGives2 (fun c d a b => .smin c d a b false) (fun x y => if x.toInt ≤ y.toInt then x else y) ∧
  HGives2 (fun c d a b => .smin c d a b true) (fun x y => if x ≤ y then x else y) ∧
  HGives2 (fun c d a b => .smax c d a b false) (fun x y => if y.toInt ≤ x.toInt then x else y) ∧
  HGives2 (fun c d a b => .smax c d a b true) (fun x y => if y ≤ x then x else y)

/-- SCMP, SSEL, SMOV and SMOVI; SMOVI.hi keeps the low half; a poisoned source raises UNCORRECTABLE and writes nothing
(R224, R226). -/
def Sys2Proof.Claims.HelmMovesAndCompares : Prop :=
  ∀ (s : State) (k : HCtx) (c : Ctl), HelmIssues s k c →
    (∀ q a b cmp u x y, readH k a = .ok x → readH k b = .ok y →
      exec (.scmp c q a b cmp u) s = .next (modHelm s k.b fun h =>
        { h with q := h.q.set q (scmpHolds cmp u x y), pc := h.pc + 1 })) ∧
    (∀ (d : Fin 64) a b (q : Fin 8) x y, readH k a = .ok x → readH k b = .ok y →
      exec (.ssel c d a b q) s = .next (putS s k d (if k.blk.helm.q[q] then x else y))) ∧
    (∀ (n : Fin 64) (q : Fin 8) a x, readH k a = .ok x → exec (.smov c (.s n) a) s = .next (putS s k n x) ∧
      exec (.smov c (.q q) a) s = .next (putQ s k q (x != 0))) ∧
    (∀ d imm, exec (.smovi c d imm false) s = .next (putS s k d (imm.signExtend 64))) ∧
    (∀ (d : Fin 64) imm, k.blk.helm.poison[d] = false → exec (.smovi c d imm true) s =
      .next (putS s k d (imm ++ k.blk.helm.s[d].setWidth 32))) ∧
    (∀ (n d : Fin 64) (b : HSrc), k.blk.helm.poison[n] = true →
      exec (.sadd c d (.s n) b) s = .next (takeFault s s.cur (raise .uncorrectable none)) ∧
      exec (.sjmp c n) s = .next (takeFault s s.cur (raise .uncorrectable none)))

/-- Helm branches and calls: SBR and SJMP set the PC, SCALL pushes the next PC on a stack of at most 16, SRET pops it
(R229, R230). -/
def Sys2Proof.Claims.HelmBranchesAndCalls : Prop :=
  ∀ (s : State) (k : HCtx) (c : Ctl), HelmIssues s k c →
    (∀ off, exec (.sbr c off) s = .next (modHelm s k.b fun h => { h with pc := h.pc + off })) ∧
    (∀ a x, readS k a = .ok x → exec (.sjmp c a) s = .next (modHelm s k.b fun h => { h with pc := x.setWidth 32 })) ∧
    (∀ off, (k.blk.helm.stack.length < 16 → exec (.scall c off) s =
        .next (modHelm s k.b fun h => { h with stack := (h.pc + 1) :: h.stack, pc := h.pc + off })) ∧
      (16 ≤ k.blk.helm.stack.length → exec (.scall c off) s = .next (takeFault s s.cur (raise .maskStack none 2)))) ∧
    (∀ p r, k.blk.helm.stack = p :: r →
      exec (.sret c) s = .next (modHelm s k.b fun h => { h with stack := r, pc := p })) ∧
    (k.blk.helm.stack = [] → exec (.sret c) s = .next (takeFault s s.cur (raise .maskStack none 1)))

/-- What passing its check leaves of a helm's access: the translation used is cached and the bytes are counted (R358, R379). -/
def Sys2Proof.Claims.helmReached (s : State) (k : HCtx) (f : AccForm) (size : Size) (a : LaneAcc) : State :=
  addWork (touchAll s k.blk.core k.blk.ctx [a]) k.b 0 (workBytes s k.blk.core k.blk.ctx f size [a])

/-- SLD, SST and SATOM: their access is checked as a lane's; SST writes its size's low bytes, SATOM performs, sends or buffers
its operation, loads and returning atomics become pending (the helm waits for a fabric SLD), and HELM_LOAD_RETURN writes them;
poisoned data poison the register. A SST to a migrating page is held and the helm goes on; one that the MMU cannot hold waits
(R224, R227, R228, R368, R385; log 18). -/
def Obligations.HelmMemory : Prop :=
  (∀ (s : State) (k : HCtx) (c : Ctl) (a : Fin 64) (x : Word64) (size : Size) (ch : Checked), HelmIssues s k c →
    readS k a = .ok x → ch.held = false → ch.acc.mig = false →
    (∀ d off ord scope sx t, t = helmReached s k .watch size ch.acc →
      checkAcc s (some k.blk.core) k.blk.ctx .watch false size ((x.toNat : Int) + off.toInt) = .ok ch →
      isFab ch.acc.loc = false → SameStores s t ∧ exec (.sld c d a off ord scope sx size) s =
        .next (modHelm { t with nextId := t.nextId + 1 } k.b fun h =>
          { h with pend := h.pend ++ [helmPend t d ch.acc size sx none false (ord = .acq)], pc := h.pc + 1, wait := .none })) ∧
    (∀ d off ord scope sx t, t = helmReached s k .watch size ch.acc →
      checkAcc s (some k.blk.core) k.blk.ctx .watch false size ((x.toNat : Int) + off.toInt) = .ok ch →
      isFab ch.acc.loc = true → SameStores s t ∧ exec (.sld c d a off ord scope sx size) s =
        .next (sendFab (modHelm { t with nextId := t.nextId + 1 } k.b fun h =>
          { h with pend := h.pend ++ [helmPend t d ch.acc size sx none false (ord = .acq)], pc := h.pc + 1
                   wait := .load t.nextId }) ch.acc.loc (.read size.bytes) (.helmLoad k.b t.nextId))) ∧
    (∀ b off ord scope y t, t = helmReached s k .st size ch.acc → checkAcc s (some k.blk.core) k.blk.ctx .st false size ((x.toNat : Int) + off.toInt) = .ok ch →
      readH k b = .ok y → exec (.sst c a b off ord scope size) s =
        .next (advanceHelm (writeLoc t ((tagOf s s.cur).at ch.acc.ea) ch.acc.loc (leBytes size.bytes y.toNat)) k.b)) ∧
    (∀ b op u ord scope b1 b2 t, t = helmReached s k .atom size ch.acc →
      checkAcc s (some k.blk.core) k.blk.ctx .atom false size x.toNat = .ok ch →
      readS k b = .ok b1 → (if op = .cas then readS k (casReg b) else .ok 0) = .ok b2 →
      ((isDet s k.blk && narrow scope) = false → isFab ch.acc.loc = false → exec (.satom c none a b op u ord scope size) s =
        .next (advanceHelm (rmw t ((tagOf s s.cur).at ch.acc.ea) ch.acc.loc op u size b1 b2).1 k.b)) ∧
      ((isDet s k.blk && narrow scope) = false → isFab ch.acc.loc = true → exec (.satom c none a b op u ord scope size) s =
        .next (advanceHelm (sendFab t ch.acc.loc (.atomic op u size b1 b2 false) (storeWhy ((tagOf s s.cur).at ch.acc.ea))
          (ord = .acq || ord = .ar) ch.acc.ea) k.b)) ∧
      ((isDet s k.blk && narrow scope) = true → ∃ e : BufAtom, e.warp = none ∧ e.loc = ch.acc.loc ∧ e.ea = ch.acc.ea ∧
        e.op = op ∧ e.u = u ∧ e.size = size ∧ e.b1 = b1 ∧ e.b2 = b2 ∧ e.acq = (ord = .acq || ord = .ar) ∧
        e.rel = (ord = .rel || ord = .ar) ∧ exec (.satom c none a b op u ord scope size) s =
          .next (advanceHelm (modBlock t k.b fun y => { y with buffer := y.buffer ++ [e] }) k.b)) ∧
      (∀ d, isFab ch.acc.loc = true → isDet s k.blk = false → exec (.satom c (some d) a b op u ord scope size) s =
        .next (sendFab (modHelm { t with nextId := t.nextId + 1 } k.b fun h => { h with
          pend := h.pend ++ [helmPend t d ch.acc size false none false (ord = .acq || ord = .ar)], pc := h.pc + 1
          wait := .none }) ch.acc.loc (.atomic op u size b1 b2 true) (.helmLoad k.b t.nextId) false ch.acc.ea)) ∧
      (∀ d old t2, isFab ch.acc.loc = false →
        rmw { t with nextId := t.nextId + 1 } ((tagOf s s.cur).at ch.acc.ea) ch.acc.loc op u size b1 b2 true = (t2, old) →
        isDet s k.blk = false → exec (.satom c (some d) a b op u ord scope size) s =
          .next (modHelm t2 k.b fun h => { h with
            pend := h.pend ++ [helmPend t d ch.acc size false old old.isNone (ord = .acq || ord = .ar)], pc := h.pc + 1
            wait := .none })))) ∧
  (∀ (s : State) (k : HCtx) (c : Ctl) (a : Fin 64) (b : HSrc) (x y : Word64) (size : Size) (ch : Checked) (off : BitVec 18)
    (ord : Order) (scope : Scope), HelmIssues s k c → readS k a = .ok x → readH k b = .ok y →
    checkAcc s (some k.blk.core) k.blk.ctx .st false size ((x.toNat : Int) + off.toInt) = .ok ch →
    (ch.held = false → ch.acc.mig = true → mmuFull s k.blk.core = false → ∃ t, exec (.sst c a b off ord scope size) s = .next t ∧
      SameStores s t ∧ ∃ o : FabOp, t.fabOps = s.fabOps ++ [o] ∧ o.held = true ∧ o.loc = ch.acc.loc ∧
        o.kind = .write (leBytes size.bytes y.toNat)) ∧
    (ch.held = true ∨ (ch.acc.mig = true ∧ mmuFull s k.blk.core = true) → ∃ t, exec (.sst c a b off ord scope size) s = .next t ∧
      SameStores s t ∧ t.fabOps = s.fabOps)) ∧
  (∀ (s : State) (b : Nat) (p : HPend), ((s.blocks.zipIdx).findSome? fun x =>
      (x.1.helm.pend.find? (·.id = p.id)).map fun q => (x.2, q)) = some (b, p) → hpendReady p = true →
    ∃ t, exec (.helmLoadReturn p.id) s = .next t ∧ SameStores s t ∧ ∃ blk blk', s.blocks[b]? = some blk ∧
      t.blocks[b]? = some blk' ∧ blk'.warps = blk.warps ∧ blk'.helm.pc = blk.helm.pc ∧
      blk'.helm.s = blk.helm.s.set p.d (hpendValue s p).1 ∧ blk'.helm.poison = blk.helm.poison.set p.d (hpendValue s p).2 ∧
      blk'.helm.pend = blk.helm.pend.filter (·.id != p.id))

/-- DQPUSH appends its value for the roles of its mask, waits while the queue holds 64 entries, and does nothing for a mask
that names no role; DQPUSH_APPEND completes a waiting one (R211, R231). -/
def Sys2Proof.Claims.DecisionQueuePushes : Prop :=
  (∀ (s : State) (k : HCtx) (c : Ctl) (v m : HSrc) (x y : Word64), HelmIssues s k c → readH k v = .ok x → readH k m = .ok y →
    (namesRole s k.blk (y.setWidth 4) = false → exec (.dqpush c v m) s = .next (advanceHelm s k.b)) ∧
    (namesRole s k.blk (y.setWidth 4) = true → k.blk.dq.length < 64 → exec (.dqpush c v m) s =
      .next (advanceHelm (modBlock s k.b (appendDq (x.setWidth 32) (y.setWidth 4))) k.b)) ∧
    (namesRole s k.blk (y.setWidth 4) = true → 64 ≤ k.blk.dq.length → exec (.dqpush c v m) s =
      .next (modHelm s k.b fun h => { h with wait := .dqpush (x.setWidth 32) (y.setWidth 4) }))) ∧
  (∀ (s : State) (b : Nat) (blk : Block) (v : Word) (m : BitVec 4), s.blocks[b]? = some blk →
    blk.helm.wait = .dqpush v m →
    (blk.dq.length < 64 → exec (.dqpushAppend b) s = .next (modHelm (modBlock s b (appendDq v m)) b fun h =>
      { h with wait := .none, wd := 0, pc := h.pc + 1 })) ∧
    (64 ≤ blk.dq.length → exec (.dqpushAppend b) s = .next s))

/-- FORK starts a stream with the helm's registers as its parameters, or waits while the previous one runs; JOIN goes on once
the stream and the context's numbered operations have ended (log 122); HEND ends the helm once its loads have returned; FORK_START and JOIN_COMPLETE
complete waiting ones (R215, R216, R232, R233). -/
def Obligations.ForkJoinAndHelmEnd : Prop :=
  (∀ (s : State) (k : HCtx) (c : Ctl) (ctx : Fin 4), HelmIssues s k c →
    (∀ e x, readH k e = .ok x → streamRuns k.blk.ctxs[ctx] = true → exec (.fork c ctx e) s =
      .next (modHelm s k.b fun y => { y with wait := .fork ctx (x.setWidth 32) })) ∧
    (∀ e x, readH k e = .ok x → streamRuns k.blk.ctxs[ctx] = false → (∀ n : Fin 64, k.blk.helm.poison[n] = false) →
      (∀ w, fetchWord s k.blk.core k.blk.ctx k.blk.helmDir (x.setWidth 32) = .ok w →
        wrongFor (if ctx = 0 then .matrix else .copy) w = false) →
      exec (.fork c ctx e) s = .next (advanceHelm (modEng s k.b ctx fun y =>
        { y with forked := true, stream := some (newStream k.blk.helm (x.setWidth 32)) }) k.b) ∧
      newStream k.blk.helm (x.setWidth 32) =
        { running := true, pc := x.setWidth 32, params := k.blk.helm.s, loops := [], rowb := 0, colb := 0, kb := 0
          profile := 0, granted := none, wait := .none }) ∧
    (joinDone k.blk.ctxs[ctx] = true → exec (.join c ctx) s =
      .next (advanceHelm (modEng s k.b ctx fun e => { e with forked := false }) k.b)) ∧
    (joinDone k.blk.ctxs[ctx] = false → exec (.join c ctx) s =
      .next (modHelm s k.b fun y => { y with wait := .join ctx })) ∧
    (k.blk.helm.pend = [] → exec (.hend c) s = .next (modHelm s k.b fun h => { h with ended := true })) ∧
    (∀ p r, k.blk.helm.pend = p :: r → exec (.hend c) s = .next (modHelm s k.b fun h => { h with wait := .load p.id }))) ∧
  (∀ (s : State) (b : Nat) (blk : Block) (ctx : Fin 4), s.blocks[b]? = some blk →
    (∀ e t, blk.helm.wait = .fork ctx e → streamRuns blk.ctxs[ctx] = false →
      forkNow s { b := b, blk := blk } ctx e = .ok t → exec (.forkStart b) s = .next (wakeHelm t b)) ∧
    (∀ e, blk.helm.wait = .fork ctx e → streamRuns blk.ctxs[ctx] = true → exec (.forkStart b) s = .next s) ∧
    (blk.helm.wait = .join ctx → joinDone blk.ctxs[ctx] = true → exec (.joinComplete b) s =
      .next (wakeHelm (modEng s b ctx fun e => { e with forked := false }) b)) ∧
    (blk.helm.wait = .join ctx → joinDone blk.ctxs[ctx] = false → exec (.joinComplete b) s = .next s))

/-- Barriers, timelines and signals as the warp stream meets them. -/
def Obligations.BarriersTimelinesAndSignals : Prop :=
  Sys2Proof.Claims.BarrierArrivals ∧ Sys2Proof.Claims.BarrierInstructions ∧ Sys2Proof.Claims.TimelineWaits ∧
  Sys2Proof.Claims.SignalUpdates

/-- The decision queue takes what the helm pushes and gives it to warps in order. -/
def Obligations.DecisionQueue : Prop :=
  Sys2Proof.Claims.DecisionQueueDelivers ∧ Sys2Proof.Claims.DecisionQueuePushes

/-- The helm's arithmetic, moves, compares, branches and calls. -/
def Obligations.HelmInstructions : Prop :=
  Sys2Proof.Claims.HelmArithmetic ∧ Sys2Proof.Claims.HelmMovesAndCompares ∧ Sys2Proof.Claims.HelmBranchesAndCalls

/-! ## Engine streams -/

namespace Sys2Proof.Claims

open Sys2Proof Sys2Proof.Machine

/-- Stream k goes on after its instruction: its PC and loops step, and it waits for nothing (R299). -/
def StreamGoesOn (s : State) (k : SCtx) (out : Out1) : Prop := out = .next (modStream s k.b k.k stepStream)

/-- A copy instruction of a kind, with its descriptor's address in parameter p, is accepted at once; it is to read the
descriptor when it starts (R293, R301). -/
def CopyAccepted (s : State) (k : SCtx) (p : Fin 64) (cc : CopyKind) (out : Out1) : Prop :=
  out = .next (accept (goOn s k) k.b k.k
    (mkOp k.st.pc none none none [.plan cc (k.st.params[p].toNat % 2 ^ 56) (passIndex k.st)]))

/-- An accepted copy operation of a kind starts with exactly these rows, version and fill, and with the ranges that they write; its
start reads n bytes (R293, R302, R358). -/
def StartsWith (s : State) (a : EAgent) (cc : CopyKind) (va i n : Nat) (rows : List RowKind) (ver : Option (BitVec 8))
    (fill : Option Fill) : Prop :=
  ∀ op, planRow op = some (cc, va, i) → ∃ op1, starting s a op = .ok (op1, n) ∧ op1.rows = numberRows ver rows ∧
    op1.ver = ver ∧ op1.fill = fill ∧ op1.started = true ∧ op1.n = op.n ∧ op1.pc = op.pc ∧ op1.warp = op.warp ∧
    op1.dsts = rows.flatMap (rowDsts s a)

end Sys2Proof.Claims

/-- An operation takes the next number of its context and is outstanding until OPERATION_COMPLETE; it starts once no earlier
operation that it overlaps is outstanding, as addresses or as places that aliases share, and no row of another that met a missing
page is to be replayed; a start that faults abandons it. DONE is the number below the lowest outstanding operation, or ISSUED where
none is (R214, R217, R256, R293, R303; how long an operation that has not started holds a later one is log 19). -/
def Obligations.OperationsAreNumberedAndComplete : Prop :=
  ∀ (s : State) (b : Nat) (k : Fin 4) (blk : Block), s.blocks[b]? = some blk →
    (∀ op : EngOp, ∃ blk', (accept s b k op).blocks[b]? = some blk' ∧ SameStores s (accept s b k op) ∧
      blk'.ctxs[k] = { blk.ctxs[k] with
        issued := blk.ctxs[k].issued + 1
        ops := blk.ctxs[k].ops ++
          [{ op with n := blk.ctxs[k].issued + 1 }] } ∧
      (∀ j, j ≠ k → blk'.ctxs[j] = blk.ctxs[j]) ∧ blk'.warps = blk.warps ∧ blk'.helm = blk.helm) ∧
    (∀ n op a, blk.ctxs[k].ops.find? (·.n = n) = some op → op.started = false → (op.rows ≠ [] ∨ op.fill ≠ none) →
      a = opAgent s b k op blk →
      (blk.status = .resident → mayStart s a blk.ctxs[k] op = true →
        (∀ op1 w, starting s a op = .ok (op1, w) → runOp s b k n = setOp (addWork s b 0 w) b k op1) ∧
        (∀ r, starting s a op = .error (.fault r) → runOp s b k n = stopRows s b k a op { r := r, lane := 0 })) ∧
      (mayStart s a blk.ctxs[k] op = false → runOp s b k n = s) ∧
      ((∃ o ∈ blk.ctxs[k].ops, o.n ≠ op.n ∧ ∃ r ∈ o.rows, r.missed = true) → mayStart s a blk.ctxs[k] op = false) ∧
      (∀ op1 w, starting s a op = .ok (op1, w) →
        (∃ o ∈ blk.ctxs[k].ops, o.n < op.n ∧ o.started = true ∧ opsMeet s a o op1 = true) →
          mayStart s a blk.ctxs[k] op = false) ∧
      (∀ o op1 : EngOp, ∀ x ∈ o.dsts, ∀ y, (y ∈ op1.dsts ∨ y ∈ opSrcs s a op1) →
        rangesMeet x y = true → opsMeet s a o op1 = true) ∧
      (∀ o op1 : EngOp, ∀ x ∈ o.dsts, ∀ y ∈ op1.dsts, ∀ p ∈ placesOf s a .engW x, ∀ q ∈ placesOf s a .engW y,
        locsMeet p.1 p.2 q.1 q.2 = true → opsMeet s a o op1 = true)) ∧
    (∀ n op, blk.ctxs[k].ops.find? (·.n = n) = some op →
      (op.rows = [] → op.fill = none → opFabs s b k n = false → exec (.operationComplete b k n) s =
        .next (modEng s b k fun e => engDone { e with ops := e.ops.filter (·.n != n) })) ∧
      ((op.rows ≠ [] ∨ op.fill ≠ none ∨ opFabs s b k n = true) → exec (.operationComplete b k n) s = .next s)) ∧
    (∀ e : EngCtx, (e.ops = [] → (engDone e).done = e.issued) ∧ (engDone e).ops = e.ops ∧ (engDone e).issued = e.issued ∧
      ∀ o ∈ e.ops, (∀ p ∈ e.ops, o.n ≤ p.n) → (engDone e).done = o.n - 1)

/-- A copy instruction is accepted at once, whatever operations its stream has accepted before. As it starts it reads its
descriptor, and has the rows that this gives: one for CPY, PLANES × ROWS for CPYS, CRED and CFILL, one an index for CGATH and CSCAT,
one a row for CSLOT and CRECODE (R293, R300 to R307; the bytes counted are log 38's). -/
def Sys2Proof.Claims.CopyInstructionsAreAccepted : Prop :=
  (∀ (s : State) (k : SCtx) (c : Ctl) (p : Fin 64), StreamIssues s k true →
    CopyAccepted s k p .cpy (exec (.cpy c p) s) ∧ CopyAccepted s k p .cpys (exec (.cpys c p) s) ∧
    CopyAccepted s k p .cgath (exec (.cgath c p) s) ∧ CopyAccepted s k p .cscat (exec (.cscat c p) s) ∧
    CopyAccepted s k p .cred (exec (.cred c p) s) ∧ CopyAccepted s k p .cfill (exec (.cfill c p) s) ∧
    (∀ m, CopyAccepted s k p (.cslot m) (exec (.cslot c m p) s)) ∧
    ∀ t, CopyAccepted s k p (.crecode t) (exec (.crecode c p t) s)) ∧
  (∀ (s : State) (a : EAgent) (d : CDesc) (va i w wl : Nat), w = descWork va →
    wl = w + (if inSpan d.aux then 0 else 4 * d.rows) → readDesc s a va = .ok d → d.rowlen ≠ 0 →
      (∀ rows, rows = [RowKind.raw (d.src' i) (d.dst' i) d.rowlen] → preCheck s a rows = .ok () →
        StartsWith s a .cpy va i w rows d.ver none) ∧
      (d.rows ≠ 0 →
        (∀ idx rows, indexList s a d = .ok idx →
          (rows = ((idx.map fun (x : Nat) => toAddr ((d.src' i : Int) + (x : Int) * d.ss)).zip
              (planeRows (d.dst' i) 1 d.rows 0 d.ds)).map (fun q => RowKind.raw q.1 q.2 d.rowlen) →
            preCheck s a rows = .ok () → StartsWith s a .cgath va i wl rows d.ver none) ∧
          (rows = ((planeRows (d.src' i) 1 d.rows 0 d.ss).zip
              (idx.map fun (x : Nat) => toAddr ((d.dst' i : Int) + (x : Int) * d.ds))).map (fun q => RowKind.raw q.1 q.2 d.rowlen) →
            preCheck s a rows = .ok () → StartsWith s a .cscat va i wl rows d.ver none)) ∧
        (∀ t, StartsWith s a (.crecode t) va i w ((planeRows (d.src' i) 1 d.rows 0 d.ss).zipIdx.map
          fun x => RowKind.recode x.1 (d.dst' i) x.2 d.rowlen d.ds t) d.ver none) ∧
        (∀ m o0 o, originAt s a (d.src' i) (d.ss % 2 ^ 40).toNat d.rows d.rowlen = .ok o0 →
          o = (if o0.plain then { o0 with fmt := BitVec.ofNat 4 d.slotfmt } else o0) →
          o.fmt ≠ 0 → o.fmt ≠ 2 → o.fmt.toNat ≤ 7 → d.rows ≤ 128 → d.rowlen ≤ slotK o.fmt.toNat →
          (o.plain = true ∨ (0 ≤ d.ss ∧ d.ss < 2 ^ 24)) →
          StartsWith s a (.cslot m) va i w ((planeRows (d.src' i) 1 d.rows 0 d.ss).zipIdx.map
            fun x => RowKind.slot x.1 x.2 d.rowlen) none (some { m := m, origin := o, rows := [] })) ∧
        (d.planes ≠ 0 →
          (∀ rows, rows = ((planeRows (d.src' i) d.planes d.rows d.sps d.ss).zip
              (planeRows (d.dst' i) d.planes d.rows d.dps d.ds)).map (fun q => RowKind.raw q.1 q.2 d.rowlen) →
            preCheck s a rows = .ok () → StartsWith s a .cpys va i w rows d.ver none) ∧
          (d.ver = none → d.redop ≤ 3 → d.rowlen % 4 = 0 → d.src' i % 4 = 0 → d.dst' i % 4 = 0 → d.ss % 4 = 0 →
            d.ds % 4 = 0 → d.sps % 4 = 0 → d.dps % 4 = 0 →
            StartsWith s a .cred va i w (((planeRows (d.src' i) d.planes d.rows d.sps d.ss).zip
              (planeRows (d.dst' i) d.planes d.rows d.dps d.ds)).map fun x => RowKind.red x.1 x.2 d.rowlen d.redop)
              none none) ∧
          (d.rowlen % 2 ^ d.fillw = 0 → d.dst' i % 2 ^ d.fillw = 0 → d.ds % (2 : Int) ^ d.fillw = 0 →
            d.dps % (2 : Int) ^ d.fillw = 0 →
            StartsWith s a .cfill va i w ((planeRows (d.dst' i) d.planes d.rows d.dps d.ds).map
              fun x => RowKind.fill x d.rowlen (BitVec.ofNat 64 d.aux) (2 ^ d.fillw)) d.ver none)))) ∧
  (∀ (s : State) (a : EAgent) (op : EngOp) (cc : CopyKind) (va i : Nat) (x : RowStop), planRow op = some (cc, va, i) →
    (readDesc s a va = .error x → starting s a op = .error x) ∧
    ∀ d, readDesc s a va = .ok d → d.rowlen = 0 → starting s a op = .error (.fault (raise .illegal none 4 0)))

/-- A raw row between plain pages of device memory copies its bytes: the destination then holds what the source held, and
every other byte of memory reads as before (R292, R302). That a row is read and written in one step is log 19. -/
def Obligations.PlainRowCopiesItsBytes : Prop :=
  ∀ (s : State) (a : EAgent) (lines : Lines) (row : Row) (src dst len : Nat) (p q : Page), s.homesWf = true → 0 < len →
    src % 65536 + len ≤ 65536 → dst % 65536 + len ≤ 65536 → src < Config.vaLimit → dst < Config.vaLimit →
    inSpan src = false → inSpan dst = false →
    pageOf s a.who a.ctx .engR src = .ok p → p.fmt = 0 → p.tier = false →
    pageOf s a.who a.ctx .engW dst = .ok q → q.fmt = 0 → q.tier = false → q.mig = false → s.badGranules = [] →
    ∃ t, rawRow s a none lines row src dst len = .ok (t, lines, 0) ∧
      (∀ i < len, memGet t.mem (q.base + i) = memGet s.mem (p.base + i)) ∧
      (∀ x, (x < q.base ∨ q.base + len ≤ x) → memGet t.mem x = memGet s.mem x) ∧ t.blocks = s.blocks ∧ t.span = s.span

/-- TGATH is numbered in k1, writes its number to its register pair and goes on, its rows being one a participating lane;
while the engine is busy it waits, holding its lines, and TGATH_ACCEPT accepts it; too many lines raise REGPOOL_EXHAUSTED
(R49), and the first lane with a bad row or length faults, PROTECTION before MISALIGNED before the length's ILLEGAL_INSTRUCTION (R308). -/
def Sys2Proof.Claims.GatherIsAccepted : Prop :=
  (∀ (s : State) (k : GCtx) (c : Ctl) (m : LaneMask) (d a b : Fin 128) (len : Src) (dest : Word64) (n : Word)
      (rows : List (Nat × Nat × Nat)), Issues s k c m → readPairUni k m b = .ok dest → readUni k m len = .ok n →
    gatherRows k m a dest.toNat n.toNat (match len with | .int _ => false | _ => true) = .ok rows →
    ∀ takes, takes = linesFor k.wp (.v (Fin.ofNat 256 (2 * d.val)) .w) [] 2 false m →
    (linesHeld (modGangs k.wp k.g.gid fun g => { g with takes := takes }) ≤ k.wp.gmax →
      (engIdle k.blk.ctxs[(1 : Fin 4)] = true → ∃ t, acceptGather s k d m rows n.toNat = .ok t ∧
        exec (.tgath c d a b len) s = .next t) ∧
      (engIdle k.blk.ctxs[(1 : Fin 4)] = false → exec (.tgath c d a b len) s =
        .next (modGangW s k.b k.w k.g.gid fun g =>
          { g with wait := .tgath d m rows dest.toNat n.toNat, takes := takes }))) ∧
    (k.wp.gmax < linesHeld (modGangs k.wp k.g.gid fun g => { g with takes := takes }) →
      exec (.tgath c d a b len) s = .next (takeFault s s.cur (raise .regpool (some (lowLane m)))))) ∧
  (∀ (s : State) (p : Party) (k : GCtx) (d : Fin 128) (m : LaneMask) (rows : List (Nat × Nat × Nat)) (dst len : Nat),
    gangOf s p = some k → k.g.wait = .tgath d m rows dst len →
    ∃ t, acceptGather s k d m rows len = .ok t ∧ exec (.tgathAccept p) s = .next t) ∧
  (∀ (k : GCtx) (m : LaneMask) (a : Fin 128) (dest len : Nat) (fromReg : Bool) (rows : List (Nat × Nat × Nat))
      (lo hi : VVal), readV k m (2 * a.val) = .ok lo → readV k m (2 * a.val + 1) = .ok hi →
    gatherRows k m a dest len fromReg = .ok rows →
    rows = (lanesOf m).map (fun l => (l, (pairLane lo hi l).toNat, dest + l * len)) ∧
    (m ≠ 0 → dest % 4 = 0 ∧ (fromReg = true → 4 ≤ len ∧ len ≤ 4096 ∧ len % 4 = 0)) ∧
    ∀ l ∈ lanesOf m, (pairLane lo hi l).toNat % 4 = 0 ∧ (pairLane lo hi l).toNat < Config.vaLimit) ∧
  (∀ (s : State) (k : GCtx) (c : Ctl) (m : LaneMask) (d a b : Fin 128) (len : Src) (dest : Word64) (n : Word)
      (fromReg : Bool) (lo hi : VVal) (pre post : List Nat) (l ea : Nat), Issues s k c m → readPairUni k m b = .ok dest →
    readUni k m len = .ok n → fromReg = (match len with | .int _ => false | _ => true) →
    readV k m (2 * a.val) = .ok lo → readV k m (2 * a.val + 1) = .ok hi → lanesOf m = pre ++ l :: post →
    (∀ x ∈ pre, (pairLane lo hi x).toNat < Config.vaLimit ∧ (pairLane lo hi x).toNat % 4 = 0 ∧ dest.toNat % 4 = 0 ∧
      (fromReg = true → 4 ≤ n.toNat ∧ n.toNat ≤ 4096 ∧ n.toNat % 4 = 0)) → ea = (pairLane lo hi l).toNat →
    (Config.vaLimit ≤ ea →
      exec (.tgath c d a b len) s = .next (takeFault s s.cur (raise .protection (some l) 0 ea))) ∧
    (ea < Config.vaLimit → (ea % 4 ≠ 0 ∨ dest.toNat % 4 ≠ 0) →
      exec (.tgath c d a b len) s = .next (takeFault s s.cur (raise .misaligned (some l) 0 ea))) ∧
    (ea < Config.vaLimit → ea % 4 = 0 → dest.toNat % 4 = 0 → fromReg = true →
      (n.toNat < 4 ∨ 4096 < n.toNat ∨ n.toNat % 4 ≠ 0) →
      exec (.tgath c d a b len) s = .next (takeFault s s.cur (raise .illegal (some l) 6))))

/-- CSIG arrives at a barrier or updates a signal, once earlier operations have completed; CWAIT goes on where its phase has
completed or its word satisfies the comparison, and else waits; CWAIT_SATISFIED completes it. Their addresses are the low 56
bits of a parameter; a word of fabric memory is reached by a fabric operation. A CSIG that meets uncorrectable data is abandoned, and
so is one whose barrier overflows (R297, R309, R310, R368, R414; log 115 for its count). -/
def Obligations.CopyStreamSignalsAndWaits : Prop :=
  (∀ (s : State) (k : SCtx) (c : Ctl), StreamIssues s k true →
    (engDrained k.e = false → ∀ form, exec (.csig c form) s = .next s) ∧
    (engDrained k.e = true →
      (∀ (bar : Fin 32) (n : BitVec 16) out, arrive k.blk (.stream k.k) bar.val n.toNat = some out →
        exec (.csig c (.bar bar n)) s = .next (accept (goOn (modBlock s k.b fun x =>
          { x with bars := out.bars, arrivals := out.arrivals }) k) k.b k.k (mkOp k.st.pc none none none []))) ∧
      (∀ o scope (addr : Fin 64) val ch ea t, ea = k.st.params[addr].toNat % 2 ^ 56 →
        checkAcc s (some k.blk.core) k.blk.ctx .atom false .b64 ea = .ok ch → ch.held = false → ch.acc.mig = false →
        (poisonAt s ch.acc.loc 8 = true → exec (.csig c (.sig o scope addr val)) s =
          .next (dropOp (logPoison s ch.acc.loc k.blk.ctx.val) k (raise .storeImprecise none 0 ea))) ∧
        (poisonAt s ch.acc.loc 8 = false →
        t = accept (addWork (goOn s k) k.b 0 (wordWork ch.acc.loc 16)) k.b k.k (mkOp k.st.pc none none none []) →
        (isFab ch.acc.loc = false → exec (.csig c (.sig o scope addr val)) s =
          .next (rmw t ((opTag s k.b k.k (mkOp k.st.pc none none none [])).at ea) ch.acc.loc
            (sigAtom o (pcVal k.st val)).1 false .b64 (sigAtom o (pcVal k.st val)).2 0).1) ∧
        (isFab ch.acc.loc = true → exec (.csig c (.sig o scope addr val)) s =
          .next (sendFab t ch.acc.loc (.atomic (sigAtom o (pcVal k.st val)).1 false .b64 (sigAtom o (pcVal k.st val)).2 0 false)
            (.row k.b k.k (k.e.issued + 1) 0) false ea
            (some ((opTag s k.b k.k (mkOp k.st.pc none none none [])).at ea)))))) ∧
      (∀ (bar : Fin 32) (n : BitVec 16), arrive k.blk (.stream k.k) bar.val n.toNat = none →
        exec (.csig c (.bar bar n)) s = .next (dropOp s k (raise .barrierOverflow none)))) ∧
    (∀ (bar : Fin 32) ph done, waitPhase k.blk (.stream k.k) bar.val = some (ph, done) → exec (.cwait c (.bar bar)) s =
      .next (if done then goOn s k else modStream s k.b k.k fun st => { st with wait := .bar bar.val ph })) ∧
    (∀ cmp scope (addr : Fin 64) val ch t, t = addWork s k.b 0 (wordWork ch.acc.loc 8) →
      checkAcc s (some k.blk.core) k.blk.ctx .watch false .b64 (k.st.params[addr].toNat % 2 ^ 56 : Nat) = .ok ch →
      (isFab ch.acc.loc = false → ∀ r, cwaitRead s ch.acc.loc cmp (pcVal k.st val) = some r →
        exec (.cwait c (.sig cmp scope addr val)) s = .next (if r then goOn t k else
          modStream t k.b k.k fun st => { st with wait := .sig ch.acc.loc cmp (pcVal k.st val) })) ∧
      (isFab ch.acc.loc = true → exec (.cwait c (.sig cmp scope addr val)) s =
        .next (modStream (sendFab t ch.acc.loc (.read 8) (.cwait k.b k.k) false (k.st.params[addr].toNat % 2 ^ 56)) k.b k.k
          fun st => { st with wait := .sig ch.acc.loc cmp (pcVal k.st val) })))) ∧
  (∀ (s : State) (b : Nat) (j : Fin 4) (x : SCtx), streamOf s (.stream b j) = some x →
    (∀ bar ph, x.st.wait = .bar bar ph →
      exec (.cwaitSatisfied b j) s = .next (if phaseDone x.blk bar ph then goOn s x else s)) ∧
    (∀ l cmp v r, x.st.wait = .sig l cmp v → isFab l = false → cwaitRead s l cmp v = some r →
      exec (.cwaitSatisfied b j) s = .next (if r then goOn s x else s)))

/-- CLOOP and MLOOP open a level and run its body its count of times, none for a count of 0; CEND and MEND end their stream;
levels nest to four, and a count is the low 32 bits of its parameter (R297, R299, R311). -/
def Obligations.StreamLoops : Prop :=
  (∀ (s : State) (k : SCtx) (c : Ctl) (n : PC) (len : BitVec 16),
    (∀ st, openLoop k.st (pcVal k.st n).toNat len.toNat .none = .ok st → StreamIssues s k true →
      exec (.cloop c n len) s = .next (modStream s k.b k.k fun _ => st)) ∧
    (∀ ctr st, openLoop k.st (pcVal k.st n).toNat len.toNat ctr = .ok st → StreamIssues s k false →
      exec (.mloop c n len ctr) s = .next (modStream s k.b k.k fun _ => st)) ∧
    (StreamIssues s k true → exec (.cend c) s = .next (modStream s k.b k.k endStream)) ∧
    (StreamIssues s k false → exec (.mend c) s =
      .next { modStream s k.b k.k endStream with matrixReqs := s.matrixReqs.filter (· != k.b) })) ∧
  (∀ (st : Stream) (trip len : Nat) (ctr : MCtr), openLoop st trip len ctr = openLoop st (trip % 2 ^ 32) len ctr) ∧
  (∀ (st : Stream) (trip len : Nat), st.loops = [] → 0 < trip → trip < 2 ^ 32 →
    openLoop st trip len .none = .ok { st with pc := st.pc + 1, loops := [{ trip := trip, left := trip, first := st.pc + 1, last := st.pc + BitVec.ofNat 32 len, ctr := .none }] }) ∧
  (∀ (st : Stream) (len : Nat), st.loops = [] →
    openLoop st 0 len .none = .ok { st with pc := st.pc + BitVec.ofNat 32 len + 1, loops := [] }) ∧
  (∀ (st : Stream) (trip len : Nat) (ctr : MCtr), st.loops.length = 4 → 0 < trip → trip < 2 ^ 32 →
    (∀ l ∈ st.loops, st.pc.toNat + len ≤ l.last.toNat) →
    openLoop st trip len ctr = .error (raise .maskStack none 3)) ∧
  (∀ (st : Stream) (l : Loop) (r : List Loop), st.loops = l :: r → l.last = st.pc → l.ctr = .none →
    (1 < l.left → stepStream st = { st with pc := l.first, loops := { l with left := l.left - 1 } :: r, wait := .none }) ∧
    (l.left ≤ 1 → r = [] → stepStream st = { st with pc := st.pc + 1, loops := [], wait := .none })) ∧
  (∀ (st : Stream), (∀ l ∈ st.loops, l.last ≠ st.pc) → stepStream st = { st with pc := st.pc + 1, wait := .none }) ∧
  (∀ st : Stream, (endStream st).running = false ∧ (endStream st).granted = none ∧ (endStream st).loops = [])

/-! ## The matrix stream -/

/-- MCLAIM takes its slots and tiles in one step where all are FREE, and else waits for MCLAIM_TAKEN; a second claim raises
SLOT_STATE. MREL frees what it names once operations have completed, and raises SLOT_STATE where it is not held (R280, R312). -/
def Sys2Proof.Claims.ClaimsAreTakenAndReleased : Prop :=
  (∀ (s : State) (k : SCtx) (c : Ctl) (a : Fin 48) (m : Fin 64) (ns nt : BitVec 16), StreamIssues s k false →
    (k.blk.claim = none →
      (claimFree (coreOf s k) a.val m.val ns.toNat nt.toNat = true → exec (.mclaim c a m ns nt) s =
        .next (goOn (takeClaim s k.b k.blk.core a.val m.val ns.toNat nt.toNat) k)) ∧
      (claimFree (coreOf s k) a.val m.val ns.toNat nt.toNat = false → exec (.mclaim c a m ns nt) s =
        .next (modStream s k.b k.k fun st => { st with wait := .claim a.val m.val ns.toNat nt.toNat }))) ∧
    (k.blk.claim ≠ none → exec (.mclaim c a m ns nt) s = .next (takeFault s s.cur (raise .slotState none))) ∧
    (engDrained k.e = true →
      ((∀ x ∈ rangeFrom m.val ns.toNat, ((coreOf s k).slots[Fin.ofNat 64 x]).owner = some k.b) →
        (∀ x ∈ rangeFrom a.val nt.toNat, ((coreOf s k).tiles[Fin.ofNat 48 x]).owner = some k.b) →
        ∃ t, exec (.mrel c a m ns nt) s = .next (goOn t k) ∧ SameStores s t ∧
          (∀ x : Fin 64, (t.cores[k.blk.core].slots[x]) =
            if x.val ∈ (rangeFrom m.val ns.toNat).map (· % 64) then Slot.free else s.cores[k.blk.core].slots[x]) ∧
          ∀ x : Fin 48, (t.cores[k.blk.core].tiles[x]) =
            if x.val ∈ (rangeFrom a.val nt.toNat).map (· % 48) then Tile.free else s.cores[k.blk.core].tiles[x]) ∧
      (∀ x ∈ rangeFrom m.val ns.toNat, ((coreOf s k).slots[Fin.ofNat 64 x]).owner ≠ some k.b →
        exec (.mrel c a m ns nt) s = .next (takeFault s s.cur (raise .slotState none))))) ∧
  (∀ (s : State) (b : Nat) (k : SCtx) (a m ns nt : Nat), streamOf s (.stream b 0) = some k →
    k.st.wait = .claim a m ns nt → k.blk.status = .resident →
    (claimFree (coreOf s k) a m ns nt = true →
      exec (.mclaimTaken b) s = .next (goOn (takeClaim s b k.blk.core a m ns nt) k)) ∧
    (claimFree (coreOf s k) a m ns nt = false → exec (.mclaimTaken b) s = .next s)) ∧
  (∀ (s : State) (b : Nat) (core : Fin 256) (a m ns nt : Nat), m + ns ≤ 64 → a + nt ≤ 48 →
    (∀ x : Fin 64, ((takeClaim s b core a m ns nt).cores[core].slots[x]) =
      if m ≤ x.val ∧ x.val < m + ns then { Slot.free with owner := some b } else s.cores[core].slots[x]) ∧
    ∀ x : Fin 48, ((takeClaim s b core a m ns nt).cores[core].tiles[x]) =
      if a ≤ x.val ∧ x.val < a + nt then { Tile.free with owner := some b } else s.cores[core].tiles[x])

/-- MMA under a grant of its format, MACC and MZERO act on their tile at once and are numbered; MMAG reads its list, makes an
empty tile floating-point, and is accepted with its segments, at which its stream stands; each check that fails raises its code
and changes no tile (R281, R286, R294, R313 to R315; that they act at acceptance is log 5, that the stream stands at an MMAG log
105, the counts log 38). -/
def Obligations.MatrixProductsAct : Prop :=
  ∀ (s : State) (k : SCtx) (c : Ctl), StreamIssues s k false → engIdle k.e = true →
    (∀ d a b kind g, mmaCheck (coreOf s k) k.b d a b kind = none → k.st.granted = some g →
      grants g (kindBit (coreOf s k) a b kind) = true → exec (.mma c d a b kind) s =
        .next (accept (goOn (raiseFlags (modCore (addWork s k.b
          (32768 * slotK (coreOf s k).slots[a].origin.fmt.toNat) 0) k.blk.core fun _ => (mmaCompute (coreOf s k) d a b kind).1)
          k.b (mmaCompute (coreOf s k) d a b kind).2) k) k.b k.k (mkOp k.st.pc none none none []))) ∧
    (∀ d a b kind code, mmaCheck (coreOf s k) k.b d a b kind = some code →
      exec (.mma c d a b kind) s = .next (takeFault s s.cur (raise code none) true)) ∧
    (∀ d a b kind, mmaCheck (coreOf s k) k.b d a b kind = none → k.st.granted = none →
      grants k.st.profile (kindBit (coreOf s k) a b kind) = true → exec (.mma c d a b kind) s =
        .next (askGrant (modStream s k.b k.k fun st => { st with wait := .grant k.st.profile }) k.b)) ∧
    (∀ d a, maccCheck (coreOf s k) k.b d a = none → exec (.macc c d a) s =
      .next (accept (goOn (raiseFlags (modCore s k.blk.core fun _ => (maccCompute (coreOf s k) d a).1) k.b
        (maccCompute (coreOf s k) d a).2) k) k.b k.k (mkOp k.st.pc none none none []))) ∧
    (∀ d, holdsTile (coreOf s k) k.b d = true → ∃ core, core = { setTileMode (coreOf s k) d .empty [] [] with
        badTiles := (coreOf s k).badTiles.filter (· != d.val) } ∧
      exec (.mzero c d) s = .next (accept (goOn (raiseFlags (modCore s k.blk.core fun _ => core) k.b 0) k) k.b k.k
        (mkOp k.st.pc none none none []))) ∧
    (∀ d, holdsTile (coreOf s k) k.b d = false →
      exec (.mzero c d) s = .next (takeFault s s.cur (raise .slotState none) true)) ∧
    (∀ (d : Fin 48) (x gg p : Fin 64) g bytes, mmagCheck (coreOf s k) k.b d x = none → k.st.granted = some g →
      grants g (if (coreOf s k).slots[x].origin.fmt = 5 then 1 else 0) = true →
      ∀ table list, table = k.st.params[p].toNat % 2 ^ 56 → list = k.st.params[Fin.ofNat 64 (p.val + 1)].toNat % 2 ^ 56 →
      table % 64 = 0 → list % 256 = 0 →
      engBytes s (opAgent s k.b k.k (mkOp k.st.pc none none none []) k.blk) .engR
        ((list + 256 * k.st.rowb.toNat) % 2 ^ 56) 256 = .ok bytes →
      (pairMissing (coreOf s k) k.b gg (halfwords bytes) = true →
        exec (.mmag c d x gg p) s = .next (takeFault s s.cur (raise .slotState none) true)) ∧
      (pairMissing (coreOf s k) k.b gg (halfwords bytes) = false →
      ∀ s1, s1 = (if (coreOf s k).tiles[d].mode = .empty then
          modCore s k.blk.core fun c => setTileMode (setTileRows c d 0 128 fun _ _ => 0) d .fp [] [] else s) →
      exec (.mmag c d x gg p) s = .next (accept (modStream (addWork s1 k.b 0
          (if inSpan ((list + 256 * k.st.rowb.toNat) % 2 ^ 56) then 0 else 256)) k.b k.k
        fun st => { st with wait := .seg }) k.b k.k
        (mkOp k.st.pc none none none [.seg d.val x.val gg.val table (halfwords bytes) 0 k.st.colb k.st.kb])))) ∧
    (∀ d a code, maccCheck (coreOf s k) k.b d a = some code →
      exec (.macc c d a) s = .next (takeFault s s.cur (raise code none) true)) ∧
    (∀ (d : Fin 48) (x gg p : Fin 64) code, mmagCheck (coreOf s k) k.b d x = some code →
      exec (.mmag c d x gg p) s = .next (takeFault s s.cur (raise code none) true)) ∧
    ∀ (d : Fin 48) (x gg p : Fin 64), mmagCheck (coreOf s k) k.b d x = none →
      (k.st.params[p].toNat % 64 ≠ 0 ∨ k.st.params[Fin.ofNat 64 (p.val + 1)].toNat % 256 ≠ 0) →
      exec (.mmag c d x gg p) s = .next (takeFault s s.cur (raise .misaligned none) true)

/-- Every element of a tile after an MMA is its format's element of the operands and of the accumulator; other tiles keep
their elements, and an integer or ternary element is the sum clamped to the accumulator's range (R33 to R36, R286, R313). -/
def Obligations.MatrixProductElements : Prop :=
  ∀ (c : Core) (d : Fin 48) (a b : Fin 64) (i j : Nat), c.memWf = true → i < 128 → j < 128 →
    tileWord (mmaCompute c d a b .fp8).1 d i j = (fp8Elem ((List.range 128).map fun k =>
        ((operandVal c [a] i k).1, (operandVal c [b] j k).1))
      ((operandScales [c.slots[a].origin]).getD i 0x3F80) ((operandScales [c.slots[b].origin]).getD j 0x3F80)
      (tileWord c d i j)).1 ∧
    tileWord (mmaCompute c d a b .i8).1 d i j = (fixElem ((List.range 128).map fun k =>
        ((operandVal c [a] i k).1, (operandVal c [b] j k).1)) (tileWord c d i j)).1 ∧
    tileWord (mmaCompute c d a b .bf16).1 d i j = (bf16Elem ((List.range 64).map fun k =>
        ((operandVal c (kindSlots .bf16 a b).1 i k).1, (operandVal c (kindSlots .bf16 a b).2 j k).1)) (tileWord c d i j)).1 ∧
    tileWord (mmaCompute c d a b .ti8).1 d i j = (fixElem ((List.range 640).map fun k =>
        ((portVal c a i k).1, (portVal c (Fin.ofNat 64 (b.val + k / 128)) j (k % 128)).1)) (tileWord c d i j)).1 ∧
    tileWord (mmaCompute c d a b .i8t).1 d i j = (fixElem ((List.range 640).map fun k =>
        ((portVal c (Fin.ofNat 64 (a.val + k / 128)) i (k % 128)).1, (portVal c b j k).1)) (tileWord c d i j)).1 ∧
    (∀ (xs : List (FVal × FVal)) (w : Word), (fixElem xs w).1 = BitVec.ofInt 32 (max (-2 ^ 31) (min (2 ^ 31 - 1)
      (w.toInt + ((xs.map fun t => eighths t.1 * eighths t.2).foldl (· + ·) 0) / 2)))) ∧
    ∀ (kind : MmaKind) (e : Fin 48), e ≠ d → tileWord (mmaCompute c d a b kind).1 e i j = tileWord c e i j

/-- MSTORE is accepted with one row of its tile a descriptor row; MBARA arrives once operations have completed, MBARW waits
for its phase and MBARW_SATISFIED ends the wait; MCUR asks for a grant, and MATRIX_GRANT gives the profile that a waiting
stream asks for to the request that came first, once it fits the budget beside the other grants (R5, R294, R316, R317, R319,
R446; the counts are log 38's, and how MATRIX_GRANT weighs the present grants log 12). -/
def Sys2Proof.Claims.MatrixStoresBarriersGrants : Prop :=
  (∀ (s : State) (k : SCtx) (c : Ctl), StreamIssues s k false →
    (∀ (a : Fin 48) (p : Fin 64) conv d, engIdle k.e = true → holdsTile (coreOf s k) k.b a = true →
      a.val ∉ (coreOf s k).badTiles →
      readDesc s (opAgent s k.b k.k (mkOp k.st.pc none none none []) k.blk) (k.st.params[p].toNat % 2 ^ 56) = .ok d →
      1 ≤ d.rows → d.rows ≤ 128 → 1 ≤ d.rowlen → d.rowlen ≤ 128 →
      storeCheck s (opAgent s k.b k.k (mkOp k.st.pc none none none []) k.blk) (storeRows d (passIndex k.st)) d.rowlen conv
        = none → exec (.mstore c a p conv) s = .next (accept (addWork (goOn s k) k.b 0 (descWork (k.st.params[p].toNat % 2 ^ 56))) k.b k.k (mkOp k.st.pc none d.ver none
          ((storeRows d (passIndex k.st)).zipIdx.map fun x => RowKind.tile a.val x.2 x.1 d.rowlen conv)))) ∧
    (∀ (b : Fin 32) (n : BitVec 16) out, engDrained k.e = true → arrive k.blk (.stream k.k) b.val n.toNat = some out →
      StreamGoesOn (modBlock s k.b fun x => { x with bars := out.bars, arrivals := out.arrivals }) k
        (exec (.mbara c b n) s)) ∧
    (∀ (b : Fin 32) ph done, waitPhase k.blk (.stream k.k) b.val = some (ph, done) → exec (.mbarw c b) s =
      .next (if done then goOn s k else modStream s k.b k.k fun st => { st with wait := .bar b.val ph })) ∧
    (∀ profile, exec (.mcur c profile) s = .next (askGrant (goOn (modStream s k.b k.k fun st =>
      { st with profile := profile, granted := none }) k) k.b))) ∧
  (∀ (s : State) (b : Nat) (k : SCtx), streamOf s (.stream b 0) = some k →
    (∀ bar ph, k.st.wait = .bar bar ph →
      exec (.mbarwSatisfied b) s = .next (if phaseDone k.blk bar ph then goOn s k else s)) ∧
    (s.matrixReqs.head? ≠ some b → exec (.matrixGrant b) s = .next s) ∧
    (powerFits (giveGrant s b) s.mgrant.toNat s.vgrant.toNat s.hgrant.toNat = false → exec (.matrixGrant b) s = .next s) ∧
    (s.matrixReqs.head? = some b → powerFits (giveGrant s b) s.mgrant.toNat s.vgrant.toNat s.hgrant.toNat = true →
      ∀ r, k.st.wait = .grant r → ∃ t, exec (.matrixGrant b) s = .next t ∧ SameStores s t ∧
      b ∉ t.matrixReqs ∧
      ∃ k', streamOf t (.stream b 0) = some k' ∧ k'.st = { k.st with granted := some r, wait := .none }))

/-- MSAVE writes, at an address of 56 bits, the 64-byte image of the state in which its stream goes on, and MRESUME of such an
image restores PC, counters, profile and depth; an image of another revision raises SLOT_STATE, and one whose MLOOP lies in a page
that is not present waits for the page (R291, R318; the levels and what an image saves are log 21). -/
def Sys2Proof.Claims.MatrixStateSavesAndResumes : Prop :=
  (∀ (s : State) (k : SCtx) (c : Ctl) (p : Fin 64) (a : EAgent), StreamIssues s k false →
    a = opAgent s k.b k.k (mkOp k.st.pc none none none []) k.blk → k.st.params[p].toNat % 64 = 0 →
    (∀ rs, engDrained k.e = true → imageRuns s a .engW (k.st.params[p].toNat % 2 ^ 56) = .ok rs →
      needWritable s a none rs = .ok () →
      exec (.msave c p) s = .next (accept (goOn (rs.foldl (fun t r =>
        writeLoc t (a.tag.at r.va) r.loc (((loopImage (stepStream k.st)).drop r.off).take r.n)) s) k) k.b k.k
        (mkOp k.st.pc none none none []))) ∧
    (∀ rs ws, engIdle k.e = true → imageRuns s a .engR (k.st.params[p].toNat % 2 ^ 56) = .ok rs →
      (∀ r ∈ rs, poisonAt s r.loc r.bytes = false) → ws = wordsOf (rs.flatMap fun r => readLoc s r.loc r.bytes) →
      (imageOk ws = false → exec (.mresume c p) s = .next (takeFault s s.cur (raise .slotState none) true)) ∧
      (∀ ls, imageOk ws = true → levelsOf s k ws ((ws.getD 1 0).toNat % 8) = .ok (some ls) → ∃ st, st = { k.st with
          pc := ws.getD 0 0, loops := ls, rowb := (ws.getD 10 0).setWidth 16, colb := (ws.getD 10 0).extractLsb' 16 16
          kb := (ws.getD 11 0).setWidth 16, profile := (ws.getD 12 0).setWidth 16, granted := none, wait := .none } ∧
        exec (.mresume c p) s = .next (accept (askGrant (modStream s k.b k.k fun _ => st) k.b) k.b k.k
          (mkOp k.st.pc none none none []))) ∧
      (∀ z, imageOk ws = true → levelsOf s k ws ((ws.getD 1 0).toNat % 8) = .error z →
        exec (.mresume c p) s = .next (stopOp s k z)))) ∧
  (∀ st : Stream, st.loops.length ≤ 4 → (loopImage st).length = 64 ∧ imageOk (wordsOf (loopImage st)) = true ∧
    (wordsOf (loopImage st)).getD 0 0 = st.pc ∧ ((wordsOf (loopImage st)).getD 1 0).toNat % 8 = st.loops.length ∧
    ((wordsOf (loopImage st)).getD 10 0).setWidth 16 = st.rowb ∧
    ((wordsOf (loopImage st)).getD 10 0).extractLsb' 16 16 = st.colb ∧
    ((wordsOf (loopImage st)).getD 11 0).setWidth 16 = st.kb ∧ ((wordsOf (loopImage st)).getD 12 0).setWidth 16 = st.profile)

/-- Copy and gather instructions are accepted with their rows. -/
def Obligations.CopiesAreAccepted : Prop :=
  Sys2Proof.Claims.CopyInstructionsAreAccepted ∧ Sys2Proof.Claims.GatherIsAccepted

/-- Claims, matrix stores, barriers and grants, and the saving of matrix state. -/
def Obligations.ClaimsStoresAndMatrixState : Prop :=
  Sys2Proof.Claims.ClaimsAreTakenAndReleased ∧ Sys2Proof.Claims.MatrixStoresBarriersGrants ∧
  Sys2Proof.Claims.MatrixStateSavesAndResumes
/-! ## Faults and their containment -/

namespace Sys2Proof.Claims

open Sys2Proof Sys2Proof.Machine

/-- A state s1 after the walk of fault f with what every offered fault leaves behind: its record in the log of its node's
context, and one fault more of that node, which may be its first in block, warp and PC order (R415 to R418, R342). -/
def Recorded (s s1 : State) (f : FRec) (stopped action retry : Nat) : State :=
  let ctx := ((s.nodes[f.node]?).map (·.ctx)).getD 0
  let st : Stop := { s := s1, stopped := stopped, action := action, suppressed := false, retry := retry }
  let first : FirstFault :=
    { block := ((f.block.bind (s.blocks[·]?)).map (·.idx)).getD 0, warp := f.warp.getD 0xFFFF, pc := f.pc,
      code := BitVec.ofNat 8 f.r.code.num, level := BitVec.ofNat 8 stopped }
  modNode (logFault s1 ctx fun seq => faultRecord s f st seq) f.node fun x =>
    { x with nfault := x.nfault + 1, first := firstOf x.first first }

/-- Whether a raise is administrative: it is not ignored, retried or escalated (R418). -/
def Administrative (r : Raise) : Prop := r.code = .aborted ∨ (r.code = .illegal ∧ (r.cause = 2 ∨ r.cause = 3))

/-- A fault of a gang is acted on by its warp's policy: 0 goes on at PC + 1, 1 issues the instruction again with the
watchdog count at 0 for at most three times, 2 ends the warp, 3 ends it and asks the block's policy, here 2, which ends the
block (R197, R418, R419). -/
def GangFaults : Prop :=
  ∀ (s : State) (k : GCtx) (nd : Node) (r : Raise) (f : FRec) (n : Nat), gangOf s s.cur = some k →
    s.nodes[k.blk.node]? = some nd → f = faultOf s s.cur r → levelEnded s f 0 = false → ¬ Administrative r →
    n = retriesAt s f 0 →
    (nd.kd.polwp = 0 → takeFault s s.cur r = Recorded s (modGangW s k.b k.w k.g.gid fun g =>
      { g with pc := g.pc + 1, wait := .none, replay := false, wd := if r.code = .watchdog then 0 else g.wd }) f 0 0 n) ∧
    (nd.kd.polwp = 1 → n < 3 → ∀ s1, s1 = modBlock s k.b (fun blk =>
        { blk with warpRetries := (k.w, n + 1) :: blk.warpRetries.filter (·.1 != k.w) }) →
      takeFault s s.cur r = Recorded s (modGangW s1 k.b k.w k.g.gid fun g =>
        { g with wd := 0, wait := .none, replay := false }) f 0 1 n) ∧
    ((nd.kd.polwp = 2 ∨ (nd.kd.polwp = 1 ∧ 3 ≤ n)) → takeFault s s.cur r = Recorded s (endWarp s k.b k.w) f 0 2 n) ∧
    (nd.kd.polwp = 3 → nd.kd.polbk = 2 → ∀ s1, s1 = endWarp s k.b k.w → s1.nodes[f.node]? = some nd →
      takeFault s s.cur r = Recorded s (endBlock s1 k.b) f 1 2 (retriesAt s1 f 1))

/-- A fault of the helm is acted on by the policy of its block: 0 goes on at PC + 1, 2 ends the block (R198, R418). -/
def HelmFaults : Prop :=
  ∀ (s : State) (k : HCtx) (nd : Node) (r : Raise) (f : FRec) (n : Nat), helmOf s s.cur = some k →
    s.nodes[k.blk.node]? = some nd → f = faultOf s s.cur r → levelEnded s f 1 = false → ¬ Administrative r →
    n = retriesAt s f 1 →
    (nd.kd.polbk = 0 → takeFault s s.cur r = Recorded s (modHelm s k.b fun h =>
      { h with pc := h.pc + 1, wait := .none, replay := false, wd := if r.code = .watchdog then 0 else h.wd }) f 1 0 n) ∧
    ((nd.kd.polbk = 2 ∨ (nd.kd.polbk = 1 ∧ 3 ≤ n)) → takeFault s s.cur r = Recorded s (endBlock s k.b) f 1 2 n)

/-- A fault of a stream is acted on by the policy of its block; ignored, a numbered operation takes its number and counts as
abandoned (R298, R418). -/
def StreamFaults : Prop :=
  ∀ (s : State) (k : SCtx) (nd : Node) (r : Raise) (f : FRec) (n : Nat) (numbered : Bool), streamOf s s.cur = some k →
    s.nodes[k.blk.node]? = some nd → f = faultOf s s.cur r → levelEnded s f 1 = false → ¬ Administrative r →
    n = retriesAt s f 1 →
    (nd.kd.polbk = 0 → takeFault s s.cur r numbered = Recorded s (modEng s k.b k.k fun e =>
      let e1 := { e with stream := e.stream.map fun st => { st with pc := st.pc + 1, wait := .none } }
      if numbered then abandonOp { e1 with issued := e.issued + 1 } (e.issued + 1) else e1) f 1 0 n) ∧
    ((nd.kd.polbk = 2 ∨ (nd.kd.polbk = 1 ∧ 3 ≤ n)) → takeFault s s.cur r numbered = Recorded s (endBlock s k.b) f 1 2 n)

/-- A record is appended to a context's log: 128 bytes in the slot that the write index names, then the index one higher;
a log that is off takes none. The index is a partial write: on a poisoned granule it is discarded, and reported to no block (R415,
R431; the report is the reading of log 112). -/
def LogAppends : Prop :=
  ∀ (s : State) (ctx : Fin 64) (mk : Nat → Nat) (base n z : Nat), base = s.ctxs[ctx].flogBase.toNat →
    z = s.ctxs[ctx].flogSize.toNat → n = memNat s.mem base 8 → Memory.wf s.mem = true →
    (z < 4 → logFault s ctx mk = s) ∧
    (4 ≤ z → base / 32 ∈ s.badGranules → base % 32 + 8 ≤ 32 →
      memRead (logFault s ctx mk).mem base 8 = memRead s.mem base 8 ∧ (logFault s ctx mk).reports = s.reports) ∧
    (4 ≤ z → s.badGranules = [] → ∃ m w sc, logFault s ctx mk = { s with mem := m, wrote := w, scrubs := sc } ∧
      Memory.wf m = true ∧ memRead m base 8 = leBytes 8 (n + 1) ∧
      memRead m (base + 128 + 128 * (n % 2 ^ z)) 128 = leBytes 128 (mk n) ∧
      ∀ a, (a < base ∨ base + 8 ≤ a) →
        (a < base + 128 + 128 * (n % 2 ^ z) ∨ base + 256 + 128 * (n % 2 ^ z) ≤ a) → memGet m a = memGet s.mem a)

end Sys2Proof.Claims

/-- A precise fault follows the policy of its instance: ignore, retry, end or escalate; its record is appended to the fault
log of its context and it is counted for its node (R197, R198, R413, R415, R418, R419). The fields that count retries are the
model's own; where the next record goes is read from memory before each (log 31). -/
def Obligations.FaultsFollowTheirPolicies : Prop :=
  Sys2Proof.Claims.GangFaults ∧ Sys2Proof.Claims.HelmFaults ∧ Sys2Proof.Claims.StreamFaults ∧ Sys2Proof.Claims.LogAppends

namespace Sys2Proof.Claims

open Sys2Proof Sys2Proof.Machine

/-- The limit of a watchdog count: 2 to the power of WDLOG, or of 32 where that is 0 (R333, R421). -/
def Limit (nd : Node) : Nat := 2 ^ (if nd.wdlog = 0 then 32 else nd.wdlog.toNat)

/-- A gang or a helm whose count has reached the limit takes WATCHDOG at its PC, a gang with its lowest active lane; below
the limit nothing happens (R421). -/
def WatchdogFaults : Prop :=
  ∀ (s : State) (nd : Node),
    (∀ k, gangOf s s.cur = some k → s.nodes[k.blk.node]? = some nd →
      exec .watchdog s = .next (if Limit nd ≤ k.g.wd.toNat then
        takeFault s s.cur (raise .watchdog (some (lowLane (activeLanes k.wp k.g)))) else s)) ∧
    (∀ h, helmOf s s.cur = some h → s.nodes[h.blk.node]? = some nd →
      exec .watchdog s = .next (if Limit nd ≤ h.blk.helm.wd.toNat then takeFault s s.cur (raise .watchdog none) else s))

/-- A report of a failure at a home is offered as STORE_IMPRECISE to the issuer of the write, or of the FENCE.flush that closed
the cell: to a warp that has not ended at an issue of one of its gangs, from level 0; else from the block, or from the node
where the block has ended. It is not precise, no instruction stands at it, and one of a warp has SOURCE 6, the home (R146, R414,
R416). -/
def ReportsAreOffered : Prop :=
  ∀ (s : State) (i : Nat) (t : Report), s.reports[i]? = some t →
    let rest : State := { s with reports := s.reports.eraseIdx i }
    let home : Party := t.flush.getD t.party
    (reportWarp s t = false → exec (.storeImprecise i) s = .next (offer rest home false (imprecise s t none))) ∧
    (reportWarp s t = true → ∀ b w x, home = .gang b w x →
      (∀ g, s.cur = .gang b w g → exec (.storeImprecise i) s = .next (offer rest home false (imprecise s t (some g)))) ∧
      ((∀ g, s.cur ≠ .gang b w g) → exec (.storeImprecise i) s = .next s)) ∧
    ∀ gid, ∀ f, f = imprecise s t gid →
      f.r = raise .storeImprecise none t.cause.toNat t.addr ∧ f.pc = t.pc ∧ f.node = t.node ∧ f.slices = 0 ∧
      f.precise = false ∧ f.stands = false ∧ f.block = some (partyBlock home) ∧
      (t.flush = none → f.incarnation = t.incarnation ∧ f.named = none) ∧
      (∀ p, t.flush = some p → f.named.map (·.1) = some (partyBlock t.party)) ∧
      ((∃ b w x, home = .gang b w x) → f.source = 6 ∧ (f.start = 0 ↔ gid ≠ none)) ∧
      ((gid = none ∨ ¬ ∃ b w x, home = .gang b w x) →
        f.start = match s.blocks[partyBlock home]? with
          | some blk => if blk.status = .ended then 3 else 1
          | none => 3)

/-- Every register's value and every stored byte stays; what is found bad is marked so, in the lanes named for a G register
and in all lanes for a U or A register, and the error is logged; an uncorrectable error of HBM makes its channel due to be
retired. An error that the storage corrects is logged, and one of HBM counted, and nothing else (R429, R430, R434, R449; when an
error is found is log 94, which channel a granule has and how its errors count log 92). -/
def PoisonIsMarked : Prop :=
  ∀ (s : State) (b w : Nat) (blk : Block) (wp : Warp), s.blocks[b]? = some blk → blk.warps[w]? = some wp →
    (∀ (n : Fin 256) (m : LaneMask), ∀ s1, s1 = logErr s (regEvent s 1 b (if isG wp.regs[n].val then .regs else .shapes)
        (if isG wp.regs[n].val then lowLane m else 0xFF)) →
      exec (.poisonDetected (.v b w n m)) s = .next (modWarp s1 b w fun x =>
        let r := { x.regs[n] with poison := x.regs[n].poison ||| (if isG x.regs[n].val then m else BitVec.allOnes 32) }
        { x with regs := x.regs.set n r })) ∧
    (∀ (n : Fin 8) (m : LaneMask), ∀ s1, s1 = logErr s (regEvent s 1 b .regs (lowLane m)) →
      exec (.poisonDetected (.o b w n m)) s = .next (modWarp s1 b w fun x =>
        let r := { x.ofile[n] with poison := x.ofile[n].poison ||| m }
        { x with ofile := x.ofile.set n r })) ∧
    (∀ n : Fin 7, ∀ s1, s1 = logErr s (regEvent s 1 b .shapes 0xFF) →
      exec (.poisonDetected (.p b w n)) s = .next (modWarp s1 b w fun x =>
        let r := { x.preds[n] with poison := BitVec.allOnes 32 }
        { x with preds := x.preds.set n r })) ∧
    (∀ n : Fin 8, ∀ s1, s1 = logErr s (regEvent s 1 b .shapes 0xFF) →
      exec (.poisonDetected (.x b w n)) s = .next (modWarp s1 b w fun x =>
        let r := { x.xd[n] with poison := true }
        { x with xd := x.xd.set n r })) ∧
    (∀ (g : Nat) (m : LaneMask), ∀ s1, s1 = logErr s (regEvent s 1 b .regs (lowLane m)) →
      exec (.poisonDetected (.latch b w g m)) s = .next (modGang s1 b w g fun x =>
        { x with latch := { x.latch with poison := x.latch.poison ||| m } })) ∧
    (∀ n : Fin 64, ∀ s1, s1 = logErr s (regEvent s 1 b .helm 0xFF) →
      exec (.poisonDetected (.s b n)) s = .next (modHelm s1 b fun h => { h with poison := h.poison.set n true })) ∧
    (∀ pa, ∃ t : State, exec (.poisonDetected (.granule pa)) s = .next t ∧ SameStores s t ∧ pa / 32 ∈ t.badGranules ∧
      ∀ g, g ≠ pa / 32 → (g ∈ t.badGranules ↔ g ∈ s.badGranules)) ∧
    (∀ off, ∃ t : State, exec (.poisonDetected (.spanWord off)) s = .next t ∧ SameStores s t ∧ off / 8 ∈ t.badSpan) ∧
    (∀ (c : Fin 256) (m : Fin 64), ∃ t : State, exec (.poisonDetected (.slot c m)) s = .next t ∧
      t.cores[c] = { s.cores[c] with badSlots := m.val :: s.cores[c].badSlots }) ∧
    (∀ (c : Fin 256) (a : Fin 48), ∃ t : State, exec (.poisonDetected (.tile c a)) s = .next t ∧
      t.cores[c] = { s.cores[c] with badTiles := a.val :: s.cores[c].badTiles }) ∧
    (∀ pa t, exec (.poisonDetected (.granule pa)) s = .next t →
      Config.channelOf (pa / 32) ∈ t.hbmStacks[(Fin.ofNat 8 (stackOf pa) : Fin 8)].due) ∧
    ∀ at_ e, storageEvent s 0 at_ = some e → ∃ h, correctedError at_ s = .next { logErr s e with hbmStacks := h } ∧
      ((∀ pa, at_ ≠ .granule pa) → h = s.hbmStacks)

/-- FRESUME takes the gang back to the instruction that entered its continuation, with the latch it saved and the bits of p0
to p6 of its own lanes; other lanes keep theirs. It waits there while STATUS is 0, issues it again on 1, and takes
PAGE_NOT_PRESENT on 2; outside a continuation it raises ILLEGAL_INSTRUCTION with cause 7 (R398, R428). -/
def FresumeReturns : Prop :=
  ∀ (s : State) (k : GCtx) (c : Ctl), gangOf s s.cur = some k →
    (k.g.contSave = none → exec (.fresume c) s =
      .next (takeFault s s.cur (raise .illegal (some (lowLane (activeLanes k.wp k.g))) 7))) ∧
    (∀ v, k.g.contSave = some v →
      (v.got = 0 → exec (.fresume c) s = .next (leaveCont s k v (.fresume v.va v.lane))) ∧
      (v.got = 1 → exec (.fresume c) s = .next (leaveCont s k v .none)) ∧
      (v.got = 2 → exec (.fresume c) s =
        .next (takeFault (leaveCont s k v .none) s.cur (raise .pageNotPresent (some v.lane) 0 v.va))) ∧
      ∀ wait k', gangOf (leaveCont s k v wait) s.cur = some k' →
        k'.g.latch = v.latch ∧ k'.g.lat = v.lat ∧ k'.g.pc = v.pc ∧ k'.g.wait = wait ∧ k'.g.contSave = none ∧
        k'.g.replay = decide (wait = .none) ∧ k'.wp.regs = k.wp.regs ∧
        ∀ (i : Fin 7) (l : Nat), l < 4 * k.wp.width.val →
          predBit k'.wp.preds[i].val l =
            (if laneBit (gangLanes k.g) l then predBit v.preds[i].val l else predBit k.wp.preds[i].val l))

end Sys2Proof.Claims

/-- The watchdog, imprecise faults, poison found in storage, and the end of a continuation (R398, R414, R421, R428 to
R430). SLICES and SOURCE of an imprecise fault's record are log 52. -/
def Obligations.WatchdogReportsPoisonAndResume : Prop :=
  Sys2Proof.Claims.WatchdogFaults ∧ Sys2Proof.Claims.ReportsAreOffered ∧ Sys2Proof.Claims.PoisonIsMarked ∧
  Sys2Proof.Claims.FresumeReturns
/-! ## Packets -/

namespace Sys2Proof.Claims

open Sys2Proof Sys2Proof.Machine

/-- The step that starts a packet of each type of R332. -/
def startOf (t qid : Nat) : Instr :=
  match t with
  | 0 => .nopPacket qid
  | 1 => .nodePacket qid
  | 2 => .graphPacket qid
  | 3 => .copyPacket qid
  | 4 => .barrierPacket qid
  | 5 => .signalPacket qid
  | _ => .xferPacket qid

/-- The command processor may start packet p, of type t, of queue q, which is registered; no copy engine has a node of a
graph to take first (R335, R345). -/
structure PacketReached (s : State) (q : Queue) (t p : Nat) : Prop where
  queue : getQueue s q.qid = some q
  type : t ≤ 6
  copy : t = 3 → readyCopy s q.qid = none
  may : canStart s q = true
  read : fetchPacket s q = .ok p

/-- What comes before a packet's own effect: one that may not start does nothing; a holding queue retires with code 0x02
whatever carries no RESYNC; a malformed packet aborts with code 0x04; one of another type is kept for its own step, so that its
slot is read once; one of a context that leaves RUN, or has left it for ERROR, aborts with code 0x07 (R330, R334, R335, R340, R341,
R442). -/
def PacketsStart : Prop :=
  (∀ (s : State) (q : Queue) (t : Nat), getQueue s q.qid = some q → t ≤ 6 → (t = 3 → readyCopy s q.qid = none) →
    canStart s q = false → canAbort s q = false → exec (startOf t q.qid) s = .next s) ∧
  (∀ (s : State) (q : Queue) (t p : Nat), getQueue s q.qid = some q → t ≤ 6 → (t = 3 → readyCopy s q.qid = none) →
    canAbort s q = true → fetchPacket s q = .ok p →
    exec (startOf t q.qid) s = .next (addFlight s q { newFlight s q p .bad with abort := 0x07, finished := true })) ∧
  ∀ (s : State) (q : Queue) (t p : Nat), PacketReached s q t p →
    ((q.holding = true ∧ pkResync p = false) →
      exec (startOf t q.qid) s = .next (addFlight s q { newFlight s q p .bad with abort := 0x02, finished := true })) ∧
    (¬(q.holding = true ∧ pkResync p = false) →
      (pkType p ≠ t → exec (startOf t q.qid) s = .next (modQueue s q.qid fun x => { x with fetched := some p })) ∧
      (pkType p = t → malformed s q p = true → exec (startOf t q.qid) s =
        .next (addFlight (if q.holding then setHolding s q false else s) q
          { newFlight s q p .bad with abort := 0x04, finished := true })))

/-- A packet that is well formed and of type t, reached by a queue that is not holding. -/
structure PacketGood (s : State) (q : Queue) (t p : Nat) : Prop where
  reached : PacketReached s q t p
  holding : q.holding = false
  type : pkType p = t
  formed : malformed s q p = false

/-- NOP completes at once. NODE: its node is ready with what was read at launch, or takes ILLEGAL_INSTRUCTION with cause 2
(R187, R188, R335). -/
def NodePackets : Prop :=
  ∀ (s : State) (q : Queue) (p : Nat),
    (PacketGood s q 0 p → exec (.nopPacket q.qid) s = .next (addFlight s q { newFlight s q p .nop with finished := true })) ∧
    (PacketGood s q 1 p →
      (∀ kd di, checkLaunch s q.ctx q.fatal p = .ok kd di → exec (.nodePacket q.qid) s =
        .next (addFlight { s with nodes := s.nodes ++ [newNode s q.ctx q.qid q.next none p kd di] } q
          (newFlight s q p (.node s.nodes.length)))) ∧
      (checkLaunch s q.ctx q.fatal p = .bad → ∃ s1, exec (.nodePacket q.qid) s =
        .next (offer s1 (.helm 0) false (nodeFault s.nodes.length (raise .illegal none 2))) ∧
        s1 = addFlight { s with nodes := s1.nodes } q (newFlight s q p (.node s.nodes.length)) ∧
        ∃ nd, s1.nodes = s.nodes ++ [nd] ∧ nd.nblocks = 0))

/-- GRAPH: a sound record with sound node records gives one node each, ready where it has no predecessor; a record that is
not sound aborts the graph with ILLEGAL_INSTRUCTION, cause 3. A reading that waits for a page keeps what it has read, and goes on
from there (R347 to R349). -/
def GraphPackets : Prop :=
  ∀ (s : State) (q : Queue) (p e nn : Nat) (bs : List Byte) (got : List GRec) (cur : Option (Nat × List Byte)),
    PacketGood s q 2 p →
    ((q.part = none ∧ hubRead s q.ctx q.fatal (pkB p 24 8) 64 = .ok bs ∧ e = leNat bs ∧ got = [] ∧ cur = none) ∨
      ∃ g, q.part = some g ∧ g.head < 2 ^ 512 ∧ e = g.head ∧ got = g.recs ∧ cur = g.cur) →
    nn = bitsOf e 64 16 →
    let sound := bitsOf e 98 414 = 0 ∧ bitsOf e 80 16 = 0 ∧ nn ≠ 0 ∧ bitsOf e 0 64 % 64 = 0 ∧ bitsOf e 56 8 = 0
    let gr : Graph :=
      { ctx := q.ctx, qid := q.qid, pidx := q.next, policy := 2, nodes := [], retries := 0, ended := false, aborted := false,
        nfault := 0, summary := 0, first := none }
    (∀ c vp kd recs cur1, sound →
      readRecs s q.ctx q.fatal nn (bitsOf e 0 64) (nn - got.length) got cur = .wait c vp kd recs cur1 → ∀ s0,
      s0 = modQueue s q.qid (fun x => { x with fetched := some p }) → exec (.graphPacket q.qid) s =
        .next (modQueue (stallQueue s0 q c vp kd) q.qid fun x => { x with part := some { head := e, recs := recs, cur := cur1 } })) ∧
    (∀ rs, sound → readRecs s q.ctx q.fatal nn (bitsOf e 0 64) (nn - got.length) got cur = .ok rs → countsAgree rs = true →
      s.counters + nn ≤ 262144 → exec (.graphPacket q.qid) s =
        .next (breakCycle (addFlight { s with
            nodes := s.nodes ++ graphNodes s q s.graphs.length s.nodes.length rs
            graphs := s.graphs ++ [{ gr with
              policy := BitVec.ofNat 2 (bitsOf e 96 2), nodes := (List.range nn).map (s.nodes.length + ·) }]
            counters := s.counters + nn } q (newFlight s q p (.graph s.graphs.length))) s.graphs.length)) ∧
    (¬sound → exec (.graphPacket q.qid) s =
      .next (graphFault (addFlight { s with graphs := s.graphs ++ [gr] } q (newFlight s q p (.graph s.graphs.length)))
        s.graphs.length (raise .illegal none 3)))

/-- COPY: one that names the span aborts with code 0x06; else its row is written, or waits. A ready COPY node of a graph of
the queue goes before (R345, R350). -/
def CopyPackets : Prop :=
  (∀ (s : State) (q : Queue) (p : Nat), PacketGood s q 3 p →
    (copySpan (copyJob p) = true → exec (.copyPacket q.qid) s =
      .next (addFlight s q { newFlight s q p (.copy (copyJob p)) with abort := 0x06 })) ∧
    (copySpan (copyJob p) = false → exec (.copyPacket q.qid) s =
      .next (pumpCopyPacket (addFlight s q (newFlight s q p (.copy (copyJob p)))) q.qid q.next))) ∧
  (∀ (s : State) (qid n : Nat), readyCopy s qid = some n → exec (.copyPacket qid) s = .next (pumpCopyNode s n)) ∧
  ∀ (s t : State) (ctx : Fin 64) (why : FabFor) (j : CopyJob) (src dst len : Nat) (ws : Lines) (fl : Flags),
    j.fatal = none → j.row.kind = .raw src dst len →
    rawRow { s with reports := [] } { who := none, ctx := ctx, tag := noTag, b := none, why := fun _ => why }
      j.ver [] j.row src dst len = .ok (t, ws, fl) →
    (runCopy s ctx why j).s =
      { (match j.ver with | some n => writeVersioned t noTag n ws | none => t) with reports := s.reports } ∧ (runCopy s ctx why j).j.written = true ∧
    (runCopy s ctx why j).failed = false ∧ (runCopy s ctx why j).flags = fl

/-- SIGNAL performs its operation at once on an aligned word of device memory that is sound. XFER requests a version of the
warps of a running node where it is loaded, else aborts with code 0x05; a node that has not started or has ended makes it
do nothing (R335, R338, R344). -/
def SignalAndXferPackets : Prop :=
  ∀ (s : State) (q : Queue) (p : Nat),
    (PacketGood s q 5 p → ∀ op v f s1 a, op = (if bitsOf p 20 2 = 0 then SigOp.sub else if bitsOf p 20 2 = 1 then .add else .set) →
      v = BitVec.ofNat 64 (pkB p 32 8) → f = newFlight s q p (.signal op (pkB p 24 8) v) → s1 = addFlight s q f →
      findFlight s1 q.qid q.next = some ({ q with flights := q.flights ++ [f], next := q.next + 1, fatal := none, fetched := none, part := none }, f) →
      cpSent s (.signalOp q.qid q.next) = false →
      hubPlace s1 q.ctx .atomic none (pkB p 24 8) = .ok (.dev a) → poisonAt s1 (.dev a) 8 = false →
      exec (.signalPacket q.qid) s = .next (modFlight
        (rmw s1 noTag (.dev a) (sigAtom op v).1 false .b64 (sigAtom op v).2 0).1 q.qid q.next
          fun y => { y with finished := true })) ∧
    (PacketGood s q 6 p → ∀ f, f = { newFlight s q p .xfer with finished := true } →
      (startedNode s (pkB p 40 2) (pkB p 32 8) = none → exec (.xferPacket q.qid) s = .next (addFlight s q f)) ∧
      ∀ n nd, startedNode s (pkB p 40 2) (pkB p 32 8) = some n → s.nodes[n]? = some nd →
        (loadedAs s nd.ctx nd.dirIdx (pkB p 42 2) = none → exec (.xferPacket q.qid) s =
          .next (addFlight s q { f with abort := 0x05 })) ∧
        (loadedAs s nd.ctx nd.dirIdx (pkB p 42 2) ≠ none → nd.status = .ready → exec (.xferPacket q.qid) s =
          .next (requestNode (addFlight s q f) n (BitVec.ofNat 16 (pkB p 42 2)))) ∧
        (loadedAs s nd.ctx nd.dirIdx (pkB p 42 2) ≠ none → nd.status ≠ .ready → exec (.xferPacket q.qid) s =
          .next (addFlight s q f)))

/-- The write index that a queue reads: where it jumps past the ring the queue stops with ERR 1, and it never falls
back; a change of ENABLE brings the BOUNDs of its level up to date (R330, R356). -/
def WriteIndices : Prop :=
  ∀ (s : State) (q : Queue), getQueue s q.qid = some q →
    (∃ t, exec (.writeIndexObserved q.qid) s = .next t) ∧
    ((qEnabled s q = false ∨ q.stalled ≠ none ∨ q.closing = true) →
      exec (.writeIndexObserved q.qid) s = .next (writeBounds (settlePlaces s) q.level)) ∧
    (qEnabled s q = true → q.stalled = none → q.closing = false →
      (hubRead s q.ctx q.fatal q.widx 8 = .bad →
        exec (.writeIndexObserved q.qid) s = .next (settlePlaces (queueError s q 2))) ∧
      ∀ bs v, hubRead s q.ctx q.fatal q.widx 8 = .ok bs → v = leNat bs →
        ((v > q.observed ∧ v > q.readIdx + 2 ^ q.sizelog) →
          exec (.writeIndexObserved q.qid) s = .next (settlePlaces (queueError s q 1))) ∧
        (¬(v > q.observed ∧ v > q.readIdx + 2 ^ q.sizelog) → ∀ s1,
          s1 = writeBounds (settlePlaces (modQueue s q.qid fun x => { x with observed := max v x.observed })) q.level →
          (∀ x, getQueue s1 q.qid = some x → canStart s1 x = false ∧ canAbort s1 x = false) → exec (.writeIndexObserved q.qid) s = .next s1))

end Sys2Proof.Claims

/-- A queue reads its write index, and the packet it reaches starts as its type says, in order, unless the queue holds or the
packet is malformed (R187, R330, R332 to R335, R338, R341, R344, R345, R347 to R349). That an engine performs a whole row
in one step is the model's (log 19). -/
def Obligations.PacketsStartByTheirType : Prop :=
  Sys2Proof.Claims.WriteIndices ∧ Sys2Proof.Claims.PacketsStart ∧ Sys2Proof.Claims.NodePackets ∧
  Sys2Proof.Claims.GraphPackets ∧ Sys2Proof.Claims.CopyPackets ∧ Sys2Proof.Claims.SignalAndXferPackets

namespace Sys2Proof.Claims

open Sys2Proof Sys2Proof.Machine

/-- A round of a BARRIER reads every signal: any negative value aborts it with code 1, all 0 completes it, and anything else
leaves it to a later round. A round in progress keeps the values that it has read. A BARRIER without signals completes at its
start (R335, R339, R374). -/
def BarrierRounds : Prop :=
  (∀ (s : State) (q : Queue) (p : Nat), PacketGood s q 4 p → barrierSigs p = [] → exec (.barrierPacket q.qid) s =
    .next (addFlight s q { newFlight s q p (.barrier [] []) with finished := true })) ∧
  (∀ (s : State) (q : Queue) (p : Nat), PacketGood s q 4 p → barrierSigs p ≠ [] → ∃ t, exec (.barrierPacket q.qid) s = .next t) ∧
  ∀ (s : State) (q : Queue) (f : Flight) (sigs : List Nat) (got : List (Nat × Word64)) (vs : List Word64) (i : Instr),
    findFlight s q.qid f.idx = some (q, f) → f.kind = .barrier sigs got →
    (i = .barrierPoll q.qid f.idx ∨ i = .barrierRound q.qid f.idx) →
    (evaluates f = false → exec i s = .next s) ∧
    (evaluates f = true →
      (sigs.zipIdx.map fun x => readSig s q.ctx f.fatal (gotOf got x.2) x.1) = vs.map SigRead.val →
      exec i s = .next (modFlight s q.qid f.idx fun x =>
        { x with
          kind := .barrier sigs [], stalled := none, fatal := none
          abort := if ∃ v ∈ vs, v.toInt < 0 then 1 else x.abort
          finished := if (∀ v ∈ vs, ¬ v.toInt < 0) ∧ (∀ v ∈ vs, v = 0) then true else x.finished }))

/-- What a packet's retirement does at each of its stages, for a record and a signal in device memory: the record is written
whole, then the signal takes its old value less 1, or the abort code negated, unless the old value is negative; then READIDX
advances. Until it has completed or aborted nothing happens but that a SIGNAL whose operation could not be sent sends it
(R336, R340, R369). -/
def Retirement : Prop :=
  (∀ (s : State) (q : Queue) (f : Flight), findFlight s q.qid f.idx = some (q, f) →
    ((f.retired = true ∨ f.stalled ≠ none) → exec (.packetRetire q.qid f.idx) s = .next s) ∧
    (f.retired = false → f.stalled = none → flightReady s q.qid f = false →
      exec (.packetRetire q.qid f.idx) s = .next (trySignal s q.qid f.idx) ∧
      ((∀ op va v, f.kind ≠ .signal op va v) → trySignal s q.qid f.idx = s)) ∧
    (f.retired = false → f.stalled = none → flightReady s q.qid f = true →
      exec (.packetRetire q.qid f.idx) s = .next (retireSteps q.qid f.idx 12 (closeNode s f)))) ∧
  (∀ (s : State) (q : Queue) (f : Flight) (n : Nat), findFlight s q.qid f.idx = some (q, f) →
    (f.stage = .record → f.creca ≠ 0 → ∀ a, hubPlace s q.ctx .store f.fatal f.creca = .ok (.dev a) →
      retireSteps q.qid f.idx (n + 1) s = retireSteps q.qid f.idx n
        (modFlight (hubWrite s a (recordBytes s f)) q.qid f.idx fun x => { x with stage := .signal })) ∧
    (f.stage = .signal → f.failed = false → f.csiga ≠ 0 → ∀ a s1 old,
      s1 = modFlight s q.qid f.idx (fun x => { x with abort := f.abort }) →
      hubPlace s1 q.ctx .atomic f.fatal f.csiga = .ok (.dev a) → poisonAt s1 (.dev a) 8 = false →
      old = BitVec.ofNat 64 (memNat s.mem a 8) →
      retireSteps q.qid f.idx (n + 1) s = retireSteps q.qid f.idx n
        (modFlight (if old.toInt < 0 then s1 else
          hubWrite s1 a (leBytes 8 (if f.abort = 0 then old - 1 else -(f.abort.setWidth 64)).toNat)) q.qid f.idx
          fun x => { x with stage := .last })) ∧
    (f.stage = .last → f.failed = false → retireSteps q.qid f.idx (n + 1) s = retireNow s q f)) ∧
  ∀ q : Queue, (∀ f r, q.flights = f :: r → f.idx = q.readIdx → f.retired = true → ∀ n,
    advanceRead (n + 1) q = advanceRead n { q with flights := r, readIdx := q.readIdx + 1 }) ∧
    ∀ f r, q.flights = f :: r → f.retired = false → ∀ n, advanceRead n q = q

/-- A node of a graph that has completed counts each of its successors down once for each time it is listed; one that
reaches 0 becomes ready; the last one ends the graph (R350). -/
def GraphNodesComplete : Prop :=
  (∀ (s : State) (n g : Nat) (nd : Node) (j : Nat) (gr : Graph), s.nodes[n]? = some nd → nd.graph = some (g, j) →
    s.graphs[g]? = some gr →
    ((nd.status = .done ∨ nodeSettled s n = false) → exec (.graphNodeComplete n) s = .next s) ∧
    (nd.status ≠ .done → nodeSettled s n = true → ∀ s1 s2, s1 = modNode s n (fun x => { x with status := .done }) →
      s2 = (if gr.aborted then s1 else countDown s1 nd.succ) →
      (graphOver s2 g = false → exec (.graphNodeComplete n) s = .next (breakCycle s2 g)) ∧
      (graphOver s2 g = true → exec (.graphNodeComplete n) s = .next { s2 with
        graphs := s2.graphs.modify g fun x => { x with ended := true }, counters := s2.counters - gr.nodes.length }))) ∧
  ∀ (s : State) (succ : List Nat) (m : Nat) (x : Node), s.nodes[m]? = some x →
    (countDown s succ).nodes[m]? = some (
      if x.status ≠ .waiting ∨ succ.count m = 0 then x
      else if succ.count m < x.count then { x with count := x.count - succ.count m }
      else { x with count := 0, status := .ready, readyAt := s.tick })

end Sys2Proof.Claims

/-- Barrier packets evaluate in rounds, a packet that has completed or aborted retires with its record, its signal and
READIDX, and a graph's nodes follow one another (R335, R336, R339, R340, R350, R374). -/
def Obligations.PacketsEvaluateAndRetire : Prop :=
  Sys2Proof.Claims.BarrierRounds ∧ Sys2Proof.Claims.Retirement ∧ Sys2Proof.Claims.GraphNodesComplete
/-! ## The Pontoon -/

namespace Sys2Proof.Claims

open Sys2Proof Sys2Proof.Machine

/-- A warp starts at its role's entry with one gang of all its slices, every lane active: v0 and v1 hold the halves of the
argument pointer and every other register 0, all U; predicates are false, index descriptors 0, no lines held, the mask
stacks empty, tvec and cont all ones (R57, R424). The helm starts with the pointer in s0, every other register 0, its
predicates false and its decision queue empty (R58). A block is launched with these. -/
def PartiesStart : Prop :=
  ∀ (nd : Node) (j : Nat) (r : Role) (wp : Warp) (h : Helm), wp = launchWarp nd j r → h = launchHelm nd →
    (wp.width = r.nslice ∧ wp.gmax = r.gmax ∧ wp.version = nd.kd.version ∧ wp.pend = [] ∧ wp.tvec = 0xFFFFFFFF ∧
      wp.cont = 0xFFFFFFFF) ∧
    (∀ n : Fin 256, wp.regs[n] = { val := .u (if n.val = 0 then nd.args.extractLsb' 0 32
      else if n.val = 1 then nd.args.extractLsb' 32 32 else 0), poison := 0 }) ∧
    (∀ n : Fin 8, wp.ofile[n] = { val := .u 0, poison := 0 }) ∧ (∀ n : Fin 7, wp.preds[n] = { val := .u false, poison := 0 }) ∧
    (∀ k : Fin 8, wp.slices[k] =
      { live := k.val < r.nslice.val, active := if k.val < r.nslice.val then 0xF else 0, stack := [] }) ∧
    (∃ g, wp.gangs = [g] ∧ g.pc = r.entry ∧ g.slot = 1 ∧ g.wait = .none ∧ g.wd = 0 ∧
      g.latch = { val := .u 0, poison := 0 } ∧ ∀ k : Fin 8, g.slices.getLsbD k.val = decide (k.val < r.nslice.val)) ∧
    h.pc = nd.kd.helmpc ∧ (∀ n : Fin 64, h.s[n] = if n.val = 0 then nd.args else 0) ∧
    (∀ n : Fin 8, h.q[n] = false) ∧ h.stack = [] ∧ h.ended = false ∧
    (∀ n : Fin 8, wp.xd[n] = { limit := 0, vidx := 0, base := 0, poison := false }) ∧ linesHeld wp = 0 ∧
    ∀ (n : Nat) (b : Nat × Nat × Nat) (c : Fin 256) (hp off : Nat) (blk : Block), blk = launchBlock n nd b c hp off →
      blk.helm = h ∧ blk.dq = [] ∧ blk.warps = (roleWarps nd.kd).map fun x => launchWarp nd x.1 x.2

/-- The cores chosen for blocks released together are different cores of one die, one for each block, of those that have
room (R191, R194, R357). -/
def ChosenCores : Prop :=
  ∀ (s : State) (nd : Node) (idxs : List Nat) (cs xs : List (Fin 256)), cs.Nodup → chooseCores s nd idxs cs = some xs →
    xs.length = idxs.length ∧ xs.Nodup ∧ (∀ c ∈ xs, c ∈ cs) ∧ ∀ c ∈ xs, ∀ d ∈ xs, dieOf c = dieOf d

/-- A core has room for a block only where a helm position is free and, in each partition, warps and lines stay within 8 and
512 and the barriers of the core within 512 (R190, R191). -/
def RoomOnACore : Prop :=
  ∀ (s : State) (c : Fin 256) (n : Need) (h : Nat), helmFit s c n = some h →
    let bs := blocksOn s c
    h < 16 ∧ (∀ blk ∈ bs, blk.helmPos.val ≠ h) ∧ ((bs.map (·.bars.length)).foldl (· + ·) 0 + n.bars ≤ 512) ∧
    ∀ p < 16, (warpsAt bs p).length + (needAt n h p).length ≤ 8 ∧
      linesAt bs p + ((needAt n h p).map (·.2)).foldl (· + ·) 0 ≤ 512

/-- The queue that is served releases the blocks it has selected, or the next ones, on the cores chosen; where no core has room
it keeps those same blocks selected and its turn passes; a queue with an evicted block ready releases none (R353 to R359,
R394). -/
def BlocksAreReleased : Prop :=
  ∀ (s s1 : State),
    (serve s = (s1, none) → exec .blockRelease s = .next s1) ∧
    ∀ qid q, serve s = (s1, some qid) → getQueue s1 qid = some q →
      (readyEvicted s1 qid ≠ none ∨ selectedBatch s1 q = none → exec .blockRelease s = .next s1) ∧
      (readyEvicted s1 qid = none → ∀ b nd cs, selectedBatch s1 q = some b → s1.nodes[b.node]? = some nd →
        cs = (List.finRange 256).filter (fun c => coreOpen s1 qid c && (helmFit s1 c nd.kd.need).isSome) →
        (chooseCores s1 nd (b.blocks.map (·.1)) cs = none → exec .blockRelease s = .next (modQueue s1 qid fun x =>
          { x with turn := false, selected := some b.node, pick := b.blocks
                   selectedAt := if (keptBatch s1 q).isSome then x.selectedAt else s1.now
                   reserved := if (keptBatch s1 q).isSome then x.reserved else [] })) ∧
        ∀ xs, chooseCores s1 nd (b.blocks.map (·.1)) cs = some xs →
          exec .blockRelease s = .next (releaseBatch s1 b nd xs)) ∧
      (∀ n nd, q.selected = some n → s1.nodes[n]? = some nd → nd.status = .ready → q.pick ≠ [] →
        (∀ r ∈ q.pick, r ∈ nd.redo ∨ nd.next ≤ r.1) → selectedBatch s1 q = some { node := n, blocks := q.pick })

/-- A block of a batch is put on its core with a free helm position and a free range of the span, and nothing else changes
but its node's note of where it ran (R191, R244). -/
def OneIsReleased : Prop :=
  ∀ (s : State) (n : Nat) (nd : Node) (b : Nat × Nat × Nat) (c : Fin 256) (h off : Nat), helmFit s c nd.kd.need = some h →
    spanPlace s c nd.kd.span = some off → ∃ t, releaseOne n nd s (b, c) = t ∧
      t = { s with blocks := t.blocks, spanRanges := t.spanRanges, nodes := t.nodes } ∧
      t.blocks = s.blocks ++ [launchBlock n nd b c h off] ∧
      (nd.kd.span ≠ 0 → t.spanRanges =
        s.spanRanges ++ [{ off := off, len := nd.kd.span, ctx := nd.ctx, clearing := false }]) ∧
      (nd.kd.span ≠ 0 → c.val * 0x200000 ≤ off ∧ off + nd.kd.span ≤ (c.val + 1) * 0x200000 ∧
        ∀ r ∈ s.spanRanges, off + nd.kd.span ≤ r.off ∨ r.off + r.len ≤ off)

/-- Cores are kept for a block that has waited 2^22 core-cycles; a block that has gathered 2^20 core-cycles is charged for
them (R352, R359). -/
def WaitsAndCharges : Prop :=
  (∀ (s : State) (q : Queue), getQueue s q.qid = some q →
    ((keptBatch s q = none ∨ q.reserved ≠ [] ∨ 256 * (s.now - q.selectedAt) < 2 ^ 22) →
      exec (.selectedBlockTimeout q.qid) s = .next s) ∧
    (q.reserved = [] → 2 ^ 22 ≤ 256 * (s.now - q.selectedAt) → ∀ b nd cs, keptBatch s q = some b →
      s.nodes[b.node]? = some nd →
      chooseCores s nd (b.blocks.map (·.1)) ((List.finRange 256).filter (coreOpen s q.qid)) = some cs →
      exec (.selectedBlockTimeout q.qid) s = .next (modQueue s q.qid fun x => { x with reserved := cs }))) ∧
  ∀ (s : State) (b : Nat) (blk : Block), s.blocks[b]? = some blk →
    (blk.charge < 2 ^ 20 * chargeUnit → exec (.interimCharge b) s = .next s) ∧
    (2 ^ 20 * chargeUnit ≤ blk.charge → exec (.interimCharge b) s =
      .next (takeCharge (modBlock s b fun x => { x with charge := x.charge - 2 ^ 20 * chargeUnit }) blk (2 ^ 20)))

/-- A block ends once its helm and its warps have ended, its streams have stopped, its operations have completed, no copy
targets its span and its buffered atomics are performed; it then gives back what it holds (R142, R192, R244, R279). -/
def BlocksEnd : Prop :=
  ∀ (s : State) (b : Nat) (blk : Block), s.blocks[b]? = some blk →
    (mayEnd s blk = true ↔ (blk.status = .resident ∨ blk.status = .ending) ∧ blk.helm.ended = true ∧
      (∀ wp ∈ blk.warps, warpEnded wp = true) ∧ spanTargeted s blk = false ∧
      ∀ k : Fin 4, streamRuns blk.ctxs[k] = false ∧ blk.ctxs[k].ops = []) ∧
    (mayEnd s blk = false → exec (.blockEnd b) s = .next s) ∧
    (mayEnd s blk = true → ∀ x, (drain s b).blocks[b]? = some x → x.buffer ≠ [] →
      exec (.blockEnd b) s = .next (drain s b)) ∧
    (mayEnd s blk = true → (∀ x, (drain s b).blocks[b]? = some x → x.buffer = []) → ∃ t, exec (.blockEnd b) s = .next t ∧
      t = endCheck (closeBlock (takeCharge (drain s b) blk (blk.charge / chargeUnit)) b blk) blk.node ∧
      (∃ x, t.blocks[b]? = some x ∧ x.status = .ended) ∧ (∀ m : Fin 64, t.cores[blk.core].slots[m].owner ≠ some b) ∧
      ∀ a : Fin 48, t.cores[blk.core].tiles[a].owner ≠ some b)

end Sys2Proof.Claims

/-- The Pontoon releases the blocks of the queue it serves on cores that have room, with warps and helm as they start, and
takes a block's resources back when it ends (R57, R58, R142, R190 to R194, R244, R352 to R359). Charges are the model's clock
(log 10), and where in its slice a span lies is log 55. -/
def Obligations.BlocksAreReleasedAndEnd : Prop :=
  Sys2Proof.Claims.PartiesStart ∧ Sys2Proof.Claims.ChosenCores ∧ Sys2Proof.Claims.RoomOnACore ∧
  Sys2Proof.Claims.BlocksAreReleased ∧ Sys2Proof.Claims.OneIsReleased ∧ Sys2Proof.Claims.WaitsAndCharges ∧
  Sys2Proof.Claims.BlocksEnd

namespace Sys2Proof.Claims

open Sys2Proof Sys2Proof.Machine

/-- A block is frozen with its whole cluster, and saved where its engine work is at rest, where every block of it qualifies and
their images fit in the save pool; else the request lapses. A frozen block is saved later (R387, R388, R390). -/
def Evicts : Prop :=
  ∀ (s : State) (b : Nat) (blk : Block) (ms : List (Nat × Block)), s.blocks[b]? = some blk → ms = clusterMates s b →
    let fits := (∀ m ∈ ms, mayFreeze m.2 = true) ∧ (∃ m ∈ ms, m.1 = b) ∧
      poolTaken s blk.ctx + (ms.map fun m => (sized s m.1 m.2).size).foldl (· + ·) 0 ≤ 65536 * s.ctxs[blk.ctx].poolLen.toNat
    (blk.status = .saving → exec (.blockEvict b) s = .next (saveImage s b)) ∧
    (blk.status ≠ .saving → ¬fits → exec (.blockEvict b) s = .next s) ∧
    (blk.status ≠ .saving → fits →
      exec (.blockEvict b) s = .next (ms.foldl (fun t m => saveImage (freeze t m.1) m.1) s)) ∧
    ∀ x : Block, mayFreeze x = true → x.status = .resident ∧ helmStands x.helm = true ∧
      ∀ wp ∈ x.warps, warpEnded wp = false → ∀ g ∈ wp.gangs, atBlocking g.wait = true

/-- A block none of whose loads can return. -/
def NothingLands (blk : Block) : Prop :=
  (∀ wp ∈ blk.warps, ∀ p ∈ wp.pend, pendReady p = false) ∧ ∀ p ∈ blk.helm.pend, hpendReady p = false

/-- A frozen block issues nothing; once its engine work is at rest it is saved: it keeps its registers, holds the contents of its
slots and tiles in its image, and none of them on its core; the segment at which an MMAG stands starts again. One with nothing
left to go on with stays to end, and so does one whose image no longer fits (R192, R326, R387, R389, R390, R392). -/
def Freezes : Prop :=
  ∀ (s : State) (b : Nat) (blk : Block), s.blocks[b]? = some blk → NothingLands blk →
    (blk.status ≠ .resident → ∀ p, partyBlock p = b → issue s p = .next { s with cur := p }) ∧
    (blk.buffer = [] → freeze s b = modBlock s b fun x => { x with status := .saving, woken := false }) ∧
    (blk.status = .saving → blk.buffer = [] → blockRests s b blk = false → saveImage s b = s) ∧
    (blk.status = .saving → blockRests s b blk = true →
      (hasWaiter blk = false ∨ 65536 * s.ctxs[blk.ctx].poolLen.toNat < poolUsed s blk.ctx + (sized s b blk).size) →
      saveImage s b = modBlock s b fun x => { x with status := .resident, woken := false, warps := x.warps.map settle }) ∧
    (∀ o, (savedOp o).n = o.n ∧ (savedOp o).rows.map (·.kind) = o.rows.map (·.kind) ∧ (isSeg o = false → savedOp o = o)) ∧
    (blk.status = .saving → blockRests s b blk = true → hasWaiter blk = true →
      poolUsed s blk.ctx + (sized s b blk).size ≤ 65536 * s.ctxs[blk.ctx].poolLen.toNat → ∃ im x, im = sized s b blk ∧
      (saveImage s b).blocks[b]? = some x ∧
      x = { blk with status := .evicted false, away := true, image := some im, ctxs := x.ctxs } ∧
      (∀ k : Fin 4, x.ctxs[k].ops = blk.ctxs[k].ops.map savedOp ∧ x.ctxs[k].issued = blk.ctxs[k].issued ∧
        x.ctxs[k].done = blk.ctxs[k].done ∧ ∀ st, x.ctxs[k].stream = some st → st.granted = none) ∧
      (∀ m : Fin 64, s.cores[blk.core].slots[m].owner = some b → (m.val, s.cores[blk.core].slots[m]) ∈ im.slots) ∧
      (∀ a : Fin 48, s.cores[blk.core].tiles[a].owner = some b → (a.val, s.cores[blk.core].tiles[a]) ∈ im.tiles) ∧
      (∀ m : Fin 64, (saveImage s b).cores[blk.core].slots[m].owner ≠ some b) ∧
      ∀ a : Fin 48, (saveImage s b).cores[blk.core].tiles[a].owner ≠ some b)

/-- An evicted block whose wake condition is met, or was met since it was frozen, becomes ready: a write that reaches a word that a
WAITA of it watches meets it. The queue served next restores its ready block with its cluster where the core has room (R389, R394,
R396). -/
def WakesAndReturns : Prop :=
  ∀ (s : State) (b : Nat) (blk : Block), s.blocks[b]? = some blk →
    (∀ w ∈ blk.warps, ∀ g ∈ w.gangs, ∀ d m ls cmp size acq x, g.wait = .waita d m ls cmp size acq → x ∈ ls →
      wordWritten s x.loc size.bytes = true → blockWakes s blk = true) ∧
    ((blk.status = .saving ∨ blk.status = .evicted false) → blockWakes s blk = true → (noteWake s blk).woken = true) ∧
    (blk.status = .evicted false → (blk.woken = true ∨ blockWakes s blk = true) →
      exec (.blockWake b) s = .next (modBlock s b fun x => { x with status := .evicted true })) ∧
    ((blk.status ≠ .evicted false ∨ (blk.woken = false ∧ blockWakes s blk = false)) → exec (.blockWake b) s = .next s) ∧
    ∀ s1, (serve s = (s1, none) → exec (.blockRestore b) s = .next s1) ∧
      ∀ qid, serve s = (s1, some qid) →
        ((qid ≠ queueOfBlock s blk ∨ readyEvicted s1 qid ≠ some b) → exec (.blockRestore b) s = .next s1) ∧
        (qid = queueOfBlock s blk → readyEvicted s1 qid = some b →
          ((∀ m ∈ clusterMates s1 b, mayRestore s1 m.2 = true) →
            exec (.blockRestore b) s = .next ((clusterMates s1 b).foldl (fun t m => restoreOne t m.1) s1)) ∧
          (¬(∀ m ∈ clusterMates s1 b, mayRestore s1 m.2 = true) →
            exec (.blockRestore b) s = .next (modQueue s1 qid fun q => { q with turn := false })))

/-- A slot and a tile of an image go back to a core under their own numbers, with owner, contents and marks (R396). -/
def ImageGoesBack : Prop :=
  ∀ (c : Core) (im : Image), (im.slots.map (·.1)).Nodup → (im.tiles.map (·.1)).Nodup →
    (∀ x ∈ im.slots, x.1 < 64) → (∀ x ∈ im.tiles, x.1 < 48) →
    (∀ x ∈ im.slots, (putImage c im).slots[x.1]? = some x.2) ∧ (∀ x ∈ im.tiles, (putImage c im).tiles[x.1]? = some x.2) ∧
    (∀ m : Fin 64, (∀ x ∈ im.slots, x.1 ≠ m.val) → (putImage c im).slots[m] = c.slots[m]) ∧
    (∀ a : Fin 48, (∀ x ∈ im.tiles, x.1 ≠ a.val) → (putImage c im).tiles[a] = c.tiles[a])

/-- What fabric memory returns for a load of an evicted block lands in the saved block (R395). -/
def LandsInTheImage : Prop :=
  ∀ (s : State) (id : Nat) (data : List Byte) (o : FabOp) (b w pid lane : Nat), s.fabOps.find? (fun x => x.id = id && !x.held) = some o →
    o.why = .load b w pid lane → (∀ v, mergeAgain o v = none) →
    let s0 : State := { s with fabOps := s.fabOps.filter (·.id != id) }
    (isEvicted s b = false → exec (.fabricLoadIntoImage id data) s = .next s) ∧
    (isEvicted s b = true → ∀ s1, s1 = modPend s0 b w pid (takeData lane (returned o data)) →
      ∀ b1 w1 p, findPend s1 pid = some (b1, w1, p) →
        exec (.fabricLoadIntoImage id data) s = .next (if pendReady p then landPend s1 b w p else s1))

end Sys2Proof.Claims

/-- A block leaves its core with its cluster, wakes on its conditions and returns to the same core, and no value of it
changes (R387 to R396). How an image is kept is log 56, where page services reach a saved block log 58, which blocks
are about to end log 59, which writes wake one log 61, what asks for an eviction log 88, and the size of a destination on its way
log 114. -/
def Obligations.BlocksLeaveAndReturn : Prop :=
  Sys2Proof.Claims.Evicts ∧ Sys2Proof.Claims.Freezes ∧ Sys2Proof.Claims.WakesAndReturns ∧
  Sys2Proof.Claims.ImageGoesBack ∧ Sys2Proof.Claims.LandsInTheImage
/-! ## Pages: service, shootdown, migration, prefetch -/

namespace Sys2Proof.Claims

open Sys2Proof Sys2Proof.Machine

/-- The MMU of a die writes one record for a page, whatever the number of accesses that wait for it: VPAGE, CTX and KIND with
STATUS 0 in the slot of the write index, which then goes on by one. Where the slot is still held, or records wait for slots
already, the record waits behind them (R380, R382; log 31). -/
def RecordsAreWritten : Prop :=
  ∀ (s : State) (ctx : Fin 64) (va vp n : Nat) (kind : BitVec 4) (who : Option (Fin 256)), vp = va / 65536 * 65536 →
    n = memNat s.mem s.ctxs[ctx].fring.toNat 8 →
    let mine (slot : Option Nat) : RingRec := { ctx := ctx.val, die := who.map dieOf, n := slot, vpage := vp, kind := kind }
    let known := ∃ r ∈ s.ring, r.ctx = ctx.val ∧ r.die = who.map dieOf ∧ r.vpage = vp
    let waits := slotHeld s ctx n = true ∨ ∃ r ∈ s.ring, r.ctx = ctx.val ∧ r.n = none
    (known → ringFault s ctx va kind who = s) ∧
    (¬known → waits → ringFault s ctx va kind who = { s with ring := s.ring ++ [mine none] }) ∧
    (¬known → ¬waits → Memory.wf s.mem = true → s.badGranules = [] → ∃ m w sc, ringFault s ctx va kind who =
        { s with mem := m, ring := s.ring ++ [mine (some n)], wrote := w, scrubs := sc } ∧
      let a := s.ctxs[ctx].fring.toNat
      memNat m (ringAddr s ctx n) 32 = vp % 2 ^ 56 * 2 ^ 64 + ctx.val * 256 + kind.toNat ∧
      memNat m a 8 = (n + 1) % 2 ^ 64 ∧
      ∀ x, (x < a ∨ a + 8 ≤ x) → (x < ringAddr s ctx n ∨ ringAddr s ctx n + 32 ≤ x) → memGet m x = memGet s.mem x)

/-- The STATUS of a fault-ring record decides: 0 leaves everything as it is, 1 replays every access of its MMU that waits for
its page, any other value is fatal for them; the slot is then free for records that wait for one (R380, R382). -/
def FaultsAreServed : Prop :=
  ∀ (s : State) (ctx n st : Nat) (r : RingRec), s.ring.find? (fun r => r.ctx = ctx && r.n = some n) = some r →
    st = memNat s.mem (ringAddr s (Fin.ofNat 64 ctx) n + 24) 8 →
    let s1 := fillRing (Fin.ofNat 64 ctx) s.ring.length { s with ring := s.ring.filter (· != r) }
    (st = 0 → exec (.faultService ctx n) s = .next s) ∧
    (st = 1 → exec (.faultService ctx n) s = .next (servePage s1 ctx r.vpage .replay r.die)) ∧
    (st ≠ 0 → st ≠ 1 → exec (.faultService ctx n) s = .next (servePage s1 ctx r.vpage .fatal r.die))

/-- On a replay a gang, a helm and a stream that wait for the page issue their instruction again, at the same PC; those that
wait for another page wait on. A gang that stood at FRESUME's blocking point counts its watchdog anew, and one in its
continuation only keeps the STATUS (R380, R398, R421, R428). A block whose core lies on another die is left as it is (log 58).
-/
def WaitersReplay : Prop :=
  (∀ (ctx vp bctx c va lane : Nat) (g : Gang), g.wait = .page c va lane → g.contSave = none →
    serveGang ctx vp .replay bctx g =
      if c = ctx ∧ va / 65536 * 65536 = vp then { g with wait := .none, replay := true } else g) ∧
  (∀ (ctx vp bctx va lane : Nat) (g : Gang), g.wait = .fresume va lane → g.contSave = none →
    serveGang ctx vp .replay bctx g =
      if bctx = ctx ∧ va / 65536 * 65536 = vp then { g with wait := .none, replay := true, wd := 0 } else g) ∧
  (∀ (ctx vp : Nat) (v : Verdict) (die : Option (Fin 4)) (blk : Block), die ≠ some (dieOf blk.core) →
    serveBlock ctx vp v die blk = blk) ∧
  (∀ (ctx vp bctx : Nat) (g : Gang) (c : ContSave), g.wait = .none → g.contSave = some c → bctx = ctx →
    c.va / 65536 * 65536 = vp →
    serveGang ctx vp .replay bctx g = { g with contSave := some { c with got := 1 } } ∧
    serveGang ctx vp .fatal bctx g = { g with contSave := some { c with got := 2 } }) ∧
  (∀ (ctx vp c va : Nat) (h : Helm), h.wait = .page c va → serveHelm ctx vp .replay h =
    if c = ctx ∧ va / 65536 * 65536 = vp then { h with wait := .none, replay := true } else h) ∧
  (∀ (ctx vp c va : Nat) (drop : Bool) (st : Stream), st.wait = .page c va drop → serveStream ctx vp .replay st =
    if c = ctx ∧ va / 65536 * 65536 = vp then { st with wait := .none } else st)

/-- On a fatal verdict a gang whose access waits for the page takes PAGE_NOT_PRESENT with the lane and address of that access; one
that an earlier fault of the same moment has ended has it recorded all the same (R380, R417, R420). -/
def WaitersFault : Prop :=
  (∀ (s : State) (b w g : Nat) (k : GCtx) (ctx vp va lane : Nat), gangOf s (.gang b w g) = some k →
    k.g.wait = .page ctx va lane →
    (va / 65536 * 65536 = vp → fatalRec ctx vp s (.party (.gang b w g)) =
        some (.gang b w g, faultOf s (.gang b w g) (raise .pageNotPresent (some lane) 0 va)) ∧
      ∀ x, fatalOne ctx vp s (.party (.gang b w g), x) =
        takeFault (modGangW s b w g fun y => { replayGang y with replay := false }) (.gang b w g)
          (raise .pageNotPresent (some lane) 0 va)) ∧
    (va / 65536 * 65536 ≠ vp → fatalRec ctx vp s (.party (.gang b w g)) = none)) ∧
  ∀ (s : State) (ctx vp : Nat) (v : Victim) (p : Party) (f : FRec), fatalRec ctx vp s v = none →
    fatalOne ctx vp s (v, p, f) = offer s p false f

/-- SDGO submits what the session's four words hold; a request with a reserved bit, a misaligned PTEADDR or a context without
a valid record, or while BUSY is 1, is refused at once: DONE rises, RESULT is 1, and nothing else changes (R383). -/
def ShootdownsAreSubmitted : Prop :=
  ∀ (s : State) (i : Fin 16) (e : Nat) (w : Vector Word64 4), s.boot = .up → s.sessions[i].isOpen = true →
    s.sessions[i].finished = true → w = s.sessions[i].sdWords →
    e = w[0].toNat + w[1].toNat * 2 ^ 64 + w[2].toNat * 2 ^ 128 + w[3].toNat * 2 ^ 192 →
    let refused := bitsOf e 70 2 ≠ 0 ∨ bitsOf e 56 8 ≠ 0 ∨ bitsOf e 72 56 % 16 ≠ 0 ∨
      s.ctxs[Fin.ofNat 64 (bitsOf e 64 6)].valid = false ∨ s.sessions[i].sdBusy = true
    let said (t : State) : State := { t with out := t.out ++ [.mgmtOk] }
    let upd (x : Session) : Vector Session 16 := s.sessions.set i x
    (refused → exec (.sdgo i.val) s =
      .next (said { s with sessions := upd { s.sessions[i] with sdDone := s.sessions[i].sdDone + 1, sdResult := 1 } })) ∧
    let sh : Shoot :=
      { session := some i, own := false, ctx := Fin.ofNat 64 (bitsOf e 64 6), vbase := bitsOf e 16 40 * 65536,
        npages := bitsOf e 0 16 + 1, pteAddr := bitsOf e 72 56, newPte := BitVec.ofNat 128 (e / 2 ^ 128) }
    (¬refused → exec (.sdgo i.val) s =
      .next (said { s with sessions := upd { s.sessions[i] with sdBusy := true }, shoots := s.shoots ++ [sh] }))

/-- A shootdown waits while an access that a core issued through the range is still to be performed. Then no TLB of a core or
a die holds a translation of the range, the entry holds NEWPTE, and the session reads BUSY 0, RESULT 0 and DONE one higher
(R383). -/
def ShootdownsComplete : Prop :=
  (∀ (s : State) (sh : Shoot), nextShoot s = some sh →
    ((∃ x ∈ s.blocks.zipIdx, accessOpen s sh x = true) → exec .shootdownComplete s = .next s) ∧
    ((∀ x ∈ s.blocks.zipIdx, accessOpen s sh x = false) → ∀ s1, s1 = { shootDown s sh with shoots := s.shoots.erase sh } →
      (sh.own = true → exec .shootdownComplete s = .next (migStep s1 sh)) ∧
      (sh.own = false → sh.session = none → exec .shootdownComplete s = .next s1) ∧
      ∀ i, sh.own = false → sh.session = some i →
        let x : Session := { s1.sessions[i] with sdBusy := false, sdDone := s1.sessions[i].sdDone + 1, sdResult := 0 }
        exec .shootdownComplete s = .next { s1 with sessions := s1.sessions.set i x })) ∧
  ∀ (s : State) (sh : Shoot),
    (∀ c : Fin 256, ∀ t ∈ (shootDown s sh).cores[c].tlb, t ∈ s.cores[c].tlb ∧ sh.hits t = false) ∧
    (∀ d : Fin 4, ∀ t ∈ (shootDown s sh).dieTlb[d], t ∈ s.dieTlb[d] ∧ sh.hits t = false) ∧
    (sh.pteAddr = 0 → (shootDown s sh).mem = s.mem) ∧
    (sh.pteAddr ≠ 0 → Memory.wf s.mem = true → s.badGranules = [] → memRead (shootDown s sh).mem sh.pteAddr 16 = leBytes 16 sh.newPte.toNat ∧
      ∀ a, (a < sh.pteAddr ∨ sh.pteAddr + 16 ≤ a) → memGet (shootDown s sh).mem a = memGet s.mem a)

/-- Requests are served in the order in which they arrive, but that one whose range holds a migrating page waits, and the
migration's own steps go before it (R383). -/
def ShootdownsKeepOrder : Prop :=
  ∀ (s : State) (sh : Shoot) (r : List Shoot), s.shoots = sh :: r →
    (shootBlocked s sh = false → nextShoot s = some sh) ∧
    (shootBlocked s sh = true → ∀ x, nextShoot s = some x → x ∈ s.shoots ∧ x.own = true)

/-- A migration of a mapped page begins with the shootdown that sets MIG in its entry; one into a frame of the staging pool takes
that frame. A request for a page that is migrating, or already waits, does nothing; one for a page with an open cell waits until
its cells close (R360, R384, R385). -/
def PagesMove : Prop :=
  ∀ (s : State) (ctx va dst vp a e len : Nat) (tier : Bool) (ep : BitVec 8) (c : Fin 64), c = Fin.ofNat 64 ctx →
    vp = va / len * len →
    let r : MigReq := { ctx := c, va := va, tier := tier, ep := ep.toNat, dst := some dst, hint := none }
    let known := (∃ x ∈ s.migWait, x.ctx = c ∧ x.va / 65536 = va / 65536) ∨
      ∃ m ∈ s.migs, m.ctx = c ∧ m.va ≤ va ∧ va < m.va + m.len
    let cell := bitsOf e 5 1 = 0 ∧ cellIn s (pteAddr e) (frameLen s c e len) = true
    let ask : Instr := .migrationRequest ctx va tier ep dst
    (known → exec ask s = .next s) ∧
    (entryOf s.mem va levels s.ctxs[c].root.toNat = none → exec ask s = .next s) ∧
    (¬known → inSpan va = false → s.ctxs[c].valid = true →
      entryOf s.mem va levels s.ctxs[c].root.toNat = some (a, e, len) →
      (cell → exec ask s = .next { s with migWait := s.migWait ++ [r] }) ∧
      (¬cell →
        let new := bitsOf e 8 6 * 256 + bitsOf e 0 5 + (if tier then 32 + ep.toNat * 2 ^ 16 else 0) + dst % 2 ^ 56 * 2 ^ 64
        let m : Mig := { ctx := c, va := vp, len := len, pteAddr := a, oldPte := BitVec.ofNat 128 e,
                         newPte := BitVec.ofNat 128 new, copied := false, hint := none }
        let sh : Shoot := { session := none, own := true, ctx := c, vbase := vp, npages := len / 65536, pteAddr := a,
                            newPte := BitVec.ofNat 128 (e ||| 64) }
        let taken : Staged := { frame := dst, ctx := c, va := vp, len := len, home := BitVec.ofNat 128 e, last := s.tick }
        exec ask s = .next { s with
          migs := s.migs ++ [m], shoots := s.shoots ++ [sh]
          staged := if tier = false ∧ dst / 65536 ∈ Config.staging then s.staged ++ [taken] else s.staged }))

/-- Once the bytes of a migrating page are copied, the shootdown of its new entry is requested, or, where the copy failed or met
poison, that of the old one. With it the migration ends, and the accesses that its entry held come next, those through another
address that the entry maps among them, in the order in which they arrived (R384 to R386). -/
def PagesArrive : Prop :=
  (∀ (s : State) (i : Nat) (ok : Bool) (m : Mig), s.migs[i]? = some m →
    let open_ := m.copied = true ∨ ∃ sh ∈ s.shoots, sh.own = true ∧ sh.ctx = m.ctx ∧ sh.vbase = m.va
    let bad := bitsOf m.oldPte.toNat 5 1 = 0 ∧
      poisonAt s (.dev (pteAddr m.oldPte.toNat)) (frameLen s m.ctx m.oldPte.toNat m.len) = true
    let step (p : BitVec 128) : Shoot :=
      { session := none, own := true, ctx := m.ctx, vbase := m.va, npages := m.len / 65536, pteAddr := m.pteAddr, newPte := p }
    let done (x : Mig) : Mig := if x = m then { x with copied := true } else x
    let asks (t : State) (p : BitVec 128) : State := { t with migs := t.migs.map done, shoots := t.shoots ++ [step p] }
    (open_ → exec (.migrationCopyDone i ok) s = .next s) ∧
    (¬open_ → ok = true → ¬bad → exec (.migrationCopyDone i ok) s = .next (asks (copyFrame s m) m.newPte)) ∧
    (¬open_ → (ok = false ∨ bad) → exec (.migrationCopyDone i ok) s = .next (asks s m.oldPte))) ∧
  ∀ (s : State) (sh : Shoot),
    ((∀ m ∈ s.migs, ¬(m.ctx = sh.ctx ∧ m.va = sh.vbase ∧ m.copied = true)) → migStep s sh = s) ∧
    ∀ m, s.migs.find? (fun m => m.ctx = sh.ctx && m.va = sh.vbase && m.copied) = some m →
      let mine (h : Nat × Nat × Held) : Bool := m.holds s h.1 h.2.1
      ∃ frames, migStep s sh = { s with
        migs := s.migs.filter (· != m)
        staged := frames
        agenda := ((s.migHeld.filter mine).map fun h => Move.resume h.1 h.2.1 h.2.2) ++ s.agenda
        migHeld := s.migHeld.filter fun h => !mine h } ∧
      ∀ ctx va, (m.ctx.val = ctx ∧ m.va ≤ va ∧ va < m.va + m.len) ∨
        (∃ e len, entryOf s.mem va levels s.ctxs[(Fin.ofNat 64 ctx : Fin 64)].root.toNat = some (m.pteAddr, e, len)) →
        m.holds s ctx va = true

/-- The copy between two frames of device memory takes the bytes over and leaves every line of both at version 0 (R384,
R385). -/
def FrameCopy : Prop :=
  ∀ (s : State) (m : Mig) (src dst n : Nat), bitsOf m.oldPte.toNat 5 1 = 0 → bitsOf m.newPte.toNat 5 1 = 0 →
    src = pteAddr m.oldPte.toNat → dst = pteAddr m.newPte.toNat → n = frameLen s m.ctx m.oldPte.toNat m.len → n % 128 = 0 →
    src % 128 = 0 → dst % 128 = 0 → s.homesWf = true →
    (∀ i < n, memGet (copyFrame s m).mem (dst + i) = memGet s.mem (src + i)) ∧
    (∀ a, (a < dst ∨ dst + n ≤ a) → memGet (copyFrame s m).mem a = memGet s.mem a) ∧
    ∀ l, ((src / 128 ≤ l ∧ l < (src + n) / 128) ∨ (dst / 128 ≤ l ∧ l < (dst + n) / 128)) →
      memGet (copyFrame s m).lineVer l = 0

/-- A hint of a NODE or GRAPH packet that has not started asks for the pages of its adapter's factors that lie in fabric
memory; a hint that names no usable entry, or a packet that is no NODE or GRAPH, does nothing (R346, R360). -/
def AdaptersArePrefetched : Prop :=
  ∀ (s : State) (q : Queue) (n h p ea : Nat) (bs : List Byte), getQueue s q.qid = some q → q.resident = true →
    q.next ≤ n → n < q.observed → n < q.next + 64 → hintsOpen s < 256 →
    hubRead s q.ctx none (q.ring + 64 * (n % 2 ^ q.sizelog)) 64 = .ok bs → p = leNat bs →
    ea = (pkB p 48 8 + 64 * pkB p (56 + 2 * h) 2) % 2 ^ 56 →
    (((pkType p ≠ 1 ∧ pkType p ≠ 2) ∨ bitsOf p 12 4 ≤ h ∨ 4 < bitsOf p 12 4) →
      exec (.adapterPrefetch q.qid n h) s = .next s) ∧
    ((pkType p = 1 ∨ pkType p = 2) → h < bitsOf p 12 4 → bitsOf p 12 4 ≤ 4 → ∀ bytes,
      auxBytes s none q.ctx .load 64 ea = .ok bytes →
      (adapterEnt bytes = none → exec (.adapterPrefetch q.qid n h) s = .next s) ∧
      ∀ en, adapterEnt bytes = some en → exec (.adapterPrefetch q.qid n h) s =
        .next ((pagesOf en.abase (en.rank * en.ald) ++ pagesOf en.bbase (128 * en.bld)).eraseDups.foldl
          (prefetchPage q.ctx ea) s))

/-- What the prefetcher asks of a page: one in fabric memory is to move into the staging pool, and any other is left where it
is. The pool gives a run of frames that it does not use, and gives up the page that was accessed least recently (R360; log 13). -/
def PrefetchedPages : Prop :=
  ∀ (s : State),
    (∀ (ctx : Fin 64) (ea vp : Nat) (t : TlbEnt), leafOf s none ctx vp = .leaf t → prefetchPage ctx ea s vp =
      if bitsOf t.pte.toNat 5 1 = 1 then
        askMig s { ctx := ctx, va := vp, tier := false, ep := 0, dst := none, hint := some ea }
      else s) ∧
    (∀ (ctx : Fin 64) (ea vp : Nat), (∀ t, leafOf s none ctx vp ≠ .leaf t) → prefetchPage ctx ea s vp = s) ∧
    (∀ f len, freeRun s len = some f → f % 65536 = 0 ∧ f % len = 0 ∧ (∀ i < len / 65536, f / 65536 + i ∈ Config.staging) ∧
      ∀ x ∈ s.staged, x.frame + x.len ≤ f ∨ f + len ≤ x.frame) ∧
    ∀ x, leastUsed s = some x → x ∈ s.staged ∧
      ∀ y ∈ s.staged, (∀ m ∈ s.migs, m.covers y.ctx.val y.va = false) → x.last ≤ y.last

end Sys2Proof.Claims

/-- Page faults are recorded and serviced, and entries change by shootdown (R380 to R383). FAULT_SERVICE, SDGO and
SHOOTDOWN_COMPLETE complete here. A STATUS above 2 is fatal by log 57, a migration's own shootdowns pass a held one by log 64, and
which accesses a shootdown waits for is log 65. -/
def Obligations.FaultsAndShootdownsAreServed : Prop :=
  Sys2Proof.Claims.FaultsAreServed ∧ Sys2Proof.Claims.ShootdownsAreSubmitted ∧ Sys2Proof.Claims.ShootdownsComplete ∧
  Sys2Proof.Claims.ShootdownsKeepOrder ∧ Sys2Proof.Claims.RecordsAreWritten ∧ Sys2Proof.Claims.WaitersReplay ∧
  Sys2Proof.Claims.WaitersFault

/-- Pages move, and adapters are prefetched (R346, R360, R384, R385). MIGRATION_REQUEST, MIGRATION_COPY_DONE and
ADAPTER_PREFETCH complete here. That the whole of a large page moves at once is log 63. Which frames are the staging pool's is free (log 13), and so is what is read of fabric memory
(log 14). -/
def Obligations.PagesMoveAndArePrefetched : Prop :=
  Sys2Proof.Claims.PagesMove ∧ Sys2Proof.Claims.PagesArrive ∧ Sys2Proof.Claims.AdaptersArePrefetched ∧
  Sys2Proof.Claims.FrameCopy ∧ Sys2Proof.Claims.PrefetchedPages

/-! ## The fabric -/

namespace Sys2Proof.Claims

open Sys2Proof Sys2Proof.Machine

/-- An operation asks for no block that is evicted. -/
def NotOfEvicted (s : State) (o : FabOp) : Prop :=
  ∀ b, ((∃ w pid lane, o.why = .load b w pid lane) ∨ ∃ pid, o.why = .helmLoad b pid) → isEvicted s b = false

/-- An outgoing operation that is performed leaves the list and its answer goes to what asked for it: a load keeps the bytes
for its lane, a store and its like need nothing, a signal's update completes its packet. A merge that found another value than
the one compared is sent again with the value found (R139, R368, R369, R374). -/
def AnswersArrive : Prop :=
  ∀ (s : State) (id : Nat) (data : List Byte) (o : FabOp), s.fabOps.find? (fun x => x.id = id && !x.held) = some o →
    let s0 : State := { s with fabOps := s.fabOps.filter (·.id != id) }
    (NotOfEvicted s o → exec (.fabricDeliveryComplete id data) s = .next (perform s0 o data)) ∧
    (∀ b w pid lane n, o.why = .load b w pid lane → o.kind = .read n →
      let bytes : List Byte := (List.range n).map fun i => data.getD i 0
      let take (p : Pend) : Pend := if p.id = pid then takeData lane bytes p else p
      perform s0 o data = modWarp s0 b w fun wp => { wp with pend := wp.pend.map take }) ∧
    (∀ p w pc inc, o.why = .store p w pc inc → (∀ v, mergeAgain o v = none) → perform s0 o data = s0) ∧
    (∀ qid idx, o.why = .signalOp qid idx → (∀ v, mergeAgain o v = none) →
      perform s0 o data = modFlight s0 qid idx fun f => { f with finished := true }) ∧
    ∀ f sub code last cmp v, o.kind = .merge f sub code last cmp →
      v = BitVec.ofNat 64 (leNat ((List.range 8).map fun i => data.getD i 0)) →
      (v ≠ cmp → perform s0 o data = sendFab s0 o.loc (.merge f sub code last v) o.why o.acq o.va) ∧
      (v = cmp → ∀ p w pc inc, o.why = .store p w pc inc → perform s0 o data = s0)

/-- An outgoing operation that fails is logged: a load's lane is marked failed, a store is reported with cause 3 and the virtual
address at which it failed, a packet aborts with code 0x0A (R370, R416, R449). -/
def FailuresAreReported : Prop :=
  ∀ (s : State) (id : Nat) (o : FabOp), s.fabOps.find? (fun x => x.id = id && !x.held) = some o → NotOfEvicted s o →
    ∃ s1 : State, s1 = { s with fabOps := s.fabOps.filter (·.id != id), errlog := s1.errlog, errCount := s1.errCount } ∧
      exec (.fabricOperationFailed id) s = .next (failFab s1 o) ∧
      (∀ p w pc inc, o.why = .store p w pc inc → ∃ t : Report, failFab s1 o = { s1 with reports := s1.reports ++ [t] } ∧
        t.party = p ∧ t.warp = w ∧ t.pc = pc ∧ t.incarnation = inc ∧ t.cause = 3 ∧ t.addr = o.va) ∧
      (∀ b w pid lane, o.why = .load b w pid lane →
        let mark (p : Pend) : Pend := if p.id = pid then { p with failed := p.failed ||| maskOf fun l => l = lane } else p
        failFab s1 o = modWarp s1 b w fun wp => { wp with pend := wp.pend.map mark }) ∧
      (∀ qid idx, o.why = .signalOp qid idx →
        failFab s1 o = modFlight s1 qid idx fun f => { f with abort := if f.abort = 0 then 0x0A else f.abort })

/-- An incoming request is served only where a valid window entry matches its job, process and resource index, its whole
range lies within the window and the direction is allowed; every other receives an error response and changes nothing
else (R371). -/
def WindowsAdmit : Prop :=
  (∀ (s : State) (r : Req) (len : Nat) (wr : Bool) (ctx : Fin 64) (va : Nat), matchWindow s r len wr = some (ctx, va) →
    ∃ w ∈ s.windows.toList, w.valid = true ∧ w.job = r.job ∧ w.pid = r.pid ∧ w.ri = r.ri ∧ r.off + len ≤ w.len.toNat ∧
      (if wr then w.wr else w.rd) = true ∧ ctx = w.ctx ∧ va = w.base.toNat + r.off) ∧
  ∀ (s : State) (r : Req), let no : Out1 := .next { s with out := s.out ++ [.rmaErr] }
    (∀ data : List Byte, matchWindow s r data.length true = none → exec (.rmaWrite r data) s = no) ∧
    (∀ len, matchWindow s r len false = none → exec (.rmaRead r len) s = no) ∧
    (∀ op wide v, nonFetching op = true → matchWindow s r (if wide then 8 else 4) true = none → exec (.atomicNonFetching r op wide v) s = no) ∧
    (∀ op wide v c, matchWindow s r (if wide then 8 else 4) true = none → exec (.atomicFetching r op wide v c) s = no)

/-- An admitted write of at least a byte to one plain page of device memory stores its bytes there and nowhere else, and is
answered; an admitted read answers with the bytes; one of a poisoned granule receives an error (R372, R431). -/
def RequestsActOnMemory : Prop :=
  ∀ (s : State) (r : Req) (ctx : Fin 64) (va a n : Nat), n ≠ 0 →
    (∀ data : List Byte, data.length = n → matchWindow s r n true = some (ctx, va) →
      inPlaces s ctx .inW (n + 1) va n = .ok [(.dev a, n)] → poisonAt s (.dev a) n = false → s.homesWf = true →
      (∀ o ∈ s.fabOps, ∀ bad, o.why ≠ .incoming s.nextId bad) →
      ∃ t, exec (.rmaWrite r data) s = .next t ∧ t.out = s.out ++ [.rmaOk] ∧ memRead t.mem a n = data ∧
        t.span = s.span ∧ t.lineVer = s.lineVer ∧ t.blocks = s.blocks ∧
        ∀ b, (b < a ∨ a + n ≤ b) → memGet t.mem b = memGet s.mem b) ∧
    (matchWindow s r n false = some (ctx, va) → inPlaces s ctx .inR (n + 1) va n = .ok [(.dev a, n)] →
      (poisonAt s (.dev a) n = false → exec (.rmaRead r n) s = .next { s with out := s.out ++ [.rmaData (memRead s.mem a n)] }) ∧
      (poisonAt s (.dev a) n = true → exec (.rmaRead r n) s = .next { s with out := s.out ++ [.rmaErr] }))

/-- An admitted atomic reads and writes one aligned word in one step, and a fetching one answers with what was there; a
misaligned one receives an error, and so does a swap or compare-swap that fetches nothing, which is counted whatever its window
and address are. One that finds its word in fabric memory is sent on (R363, R368, R372; log 67, log 73). -/
def AtomicRequestsAct : Prop :=
  (∀ (s : State) (r : Req) (op : RmaOp) (wide : Bool) (val : Word64), (op = .swap ∨ op = .cas) →
    exec (.atomicNonFetching r op wide val) s = .next
      { logErr s (errEvent .port (Config.port s.tick).val 6 0 0xFF 0 0) with out := s.out ++ [.rmaErr] }) ∧
  ∀ (s : State) (r : Req) (ctx : Fin 64) (va a : Nat) (op : RmaOp) (wide : Bool) (val cmp : Word64) (n : Nat),
    n = (if wide then 8 else 4) → matchWindow s r n true = some (ctx, va) →
    let no : Out1 := .next { s with out := s.out ++ [.rmaErr] }
    (va % n ≠ 0 → exec (.atomicFetching r op wide val cmp) s = no ∧
      (nonFetching op = true → exec (.atomicNonFetching r op wide val) s = no)) ∧
    (va % n = 0 → ∀ c e x m, inPlaces s ctx .inW (n + 1) va n = .ok [(.fab c e x, m)] →
      exec (.atomicFetching r op wide val cmp) s = .next (sendFab { s with nextId := s.nextId + 1 } (.fab c e x)
        (.atomic (rmaAtom op).1 (rmaAtom op).2 (if wide then .b64 else .b32) (if op = .cas then cmp else val)
          (if op = .cas then val else 0) true) (.incoming s.nextId false))) ∧
    (va % n = 0 → inPlaces s ctx .inW (n + 1) va n = .ok [(.dev a, n)] → poisonAt s (.dev a) n = false →
      s.homesWf = true → ∀ old b1 b2, old = memNat s.mem a n → b1 = (if op = .cas then cmp else val) →
      b2 = (if op = .cas then val else 0) →
      let new := leBytes n (atomNew (rmaAtom op).1 (rmaAtom op).2 (8 * n) old b1.toNat b2.toNat)
      (∃ t, exec (.atomicFetching r op wide val cmp) s = .next t ∧ memRead t.mem a n = new ∧
        t.out = s.out ++ [.atomOld (BitVec.ofNat 64 old)] ∧
        ∀ b, (b < a ∨ a + n ≤ b) → memGet t.mem b = memGet s.mem b) ∧
      (nonFetching op = true → ∃ t, exec (.atomicNonFetching r op wide val) s = .next t ∧ memRead t.mem a n = new ∧
        t.out = s.out ++ [.rmaOk] ∧ ∀ b, (b < a ∨ a + n ≤ b) → memGet t.mem b = memGet s.mem b))

/-- A request that the part does not support receives an error and changes nothing in memory; a packet that fails the checks
of the security sublayer is dropped (R363). -/
def OthersAreTurnedAway : Prop :=
  ∀ (s : State),
    (∀ code, ∃ t, exec (.unsupportedRequest code) s = .next t ∧ SameStores s t ∧ t.out = s.out ++ [.rmaErr] ∧
      t = { s with out := t.out, errlog := t.errlog, errCount := t.errCount }) ∧
    exec .securityCheckDrop s = .next s

end Sys2Proof.Claims

/-- What the fabric answers and asks (R363, R368 to R372, R374, R431, R449). A request's whole effect in one step is the
model's reading (log 3), and so is which port an event names (log 14). -/
def Obligations.FabricAnswersAndRequests : Prop :=
  Sys2Proof.Claims.AnswersArrive ∧ Sys2Proof.Claims.FailuresAreReported ∧ Sys2Proof.Claims.WindowsAdmit ∧
  Sys2Proof.Claims.RequestsActOnMemory ∧ Sys2Proof.Claims.AtomicRequestsAct ∧ Sys2Proof.Claims.OthersAreTurnedAway
/-! ## Repair, calibration, power and boot -/

namespace Sys2Proof.Claims

open Sys2Proof Sys2Proof.Machine

/-- A state whose error log alone may differ from s. -/
def LoggedOnly (s s1 : State) : Prop := s1 = { s with errlog := s1.errlog, errCount := s1.errCount }

/-- A retired lane stays so: the port retrains, then runs at the widest width without it, retrainings counted to 63; with its last
lane it goes down (R364 to R366). -/
def LanesRetire : Prop :=
  (∀ (s : State) (port : Fin 16) (lane : Fin 4),
    (s.ports[port].retired.getLsbD lane.val = true → exec (.laneRetire port lane) s = .next s) ∧
    (s.ports[port].retired.getLsbD lane.val = false → ∃ s1 p, LoggedOnly s s1 ∧
      exec (.laneRetire port lane) s = .next { s1 with ports := s1.ports.set port p } ∧
      p.retired = s.ports[port].retired ||| BitVec.ofNat 4 (2 ^ lane.val) ∧ p.active = 0 ∧ p.width = 0 ∧
      p.retrains = s.ports[port].retrains ∧ (p.training = false ↔ p.retired = 0xF))) ∧
  ∀ (s : State) (port : Fin 16),
    (s.ports[port].training = false → exec (.portRetrainDone port) s = .next s) ∧
    (s.ports[port].training = true → ∃ p, exec (.portRetrainDone port) s = .next { s with ports := s.ports.set port p } ∧
      p.retired = s.ports[port].retired ∧ p.training = false ∧ p.retrains.toNat = min 63 (s.ports[port].retrains.toNat + 1) ∧
      p.active &&& p.retired = 0 ∧
      (p.width, p.active) ∈ [((3 : BitVec 2), (0xF : BitVec 4)), (2, 0x3), (2, 0xC), (1, 1), (1, 2), (1, 4), (1, 8), (0, 0)] ∧
      ∀ w a, (w, a) ∈ [((3 : BitVec 2), (0xF : BitVec 4)), (2, 0x3), (2, 0xC), (1, 1), (1, 2), (1, 4), (1, 8)] →
        a &&& p.retired = 0 → w.toNat ≤ p.width.toNat)

/-- A scrub logs a correctable error and its write-back comes due, and poisons a granule whose error is not; either counts against
the granule's channel, which is due for retirement above the threshold, or at an uncorrectable one. A write-back changes no byte,
version or poison (R432 to R434; log 92). -/
def Scrubs : Prop :=
  (∀ (s : State) (pa : Nat),
    exec (.patrolScrub pa .clean) s = .next s ∧
    (∃ s1, LoggedOnly s s1 ∧ exec (.patrolScrub pa .corrected) s = .next { countChannel s1 pa true with
      scrubs := { granule := pa / 32, dropped := false } :: s.scrubs.filter (·.granule != pa / 32) }) ∧
    (∃ t, exec (.patrolScrub pa .bad) s = .next t ∧ SameStores s t ∧ pa / 32 ∈ t.badGranules ∧
      t.hbmStacks = (countChannel s pa false).hbmStacks ∧
      ∀ g, g ≠ pa / 32 → (g ∈ t.badGranules ↔ g ∈ s.badGranules)) ∧
    exec (.scrubWriteBack pa) s = .next { s with scrubs := s.scrubs.filter (·.granule != pa / 32) }) ∧
  ∀ (s : State) (pa : Nat) (corrected : Bool) (st : Fin 8) (ch : Fin 32) (x : Stack), st.val = stackOf pa % 8 →
    ch = Config.channelOf (pa / 32) → x = s.hbmStacks[st] → ∃ y : Stack,
    countChannel s pa corrected = { s with hbmStacks := s.hbmStacks.set st y } ∧
    y = { x with errors := y.errors, due := y.due } ∧
    y.errors = x.errors.set ch (x.errors[ch] + if corrected then 1 else 0) ∧
    (ch ∈ y.due ↔ ch ∈ x.due ∨ corrected = false ∨ Config.channelThreshold < y.errors[ch]) ∧
    ∀ d, d ≠ ch → (d ∈ y.due ↔ d ∈ x.due)

/-- A channel, or the spare in its place, is copied into a spare of its stack, then retired; with none left the stack is degraded. No
byte changes (R434; log 92). -/
def ChannelsRetire : Prop :=
  ∀ (s : State) (k : Fin 8) (ch : Fin 32) (x : Stack), x = s.hbmStacks[k] →
    let x0 : Stack := { x with due := x.due.filter (· != ch) }
    (ch ∈ x.copying → exec (.channelRetire k ch) s = .next { s with hbmStacks := s.hbmStacks.set k x0 }) ∧
    (ch ∉ x.copying →
      (x.spares = 0 → exec (.channelRetire k ch) s =
        .next { s with hbmStacks := s.hbmStacks.set k { x0 with degraded := true } }) ∧
      (x.spares ≠ 0 → ∃ s1, LoggedOnly s s1 ∧ exec (.channelRetire k ch) s =
        .next { s1 with hbmStacks := s.hbmStacks.set k { x0 with
          spares := x.spares - 1, copying := x.copying ++ [ch], errors := x.errors.set ch 0 } })) ∧
    (ch ∉ x.copying → exec (.channelCopyComplete k ch) s = .next s) ∧
    (ch ∈ x.copying → exec (.channelCopyComplete k ch) s = .next { s with hbmStacks := s.hbmStacks.set k { x with
      copying := x.copying.filter (· != ch), retired := x.retired.filter (· != ch) ++ [ch] } })

/-- A spare takes over a core: nothing is released there, its span slice is copied once its blocks have left, then the spare answers
to the same number with nothing claimed or cached, logged, with a new measurement 4, and held accesses go on. A freed range of the
span reads zero before it is free, with no cell open on it (R244, R435, R445; log 75, log 76, log 111). -/
def CoresAreReplaced : Prop :=
  (∀ (s : State) (c : Fin 256),
    (s.cores[c].takeover = none → s.spares[dieOf c] = [] → exec (.spareTakeover c) s = .next s) ∧
    (∀ sp r, s.cores[c].takeover = none → s.spares[dieOf c] = sp :: r → exec (.spareTakeover c) s =
      .next (modCore { s with spares := s.spares.set (dieOf c) r } c fun x =>
        { x with takeover := some sp, copying := (blocksOn s c).isEmpty })) ∧
    (s.cores[c].takeover ≠ none → exec (.spareTakeover c) s =
      .next (if blocksOn s c = [] then modCore s c fun x => { x with copying := true } else s)) ∧
    ((s.cores[c].takeover = none ∨ s.cores[c].copying = false) → exec (.spanSliceCopyComplete c) s = .next s) ∧
    (∀ sp, s.cores[c].takeover = some sp → s.cores[c].copying = true → ∃ s1, LoggedOnly s s1 ∧ ∃ d,
      let mine (h : Nat × Nat × Held) : Bool :=
        inSpan h.2.1 && (h.2.1 - Config.spanBase) / Config.spanSlice = c.val
      exec (.spanSliceCopyComplete c) s = .next { modCore s1 c (fun _ => { Core.reset with phys := sp + 1 }) with
        measures := s.measures.set 3 d
        agenda := ((s.migHeld.filter mine).map fun h => Move.resume h.1 h.2.1 h.2.2) ++ s.agenda
        migHeld := s.migHeld.filter fun h => !mine h }) ∧
    (∀ qid, s.cores[c].takeover ≠ none → coreOpen s qid c = false)) ∧
  ∀ (s : State) (off : Nat), Memory.wf s.span = true →
    ((∀ r ∈ s.spanRanges, ¬(r.off = off ∧ r.clearing = true)) → exec (.spanRangeCleared off) s = .next s) ∧
    ∀ r, s.spanRanges.find? (fun r => r.off = off && r.clearing) = some r → ∃ t,
      exec (.spanRangeCleared off) s = .next t ∧ t.spanRanges = s.spanRanges.filter (· != r) ∧
      (∀ c ∈ t.cells, ∀ o, c.loc = .span o → ¬(r.off ≤ o ∧ o < r.off + r.len)) ∧
      ∀ a, memGet t.span a = if r.off ≤ a ∧ a < r.off + r.len then 0 else memGet s.span a

/-- A core that fails its boot test gives its id to the nearest spare left on its die; other cores and spares stay, and nothing is
logged (R276, R445; log 75, log 107). -/
def CoresAreTested : Prop :=
  ∀ (s : State) (c : Fin 256),
    (s.spares[dieOf c] = [] → testCore s c = s) ∧
    (s.spares[dieOf c] ≠ [] → ∃ k ∈ s.spares[dieOf c], (∀ x ∈ s.spares[dieOf c], hopsTo c.val k ≤ hopsTo c.val x) ∧
      testCore s c = if Config.coreFails c.val then { s with
        spares := s.spares.set (dieOf c) (s.spares[dieOf c].filter (· != k))
        cores := s.cores.set c { s.cores[c] with phys := k + 1 } } else s)

/-- At power-on the ROM takes bank 0 if it verifies, else bank 1, the cores are tested and measured; with neither it stops. A
session's firmware goes into the idle bank byte by byte, and takes over, with measurement 2, where it verifies (R276, R436, R440,
R445). -/
def BootAndFirmware : Prop :=
  (∀ (s : State), s.boot = .off →
    (∀ b : Fin 2, (s.banks[(0 : Fin 2)].2 = true ∧ b = 0) ∨
        (s.banks[(0 : Fin 2)].2 = false ∧ s.banks[(1 : Fin 2)].2 = true ∧ b = 1) →
      ∃ m, exec .powerOn s = .next { (List.finRange 256).foldl testCore s with boot := .up, bank := b, measures := m } ∧
        m[(1 : Fin 5)] = s.banks[b].1) ∧
    (s.banks[(0 : Fin 2)].2 = false → s.banks[(1 : Fin 2)].2 = false → ∃ m,
      exec .powerOn s = .next { s with boot := .stopped, measures := m } ∧
        ∀ i : Fin 5, i ≠ 0 → m[i] = s.measures[i])) ∧
  (∀ (s : State), s.boot ≠ .off → exec .powerOn s = .next s) ∧
  ∀ (s : State) (i : Fin 16) (image : BitVec 256) (bytes : List Byte) (ok : Bool),
    let fw : FwImage := { session := i.val, digest := image, bytes := bytes }
    (s.boot = .up → s.sessions[i].isOpen = true → s.sessions[i].finished = true → ∃ m,
      (Memory.wf s.tcm = true → Memory.wf m = true ∧ ∀ a, memGet m a =
        if a / 131072 = (1 - s.bank).val then bytes.getD (a % 131072) 0 else memGet s.tcm a) ∧
      exec (.firmwareReplacement fw ok) s = .next { s with
        tcm := m
        banks := s.banks.set (1 - s.bank) (image, ok)
        bank := if ok then 1 - s.bank else s.bank
        measures := if ok then s.measures.set 1 image else s.measures }) ∧
    (¬(s.boot = .up ∧ s.sessions[i].isOpen = true ∧ s.sessions[i].finished = true) → ∃ s1, LoggedOnly s s1 ∧
      exec (.firmwareReplacement fw ok) s = .next s1)

/-- Calibration tables replace measurement 3, and each path takes them with its next recalibration. An arbiter epoch grants every
waiting matrix request and divides the budget again: the sum of the grants is within a budget of 1,200 W or more, and the HBM grant
not below the traffic in flight; nothing else changes but the streams that wait (R5, R294, R437, R446; how the budget is divided,
log 12). -/
def CalibrationAndArbiter : Prop :=
  (∀ (s : State) (i : Fin 16) (tables : BitVec 256), s.boot = .up → s.sessions[i].isOpen = true →
    s.sessions[i].finished = true → loadCalibration i.val tables s =
      .next { s with measures := s.measures.set 2 tables, calWait := calPaths }) ∧
  (∀ (s : State) (p : CalPath), exec (.recalibration p) s = .next { s with calWait := s.calWait.filter (· != p) }) ∧
  ∀ (s s1 : State), s1 = s.matrixReqs.foldl giveGrant s → s1.matrixReqs = [] ∧ ∃ m v h d,
    exec .arbiterEpoch s = .next { s1 with epochs := s.epochs + 1, mgrant := m, vgrant := v, hgrant := h, draw := d } ∧
    min s.hgrant.toNat (Config.inFlight s.tick).toNat ≤ h.toNat ∧
    (1200 ≤ s.pwrBudget.toNat → powerFits s1 m.toNat v.toNat h.toNat = true)

end Sys2Proof.Claims

/-- Repair, calibration, power and boot (R5, R244, R276, R294, R364 to R366, R432 to R437, R440, R445, R446). The values of
digests, grants and draws are free (log 11, log 12); which spare, what a takeover logs, which channel a granule is in and what
becomes of an open cell of a freed range are the model's choices (logs 74 to 76, 92, 107, 111). -/
def Obligations.RepairPowerAndBoot : Prop :=
  Sys2Proof.Claims.LanesRetire ∧ Sys2Proof.Claims.Scrubs ∧ Sys2Proof.Claims.ChannelsRetire ∧
  Sys2Proof.Claims.CoresAreReplaced ∧ Sys2Proof.Claims.CoresAreTested ∧ Sys2Proof.Claims.BootAndFirmware ∧
  Sys2Proof.Claims.CalibrationAndArbiter

/-! ## Management -/

namespace Sys2Proof.Claims

open Sys2Proof Sys2Proof.Machine

/-- The session's request leaves the list, and REQSTAT reads BUSY 0, DONE one higher and the RESULT (R450). -/
def RequestEnds : Prop :=
  ∀ (s : State) (result : BitVec 8) (r : GenReq) (rest : List GenReq), s.requests = r :: rest →
    (r.session = none → endReq s result = { s with requests := rest }) ∧
    ∀ i, r.session = some i →
      let x : Session := { s.sessions[i] with reqBusy := false, reqDone := s.sessions[i].reqDone + 1, reqResult := result }
      endReq s result = { s with requests := rest, sessions := s.sessions.set i x }

/-- The first request is served by the step of its code; another step leaves it (R450). -/
def RequestsByCode : Prop :=
  ∀ (s : State) (c : BitVec 8) (i : Instr),
    (c, i) ∈ [((1 : BitVec 8), Instr.registerQueue), (2, .deregisterQueue), (3, .moveCode), (4, .retireVersion), (5, .resetPort),
      (6, .endNode)] →
    (∃ t, exec i s = .next t) ∧ (s.requests = [] → exec i s = .next s) ∧
    ∀ r rest, s.requests = r :: rest → r.code ≠ c → exec i s = .next s

/-- A request is submitted with the code that REQGO gives, and one that sets a reserved bit, like one of an unknown code, comes
back with RESULT 1; while the session's BUSY is 1 a write of REQGO is ignored and logged (R450). -/
def RequestsAreSubmitted : Prop :=
  ∀ (s : State) (i : Fin 16) (v : Nat), s.boot = .up → s.sessions[i].isOpen = true → s.sessions[i].finished = true →
    (s.sessions[i].reqBusy = true → writeMReg s i .reqgo v =
      (logErr s (errEvent .session i.val 6 0 0xFF 0 0), true)) ∧
    (s.sessions[i].reqBusy = false → s.requests = [] →
      (1 ≤ v → v ≤ 6 → writeMReg s i .reqgo v = ({ s with
        requests := [{ session := some i, code := BitVec.ofNat 8 v, args := s.sessions[i].args, started := false }]
        sessions := s.sessions.set i { s.sessions[i] with reqBusy := true } }, true)) ∧
      ((v = 0 ∨ 6 < v) → writeMReg s i .reqgo v = ({ s with
        sessions := s.sessions.set i
          { s.sessions[i] with reqBusy := false, reqDone := s.sessions[i].reqDone + 1, reqResult := 1 } }, true)))

/-- Registration: a slot that is taken or does not exist gives RESULT 1, a full table 2, a locked context 5; else the queue is
entered with what its descriptor holds, with ERR 2 and RESULT 3 where the descriptor fails its check (R328, R329, R442,
R450). -/
def QueuesRegister : Prop :=
  ∀ (s : State) (r : GenReq) (rest : List GenReq) (desc qid e : Nat) (ctx : Fin 64), s.requests = r :: rest → r.code = 1 →
    desc = r.args[0].toNat → qid = r.args[1].toNat → e = memNat s.mem desc 64 → ctx = Fin.ofNat 64 (bitsOf e 304 6) →
    let named := qid < 4096 ∧ desc % 64 = 0 ∧ desc < 2 ^ 56 ∧ getQueue s qid = none ∧ ∀ q ∈ s.queues, q.desc ≠ desc
    let bad := poisonAt s (.dev desc) 64 = true ∨ descBad e = true
    (¬named → exec .registerQueue s = .next (finishReq s 1)) ∧
    (named → 4096 ≤ s.queues.length → exec .registerQueue s = .next (finishReq s 2)) ∧
    (named → s.queues.length < 4096 → ctxAdmits s ctx r.session = false → exec .registerQueue s = .next (finishReq s 5)) ∧
    (named → s.queues.length < 4096 → ctxAdmits s ctx r.session = true →
      let err : BitVec 8 := if bad then 2 else 0
      exec .registerQueue s = .next (finishReq (writeBounds { writeDesc s desc err with
        queues := s.queues ++ [newQueue qid desc e err] } (newQueue qid desc e err).level) (if bad then 3 else 0)))

/-- Deregistration: a context that does not admit the request as it begins gives RESULT 5; else no further packet is read,
barriers that evaluate abort, and the queue is gone once every packet it started has retired (R329, R442, R450). -/
def QueuesDeregister : Prop :=
  ∀ (s : State) (r : GenReq) (rest : List GenReq) (qid : Nat), s.requests = r :: rest → r.code = 2 → qid = r.args[1].toNat →
    (getQueue s qid = none → exec .deregisterQueue s = .next (finishReq s (if 4096 ≤ qid then 1 else 4))) ∧
    ∀ q, getQueue s qid = some q →
      (r.started = false → ctxAdmits s q.ctx r.session = false → exec .deregisterQueue s = .next (finishReq s 5)) ∧
      ((r.started = true ∨ ctxAdmits s q.ctx r.session = true) →
        let s1 := beginReq (modQueue s qid fun x =>
          { x with closing := true, stalled := none, flights := x.flights.map abortBarrier })
        ((∃ f ∈ q.flights, f.retired = false) → exec .deregisterQueue s = .next s1) ∧
        ((∀ f ∈ q.flights, f.retired = true) → exec .deregisterQueue s = .next (finishReq (settlePlaces (writeBounds
          { s1 with queues := s1.queues.filter (·.qid != qid) } q.level)) 0)))

/-- Requests about code: MOVE_CODE enters the old base in the forwarding table, keeping every older entry, and writes the new
one into the directory entry; a full table gives RESULT 2. RETIRE_VERSION waits while anything fetches through the entry or
names its version; it clears the entry's valid bit alone (R404 to R406, R450; log 77). -/
def CodeIsMovedAndRetired : Prop :=
  (∀ (s : State) (r : GenReq) (rest : List GenReq) (ctx : Fin 64) (i old new : Nat), s.requests = r :: rest → r.code = 3 →
    codeArgs r = some (ctx, i) → old = r.args[1].toNat → new = r.args[2].toNat → old < 2 ^ 56 → new < 2 ^ 56 → old % 64 = 0 →
    new % 64 = 0 → r.args[3].toNat < 2 ^ 32 →
    (dirEnt s ctx i = none → exec .moveCode s = .next (finishReq s 4)) ∧
    (dirEnt s ctx i ≠ none → ctxAdmits s ctx r.session = false → exec .moveCode s = .next (finishReq s 5)) ∧
    (dirEnt s ctx i ≠ none → ctxAdmits s ctx r.session = true →
      (256 ≤ s.ctxs[ctx].forward.length → exec .moveCode s = .next (finishReq s 2)) ∧
      (s.ctxs[ctx].forward.length < 256 → exec .moveCode s =
        .next (finishReq (writeDir (modCtx s ctx fun c => { c with forward := (old, i) :: c.forward })
          ctx i 8 (leBytes 7 new)) 0)))) ∧
  ∀ (s : State) (r : GenReq) (rest : List GenReq) (ctx : Fin 64) (i : Nat), s.requests = r :: rest → r.code = 4 →
    codeArgs r = some (ctx, i) →
    (dirEnt s ctx i = none → exec .retireVersion s = .next (finishReq s 4)) ∧
    ∀ e, dirEnt s ctx i = some e →
      (e.valid = false → exec .retireVersion s = .next (finishReq s 4)) ∧
      (e.valid = true → r.started = false → ctxAdmits s ctx r.session = false →
        exec .retireVersion s = .next (finishReq s 5)) ∧
      (e.valid = true → (r.started = true ∨ ctxAdmits s ctx r.session = true) →
        let used := (∃ blk ∈ s.blocks, blk.ctx = ctx ∧ blockLives blk = true ∧ entryInUse i blk = true) ∨
          entryRequested s ctx i = true
        (used → exec .retireVersion s = .next { s with requests := { r with started := true } :: rest }) ∧
        (¬used → ∀ b, auxNat s none ctx .load 1 (s.ctxs[ctx].dirBase.toNat + 32 * i + 6) = .ok b →
          exec .retireVersion s = .next (finishReq (writeDir s ctx i 6 [BitVec.ofNat 8 (b / 2 * 2)]) 0)))

/-- RESET_PORT clears the port's retired lanes and completes once it has retrained; END_NODE ends its node with ABORTED,
cause 0, and completes once the packet has retired (R365, R419, R450). -/
def PortsAndNodesEnd : Prop :=
  (∀ (s : State) (r : GenReq) (rest : List GenReq) (n : Fin 16), s.requests = r :: rest → r.code = 5 →
    (16 ≤ r.args[0].toNat → exec .resetPort s = .next (finishReq s 1)) ∧
    (r.args[0].toNat = n.val →
      (r.started = false → exec .resetPort s = .next { s with
        ports := s.ports.set n { retired := 0, active := 0, width := 0, retrains := 0, training := true }
        requests := { r with started := true } :: rest }) ∧
      (r.started = true → exec .resetPort s = .next (if s.ports[n].training then s else finishReq s 0)))) ∧
  ∀ (s : State) (r : GenReq) (rest : List GenReq) (a qid idx : Nat) (ctx : Fin 64), s.requests = r :: rest → r.code = 6 →
    a = r.args[0].toNat → ctx = Fin.ofNat 64 (bitsOf a 0 6) → qid = bitsOf a 16 12 → idx = r.args[1].toNat →
    bitsOf a 6 10 = 0 → bitsOf a 28 36 = 0 →
    (r.started = false → startedNode s qid idx = none → exec .endNode s = .next (finishReq s 4)) ∧
    (r.started = false → ∀ n q, startedNode s qid idx = some n → getQueue s qid = some q →
      (q.ctx ≠ ctx → exec .endNode s = .next (finishReq s 4)) ∧
      (q.ctx = ctx → ctxAdmits s ctx r.session = false → exec .endNode s = .next (finishReq s 5)) ∧
      (q.ctx = ctx → ctxAdmits s ctx r.session = true → exec .endNode s =
        .next (beginReq (offer s (.helm 0) false (nodeFault n (raise .aborted none 0)))))) ∧
    (r.started = true → ∀ q f, findFlight s qid idx = some (q, f) →
      exec .endNode s = .next (if f.retired then finishReq s 0 else s))

end Sys2Proof.Claims

/-- The general request block: one request after the other, each with its RESULT (R328, R329, R365, R404 to R406, R419,
R442, R450). That a descriptor that fails its check is registered with ERR 2, what RETIRE_VERSION
writes, and how a reset port counts its retrainings are the model's readings (log 71, log 77, log 74). -/
def Obligations.GeneralRequests : Prop :=
  Sys2Proof.Claims.RequestEnds ∧ Sys2Proof.Claims.RequestsByCode ∧ Sys2Proof.Claims.RequestsAreSubmitted ∧
  Sys2Proof.Claims.QueuesRegister ∧
  Sys2Proof.Claims.QueuesDeregister ∧ Sys2Proof.Claims.CodeIsMovedAndRetired ∧ Sys2Proof.Claims.PortsAndNodesEnd

namespace Sys2Proof.Claims

open Sys2Proof Sys2Proof.Machine

/-- Session i is open and its handshake complete, and the part is up. -/
structure InSession (s : State) (i : Fin 16) : Prop where
  up : s.boot = .up
  open_ : s.sessions[i].isOpen = true
  finished : s.sessions[i].finished = true

/-- The part answers a. -/
def Answers (s : State) (a : Out) : State := { s with out := s.out ++ [a] }

/-- A write of a level or of the budget in a session: one out of range, or that would take the floors above 256, changes
nothing and is answered with an error. The registers read as they were written, and PWRSTAT as the arbiter's state; a queue
whose resident blocks number its level's CAP is not served (R351, R447). -/
def LevelsAndBudget : Prop :=
  ∀ (s : State) (i : Fin 16), InSession s i →
    (∀ (l : Fin 24) (v : Word) (cap fl : Nat), cap = bitsOf v.toNat 8 13 → fl = bitsOf v.toNat 0 8 →
      let others := ((List.finRange 24).filter (· != l)).foldl (fun a k => a + s.levels[k].floor.toNat) 0
      ((cap = 0 ∨ 4096 < cap ∨ 256 < others + fl) → exec (.priorityLevelWrite i.val l v) s = .next (Answers s .mgmtErr)) ∧
      (cap ≠ 0 → cap ≤ 4096 → others + fl ≤ 256 →
        let lv : Level := { cap := BitVec.ofNat 13 cap, floor := BitVec.ofNat 8 fl }
        exec (.priorityLevelWrite i.val l v) s =
          .next (Answers (writeBounds { s with levels := s.levels.set l lv } l) .mgmtOk))) ∧
    ∀ (v : Word) (w : Nat), w = v.toNat % 4096 →
      ((w < 1200 ∨ 2600 < w) → exec (.pwrbudgetWrite i.val v) s = .next (Answers s .mgmtErr)) ∧
      (1200 ≤ w → w ≤ 2600 → ∃ m vg hg t, t = { s with pwrBudget := BitVec.ofNat 12 w, mgrant := m, vgrant := vg, hgrant := hg } ∧
        exec (.pwrbudgetWrite i.val v) s = .next (Answers t .mgmtOk) ∧
        powerFits t m.toNat vg.toNat hg.toNat = true) ∧
      (∀ l : Fin 24, readMReg s i (.level l) = 256 * s.levels[l].cap.toNat + s.levels[l].floor.toNat) ∧
      readMReg s i .pwrbudget = s.pwrBudget.toNat ∧
      (s.matrixReqs.length < 4096 →
        readMReg s i .pwrstat = 2 ^ 24 * s.vgrant.toNat + 2 ^ 12 * s.matrixReqs.length + s.draw.toNat) ∧
      (∀ s1 qid, serve s = (s1, some qid) → ∃ q ∈ s.queues, q.qid = qid ∧
        residentBlocks s qid < s.levels[q.level].cap.toNat) ∧
      (∀ l : Fin 24, State.reset.levels[l] = { cap := 64, floor := 0 }) ∧ State.reset.pwrBudget = 2600 ∧
      (State.reset.vgrant = 255 ∧ State.reset.matrixReqs = [] ∧ State.reset.draw = 0)

/-- DBGRESUME 1 lets every gang of the context that stands at BKPT go on behind it; no other gang, block or value changes it
(R167, R448). -/
def DebugResumes : Prop :=
  (∀ (s : State) (i : Fin 16) (n : Fin 64) (v : Word), InSession s i →
    (v ≠ 1 → exec (.dbgresume i.val n v) s = .next (Answers s .mgmtOk)) ∧
    (v = 1 → ∃ t, exec (.dbgresume i.val n v) s = .next (Answers t .mgmtOk) ∧ t = { s with blocks := t.blocks } ∧
      t.blocks.length = s.blocks.length ∧
      let go (wp : Warp) : Warp := settle { wp with gangs := wp.gangs.map resumeGang }
      ∀ (b : Nat) (blk : Block), s.blocks[b]? = some blk →
        (blk.ctx ≠ n → t.blocks[b]? = some blk) ∧
        (blk.ctx = n → t.blocks[b]? = some { blk with warps := blk.warps.map go }))) ∧
  ∀ g : Gang, (g.wait = .bkpt → resumeGang g = { g with wait := .none, wd := 0, pc := g.pc + 1 }) ∧
    (g.wait ≠ .bkpt → resumeGang g = g)

/-- A management write of 4 or 8 bytes, naturally aligned, reaches the registers it covers; another gets an error and is
counted. A request outside a session changes nothing but the error log (R440, R448). -/
def ManagementWrites : Prop :=
  (∀ (s : State) (i : Fin 16) (off size : Nat) (v : Word64), InSession s i →
    (((size ≠ 4 ∧ size ≠ 8) ∨ off % size ≠ 0) → ∃ s1, LoggedOnly s s1 ∧
      exec (.managementWrite i.val off size v) s = .next (Answers s1 .mgmtErr)) ∧
    ((size = 4 ∨ size = 8) → off % size = 0 → ∃ t ok, exec (.managementWrite i.val off size v) s =
      .next (Answers t (if ok then .mgmtOk else .mgmtErr)) ∧ (t, ok) = mgmtWrite s i off size (v.toNat % 256 ^ size))) ∧
  ∀ (s : State) (session : Nat) (i : Instr),
    (16 ≤ session ∨ s.boot ≠ .up ∨ s.sessions[Fin.ofNat 16 session].isOpen = false ∨
      s.sessions[Fin.ofNat 16 session].finished = false) →
    (∃ l v, i = .priorityLevelWrite session l v) ∨ (∃ v, i = .pwrbudgetWrite session v) ∨
      (∃ n v, i = .dbgresume session n v) ∨ (∃ off size v, i = .managementWrite session off size v) ∨ i = .sdgo session →
    ∃ s1, LoggedOnly s s1 ∧ exec i s = .next s1

/-- What becomes of a context whose instance leaves for a state: it is leaving, or it has left, with its region keys gone. -/
def CtxLeaves (c d : Ctx) (x : IState) : Prop :=
  (∃ reply, d = { c with leaving := some (x, reply) }) ∨
    d = { c with inst := x, leaving := none, keys := [], bound := if x = .unlocked then none else c.bound }

/-- Every packet of a context that has not retired is to retire aborted with code 0x07. -/
def PacketsAbort (t : State) (n : Fin 64) : Prop :=
  ∀ q ∈ t.queues, q.ctx = n → ∀ f ∈ q.flights, f.retired = false → f.abort = 0x07 ∧ f.stage = .record

/-- A configuration register of a context whose instance is locked refuses a write, and the instance moves to ERROR, as does a
window entry whose CTX is the context; one of any other context takes it. An entry that no locked context holds is written only
where every context that it names, before or after, admits requests of the session (R441, R442, R448; log 82). -/
def ConfigurationIsGuarded : Prop :=
  ∀ (s : State) (i : Fin 16) (n : Fin 64) (v : Nat) (r : MReg),
    r ∈ [.ctxrec n, .savepool n, .flog n, .codedir n, .legacy n, .ctxmode n, .cellpool n] →
    let locked (k : Fin 64) : Prop := s.ctxs[k].inst = .locked ∨ s.ctxs[k].inst = .run
    let admits (k : Fin 64) : Prop := s.ctxs[k].inst = .unlocked ∨ s.ctxs[k].bound = some i.val
    (locked n → ∃ t, writeGuarded s i r v = (t, false) ∧ CtxLeaves s.ctxs[n] t.ctxs[n] .error ∧ PacketsAbort t n ∧
      ((∀ q ∈ t.queues, q.ctx ≠ n) → t.ctxs[n].inst = .error)) ∧
    (¬locked n → writeGuarded s i r v = writeMReg s i r v) ∧
    ∀ (k : Fin 1024) (o w : Fin 64), o = s.windows[k].ctx → w.val = bitsOf v 196 6 →
      (locked o → ∃ t, writeGuarded s i (.window k) v = (t, false) ∧ CtxLeaves s.ctxs[o] t.ctxs[o] .error ∧
        t.windows = s.windows) ∧
      (¬locked o → ¬(admits o ∧ admits w) → writeGuarded s i (.window k) v = (s, false)) ∧
      (¬locked o → admits o → admits w → writeGuarded s i (.window k) v =
        ({ s with windows := s.windows.set k (windowOfBits v) }, true))

end Sys2Proof.Claims

/-- Writes through the management path (R167, R351, R440, R441, R447, R448). Which bits of a register are kept is as R448's
tables give; that low bits of an aligned base are dropped, which contexts a write of a window entry is about, and what the
management path answers where the spec gives no value are the model's readings (log 72, log 82, log 62). -/
def Obligations.ManagementWritesAct : Prop :=
  Sys2Proof.Claims.LevelsAndBudget ∧ Sys2Proof.Claims.DebugResumes ∧ Sys2Proof.Claims.ManagementWrites ∧
  Sys2Proof.Claims.ConfigurationIsGuarded

/-! ## Secure messages -/

namespace Sys2Proof.Claims

open Sys2Proof Sys2Proof.Machine

/-- Messages outside a session: each is answered once the part has booted, those that the ROM does not answer once it is up.
The capabilities name no pre-shared keys, exactly four algorithms are offered, a measurement is read as it was taken, one of no
such number is an error, and an unsupported message gets ERROR with UnsupportedRequest (R439, R445). -/
def MessagesAreAnswered : Prop :=
  ∀ (s : State),
    (∀ i, i ∈ [Instr.getVersion, .getCapabilities, .negotiateAlgorithms] → s.boot = .off → exec i s = .next s) ∧
    (s.boot ≠ .off → (∃ c v, exec .getVersion s = .next (Answers s (.spdm c v))) ∧
      (∃ v, exec .getCapabilities s = .next (Answers s (.spdmCapabilities false true v))) ∧
      exec .negotiateAlgorithms s = .next (Answers s (.spdmAlgorithms [.sm2Sign, .sm3, .sm2Exchange, .sm4Gcm]))) ∧
    (∀ slot, (s.boot = .off → exec (.getCertificate slot) s = .next s) ∧
      (s.boot ≠ .off → ∃ c v, exec (.getCertificate slot) s = .next (Answers s (.spdm c v)))) ∧
    ((s.boot ≠ .up → exec .getDigests s = .next s) ∧
      (s.boot = .up → ∃ c v, exec .getDigests s = .next (Answers s (.spdm c v)))) ∧
    (∀ slot, (s.boot ≠ .up → exec (.challenge slot) s = .next s) ∧
      (s.boot = .up → ∃ c v, exec (.challenge slot) s = .next (Answers s (.spdm c v)))) ∧
    (∀ n : Fin 5, s.boot ≠ .off → ∃ c, exec (.getMeasurements (BitVec.ofNat 8 (n.val + 1))) s =
      .next (Answers s (.spdm c s.measures[n]))) ∧
    (∀ idx : BitVec 8, s.boot ≠ .off → (idx = 0 ∨ 5 < idx.toNat) → ∃ c, exec (.getMeasurements idx) s =
      .next (Answers s (.spdmErr c))) ∧
    (∀ code, (s.boot = .up → exec (.spdmUnsupported code) s = .next (Answers s (.spdmErr 7))) ∧
      (s.boot ≠ .up → exec (.spdmUnsupported code) s = .next s))

/-- KEY_EXCHANGE opens the lowest free session under a new key, unless authentication fails or all 16 are open; FINISH
completes it, or closes it where it fails; KEY_UPDATE gives it a new key and HEARTBEAT changes nothing (R439). -/
def SessionsOpen : Prop :=
  (∀ (s : State), s.boot = .up →
    (∃ c, exec (.keyExchange false) s = .next (Answers s (.spdmErr c))) ∧
    ((∀ i : Fin 16, s.sessions[i].isOpen = true) → ∃ c, exec (.keyExchange true) s = .next (Answers s (.spdmErr c))) ∧
    ∀ i : Fin 16, s.sessions[i].isOpen = false → (∀ j : Fin 16, j < i → s.sessions[j].isOpen = true) →
      ∃ key c, exec (.keyExchange true) s = .next (Answers { s with
        sessions := s.sessions.set i { Session.reset with isOpen := true, key := key } } (.spdm c (BitVec.ofNat 256 i.val)))) ∧
  (∀ (s : State) (i : Fin 16), s.boot = .up → s.sessions[i].isOpen = true →
    (∃ c v, exec (.finish i.val true) s = .next (Answers { s with
      sessions := s.sessions.set i { s.sessions[i] with finished := true } } (.spdm c v))) ∧
    ∃ c, exec (.finish i.val false) s = .next (Answers (closeSession s i) (.spdmErr c))) ∧
  ∀ (s : State) (i : Fin 16), InSession s i →
    (∃ c v, exec (.heartbeat i.val) s = .next (Answers s (.spdm c v))) ∧
    ∃ key c v, exec (.keyUpdate i.val) s = .next (Answers { s with
      sessions := s.sessions.set i { s.sessions[i] with key := key } } (.spdm c v))

/-- END_SESSION closes the session, and so does a FINISH that fails. Every locked instance bound to it leaves for ERROR, with
its region keys gone, and no instance stays bound to a session that may come after it (R439, R441; log 85). -/
def SessionsEnd : Prop :=
  ∀ (s : State) (i : Fin 16),
    (s.boot = .up → s.sessions[i].isOpen = true → ∃ c v,
      exec (.endSession i.val) s = .next (Answers (closeSession s i) (.spdm c v))) ∧
    (closeSession s i).sessions[i] = Session.reset ∧
    ∀ (n : Fin 64) (c d : Ctx), c = s.ctxs[n] → d = (closeSession s i).ctxs[n] → d.bound ≠ some i.val ∧
      (c.bound ≠ some i.val → d = c) ∧
      (c.bound = some i.val → (c.inst = .locked ∨ c.inst = .run) →
        CtxLeaves c { d with bound := c.bound } .error ∧ d.bound = some 16 ∧
          ((∀ q ∈ s.queues, q.ctx ≠ n) → d.inst = .error))

/-- An instance that leaves waits until every packet of its context has retired; then what its blocks left in their buffers and
the region keys are gone, every granule of a region of an instance that was in RUN is poisoned, and a STOP_INTERFACE_REQUEST is
answered (R444; log 86, log 87). -/
def LeavingEnds : Prop :=
  ∀ (s t : State) (n : Fin 64) (x : IState) (reply : Bool), s.ctxs[n].leaving = some (x, reply) → t = settleLeave s n →
    (ctxDrained s n = true ↔ ∀ q ∈ s.queues, q.ctx = n → toStart s q = false ∧ ∀ f ∈ q.flights, f.retired = true) ∧
    (ctxDrained s n = false → t = s) ∧
    (ctxDrained s n = true →
      t.ctxs = s.ctxs.set n { s.ctxs[n] with
        inst := x, leaving := none, keys := [], bound := if x = .unlocked then none else s.ctxs[n].bound } ∧
      (∀ blk ∈ t.blocks, blk.ctx = n → blk.buffer = []) ∧ t.mem = s.mem ∧ t.span = s.span ∧
      (s.ctxs[n].inst = .run → ∀ (r : Fin 16) (g : Nat), g ∈ regionGranules s.ctxs[n].regions[r] → g ∈ t.badGranules) ∧
      (s.ctxs[n].inst ≠ .run → t.badGranules = s.badGranules) ∧
      (reply = true → t.out.getLast? = some (.tdisp n x)))

/-- An instance is locked from idle by a session, which alone starts it, with a key pair for each valid region under which the
region's granules are decrypted from then on, and stops it, all of it once only; any session takes it out of ERROR (R441 to
R444). What a granule decrypts to is free (log 113). -/
def InstancesMove : Prop :=
  ∀ (s : State) (i : Fin 16) (n : Fin 64) (c : Ctx), InSession s i → c = s.ctxs[n] →
    let now (t : State) (x : IState) : Out1 := .next (Answers t (.tdisp n x))
    let no : Out1 := .next (Answers s .tdispErr)
    ((c.inst = .unlocked ∧ ctxInService s n = false) → exec (.lockInterfaceRequest i.val n) s =
      now { s with ctxs := s.ctxs.set n { c with inst := .locked, bound := some i.val } } .locked) ∧
    (¬(c.inst = .unlocked ∧ ctxInService s n = false) → exec (.lockInterfaceRequest i.val n) s = no) ∧
    ((c.inst = .locked ∧ c.bound = some i.val ∧ c.leaving = none) → ∃ keys : List (Fin 16 × BitVec 128 × BitVec 128),
      keys.map (·.1) = (List.finRange 16).filter (fun r => c.regions[r].valid) ∧
      exec (.startInterfaceRequest i.val n) s = now { decryptRegions s n keys with
        ctxs := s.ctxs.set n { c with inst := .run, keys := keys } } .run) ∧
    (¬(c.inst = .locked ∧ c.bound = some i.val ∧ c.leaving = none) → exec (.startInterfaceRequest i.val n) s = no) ∧
    (∀ (keys : List (Fin 16 × BitVec 128 × BitVec 128)) (a : Nat), Memory.wf s.mem = true →
      (∀ k ∈ keys, a / 32 ∉ regionGranules c.regions[k.1]) → memGet (decryptRegions s n keys).mem a = memGet s.mem a) ∧
    (c.inst = .error → exec (.stopInterfaceRequest i.val n) s =
      now { s with ctxs := s.ctxs.set n { c with inst := .unlocked, bound := none } } .unlocked) ∧
    ((c.inst = .locked ∨ c.inst = .run) → c.bound = some i.val → c.leaving = none → ∃ t,
      exec (.stopInterfaceRequest i.val n) s = .next t ∧ CtxLeaves c t.ctxs[n] .unlocked ∧ PacketsAbort t n ∧
      (t.ctxs[n].leaving = none → t.out.getLast? = some (.tdisp n .unlocked)) ∧
      ((∀ q ∈ t.queues, q.ctx ≠ n) → t.ctxs[n].inst = .unlocked)) ∧
    ((c.inst = .unlocked ∨ ((c.inst = .locked ∨ c.inst = .run) ∧ (c.bound ≠ some i.val ∨ c.leaving ≠ none))) →
      exec (.stopInterfaceRequest i.val n) s = no) ∧
    ((c.bound = none ∨ c.bound = some i.val) → exec (.getDeviceInterfaceState i.val n) s = now s c.inst ∧
      ∃ d, exec (.getDeviceInterfaceReport i.val n) s =
        .next (Answers s (.tdispReport n (c.regions.toList.filter (·.valid)) d))) ∧
    ((c.bound ≠ none ∧ c.bound ≠ some i.val) → exec (.getDeviceInterfaceState i.val n) s = no ∧
      exec (.getDeviceInterfaceReport i.val n) s = no)

/-- An uncorrectable error in a key store is logged and moves a locked instance to ERROR (R441, R449). -/
def KeyStoresFail : Prop :=
  ∀ (s : State) (n : Fin 64), ∃ t, exec (.keyStoreError n) s = .next t ∧
    ((s.ctxs[n].inst = .locked ∨ s.ctxs[n].inst = .run) → CtxLeaves s.ctxs[n] t.ctxs[n] .error ∧ PacketsAbort t n ∧
      ((∀ q ∈ t.queues, q.ctx ≠ n) → t.ctxs[n].inst = .error)) ∧
    ((s.ctxs[n].inst = .unlocked ∨ s.ctxs[n].inst = .error) → LoggedOnly s t)

end Sys2Proof.Claims

/-- Sessions and interface instances (R439 to R445). What a response holds is free, and its number is the model's (log 11); what
an instance bound to a session that ended is bound to, how far leaving RUN destroys what is in flight, and what a region decrypts
to are the model's choices (log 85, log 86, log 87, log 113). -/
def Obligations.SessionsAndInstances : Prop :=
  Sys2Proof.Claims.MessagesAreAnswered ∧ Sys2Proof.Claims.SessionsOpen ∧ Sys2Proof.Claims.SessionsEnd ∧
  Sys2Proof.Claims.LeavingEnds ∧ Sys2Proof.Claims.InstancesMove ∧ Sys2Proof.Claims.KeyStoresFail
end

