-- ==== Sys2Proof/Laws/Codec.lean ====
section
/-!
SUPPORT. The decoder reads what the encoder writes, field by field.
-/
set_option linter.unusedSimpArgs false
set_option linter.flexible false

namespace Sys2Proof.Laws

open Sys2Proof

/-! ## Words and fields -/

theorem splitWord_packWord (f : Fields) : splitWord (packWord f) = f := by
  obtain ⟨m, c, b, a, d, h, i, p, cl, op⟩ := f
  simp only [splitWord, packWord, Fields.mk.injEq]
  refine ⟨?_, ?_, ?_, ?_, ?_, ?_, ?_, ?_, ?_, ?_⟩ <;>
  simp (discharger := omega) only [BitVec.extractLsb'_append_eq_of_le, BitVec.extractLsb'_append_eq_of_add_le, BitVec.extractLsb'_eq_self, Nat.reduceSub]

/-- Every name of a set of names reads back from its code. -/
@[simp] theorem names_read :
    (∀ x : View, decView (encView x) = some x) ∧
    (∀ x : Special, decSpecial (encSpecial x) = some x) ∧
    (∀ x : Size, decSize (encSize x) = some x) ∧
    (∀ x : Width, decWidth (encWidth x) = x) ∧
    (∀ x : RMode, decRMode (encRMode x) = x) ∧
    (∀ x : Pack, decPack (encPack x) = some x) ∧
    (∀ x : Scope, decScope (encScope x) = some x) ∧
    (∀ x : Order, decOrder (encOrder x) = x) ∧
    (∀ x : ICmp, decICmp (encICmp x) = some x) ∧
    (∀ x : FCmp, decFCmp (encFCmp x) = x) ∧
    (∀ x : CvtType, decCvt (encCvt x) = some x) ∧
    (∀ x : ShflMode, decShfl (encShfl x) = x) ∧
    (∀ x : RedOp, decRed (encRed x) = some x) ∧
    (∀ x : PLogic, decPLogic (encPLogic x) = some x) ∧
    (∀ x : AtomOp, decAtom (encAtom x) = x) ∧
    (∀ x : WCmp, decWCmp (encWCmp x) = some x) ∧
    (∀ x : SigOp, decSigOp (encSigOp x) = some x) ∧
    (∀ x : MmaKind, decMma (encMma x) = some x) ∧
    (∀ x : MConv, decConv (encConv x) = some x) ∧
    (∀ x : MCtr, decCtr (encCtr x) = x) := by
  and_intros <;> intro x <;> cases x <;> rfl

theorem app_hi {v w s n : Nat} {x : BitVec v} {y : BitVec w} (h : w ≤ s) :
    (x ++ y).extractLsb' s n = x.extractLsb' (s - w) n := BitVec.extractLsb'_append_eq_of_le h
theorem app_lo {v w s n : Nat} {x : BitVec v} {y : BitVec w} (h : s + n ≤ w) :
    (x ++ y).extractLsb' s n = y.extractLsb' s n := BitVec.extractLsb'_append_eq_of_add_le h
theorem bit_hi {v w i : Nat} {x : BitVec v} {y : BitVec w} (h : w ≤ i) :
    (x ++ y).getLsbD i = x.getLsbD (i - w) := by rw [BitVec.getLsbD_append]; simp; omega
theorem bit_lo {v w i : Nat} {x : BitVec v} {y : BitVec w} (h : i < w) :
    (x ++ y).getLsbD i = y.getLsbD i := by rw [BitVec.getLsbD_append]; simp [h]
theorem app_mid {v w s n : Nat} {x : BitVec v} {y : BitVec w} (h1 : s < w) (h2 : w < s + n) (hn : n = (n - (w - s)) + (w - s)) :
    (x ++ y).extractLsb' s n = (x.extractLsb' 0 (n - (w - s)) ++ y.extractLsb' s (w - s)).cast hn.symm := by
  rw [BitVec.extractLsb'_append_eq_ite]
  rw [dif_pos h1, dif_neg (by omega)]
  have : s - w = 0 := by omega
  rw [this]


theorem ext_zero {w s n : Nat} : (0 : BitVec w).extractLsb' s n = 0 := by simp
@[simp] theorem ofFin_toFin {w : Nat} (x : BitVec w) : BitVec.ofFin x.toFin = x := rfl
@[simp] theorem decSrc_encSrc (s : Src) : decSrc (encSrc s) = some s := by
  cases s <;> simp (discharger := omega) only [decSrc, encSrc, app_hi, app_lo, bit_hi, bit_lo, BitVec.extractLsb'_eq_self, Nat.reduceSub]
  all_goals simp [fin256, fin8]
@[simp] theorem decDst_encDst (s : Dst) : decDst (encDst s) = some s := by
  cases s <;> simp (discharger := omega) only [decDst, encDst, app_hi, app_lo, bit_hi, bit_lo, BitVec.extractLsb'_eq_self, Nat.reduceSub]
  all_goals simp [fin256, fin8]
@[simp] theorem decReg10_encReg10 (s : RegSrc) : decReg10 (encReg10 s) = some s := by
  cases s <;> simp (discharger := omega) only [decReg10, encReg10, app_hi, app_lo, bit_hi, bit_lo, BitVec.extractLsb'_eq_self, Nat.reduceSub]
  all_goals simp [fin256, fin8]
@[simp] theorem decRegSrc_encRegSrc (s : RegSrc) : decRegSrc (encRegSrc s) = some s := by
  simp (discharger := omega) only [decRegSrc, encRegSrc, app_hi, app_lo, bit_hi, bit_lo, BitVec.extractLsb'_eq_self, Nat.reduceSub]
  simp
@[simp] theorem decVReg_encVReg (s : Fin 256) : decVReg (encVReg s) = some s := by
  simp (discharger := omega) only [decVReg, encVReg, app_hi, app_lo, bit_hi, bit_lo, BitVec.extractLsb'_eq_self, Nat.reduceSub]
  simp [fin256]
@[simp] theorem decPair_encPair (s : Fin 128) : decPair (encPair s) = some s := by
  simp (discharger := omega) only [decPair, encPair, app_hi, app_lo, bit_hi, bit_lo, BitVec.extractLsb'_eq_self, Nat.reduceSub]
  simp
@[simp] theorem decP_encP (s : Fin 8) : decP (encP s) = some s := by
  simp (discharger := omega) only [decP, encP, app_hi, app_lo, bit_hi, bit_lo, BitVec.extractLsb'_eq_self, Nat.reduceSub]
  simp [fin8]
@[simp] theorem decPS_encPS (s : PSrc) : decPS (encPS s) = some s := by
  simp (discharger := omega) only [decPS, encPS, app_hi, app_lo, bit_hi, bit_lo, BitVec.extractLsb'_eq_self, Nat.reduceSub]
  simp [fin8]
@[simp] theorem decK_encK (s : BitVec 14) : decK (encK s) = some s := by
  simp (discharger := omega) only [decK, encK, app_hi, app_lo, bit_hi, bit_lo, BitVec.extractLsb'_eq_self, Nat.reduceSub]
  simp
@[simp] theorem decN_encN (s : BitVec 13) : decN (encN s) = some s := by
  simp only [decN, encN, decK_encK]; simp
@[simp] theorem decSel_encSel (w : Nat) (hw : w ≤ 14) (s : BitVec w) : decSel w (encSel w s) = some s := by
  have h : (s.setWidth 14).setWidth w = s := by
    apply BitVec.eq_of_toNat_eq; simp [BitVec.toNat_setWidth]
    have := s.isLt; have h2 : 2 ^ w ≤ 2 ^ 14 := Nat.pow_le_pow_right (by omega) hw
    rw [Nat.mod_eq_of_lt (a := s.toNat) (by omega)]
    exact Nat.mod_eq_of_lt this
  simp only [decSel, encSel, decK_encK]; simp [h]
@[simp] theorem decHSrc_encHSrc (s : HSrc) : decHSrc (encHSrc s) = some s := by
  cases s <;> simp (discharger := omega) only [decHSrc, encHSrc, app_hi, app_lo, bit_hi, bit_lo, BitVec.extractLsb'_eq_self, Nat.reduceSub]
  all_goals simp [fin8]
@[simp] theorem decHDst_encHDst (s : HDst) : decHDst (encHDst s) = some s := by cases s <;> simp [decHDst, encHDst]
@[simp] theorem decS_encS (n : Fin 64) : decS (encS n) = some n := by simp [decS, encS]
@[simp] theorem decQ_encQ (n : Fin 8) : decQ (encQ n) = some n := by simp [decQ, encQ]
@[simp] theorem decRes_encRes {n : Nat} (hn : n ≤ 256) (k : Fin n) : decRes n (encRes k) = some k := by
  have h1 := k.isLt
  have h2 : k.val % 256 = k.val := Nat.mod_eq_of_lt (by omega)
  simp (discharger := omega) only [decRes, encRes, app_hi, app_lo, bit_hi, bit_lo, BitVec.extractLsb'_eq_self, Nat.reduceSub]
  simp [h2]
@[simp] theorem decPar_encPar (n : Fin 64) : decPar (encPar n) = some n := by
  simp (discharger := omega) only [decPar, encPar, app_hi, app_lo, bit_hi, bit_lo, BitVec.extractLsb'_eq_self, Nat.reduceSub]
  simp
@[simp] theorem decCnt_encCnt (n : BitVec 16) : decCnt (encCnt n) = some n := by
  simp (discharger := omega) only [decCnt, encCnt, app_hi, app_lo, bit_hi, bit_lo, BitVec.extractLsb'_eq_self, Nat.reduceSub]
  simp
@[simp] theorem decPC_encPC (p : PC) : decPC (encPC p) = some p := by
  cases p
  · have : (encPar ‹_›).extractLsb' 0 2 = 1 := by
      simp (discharger := omega) only [encPar, app_lo, BitVec.extractLsb'_eq_self]
    simp [decPC, encPC, this]
  · have : (encCnt ‹_›).extractLsb' 0 2 = 3 := by
      simp (discharger := omega) only [encCnt, app_lo, BitVec.extractLsb'_eq_self]
    simp [decPC, encPC, this]
@[simp] theorem decDesc_encDesc (d : Desc) : decDesc (encDesc d) = some d := by
  simp (discharger := omega) only [decDesc, encDesc, app_hi, app_lo, bit_hi, bit_lo, BitVec.extractLsb'_eq_self, Nat.reduceSub]
  simp
@[simp] theorem immOf_imm (x : BitVec 32) (m a d h i p cl op) : immOf ⟨m, immC x, immB x, a, d, h, i, p, cl, op⟩ = x := by
  simp (discharger := omega) only [immOf, immB, immC, app_lo, BitVec.extractLsb'_eq_self]
  apply BitVec.eq_of_getLsbD_eq
  intro i hi
  rw [BitVec.getLsbD_append]
  by_cases h : i < 18
  · simp [h]
  · have e : 18 + (i - 18) = i := by omega
    have e2 : i - 18 < 14 := by omega
    simp [h, e, e2]
@[simp] theorem immOk_imm (x : BitVec 32) (m a d h i p cl op) : immOk ⟨m, immC x, immB x, a, d, h, i, p, cl, op⟩ = true := by
  simp (discharger := omega) only [immOk, immC, app_hi, Nat.reduceSub]
  simp
@[simp] theorem ctlOf_mk (c : Ctl) (m e b a d cl op) :
    ctlOf { mod := m, c := e, b := b, a := a, dst := d, hint := c.hint, inv := BitVec.ofBool c.inv,
            pred := BitVec.ofFin (w := 3) c.pred, cls := cl, op := op } = c := by
  obtain ⟨p, i, h⟩ := c
  cases i <;> simp [ctlOf, fin8]
/-- What a word made of fields spells, where the fields spell an instruction that passes the checks. -/
theorem decode_mk {cls op c dst a b e mod} {i : Instr} (hw : i.wf = true)
    (h : decFields { mod := mod, c := e, b := b, a := a, dst := dst, hint := c.hint, inv := BitVec.ofBool c.inv,
                     pred := BitVec.ofFin (w := 3) c.pred, cls := cls, op := op } = some i) :
    decode (mk cls op c dst a b e mod) = some i := by
  simp only [decode, mk, splitWord_packWord, h, hw, if_true]

/-! ## Modifiers -/

@[simp] theorem modInt_width (hi u sat w) : (modInt hi u sat w).extractLsb' 0 2 = encWidth w := by
  cases u <;> cases sat <;> cases w <;> simp (discharger := omega) only [modInt, app_lo, BitVec.extractLsb'_eq_self]
@[simp] theorem modInt_sat (hi u sat w) : (modInt hi u sat w)[2] = sat := by
  rw [← BitVec.getLsbD_eq_getElem]
  simp (discharger := omega) only [modInt, bit_lo, bit_hi]
  cases sat <;> rfl
@[simp] theorem modInt_u (hi u sat w) : (modInt hi u sat w)[3] = u := by
  rw [← BitVec.getLsbD_eq_getElem]
  simp (discharger := omega) only [modInt, bit_lo, bit_hi]
  cases u <;> rfl
@[simp] theorem modInt_0xF (u sat w) : modInt 0#2 u sat w &&& 48#6 = 0#6 := by
  cases u <;> cases sat <;> cases w <;> rfl
@[simp] theorem modInt_0xB (u w) : modInt 0#2 u false w &&& 52#6 = 0#6 := by cases u <;> cases w <;> rfl
@[simp] theorem modInt_0x7 (sat w) : modInt 0#2 false sat w &&& 56#6 = 0#6 := by cases sat <;> cases w <;> rfl
@[simp] theorem modInt_0x8 (u) : modInt 0#2 u false .w32 &&& 55#6 = 0#6 := by cases u <;> rfl
@[simp] theorem modInt_0x3 (w) : modInt 0#2 false false w &&& 60#6 = 0#6 := by cases w <;> rfl
@[simp] theorem modInt_0xC (u sat) : modInt 0#2 u sat .w32 &&& 51#6 = 0#6 := by cases u <;> cases sat <;> rfl
@[simp] theorem modInt_0x4 (sat) : modInt 0#2 false sat .w32 &&& 59#6 = 0#6 := by cases sat <;> rfl
@[simp] theorem modFp_rm (pk rm) : (modFp pk rm).extractLsb' 0 2 = encRMode rm := by
  simp (discharger := omega) only [modFp, app_lo, BitVec.extractLsb'_eq_self]
@[simp] theorem modFp_pk (pk rm) : (modFp pk rm).extractLsb' 2 2 = encPack pk := by
  simp (discharger := omega) only [modFp, app_lo, app_hi, BitVec.extractLsb'_eq_self, Nat.reduceSub]
@[simp] theorem modFp_0xF (pk rm) : modFp pk rm &&& 48#6 = 0#6 := by cases pk <;> cases rm <;> rfl
@[simp] theorem modFp_0xC (pk) : modFp pk .rn &&& 51#6 = 0#6 := by cases pk <;> rfl
@[simp] theorem modMem_scope (t o sc) : (modMem t o sc).extractLsb' 0 3 = encScope sc := by
  simp (discharger := omega) only [modMem, app_lo, BitVec.extractLsb'_eq_self]
@[simp] theorem modMem_order (t o sc) : (modMem t o sc).extractLsb' 3 2 = encOrder o := by
  simp (discharger := omega) only [modMem, app_lo, app_hi, BitVec.extractLsb'_eq_self, Nat.reduceSub]
@[simp] theorem modMem_top (t o sc) : (modMem t o sc)[5] = t := by
  rw [← BitVec.getLsbD_eq_getElem]
  simp (discharger := omega) only [modMem, bit_lo, bit_hi]
  cases t <;> rfl
@[simp] theorem modMem_0x1F (o sc) : modMem false o sc &&& 32#6 = 0#6 := by cases o <;> cases sc <;> rfl
@[simp] theorem mod0_bit (b) : (mod0 b)[0] = b := by cases b <;> rfl
@[simp] theorem decDesc_descOf (opx sz ver sx raw) : decDesc (descOf opx sz ver sx raw) = some ⟨opx, ver, sx, raw, sz⟩ := by
  simp [descOf]
@[simp] theorem atomOf_opxAtom (op u sz) : atomOf ⟨opxAtom op u, false, false, false, sz⟩ = some (op, u) := by
  cases op <;> cases u <;> simp [atomOf, opxAtom, encAtom, decAtom]
@[simp] theorem low_encN (n) : (encN n).extractLsb' 0 2 = 3#2 := by
  simp (discharger := omega) only [encN, encK, app_lo, BitVec.extractLsb'_eq_self]; rfl
@[simp] theorem low_encK (n) : (encK n).extractLsb' 0 2 = 3#2 := by
  simp (discharger := omega) only [encK, app_lo, BitVec.extractLsb'_eq_self]; rfl
@[simp] theorem low_encPair (k) : (encPair k).extractLsb' 0 2 = 0#2 := by
  simp (discharger := omega) only [encPair, app_lo]; rfl
@[simp] theorem lop_reg (tt : BitVec 8) (e) : (tt ++ encReg10 e).extractLsb' 0 10 = encReg10 e := by
  simp (discharger := omega) only [app_lo, BitVec.extractLsb'_eq_self]
@[simp] theorem lop_tt (tt : BitVec 8) (e) : (tt ++ encReg10 e).extractLsb' 10 8 = tt := by
  simp (discharger := omega) only [app_hi, BitVec.extractLsb'_eq_self, Nat.reduceSub]
@[simp] theorem cvt_src (rm dt st) : (encRMode rm ++ encCvt dt ++ encCvt st).extractLsb' 0 4 = encCvt st := by
  simp (discharger := omega) only [app_lo, BitVec.extractLsb'_eq_self]
@[simp] theorem cvt_dst (rm dt st) : (encRMode rm ++ encCvt dt ++ encCvt st).extractLsb' 4 4 = encCvt dt := by
  simp (discharger := omega) only [app_lo, app_hi, BitVec.extractLsb'_eq_self, Nat.reduceSub]
@[simp] theorem cvt_rm (rm dt st) : (encRMode rm ++ encCvt dt ++ encCvt st).extractLsb' 8 2 = encRMode rm := by
  simp (discharger := omega) only [app_hi, BitVec.extractLsb'_eq_self, Nat.reduceSub]
theorem ver_lo (n : BitVec 8) : ((0 : BitVec 4) ++ n).extractLsb' 0 8 = n := by
  simp (discharger := omega) only [app_lo, BitVec.extractLsb'_eq_self]
theorem ver_hi (n : BitVec 8) : ((0 : BitVec 4) ++ n).extractLsb' 8 4 = 0 := by
  simp (discharger := omega) only [app_hi, BitVec.extractLsb'_eq_self, Nat.reduceSub]
@[simp] theorem decDesc_descSt (v raw sz) : decDesc (descSt v raw sz) =
    some (match v with
      | none => ⟨0, false, false, raw, sz⟩
      | some n => ⟨(0 : BitVec 4) ++ n, true, false, raw, sz⟩) := by
  cases v <;> simp [descSt]
theorem verOf_some (n : BitVec 8) (raw sz) : verOf ⟨0#4 ++ n, true, false, raw, sz⟩ = some (some n) := by
  have h := ver_lo n
  have k := ver_hi n
  simp only [verOf]
  rw [show (0#4 : BitVec 4) = 0 from rfl, h, k]; rfl
theorem verOf_none (raw sz) : verOf ⟨0#12, false, false, raw, sz⟩ = some none := by simp [verOf]
@[simp] theorem fin8_mk (n : Fin 8) : fin8 { toFin := n } = n := by simp [fin8]
@[simp] theorem mod0_1 (b) : mod0 b &&& 62#6 = 0#6 := by cases b <;> rfl

end Sys2Proof.Laws
end

