-- ==== Sys2Proof/Laws/State.lean ====
section
/-!
SUPPORT. What the named updates of the state leave as it is: one lemma per field for each base update, and one frame
equation for each update built on them.
-/
namespace Sys2Proof.Machine

open Sys2Proof

variable (s : State)

/-! ## modBlock -/

@[simp] theorem modBlock_agenda (b : Nat) (f : Block → Block) : (modBlock s b f).agenda = s.agenda := rfl
@[simp] theorem modBlock_cur (b : Nat) (f : Block → Block) : (modBlock s b f).cur = s.cur := rfl
@[simp] theorem modBlock_tick (b : Nat) (f : Block → Block) : (modBlock s b f).tick = s.tick := rfl
@[simp] theorem modBlock_now (b : Nat) (f : Block → Block) : (modBlock s b f).now = s.now := rfl
@[simp] theorem modBlock_out (b : Nat) (f : Block → Block) : (modBlock s b f).out = s.out := rfl
@[simp] theorem modBlock_nextId (b : Nat) (f : Block → Block) : (modBlock s b f).nextId = s.nextId := rfl
@[simp] theorem modBlock_boot (b : Nat) (f : Block → Block) : (modBlock s b f).boot = s.boot := rfl
@[simp] theorem modBlock_mem (b : Nat) (f : Block → Block) : (modBlock s b f).mem = s.mem := rfl
@[simp] theorem modBlock_span (b : Nat) (f : Block → Block) : (modBlock s b f).span = s.span := rfl
@[simp] theorem modBlock_lineVer (b : Nat) (f : Block → Block) : (modBlock s b f).lineVer = s.lineVer := rfl
@[simp] theorem modBlock_badGranules (b : Nat) (f : Block → Block) : (modBlock s b f).badGranules = s.badGranules := rfl
@[simp] theorem modBlock_badSpan (b : Nat) (f : Block → Block) : (modBlock s b f).badSpan = s.badSpan := rfl
@[simp] theorem modBlock_cells (b : Nat) (f : Block → Block) : (modBlock s b f).cells = s.cells := rfl
@[simp] theorem modBlock_reports (b : Nat) (f : Block → Block) : (modBlock s b f).reports = s.reports := rfl
@[simp] theorem modBlock_spanRanges (b : Nat) (f : Block → Block) : (modBlock s b f).spanRanges = s.spanRanges := rfl
@[simp] theorem modBlock_scrubs (b : Nat) (f : Block → Block) : (modBlock s b f).scrubs = s.scrubs := rfl
@[simp] theorem modBlock_wrote (b : Nat) (f : Block → Block) : (modBlock s b f).wrote = s.wrote := rfl
@[simp] theorem modBlock_cores (b : Nat) (f : Block → Block) : (modBlock s b f).cores = s.cores := rfl
@[simp] theorem modBlock_nodes (b : Nat) (f : Block → Block) : (modBlock s b f).nodes = s.nodes := rfl
@[simp] theorem modBlock_graphs (b : Nat) (f : Block → Block) : (modBlock s b f).graphs = s.graphs := rfl
@[simp] theorem modBlock_queues (b : Nat) (f : Block → Block) : (modBlock s b f).queues = s.queues := rfl
@[simp] theorem modBlock_counters (b : Nat) (f : Block → Block) : (modBlock s b f).counters = s.counters := rfl
@[simp] theorem modBlock_charges (b : Nat) (f : Block → Block) : (modBlock s b f).charges = s.charges := rfl
@[simp] theorem modBlock_lastTurn (b : Nat) (f : Block → Block) : (modBlock s b f).lastTurn = s.lastTurn := rfl
@[simp] theorem modBlock_ctxs (b : Nat) (f : Block → Block) : (modBlock s b f).ctxs = s.ctxs := rfl
@[simp] theorem modBlock_dieTlb (b : Nat) (f : Block → Block) : (modBlock s b f).dieTlb = s.dieTlb := rfl
@[simp] theorem modBlock_ring (b : Nat) (f : Block → Block) : (modBlock s b f).ring = s.ring := rfl
@[simp] theorem modBlock_shoots (b : Nat) (f : Block → Block) : (modBlock s b f).shoots = s.shoots := rfl
@[simp] theorem modBlock_migs (b : Nat) (f : Block → Block) : (modBlock s b f).migs = s.migs := rfl
@[simp] theorem modBlock_migWait (b : Nat) (f : Block → Block) : (modBlock s b f).migWait = s.migWait := rfl
@[simp] theorem modBlock_staged (b : Nat) (f : Block → Block) : (modBlock s b f).staged = s.staged := rfl
@[simp] theorem modBlock_migHeld (b : Nat) (f : Block → Block) : (modBlock s b f).migHeld = s.migHeld := rfl
@[simp] theorem modBlock_ports (b : Nat) (f : Block → Block) : (modBlock s b f).ports = s.ports := rfl
@[simp] theorem modBlock_windows (b : Nat) (f : Block → Block) : (modBlock s b f).windows = s.windows := rfl
@[simp] theorem modBlock_fabOps (b : Nat) (f : Block → Block) : (modBlock s b f).fabOps = s.fabOps := rfl
@[simp] theorem modBlock_held (b : Nat) (f : Block → Block) : (modBlock s b f).held = s.held := rfl
@[simp] theorem modBlock_pwrBudget (b : Nat) (f : Block → Block) : (modBlock s b f).pwrBudget = s.pwrBudget := rfl
@[simp] theorem modBlock_vgrant (b : Nat) (f : Block → Block) : (modBlock s b f).vgrant = s.vgrant := rfl
@[simp] theorem modBlock_hgrant (b : Nat) (f : Block → Block) : (modBlock s b f).hgrant = s.hgrant := rfl
@[simp] theorem modBlock_mgrant (b : Nat) (f : Block → Block) : (modBlock s b f).mgrant = s.mgrant := rfl
@[simp] theorem modBlock_draw (b : Nat) (f : Block → Block) : (modBlock s b f).draw = s.draw := rfl
@[simp] theorem modBlock_matrixReqs (b : Nat) (f : Block → Block) : (modBlock s b f).matrixReqs = s.matrixReqs := rfl
@[simp] theorem modBlock_epochs (b : Nat) (f : Block → Block) : (modBlock s b f).epochs = s.epochs := rfl
@[simp] theorem modBlock_levels (b : Nat) (f : Block → Block) : (modBlock s b f).levels = s.levels := rfl
@[simp] theorem modBlock_errlog (b : Nat) (f : Block → Block) : (modBlock s b f).errlog = s.errlog := rfl
@[simp] theorem modBlock_errCount (b : Nat) (f : Block → Block) : (modBlock s b f).errCount = s.errCount := rfl
@[simp] theorem modBlock_errlist (b : Nat) (f : Block → Block) : (modBlock s b f).errlist = s.errlist := rfl
@[simp] theorem modBlock_sessions (b : Nat) (f : Block → Block) : (modBlock s b f).sessions = s.sessions := rfl
@[simp] theorem modBlock_requests (b : Nat) (f : Block → Block) : (modBlock s b f).requests = s.requests := rfl
@[simp] theorem modBlock_hbmStacks (b : Nat) (f : Block → Block) : (modBlock s b f).hbmStacks = s.hbmStacks := rfl
@[simp] theorem modBlock_spares (b : Nat) (f : Block → Block) : (modBlock s b f).spares = s.spares := rfl
@[simp] theorem modBlock_banks (b : Nat) (f : Block → Block) : (modBlock s b f).banks = s.banks := rfl
@[simp] theorem modBlock_tcm (b : Nat) (f : Block → Block) : (modBlock s b f).tcm = s.tcm := rfl
@[simp] theorem modBlock_bank (b : Nat) (f : Block → Block) : (modBlock s b f).bank = s.bank := rfl
@[simp] theorem modBlock_measures (b : Nat) (f : Block → Block) : (modBlock s b f).measures = s.measures := rfl
@[simp] theorem modBlock_calWait (b : Nat) (f : Block → Block) : (modBlock s b f).calWait = s.calWait := rfl

/-! ## modNode -/

@[simp] theorem modNode_agenda (n : Nat) (f : Node → Node) : (modNode s n f).agenda = s.agenda := rfl
@[simp] theorem modNode_cur (n : Nat) (f : Node → Node) : (modNode s n f).cur = s.cur := rfl
@[simp] theorem modNode_tick (n : Nat) (f : Node → Node) : (modNode s n f).tick = s.tick := rfl
@[simp] theorem modNode_now (n : Nat) (f : Node → Node) : (modNode s n f).now = s.now := rfl
@[simp] theorem modNode_out (n : Nat) (f : Node → Node) : (modNode s n f).out = s.out := rfl
@[simp] theorem modNode_nextId (n : Nat) (f : Node → Node) : (modNode s n f).nextId = s.nextId := rfl
@[simp] theorem modNode_boot (n : Nat) (f : Node → Node) : (modNode s n f).boot = s.boot := rfl
@[simp] theorem modNode_mem (n : Nat) (f : Node → Node) : (modNode s n f).mem = s.mem := rfl
@[simp] theorem modNode_span (n : Nat) (f : Node → Node) : (modNode s n f).span = s.span := rfl
@[simp] theorem modNode_lineVer (n : Nat) (f : Node → Node) : (modNode s n f).lineVer = s.lineVer := rfl
@[simp] theorem modNode_badGranules (n : Nat) (f : Node → Node) : (modNode s n f).badGranules = s.badGranules := rfl
@[simp] theorem modNode_badSpan (n : Nat) (f : Node → Node) : (modNode s n f).badSpan = s.badSpan := rfl
@[simp] theorem modNode_cells (n : Nat) (f : Node → Node) : (modNode s n f).cells = s.cells := rfl
@[simp] theorem modNode_reports (n : Nat) (f : Node → Node) : (modNode s n f).reports = s.reports := rfl
@[simp] theorem modNode_spanRanges (n : Nat) (f : Node → Node) : (modNode s n f).spanRanges = s.spanRanges := rfl
@[simp] theorem modNode_scrubs (n : Nat) (f : Node → Node) : (modNode s n f).scrubs = s.scrubs := rfl
@[simp] theorem modNode_wrote (n : Nat) (f : Node → Node) : (modNode s n f).wrote = s.wrote := rfl
@[simp] theorem modNode_cores (n : Nat) (f : Node → Node) : (modNode s n f).cores = s.cores := rfl
@[simp] theorem modNode_blocks (n : Nat) (f : Node → Node) : (modNode s n f).blocks = s.blocks := rfl
@[simp] theorem modNode_graphs (n : Nat) (f : Node → Node) : (modNode s n f).graphs = s.graphs := rfl
@[simp] theorem modNode_queues (n : Nat) (f : Node → Node) : (modNode s n f).queues = s.queues := rfl
@[simp] theorem modNode_counters (n : Nat) (f : Node → Node) : (modNode s n f).counters = s.counters := rfl
@[simp] theorem modNode_charges (n : Nat) (f : Node → Node) : (modNode s n f).charges = s.charges := rfl
@[simp] theorem modNode_lastTurn (n : Nat) (f : Node → Node) : (modNode s n f).lastTurn = s.lastTurn := rfl
@[simp] theorem modNode_ctxs (n : Nat) (f : Node → Node) : (modNode s n f).ctxs = s.ctxs := rfl
@[simp] theorem modNode_dieTlb (n : Nat) (f : Node → Node) : (modNode s n f).dieTlb = s.dieTlb := rfl
@[simp] theorem modNode_ring (n : Nat) (f : Node → Node) : (modNode s n f).ring = s.ring := rfl
@[simp] theorem modNode_shoots (n : Nat) (f : Node → Node) : (modNode s n f).shoots = s.shoots := rfl
@[simp] theorem modNode_migs (n : Nat) (f : Node → Node) : (modNode s n f).migs = s.migs := rfl
@[simp] theorem modNode_migWait (n : Nat) (f : Node → Node) : (modNode s n f).migWait = s.migWait := rfl
@[simp] theorem modNode_staged (n : Nat) (f : Node → Node) : (modNode s n f).staged = s.staged := rfl
@[simp] theorem modNode_migHeld (n : Nat) (f : Node → Node) : (modNode s n f).migHeld = s.migHeld := rfl
@[simp] theorem modNode_ports (n : Nat) (f : Node → Node) : (modNode s n f).ports = s.ports := rfl
@[simp] theorem modNode_windows (n : Nat) (f : Node → Node) : (modNode s n f).windows = s.windows := rfl
@[simp] theorem modNode_fabOps (n : Nat) (f : Node → Node) : (modNode s n f).fabOps = s.fabOps := rfl
@[simp] theorem modNode_held (n : Nat) (f : Node → Node) : (modNode s n f).held = s.held := rfl
@[simp] theorem modNode_pwrBudget (n : Nat) (f : Node → Node) : (modNode s n f).pwrBudget = s.pwrBudget := rfl
@[simp] theorem modNode_vgrant (n : Nat) (f : Node → Node) : (modNode s n f).vgrant = s.vgrant := rfl
@[simp] theorem modNode_hgrant (n : Nat) (f : Node → Node) : (modNode s n f).hgrant = s.hgrant := rfl
@[simp] theorem modNode_mgrant (n : Nat) (f : Node → Node) : (modNode s n f).mgrant = s.mgrant := rfl
@[simp] theorem modNode_draw (n : Nat) (f : Node → Node) : (modNode s n f).draw = s.draw := rfl
@[simp] theorem modNode_matrixReqs (n : Nat) (f : Node → Node) : (modNode s n f).matrixReqs = s.matrixReqs := rfl
@[simp] theorem modNode_epochs (n : Nat) (f : Node → Node) : (modNode s n f).epochs = s.epochs := rfl
@[simp] theorem modNode_levels (n : Nat) (f : Node → Node) : (modNode s n f).levels = s.levels := rfl
@[simp] theorem modNode_errlog (n : Nat) (f : Node → Node) : (modNode s n f).errlog = s.errlog := rfl
@[simp] theorem modNode_errCount (n : Nat) (f : Node → Node) : (modNode s n f).errCount = s.errCount := rfl
@[simp] theorem modNode_errlist (n : Nat) (f : Node → Node) : (modNode s n f).errlist = s.errlist := rfl
@[simp] theorem modNode_sessions (n : Nat) (f : Node → Node) : (modNode s n f).sessions = s.sessions := rfl
@[simp] theorem modNode_requests (n : Nat) (f : Node → Node) : (modNode s n f).requests = s.requests := rfl
@[simp] theorem modNode_hbmStacks (n : Nat) (f : Node → Node) : (modNode s n f).hbmStacks = s.hbmStacks := rfl
@[simp] theorem modNode_spares (n : Nat) (f : Node → Node) : (modNode s n f).spares = s.spares := rfl
@[simp] theorem modNode_banks (n : Nat) (f : Node → Node) : (modNode s n f).banks = s.banks := rfl
@[simp] theorem modNode_tcm (n : Nat) (f : Node → Node) : (modNode s n f).tcm = s.tcm := rfl
@[simp] theorem modNode_bank (n : Nat) (f : Node → Node) : (modNode s n f).bank = s.bank := rfl
@[simp] theorem modNode_measures (n : Nat) (f : Node → Node) : (modNode s n f).measures = s.measures := rfl
@[simp] theorem modNode_calWait (n : Nat) (f : Node → Node) : (modNode s n f).calWait = s.calWait := rfl

/-! ## modCore -/

@[simp] theorem modCore_agenda (c : Fin 256) (f : Core → Core) : (modCore s c f).agenda = s.agenda := rfl
@[simp] theorem modCore_cur (c : Fin 256) (f : Core → Core) : (modCore s c f).cur = s.cur := rfl
@[simp] theorem modCore_tick (c : Fin 256) (f : Core → Core) : (modCore s c f).tick = s.tick := rfl
@[simp] theorem modCore_now (c : Fin 256) (f : Core → Core) : (modCore s c f).now = s.now := rfl
@[simp] theorem modCore_out (c : Fin 256) (f : Core → Core) : (modCore s c f).out = s.out := rfl
@[simp] theorem modCore_nextId (c : Fin 256) (f : Core → Core) : (modCore s c f).nextId = s.nextId := rfl
@[simp] theorem modCore_boot (c : Fin 256) (f : Core → Core) : (modCore s c f).boot = s.boot := rfl
@[simp] theorem modCore_mem (c : Fin 256) (f : Core → Core) : (modCore s c f).mem = s.mem := rfl
@[simp] theorem modCore_span (c : Fin 256) (f : Core → Core) : (modCore s c f).span = s.span := rfl
@[simp] theorem modCore_lineVer (c : Fin 256) (f : Core → Core) : (modCore s c f).lineVer = s.lineVer := rfl
@[simp] theorem modCore_badGranules (c : Fin 256) (f : Core → Core) : (modCore s c f).badGranules = s.badGranules := rfl
@[simp] theorem modCore_badSpan (c : Fin 256) (f : Core → Core) : (modCore s c f).badSpan = s.badSpan := rfl
@[simp] theorem modCore_cells (c : Fin 256) (f : Core → Core) : (modCore s c f).cells = s.cells := rfl
@[simp] theorem modCore_reports (c : Fin 256) (f : Core → Core) : (modCore s c f).reports = s.reports := rfl
@[simp] theorem modCore_spanRanges (c : Fin 256) (f : Core → Core) : (modCore s c f).spanRanges = s.spanRanges := rfl
@[simp] theorem modCore_scrubs (c : Fin 256) (f : Core → Core) : (modCore s c f).scrubs = s.scrubs := rfl
@[simp] theorem modCore_wrote (c : Fin 256) (f : Core → Core) : (modCore s c f).wrote = s.wrote := rfl
@[simp] theorem modCore_blocks (c : Fin 256) (f : Core → Core) : (modCore s c f).blocks = s.blocks := rfl
@[simp] theorem modCore_nodes (c : Fin 256) (f : Core → Core) : (modCore s c f).nodes = s.nodes := rfl
@[simp] theorem modCore_graphs (c : Fin 256) (f : Core → Core) : (modCore s c f).graphs = s.graphs := rfl
@[simp] theorem modCore_queues (c : Fin 256) (f : Core → Core) : (modCore s c f).queues = s.queues := rfl
@[simp] theorem modCore_counters (c : Fin 256) (f : Core → Core) : (modCore s c f).counters = s.counters := rfl
@[simp] theorem modCore_charges (c : Fin 256) (f : Core → Core) : (modCore s c f).charges = s.charges := rfl
@[simp] theorem modCore_lastTurn (c : Fin 256) (f : Core → Core) : (modCore s c f).lastTurn = s.lastTurn := rfl
@[simp] theorem modCore_ctxs (c : Fin 256) (f : Core → Core) : (modCore s c f).ctxs = s.ctxs := rfl
@[simp] theorem modCore_dieTlb (c : Fin 256) (f : Core → Core) : (modCore s c f).dieTlb = s.dieTlb := rfl
@[simp] theorem modCore_ring (c : Fin 256) (f : Core → Core) : (modCore s c f).ring = s.ring := rfl
@[simp] theorem modCore_shoots (c : Fin 256) (f : Core → Core) : (modCore s c f).shoots = s.shoots := rfl
@[simp] theorem modCore_migs (c : Fin 256) (f : Core → Core) : (modCore s c f).migs = s.migs := rfl
@[simp] theorem modCore_migWait (c : Fin 256) (f : Core → Core) : (modCore s c f).migWait = s.migWait := rfl
@[simp] theorem modCore_staged (c : Fin 256) (f : Core → Core) : (modCore s c f).staged = s.staged := rfl
@[simp] theorem modCore_migHeld (c : Fin 256) (f : Core → Core) : (modCore s c f).migHeld = s.migHeld := rfl
@[simp] theorem modCore_ports (c : Fin 256) (f : Core → Core) : (modCore s c f).ports = s.ports := rfl
@[simp] theorem modCore_windows (c : Fin 256) (f : Core → Core) : (modCore s c f).windows = s.windows := rfl
@[simp] theorem modCore_fabOps (c : Fin 256) (f : Core → Core) : (modCore s c f).fabOps = s.fabOps := rfl
@[simp] theorem modCore_held (c : Fin 256) (f : Core → Core) : (modCore s c f).held = s.held := rfl
@[simp] theorem modCore_pwrBudget (c : Fin 256) (f : Core → Core) : (modCore s c f).pwrBudget = s.pwrBudget := rfl
@[simp] theorem modCore_vgrant (c : Fin 256) (f : Core → Core) : (modCore s c f).vgrant = s.vgrant := rfl
@[simp] theorem modCore_hgrant (c : Fin 256) (f : Core → Core) : (modCore s c f).hgrant = s.hgrant := rfl
@[simp] theorem modCore_mgrant (c : Fin 256) (f : Core → Core) : (modCore s c f).mgrant = s.mgrant := rfl
@[simp] theorem modCore_draw (c : Fin 256) (f : Core → Core) : (modCore s c f).draw = s.draw := rfl
@[simp] theorem modCore_matrixReqs (c : Fin 256) (f : Core → Core) : (modCore s c f).matrixReqs = s.matrixReqs := rfl
@[simp] theorem modCore_epochs (c : Fin 256) (f : Core → Core) : (modCore s c f).epochs = s.epochs := rfl
@[simp] theorem modCore_levels (c : Fin 256) (f : Core → Core) : (modCore s c f).levels = s.levels := rfl
@[simp] theorem modCore_errlog (c : Fin 256) (f : Core → Core) : (modCore s c f).errlog = s.errlog := rfl
@[simp] theorem modCore_errCount (c : Fin 256) (f : Core → Core) : (modCore s c f).errCount = s.errCount := rfl
@[simp] theorem modCore_errlist (c : Fin 256) (f : Core → Core) : (modCore s c f).errlist = s.errlist := rfl
@[simp] theorem modCore_sessions (c : Fin 256) (f : Core → Core) : (modCore s c f).sessions = s.sessions := rfl
@[simp] theorem modCore_requests (c : Fin 256) (f : Core → Core) : (modCore s c f).requests = s.requests := rfl
@[simp] theorem modCore_hbmStacks (c : Fin 256) (f : Core → Core) : (modCore s c f).hbmStacks = s.hbmStacks := rfl
@[simp] theorem modCore_spares (c : Fin 256) (f : Core → Core) : (modCore s c f).spares = s.spares := rfl
@[simp] theorem modCore_banks (c : Fin 256) (f : Core → Core) : (modCore s c f).banks = s.banks := rfl
@[simp] theorem modCore_tcm (c : Fin 256) (f : Core → Core) : (modCore s c f).tcm = s.tcm := rfl
@[simp] theorem modCore_bank (c : Fin 256) (f : Core → Core) : (modCore s c f).bank = s.bank := rfl
@[simp] theorem modCore_measures (c : Fin 256) (f : Core → Core) : (modCore s c f).measures = s.measures := rfl
@[simp] theorem modCore_calWait (c : Fin 256) (f : Core → Core) : (modCore s c f).calWait = s.calWait := rfl

/-! ## modCtx -/

@[simp] theorem modCtx_agenda (c : Fin 64) (f : Ctx → Ctx) : (modCtx s c f).agenda = s.agenda := rfl
@[simp] theorem modCtx_cur (c : Fin 64) (f : Ctx → Ctx) : (modCtx s c f).cur = s.cur := rfl
@[simp] theorem modCtx_tick (c : Fin 64) (f : Ctx → Ctx) : (modCtx s c f).tick = s.tick := rfl
@[simp] theorem modCtx_now (c : Fin 64) (f : Ctx → Ctx) : (modCtx s c f).now = s.now := rfl
@[simp] theorem modCtx_out (c : Fin 64) (f : Ctx → Ctx) : (modCtx s c f).out = s.out := rfl
@[simp] theorem modCtx_nextId (c : Fin 64) (f : Ctx → Ctx) : (modCtx s c f).nextId = s.nextId := rfl
@[simp] theorem modCtx_boot (c : Fin 64) (f : Ctx → Ctx) : (modCtx s c f).boot = s.boot := rfl
@[simp] theorem modCtx_mem (c : Fin 64) (f : Ctx → Ctx) : (modCtx s c f).mem = s.mem := rfl
@[simp] theorem modCtx_span (c : Fin 64) (f : Ctx → Ctx) : (modCtx s c f).span = s.span := rfl
@[simp] theorem modCtx_lineVer (c : Fin 64) (f : Ctx → Ctx) : (modCtx s c f).lineVer = s.lineVer := rfl
@[simp] theorem modCtx_badGranules (c : Fin 64) (f : Ctx → Ctx) : (modCtx s c f).badGranules = s.badGranules := rfl
@[simp] theorem modCtx_badSpan (c : Fin 64) (f : Ctx → Ctx) : (modCtx s c f).badSpan = s.badSpan := rfl
@[simp] theorem modCtx_cells (c : Fin 64) (f : Ctx → Ctx) : (modCtx s c f).cells = s.cells := rfl
@[simp] theorem modCtx_reports (c : Fin 64) (f : Ctx → Ctx) : (modCtx s c f).reports = s.reports := rfl
@[simp] theorem modCtx_spanRanges (c : Fin 64) (f : Ctx → Ctx) : (modCtx s c f).spanRanges = s.spanRanges := rfl
@[simp] theorem modCtx_scrubs (c : Fin 64) (f : Ctx → Ctx) : (modCtx s c f).scrubs = s.scrubs := rfl
@[simp] theorem modCtx_wrote (c : Fin 64) (f : Ctx → Ctx) : (modCtx s c f).wrote = s.wrote := rfl
@[simp] theorem modCtx_cores (c : Fin 64) (f : Ctx → Ctx) : (modCtx s c f).cores = s.cores := rfl
@[simp] theorem modCtx_blocks (c : Fin 64) (f : Ctx → Ctx) : (modCtx s c f).blocks = s.blocks := rfl
@[simp] theorem modCtx_nodes (c : Fin 64) (f : Ctx → Ctx) : (modCtx s c f).nodes = s.nodes := rfl
@[simp] theorem modCtx_graphs (c : Fin 64) (f : Ctx → Ctx) : (modCtx s c f).graphs = s.graphs := rfl
@[simp] theorem modCtx_queues (c : Fin 64) (f : Ctx → Ctx) : (modCtx s c f).queues = s.queues := rfl
@[simp] theorem modCtx_counters (c : Fin 64) (f : Ctx → Ctx) : (modCtx s c f).counters = s.counters := rfl
@[simp] theorem modCtx_charges (c : Fin 64) (f : Ctx → Ctx) : (modCtx s c f).charges = s.charges := rfl
@[simp] theorem modCtx_lastTurn (c : Fin 64) (f : Ctx → Ctx) : (modCtx s c f).lastTurn = s.lastTurn := rfl
@[simp] theorem modCtx_dieTlb (c : Fin 64) (f : Ctx → Ctx) : (modCtx s c f).dieTlb = s.dieTlb := rfl
@[simp] theorem modCtx_ring (c : Fin 64) (f : Ctx → Ctx) : (modCtx s c f).ring = s.ring := rfl
@[simp] theorem modCtx_shoots (c : Fin 64) (f : Ctx → Ctx) : (modCtx s c f).shoots = s.shoots := rfl
@[simp] theorem modCtx_migs (c : Fin 64) (f : Ctx → Ctx) : (modCtx s c f).migs = s.migs := rfl
@[simp] theorem modCtx_migWait (c : Fin 64) (f : Ctx → Ctx) : (modCtx s c f).migWait = s.migWait := rfl
@[simp] theorem modCtx_staged (c : Fin 64) (f : Ctx → Ctx) : (modCtx s c f).staged = s.staged := rfl
@[simp] theorem modCtx_migHeld (c : Fin 64) (f : Ctx → Ctx) : (modCtx s c f).migHeld = s.migHeld := rfl
@[simp] theorem modCtx_ports (c : Fin 64) (f : Ctx → Ctx) : (modCtx s c f).ports = s.ports := rfl
@[simp] theorem modCtx_windows (c : Fin 64) (f : Ctx → Ctx) : (modCtx s c f).windows = s.windows := rfl
@[simp] theorem modCtx_fabOps (c : Fin 64) (f : Ctx → Ctx) : (modCtx s c f).fabOps = s.fabOps := rfl
@[simp] theorem modCtx_held (c : Fin 64) (f : Ctx → Ctx) : (modCtx s c f).held = s.held := rfl
@[simp] theorem modCtx_pwrBudget (c : Fin 64) (f : Ctx → Ctx) : (modCtx s c f).pwrBudget = s.pwrBudget := rfl
@[simp] theorem modCtx_vgrant (c : Fin 64) (f : Ctx → Ctx) : (modCtx s c f).vgrant = s.vgrant := rfl
@[simp] theorem modCtx_hgrant (c : Fin 64) (f : Ctx → Ctx) : (modCtx s c f).hgrant = s.hgrant := rfl
@[simp] theorem modCtx_mgrant (c : Fin 64) (f : Ctx → Ctx) : (modCtx s c f).mgrant = s.mgrant := rfl
@[simp] theorem modCtx_draw (c : Fin 64) (f : Ctx → Ctx) : (modCtx s c f).draw = s.draw := rfl
@[simp] theorem modCtx_matrixReqs (c : Fin 64) (f : Ctx → Ctx) : (modCtx s c f).matrixReqs = s.matrixReqs := rfl
@[simp] theorem modCtx_epochs (c : Fin 64) (f : Ctx → Ctx) : (modCtx s c f).epochs = s.epochs := rfl
@[simp] theorem modCtx_levels (c : Fin 64) (f : Ctx → Ctx) : (modCtx s c f).levels = s.levels := rfl
@[simp] theorem modCtx_errlog (c : Fin 64) (f : Ctx → Ctx) : (modCtx s c f).errlog = s.errlog := rfl
@[simp] theorem modCtx_errCount (c : Fin 64) (f : Ctx → Ctx) : (modCtx s c f).errCount = s.errCount := rfl
@[simp] theorem modCtx_errlist (c : Fin 64) (f : Ctx → Ctx) : (modCtx s c f).errlist = s.errlist := rfl
@[simp] theorem modCtx_sessions (c : Fin 64) (f : Ctx → Ctx) : (modCtx s c f).sessions = s.sessions := rfl
@[simp] theorem modCtx_requests (c : Fin 64) (f : Ctx → Ctx) : (modCtx s c f).requests = s.requests := rfl
@[simp] theorem modCtx_hbmStacks (c : Fin 64) (f : Ctx → Ctx) : (modCtx s c f).hbmStacks = s.hbmStacks := rfl
@[simp] theorem modCtx_spares (c : Fin 64) (f : Ctx → Ctx) : (modCtx s c f).spares = s.spares := rfl
@[simp] theorem modCtx_banks (c : Fin 64) (f : Ctx → Ctx) : (modCtx s c f).banks = s.banks := rfl
@[simp] theorem modCtx_tcm (c : Fin 64) (f : Ctx → Ctx) : (modCtx s c f).tcm = s.tcm := rfl
@[simp] theorem modCtx_bank (c : Fin 64) (f : Ctx → Ctx) : (modCtx s c f).bank = s.bank := rfl
@[simp] theorem modCtx_measures (c : Fin 64) (f : Ctx → Ctx) : (modCtx s c f).measures = s.measures := rfl
@[simp] theorem modCtx_calWait (c : Fin 64) (f : Ctx → Ctx) : (modCtx s c f).calWait = s.calWait := rfl

/-! ## modQueue -/

@[simp] theorem modQueue_agenda (q : Nat) (f : Queue → Queue) : (modQueue s q f).agenda = s.agenda := rfl
@[simp] theorem modQueue_cur (q : Nat) (f : Queue → Queue) : (modQueue s q f).cur = s.cur := rfl
@[simp] theorem modQueue_tick (q : Nat) (f : Queue → Queue) : (modQueue s q f).tick = s.tick := rfl
@[simp] theorem modQueue_now (q : Nat) (f : Queue → Queue) : (modQueue s q f).now = s.now := rfl
@[simp] theorem modQueue_out (q : Nat) (f : Queue → Queue) : (modQueue s q f).out = s.out := rfl
@[simp] theorem modQueue_nextId (q : Nat) (f : Queue → Queue) : (modQueue s q f).nextId = s.nextId := rfl
@[simp] theorem modQueue_boot (q : Nat) (f : Queue → Queue) : (modQueue s q f).boot = s.boot := rfl
@[simp] theorem modQueue_mem (q : Nat) (f : Queue → Queue) : (modQueue s q f).mem = s.mem := rfl
@[simp] theorem modQueue_span (q : Nat) (f : Queue → Queue) : (modQueue s q f).span = s.span := rfl
@[simp] theorem modQueue_lineVer (q : Nat) (f : Queue → Queue) : (modQueue s q f).lineVer = s.lineVer := rfl
@[simp] theorem modQueue_badGranules (q : Nat) (f : Queue → Queue) : (modQueue s q f).badGranules = s.badGranules := rfl
@[simp] theorem modQueue_badSpan (q : Nat) (f : Queue → Queue) : (modQueue s q f).badSpan = s.badSpan := rfl
@[simp] theorem modQueue_cells (q : Nat) (f : Queue → Queue) : (modQueue s q f).cells = s.cells := rfl
@[simp] theorem modQueue_reports (q : Nat) (f : Queue → Queue) : (modQueue s q f).reports = s.reports := rfl
@[simp] theorem modQueue_spanRanges (q : Nat) (f : Queue → Queue) : (modQueue s q f).spanRanges = s.spanRanges := rfl
@[simp] theorem modQueue_scrubs (q : Nat) (f : Queue → Queue) : (modQueue s q f).scrubs = s.scrubs := rfl
@[simp] theorem modQueue_wrote (q : Nat) (f : Queue → Queue) : (modQueue s q f).wrote = s.wrote := rfl
@[simp] theorem modQueue_cores (q : Nat) (f : Queue → Queue) : (modQueue s q f).cores = s.cores := rfl
@[simp] theorem modQueue_blocks (q : Nat) (f : Queue → Queue) : (modQueue s q f).blocks = s.blocks := rfl
@[simp] theorem modQueue_nodes (q : Nat) (f : Queue → Queue) : (modQueue s q f).nodes = s.nodes := rfl
@[simp] theorem modQueue_graphs (q : Nat) (f : Queue → Queue) : (modQueue s q f).graphs = s.graphs := rfl
@[simp] theorem modQueue_counters (q : Nat) (f : Queue → Queue) : (modQueue s q f).counters = s.counters := rfl
@[simp] theorem modQueue_charges (q : Nat) (f : Queue → Queue) : (modQueue s q f).charges = s.charges := rfl
@[simp] theorem modQueue_lastTurn (q : Nat) (f : Queue → Queue) : (modQueue s q f).lastTurn = s.lastTurn := rfl
@[simp] theorem modQueue_ctxs (q : Nat) (f : Queue → Queue) : (modQueue s q f).ctxs = s.ctxs := rfl
@[simp] theorem modQueue_dieTlb (q : Nat) (f : Queue → Queue) : (modQueue s q f).dieTlb = s.dieTlb := rfl
@[simp] theorem modQueue_ring (q : Nat) (f : Queue → Queue) : (modQueue s q f).ring = s.ring := rfl
@[simp] theorem modQueue_shoots (q : Nat) (f : Queue → Queue) : (modQueue s q f).shoots = s.shoots := rfl
@[simp] theorem modQueue_migs (q : Nat) (f : Queue → Queue) : (modQueue s q f).migs = s.migs := rfl
@[simp] theorem modQueue_migWait (q : Nat) (f : Queue → Queue) : (modQueue s q f).migWait = s.migWait := rfl
@[simp] theorem modQueue_staged (q : Nat) (f : Queue → Queue) : (modQueue s q f).staged = s.staged := rfl
@[simp] theorem modQueue_migHeld (q : Nat) (f : Queue → Queue) : (modQueue s q f).migHeld = s.migHeld := rfl
@[simp] theorem modQueue_ports (q : Nat) (f : Queue → Queue) : (modQueue s q f).ports = s.ports := rfl
@[simp] theorem modQueue_windows (q : Nat) (f : Queue → Queue) : (modQueue s q f).windows = s.windows := rfl
@[simp] theorem modQueue_fabOps (q : Nat) (f : Queue → Queue) : (modQueue s q f).fabOps = s.fabOps := rfl
@[simp] theorem modQueue_held (q : Nat) (f : Queue → Queue) : (modQueue s q f).held = s.held := rfl
@[simp] theorem modQueue_pwrBudget (q : Nat) (f : Queue → Queue) : (modQueue s q f).pwrBudget = s.pwrBudget := rfl
@[simp] theorem modQueue_vgrant (q : Nat) (f : Queue → Queue) : (modQueue s q f).vgrant = s.vgrant := rfl
@[simp] theorem modQueue_hgrant (q : Nat) (f : Queue → Queue) : (modQueue s q f).hgrant = s.hgrant := rfl
@[simp] theorem modQueue_mgrant (q : Nat) (f : Queue → Queue) : (modQueue s q f).mgrant = s.mgrant := rfl
@[simp] theorem modQueue_draw (q : Nat) (f : Queue → Queue) : (modQueue s q f).draw = s.draw := rfl
@[simp] theorem modQueue_matrixReqs (q : Nat) (f : Queue → Queue) : (modQueue s q f).matrixReqs = s.matrixReqs := rfl
@[simp] theorem modQueue_epochs (q : Nat) (f : Queue → Queue) : (modQueue s q f).epochs = s.epochs := rfl
@[simp] theorem modQueue_levels (q : Nat) (f : Queue → Queue) : (modQueue s q f).levels = s.levels := rfl
@[simp] theorem modQueue_errlog (q : Nat) (f : Queue → Queue) : (modQueue s q f).errlog = s.errlog := rfl
@[simp] theorem modQueue_errCount (q : Nat) (f : Queue → Queue) : (modQueue s q f).errCount = s.errCount := rfl
@[simp] theorem modQueue_errlist (q : Nat) (f : Queue → Queue) : (modQueue s q f).errlist = s.errlist := rfl
@[simp] theorem modQueue_sessions (q : Nat) (f : Queue → Queue) : (modQueue s q f).sessions = s.sessions := rfl
@[simp] theorem modQueue_requests (q : Nat) (f : Queue → Queue) : (modQueue s q f).requests = s.requests := rfl
@[simp] theorem modQueue_hbmStacks (q : Nat) (f : Queue → Queue) : (modQueue s q f).hbmStacks = s.hbmStacks := rfl
@[simp] theorem modQueue_spares (q : Nat) (f : Queue → Queue) : (modQueue s q f).spares = s.spares := rfl
@[simp] theorem modQueue_banks (q : Nat) (f : Queue → Queue) : (modQueue s q f).banks = s.banks := rfl
@[simp] theorem modQueue_tcm (q : Nat) (f : Queue → Queue) : (modQueue s q f).tcm = s.tcm := rfl
@[simp] theorem modQueue_bank (q : Nat) (f : Queue → Queue) : (modQueue s q f).bank = s.bank := rfl
@[simp] theorem modQueue_measures (q : Nat) (f : Queue → Queue) : (modQueue s q f).measures = s.measures := rfl
@[simp] theorem modQueue_calWait (q : Nat) (f : Queue → Queue) : (modQueue s q f).calWait = s.calWait := rfl

/-! ## What an update does to its own list -/

@[simp] theorem modBlock_get (b c : Nat) (f : Block → Block) :
    (modBlock s b f).blocks[c]? = if b = c then (s.blocks[c]?).map f else s.blocks[c]? := by
  simp only [modBlock, List.getElem?_modify]
  split <;> simp

@[simp] theorem modNode_get (n m : Nat) (f : Node → Node) :
    (modNode s n f).nodes[m]? = if n = m then (s.nodes[m]?).map f else s.nodes[m]? := by
  simp only [modNode, List.getElem?_modify]
  split <;> simp

@[simp] theorem modBlock_length (b : Nat) (f : Block → Block) : (modBlock s b f).blocks.length = s.blocks.length := by
  simp [modBlock]

@[simp] theorem modNode_length (n : Nat) (f : Node → Node) : (modNode s n f).nodes.length = s.nodes.length := by
  simp [modNode]

@[simp] theorem modCore_same (c : Fin 256) (f : Core → Core) : (modCore s c f).cores[c] = f s.cores[c] := by
  simp [modCore]

@[simp] theorem modCtx_same (c : Fin 64) (f : Ctx → Ctx) : (modCtx s c f).ctxs[c] = f s.ctxs[c] := by
  simp [modCtx]

/-- Two updates of one block are one. -/
theorem modBlock_modBlock (b : Nat) (f g : Block → Block) : modBlock (modBlock s b f) b g = modBlock s b fun x => g (f x) := by
  simp only [modBlock, List.modify_modify_eq]
  rfl

/-! ## Frames: only the list of blocks changes -/

theorem modWarp_frame (b w : Nat) (f : Warp → Warp) : modWarp s b w f = { s with blocks := (modWarp s b w f).blocks } := rfl
theorem modGang_frame (b w g : Nat) (f : Gang → Gang) : modGang s b w g f = { s with blocks := (modGang s b w g f).blocks } := rfl
theorem modGangW_frame (b w g : Nat) (f : Gang → Gang) : modGangW s b w g f = { s with blocks := (modGangW s b w g f).blocks } := rfl
theorem modHelm_frame (b : Nat) (f : Helm → Helm) : modHelm s b f = { s with blocks := (modHelm s b f).blocks } := rfl
theorem modEng_frame (b : Nat) (k : Fin 4) (f : EngCtx → EngCtx) : modEng s b k f = { s with blocks := (modEng s b k f).blocks } := rfl
theorem modStream_frame (b : Nat) (k : Fin 4) (f : Stream → Stream) : modStream s b k f = { s with blocks := (modStream s b k f).blocks } := rfl
theorem addWork_frame (b x y : Nat) : addWork s b x y = { s with blocks := (addWork s b x y).blocks } := rfl
theorem advance_frame (k : GCtx) : advance s k = { s with blocks := (advance s k).blocks } := rfl
theorem enterTrap_frame (k : GCtx) (l : Nat) (n : BitVec 13) : enterTrap s k l n = { s with blocks := (enterTrap s k l n).blocks } := rfl
theorem leaveTrap_frame (k : GCtx) : leaveTrap s k = { s with blocks := (leaveTrap s k).blocks } := rfl
theorem advanceHelm_frame (b : Nat) : advanceHelm s b = { s with blocks := (advanceHelm s b).blocks } := rfl
theorem commit_frame (k : GCtx) (wp : Warp) (l : VReg) : commit s k wp l = { s with blocks := (commit s k wp l).blocks } := rfl
theorem putS_frame (k : HCtx) (n : Fin 64) (x : Word64) : putS s k n x = { s with blocks := (putS s k n x).blocks } := rfl
theorem putQ_frame (k : HCtx) (n : Fin 8) (x : Bool) : putQ s k n x = { s with blocks := (putQ s k n x).blocks } := rfl
theorem putPred_frame (k : GCtx) (p : Fin 8) (v : PVal) (m : LaneMask) : putPred s k p v m = { s with blocks := (putPred s k p v m).blocks } := rfl

end Sys2Proof.Machine
end

