-- ==== Sys2Proof/Laws/Lanes.lean ====
section
/-!
SUPPORT. Lane masks, merged registers, and everything that a write of a result to a destination can do.
-/
set_option linter.unnecessarySeqFocus false

namespace Sys2Proof.Machine

open Sys2Proof Sys2Proof.Claims

/-! ## Lane masks -/

/-- The number that a predicate on the first n bits spells: below 2^n, with just those bits set. -/
theorem maskSum_testBit (p : Nat → Bool) (n : Nat) :
    (List.range n).foldl (fun a l => if p l then a + 2 ^ l else a) 0 < 2 ^ n ∧
    ∀ i, ((List.range n).foldl (fun a l => if p l then a + 2 ^ l else a) 0).testBit i = (decide (i < n) && p i) := by
  induction n with
  | zero => simp
  | succ n ih =>
    obtain ⟨hlt, hbit⟩ := ih
    rw [List.range_succ, List.foldl_append]
    simp only [List.foldl_cons, List.foldl_nil]
    set S := (List.range n).foldl (fun a l => if p l then a + 2 ^ l else a) 0 with hS
    cases hp : p n with
    | false =>
      simp only [Bool.false_eq_true, if_false]
      refine ⟨by rw [Nat.pow_succ]; omega, fun i => ?_⟩
      rw [hbit i]
      by_cases h : i = n
      · subst h; simp [hp]
      · have : (i < n + 1) = (i < n) := by apply propext; omega
        simp [this]
    | true =>
      simp only [if_true]
      refine ⟨by rw [Nat.pow_succ]; omega, fun i => ?_⟩
      rw [Nat.add_comm]
      by_cases h : i = n
      · subst h
        rw [Nat.testBit_two_pow_add_eq, hbit i]
        simp [hp]
      · by_cases h2 : i < n
        · rw [Nat.testBit_two_pow_add_gt h2, hbit i]
          have : i < n + 1 := by omega
          simp [h2, this]
        · have h3 : n < i := by omega
          have h4 : 2 ^ n + S < 2 ^ i :=
            calc 2 ^ n + S < 2 ^ (n + 1) := by rw [Nat.pow_succ]; omega
              _ ≤ 2 ^ i := Nat.pow_le_pow_right (by omega) h3
          rw [Nat.testBit_lt_two_pow h4]
          have : ¬ i < n + 1 := by omega
          simp [this]

/-- Bit l of the mask of a predicate. -/
@[simp] theorem laneBit_maskOf (p : Nat → Bool) (l : Nat) : laneBit (maskOf p) l = (decide (l < 32) && p l) := by
  simp only [laneBit, maskOf, BitVec.getLsbD_ofNat, (maskSum_testBit p 32).2]
  by_cases h : l < 32 <;> simp [h]

theorem mem_lanesOf {m : LaneMask} {l : Nat} : l ∈ lanesOf m ↔ l < 32 ∧ laneBit m l = true := by
  simp [lanesOf]

theorem laneBit_lt {m : LaneMask} {l : Nat} (h : laneBit m l = true) : l < 32 := by
  by_contra hl
  simp only [laneBit] at h
  rw [BitVec.getLsbD_of_ge _ _ (by omega)] at h
  exact absurd h (by simp)

/-- A full mask holds every lane of the width. -/
theorem laneBit_of_isFull {wp : Warp} {m : LaneMask} (h : isFull wp m = true) {l : Nat} (hl : l < 4 * wp.width.val) :
    laneBit m l = true := by
  have h32 : l < 32 := by have := wp.width.isLt; omega
  have h1 : widthMask wp &&& ~~~m = 0 := by simpa [isFull] using h
  have h2 : laneBit (widthMask wp &&& ~~~m) l = false := by rw [h1]; simp [laneBit]
  have h3 : laneBit (widthMask wp) l = true := by
    rw [widthMask, laneBit_maskOf]; simp [h32, hl]
  simp only [laneBit] at *
  rw [BitVec.getLsbD_and, h3, BitVec.getLsbD_not] at h2
  simpa [h32] using h2

/-- A mask meets another nowhere. -/
theorem laneBit_of_and_zero {a b : LaneMask} (h : a &&& b = 0) {l : Nat} (hb : laneBit b l = true) : laneBit a l = false := by
  have : laneBit (a &&& b) l = false := by rw [h]; simp [laneBit]
  simp only [laneBit] at *
  rw [BitVec.getLsbD_and, hb] at this
  simpa using this

theorem and_zero_of_lanes {a b : LaneMask} (h : ∀ l ∈ lanesOf b, laneBit a l = false) : a &&& b = 0 := by
  apply BitVec.eq_of_getLsbD_eq
  intro i hi
  rw [BitVec.getLsbD_and]
  cases hb : b.getLsbD i with
  | false => simp
  | true =>
    have := h i (mem_lanesOf.mpr ⟨hi, hb⟩)
    simp only [laneBit] at this
    simp [this]

/-! ## Lane values -/

@[simp] theorem laneVal_mkG (f : Nat → Word) {l : Nat} (h : l < 32) : laneVal (mkG f) l = f l := by
  show (Vector.ofFn fun i : Fin 32 => f i.val)[l]?.getD 0 = f l
  rw [Vector.getElem?_eq_getElem h, Vector.getElem_ofFn]
  rfl

theorem laneVal_lift1 (f : Word → Word) (x : VVal) {l : Nat} (h : l < 32) : laneVal (lift1 f x) l = f (laneVal x l) := by
  cases x with
  | u x => rfl
  | a b d => rw [lift1, laneVal_mkG _ h]; simp
  | g v => rw [lift1, laneVal_mkG _ h]; simp

theorem laneVal_lift2 (f : Word → Word → Word) (x y : VVal) {l : Nat} (h : l < 32) :
    laneVal (lift2 f x y) l = f (laneVal x l) (laneVal y l) := by
  cases x <;> cases y <;> simp only [lift2, laneVal_mkG _ h] <;> rfl

theorem laneVal_lift3 (f : Word → Word → Word → Word) (x y z : VVal) {l : Nat} (h : l < 32) :
    laneVal (lift3 f x y z) l = f (laneVal x l) (laneVal y l) (laneVal z l) := by
  cases x <;> cases y <;> cases z <;> simp only [lift3, laneVal_mkG _ h] <;> rfl

/-! ## One register written -/

theorem laneBit_clear (p m : LaneMask) {l : Nat} (h : l < 32) :
    laneBit (p &&& ~~~m) l = (if laneBit m l then false else laneBit p l) := by
  have e : laneBit (p &&& ~~~m) l = (laneBit p l && !laneBit m l) := by
    simp only [laneBit, BitVec.getLsbD_and, BitVec.getLsbD_not, h, decide_true, Bool.true_and]
  rw [e]
  cases laneBit m l <;> simp

/-- A merged register, lane by lane (R46, R430). -/
theorem mergeReg_lanes (k : GCtx) (old : VReg) (new : VVal) (m : LaneMask) :
    LanesWritten k old (mergeReg (isFull k.wp m) old new m) .w (laneBit m) new := by
  intro l hl
  have h32 : l < 32 := by have := k.wp.width.isLt; omega
  simp only [insertView]
  cases hf : isFull k.wp m with
  | true =>
    have hb := laneBit_of_isFull hf hl
    rw [hb]
    exact ⟨rfl, by simp [mergeReg, laneBit]⟩
  | false =>
    have mixed : laneVal (mkG fun l => if laneBit m l then laneVal new l else laneVal old.val l) l =
        (if laneBit m l then laneVal new l else laneVal old.val l) := laneVal_mkG _ h32
    simp only [mergeReg, Bool.false_eq_true, if_false]
    split
    · rename_i x y hx
      split
      · rename_i he
        simp only [Bool.and_eq_true, decide_eq_true_eq] at he
        obtain ⟨h0, rfl⟩ := he
        rw [hx, h0]
        constructor
        · split <;> rfl
        · split <;> simp [laneBit]
      · exact ⟨mixed, laneBit_clear _ _ h32⟩
    · exact ⟨mixed, laneBit_clear _ _ h32⟩

/-- A register written through a view, unless its old word is poisoned where it is read (R53, R430). -/
theorem writeReg_ok (k : GCtx) (old : VReg) (v : View) (new : VVal) (m : LaneMask)
    (h : v = .w ∨ ∀ l ∈ lanesOf m, laneBit old.poison l = false) :
    ∃ r, writeReg k.wp old v new m = .ok r ∧ LanesWritten k old r v (laneBit m) new := by
  by_cases hv : v = .w
  · subst hv
    exact ⟨_, rfl, mergeReg_lanes k old new m⟩
  · have hp : old.poison &&& m = 0 := and_zero_of_lanes (h.resolve_left hv)
    have hc : checkPoison old m = .ok () := by simp [checkPoison, hp]
    refine ⟨mergeReg (isFull k.wp m) old (lift2 (insertView v) old.val new) m, ?_, ?_⟩
    · unfold writeReg
      split
      · exact absurd rfl hv
      · rw [hc]
    · intro l hl
      have h32 : l < 32 := by have := k.wp.width.isLt; omega
      obtain ⟨a, b⟩ := mergeReg_lanes k old (lift2 (insertView v) old.val new) m l hl
      refine ⟨?_, b⟩
      rw [a, laneVal_lift2 _ _ _ h32]
      rfl

theorem LanesWritten.refl (k : GCtx) (r : VReg) (v : View) (hit : Nat → Bool) (x : VVal) (h : ∀ l < 4 * k.wp.width.val, hit l = false) :
    LanesWritten k r r v hit x := by
  intro l hl
  simp [h l hl]

theorem LanesWritten.congr {k : GCtx} {a b : VReg} {v : View} {p q : Nat → Bool} {x : VVal} (h : LanesWritten k a b v p x)
    (hpq : ∀ l < 4 * k.wp.width.val, p l = q l) : LanesWritten k a b v q x := by
  intro l hl
  rw [← hpq l hl]
  exact h l hl

theorem LanesWritten.value {k : GCtx} {a b : VReg} {v : View} {p : Nat → Bool} {x y : VVal} (h : LanesWritten k a b v p x)
    (hxy : ∀ l < 32, laneVal x l = laneVal y l) : LanesWritten k a b v p y := by
  intro l hl
  rw [← hxy l (by have := k.wp.width.isLt; omega)]
  exact h l hl

/-- What the latch takes of a register written through a view: whole, the register; else the result in the lanes written (R55). -/
theorem latchOf_ok {k : GCtx} {old r : VReg} {vw : View} {v : VVal} {m : LaneMask} (h : LanesWritten k old r vw (laneBit m) v) :
    (vw = .w → latchOf k.wp r vw v m = r.clean) ∧ LanesWritten k r.clean (latchOf k.wp r vw v m) .w (laneBit m) v := by
  by_cases hv : vw = .w
  · subst hv
    refine ⟨fun _ => rfl, fun l hl => ?_⟩
    have a := (h l hl).1
    simp only [insertView] at a
    simp only [latchOf, VReg.clean, insertView, a]
    cases laneBit m l <;> simp [laneBit]
  · refine ⟨fun e => absurd e hv, ?_⟩
    have e : latchOf k.wp r vw v m = mergeReg (isFull k.wp m) r.clean v m := by
      unfold latchOf
      split
      · exact absurd rfl hv
      · rfl
    rw [e]
    exact mergeReg_lanes k _ v m

/-- A lane of what a slot takes beside its register. -/
theorem slotValue_lane {k : GCtx} {n : Fin 256} {o : Fin 8} {vw : View} {v : VVal} {l : Nat} (h : l < 32) :
    laneVal (slotValue k.wp.regs[n] vw v) l = laneVal (oValue k (.vo n o vw) v) l := by
  simp only [oValue, laneVal_mkG _ h]
  cases vw <;> first
    | exact laneVal_lift2 _ _ _ h
    | rfl

@[simp] theorem setReg_same (wp : Warp) (n : Fin 256) (r : VReg) : (setReg wp n r).regs[n] = r := by
  simp [setReg]
theorem setReg_other (wp : Warp) (n i : Fin 256) (r : VReg) (h : i ≠ n) : (setReg wp n r).regs[i] = wp.regs[i] := by
  have : n.val ≠ i.val := fun e => h (Fin.ext e.symm)
  simp [setReg, this]
@[simp] theorem setO_same (wp : Warp) (n : Fin 8) (r : VReg) : (setO wp n r).ofile[n] = r := by
  simp [setO]
theorem setO_other (wp : Warp) (n i : Fin 8) (r : VReg) (h : i ≠ n) : (setO wp n r).ofile[i] = wp.ofile[i] := by
  have : n.val ≠ i.val := fun e => h (Fin.ext e.symm)
  simp [setO, this]

/-! ## A result written to a destination (R46, R51, R53 to R55) -/

theorem forLanes_ok {α : Type} {f : Nat → Except Raise α} {g : Nat → α} {ls : List Nat} (h : ∀ l ∈ ls, f l = .ok (g l)) :
    forLanes f ls = .ok (ls.map g) := by
  induction ls with
  | nil => rfl
  | cons l r ih =>
    simp only [forLanes, h l (by simp), ih fun x hx => h x (by simp [hx]), List.map_cons]

theorem nodup_eraseDups {α : Type} [BEq α] [LawfulBEq α] : ∀ (n : Nat) (l : List α), l.length ≤ n → l.eraseDups.Nodup
  | 0, l, h => by
    have : l = [] := List.eq_nil_of_length_eq_zero (by omega)
    subst this; simp
  | n + 1, [], _ => by simp
  | n + 1, a :: l, h => by
    rw [List.eraseDups_cons, List.nodup_cons]
    have hl : (l.filter fun b => !b == a).length ≤ n := (List.length_filter_le _ _).trans (by simpa using h)
    exact ⟨by rw [List.mem_eraseDups]; simp, nodup_eraseDups n _ hl⟩

/-- The writes of an indexed destination, given the old registers: each register reached is written once, and no other. -/
theorem writeIdx_ok (k : GCtx) (v : View) (new : VVal) (ls : List (Nat × Fin 256)) (ns : List (Fin 256))
    (hv : ∀ n ∈ ns, v = .w ∨ ∀ l, ls.contains (l, n) = true → laneBit k.wp.regs[n].poison l = false)
    (hn : ns.Nodup) (wp : Warp) :
    ∃ w, writeIdx k.wp v new ls ns wp = .ok w ∧ w = { wp with regs := w.regs } ∧
      ∀ i : Fin 256,
        (i ∈ ns → LanesWritten k k.wp.regs[i] w.regs[i] v (fun l => ls.contains (l, i)) new) ∧
        (i ∉ ns → w.regs[i] = wp.regs[i]) := by
  induction ns generalizing wp with
  | nil => exact ⟨wp, rfl, rfl, by simp⟩
  | cons n ns ih =>
    obtain ⟨r, hr, hl⟩ := writeReg_ok k k.wp.regs[n] v new (maskOf fun l => ls.contains (l, n)) (by
      rcases hv n (by simp) with h | h
      · exact .inl h
      · refine .inr fun l hl => h l ?_
        have := (mem_lanesOf.mp hl).2
        simp only [laneBit_maskOf, Bool.and_eq_true] at this
        exact this.2)
    obtain ⟨w, hw, hf, hi⟩ := ih (fun m hm => hv m (by simp [hm])) (List.nodup_cons.mp hn).2 (setReg wp n r)
    refine ⟨w, ?_, ?_, fun i => ⟨fun hm => ?_, fun hm => ?_⟩⟩
    · simp only [writeIdx, hr]; exact hw
    · rw [hf]; rfl
    · rcases List.mem_cons.mp hm with rfl | hm'
      · have hnot : i ∉ ns := (List.nodup_cons.mp hn).1
        rw [(hi i).2 hnot, setReg_same]
        refine LanesWritten.congr hl fun l hlt => ?_
        have : l < 32 := by have := k.wp.width.isLt; omega
        simp [this]
      · exact (hi i).1 hm'
    · have h1 : i ∉ ns := fun h => hm (by simp [h])
      have h2 : i ≠ n := fun h => hm (by simp [h])
      rw [(hi i).2 h1, setReg_other _ _ _ _ h2]

/-- A mask that is not empty has a lane. -/
theorem exists_lane {m : LaneMask} (h : m ≠ 0) : ∃ l, l ∈ lanesOf m := by
  by_contra hn
  apply h
  have h0 : m &&& m = 0 := and_zero_of_lanes fun l hl => absurd ⟨l, hl⟩ hn
  rwa [BitVec.and_self] at h0

/-- Everything a write of a result can do, where nothing stops it. -/
theorem writeLevels_ok (k : GCtx) (d : Dst) (v : VVal) (m : LaneMask) (hm : m ≠ 0) (h : CanWrite k d m) :
    ∃ wp latch, writeLevels k d v m = .ok (wp, latch) ∧ WarpWrote k d m v wp latch := by
  have same {x : VVal} (r : VReg) (vw : View) (hit : Nat → Bool) (hh : ∀ l, hit l = false) : LanesWritten k r r vw hit x :=
    LanesWritten.refl k r vw hit x fun l _ => hh l
  obtain ⟨l0, hl0⟩ := exists_lane hm
  cases d with
  | v n vw =>
    obtain ⟨r, hr, hl⟩ := writeReg_ok k k.wp.regs[n] vw v m (by
      by_cases hw : vw = .w
      · exact .inl hw
      · exact .inr fun l hl => (h l hl).2.resolve_left hw n rfl)
    refine ⟨setReg k.wp n r, latchOf k.wp r vw v m, by simp only [writeLevels, dstIdx, writeLevelsAt, hr]; rfl, rfl, fun i => ?_, fun i => ?_, fun i hi => ?_, fun i _ => rfl, ?_⟩
    · by_cases e : i = n
      · subst e; rw [setReg_same]; exact LanesWritten.congr hl fun l _ => by simp [vTarget]
      · rw [setReg_other _ _ _ _ e]
        exact same _ _ _ fun l => by simp [vTarget, Ne.symm e]
    · exact same _ _ _ fun l => by simp [oTarget]
    · by_cases e : i = n
      · subst e; exact absurd rfl (hi l0 hl0)
      · rw [setReg_other _ _ _ _ e]
    · simp only [setReg_same]; exact latchOf_ok hl
  | o n =>
    refine ⟨setO k.wp n (mergeReg (isFull k.wp m) k.wp.ofile[n] v m), _, rfl, rfl, fun i => ?_, fun i => ?_, fun i _ => rfl,
      fun i hi => ?_, congrArg VReg.clean (setO_same _ _ _).symm⟩
    · exact same _ _ _ fun l => by simp [vTarget]
    · by_cases e : i = n
      · subst e; rw [setO_same]; exact LanesWritten.congr (mergeReg_lanes k _ v m) fun l _ => by simp [oTarget]
      · rw [setO_other _ _ _ _ e]
        exact same _ _ _ fun l => by simp [oTarget, Ne.symm e]
    · by_cases e : i = n
      · subst e; exact absurd rfl hi
      · rw [setO_other _ _ _ _ e]
  | vo n o vw =>
    obtain ⟨r, hr, hl⟩ := writeReg_ok k k.wp.regs[n] vw v m (by
      by_cases hw : vw = .w
      · exact .inl hw
      · exact .inr fun l hl => (h l hl).2.resolve_left hw n rfl)
    let q := mergeReg (isFull k.wp m) k.wp.ofile[o] (slotValue k.wp.regs[n] vw v) m
    have hp : LanesWritten k k.wp.ofile[o] q .w (laneBit m) (oValue k (.vo n o vw) v) :=
      LanesWritten.value (mergeReg_lanes k _ _ m) fun l hl => slotValue_lane hl
    refine ⟨setO (setReg k.wp n r) o q, latchOf k.wp r vw v m, by simp only [writeLevels, dstIdx, writeLevelsAt, hr]; rfl, rfl, fun i => ?_, fun i => ?_,
      fun i hi => ?_, fun i hi => ?_, ?_⟩
    · show LanesWritten k k.wp.regs[i] (setReg k.wp n r).regs[i] _ _ _
      by_cases e : i = n
      · subst e; rw [setReg_same]; exact LanesWritten.congr hl fun l _ => by simp [vTarget]
      · rw [setReg_other _ _ _ _ e]
        exact same _ _ _ fun l => by simp [vTarget, Ne.symm e]
    · by_cases e : i = o
      · subst e; rw [setO_same]; exact LanesWritten.congr hp fun l _ => by simp [oTarget]
      · rw [setO_other _ _ _ _ e]
        exact same _ _ _ fun l => by simp [oTarget, Ne.symm e]
    · show (setReg k.wp n r).regs[i] = _
      by_cases e : i = n
      · subst e; exact absurd rfl (hi l0 hl0)
      · rw [setReg_other _ _ _ _ e]
    · by_cases e : i = o
      · subst e; exact absurd rfl hi
      · rw [setO_other _ _ _ _ e]; rfl
    · show (_ → _ = (setReg k.wp n r).regs[n].clean) ∧ LanesWritten k (setReg k.wp n r).regs[n].clean _ _ _ _
      rw [setReg_same]
      exact latchOf_ok hl
  | latch =>
    exact ⟨k.wp, _, rfl, rfl, fun i => same _ _ _ fun l => by simp [vTarget], fun i => same _ _ _ fun l => by simp [oTarget],
      fun i _ => rfl, fun i _ => rfl, mergeReg_lanes k _ v m⟩
  | vx x vw =>
    have hx : ∀ l ∈ lanesOf m, ∃ n, idxLane k.wp x l = .ok n := fun l hl => (h l hl).1 x vw rfl
    let g : Nat → Fin 256 := fun l => ((idxLane k.wp x l).toOption).getD 0
    have hg : ∀ l ∈ lanesOf m, idxLane k.wp x l = .ok (g l) := fun l hl => by
      obtain ⟨n, hn⟩ := hx l hl
      simp only [g, hn, Except.toOption, Option.getD_some]
    let ls := (lanesOf m).map fun l => (l, g l)
    have hls : idxLanes k.wp x m = .ok ls :=
      forLanes_ok fun l hl => by rw [hg l hl]; rfl
    have hmem (l : Nat) (i : Fin 256) : ls.contains (l, i) = true ↔ l ∈ lanesOf m ∧ g l = i := by
      simp only [ls, List.contains_iff_mem, List.mem_map, Prod.mk.injEq]
      constructor
      · rintro ⟨a, ha, rfl, rfl⟩; exact ⟨ha, rfl⟩
      · rintro ⟨ha, rfl⟩; exact ⟨l, ha, rfl, rfl⟩
    have ht (l : Nat) (hl : l ∈ lanesOf m) : vTarget k (.vx x vw) l = some (g l) := by
      simp only [vTarget, hg l hl, Except.toOption]
    obtain ⟨w, hw, hf, hi⟩ := writeIdx_ok k vw v ls ((ls.map (·.2)).eraseDups) (fun n _ => by
      by_cases hvw : vw = .w
      · exact .inl hvw
      · refine .inr fun l hl => ?_
        obtain ⟨ha, rfl⟩ := (hmem l n).mp hl
        exact (h l ha).2.resolve_left hvw _ (ht l ha)) (nodup_eraseDups _ _ le_rfl) k.wp
    have hin (i : Fin 256) : i ∈ (ls.map (·.2)).eraseDups ↔ ∃ l ∈ lanesOf m, g l = i := by
      rw [List.mem_eraseDups]
      simp only [ls, List.map_map, List.mem_map, Function.comp_apply]
    have hit (i : Fin 256) (l : Nat) : ls.contains (l, i) = (laneBit m l && (vTarget k (.vx x vw) l == some i)) := by
      by_cases hl : l ∈ lanesOf m
      · have hb := (mem_lanesOf.mp hl).2
        rw [hb, ht l hl]
        by_cases e : g l = i
        · rw [(hmem l i).mpr ⟨hl, e⟩, e]; simp
        · have : ls.contains (l, i) = false := by
            cases hc : ls.contains (l, i) with
            | false => rfl
            | true => exact absurd ((hmem l i).mp hc).2 e
          rw [this]; simp [e]
      · have hb : laneBit m l = false := by
          cases hb : laneBit m l with
          | false => rfl
          | true => exact absurd (mem_lanesOf.mpr ⟨laneBit_lt hb, hb⟩) hl
        rw [hb]
        cases hc : ls.contains (l, i) with
        | false => rfl
        | true => exact absurd ((hmem l i).mp hc).1 hl
    refine ⟨w, mergeReg (isFull k.wp m) k.g.latch v m, ?_, ?_, fun i => ?_, fun i => ?_, fun i hn => ?_, fun i _ => ?_, mergeReg_lanes k _ v m⟩
    · simp only [writeLevels, dstIdx, writeLevelsAt, hls]; rw [hw]; rfl
    · rw [hf]
    · by_cases e : i ∈ (ls.map (·.2)).eraseDups
      · exact LanesWritten.congr ((hi i).1 e) fun l _ => hit i l
      · rw [(hi i).2 e]
        refine same _ _ _ fun l => ?_
        rw [← hit]
        cases hc : ls.contains (l, i) with
        | false => rfl
        | true => exact absurd ((hin i).mpr ⟨l, (hmem l i).mp hc⟩) e
    · rw [hf]; exact same _ _ _ fun l => by simp [oTarget]
    · refine (hi i).2 fun e => ?_
      obtain ⟨l, hl, rfl⟩ := (hin i).mp e
      exact hn l hl (ht l hl)
    · rw [hf]

end Sys2Proof.Machine
end

