-- ==== Sys2Proof/Laws/Memory.lean ====
section
/-!
SUPPORT. Sparse memory: every operation keeps the canonical form, a read after a write gives what was written, and a
write leaves every other address alone.
-/
namespace Sys2Proof.Machine

open Sys2Proof

/-- The canonical form of a tail. -/
theorem wf_tail {c : Host.Cell} {m : Mem} (h : Memory.wf (c :: m) = true) : Memory.wf m = true := by
  obtain ⟨a, v⟩ := c
  cases m with
  | nil => rfl
  | cons d r => obtain ⟨b, w⟩ := d; simp only [Memory.wf, Bool.and_eq_true] at h; exact h.2

/-- In canonical form no listed byte is zero. -/
theorem wf_head {a : Nat} {v : Byte} {m : Mem} (h : Memory.wf ((a, v) :: m) = true) : v ≠ 0 := by
  cases m with
  | nil => simpa [Memory.wf] using h
  | cons d r => obtain ⟨b, w⟩ := d; simp [Memory.wf] at h; exact h.1.1

/-- In canonical form addresses rise. -/
theorem wf_lt {a : Nat} {v : Byte} {m : Mem} (h : Memory.wf ((a, v) :: m) = true) :
    ∀ c ∈ m, a < c.1 := by
  induction m generalizing a v with
  | nil => simp
  | cons d r ih =>
    obtain ⟨b, w⟩ := d
    have hab : a < b := by simp [Memory.wf] at h; exact h.1.2
    intro c hc
    cases hc with
    | head => exact hab
    | tail _ hc => exact hab.trans (ih (wf_tail h) c hc)

/-- A cell in front of a canonical list that starts later. -/
theorem wf_cons {a : Nat} {v : Byte} {m : Mem} (hv : v ≠ 0) (hm : Memory.wf m = true) (hlt : ∀ c ∈ m, a < c.1) :
    Memory.wf ((a, v) :: m) = true := by
  cases m with
  | nil => simpa [Memory.wf] using hv
  | cons d r =>
    obtain ⟨b, w⟩ := d
    have := hlt (b, w) (by simp)
    simp only [Memory.wf, Bool.and_eq_true]
    exact ⟨⟨by simpa using hv, by simpa using this⟩, hm⟩

/-- An address before every listed one reads 0. -/
theorem memGet_before {m : Mem} {a : Nat} (h : ∀ c ∈ m, a < c.1) : memGet m a = 0 := by
  cases m with
  | nil => rfl
  | cons d r =>
    obtain ⟨b, w⟩ := d
    have := h (b, w) (by simp)
    simp only [memGet]
    rw [if_neg (by simp at this; omega), if_pos (by simpa using this)]

/-- A write lists only addresses that were listed, or its own. -/
theorem mem_memSet {m : Mem} {a : Nat} {v : Byte} {c : Host.Cell} (h : c ∈ memSet m a v) : c.1 = a ∨ c ∈ m := by
  induction m with
  | nil => simp only [memSet] at h; split at h <;> simp_all
  | cons d r ih =>
    obtain ⟨b, w⟩ := d
    simp only [memSet] at h
    by_cases h1 : a < b
    · rw [if_pos h1] at h
      split at h
      · exact .inr h
      · rcases List.mem_cons.mp h with h | h
        · exact .inl (by rw [h])
        · exact .inr h
    · rw [if_neg h1] at h
      by_cases h2 : a = b
      · rw [if_pos h2] at h
        split at h
        · exact .inr (List.mem_cons_of_mem _ h)
        · rcases List.mem_cons.mp h with h | h
          · exact .inl (by rw [h])
          · exact .inr (List.mem_cons_of_mem _ h)
      · rw [if_neg h2] at h
        rcases List.mem_cons.mp h with h | h
        · exact .inr (by rw [h]; exact List.mem_cons_self)
        · exact (ih h).imp_right (List.mem_cons_of_mem _)

/-- A byte write keeps the canonical form. -/
theorem memSet_wf {m : Mem} (a : Nat) (v : Byte) (h : Memory.wf m = true) : Memory.wf (memSet m a v) = true := by
  induction m with
  | nil => simp only [memSet]; split <;> simp_all [Memory.wf]
  | cons d r ih =>
    obtain ⟨b, w⟩ := d
    have hr := wf_tail h
    have hb := wf_lt h
    have hw := wf_head h
    simp only [memSet]
    by_cases h1 : a < b
    · rw [if_pos h1]
      split
      · exact h
      · rename_i hv
        refine wf_cons hv h fun c hc => ?_
        cases hc with
        | head => exact h1
        | tail _ hc => exact h1.trans (hb c hc)
    · rw [if_neg h1]
      by_cases h2 : a = b
      · subst h2
        rw [if_pos rfl]
        split
        · exact hr
        · rename_i hv; exact wf_cons hv hr hb
      · rw [if_neg h2]
        refine wf_cons hw (ih hr) fun c hc => ?_
        rcases mem_memSet hc with hc | hc
        · omega
        · exact hb c hc

/-- A read after a byte write: the byte written at its address, the old byte elsewhere. -/
theorem memGet_memSet {m : Mem} (a b : Nat) (v : Byte) (h : Memory.wf m = true) :
    memGet (memSet m a v) b = if b = a then v else memGet m b := by
  induction m with
  | nil =>
    simp only [memSet]
    split <;> rename_i hv
    · by_cases h1 : b = a <;> simp [memGet, h1, hv]
    · by_cases h1 : b = a
      · simp [memGet, h1]
      · simp only [memGet, if_neg h1]; split <;> rfl
  | cons d r ih =>
    obtain ⟨c, w⟩ := d
    have hr := wf_tail h
    have hc := wf_lt h
    simp only [memSet]
    by_cases h1 : a < c
    · rw [if_pos h1]
      split <;> rename_i hv
      · by_cases h2 : b = a
        · rw [if_pos h2, h2, hv]
          exact memGet_before fun x hx => by
            cases hx with
            | head => exact h1
            | tail _ hx => exact h1.trans (hc x hx)
        · rw [if_neg h2]
      · by_cases h2 : b = a
        · simp [memGet, h2]
        · by_cases h3 : b < a
          · have : b ≠ c ∧ b < c := by omega
            simp [memGet, h2, h3, this.1, this.2]
          · simp [memGet, h2, h3]
    · rw [if_neg h1]
      by_cases h2 : a = c
      · subst h2
        rw [if_pos rfl]
        split <;> rename_i hv
        · by_cases h3 : b = a
          · rw [if_pos h3, h3, hv]; exact memGet_before hc
          · rw [if_neg h3]
            by_cases h4 : b < a
            · rw [memGet_before fun x hx => h4.trans (hc x hx)]
              simp [memGet, h3, h4]
            · simp [memGet, h3, h4]
        · by_cases h3 : b = a <;> simp [memGet, h3]
      · rw [if_neg h2]
        by_cases h3 : b = c
        · have : b ≠ a := by omega
          subst h3
          simp [memGet, this]
        · by_cases h4 : b < c
          · have : b ≠ a := by omega
            simp [memGet, h3, h4, this]
          · simp only [memGet, if_neg h3, if_neg h4]
            exact ih hr

/-- A write of bytes keeps the canonical form. -/
theorem memWrite_wf {m : Mem} (a : Nat) (bs : List Byte) (h : Memory.wf m = true) : Memory.wf (memWrite m a bs) = true := by
  induction bs generalizing m a with
  | nil => exact h
  | cons v r ih => exact ih (a + 1) (memSet_wf a v h)

/-- A read after a write of bytes: byte b - a inside the range written, the old byte outside it. -/
theorem memGet_memWrite {m : Mem} (a b : Nat) (bs : List Byte) (h : Memory.wf m = true) :
    memGet (memWrite m a bs) b = if h : a ≤ b ∧ b < a + bs.length then bs[b - a]'(by omega) else memGet m b := by
  induction bs generalizing m a with
  | nil => simp only [memWrite, List.length_nil]; rw [dif_neg (by omega)]
  | cons v r ih =>
    rw [memWrite, ih (a + 1) (memSet_wf a v h)]
    by_cases h1 : a + 1 ≤ b ∧ b < a + 1 + r.length
    · rw [dif_pos h1, dif_pos (by simp only [List.length_cons]; omega)]
      have : b - a = (b - (a + 1)) + 1 := by omega
      simp only [this, List.getElem_cons_succ]
    · rw [dif_neg h1, memGet_memSet _ _ _ h]
      by_cases h2 : b = a
      · subst h2; simp
      · rw [if_neg h2, dif_neg (by simp only [List.length_cons]; omega)]

/-- A write leaves every address outside its bytes alone. -/
theorem memGet_memWrite_other {m : Mem} (a b : Nat) (bs : List Byte) (h : Memory.wf m = true)
    (hb : b < a ∨ a + bs.length ≤ b) : memGet (memWrite m a bs) b = memGet m b := by
  rw [memGet_memWrite a b bs h, dif_neg (by omega)]

/-- Reading back a range just written. -/
theorem memRead_memWrite {m : Mem} (a : Nat) (bs : List Byte) (h : Memory.wf m = true) :
    memRead (memWrite m a bs) a bs.length = bs := by
  apply List.ext_getElem
  · simp [memRead]
  · intro i h1 h2
    simp only [memRead, List.getElem_map, List.getElem_range]
    rw [memGet_memWrite a (a + i) bs h, dif_pos (by omega)]
    simp

/-- Removing cells keeps the canonical form. -/
theorem filter_wf {m : Mem} (p : Host.Cell → Bool) (h : Memory.wf m = true) : Memory.wf (m.filter p) = true := by
  induction m with
  | nil => rfl
  | cons d r ih =>
    obtain ⟨a, v⟩ := d
    have hr := ih (wf_tail h)
    simp only [List.filter_cons]
    split
    · exact wf_cons (wf_head h) hr fun c hc => wf_lt h c (List.mem_filter.mp hc).1
    · exact hr

/-- Bytes of a number read back as the number (R8). -/
theorem leNat_leBytes (k n : Nat) : leNat (leBytes k n) = n % 256 ^ k := by
  induction k generalizing n with
  | zero => simp [leBytes, leNat, Nat.mod_one]
  | succ k ih =>
    have e : leBytes (k + 1) n = BitVec.ofNat 8 n :: leBytes k (n / 256) := by
      simp only [leBytes, List.range_succ_eq_map, List.map_cons, List.map_map, Nat.pow_zero, Nat.div_one]
      congr 1
      apply List.map_congr_left
      intro i _
      simp only [Function.comp_apply, Nat.succ_eq_add_one, Nat.pow_succ', Nat.div_div_eq_div_mul]
    rw [e, leNat, ih]
    simp only [BitVec.toNat_ofNat]
    have h1 : (2 : Nat) ^ 8 = 256 := rfl
    rw [h1, Nat.pow_succ', Nat.mod_mul]

@[simp] theorem leBytes_length (k n : Nat) : (leBytes k n).length = k := by simp [leBytes]

@[simp] theorem memRead_length (m : Mem) (a n : Nat) : (memRead m a n).length = n := by simp [memRead]

/-- Two canonical memories that read the same are the same. -/
theorem mem_ext {m n : Mem} (hm : Memory.wf m = true) (hn : Memory.wf n = true)
    (h : ∀ a, memGet m a = memGet n a) : m = n := by
  induction m generalizing n with
  | nil =>
    cases n with
    | nil => rfl
    | cons d r =>
      obtain ⟨a, v⟩ := d
      have := h a
      simp [memGet] at this
      exact absurd this.symm (wf_head hn)
  | cons c s ih =>
    obtain ⟨a, v⟩ := c
    cases n with
    | nil =>
      have := h a
      simp [memGet] at this
      exact absurd this (wf_head hm)
    | cons d r =>
      obtain ⟨b, w⟩ := d
      have hab : a = b := by
        rcases Nat.lt_trichotomy a b with hl | he | hl
        · have := h a
          rw [memGet_before (m := (b, w) :: r) fun x hx => by
            cases hx with
            | head => exact hl
            | tail _ hx => exact hl.trans (wf_lt hn x hx)] at this
          simp [memGet] at this
          exact absurd this (wf_head hm)
        · exact he
        · have := h b
          rw [memGet_before (m := (a, v) :: s) fun x hx => by
            cases hx with
            | head => exact hl
            | tail _ hx => exact hl.trans (wf_lt hm x hx)] at this
          simp [memGet] at this
          exact absurd this.symm (wf_head hn)
      subst hab
      have hvw : v = w := by have := h a; simpa [memGet] using this
      subst hvw
      have : s = r := ih (wf_tail hm) (wf_tail hn) fun x => by
        by_cases hx : x = a
        · subst hx
          rw [memGet_before (wf_lt hm), memGet_before (wf_lt hn)]
        · by_cases hl : x < a
          · rw [memGet_before fun c hc => hl.trans (wf_lt hm c hc), memGet_before fun c hc => hl.trans (wf_lt hn c hc)]
          · have := h x
            simpa [memGet, hx, hl] using this
      rw [this]

end Sys2Proof.Machine
end

