-- ==== Sys2Proof/Laws/Outcomes.lean ====
section
/-!
SUPPORT. What the shared outcomes of a meaning are: for an issuing gang, helm or stream, and for a result produced.
-/
namespace Sys2Proof.Machine

open Sys2Proof Sys2Proof.Claims

variable {s : State}

/-- A warp-stream meaning run for its gang: its state, or its fault taken. -/
theorem onGang_gang {k : GCtx} {f : GCtx → Except Raise State} (h : gangOf s s.cur = some k) :
    onGang s f = match f k with
      | .ok t => .next t
      | .error r => .next (takeFault s s.cur r) := by
  simp only [onGang, h] <;> rfl

/-- The same for a helm. -/
theorem onHelm_helm {k : HCtx} {f : HCtx → Except Raise State} (h : helmOf s s.cur = some k) :
    onHelm s f = match f k with
      | .ok t => .next t
      | .error r => .next (takeFault s s.cur r) := by
  simp only [onHelm, h] <;> rfl

/-- The same for a helm whose guard is true. -/
theorem onHelmC_issues {k : HCtx} {c : Ctl} {f : HCtx → Except Raise State} (h : HelmIssues s k c) :
    onHelmC s c f = match f k with
      | .ok t => .next t
      | .error r => .next (takeFault s s.cur r) := by
  rw [onHelmC, onHelm_helm h.helm, h.guard]
  rfl

/-- The same for a stream of the kind that the instruction belongs to. -/
theorem onStream_issues {k : SCtx} {copies numbered : Bool} {f : SCtx → Except Raise State} (h : StreamIssues s k copies) :
    onStream s copies numbered f = match f k with
      | .ok t => .next t
      | .error r => .next (takeFault s s.cur r numbered) := by
  have hk : ((k.k == 0) == copies) = false := by simpa using h.kind
  simp only [onStream, h.stream, hk, Bool.false_eq_true, if_false] <;> rfl

/-- A meaning run in lanes of which at least one participates. -/
theorem onLanes_issues {k : GCtx} {c : Ctl} {m : LaneMask} {f : GCtx → LaneMask → Except Raise State} (h : Issues s k c m) :
    onLanes s c f = match f k m with
      | .ok t => .next t
      | .error r => .next (takeFault s s.cur r) := by
  rw [onLanes, onGang_gang h.gang, h.part]
  simp only [if_neg h.some]

/-- The same for a meaning that produces a result. -/
theorem onResult_issues {k : GCtx} {c : Ctl} {d : Dst} {m : LaneMask} {f : GCtx → LaneMask → Except Raise State}
    (h : Issues s k c m) :
    onResult s c d f = match f k m with
      | .ok t => .next t
      | .error r => .next (takeFault s s.cur r) := by
  rw [onResult, onGang_gang h.gang, h.part]
  simp only [if_neg h.some]

/-- The same for a meaning that may have no destination. -/
theorem onDst_issues {k : GCtx} {c : Ctl} {d : Option Dst} {m : LaneMask} {f : GCtx → LaneMask → Except Raise State}
    (h : Issues s k c m) :
    onDst s c d f = match f k m with
      | .ok t => .next t
      | .error r => .next (takeFault s s.cur r) := by
  cases d with
  | none => exact onLanes_issues h
  | some d => exact onResult_issues h

/-- A result written where nothing stops the write: the registers and the latch of one warp, or REGPOOL_EXHAUSTED. -/
theorem putResult_ok (k : GCtx) (d : Dst) (v : VVal) (m : LaneMask) (hm : m ≠ 0) (h : CanWrite k d m) :
    ∃ wp latch, WarpWrote k d m v wp latch ∧
      putResult s k d v m = if linesHeld wp ≤ wp.gmax then .ok (commit s k wp latch)
        else .error (raise .regpool (some (lowLane m))) := by
  obtain ⟨wp, latch, hw, hs⟩ := writeLevels_ok k d v m hm h
  refine ⟨wp, latch, hs, ?_⟩
  simp only [putResult, writeDst, hw, checkLines]
  by_cases hl : linesHeld wp ≤ wp.gmax
  · rw [if_pos hl, if_neg (by omega)]
  · rw [if_neg hl, if_pos (by omega)]

/-- A meaning that writes a result, with what it adds to the state it gives, does what `Produces` says. -/
theorem produces_of_putResult {k : GCtx} {d : Dst} {v : VVal} {m : LaneMask} {post : State → State} {out : Out1}
    (hm : m ≠ 0) (h : CanWrite k d m)
    (ho : out = match (putResult s k d v m).map post with
      | .ok t => .next t
      | .error r => .next (takeFault s s.cur r)) : Produces s k d m v post out := by
  obtain ⟨wp, latch, hs, hp⟩ := putResult_ok (s := s) k d v m hm h
  refine ⟨wp, latch, hs, fun hl => ?_, fun hl => ?_⟩
  · rw [ho, hp, if_pos hl]; rfl
  · rw [ho, hp, if_neg (by omega)]; rfl

end Sys2Proof.Machine
end

