-- ==== Sys2Proof/Laws/PerInstr.lean ====
section
/-!
SUPPORT. Statements made for each instruction, and one lemma per constructor.
-/

set_option linter.unusedSimpArgs false

namespace Sys2Proof.Laws.RoundTrip

open Sys2Proof

/-- Decoding the word of a well-formed instruction gives it back (R59 to R81). -/
def Statement (i : Instr) : Prop := i.wf = true → ∀ x, encode i = some x → decode x = some i

/-- An event, which no word spells. -/
theorem unspelled {i : Instr} (h : encode i = none) : Statement i := by
  simp only [Statement, h, reduceCtorEq, IsEmpty.forall_iff, implies_true]

/-- An instruction spelt by one word: its fields read back. -/
theorem spelt {i : Instr} {cls op c dst a b e mod} (h : encode i = some (mk cls op c dst a b e mod))
    (hd : decFields { mod := mod, c := e, b := b, a := a, dst := dst, hint := c.hint, inv := BitVec.ofBool c.inv,
                      pred := BitVec.ofFin (w := 3) c.pred, cls := cls, op := op } = some i) : Statement i := by
  intro hw x hx
  rw [h, Option.some.injEq] at hx
  rw [← hx, decode_mk hw hd]

theorem iadd (c d a b w sat u) : Statement (.iadd c d a b w sat u) :=
  spelt rfl (by simp [decFields, decInt, need, modOnly])

theorem isub (c d a b w sat u) : Statement (.isub c d a b w sat u) :=
  spelt rfl (by simp [decFields, decInt, need, modOnly])

theorem imul (c d a b w sat u) : Statement (.imul c d a b w sat u) :=
  spelt rfl (by simp [decFields, decInt, need, modOnly])

theorem imulhi (c d a b w u) : Statement (.imulhi c d a b w u) :=
  spelt rfl (by simp [decFields, decInt, need, modOnly])

theorem imad (c d a b e w sat u) : Statement (.imad c d a b e w sat u) :=
  spelt rfl (by simp [decFields, decInt, need, modOnly])

theorem imin (c d a b w u) : Statement (.imin c d a b w u) :=
  spelt rfl (by simp [decFields, decInt, need, modOnly])

theorem imax (c d a b w u) : Statement (.imax c d a b w u) :=
  spelt rfl (by simp [decFields, decInt, need, modOnly])

theorem iabs (c d a w sat) : Statement (.iabs c d a w sat) :=
  spelt rfl (by simp [decFields, decInt, need, modOnly])

theorem isetp (c p a b cmp u) : Statement (.isetp c p a b cmp u) :=
  spelt rfl (by simp [decFields, decInt, need, modOnly])

theorem shl (c d a b w) : Statement (.shl c d a b w) :=
  spelt rfl (by simp [decFields, decInt, need, modOnly])

theorem shr (c d a b w) : Statement (.shr c d a b w) :=
  spelt rfl (by simp [decFields, decInt, need, modOnly])

theorem sar (c d a b w) : Statement (.sar c d a b w) :=
  spelt rfl (by simp [decFields, decInt, need, modOnly])

theorem and (c d a b) : Statement (.and c d a b) :=
  spelt rfl (by simp [decFields, decInt, need, modOnly])

theorem or (c d a b) : Statement (.or c d a b) :=
  spelt rfl (by simp [decFields, decInt, need, modOnly])

theorem xor (c d a b) : Statement (.xor c d a b) :=
  spelt rfl (by simp [decFields, decInt, need, modOnly])

theorem andn (c d a b) : Statement (.andn c d a b) :=
  spelt rfl (by simp [decFields, decInt, need, modOnly])

theorem lop3 (c d a b e tt) : Statement (.lop3 c d a b e tt) :=
  spelt rfl (by simp [decFields, decInt, need, modOnly])

theorem popc (c d a w) : Statement (.popc c d a w) :=
  spelt rfl (by simp [decFields, decInt, need, modOnly])

theorem clz (c d a w) : Statement (.clz c d a w) :=
  spelt rfl (by simp [decFields, decInt, need, modOnly])

theorem brev (c d a w) : Statement (.brev c d a w) :=
  spelt rfl (by simp [decFields, decInt, need, modOnly])

theorem bfx (c d a b u) : Statement (.bfx c d a b u) :=
  spelt rfl (by simp [decFields, decInt, need, modOnly])

theorem bfi (c d a b e) : Statement (.bfi c d a b e) :=
  spelt rfl (by simp [decFields, decInt, need, modOnly])

theorem sel (c d a b p) : Statement (.sel c d a b p) :=
  spelt rfl (by simp [decFields, decInt, need, modOnly])

theorem prmt (c d a b e) : Statement (.prmt c d a b e) :=
  spelt rfl (by simp [decFields, decInt, need, modOnly])

theorem idot4 (c d a b e sat u) : Statement (.idot4 c d a b e sat u) :=
  spelt rfl (by simp [decFields, decInt, need, modOnly])

theorem mov (c d a) : Statement (.mov c d a) :=
  spelt rfl (by simp [decFields, decInt, need, modOnly])

theorem movi (c d imm) : Statement (.movi c d imm) :=
  spelt rfl (by simp [decFields, decInt, need, modOnly])

theorem cvt (c d a dt st rm sat) : Statement (.cvt c d a dt st rm sat) :=
  spelt rfl (by simp [decFields, decInt, need, modOnly])

theorem sread (c d sel hi) : Statement (.sread c d sel hi) := by
  have h : sel.val % 16 = sel.val := Nat.mod_eq_of_lt (by omega)
  cases hi
  all_goals
    intro hw x hx
    cases hx
    exact decode_mk hw (by simp [decFields, decInt, need, modOnly, h])

theorem vtag (c d a) : Statement (.vtag c d a) :=
  spelt rfl (by simp [decFields, decInt, need, modOnly])

theorem vshape (c n) : Statement (.vshape c n) :=
  spelt rfl (by simp [decFields, decInt, need, modOnly])

theorem vexp (c n) : Statement (.vexp c n) :=
  spelt rfl (by simp [decFields, decInt, need, modOnly])

theorem shfl (c d a b mode) : Statement (.shfl c d a b mode) := by
  cases mode
  all_goals
    intro hw x hx
    cases hx
    exact decode_mk hw (by simp [encShfl, decShfl, decFields, decInt, need, modOnly])

theorem vote (c form p) : Statement (.vote c form p) := by
  cases form
  all_goals
    intro hw x hx
    cases hx
    exact decode_mk hw (by simp [decFields, decInt, need, modOnly])

theorem redx (c d a op sat u) : Statement (.redx c d a op sat u) :=
  spelt rfl (by simp [decFields, decInt, need, modOnly])

theorem scanx (c d a op sat u) : Statement (.scanx c d a op sat u) :=
  spelt rfl (by simp [decFields, decInt, need, modOnly])

theorem xset (c x base limit vidx) : Statement (.xset c x base limit vidx) :=
  spelt rfl (by simp [decFields, decInt, need, modOnly])

theorem xclr (c x) : Statement (.xclr c x) :=
  spelt rfl (by simp [decFields, decInt, need, modOnly])

theorem plop (c p a b op) : Statement (.plop c p a b op) := by
  cases op
  all_goals
    intro hw x hx
    cases hx
    exact decode_mk hw (by simp [encPLogic, decPLogic, decFields, decInt, need, modOnly])

theorem pmov (c form) : Statement (.pmov c form) := by
  cases form
  all_goals
    intro hw x hx
    cases hx
    exact decode_mk hw (by simp [decFields, decInt, need, modOnly])

theorem fadd (c d a b rm pk) : Statement (.fadd c d a b rm pk) :=
  spelt rfl (by simp [decFields, decFp, need, modOnly])

theorem fsub (c d a b rm pk) : Statement (.fsub c d a b rm pk) :=
  spelt rfl (by simp [decFields, decFp, need, modOnly])

theorem fmul (c d a b rm pk) : Statement (.fmul c d a b rm pk) :=
  spelt rfl (by simp [decFields, decFp, need, modOnly])

theorem ffma (c d a b e rm pk) : Statement (.ffma c d a b e rm pk) :=
  spelt rfl (by simp [decFields, decFp, need, modOnly])

theorem fmin (c d a b pk) : Statement (.fmin c d a b pk) :=
  spelt rfl (by simp [decFields, decFp, need, modOnly])

theorem fmax (c d a b pk) : Statement (.fmax c d a b pk) :=
  spelt rfl (by simp [decFields, decFp, need, modOnly])

theorem fsetp (c p a b cmp) : Statement (.fsetp c p a b cmp) :=
  spelt rfl (by simp [decFields, decFp, need, modOnly])

theorem frnd (c d a rm pk) : Statement (.frnd c d a rm pk) :=
  spelt rfl (by simp [decFields, decFp, need, modOnly])

theorem fclass (c d a) : Statement (.fclass c d a) :=
  spelt rfl (by simp [decFields, decFp, need, modOnly])

theorem fscale (c d a b rm pk) : Statement (.fscale c d a b rm pk) :=
  spelt rfl (by simp [decFields, decFp, need, modOnly])

theorem fdot2 (c d a b e rm pk) : Statement (.fdot2 c d a b e rm pk) :=
  spelt rfl (by simp [decFields, decFp, need, modOnly])

theorem rcp (c d a) : Statement (.rcp c d a) :=
  spelt rfl (by simp [decFields, decFp, need, modOnly])

theorem rsq (c d a) : Statement (.rsq c d a) :=
  spelt rfl (by simp [decFields, decFp, need, modOnly])

theorem sqrt (c d a) : Statement (.sqrt c d a) :=
  spelt rfl (by simp [decFields, decFp, need, modOnly])

theorem ex2 (c d a) : Statement (.ex2 c d a) :=
  spelt rfl (by simp [decFields, decFp, need, modOnly])

theorem lg2 (c d a) : Statement (.lg2 c d a) :=
  spelt rfl (by simp [decFields, decFp, need, modOnly])

theorem sinpi (c d a) : Statement (.sinpi c d a) :=
  spelt rfl (by simp [decFields, decFp, need, modOnly])

theorem cospi (c d a) : Statement (.cospi c d a) :=
  spelt rfl (by simp [decFields, decFp, need, modOnly])

theorem tanh (c d a) : Statement (.tanh c d a) :=
  spelt rfl (by simp [decFields, decFp, need, modOnly])

theorem ld (c d addr off ord scope raw sx size) : Statement (.ld c d addr off ord scope raw sx size) :=
  spelt rfl (by simp [decFields, decMem, need, modOnly, scopeOf, orderOf, encTwN, encSigVal, verOf_some, verOf_none])

theorem st (c addr data off ord scope raw ver size) : Statement (.st c addr data off ord scope raw ver size) := by
  cases ver
  all_goals
    intro hw x hx
    cases hx
    exact decode_mk hw (by simp [decFields, decMem, need, modOnly, scopeOf, orderOf, encTwN, encSigVal, verOf_some, verOf_none])

theorem qst (c addr data off ord scope ver size) : Statement (.qst c addr data off ord scope ver size) := by
  cases ver
  all_goals
    intro hw x hx
    cases hx
    exact decode_mk hw (by simp [decFields, decMem, need, modOnly, scopeOf, orderOf, encTwN, encSigVal, verOf_some, verOf_none])

theorem atom (c d addr data op u ord scope size) : Statement (.atom c d addr data op u ord scope size) := by
  cases d
  all_goals
    intro hw x hx
    cases hx
    exact decode_mk hw (by simp [decFields, decMem, need, modOnly, scopeOf, orderOf, encTwN, encSigVal, verOf_some, verOf_none])

theorem atomo (c addr data off) : Statement (.atomo c addr data off) :=
  spelt rfl (by simp [decFields, decMem, need, modOnly])

theorem fence (c ord scope flush) : Statement (.fence c ord scope flush) :=
  spelt rfl (by simp [decFields, decMem, need, modOnly, scopeOf, orderOf, encTwN, encSigVal, verOf_some, verOf_none])

theorem waita (c d addr data cmp ord scope size) : Statement (.waita c d addr data cmp ord scope size) := by
  cases cmp
  all_goals
    intro hw x hx
    cases hx
    exact decode_mk hw (by simp [encWCmp, decWCmp, decFields, decMem, need, modOnly, scopeOf, orderOf, encTwN, encSigVal, verOf_some, verOf_none])

theorem pref (c addr off kind) : Statement (.pref c addr off kind) := by
  cases kind
  all_goals
    intro hw x hx
    cases hx
    exact decode_mk hw (by simp [decFields, decMem, need, modOnly])

theorem bra (c rc off) : Statement (.bra c rc off) :=
  spelt rfl (by simp [decFields, decCtl, need, modOnly])

theorem bru (c t) : Statement (.bru c t) := by
  cases t
  all_goals
    intro hw x hx
    cases hx
    exact decode_mk hw (by simp [decFields, decCtl, need, modOnly])

theorem brx (c rc a) : Statement (.brx c rc a) :=
  spelt rfl (by simp [decFields, decCtl, need, modOnly])

theorem call (c off) : Statement (.call c off) :=
  spelt rfl (by simp [decFields, decCtl, need, modOnly])

theorem callx (c a) : Statement (.callx c a) :=
  spelt rfl (by simp [decFields, decCtl, need, modOnly])

theorem ret (c) : Statement (.ret c) :=
  spelt rfl (by simp [decFields, decCtl, need, modOnly])

theorem regang (c a) : Statement (.regang c a) :=
  spelt rfl (by simp [decFields, decCtl, need, modOnly])

theorem exit (c) : Statement (.exit c) :=
  spelt rfl (by simp [decFields, decCtl, need, modOnly])

theorem yield (c) : Statement (.yield c) :=
  spelt rfl (by simp [decFields, decCtl, need, modOnly])

theorem safe (c n) : Statement (.safe c n) :=
  spelt rfl (by simp [decFields, decCtl, need, modOnly])

theorem xfer (c a bk) : Statement (.xfer c a bk) :=
  spelt rfl (by simp [decFields, decCtl, need, modOnly])

theorem trap (c n) : Statement (.trap c n) :=
  spelt rfl (by simp [decFields, decCtl, need, modOnly])

theorem nop (c) : Statement (.nop c) :=
  spelt rfl (by simp [decFields, decCtl, need, modOnly])

theorem bkpt (c) : Statement (.bkpt c) :=
  spelt rfl (by simp [decFields, decCtl, need, modOnly])

theorem bara (c b n) : Statement (.bara c b n) :=
  spelt rfl (by simp [decFields, decCtl, need, modOnly])

theorem barw (c b) : Statement (.barw c b) :=
  spelt rfl (by simp [decFields, decCtl, need, modOnly])

theorem bars (c b n) : Statement (.bars c b n) :=
  spelt rfl (by simp [decFields, decCtl, need, modOnly])

theorem twait (c p k n) : Statement (.twait c p k n) := by
  cases p <;> cases n
  all_goals
    intro hw x hx
    cases hx
    exact decode_mk hw (by simp [decFields, decCtl, need, modOnly, scopeOf, orderOf, encTwN, encSigVal, verOf_some, verOf_none])

theorem dqpop (c d) : Statement (.dqpop c d) :=
  spelt rfl (by simp [decFields, decCtl, need, modOnly])

theorem sigop (c addr val op scope) : Statement (.sigop c addr val op scope) := by
  cases val <;> cases op <;> cases scope
  all_goals
    intro hw x hx
    cases hx
    exact decode_mk hw (by simp [encSigOp, decSigOp, encScope, decScope, encSigVal, decFields, decCtl, need, modOnly, scopeOf, orderOf, encTwN, encSigVal, verOf_some, verOf_none])

theorem sadd (c d a b) : Statement (.sadd c d a b) :=
  spelt rfl (by simp [decFields, decHelm, need, modOnly])

theorem ssub (c d a b) : Statement (.ssub c d a b) :=
  spelt rfl (by simp [decFields, decHelm, need, modOnly])

theorem smul (c d a b) : Statement (.smul c d a b) :=
  spelt rfl (by simp [decFields, decHelm, need, modOnly])

theorem sand (c d a b) : Statement (.sand c d a b) :=
  spelt rfl (by simp [decFields, decHelm, need, modOnly])

theorem sor (c d a b) : Statement (.sor c d a b) :=
  spelt rfl (by simp [decFields, decHelm, need, modOnly])

theorem sxor (c d a b) : Statement (.sxor c d a b) :=
  spelt rfl (by simp [decFields, decHelm, need, modOnly])

theorem sshl (c d a b) : Statement (.sshl c d a b) :=
  spelt rfl (by simp [decFields, decHelm, need, modOnly])

theorem sshr (c d a b) : Statement (.sshr c d a b) :=
  spelt rfl (by simp [decFields, decHelm, need, modOnly])

theorem ssar (c d a b) : Statement (.ssar c d a b) :=
  spelt rfl (by simp [decFields, decHelm, need, modOnly])

theorem smin (c d a b u) : Statement (.smin c d a b u) :=
  spelt rfl (by simp [decFields, decHelm, need, modOnly])

theorem smax (c d a b u) : Statement (.smax c d a b u) :=
  spelt rfl (by simp [decFields, decHelm, need, modOnly])

theorem scmp (c q a b cmp u) : Statement (.scmp c q a b cmp u) :=
  spelt rfl (by simp [decFields, decHelm, need, modOnly])

theorem ssel (c d a b q) : Statement (.ssel c d a b q) :=
  spelt rfl (by simp [decFields, decHelm, need, modOnly])

theorem smov (c d a) : Statement (.smov c d a) :=
  spelt rfl (by simp [decFields, decHelm, need, modOnly])

theorem smovi (c d imm hi) : Statement (.smovi c d imm hi) :=
  spelt rfl (by simp [decFields, decHelm, need, modOnly])

theorem sld (c d a off ord scope sx size) : Statement (.sld c d a off ord scope sx size) :=
  spelt rfl (by simp [decFields, decHelm, need, modOnly, scopeOf, orderOf, encTwN, encSigVal, verOf_some, verOf_none])

theorem sst (c a b off ord scope size) : Statement (.sst c a b off ord scope size) :=
  spelt rfl (by simp [decFields, decHelm, need, modOnly, scopeOf, orderOf, encTwN, encSigVal, verOf_some, verOf_none])

theorem satom (c d a b op u ord scope size) : Statement (.satom c d a b op u ord scope size) := by
  cases d
  all_goals
    intro hw x hx
    cases hx
    exact decode_mk hw (by simp [decFields, decHelm, need, modOnly, scopeOf, orderOf, encTwN, encSigVal, verOf_some, verOf_none])

theorem sbr (c off) : Statement (.sbr c off) :=
  spelt rfl (by simp [decFields, decHelm, need, modOnly])

theorem sjmp (c a) : Statement (.sjmp c a) :=
  spelt rfl (by simp [decFields, decHelm, need, modOnly])

theorem scall (c off) : Statement (.scall c off) :=
  spelt rfl (by simp [decFields, decHelm, need, modOnly])

theorem sret (c) : Statement (.sret c) :=
  spelt rfl (by simp [decFields, decHelm, need, modOnly])

theorem dqpush (c v m) : Statement (.dqpush c v m) :=
  spelt rfl (by simp [decFields, decHelm, need, modOnly])

theorem fork (c k e) : Statement (.fork c k e) :=
  spelt rfl (by simp [decFields, decHelm, need, modOnly])

theorem join (c k) : Statement (.join c k) :=
  spelt rfl (by simp [decFields, decHelm, need, modOnly])

theorem hend (c) : Statement (.hend c) :=
  spelt rfl (by simp [decFields, decHelm, need, modOnly])

theorem cpy (c p) : Statement (.cpy c p) :=
  spelt rfl (by simp [decFields, decCopy, need, modOnly])

theorem cpys (c p) : Statement (.cpys c p) :=
  spelt rfl (by simp [decFields, decCopy, need, modOnly])

theorem cgath (c p) : Statement (.cgath c p) :=
  spelt rfl (by simp [decFields, decCopy, need, modOnly])

theorem cscat (c p) : Statement (.cscat c p) :=
  spelt rfl (by simp [decFields, decCopy, need, modOnly])

theorem tgath (c d a b len) : Statement (.tgath c d a b len) :=
  spelt rfl (by simp [decFields, decCopy, need, modOnly])

theorem cred (c p) : Statement (.cred c p) :=
  spelt rfl (by simp [decFields, decCopy, need, modOnly])

theorem cfill (c p) : Statement (.cfill c p) :=
  spelt rfl (by simp [decFields, decCopy, need, modOnly])

theorem cslot (c m p) : Statement (.cslot c m p) :=
  spelt rfl (by simp [decFields, decCopy, need, modOnly])

theorem crecode (c p t) : Statement (.crecode c p t) :=
  spelt rfl (by simp [decFields, decCopy, need, modOnly])

theorem csig (c form) : Statement (.csig c form) := by
  intro hw x hx
  cases hx' : form with
  | bar b n =>
    subst hx'
    cases hx
    exact decode_mk hw (by simp [decFields, decCopy, need, modOnly])
  | sig op sc p v =>
    subst hx'
    cases hx
    refine decode_mk hw ?_
    have hs : sc.okSig = true := by simp [Instr.wf] at hw; exact hw.2
    cases sc <;> first | exact absurd hs (by decide) | skip
    all_goals cases op <;> simp [decFields, decCopy, need, modOnly, encScope2, decScope2, encSigOp, decSigOp]

theorem cwait (c form) : Statement (.cwait c form) := by
  intro hw x hx
  cases hx' : form with
  | bar b =>
    subst hx'
    cases hx
    exact decode_mk hw (by simp [decFields, decCopy, need, modOnly])
  | sig cmp sc p v =>
    subst hx'
    cases hx
    refine decode_mk hw ?_
    have hs : sc.okSig = true := by simp [Instr.wf] at hw; exact hw.2
    cases sc <;> first | exact absurd hs (by decide) | skip
    all_goals cases cmp <;> simp [decFields, decCopy, need, modOnly, encScope2, decScope2, encWCmp, decWCmp]

theorem cloop (c n len) : Statement (.cloop c n len) :=
  spelt rfl (by simp [decFields, decCopy, need, modOnly])

theorem cend (c) : Statement (.cend c) :=
  spelt rfl (by simp [decFields, decCopy, need, modOnly])

theorem mclaim (c a m ns nt) : Statement (.mclaim c a m ns nt) :=
  spelt rfl (by simp [decFields, decMat, need, modOnly])

theorem mrel (c a m ns nt) : Statement (.mrel c a m ns nt) :=
  spelt rfl (by simp [decFields, decMat, need, modOnly])

theorem mma (c d a b kind) : Statement (.mma c d a b kind) := by
  cases kind
  all_goals
    intro hw x hx
    cases hx
    exact decode_mk hw (by simp [encMma, decMma, decFields, decMat, need, modOnly])

theorem mmag (c d x g p) : Statement (.mmag c d x g p) :=
  spelt rfl (by simp [decFields, decMat, need, modOnly])

theorem mzero (c d) : Statement (.mzero c d) :=
  spelt rfl (by simp [decFields, decMat, need, modOnly])

theorem mstore (c a p conv) : Statement (.mstore c a p conv) := by
  cases conv
  all_goals
    intro hw x hx
    cases hx
    exact decode_mk hw (by simp [encConv, decConv, decFields, decMat, need, modOnly])

theorem macc (c d a) : Statement (.macc c d a) :=
  spelt rfl (by simp [decFields, decMat, need, modOnly])

theorem mbara (c b n) : Statement (.mbara c b n) :=
  spelt rfl (by simp [decFields, decMat, need, modOnly])

theorem mbarw (c b) : Statement (.mbarw c b) :=
  spelt rfl (by simp [decFields, decMat, need, modOnly])

theorem mloop (c n len ctr) : Statement (.mloop c n len ctr) := by
  cases ctr
  all_goals
    intro hw x hx
    cases hx
    exact decode_mk hw (by simp [encCtr, decCtr, decFields, decMat, need, modOnly])

theorem msave (c p) : Statement (.msave c p) :=
  spelt rfl (by simp [decFields, decMat, need, modOnly])

theorem mresume (c p) : Statement (.mresume c p) :=
  spelt rfl (by simp [decFields, decMat, need, modOnly])

theorem mcur (c profile) : Statement (.mcur c profile) :=
  spelt rfl (by simp [decFields, decMat, need, modOnly])

theorem mend (c) : Statement (.mend c) :=
  spelt rfl (by simp [decFields, decMat, need, modOnly])

theorem csrr (c d sel) : Statement (.csrr c d sel) :=
  spelt rfl (by simp [decFields, decSys, need, modOnly])

theorem csrw (c sel a) : Statement (.csrw c sel a) :=
  spelt rfl (by simp [decFields, decSys, need, modOnly])

theorem trapret (c) : Statement (.trapret c) :=
  spelt rfl (by simp [decFields, decSys, need, modOnly])

theorem cont (c a) : Statement (.cont c a) :=
  spelt rfl (by simp [decFields, decSys, need, modOnly])

theorem fresume (c) : Statement (.fresume c) :=
  spelt rfl (by simp [decFields, decSys, need, modOnly])

theorem loadDataArrives (id) : Statement (.loadDataArrives id) := unspelled rfl

theorem atomReturn (id) : Statement (.atomReturn id) := unspelled rfl

theorem cellClose (l) : Statement (.cellClose l) := unspelled rfl

theorem waitaSatisfied (p) : Statement (.waitaSatisfied p) := unspelled rfl

theorem fabricPoll (p) : Statement (.fabricPoll p) := unspelled rfl

theorem versionTransfer (b w) : Statement (.versionTransfer b w) := unspelled rfl

theorem barrierWaitComplete (p) : Statement (.barrierWaitComplete p) := unspelled rfl

theorem twaitSatisfied (p) : Statement (.twaitSatisfied p) := unspelled rfl

theorem dqpopDeliver (p) : Statement (.dqpopDeliver p) := unspelled rfl

theorem helmLoadReturn (id) : Statement (.helmLoadReturn id) := unspelled rfl

theorem dqpushAppend (b) : Statement (.dqpushAppend b) := unspelled rfl

theorem forkStart (b) : Statement (.forkStart b) := unspelled rfl

theorem joinComplete (b) : Statement (.joinComplete b) := unspelled rfl

theorem tgathAccept (p) : Statement (.tgathAccept p) := unspelled rfl

theorem cwaitSatisfied (b k) : Statement (.cwaitSatisfied b k) := unspelled rfl

theorem mclaimTaken (b) : Statement (.mclaimTaken b) := unspelled rfl

theorem mbarwSatisfied (b) : Statement (.mbarwSatisfied b) := unspelled rfl

theorem matrixGrant (b) : Statement (.matrixGrant b) := unspelled rfl

theorem operationComplete (b k n) : Statement (.operationComplete b k n) := unspelled rfl

theorem watchdog : Statement .watchdog := unspelled rfl

theorem storeImprecise (r) : Statement (.storeImprecise r) := unspelled rfl

theorem poisonDetected (at_) : Statement (.poisonDetected at_) := unspelled rfl

theorem writeIndexObserved (q) : Statement (.writeIndexObserved q) := unspelled rfl

theorem nodePacket (q) : Statement (.nodePacket q) := unspelled rfl

theorem graphPacket (q) : Statement (.graphPacket q) := unspelled rfl

theorem copyPacket (q) : Statement (.copyPacket q) := unspelled rfl

theorem barrierPacket (q) : Statement (.barrierPacket q) := unspelled rfl

theorem barrierRound (q n) : Statement (.barrierRound q n) := unspelled rfl

theorem barrierPoll (q n) : Statement (.barrierPoll q n) := unspelled rfl

theorem signalPacket (q) : Statement (.signalPacket q) := unspelled rfl

theorem xferPacket (q) : Statement (.xferPacket q) := unspelled rfl

theorem nopPacket (q) : Statement (.nopPacket q) := unspelled rfl

theorem packetRetire (q n) : Statement (.packetRetire q n) := unspelled rfl

theorem graphNodeComplete (n) : Statement (.graphNodeComplete n) := unspelled rfl

theorem blockRelease : Statement .blockRelease := unspelled rfl

theorem selectedBlockTimeout (q) : Statement (.selectedBlockTimeout q) := unspelled rfl

theorem interimCharge (b) : Statement (.interimCharge b) := unspelled rfl

theorem blockEnd (b) : Statement (.blockEnd b) := unspelled rfl

theorem blockEvict (b) : Statement (.blockEvict b) := unspelled rfl

theorem blockWake (b) : Statement (.blockWake b) := unspelled rfl

theorem blockRestore (b) : Statement (.blockRestore b) := unspelled rfl

theorem fabricLoadIntoImage (id data) : Statement (.fabricLoadIntoImage id data) := unspelled rfl

theorem adapterPrefetch (q n h) : Statement (.adapterPrefetch q n h) := unspelled rfl

theorem faultService (ctx n) : Statement (.faultService ctx n) := unspelled rfl

theorem migrationRequest (ctx va tier ep dst) : Statement (.migrationRequest ctx va tier ep dst) := unspelled rfl

theorem migrationCopyDone (m ok) : Statement (.migrationCopyDone m ok) := unspelled rfl

theorem sdgo (session) : Statement (.sdgo session) := unspelled rfl

theorem shootdownComplete : Statement .shootdownComplete := unspelled rfl

theorem fabricDeliveryComplete (id data) : Statement (.fabricDeliveryComplete id data) := unspelled rfl

theorem fabricOperationFailed (id) : Statement (.fabricOperationFailed id) := unspelled rfl

theorem rmaWrite (r data) : Statement (.rmaWrite r data) := unspelled rfl

theorem rmaRead (r len) : Statement (.rmaRead r len) := unspelled rfl

theorem atomicNonFetching (r op wide val) : Statement (.atomicNonFetching r op wide val) := unspelled rfl

theorem atomicFetching (r op wide val cmp) : Statement (.atomicFetching r op wide val cmp) := unspelled rfl

theorem unsupportedRequest (code) : Statement (.unsupportedRequest code) := unspelled rfl

theorem securityCheckDrop : Statement .securityCheckDrop := unspelled rfl

theorem laneRetire (port lane) : Statement (.laneRetire port lane) := unspelled rfl

theorem portRetrainDone (port) : Statement (.portRetrainDone port) := unspelled rfl

theorem patrolScrub (pa found) : Statement (.patrolScrub pa found) := unspelled rfl

theorem scrubWriteBack (pa) : Statement (.scrubWriteBack pa) := unspelled rfl

theorem channelRetire (stack ch) : Statement (.channelRetire stack ch) := unspelled rfl

theorem channelCopyComplete (stack ch) : Statement (.channelCopyComplete stack ch) := unspelled rfl

theorem spareTakeover (c) : Statement (.spareTakeover c) := unspelled rfl

theorem spanSliceCopyComplete (c) : Statement (.spanSliceCopyComplete c) := unspelled rfl

theorem spanRangeCleared (base) : Statement (.spanRangeCleared base) := unspelled rfl

theorem firmwareReplacement (image ok) : Statement (.firmwareReplacement image ok) := unspelled rfl

theorem recalibration (p) : Statement (.recalibration p) := unspelled rfl

theorem arbiterEpoch : Statement .arbiterEpoch := unspelled rfl

theorem powerOn : Statement .powerOn := unspelled rfl

theorem registerQueue : Statement .registerQueue := unspelled rfl

theorem deregisterQueue : Statement .deregisterQueue := unspelled rfl

theorem moveCode : Statement .moveCode := unspelled rfl

theorem retireVersion : Statement .retireVersion := unspelled rfl

theorem resetPort : Statement .resetPort := unspelled rfl

theorem endNode : Statement .endNode := unspelled rfl

theorem priorityLevelWrite (session level val) : Statement (.priorityLevelWrite session level val) := unspelled rfl

theorem pwrbudgetWrite (session val) : Statement (.pwrbudgetWrite session val) := unspelled rfl

theorem dbgresume (session n val) : Statement (.dbgresume session n val) := unspelled rfl

theorem managementWrite (session off size val) : Statement (.managementWrite session off size val) := unspelled rfl

theorem getVersion : Statement .getVersion := unspelled rfl

theorem getCapabilities : Statement .getCapabilities := unspelled rfl

theorem negotiateAlgorithms : Statement .negotiateAlgorithms := unspelled rfl

theorem getDigests : Statement .getDigests := unspelled rfl

theorem getCertificate (slot) : Statement (.getCertificate slot) := unspelled rfl

theorem challenge (slot) : Statement (.challenge slot) := unspelled rfl

theorem getMeasurements (idx) : Statement (.getMeasurements idx) := unspelled rfl

theorem keyExchange (authOk) : Statement (.keyExchange authOk) := unspelled rfl

theorem finish (session ok) : Statement (.finish session ok) := unspelled rfl

theorem heartbeat (session) : Statement (.heartbeat session) := unspelled rfl

theorem keyUpdate (session) : Statement (.keyUpdate session) := unspelled rfl

theorem endSession (session) : Statement (.endSession session) := unspelled rfl

theorem spdmUnsupported (code) : Statement (.spdmUnsupported code) := unspelled rfl

theorem lockInterfaceRequest (session n) : Statement (.lockInterfaceRequest session n) := unspelled rfl

theorem startInterfaceRequest (session n) : Statement (.startInterfaceRequest session n) := unspelled rfl

theorem stopInterfaceRequest (session n) : Statement (.stopInterfaceRequest session n) := unspelled rfl

theorem getDeviceInterfaceState (session n) : Statement (.getDeviceInterfaceState session n) := unspelled rfl

theorem getDeviceInterfaceReport (session n) : Statement (.getDeviceInterfaceReport session n) := unspelled rfl

theorem keyStoreError (n) : Statement (.keyStoreError n) := unspelled rfl

end Sys2Proof.Laws.RoundTrip
end

