-- ==== Sys2Proof/Tests/Slice0.lean ====
section
/-!
SUPPORT. Tests: the word of every instruction, the checks that well-formedness makes, results worked out by hand from the
manual, and states that meet the hypotheses of each statement.
-/
set_option maxRecDepth 100000
set_option Elab.async false

namespace Sys2Proof.Tests

open Sys2Proof Sys2Proof.Machine Sys2Proof.Claims

/-! ## Words (R59 to R79): three 32-bit words, written field by field from the encoding tables -/

/-- Whether each word decodes to the instruction beside it. -/
def spells (l : List (Nat × Nat × Nat × Instr)) : Bool := l.all fun x => decode (word3 x.1 x.2.1 x.2.2.1) == some x.2.2.2

theorem test_decode_int_1 : spells [
    (0x00101C01, 0xFDC00080, 0x3400003F, .iadd pt (.v 1 .w) (.v 2 .w) (.int (-3)) .w16 true true),
    (0x00341C02, 0x00800090, 0x08000000, .isub pt (.o 3) (.o 2 .w) (.latch .w) .w8 false false),
    (0x000C1C03, 0xFF003200, 0x2C000000, .imul pt .latch (.v 200 .w) (.v 255 .w) .w4 false true),
    (0x00701C04, 0x09000200, 0x20000000, .imulhi pt (.v 7 .w) (.v 8 .w) (.v 9 .w) .w32 true),
    (0x00101C05, 0x03000080, 0x00001000, .imad pt (.v 1 .w) (.v 2 .w) (.v 3 .w) (.v 4 .w) .w32 false false),
    (0x00101C06, 0xFFC00080, 0x0000001F, .imin pt (.v 1 .w) (.v 2 .w) (.int 8191) .w32 false),
    (0x00101C07, 0x00C00080, 0x20000020, .imax pt (.v 1 .w) (.v 2 .w) (.int (-8192)) .w32 true),
    (0x00101C08, 0x00000080, 0x18000000, .iabs pt (.v 1 .w) (.v 2 .w) .w8 true),
    (0x00301C09, 0x04000080, 0x20001700, .isetp pt 3 (.v 2 .w) (.v 4 .w) .ge true),
    (0x00101C0A, 0x03000080, 0x04000000, .shl pt (.v 1 .w) (.v 2 .w) (.v 3 .w) .w16),
    (0x00101C0B, 0x03000080, 0x00000000, .shr pt (.v 1 .w) (.v 2 .w) (.v 3 .w) .w32),
    (0x00101C0C, 0x03000080, 0x0C000000, .sar pt (.v 1 .w) (.v 2 .w) (.v 3 .w) .w4),
    (0x00101C0D, 0x03000080, 0x00000000, .and pt (.v 1 .w) (.v 2 .w) (.v 3 .w)),
    (0x00101C0E, 0x03000080, 0x00000000, .or pt (.v 1 .w) (.v 2 .w) (.v 3 .w)),
    (0xA0181C0F, 0x03000080, 0x00000000, .xor pt (.vo 1 5 .w) (.v 2 .w) (.v 3 .w)),
    (0x00101C10, 0x03000080, 0x00000000, .andn pt (.v 1 .w) (.v 2 .w) (.v 3 .w)),
    (0x00101C11, 0x03000080, 0x02580200, .lop3 pt (.v 1 .w) (.v 2 .w) (.v 3 .w) .latch 0x96),
    (0x00101C12, 0x00000080, 0x0C000000, .popc pt (.v 1 .w) (.v 2 .w) .w4),
    (0x00101C13, 0x00000080, 0x00000000, .clz pt (.v 1 .w) (.v 2 .w) .w32),
    (0x00101C14, 0x00000080, 0x04000000, .brev pt (.v 1 .w) (.v 2 .w) .w16),
    (0x00101C15, 0x05C00080, 0x20000001, .bfx pt (.v 1 .w) (.v 2 .w) (.int 0x105) true),
    (0x00101C16, 0x03000080, 0x00001000, .bfi pt (.v 1 .w) (.v 2 .w) (.v 3 .w) (.v 4 .w)),
    (0x00101C17, 0x03000080, 0x00401800, .sel pt (.v 1 .w) (.v 2 .w) (.v 3 .w) { n := 6, inv := true }),
    (0x00101C18, 0x03000080, 0x00001000, .prmt pt (.v 1 .w) (.v 2 .w) (.v 3 .w) (.v 4 .w))] = true := by decide

theorem test_decode_int_2 : spells [
    (0x00101C19, 0x03000080, 0x10001000, .idot4 pt (.v 1 .w) (.v 2 .w) (.v 3 .w) (.v 4 .w) true false)] = true := by decide

theorem test_decode_data : spells [
    (0x00101C1A, 0x002001B0, 0x00000000, .mov pt (.v 1 .w) (.spec .imax)),
    (0x00101C1B, 0x7BC00000, 0x00226AF3, .movi pt (.v 1 .w) 0x89ABCDEF),
    (0x00101C1C, 0x00000080, 0x00048300, .cvt pt (.v 1 .w) (.v 2 .w) .f16 .f32 .rz false),
    (0x00101C1D, 0x00000270, 0x40000000, .sread pt (.v 1 .w) 9 true),
    (0x00101C1E, 0x00000110, 0x00000000, .vtag pt (.v 1 .w) (.o 4)),
    (0x04D01C1F, 0x00000000, 0x00000000, .vshape pt 77),
    (0x04E01C20, 0x00000000, 0x00000000, .vexp pt 78)] = true := by decide

theorem test_decode_cross : spells [
    (0x00101C21, 0x01C00080, 0xC0000000, .shfl pt (.v 1 .w) (.v 2 .w) (.int 1) .flip),
    (0x00101C22, 0x00000080, 0xC0000000, .vote pt (.bits (.v 1 .w)) { n := 2, inv := false }),
    (0x00101C23, 0x00000080, 0x20000B00, .redx pt (.v 1 .w) (.v 2 .w) .max false true),
    (0x00101C24, 0x00000080, 0x00001B00, .scanx pt (.v 1 .w) (.v 2 .w) .fadd false false),
    (0x00501C25, 0x10C00080, 0x00000C00, .xset pt 5 (.v 2 .w) (.int 16) (.v 3 .w)),
    (0x00501C26, 0x00000000, 0x00000000, .xclr pt 5),
    (0x00101C27, 0x07040080, 0x80000000, .plop pt 1 { n := 2, inv := true } { n := 7, inv := false } .xor),
    (0x00101C28, 0x00040080, 0x40000000, .pmov pt (.toV (.v 1 .w) { n := 2, inv := true }))] = true := by decide

theorem test_decode_float : spells [
    (0x00101C81, 0xE0C00080, 0x0000004F, .fadd pt (.v 1 .w) (.v 2 .w) (.flt 0xFE0) .rn .fp32),
    (0x00101C82, 0x03000080, 0x18000000, .fsub pt (.v 1 .w) (.v 2 .w) (.v 3 .w) .ru .bf16x2),
    (0x00101C83, 0x03000080, 0x2C000000, .fmul pt (.v 1 .w) (.v 2 .w) (.v 3 .w) .rd .f16x2),
    (0x00101C84, 0x03000080, 0x04001000, .ffma pt (.v 1 .w) (.v 2 .w) (.v 3 .w) (.v 4 .w) .rz .fp32),
    (0x00101C85, 0x03000080, 0x10000000, .fmin pt (.v 1 .w) (.v 2 .w) (.v 3 .w) .bf16x2),
    (0x00101C86, 0x03000080, 0x00000000, .fmax pt (.v 1 .w) (.v 2 .w) (.v 3 .w) .fp32),
    (0x00201C87, 0x03000080, 0x00001F00, .fsetp pt 2 (.v 2 .w) (.v 3 .w) .nan),
    (0x00101C88, 0x00000080, 0x0C000000, .frnd pt (.v 1 .w) (.v 2 .w) .rd .fp32),
    (0x00101C89, 0x00000080, 0x00000000, .fclass pt (.v 1 .w) (.v 2 .w)),
    (0x00101C8A, 0xFCC00080, 0x0000003F, .fscale pt (.v 1 .w) (.v 2 .w) (.int (-4)) .rn .fp32),
    (0x00101C8B, 0x03000080, 0x10001000, .fdot2 pt (.v 1 .w) (.v 2 .w) (.v 3 .w) (.v 4 .w) .rn .bf16x2),
    (0x00101C8C, 0x00000080, 0x00000000, .rcp pt (.v 1 .w) (.v 2 .w)),
    (0x00101C8D, 0x00000080, 0x00000000, .rsq pt (.v 1 .w) (.v 2 .w)),
    (0x00101C8E, 0x00000080, 0x00000000, .sqrt pt (.v 1 .w) (.v 2 .w)),
    (0x00101C8F, 0x00000080, 0x00000000, .ex2 pt (.v 1 .w) (.v 2 .w)),
    (0x00101C90, 0x00000080, 0x00000000, .lg2 pt (.v 1 .w) (.v 2 .w)),
    (0x00101C91, 0x00000080, 0x00000000, .sinpi pt (.v 1 .w) (.v 2 .w)),
    (0x00101C92, 0x00000080, 0x00000000, .cospi pt (.v 1 .w) (.v 2 .w)),
    (0x00101C93, 0x00000080, 0x00000000, .tanh pt (.v 1 .w) (.v 2 .w))] = true := by decide

theorem test_decode_mem : spells [
    (0x00801D01, 0x03000180, 0x03FFF000, .ld pt (.v 8 .w) 3 (BitVec.ofInt 18 (-16)) .plain .none true false .b128),
    (0xA5881D02, 0x09000180, 0x50000800, .st pt 3 (.v 9 .w) 8 .rel .dv false (some 0xA5) .b32),
    (0x000C1D03, 0x08000180, 0x00000400, .qst pt 3 (.v 8 .w) 4 .plain .none none .b64),
    (0x00401D04, 0x08000180, 0x7001C200, .atom pt (some (.v 4 .w)) 3 (.v 8 .w) .cas false .ar .dv .b32),
    (0x00081D05, 0x09000100, 0x00000000, .atomo pt 2 (.v 9 .w) 0),
    (0x00001D06, 0x00000000, 0xF0000000, .fence pt .ar .dv true),
    (0x00801D07, 0x06000100, 0x34014200, .waita pt (.v 8 .w) 2 (.v 6 .w) .geu .acq .sy .b32),
    (0x01001D08, 0x00000100, 0x00004000, .pref pt 2 64 .tlb)] = true := by decide

theorem test_decode_ctl : spells [
    (0x00282581, 0xFEC00000, 0x003FFFFF, .bra { pred := 1, inv := true, hint := 0 } 10 (BitVec.ofInt 32 (-5))),
    (0x00001D82, 0x000000C0, 0x04000000, .bru pt (.reg (.v 3 .w))),
    (0x00180183, 0x000000C0, 0x00000000, .brx { pred := 0, inv := false, hint := 0 } 6 (.v 3 .w)),
    (0x00001D84, 0x19000000, 0x00000000, .call pt 100),
    (0x00001D85, 0x000000C0, 0x00000000, .callx pt (.v 3 .w)),
    (0x00001D86, 0x00000000, 0x00000000, .ret pt),
    (0x00001D87, 0x00003FF0, 0x00000000, .regang pt (.int 255)),
    (0x00001D88, 0x00000000, 0x00000000, .exit pt),
    (0x00001D89, 0x00000000, 0x00000000, .yield pt),
    (0x00001D8A, 0x0007FFF0, 0x00000000, .safe pt 8191),
    (0x00001D8B, 0x000001F0, 0x04000000, .xfer pt (.int 7) true),
    (0x00001D8C, 0x00000AB0, 0x00000000, .trap pt 42),
    (0x00001D8D, 0x00000000, 0x00000000, .nop pt),
    (0x00001D8E, 0x00000000, 0x00000000, .bkpt pt),
    (0x00001D8F, 0xFFC007F0, 0x00000003, .bara pt (.int 31) (.int 1023)),
    (0x00001D90, 0x000000C0, 0x00000000, .barw pt (.v 3 .w)),
    (0x00001D91, 0x04000030, 0x00000000, .bars pt (.int 0) (.v 4 .w)),
    (0x00201D92, 0x06000070, 0x04000000, .twait pt (some 2) 1 (.pair 3)),
    (0x00201D93, 0x00000000, 0x00000000, .dqpop pt (.v 2 .w)),
    (0x00001D94, 0x01C00180, 0x54000000, .sigop pt 3 (.imm 1) .set .sy)] = true := by decide

theorem test_decode_helm_1 : spells [
    (0x00501E01, 0xFFC00FC0, 0x0000003F, .sadd pt 5 (.s 63) (.imm (-1))),
    (0x00501E02, 0xFFC00FC0, 0x0000003F, .ssub pt 5 (.s 63) (.imm (-1))),
    (0x00501E03, 0xFFC00FC0, 0x0000003F, .smul pt 5 (.s 63) (.imm (-1))),
    (0x00501E07, 0xFFC00FC0, 0x0000003F, .sshl pt 5 (.s 63) (.imm (-1))),
    (0x00501E08, 0xFFC00FC0, 0x0000003F, .sshr pt 5 (.s 63) (.imm (-1))),
    (0x00501E09, 0xFFC00FC0, 0x0000003F, .ssar pt 5 (.s 63) (.imm (-1))),
    (0x00741E04, 0x02400050, 0x00000000, .sand pt (.q 7) (.q 1) (.q 2)),
    (0x00501E05, 0x09C00040, 0x00000000, .sor pt (.s 5) (.s 1) (.imm 9)),
    (0x00501E06, 0x02000040, 0x00000000, .sxor pt (.s 5) (.s 1) (.s 2)),
    (0x00501E0A, 0x02000040, 0x04000000, .smin pt 5 (.s 1) (.s 2) true),
    (0x00501E0B, 0x02000040, 0x00000000, .smax pt 5 (.s 1) (.s 2) false),
    (0x00741E0C, 0x03C00040, 0x04001700, .scmp pt 7 (.s 1) (.imm 3) .ge true),
    (0x00501E0D, 0x02000040, 0x00000D00, .ssel pt 5 (.s 1) (.s 2) 3),
    (0x00141E0E, 0x00000090, 0x00000000, .smov pt (.q 1) (.q 2)),
    (0x00501E0F, 0xBBC00000, 0x0437AB6F, .smovi pt 5 0xDEADBEEF true),
    (0x00501E10, 0x04400180, 0x2BFFF800, .sld pt 5 6 (BitVec.ofInt 18 (-8)) .acq .bk true .b16),
    (0x000C1E11, 0x07000180, 0x54000800, .sst pt 6 (.s 7) 8 .rel .sy .b64),
    (0x00001E12, 0x08000180, 0xD0048300, .satom pt none 6 8 .max true .rel .dv .b64),
    (0x00002A13, 0xFE400000, 0x003FFFFF, .sbr { pred := 2, inv := true, hint := 0 } (BitVec.ofInt 32 (-7))),
    (0x00001E14, 0x00000240, 0x00000000, .sjmp pt 9),
    (0x00001E15, 0x03000000, 0x00000000, .scall pt 12),
    (0x00001E16, 0x00000000, 0x00000000, .sret pt),
    (0x00001E17, 0x01C00040, 0x00000000, .dqpush pt (.s 1) (.imm 1)),
    (0x00001E18, 0x030000B0, 0x00000000, .fork pt 2 (.s 3))] = true := by decide

theorem test_decode_helm_2 : spells [
    (0x00001E19, 0x000000F0, 0x00000000, .join pt 3),
    (0x00001E1A, 0x00000000, 0x00000000, .hend pt)] = true := by decide

theorem test_decode_copy : spells [
    (0x00001E81, 0x00000F90, 0x00000000, .cpy pt 62),
    (0x00001E82, 0x00000F90, 0x00000000, .cpys pt 62),
    (0x00001E83, 0x00000F90, 0x00000000, .cgath pt 62),
    (0x00001E84, 0x00000F90, 0x00000000, .cscat pt 62),
    (0x00001E86, 0x00000F90, 0x00000000, .cred pt 62),
    (0x00001E87, 0x00000F90, 0x00000000, .cfill pt 62),
    (0x01401E85, 0x08000100, 0x00000C00, .tgath pt 10 2 4 (.v 3 .w)),
    (0x03F01E88, 0x00000110, 0x00000000, .cslot pt 63 4),
    (0x00001E89, 0x00000110, 0x04000000, .crecode pt 4 true),
    (0x00001E8A, 0x01C00190, 0x44000000, .csig pt (.sig .add .dv 6 (.c 1))),
    (0x00001E8B, 0x000007C0, 0x80000000, .cwait pt (.bar 31)),
    (0x00001E8C, 0xFFC002B0, 0x000000FF, .cloop pt (.c 10) 65535),
    (0x00001E8D, 0x00000000, 0x00000000, .cend pt)] = true := by decide

theorem test_decode_mat : spells [
    (0x02F01F01, 0x40C00000, 0x00000700, .mclaim pt 47 0 64 1),
    (0x00101F02, 0x03C00080, 0x00001300, .mrel pt 1 2 3 4),
    (0x00201F03, 0x040000C0, 0x10000000, .mma pt 2 3 4 .bf16),
    (0x00101F04, 0x03000080, 0x0000F900, .mmag pt 1 2 3 62),
    (0x02F01F05, 0x00000000, 0x00000000, .mzero pt 47),
    (0x00001F06, 0x06400140, 0x08000000, .mstore pt 5 6 .q),
    (0x00101F07, 0x00000080, 0x00000000, .macc pt 1 2),
    (0x00001F08, 0xFFC007C0, 0x00000003, .mbara pt 31 1023),
    (0x00001F09, 0x000007C0, 0x00000000, .mbarw pt 31),
    (0x00001F0A, 0x04C000D0, 0x08000000, .mloop pt (.p 3) 4 .colb),
    (0x00001F0B, 0x00000210, 0x00000000, .msave pt 8),
    (0x00001F0C, 0x00000210, 0x00000000, .mresume pt 8),
    (0x00001F0D, 0x00007870, 0x00000000, .mcur pt 0x1E1),
    (0x00001F0E, 0x00000000, 0x00000000, .mend pt)] = true := by decide

theorem test_decode_sys : spells [
    (0x00501F81, 0x000001F0, 0x00000000, .csrr pt (.v 5 .w) 7),
    (0x00001F82, 0x03000030, 0x00000000, .csrw pt 0 (.v 3 .w)),
    (0x00001F83, 0x00000000, 0x00000000, .trapret pt),
    (0x00001F84, 0x0007FFF0, 0x00000000, .cont pt (.int 8191)),
    (0x00001F85, 0x00000000, 0x00000000, .fresume pt)] = true := by decide

/-! ## Well-formedness refuses (R80, and the rule named at each line) -/

/-- Guard `@!p7`, which never holds. -/
def never : Ctl := ⟨7, true, 0⟩

/-- The guard `p7` and no hint. -/
def always : Ctl := ⟨7, false, 0⟩

/-- Every instruction of the list is ill formed. -/
def refuses (l : List Instr) : Bool := l.all fun i => !i.wf

theorem test_wf_integer_views : refuses [
    .iadd always (.v 1 .hh0) (.v 2 .w) (.v 3 .w) .w32 false false,       -- R53: a destination takes no swizzle
    .isub always (.v 1 .w) (.v 2 .hh0) (.v 3 .w) .w32 false false,       -- R52: hh0 at width 32
    .imul always (.v 1 .w) (.v 2 .w) (.v 3 .bb0) .w16 false false,       -- R52: bb0 at width 16
    .imulhi always (.v 1 .w) (.v 2 .w) (.v 3 .w) .w4 false,              -- R85: no .4
    .imad always (.v 1 .w) (.v 2 .w) (.v 3 .w) (.o 1 .hswap) .w32 false false,
    .imin always (.vo 1 2 .brev8) (.v 2 .w) (.v 3 .w) .w32 false,
    .imax always (.v 1 .w) (.latch .bb3) (.v 3 .w) .w32 false,
    .iabs always (.v 1 .w) (.vx 2 .hh1) .w8 false,
    .isetp always 0 (.v 1 .bb1) (.v 2 .w) .eq false,
    .shl always (.v 1 .w) (.v 2 .bb0) (.v 3 .w) .w32, .shr always (.v 1 .w) (.v 2 .w) (.v 3 .bb0) .w32,
    .sar always (.vx 1 .hh0) (.v 2 .w) (.v 3 .w) .w32,
    .and always (.v 1 .w) (.v 2 .hh0) (.v 3 .w), .or always (.v 1 .w) (.v 2 .w) (.v 3 .hh0),
    .xor always (.v 1 .bb0) (.v 2 .w) (.v 3 .w), .andn always (.v 1 .w) (.v 2 .w) (.v 3 .hswap),
    .lop3 always (.v 1 .w) (.v 2 .hh1) (.v 3 .w) (.v 4) 0, .popc always (.v 1 .w) (.v 2 .hh0) .w32,
    .clz always (.v 1 .w) (.v 2 .bb0) .w16, .brev always (.v 1 .hh0) (.v 2 .w) .w32,
    .bfx always (.v 1 .w) (.v 2 .hh0) (.v 3 .w) false, .bfi always (.v 1 .w) (.v 2 .w) (.v 3 .w) (.v 4 .bb2),
    .sel always (.v 1 .w) (.v 2 .hh0) (.v 3 .w) ⟨0, false⟩, .prmt always (.v 1 .w) (.v 2 .w) (.v 3 .hh0) (.v 4 .w),
    .idot4 always (.v 1 .w) (.v 2 .bb0) (.v 3 .w) (.v 4 .w) false false, .mov always (.v 1 .w) (.v 2 .hh0),
    .movi always (.v 1 .hswap) 0, .vtag always (.v 1 .brev8) (.v 2), .shfl always (.v 1 .w) (.v 2 .hh0) (.v 3 .w) .from,
    .vote always (.bits (.v 1 .bb0)) ⟨0, false⟩, .pmov always (.toP 1 (.v 2 .hh0)), .pmov always (.toV (.v 1 .hh0) ⟨0, false⟩)
  ] = true := by decide

theorem test_wf_integer_modifiers : refuses [
    .cvt always (.v 1 .w) (.v 2 .w) .s8 .s32 .rz false,      -- R101: integer to integer rounds nothing
    .cvt always (.v 1 .w) (.v 2 .w) .s32 .s8 .rn true,       -- R101: .sat where no value is out of range
    .cvt always (.v 1 .w) (.v 2 .w) .f32 .bf16 .rz false,    -- R101: exact
    .cvt always (.v 1 .w) (.v 2 .w) .bf16 .f32 .rn true,     -- R101: .sat between floats
    .cvt always (.v 1 .w) (.v 2 .w) .s32 .f32 .rn true,      -- R101: a float to an integer always saturates
    .sread always (.v 1 .w) 0 true,                          -- R102: .hi of a 32-bit register
    .redx always (.v 1 .w) (.v 2 .w) .min true false,        -- R107: .sat on .min
    .scanx always (.v 1 .w) (.v 2 .w) .xor false true,       -- R107: .u on .xor
    .xset always 0 (.spec .one) (.int 0) (.int 0),           -- R109: a register or an integer constant
    .xset always 0 (.int 0) (.flt 0) (.int 0), .xset always 0 (.int 0) (.int 0) (.v 1 .hh0)
  ] = true := by decide

theorem test_wf_float : refuses [
    .fadd always (.v 1 .h0) (.v 2 .w) (.v 3 .w) .rn .fp32,   -- R113: a destination has view .w
    .fsub always (.v 1 .w) (.int 1) (.v 3 .w) .rn .fp32,     -- R113: no integer constant
    .fmul always (.v 1 .w) (.v 2 .b0) (.v 3 .w) .rn .fp32,
    .ffma always (.v 1 .w) (.v 2 .w) (.v 3 .w) (.v 4 .h0) .rn .f16x2,      -- R113: packed operands take no half view
    .fmin always (.v 1 .w) (.v 2 .hh0) (.v 3 .w) .fp32, .fmax always (.v 1 .w) (.v 2 .w) (.int 0) .bf16x2,
    .fsetp always 0 (.int 0) (.v 2 .w) .eq, .frnd always (.v 1 .w) (.v 2 .brev8) .rn .fp32,
    .fclass always (.v 1 .w) (.int 0), .fscale always (.v 1 .w) (.v 2 .w) (.flt 0) .rn .fp32,
    .fscale always (.v 1 .w) (.v 2 .w) (.spec .one) .rn .fp32,           -- R123: B is a register or an integer
    .fdot2 always (.v 1 .w) (.v 2 .w) (.v 3 .w) (.v 4 .w) .rn .fp32,     -- R124: packed A and B
    .fdot2 always (.v 1 .w) (.v 2 .w) (.v 3 .w) (.v 4 .hh0) .rn .bf16x2,   -- R124: C is FP32
    .rcp always (.v 1 .h0) (.v 2 .w), .rsq always (.v 1 .w) (.int 0), .sqrt always (.v 1 .w) (.v 2 .b0),
    .ex2 always (.v 1 .w) (.int 0), .lg2 always (.v 1 .w) (.int 0), .sinpi always (.v 1 .w) (.v 2 .hh0),
    .cospi always (.vx 1 .b0) (.v 2 .w), .tanh always (.v 1 .w) (.latch .b3)
  ] = true := by decide

theorem test_wf_memory : refuses [
    .ld always (.v 3 .w) 4 0 .plain .none false false .b64,              -- R129: an odd pair
    .ld always (.o 3) 4 0 .plain .none false false .b128,                -- R129: more than one register at level 0
    .ld always (.v 2 .w) 4 0 .rel .wp false false .b32,                  -- R128: .rel on a load
    .ld always (.v 2 .w) 4 0 .acq .none false false .b32,                -- R77: an order without a scope
    .ld always (.v 2 .w) 4 0 .plain .none false true .b32,               -- R128: .sx of 32 bits
    .st always 4 (.flt 0) 0 .plain .none false none .b32,                -- R129
    .st always 4 (.int 0) 0 .plain .none false none .b64,
    .st always 4 (.v 2 .w) 0 .acq .dv false none .b32,                   -- R128: .acq on a store
    .qst always 4 (.v 2 .w) 0 .plain .none none .b8,                     -- R128: b32, b64 and b128
    .atom always (some (.v 3 .w)) 4 (.v 2 .w) .add false .plain .dv .b64,
    .atom always none 4 (.v 2 .w) .cas false .plain .dv .b64,            -- R141: four registers
    .atom always none 4 (.v 2 .w) .add true .plain .dv .b32,             -- R141: .u on .add
    .atom always none 4 (.v 2 .w) .add false .plain .none .b32,          -- R128: a scope
    .atom always none 4 (.v 2 .w) .add false .plain .dv .b16,
    .atomo always 4 (.flt 0) 0,
    .fence always .plain .dv false, .fence always .acq .none false, .fence always .acq .bk true,
    .waita always (.v 2 .w) 4 (.v 3 .w) .eq .rel .dv .b32, .waita always (.v 2 .w) 4 (.v 3 .w) .eq .acq .none .b32,
    .waita always (.v 2 .w) 4 (.v 3 .w) .eq .acq .dv .b64, .waita always (.v 2 .w) 4 (.v 3 .w) .eq .acq .dv .b8
  ] = true := by decide

/-- DQPOP takes a subword destination (R53, R70, R234). -/
theorem test_wf_dqpop : (Instr.dqpop always (.v 1 .h0)).wf = true := by decide

theorem test_wf_control : refuses [
    .bra ⟨0, false, 0⟩ 0 16,                                 -- R150: no reconvergence point under a guard
    .bru always (.reg (.int 0)), .bru always (.reg (.v 1 .h0)),
    .brx always 0 (.v 1 .w), .brx always 1 (.int 0),
    .call never 1, .callx ⟨0, false, 0⟩ (.v 1 .w), .callx always (.int 1), .ret ⟨1, false, 0⟩,
    .regang always (.int 256), .regang ⟨3, false, 0⟩ (.int 1), .safe never 0, .xfer always (.int (-1)) false,
    .bara always (.int 32) (.int 1), .bara always (.int 0) (.int 0), .bars always (.int 0) (.int 1024),
    .barw always (.int (-1)), .sigop always 4 (.imm 1) .add .wp,
    .sigop always 4 (.imm 1) .add .none
  ] = true := by decide

theorem test_wf_helm : refuses [
    .sadd always 1 (.q 1) (.s 2), .ssub always 1 (.s 1) (.q 2), .smul always 1 (.q 0) (.imm 1),      -- R223
    .sand always (.s 1) (.q 1) (.s 2), .sor always (.q 1) (.q 1) (.imm 0), .sxor always (.q 1) (.s 1) (.s 2),   -- R225
    .sshl always 1 (.q 1) (.s 2), .sshr always 1 (.s 1) (.q 2), .ssar always 1 (.q 1) (.s 2),
    .smin always 1 (.q 1) (.s 2) false, .smax always 1 (.s 1) (.q 2) true, .scmp always 1 (.q 1) (.s 2) .eq false,
    .ssel always 1 (.q 1) (.s 2) 0, .sld always 1 2 0 .plain .none false .b128, .sld always 1 2 0 .rel .dv false .b64,
    .sld always 1 2 0 .plain .none true .b64, .sld always 1 2 0 .acq .none false .b64,
    .sst always 1 (.q 1) 0 .plain .none .b64, .sst always 1 (.s 1) 0 .acq .dv .b64, .sst always 1 (.s 1) 0 .plain .none .b128,
    .satom always none 1 3 .cas false .plain .dv .b64, .satom always none 1 2 .add true .plain .dv .b64,
    .satom always none 1 2 .add false .plain .none .b64, .satom always none 1 2 .add false .plain .dv .b16,
    .dqpush always (.q 0) (.imm 15), .dqpush always (.s 0) (.imm 16), .dqpush always (.s 0) (.q 1),
    .fork always 0 (.imm (-1)), .fork always 0 (.q 1)
  ] = true := by decide

theorem test_wf_engine : refuses [
    .cpy never 0, .cpys ⟨0, false, 0⟩ 0, .cgath ⟨6, true, 0⟩ 0, .cscat never 0, .cred never 0, .cfill never 0,
    .tgath always 1 2 3 (.int 6), .tgath always 1 2 3 (.int 0), .tgath always 1 2 3 (.int 4100), .tgath always 1 2 3 (.spec .one),
    .cslot never 0 0, .crecode never 0 true, .csig always (.sig .add .wp 1 (.c 1)), .csig always (.bar 0 0),
    .csig always (.bar 0 1024), .csig never (.bar 0 1), .cwait always (.sig .eq .none 1 (.c 1)), .cwait never (.bar 0),
    .cloop always (.c 1) 0, .cloop never (.c 1) 1, .cend never,
    .mclaim always 0 0 0 0, .mclaim always 0 60 5 0, .mclaim always 40 0 0 9, .mclaim never 0 0 1 1,
    .mrel always 0 0 0 0, .mrel always 0 63 2 0, .mrel always 47 0 0 2, .mrel never 0 0 1 1,
    .mma never 0 0 0 .fp8, .mma always 0 0 60 .ti8, .mma always 0 60 0 .i8t, .mmag always 0 0 63 0, .mmag always 0 0 0 63,
    .mmag never 0 0 0 0, .mzero never 0, .mstore never 0 0 .f32, .macc always 3 3, .macc never 3 4, .mbara always 0 0,
    .mbara always 0 1024, .mbarw never 0, .mloop always (.c 1) 0 .none, .mloop never (.c 1) 1 .none, .msave never 0,
    .mresume never 0, .mcur always 0, .mcur always 32, .mcur always 513, .mcur never 1, .mend never
  ] = true := by decide

theorem test_wf_system : refuses [
    .csrw always 2 (.v 1 .w), .csrw always 7 (.v 1 .w), .csrw always 0 (.v 1 .h0), .trapret never, .fresume ⟨0, false, 0⟩,
    .cont always (.int (-1)), .cont always (.spec .one)
  ] = true := by decide

/-! ## States that meet the hypotheses of the statements -/

/-- Every lane. -/
def full : LaneMask := 0xFFFFFFFF

/-- The loaded kernel with `iadd.u v1, v2, v3` still to be issued by its gang. -/
def loadedG : State := placeWord State.reset (word3 0x00101C01 0x03000080 0)

/-- The loaded kernel with `sadd s5, s63, -1` still to be issued by its helm. -/
def loadedH : State := placeWord State.reset (word3 0x00501E01 0xFFC00FC0 0x0000003F)

/-- The loaded kernel with `cpy s62` still to be issued by its copy stream k1. -/
def loadedC : State := placeWord State.reset (word3 0x00001E81 0x00000F90 0)

/-- The loaded kernel with its gang the issuer, its helm, its copy stream, its matrix stream. -/
def sG : State := { loadedG with agenda := [], cur := .gang 0 0 0 }
def sH : State := { loadedH with agenda := [], cur := .helm 0 }
def sC : State := { loadedC with agenda := [], cur := .stream 0 1 }
def sM : State := { loadedC with agenda := [], cur := .stream 0 0 }

/-- The gang, the helm and the stream that issue in a state. -/
def gk (s : State) (h : (gangOf s s.cur).isSome = true) : GCtx := (gangOf s s.cur).get h
def hk (s : State) (h : (helmOf s s.cur).isSome = true) : HCtx := (helmOf s s.cur).get h
def sk (s : State) (h : (streamOf s s.cur).isSome = true) : SCtx := (streamOf s s.cur).get h

theorem gk_spec (s : State) (h : (gangOf s s.cur).isSome = true) : gangOf s s.cur = some (gk s h) :=
  (Option.some_get h).symm
theorem hk_spec (s : State) (h : (helmOf s s.cur).isSome = true) : helmOf s s.cur = some (hk s h) :=
  (Option.some_get h).symm
theorem sk_spec (s : State) (h : (streamOf s s.cur).isSome = true) : streamOf s s.cur = some (sk s h) :=
  (Option.some_get h).symm

/-- What a check answered, where it answered well. -/
def okOf {ε α : Type} (x : Except ε α) (h : x.toOption.isSome = true) : α := x.toOption.get h

theorem okOf_spec {ε α : Type} (x : Except ε α) (h : x.toOption.isSome = true) : x = .ok (okOf x h) := by
  cases x with
  | error e => exact absurd h (by simp [Except.toOption])
  | ok a => rfl

def kG : GCtx := gk sG (by decide +kernel)
def kH : HCtx := hk sH (by decide +kernel)
def kC : SCtx := sk sC (by decide +kernel)
def kM : SCtx := sk sM (by decide +kernel)

theorem test_gang_issues : Issues sG kG pt full := ⟨gk_spec _ _, by decide +kernel, by decide +kernel⟩
theorem test_helm_issues : HelmIssues sH kH pt := ⟨hk_spec _ _, by decide +kernel⟩
theorem test_copy_stream_issues : StreamIssues sC kC true := ⟨sk_spec _ _, by decide +kernel⟩
theorem test_matrix_stream_issues : StreamIssues sM kM false := ⟨sk_spec _ _, by decide +kernel⟩

/-- The block and the warp of a gang, the block of a helm. -/
theorem gang_block {s : State} {p : Party} {k : GCtx} (h : gangOf s p = some k) :
    s.blocks[k.b]? = some k.blk ∧ k.blk.warps[k.w]? = some k.wp := by
  unfold gangOf at h
  repeat' split at h
  all_goals cases h
  exact ⟨‹_›, ‹_›⟩
theorem helm_block {s : State} {p : Party} {k : HCtx} (h : helmOf s p = some k) : s.blocks[k.b]? = some k.blk := by
  unfold helmOf at h
  repeat' split at h
  all_goals cases h
  assumption

/-- Memory with the n bytes of a number stored where no byte is listed. -/
def put (m : Mem) (a n v : Nat) : Mem :=
  ((leBytes n v).zipIdx.filter fun x => x.1 != 0).foldl (fun t x => memSet t (a + x.2) x.1) m

/-! ### StepRunsTheDecodedInstruction -/

/-- The state in which the loaded gang's word is fetched. -/
def sG1 : State := modWarp sG 0 0 fun wp => settleGang wp kG.g
def kG1 : GCtx := gk sG1 (by decide +kernel)
def eG : DirEnt := (dirEnt sG1 0 0).get (by decide +kernel)
def bsG : List Byte := okOf (fetchBytes sG1 0 0 (eG.codebase + 12 * kG1.g.pc.toNat)) (by decide +kernel)

theorem test_meets_step_of_a_gang :
    loadedG.agenda = [.issue (.gang 0 0 0)] ∧ gangOf sG (.gang 0 0 0) = some kG ∧ gangReady kG = true ∧
    detAllows sG kG = true ∧ (∀ r ∈ loadedG.reports, reportHere sG r = none) ∧ gangOf sG1 (.gang 0 0 0) = some kG1 ∧
    gangReady kG1 = true ∧ kG1.g.wd.toNat < wdLimit sG1 kG1.blk ∧ dirEnt sG1 kG1.blk.ctx kG1.wp.dirIdx = some eG ∧
    fetchBytes sG1 kG1.blk.core kG1.blk.ctx (eG.codebase + 12 * kG1.g.pc.toNat) = .ok bsG ∧
    opAssigned (splitWord (wordOfBytes bsG)) = true ∧ opStream (splitWord (wordOfBytes bsG)) = .warp ∧
    decode (wordOfBytes bsG) = some (.iadd pt (.v 1 .w) (.v 2 .w) (.v 3 .w) .w32 false false) ∧
    issueLanes kG1 (.iadd pt (.v 1 .w) (.v 2 .w) (.v 3 .w) .w32 false false) = full ∧
    drainsFirst sG1 kG1 full (.iadd pt (.v 1 .w) (.v 2 .w) (.v 3 .w) .w32 false false) = false ∧
    issueWaits sG1 kG1 full (.iadd pt (.v 1 .w) (.v 2 .w) (.v 3 .w) .w32 false false) = false ∧
    kG1.g.contSave.isSome = false :=
  ⟨by decide +kernel, gk_spec _ _, by decide +kernel, by decide +kernel, by decide +kernel, gk_spec _ _, by decide +kernel, by decide +kernel, by decide +kernel, okOf_spec _ _,
    by and_intros <;> decide +kernel⟩

def eH : DirEnt := (dirEnt sH 0 0).get (by decide +kernel)
def bsH : List Byte := okOf (fetchBytes sH 0 0 (eH.codebase + 12 * kH.blk.helm.pc.toNat)) (by decide +kernel)

theorem test_meets_step_of_a_helm :
    loadedH.agenda = [.issue (.helm 0)] ∧ sH.blocks[kH.b]? = some kH.blk ∧ kH.b = 0 ∧ sH.blocks = loadedH.blocks ∧
    kH.blk.helm.ended = false ∧
    kH.blk.helm.wait = .none ∧ kH.blk.status = .resident ∧ kH.blk.helm.wd.toNat < wdLimit sH kH.blk ∧
    dirEnt sH kH.blk.ctx kH.blk.helmDir = some eH ∧
    fetchBytes sH kH.blk.core kH.blk.ctx (eH.codebase + 12 * kH.blk.helm.pc.toNat) = .ok bsH ∧
    opAssigned (splitWord (wordOfBytes bsH)) = true ∧ opStream (splitWord (wordOfBytes bsH)) = .helm ∧
    decode (wordOfBytes bsH) = some (.sadd pt 5 (.s 63) (.imm (-1))) ∧
    helmWaits kH (.sadd pt 5 (.s 63) (.imm (-1))) = none ∧ helmDrains sH kH (.sadd pt 5 (.s 63) (.imm (-1))) = false ∧
    helmOrder sH kH (.sadd pt 5 (.s 63) (.imm (-1))) = false ∧
    (needsToken (.sadd pt 5 (.s 63) (.imm (-1))) && isDet sH kH.blk && kH.blk.token != 0) = false :=
  ⟨by decide +kernel, helm_block (hk_spec _ _), by decide +kernel, rfl, by decide +kernel, by decide +kernel, by decide +kernel,
    by decide +kernel, by decide +kernel, okOf_spec _ _, by and_intros <;> decide +kernel⟩

def bsC : List Byte := okOf (fetchBytes sC 0 0 (((dirEnt sC 0 0).get (by decide +kernel)).codebase + 12 * kC.st.pc.toNat)) (by decide +kernel)

theorem test_meets_step_of_a_stream :
    loadedC.agenda = [.issue (.stream 0 1)] ∧ kC.blk.ctxs[(1 : Fin 4)].stream = some kC.st ∧ kC.st.running = true ∧
    kC.st.wait = .none ∧ kC.blk.status = .resident ∧
    opAssigned (splitWord (wordOfBytes bsC)) = true ∧ opStream (splitWord (wordOfBytes bsC)) = .copy ∧
    decode (wordOfBytes bsC) = some (.cpy pt 62) := by
  and_intros <;> decide +kernel

/-- What the loaded instructions' steps leave (R57, R83, R225): v1 and s5 hold the results, and each party has gone on. -/
theorem test_step_goes_on :
    (match step loadedG with
      | .next t => (gangOf t (.gang 0 0 0)).map fun k => (k.g.pc, k.wp.regs[1].val)
      | _ => none) = some (1, .u 0) ∧
    (match step loadedH with
      | .next t => (helmOf t (.helm 0)).map fun k => (k.blk.helm.pc, k.blk.helm.s[5])
      | _ => none) = some (1, 0xFFFFFFFFFFFFFFFF) := by
  and_intros <;> decide +kernel

/-! ### OtherStreamsTakeWrongStream, StoresStayCanonical, ReadAfterWriteAndPoison -/

theorem test_meets_wrong_stream :
    gangOf sH sH.cur = none ∧ partyExists sH sH.cur = true ∧ helmOf sG sG.cur = none ∧ partyExists sG sG.cur = true ∧
    streamOf sG sG.cur = none ∧ kM.k = 0 ∧ kC.k ≠ 0 := by
  and_intros <;> decide +kernel

theorem test_meets_stores_stay_canonical : loadedG.homesWf = true ∧ ∃ t, step loadedG = .next t :=
  ⟨by decide +kernel, by
    have h : (match step loadedG with | .next _ => true | _ => false) = true := by decide +kernel
    generalize step loadedG = r at h
    cases r with
    | next t => exact ⟨t, rfl⟩
    | fault x => exact absurd h (by simp)
    | refused x => exact absurd h (by simp)⟩

/-- A granule of device memory is poisoned. -/
def sBad : State := { sG with badGranules := [0x1000] }

theorem test_meets_read_after_write :
    sBad.homesWf = true ∧ (∀ g ∈ unitsOf 32 0x20020 4, sBad.badGranules.contains g = false) ∧
    sBad.badGranules.contains 0x1000 = true ∧ (∀ x ∈ sBad.scrubs, x.granule ≠ 0x1000) := by decide +kernel

/-! ### Operands, guards, results -/

/-- A register that holds v in every lane. -/
def reg (v : VVal) (poison : LaneMask := 0) : VReg := { val := v, poison := poison }

/-- The warp with a value of each tag, an index register, poison in v6, two predicates and two index descriptors. -/
def sV : State := modWarp sG 0 0 fun wp => { wp with
  regs := (((((wp.regs.set 2 (reg (.u 3))).set 3 (reg (.a 10 2))).set 4 (reg (mkG fun l => BitVec.ofNat 32 (l * l)))).set 5
    (reg (mkG fun l => BitVec.ofNat 32 (l % 4)))).set 6 (reg (.u 1) 4))
  preds := (wp.preds.set 0 { val := .g 5, poison := 0 }).set 1 { val := .u true, poison := 8 }
  xd := (wp.xd.set 0 { limit := 4, vidx := 5, base := 252, poison := false }).set 1
    { limit := 3, vidx := 5, base := 8, poison := false } }
def kV : GCtx := gk sV (by decide +kernel)

theorem test_values_issue : Issues sV kV pt full := ⟨gk_spec _ _, by decide +kernel, by decide +kernel⟩

/-- A whole main-file register takes any result. -/
theorem canWrite_v (k : GCtx) (n : Fin 256) (m : LaneMask) : CanWrite k (.v n .w) m :=
  fun _ _ => ⟨fun _ _ h => (nomatch h), .inl rfl⟩

/-- A subword of v1, whose old word is sound, and a register that x0 reaches in every lane. -/
theorem test_meets_can_write :
    CanWrite kV (.v 1 .w) full ∧ CanWrite kV (.v 1 .h1) full ∧ CanWrite kV (.vx 0 .w) full ∧ CanWrite kV .latch full :=
  ⟨canWrite_v _ _ _,
    fun l hl => ⟨fun _ _ h => (nomatch h), .inr fun n h => by
      have e : ∀ l ∈ lanesOf full, laneBit kV.wp.regs[1].poison l = false := by decide +kernel
      cases h; exact e l hl⟩,
    fun l hl => ⟨fun x v h => by
      have e : ∀ l ∈ lanesOf full, (idxLane kV.wp 0 l).toOption.isSome = true := by decide +kernel
      cases h; exact ⟨_, okOf_spec _ (e l hl)⟩, .inl rfl⟩,
    fun _ _ => ⟨fun _ _ h => (nomatch h), .inl rfl⟩⟩

/-- Sound sources of each kind; a poisoned one; an index at its limit in lane 3, below it in lanes 0 to 2 (R51). -/
theorem test_meets_sources :
    (∀ a ∈ [Src.v 2 .w, .v 3 .h1, .v 4 .b3, .o 1 .w, .latch .w, .vx 0 .w, .int (-1), .flt 5, .spec .one],
      ∀ l ∈ lanesOf full, srcPoison kV a l = false ∧ (srcLane kV (.int .w32) true a l).isSome = true) ∧
    kV.wp.regs[6].poison &&& full ≠ 0 ∧ lowLane (kV.wp.regs[6].poison &&& full) = 2 ∧
    idxLane kV.wp 1 3 = .error (raise .regIndex (some 3)) ∧ (∀ j < 3, (idxLane kV.wp 1 j).toOption.isSome = true) ∧
    idxLane kV.wp 0 3 = .ok 255 ∧ kV.wp.xd[0].poison = false := by decide +kernel

/-- No lane, no lane under `(!pt)`, one guard of each kind (R63, R64). -/
theorem test_meets_guards :
    gangOf sV sV.cur = some kV ∧ partLanes kV ⟨2, false, 0⟩ = .ok 0 ∧ partLanes kV ⟨7, true, 0⟩ = .ok 0 ∧
    partLanes kV ⟨0, false, 0⟩ = .ok 5 ∧ partLanes kV ⟨0, true, 0⟩ = .ok 0xFFFFFFFA ∧
    kV.wp.preds[1].poison &&& activeLanes kV.wp kV.g ≠ 0 ∧ kV.wp.preds[0].poison &&& activeLanes kV.wp kV.g = 0 :=
  ⟨gk_spec _ _, by and_intros <;> decide +kernel⟩

/-- Sources read at every width, signedness, packing and as scales, of each tag; predicates and uniform values. -/
theorem test_meets_reads :
    (∀ w ∈ [Width.w32, .w16, .w8, .w4], ∀ sg ∈ [true, false], ∀ n ∈ [(2 : Fin 256), 3, 4],
      (readSrc kV full (.int w) sg (.v n .w)).toOption.isSome = true) ∧
    (∀ pk ∈ [Pack.fp32, .bf16x2, .f16x2], ∀ n ∈ [(2 : Fin 256), 3, 4],
      (readSrc kV full (.fp pk) false (.v n .w)).toOption.isSome = true ∧
      (readSrc kV full (.scale pk) false (.int 5)).toOption.isSome = true) ∧
    (∀ n ∈ [(0 : Fin 8), 2, 7], ∀ inv ∈ [true, false], (readPred kV full ⟨n, inv⟩).toOption.isSome = true) ∧
    readSrc kV full (.int .w32) false (.v 2 .w) = .ok (.u 3) ∧ readSrc kV full (.int .w32) false (.v 3 .w) = .ok (.a 10 2) ∧
    (readSrc kV full (.int .w32) false (RegSrc.src (.v 4))).toOption.isSome = true := by
  and_intros <;> decide +kernel

theorem test_meets_result_tags :
    isU (.a 1 2) = false ∧ isFull kV.wp full = true ∧ (writeLevels kV (.v 1 .w) (.u 9) full).toOption.isSome = true := by
  decide +kernel

/-- The last element of each width, and the last bit of a word. -/
theorem test_meets_elements :
    0 < 32 / widthBits .w32 ∧ 1 < 32 / widthBits .w16 ∧ 3 < 32 / widthBits .w8 ∧ 7 < 32 / widthBits .w4 ∧ 31 < 32 := by
  decide +kernel

def sSpan : State := modBlock sV 0 fun blk => { blk with spanLen := 4096 }

theorem test_meets_special_registers :
    (sV.nodes[kV.blk.node]?).isSome = true ∧ (gk sSpan (by decide +kernel)).blk.spanLen ≠ 0 := by decide +kernel

/-! ### Cross-lane, predicates, warp registers, floating point -/

/-- XSET's limits at their ends and one past each; CSRW's and CONT's value; a pool that holds VEXP's line and one that does
not; a uniform and a varying source. -/
theorem test_meets_warp_registers :
    readUni kV full (.int 255) = .ok 255 ∧ readUni kV full (.int 256) = .ok 256 ∧ readUni kV full (.int 257) = .ok 257 ∧
    (255 : Word).toNat ≤ 255 ∧ (256 : Word).toNat ≤ 256 ∧ 255 < (256 : Word).toNat ∧ 256 < (257 : Word).toNat ∧
    linesHeld { kV.wp with regs := kV.wp.regs.set 2 (reg (mkG fun _ => 3)) } ≤ kV.wp.gmax ∧
    { kV.wp with gmax := 0 }.gmax < linesHeld { kV.wp with regs := kV.wp.regs.set 2 (reg (mkG fun _ => 3)), gmax := 0 } ∧
    readUni kV full (.v 2 .w) = .ok 3 ∧ (2 : Fin 8) ≠ 0 ∧ (2 : Fin 8) ≠ 1 ∧ (2 : Fin 8) ≠ 6 := by decide +kernel

theorem test_meets_uniform_sources :
    (∀ l ∈ lanesOf full, laneVal (.u 3) l = laneVal (.u 3) (lowLane full)) ∧
    (∃ l ∈ lanesOf full, laneVal (.a 10 2) l ≠ laneVal (.a 10 2) (lowLane full) ∧
      ∀ j ∈ lanesOf full, j < l → laneVal (.a 10 2) j = laneVal (.a 10 2) (lowLane full)) :=
  ⟨by decide +kernel, 1, by and_intros <;> decide +kernel⟩

theorem test_meets_nans :
    (∃ t ∈ [(unpackF .f32 0x7FC00001, unpackF .f32 0)], t.1.isNan = true ∨ t.2.isNan = true) ∧
    (∃ t ∈ [(unpackF .f32 0x7F800001, unpackF .f32 0)], t.1.isSnan = true ∨ t.2.isSnan = true) ∧
    (unpackF .bf16 0x7FC1).isNan = true ∧ (unpackF .bf16 0x3F80).isNan = false ∧
    (unpackF .f32 (special .rsq 0xBF800000).1).isNan = true := by decide +kernel

/-- Numbers, an infinity and NaNs of a format; a subnormal number; a positive scale and one that is not; the table's entries. -/
theorem test_meets_float_values :
    FFin (unpackF .f32 0x3F800000) ∧ FFin (unpackF .f32 1) ∧ FRat (unpackF .f32 0x3F800000) ≠ 0 ∧
    unpackF .bf16 0xFF80 = .inf true ∧ (unpackF .f16 0x7E00).isNan = true ∧ (unpackF .f16 0x7D00).isSnan = true ∧
    (FVal.fin false 0 0).isSnan = false ∧ FFin (FVal.fin true 0 0) ∧ FRat (FVal.fin true 0 0) = 0 ∧
    (cvtFF .f32 .e4m3f .rz 0x447A0000).2 &&& Flags.overflow ≠ 0 ∧ (cvtFF .f32 .e4m3f .rz 0x3F800000).2 &&& Flags.overflow = 0 ∧
    (cvtFI .f32 (-128) 127 .rn 0x43000000).2 &&& Flags.invalid ≠ 0 ∧ (cvtFI .f32 (-128) 127 .rn 0x42FE0000).2 &&& Flags.invalid = 0 := by
  and_intros <;> decide +kernel

/-- Codes that decode, with a scale of 1 and one of −0; a reserved ternary byte; an FP8 NaN and an infinity; dithers (R25 to R27). -/
theorem test_meets_grid :
    reservedTern 7 243 = true ∧ reservedTern 7 242 = false ∧ FFin (unpackF .bf16 0x3F80) ∧ 0 < FRat (unpackF .bf16 0x3F80) ∧
    ¬(0 < FRat (unpackF .bf16 0x8000)) ∧ (unpackF (fp8Of 3) 0x7F).isNan = true ∧ unpackF (fp8Of 4) 0xFC = .inf true ∧
    FFin (unpackF (fp8Of 3) 0x38) ∧ gridPoint 5 0 0 * 1 = 0 ∧ gridPoint 5 1 3 * 1 ≠ 0 ∧ (0 : Fin 4).val < 4 ∧
    FRat (.fin true 5 9) / 1 < gridPoint 5 (outerCode 5 true) 0 ∧ gridPoint 5 (outerCode 5 false) 0 < FRat (.fin false 5 9) / 1 ∧
    gridPoint 5 (outerCode 5 true) 0 ≤ FRat (.fin false 5 0) / 1 ∧ FRat (.fin false 5 0) / 1 ≤ gridPoint 5 (outerCode 5 false) 0 := by
  and_intros <;> decide +kernel

/-- The dithers of the table's codes 0 to 3 in INT8, and the point 5 − 3/8 quantised back to its code at scale 1 (R26, R30). -/
theorem test_dithered_grid :
    ([0, 1, 2, 3].map (ditherOf 5)) = [-3, -1, 1, 3] ∧ ([0, 1].map (ditherOf 7)) = [-2, 2] ∧
    decodeElem 5 5 0 3 0x3F80 = (0x40940000, 0) ∧ quantise 5 (.fin false 37 (-3)) 3 0x3F80 = (5, 0) ∧
    quantise 6 (.fin false 100 0) (-1) 0x3F80 = (7, Flags.saturate ||| Flags.inexact) := by
  and_intros <;> decide +kernel

/-! ### Memory instructions -/

/-- Page i of the loaded kernel's lowest table with the entry pte (R376, R377). -/
def mapped (i pte : Nat) (s : State) : State := { s with mem := put s.mem (0x6000 + 16 * i) 16 pte }

/-- A warp whose registers hold the values of a list. -/
def hold (l : List (Fin 256 × VVal)) (wp : Warp) : Warp :=
  l.foldl (fun w x => { w with regs := w.regs.set x.1 (reg x.2) }) wp

/-- Pages: 2 plain, 3 in fabric memory at endpoint 0, 4 of INT8 elements with scale 1, 5 migrating, 6 read only; register
pairs that name them, pair 10 an absent page. -/
def pages (s : State) : State :=
  let s1 := mapped 2 (0x20000 * 2 ^ 64 + 0xF) (mapped 3 (0x30000 * 2 ^ 64 + 0x2F) (mapped 4 (0x40000 * 2 ^ 64 + 0x10F)
    (mapped 5 (0x50000 * 2 ^ 64 + 0x4F) (mapped 6 (0x60000 * 2 ^ 64 + 0x7) s))))
  let s2 := modCtx s1 0 fun c => { c with eptab := 0x8000, fmttab := 0x9000 }
  let m1 := memWrite s2.mem 0x8010 [1]
  let m2 := put m1 0x9020 32 (0x105 + 0x20000 * 2 ^ 32)
  { s2 with mem := memWrite m2 0x20000 [0x80, 0x3F, 3, 4] }

def sA : State := pages (modWarp sV 0 0 (hold [(8, .a 0x20000 16), (10, .u 0x20040), (12, .a 0x30000 16), (14, .a 0x40000 4),
  (16, .u 0x50000), (18, .u 0x60000), (20, .u 0x90000), (22, .a 0x2FFF0 8)]))
def kA : GCtx := gk sA (by decide +kernel)

/-- The guard p0, which lanes 0 and 2 hold, and those lanes. -/
def p0 : Ctl := ⟨0, false, 0⟩
def two : LaneMask := 5

theorem test_accesses_issue : Issues sA kA p0 two := ⟨gk_spec _ _, by decide +kernel, by decide +kernel⟩

/-- Whether a form's accesses through a pair pass their checks, none of them held. -/
def reachable (f : AccForm) (ver : Bool) (size : Size) (addr : Fin 128) : Bool :=
  match laneEas kA two addr 0 with
  | .error _ => false
  | .ok x =>
    match checkLanes sA kA.blk.core kA.blk.ctx f ver size x.2 with
    | .error _ => false
    | .ok cs => (cs.find? fun c => c.held || (c.acc.mig && mmuFull sA kA.blk.core)).isNone

theorem reaches_of {f : AccForm} {ver : Bool} {size : Size} {addr : Fin 128} (h : reachable f ver size addr = true) :
    ∃ uni accs, Reaches sA kA two f ver size addr 0 uni accs := by
  unfold reachable at h
  split at h
  · exact absurd h (by simp)
  · rename_i x hx
    split at h
    · exact absurd h (by simp)
    · rename_i cs hc
      exact ⟨x.1, cs.map (·.acc), x.2, cs, hx, hc, Option.isNone_iff_eq_none.mp h, rfl⟩

/-- The places that a form reaches through a pair. -/
def placesOf (f : AccForm) (size : Size) (addr : Fin 128) : List LaneAcc :=
  match laneEas kA two addr 0 with
  | .error _ => []
  | .ok x => match checkLanes sA 0 0 f false size x.2 with | .error _ => [] | .ok cs => cs.map (·.acc)

/-- Each form reaches a page that it may: a place a lane, or one for all. -/
theorem test_meets_reaches :
    (∃ uni accs, Reaches sA kA two .ld false .b128 4 0 uni accs) ∧
    (∃ uni accs, Reaches sA kA two .ldRaw false .b32 5 0 uni accs) ∧
    (∃ uni accs, Reaches sA kA two .ld false .b32 6 0 uni accs) ∧
    (∃ uni accs, Reaches sA kA two .ld false .b32 7 0 uni accs) ∧
    (∃ uni accs, Reaches sA kA two .st false .b32 4 0 uni accs) ∧
    (∃ uni accs, Reaches sA kA two .st true .b64 5 0 uni accs) ∧
    (∃ uni accs, Reaches sA kA two .qst false .b32 7 0 uni accs) ∧
    (∃ uni accs, Reaches sA kA two .atom false .b64 4 0 uni accs) ∧
    (∃ uni accs, Reaches sA kA two .atomo false .b32 4 0 uni accs) ∧
    (∃ uni accs, Reaches sA kA two .watch false .b32 4 0 uni accs) := by
  and_intros <;> exact reaches_of (by decide +kernel)

/-- Plain places are of device memory, one of fabric memory is; a load's lines fit the pool, and do not fit an empty one. -/
theorem test_meets_load_goes_on :
    (placesOf .ld .b32 4).length = 2 ∧ (∀ a ∈ placesOf .ld .b32 4, isFab a.loc = false) ∧
    (∃ a ∈ placesOf .ld .b32 6, isFab a.loc = true) ∧ dstIdx kA (.v 1 .w) full = .ok [] ∧
    linesHeld { kA.wp with pend := kA.wp.pend ++
      [loadPend kA two (.v 1 .w) [] (placesOf .ld .b32 4) .b32 false false false .plain 0] } ≤ kA.wp.gmax ∧
    0 < linesHeld { kA.wp with gmax := 0, pend := kA.wp.pend ++
      [loadPend kA two (.v 1 .w) [] (placesOf .ld .b32 4) .b32 false false false .plain 0] } := by
  and_intros <;> decide +kernel

/-- What check a form fails through a pair, of how many lanes' addresses, with the failing lane. -/
def failsAt (f : AccForm) (ver : Bool) (size : Size) (addr : Fin 128) (off : BitVec 18) : Option (Nat × AErr) :=
  match laneEas kA two addr off with
  | .error _ => none
  | .ok x => match checkLanes sA 0 0 f ver size x.2 with | .error (l, _, e) => some (l, e) | .ok _ => none

/-- Every form that the statement names fails in lane 0, by a fault and by an absent page; ATOMO
in lane 2 where lane 0's page admits it (R134). -/
theorem test_meets_lowest_failing_lane :
    failsAt .ld false .b32 4 2 = some (0, .fault .misaligned 0x20002) ∧ failsAt .ld false .b32 10 0 = some (0, .absent 0 0x90000) ∧
    failsAt .ldRaw false .b32 10 0 = some (0, .absent 0 0x90000) ∧
    failsAt .st false .b32 9 0 = some (0, .fault .protection 0x60000) ∧ failsAt .st false .b32 10 0 = some (0, .absent 0 0x90000) ∧
    failsAt .qst false .b32 4 0 = some (0, .fault .formatMismatch 0x20000) ∧
    failsAt .qst false .b32 10 0 = some (0, .absent 0 0x90000) ∧
    failsAt .atomo false .b32 6 0 = some (0, .fault .protection 0x30000) ∧
    failsAt .atomo false .b32 10 0 = some (0, .absent 0 0x90000) ∧
    failsAt .atomo false .b32 11 0 = some (2, .fault .protection 0x30000) := by decide +kernel

/-- One access at each check: below 0, at 2^56, absent, malformed, not permitted, misaligned, and one that passes; in the
span, misaligned, in no range and in one (R134, R245). -/
def sRange : State := { sA with spanRanges := [{ off := 0, len := 4096, ctx := 0, clearing := false }] }

theorem test_meets_access_checks :
    ((-1 : Int) < 0) ∧ (Config.vaLimit : Int) ≤ 2 ^ 56 ∧ 0x90000 < Config.vaLimit ∧ inSpan 0x90000 = false ∧
    leafOf sA (some 0) 0 0x90000 = .absent ∧ leafOf sA (some 0) 1 0x20000 = .malformed ∧
    sA.ctxs[(1 : Fin 64)].valid = false ∧ sA.ctxs[(0 : Fin 64)].valid = true ∧ cachedLeaf sA (some 0) 0 0x20000 = none ∧
    (cachedLeaf (touch sA (some 0) 0 0x20000) (some 0) 0 0x20004).isSome = true ∧
    (match leafOf sA (some 0) 0 0x60000 with | .leaf t => bitsOf t.pte.toNat 3 1 == 0 | _ => false) = true ∧
    (match leafOf sA (some 0) 0 0x20000 with
      | .leaf t => bitsOf t.pte.toNat 3 1 == 1 && bitsOf t.pte.toNat 2 1 == 1 && bitsOf t.pte.toNat 5 1 == 0 &&
        bitsOf t.pte.toNat 8 6 == 0
      | _ => false) = true ∧
    0x20002 % Size.b32.bytes ≠ 0 ∧ 0x20004 % Size.b32.bytes = 0 ∧
    inSpan (Config.spanBase + 4092) = true ∧ Config.spanBase + 4092 < Config.spanBase + Config.spanSize ∧
    (Config.spanBase + 4092) % Size.b32.bytes = 0 ∧ spanAllowed sRange 0 4092 4 = true ∧
    spanAllowed sRange 0 4096 4 = false ∧ spanAllowed sRange 1 0 4 = false ∧
    sliceHeld (modCore sRange 0 fun c => { c with copying := true }) 4092 = true ∧ sliceHeld sRange 4092 = false := by
  and_intros <;> decide +kernel

/-- A pending load of v1 from the uniform place 0x20000. -/
def pL : Pend :=
  { id := 7, kind := .load false true, dst := .v 1 .w, idx := [], lanes := full,
    accs := [{ lane := 0, ea := 0x20000, loc := .dev 0x20000, els := [] }], size := .b16, uni := true, acq := false,
    takes := [], data := [], failed := 0 }
/-- A pending atomic whose old value is read. -/
def pT : Pend := { pL with id := 8, kind := .atomic [(0, 5)], accs := [], size := .b32 }
def sP : State := modWarp sA 0 0 fun wp => { wp with pend := [pL, pT] }

theorem test_meets_results_arrive :
    findPend sP 7 = some (0, 0, pL) ∧ findPend sP 8 = some (0, 0, pT) ∧ pendReady pL = true ∧ pendReady pT = true ∧
    pL.isLoad = true ∧ pT.isLoad = false ∧ (pendValues sP pL).1.length = 1 ∧ (sP.blocks[0]?).isSome = true ∧
    (unitsOf 32 0x20000 2).any sP.badGranules.contains = false := by
  and_intros <;> decide +kernel

/-- The halfword at 0x20000 is 0x3F80, the one at 0x20002 0x0403 (R8). -/
theorem test_loaded_values :
    (pendValues sP pL).1 = [.u 0x3F80] ∧
    (pendValues sP { pL with size := .b32 }).1 = [.u 0x04033F80] ∧
    (pendValues sP { pL with size := .b8 }).1 = [.u 0xFFFFFF80] := by decide +kernel

theorem test_meets_stores :
    sA.homesWf = true ∧ dataVals kA two 1 (.v 3 .w) = .ok [.a 10 2] ∧ (dataVals kA two 2 (.v 2 .w)).toOption.isSome = true ∧
    (dataVals kA two 4 (.v 8 .w)).toOption.isSome = true := by
  and_intros <;> decide +kernel

/-- A lane's place in device memory. -/
def accL (a : Nat) : LaneAcc := { lane := 0, ea := a, loc := .dev a, els := [] }

/-- Two lanes store to one word; a line at version 0. -/
theorem test_meets_store_order :
    (∀ w ∈ [(accL 0x20010, leBytes 4 1), (accL 0x20010, leBytes 4 2)], poisonAt sA w.1.loc w.2.length = false) ∧
    sA.badGranules = [] ∧ leBytes 4 2 ≠ [] ∧ 0x2007C / 128 = (0x2007C + (leBytes 4 2).length - 1) / 128 ∧
    memGet sA.lineVer (0x2007C / 128) = 0 ∧ memGet sA.lineVer (0x2007C / 128) ≠ 1 := by decide +kernel

/-! ### Atomics, exact accumulation, fences, waits -/

/-- The same kernel in deterministic mode. -/
def sD : State := modNode sA 0 fun nd => { nd with det := true }
def kD : GCtx := gk sD (by decide +kernel)
/-- The same kernel under a debug context. -/
def sDbg : State := modNode sA 0 fun nd => { nd with debug := true }

theorem test_meets_atomics :
    dataVals kA two (atomRegsOf .add .b32) (.v 2 .w) = .ok [.u 3] ∧
    (dataVals kA two (atomRegsOf .cas .b64) (.v 8 .w)).toOption.isSome = true ∧
    (isDet sA kA.blk && narrow .bk) = false ∧ (isDet sD kD.blk && narrow .bk) = true ∧ (isDet sD kD.blk && narrow .dv) = false ∧
    dstIdx kA (.v 1 .w) two = .ok [] ∧
    linesHeld { kA.wp with pend := kA.wp.pend ++ [atomPend kA two (.v 1 .w) [] (placesOf .atom .b32 4) .b32 .acq 0] } ≤ kA.wp.gmax ∧
    0 < linesHeld { kA.wp with gmax := 0, pend := kA.wp.pend ++
      [atomPend kA two (.v 1 .w) [] (placesOf .atom .b32 4) .b32 .acq 0] } := by
  and_intros <;> decide +kernel

/-- Device memory with the granule of 0x20020 poisoned. -/
def sAbad : State := { sA with badGranules := [0x1001] }

theorem test_meets_atomic_words :
    sAbad.homesWf = true ∧ poisonAt sAbad (.dev 0x2001C) 4 = false ∧ poisonAt sAbad (.dev 0x20020) 4 = true := by
  decide +kernel

/-- An open cell with a contribution of node 0, one of no node, and one of each mark. -/
def cell : ACell :=
  { loc := .span 16, ctx := 0, sum := 3, count := 1, nan := false, pinf := false, ninf := false, poison := false,
    firstBy := .gang 0 0 0, firstPc := 0, firstWarp := 0, nodes := [0], overflow := false, va := Config.spanBase + 16 }
def sCell : State := { sA with cells := [cell] }
def sCellEnded : State := modNode sCell 0 fun nd => { nd with status := .done }

theorem test_meets_accumulation :
    readSrc kA two (.int .w32) false (.v 2 .w) = .ok (.u 3) ∧ sCell.cells = [cell] ∧ cell.poison = false ∧
    sCell.cells.find? (·.loc = .span 16) = some cell ∧ (∃ n ∈ cell.nodes, nodeRuns sCell n = true) ∧
    (∀ n ∈ cell.nodes, nodeRuns sCellEnded n = false) ∧ poisonAt sCellEnded (.span 16) 4 = false ∧ cell.count ≤ 2 ^ 32 := by
  and_intros <;> decide +kernel

/-- A cell closes to its sum rounded, to the canonical NaN, to an infinity (R146). -/
theorem test_cell_word :
    cellWord { cell with sum := 2 ^ 149 } = (0x3F800000, 0) ∧
    cellWord { cell with pinf := true, ninf := true } = (0x7FC00000, Flags.invalid) ∧
    cellWord { cell with pinf := true } = (0x7F800000, 0) ∧ cellWord { cell with ninf := true } = (0xFF800000, 0) := by
  decide +kernel

/-- Buffered atomics of the helm and of two lanes. -/
def ba (warp : Option Nat) (lane : Nat) : BufAtom :=
  { warp := warp, lane := lane, ea := 0x20000, loc := .dev 0x20000, op := .exch, u := false, size := .b32, b1 := 1, b2 := 0,
    pc := 0 }

theorem test_meets_flush_points :
    gangOf sV sV.cur = some kV ∧ (partLanes kV ⟨1, false, 0⟩).toOption = none ∧ Scope.bk ≠ .wp ∧ (sA.blocks[0]?).isSome = true ∧
    [ba (some 0) 1, ba none 0, ba (some 0) 0].Pairwise (fun x y => bufBefore x y = true ∨ bufBefore y x = true) ∧
    [ba none 0, ba (some 0) 0, ba (some 0) 1].Perm [ba (some 0) 1, ba none 0, ba (some 0) 0] :=
  ⟨gk_spec _ _, by and_intros <;> decide +kernel⟩

/-- The lanes of a WAITA of the words at 0x20000 and 0x20020 with 3. -/
def lanesW (cmp : WCmp) : List WaitLane :=
  (placesOf .watch .b32 4).map fun a =>
    watchLane sA cmp .b32 { lane := a.lane, ea := a.ea, loc := a.loc, cmp := 3, got := none, bad := false }
def sW (cmp : WCmp) : State := modGang sA 0 0 0 fun g => { g with wait := .waita (.v 1 .w) two (lanesW .eq) cmp .b32 false }

theorem test_meets_watch :
    watchDone (lanesW .ne) = true ∧ watchDone (lanesW .eq) = false ∧
    dstIdx kA (.v 1 .w) two = .ok [] ∧
    linesHeld (modGangs kA.wp kA.g.gid fun g => { g with takes := linesFor kA.wp (.v 1 .w) [] 1 true two }) ≤ kA.wp.gmax ∧
    (gangOf (sW .ne) (.gang 0 0 0)).isSome = true ∧ watchDone ((lanesW .eq).map (watchLane (sW .ne) .ne .b32)) = true ∧
    watchDone ((lanesW .eq).map (watchLane (sW .eq) .eq .b32)) = false ∧ kA.wp.gmax ≥ 256 ∧
    wcmp .ltu 32 (memNat sA.mem 0x20020 4) 3 = true ∧ wcmp .geu 32 (memNat sA.mem 0x20020 4) 3 = false := by
  and_intros <;> decide +kernel

/-! ### Control flow -/

/-- A mask-stack entry. -/
def ent (kind : MKind) : MEntry := { kind := kind, mask := 0xF, resume := 3, rpc := 0 }

/-- Every slice of the warp with the same stack. -/
def stacked (st : List MEntry) (s : State) : State :=
  modWarp s 0 0 fun wp => { wp with slices := Vector.ofFn fun i => { wp.slices[i] with stack := st } }
def s15 : State := stacked (List.replicate 14 (ent .ret)) sA
def s16 : State := stacked (List.replicate 15 (ent .ret)) sA
def sFull : State := stacked (List.replicate 16 (ent .ret)) sA

/-- BRA at p0, whose lanes 0 and 2 part from the others of slice 0: two entries more, to 16 of 16, or one too many. -/
theorem test_meets_branches :
    partLanes kA p0 = .ok two ∧ readSrc kA two (.int .w32) false (.v 3 .w) = .ok (.a 10 2) ∧
    (∀ k ∈ [gk s15 (by decide +kernel)], ∀ j ∈ slicesOf k.g, stackNeed true (sliceAt k.wp j)
      (braGroups (sliceAt k.wp j).active (sliceLanes two j) (k.g.pc + 3) (k.g.pc + 1)) (pcOff18 k.g.pc 4) (k.g.pc + 1) ≤ 16) ∧
    (∀ k ∈ [gk s16 (by decide +kernel)], (slicesOf k.g).find? (fun j => stackNeed true (sliceAt k.wp j)
      (braGroups (sliceAt k.wp j).active (sliceLanes two j) (k.g.pc + 3) (k.g.pc + 1)) (pcOff18 k.g.pc 4) (k.g.pc + 1) > 16) =
      some 0) := by
  and_intros <;> decide +kernel

def slice (active : BitVec 4) (st : List MEntry) : Slice := { live := true, active := active, stack := st }

theorem test_meets_diverged_slice :
    (slice 0xF []).active &&& 5 ≠ 0 ∧ (slice 0xF []).active &&& ~~~5 ≠ 0 ∧ (9 : Word) ≠ 1 ∧ (1 : Word) ≠ 4 ∧
    accumulates true (slice 0xF []) (braGroups 0xF 5 9 1) 4 1 = false ∧ (0xF : BitVec 4).getLsbD 3 = true := by decide +kernel

theorem test_meets_uniform_branch :
    partLanes kA pt = .ok (activeLanes kA.wp kA.g) ∧ activeLanes kA.wp kA.g ≠ 0 ∧
    readUni kA (activeLanes kA.wp kA.g) (.v 2 .w) = .ok 3 ∧ partLanes kA ⟨2, false, 0⟩ = .ok 0 ∧
    partLanes kA ⟨7, true, 0⟩ = .ok 0 ∧ laneBit two 1 ≠ laneBit two (lowLane (activeLanes kA.wp kA.g)) ∧
    (∀ j ∈ lanesOf (activeLanes kA.wp kA.g), j < 1 → laneBit two j = laneBit two (lowLane (activeLanes kA.wp kA.g))) := by
  and_intros <;> decide +kernel

theorem test_meets_calls :
    (∀ k ∈ [gk s16 (by decide +kernel)], (∀ i ∈ slicesOf k.g, (sliceAt k.wp i).stack.length < 16) ∧
      ∀ i ∈ slicesOf k.g, ∃ e ∈ (sliceAt k.wp i).stack, e.kind = .ret) ∧
    fullSlice (gk sFull (by decide +kernel)) = some 0 ∧
    (slicesOf kA.g).find? (fun i => !((sliceAt kA.wp i).stack.any fun e => e.kind = .ret)) = some 0 := by
  and_intros <;> decide +kernel

theorem test_meets_unwinding :
    (slice 0xF []).active ≠ 0 ∧ (∀ e ∈ (slice 0 [{ ent .path with mask := 0 }]).stack, e.mask = 0) ∧
    (slice 0xF []).active &&& ~~~5 ≠ 0 := by decide +kernel

/-- The warp with two gangs of four slices each that wait at one REGANG for all slices; and with one of them running. -/
def gangs2 (w1 : GWait) (s : State) : State := modWarp s 0 0 fun wp => { wp with
  nextGid := 2, gangs := wp.gangs.flatMap fun g =>
    [{ g with slices := 0x0F, wait := .regang 0xFF, latch := reg (.u 1) },
     { g with gid := 1, slices := 0xF0, wait := w1, slot := 2, latch := reg (.u 2) }] }
def s2 : State := gangs2 (.regang 0xFF) sA
def k2 : GCtx := gk s2 (by decide +kernel)
def k2r : GCtx := gk (gangs2 .none sA) (by decide +kernel)

theorem test_meets_regang :
    readUni kA (activeLanes kA.wp kA.g) (.int 255) = .ok 255 ∧ awaitedHere k2r.wp k2r.g.pc = false ∧
    awaitedHere k2.wp k2.g.pc = true ∧ (∀ g ∈ k2.wp.gangs, g.inHandler = false) ∧ 2 ≤ (waitingAt k2.wp k2.g.pc).length ∧
    lowestHolder k2.wp.gangs = some k2.g ∧ sliceIn k2.g.slices (15 / 4) = true ∧
    (∀ h ∈ k2.wp.gangs, sliceIn h.slices (15 / 4) = true → h = k2.g) := by
  and_intros <;> decide +kernel

/-- The merged latch takes each lane from its own gang (R178). -/
theorem test_regang_merges_latches :
    laneVal (mergedLatch k2.wp.gangs).val 15 = 1 ∧ laneVal (mergedLatch k2.wp.gangs).val 16 = 2 := by decide +kernel

def sTrap : State := modWarp sA 0 0 fun wp => { wp with tvec := 40 }
def sHandler : State := modGang sTrap 0 0 0 fun g => { g with inHandler := true, epc := 7 }

theorem test_meets_traps :
    kA.g.inHandler = false ∧ kA.wp.tvec = 0xFFFFFFFF ∧ (gk sTrap (by decide +kernel)).wp.tvec ≠ 0xFFFFFFFF ∧
    (gk sTrap (by decide +kernel)).g.inHandler = false ∧ (gk sHandler (by decide +kernel)).g.inHandler = true := by
  decide +kernel

/-- What TRAP 3 and TRAPRET leave (R426). -/
theorem test_trap_enters_and_leaves :
    (match exec (.trap pt 3) sTrap with
      | .next t => (gangOf t (.gang 0 0 0)).map fun k => (k.g.pc, k.g.epc, k.g.inHandler, k.g.tlane, k.g.tcode)
      | _ => none) = some (40, 0, true, 0, 3) ∧
    (match exec (.trapret pt) sHandler with
      | .next t => (gangOf t (.gang 0 0 0)).map fun k => (k.g.pc, k.g.inHandler)
      | _ => none) = some (8, false) := by
  and_intros <;> decide +kernel

/-- Two gangs in a RECOMP sequence, of which the second still runs. -/
def run0 : RecompRun := { land := 9, back := none, rest := [], inHandler := false }
def sRun : State := modWarp s2 0 0 fun wp => { wp with
  gangs := wp.gangs.map fun g => { g with recomp := some run0, wait := .none } }
def kRun : GCtx := gk sRun (by decide +kernel)

theorem test_meets_nop_yield_breakpoint :
    endsRecomp kA.g = false ∧ endsRecomp kRun.g = true ∧
    (∃ g ∈ kRun.wp.gangs, g.gid ≠ kRun.g.gid ∧ g.recomp ≠ none ∧ g.wait ≠ .recomp) ∧ ((sDbg.nodes[kA.blk.node]?).map (·.debug)).getD false = true ∧
    ((sA.nodes[kA.blk.node]?).map (·.debug)).getD false = false ∧ ((sA.nodes[kA.blk.node]?).map (·.det)).getD false = false ∧
    ((sD.nodes[kA.blk.node]?).map (·.det)).getD false = true := by decide +kernel

/-! ### Version transfers -/

/-- The loaded kernel with version 1 beside it, a map from SAFE 5 to it that lands at PC 9, and a drained counter k1. -/
def sX : State :=
  let s1 := modCtx sA 0 fun c => { c with dirCount := 2 }
  let dir (m : Mem) (a v maps : Nat) : Mem :=
    put m a 32 (v * 2 ^ 32 + 2 ^ 48 + 0x10000 * 2 ^ 64 + 4096 * 2 ^ 128 + maps * 2 ^ 160 + 0x12000 * 2 ^ 192)
  let m1 := dir (dir s1.mem 0x11000 0 1) 0x11020 1 0
  let hdr := 2 ^ 16 + 5 * 2 ^ 32 + 9 * 2 ^ 64 + 4 * 2 ^ 128
  { s1 with mem := put (put m1 0x12000 8 0x12040) 0x12040 64 hdr }
def sX1 : State := modWarp sX 0 0 fun wp => { wp with
  xferReq := some 1, safeN := some 5, gangs := wp.gangs.map fun g => { g with wait := .safe 5 } }
def sX2 : State := modWarp sX 0 0 fun wp => { wp with xferReq := some 1 }
def kX : GCtx := gk sX2 (by decide +kernel)

theorem test_meets_transfer_requests :
    kA.wp.xferReq = none ∧ kX.wp.xferReq = some 1 ∧ kX.g.inHandler = false ∧ kX.wp.safeN = none ∧
    (mapFor sX2 0 kX.wp 5 1).isSome = true ∧ mapFor sX2 0 kX.wp 6 1 = none ∧
    readUni kX two (.int 1) = .ok 1 ∧ readUni kX two (.int 2) = .ok 2 ∧ (loadedAs sX2 0 kX.wp.dirIdx 1).isSome = true ∧
    loadedAs sX2 0 kX.wp.dirIdx 2 = none ∧ ({ kX.wp with drainAt := some [] } : Warp).drainAt.isSome = true ∧
    kX.wp.drainAt = none ∧ kX.wp.version ≠ 1 ∧ kX.wp.version = 0 := by
  and_intros <;> decide +kernel

def kX1 : GCtx := gk sX1 (by decide +kernel)
def mpX : MapHdr := (mapFor sX1 0 kX1.wp 5 1).get (by decide +kernel)
/-- A stack entry that no pair of the map names, and a block of a context whose span holds a range. -/
def entX : MEntry := { kind := .ret, mask := 0xF, resume := 3, rpc := 0 }
def bSp : Block := { kX1.blk with spanLen := 4096 }

theorem test_meets_version_transfer :
    sX1.blocks[kX1.b]? = some kX1.blk ∧ kX1.b = 0 ∧ kX1.wp.xferReq = some 1 ∧ kX1.wp.safeN = some 5 ∧
    (loadedAs sX1 0 kX1.wp.dirIdx 1).isSome = true ∧ (∀ g ∈ kX1.wp.gangs, g.wait = .safe 5) ∧
    drained kX1.blk mpX [0, 0, 0, 0] = true ∧
    drained kX1.blk { mpX with hdr := mpX.hdr + 2 ^ 64 * 2 ^ 256 } [0, 0, 0, 0] = false ∧
    (∀ sl ∈ kX1.wp.slices.toList, ∀ x ∈ sl.stack, entryMapped (MapHdr.maskPairs sX1 0 mpX) x = true) ∧
    entryMapped (MapHdr.maskPairs sX1 0 mpX) entX = false ∧
    ((spanAddrs bSp kX1.wp 0).find? fun va => !spanReadable sX1 0 va) = some Config.spanBase ∧
    (∀ va ∈ spanAddrs bSp kX1.wp 0, spanReadable sRange 0 va = true ∧ sliceHeld sRange (va - Config.spanBase) = false) ∧
    (∃ va ∈ spanAddrs bSp kX1.wp 0,
      sliceHeld (modCore sRange 0 fun c => { c with copying := true }) (va - Config.spanBase) = true) ∧
    (∀ r ∈ MapHdr.records sX1 0 mpX, recKind r ≠ 4) ∧ linesHeld (transferWarp sX1 0 kX1.blk kX1.wp mpX 1) ≤ kX1.wp.gmax :=
  ⟨(gang_block (gk_spec _ _)).1, by and_intros <;> decide +kernel⟩

/-! ### Synchronisation of warps -/

/-- The block with barrier 2 in a phase of 3 with one arrived, and the warp arrived at barrier 1 in phase 0. -/
def sB : State := modBlock sA 0 fun blk => { blk with
  bars := (blk.bars.set 2 { phase := 4, count := 3, arrived := 1 }).set 1 { phase := 0, count := 2, arrived := 1 }
  arrivals := [(.warp 0, 1, 0)] }
def kB : GCtx := gk sB (by decide +kernel)
/-- The warp waits at barrier 1, in its phase and in one that has completed. -/
def sBw (ph : Word) : State := modGang sB 0 0 0 fun g => { g with wait := .bar 1 ph }

theorem test_meets_barrier_arrivals :
    kB.blk.bars[0]? = some { phase := 0, count := 0, arrived := 0 } ∧ kB.blk.bars[2]? = some { phase := 4, count := 3, arrived := 1 } ∧
    1023 < 1024 ∧ (0 < 1 ∧ 3 ≠ 2) ∧ 1 ≤ 1 ∧ 1023 ≤ 1023 := by decide +kernel

theorem test_meets_barrier_instructions :
    readUni kB full (.int 1) = .ok 1 ∧ readUni kB full (.int 2) = .ok 2 ∧ (arrive kB.blk (.warp kB.w) 1 2).isSome = true ∧
    arrive kB.blk (.warp kB.w) 2 2 = none ∧ waitPhase kB.blk (.warp kB.w) 1 = some (0, false) ∧
    ((arrive kB.blk (.warp kB.w) 1 2).bind fun out => waitPhase out (.warp kB.w) 1) = some (0, true) ∧
    ((gangOf (sBw 0) (.gang 0 0 0)).map fun k => (k.g.wait, phaseDone k.blk 1 0)) = some (.bar 1 0, false) := by
  and_intros <;> decide +kernel

/-- Of two numbered operations of k1, one is done and one was abandoned. -/
def sT : State := modEng sA 0 1 fun e => { e with issued := 2, done := 1, abandoned := some 1 }
def kT : GCtx := gk sT (by decide +kernel)
def sTw (n : Word64) : State := modGang sT 0 0 0 fun g => { g with wait := .twait 1 n (some 0) two }

theorem test_meets_timeline_waits :
    (1 : BitVec 13).setWidth 64 = (1 : Word64) ∧ readPairUni kT two 5 = .ok 0x20040 ∧
    (1 : Word64).toNat ≤ kT.blk.ctxs[(1 : Fin 4)].done ∧ kT.blk.ctxs[(1 : Fin 4)].done < (2 : Word64).toNat ∧
    ((gangOf (sTw 1) (.gang 0 0 0)).map fun k => k.g.wait) = some (.twait 1 1 (some 0) two) ∧
    ((gangOf (sTw 2) (.gang 0 0 0)).map fun k => k.g.wait) = some (.twait 1 2 (some 0) two) ∧
    (sT.blocks[kT.b]?).isSome = true ∧ (kT.blk.warps[kT.w]?).isSome = true := by
  and_intros <;> decide +kernel

/-- A decision queue whose second entry names the warp's role; and the same with the warp waiting. -/
def sQ : State := modBlock sA 0 fun blk => { blk with
  dq := [{ seq := 0, val := 5, mask := 2 }, { seq := 1, val := 6, mask := 1 }], dqNext := 2 }
def kQ : GCtx := gk sQ (by decide +kernel)
def sQw (s : State) : State := modGang s 0 0 0 fun g => { g with wait := .dqpop (.v 1 .w) full }

theorem test_meets_decision_queue :
    popBehind kQ.wp kQ.g = false ∧ popFor kQ.blk kQ.wp = some (6, 2) ∧ 256 ≤ kQ.wp.gmax ∧
    (deliverPop sQ kQ (.v 1 .w) [] full (6, 2)).toOption.isSome = true ∧ popFor kA.blk kA.wp = none ∧
    ((gangOf (sQw sQ) (.gang 0 0 0)).map fun k => (k.g.wait, popBehind k.wp k.g, popFor k.blk k.wp)) =
      some (.dqpop (.v 1 .w) full, false, some (6, 2)) ∧
    ((gangOf (sQw sA) (.gang 0 0 0)).map fun k => (k.g.wait, popBehind k.wp k.g, popFor k.blk k.wp)) =
      some (.dqpop (.v 1 .w) full, false, none) ∧
    (∀ e ∈ kA.blk.dq, e.mask.getLsbD kA.wp.role.val = true → e.seq < kA.wp.dqPos) ∧
    (∀ x ∈ kQ.blk.dq.take 1, x.mask.getLsbD kQ.wp.role.val = false ∨ x.seq < kQ.wp.dqPos) ∧ kQ.wp.dqPos ≤ 1 ∧
    dstIdx kA (.v 1 .w) full = .ok [] ∧
    linesHeld (modGangs kA.wp kA.g.gid fun g => { g with takes := linesFor kA.wp (.v 1 .w) [] 1 false full }) ≤ kA.wp.gmax ∧
    0 < linesHeld (modGangs { kA.wp with gmax := 0 } kA.g.gid fun g =>
      { g with takes := linesFor kA.wp (.v 1 .w) [] 1 false two }) := by
  and_intros <;> decide +kernel

theorem test_meets_signals :
    readPairUni kA two 5 = .ok 0x20040 ∧ sigVal kA two (.imm (-1)) = .ok 0xFFFFFFFFFFFFFFFF ∧
    checkAcc sA (some kA.blk.core) kA.blk.ctx .atom false .b64 0x20040 =
      .ok { acc := { lane := 0, ea := 0x20040, loc := .dev 0x20040, els := [] }, held := false } ∧
    (match checkAcc sA (some kA.blk.core) kA.blk.ctx .atom false .b64 0x50000 with
      | .ok c => !c.held && c.acc.mig && !mmuFull sA kA.blk.core | .error _ => false) = true ∧
    poisonAt sA (.dev 0x20040) 8 = false ∧ sA.homesWf = true := by
  and_intros <;> decide +kernel

/-! ### The helm -/

/-- The helm with an address, values, a poisoned register and a call behind it; its copy stream k1 has not been forked. -/
def sHA : State :=
  let s := pages { loadedC with agenda := [], cur := .helm 0 }
  modEng (modHelm s 0 fun h => { h with
    s := ((h.s.set 1 0x20000).set 2 (-1)).set 3 70, q := h.q.set 1 true, poison := h.poison.set 9 true, stack := [7] })
    0 1 fun e => { e with stream := none, forked := false }
def kHA : HCtx := hk sHA (by decide +kernel)

theorem test_helm_with_values_issues : HelmIssues sHA kHA ⟨1, false, 0⟩ := ⟨hk_spec _ _, by decide +kernel⟩

theorem test_meets_helm_arithmetic :
    readH kHA (.s 2) = .ok 0xFFFFFFFFFFFFFFFF ∧ readH kHA (.s 3) = .ok 70 ∧ readH kHA (.imm (-5)) = .ok (-5) ∧
    readH kHA (.q 1) = .ok 1 ∧ helmGuard kHA ⟨1, false, 0⟩ = true ∧ helmGuard kHA ⟨0, false, 0⟩ = false ∧
    readS kHA 1 = .ok 0x20000 ∧ kHA.blk.helm.poison[9] = true ∧ kHA.blk.helm.poison[8] = false := by
  and_intros <;> decide +kernel

/-- Shifts of a 64-bit value by 70 (R225): 0 left and right, its sign under SSAR; the least of two signed and unsigned. -/
theorem test_helm_results :
    (match exec (.sshl pt 4 (.s 2) (.s 3)) sHA with
      | .next t => (helmOf t (.helm 0)).map fun k => k.blk.helm.s[4] | _ => none) = some 0 ∧
    (match exec (.ssar pt 4 (.s 2) (.s 3)) sHA with
      | .next t => (helmOf t (.helm 0)).map fun k => k.blk.helm.s[4] | _ => none) = some (-1) ∧
    (match exec (.smin pt 4 (.s 2) (.s 3) false) sHA with
      | .next t => (helmOf t (.helm 0)).map fun k => k.blk.helm.s[4] | _ => none) = some (-1) ∧
    (match exec (.smin pt 4 (.s 2) (.s 3) true) sHA with
      | .next t => (helmOf t (.helm 0)).map fun k => k.blk.helm.s[4] | _ => none) = some 70 := by decide +kernel

def sHfull : State := modHelm sHA 0 fun h => { h with stack := List.replicate 16 0 }
def sH15 : State := modHelm sHA 0 fun h => { h with stack := List.replicate 15 0 }

theorem test_meets_helm_calls :
    (hk sH15 (by decide +kernel)).blk.helm.stack.length < 16 ∧ 16 ≤ (hk sHfull (by decide +kernel)).blk.helm.stack.length ∧
    kHA.blk.helm.stack = [7] ∧ kH.blk.helm.stack = [] := by decide +kernel

def accH : LaneAcc := { lane := 0, ea := 0x20000, loc := .dev 0x20000, els := [] }
/-- A helm load of s4 from 0x20000 that may return. -/
def hp : HPend :=
  { id := 3, d := 4, acc := accH, size := .b32, sx := true, old := none, data := none, failed := false, acq := false }
def sHp : State := modHelm sHA 0 fun h => { h with pend := [hp], wait := .load 3 }
def sHD : State := modNode sHA 0 fun nd => { nd with det := true }

theorem test_meets_helm_memory :
    (∀ f ∈ [AccForm.watch, .st, .atom], checkAcc sHA (some kHA.blk.core) kHA.blk.ctx f false .b32 0x20000 =
      .ok { acc := accH, held := false }) ∧ isFab accH.loc = false ∧
    (∀ f ∈ [AccForm.watch, .atom], (match checkAcc sHA (some kHA.blk.core) kHA.blk.ctx f false .b32 0x30000 with
      | .ok c => isFab c.acc.loc | .error _ => false) = true) ∧
    (readS kHA 2, readS kHA (casReg 2)) = (.ok (-1), .ok 70) ∧
    (isDet sHA kHA.blk && narrow .dv) = false ∧ (isDet sHD (hk sHD (by decide +kernel)).blk && narrow .bk) = true ∧
    isDet sHA kHA.blk = false ∧
    ((sHp.blocks.zipIdx).findSome? fun x => (x.1.helm.pend.find? (·.id = hp.id)).map fun q => (x.2, q)) = some (0, hp) ∧
    hpendReady hp = true := by
  and_intros <;> decide +kernel

/-- The word at 0x20000 is 0x04033F80 (R8, R227). -/
theorem test_helm_load_returns : (hpendValue sHp hp).1 = 0x04033F80 := by decide +kernel

def sHq (n : Nat) : State := modBlock sHA 0 fun blk => { blk with dq := List.replicate n { seq := 0, val := 0, mask := 1 } }
def sHqw (n : Nat) : State := modHelm (sHq n) 0 fun h => { h with wait := .dqpush 9 1 }

theorem test_meets_decision_queue_pushes :
    namesRole sHA kHA.blk 8 = false ∧ namesRole sHA kHA.blk 1 = true ∧
    ((sHq 63).blocks[0]?).map (·.dq.length) = some 63 ∧ ((sHq 64).blocks[0]?).map (·.dq.length) = some 64 ∧
    ((sHqw 63).blocks[0]?).map (·.helm.wait) = some (.dqpush 9 1) ∧ ((sHqw 64).blocks[0]?).map (·.dq.length) = some 64 := by
  and_intros <;> decide +kernel

/-- The helm without a poisoned register forks k1 at PC 0, where a copy instruction stands. -/
def sHF : State := modHelm sHA 0 fun h => { h with poison := Vector.replicate 64 false }
def kHF : HCtx := hk sHF (by decide +kernel)
def sFw (s : State) : State := modHelm s 0 fun h => { h with wait := .fork 1 0 }
def sJw (s : State) : State := modHelm s 0 fun h => { h with wait := .join 1 }

theorem test_meets_fork_and_join :
    streamRuns kH.blk.ctxs[(1 : Fin 4)] = true ∧ streamRuns kHF.blk.ctxs[(1 : Fin 4)] = false ∧
    (∀ n : Fin 64, kHF.blk.helm.poison[n] = false) ∧
    ((fetchWord sHF kHF.blk.core kHF.blk.ctx kHF.blk.helmDir 0).toOption.map (wrongFor .copy)) = some false ∧
    joinDone kHF.blk.ctxs[(1 : Fin 4)] = true ∧ joinDone kH.blk.ctxs[(1 : Fin 4)] = false ∧ kHF.blk.helm.pend = [] ∧
    (hk sHp (by decide +kernel)).blk.helm.pend = [hp] := by
  and_intros <;> decide +kernel

theorem test_meets_waiting_fork_and_join :
    ((sFw sHF).blocks[0]?).map (fun blk => (blk.helm.wait, streamRuns blk.ctxs[(1 : Fin 4)])) = some (.fork 1 0, false) ∧
    (forkNow (sFw sHF) (hk (sFw sHF) (by decide +kernel)) 1 0).toOption.isSome = true ∧
    ((sFw sH).blocks[0]?).map (fun blk => (blk.helm.wait, streamRuns blk.ctxs[(1 : Fin 4)])) = some (.fork 1 0, true) ∧
    ((sJw sHF).blocks[0]?).map (fun blk => (blk.helm.wait, joinDone blk.ctxs[(1 : Fin 4)])) = some (.join 1, true) ∧
    ((sJw sH).blocks[0]?).map (fun blk => (blk.helm.wait, joinDone blk.ctxs[(1 : Fin 4)])) = some (.join 1, false) := by
  and_intros <;> decide +kernel

/-! ### Engine streams -/

/-- An operation of k1 with rows left, and one without. -/
def opRows : EngOp := mkOp 0 none none none [.raw 0x20000 0x20100 4]
def opDone : EngOp := { mkOp 0 none none none [] with n := 1 }

/-- A descriptor at 0x20100: rows of 4 bytes, 2 of them, in 1 plane, 16 apart, from 0x20200 to 0x20300; list or pattern at
0x20400, fill width 4, slots of INT8 3 (R300). -/
def descE : Nat := 0x20200 + 0x20300 * 2 ^ 64 + 4 * 2 ^ 128 + 2 * 2 ^ 160 + 2 ^ 176 + 16 * 2 ^ 192 + 16 * 2 ^ 224 +
  (3 * 2 ^ 140 + 2 * 2 ^ 144 + 0x20400 * 2 ^ 192) * 2 ^ 256

/-- The copy and the matrix stream with that descriptor's address in p0. -/
def engines (k : Fin 4) (s : State) : State :=
  let s1 := modStream (pages s) 0 k fun st => { st with params := ((st.params.set 0 0x20100).set 1 0x20040).set 2 0x20500 }
  { s1 with mem := put s1.mem 0x20100 64 descE }
def sE : State := engines 1 sC
def kE : SCtx := sk sE (by decide +kernel)
def aE : EAgent := opAgent sE kE.b kE.k (mkOp kE.st.pc none none none []) kE.blk
def sBusy : State := modEng sE 0 1 fun e => { e with issued := 1, ops := [{ opRows with n := 1 }] }
def kBusy : SCtx := sk sBusy (by decide +kernel)

theorem test_engine_stream_issues : StreamIssues sE kE true := ⟨sk_spec _ _, by decide +kernel⟩

/-- An operation whose row writes what opRows reads; the operation as it starts; one whose row met a missing page; one whose
descriptor's address is misaligned. -/
def opA : EngOp := { mkOp 0 none none none [.raw 0x20200 0x20000 4] with n := 1, started := true, dsts := [(0x20000, 4)] }
def opStarts : EngOp := (okOf (starting sBusy aE { opRows with n := 2 }) (by decide +kernel)).1
def opMiss : EngOp := { opA with rows := opA.rows.map fun r => { r with missed := true } }
def opBad : EngOp := mkOp 0 none none none [.plan .cpy 0x20101 0]
def sOps : State := modEng sE 0 1 fun e => { e with issued := 1, ops := [opDone] }

theorem test_meets_operations :
    (opDone.rows = [] ∧ opDone.fill = none) ∧ opRows.started = false ∧ kBusy.blk.status = .resident ∧
    mayStart sBusy aE kBusy.e { opRows with n := 1 } = true ∧ (starting sBusy aE { opRows with n := 1 }).toOption.isSome = true ∧
    opsMeet sBusy aE opA opStarts = true ∧ opA.n < 2 ∧ opA.started = true ∧
    mayStart sBusy aE { kBusy.e with ops := [opA] } { opRows with n := 2 } = false ∧ (∀ o ∈ kBusy.e.ops, o.n ≤ kBusy.e.issued) ∧
    (∃ o ∈ [opMiss], o.n ≠ 2 ∧ ∃ r ∈ o.rows, r.missed = true) ∧
    (match starting sBusy aE opBad with | .error (.fault r) => r.code = .misaligned | _ => false) = true ∧
    (0x20000, 4) ∈ opA.dsts ∧ (0x20000, 4) ∈ opSrcs sBusy aE opStarts ∧ rangesMeet (0x20000, 4) (0x20000, 4) = true ∧
    (∃ p ∈ Sys2Proof.Machine.placesOf sBusy aE .engW (0x20000, 4), locsMeet p.1 p.2 p.1 p.2 = true) ∧
    kBusy.e.ops.find? (·.n = 1) = some { opRows with n := 1 } ∧ opRows.rows ≠ [] ∧
    ((sOps.blocks[0]?).map fun blk => blk.ctxs[(1 : Fin 4)].ops.find? (·.n = 1)) = some (some opDone) ∧
    opFabs sOps 0 1 1 = false ∧ (∀ o ∈ [opDone], ∀ p ∈ [opDone], o.n ≤ p.n) := by
  and_intros <;> decide +kernel

def dE : CDesc := okOf (readDesc sE aE 0x20100) (by decide +kernel)

/-- The descriptor reads as it was written (R300). -/
theorem test_descriptor :
    (dE.src, dE.dst, dE.rowlen, dE.rows, dE.planes) = (0x20200, 0x20300, 4, 2, 1) ∧ (dE.ss, dE.ds) = (16, 16) ∧
    dE.ver = none ∧ (dE.redop, dE.slotfmt, dE.fillw, dE.aux) = (0, 3, 2, 0x20400) := by
  and_intros <;> decide +kernel

theorem test_meets_copies :
    kE.st.params[(0 : Fin 64)].toNat % 2 ^ 56 = 0x20100 ∧ planRow opBad = some (.cpy, 0x20101, 0) ∧ readDesc sE aE 0x20100 = .ok dE ∧
    dE.rowlen ≠ 0 ∧ (match readDesc sE aE 0x20101 with | .error _ => true | .ok _ => false) = true ∧
    ((readDesc sE aE 0x20580).toOption.map (·.rowlen)) = some 0 ∧
    (preCheck sE aE [.raw (dE.src' 0) (dE.dst' 0) dE.rowlen]).toOption.isSome = true ∧ dE.rows ≠ 0 ∧
    (indexList sE aE dE).toOption = some [0, 0] ∧
    ((originAt sE aE (dE.src' 0) 16 dE.rows dE.rowlen).toOption.map (·.plain)) = some true ∧ dE.slotfmt = 3 ∧ dE.rows ≤ 128 ∧
    dE.rowlen ≤ slotK 3 ∧ dE.planes ≠ 0 ∧ (0 ≤ dE.ss ∧ dE.ss < 2 ^ 24) :=
  ⟨by decide +kernel, by decide +kernel, okOf_spec _ _, by and_intros <;> decide +kernel⟩

theorem test_meets_reductions_and_fills :
    dE.ver = none ∧ dE.redop ≤ 3 ∧ dE.rowlen % 4 = 0 ∧ dE.src' 0 % 4 = 0 ∧ dE.dst' 0 % 4 = 0 ∧ dE.ss % 4 = 0 ∧ dE.ds % 4 = 0 ∧
    dE.sps % 4 = 0 ∧ dE.dps % 4 = 0 ∧ dE.rowlen % 2 ^ dE.fillw = 0 ∧ dE.dst' 0 % 2 ^ dE.fillw = 0 ∧
    dE.ds % (2 : Int) ^ dE.fillw = 0 ∧ dE.dps % (2 : Int) ^ dE.fillw = 0 := by
  and_intros <;> decide +kernel

theorem test_meets_plain_rows :
    sE.homesWf = true ∧ 0 < 4 ∧ 0x2FFFC % 65536 + 4 ≤ 65536 ∧ 0x2FFFC < Config.vaLimit ∧ inSpan 0x2FFFC = false ∧
    ((pageOf sE aE.who aE.ctx .engR 0x2FFFC).toOption.map fun p => (p.fmt, p.tier)) = some (0, false) ∧
    ((pageOf sE aE.who aE.ctx .engW 0x2FFFC).toOption.map fun p => (p.fmt, p.tier, p.mig)) = some (0, false, false) ∧
    sE.badGranules = [] := by
  and_intros <;> decide +kernel

/-- TGATH of the warp: its rows at pair 4, its destination at pair 5, 4 bytes; with k1 idle, busy, and waiting for it. -/
def sAbusy : State := modEng sA 0 1 fun e => { e with issued := 1, ops := [{ opRows with n := 1 }] }
def rowsA : List (Nat × Nat × Nat) := okOf (gatherRows kA two 4 0x20040 4 false) (by decide +kernel)
def sGw (s : State) : State := modGang s 0 0 0 fun g => { g with wait := .tgath 20 two rowsA 0x20040 4 }

theorem test_meets_gathers :
    readPairUni kA two 5 = .ok 0x20040 ∧ readUni kA two (.int 4) = .ok 4 ∧ rowsA = [(0, 0x20000, 0x20040), (2, 0x20020, 0x20048)] ∧
    engIdle kA.blk.ctxs[(1 : Fin 4)] = true ∧ linesHeld (modGangs kA.wp kA.g.gid fun g => { g with takes := linesFor kA.wp (.v 20 .w) [] 2 false two }) ≤ kA.wp.gmax ∧
    0 < linesHeld (modGangs { kA.wp with gmax := 0 } kA.g.gid fun g =>
      { g with takes := linesFor kA.wp (.v 20 .w) [] 2 false two }) ∧
    engIdle (gk sAbusy (by decide +kernel)).blk.ctxs[(1 : Fin 4)] = false ∧ 256 ≤ kA.wp.gmax ∧
    ((gangOf (sGw sA) (.gang 0 0 0)).map fun k => engIdle k.blk.ctxs[(1 : Fin 4)]) = some true ∧
    ((gangOf (sGw sAbusy) (.gang 0 0 0)).map fun k => engIdle k.blk.ctxs[(1 : Fin 4)]) = some false ∧
    readV kA two 8 = .ok (.a 0x20000 16) ∧ readV kA two 9 = .ok (.u 0) := by
  and_intros <;> decide +kernel

/-- A gather whose first lane lies past the addresses, one whose address is misaligned, and one whose length in a register is bad. -/
theorem test_meets_failing_gathers :
    lanesOf two = [] ++ 0 :: [2] ∧ readV kA two 22 = .ok (.a 0x2FFF0 8) ∧ readV kA two 23 = .ok (.u 0) ∧
    (pairLane (.a 0x2FFF0 8) (.u 0) 0).toNat % 4 = 0 ∧ (pairLane (.a 0x2FFF0 8) (.u 0) 0).toNat < Config.vaLimit ∧
    Config.vaLimit ≤ (pairLane (.u 0) (.u 0x01000000) 0).toNat ∧ (pairLane (.u 2) (.u 0) 0).toNat % 4 ≠ 0 ∧
    (readUni kA two (.v 8 .w)).toOption = none ∧ readUni kA two (.v 9 .w) = .ok 0 := by
  and_intros <;> decide +kernel

/-- A copy stream that has arrived at barrier 1; and waiting at a barrier and for a word. -/
def sEb : State := modBlock sE 0 fun blk => { blk with
  bars := blk.bars.set 1 { phase := 0, count := 2, arrived := 1 }, arrivals := [(.stream 1, 1, 0)] }
def kEb : SCtx := sk sEb (by decide +kernel)
def sEw (w : SWait) : State := modStream sEb 0 1 fun st => { st with wait := w }

theorem test_meets_stream_signals :
    engDrained kBusy.e = false ∧ engDrained kE.e = true ∧ poisonAt sE (.dev 0x20040) 8 = false ∧
    arrive kEb.blk (.stream 1) 1 3 = none ∧ poisonAt { sE with badGranules := [0x20040 / 32] } (.dev 0x20040) 8 = true ∧
    (∀ f ∈ [AccForm.atom, .watch], (match checkAcc sE (some kE.blk.core) kE.blk.ctx f false .b64 (0x30000 : Nat) with
      | .ok c => isFab c.acc.loc | .error _ => false) = true) ∧
    (arrive kE.blk (.stream kE.k) 1 2).isSome = true ∧
    (∀ f ∈ [AccForm.atom, .watch], checkAcc sE (some kE.blk.core) kE.blk.ctx f false .b64 (kE.st.params[(1 : Fin 64)].toNat % 2 ^ 56 : Nat) =
      .ok { acc := { lane := 0, ea := 0x20040, loc := .dev 0x20040, els := [] }, held := false }) ∧
    waitPhase kEb.blk (.stream kEb.k) 1 = some (0, false) ∧ cwaitRead sE (.dev 0x20040) .eq 0 = some true ∧
    cwaitRead sE (.dev 0x20040) .ne 0 = some false ∧
    ((streamOf (sEw (.bar 1 0)) (.stream 0 1)).map fun x => (x.st.wait, phaseDone x.blk 1 0)) = some (.bar 1 0, false) ∧
    ((streamOf (sEw (.sig (.dev 0x20040) .eq 0)) (.stream 0 1)).map fun x => x.st.wait) = some (.sig (.dev 0x20040) .eq 0) := by
  and_intros <;> decide +kernel

/-- A loop level whose body ends at the stream's PC. -/
def lv (left : Nat) (last : Word) : Loop := { trip := 3, left := left, first := 0, last := last, ctr := .none }
def stOf (ls : List Loop) : Stream := { kE.st with loops := ls }

theorem test_meets_loops :
    kE.st.loops = [] ∧ (openLoop kE.st 2 3 .none).toOption.isSome = true ∧ 2 ^ 32 - 1 < 2 ^ 32 ∧ (openLoop kM.st 0 3 .colb).toOption.isSome = true ∧
    (stOf [lv 1 9, lv 1 9, lv 1 9, lv 1 9]).loops.length = 4 ∧
    (∀ l ∈ [lv 1 9, lv 1 9, lv 1 9, lv 1 9], kE.st.pc.toNat + 9 ≤ l.last.toNat) ∧ (lv 2 0).last = kE.st.pc ∧
    (lv 2 0).ctr = .none ∧ 1 < (lv 2 0).left ∧ (lv 1 0).left ≤ 1 ∧ (∀ l ∈ [lv 2 9], l.last ≠ kE.st.pc) := by
  and_intros <;> decide +kernel

/-! ### The matrix stream -/

/-- A slot that block 0 has filled with rows of E4M3, and an FP tile of block 0. -/
def slotF (fmt : BitVec 4) : Slot := { owner := some 0, filled := true, origin := { Origin.none with fmt := fmt, rv := 1, kv := 1 } }
def tileF (mode : TMode) : Tile := { owner := some 0, mode := mode, sR := [], sC := [] }

/-- The matrix stream holding a claim of slots 0 to 3 and tiles 0 and 1, tile 2 another block's. -/
def sMM : State :=
  let s := engines 0 sM
  let s1 := modCore s 0 fun c => { c with
    slots := (((c.slots.set 0 (slotF 3)).set 1 (slotF 3)).set 2 (slotF 3)).set 3 (slotF 3)
    tiles := ((c.tiles.set 0 (tileF .fp)).set 1 (tileF .fp)).set 2 { tileF .fp with owner := some 5 } }
  modBlock s1 0 fun blk => { blk with claim := some { slots := [0, 1, 2, 3], tiles := [0, 1] } }
def kMM : SCtx := sk sMM (by decide +kernel)
/-- The same stream under a grant of every format, and waiting for a claim or a grant. -/
def sMg : State := modStream sMM 0 0 fun st => { st with granted := some 0x1FF, profile := 0x1FF }
def kMg : SCtx := sk sMg (by decide +kernel)
def sMw (w : SWait) (s : State) : State := modStream { s with matrixReqs := [0] } 0 0 fun st => { st with wait := w }

theorem test_matrix_stream_holds_and_issues : StreamIssues sMM kMM false ∧ StreamIssues sMg kMg false :=
  ⟨⟨sk_spec _ _, by decide +kernel⟩, ⟨sk_spec _ _, by decide +kernel⟩⟩

theorem test_meets_claims :
    kM.blk.claim = none ∧ claimFree (coreOf sM kM) 0 0 64 48 = true ∧ claimFree (coreOf sMM kM) 2 60 4 1 = false ∧
    kMM.blk.claim ≠ none ∧ engDrained kMM.e = true ∧
    (∀ x ∈ rangeFrom 0 4, ((coreOf sMM kMM).slots[Fin.ofNat 64 x]).owner = some kMM.b) ∧
    (∀ x ∈ rangeFrom 0 2, ((coreOf sMM kMM).tiles[Fin.ofNat 48 x]).owner = some kMM.b) ∧
    ((coreOf sMM kMM).slots[Fin.ofNat 64 4]).owner ≠ some kMM.b ∧ 4 ∈ rangeFrom 4 1 ∧
    ((streamOf (sMw (.claim 0 0 64 48) sM) (.stream 0 0)).map fun k => claimFree (coreOf (sMw (.claim 0 0 64 48) sM) k) 0 0 64 48) =
      some true ∧ 0 + 64 ≤ 64 ∧ 0 + 48 ≤ 48 := by
  and_intros <;> decide +kernel

theorem test_meets_matrix_products :
    engIdle kMg.e = true ∧ mmaCheck (coreOf sMg kMg) kMg.b 0 0 1 .fp8 = none ∧ kMg.st.granted = some 0x1FF ∧
    grants 0x1FF (kindBit (coreOf sMg kMg) 0 1 .fp8) = true ∧ mmaCheck (coreOf sMg kMg) kMg.b 2 0 1 .fp8 = some .slotState ∧
    kMM.st.granted = none ∧ mmaCheck (coreOf sMM kMM) kMM.b 0 0 1 .fp8 = none ∧
    maccCheck (coreOf sMg kMg) kMg.b 0 1 = none ∧ holdsTile (coreOf sMg kMg) kMg.b 0 = true ∧
    holdsTile (coreOf sMg kMg) kMg.b 2 = false ∧ mmagCheck (coreOf sMg kMg) kMg.b 0 0 = none ∧
    maccCheck (coreOf sMg kMg) kMg.b 2 1 = some .slotState ∧ mmagCheck (coreOf sMg kMg) kMg.b 2 0 = some .slotState ∧
    kMg.st.params[(1 : Fin 64)].toNat % 256 ≠ 0 ∧ (coreOf sMg kMg).tiles[(1 : Fin 48)].mode ≠ .empty ∧
    (coreOf sMg kMg).tiles[(0 : Fin 48)].mode = .fp := by
  and_intros <;> decide +kernel

/-- A profile that names the kind for a stream without a grant; MMAG's table and list are aligned, and the list is read. -/
def sMprof : State := modStream sMM 0 0 fun st => { st with profile := 1, params := (st.params.set 4 0x20040).set 5 0x20500 }
def kMprof : SCtx := sk sMprof (by decide +kernel)

theorem test_meets_mmag :
    grants kMprof.st.profile (kindBit (coreOf sMprof kMprof) 0 1 .fp8) = true ∧
    kMprof.st.params[(4 : Fin 64)].toNat % 64 = 0 ∧ kMprof.st.params[Fin.ofNat 64 (4 + 1)].toNat % 256 = 0 ∧
    pairMissing (coreOf sMprof kMprof) kMprof.b 2 [0] = false ∧ pairMissing (coreOf sMprof kMprof) kMprof.b 5 [0] = true ∧
    (engBytes sMprof (opAgent sMprof kMprof.b kMprof.k (mkOp kMprof.st.pc none none none []) kMprof.blk) .engR
      ((kMprof.st.params[Fin.ofNat 64 (4 + 1)].toNat + 256 * kMprof.st.rowb.toNat) % 2 ^ 56) 256).toOption.isSome = true := by
  and_intros <;> decide +kernel

theorem test_meets_product_elements : (coreOf sMg kMg).memWf = true ∧ 127 < 128 ∧ (1 : Fin 48) ≠ 0 := by decide +kernel

def aM : EAgent := opAgent sMM kMM.b kMM.k (mkOp kMM.st.pc none none none []) kMM.blk
def dM : CDesc := okOf (readDesc sMM aM 0x20100) (by decide +kernel)
def sMb : State := modBlock sMM 0 fun blk => { blk with
  bars := blk.bars.set 1 { phase := 0, count := 2, arrived := 1 }, arrivals := [(.stream 0, 1, 0)] }

theorem test_meets_matrix_stores_barriers_grants :
    holdsTile (coreOf sMM kMM) kMM.b 0 = true ∧ 0 ∉ (coreOf sMM kMM).badTiles ∧
    kMM.st.params[(0 : Fin 64)].toNat % 2 ^ 56 = 0x20100 ∧ readDesc sMM aM 0x20100 = .ok dM ∧ (1 ≤ dM.rows ∧ dM.rows ≤ 128 ∧ 1 ≤ dM.rowlen ∧ dM.rowlen ≤ 128) ∧
    storeCheck sMM aM (storeRows dM (passIndex kMM.st)) dM.rowlen .f32 = none ∧
    (arrive kMM.blk (.stream kMM.k) 1 2).isSome = true ∧
    waitPhase (sk sMb (by decide +kernel)).blk (.stream 0) 1 = some (0, false) ∧
    ((streamOf (sMw (.bar 1 0) sMb) (.stream 0 0)).map fun k => k.st.wait) = some (.bar 1 0) ∧ sMM.matrixReqs.head? ≠ some 0 ∧
    (sMw (.grant 3) sMM).matrixReqs.head? = some 0 ∧
    powerFits (giveGrant (sMw (.grant 1) sMM) 0) 0 0 0 = true ∧
    powerFits (giveGrant (sMw (.grant 1) { sMM with pwrBudget := 0 }) 0) 0 0 0 = false ∧
    ((streamOf (sMw (.grant 3) sMM) (.stream 0 0)).map fun k => k.st.wait) = some (.grant 3) :=
  ⟨by decide +kernel, by decide +kernel, by decide +kernel, okOf_spec _ _, by and_intros <;> decide +kernel⟩

/-- An image of no open level at 0x20040 (R291), and a place for one. -/
def sImg : State := { sMM with mem := memWrite sMM.mem 0x20040 (loopImage kMM.st) }
def kImg : SCtx := sk sImg (by decide +kernel)
def aImg : EAgent := opAgent sImg kImg.b kImg.k (mkOp kImg.st.pc none none none []) kImg.blk
def rsImg : List Run := okOf (imageRuns sImg aImg .engR kImg.st.params[(1 : Fin 64)].toNat) (by decide +kernel)

theorem test_meets_matrix_state :
    kImg.st.params[(1 : Fin 64)].toNat % 64 = 0 ∧
    ((imageRuns sImg aImg .engW kImg.st.params[(1 : Fin 64)].toNat).toOption.map fun rs =>
      (needWritable sImg aImg none rs).toOption.isSome) = some true ∧
    (∀ r ∈ rsImg, poisonAt sImg r.loc r.bytes = false) ∧
    imageOk (wordsOf (rsImg.flatMap fun r => readLoc sImg r.loc r.bytes)) = true ∧
    imageOk (wordsOf (List.replicate 64 0)) = false ∧ (levelsOf sImg kImg [] 0).toOption.isSome = true ∧ kImg.st.loops.length ≤ 4 := by
  and_intros <;> decide +kernel

/-! ### Faults and their containment -/

/-- The kernel with policies of its warps and blocks, and how often its warp and block have been retried. -/
def policies (wp bk : BitVec 2) (n : Nat) (s : State) : State :=
  modBlock (modNode s 0 fun nd => { nd with kd := { nd.kd with polwp := wp, polbk := bk } }) 0 fun blk =>
    { blk with warpRetries := [(0, n)], retries := n }

/-- UNCORRECTABLE of lane 0 of the issuing party. -/
def fOf (s : State) : FRec := faultOf s s.cur (raise .uncorrectable (some 0))

/-- Whether a fault of the issuing party meets what the statements ask of it: the node's policy, and the level's count. -/
def meetsFault (s : State) (lv : Nat) (wp bk : BitVec 2) (n : Nat) : Bool :=
  match s.nodes[0]? with
  | none => false
  | some nd =>
    nd.kd.polwp == wp && nd.kd.polbk == bk && levelEnded s (fOf s) lv == false && retriesAt s (fOf s) lv == n

theorem test_meets_gang_faults :
    meetsFault (policies 0 2 0 sA) 0 0 2 0 = true ∧ meetsFault (policies 1 2 2 sA) 0 1 2 2 = true ∧
    meetsFault (policies 1 2 3 sA) 0 1 2 3 = true ∧ meetsFault sA 0 2 2 0 = true ∧
    meetsFault (policies 3 2 0 sA) 0 3 2 0 = true ∧ kA.blk.node = 0 ∧
    (endWarp (policies 3 2 0 sA) 0 0).nodes[0]? = (policies 3 2 0 sA).nodes[0]? ∧
    ¬ Administrative (raise .uncorrectable (some 0)) :=
  ⟨by decide +kernel, by decide +kernel, by decide +kernel, by decide +kernel, by decide +kernel, by decide +kernel,
   by decide +kernel, by unfold Administrative raise; decide +kernel⟩

theorem test_meets_helm_and_stream_faults :
    meetsFault (policies 2 0 0 sHA) 1 2 0 0 = true ∧ meetsFault (policies 2 1 3 sHA) 1 2 1 3 = true ∧
    meetsFault sHA 1 2 2 0 = true ∧ meetsFault (policies 2 0 0 sE) 1 2 0 0 = true ∧
    meetsFault (policies 2 1 3 sE) 1 2 1 3 = true ∧ meetsFault sE 1 2 2 0 = true ∧ kHA.blk.node = 0 ∧ kE.blk.node = 0 := by
  and_intros <;> decide +kernel

/-- A fault log of 2^4 slots at 0x20800, whose index is 17. -/
def sLog : State :=
  let s := modCtx sA 0 fun c => { c with flogBase := 0x20800, flogSize := 4 }
  { s with mem := memWrite s.mem 0x20800 [17] }

theorem test_meets_fault_log :
    sLog.ctxs[(0 : Fin 64)].flogBase.toNat = 0x20800 ∧ 4 ≤ sLog.ctxs[(0 : Fin 64)].flogSize.toNat ∧
    sA.ctxs[(0 : Fin 64)].flogSize.toNat < 4 ∧ memNat sLog.mem 0x20800 8 = 17 ∧ Memory.wf sLog.mem = true := by decide +kernel

/-- The record goes into slot 1 of 16, and the index rises to 18 (R415). -/
theorem test_fault_log_wraps :
    memNat (logFault sLog 0 fun n => n).mem (0x20800 + 128 + 128) 8 = 17 ∧ memNat (logFault sLog 0 fun n => n).mem 0x20800 8 = 18 := by
  decide +kernel

/-- A watchdog of 2^10 core-cycles: a gang and a helm at the limit, and one below. -/
def watch (s : State) : State := modNode s 0 fun nd => { nd with wdlog := 10 }
def sWd (n : Word64) : State := modGang (watch sA) 0 0 0 fun g => { g with wd := n }
def sHwd (n : Word64) : State := modHelm (watch sHA) 0 fun h => { h with wd := n }

theorem test_meets_watchdog :
    ((watch sA).nodes[0]?.map Limit) = some 1024 ∧ 1024 ≤ (gk (sWd 1024) (by decide +kernel)).g.wd.toNat ∧
    ¬ 1024 ≤ (gk (sWd 1023) (by decide +kernel)).g.wd.toNat ∧ 1024 ≤ (hk (sHwd 1024) (by decide +kernel)).blk.helm.wd.toNat ∧
    ¬ 1024 ≤ (hk (sHwd 1023) (by decide +kernel)).blk.helm.wd.toNat := by
  and_intros <;> decide +kernel

/-- Reports of a store of the warp and of one of the helm. -/
def rep (p : Party) : Report := { party := p, warp := 0, pc := 0, incarnation := 0, cause := 0, addr := 0x20000, node := 0 }
def sRep : State := { sA with
  reports := [rep (.gang 0 0 0), rep (.helm 0), { rep (.helm 0) with flush := some (.gang 0 0 0) }] }

theorem test_meets_reports :
    sRep.reports[0]? = some (rep (.gang 0 0 0)) ∧ sRep.reports[1]? = some (rep (.helm 0)) ∧
    reportWarp sRep (rep (.gang 0 0 0)) = true ∧ reportWarp sRep (rep (.helm 0)) = false ∧
    sRep.reports[2]? = some { rep (.helm 0) with flush := some (.gang 0 0 0) } ∧
    reportWarp sRep { rep (.helm 0) with flush := some (.gang 0 0 0) } = true ∧ sRep.cur = .gang 0 0 0 ∧
    (∀ g, ({ sRep with cur := .helm 0 } : State).cur ≠ .gang 0 0 g) :=
  ⟨by decide +kernel, by decide +kernel, by decide +kernel, by decide +kernel, by decide +kernel, by decide +kernel, rfl,
   fun _ h => (nomatch h)⟩

theorem test_meets_poison_marks :
    sA.blocks[kA.b]? = some kA.blk ∧ kA.blk.warps[kA.w]? = some kA.wp ∧ (0x20021 / 32 ≠ 0x20000 / 32) ∧
    (storageEvent sA 0 (.granule 0x20021)).isSome = true :=
  ⟨(gang_block (gk_spec _ _)).1, (gang_block (gk_spec _ _)).2, by decide, by decide +kernel⟩

/-- The gang in its continuation, with each STATUS. -/
def sCont (got : Nat) : State := modGang sA 0 0 0 fun g =>
  { g with contSave := some { latch := reg (.u 1), preds := kA.wp.preds, pc := 3, va := 0x90000, lane := 2, got := got } }

theorem test_meets_fresume :
    kA.g.contSave = none ∧
    ([0, 1, 2].map fun n => ((gangOf (sCont n) (.gang 0 0 0)).bind fun k => k.g.contSave.map fun v => v.got)) =
      [some 0, some 1, some 2] := by
  and_intros <;> decide +kernel

/-! ### Packets -/

/-- A packet: its first eight bytes, and values at bytes of it (R331). -/
def pkt (head : Nat) (l : List (Nat × Nat)) : Nat := l.foldl (fun p x => p + x.2 * 256 ^ x.1) head

/-- Queue 3 of context 0: descriptor at 0xA000, ring of 2^4 packets at 0x21000, write index at 0x22000. -/
def q0 : Queue :=
  { qid := 3, desc := 0xA000, ctx := 0, level := 0, sizelog := 4, quantum := 4096, ring := 0x21000, widx := 0x22000, next := 0,
    readIdx := 0, observed := 3, err := 0, holding := false, flights := [], resident := true, since := 0, deficit := 0,
    turn := false, selected := none, selectedAt := 0, reserved := [], closing := false, stalled := none, fatal := none }

/-- The kernel descriptor at 0x23000 (R186): one block's warp of eight slices, code at 0x10000. -/
def kdescE : Nat := 2 ^ 15 + 2 * 2 ^ 20 + 0x10000 * 2 ^ 64 + 2 ^ 128 * (2 ^ 16 * (2 + 2 * 4 + 2 * 16)) + (1 + 64 * 256) * 2 ^ 32 * 2 ^ 256

/-- A graph record at 0x24000 (R348): one COPY node, whose record follows it. -/
def graphE (policy : Nat) : Nat := 0x24040 + 2 ^ 64 + policy * 2 ^ 96
def copyRecE : Nat := pkt (3 * 2 ^ 16) [(24, 0x20000), (32, 0x20100), (40, 8)]

/-- The kernel with queue q registered, whose next packet is p. -/
def queued (q : Queue) (p : Nat) (s : State) : State :=
  let m1 := put (put s.mem 0xA027 1 1) 0x21000 64 p
  let m2 := put (put m1 0x23000 64 kdescE) 0x24000 64 (graphE 2)
  { s with queues := [q], mem := put m2 0x24040 64 copyRecE }

/-- Whether queue q reaches packet p: it is registered, may start, reads it, and no COPY node goes before. -/
def reachesPkt (s : State) (q : Queue) (p : Nat) : Bool :=
  getQueue s q.qid == some q && canStart s q && readyCopy s q.qid == none &&
    (match fetchPacket s q with | .ok x => x == p | .error _ => false)

theorem reached_of {s : State} {q : Queue} {t p : Nat} (ht : t ≤ 6) (h : reachesPkt s q p = true) : PacketReached s q t p := by
  simp only [reachesPkt, Bool.and_eq_true, beq_iff_eq] at h
  obtain ⟨⟨⟨h1, h2⟩, h3⟩, h4⟩ := h
  refine ⟨h1, ht, fun _ => h3, h2, ?_⟩
  split at h4
  · rename_i x hx
    rw [hx, beq_iff_eq.mp h4]
  · exact absurd h4 (by simp)

theorem good_of {q : Queue} {t p : Nat} (ht : t ≤ 6)
    (h : (reachesPkt (queued q p sA) q p && !q.holding && pkType p == t && !malformed (queued q p sA) q p) = true) :
    PacketGood (queued q p sA) q t p := by
  simp only [Bool.and_eq_true, Bool.not_eq_true', beq_iff_eq] at h
  exact ⟨reached_of ht h.1.1.1, h.1.1.2, h.1.2, h.2⟩

def pNode : Nat := pkt 1 [(24, 0x23000), (32, 0x20000), (40, 2)]
def pNodeBad : Nat := pkt 1 [(24, 0x25000), (32, 0x20000), (40, 2)]
def pGraph : Nat := pkt 2 [(24, 0x24000)]
def pCopy : Nat := pkt 3 [(24, 0x20000), (32, 0x20100), (40, 8)]
def pCopySpan : Nat := pkt 3 [(24, Config.spanBase), (32, 0x20100), (40, 8)]
def pBarrier : Nat := pkt (4 + 2 * 2 ^ 16) [(24, 0x20080), (32, 0), (36, 8)]
def pSignal : Nat := pkt (5 + 2 ^ 20) [(24, 0x20080), (32, 7)]
def pXfer : Nat := pkt 6 [(32, 0), (40, 3), (42, 1)]

/-- A well-formed packet of each type is reached, and one that is not (R332 to R334). -/
theorem test_meets_packets :
    (∀ x ∈ [(0, 0), (1, pNode), (1, pNodeBad), (2, pGraph), (3, pCopy), (3, pCopySpan), (4, pBarrier), (4, 4), (5, pSignal),
      (6, pXfer)], PacketGood (queued q0 x.2 sA) q0 x.1 x.2) ∧
    PacketReached (queued q0 (2 ^ 22) sA) q0 0 (2 ^ 22) ∧ malformed (queued q0 (2 ^ 22) sA) q0 (2 ^ 22) = true := by
  refine ⟨fun x h => ?_, reached_of (by decide) (by decide +kernel), by decide +kernel⟩
  have good : ∀ x ∈ [(0, 0), (1, pNode), (1, pNodeBad), (2, pGraph), (3, pCopy), (3, pCopySpan), (4, pBarrier), (4, 4),
      (5, pSignal), (6, pXfer)], x.1 ≤ 6 ∧
      (reachesPkt (queued q0 x.2 sA) q0 x.2 && !q0.holding && pkType x.2 == x.1 && !malformed (queued q0 x.2 sA) q0 x.2) = true := by
    decide +kernel
  exact good_of (good x h).1 (good x h).2

/-- A queue that may not start; a holding queue with a packet without RESYNC and with it; one of another type (R335, R341). -/
theorem test_meets_starts :
    canStart (queued { q0 with observed := 0 } 0 sA) { q0 with observed := 0 } = false ∧
    PacketReached (queued { q0 with holding := true } 0 sA) { q0 with holding := true } 0 0 ∧ pkResync 0 = false ∧
    PacketReached (queued { q0 with holding := true } 32 sA) { q0 with holding := true } 0 32 ∧ pkResync 32 = true ∧
    pkType 0 ≠ 1 :=
  ⟨by decide +kernel, reached_of (by decide) (by decide +kernel), by decide +kernel, reached_of (by decide) (by decide +kernel),
   by decide +kernel, by decide +kernel⟩

theorem test_meets_node_and_graph_packets :
    (match checkLaunch (queued q0 pNode sA) 0 none pNode with | .ok kd di => kd.version == 0 && di == 0 | _ => false) = true ∧
    (match checkLaunch (queued q0 pNodeBad sA) 0 none pNodeBad with | .bad => true | _ => false) = true ∧
    (match hubRead (queued q0 pGraph sA) 0 none (pkB pGraph 24 8) 64 with | .ok bs => leNat bs == graphE 2 | _ => false) = true ∧
    (bitsOf (graphE 2) 98 414 = 0 ∧ bitsOf (graphE 2) 80 16 = 0 ∧ bitsOf (graphE 2) 64 16 ≠ 0 ∧ bitsOf (graphE 2) 0 64 % 64 = 0 ∧
      bitsOf (graphE 2) 56 8 = 0) ∧
    (match readRecs (queued q0 pGraph sA) 0 none 1 0x24040 1 [] none with | .ok rs => countsAgree rs | _ => false) = true ∧
    sA.counters + 1 ≤ 262144 ∧ bitsOf (graphE 2 + 2 ^ 98) 98 414 ≠ 0 := by
  and_intros <;> decide +kernel

/-- A ready COPY node of queue 3's graph; the row of a COPY between plain pages. -/
def sCopyNode : State :=
  { queued q0 0 sA with
    nodes := (queued q0 0 sA).nodes ++ ((queued q0 0 sA).nodes.map fun nd =>
      { nd with qid := 3, graph := some (0, 0), copy := some (copyJob copyRecE), status := .ready }) }

theorem test_meets_copy_packets :
    copySpan (copyJob pCopySpan) = true ∧ copySpan (copyJob pCopy) = false ∧ readyCopy sCopyNode 3 = some 1 ∧
    (match rawRow { sA with reports := [] } { who := none, ctx := 0, tag := noTag, b := none, why := fun _ => .copyNode 0 } none []
      (copyJob pCopy).row 0x20000 0x20100 8 with | .ok _ => true | .error _ => false) = true := by
  and_intros <;> decide +kernel

/-- The state after a SIGNAL has started. -/
def sSig : State := addFlight (queued q0 pSignal sA) q0 (newFlight (queued q0 pSignal sA) q0 pSignal (.signal .add 0x20080 7))
/-- Queue 3 with a started NODE, its node ready; version 1 of its code is loaded beside version 0. -/
def fN : Flight := newFlight sX q0 pNode (.node 0)
def qN : Queue := { q0 with flights := [fN], next := 1 }
def sXq (st : NStatus) : State := modNode (queued qN pXfer sX) 0 fun nd => { nd with status := st }

theorem test_meets_signal_and_xfer_packets :
    ((findFlight sSig 3 0).map fun x => x.2.kind) = some (.signal .add 0x20080 7) ∧
    (match hubPlace sSig 0 .atomic none 0x20080 with | .ok (.dev a) => a == 0x20080 | _ => false) = true ∧
    poisonAt sSig (.dev 0x20080) 8 = false ∧ startedNode (queued q0 pXfer sA) 3 0 = none ∧
    startedNode (sXq .ready) 3 0 = some 0 ∧ (loadedAs (sXq .ready) 0 0 1).isSome = true ∧ loadedAs (sXq .ready) 0 0 2 = none ∧
    ((sXq .ready).nodes[0]?.map (·.status)) = some .ready ∧ ((sXq .ended).nodes[0]?.map (·.status)) = some .ended := by
  and_intros <;> decide +kernel

/-- Write indices: one packet past the ring, the whole ring, one on no page; a queue that is not enabled (R330). -/
def sWidx (v : Nat) (q : Queue) : State := { queued q 0 sA with mem := memWrite (queued q 0 sA).mem 0x22000 (leBytes 8 v) }

theorem test_meets_write_indices :
    (match hubRead (sWidx 17 q0) 0 none 0x22000 8 with | .ok bs => leNat bs == 17 | _ => false) = true ∧
    (17 > q0.observed ∧ 17 > q0.readIdx + 2 ^ q0.sizelog) ∧ ¬(16 > q0.observed ∧ 16 > q0.readIdx + 2 ^ q0.sizelog) ∧
    qEnabled (sWidx 16 q0) q0 = true ∧ qEnabled sA q0 = false ∧
    (match hubRead sA 0 none Config.vaLimit 8 with | .bad => true | _ => false) = true ∧
    canStart (writeBounds (settlePlaces (modQueue (sWidx 3 { q0 with resident := false, observed := 3, next := 3 }) 3
      fun x => { x with observed := 3 })) 0) { q0 with resident := false, observed := 3, next := 3 } = false := by
  and_intros <;> decide +kernel

/-- A BARRIER of two signals at 0x20080 and 0x20088, which hold v and 0. -/
def fB : Flight := newFlight sA q0 pBarrier (.barrier [0x20080, 0x20088] [])
def qB : Queue := { q0 with flights := [fB], next := 1 }
def sBar (v : Nat) : State := { queued qB 0 sA with mem := memWrite (queued qB 0 sA).mem 0x20080 (leBytes 8 v) }

theorem test_meets_barriers :
    barrierSigs 4 = [] ∧ barrierSigs pBarrier = [0x20080, 0x20088] ∧ findFlight (sBar 5) 3 0 = some (qB, fB) ∧ evaluates fB = true ∧
    evaluates { fB with finished := true } = false ∧
    ([0x20080, 0x20088].map fun a => match readSig (sBar 5) 0 none none a with | .val v => v.toNat | _ => 9) = [5, 0] := by
  and_intros <;> decide +kernel

/-- What a round leaves: a negative signal aborts with code 1, all 0 completes, another waits (R339). -/
theorem test_barrier_rounds :
    ([2 ^ 64 - 1, 0, 5].map fun v => match exec (.barrierRound 3 0) (sBar v) with
      | .next t => (findFlight t 3 0).map fun x => (x.2.abort.toNat, x.2.finished) | _ => none) =
    [some (1, false), some (0, true), some (0, false)] := by decide +kernel

/-- A NOP that has completed, at each stage of its retirement, with a record at 0x20400 and a signal at 0x20080. -/
def fR (st : RStage) : Flight :=
  { newFlight sA q0 (pkt 0 [(8, 0x20080), (16, 0x20400)]) .nop with finished := true, stage := st }
def qR (st : RStage) : Queue := { q0 with flights := [fR st], next := 1 }
def sR (st : RStage) : State := queued (qR st) 0 sA

theorem test_meets_retirement :
    findFlight (sR .record) 3 0 = some (qR .record, fR .record) ∧ flightReady (sR .record) 3 (fR .record) = true ∧
    flightReady (sBar 5) 3 fB = false ∧ ((fR .record).creca, (fR .signal).csiga) = (0x20400, 0x20080) ∧
    (match hubPlace (sR .record) 0 .store none 0x20400 with | .ok (.dev a) => a == 0x20400 | _ => false) = true ∧
    (match hubPlace (sR .signal) 0 .atomic none 0x20080 with | .ok (.dev a) => a == 0x20080 | _ => false) = true ∧
    poisonAt (sR .signal) (.dev 0x20080) 8 = false ∧ ((fR .last).stage, (fR .last).failed) = (.last, false) ∧
    (qR .last).flights = [fR .last] ∧ (fR .last).idx = q0.readIdx := by
  and_intros <;> decide +kernel

/-- A graph of two nodes: the first has ended, the second waits for it twice. -/
def sGr (st : NStatus) (blocks : BStatus) : State :=
  let nds := sA.nodes.flatMap fun nd =>
    [{ nd with graph := some (0, 0), status := st, succ := [1, 1] }, { nd with graph := some (0, 1), status := .waiting, count := 2 }]
  let gr : Graph :=
    { ctx := 0, qid := 3, pidx := 0, policy := 2, nodes := [0, 1], retries := 0, ended := false, aborted := false,
      nfault := 0, summary := 0, first := none }
  { modBlock sA 0 (fun blk => { blk with status := blocks }) with
    nodes := nds
    graphs := [gr] }

theorem test_meets_graph_nodes :
    nodeSettled (sGr .ended .ended) 0 = true ∧ nodeSettled (sGr .ended .resident) 0 = false ∧
    ((sGr .ended .ended).nodes[0]?.map fun nd => (nd.graph, nd.status)) = some (some (0, 0), .ended) ∧
    ((sGr .ended .ended).graphs[0]?.map (·.aborted)) = some false ∧ graphOver (sGr .done .ended) 0 = false ∧
    graphOver { sGr .done .ended with graphs := (sGr .done .ended).graphs.map fun g => { g with nodes := [0] } } 0 = true := by
  and_intros <;> decide +kernel

/-- Node 1 becomes ready (R350). -/
theorem test_graph_counts_down :
    ((countDown (sGr .done .ended) [1, 1]).nodes[1]?.map fun nd => (nd.count, nd.status)) = some (0, .ready) ∧
    ((countDown (sGr .done .ended) [1]).nodes[1]?.map fun nd => (nd.count, nd.status)) = some (1, .waiting) := by decide +kernel

/-! ### The Pontoon -/

/-- The kernel with core 0 alone open to blocks, or none. -/
def openTo (n : Nat) (s : State) : State :=
  { s with cores := Vector.ofFn fun i : Fin 256 => if i.val < n then s.cores[i] else { s.cores[i] with takeover := some 0 } }

/-- Queue 3 with a ready node whose second block is still to be released. -/
def sRel (n : Nat) : State :=
  let s := openTo n (modNode sA 0 fun nd => { nd with qid := 3, status := .ready, next := 1, nblocks := 2 })
  { s with queues := [q0], levels := s.levels.set 0 { cap := 4096, floor := 0 } }
def s1R (n : Nat) : State := (serve (sRel n)).1
def ndR : Node := (s1R 1).nodes[0]?.get (by decide +kernel)
def coresR (n : Nat) : List (Fin 256) :=
  (List.finRange 256).filter fun c => coreOpen (s1R n) 3 c && (helmFit (s1R n) c ndR.kd.need).isSome
def sRelE : State := modBlock (sRel 1) 0 fun blk => { blk with status := .evicted true }

theorem test_meets_block_release :
    (serve sA).2 = none ∧ (serve (sRel 1)).2 = some 3 ∧ readyEvicted (s1R 1) 3 = none ∧
    ((nextBatch (s1R 1) 3).map fun b => (b.node, b.blocks)) = some (0, [(1, 0, 0)]) ∧
    chooseCores (s1R 1) ndR [1] (coresR 1) = some [0] ∧ (serve (sRel 0)).2 = some 3 ∧ readyEvicted (s1R 0) 3 = none ∧
    ((nextBatch (s1R 0) 3).map fun b => (b.node, b.blocks)) = some (0, [(1, 0, 0)]) ∧
    chooseCores (s1R 0) ndR [1] (coresR 0) = none ∧ (serve sRelE).2 = some 3 ∧ readyEvicted (serve sRelE).1 3 = some 0 ∧
    [(0 : Fin 256)].Nodup ∧ chooseCores (s1R 1) ndR [0, 1] [0, 255, 1] = some [1, 0] ∧
    ((selectedBatch (s1R 1) q0).map fun b => (b.node, b.blocks)) = some (0, [(1, 0, 0)]) ∧
    (getQueue (s1R 1) 3).isSome = true ∧ ndR.status = .ready ∧ ndR.next ≤ 1 ∧
    ((selectedBatch (s1R 1) { q0 with selected := some 0, pick := [(1, 0, 0)] }).map fun b => (b.node, b.blocks)) =
      some (0, [(1, 0, 0)]) := by
  and_intros <;> decide +kernel

/-- What a block needs that takes a core's whole slice of the span, on a core with a block and on an empty one. -/
def ndSpan : Node := { ndR with kd := { ndR.kd with span := 0x200000 } }

theorem test_meets_room :
    helmFit sA 0 ndSpan.kd.need = some 1 ∧ spanPlace sA 0 ndSpan.kd.span = some 0 ∧ helmFit sA 255 ndSpan.kd.need = some 0 ∧
    spanPlace sA 255 ndSpan.kd.span = some (255 * 0x200000) ∧ spanPlace sA 0 0x200001 = none := by
  and_intros <;> decide +kernel

/-- A block selected since moment 0, at moment n (R359). -/
def sSel (n : Nat) : State := { sRel 1 with now := n, queues := [{ q0 with selected := some 0 }] }
def sCh (n : Nat) : State := modBlock sA 0 fun blk => { blk with charge := n }

theorem test_meets_waits_and_charges :
    getQueue (sSel 16384) 3 = some { q0 with selected := some 0 } ∧ 256 * (16383 - 0) < 2 ^ 22 ∧ 2 ^ 22 ≤ 256 * (16384 - 0) ∧
    ((selectedBatch (sSel 16384) { q0 with selected := some 0 }).map fun b => (b.node, b.blocks)) = some (0, [(1, 0, 0)]) ∧
    chooseCores (sSel 16384) ndR [1] ((List.finRange 256).filter (coreOpen (sSel 16384) 3)) = some [0] ∧
    ((sCh (2 ^ 20 * chargeUnit)).blocks[0]?.map (·.charge)) = some (2 ^ 20 * chargeUnit) := by
  and_intros <;> decide +kernel

/-- The block at its end: helm and warps ended, no stream running. -/
def sEnd : State :=
  let s := modHelm (modWarp sA 0 0 fun wp => { wp with slices := wp.slices.map fun x => { x with live := false } }) 0
    fun h => { h with ended := true }
  modBlock s 0 fun blk => { blk with ctxs := blk.ctxs.map fun e => { e with stream := none } }

theorem test_meets_block_end :
    ((sEnd.blocks[0]?).map (mayEnd sEnd)) = some true ∧ mayEnd sA kA.blk = false ∧ sA.blocks[kA.b]? = some kA.blk :=
  ⟨by decide +kernel, by decide +kernel, (gang_block (gk_spec _ _)).1⟩

/-- The block stands still: its helm at its end, its warp at a barrier in phase 0 of bar, no stream running; the save pool
of n units. -/
def sStill (n : BitVec 24) (bar : Bar) : State :=
  let s := modHelm (modGang sA 0 0 0 fun g => { g with wait := .bar 1 0 }) 0 fun h => { h with ended := true }
  let s1 := modBlock s 0 fun blk => { blk with
    ctxs := blk.ctxs.map fun e => { e with stream := e.stream.map fun st => { st with running := false } }
    bars := blk.bars.set 1 bar }
  modCtx s1 0 fun c => { c with poolLen := BitVec.ofNat _ n.toNat }
def barOpen : Bar := { phase := 0, count := 2, arrived := 1 }
def barDone : Bar := { phase := 1, count := 0, arrived := 0 }
def bS : Block := (sStill 1 barOpen).blocks[0]?.get (by decide +kernel)

theorem test_meets_eviction :
    ((clusterMates (sStill 1 barOpen) 0).map (·.1)) = [0] ∧ (clusterMates (sStill 1 barOpen) 0).all
      (fun m => mayFreeze m.2) = true ∧
    poolUsed (sStill 1 barOpen) 0 + (sized (sStill 1 barOpen) 0 bS).size ≤ 65536 ∧
    mayFreeze kA.blk = false ∧ 0 < (sized (sStill 0 barOpen) 0 bS).size ∧ bS.buffer = [] ∧
    bS.status ≠ .saving ∧ (∀ wp ∈ bS.warps, wp.pend = []) ∧ bS.helm.pend = [] ∧
    blockRests (sStill 1 barOpen) 0 bS = true ∧ blockRests sBusy 0 kBusy.blk = false ∧ ((coreOf sMM kMM).slots[(0 : Fin 64)].owner, (coreOf sMM kMM).tiles[(0 : Fin 48)].owner) =
      (some 0, some 0) := by
  and_intros <;> decide +kernel

/-- The block evicted, its wake condition met or not; ready, in its queue's turn, with a pending load or none. -/
def sOut (bar : Bar) : State := modBlock (sStill 1 bar) 0 fun blk => { blk with status := .evicted false }
def sBack (ps : List Pend) : State := modWarp sRelE 0 0 fun wp => { wp with pend := ps }

theorem test_meets_wake_and_return :
    ((sOut barDone).blocks[0]?.map fun blk => (blk.status, blockWakes (sOut barDone) blk)) = some (.evicted false, true) ∧
    ((sOut barOpen).blocks[0]?.map fun blk => (blk.status, blockWakes (sOut barOpen) blk)) = some (.evicted false, false) ∧
    (serve (sBack [])).2 = some 3 ∧ readyEvicted (serve (sBack [])).1 3 = some 0 ∧
    ((sBack []).blocks[0]?.map (queueOfBlock (sBack []))) = some 3 ∧
    (clusterMates (serve (sBack [])).1 0).all (fun m => mayRestore (serve (sBack [])).1 m.2) = true ∧
    (serve (sBack [pL])).2 = some 3 ∧ readyEvicted (serve (sBack [pL])).1 3 = some 0 ∧
    (clusterMates (serve (sBack [pL])).1 0).all (fun m => mayRestore (serve (sBack [pL])).1 m.2) = false ∧
    (serve (sRel 1)).2 = some 3 ∧ readyEvicted (s1R 1) 3 ≠ some 0 ∧ (serve sA).2 = none ∧
    ((modBlock (sOut barOpen) 0 fun blk => { blk with woken := true }).blocks[0]?.map (·.woken)) = some true := by
  and_intros <;> decide +kernel

def imS : Image :=
  { imageOf Core.reset 0 with slots := [(0, slotF 3), (63, slotF 3)], tiles := [(47, tileF .fp)] }

theorem test_meets_image :
    (imS.slots.map (·.1)).Nodup ∧ (imS.tiles.map (·.1)).Nodup ∧ (∀ x ∈ imS.slots, x.1 < 64) ∧ ∀ x ∈ imS.tiles, x.1 < 48 := by
  decide +kernel

/-- A load of v1 from fabric memory by lane 0 that is outstanding, of a block on its core and of an evicted one. -/
def accF : LaneAcc := { lane := 0, ea := 0x30000, loc := .fab 0 0 0x30000, els := [] }
def pF : Pend := { pL with accs := [accF] }
def opF : FabOp := { id := 4, loc := accF.loc, kind := .read 4, why := .load 0 0 7 0 }
def sFab : State := { modWarp sA 0 0 fun wp => { wp with pend := [pF] } with fabOps := [opF] }
def sFabE : State := modBlock sFab 0 fun blk => { blk with status := .evicted false }

theorem test_meets_fabric_loads :
    sFab.fabOps.find? (·.id = 4) = some opF ∧ (∀ v, mergeAgain opF v = none) ∧ isEvicted sFab 0 = false ∧ isEvicted sFabE 0 = true ∧
    findPend (modPend { sFabE with fabOps := [] } 0 0 7 (takeData 0 (returned opF [1, 2, 3, 4]))) 7 =
      some (0, 0, takeData 0 [1, 2, 3, 4] pF) ∧ pendReady (takeData 0 [1, 2, 3, 4] pF) = true :=
  ⟨by decide +kernel, fun _ => rfl, by and_intros <;> decide +kernel⟩

/-! ### Pages and the fabric -/

/-- A record for the page at 0x90000, written by die 0's MMU. -/
def recS (n : Option Nat) : RingRec := { ctx := 0, die := some 0, n := n, vpage := 0x90000, kind := 0 }

/-- Record 2 of context 0's fault ring at 0xB000, for the page at 0x90000, with STATUS n (R382). -/
def sRing (n : Byte) : State :=
  let s := modCtx sA 0 fun c => { c with fring := 0xB000, frlog := 4 }
  { s with ring := [recS (some 2)], mem := memWrite s.mem (0xB000 + 64 + 64 + 24) [n] }

theorem test_meets_fault_service :
    (sRing 1).ring.find? (fun r => r.ctx = 0 && r.n = some 2) = some (recS (some 2)) ∧
    ([0, 1, 2].map fun n => memNat (sRing n).mem (ringAddr (sRing n) 0 2 + 24) 8) = [0, 1, 2] ∧
    (∀ r ∈ (sRing 1).ring, ¬(r.ctx = 0 ∧ r.die = none ∧ r.vpage = 0x90000)) ∧
    slotHeld (sRing 1) 0 (memNat (sRing 1).mem 0xB000 8) = false ∧ (∀ r ∈ (sRing 1).ring, r.n ≠ none) ∧
    slotHeld (sRing 1) 0 18 = true ∧ Memory.wf (sRing 1).mem = true := by
  and_intros <;> decide +kernel

/-- The warp's gang waits for that page, by its lane 3; it replays. -/
def sPg : State := modGang sA 0 0 0 fun g => { g with wait := .page 0 0x90010 3 }

theorem test_meets_waiters :
    ((gangOf sPg (.gang 0 0 0)).map fun k => (k.g.wait, k.g.contSave)) = some (.page 0 0x90010 3, none) ∧
    0x90010 / 65536 * 65536 = 0x90000 ∧ 0x90010 / 65536 * 65536 ≠ 0xA0000 ∧
    ((gangOf (modGang sA 0 0 0 fun g => { g with wait := .fresume 0x90010 3 }) (.gang 0 0 0)).map fun k =>
      (k.g.wait, k.g.contSave)) = some (.fresume 0x90010 3, none) ∧
    kA.blk.core = 0 ∧ ((gangOf (sCont 0) (.gang 0 0 0)).map fun k => (k.g.wait, k.g.contSave.map (·.va))) = some (.none, some 0x90000) := by
  and_intros <;> decide +kernel

/-- Session i, whose handshake is complete, with its four shootdown words (R383). -/
def inSess (i : Fin 16) (w : Vector Word64 4) (busy : Bool) (s : State) : State :=
  { s with sessions := s.sessions.set i { Session.reset with isOpen := true, finished := true, sdWords := w, sdBusy := busy } }
/-- The request for page 2 of a context, the entry at 0x6020 to hold e. -/
def sdw (ctx : Nat) (e : Word64) : Vector Word64 4 := #v[0x20000, BitVec.ofNat 64 (ctx + 0x6020 * 256), e, 0]

theorem test_meets_shootdown_requests :
    ((inSess 0 (sdw 0 5) false sA).boot, (inSess 0 (sdw 0 5) false sA).sessions[0].isOpen) = (.up, true) ∧
    (shootOf (inSess 0 (sdw 0 5) false sA) 0).isSome = true ∧ (shootOf (inSess 15 (sdw 0 5) true sA) 15) = none ∧
    (shootOf (inSess 15 (sdw 64 5) false sA) 15) = none ∧ (shootOf (inSess 15 (sdw 63 5) false sA) 15) = none ∧
    (inSess 15 (sdw 63 5) false sA).ctxs[63].valid = false ∧
    (shootOf (inSess 15 #v[0x100000000020000, 0x602000, 0, 0] false sA) 15) = none ∧
    (shootOf (inSess 15 #v[0x20000, 0x602100, 0, 0] false sA) 15) = none := by
  and_intros <;> decide +kernel

/-- A submitted shootdown of page 2, of a session, of none, or of the device's own. -/
def shS (own : Bool) (i : Option (Fin 16)) : Shoot :=
  { session := i, own := own, ctx := 0, vbase := 0x20000, npages := 1, pteAddr := 0x6020, newPte := 0x7000000000000000F }
def shots (l : List Shoot) (s : State) : State := { s with shoots := l }
/-- A migration of page 2 to the frame at 0x70000. -/
def mgS : Mig :=
  { ctx := 0, va := 0x20000, len := 65536, pteAddr := 0x6020, oldPte := BitVec.ofNat 128 (0x20000 * 2 ^ 64 + 0xF),
    newPte := BitVec.ofNat 128 (0x70000 * 2 ^ 64 + 0xF), copied := false, hint := none }
def moving (s : State) : State := { s with migs := [mgS] }

theorem test_meets_shootdowns :
    (∀ x ∈ [shS true none, shS false none, shS false (some 15)],
      nextShoot (shots [x] sA) = some x ∧ ∀ y ∈ sA.blocks.zipIdx, accessOpen (shots [x] sA) x y = false) ∧
    nextShoot (shots [shS false none] sP) = some (shS false none) ∧
    (∃ y ∈ sP.blocks.zipIdx, accessOpen (shots [shS false none] sP) (shS false none) y = true) ∧ Memory.wf sA.mem = true ∧
    (shS true none).pteAddr ≠ 0 ∧ shootBlocked (shots [shS false none] sA) (shS false none) = false ∧
    shootBlocked (moving (shots [shS false none] sA)) (shS false none) = true ∧
    nextShoot (moving (shots [shS false none, shS true none] sA)) = some (shS true none) := by
  and_intros <;> decide +kernel

def sMigBad : State := { moving sA with badGranules := [0x20000 / 32 + 2047] }

/-- A request to move page 2, whose last byte it names; it waits; accesses that migrations of page 2 and of another hold. -/
def rqM : MigReq := { ctx := 0, va := 0x2FFFF, tier := false, ep := 0, dst := some 0x70000, hint := none }
def sHeld : State := { moving sA with
  migs := [{ mgS with copied := true }], migHeld := [(0, 0x20000, .party (.gang 0 0 0)), (0, 0x50000, .party (.helm 0))] }

theorem test_meets_migrations :
    (∃ m ∈ (moving sA).migs, m.ctx = Fin.ofNat 64 0 ∧ m.va ≤ 0x2FFFF ∧ 0x2FFFF < m.va + m.len) ∧ sA.migs = [] ∧
    sA.migWait = [] ∧ (∃ x ∈ ({ sA with migWait := [rqM] } : State).migWait, x.ctx = 0 ∧ x.va / 65536 = 0x20000 / 65536) ∧
    inSpan 0x2FFFF = false ∧
    entryOf sA.mem 0x2FFFF levels sA.ctxs[(0 : Fin 64)].root.toNat = some (0x6020, 0x20000 * 2 ^ 64 + 0xF, 65536) ∧
    entryOf sA.mem 0x90000 levels sA.ctxs[(0 : Fin 64)].root.toNat = none ∧ sA.ctxs[(0 : Fin 64)].valid = true ∧
    cellIn { sA with cells := [{ cell with loc := .dev 0x2FFFC }] } 0x20000 65536 = true ∧ cellIn sCell 0x20000 65536 = false ∧
    frameLen sA 0 (0x20000 * 2 ^ 64 + 0xF) 65536 = 65536 ∧ (moving sA).migs[0]? = some mgS ∧
    (shots [shS true none] (moving sA)).migs[0]? = some mgS ∧ mgS.copied = false ∧
    poisonAt sMigBad (.dev (pteAddr mgS.oldPte.toNat)) (frameLen sMigBad mgS.ctx mgS.oldPte.toNat mgS.len) = true ∧
    poisonAt (moving sA) (.dev (pteAddr mgS.oldPte.toNat)) (frameLen (moving sA) mgS.ctx mgS.oldPte.toNat mgS.len) = false := by
  and_intros <;> decide +kernel

/-- A copied migration ends with its shootdown, and the access that it held comes next (R385). -/
theorem test_migration_releases :
    sHeld.migs.find? (fun m => m.ctx = 0 && m.va = 0x20000 && m.copied) = some { mgS with copied := true } ∧
    (migStep sHeld (shS true none)).migs = [] ∧ (migStep sHeld (shS true none)).migHeld = [(0, 0x50000, .party (.helm 0))] ∧
    (migStep sHeld (shS true none)).agenda = [.resume 0 0x20000 (.party (.gang 0 0 0))] := by
  and_intros <;> decide +kernel

theorem test_meets_frame_copy :
    bitsOf mgS.oldPte.toNat 5 1 = 0 ∧ bitsOf mgS.newPte.toNat 5 1 = 0 ∧ pteAddr mgS.oldPte.toNat = 0x20000 ∧
    pteAddr mgS.newPte.toNat = 0x70000 ∧ frameLen (moving sA) mgS.ctx mgS.oldPte.toNat mgS.len = 65536 ∧ 65536 % 128 = 0 ∧
    0x70000 % 128 = 0 ∧ (moving sA).homesWf = true := by decide +kernel

/-- A NODE that has not started, with one hint: entry 0 of the table at 0x20800, of rank 1, of E4M3 (R321, R346). -/
def pHint : Nat := pkt (1 + 2 ^ 12) [(24, 0x23000), (48, 0x20800)]
def sHint (p : Nat) : State :=
  let s := queued q0 p sA
  { s with mem := put s.mem 0x20800 64 (3 + 256 + 2 ^ 16 + 0x30000 * 2 ^ 64 + 0x30100 * 2 ^ 128 + 2 ^ 192 + 2 ^ 224) }

theorem test_meets_prefetch :
    getQueue (sHint pHint) 3 = some q0 ∧ q0.next ≤ 0 ∧ 0 < q0.observed ∧ hintsOpen (sHint pHint) < 256 ∧
    (match hubRead (sHint pHint) 0 none 0x21000 64 with | .ok bs => leNat bs == pHint | _ => false) = true ∧
    pkType pHint = 1 ∧ bitsOf pHint 12 4 = 1 ∧ (pkB pHint 48 8 + 64 * pkB pHint 56 2) % 2 ^ 56 = 0x20800 ∧
    ((auxBytes (sHint pHint) none 0 .load 64 0x20800).toOption.map fun bs => (adapterEnt bs).map fun e => (e.rank, e.abase)) =
      some (some (1, 0x30000)) ∧
    ((auxBytes (sHint pHint) none 0 .load 64 0x20840).toOption.map fun bs => (adapterEnt bs).isNone) = some true := by
  and_intros <;> decide +kernel

/-- A page of fabric memory and one of device memory; two frames of the staging pool, of which the second was used first. -/
def stg (frame last : Nat) : Staged := { frame := frame, ctx := 0, va := frame, len := 65536, home := 0, last := last }

theorem test_meets_prefetched_pages :
    (match leafOf sA none 0 0x30000 with | .leaf t => bitsOf t.pte.toNat 5 1 == 1 | _ => false) = true ∧
    (match leafOf sA none 0 0x20000 with | .leaf t => bitsOf t.pte.toNat 5 1 == 0 | _ => false) = true ∧
    leafOf sA none 0 0x90000 = .absent ∧
    leastUsed { sA with staged := [stg 0x100000 9, stg 0x110000 4] } = some (stg 0x110000 4) := by
  and_intros <;> decide +kernel

/-- Outgoing operations: a store's delivery, a signal's update, a merge that compares with 5. -/
def opSt : FabOp := { opF with kind := .write [1], why := .store (.gang 0 0 0) 0 0 0 }
def opSg : FabOp := { opF with why := .signalOp 3 0 }
def opMg : FabOp := { opSt with kind := .merge 3 0 3 false 5 }
def sOut1 (o : FabOp) : State := { sA with fabOps := [o] }

theorem test_meets_fabric_answers :
    (sOut1 opSt).fabOps.find? (·.id = 4) = some opSt ∧ (sOut1 opSg).fabOps.find? (·.id = 4) = some opSg ∧
    opF.kind = .read 4 ∧ (∀ o ∈ [opSt, opSg], ∀ v, mergeAgain o v = none) ∧ (∃ b, isEvicted sFab b = false) ∧
    (sOut1 opMg).fabOps.find? (·.id = 4) = some opMg :=
  ⟨by decide +kernel, by decide +kernel, by decide +kernel, fun o h v => by
    rcases List.mem_cons.mp h with rfl | h
    · rfl
    · rcases List.mem_cons.mp h with rfl | h
      · rfl
      · exact absurd h (by simp), ⟨0, by decide +kernel⟩, by decide +kernel⟩

/-- A window of 256 bytes at 0x20000, for both directions or for reads; a request at byte 248 of it, and at 249. -/
def sWin (wr : Bool) : State :=
  let w : Window := { job := 5, pid := 6, ri := 7, ctx := 0, wr := wr, rd := true, valid := true, base := 0x20000, len := 256 }
  { sA with windows := sA.windows.set 1023 w }
def rq (off : Nat) : Req := { job := 5, pid := 6, ri := 7, off := off }

theorem test_meets_windows :
    matchWindow (sWin true) (rq 248) 8 true = some (0, 0x200F8) ∧ matchWindow (sWin true) (rq 249) 8 true = none ∧
    matchWindow (sWin false) (rq 248) 8 true = none ∧ matchWindow (sWin false) (rq 248) 8 false = some (0, 0x200F8) ∧
    matchWindow (sWin true) { rq 0 with ri := 6 } 8 false = none := by
  and_intros <;> decide +kernel

def dev8 (k : AKind) (s : State) : Bool :=
  match inPlaces s 0 k 9 0x200F8 8 with | .ok [(.dev a, n)] => a == 0x200F8 && n == 8 | _ => false
def sWinBad : State := { sWin true with badGranules := [0x200F8 / 32] }

theorem test_meets_requests :
    dev8 .inW (sWin true) = true ∧ dev8 .inR (sWin true) = true ∧ poisonAt (sWin true) (.dev 0x200F8) 8 = false ∧
    dev8 .inR sWinBad = true ∧ poisonAt sWinBad (.dev 0x200F8) 8 = true ∧ (sWin true).homesWf = true ∧
    0x200F8 % 8 = 0 ∧ matchWindow (sWin true) (rq 244) 8 true = some (0, 0x200F4) ∧ 0x200F4 % 8 ≠ 0 := by
  and_intros <;> decide +kernel

/-- A write of the window's last bytes, and a fetching add on them (R363, R372). -/
theorem test_requests_act :
    (match exec (.rmaWrite (rq 252) [1, 2, 3, 4]) (sWin true) with
      | .next t => some (memNat t.mem 0x200FC 4, t.out.length) | _ => none) = some (0x04030201, 1) ∧
    (match exec (.atomicFetching (rq 0) .add false 1 0) (sWin true) with
      | .next t => some (memNat t.mem 0x20000 4, t.out.getLast?) | _ => none) = some (0x04033F81, some (.atomOld 0x04033F80)) := by
  and_intros <;> decide +kernel

/-! ### Repair, power, management -/

def sPort (r : BitVec 4) (tr : Bool) : State :=
  { sA with ports := sA.ports.set 15 { retired := r, active := 0, width := 0, retrains := 63, training := tr } }

theorem test_meets_lanes :
    (sPort 7 true).ports[15].retired.getLsbD 2 = true ∧ (sPort 7 true).ports[15].retired.getLsbD 3 = false ∧
    7 ||| BitVec.ofNat 4 (2 ^ 3) = (0xF : BitVec 4) ∧ (sPort 7 true).ports[15].training = true ∧
    (sPort 7 false).ports[15].training = false ∧ (0xC : BitVec 4) &&& 3 = 0 := by decide +kernel

/-- A port that has lost lane 1 runs on lanes 2 and 3 (R364). -/
theorem test_port_retrains :
    (match exec (.portRetrainDone 15) (sPort 2 true) with
      | .next t => some (t.ports[15].active, t.ports[15].width, t.ports[15].retrains) | _ => none) = some (0xC, 2, 63) := by
  decide +kernel

def sStk (k : Stack) : State := { sA with hbmStacks := sA.hbmStacks.set 7 k }
def stk (n : Fin 3) : Stack :=
  { errors := Vector.replicate 32 0, due := [5], retired := [3], spares := n, copying := [4], degraded := false }

theorem test_meets_channels :
    (sStk (stk 2)).hbmStacks[7] = stk 2 ∧ 4 ∈ (stk 2).copying ∧ (7 : Fin 8).val = stackOf (7 * 48 * 2 ^ 30) % 8 ∧
    31 ∉ (stk 2).copying ∧ (stk 0).spares = 0 ∧ (stk 2).spares ≠ 0 := by decide +kernel

def sSp (t : Option Nat) (copying : Bool) (free : List Nat) : State :=
  { modCore sA 255 (fun c => { c with takeover := t, copying := copying }) with spares := sA.spares.set 3 free }
def sClr : State :=
  { sRange with spanRanges := { off := 0, len := 64, ctx := 0, clearing := true } :: sRange.spanRanges }

theorem test_meets_spares :
    ((sSp none false []).cores[255].takeover, (sSp none false []).spares[dieOf 255]) = (none, []) ∧
    ((sSp none false [2]).cores[255].takeover, (sSp none false [2]).spares[dieOf 255]) = (none, [2]) ∧
    ((sSp (some 2) false []).cores[255].takeover, blocksOn (sSp (some 2) false []) 255) = (some 2, []) ∧
    ((sSp (some 2) true []).cores[255].takeover, (sSp (some 2) true []).cores[255].copying) = (some 2, true) ∧
    blocksOn (modCore sA 0 fun c => { c with takeover := some 2 }) 0 ≠ [] ∧ Memory.wf sClr.span = true ∧
    sClr.spanRanges.find? (fun r => r.off = 0 && r.clearing) = some { off := 0, len := 64, ctx := 0, clearing := true } ∧
    (∀ r ∈ sClr.spanRanges, ¬(r.off = 64 ∧ r.clearing = true)) := by
  and_intros <;> decide +kernel

/-- Every spare of die 3 is left, or none is. -/
theorem test_meets_core_tests :
    (sSp none false []).spares[dieOf 255] = [] ∧ (sSp none false [0, 3]).spares[dieOf 255] ≠ [] ∧ 0 ∈ ([0, 3] : List Nat) ∧
    hopsTo 255 3 ≤ hopsTo 255 0 := by decide +kernel

/-- Core 64 stands at the corner of spare 0 of its die, core 255 at that of spare 3 (R276). -/
theorem test_nearest_spare :
    (nearestSpare 64 [3, 2, 1, 0], nearestSpare 255 [0, 1, 2, 3]) = (some 0, some 3) := by decide +kernel

def sOff (a b : Bool) : State := { State.reset with banks := #v[(1, a), (2, b)] }

theorem test_meets_boot :
    (sOff true true).boot = .off ∧ (sOff true true).banks[(0 : Fin 2)].2 = true ∧ (sOff false true).banks[(0 : Fin 2)].2 = false ∧
    (sOff false true).banks[(1 : Fin 2)].2 = true ∧ (sOff false false).banks[(1 : Fin 2)].2 = false ∧ sA.boot = .up := by
  decide +kernel

/-- Block 0's matrix stream is the first that asks for a grant, under the least budget or none. -/
def sAsks (w : BitVec 12) : State := { sA with matrixReqs := [0, 7], pwrBudget := w }

theorem test_meets_arbiter :
    sA.matrixReqs = [] ∧ (sAsks 1200).matrixReqs = [0, 7] ∧ 1200 ≤ (sAsks 1200).pwrBudget.toNat ∧
    (sAsks 1200).mgrant = 255 := by decide +kernel

/-- A general request in session i, or in one that has ended, of a code with arguments (R450). -/
def gr (i : Option (Fin 16)) (c : BitVec 8) (a : List Word64) (started : Bool := false) : GenReq :=
  { session := i, code := c, args := Vector.ofFn fun k : Fin 8 => a.getD k.val 0, started := started }
def asks (r : GenReq) (s : State) : State := { s with requests := [r, gr none 2 []] }
/-- A queue's descriptor at 0xA000, as R328 lays it out: ring, write index, quantum, size and level. -/
def qDesc (sz lv : Nat) : Nat := 0x21000 + 0x22000 * 2 ^ 64 + 4096 * 2 ^ 256 + sz * 2 ^ 288 + lv * 2 ^ 296
def sReg (sz lv : Nat) (r : GenReq) (s : State) : State := asks r { s with mem := put s.mem 0xA000 64 (qDesc sz lv) }
/-- Context 0 locked under session 5. -/
def locked (i : IState) (s : State) : State := modCtx s 0 fun c => { c with inst := i, bound := some 5 }

theorem test_meets_registration :
    (asks (gr (some 15) 1 []) sA).requests = [gr (some 15) 1 [], gr none 2 []] ∧ sA.requests = [] ∧
    (gr none 1 [0xA000, 4095]).args[0].toNat = 0xA000 ∧ getQueue (queued q0 0 sA) 3 = some q0 ∧ getQueue sA 4095 = none ∧
    descBad (qDesc 4 23) = false ∧ descBad (qDesc 4 24) = true ∧ descBad (qDesc 2 0) = true ∧ descBad (qDesc 17 0) = true ∧
    memNat (sReg 4 23 (gr none 1 [0xA000, 4095]) sA).mem 0xA000 64 = qDesc 4 23 ∧ sA.queues = [] ∧
    ctxAdmits sA 0 none = true ∧ ctxAdmits (locked .locked sA) 0 none = false ∧ ctxAdmits (locked .run sA) 0 (some 4) = false ∧
    ctxAdmits (locked .run sA) 0 (some 5) = true := by
  and_intros <;> decide +kernel

theorem test_full_table : 4096 ≤ ({ sA with queues := List.replicate 4096 q0 } : State).queues.length ∧ q0.desc ≠ 0xB000 ∧
    q0.qid ≠ 4 := ⟨by simp, by decide, by decide⟩

/-- Queues of which every packet has retired, or one has not. -/
def fDone : Flight := { fR .last with retired := true }

theorem test_meets_deregistration :
    getQueue (queued { q0 with flights := [fDone] } 0 sA) 3 = some { q0 with flights := [fDone] } ∧
    (∀ f ∈ [fDone], f.retired = true) ∧ (∃ f ∈ (qR .last).flights, f.retired = false) ∧
    getQueue (queued (qR .last) 0 sA) 3 = some (qR .last) ∧ (gr none 2 [] true).started = true ∧ (gr none 2 []).started = false := by
  and_intros <;> decide +kernel

/-- Code entry 1 is loaded and unused; entry 0 is in use; an entry that is no longer valid. -/
def sGone : State := { sX with mem := memWrite sX.mem 0x11026 [0] }
def full256 : State := modCtx sX 0 fun c => { c with forward := List.replicate 256 (0x40, 0) }

theorem test_meets_code_requests :
    codeArgs (gr none 3 [0x10000, 0x10000, 0x12000]) = some (0, 1) ∧ (dirEnt sX 0 1).isSome = true ∧ dirEnt sX 0 2 = none ∧
    ((dirEnt sGone 0 1).map (·.valid)) = some false ∧ ((dirEnt sX 0 1).map (·.valid)) = some true ∧
    256 ≤ full256.ctxs[(0 : Fin 64)].forward.length ∧ (∀ x ∈ full256.ctxs[(0 : Fin 64)].forward, x.1 ≠ 0x10000) ∧
    (∃ x ∈ full256.ctxs[(0 : Fin 64)].forward, x.1 = 0x40) ∧ sX.ctxs[(0 : Fin 64)].forward.length < 256 ∧
    (∃ blk ∈ sX.blocks, blk.ctx = 0 ∧ blockLives blk = true ∧ entryInUse 0 blk = true) ∧
    (∀ blk ∈ sX.blocks, entryInUse 1 blk = false) ∧ entryRequested sX 0 1 = false ∧
    (auxNat sX none 0 .load 1 (sX.ctxs[(0 : Fin 64)].dirBase.toNat + 32 * 1 + 6)).toOption = some 1 := by
  and_intros <;> decide +kernel

theorem test_meets_ports_and_nodes :
    (gr none 5 [15]).args[0].toNat = 15 ∧ (gr none 5 [16]).args[0].toNat = 16 ∧ bitsOf (3 * 65536) 16 12 = 3 ∧
    bitsOf (3 * 65536) 6 10 = 0 ∧ bitsOf (3 * 65536) 28 36 = 0 ∧ startedNode (sXq .ready) 3 0 = some 0 ∧
    startedNode sA 3 0 = none ∧ (getQueue (sXq .ready) 3).map (·.ctx) = some 0 ∧
    findFlight (queued { q0 with flights := [fDone] } 0 sA) 3 0 = some ({ q0 with flights := [fDone] }, fDone) ∧
    findFlight (queued (qR .last) 0 sA) 3 0 = some (qR .last, fR .last) ∧ (fR .last).retired = false := by
  and_intros <;> decide +kernel

/-- Session i, complete. -/
def sIn (i : Fin 16) : State := inSess i (Vector.replicate 4 0) false sA

theorem inSession_of {s : State} {i : Fin 16}
    (h : s.boot = .up ∧ s.sessions[i].isOpen = true ∧ s.sessions[i].finished = true) : InSession s i := ⟨h.1, h.2.1, h.2.2⟩

theorem test_in_session : InSession (sIn 0) 0 ∧ InSession (sIn 15) 15 :=
  ⟨inSession_of (by decide +kernel), inSession_of (by decide +kernel)⟩

theorem test_meets_submissions :
    let busy (x : Bool) := { sIn 15 with sessions := (sIn 15).sessions.set 15 { (sIn 15).sessions[15] with reqBusy := x } }
    (busy true).boot = .up ∧ (busy true).sessions[(15 : Fin 16)].isOpen = true ∧
    (busy true).sessions[(15 : Fin 16)].finished = true ∧ (busy true).sessions[(15 : Fin 16)].reqBusy = true ∧
    (busy false).boot = .up ∧ (busy false).sessions[(15 : Fin 16)].isOpen = true ∧
    (busy false).sessions[(15 : Fin 16)].finished = true ∧ (busy false).sessions[(15 : Fin 16)].reqBusy = false ∧
    (busy false).requests = [] ∧ 1 ≤ 6 := by decide +kernel

/-- Levels 0 and 23, of which level 0 holds a floor of 200. -/
def sLv : State := { sIn 0 with levels := (sIn 0).levels.set 0 { cap := 64, floor := 200 } }

theorem test_meets_levels :
    InSession sLv 0 ∧ (bitsOf 0x100037 8 13, bitsOf 0x100037 0 8) = (4096, 55) ∧ bitsOf 0x100100 8 13 = 4097 ∧ bitsOf 255 8 13 = 0 ∧
    ((List.finRange 24).filter (· != 23)).foldl (fun a k => a + sLv.levels[k].floor.toNat) 0 + 56 = 256 ∧
    ((1199 : Word).toNat % 4096 < 1200 ∧ 2600 < (2601 : Word).toNat % 4096) ∧
    (1200 ≤ (1200 : Word).toNat % 4096 ∧ (2600 : Word).toNat % 4096 ≤ 2600) :=
  ⟨inSession_of (by decide +kernel), by and_intros <;> decide +kernel⟩

/-- The boundary values of PRIORITYLEVEL: CAP 4096 is taken with floors of 256 together, one more of either is refused
(R351). -/
theorem test_levels :
    ([0x100038, 0x100039, 0x100138, 0x000038].map fun v => match exec (.priorityLevelWrite 0 23 v) sLv with
      | .next t => t.out.getLast? | _ => none) = [some .mgmtOk, some .mgmtErr, some .mgmtErr, some .mgmtErr] := by decide +kernel

/-- A gang of context 0 stands at BKPT. -/
def sBk : State := modGang (sIn 0) 0 0 0 fun g => { g with wait := .bkpt }

theorem test_meets_management_writes :
    InSession sBk 0 ∧ ((gangOf sBk (.gang 0 0 0)).map fun k => (k.g.wait, k.blk.ctx)) = some (.bkpt, 0) ∧
    ((2 ≠ 4 ∧ 2 ≠ 8) ∧ 0x14 % 8 ≠ 0) ∧ 0x14 % 4 = 0 ∧
    (sA.boot, sA.sessions[(0 : Fin 16)].isOpen, (sIn 15).sessions[Fin.ofNat 16 15].finished) = (.up, false, true) :=
  ⟨inSession_of (by decide +kernel), by and_intros <;> decide +kernel⟩

theorem test_meets_configuration_guards :
    let opens (i : IState) : State :=
      { locked i sA with windows := sA.windows.set 0 { Window.reset with valid := true, ctx := 0 } }
    ((locked .locked sA).ctxs[(0 : Fin 64)].inst, (locked .run sA).ctxs[(0 : Fin 64)].inst) = (.locked, .run) ∧
    ((locked .error sA).ctxs[(0 : Fin 64)].inst, (locked .error sA).ctxs[(0 : Fin 64)].bound) = (.error, some 5) ∧
    sA.ctxs[(63 : Fin 64)].inst = .unlocked ∧ (locked .error sA).windows[(1023 : Fin 1024)].valid = false ∧
    bitsOf (2 ^ 193) 196 6 = 0 ∧ (locked .error sA).ctxs[(0 : Fin 64)].bound ≠ some 4 ∧
    (∀ q ∈ (locked .run sA).queues, q.ctx ≠ 0) ∧ (queued q0 0 (locked .run sA)).queues.map (·.ctx) = [0] ∧
    (opens .run).windows[(0 : Fin 1024)].valid = true ∧ (opens .run).windows[(0 : Fin 1024)].ctx = 0 ∧
    (opens .run).ctxs[(0 : Fin 64)].inst = .run := by decide +kernel

/-- Every session is open; the first two are; one whose handshake is not complete. -/
def sAll : State := { sA with sessions := Vector.ofFn fun _ : Fin 16 => { Session.reset with isOpen := true } }
def sTwo : State := { sA with sessions := Vector.ofFn fun i : Fin 16 => { Session.reset with isOpen := decide (i.val < 2) } }

theorem test_meets_sessions :
    (∀ i : Fin 16, sAll.sessions[i].isOpen = true) ∧ sTwo.sessions[(2 : Fin 16)].isOpen = false ∧
    (∀ j : Fin 16, j < 2 → sTwo.sessions[j].isOpen = true) ∧ sAll.boot = .up ∧ (sOff true true).boot = .off ∧
    5 < (6 : BitVec 8).toNat := by
  and_intros <;> decide +kernel

/-- Session 5 complete, with context 0's instance in a state bound to it; context 0 idle. -/
def sTd (i : IState) : State := locked i (sIn 5)
def sIdle : State := { sIn 5 with blocks := [] }
/-- Context 0 leaves RUN for CONFIG_UNLOCKED. -/
def sLeave (reply : Bool) (s : State) : State := modCtx (locked .run s) 0 fun c => { c with leaving := some (.unlocked, reply) }

theorem test_meets_instances :
    InSession (sTd .locked) 5 ∧ ((sTd .locked).ctxs[(0 : Fin 64)].inst, (sTd .locked).ctxs[(0 : Fin 64)].bound) = (.locked, some 5) ∧
    ((sTd .run).ctxs[(0 : Fin 64)].inst, (sTd .error).ctxs[(0 : Fin 64)].inst) = (.run, .error) ∧ ctxInService sIdle 0 = false ∧
    sIdle.ctxs[(0 : Fin 64)].inst = .unlocked ∧ ctxInService (sIn 5) 0 = true ∧
    (sTd .run).ctxs[(0 : Fin 64)].bound ≠ some 15 ∧ sIdle.ctxs[(0 : Fin 64)].bound = none ∧
    (sTd .locked).ctxs[(0 : Fin 64)].leaving = none ∧ (sLeave true sA).ctxs[(0 : Fin 64)].leaving = some (.unlocked, true) ∧
    ctxDrained (sLeave true sA) 0 = true ∧ ctxDrained (sLeave true (queued (qR .last) 0 sA)) 0 = false ∧
    Memory.wf sA.mem = true ∧ (sLeave true sA).ctxs[(0 : Fin 64)].inst = .run :=
  ⟨inSession_of (by decide +kernel), by and_intros <;> decide +kernel⟩

/-! ### Cases beside those above -/

/-- The slice of core 0 is being copied; a gang's buffered atomic on a word of the span there, and one of device memory, which is a
release, with a fabric load of the warp outstanding. -/
def sSlice : State := modCore sRange 0 fun c => { c with copying := true }
def bufA (l : Loc) (rel : Bool) : BufAtom :=
  { warp := some 0, lane := 0, ea := 64, loc := l, op := .add, u := false, size := .b32, b1 := 1, b2 := 0, pc := 0, rel := rel }
def sDrain (l : Loc) (rel : Bool) (s : State) : State := modBlock s 0 fun blk => { blk with buffer := [bufA l rel] }

theorem test_meets_held_accesses :
    (match checkAcc sSlice (some 0) 0 .atom false .b64 Config.spanBase with | .ok c => c.held | .error _ => false) = true ∧
    (match checkAcc sHA (some 0) 0 .st false .b32 0x50000 with
      | .ok c => !c.held && c.acc.mig && !mmuFull sHA 0 | .error _ => false) = true ∧
    entryWaits (sDrain (.span 64) false sSlice) 0 (bufA (.span 64) false) = true ∧
    entryWaits (sDrain (.dev 64) true sFab) 0 (bufA (.dev 64) true) = true ∧
    entryWaits (sDrain (.dev 64) false sA) 0 (bufA (.dev 64) false) = false ∧
    drainOrder [bufA (.span 64) false] = [bufA (.span 64) false] := by
  and_intros <;> decide +kernel

/-- Context 0 in ERROR, with a packet of its queue that has not started. -/
def sErrCtx : State := modCtx (queued q0 pNode sA) 0 fun c => { c with inst := .error }

theorem test_meets_aborts_and_parts :
    canAbort sErrCtx q0 = true ∧ (getQueue sErrCtx 3).isSome = true ∧
    (match fetchPacket sErrCtx q0 with | .ok p => p == pNode | .error _ => false) = true ∧ readyCopy sErrCtx 3 = none ∧
    canAbort (queued q0 pNode sA) q0 = false ∧
    (match readRecs (queued q0 pGraph sA) 0 none 1 0x90000 1 [] none with | .wait _ _ _ rs cur => rs.isEmpty && cur.isNone | _ => false) = true ∧
    graphE 2 < 2 ^ 512 := by
  and_intros <;> decide +kernel

/-- The block at its end with a buffered atomic that has to wait, and with one that has not. -/
theorem test_meets_last_atomics :
    (((sDrain (.span 64) false (modCore sEnd 0 fun c => { c with copying := true })).blocks[0]?).map fun blk =>
      mayEnd (sDrain (.span 64) false (modCore sEnd 0 fun c => { c with copying := true })) blk) = some true ∧
    (((drain (sDrain (.span 64) false (modCore sEnd 0 fun c => { c with copying := true })) 0).blocks[0]?).map fun x => x.buffer.length) =
      some 1 ∧ (((drain (sDrain (.dev 64) false sEnd) 0).blocks[0]?).map fun x => x.buffer.length) = some 0 := by
  and_intros <;> decide +kernel

/-- The block saving with its warp waiting, with nothing left to wait for, and with no pool; a word just written. -/
def sSaving (n : BitVec 24) : State := modBlock (sStill n barOpen) 0 fun blk => { blk with status := .saving }

theorem test_meets_saving :
    (((sSaving 1).blocks[0]?).map fun blk => (blockRests (sSaving 1) 0 blk, hasWaiter blk,
      decide (poolUsed (sSaving 1) 0 + (sized (sSaving 1) 0 blk).size ≤ 65536))) = some (true, true, true) ∧
    (((sSaving 0).blocks[0]?).map fun blk => decide (0 < poolUsed (sSaving 0) 0 + (sized (sSaving 0) 0 blk).size)) = some true ∧
    ((sEnd.blocks[0]?).map hasWaiter) = some false ∧ partyBlock (.gang 0 0 0) = 0 ∧
    wordWritten { sA with wrote := [(.dev 0x20000, 4)] } (.dev 0x20002) 1 = true ∧ isSeg opRows = false := by
  and_intros <;> decide +kernel

theorem test_meets_fatal_records :
    (fatalRec 0 0x90000 sPg (.party (.gang 0 0 0))).isSome = true ∧ (fatalRec 0 0xA0000 sPg (.party (.gang 0 0 0))).isNone = true ∧
    Mig.holds sA mgS 0 0x2FFFF = true ∧ Mig.holds sA mgS 0 0x90000 = false ∧ (RmaOp.swap = .swap ∨ RmaOp.swap = .cas) ∧
    (match inPlaces { sWin true with badGranules := [] } 0 .inW 5 0x30000 4 with | .ok [(.fab c e x, m)] => c == 0 && e == 0 && x == 0x30000 && m == 4 | _ => false) = true ∧
    (∀ o ∈ sA.fabOps, ∀ bad, o.why ≠ .incoming sA.nextId bad) := by
  refine ⟨by decide +kernel, by decide +kernel, by decide +kernel, by decide +kernel, .inl rfl, by decide +kernel, ?_⟩
  intro o h
  exact absurd h (by rw [show sA.fabOps = [] by decide +kernel]; simp)

/-- A fault log at a poisoned granule; a record's log that is on. -/
theorem test_meets_poisoned_log :
    4 ≤ (4 : BitVec 5).toNat ∧ 0xC000 / 32 ∈ ({ sA with badGranules := [0xC000 / 32] } : State).badGranules ∧ 0xC000 % 32 + 8 ≤ 32 ∧
    storageEvent sA 0 (.granule 64) ≠ none := by
  and_intros <;> decide +kernel

end Sys2Proof.Tests
end

/-! # Integer elements, the bitwise functions, and the tags of results (class 000) -/

namespace Sys2Proof.Machine

open Sys2Proof Sys2Proof.Claims

/-! ## Elements of a word (R84) -/

theorem widthBits_mul_elements (w : Width) : widthBits w * (32 / widthBits w) = 32 := by cases w <;> rfl

/-- The number that n elements of w bits spell: below 2^(w n), with those elements as its digits. -/
theorem elemSum_digits (w : Nat) (c : Nat → Nat) (hc : ∀ j, c j < 2 ^ w) (n : Nat) :
    (List.range n).foldl (fun a j => a + c j * 2 ^ (w * j)) 0 < 2 ^ (w * n) ∧
    ∀ j < n, (List.range n).foldl (fun a j => a + c j * 2 ^ (w * j)) 0 / 2 ^ (w * j) % 2 ^ w = c j := by
  induction n with
  | zero => simp
  | succ n ih =>
    obtain ⟨hlt, hdigit⟩ := ih
    rw [List.range_succ, List.foldl_append]
    simp only [List.foldl_cons, List.foldl_nil]
    set S := (List.range n).foldl (fun a j => a + c j * 2 ^ (w * j)) 0
    refine ⟨?_, fun j hj => ?_⟩
    · calc S + c n * 2 ^ (w * n) < (c n + 1) * 2 ^ (w * n) := by rw [Nat.add_one_mul]; omega
        _ ≤ 2 ^ w * 2 ^ (w * n) := Nat.mul_le_mul_right _ (hc n)
        _ = 2 ^ (w * (n + 1)) := by ring
    · rcases Nat.lt_succ_iff_lt_or_eq.mp hj with hjn | rfl
      · have hsplit : c n * 2 ^ (w * n) = c n * 2 ^ (w * (n - j - 1)) * 2 ^ w * 2 ^ (w * j) := by
          obtain ⟨i, rfl⟩ : ∃ i, n = j + 1 + i := ⟨n - j - 1, by omega⟩
          rw [show j + 1 + i - j - 1 = i by omega]
          ring
        rw [hsplit, Nat.add_mul_div_right _ _ (by positivity), Nat.add_mul_mod_self_right, hdigit j hjn]
      · rw [Nat.add_mul_div_right _ _ (by positivity), Nat.div_eq_of_lt hlt, Nat.zero_add, Nat.mod_eq_of_lt (hc j)]

theorem elem_unsigned (w : Nat) (x : Word) (j : Nat) : elem w false x j = (x.toNat / 2 ^ (w * j) % 2 ^ w : Nat) := by
  simp [elem]

/-- A signed element is the unsigned one, balanced about 0. -/
theorem elem_signed (w : Width) (x : Word) (j : Nat) :
    elem (widthBits w) true x j = (elem (widthBits w) false x j).bmod (2 ^ widthBits w) := by
  rw [elem_unsigned]
  simp only [elem, Bool.true_and, decide_eq_true_eq]
  have hlt : x.toNat / 2 ^ (widthBits w * j) % 2 ^ widthBits w < 2 ^ widthBits w := Nat.mod_lt _ (by positivity)
  generalize x.toNat / 2 ^ (widthBits w * j) % 2 ^ widthBits w = n at hlt ⊢
  cases w <;> simp only [widthBits, Int.bmod_def] at hlt ⊢ <;> omega

/-- An element lies in the range of its width. -/
theorem elem_mem_range (w : Width) (u : Bool) (x : Word) (j : Nat) :
    elem (widthBits w) (!u) x j ∈ Set.Icc (loOf (widthBits w) u) (hiOf (widthBits w) u) := by
  have hlt : x.toNat / 2 ^ (widthBits w * j) % 2 ^ widthBits w < 2 ^ widthBits w := Nat.mod_lt _ (by positivity)
  rw [Set.mem_Icc]
  cases u with
  | true =>
    rw [Bool.not_true, elem_unsigned]
    simp only [loOf, hiOf, if_true]
    exact ⟨Int.natCast_nonneg _, Int.le_sub_one_of_lt (by exact_mod_cast hlt)⟩
  | false =>
    rw [Bool.not_false, elem_signed]
    generalize elem (widthBits w) false x j = n
    cases w <;> simp only [widthBits, loOf, hiOf, Bool.false_eq_true, if_false, Int.bmod_def] <;> omega

theorem elem_nonneg (w : Nat) (x : Word) (j : Nat) : 0 ≤ elem w false x j := by
  rw [elem_unsigned]; exact Int.natCast_nonneg _

/-- An element of a word built from elements is the given one, taken modulo 2^w. -/
theorem elem_ofElems (w : Width) (f : Nat → Int) {j : Nat} (hj : j < 32 / widthBits w) :
    elem (widthBits w) false (ofElems (widthBits w) f) j = f j % 2 ^ widthBits w := by
  have hpos (i : Nat) : 0 ≤ f i % 2 ^ widthBits w := Int.emod_nonneg _ (by positivity)
  obtain ⟨hlt, hdigit⟩ := elemSum_digits (widthBits w) (fun j => (f j % 2 ^ widthBits w).toNat)
    (fun i => by zify; rw [Int.toNat_of_nonneg (hpos i)]; exact Int.emod_lt_of_pos _ (by positivity)) (32 / widthBits w)
  rw [widthBits_mul_elements] at hlt
  rw [elem_unsigned, ofElems, BitVec.toNat_ofNat, Nat.mod_eq_of_lt hlt, hdigit j hj, Int.toNat_of_nonneg (hpos j)]

/-- An element of a word built from elements is the given one where that lies in the range of the width. -/
theorem elem_ofElems_of_mem_range (w : Width) (u : Bool) (f : Nat → Int) {j : Nat} (hj : j < 32 / widthBits w)
    (h : f j ∈ Set.Icc (loOf (widthBits w) u) (hiOf (widthBits w) u)) :
    elem (widthBits w) (!u) (ofElems (widthBits w) f) j = f j := by
  obtain ⟨hlo, hhi⟩ := Set.mem_Icc.mp h
  cases u with
  | true =>
    simp only [loOf, hiOf, if_true] at hlo hhi
    rw [Bool.not_true, elem_ofElems w f hj, Int.emod_eq_of_lt hlo (by omega)]
  | false =>
    rw [Bool.not_false, elem_signed, elem_ofElems w f hj]
    generalize f j = v at *
    cases w <;>
      simp only [widthBits, loOf, hiOf, Bool.false_eq_true, if_false, Int.bmod_def] at hlo hhi ⊢ <;> omega

/-! ## What stays in the range of a width (R19, R88, R91) -/

theorem loOf_nonpos (w : Nat) (u : Bool) : loOf w u ≤ 0 := by
  cases u <;> simp [loOf]

theorem hiOf_nonneg (w : Nat) (u : Bool) : 0 ≤ hiOf w u := by
  have hpos (n : Nat) : (1 : Int) ≤ 2 ^ n := one_le_pow₀ (by norm_num)
  cases u
  · simpa [hiOf] using hpos (w - 1)
  · simpa [hiOf] using hpos w

theorem clamp_mem_range (w : Nat) (u : Bool) (x : Int) :
    max (loOf w u) (min (hiOf w u) x) ∈ Set.Icc (loOf w u) (hiOf w u) :=
  ⟨le_max_left _ _, max_le ((loOf_nonpos w u).trans (hiOf_nonneg w u)) (min_le_left _ _)⟩

/-- Dividing by a positive number, as a right shift does, moves a value towards 0. -/
theorem ediv_mem_range {w : Nat} {u : Bool} {x k : Int} (hk : 0 < k) (h : x ∈ Set.Icc (loOf w u) (hiOf w u)) :
    x / k ∈ Set.Icc (loOf w u) (hiOf w u) := by
  obtain ⟨hlo, hhi⟩ := Set.mem_Icc.mp h
  have h0 := loOf_nonpos w u
  have h1 := hiOf_nonneg w u
  refine ⟨(Int.le_ediv_iff_mul_le hk).mpr ?_, Int.lt_add_one_iff.mp (Int.ediv_lt_of_lt_mul hk ?_)⟩ <;> nlinarith

/-- The upper half of a product is in the range of its factors. -/
theorem mulHigh_mem_range (w : Width) {u : Bool} {x y : Int}
    (hx : x ∈ Set.Icc (loOf (widthBits w) u) (hiOf (widthBits w) u))
    (hy : y ∈ Set.Icc (loOf (widthBits w) u) (hiOf (widthBits w) u)) :
    x * y / 2 ^ widthBits w ∈ Set.Icc (loOf (widthBits w) u) (hiOf (widthBits w) u) := by
  obtain ⟨hx0, hx1⟩ := Set.mem_Icc.mp hx
  obtain ⟨hy0, hy1⟩ := Set.mem_Icc.mp hy
  have hk : (0 : Int) < 2 ^ widthBits w := by positivity
  suffices h : loOf (widthBits w) u * 2 ^ widthBits w ≤ x * y ∧ x * y < (hiOf (widthBits w) u + 1) * 2 ^ widthBits w by
    obtain ⟨hlow, hhigh⟩ := h
    exact ⟨(Int.le_ediv_iff_mul_le hk).mpr hlow, Int.lt_add_one_iff.mp (Int.ediv_lt_of_lt_mul hk hhigh)⟩
  cases u with
  | true =>
    simp only [loOf, hiOf, if_true] at *
    constructor <;> nlinarith
  | false =>
    have hM : (2 : Int) ^ widthBits w = 2 * 2 ^ (widthBits w - 1) := by cases w <;> rfl
    have hM0 : (0 : Int) < 2 ^ (widthBits w - 1) := by positivity
    simp only [loOf, hiOf, Bool.false_eq_true, if_false, hM] at *
    generalize (2 : Int) ^ (widthBits w - 1) = M at *
    have hxy : |x * y| ≤ M * M := by
      rw [abs_mul]
      exact mul_le_mul (abs_le.mpr ⟨hx0, by omega⟩) (abs_le.mpr ⟨hy0, by omega⟩) (abs_nonneg _) hM0.le
    obtain ⟨h0, h1⟩ := abs_le.mp hxy
    constructor <;> nlinarith

/-! ## Elements of the arithmetic instructions (R88, R91) -/

/-- Without .sat the element is the exact result modulo 2^w. -/
theorem elem_wrapped (w : Width) (u : Bool) (f : Int → Int → Int) (x y : Word) {j : Nat} (hj : j < 32 / widthBits w) :
    elem (widthBits w) false (elems2 w (!u) (fun a b => wrapOrClamp w false u (f a b)) x y) j =
      f (elem (widthBits w) (!u) x j) (elem (widthBits w) (!u) y j) % 2 ^ widthBits w :=
  elem_ofElems w _ hj

/-- Under .sat it is the exact result clamped to the range of the width. -/
theorem elem_clamped (w : Width) (u : Bool) (f : Int → Int → Int) (x y : Word) {j : Nat} (hj : j < 32 / widthBits w) :
    elem (widthBits w) (!u) (elems2 w (!u) (fun a b => wrapOrClamp w true u (f a b)) x y) j =
      max (loOf (widthBits w) u)
        (min (hiOf (widthBits w) u) (f (elem (widthBits w) (!u) x j) (elem (widthBits w) (!u) y j))) :=
  elem_ofElems_of_mem_range w u _ hj (clamp_mem_range _ u _)

theorem elem_mulhiWord (w : Width) (u : Bool) (x y : Word) {j : Nat} (hj : j < 32 / widthBits w) :
    elem (widthBits w) (!u) (mulhiWord w u x y) j =
      elem (widthBits w) (!u) x j * elem (widthBits w) (!u) y j / 2 ^ widthBits w :=
  elem_ofElems_of_mem_range w u _ hj (mulHigh_mem_range w (elem_mem_range w u x j) (elem_mem_range w u y j))

/-- The amount of a shift as a number is below the width where the element is. -/
theorem shiftAmount_lt (w : Width) (y : Word) (j : Nat) :
    (elem (widthBits w) false y j).toNat < widthBits w ↔ elem (widthBits w) false y j < widthBits w := by
  have := elem_nonneg (widthBits w) y j
  omega

theorem elem_shlWord (w : Width) (x y : Word) {j : Nat} (hj : j < 32 / widthBits w) :
    elem (widthBits w) false (shlWord w x y) j =
      if elem (widthBits w) false y j < widthBits w then
        elem (widthBits w) false x j * 2 ^ (elem (widthBits w) false y j).toNat % 2 ^ widthBits w
      else 0 := by
  rw [shlWord, shiftWord, elem_ofElems w _ hj]
  simp only [shiftAmount_lt]
  split
  · rfl
  · exact Int.zero_emod _

/-- A right shift of either kind: by the quotient, or by what is left where every bit is shifted out. -/
theorem elem_shiftRight (w : Width) (u : Bool) (rest : Int → Int) (x y : Word) {j : Nat} (hj : j < 32 / widthBits w)
    (hrest : rest (elem (widthBits w) (!u) x j) ∈ Set.Icc (loOf (widthBits w) u) (hiOf (widthBits w) u)) :
    elem (widthBits w) (!u) (shiftWord w (!u) (fun a n => if n < widthBits w then a / 2 ^ n else rest a) x y) j =
      if elem (widthBits w) false y j < widthBits w then
        elem (widthBits w) (!u) x j / 2 ^ (elem (widthBits w) false y j).toNat
      else rest (elem (widthBits w) (!u) x j) := by
  rw [shiftWord, elem_ofElems_of_mem_range w u _ hj]
  · simp only [shiftAmount_lt]
  · split
    · exact ediv_mem_range (by positivity) (elem_mem_range w u x j)
    · exact hrest

theorem elem_shrWord (w : Width) (x y : Word) {j : Nat} (hj : j < 32 / widthBits w) :
    elem (widthBits w) false (shrWord w x y) j =
      if elem (widthBits w) false y j < widthBits w then
        elem (widthBits w) false x j / 2 ^ (elem (widthBits w) false y j).toNat
      else 0 :=
  elem_shiftRight w true (fun _ => 0) x y hj ⟨loOf_nonpos _ _, hiOf_nonneg _ _⟩

theorem elem_sarWord (w : Width) (x y : Word) {j : Nat} (hj : j < 32 / widthBits w) :
    elem (widthBits w) true (sarWord w x y) j =
      if elem (widthBits w) false y j < widthBits w then
        elem (widthBits w) true x j / 2 ^ (elem (widthBits w) false y j).toNat
      else if elem (widthBits w) true x j < 0 then -1 else 0 := by
  refine elem_shiftRight w false (fun a => if a < 0 then -1 else 0) x y hj ?_
  split
  · cases w <;> decide
  · exact ⟨loOf_nonpos _ _, hiOf_nonneg _ _⟩

/-- Sum, difference and product wrap or clamp, and no shift takes its amount modulo the width (R19, R84, R88, R91). -/
theorem elementsOfIntegerArithmetic : ElementsOfIntegerArithmetic := fun w x y _ hj =>
  ⟨fun u => elem_wrapped w u (· + ·) x y hj, fun u => elem_clamped w u (· + ·) x y hj,
   fun u => elem_wrapped w u (· - ·) x y hj, fun u => elem_clamped w u (· - ·) x y hj,
   fun u => elem_wrapped w u (· * ·) x y hj, fun u => elem_mulhiWord w u x y hj,
   elem_shlWord w x y hj, elem_shrWord w x y hj, elem_sarWord w x y hj⟩

/-! ## LOP3 (R92) -/

/-- The entry of LOP3's table that three source bits choose. -/
def tableIndex (a b c : Bool) : Nat := (if a then 1 else 0) + (if b then 2 else 0) + (if c then 4 else 0)

theorem getLsbD_spread (b : Bool) {i : Nat} (hi : i < 32) : (spread b).getLsbD i = b := by
  cases b with
  | false => exact BitVec.getLsbD_zero
  | true => exact BitVec.getLsbD_allOnes.trans (decide_eq_true hi)

/-- A source word or its complement, as bit k of the entry's number asks: one where the source bit agrees with k. -/
theorem getLsbD_ite_not (k : Prop) [Decidable k] (x : Word) {i : Nat} (hi : i < 32) :
    (if k then x else ~~~x).getLsbD i = (x.getLsbD i == decide k) := by
  split <;> simp [*]

/-- Each result bit is the entry of the table that its three source bits choose: of the eight terms that LOP3 joins, the
one whose number the bits spell lets its entry through, and the others are 0. -/
theorem getLsbD_lop3 (tt : BitVec 8) (x y z : Word) {i : Nat} (hi : i < 32) :
    (lop3 tt x y z).getLsbD i = tt.getLsbD (tableIndex (x.getLsbD i) (y.getLsbD i) (z.getLsbD i)) := by
  simp only [lop3, List.range, List.range.loop, List.foldl_cons, List.foldl_nil, BitVec.getLsbD_or, BitVec.getLsbD_and,
    getLsbD_spread _ hi, getLsbD_ite_not _ _ hi]
  cases x.getLsbD i <;> cases y.getLsbD i <;> cases z.getLsbD i <;> simp [tableIndex]

theorem lop3LooksUpEachBit : Lop3LooksUpEachBit := fun tt x y z _ hi => getLsbD_lop3 tt x y z hi

/-- LOP3 is the bitwise function whose values its table lists. -/
theorem lop3_eq {tt : BitVec 8} {x y z r : Word} (f : Bool → Bool → Bool → Bool)
    (htable : ∀ a b c, tt.getLsbD (tableIndex a b c) = f a b c)
    (hr : ∀ i < 32, r.getLsbD i = f (x.getLsbD i) (y.getLsbD i) (z.getLsbD i)) : lop3 tt x y z = r :=
  BitVec.eq_of_getLsbD_eq fun i hi => by rw [getLsbD_lop3 tt x y z hi, htable, hr i hi]

theorem lop3_tables (x y z : Word) :
    lop3 0xAA x y z = x ∧ lop3 0xCC x y z = y ∧ lop3 0xF0 x y z = z ∧ lop3 0x80 x y z = x &&& y &&& z ∧
    lop3 0xFE x y z = x ||| y ||| z ∧ lop3 0x96 x y z = x ^^^ y ^^^ z ∧
    lop3 0xE8 x y z = (x &&& y) ||| (x &&& z) ||| (y &&& z) ∧ lop3 0xCA x y z = (y &&& z) ||| (x &&& ~~~z) ∧
    lop3 0xEA x y z = x ||| (y &&& z) ∧ lop3 0x00 x y z = 0 ∧ lop3 0xFF x y z = BitVec.allOnes 32 :=
  ⟨lop3_eq (fun a _ _ => a) (by decide) fun _ _ => rfl,
   lop3_eq (fun _ b _ => b) (by decide) fun _ _ => rfl,
   lop3_eq (fun _ _ c => c) (by decide) fun _ _ => rfl,
   lop3_eq (fun a b c => a && b && c) (by decide) fun _ _ => by simp,
   lop3_eq (fun a b c => a || b || c) (by decide) fun _ _ => by simp,
   lop3_eq (fun a b c => a ^^ b ^^ c) (by decide) fun _ _ => by simp,
   lop3_eq (fun a b c => (a && b) || (a && c) || (b && c)) (by decide) fun _ _ => by simp,
   lop3_eq (fun a b c => (b && c) || (a && !c)) (by decide) fun _ hi => by simp [hi],
   lop3_eq (fun a b c => a || (b && c)) (by decide) fun _ _ => by simp,
   lop3_eq (fun _ _ _ => false) (by decide) fun _ _ => by simp,
   lop3_eq (fun _ _ _ => true) (by decide) fun _ hi => BitVec.getLsbD_allOnes.trans (decide_eq_true hi)⟩

/-! ## Instructions of two and of three sources (R83) -/

section Sources

variable {s : State} {k : GCtx} {c : Ctl} {m : LaneMask} {d : Dst} {a b e : Src} {x y z : VVal}

theorem op2_produces {w : Width} {sa sb : Bool} (f : VVal → VVal → VVal) (hi : Issues s k c m)
    (ha : readSrc k m (.int w) sa a = .ok x) (hb : readSrc k m (.int w) sb b = .ok y) (hd : CanWrite k d m) :
    Produces s k d m (f x y) id (op2 s c d a b w sa sb f) := by
  refine produces_of_putResult hi.some hd ?_
  rw [op2, onResult_issues hi, ha, hb, Except.map_id]
  rfl

theorem op3_produces {w : Width} {sg : Bool} (f : VVal → VVal → VVal → VVal) (hi : Issues s k c m)
    (ha : readSrc k m (.int w) sg a = .ok x) (hb : readSrc k m (.int w) sg b = .ok y)
    (he : readSrc k m (.int w) sg e = .ok z) (hd : CanWrite k d m) :
    Produces s k d m (f x y z) id (op3 s c d a b e w sg f) := by
  refine produces_of_putResult hi.some hd ?_
  rw [op3, onResult_issues hi, ha, hb, he, Except.map_id]
  rfl

/-- A function of two words that acts bit by bit, lifted, acts so in every lane. -/
theorem op2_bitwise (f : Word → Word → Word) (g : Bool → Bool → Bool)
    (hfg : ∀ p q : Word, ∀ j < 32, (f p q).getLsbD j = g (p.getLsbD j) (q.getLsbD j)) (hi : Issues s k c m)
    (ha : readSrc k m (.int .w32) false a = .ok x) (hb : readSrc k m (.int .w32) false b = .ok y) (hd : CanWrite k d m) :
    ∃ v, (∀ l < 32, ∀ j < 32, (laneVal v l).getLsbD j = g ((laneVal x l).getLsbD j) ((laneVal y l).getLsbD j)) ∧
      Produces s k d m v id (op2 s c d a b .w32 false false (lift2 f)) :=
  ⟨lift2 f x y, fun l hl j hj => by rw [laneVal_lift2 f x y hl, hfg _ _ j hj], op2_produces (lift2 f) hi ha hb hd⟩

end Sources

theorem bitwiseFunctions : BitwiseFunctions := by
  refine ⟨fun s k c m n a b x y hi ha hb hd => ⟨?_, ?_, ?_, ?_, fun tt e z he => ?_⟩, lop3_tables⟩
  · exact op2_bitwise (· &&& ·) (· && ·) (by simp) hi ha hb hd
  · exact op2_bitwise (· ||| ·) (· || ·) (by simp) hi ha hb hd
  · exact op2_bitwise (· ^^^ ·) (· != ·) (by simp) hi ha hb hd
  · exact op2_bitwise (fun p q => p &&& ~~~q) (fun p q => p && !q) (fun p q j hj => by simp [hj]) hi ha hb hd
  · exact ⟨lift3 (lop3 tt) x y z,
      fun l hl j hj => by rw [laneVal_lift3 _ x y z hl, getLsbD_lop3 tt _ _ _ hj]; rfl,
      op3_produces (lift3 (lop3 tt)) hi ha hb he hd⟩

/-! ## Words of one element (R88, R91) -/

@[simp] theorem ofElems_32 (f : Nat → Int) : ofElems 32 f = BitVec.ofInt 32 (f 0) := by
  apply BitVec.eq_of_toNat_eq
  simpa [ofElems] using Int.emod_lt_of_pos (f 0) (by norm_num : (0 : Int) < 4294967296)

@[simp] theorem ofInt_elem_32 (sg : Bool) (x : Word) : BitVec.ofInt 32 (elem 32 sg x 0) = x := by
  have hu : elem 32 false x 0 = x.toNat := by
    rw [elem_unsigned, Nat.mul_zero, Nat.pow_zero, Nat.div_one, Nat.mod_eq_of_lt x.isLt]
  cases sg with
  | false => rw [hu, BitVec.ofInt_natCast, BitVec.ofNat_toNat, BitVec.setWidth_eq]
  | true =>
    have hs : elem 32 true x 0 = (elem 32 false x 0).bmod (2 ^ 32) := elem_signed .w32 x 0
    rw [hs, hu, ← BitVec.toInt_eq_toNat_bmod, BitVec.ofInt_toInt]

theorem addWord_w32 (u : Bool) (x y : Word) : addWord .w32 false u x y = x + y := by
  simp [addWord, elems2, widthBits, wrapOrClamp, satTo, BitVec.ofInt_add]

theorem mulWord_w32 (u : Bool) (x y : Word) : mulWord .w32 false u x y = x * y := by
  simp [mulWord, elems2, widthBits, wrapOrClamp, satTo, BitVec.ofInt_mul]

theorem madWord_w32 (u : Bool) (x y z : Word) : madWord .w32 false u x y z = x * y + z := by
  simp [madWord, elems3, widthBits, wrapOrClamp, satTo, BitVec.ofInt_add, BitVec.ofInt_mul]

/-- The factor of a left shift: 0 where every bit is shifted out. -/
def shlFactor (n : Word) : Word := if elem 32 false n 0 < 32 then BitVec.ofInt 32 (2 ^ (elem 32 false n 0).toNat) else 0

/-- A left shift is a product, so that it scales base and stride alike. -/
theorem shlWord_w32 (x n : Word) : shlWord .w32 x n = x * shlFactor n := by
  have hn : (elem 32 false n 0).toNat < 32 ↔ elem 32 false n 0 < 32 := shiftAmount_lt .w32 n 0
  simp only [shlWord, shiftWord, widthBits, ofElems_32, shlFactor, hn]
  split <;> simp [BitVec.ofInt_mul]

/-! ## Tags (R45) -/

@[simp] theorem lift1_u (f : Word → Word) (x : Word) : lift1 f (.u x) = .u (f x) := rfl
@[simp] theorem lift2_u (f : Word → Word → Word) (x y : Word) : lift2 f (.u x) (.u y) = .u (f x y) := rfl
@[simp] theorem lift3_u (f : Word → Word → Word → Word) (x y z : Word) : lift3 f (.u x) (.u y) (.u z) = .u (f x y z) := rfl

/-- The general rule gives G where a source is not U. -/
theorem isG_lift2 (f : Word → Word → Word) (x y : VVal) (h : isU x = false ∨ isU y = false) : isG (lift2 f x y) = true := by
  cases x with
  | u p =>
    cases y with
    | u q => exact absurd h (by simp [isU])
    | a => rfl
    | g => rfl
  | a => rfl
  | g => rfl

theorem addShape_u (aff : Bool) (f g : Word → Word → Word) (x y : Word) : addShape aff f g (.u x) (.u y) = .u (g x y) := by
  cases aff <;> rfl

theorem mulShape_u (aff : Bool) (g : Word → Word → Word) (x y : Word) : mulShape aff g (.u x) (.u y) = .u (g x y) := by
  cases aff <;> rfl

theorem affine_iff {w : Width} {sat : Bool} : affine w sat = true ↔ w = .w32 ∧ sat = false := by
  simp [affine]

/-- IMAD of U sources is U; under the affine rule it wraps twice, which modulo 2^32 is to wrap once. -/
theorem madShape_u (w : Width) (sat u : Bool) (x y z : Word) :
    madShape w sat u (.u x) (.u y) (.u z) = .u (madWord w sat u x y z) := by
  cases haff : affine w sat with
  | false => simp [madShape, haff]
  | true =>
    obtain ⟨rfl, rfl⟩ := affine_iff.mp haff
    rw [madWord_w32, ← mulWord_w32 u, ← addWord_w32 u]
    rfl

/-- IMAD of A and U factors with a U or A addend. -/
theorem madShape_a (u : Bool) (b d n b' d' : Word) :
    madShape .w32 false u (.a b d) (.u n) (.a b' d') = .a (b * n + b') (d * n + d') ∧
    madShape .w32 false u (.u n) (.a b d) (.u b') = .a (n * b + b') (n * d) := by
  refine ⟨rfl, ?_⟩
  exact congrArg (VVal.a _) (BitVec.add_zero (n * d))

/-- SHL at width 32 of any value by a U amount, lane by lane. -/
theorem laneVal_shlShape (w : Width) (x : VVal) (n : Word) {l : Nat} (hl : l < 32) :
    laneVal (shlShape w x (.u n)) l = shlWord w (laneVal x l) n := by
  have general : laneVal (lift2 (shlWord w) x (.u n)) l = shlWord w (laneVal x l) n := laneVal_lift2 _ _ _ hl
  cases x with
  | u p => cases w <;> exact general
  | g v => cases w <;> exact general
  | a b d =>
    cases w with
    | w32 =>
      show shlWord .w32 b n + shlWord .w32 d n * BitVec.ofNat 32 l = shlWord .w32 (b + d * BitVec.ofNat 32 l) n
      simp only [shlWord_w32]
      ring
    | _ => exact general

theorem shlShape_u (w : Width) (x y : Word) : shlShape w (.u x) (.u y) = .u (shlWord w x y) := by
  cases w <;> rfl

/-- A full write at view .w leaves the register with the result, tag and all (R46). -/
theorem writeLevels_full {k : GCtx} {n : Fin 256} {v : VVal} {m : LaneMask} {wp : Warp} {latch : VReg}
    (hfull : isFull k.wp m = true) (h : writeLevels k (.v n .w) v m = .ok (wp, latch)) :
    wp.regs[n] = { val := v, poison := 0 } := by
  simp only [writeLevels, dstIdx, writeLevelsAt, writeReg, Except.map, mergeReg, hfull, if_true, Except.ok.injEq,
    Prod.mk.injEq] at h
  obtain ⟨rfl, -⟩ := h
  exact setReg_same _ _ _

theorem resultTags : ResultTags := by
  refine ⟨fun u b d n => ?_, fun _ _ _ _ _ => rfl, fun u b d n => ?_, fun _ _ _ _ _ => addShape_u _ _ _ _ _,
    fun _ _ _ _ => rfl, fun _ _ _ _ _ => mulShape_u _ _ _ _, fun _ _ _ _ => rfl, madShape_a, madShape_u,
    fun _ _ _ => rfl, shlShape_u, fun w x n l hl => laneVal_shlShape w x n hl, lift1_u, lift3_u, lift2_u, isG_lift2,
    fun _ _ _ _ _ _ => writeLevels_full⟩
  · exact congrArg (VVal.a _) (BitVec.add_zero d)
  · exact congrArg (VVal.a _) (BitVec.zero_add d)

/-- Settles O10, from the elements of each operation, the table lookup at each bit, and the shape rules. -/
theorem integerElementsAndTags : Obligations.IntegerElementsAndTags :=
  ⟨elementsOfIntegerArithmetic, lop3LooksUpEachBit, bitwiseFunctions, resultTags⟩

end Sys2Proof.Machine

/-! # Canonical NaNs, and the order of minimum and maximum (class 001) -/

namespace Sys2Proof.Machine

open Sys2Proof Sys2Proof.Claims

/-! ## Codes that are no NaN (R15 to R17) -/

/-- The greatest magnitude code that is no NaN: infinity, or E4M3's largest number. -/
def Fmt.maxMag (f : Fmt) : Nat := if f.e4m3 then f.maxFin else f.top

/-- A code that is the canonical NaN of its format if it is a NaN at all (R17). -/
def Canon (f : Fmt) (c : Nat) : Prop := (unpackF f c).isNan = true → c = f.nan

theorem isNan_unpackF_iff {f : Fmt} {c : Nat} : (unpackF f c).isNan = true ↔
    if f.e4m3 then c / 2 ^ f.mb % 2 ^ f.eb = 15 ∧ c % 2 ^ f.mb = 7
    else c / 2 ^ f.mb % 2 ^ f.eb = 2 ^ f.eb - 1 ∧ c % 2 ^ f.mb ≠ 0 := by
  cases hf : f.e4m3 <;> simp only [unpackF, hf] <;> split_ifs <;> simp_all [FVal.isNan]

/-- The sign bit lies above the exponent, so it does not decide what is a NaN. -/
theorem isNan_sign_add (f : Fmt) (neg : Bool) (c : Nat) :
    (unpackF f (f.sign neg + c)).isNan = (unpackF f c).isNan := by
  have hexp : (f.sign neg + c) / 2 ^ f.mb % 2 ^ f.eb = c / 2 ^ f.mb % 2 ^ f.eb := by
    cases neg <;> simp [Fmt.sign, pow_add, mul_comm (2 ^ f.eb), Nat.mul_add_div]
  have hfrac : (f.sign neg + c) % 2 ^ f.mb = c % 2 ^ f.mb := by
    cases neg <;> simp [Fmt.sign, pow_add]
  rw [Bool.eq_iff_iff, isNan_unpackF_iff, isNan_unpackF_iff, hexp, hfrac]

theorem canon_nan (f : Fmt) : Canon f f.nan := fun _ => rfl

theorem canon_of_isNan_false {f : Fmt} {c : Nat} (h : (unpackF f c).isNan = false) : Canon f c :=
  fun hn => by simp [h] at hn

theorem canon_of_fin {f : Fmt} {c m : Nat} {neg : Bool} {e : Int} (h : unpackF f c = .fin neg m e) : Canon f c :=
  canon_of_isNan_false (by rw [h]; rfl)

theorem canon_of_inf {f : Fmt} {c : Nat} {neg : Bool} (h : unpackF f c = .inf neg) : Canon f c :=
  canon_of_isNan_false (by rw [h]; rfl)

theorem canon_ite {f : Fmt} {p : Prop} [Decidable p] {a b : Nat × Flags} (ha : Canon f a.1) (hb : Canon f b.1) :
    Canon f (if p then a else b).1 := by
  split
  · exact ha
  · exact hb

section Formats

variable {f : Fmt} (hf : f ∈ [Fmt.f32, .bf16, .f16, .e4m3f, .e5m2])
include hf

theorem isNan_of_le_maxMag {c : Nat} (hc : c ≤ f.maxMag) : (unpackF f c).isNan = false := by
  rw [← Bool.not_eq_true, isNan_unpackF_iff]
  simp only [List.mem_cons, List.not_mem_nil, or_false] at hf
  rcases hf with rfl | rfl | rfl | rfl | rfl <;>
  · simp [Fmt.maxMag, Fmt.maxFin, Fmt.top, Fmt.f32, Fmt.bf16, Fmt.f16, Fmt.e4m3f, Fmt.e5m2] at hc ⊢
    omega

theorem canon_sign_add {c : Nat} (neg : Bool) (hc : c ≤ f.maxMag) : Canon f (f.sign neg + c) :=
  canon_of_isNan_false ((isNan_sign_add f neg c).trans (isNan_of_le_maxMag hf hc))

theorem canon_sign (neg : Bool) : Canon f (f.sign neg) := canon_sign_add hf neg (Nat.zero_le _)

theorem canon_inf (neg : Bool) : Canon f (f.inf neg) := canon_sign_add hf neg le_rfl

end Formats

/-- Below the top a magnitude is finite, E4M3's NaN being its top. -/
theorem Fmt.le_maxMag_of_lt_top {f : Fmt} {c : Nat} (h : c < f.top) : c ≤ f.maxMag := by
  unfold Fmt.maxMag Fmt.maxFin
  split <;> omega

theorem Fmt.maxFin_le_maxMag (f : Fmt) : f.maxFin ≤ f.maxMag := by
  unfold Fmt.maxMag Fmt.maxFin
  split <;> omega

/-! ## Rounding gives no NaN (R18) -/

section Rounding

variable {f : Fmt} (hf : f ∈ [Fmt.f32, .bf16, .f16, .e4m3f, .e5m2])
include hf

/-- Past the largest number the result is an infinity or that number. -/
theorem canon_overflow (neg toInf : Bool) : Canon f (if toInf then f.inf neg else f.sign neg + f.maxFin) := by
  split
  · exact canon_inf hf neg
  · exact canon_sign_add hf neg f.maxFin_le_maxMag

theorem canon_roundRat (rm : RMode) (neg : Bool) (num den : Nat) : Canon f (roundRat f rm neg num den).1 := by
  simp only [roundRat]
  refine canon_ite (canon_sign hf neg) ?_
  split
  · exact canon_overflow hf neg _
  next hlt => exact canon_sign_add hf neg (Fmt.le_maxMag_of_lt_top (not_le.mp hlt))

theorem canon_roundDy (rm : RMode) (zneg : Bool) (x : Dy) : Canon f (roundDy f rm zneg x).1 :=
  canon_ite (canon_sign hf zneg) (canon_ite (canon_roundRat hf _ _ _ _) (canon_roundRat hf _ _ _ _))

/-! ## Sums, FRND, FSCALE and conversions (R23, R101, R115, R121, R123) -/

theorem canon_sumProd (rm : RMode) (ts : List (FVal × FVal)) : Canon f (sumProd f rm ts).1 :=
  canon_ite (canon_nan f) <| canon_ite (canon_nan f) <| canon_ite (canon_nan f) <|
    canon_ite (canon_inf hf true) <| canon_ite (canon_inf hf false) <| canon_roundDy hf _ _ _

theorem canon_rndF (rm : RMode) (x : Nat) : Canon f (rndF f rm x).1 := by
  unfold rndF
  split
  · exact canon_nan f
  next h => exact canon_of_inf h
  next h => exact canon_ite (canon_of_fin h) (canon_roundRat hf _ _ _ _)

theorem canon_scaleF (rm : RMode) (x : Nat) (n : Int) : Canon f (scaleF f rm x n).1 := by
  unfold scaleF
  split
  · exact canon_nan f
  next h => exact canon_of_inf h
  next h => exact canon_ite (canon_of_fin h) (canon_roundDy hf _ _ _)

theorem canon_cvtFF (st : Fmt) (rm : RMode) (x : Nat) : Canon f (cvtFF st f rm x).1 := by
  unfold cvtFF
  split
  · exact canon_nan f
  · exact canon_inf hf _
  · exact canon_ite (canon_inf hf _) (canon_roundDy hf _ _ _)

theorem canon_cvtIF (rm : RMode) (n : Int) : Canon f (cvtIF f rm n).1 :=
  canon_ite (canon_inf hf _) (canon_roundDy hf _ _ _)

end Rounding

/-! ## NaN operands of a sum (R115) -/

theorem sumProd_of_isSnan {f : Fmt} {rm : RMode} {ts : List (FVal × FVal)}
    (h : ∃ t ∈ ts, t.1.isSnan = true ∨ t.2.isSnan = true) : sumProd f rm ts = (f.nan, Flags.invalid) :=
  if_pos (by simpa using h)

theorem sumProd_of_isNan {f : Fmt} {rm : RMode} {ts : List (FVal × FVal)}
    (h : ∃ t ∈ ts, t.1.isNan = true ∨ t.2.isNan = true) : (sumProd f rm ts).1 = f.nan := by
  have hany : (ts.any fun t => t.1.isNan || t.2.isNan) = true := by simpa using h
  simp only [sumProd, hany, if_true]
  split_ifs <;> rfl

/-! ## Special functions (R39, R40, R126) -/

theorem f32_mem_formats : Fmt.f32 ∈ [Fmt.f32, .bf16, .f16, .e4m3f, .e5m2] := List.mem_cons_self

/-- A signed one: the pattern that the special functions add to a sign. -/
theorem canon_sign_one (neg : Bool) : Canon .f32 (Fmt.f32.sign neg + 0x3F800000) :=
  canon_sign_add f32_mem_formats neg (by decide)

theorem canon_one : Canon .f32 0x3F800000 := canon_sign_one false

theorem canon_zero : Canon .f32 0 := canon_sign f32_mem_formats false

theorem canon_roundDy_f32 (neg : Bool) (x : Dy) : Canon .f32 (roundDy .f32 .rn neg x).1 :=
  canon_roundDy f32_mem_formats _ _ _

theorem canon_roundNear {neg : Bool} {v err p : Int} {r : Nat × Flags} (h : roundNear neg v err p = some r) :
    Canon .f32 r.1 := by
  simp only [roundNear, Option.ite_none_right_eq_some, Option.some.injEq] at h
  obtain ⟨-, rfl⟩ := h
  exact canon_roundDy_f32 _ _

/-- Of growing precisions the first that answers gives the result; where none does the result is the canonical NaN. -/
theorem canon_tryPrec {g : Nat → Option (Nat × Flags)} (hg : ∀ p r, g p = some r → Canon .f32 r.1) (fuel p : Nat) :
    Canon .f32 (tryPrec g fuel p).1 := by
  induction fuel generalizing p with
  | zero => exact canon_nan _
  | succ fuel ih =>
    unfold tryPrec
    split
    next h => exact hg p _ h
    next => exact ih _

theorem canon_ex2Fin (neg : Bool) (m : Nat) (e : Int) : Canon .f32 (ex2Fin neg m e).1 :=
  canon_ite (canon_ite (canon_roundDy_f32 _ _) (canon_roundDy_f32 _ _))
    (canon_tryPrec (fun _ _ => canon_roundNear) _ _)

theorem canon_lg2Fin (m : Nat) (e : Int) : Canon .f32 (lg2Fin m e).1 :=
  canon_tryPrec (fun _ _ => canon_roundNear) _ _

theorem canon_sinpiFin (neg : Bool) (m : Nat) (e : Int) : Canon .f32 (sinpiFin neg m e).1 :=
  canon_tryPrec (fun _ _ => canon_roundNear) _ _

theorem canon_tanhFin (neg : Bool) (m : Nat) (e : Int) : Canon .f32 (tanhFin neg m e).1 :=
  canon_ite (canon_roundDy_f32 _ _) (canon_ite (canon_sign_one neg)
    (canon_tryPrec (fun _ _ => canon_roundNear) _ _))

theorem canon_special_of_inf {x : Nat} {neg : Bool} (h : unpackF .f32 x = .inf neg) (k : SFun) :
    Canon .f32 (special k x).1 := by
  simp only [special, h]
  split
  · exact canon_sign f32_mem_formats _
  · exact canon_zero
  · exact canon_inf f32_mem_formats _
  · exact canon_zero
  · exact canon_inf f32_mem_formats _
  · exact canon_inf f32_mem_formats _
  · exact canon_sign_one _
  · exact canon_nan _

theorem canon_special_of_zero {x : Nat} {neg : Bool} {e : Int} (h : unpackF .f32 x = .fin neg 0 e) (k : SFun) :
    Canon .f32 (special k x).1 := by
  simp only [special, h]
  cases k with
  | rcp | rsq => exact canon_inf f32_mem_formats _
  | lg2 => exact canon_inf f32_mem_formats _
  | ex2 | cospi => exact canon_one
  | sqrt | sinpi | tanh => exact canon_of_fin h

theorem canon_special_of_pos {x m : Nat} {neg : Bool} {e : Int} (h : unpackF .f32 x = .fin neg (m + 1) e) (k : SFun) :
    Canon .f32 (special k x).1 := by
  simp only [special, h]
  cases k with
  | rcp => exact canon_ite (canon_roundRat f32_mem_formats _ _ _ _) (canon_roundRat f32_mem_formats _ _ _ _)
  | rsq | sqrt => exact canon_ite (canon_nan _) (canon_roundDy_f32 _ _)
  | ex2 => exact canon_ite (canon_roundDy_f32 _ _) (canon_ex2Fin _ _ _)
  | lg2 => exact canon_ite (canon_nan _) (canon_ite (canon_roundDy_f32 _ _) (canon_lg2Fin _ _))
  | sinpi =>
    exact canon_ite (canon_sign f32_mem_formats _) <| canon_ite (canon_sign f32_mem_formats _) <|
      canon_ite (canon_sign_one _) (canon_sinpiFin _ _ _)
  | cospi =>
    exact canon_ite (canon_sign_one _) <| canon_ite (canon_sign_one _) <| canon_ite canon_zero <|
      canon_ite (canon_sinpiFin _ _ _) (canon_sinpiFin _ _ _)
  | tanh => exact canon_tanhFin _ _ _

theorem canon_special (k : SFun) (x : Nat) : Canon .f32 (special k x).1 := by
  cases h : unpackF .f32 x with
  | nan sg =>
    simp only [special, h]
    exact canon_nan _
  | inf neg => exact canon_special_of_inf h k
  | fin neg m e =>
    cases m with
    | zero => exact canon_special_of_zero h k
    | succ m => exact canon_special_of_pos h k

/-! ## The order of numbers -/

/-- The rational number m·2^e. -/
def Dy.val (a : Dy) : ℚ := a.m * (2 : ℚ) ^ a.e

theorem FRat_eq_val_dy (v : FVal) : FRat v = v.dy.val := by
  cases v with
  | nan => simp [FRat, FVal.dy, Dy.val, Dy.zero]
  | inf => simp [FRat, FVal.dy, Dy.val, Dy.zero]
  | fin neg m e => cases neg <;> simp [FRat, FVal.dy, Dy.val]

theorem Dy.m_eq_zero_iff {a : Dy} : a.m = 0 ↔ a.val = 0 := by
  simp [Dy.val, zpow_ne_zero]

/-- A mantissa brought down to an exponent e stands for the same number. -/
theorem mul_two_pow_toNat_mul_zpow (m : Int) {e e' : Int} (h : e ≤ e') :
    ((m * 2 ^ (e' - e).toNat : Int) : ℚ) * (2 : ℚ) ^ e = m * (2 : ℚ) ^ e' := by
  have hpow : (2 : ℚ) ^ (e' - e).toNat = (2 : ℚ) ^ (e' - e) := by
    rw [← zpow_natCast, Int.toNat_of_nonneg (sub_nonneg.mpr h)]
  push_cast
  rw [hpow, mul_assoc, ← zpow_add₀ two_ne_zero, sub_add_cancel]

theorem Dy.val_eq_align_left (a b : Dy) : a.val = (a.align b).1 * (2 : ℚ) ^ (min a.e b.e) :=
  (mul_two_pow_toNat_mul_zpow a.m (min_le_left _ _)).symm

theorem Dy.val_eq_align_right (a b : Dy) : b.val = (a.align b).2.1 * (2 : ℚ) ^ (min a.e b.e) :=
  (mul_two_pow_toNat_mul_zpow b.m (min_le_right _ _)).symm

theorem Dy.lt_iff {a b : Dy} : a.lt b = true ↔ a.val < b.val := by
  rw [Dy.val_eq_align_left a b, Dy.val_eq_align_right a b, mul_lt_mul_iff_left₀ (zpow_pos two_pos _)]
  simp [Dy.lt]

theorem Dy.eq_iff {a b : Dy} : a.eq b = true ↔ a.val = b.val := by
  rw [Dy.val_eq_align_left a b, Dy.val_eq_align_right a b, mul_left_inj' (zpow_ne_zero _ two_ne_zero)]
  simp [Dy.eq]

/-- A number below another, or −0 below +0 (R119). -/
theorem fvLt_iff {a b : FVal} (ha : FFin a) (hb : FFin b) : fvLt true a b = true ↔
    FRat a < FRat b ∨ (FRat a = FRat b ∧ FRat a = 0 ∧ a.sgn = true ∧ b.sgn = false) := by
  obtain ⟨na, ia⟩ := ha
  obtain ⟨nb, ib⟩ := hb
  have hlt : fvLt true a b = (a.dy.lt b.dy || (true && a.dy.eq b.dy && a.dy.m = 0 && a.sgn && !b.sgn)) := by
    cases a with
    | nan => cases na
    | inf n => exact absurd rfl (ia n)
    | fin => cases b with
      | nan => cases nb
      | inf n => exact absurd rfl (ib n)
      | fin => rfl
  simp [hlt, Dy.lt_iff, Dy.eq_iff, Dy.m_eq_zero_iff, FRat_eq_val_dy, and_assoc]

theorem fvLt_of_zeros {a b : FVal} (ha : FFin a) (hb : FFin b) (za : FRat a = 0) (zb : FRat b = 0) :
    fvLt true a b = (a.sgn && !b.sgn) := by
  rw [Bool.eq_iff_iff, fvLt_iff ha hb]
  simp [za, zb]

/-- Nothing is above +∞. -/
theorem fvLt_inf_false_left (z : Bool) (b : FVal) : fvLt z (.inf false) b = false := by
  rcases b with _ | (_ | _) | _ <;> rfl

/-- Nothing is below −∞. -/
theorem fvLt_inf_true_right (z : Bool) (a : FVal) : fvLt z a (.inf true) = false := by
  rcases a with _ | (_ | _) | _ <;> rfl

theorem fvLt_inf_left (z n : Bool) {b : FVal} (hb : FFin b) : fvLt z (.inf n) b = n := by
  obtain ⟨_, ib⟩ := hb
  cases n with
  | false => exact fvLt_inf_false_left z b
  | true => cases b with
    | inf n => exact absurd rfl (ib n)
    | nan | fin => rfl

theorem fvLt_inf_right (z n : Bool) {a : FVal} (ha : FFin a) : fvLt z a (.inf n) = !n := by
  obtain ⟨_, ia⟩ := ha
  cases n with
  | true => exact fvLt_inf_true_right z a
  | false => cases a with
    | inf n => exact absurd rfl (ia n)
    | nan | fin => rfl

/-! ## Minimum and maximum (R119) -/

/-- Whether the minimum or the maximum of two values that are not NaN is the second. -/
def takesSecond (mx : Bool) (a b : FVal) : Bool := if mx then fvLt true a b else fvLt true b a

theorem takesSecond_inf_left {mx n : Bool} {b : FVal} (hb : FFin b) : takesSecond mx (.inf n) b = true ↔ n = mx := by
  cases mx <;> simp [takesSecond, fvLt_inf_left _ _ hb, fvLt_inf_right _ _ hb]

theorem takesSecond_inf_right {mx n : Bool} {a : FVal} (ha : FFin a) : takesSecond mx a (.inf n) = true ↔ n ≠ mx := by
  cases mx <;> simp [takesSecond, fvLt_inf_left _ _ ha, fvLt_inf_right _ _ ha]

/-- +∞ as the first is the maximum of it and any value, −∞ the minimum. -/
theorem takesSecond_inf_of_ne {mx n : Bool} (h : n ≠ mx) (b : FVal) : takesSecond mx (.inf n) b = false := by
  cases mx with
  | false => rw [Bool.eq_true_of_not_eq_false h]; exact fvLt_inf_true_right _ _
  | true => rw [Bool.eq_false_of_not_eq_true h]; exact fvLt_inf_false_left _ _

theorem FRat_takesSecond {a b : FVal} (mx : Bool) (ha : FFin a) (hb : FFin b) :
    FRat (if takesSecond mx a b then b else a) = if mx then max (FRat a) (FRat b) else min (FRat a) (FRat b) := by
  cases mx with
  | true =>
    simp only [takesSecond, if_true, fvLt_iff ha hb]
    split_ifs with h
    · exact (max_eq_right (h.elim le_of_lt fun h => h.1.le)).symm
    · exact (max_eq_left (not_lt.mp fun hlt => h (.inl hlt))).symm
  | false =>
    simp only [takesSecond, Bool.false_eq_true, if_false, fvLt_iff hb ha]
    split_ifs with h
    · exact (min_eq_right (h.elim le_of_lt fun h => h.1.le)).symm
    · exact (min_eq_left (not_lt.mp fun hlt => h (.inl hlt))).symm

/-- Of two zeros the maximum is −0 only of two −0, the minimum +0 only of two +0. -/
theorem sgn_takesSecond {a b : FVal} (mx : Bool) (ha : FFin a) (hb : FFin b) (za : FRat a = 0) (zb : FRat b = 0) :
    (if takesSecond mx a b then b else a).sgn = if mx then a.sgn && b.sgn else a.sgn || b.sgn := by
  cases mx with
  | true =>
    simp only [takesSecond, if_true, fvLt_of_zeros ha hb za zb]
    cases sa : a.sgn <;> cases sb : b.sgn <;> simp [sa, sb]
  | false =>
    simp only [takesSecond, Bool.false_eq_true, if_false, fvLt_of_zeros hb ha zb za]
    cases sa : a.sgn <;> cases sb : b.sgn <;> simp [sa, sb]

section MinMax

variable {f : Fmt} {mx : Bool} {x y : Nat}

theorem minMaxF_snd : (minMaxF f mx x y).2 =
    if (unpackF f x).isSnan ∨ (unpackF f y).isSnan then Flags.invalid else 0 := by
  have hfl : (minMaxF f mx x y).2 = Flags.when ((unpackF f x).isSnan || (unpackF f y).isSnan) Flags.invalid := by
    simp only [minMaxF]
    split_ifs <;> rfl
  simp only [hfl, Flags.when, Bool.or_eq_true]

theorem minMaxF_of_nan_nan (hx : (unpackF f x).isNan = true) (hy : (unpackF f y).isNan = true) :
    (minMaxF f mx x y).1 = f.nan := by
  simp [minMaxF, hx, hy]

theorem minMaxF_of_nan_left (hx : (unpackF f x).isNan = true) (hy : (unpackF f y).isNan = false) :
    (minMaxF f mx x y).1 = y := by
  simp [minMaxF, hx, hy]

theorem minMaxF_of_nan_right (hx : (unpackF f x).isNan = false) (hy : (unpackF f y).isNan = true) :
    (minMaxF f mx x y).1 = x := by
  simp [minMaxF, hx, hy]

theorem minMaxF_of_not_nan (hx : (unpackF f x).isNan = false) (hy : (unpackF f y).isNan = false) :
    (minMaxF f mx x y).1 = if takesSecond mx (unpackF f x) (unpackF f y) then y else x := by
  cases mx <;> simp [minMaxF, hx, hy, takesSecond]

/-- The value of the result, where neither operand is NaN. -/
theorem unpackF_minMaxF (hx : (unpackF f x).isNan = false) (hy : (unpackF f y).isNan = false) :
    unpackF f (minMaxF f mx x y).1 =
      if takesSecond mx (unpackF f x) (unpackF f y) then unpackF f y else unpackF f x := by
  rw [minMaxF_of_not_nan hx hy, apply_ite (unpackF f)]

theorem canon_minMaxF : Canon f (minMaxF f mx x y).1 := by
  cases hx : (unpackF f x).isNan <;> cases hy : (unpackF f y).isNan
  · rw [minMaxF_of_not_nan hx hy]
    split
    · exact canon_of_isNan_false hy
    · exact canon_of_isNan_false hx
  · rw [minMaxF_of_nan_right hx hy]
    exact canon_of_isNan_false hx
  · rw [minMaxF_of_nan_left hx hy]
    exact canon_of_isNan_false hy
  · rw [minMaxF_of_nan_nan hx hy]
    exact canon_nan f

theorem minMaxF_of_inf_left {n : Bool} (hx : unpackF f x = .inf n) (hy : FFin (unpackF f y)) :
    (minMaxF f mx x y).1 = if n = mx then y else x := by
  rw [minMaxF_of_not_nan (by rw [hx]; rfl) hy.1, hx]
  simp only [takesSecond_inf_left hy]

theorem minMaxF_of_inf_right {n : Bool} (hx : FFin (unpackF f x)) (hy : unpackF f y = .inf n) :
    (minMaxF f mx x y).1 = if n = mx then x else y := by
  rw [minMaxF_of_not_nan hx.1 (by rw [hy]; rfl), hy]
  simp only [takesSecond_inf_right hx, ite_not]

/-- Of an infinity and any second operand but a NaN the result is as with a number, or it equals that infinity. -/
theorem minMaxF_inf_left_or_eq_inf {n : Bool} (hx : unpackF f x = .inf n) (hy : (unpackF f y).isNan = false) :
    (minMaxF f mx x y).1 = (if n = mx then y else x) ∨ unpackF f (minMaxF f mx x y).1 = .inf n := by
  have hxn : (unpackF f x).isNan = false := by rw [hx]; rfl
  by_cases hn : n = mx
  · rw [if_pos hn, unpackF_minMaxF hxn hy, minMaxF_of_not_nan hxn hy, ← hx]
    split
    · exact .inl rfl
    · exact .inr rfl
  · rw [if_neg hn, minMaxF_of_not_nan hxn hy, hx, takesSecond_inf_of_ne hn]
    exact .inl rfl

end MinMax

theorem minimumAndMaximum : MinimumAndMaximum := by
  intro f _ x y mx
  refine ⟨minMaxF_snd, minMaxF_of_nan_nan, minMaxF_of_nan_left, minMaxF_of_nan_right, fun hx hy =>
    ⟨?_, fun ha hb => ?_, fun ha hb za zb => ?_, fun n ha => ?_, fun n ha hb => minMaxF_of_inf_left ha hb,
      fun n hb ha => minMaxF_of_inf_right ha hb⟩⟩
  · rw [minMaxF_of_not_nan hx hy]
    exact (ite_eq_or_eq _ y x).symm
  · rw [unpackF_minMaxF hx hy]
    exact FRat_takesSecond mx ha hb
  · rw [unpackF_minMaxF hx hy]
    exact sgn_takesSecond mx ha hb za zb
  · rw [ha]
    exact minMaxF_inf_left_or_eq_inf ha hy

/-- The formats of arithmetic are among those of conversions. -/
theorem mem_formats_of_mem_arith {f : Fmt} (hf : f ∈ [Fmt.f32, .bf16, .f16]) :
    f ∈ [Fmt.f32, .bf16, .f16, .e4m3f, .e5m2] :=
  show f ∈ [Fmt.f32, .bf16, .f16] ++ [.e4m3f, .e5m2] from List.mem_append_left _ hf

/-- Settles O16: rounding never gives a NaN, so each operation gives one only where it writes the canonical NaN out; minimum and
maximum follow from the order of finite values as rational numbers. -/
theorem nansAreCanonical : Obligations.NansAreCanonical := by
  refine ⟨minimumAndMaximum, fun f hf => ?_, fun dt hdt => ⟨fun st rm x => canon_cvtFF hdt st rm x,
    fun rm n => canon_cvtIF hdt rm n⟩, canon_special⟩
  have hf' := mem_formats_of_mem_arith hf
  exact ⟨canon_sumProd hf', fun _ _ => sumProd_of_isNan, fun _ _ => sumProd_of_isSnan, fun _ _ _ => canon_minMaxF,
    fun _ _ _ hx hy => ⟨minMaxF_of_nan_left hx hy, minMaxF_of_nan_right hy hx⟩, canon_rndF hf', canon_scaleF hf'⟩

end Sys2Proof.Machine

/-! # TRAP, TRAPRET and the warp's trap handler (R166, R424, R426) -/

namespace Sys2Proof.Machine

open Sys2Proof Sys2Proof.Claims

/-! ## The issuing gang's own warp -/

/-- The block and the warp that a gang's context holds stand in the state at its places. -/
theorem getElem?_of_gangOf {s : State} {p : Party} {k : GCtx} (h : gangOf s p = some k) :
    s.blocks[k.b]? = some k.blk ∧ k.blk.warps[k.w]? = some k.wp := by
  cases p with
  | gang b w g =>
    simp only [gangOf] at h
    split at h
    next => cases h
    next blk hblk =>
      split at h
      next => cases h
      next wp hwp =>
        split at h
        next => cases h
        next => cases h; exact ⟨hblk, hwp⟩
  | _ => cases h

/-- Two updates of one warp are one. -/
theorem modWarp_modWarp (s : State) (b w : Nat) (f g : Warp → Warp) :
    modWarp (modWarp s b w f) b w g = modWarp s b w fun x => g (f x) := by
  simp only [modWarp, modBlock_modBlock, List.modify_modify_eq]
  rfl

/-- An update of one list element depends only on what it makes of the element that stands there. -/
theorem modify_congr_of_getElem? {α : Type} {l : List α} {i : Nat} {a : α} {f g : α → α} (h : l[i]? = some a)
    (hfg : f a = g a) : l.modify i f = l.modify i g := by
  rw [List.modify_eq_set_getElem?, List.modify_eq_set_getElem?, h]
  simp only [Option.map_eq_map, Option.map_some, hfg]

/-- An update of the issuing gang's warp depends only on what it makes of the warp that the gang's context holds. -/
theorem modWarp_congr_of_gangOf {s : State} {p : Party} {k : GCtx} {f g : Warp → Warp} (h : gangOf s p = some k)
    (hfg : f k.wp = g k.wp) : modWarp s k.b k.w f = modWarp s k.b k.w g := by
  obtain ⟨hblk, hwp⟩ := getElem?_of_gangOf h
  have hblocks : s.blocks.modify k.b (fun x => { x with warps := x.warps.modify k.w f }) =
      s.blocks.modify k.b fun x => { x with warps := x.warps.modify k.w g } :=
    modify_congr_of_getElem? hblk (by rw [modify_congr_of_getElem? hwp hfg])
  rw [modWarp, modBlock, hblocks]
  rfl

/-- A meaning that updates the issuing gang's warp and goes on leaves the warp as `WarpBecomes` says. -/
theorem warpBecomes_advance {s : State} {p : Party} {k : GCtx} (f : Warp → Warp) (h : gangOf s p = some k) :
    WarpBecomes s k (f k.wp) (.next (advance (modWarp s k.b k.w f) k)) := by
  rw [WarpBecomes, advance, modGang, modWarp_modWarp]
  exact congrArg _ (modWarp_congr_of_gangOf h rfl)

/-- Where no lane participates, a meaning without a result only goes on (R63, R83). -/
theorem onLanes_of_no_lane {s : State} {k : GCtx} {c : Ctl} {f : GCtx → LaneMask → Except Raise State}
    (hg : gangOf s s.cur = some k) (hp : partLanes k c = .ok 0) : onLanes s c f = .next (advance s k) := by
  rw [onLanes, onGang_gang hg, hp]
  simp only [if_true]

/-! ## TRAP (R166, R426) -/

section Trap

variable {s : State} {k : GCtx} {c : Ctl} {m : LaneMask}

theorem execTrap_enters (n : BitVec 13) (hi : Issues s k c m) (hin : k.g.inHandler = false)
    (htvec : k.wp.tvec ≠ 0xFFFFFFFF) : execTrap c n s = .next (enterTrap s k (lowLane m) n) := by
  rw [execTrap, onLanes_issues hi, if_neg (Bool.eq_false_iff.mp hin), if_neg htvec]

theorem execTrap_in_handler (n : BitVec 13) (hi : Issues s k c m) (hin : k.g.inHandler = true) :
    execTrap c n s = .next (takeFault s s.cur (raise .illegal (some (lowLane m)) 8)) := by
  rw [execTrap, onLanes_issues hi, if_pos hin]

theorem execTrap_without_handler (n : BitVec 13) (hi : Issues s k c m) (hin : k.g.inHandler = false)
    (htvec : k.wp.tvec = 0xFFFFFFFF) :
    execTrap c n s = .next (takeFault s s.cur (raise .illegal (some (lowLane m)) 1 n.toNat)) := by
  rw [execTrap, onLanes_issues hi, if_neg (Bool.eq_false_iff.mp hin), if_pos htvec]

end Trap

/-! ## The handler's register, and TRAPRET (R424, R426) -/

theorem execCsrw_tvec {s : State} {k : GCtx} {c : Ctl} {m : LaneMask} {a : Src} {x : Word} (hi : Issues s k c m)
    (ha : readUni k m a = .ok x) :
    execCsrw c 0 a s = .next (advance (modWarp s k.b k.w fun wp => { wp with tvec := x }) k) := by
  rw [execCsrw, onLanes_issues hi, ha]
  rfl

theorem execTrapret_leaves {s : State} {k : GCtx} (c : Ctl) (hg : gangOf s s.cur = some k)
    (hin : k.g.inHandler = true) : execTrapret c s = .next (leaveTrap s k) := by
  rw [execTrapret, onGang_gang hg, if_pos hin]

theorem execTrapret_outside_handler {s : State} {k : GCtx} (c : Ctl) (hg : gangOf s s.cur = some k)
    (hin : k.g.inHandler = false) :
    execTrapret c s = .next (takeFault s s.cur (raise .illegal (some (lowActive k.wp k.g)) 8)) := by
  rw [execTrapret, onGang_gang hg, if_neg (Bool.eq_false_iff.mp hin)]

/-- Settles O29: each clause is the outcome of TRAP, TRAPRET or CSRW in one of its cases; the CSRW of tvec is an update of
the warp that the issuing gang stands in. -/
theorem trapsEnterAndLeave : Obligations.TrapsEnterAndLeave := by
  intro s k c hg
  refine ⟨fun m n hi => ⟨?_, ?_, ?_⟩, fun hp n => ?_, fun nd j r => rfl, fun m a x hi ha => ?_, ?_, ?_⟩
  · exact execTrap_enters n hi
  · exact execTrap_in_handler n hi
  · exact execTrap_without_handler n hi
  · exact onLanes_of_no_lane hg hp
  · change WarpBecomes s k _ (execCsrw c 0 a s)
    rw [execCsrw_tvec hi ha]
    exact warpBecomes_advance (fun wp => { wp with tvec := x }) hg
  · exact execTrapret_leaves c hg
  · exact execTrapret_outside_handler c hg

end Sys2Proof.Machine

/-! # Decoding the bytes of a word (R59 to R81) -/

namespace Sys2Proof.Laws

open Sys2Proof

/-! ## A word from its bytes -/

/-- Bit i of the word that bytes hold is bit i % 8 of byte i / 8 (R59). -/
theorem getLsbD_wordOfBytes (bs : List Byte) {i : Nat} (hi : i < 96) :
    (wordOfBytes bs).getLsbD i = (bs.getD (i / 8) 0).getLsbD (i % 8) := by
  induction bs generalizing i with
  | nil => simp [wordOfBytes]
  | cons b r ih =>
    simp only [wordOfBytes, BitVec.getLsbD_or, BitVec.getLsbD_shiftLeft, BitVec.getLsbD_setWidth, hi, decide_true,
      Bool.true_and]
    by_cases h : i < 8
    · have h0 : i / 8 = 0 := Nat.div_eq_of_lt h
      simp [h, h0, Nat.mod_eq_of_lt h]
    · have hd : i / 8 = (i - 8) / 8 + 1 := by omega
      have hm : i % 8 = (i - 8) % 8 := by omega
      have hb : b.getLsbD i = false := BitVec.getLsbD_of_ge b i (by omega)
      rw [hb, ih (by omega), hd, hm, List.getD_cons_succ]
      simp [h]

theorem bytesOfWord_length (w : IWord) : (bytesOfWord w).length = 12 := by simp [bytesOfWord]

theorem wordOfBytes_bytesOfWord (w : IWord) : wordOfBytes (bytesOfWord w) = w := by
  refine BitVec.eq_of_getLsbD_eq fun i hi => ?_
  have hb : (bytesOfWord w).getD (i / 8) 0 = w.extractLsb' (8 * (i / 8)) 8 := by
    simp [bytesOfWord, show i / 8 < 12 by omega]
  have hm : i % 8 < 8 := Nat.mod_lt _ (by decide)
  rw [getLsbD_wordOfBytes _ hi, hb, BitVec.getLsbD_extractLsb', decide_eq_true hm, Bool.true_and, Nat.div_add_mod]

/-! ## The opcode of an encoded word is assigned (R78) -/

theorem opAssigned_mk (cls op c dst a b e mod) (h : 1 ≤ op.toNat ∧ op.toNat ≤ opsOf cls.toNat) :
    opAssigned (splitWord (mk cls op c dst a b e mod)) = true := by
  simp only [mk, splitWord_packWord, opAssigned, decide_eq_true h.1, decide_eq_true h.2, Bool.and_self]

theorem opAssigned_of_encode {i : Instr} {x : IWord} (h : encode i = some x) : opAssigned (splitWord x) = true := by
  cases i with
  | vote _ form | pmov _ form | csig _ form | cwait _ form => cases form <;> cases h <;> exact opAssigned_mk _ _ _ _ _ _ _ _ (by decide)
  | atom _ d | satom _ d => cases d <;> cases h <;> exact opAssigned_mk _ _ _ _ _ _ _ _ (by decide)
  | bru _ target => cases target <;> cases h <;> exact opAssigned_mk _ _ _ _ _ _ _ _ (by decide)
  | twait _ p => cases p <;> cases h <;> exact opAssigned_mk _ _ _ _ _ _ _ _ (by decide)
  | _ => cases h <;> exact opAssigned_mk _ _ _ _ _ _ _ _ (by decide)

/-! ## Every instruction with a word -/

/-- One instruction after the other, as its form gives its fields; an event has no word. -/
theorem decode_of_encode (i : Instr) : RoundTrip.Statement i := by
  cases i with
  | iadd => apply RoundTrip.iadd
  | isub => apply RoundTrip.isub
  | imul => apply RoundTrip.imul
  | imulhi => apply RoundTrip.imulhi
  | imad => apply RoundTrip.imad
  | imin => apply RoundTrip.imin
  | imax => apply RoundTrip.imax
  | iabs => apply RoundTrip.iabs
  | isetp => apply RoundTrip.isetp
  | shl => apply RoundTrip.shl
  | shr => apply RoundTrip.shr
  | sar => apply RoundTrip.sar
  | and => apply RoundTrip.and
  | or => apply RoundTrip.or
  | xor => apply RoundTrip.xor
  | andn => apply RoundTrip.andn
  | lop3 => apply RoundTrip.lop3
  | popc => apply RoundTrip.popc
  | clz => apply RoundTrip.clz
  | brev => apply RoundTrip.brev
  | bfx => apply RoundTrip.bfx
  | bfi => apply RoundTrip.bfi
  | sel => apply RoundTrip.sel
  | prmt => apply RoundTrip.prmt
  | idot4 => apply RoundTrip.idot4
  | mov => apply RoundTrip.mov
  | movi => apply RoundTrip.movi
  | cvt => apply RoundTrip.cvt
  | sread => apply RoundTrip.sread
  | vtag => apply RoundTrip.vtag
  | vshape => apply RoundTrip.vshape
  | vexp => apply RoundTrip.vexp
  | shfl => apply RoundTrip.shfl
  | vote => apply RoundTrip.vote
  | redx => apply RoundTrip.redx
  | scanx => apply RoundTrip.scanx
  | xset => apply RoundTrip.xset
  | xclr => apply RoundTrip.xclr
  | plop => apply RoundTrip.plop
  | pmov => apply RoundTrip.pmov
  | fadd => apply RoundTrip.fadd
  | fsub => apply RoundTrip.fsub
  | fmul => apply RoundTrip.fmul
  | ffma => apply RoundTrip.ffma
  | fmin => apply RoundTrip.fmin
  | fmax => apply RoundTrip.fmax
  | fsetp => apply RoundTrip.fsetp
  | frnd => apply RoundTrip.frnd
  | fclass => apply RoundTrip.fclass
  | fscale => apply RoundTrip.fscale
  | fdot2 => apply RoundTrip.fdot2
  | rcp => apply RoundTrip.rcp
  | rsq => apply RoundTrip.rsq
  | sqrt => apply RoundTrip.sqrt
  | ex2 => apply RoundTrip.ex2
  | lg2 => apply RoundTrip.lg2
  | sinpi => apply RoundTrip.sinpi
  | cospi => apply RoundTrip.cospi
  | tanh => apply RoundTrip.tanh
  | ld => apply RoundTrip.ld
  | st => apply RoundTrip.st
  | qst => apply RoundTrip.qst
  | atom => apply RoundTrip.atom
  | atomo => apply RoundTrip.atomo
  | fence => apply RoundTrip.fence
  | waita => apply RoundTrip.waita
  | pref => apply RoundTrip.pref
  | bra => apply RoundTrip.bra
  | bru => apply RoundTrip.bru
  | brx => apply RoundTrip.brx
  | call => apply RoundTrip.call
  | callx => apply RoundTrip.callx
  | ret => apply RoundTrip.ret
  | regang => apply RoundTrip.regang
  | exit => apply RoundTrip.exit
  | yield => apply RoundTrip.yield
  | safe => apply RoundTrip.safe
  | xfer => apply RoundTrip.xfer
  | trap => apply RoundTrip.trap
  | nop => apply RoundTrip.nop
  | bkpt => apply RoundTrip.bkpt
  | bara => apply RoundTrip.bara
  | barw => apply RoundTrip.barw
  | bars => apply RoundTrip.bars
  | twait => apply RoundTrip.twait
  | dqpop => apply RoundTrip.dqpop
  | sigop => apply RoundTrip.sigop
  | sadd => apply RoundTrip.sadd
  | ssub => apply RoundTrip.ssub
  | smul => apply RoundTrip.smul
  | sand => apply RoundTrip.sand
  | sor => apply RoundTrip.sor
  | sxor => apply RoundTrip.sxor
  | sshl => apply RoundTrip.sshl
  | sshr => apply RoundTrip.sshr
  | ssar => apply RoundTrip.ssar
  | smin => apply RoundTrip.smin
  | smax => apply RoundTrip.smax
  | scmp => apply RoundTrip.scmp
  | ssel => apply RoundTrip.ssel
  | smov => apply RoundTrip.smov
  | smovi => apply RoundTrip.smovi
  | sld => apply RoundTrip.sld
  | sst => apply RoundTrip.sst
  | satom => apply RoundTrip.satom
  | sbr => apply RoundTrip.sbr
  | sjmp => apply RoundTrip.sjmp
  | scall => apply RoundTrip.scall
  | sret => apply RoundTrip.sret
  | dqpush => apply RoundTrip.dqpush
  | fork => apply RoundTrip.fork
  | join => apply RoundTrip.join
  | hend => apply RoundTrip.hend
  | cpy => apply RoundTrip.cpy
  | cpys => apply RoundTrip.cpys
  | cgath => apply RoundTrip.cgath
  | cscat => apply RoundTrip.cscat
  | tgath => apply RoundTrip.tgath
  | cred => apply RoundTrip.cred
  | cfill => apply RoundTrip.cfill
  | cslot => apply RoundTrip.cslot
  | crecode => apply RoundTrip.crecode
  | csig => apply RoundTrip.csig
  | cwait => apply RoundTrip.cwait
  | cloop => apply RoundTrip.cloop
  | cend => apply RoundTrip.cend
  | mclaim => apply RoundTrip.mclaim
  | mrel => apply RoundTrip.mrel
  | mma => apply RoundTrip.mma
  | mmag => apply RoundTrip.mmag
  | mzero => apply RoundTrip.mzero
  | mstore => apply RoundTrip.mstore
  | macc => apply RoundTrip.macc
  | mbara => apply RoundTrip.mbara
  | mbarw => apply RoundTrip.mbarw
  | mloop => apply RoundTrip.mloop
  | msave => apply RoundTrip.msave
  | mresume => apply RoundTrip.mresume
  | mcur => apply RoundTrip.mcur
  | mend => apply RoundTrip.mend
  | csrr => apply RoundTrip.csrr
  | csrw => apply RoundTrip.csrw
  | trapret => apply RoundTrip.trapret
  | cont => apply RoundTrip.cont
  | fresume => apply RoundTrip.fresume
  | _ => exact RoundTrip.unspelled rfl

/-- Settles O2: the twelve bytes give the word back, its opcode is assigned, and the word decodes. -/
theorem decodingInvertsEncoding : Obligations.DecodingInvertsEncoding := by
  intro i x rest hwf hx
  have hlen := bytesOfWord_length x
  have hword : wordOfBytes ((bytesOfWord x ++ rest).take 12) = x := by
    rw [← hlen, List.take_left, wordOfBytes_bytesOfWord]
  have hrest : (bytesOfWord x ++ rest).drop 12 = rest := by rw [← hlen, List.drop_left]
  have hshort : ¬ (bytesOfWord x ++ rest).length < 12 := by rw [List.length_append, hlen]; omega
  simp only [decodeBytes, if_neg hshort, hword, hrest, opAssigned_of_encode hx, if_true, decode_of_encode i hwf x hx]

end Sys2Proof.Laws

/-! # Writes of the device's memory: granules, poison, reading back (R138, R431) -/

namespace Sys2Proof.Machine

open Sys2Proof Sys2Proof.Claims

/-! ## Units of a range -/

theorem mem_unitsOf {w a n u : Nat} (hw : 0 < w) : u ∈ unitsOf w a n ↔ a / w ≤ u ∧ u ≤ (a + n - 1) / w := by
  have hd : a / w ≤ (a + n - 1) / w + 1 := by
    by_cases h : n = 0
    · rcases Nat.eq_zero_or_pos a with rfl | ha
      · simp
      · have : a / w ≤ (a - 1) / w + 1 := by
          rw [← Nat.add_div_right _ hw]
          exact Nat.div_le_div_right (by omega)
        simpa [h] using this
    · exact (Nat.div_le_div_right (by omega)).trans (Nat.le_succ _)
  simp only [unitsOf, List.mem_map, List.mem_range]
  constructor
  · rintro ⟨i, hi, rfl⟩
    omega
  · rintro ⟨h1, h2⟩
    exact ⟨u - a / w, by omega, by omega⟩

/-- The granule of every byte of a range is among the range's granules. -/
theorem div_mem_unitsOf {w a n x : Nat} (hw : 0 < w) (h1 : a ≤ x) (h2 : x < a + n) : x / w ∈ unitsOf w a n :=
  (mem_unitsOf hw).mpr ⟨Nat.div_le_div_right h1, Nat.div_le_div_right (by omega)⟩

theorem unitsOf_singleton {w g o n : Nat} (hn : 0 < n) (h : o + n ≤ w) : unitsOf w (w * g + o) n = [g] := by
  have hw : 0 < w := by omega
  have h1 : (w * g + o) / w = g := by
    rw [Nat.mul_add_div hw, Nat.div_eq_of_lt (by omega), Nat.add_zero]
  have h2 : (w * g + o + n - 1) / w = g := by
    rw [Nat.add_assoc, Nat.add_sub_assoc (Nat.le_add_left_of_le hn), Nat.mul_add_div hw, Nat.div_eq_of_lt (by omega), Nat.add_zero]
  simp [unitsOf, h1, h2]

/-! ## The part of a write in one granule -/

/-- The memory after the part of a write at a that falls into granule g. -/
def putPiece (a : Nat) (bs : List Byte) (m : Mem) (g : Nat) : Mem :=
  memWrite m (max a (32 * g))
    ((bs.drop (max a (32 * g) - a)).take (min (a + bs.length) (32 * g + 32) - max a (32 * g)))

theorem putPiece_wf {a : Nat} {bs : List Byte} {m : Mem} {g : Nat} (h : Memory.wf m = true) :
    Memory.wf (putPiece a bs m g) = true := memWrite_wf _ _ h

/-- The addresses of the part of a write at a that falls into granule g. -/
theorem mem_piece_iff {a n g x : Nat} : (max a (32 * g) ≤ x ∧
    x < max a (32 * g) + min (min (a + n) (32 * g + 32) - max a (32 * g)) (n - (max a (32 * g) - a))) ↔
      a ≤ x ∧ x < a + n ∧ x / 32 = g := by
  have part {p e : Nat} (hp : a ≤ p) (he : e ≤ a + n) : (p ≤ x ∧ x < p + min (e - p) (n - (p - a))) ↔ p ≤ x ∧ x < e := by
    rw [min_eq_left (by omega)]
    omega
  have hdiv : x / 32 = g ↔ 32 * g ≤ x ∧ x < 32 * g + 32 := by omega
  rw [part (le_max_left a (32 * g)) (min_le_left (a + n) (32 * g + 32)), max_le_iff, lt_min_iff, hdiv]
  exact ⟨fun ⟨⟨h1, h2⟩, h3, h4⟩ => ⟨h1, h3, h2, h4⟩, fun ⟨h1, h3, h2, h4⟩ => ⟨⟨h1, h2⟩, h3, h4⟩⟩

theorem memGet_putPiece {a : Nat} {bs : List Byte} {m : Mem} {g : Nat} (hm : Memory.wf m = true) (x : Nat) :
    memGet (putPiece a bs m g) x =
      if a ≤ x ∧ x < a + bs.length ∧ x / 32 = g then bs.getD (x - a) 0 else memGet m x := by
  rw [putPiece, memGet_memWrite _ _ _ hm]
  simp only [List.length_take, List.length_drop]
  by_cases h : a ≤ x ∧ x < a + bs.length ∧ x / 32 = g
  · have hpiece := mem_piece_iff.2 h
    obtain ⟨h1, h2, -⟩ := id h
    have hidx : max a (32 * g) - a + (x - max a (32 * g)) = x - a := by
      rw [add_comm, tsub_add_tsub_cancel hpiece.1 (le_max_left _ _)]
    rw [dif_pos hpiece, if_pos h, List.getElem_take, List.getElem_drop,
      List.getD_eq_getElem _ _ ((Nat.sub_lt_iff_lt_add' h1).2 h2)]
    exact getElem_congr_idx hidx
  · rw [dif_neg (mt mem_piece_iff.1 h), if_neg h]

theorem foldl_putPiece_wf {a : Nat} {bs : List Byte} (gs : List Nat) {m : Mem} (h : Memory.wf m = true) :
    Memory.wf (gs.foldl (putPiece a bs) m) = true := by
  induction gs generalizing m with
  | nil => exact h
  | cons g gs ih => exact ih (putPiece_wf h)

theorem memGet_foldl_putPiece {a : Nat} {bs : List Byte} (gs : List Nat) {m : Mem} (hm : Memory.wf m = true) (x : Nat) :
    memGet (gs.foldl (putPiece a bs) m) x =
      if a ≤ x ∧ x < a + bs.length ∧ x / 32 ∈ gs then bs.getD (x - a) 0 else memGet m x := by
  induction gs generalizing m with
  | nil => simp
  | cons g gs ih =>
    rw [List.foldl_cons, ih (putPiece_wf hm), memGet_putPiece hm]
    grind

/-- A write put in place granule by granule is the write. -/
theorem foldl_putPiece_unitsOf {a : Nat} {bs : List Byte} {m : Mem} (hm : Memory.wf m = true) :
    (unitsOf 32 a bs.length).foldl (putPiece a bs) m = memWrite m a bs := by
  refine mem_ext (foldl_putPiece_wf _ hm) (memWrite_wf _ _ hm) fun x => ?_
  rw [memGet_foldl_putPiece _ hm, memGet_memWrite _ _ _ hm]
  by_cases h : a ≤ x ∧ x < a + bs.length
  · rw [dif_pos h, if_pos ⟨h.1, h.2, div_mem_unitsOf (by decide) h.1 h.2⟩, List.getD_eq_getElem]
  · rw [dif_neg h, if_neg fun ⟨h1, h2, _⟩ => h ⟨h1, h2⟩]

theorem putGranule_clean {a : Nat} {bs : List Byte} {s : State} {g : Nat} (h : s.badGranules.contains g = false) :
    putGranule a bs s g = some { s with mem := putPiece a bs s.mem g } := by
  have hf : s.badGranules.filter (· != g) = s.badGranules :=
    List.filter_eq_self.mpr fun x hx => by
      rw [bne_iff_ne]
      rintro rfl
      simp [hx] at h
  rw [putGranule, h, hf]
  rfl

/-- A write of granules none of which is poisoned changes the memory only; what is done with a discarded part does not
matter. -/
theorem foldl_granules_clean {a : Nat} {bs : List Byte} {e : State → Nat → State} (gs : List Nat) {s : State}
    (h : ∀ g ∈ gs, s.badGranules.contains g = false) :
    gs.foldl (fun u g => (putGranule a bs u g).getD (e u g)) s = { s with mem := gs.foldl (putPiece a bs) s.mem } := by
  induction gs generalizing s with
  | nil => rfl
  | cons g gs ih =>
    rw [List.foldl_cons, putGranule_clean (h g List.mem_cons_self), Option.getD_some, ih]
    · rfl
    · exact fun x hx => h x (List.mem_cons_of_mem _ hx)

/-! ## Writes of device memory and of the span -/

/-- A write of device memory that meets no poison: the bytes, and what every write that reaches memory notes. -/
theorem writeDev_clean {s : State} {t : Report} {a : Nat} {bs : List Byte} (hm : Memory.wf s.mem = true)
    (h : ∀ g ∈ unitsOf 32 a bs.length, s.badGranules.contains g = false) :
    writeDev s t a bs = reachDev { s with mem := memWrite s.mem a bs } a bs.length := by
  change reachDev (List.foldl (fun u g => (putGranule a bs u g).getD (report u t 0 (max a (32 * g) - a))) _ _) _ _ = _
  rw [foldl_granules_clean _ h, foldl_putPiece_unitsOf hm]

/-- The same for a write of the device's own. -/
theorem writeOwn_clean {s : State} {a : Nat} {bs : List Byte} (hm : Memory.wf s.mem = true)
    (h : ∀ g ∈ unitsOf 32 a bs.length, s.badGranules.contains g = false) :
    writeOwn s a bs = reachDev { s with mem := memWrite s.mem a bs } a bs.length := by
  rw [writeOwn, foldl_granules_clean _ h, foldl_putPiece_unitsOf hm]

theorem writeLoc_nil (s : State) (t : Report) (l : Loc) : writeLoc s t l [] = s := rfl

theorem writeLoc_dev {s : State} {t : Report} {a : Nat} {bs : List Byte} (h : bs ≠ []) :
    writeLoc s t (.dev a) bs = writeDev s t a bs := by
  rw [writeLoc, if_neg (by simpa using h)]

theorem writeLoc_span {s : State} {t : Report} {o : Nat} {bs : List Byte} (h : bs ≠ []) :
    writeLoc s t (.span o) bs = writeSpan s o bs := by
  rw [writeLoc, if_neg (by simpa using h)]

/-- The memory after a write of clean granules. -/
theorem writeLoc_dev_mem {s : State} {t : Report} {a : Nat} {bs : List Byte} (hm : Memory.wf s.mem = true)
    (h : ∀ g ∈ unitsOf 32 a bs.length, s.badGranules.contains g = false) :
    (writeLoc s t (.dev a) bs).mem = memWrite s.mem a bs := by
  by_cases hb : bs = []
  · subst hb; rfl
  · rw [writeLoc_dev hb, writeDev_clean hm h]
    rfl

theorem writeLoc_span_span (s : State) (t : Report) (o : Nat) (bs : List Byte) :
    (writeLoc s t (.span o) bs).span = memWrite s.span o bs := by
  by_cases hb : bs = []
  · subst hb; rfl
  · rw [writeLoc_span hb]
    rfl

theorem homesWf_iff {s : State} : s.homesWf = true ↔
    Memory.wf s.mem = true ∧ Memory.wf s.span = true ∧ Memory.wf s.lineVer = true := by
  simp only [State.homesWf, Bool.and_eq_true, and_assoc]

/-! ## Poisoned granules (R431) -/

/-- A write that covers part of a poisoned granule is discarded. -/
theorem putGranule_partial {a : Nat} {bs : List Byte} {s : State} {g : Nat} (hg : s.badGranules.contains g = true)
    (h : min (a + bs.length) (32 * g + 32) - max a (32 * g) < 32) : putGranule a bs s g = none := by
  rw [putGranule, if_pos (by simp only [hg, Bool.true_and, decide_eq_true h])]

/-- A write that covers the whole of a granule is performed and clears its poison. -/
theorem putGranule_whole {bs : List Byte} {s : State} {g : Nat} (h : bs.length = 32) :
    putGranule (32 * g) bs s g =
      some { s with mem := putPiece (32 * g) bs s.mem g, badGranules := s.badGranules.filter (· != g) } := by
  rw [putGranule, if_neg (by simp [h])]
  rfl

theorem map_scrub_of_ne {g : Nat} {l : List Scrub} (h : ∀ x ∈ l, x.granule ≠ g) :
    (l.map fun x => if [g].contains x.granule then { x with dropped := true } else x) = l := by
  conv_rhs => rw [← List.map_id l]
  exact List.map_congr_left fun x hx => by simp [h x hx]

theorem writeDev_partial {s : State} {t : Report} {g o : Nat} {bs : List Byte} (hg : s.badGranules.contains g = true)
    (h0 : 0 < bs.length) (h32 : bs.length < 32) (ho : o + bs.length ≤ 32) (hs : ∀ x ∈ s.scrubs, x.granule ≠ g) :
    writeDev s t (32 * g + o) bs = { report s t 0 with wrote := (.dev (32 * g + o), bs.length) :: s.wrote } := by
  have hnone : putGranule (32 * g + o) bs s g = none := putGranule_partial hg (by omega)
  have hoff : max (32 * g + o) (32 * g) - (32 * g + o) = 0 := by omega
  rw [writeDev, unitsOf_singleton h0 ho, List.foldl_cons, List.foldl_nil, writeGranule, hnone, Option.getD_none, hoff,
    reachDev, unitsOf_singleton h0 ho, map_scrub_of_ne (l := (report s t 0).scrubs) hs]
  rfl

theorem writeDev_whole {s : State} {t : Report} {g : Nat} {bs : List Byte} (h : bs.length = 32)
    (hm : Memory.wf s.mem = true) :
    writeDev s t (32 * g) bs = reachDev
      { s with mem := memWrite s.mem (32 * g) bs, badGranules := s.badGranules.filter (· != g) } (32 * g) 32 := by
  have hu : unitsOf 32 (32 * g) bs.length = [g] := unitsOf_singleton (o := 0) (by omega) (by omega)
  have hp : putPiece (32 * g) bs s.mem g = memWrite s.mem (32 * g) bs := by
    rw [← foldl_putPiece_unitsOf hm, hu]
    rfl
  rw [writeDev, hu, List.foldl_cons, List.foldl_nil, writeGranule, putGranule_whole h, hp, h]
  rfl

theorem readAfterWrite : ReadAfterWrite := by
  intro s t a bs hs
  obtain ⟨hmem, hspan, -⟩ := homesWf_iff.mp hs
  refine ⟨fun hg => ⟨?_, fun x hx => ?_⟩, ?_, fun x hx => ?_⟩
  · rw [readLoc, writeLoc_dev_mem hmem hg, memRead_memWrite a bs hmem]
  · rw [writeLoc_dev_mem hmem hg, memGet_memWrite_other a x bs hmem hx]
  · rw [readLoc, writeLoc_span_span, memRead_memWrite a bs hspan]
  · rw [writeLoc_span_span, memGet_memWrite_other a x bs hspan hx]

theorem poisonedGranuleWrites : PoisonedGranuleWrites := by
  intro s t g o bs hg
  refine ⟨fun h0 h32 ho hs => ?_, fun h hs => ?_⟩
  · rw [writeLoc_dev (List.ne_nil_of_length_pos h0), writeDev_partial hg h0 h32 ho hs]
  · obtain ⟨hmem, -, -⟩ := homesWf_iff.mp hs
    rw [writeLoc_dev (List.ne_nil_of_length_pos (by omega)), writeDev_whole h hmem]
    refine ⟨?_, by simp [reachDev], rfl⟩
    rw [readLoc, ← h]
    exact memRead_memWrite _ _ hmem

/-- Settles O7: a write of clean granules, and of the span, is a write of the bytes; of a poisoned granule it is discarded or
clears the poison. -/
theorem readAfterWriteAndPoison : Obligations.ReadAfterWriteAndPoison := ⟨readAfterWrite, poisonedGranuleWrites⟩

end Sys2Proof.Machine

/-! # Guards, integer instructions, data instructions (class 000) -/

namespace Sys2Proof.Machine

open Sys2Proof Sys2Proof.Claims

/-! ## Guards select lanes (R63, R64, R83) -/

theorem partLanes_pt {k : GCtx} {c : Ctl} (h : c.pred = 7) :
    partLanes k c = .ok (if c.inv then 0 else activeLanes k.wp k.g) := by rw [partLanes, if_pos h]

theorem predReg_of_lt (wp : Warp) {n : Fin 8} (h : n.val < 7) : predReg wp n = wp.preds[n.val] := by
  rw [predReg, Vector.getElem?_eq_getElem h]

theorem partLanes_pred {k : GCtx} {c : Ctl} (h : c.pred ≠ 7) :
    partLanes k c = if (predReg k.wp c.pred).poison &&& activeLanes k.wp k.g ≠ 0
      then .error (raise .uncorrectable (some (lowLane ((predReg k.wp c.pred).poison &&& activeLanes k.wp k.g))))
      else .ok (activeLanes k.wp k.g &&& maskOf fun l => predBit (predReg k.wp c.pred).val l != c.inv) := by
  simp only [partLanes, if_neg h, bne_iff_ne]

@[simp] theorem laneBit_and (a b : LaneMask) (l : Nat) : laneBit (a &&& b) l = (laneBit a l && laneBit b l) := by
  simp only [laneBit, BitVec.getLsbD_and]

@[simp] theorem laneBit_zero (l : Nat) : laneBit 0 l = false := by simp [laneBit]

theorem guardsSelectLanes : GuardsSelectLanes := by
  intro k c
  refine ⟨partLanes_pt, fun h => ?_⟩
  have hne : c.pred ≠ 7 := fun e => by rw [e] at h; exact absurd h (by decide)
  have hpart := partLanes_pred (k := k) hne
  rw [predReg_of_lt k.wp h] at hpart
  refine ⟨fun hp => by rw [hpart, if_pos hp], fun hp => ⟨_, by rw [hpart, if_neg (not_not_intro hp)], fun l hl => ?_⟩⟩
  rw [laneBit_and, laneBit_maskOf, decide_eq_true hl, Bool.true_and]

/-- Where no lane participates and the guard is not (!pt), every latch lane takes what the destination holds (R55). -/
theorem onResult_of_no_lane {s : State} {k : GCtx} {c : Ctl} {d : Dst} {f : GCtx → LaneMask → Except Raise State}
    (hg : gangOf s s.cur = some k) (hp : partLanes k c = .ok 0) :
    onResult s c d f = .next (if c.pred = 7 ∧ c.inv = true then advance s k else commit s k k.wp (levelNow k d)) := by
  rw [onResult, onGang_gang hg, hp]
  by_cases h : c.pred = 7 ∧ c.inv = true
  · simp [h]
  · have h' : (decide (c.pred = 7) && c.inv) = false := by
      simpa only [Bool.and_eq_false_iff, decide_eq_false_iff_not, not_and_or, Bool.not_eq_true] using h
    simp only [h', if_neg h, if_true, Bool.false_eq_true, if_false]

theorem noLaneNoEffect : NoLaneNoEffect := by
  intro s k c hg hp
  refine ⟨fun d a b w sat u hc => ?_, fun d a b w sat u h7 hinv => ?_, fun addr data off o sc raw v sz => ?_, ?_⟩
  · exact (onResult_of_no_lane hg hp).trans (by rw [if_neg hc]; rfl)
  · exact (onResult_of_no_lane hg hp).trans (by rw [if_pos ⟨h7, hinv⟩]; rfl)
  · exact onLanes_of_no_lane hg hp
  · exact onLanes_of_no_lane hg hp

/-- Settles O8: what partLanes gives for each guard, and what a meaning run in no lane does. -/
theorem guardsSelectTheLanes : Obligations.GuardsSelectTheLanes := ⟨guardsSelectLanes, noLaneNoEffect⟩

/-! ## The lanes of results under the shape rules (R45, R88) -/

theorem subWord_w32 (u : Bool) (x y : Word) : subWord .w32 false u x y = x - y := by
  simp [subWord, elems2, widthBits, wrapOrClamp, satTo, Int.sub_eq_add_neg, BitVec.ofInt_add, BitVec.ofInt_neg,
    BitVec.sub_eq_add_neg]

/-- Under the affine rule base and stride are added or subtracted apart, which is right where the operation is linear. -/
theorem laneVal_addShape {aff : Bool} {f g : Word → Word → Word} (hfg : aff = true → ∀ x y, g x y = f x y)
    (hf : ∀ b d b' d' n : Word, f (b + d * n) (b' + d' * n) = f b b' + f d d' * n) (x y : VVal) {l : Nat} (hl : l < 32) :
    laneVal (addShape aff f g x y) l = g (laneVal x l) (laneVal y l) := by
  have general : laneVal (lift2 g x y) l = g (laneVal x l) (laneVal y l) := laneVal_lift2 g x y hl
  cases aff with
  | false => exact general
  | true =>
    have hg := hfg rfl
    cases x with
    | u p =>
      cases y with
      | a b d =>
        have := hf p 0 b d (BitVec.ofNat 32 l)
        rw [zero_mul, add_zero] at this
        exact (hg _ _).symm ▸ this.symm
      | _ => exact general
    | a b d =>
      cases y with
      | u q =>
        have := hf b d q 0 (BitVec.ofNat 32 l)
        rw [zero_mul, add_zero] at this
        exact (hg _ _).symm ▸ this.symm
      | a b' d' => exact (hg _ _).symm ▸ (hf b d b' d' (BitVec.ofNat 32 l)).symm
      | g _ => exact general
    | g _ => exact general

theorem laneVal_mulShape {aff : Bool} {g : Word → Word → Word} (hg : aff = true → ∀ x y, g x y = x * y) (x y : VVal)
    {l : Nat} (hl : l < 32) : laneVal (mulShape aff g x y) l = g (laneVal x l) (laneVal y l) := by
  have general : laneVal (lift2 g x y) l = g (laneVal x l) (laneVal y l) := laneVal_lift2 g x y hl
  cases aff with
  | false => exact general
  | true =>
    cases x with
    | u p =>
      cases y with
      | a b d =>
        show p * b + p * d * BitVec.ofNat 32 l = g p (b + d * BitVec.ofNat 32 l)
        rw [hg rfl]
        ring
      | _ => exact general
    | a b d =>
      cases y with
      | u q =>
        show b * q + d * q * BitVec.ofNat 32 l = g (b + d * BitVec.ofNat 32 l) q
        rw [hg rfl]
        ring
      | _ => exact general
    | g _ => exact general

theorem addWord_of_affine {w : Width} {sat : Bool} (u : Bool) (h : affine w sat = true) (x y : Word) :
    addWord w sat u x y = x + y := by
  obtain ⟨rfl, rfl⟩ := affine_iff.mp h
  exact addWord_w32 u x y

theorem subWord_of_affine {w : Width} {sat : Bool} (u : Bool) (h : affine w sat = true) (x y : Word) :
    subWord w sat u x y = x - y := by
  obtain ⟨rfl, rfl⟩ := affine_iff.mp h
  exact subWord_w32 u x y

theorem mulWord_of_affine {w : Width} {sat : Bool} (u : Bool) (h : affine w sat = true) (x y : Word) :
    mulWord w sat u x y = x * y := by
  obtain ⟨rfl, rfl⟩ := affine_iff.mp h
  exact mulWord_w32 u x y

theorem laneVal_addShape_add (w : Width) (sat u : Bool) (x y : VVal) {l : Nat} (hl : l < 32) :
    laneVal (addShape (affine w sat) (· + ·) (addWord w sat u) x y) l = addWord w sat u (laneVal x l) (laneVal y l) :=
  laneVal_addShape (addWord_of_affine u) (fun _ _ _ _ _ => by ring) x y hl

theorem laneVal_addShape_sub (w : Width) (sat u : Bool) (x y : VVal) {l : Nat} (hl : l < 32) :
    laneVal (addShape (affine w sat) (· - ·) (subWord w sat u) x y) l = subWord w sat u (laneVal x l) (laneVal y l) :=
  laneVal_addShape (subWord_of_affine u) (fun _ _ _ _ _ => by ring) x y hl

theorem laneVal_mulShape_mul (w : Width) (sat u : Bool) (x y : VVal) {l : Nat} (hl : l < 32) :
    laneVal (mulShape (affine w sat) (mulWord w sat u) x y) l = mulWord w sat u (laneVal x l) (laneVal y l) :=
  laneVal_mulShape (mulWord_of_affine u) x y hl

theorem laneVal_madShape (w : Width) (sat u : Bool) (x y z : VVal) {l : Nat} (hl : l < 32) :
    laneVal (madShape w sat u x y z) l = madWord w sat u (laneVal x l) (laneVal y l) (laneVal z l) := by
  unfold madShape
  split
  next h =>
    simp only [Bool.and_eq_true] at h
    obtain ⟨rfl, rfl⟩ := affine_iff.mp h.1.1
    have hadd := laneVal_addShape_add .w32 false u (mulShape true (mulWord .w32 false u) x y) z hl
    have hmul := laneVal_mulShape_mul .w32 false u x y hl
    rw [show affine .w32 false = true from rfl] at hadd hmul
    rw [hadd, hmul, addWord_w32, mulWord_w32, madWord_w32]
  next => exact laneVal_lift3 _ x y z hl

/-! ## Instructions of one, two and three sources (R83) -/

theorem gives2_of_lanes {w : Width} {sa sb : Bool} {f : VVal → VVal → VVal} {g : Word → Word → Word}
    {i : Ctl → Dst → Src → Src → Instr} (hi : ∀ s c d a b, exec (i c d a b) s = op2 s c d a b w sa sb f)
    (hf : ∀ x y, ∀ l < 32, laneVal (f x y) l = g (laneVal x l) (laneVal y l)) : Gives2 i w sa sb g := by
  intro s k c m d a b x y hs ha hb hd
  exact ⟨f x y, hf x y, hi s c d a b ▸ op2_produces f hs ha hb hd⟩

theorem gives3_of_lanes {w : Width} {sg : Bool} {f : VVal → VVal → VVal → VVal} {g : Word → Word → Word → Word}
    {i : Ctl → Dst → Src → Src → Src → Instr} (hi : ∀ s c d a b e, exec (i c d a b e) s = op3 s c d a b e w sg f)
    (hf : ∀ x y z, ∀ l < 32, laneVal (f x y z) l = g (laneVal x l) (laneVal y l) (laneVal z l)) : Gives3 i w sg g := by
  intro s k c m d a b e x y z hs ha hb he hd
  exact ⟨f x y z, hf x y z, hi s c d a b e ▸ op3_produces f hs ha hb he hd⟩

theorem op1_produces {s : State} {k : GCtx} {c : Ctl} {m : LaneMask} {d : Dst} {a : Src} {x : VVal} {w : Width} {sg : Bool}
    (f : VVal → VVal) (hi : Issues s k c m) (ha : readSrc k m (.int w) sg a = .ok x) (hd : CanWrite k d m) :
    Produces s k d m (f x) id (op1 s c d a w sg f) := by
  refine produces_of_putResult hi.some hd ?_
  rw [op1, onResult_issues hi, ha, Except.map_id]
  rfl

theorem gives1_of_lanes {w : Width} {sg : Bool} {f : VVal → VVal} {g : Word → Word} {i : Ctl → Dst → Src → Instr}
    (hi : ∀ s c d a, exec (i c d a) s = op1 s c d a w sg f) (hf : ∀ x, ∀ l < 32, laneVal (f x) l = g (laneVal x l)) :
    Gives1 i w sg g := by
  intro s k c m d a x hs ha hd
  exact ⟨f x, hf x, hi s c d a ▸ op1_produces f hs ha hd⟩

/-- The general rule of R45 for two sources. -/
theorem gives2_lift2 {w : Width} {sa sb : Bool} {g : Word → Word → Word} {i : Ctl → Dst → Src → Src → Instr}
    (hi : ∀ s c d a b, exec (i c d a b) s = op2 s c d a b w sa sb (lift2 g)) : Gives2 i w sa sb g :=
  gives2_of_lanes hi fun x y _ hl => laneVal_lift2 g x y hl

theorem gives3_lift3 {w : Width} {sg : Bool} {g : Word → Word → Word → Word} {i : Ctl → Dst → Src → Src → Src → Instr}
    (hi : ∀ s c d a b e, exec (i c d a b e) s = op3 s c d a b e w sg (lift3 g)) : Gives3 i w sg g :=
  gives3_of_lanes hi fun x y z _ hl => laneVal_lift3 g x y z hl

theorem gives1_lift1 {w : Width} {sg : Bool} {g : Word → Word} {i : Ctl → Dst → Src → Instr}
    (hi : ∀ s c d a, exec (i c d a) s = op1 s c d a w sg (lift1 g)) : Gives1 i w sg g :=
  gives1_of_lanes hi fun x _ hl => laneVal_lift1 g x hl

theorem laneVal_shlShape_lanes (w : Width) (x y : VVal) {l : Nat} (hl : l < 32) :
    laneVal (shlShape w x y) l = shlWord w (laneVal x l) (laneVal y l) := by
  have general : laneVal (lift2 (shlWord w) x y) l = shlWord w (laneVal x l) (laneVal y l) := laneVal_lift2 _ x y hl
  cases y with
  | u n => exact laneVal_shlShape w x n hl
  | _ => cases w <;> cases x <;> exact general

theorem integerOfTwoSources : IntegerOfTwoSources :=
  ⟨fun w sat u => gives2_of_lanes (fun _ _ _ _ _ => rfl) fun x y _ hl => laneVal_addShape_add w sat u x y hl,
   fun w sat u => gives2_of_lanes (fun _ _ _ _ _ => rfl) fun x y _ hl => laneVal_addShape_sub w sat u x y hl,
   fun w sat u => gives2_of_lanes (fun _ _ _ _ _ => rfl) fun x y _ hl => laneVal_mulShape_mul w sat u x y hl,
   fun _ _ => gives2_lift2 fun _ _ _ _ _ => rfl, fun _ _ => gives2_lift2 fun _ _ _ _ _ => rfl,
   fun _ _ => gives2_lift2 fun _ _ _ _ _ => rfl,
   fun w => gives2_of_lanes (fun _ _ _ _ _ => rfl) fun x y _ hl => laneVal_shlShape_lanes w x y hl,
   fun _ => gives2_lift2 fun _ _ _ _ _ => rfl, fun _ => gives2_lift2 fun _ _ _ _ _ => rfl,
   gives2_lift2 fun _ _ _ _ _ => rfl, gives2_lift2 fun _ _ _ _ _ => rfl, gives2_lift2 fun _ _ _ _ _ => rfl,
   gives2_lift2 fun _ _ _ _ _ => rfl, fun _ => gives2_lift2 fun _ _ _ _ _ => rfl⟩

theorem integerOfOneAndThreeSources : IntegerOfOneAndThreeSources :=
  ⟨fun _ _ => gives1_lift1 fun _ _ _ _ => rfl, fun _ => gives1_lift1 fun _ _ _ _ => rfl,
   fun _ => gives1_lift1 fun _ _ _ _ => rfl, fun _ => gives1_lift1 fun _ _ _ _ => rfl,
   gives1_of_lanes (f := id) (fun _ _ _ _ => rfl) fun _ _ _ => rfl,
   fun w sat u => gives3_of_lanes (fun _ _ _ _ _ _ => rfl) fun x y z _ hl => laneVal_madShape w sat u x y z hl,
   fun tt _ _ _ _ _ _ _ _ x y z hs ha hb he hd =>
     ⟨_, fun _ hl => laneVal_lift3 (lop3 tt) x y z hl, op3_produces (lift3 (lop3 tt)) hs ha hb he hd⟩,
   gives3_lift3 fun _ _ _ _ _ _ => rfl, gives3_lift3 fun _ _ _ _ _ _ => rfl,
   fun _ _ => gives3_lift3 fun _ _ _ _ _ _ => rfl⟩

/-- Settles O9: each instruction is a function of words, applied lane by lane to values of every shape. -/
theorem integerInstructions : Obligations.IntegerInstructions := ⟨integerOfTwoSources, integerOfOneAndThreeSources⟩

/-! ## Data instructions and special registers (R56, R96 to R103, R424) -/

theorem laneVal_selVal (p : PVal) (x y : VVal) {l : Nat} (hl : l < 32) :
    laneVal (selVal p x y) l = if predBit p l then laneVal x l else laneVal y l := by
  have general : laneVal (mkG fun l => if predBit p l then laneVal x l else laneVal y l) l =
      if predBit p l then laneVal x l else laneVal y l := laneVal_mkG _ hl
  cases p with
  | g _ => exact general
  | u t =>
    cases x with
    | u _ =>
      cases y with
      | u _ => rfl
      | _ => exact general
    | _ => exact general

/-- A meaning whose whole body writes one result. -/
theorem onResult_produces {s : State} {k : GCtx} {c : Ctl} {m : LaneMask} {d : Dst} {v : VVal} {post : State → State}
    {f : GCtx → LaneMask → Except Raise State} (hi : Issues s k c m) (hd : CanWrite k d m)
    (hf : f k m = (putResult s k d v m).map post) : Produces s k d m v post (onResult s c d f) := by
  refine produces_of_putResult hi.some hd ?_
  rw [onResult_issues hi, hf]

/-- The same for a meaning that changes no latch where no lane participates. -/
theorem onLanes_produces {s : State} {k : GCtx} {c : Ctl} {m : LaneMask} {d : Dst} {v : VVal} {post : State → State}
    {f : GCtx → LaneMask → Except Raise State} (hi : Issues s k c m) (hd : CanWrite k d m)
    (hf : f k m = (putResult s k d v m).map post) : Produces s k d m v post (onLanes s c f) := by
  refine produces_of_putResult hi.some hd ?_
  rw [onLanes_issues hi, hf]

theorem dataInstructionsWrite : DataInstructionsWrite := by
  intro s k c m d hi hd
  refine ⟨fun a b p x y q ha hb hp => ?_, fun imm => ?_, fun a dt st rm sat x ha => ?_, fun sel h => ?_, fun a => ?_,
    fun sel => ?_⟩
  · refine ⟨selVal q x y, fun l hl => laneVal_selVal q x y hl, onResult_produces hi hd ?_⟩
    rw [ha, hb, hp, Except.map_id]
    rfl
  · exact onResult_produces hi hd (by rw [Except.map_id]; rfl)
  · refine ⟨lift1 (fun w => (cvtWord dt st rm sat w).1) x, fun l hl => laneVal_lift1 _ x hl, onResult_produces hi hd ?_⟩
    rw [ha]
    rfl
  · exact onResult_produces hi hd (by rw [Except.map_id]; rfl)
  · exact onResult_produces hi hd (by rw [Except.map_id]; rfl)
  · exact onLanes_produces hi hd (by rw [Except.map_id]; rfl)

/-- What tcause holds above its code: the lane, and bit 31 far above it. -/
def tcauseHigh (k : GCtx) : Nat := (if k.g.inHandler then 1 else 0) * 2 ^ 15 + k.g.tlane.val

theorem tcauseHigh_fields (k : GCtx) : tcauseHigh k / 2 ^ 15 = (if k.g.inHandler then 1 else 0) ∧ tcauseHigh k % 2 ^ 5 = k.g.tlane.val ∧
    tcauseHigh k / 2 ^ 5 % 2 ^ 10 = 0 := by
  unfold tcauseHigh
  generalize k.g.tlane = l, k.g.inHandler = b
  revert b l
  decide

/-- The number that tcause spells from its fields. -/
theorem csrValue_tcause_sum (s : State) (k : GCtx) : (csrValue s k 2).toNat =
    (if k.g.inHandler then 2 ^ 31 else 0) + k.g.tlane.val * 2 ^ 16 + k.g.tcode.toNat := by
  have hl := k.g.tlane.isLt
  have hc := k.g.tcode.isLt
  refine Nat.mod_eq_of_lt ?_
  split <;> omega

theorem csrValue_tcause_toNat (s : State) (k : GCtx) :
    (csrValue s k 2).toNat / 2 ^ 16 = tcauseHigh k ∧ (csrValue s k 2).toNat % 2 ^ 16 = k.g.tcode.toNat := by
  have hc := k.g.tcode.isLt
  have hn : (csrValue s k 2).toNat = 2 ^ 16 * tcauseHigh k + k.g.tcode.toNat := by
    rw [csrValue_tcause_sum]
    unfold tcauseHigh
    split <;> ring
  refine ⟨?_, ?_⟩
  · rw [hn, Nat.mul_add_div (Nat.two_pow_pos 16), Nat.div_eq_of_lt hc, Nat.add_zero]
  · rw [hn, Nat.mul_add_mod, Nat.mod_eq_of_lt hc]

theorem csrValue_tcause (s : State) (k : GCtx) :
    (csrValue s k 2).getLsbD 31 = k.g.inHandler ∧ (csrValue s k 2).extractLsb' 0 16 = k.g.tcode ∧
    (csrValue s k 2).extractLsb' 16 5 = BitVec.ofNat 5 k.g.tlane.val ∧ (csrValue s k 2).extractLsb' 21 10 = 0 := by
  obtain ⟨hdiv, hmod⟩ := csrValue_tcause_toNat s k
  obtain ⟨hbit, hlane, hzero⟩ := tcauseHigh_fields k
  have habove (n : Nat) : (csrValue s k 2).toNat / 2 ^ (16 + n) = tcauseHigh k / 2 ^ n := by
    rw [pow_add, ← Nat.div_div_eq_div_mul, hdiv]
  refine ⟨?_, BitVec.eq_of_toNat_eq ?_, BitVec.eq_of_toNat_eq ?_, BitVec.eq_of_toNat_eq ?_⟩
  · rw [BitVec.getLsbD, Nat.testBit_eq_decide_div_mod_eq, habove 15, hbit]
    cases k.g.inHandler <;> rfl
  · rw [BitVec.extractLsb'_toNat, Nat.shiftRight_zero, hmod]
  · rw [BitVec.extractLsb'_toNat, Nat.shiftRight_eq_div_pow, hdiv, hlane, BitVec.toNat_ofNat, Nat.mod_eq_of_lt k.g.tlane.isLt]
  · rw [BitVec.extractLsb'_toNat, Nat.shiftRight_eq_div_pow, habove 5, hzero]
    rfl

theorem specialRegisterValues : SpecialRegisterValues := by
  intro s k nd hnd
  have hbase (h : k.blk.spanLen ≠ 0) : spanBaseOf k.blk = BitVec.ofNat 64 (0x7F0000000000 + k.blk.spanOff) := by
    rw [spanBaseOf, if_neg h]
    rfl
  obtain ⟨hin, hcode, hlane, hzero⟩ := csrValue_tcause s k
  refine ⟨fun hi l hl => ?_, fun hi l hl => ?_, fun _ => rfl, fun _ => rfl, fun _ => ?_, fun _ => ?_,
    fun _ => rfl, fun h => ?_, fun h => ?_, rfl, rfl, fun _ => rfl, rfl, rfl, rfl, hin, hcode, hlane, hzero, rfl, ?_, rfl, ?_⟩
  · show (0 : Word) + 1 * BitVec.ofNat 32 l = _
    rw [zero_add, one_mul]
  · have hv : specialReg s k 1 hi = mkG fun l => BitVec.ofNat 32 (l / 4) := rfl
    rw [hv, laneVal_mkG _ hl]
  · show VVal.u (BitVec.ofNat 32 ((s.nodes[k.blk.node]?.map (·.nblocks)).getD 0)) = _
    rw [hnd]
    rfl
  · show VVal.u (BitVec.ofNat 32 (k.blk.idx / max ((s.nodes[k.blk.node]?.map (·.kd.cluster)).getD 1) 1)) = _
    rw [hnd]
    rfl
  · show VVal.u (halfOf true (spanBaseOf k.blk)) = _
    rw [hbase h]
    rfl
  · show VVal.u (halfOf false (spanBaseOf k.blk)) = _
    rw [hbase h]
    rfl
  · show ((s.nodes[k.blk.node]?).map fun n => n.wdlog.setWidth 32).getD 0 = _
    rw [hnd]
    rfl
  · show BitVec.ofNat 32 (k.blk.ctx.val + if isDet s k.blk then 256 else 0) = _
    rw [isDet, hnd]
    rfl

/-- Settles O11: each data instruction writes one value, and the value that each special register gives. -/
theorem dataInstructionsAndSpecialRegisters : Obligations.DataInstructionsAndSpecialRegisters :=
  ⟨dataInstructionsWrite, specialRegisterValues⟩

end Sys2Proof.Machine

/-! # Registers of the warp, and what sources read (R50 to R54, R104, R109, R424) -/

namespace Sys2Proof.Machine

open Sys2Proof Sys2Proof.Claims

/-! ## XSET, XCLR (R109) -/

section WarpRegisters

variable {s : State} {k : GCtx} {c : Ctl} {m : LaneMask}

theorem execXset_writes {x : Fin 8} {base limit vidx : Src} {b n v : Word} (hi : Issues s k c m)
    (hb : readUni k m base = .ok b) (hn : readUni k m limit = .ok n) (hv : readUni k m vidx = .ok v)
    (hb' : b.toNat ≤ 255) (hn' : n.toNat ≤ 256) (hv' : v.toNat ≤ 255) :
    execXset c x base limit vidx s = .next (advance (modWarp s k.b k.w fun wp => setX wp x
      { limit := n.setWidth 9, vidx := v.setWidth 8, base := b.setWidth 8, poison := false }) k) := by
  have hr : (decide (b.toNat > 255) || decide (n.toNat > 256) || decide (v.toNat > 255)) = false := by simp [*]
  rw [execXset, onLanes_issues hi, hb, hn, hv]
  simp only [bind, Except.bind, pure, Except.pure, hr, Bool.false_eq_true, if_false]

theorem execXset_out_of_range {x : Fin 8} {base limit vidx : Src} {b n v : Word} (hi : Issues s k c m)
    (hb : readUni k m base = .ok b) (hn : readUni k m limit = .ok n) (hv : readUni k m vidx = .ok v)
    (h : 255 < b.toNat ∨ 256 < n.toNat ∨ 255 < v.toNat) :
    execXset c x base limit vidx s = .next (takeFault s s.cur (raise .regIndex (some (lowLane m)))) := by
  have hr : (decide (b.toNat > 255) || decide (n.toNat > 256) || decide (v.toNat > 255)) = true := by
    simpa [or_assoc] using h
  rw [execXset, onLanes_issues hi, hb, hn, hv]
  simp only [bind, Except.bind, hr, if_true]

theorem execXclr_writes (x : Fin 8) (hi : Issues s k c m) : execXclr c x s = .next (advance (modWarp s k.b k.w fun wp =>
    setX wp x { limit := 0, vidx := 0, base := 0, poison := false }) k) := by
  rw [execXclr, onLanes_issues hi]

/-! ## VSHAPE and VEXP (R47, R104) -/

theorem compact_u {wp : Warp} {v : VVal} (h : ∀ l < 4 * wp.width.val, laneVal v l = laneVal v 0) :
    compact wp v = .u (laneVal v 0) := by
  rw [compact]
  exact if_pos (by simpa using h)

theorem compact_of_not_u {wp : Warp} {v : VVal} (h : ¬ ∀ l < 4 * wp.width.val, laneVal v l = laneVal v 0) :
    compact wp v = if ∀ l < 4 * wp.width.val, laneVal v l = laneVal v 0 + (laneVal v 1 - laneVal v 0) * BitVec.ofNat 32 l
      then .a (laneVal v 0) (laneVal v 1 - laneVal v 0) else v := by
  rw [compact]
  refine (if_neg (by simpa using h)).trans ?_
  simp only [List.all_eq_true, List.mem_range, decide_eq_true_eq]

/-- A value whose lanes are not affine is held as G. -/
theorem isG_of_not_affine {v : VVal} {n : Nat}
    (h : ¬ ∀ l < n, laneVal v l = laneVal v 0 + (laneVal v 1 - laneVal v 0) * BitVec.ofNat 32 l) : isG v = true := by
  cases v with
  | g _ => rfl
  | u x =>
    refine absurd (fun l _ => ?_) h
    show x = x + (x - x) * BitVec.ofNat 32 l
    rw [sub_self, zero_mul, add_zero]
  | a b d =>
    refine absurd (fun l _ => ?_) h
    show b + d * BitVec.ofNat 32 l = b + d * 0 + (b + d * 1 - (b + d * 0)) * BitVec.ofNat 32 l
    ring

/-- The most compact tag changes no lane of the warp. -/
theorem laneVal_compact {wp : Warp} {v : VVal} {l : Nat} (hl : l < 4 * wp.width.val) :
    laneVal (compact wp v) l = laneVal v l := by
  by_cases hu : ∀ l < 4 * wp.width.val, laneVal v l = laneVal v 0
  · rw [compact_u hu, hu l hl]
    rfl
  · rw [compact_of_not_u hu]
    split
    next ha => exact (ha l hl).symm
    next => rfl

theorem reshape_spec (wp : Warp) (old : VReg) : let x (l : Nat) : Word := laneVal old.val l
    let r := reshape wp old
    r.poison = old.poison ∧ (∀ l < 4 * wp.width.val, laneVal r.val l = x l) ∧ (old.poison ≠ 0 → r = old) ∧
    (old.poison = 0 → (∀ l < 4 * wp.width.val, x l = x 0) → r.val = .u (x 0)) ∧
    (old.poison = 0 → ¬(∀ l < 4 * wp.width.val, x l = x 0) →
      (∀ l < 4 * wp.width.val, x l = x 0 + (x 1 - x 0) * BitVec.ofNat 32 l) → r.val = .a (x 0) (x 1 - x 0)) ∧
    (old.poison = 0 → ¬(∀ l < 4 * wp.width.val, x l = x 0 + (x 1 - x 0) * BitVec.ofNat 32 l) → isG r.val = true) := by
  by_cases hp : old.poison = 0
  · have hr : reshape wp old = { old with val := compact wp old.val } := by
      rw [reshape, if_neg (by rw [bne_iff_ne]; exact not_not_intro hp)]
    simp only [hr, true_and]
    refine ⟨fun l hl => laneVal_compact hl, fun h => absurd hp h, fun _ hu => compact_u hu,
      fun _ hu ha => by rw [compact_of_not_u hu, if_pos ha], fun _ ha => ?_⟩
    by_cases hu : ∀ l < 4 * wp.width.val, laneVal old.val l = laneVal old.val 0
    · refine absurd (fun l hl => ?_) ha
      have h1 : laneVal old.val 1 = laneVal old.val 0 := hu 1 (by omega)
      rw [hu l hl, h1, sub_self, zero_mul, add_zero]
    · rw [compact_of_not_u hu, if_neg ha]
      exact isG_of_not_affine ha
  · have hr : reshape wp old = old := by rw [reshape, if_pos (bne_iff_ne.mpr hp)]
    simp only [hr]
    exact ⟨trivial, fun _ _ => trivial, fun _ => trivial, fun h => absurd h hp, fun h => absurd h hp, fun h => absurd h hp⟩

theorem execVshape_writes (n : Fin 256) (hi : Issues s k c m) : execVshape c n s =
    .next (advance (modWarp s k.b k.w fun wp => setReg wp n (reshape wp wp.regs[n])) k) := by
  rw [execVshape, onLanes_issues hi]

theorem execVexp_eq (n : Fin 256) (hi : Issues s k c m) : execVexp c n s =
    if linesHeld (setReg k.wp n (expand k.wp.regs[n])) ≤ k.wp.gmax
      then .next (advance (modWarp s k.b k.w fun _ => setReg k.wp n (expand k.wp.regs[n])) k)
      else .next (takeFault s s.cur (raise .regpool (some (lowLane m)))) := by
  have hmax : (setReg k.wp n (expand k.wp.regs[n])).gmax = k.wp.gmax := rfl
  rw [execVexp, onLanes_issues hi]
  by_cases h : linesHeld (setReg k.wp n (expand k.wp.regs[n])) ≤ k.wp.gmax
  · simp only [checkLines, hmax, gt_iff_lt, if_neg (not_lt.mpr h), if_pos h]
    rfl
  · simp only [checkLines, hmax, gt_iff_lt, if_pos (not_le.mp h), if_neg h]
    rfl

/-! ## CONT and CSRW (R397, R424, R425) -/

theorem execCont_writes {a : Src} {x : Word} (hi : Issues s k c m) (ha : readUni k m a = .ok x) :
    execCont c a s = .next (advance (modWarp s k.b k.w fun wp => { wp with cont := x }) k) := by
  rw [execCont, onLanes_issues hi, ha]
  rfl

theorem modGangs_modGangs (wp : Warp) (g : Nat) (f h : Gang → Gang) (hf : ∀ x, (f x).gid = x.gid) :
    modGangs (modGangs wp g f) g h = modGangs wp g fun x => h (f x) := by
  simp only [modGangs, List.map_map]
  congr 1
  refine List.map_congr_left fun x _ => ?_
  simp only [Function.comp_apply]
  by_cases hx : x.gid = g
  · rw [if_pos hx, if_pos ((hf x).trans hx), if_pos hx]
  · rw [if_neg hx, if_neg hx, if_neg hx]

theorem modGang_modGang (s : State) (b w g : Nat) (f h : Gang → Gang) (hf : ∀ x, (f x).gid = x.gid) :
    modGang (modGang s b w g f) b w g h = modGang s b w g fun x => h (f x) := by
  simp only [modGang, modWarp_modWarp, modGangs_modGangs _ _ _ _ hf]

theorem execCsrw_epc {a : Src} {x : Word} (hi : Issues s k c m) (ha : readUni k m a = .ok x) :
    execCsrw c 1 a s = .next (modGang s k.b k.w k.g.gid fun g => { g with epc := x, pc := g.pc + 1 }) := by
  rw [← modGang_modGang s k.b k.w k.g.gid (fun g => { g with epc := x }) (fun g => { g with pc := g.pc + 1 }) fun _ => rfl,
    execCsrw, onLanes_issues hi, ha]
  rfl

theorem execCsrw_esum {a : Src} {x : Word} (hi : Issues s k c m) (ha : readUni k m a = .ok x) :
    execCsrw c 6 a s = .next (advance (modBlock s k.b fun y => { y with esum := y.esum &&& ~~~(x.setWidth 9) }) k) := by
  rw [execCsrw, onLanes_issues hi, ha]
  rfl

theorem csrWrite_readOnly {n : Fin 8} (x : Word) (h0 : n ≠ 0) (h1 : n ≠ 1) (h6 : n ≠ 6) : csrWrite s k n x = none := by
  unfold csrWrite
  split
  · exact absurd rfl h0
  · exact absurd rfl h1
  · exact absurd rfl h6
  · rfl

theorem execCsrw_readOnly {n : Fin 8} {a : Src} {x : Word} (hi : Issues s k c m) (ha : readUni k m a = .ok x) (h0 : n ≠ 0)
    (h1 : n ≠ 1) (h6 : n ≠ 6) :
    execCsrw c n a s = .next (takeFault s s.cur (raise .illegal (some (lowLane m)))) := by
  rw [execCsrw, onLanes_issues hi, ha]
  simp only [bind, Except.bind, csrWrite_readOnly x h0 h1 h6]

end WarpRegisters

/-- Settles O12: each instruction is one update of the issuing gang's warp. -/
theorem warpRegistersWritten : Obligations.WarpRegistersWritten := by
  intro s k c m hi
  have hg := hi.gang
  refine ⟨fun x base limit vidx b n v hb hn hv => ⟨fun hb' hn' hv' => ?_, execXset_out_of_range hi hb hn hv⟩, fun x => ?_,
    fun n => ⟨reshape k.wp k.wp.regs[n], ?_, reshape_spec k.wp k.wp.regs[n]⟩,
    fun n => ⟨expand k.wp.regs[n], rfl, rfl, fun l hl => laneVal_mkG _ hl, fun h => ?_, fun h => ?_⟩,
    fun a x ha => ⟨?_, ?_, execCsrw_epc hi ha, execCsrw_esum hi ha, fun n => execCsrw_readOnly hi ha⟩⟩
  · change WarpBecomes s k _ (execXset c x base limit vidx s)
    rw [execXset_writes hi hb hn hv hb' hn' hv']
    exact warpBecomes_advance _ hg
  · change WarpBecomes s k _ (execXclr c x s)
    rw [execXclr_writes x hi]
    exact warpBecomes_advance _ hg
  · change WarpBecomes s k _ (execVshape c n s)
    rw [execVshape_writes n hi]
    exact warpBecomes_advance (fun wp => setReg wp n (reshape wp wp.regs[n])) hg
  · change WarpBecomes s k _ (execVexp c n s)
    rw [(execVexp_eq n hi).trans (if_pos h)]
    exact warpBecomes_advance (fun _ => setReg k.wp n (expand k.wp.regs[n])) hg
  · exact (execVexp_eq n hi).trans (if_neg (Nat.not_le.mpr h))
  · change WarpBecomes s k _ (execCont c a s)
    rw [execCont_writes hi ha]
    exact warpBecomes_advance _ hg
  · change WarpBecomes s k _ (execCsrw c 0 a s)
    rw [execCsrw_tvec hi ha]
    exact warpBecomes_advance _ hg

/-! ## The lanes of a view (R52) -/

theorem laneVal_viewVal (v : View) (sg fl : Bool) (x : VVal) {l : Nat} (hl : l < 32) :
    laneVal (viewVal v sg fl x) l = viewWord v sg fl (laneVal x l) := by
  by_cases hv : v = .w
  · subst hv; rfl
  · have e : viewVal v sg fl x = lift1 (viewWord v sg fl) x := by
      unfold viewVal
      split
      · exact absurd rfl hv
      · rfl
    rw [e, laneVal_lift1 _ x hl]

/-! ## Lanes in ascending order -/

theorem lanesOf_sorted (m : LaneMask) : (lanesOf m).Pairwise (· < ·) := List.pairwise_lt_range.filter _

/-- Of lanes visited in ascending order the first that raises decides. -/
theorem forLanes_error {α : Type} {f : Nat → Except Raise α} {ls : List Nat} {l : Nat} {e : Raise}
    (hs : ls.Pairwise (· < ·)) (hl : l ∈ ls) (he : f l = .error e) (hb : ∀ j ∈ ls, j < l → ∃ x, f j = .ok x) :
    forLanes f ls = .error e := by
  induction ls with
  | nil => simp at hl
  | cons j ls ih =>
    obtain ⟨hj, hs⟩ := List.pairwise_cons.mp hs
    rcases List.mem_cons.mp hl with rfl | hl
    · rw [forLanes, he]
    · obtain ⟨x, hx⟩ := hb j List.mem_cons_self (hj l hl)
      rw [forLanes, hx, ih hs hl fun i hi => hb i (List.mem_cons_of_mem _ hi)]

/-- Lanes that are all visited raise nothing. -/
theorem forLanes_ok_mem {α : Type} {f : Nat → Except Raise α} {ls : List Nat} {xs : List α} (h : forLanes f ls = .ok xs) :
    ∀ l ∈ ls, ∃ x, f l = .ok x := by
  induction ls generalizing xs with
  | nil => simp
  | cons j ls ih =>
    rw [forLanes] at h
    split at h
    next => cases h
    next x hx =>
      split at h
      next => cases h
      next ys hys =>
        intro l hl
        rcases List.mem_cons.mp hl with rfl | hl
        · exact ⟨x, hx⟩
        · exact ih hys l hl

theorem find?_sorted {ls : List Nat} {p : Nat → Bool} {l : Nat} (hs : ls.Pairwise (· < ·)) (hl : l ∈ ls) (hp : p l = true)
    (hb : ∀ j ∈ ls, j < l → p j = false) : ls.find? p = some l := by
  induction ls with
  | nil => simp at hl
  | cons j ls ih =>
    obtain ⟨hj, hs⟩ := List.pairwise_cons.mp hs
    rcases List.mem_cons.mp hl with rfl | hl
    · rw [List.find?_cons_of_pos hp]
    · rw [List.find?_cons_of_neg (by simp [hb j List.mem_cons_self (hj l hl)])]
      exact ih hs hl fun i hi => hb i (List.mem_cons_of_mem _ hi)

/-- What is listed for a lane is found by the lane. -/
theorem find?_map_lane {α : Type} (g : Nat → α) {ls : List Nat} {l : Nat} (hl : l ∈ ls) :
    (ls.map fun j => (j, g j)).find? (·.1 = l) = some (l, g l) := by
  induction ls with
  | nil => simp at hl
  | cons j ls ih =>
    rw [List.map_cons]
    by_cases hj : j = l
    · subst hj
      exact List.find?_cons_of_pos (by simp)
    · rw [List.find?_cons_of_neg (by simpa using hj)]
      exact ih ((List.mem_cons.mp hl).resolve_left (Ne.symm hj))

/-! ## Reading sources lane by lane (R51, R54, R430) -/

theorem checkPoison_eq (r : VReg) (m : LaneMask) : checkPoison r m =
    if r.poison &&& m = 0 then .ok () else .error (raise .uncorrectable (some (lowLane (r.poison &&& m)))) := by
  simp only [checkPoison, bne_iff_ne, ne_eq, ite_not]

theorem readReg_eq (r : VReg) (m : LaneMask) (v : View) (sg fl : Bool) : readReg r m v sg fl =
    if r.poison &&& m = 0 then .ok (viewVal v sg fl r.val)
    else .error (raise .uncorrectable (some (lowLane (r.poison &&& m)))) := by
  rw [readReg, checkPoison_eq]
  by_cases h : r.poison &&& m = 0
  · rw [if_pos h, if_pos h]
  · rw [if_neg h, if_neg h]

theorem laneBit_eq_false_of_and_eq_zero {p m : LaneMask} (h : p &&& m = 0) {l : Nat} (hl : l ∈ lanesOf m) :
    laneBit p l = false := laneBit_of_and_zero h (mem_lanesOf.mp hl).2

theorem checkPoison_lane_eq_ok {r : VReg} {l : Nat} (hl : l < 32) :
    checkPoison r (maskOf (· = l)) = .ok () ↔ laneBit r.poison l = false := by
  have hlane (x : Nat) : x ∈ lanesOf (maskOf (· = l)) ↔ x = l := by
    rw [mem_lanesOf, laneBit_maskOf]
    simp only [Bool.and_eq_true, decide_eq_true_eq]
    omega
  constructor
  · intro h
    have hz : r.poison &&& maskOf (· = l) = 0 := by
      by_contra hne
      rw [checkPoison_eq, if_neg hne] at h
      cases h
    exact laneBit_eq_false_of_and_eq_zero hz ((hlane l).mpr rfl)
  · intro h
    have hz : r.poison &&& maskOf (· = l) = 0 := and_zero_of_lanes fun x hx => (hlane x).mp hx ▸ h
    rw [checkPoison_eq, if_pos hz]

/-- What one lane of an indexed source reads, given the registers reached. -/
def idxRead (k : GCtx) (ls : List (Nat × Fin 256)) (l : Nat) : Except Raise (Nat × Word) :=
  match ls.find? (·.1 = l) with
  | none => .ok (l, 0)
  | some (_, n) =>
    match checkPoison k.wp.regs[n] (maskOf (· = l)) with
    | .error e => .error e
    | .ok _ => .ok (l, laneVal k.wp.regs[n].val l)

theorem readSrc_vx (k : GCtx) (m : LaneMask) (sk : SrcKind) (sg : Bool) (x : Fin 8) (vw : View) :
    readSrc k m sk sg (.vx x vw) =
      match idxLanes k.wp x m with
      | .error e => .error e
      | .ok ls =>
        match forLanes (idxRead k ls) (lanesOf m) with
        | .error e => .error e
        | .ok xs => .ok (viewVal vw sg sk.isF (mkG fun l => ((xs.find? (·.1 = l)).map (·.2)).getD 0)) := rfl

theorem idxLanes_ok {wp : Warp} {x : Fin 8} {m : LaneMask} {g : Nat → Fin 256}
    (h : ∀ l ∈ lanesOf m, idxLane wp x l = .ok (g l)) : idxLanes wp x m = .ok ((lanesOf m).map fun l => (l, g l)) :=
  forLanes_ok fun l hl => by rw [h l hl]; rfl

theorem idxLanes_ok_mem {wp : Warp} {x : Fin 8} {m : LaneMask} {ls : List (Nat × Fin 256)} (h : idxLanes wp x m = .ok ls) :
    ∃ g : Nat → Fin 256, (∀ l ∈ lanesOf m, idxLane wp x l = .ok (g l)) ∧ ls = (lanesOf m).map fun l => (l, g l) := by
  let g : Nat → Fin 256 := fun l => ((idxLane wp x l).toOption).getD 0
  have hg : ∀ l ∈ lanesOf m, idxLane wp x l = .ok (g l) := fun l hl => by
    obtain ⟨y, hy⟩ := forLanes_ok_mem h l hl
    cases hx : idxLane wp x l with
    | error e => rw [hx] at hy; cases hy
    | ok n => simp only [g, hx, Except.toOption, Option.getD_some]
  exact ⟨g, hg, Except.ok.inj (h.symm.trans (idxLanes_ok hg))⟩

theorem idxRead_map {k : GCtx} {m : LaneMask} (g : Nat → Fin 256) {l : Nat} (hl : l ∈ lanesOf m) :
    idxRead k ((lanesOf m).map fun l => (l, g l)) l =
      match checkPoison k.wp.regs[g l] (maskOf (· = l)) with
      | .error e => .error e
      | .ok _ => .ok (l, laneVal k.wp.regs[g l].val l) := by
  rw [idxRead, find?_map_lane g hl]

section Sources

variable {k : GCtx} {m : LaneMask} {sk : SrcKind} {sg : Bool}

/-- A register that no participating lane finds poisoned is read lane by lane. -/
theorem readReg_lanes {r : VReg} {v : View} {fl : Bool} (h : ∀ l ∈ lanesOf m, laneBit r.poison l = false) :
    ∃ x, readReg r m v sg fl = .ok x ∧ ∀ l ∈ lanesOf m, viewWord v sg fl (laneVal r.val l) = laneVal x l := by
  refine ⟨viewVal v sg fl r.val, by rw [readReg_eq, if_pos (and_zero_of_lanes h)], fun l hl => ?_⟩
  rw [laneVal_viewVal v sg fl r.val (mem_lanesOf.mp hl).1]

theorem readReg_ok_poison {r : VReg} {v : View} {fl : Bool} {x : VVal} (h : readReg r m v sg fl = .ok x) :
    ∀ l ∈ lanesOf m, laneBit r.poison l = false := by
  intro l hl
  refine laneBit_eq_false_of_and_eq_zero ?_ hl
  by_contra hne
  rw [readReg_eq, if_neg hne] at h
  cases h

theorem readSrc_vx_lanes {x : Fin 8} {vw : View} {g : Nat → Fin 256}
    (hg : ∀ l ∈ lanesOf m, idxLane k.wp x l = .ok (g l)) (hp : ∀ l ∈ lanesOf m, laneBit k.wp.regs[g l].poison l = false) :
    ∃ v, readSrc k m sk sg (.vx x vw) = .ok v ∧
      ∀ l ∈ lanesOf m, viewWord vw sg sk.isF (laneVal k.wp.regs[g l].val l) = laneVal v l := by
  have hread : forLanes (idxRead k ((lanesOf m).map fun l => (l, g l))) (lanesOf m) =
      .ok ((lanesOf m).map fun l => (l, laneVal k.wp.regs[g l].val l)) :=
    forLanes_ok fun l hl => by
      rw [idxRead_map g hl, (checkPoison_lane_eq_ok (mem_lanesOf.mp hl).1).mpr (hp l hl)]
  have hv : readSrc k m sk sg (.vx x vw) = .ok (viewVal vw sg sk.isF (mkG fun l =>
      ((((lanesOf m).map fun l => (l, laneVal k.wp.regs[g l].val l)).find? (·.1 = l)).map (·.2)).getD 0)) := by
    simp only [readSrc_vx, idxLanes_ok hg, hread]
  refine ⟨_, hv, fun l hl => ?_⟩
  have hl32 := (mem_lanesOf.mp hl).1
  rw [laneVal_viewVal _ _ _ _ hl32, laneVal_mkG _ hl32, find?_map_lane _ hl]
  rfl

/-- A source whose participating lanes are sound gives each of them its own word. -/
theorem readSrc_lanes (a : Src) (h : ∀ l ∈ lanesOf m, srcPoison k a l = false ∧ (srcLane k sk sg a l).isSome) :
    ∃ v, readSrc k m sk sg a = .ok v ∧ ∀ l ∈ lanesOf m, srcLane k sk sg a l = some (laneVal v l) := by
  have hp : ∀ l ∈ lanesOf m, srcPoison k a l = false := fun l hl => (h l hl).1
  have direct {r : VReg} {vw : View} (hr : ∀ l ∈ lanesOf m, laneBit r.poison l = false) :
      ∃ v, readReg r m vw sg sk.isF = .ok v ∧
        ∀ l ∈ lanesOf m, some (viewWord vw sg sk.isF (laneVal r.val l)) = some (laneVal v l) := by
    obtain ⟨v, hv, hl⟩ := readReg_lanes (m := m) (sg := sg) (v := vw) (fl := sk.isF) hr
    exact ⟨v, hv, fun l h => congrArg some (hl l h)⟩
  cases a with
  | v n vw => exact direct hp
  | o n vw => exact direct hp
  | latch vw => exact direct hp
  | int i => exact ⟨_, rfl, fun _ _ => rfl⟩
  | flt i => exact ⟨_, rfl, fun _ _ => rfl⟩
  | spec p => exact ⟨_, rfl, fun _ _ => rfl⟩
  | vx x vw =>
    let g : Nat → Fin 256 := fun l => ((idxLane k.wp x l).toOption).getD 0
    have hg : ∀ l ∈ lanesOf m, idxLane k.wp x l = .ok (g l) := fun l hl => by
      cases hx : idxLane k.wp x l with
      | error e => have := (h l hl).2; simp [srcLane, hx, Except.toOption] at this
      | ok n => simp only [g, hx, Except.toOption, Option.getD_some]
    have hpg : ∀ l ∈ lanesOf m, laneBit k.wp.regs[g l].poison l = false := fun l hl => by
      have := hp l hl
      rwa [srcPoison, hg l hl] at this
    obtain ⟨v, hv, hl⟩ := readSrc_vx_lanes (sk := sk) (sg := sg) (vw := vw) hg hpg
    refine ⟨v, hv, fun l h => ?_⟩
    rw [srcLane, hg l h, ← hl l h]
    rfl

/-- A source that is read is sound in every participating lane. -/
theorem srcLane_isSome_of_readSrc {a : Src} {v : VVal} (h : readSrc k m sk sg a = .ok v) :
    ∀ l ∈ lanesOf m, srcPoison k a l = false ∧ (srcLane k sk sg a l).isSome := by
  cases a with
  | v n vw => exact fun l hl => ⟨readReg_ok_poison h l hl, rfl⟩
  | o n vw => exact fun l hl => ⟨readReg_ok_poison h l hl, rfl⟩
  | latch vw => exact fun l hl => ⟨readReg_ok_poison h l hl, rfl⟩
  | int i => exact fun l hl => ⟨rfl, rfl⟩
  | flt i => exact fun l hl => ⟨rfl, rfl⟩
  | spec p => exact fun l hl => ⟨rfl, rfl⟩
  | vx x vw =>
    rw [readSrc_vx] at h
    split at h
    next => cases h
    next ls hls =>
      obtain ⟨g, hg, rfl⟩ := idxLanes_ok_mem hls
      split at h
      next => cases h
      next xs hxs =>
        intro l hl
        obtain ⟨y, hy⟩ := forLanes_ok_mem hxs l hl
        have hc : checkPoison k.wp.regs[g l] (maskOf (· = l)) = .ok () := by
          rw [idxRead_map g hl] at hy
          cases hc : checkPoison k.wp.regs[g l] (maskOf (· = l)) with
          | error e => rw [hc] at hy; cases hy
          | ok u => rfl
        have hpl := (checkPoison_lane_eq_ok (mem_lanesOf.mp hl).1).mp hc
        rw [srcPoison, srcLane, hg l hl]
        exact ⟨hpl, rfl⟩

/-- What a source that is read gives in each participating lane. -/
theorem srcLane_of_readSrc {a : Src} {v : VVal} (h : readSrc k m sk sg a = .ok v) :
    ∀ l ∈ lanesOf m, srcLane k sk sg a l = some (laneVal v l) := by
  obtain ⟨w, hw, hl⟩ := readSrc_lanes a (srcLane_isSome_of_readSrc h)
  rwa [Except.ok.inj (h.symm.trans hw)]

end Sources

theorem sourcesReadLaneByLane : SourcesReadLaneByLane := by
  intro k m sk sg a
  refine ⟨readSrc_lanes a, fun n vw ha hp => ?_, fun x vw l e ha hl he hb => ?_⟩
  · subst ha
    exact (readReg_eq _ _ _ _ _).trans (if_neg hp)
  · subst ha
    have herr : idxLanes k.wp x m = .error e :=
      forLanes_error (lanesOf_sorted m) hl (by rw [he]; rfl) fun j hj hjl => by
        obtain ⟨n, hn⟩ := hb j hj hjl
        exact ⟨(j, n), by rw [hn]; rfl⟩
    rw [readSrc_vx, herr]

theorem indexDescriptorReaches : IndexDescriptorReaches := by
  intro wp x l d r i hd hr
  have hd' : wp.xd[x].poison = false := hd
  have hr' : laneBit (wp.regs[wp.xd[x].vidx.toNat]?.getD VReg.zero).poison l = false := hr
  simp only [idxLane, hd', hr', Bool.false_eq_true, if_false, Bool.or_eq_true, decide_eq_true_eq, ge_iff_le, gt_iff_lt, d, i, r]

theorem uniformSources : UniformSources := by
  intro k m a v hv
  refine ⟨fun h => ?_, fun l hl hne hb => ?_⟩
  · have hf : (lanesOf m).find? (fun l => laneVal v l != laneVal v (lowLane m)) = none :=
      List.find?_eq_none.mpr fun l hl => by simp [h l hl]
    simp only [readUni, hv, hf]
  · have hf : (lanesOf m).find? (fun l => laneVal v l != laneVal v (lowLane m)) = some l :=
      find?_sorted (lanesOf_sorted m) hl (by simpa using hne) fun j hj hjl => by simp [hb j hj hjl]
    simp only [readUni, hv, hf]

/-- Settles O13: what each source form gives in a lane, and which lane is named where one raises. -/
theorem sourcesAreReadAsTheyName : Obligations.SourcesAreReadAsTheyName :=
  ⟨sourcesReadLaneByLane, indexDescriptorReaches, uniformSources⟩

end Sys2Proof.Machine

/-! # Cross-lane and predicate instructions (R37, R38, R105 to R110) -/

namespace Sys2Proof.Machine

open Sys2Proof Sys2Proof.Claims

/-! ## Writing a predicate (R41, R46, R430) -/

/-- A merged predicate, lane by lane. -/
theorem mergePred_lanes (k : GCtx) (old : PReg) (new : PVal) (m : LaneMask) :
    PredWritten k old (mergePred (isFull k.wp m) old new m) m (predBit new) := by
  intro l hl
  have h32 : l < 32 := by have := k.wp.width.isLt; omega
  cases hf : isFull k.wp m with
  | true =>
    rw [laneBit_of_isFull hf hl]
    exact ⟨rfl, rfl.trans (laneBit_zero l)⟩
  | false =>
    have mixed : predBit (.g (maskOf fun l => if laneBit m l then predBit new l else predBit old.val l)) l =
        (if laneBit m l then predBit new l else predBit old.val l) := by
      rw [predBit, laneBit_maskOf, decide_eq_true h32, Bool.true_and]
    simp only [mergePred, Bool.false_eq_true, if_false]
    split
    · rename_i x y hx
      split
      · rename_i he
        simp only [Bool.and_eq_true, decide_eq_true_eq] at he
        obtain ⟨h0, rfl⟩ := he
        rw [hx, h0]
        exact ⟨by split <;> rfl, by rw [laneBit_zero]; split <;> rfl⟩
      · exact ⟨mixed, laneBit_clear _ _ h32⟩
    · exact ⟨mixed, laneBit_clear _ _ h32⟩

theorem PredWritten.congr {k : GCtx} {a b : PReg} {m : LaneMask} {v w : Nat → Bool} (h : PredWritten k a b m v)
    (hvw : ∀ l < 32, v l = w l) : PredWritten k a b m w := by
  intro l hl
  rw [← hvw l (by have := k.wp.width.isLt; omega)]
  exact h l hl

section Predicates

variable {s : State} {k : GCtx} {c : Ctl} {m : LaneMask} {p : Fin 8}

/-- The predicate registers of a warp after the write of one. -/
theorem setPred_preds (new : PVal) : ∃ preds : Vector PReg 7,
    setPred k.wp p (mergePred (isFull k.wp m) (predReg k.wp p) new m) = { k.wp with preds := preds } ∧
    (∀ n : Fin 7, n.val = p.val → PredWritten k k.wp.preds[n] preds[n] m (predBit new)) ∧
    ∀ n : Fin 7, n.val ≠ p.val → preds[n] = k.wp.preds[n] := by
  by_cases hp : p.val < 7
  · refine ⟨_, by rw [setPred, dif_pos hp], fun n hn => ?_, fun n hn => ?_⟩
    · have hn' : n = ⟨p.val, hp⟩ := Fin.ext hn
      subst hn'
      have := mergePred_lanes k k.wp.preds[p.val] new m
      rw [← predReg_of_lt k.wp hp] at this
      simpa only [Fin.getElem_fin, Vector.getElem_set_self, predReg_of_lt k.wp hp] using this
    · simp only [Fin.getElem_fin, Vector.getElem_set_ne _ _ (Ne.symm hn)]
  · exact ⟨k.wp.preds, by rw [setPred, dif_neg hp], fun n hn => absurd (hn ▸ n.isLt) hp, fun _ _ => rfl⟩

/-- A meaning that writes a predicate and goes on, with what it adds to the state. -/
theorem producesPred_of_putPred {v : Nat → Bool} {new : PVal} (post : State → State) (hg : gangOf s s.cur = some k)
    (hv : ∀ l < 32, predBit new l = v l) : ProducesPred s k p m v post (.next (post (putPred s k p new m))) := by
  obtain ⟨preds, hset, hin, hout⟩ := setPred_preds (k := k) (m := m) (p := p) new
  refine ⟨preds, fun n hn => PredWritten.congr (hin n hn) hv, hout, ?_⟩
  have h := warpBecomes_advance (fun wp => setPred wp p (mergePred (isFull wp m) (predReg wp p) new m)) hg
  rw [WarpBecomes, hset] at h
  rw [putPred, Host.Outcome.next.inj h]

/-- A meaning run in lanes that ends in the write of a predicate. -/
theorem onLanes_producesPred {v : Nat → Bool} {new : PVal} {post : State → State}
    {f : GCtx → LaneMask → Except Raise State} (hi : Issues s k c m) (hv : ∀ l < 32, predBit new l = v l)
    (hf : f k m = .ok (post (putPred s k p new m))) : ProducesPred s k p m v post (onLanes s c f) := by
  rw [onLanes_issues hi, hf]
  exact producesPred_of_putPred post hi.gang hv

end Predicates

theorem predBit_g_maskOf (f : Nat → Bool) {l : Nat} (hl : l < 32) : predBit (.g (maskOf f)) l = f l := by
  rw [predBit, laneBit_maskOf, decide_eq_true hl, Bool.true_and]

theorem predBit_liftP2 (f : Word → Word → Bool) (x y : VVal) {l : Nat} (hl : l < 32) :
    predBit (liftP2 f x y) l = f (laneVal x l) (laneVal y l) := by
  have general := predBit_g_maskOf (fun l => f (laneVal x l) (laneVal y l)) hl
  cases x with
  | u p =>
    cases y with
    | u q => rfl
    | _ => exact general
  | _ => exact general

theorem mask_ext {a b : LaneMask} (h : ∀ l < 32, laneBit a l = laneBit b l) : a = b := BitVec.eq_of_getLsbD_eq h

theorem laneBit_trueLanes {m : LaneMask} {p : PVal} {l : Nat} (hl : l < 32) :
    laneBit (trueLanes m p) l = (laneBit m l && predBit p l) := by
  rw [trueLanes, laneBit_and, laneBit_maskOf, decide_eq_true hl, Bool.true_and]

theorem trueLanes_eq_iff {m : LaneMask} {p : PVal} : trueLanes m p = m ↔ (lanesOf m).all (predBit p) = true := by
  rw [List.all_eq_true]
  constructor
  · intro h l hl
    obtain ⟨h32, hm⟩ := mem_lanesOf.mp hl
    have := laneBit_trueLanes (m := m) (p := p) h32
    rwa [h, hm, Bool.true_and, eq_comm] at this
  · refine fun h => mask_ext fun l hl => ?_
    rw [laneBit_trueLanes hl]
    cases hm : laneBit m l with
    | false => rfl
    | true => rw [h l (mem_lanesOf.mpr ⟨hl, hm⟩)]; rfl

theorem trueLanes_ne_zero_iff {m : LaneMask} {p : PVal} : trueLanes m p ≠ 0 ↔ (lanesOf m).any (predBit p) = true := by
  rw [List.any_eq_true]
  constructor
  · intro h
    obtain ⟨l, hl⟩ := exists_lane h
    obtain ⟨h32, ht⟩ := mem_lanesOf.mp hl
    rw [laneBit_trueLanes h32, Bool.and_eq_true] at ht
    exact ⟨l, mem_lanesOf.mpr ⟨h32, ht.1⟩, ht.2⟩
  · rintro ⟨l, hl, hp⟩ h0
    obtain ⟨h32, hm⟩ := mem_lanesOf.mp hl
    have := laneBit_trueLanes (m := m) (p := p) h32
    rw [h0, laneBit_zero, hm, hp] at this
    cases this

theorem decide_trueLanes_eq (m : LaneMask) (p : PVal) : decide (trueLanes m p = m) = (lanesOf m).all (predBit p) :=
  Bool.eq_iff_iff.mpr (by rw [decide_eq_true_eq, trueLanes_eq_iff])

theorem trueLanes_bne_zero (m : LaneMask) (p : PVal) : (trueLanes m p != 0) = (lanesOf m).any (predBit p) :=
  Bool.eq_iff_iff.mpr (by rw [bne_iff_ne, trueLanes_ne_zero_iff])

theorem decide_trueLanes_eq_zero (m : LaneMask) (p : PVal) :
    decide (trueLanes m p = 0) = !(lanesOf m).any (predBit p) := by
  rw [← trueLanes_bne_zero]
  exact (Bool.not_not _).symm

theorem execVote_every {s : State} {k : GCtx} {c : Ctl} {m : LaneMask} {p : Fin 8} {q : PSrc} {x : PVal}
    (hi : Issues s k c m) (hq : readPred k m q = .ok x) :
    ProducesPred s k p m (fun _ => (lanesOf m).all (predBit x)) id (execVote c (.every p) q s) :=
  onLanes_producesPred (new := .u (trueLanes m x = m)) hi (fun _ _ => decide_trueLanes_eq m x) (by rw [hq]; rfl)

theorem execVote_some {s : State} {k : GCtx} {c : Ctl} {m : LaneMask} {p : Fin 8} {q : PSrc} {x : PVal}
    (hi : Issues s k c m) (hq : readPred k m q = .ok x) :
    ProducesPred s k p m (fun _ => (lanesOf m).any (predBit x)) id (execVote c (.some p) q s) :=
  onLanes_producesPred (new := .u (trueLanes m x != 0)) hi (fun _ _ => trueLanes_bne_zero m x) (by rw [hq]; rfl)

theorem execVote_same {s : State} {k : GCtx} {c : Ctl} {m : LaneMask} {p : Fin 8} {q : PSrc} {x : PVal}
    (hi : Issues s k c m) (hq : readPred k m q = .ok x) :
    ProducesPred s k p m (fun _ => (lanesOf m).all (predBit x) || !(lanesOf m).any (predBit x)) id
      (execVote c (.same p) q s) := by
  refine onLanes_producesPred (new := .u (trueLanes m x = m || trueLanes m x = 0)) hi (fun _ _ => ?_) (by rw [hq]; rfl)
  rw [predBit, decide_trueLanes_eq, decide_trueLanes_eq_zero]

/-- The predicate that PLOP gives (R45, R110). -/
def plopVal (op : PLogic) (x y : PVal) : PVal :=
  match x, y with
  | .u v, .u w => .u (plogic op v w)
  | x, y => .g (maskOf fun l => plogic op (predBit x l) (predBit y l))

theorem predBit_plopVal (op : PLogic) (x y : PVal) {l : Nat} (hl : l < 32) :
    predBit (plopVal op x y) l = plogic op (predBit x l) (predBit y l) := by
  have general := predBit_g_maskOf (fun l => plogic op (predBit x l) (predBit y l)) hl
  cases x with
  | g _ => exact general
  | u v =>
    cases y with
    | u w => rfl
    | g _ => exact general

/-- The predicate that PMOV gives: whether a word is not zero (R110). -/
def nonzeroVal (x : VVal) : PVal :=
  match x with
  | .u v => .u (v != 0)
  | v => .g (maskOf fun l => laneVal v l != 0)

theorem predBit_nonzeroVal (x : VVal) {l : Nat} (hl : l < 32) : predBit (nonzeroVal x) l = (laneVal x l != 0) := by
  have general := predBit_g_maskOf (fun l => laneVal x l != 0) hl
  cases x with
  | u v => rfl
  | _ => exact general

/-- The word that PMOV gives of a predicate: 1 or 0 (R110). -/
def bitVal (q : PVal) : VVal :=
  match q with
  | .u v => .u (if v then 1 else 0)
  | v => mkG fun l => if predBit v l then 1 else 0

theorem laneVal_bitVal (q : PVal) {l : Nat} (hl : l < 32) : laneVal (bitVal q) l = if predBit q l then 1 else 0 := by
  cases q with
  | u v => rfl
  | g v => exact laneVal_mkG (fun l => if predBit (.g v) l then 1 else 0) hl

theorem predicateInstructionsWrite : PredicateInstructionsWrite := by
  intro s k c m p hi
  refine ⟨fun a b cmp u x y ha hb => ?_, fun a b cmp x y ha hb => ?_, fun a b op x y ha hb => ?_, fun a x ha => ?_,
    fun q x hq => ⟨execVote_every hi hq, execVote_some hi hq, execVote_same hi hq⟩⟩
  · exact onLanes_producesPred hi (fun l hl => predBit_liftP2 _ x y hl) (by rw [ha, hb]; rfl)
  · exact onLanes_producesPred hi (fun l hl => predBit_liftP2 (fun v w => (cmpF cmp v.toNat w.toNat).1) x y hl)
      (by rw [ha, hb]; rfl)
  · exact onLanes_producesPred hi (fun l hl => predBit_plopVal op x y hl) (by rw [ha, hb]; rfl)
  · exact onLanes_producesPred hi (fun l hl => predBit_nonzeroVal x hl) (by rw [ha]; rfl)

/-! ## SHFL (R105) -/

theorem ite_laneBit_mem {m : LaneMask} {l : Nat} (hl : l ∈ lanesOf m) (j : Option Nat) :
    (match j with
      | some x => if laneBit m x then x else l
      | none => l) ∈ lanesOf m := by
  cases j with
  | none => exact hl
  | some x =>
    show (if laneBit m x then x else l) ∈ lanesOf m
    split
    next hx => exact mem_lanesOf.mpr ⟨laneBit_lt hx, hx⟩
    next => exact hl

/-- A lane reads a participating lane, or itself. -/
theorem shflLane_mem {mode : ShflMode} {m : LaneMask} {l n : Nat} (hl : l ∈ lanesOf m) :
    shflLane mode m l n ∈ lanesOf m := ite_laneBit_mem hl _

section Sources

variable {k : GCtx} {m : LaneMask} {sk : SrcKind} {sg : Bool} {a : Src} {x : VVal}

theorem lanesOf_single {j : Nat} (hj : j < 32) {l : Nat} : l ∈ lanesOf (maskOf (· = j)) ↔ l = j := by
  rw [mem_lanesOf, laneBit_maskOf]
  simp only [Bool.and_eq_true, decide_eq_true_eq]
  omega

/-- A source that is read in some lanes can be read in one of them alone, with the same word. -/
theorem readSrc_single (h : readSrc k m sk sg a = .ok x) {j : Nat} (hj : j ∈ lanesOf m) :
    ∃ y, readSrc k (maskOf (· = j)) sk sg a = .ok y ∧ laneVal y j = laneVal x j := by
  have hj32 := (mem_lanesOf.mp hj).1
  obtain ⟨y, hy, hlane⟩ := readSrc_lanes (m := maskOf (· = j)) (sk := sk) (sg := sg) (k := k) a fun l hl =>
    (lanesOf_single hj32).mp hl ▸ srcLane_isSome_of_readSrc h j hj
  refine ⟨y, hy, ?_⟩
  have h1 := hlane j ((lanesOf_single hj32).mpr rfl)
  rw [srcLane_of_readSrc h j hj] at h1
  exact (Option.some.inj h1).symm

theorem checkIndex_ok (h : readSrc k m sk sg a = .ok x) : checkIndex k m a = .ok () := by
  cases a with
  | vx n vw =>
    rw [readSrc_vx] at h
    split at h
    next => cases h
    next ls hls => rw [checkIndex, hls]; rfl
  | _ => rfl

theorem viewVal_u (v : View) (sg fl : Bool) (w : Word) : ∃ w', viewVal v sg fl (.u w) = .u w' := by
  cases v <;> exact ⟨_, rfl⟩

/-- A source that is U gives every lane the same word. -/
theorem readSrc_of_srcIsU (h : readSrc k m sk sg a = .ok x) (hu : srcIsU k a = true) : ∃ w, x = .u w := by
  have direct {r : VReg} {vw : View} (hr : isU r.val = true) (hx : readReg r m vw sg sk.isF = .ok x) : ∃ w, x = .u w := by
    rw [readReg_eq] at hx
    split at hx
    next =>
      cases hx
      cases hv : r.val with
      | u w => exact viewVal_u _ _ _ w
      | _ => rw [hv] at hr; cases hr
    next => cases hx
  cases a with
  | v n vw => exact direct hu h
  | o n vw => exact direct hu h
  | latch vw => exact direct hu h
  | int i => exact ⟨_, (Except.ok.inj h).symm⟩
  | flt i => exact ⟨_, (Except.ok.inj h).symm⟩
  | spec p => exact ⟨_, (Except.ok.inj h).symm⟩
  | vx n vw => cases hu

end Sources

theorem lowLane_mem {m : LaneMask} (h : m ≠ 0) : lowLane m ∈ lanesOf m := by
  obtain ⟨l, hl⟩ := exists_lane h
  rw [lowLane]
  cases hh : lanesOf m with
  | nil => rw [hh] at hl; cases hl
  | cons a r => simp

/-- SHFL: every participating lane takes the word of the lane that it names. -/
theorem execShfl_produces {s : State} {k : GCtx} {c : Ctl} {m : LaneMask} {d : Dst} {a b : Src} {mode : ShflMode} {n x : VVal}
    (hi : Issues s k c m) (hd : CanWrite k d m) (hb : readSrc k m (.int .w32) false b = .ok n)
    (ha : readSrc k m (.int .w32) false a = .ok x) :
    ∃ v, (∀ l ∈ lanesOf m, laneVal v l = laneVal x (shflLane mode m l (laneVal n l).toNat)) ∧
      Produces s k d m v id (execShfl c d a b mode s) := by
  let g (l : Nat) : Word := laneVal x (shflLane mode m l (laneVal n l).toNat)
  let ls := (lanesOf m).map fun l => (l, g l)
  let get (l : Nat) : Word := ((ls.find? (·.1 = l)).map (·.2)).getD 0
  have hls : forLanes (fun l =>
      (readSrc k (maskOf (· = shflLane mode m l (laneVal n l).toNat)) (.int .w32) false a).map
        fun v => (l, laneVal v (shflLane mode m l (laneVal n l).toNat))) (lanesOf m) = .ok ls :=
    forLanes_ok fun l hl => by
      obtain ⟨y, hy, hyl⟩ := readSrc_single ha (shflLane_mem (mode := mode) (n := (laneVal n l).toNat) hl)
      rw [hy]
      show Except.ok (l, _) = _
      rw [hyl]
  have hget : ∀ l ∈ lanesOf m, get l = g l := fun l hl => by
    show ((ls.find? (·.1 = l)).map (·.2)).getD 0 = g l
    rw [find?_map_lane g hl]
    rfl
  refine ⟨if srcIsU k a then .u (get (lowLane m)) else mkG get, fun l hl => ?_, onResult_produces hi hd ?_⟩
  · cases hu : srcIsU k a with
    | true =>
      obtain ⟨w, rfl⟩ := readSrc_of_srcIsU ha hu
      exact hget _ (lowLane_mem hi.some)
    | false => exact (laneVal_mkG get (mem_lanesOf.mp hl).1).trans (hget l hl)
  · simp only [checkIndex_ok ha, hb, hls, bind, Except.bind, Except.map_id, id]
    rfl

/-! ## REDX, SCANX, VOTE.bits, PMOV (R106 to R110) -/

theorem scanSteps_zero (f : Word → Word → Word × Flags) (n : Nat) {h : Nat} (hh : 0 < h) (t : List Word) :
    (scanSteps f n h t).1.getD 0 0 = t.getD 0 0 := by
  induction n generalizing h t with
  | zero => rfl
  | succ n ih =>
    have h0 : ¬ 0 ≥ h := by omega
    show (scanSteps f n (2 * h) _).1.getD 0 0 = _
    rw [ih (by omega)]
    simp [h0]

theorem crossLaneInstructionsWrite : CrossLaneInstructionsWrite := by
  intro s k c m d hi hd
  refine ⟨fun a b mode n x hb ha => execShfl_produces hi hd hb ha, fun a op sat u x ha => ?_, fun a op sat u x ha => ?_,
    fun p q hq => ?_, fun p q hq => ?_⟩
  · exact onResult_produces hi hd (by rw [readRed, ha]; rfl)
  · let r := (scanSteps (combine op sat u) 5 1 (redTerms op u m x)).1
    refine ⟨mkG fun l => if l = 0 then redAlone op (r.getD l 0) else r.getD l 0, fun l hl hpos => ?_, ?_,
      onResult_produces hi hd (by rw [readRed, ha]; rfl)⟩
    · rw [laneVal_mkG _ hl, if_neg (by omega)]
    · rw [laneVal_mkG _ (by decide), if_pos rfl, scanSteps_zero _ 5 (by decide)]
  · exact onLanes_produces hi hd (by rw [hq, Except.map_id]; rfl)
  · exact ⟨bitVal q, fun l hl => laneVal_bitVal q hl, onResult_produces hi hd (by rw [hq, Except.map_id]; rfl)⟩

/-! ## Reductions over the participating lanes (R37, R38, R107, R108) -/

/-- An operation with which terms can be combined in any order, and a neutral term. -/
structure Combines (f : Word → Word → Word) (e : Word) : Prop where
  comm : ∀ x y, f x y = f y x
  assoc : ∀ x y z, f (f x y) z = f x (f y z)
  left : ∀ x, f e x = x

/-- The terms g a, g (a + 1), … of n lanes combined in ascending order. -/
def foldLanes (f : Word → Word → Word) (e : Word) (g : Nat → Word) (n : Nat) : Word :=
  (List.range n).foldl (fun a l => f a (g l)) e

/-- The lanes up to one of them. -/
theorem filter_range_le {l n : Nat} (hl : l < n) : (List.range n).filter (· ≤ l) = List.range (l + 1) := by
  obtain ⟨j, rfl⟩ := Nat.exists_eq_add_of_lt hl
  rw [show l + j + 1 = (l + 1) + j by omega, List.range_add, List.filter_append, List.filter_eq_self.mpr,
    List.filter_eq_nil_iff.mpr, List.append_nil]
  · simp only [List.mem_map, List.mem_range, decide_eq_true_eq]
    omega
  · simp only [List.mem_range, decide_eq_true_eq]
    omega

section Reductions

variable {f : Word → Word → Word} {e : Word}

theorem foldLanes_succ (g : Nat → Word) (n : Nat) : foldLanes f e g (n + 1) = f (foldLanes f e g n) (g n) := by
  rw [foldLanes, List.range_succ, List.foldl_append]
  rfl

theorem foldLanes_congr {g h : Nat → Word} {n : Nat} (hgh : ∀ l < n, g l = h l) : foldLanes f e g n = foldLanes f e h n :=
  List.foldl_ext _ _ _ fun a l hl => congrArg (f a) (hgh l (List.mem_range.mp hl))

variable (hf : Combines f e)

include hf

theorem Combines.right (x : Word) : f x e = x := by rw [hf.comm, hf.left]

theorem foldLanes_add (g : Nat → Word) (n j : Nat) :
    foldLanes f e g (n + j) = f (foldLanes f e g n) (foldLanes f e (fun l => g (n + l)) j) := by
  induction j with
  | zero => exact (hf.right _).symm
  | succ j ih => rw [← Nat.add_assoc, foldLanes_succ, ih, foldLanes_succ, hf.assoc]

theorem foldLanes_pair (g h : Nat → Word) (n : Nat) :
    foldLanes f e (fun l => f (g l) (h l)) n = f (foldLanes f e g n) (foldLanes f e h n) := by
  induction n with
  | zero => exact (hf.left e).symm
  | succ n ih =>
    rw [foldLanes_succ, foldLanes_succ, foldLanes_succ, ih]
    rw [hf.assoc, hf.assoc, ← hf.assoc (foldLanes f e h n) (g n), hf.comm (foldLanes f e h n) (g n), hf.assoc (g n)]

/-- Lanes that hold the neutral term add nothing. -/
theorem foldl_filter_eq (ls : List Nat) (p : Nat → Bool) (g : Nat → Word) (a : Word) :
    ls.foldl (fun a l => f a (if p l then g l else e)) a = ((ls.filter p).map g).foldl f a := by
  induction ls generalizing a with
  | nil => rfl
  | cons l ls ih =>
    rw [List.foldl_cons, ih]
    cases hp : p l with
    | true => rw [List.filter_cons_of_pos hp, if_pos rfl]; rfl
    | false => rw [List.filter_cons_of_neg (by simp [hp]), if_neg (by simp), hf.right]

/-- The tree of R37 combines all its terms. -/
theorem redTree_eq {F : Word → Word → Word × Flags} (hF : ∀ x y, (F x y).1 = f x y) (n : Nat) (t : List Word) :
    (redTree F n t).1 = foldLanes f e (fun l => t.getD l 0) (2 ^ n) := by
  induction n generalizing t with
  | zero =>
    show t.headD 0 = f e (t.getD 0 0)
    rw [hf.left]
    cases t <;> rfl
  | succ n ih =>
    let r := ((List.range (2 ^ n)).map fun l => F (t.getD l 0) (t.getD (l + 2 ^ n) 0)).map (·.1)
    have hr : ∀ l < 2 ^ n, r.getD l 0 = f (t.getD l 0) (t.getD (2 ^ n + l) 0) := fun l hl => by
      simp [r, hl, hF, Nat.add_comm]
    calc (redTree F (n + 1) t).1 = (redTree F n r).1 := rfl
      _ = _ := ih r
      _ = _ := foldLanes_congr hr
      _ = _ := foldLanes_pair hf _ _ _
      _ = foldLanes f e (fun l => t.getD l 0) (2 ^ n + 2 ^ n) := (foldLanes_add hf _ _ _).symm
      _ = _ := by rw [Nat.pow_succ, Nat.mul_two]

omit hf in
/-- The windows of a lane and of the lane h below it, side by side, are the window twice as long. -/
theorem windows_eq {h l : Nat} (hlh : h ≤ l) : l - h + 1 - min h (l - h + 1) = l + 1 - min (2 * h) (l + 1) ∧
    min (2 * h) (l + 1) = min h (l - h + 1) + min h (l + 1) ∧
    ∀ i, l + 1 - min h (l + 1) + i = l + 1 - min (2 * h) (l + 1) + (min h (l - h + 1) + i) := by
  obtain ⟨d, rfl⟩ := Nat.exists_eq_add_of_le hlh
  rw [Nat.add_sub_cancel_left, Nat.add_assoc, min_eq_left (Nat.le_add_right h _), Nat.two_mul]
  rcases le_total h (d + 1) with hc | hc
  · obtain ⟨c, hc'⟩ := Nat.exists_eq_add_of_le hc
    have hrest : h + (h + c) - (h + h) = c := by rw [← Nat.add_assoc, Nat.add_sub_cancel_left]
    rw [hc', min_eq_left (Nat.le_add_right h c), min_eq_left (Nat.add_le_add_left (Nat.le_add_right h c) h), hrest,
      Nat.add_sub_cancel_left, Nat.add_sub_cancel_left]
    exact ⟨rfl, rfl, fun i => by rw [Nat.add_comm h c, Nat.add_assoc]⟩
  · rw [min_eq_right hc, min_eq_right (Nat.add_le_add_left hc h), Nat.sub_self, Nat.sub_self, Nat.add_sub_cancel_left]
    exact ⟨rfl, Nat.add_comm _ _, fun i => (Nat.zero_add _).symm⟩

/-- One step of the scan of R38 doubles the window of terms that a lane holds. -/
theorem scanSteps_eq {F : Word → Word → Word × Flags} (hF : ∀ x y, (F x y).1 = f x y) (g : Nat → Word) (n h : Nat)
    (hh : 0 < h) (t : List Word) (ht : ∀ l < 32, t.getD l 0 = foldLanes f e (fun i => g (l + 1 - min h (l + 1) + i)) (min h (l + 1)))
    {l : Nat} (hl : l < 32) :
    (scanSteps F n h t).1.getD l 0 =
      foldLanes f e (fun i => g (l + 1 - min (2 ^ n * h) (l + 1) + i)) (min (2 ^ n * h) (l + 1)) := by
  induction n generalizing h t with
  | zero => rw [Nat.pow_zero, Nat.one_mul]; exact ht l hl
  | succ n ih =>
    let r := ((List.range 32).map fun l =>
      if l ≥ h then F (t.getD (l - h) 0) (t.getD l 0) else (t.getD l 0, 0)).map (·.1)
    have hr : ∀ l < 32, r.getD l 0 =
        foldLanes f e (fun i => g (l + 1 - min (2 * h) (l + 1) + i)) (min (2 * h) (l + 1)) := fun l hl => by
      by_cases hlh : l ≥ h
      · have hv : r.getD l 0 = f (t.getD (l - h) 0) (t.getD l 0) := by simp [r, hl, hlh, hF]
        obtain ⟨hwin, hlen, hidx⟩ := windows_eq hlh
        rw [hv, ht (l - h) (by omega), ht l hl, hlen, foldLanes_add hf, hwin, ← hlen]
        congr 2
        funext i
        congr 1
        exact hidx i
      · have hv : r.getD l 0 = t.getD l 0 := by simp [r, hl, hlh]
        have h1 : min h (l + 1) = l + 1 := min_eq_right (not_le.1 hlh)
        have h2 : min (2 * h) (l + 1) = l + 1 := min_eq_right (by omega)
        rw [hv, ht l hl, h1, h2]
    have hp : 2 ^ (n + 1) * h = 2 ^ n * (2 * h) := by rw [Nat.pow_succ, Nat.mul_assoc]
    rw [hp]
    exact ih (2 * h) (by omega) r hr

/-- Both reductions of an operation over the participating lanes. -/
theorem reductions_eq {op : RedOp} {u : Bool} (m : LaneMask) (v : VVal) (hF : ∀ x y, (combine op false u x y).1 = f x y)
    (he : identity op u = e) :
    (redTree (combine op false u) 5 (redTerms op u m v)).1 = ((lanesOf m).map (laneVal v)).foldl f e ∧
    ∀ l < 32, (scanSteps (combine op false u) 5 1 (redTerms op u m v)).1.getD l 0 =
      (((lanesOf m).filter (· ≤ l)).map (laneVal v)).foldl f e := by
  let g (l : Nat) : Word := if laneBit m l then laneVal v l else e
  have hterm : ∀ l < 32, (redTerms op u m v).getD l 0 = g l := fun l hl => by simp [redTerms, hl, g, he]
  refine ⟨?_, fun l hl => ?_⟩
  · rw [redTree_eq hf hF]
    exact (foldLanes_congr hterm).trans (foldl_filter_eq hf (List.range 32) (laneBit m) (laneVal v) e)
  · have hwin := scanSteps_eq hf hF g 5 1 (by decide) (redTerms op u m v) (fun l hl => by
      have h1 : min 1 (l + 1) = 1 := by omega
      rw [h1, foldLanes_succ, hterm l hl]
      exact (hf.left _).symm) hl
    have hmin : min (2 ^ 5 * 1) (l + 1) = l + 1 := by omega
    have hlanes : (lanesOf m).filter (· ≤ l) = (List.range (l + 1)).filter (laneBit m) := by
      rw [lanesOf, List.filter_filter, ← filter_range_le hl, List.filter_filter]
      simp only [Bool.and_comm]
    rw [hwin, hmin, Nat.sub_self, hlanes]
    simp only [Nat.zero_add]
    exact foldl_filter_eq hf (List.range (l + 1)) (laneBit m) (laneVal v) e

end Reductions

theorem elem_32_unsigned (x : Word) : elem 32 false x 0 = x.toNat := by
  rw [elem_unsigned, Nat.mul_zero, Nat.pow_zero, Nat.div_one, Nat.mod_eq_of_lt x.isLt]

theorem elem_32_signed (x : Word) : elem 32 true x 0 = x.toInt := by
  have hs : elem 32 true x 0 = (elem 32 false x 0).bmod (2 ^ 32) := elem_signed .w32 x 0
  rw [hs, elem_32_unsigned, ← BitVec.toInt_eq_toNat_bmod]

/-- Choosing the lesser by a key that tells words apart combines, with a word of the greatest key. -/
theorem combines_lesser {α : Type} [LinearOrder α] {key : Word → α} {e : Word} (hinj : Function.Injective key)
    (he : ∀ x, key x ≤ key e) : Combines (fun x y => if key x ≤ key y then x else y) e where
  comm x y := by
    rcases lt_trichotomy (key x) (key y) with h | h | h
    · simp [h.le, not_le.mpr h]
    · simp [hinj h]
    · simp [h.le, not_le.mpr h]
  assoc x y z := by
    rcases le_or_gt (key x) (key y) with hxy | hxy
    · rcases le_or_gt (key y) (key z) with hyz | hyz
      · simp [hxy, hyz, hxy.trans hyz]
      · simp [hxy, not_le.mpr hyz]
    · rcases le_or_gt (key y) (key z) with hyz | hyz
      · simp [not_le.mpr hxy, hyz]
      · simp [not_le.mpr hxy, not_le.mpr hyz, not_le.mpr (hyz.trans hxy)]
  left x := by
    split
    next h => exact hinj (le_antisymm h (he x))
    next => rfl

theorem combines_greater {α : Type} [LinearOrder α] {key : Word → α} {e : Word} (hinj : Function.Injective key)
    (he : ∀ x, key e ≤ key x) : Combines (fun x y => if key y ≤ key x then x else y) e :=
  combines_lesser (key := fun x => OrderDual.toDual (key x)) (fun _ _ h => hinj (OrderDual.toDual.injective h)) he

theorem natCast_toNat_injective : Function.Injective fun x : Word => x.toNat := fun _ _ => BitVec.eq_of_toNat_eq

theorem toInt_injective : Function.Injective fun x : Word => x.toInt := fun _ _ => BitVec.eq_of_toInt_eq

theorem combine_add (u : Bool) (x y : Word) : (combine .add false u x y).1 = x + y := by
  show BitVec.ofInt 32 (elem 32 (!u) x 0 + elem 32 (!u) y 0) = x + y
  rw [BitVec.ofInt_add, ofInt_elem_32, ofInt_elem_32]

theorem reductionIsOverParticipatingLanes : ReductionIsOverParticipatingLanes := by
  intro m v
  refine ⟨fun u => ⟨?_, ?_, ?_, ?_⟩, ?_, ?_, ?_, ?_⟩
  · exact reductions_eq ⟨add_comm, add_assoc, zero_add⟩ m v (combine_add u) rfl
  · exact reductions_eq ⟨BitVec.xor_comm, BitVec.xor_assoc, fun x => BitVec.zero_xor⟩ m v (fun _ _ => rfl) rfl
  · exact reductions_eq ⟨BitVec.and_comm, BitVec.and_assoc, fun x => BitVec.allOnes_and⟩ m v (fun _ _ => rfl) rfl
  · exact reductions_eq ⟨BitVec.or_comm, BitVec.or_assoc, fun x => BitVec.zero_or⟩ m v (fun _ _ => rfl) rfl
  · refine reductions_eq (combines_lesser toInt_injective fun x => ?_) m v (fun x y => ?_) rfl
    · exact Int.le_of_lt_add_one x.toInt_lt
    · show (if elem 32 true x 0 ≤ elem 32 true y 0 then x else y) = _
      rw [elem_32_signed, elem_32_signed]
  · refine reductions_eq (combines_greater toInt_injective fun x => ?_) m v (fun x y => ?_) rfl
    · exact x.le_toInt
    · show (if elem 32 true x 0 ≥ elem 32 true y 0 then x else y) = _
      rw [elem_32_signed, elem_32_signed]
  · refine reductions_eq (combines_lesser natCast_toNat_injective fun x => ?_) m v (fun x y => ?_) rfl
    · exact Nat.le_of_lt_succ x.isLt
    · show (if elem 32 false x 0 ≤ elem 32 false y 0 then x else y) = _
      simp only [elem_32_unsigned, Nat.cast_le]
  · refine reductions_eq (combines_greater natCast_toNat_injective fun x => ?_) m v (fun x y => ?_) rfl
    · exact Nat.zero_le _
    · show (if elem 32 false x 0 ≥ elem 32 false y 0 then x else y) = _
      simp only [elem_32_unsigned, ge_iff_le, Nat.cast_le]

/-- Settles O14: each instruction writes one value or one predicate, and the tree and the scan combine the terms of the
participating lanes. -/
theorem crossLaneAndPredicates : Obligations.CrossLaneAndPredicates :=
  ⟨crossLaneInstructionsWrite, predicateInstructionsWrite, reductionIsOverParticipatingLanes⟩

end Sys2Proof.Machine

/-! # Access checks, loads (R130 to R137, R375 to R379) -/

namespace Sys2Proof.Machine

open Sys2Proof Sys2Proof.Claims

/-! ## What leaves memory, span and line versions alone -/

/-- Device memory, the span and the line versions are the same. -/
structure StoresEq (s t : State) : Prop where
  mem : t.mem = s.mem
  span : t.span = s.span
  lineVer : t.lineVer = s.lineVer

theorem StoresEq.refl (s : State) : StoresEq s s := ⟨rfl, rfl, rfl⟩

theorem StoresEq.trans {s t u : State} (h : StoresEq s t) (g : StoresEq t u) : StoresEq s u :=
  ⟨g.mem.trans h.mem, g.span.trans h.span, g.lineVer.trans h.lineVer⟩

theorem StoresEq.sameStores {s t : State} (h : StoresEq s t) : SameStores s t := fun a => by
  rw [h.mem, h.span, h.lineVer]
  exact ⟨rfl, rfl, rfl⟩

theorem StoresEq.homesWf {s t : State} (h : StoresEq s t) (hs : s.homesWf = true) : t.homesWf = true := by
  rw [State.homesWf, h.mem, h.span, h.lineVer]
  exact hs

/-- A fold of steps each of which leaves the stores alone. -/
theorem StoresEq.foldl {α : Type} {f : State → α → State} (hf : ∀ s x, StoresEq s (f s x)) (l : List α) (s : State) :
    StoresEq s (l.foldl f s) := by
  induction l generalizing s with
  | nil => exact .refl s
  | cons x l ih => exact (hf s x).trans (ih (f s x))

/-! ## Translations used by an access (R360, R379) -/

theorem noteUse_frame (s : State) (ctx : Fin 64) (va : Nat) :
    noteUse s ctx va = { s with staged := (noteUse s ctx va).staged } := by
  unfold noteUse
  split <;> rfl

theorem touch_frame (s : State) (who : Option (Fin 256)) (ctx : Fin 64) (va : Nat) : touch s who ctx va =
    { s with cores := (touch s who ctx va).cores, dieTlb := (touch s who ctx va).dieTlb,
             staged := (touch s who ctx va).staged } := by
  unfold touch
  split
  · rw [noteUse_frame]
    rfl
  · rfl

theorem touchAll_frame (s : State) (who : Fin 256) (ctx : Fin 64) (accs : List LaneAcc) : touchAll s who ctx accs =
    { s with cores := (touchAll s who ctx accs).cores, dieTlb := (touchAll s who ctx accs).dieTlb,
             staged := (touchAll s who ctx accs).staged } := by
  unfold touchAll
  induction accs generalizing s with
  | nil => rfl
  | cons a accs ih =>
    rw [List.foldl_cons, ih]
    split
    next => rfl
    next => rw [touch_frame]

/-- What passing the checks leaves, as `reached` says: blocks, TLBs and the use of staged pages. -/
theorem reached_frame (s : State) (k : GCtx) (f : AccForm) (size : Size) (accs : List LaneAcc) : reached s k f size accs =
    { s with cores := (reached s k f size accs).cores, dieTlb := (reached s k f size accs).dieTlb,
             staged := (reached s k f size accs).staged, blocks := (reached s k f size accs).blocks } := by
  unfold reached
  rw [touchAll_frame]
  rfl

theorem reached_storesEq (s : State) (k : GCtx) (f : AccForm) (size : Size) (accs : List LaneAcc) :
    StoresEq s (reached s k f size accs) := by
  rw [reached_frame]
  exact ⟨rfl, rfl, rfl⟩

/-! ## The lanes of an access (R131, R134) -/

theorem checkLanes_cons (s : State) (who : Fin 256) (ctx : Fin 64) (f : AccForm) (ver : Bool) (size : Size) (l : Nat)
    (ea : Int) (r : List (Nat × Int)) : checkLanes s who ctx f ver size ((l, ea) :: r) =
      match checkAcc s (some who) ctx f ver size ea with
      | .error x => .error (l, ea, x)
      | .ok c =>
        match checkLanes s who ctx f ver size r with
        | .error x => .error x
        | .ok cs => .ok ({ c with acc := { c.acc with lane := l } } :: cs) := rfl

/-- The first lane that fails decides, and only it. -/
theorem checkLanes_error_iff {s : State} {who : Fin 256} {ctx : Fin 64} {f : AccForm} {ver : Bool} {size : Size}
    {eas : List (Nat × Int)} {l : Nat} {ea : Int} {x : AErr} :
    checkLanes s who ctx f ver size eas = .error (l, ea, x) ↔
      ∃ before after, eas = before ++ (l, ea) :: after ∧ checkAcc s (some who) ctx f ver size ea = .error x ∧
        ∀ e ∈ before, ∃ c, checkAcc s (some who) ctx f ver size e.2 = .ok c := by
  induction eas with
  | nil => simp [checkLanes]
  | cons e eas ih =>
    obtain ⟨l', ea'⟩ := e
    rw [checkLanes_cons]
    cases hc : checkAcc s (some who) ctx f ver size ea' with
    | error y =>
      constructor
      · intro h
        cases h
        exact ⟨[], eas, rfl, hc, by simp⟩
      · rintro ⟨before, after, he, hx, hb⟩
        cases before with
        | nil =>
          cases he
          rw [hc] at hx
          cases hx
          rfl
        | cons b before =>
          cases he
          obtain ⟨c, hc'⟩ := hb _ List.mem_cons_self
          rw [hc] at hc'
          cases hc'
    | ok c =>
      have step : (match checkLanes s who ctx f ver size eas with
          | .error x => .error x
          | .ok cs => .ok ({ c with acc := { c.acc with lane := l' } } :: cs) : Except (Nat × Int × AErr) (List Checked)) =
            .error (l, ea, x) ↔ checkLanes s who ctx f ver size eas = .error (l, ea, x) := by
        cases checkLanes s who ctx f ver size eas <;> simp
      refine step.trans (ih.trans ⟨?_, ?_⟩)
      · rintro ⟨before, after, rfl, hx, hb⟩
        refine ⟨(l', ea') :: before, after, rfl, hx, fun e he => ?_⟩
        rcases List.mem_cons.mp he with rfl | he
        · exact ⟨c, hc⟩
        · exact hb e he
      · rintro ⟨before, after, he, hx, hb⟩
        cases before with
        | nil =>
          cases he
          rw [hc] at hx
          cases hx
        | cons b before =>
          cases he
          exact ⟨before, after, rfl, hx, fun e he => hb e (List.mem_cons_of_mem _ he)⟩

section Accesses

variable {s : State} {k : GCtx} {m : LaneMask} {cont : Bool} {f : AccForm} {ver : Bool} {size : Size} {addr : Fin 128}
  {off : BitVec 18} {go : State → Bool → List LaneAcc → Except Raise State} {uni : Bool} {eas : List (Nat × Int)}

/-- An access that reaches its places goes on in the state that the checks leave. -/
theorem withAccs_reaches {accs : List LaneAcc} (h : Reaches s k m f ver size addr off uni accs) :
    withAccs s k m cont f ver size addr off go = go (reached s k f size accs) uni accs := by
  obtain ⟨eas, cs, heas, hcs, hnone, rfl⟩ := h.passed
  simp only [withAccs, heas, hcs, hnone]
  rfl

theorem laneEas_of_reaches {accs : List LaneAcc} (h : Reaches s k m f ver size addr off uni accs) :
    ∃ x, laneEas k m addr off = .ok x := by
  obtain ⟨eas, cs, heas, -⟩ := h.passed
  exact ⟨_, heas⟩

/-- What an access does whose lowest failing lane is l: it faults there, or waits for the page. -/
theorem withAccs_error {l : Nat} {ea : Int} {x : AErr} (heas : laneEas k m addr off = .ok (uni, eas))
    (h : checkLanes s k.blk.core k.blk.ctx f ver size eas = .error (l, ea, x)) :
    (∀ code a, x = .fault code a → withAccs s k m cont f ver size addr off go = .error (raise code (some l) 0 a)) ∧
    (∀ ctx va, x = .absent ctx va →
      withAccs s k m cont f ver size addr off go = .ok (pageWait s k cont (missKind f ea.toNat va) ctx va l ea.toNat)) := by
  refine ⟨fun code a hx => ?_, fun ctx va hx => ?_⟩ <;>
  · subst hx
    simp only [withAccs, heas, h]

end Accesses

/-- What a step of one of the memory instructions comes to, once its access has been decided. -/
theorem outcome_of_withAccs {s : State} {k : GCtx} {cont : Bool} {f : AccForm} {l : Nat} {ea : Int} {x : AErr} {out : Out1}
    {r : Except Raise State}
    (ho : out = match r with
      | .ok t => .next t
      | .error e => .next (takeFault s s.cur e))
    (h : (∀ code a, x = .fault code a → r = .error (raise code (some l) 0 a)) ∧
      ∀ ctx va, x = .absent ctx va → r = .ok (pageWait s k cont (missKind f ea.toNat va) ctx va l ea.toNat)) :
    (∀ code a, x = .fault code a → out = .next (takeFault s s.cur (raise code (some l) 0 a))) ∧
    ∀ ctx va, x = .absent ctx va → out = .next (pageWait s k cont (missKind f ea.toNat va) ctx va l ea.toNat) :=
  ⟨fun code a hx => by rw [ho, h.1 code a hx], fun ctx va hx => by rw [ho, h.2 ctx va hx]⟩

/-- Settles O18: the checks go through the lanes in order, and each instruction makes them before it acts. -/
theorem lowestFailingLaneFaults : Obligations.LowestFailingLaneFaults := by
  refine ⟨fun s who ctx f ver size eas l ea x => checkLanes_error_iff,
    fun s k c m addr off uni eas l ea x hi heas => ⟨fun d ord scope raw sx size idx hidx hc => ?_,
      fun data ord scope raw ver size vals hv hc => ?_, fun data ord scope ver size vals hv hc => ?_,
      fun data v hv hc => ?_⟩⟩
  · refine outcome_of_withAccs (onResult_issues hi) ?_
    simp only [hidx, bind, Except.bind]
    exact withAccs_error heas hc
  · refine outcome_of_withAccs (onLanes_issues hi) ?_
    simp only [heas, hv, bind, Except.bind]
    exact withAccs_error heas hc
  · refine outcome_of_withAccs (onLanes_issues hi) ?_
    simp only [heas, hv, bind, Except.bind]
    exact withAccs_error heas hc
  · refine outcome_of_withAccs (onLanes_issues hi) ?_
    simp only [heas, hv, bind, Except.bind]
    exact withAccs_error heas hc

/-! ## LD (R49, R135, R179, R368) -/

theorem addPend_eq (s : State) (k : GCtx) (p : Pend) : addPend s k p =
    if linesHeld { k.wp with pend := k.wp.pend ++ [p] } ≤ k.wp.gmax then .ok (withPend s k p)
    else .error (raise .regpool (some (lowLane p.lanes))) := by
  by_cases h : linesHeld { k.wp with pend := k.wp.pend ++ [p] } ≤ k.wp.gmax
  · simp only [addPend, checkLines, gt_iff_lt, if_neg (Nat.not_lt.mpr h), if_pos h]
    rfl
  · simp only [addPend, checkLines, gt_iff_lt, if_pos (Nat.not_le.mp h), if_neg h]
    rfl

/-- A load whose places all lie on the device sends nothing. -/
theorem sendReads_of_local {s : State} {k : GCtx} {id : Nat} {size : Size} {accs : List LaneAcc}
    (h : ∀ a ∈ accs, isFab a.loc = false) : sendReads s k id size accs = s := by
  unfold sendReads
  induction accs generalizing s with
  | nil => rfl
  | cons a accs ih =>
    rw [List.foldl_cons, h a List.mem_cons_self]
    exact ih fun x hx => h x (List.mem_cons_of_mem _ hx)

/-- What an LD that reaches its places comes to. -/
theorem execLd_eq {s : State} {k : GCtx} {c : Ctl} {m : LaneMask} {d : Dst} {addr : Fin 128} {off : BitVec 18} {ord : Order}
    {raw sx : Bool} {size : Size} {uni : Bool} {accs : List LaneAcc} {idx : List (Nat × Fin 256)} (scope : Scope)
    (hi : Issues s k c m) (hidx : dstIdx k d m = .ok idx)
    (hr : Reaches s k m (if raw then .ldRaw else .ld) false size addr off uni accs) :
    let t := reached s k (if raw then .ldRaw else .ld) size accs
    let id := t.nextId
    let p := loadPend k m d idx accs size uni raw sx ord id
    let u := sendReads (withPend { t with nextId := id + 1 } k p) k id size accs
    execLd c d addr off ord scope raw sx size s =
      if linesHeld { k.wp with pend := k.wp.pend ++ [p] } ≤ k.wp.gmax then
        .next (if accs.any fun a => isFab a.loc then modGangW u k.b k.w k.g.gid fun g => { g with wait := .fabric id } else u)
      else .next (takeFault s s.cur (raise .regpool (some (lowLane p.lanes)))) := by
  intro t id p u
  rw [execLd, onResult_issues hi, hidx]
  simp only [bind, Except.bind, withAccs_reaches hr]
  have hp : addPend { t with nextId := t.nextId + 1 } k p = _ := addPend_eq _ k p
  by_cases h : linesHeld { k.wp with pend := k.wp.pend ++ [p] } ≤ k.wp.gmax
  · rw [if_pos h] at hp ⊢
    simp only [p, t, id, loadPend] at hp
    simp only [hp]
    cases hfab : accs.any fun a => isFab a.loc
    · simp only [Bool.false_eq_true, if_false]
      rfl
    · simp only [if_true]
      rfl
  · rw [if_neg h] at hp ⊢
    simp only [p, t, id, loadPend] at hp
    simp only [hp]
    rfl

/-- Settles O17: an LD that reaches its places, by what it holds of the register pool and where its places lie. -/
theorem loadGoesOn : Obligations.LoadGoesOn := by
  intro s k c m d addr off ord scope raw sx size uni accs idx hi hidx hr t id p ht hid hp
  subst ht hid hp
  have hexec := execLd_eq (sx := sx) (ord := ord) scope hi hidx hr
  refine ⟨(reached_storesEq ..).sameStores, fun hl hloc => ?_, fun hl hfab => ?_, fun hl => ?_⟩
  · have hany : (accs.any fun a => isFab a.loc) = false := by simpa using hloc
    refine hexec.trans ?_
    rw [if_pos hl, hany, sendReads_of_local hloc]
    rfl
  · have hany : (accs.any fun a => isFab a.loc) = true := by simpa using hfab
    refine hexec.trans ?_
    rw [if_pos hl, hany]
    rfl
  · exact hexec.trans (if_neg (Nat.not_le.mpr hl))

end Sys2Proof.Machine

/-! # The checks of one access in their order -/

namespace Sys2Proof.Machine

open Sys2Proof Sys2Proof.Claims

/-! ## Translation outside the span (R134 step 2, R375 to R379) -/

theorem AccForm.kind_ne_fetch (f : AccForm) : f.kind ≠ .fetch := by
  cases f <;> exact fun h => AKind.noConfusion h

theorem leafOf_of_not_valid {s : State} {ctx : Fin 64} (who : Option (Fin 256)) (va : Nat) (h : s.ctxs[ctx].valid = false) :
    leafOf s who ctx va = .malformed := by
  simp only [leafOf, h, Bool.not_false, if_true]

theorem leafOf_of_cached {s : State} {who : Option (Fin 256)} {ctx : Fin 64} {va : Nat} {t : TlbEnt}
    (h : s.ctxs[ctx].valid = true) (ht : cachedLeaf s who ctx va = some t) : leafOf s who ctx va = .leaf t := by
  simp only [leafOf, h, ht, Bool.not_true, Bool.false_eq_true, if_false]

theorem leafOf_of_not_cached {s : State} {who : Option (Fin 256)} {ctx : Fin 64} {va : Nat}
    (h : s.ctxs[ctx].valid = true) (ht : cachedLeaf s who ctx va = none) :
    leafOf s who ctx va = walkTable s.mem ctx.val va levels s.ctxs[ctx].root.toNat := by
  simp only [leafOf, h, ht, Bool.not_true, Bool.false_eq_true, if_false]

theorem pageOf_absent {s : State} {who : Option (Fin 256)} {ctx : Fin 64} {k : AKind} {va : Nat}
    (h : leafOf s who ctx va = .absent) : pageOf s who ctx k va = .error (.absent ctx.val va) := by
  simp only [pageOf, h]

theorem pageOf_malformed {s : State} {who : Option (Fin 256)} {ctx : Fin 64} {k : AKind} {va : Nat} (hk : k ≠ .fetch)
    (h : leafOf s who ctx va = .malformed) : pageOf s who ctx k va = .error (.fault .protection va) := by
  simp only [pageOf, h, if_neg hk]

theorem pageOf_forbidden {s : State} {who : Option (Fin 256)} {ctx : Fin 64} {k : AKind} {va : Nat} {t : TlbEnt}
    (hk : k ≠ .fetch) (h : leafOf s who ctx va = .leaf t) (hp : bitsOf t.pte.toNat (if k.writes then 3 else 2) 1 = 0) :
    pageOf s who ctx k va = .error (.fault .protection va) := by
  simp only [pageOf, h, if_neg hk, if_pos hp]

/-- A permitted access to a plain page of device memory translates. -/
theorem pageOf_plain {s : State} {who : Option (Fin 256)} {ctx : Fin 64} {k : AKind} {va : Nat} {t : TlbEnt}
    (hk : k ≠ .fetch) (h : leafOf s who ctx va = .leaf t) (hp : bitsOf t.pte.toNat (if k.writes then 3 else 2) 1 = 1)
    (htier : bitsOf t.pte.toNat 5 1 = 0) (hfmt : bitsOf t.pte.toNat 8 6 = 0) :
    pageOf s who ctx k va =
      .ok { tier := false, base := pteAddr t.pte.toNat + (va - t.va), ep := bitsOf t.pte.toNat 16 8, fmt := 0,
            mig := decide (bitsOf t.pte.toNat 6 1 = 1) } := by
  have hp0 : ¬ bitsOf t.pte.toNat (if k.writes then 3 else 2) 1 = 0 := by omega
  simp only [pageOf, h, if_neg hk, if_neg hp0, htier, hfmt]
  simp

/-! ## Outside the span (R134) -/

theorem checkAcc_beyond_limit {s : State} {who : Option (Fin 256)} {ctx : Fin 64} {f : AccForm} {ver : Bool} {size : Size}
    {ea : Int} (h : ea < 0 ∨ (Config.vaLimit : Int) ≤ ea) :
    checkAcc s who ctx f ver size ea = .error (.fault .protection (ea % 2 ^ 64).toNat) := by
  have hc : (decide (ea < 0) || decide (ea ≥ Config.vaLimit)) = true := by simpa using h
  rw [checkAcc, if_pos hc]

/-- An access below the limit and outside the span is judged by what its translation gives. -/
theorem checkAcc_of_page {s : State} {who : Option (Fin 256)} {ctx : Fin 64} {f : AccForm} {ver : Bool} {size : Size}
    {a : Nat} (ha : a < Config.vaLimit) (hs : inSpan a = false) :
    checkAcc s who ctx f ver size a =
      match pageOf s who ctx f.kind a with
      | .error x => .error x
      | .ok p =>
        let mig := p.mig && f.kind.writes
        let held := mig && (ver || f = .atomo)
        if p.tier && (ver || f = .atomo) then .error (.fault .protection a)
        else if p.fmt != 0 then (checkFormat s who ctx f size p a).map fun l => { acc := { l with mig := mig }, held := held }
        else if f = .qst then .error (.fault .formatMismatch a)
        else if a % size.bytes != 0 then .error (.fault .misaligned a)
        else .ok { acc := { lane := 0, ea := a, loc := placeOf ctx p 0, els := [], mig := mig }, held := held } := by
  have hc : ¬ (decide ((a : Int) < 0) || decide ((a : Int) ≥ Config.vaLimit)) = true := by
    simp only [Bool.or_eq_true, decide_eq_true_eq]
    omega
  rw [checkAcc, if_neg hc]
  simp only [Int.toNat_natCast, hs, Bool.false_eq_true, if_false] <;> rfl

theorem checkAcc_of_pageError {s : State} {who : Option (Fin 256)} {ctx : Fin 64} {f : AccForm} {ver : Bool} {size : Size}
    {a : Nat} {x : AErr} (ha : a < Config.vaLimit) (hs : inSpan a = false) (h : pageOf s who ctx f.kind a = .error x) :
    checkAcc s who ctx f ver size a = .error x := by
  rw [checkAcc_of_page ha hs, h]

/-- An access to a plain page of device memory is judged by its alignment. -/
theorem checkAcc_of_plainPage {s : State} {who : Option (Fin 256)} {ctx : Fin 64} {f : AccForm} {ver : Bool} {size : Size}
    {a : Nat} {p : Page} (ha : a < Config.vaLimit) (hs : inSpan a = false) (h : pageOf s who ctx f.kind a = .ok p)
    (htier : p.tier = false) (hfmt : p.fmt = 0) (hf : f ≠ .qst) :
    checkAcc s who ctx f ver size a =
      if a % size.bytes ≠ 0 then .error (.fault .misaligned a)
      else .ok { acc := { lane := 0, ea := a, loc := .dev p.base, els := [], mig := p.mig && f.kind.writes }
                 held := p.mig && f.kind.writes && (ver || decide (f = .atomo)) } := by
  rw [checkAcc_of_page ha hs, h]
  simp only [htier, hfmt, placeOf, Bool.false_and, Bool.false_eq_true, if_false, bne_self_eq_false, if_neg hf,
    bne_iff_ne, Nat.add_zero]

/-! ## In the span (R241, R244, R245) -/

/-- A plain access to the span is judged by its alignment, then by its blocks' ranges. -/
theorem checkAcc_span {s : State} {who : Option (Fin 256)} {ctx : Fin 64} {f : AccForm} {size : Size} {a : Nat}
    (hs : inSpan a = true) (ha : a < Config.spanBase + Config.spanSize) (hf : f ≠ .qst) :
    checkAcc s who ctx f false size a =
      if a % size.bytes ≠ 0 then .error (.fault .misaligned a)
      else if spanAllowed s ctx (a - Config.spanBase) size.bytes = false then .error (.fault .spanProtection a)
      else .ok { acc := { lane := 0, ea := a, loc := .span (a - Config.spanBase), els := [] }
                 held := sliceHeld s (a - Config.spanBase) } := by
  have hlim : Config.spanBase + Config.spanSize ≤ Config.vaLimit := by decide
  have hc : ¬ (decide ((a : Int) < 0) || decide ((a : Int) ≥ Config.vaLimit)) = true := by
    simp only [Bool.or_eq_true, decide_eq_true_eq]
    omega
  have hge : ¬ (decide (a ≥ Config.spanBase + Config.spanSize) || false) = true := by
    simp only [Bool.or_false, decide_eq_true_eq]
    omega
  rw [checkAcc, if_neg hc]
  simp only [Int.toNat_natCast, hs, if_true, if_neg hge, if_neg hf, bne_iff_ne, Bool.not_eq_true']

/-- Settles O19: the limit comes before translation, translation before permission, permission before alignment. -/
theorem accessChecksInOrder : Obligations.AccessChecksInOrder := by
  intro s who ctx f ver size ea
  refine ⟨checkAcc_beyond_limit, ?_, ?_⟩
  · rintro a rfl ha hs
    have hk := f.kind_ne_fetch
    refine ⟨fun h => checkAcc_of_pageError ha hs (pageOf_malformed hk (leafOf_of_not_valid _ _ h)),
      fun t => leafOf_of_cached, leafOf_of_not_cached, fun h => checkAcc_of_pageError ha hs (pageOf_absent h),
      fun h => checkAcc_of_pageError ha hs (pageOf_malformed hk h),
      fun t h hp => checkAcc_of_pageError ha hs (pageOf_forbidden hk h hp), fun t h hp htier hfmt hf => ?_⟩
    have hc := checkAcc_of_plainPage (ver := ver) (size := size) ha hs (pageOf_plain hk h hp htier hfmt) rfl rfl hf
    exact ⟨fun hm => hc.trans (if_pos hm), fun hm => hc.trans (if_neg (not_not_intro hm))⟩
  · rintro a rfl hs ha rfl hf
    have hc := checkAcc_span (s := s) (who := some who) (ctx := ctx) (size := size) hs ha hf
    refine ⟨fun hm => hc.trans (if_pos hm), fun hm hsp => hc.trans ?_, fun hm hsp => hc.trans ?_⟩
    · rw [if_neg (not_not_intro hm), if_pos hsp]
    · rw [if_neg (not_not_intro hm), if_neg (by rw [hsp]; exact Bool.noConfusion)]

end Sys2Proof.Machine

/-! # Stores write at their lanes' places only (R138 to R140, R385, R414) -/

namespace Sys2Proof.Machine

open Sys2Proof Sys2Proof.Claims

/-! ## What writes inside given places leaves alone -/

/-- From s to t only the addresses D of device memory and S of the span may read otherwise, canonical form is kept and no block
changes. -/
structure WritesIn (D S : Nat → Prop) (s t : State) : Prop where
  homes : s.homesWf = true → t.homesWf = true
  mem : s.homesWf = true → ∀ a, ¬ D a → memGet t.mem a = memGet s.mem a
  span : s.homesWf = true → ∀ a, ¬ S a → memGet t.span a = memGet s.span a
  blocks : t.blocks = s.blocks

section WritesIn

variable {D S : Nat → Prop} {s t u : State}

theorem WritesIn.refl (s : State) : WritesIn D S s s := ⟨id, fun _ _ _ => rfl, fun _ _ _ => rfl, rfl⟩

theorem WritesIn.trans (h : WritesIn D S s t) (g : WritesIn D S t u) : WritesIn D S s u where
  homes hs := g.homes (h.homes hs)
  mem hs a ha := (g.mem (h.homes hs) a ha).trans (h.mem hs a ha)
  span hs a ha := (g.span (h.homes hs) a ha).trans (h.span hs a ha)
  blocks := g.blocks.trans h.blocks

theorem WritesIn.mono {D' S' : Nat → Prop} (h : WritesIn D S s t) (hD : ∀ a, D a → D' a) (hS : ∀ a, S a → S' a) :
    WritesIn D' S' s t where
  homes := h.homes
  mem hs a ha := h.mem hs a (mt (hD a) ha)
  span hs a ha := h.span hs a (mt (hS a) ha)
  blocks := h.blocks

theorem WritesIn.foldl {α : Type} {f : State → α → State} {l : List α} (h : ∀ x ∈ l, ∀ s, WritesIn D S s (f s x))
    (s : State) : WritesIn D S s (l.foldl f s) := by
  induction l generalizing s with
  | nil => exact .refl s
  | cons x l ih =>
    exact (h x List.mem_cons_self s).trans (ih (fun y hy => h y (List.mem_cons_of_mem _ hy)) (f s x))

theorem StoresEq.writesIn (h : StoresEq s t) (hb : t.blocks = s.blocks) : WritesIn D S s t where
  homes := h.homesWf
  mem _ a _ := by rw [h.mem]
  span _ a _ := by rw [h.span]
  blocks := hb

/-- A step that may write device memory only. -/
theorem WritesIn.of_mem (hwf : Memory.wf s.mem = true → Memory.wf t.mem = true)
    (hm : Memory.wf s.mem = true → ∀ a, ¬ D a → memGet t.mem a = memGet s.mem a) (hspan : t.span = s.span)
    (hver : t.lineVer = s.lineVer) (hb : t.blocks = s.blocks) : WritesIn D S s t where
  homes hs := by
    obtain ⟨h1, h2, h3⟩ := homesWf_iff.mp hs
    rw [homesWf_iff, hspan, hver]
    exact ⟨hwf h1, h2, h3⟩
  mem hs := hm (homesWf_iff.mp hs).1
  span _ a _ := by rw [hspan]
  blocks := hb

end WritesIn

/-! ## One write of a place (R138, R431) -/

theorem logErr_frame (s : State) (e : ErrEvent) :
    logErr s e = { s with errlog := (logErr s e).errlog, errCount := (logErr s e).errCount } := by
  unfold logErr
  split
  · split <;> rfl
  · rfl

theorem logPoison_frame (s : State) (l : Loc) (c : Nat) :
    logPoison s l c = { s with errlog := (logPoison s l c).errlog, errCount := (logPoison s l c).errCount } := by
  cases l <;> exact logErr_frame s _

theorem holdFor_frame (s : State) (c p : Nat) (h : Held) : holdFor s c p h = { s with migHeld := (holdFor s c p h).migHeld } := by
  unfold holdFor
  split <;> rfl

theorem holdAcc_frame (s : State) (c : Nat) (l : Loc) (f : FabKind) (why : FabFor) (acq : Bool) (va : Nat) :
    holdAcc s c l f why acq va =
      { s with fabOps := (holdAcc s c l f why acq va).fabOps, nextId := (holdAcc s c l f why acq va).nextId,
               migHeld := (holdAcc s c l f why acq va).migHeld } := by
  unfold holdAcc
  rw [holdFor_frame]

/-- The part of a write in one granule is put in place, or discarded and reported. -/
theorem writeGranule_cases (t : Report) (a : Nat) (bs : List Byte) (s : State) (g : Nat) :
    writeGranule t a bs s g = report s t 0 (max a (32 * g) - a) ∨
      writeGranule t a bs s g = { s with mem := putPiece a bs s.mem g, badGranules := s.badGranules.filter (· != g) } := by
  by_cases h : (s.badGranules.contains g && decide (min (a + bs.length) (32 * g + 32) - max a (32 * g) < 32)) = true
  · have hp : putGranule a bs s g = none := if_pos h
    exact .inl (by rw [writeGranule, hp]; rfl)
  · have hp : putGranule a bs s g = some _ := if_neg h
    exact .inr (by rw [writeGranule, hp]; rfl)

theorem writeGranule_writesIn (t : Report) (a : Nat) (bs : List Byte) (s : State) (g : Nat) :
    WritesIn (fun x => a ≤ x ∧ x < a + bs.length) (fun _ => False) s (writeGranule t a bs s g) := by
  rcases writeGranule_cases t a bs s g with h | h <;> rw [h]
  · exact StoresEq.writesIn ⟨rfl, rfl, rfl⟩ rfl
  · refine .of_mem putPiece_wf (fun hm x hx => ?_) rfl rfl rfl
    exact (memGet_putPiece hm x).trans (if_neg fun ⟨h1, h2, _⟩ => hx ⟨h1, h2⟩)

theorem writeGranule_lineVer (t : Report) (a : Nat) (bs : List Byte) (s : State) (g : Nat) :
    (writeGranule t a bs s g).lineVer = s.lineVer := by
  rcases writeGranule_cases t a bs s g with h | h
  · rw [h]; rfl
  · rw [h]

theorem reachDev_writesIn {D S : Nat → Prop} (s : State) (a n : Nat) : WritesIn D S s (reachDev s a n) :=
  StoresEq.writesIn ⟨rfl, rfl, rfl⟩ rfl

theorem writeDev_writesIn (s : State) (t : Report) (a : Nat) (bs : List Byte) :
    WritesIn (fun x => a ≤ x ∧ x < a + bs.length) (fun _ => False) s (writeDev s t a bs) :=
  (WritesIn.foldl (fun g _ u => writeGranule_writesIn t a bs u g) s).trans (reachDev_writesIn ..)

theorem writeDev_lineVer (s : State) (t : Report) (a : Nat) (bs : List Byte) : (writeDev s t a bs).lineVer = s.lineVer := by
  change (List.foldl _ s _).lineVer = _
  induction unitsOf 32 a bs.length generalizing s with
  | nil => rfl
  | cons g gs ih => rw [List.foldl_cons, ih, writeGranule_lineVer]

/-- The bytes of a place. -/
def inDev (l : Loc) (n a : Nat) : Prop := ∃ p, l = .dev p ∧ p ≤ a ∧ a < p + n

/-- The same of the span. -/
def inSpanOf (l : Loc) (n a : Nat) : Prop := ∃ p, l = .span p ∧ p ≤ a ∧ a < p + n

theorem writeLoc_writesIn (s : State) (t : Report) (l : Loc) (bs : List Byte) :
    WritesIn (inDev l bs.length) (inSpanOf l bs.length) s (writeLoc s t l bs) := by
  by_cases hb : bs = []
  · rw [hb]; exact .refl s
  · cases l with
    | dev a =>
      rw [writeLoc_dev hb]
      exact (writeDev_writesIn s t a bs).mono (fun x hx => ⟨a, rfl, hx⟩) (fun _ => False.elim)
    | span o =>
      rw [writeLoc_span hb]
      refine ⟨fun hs => ?_, fun _ _ _ => rfl, fun hs x hx => ?_, rfl⟩
      · obtain ⟨h1, h2, h3⟩ := homesWf_iff.mp hs
        exact homesWf_iff.mpr ⟨h1, memWrite_wf _ _ h2, h3⟩
      · refine memGet_memWrite_other _ _ _ (homesWf_iff.mp hs).2.1 ?_
        by_contra hc
        exact hx ⟨o, rfl, by omega, by omega⟩
    | fab c e a =>
      rw [writeLoc, if_neg (by simpa using hb)]
      exact StoresEq.writesIn ⟨rfl, rfl, rfl⟩ rfl

theorem writeLoc_lineVer (s : State) (t : Report) (l : Loc) (bs : List Byte) : (writeLoc s t l bs).lineVer = s.lineVer := by
  by_cases hb : bs = []
  · rw [hb, writeLoc_nil]
  · cases l with
    | dev a => rw [writeLoc_dev hb, writeDev_lineVer]
    | span o => rw [writeLoc_span hb]; rfl
    | fab c e a => rw [writeLoc, if_neg (by simpa using hb)]; rfl

/-! ## Versioned writes (R140) -/

/-- Whether one write of a versioned write covers an address. -/
def VerW.covers (w : VerW) (a : Nat) : Prop :=
  match w.code with
  | none => w.addr ≤ a ∧ a < w.addr + w.data.length
  | some _ => w.addr = a

/-- A write that does not cover an address changes nothing there. -/
theorem byteStep_of_not_covers {old : Byte} {a : Nat} {w : VerW} (acc : Option ByteW) (h : ¬ w.covers a) :
    byteStep old a acc w = acc := by
  unfold VerW.covers at h
  unfold byteStep
  split at h
  next hc => simp only [hc]; exact if_neg (by simpa using h)
  next hc => simp only [hc]; exact if_pos (by simpa using h)

theorem foldl_byteStep_of_not_covers {old : Byte} {a : Nat} {ws : List VerW} (acc : Option ByteW)
    (h : ∀ w ∈ ws, ¬ w.covers a) : ws.foldl (byteStep old a) acc = acc := by
  induction ws generalizing acc with
  | nil => rfl
  | cons w ws ih =>
    rw [List.foldl_cons, byteStep_of_not_covers acc (h w List.mem_cons_self)]
    exact ih acc fun x hx => h x (List.mem_cons_of_mem _ hx)

/-- A granule takes bytes only at addresses that the write covers. -/
theorem covers_of_mem_granuleBytes {s : State} {ws : List VerW} {g : Nat} {x : Nat × Byte × Bool}
    (h : x ∈ granuleBytes s ws g) : ∃ w ∈ ws, w.covers x.1 := by
  obtain ⟨i, -, hx⟩ := List.mem_filterMap.mp h
  by_contra hc
  push Not at hc
  obtain ⟨y, hy, rfl⟩ := Option.map_eq_some_iff.mp hx
  rw [foldl_byteStep_of_not_covers _ hc] at hy
  cases hy

theorem foldl_memSet_wf {α : Type} (a : α → Nat) (v : α → Byte) (l : List α) {m : Mem} (h : Memory.wf m = true) :
    Memory.wf (l.foldl (fun m x => memSet m (a x) (v x)) m) = true := by
  induction l generalizing m with
  | nil => exact h
  | cons x l ih => exact ih (memSet_wf _ _ h)

theorem memGet_foldl_memSet_other {α : Type} (a : α → Nat) (v : α → Byte) {l : List α} {m : Mem} (h : Memory.wf m = true)
    {b : Nat} (hb : ∀ x ∈ l, a x ≠ b) : memGet (l.foldl (fun m x => memSet m (a x) (v x)) m) b = memGet m b := by
  induction l generalizing m with
  | nil => rfl
  | cons x l ih =>
    rw [List.foldl_cons, ih (memSet_wf _ _ h) fun y hy => hb y (List.mem_cons_of_mem _ hy), memGet_memSet _ _ _ h,
      if_neg (hb x List.mem_cons_self).symm]

theorem writeCover_writesIn (t : Report) (ws : List VerW) (line : Nat × Nat) (s : State) (g : Nat) :
    WritesIn (fun a => ∃ w ∈ ws, w.covers a) (fun _ => False) s (writeCover t ws line s g) := by
  unfold writeCover
  dsimp only
  split
  · exact .refl s
  · split
    · exact StoresEq.writesIn ⟨rfl, rfl, rfl⟩ rfl
    · refine .of_mem (fun h => foldl_memSet_wf _ _ _ h) (fun h a ha => memGet_foldl_memSet_other _ _ h fun x hx => ?_) rfl rfl rfl
      rintro rfl
      exact ha (covers_of_mem_granuleBytes hx)

theorem writeLine_writesIn (t : Report) (ws : List VerW) (s : State) (line : Nat × Nat) :
    WritesIn (fun a => ∃ w ∈ ws, w.covers a) (fun _ => False) s (writeLine t ws s line) :=
  WritesIn.foldl (fun i _ u => writeCover_writesIn t ws line u (4 * line.1 + i)) s

theorem checkLine_writesIn {D S : Nat → Prop} (t : Report) (n : BitVec 8) (acc : State × List Nat) (line : Nat × Nat) :
    WritesIn D S acc.1 (checkLine t n acc line).1 := by
  unfold checkLine
  split
  · refine ⟨fun hs => ?_, fun _ _ _ => rfl, fun _ _ _ => rfl, rfl⟩
    obtain ⟨h1, h2, h3⟩ := homesWf_iff.mp hs
    exact homesWf_iff.mpr ⟨h1, h2, memSet_wf _ _ h3⟩
  · exact StoresEq.writesIn ⟨rfl, rfl, rfl⟩ rfl

theorem foldl_checkLine_writesIn {D S : Nat → Prop} (t : Report) (n : BitVec 8) (ls : List (Nat × Nat))
    (acc : State × List Nat) : WritesIn D S acc.1 (ls.foldl (checkLine t n) acc).1 := by
  induction ls generalizing acc with
  | nil => exact .refl _
  | cons l ls ih => exact (checkLine_writesIn t n acc l).trans (ih _)

theorem writeVersioned_writesIn (s : State) (t : Report) (n : BitVec 8) (ws : List VerW) :
    WritesIn (fun a => ∃ w ∈ ws, w.covers a) (fun _ => False) s (writeVersioned s t n ws) :=
  (foldl_checkLine_writesIn t n _ (s, [])).trans (WritesIn.foldl (fun l _ u => writeLine_writesIn t ws u l) _)

/-! ## The lanes of a store (R131, R138, R139) -/

theorem mem_spreadAccs {uni : Bool} {m : LaneMask} {accs : List LaneAcc} {x : LaneAcc} (h : x ∈ spreadAccs uni m accs) :
    ∃ a ∈ accs, x.loc = a.loc ∧ x.els = a.els := by
  unfold spreadAccs at h
  split at h
  · obtain ⟨a, ha, hx⟩ := List.mem_flatMap.mp h
    obtain ⟨l, -, rfl⟩ := List.mem_map.mp hx
    exact ⟨a, ha, rfl, rfl⟩
  · exact ⟨x, h, rfl, rfl⟩

theorem storeBytes_length_le (size : Size) (vals : List VVal) (l : Nat) : (storeBytes size vals l).length ≤ size.bytes := by
  rw [storeBytes, List.length_take]
  exact Nat.min_le_left _ _

/-- A code that a lane writes is of one of its elements. -/
theorem el_of_mem_laneCodes {vals : List VVal} {a : LaneAcc} {x : LaneCode × Flags} (h : x ∈ laneCodes vals a) :
    x.1.el ∈ a.els := by
  obtain ⟨p, hp, rfl⟩ := List.mem_map.mp h
  exact (List.of_mem_zip (List.fst_mem_of_mem_zipIdx hp)).1

/-- A code written to a place writes its one byte. -/
theorem mergeElem_writesIn (s : State) (t : Report) (e : Elem) (code : Nat) (mig : Bool) :
    WritesIn (fun a => e.loc = .dev a) (fun a => e.loc = .span a) s (mergeElem s t e code mig) := by
  have byte {l : Loc} {b : Byte} (h : e.loc = l) :
      WritesIn (fun a => e.loc = .dev a) (fun a => e.loc = .span a) s (writeLoc s t l [b]) := by
    refine (writeLoc_writesIn s t l [b]).mono ?_ ?_ <;>
    · rintro x ⟨p, rfl, h1, h2⟩
      rw [List.length_singleton] at h2
      rw [h, show p = x by omega]
  unfold mergeElem
  split
  · rw [holdAcc_frame]
    exact StoresEq.writesIn ⟨rfl, rfl, rfl⟩ rfl
  · split
    · exact StoresEq.writesIn ⟨rfl, rfl, rfl⟩ rfl
    · exact byte rfl

theorem mergeElem_lineVer (s : State) (t : Report) (e : Elem) (code : Nat) (mig : Bool) :
    (mergeElem s t e code mig).lineVer = s.lineVer := by
  unfold mergeElem
  split
  · rw [holdAcc_frame]
  · split
    · rfl
    · exact writeLoc_lineVer ..

/-- Reporting codes without a value logs and reports, and writes nothing. -/
theorem reportCodes_storesEq (t : Report) (c : Nat) (cs : List LaneCode) (s : State) :
    StoresEq s (cs.foldl (fun u x => report (x.el.bad.foldl (fun u l => logPoison u l c) u) (t.at x.ea) 0) s) := by
  refine StoresEq.foldl (fun u x => ?_) cs s
  have hlog : StoresEq u (x.el.bad.foldl (fun u l => logPoison u l c) u) :=
    StoresEq.foldl (fun v l => by rw [logPoison_frame]; exact ⟨rfl, rfl, rfl⟩) _ u
  exact hlog.trans ⟨rfl, rfl, rfl⟩

theorem foldl_blocks {α : Type} {f : State → α → State} (h : ∀ s x, (f s x).blocks = s.blocks) (l : List α) (s : State) :
    (l.foldl f s).blocks = s.blocks := by
  induction l generalizing s with
  | nil => rfl
  | cons x l ih => rw [List.foldl_cons, ih, h]

theorem reportCodes_blocks (t : Report) (c : Nat) (cs : List LaneCode) (s : State) :
    (cs.foldl (fun u x => report (x.el.bad.foldl (fun u l => logPoison u l c) u) (t.at x.ea) 0) s).blocks = s.blocks := by
  refine foldl_blocks (fun u x => ?_) cs s
  exact foldl_blocks (fun v l => by rw [logPoison_frame]) x.el.bad u

/-- Codes written without a version write at their elements' bytes. -/
theorem mergeCodes_none_writesIn (s : State) (t : Report) (cs : List LaneCode) :
    WritesIn (fun a => ∃ c ∈ cs, c.el.loc = .dev a) (fun a => ∃ c ∈ cs, c.el.loc = .span a) s (mergeCodes s t none cs) := by
  refine ((reportCodes_storesEq t _ _ s).writesIn (reportCodes_blocks ..)).trans (WritesIn.foldl (fun c hc u => ?_) _)
  have hc := (List.mem_filter.mp hc).1
  exact (mergeElem_writesIn u (t.at c.ea) c.el c.code c.mig).mono (fun a ha => ⟨c, hc, ha⟩) (fun a ha => ⟨c, hc, ha⟩)

theorem mergeCodes_none_lineVer (s : State) (t : Report) (cs : List LaneCode) :
    (mergeCodes s t none cs).lineVer = s.lineVer := by
  have h (l : List LaneCode) (u : State) :
      (l.foldl (fun u c => mergeElem u (t.at c.ea) c.el c.code c.mig) u).lineVer = u.lineVer := by
    induction l generalizing u with
    | nil => rfl
    | cons c l ih => rw [List.foldl_cons, ih, mergeElem_lineVer]
  exact (h _ _).trans (reportCodes_storesEq ..).lineVer

/-- Codes written under a version write at their elements' bytes, all of device memory. -/
theorem mergeCodes_some_writesIn (s : State) (t : Report) (n : BitVec 8) {cs : List LaneCode}
    (hdev : ∀ c ∈ cs, ∃ p, c.el.loc = .dev p) :
    WritesIn (fun a => ∃ c ∈ cs, c.el.loc = .dev a) (fun _ => False) s (mergeCodes s t (some n) cs) := by
  refine ((reportCodes_storesEq t _ _ s).writesIn (reportCodes_blocks ..)).trans
    ((writeVersioned_writesIn _ t n _).mono ?_ fun _ => False.elim)
  rintro a ⟨w, hw, ha⟩
  obtain ⟨c, hc, rfl⟩ := List.mem_map.mp hw
  have hc := (List.mem_filter.mp hc).1
  obtain ⟨p, hp⟩ := hdev c hc
  have : devAddr c.el.loc = a := ha
  exact ⟨c, hc, by rw [← this, hp, devAddr]⟩

/-- A store without a version writes at the places of its lanes. -/
theorem storeLanes_none_writesIn (s : State) (t : Report) (ws : List (LaneAcc × List Byte)) :
    WritesIn (fun a => ∃ w ∈ ws, inDev w.1.loc w.2.length a) (fun a => ∃ w ∈ ws, inSpanOf w.1.loc w.2.length a) s
      (storeLanes s t none ws) := by
  refine WritesIn.foldl (fun w hw u => ?_) s
  split
  · rw [holdAcc_frame]
    exact StoresEq.writesIn ⟨rfl, rfl, rfl⟩ rfl
  · exact (writeLoc_writesIn u (t.at w.1.ea) w.1.loc w.2).mono (fun a ha => ⟨w, hw, ha⟩) (fun a ha => ⟨w, hw, ha⟩)

theorem storeLanes_none_lineVer (s : State) (t : Report) (ws : List (LaneAcc × List Byte)) :
    (storeLanes s t none ws).lineVer = s.lineVer := by
  unfold storeLanes
  induction ws generalizing s with
  | nil => rfl
  | cons w ws ih =>
    rw [List.foldl_cons]
    refine (ih _).trans ?_
    split
    · rw [holdAcc_frame]
    · exact writeLoc_lineVer ..

theorem storeLanes_some_writesIn (s : State) (t : Report) (n : BitVec 8) {ws : List (LaneAcc × List Byte)}
    (hdev : ∀ w ∈ ws, ∃ p, w.1.loc = .dev p) :
    WritesIn (fun a => ∃ w ∈ ws, inDev w.1.loc w.2.length a) (fun _ => False) s (storeLanes s t (some n) ws) := by
  refine (writeVersioned_writesIn s t n _).mono ?_ fun _ => id
  rintro a ⟨v, hv, hc⟩
  obtain ⟨w, hw, rfl⟩ := List.mem_map.mp hv
  obtain ⟨h1, h2⟩ := hc
  obtain ⟨p, hp⟩ := hdev w hw
  simp only [hp, devAddr] at h1 h2
  exact ⟨w, hw, p, hp, h1, h2⟩

/-! ## A versioned write reaches device memory only (R140, R241) -/

theorem elemsOf_loc {s : State} {who : Option (Fin 256)} {ctx : Fin 64} {k : AKind} {p : Page} {e : FEnt} {n va : Nat}
    {els : List Elem} (h : elemsOf s who ctx k p e n va = .ok els) : ∀ x ∈ els, ∃ off, x.loc = placeOf ctx p off := by
  induction n generalizing va els with
  | zero => cases h; simp
  | succ n ih =>
    rw [elemsOf] at h
    split at h
    · cases h
    next a ha =>
      cases hr : elemsOf s who ctx k p e n (va + 1) with
      | error x => rw [hr] at h; cases h
      | ok r =>
        rw [hr] at h
        cases h
        intro x hx
        rcases List.mem_cons.mp hx with rfl | hx
        · unfold elemOf at ha
          split at ha
          · cases ha; exact ⟨_, rfl⟩
          · cases ha
          · cases ha
        · exact ih hr x hx

theorem checkFormat_loc {s : State} {who : Option (Fin 256)} {ctx : Fin 64} {f : AccForm} {size : Size} {p : Page} {ea : Nat}
    {a : LaneAcc} (h : checkFormat s who ctx f size p ea = .ok a) :
    (∃ off, a.loc = placeOf ctx p off) ∧ ∀ x ∈ a.els, ∃ off, x.loc = placeOf ctx p off := by
  unfold checkFormat at h
  split at h
  · cases h
  · dsimp only at h
    split at h
    · split at h
      · cases h
      · split at h
        · cases h
        next els hels =>
          split at h
          · cases h
          · cases h
            exact ⟨⟨_, rfl⟩, elemsOf_loc hels⟩
    · split at h
      · split at h
        · cases h
        · split at h
          · cases h
          · split at h
            · cases h
            · cases h
              exact ⟨⟨_, rfl⟩, by simp⟩
      · cases h

/-- An access lies in device memory, and so do its elements. -/
def LaneAcc.onDevice (a : LaneAcc) : Prop := (∃ p, a.loc = .dev p) ∧ ∀ x ∈ a.els, ∃ p, x.loc = .dev p

theorem placeOf_local {ctx : Fin 64} {p : Page} (h : p.tier = false) (off : Nat) : placeOf ctx p off = .dev (p.base + off) := by
  rw [placeOf, h]
  rfl

theorem checkAcc_versioned {s : State} {who : Option (Fin 256)} {ctx : Fin 64} {f : AccForm} {size : Size} {ea : Int}
    {c : Checked} (h : checkAcc s who ctx f true size ea = .ok c) : c.acc.onDevice := by
  unfold checkAcc at h
  split at h
  · cases h
  · dsimp only at h
    split at h
    · rw [if_pos (by simp)] at h
      cases h
    · split at h
      · cases h
      next p hp =>
        have ht : p.tier = false := by
          cases ht : p.tier with
          | false => rfl
          | true =>
            rw [ht, if_pos (by simp)] at h
            cases h
        rw [ht, if_neg (by simp)] at h
        split at h
        · cases hf : checkFormat s who ctx f size p ea.toNat with
          | error x => rw [hf] at h; cases h
          | ok a =>
            rw [hf] at h
            cases h
            obtain ⟨⟨off, ho⟩, hels⟩ := checkFormat_loc hf
            refine ⟨⟨_, ho.trans (placeOf_local ht off)⟩, fun x hx => ?_⟩
            obtain ⟨o, hxo⟩ := hels x hx
            exact ⟨_, hxo.trans (placeOf_local ht o)⟩
        · split at h
          · cases h
          · split at h
            · cases h
            · cases h
              exact ⟨⟨_, placeOf_local ht 0⟩, by simp⟩

theorem checkLanes_versioned {s : State} {who : Fin 256} {ctx : Fin 64} {f : AccForm} {size : Size} {eas : List (Nat × Int)}
    {cs : List Checked} (h : checkLanes s who ctx f true size eas = .ok cs) : ∀ c ∈ cs, c.acc.onDevice := by
  induction eas generalizing cs with
  | nil => cases h; simp
  | cons e eas ih =>
    rw [checkLanes_cons] at h
    split at h
    · cases h
    next c hc =>
      split at h
      · cases h
      next r hr =>
        cases h
        intro x hx
        rcases List.mem_cons.mp hx with rfl | hx
        · obtain ⟨hloc, hels⟩ := checkAcc_versioned hc
          exact ⟨hloc, hels⟩
        · exact ih hr x hx

theorem onDevice_of_reaches {s : State} {k : GCtx} {m : LaneMask} {f : AccForm} {size : Size} {addr : Fin 128} {off : BitVec 18}
    {uni : Bool} {accs : List LaneAcc} (h : Reaches s k m f true size addr off uni accs) : ∀ a ∈ accs, a.onDevice := by
  obtain ⟨eas, cs, -, hcs, -, rfl⟩ := h.passed
  intro a ha
  obtain ⟨c, hc, rfl⟩ := List.mem_map.mp ha
  exact checkLanes_versioned hcs c hc

/-! ## ST and QST -/

/-- What ST writes, with or without a version. -/
theorem storeLanes_writesIn {s : State} (t : Report) {ver : Option (BitVec 8)} {size : Size} (vals : List VVal) (uni : Bool)
    (m : LaneMask) {accs : List LaneAcc} (hdev : ver.isSome = true → ∀ a ∈ accs, a.onDevice) :
    WritesIn (storedDev accs size.bytes) (storedSpan accs size.bytes) s
      (storeLanes s t ver ((spreadAccs uni m accs).map fun a => (a, storeBytes size vals a.lane))) := by
  have dev (a : Nat) : (∃ w ∈ (spreadAccs uni m accs).map fun a => (a, storeBytes size vals a.lane),
      inDev w.1.loc w.2.length a) → storedDev accs size.bytes a := by
    rintro ⟨w, hw, p, hp, h1, h2⟩
    obtain ⟨x, hx, rfl⟩ := List.mem_map.mp hw
    obtain ⟨y, hy, hl, -⟩ := mem_spreadAccs hx
    exact ⟨y, hy, p, hl ▸ hp, h1, h2.trans_le (Nat.add_le_add_left (storeBytes_length_le ..) p)⟩
  have span (a : Nat) : (∃ w ∈ (spreadAccs uni m accs).map fun a => (a, storeBytes size vals a.lane),
      inSpanOf w.1.loc w.2.length a) → storedSpan accs size.bytes a := by
    rintro ⟨w, hw, p, hp, h1, h2⟩
    obtain ⟨x, hx, rfl⟩ := List.mem_map.mp hw
    obtain ⟨y, hy, hl, -⟩ := mem_spreadAccs hx
    exact ⟨y, hy, p, hl ▸ hp, h1, h2.trans_le (Nat.add_le_add_left (storeBytes_length_le ..) p)⟩
  cases ver with
  | none => exact (storeLanes_none_writesIn s t _).mono dev span
  | some n =>
    refine (storeLanes_some_writesIn s t n fun w hw => ?_).mono dev fun _ => False.elim
    obtain ⟨x, hx, rfl⟩ := List.mem_map.mp hw
    obtain ⟨y, hy, hl, -⟩ := mem_spreadAccs hx
    obtain ⟨⟨p, hp⟩, -⟩ := hdev rfl y hy
    exact ⟨p, hl.trans hp⟩

/-- What QST writes, with or without a version. -/
theorem mergeCodes_writesIn {s : State} (t : Report) {ver : Option (BitVec 8)} (vals : List VVal) (uni : Bool) (m : LaneMask)
    {accs : List LaneAcc} (hdev : ver.isSome = true → ∀ a ∈ accs, a.onDevice) :
    WritesIn (fun a => ∃ x ∈ accs, ∃ e ∈ x.els, e.loc = .dev a) (fun a => ∃ x ∈ accs, ∃ e ∈ x.els, e.loc = .span a) s
      (mergeCodes s t ver (((spreadAccs uni m accs).flatMap (laneCodes vals)).map (·.1))) := by
  have els {c : LaneCode} (hc : c ∈ ((spreadAccs uni m accs).flatMap (laneCodes vals)).map (·.1)) :
      ∃ x ∈ accs, c.el ∈ x.els := by
    obtain ⟨y, hy, rfl⟩ := List.mem_map.mp hc
    obtain ⟨x, hx, hyx⟩ := List.mem_flatMap.mp hy
    obtain ⟨z, hz, -, he⟩ := mem_spreadAccs hx
    exact ⟨z, hz, he ▸ el_of_mem_laneCodes hyx⟩
  cases ver with
  | none =>
    refine (mergeCodes_none_writesIn s t _).mono ?_ ?_ <;>
    · rintro a ⟨c, hc, ha⟩
      obtain ⟨x, hx, he⟩ := els hc
      exact ⟨x, hx, c.el, he, ha⟩
  | some n =>
    refine (mergeCodes_some_writesIn s t n fun c hc => ?_).mono ?_ fun _ => False.elim
    · obtain ⟨x, hx, he⟩ := els hc
      exact (hdev rfl x hx).2 _ he
    · rintro a ⟨c, hc, ha⟩
      obtain ⟨x, hx, he⟩ := els hc
      exact ⟨x, hx, c.el, he, ha⟩

theorem advance_blocks_congr {s t : State} {k : GCtx} (h : t.blocks = s.blocks) :
    (advance t k).blocks = (advance s k).blocks := by
  change List.modify _ _ _ = List.modify _ _ _
  rw [h]

theorem raiseFlags_storesEq (s : State) (b : Nat) (f : Flags) : StoresEq s (raiseFlags s b f) := by
  unfold raiseFlags
  split <;> exact ⟨rfl, rfl, rfl⟩

/-- Settles O20: a store writes inside its lanes' places, and a versioned one reaches device memory only. -/
theorem storesWriteOnlyTheirPlaces : Obligations.StoresWriteOnlyTheirPlaces := by
  intro s k c m addr data off ord scope ver size uni accs vals hi hs hv
  refine ⟨fun raw hr => ⟨_, ?_, rfl, fun a ha => ?_, fun a ha => ?_, ?_, ?_⟩, fun hr => ⟨_, ?_, rfl, fun a ha => ?_, fun a ha => ?_, ?_⟩⟩
  · refine (onLanes_issues hi).trans ?_
    obtain ⟨x, hx⟩ := laneEas_of_reaches hr
    simp only [hx, hv, bind, Except.bind, withAccs_reaches hr]
  all_goals
    have heq (f : AccForm) := reached_storesEq s k f size accs
    have hdev (h : ver.isSome = true) : ∀ a ∈ accs, a.onDevice := onDevice_of_reaches (h ▸ hr)
  · have hw := storeLanes_writesIn (s := reached s k (if raw then .stRaw else .st) size accs) (tagOf s s.cur) (size := size) vals uni m hdev
    exact (hw.mem ((heq _).homesWf hs) a ha).trans (by rw [(heq _).mem])
  · have hw := storeLanes_writesIn (s := reached s k (if raw then .stRaw else .st) size accs) (tagOf s s.cur) (size := size) vals uni m hdev
    exact (hw.span ((heq _).homesWf hs) a ha).trans (by rw [(heq _).span])
  · exact advance_blocks_congr (storeLanes_writesIn _ (size := size) vals uni m hdev).blocks
  · rintro rfl
    exact (storeLanes_none_lineVer ..).trans (heq _).lineVer
  · refine (onLanes_issues hi).trans ?_
    obtain ⟨x, hx⟩ := laneEas_of_reaches hr
    simp only [hx, hv, bind, Except.bind, withAccs_reaches hr]
  · rw [(raiseFlags_storesEq ..).mem]
    refine ((mergeCodes_writesIn (tagOf s s.cur) vals uni m hdev).mem ((heq .qst).homesWf hs) a ?_).trans (by rw [(heq _).mem])
    rintro ⟨x, hx, e, he, hl⟩
    exact ha x hx e he hl
  · rw [(raiseFlags_storesEq ..).span]
    refine ((mergeCodes_writesIn (tagOf s s.cur) vals uni m hdev).span ((heq .qst).homesWf hs) a ?_).trans (by rw [(heq _).span])
    rintro ⟨x, hx, e, he, hl⟩
    exact ha x hx e he hl
  · rintro rfl
    rw [(raiseFlags_storesEq ..).lineVer]
    exact (mergeCodes_none_lineVer ..).trans (heq _).lineVer

end Sys2Proof.Machine

/-! # Atomics and exact accumulation (R141 to R146, R385, R414, R431) -/

namespace Sys2Proof.Machine

open Sys2Proof Sys2Proof.Claims

/-! ## The new value (R141) -/

theorem sextN_toNat {w : Nat} (hw : 0 < w) (x : BitVec w) : sextN w x.toNat = x.toInt := by
  have h := x.isLt
  obtain ⟨k, rfl⟩ : ∃ k, w = k + 1 := ⟨w - 1, by omega⟩
  have hp : (2 : Nat) ^ (k + 1) = 2 * 2 ^ k := Nat.pow_succ'
  simp only [sextN, Nat.mod_eq_of_lt h, BitVec.toInt, Nat.add_sub_cancel]
  push_cast
  split <;> split <;> omega

theorem signedOf_signed (x : Word) : signedOf 32 false x.toNat = x.toInt := sextN_toNat (by decide) x

theorem signedOf_unsigned (x : Word) : signedOf 32 true x.toNat = (x.toNat : Int) := by
  rw [signedOf, if_pos rfl]
  exact_mod_cast Nat.mod_eq_of_lt x.isLt

/-- Settles O23: each operation, read on the low 32 bits. -/
theorem atomicOperations : Obligations.AtomicOperations := by
  intro o x y
  have ho : o.toNat % 2 ^ 32 = o.toNat := Nat.mod_eq_of_lt o.isLt
  have hx : x.toNat % 2 ^ 32 = x.toNat := Nat.mod_eq_of_lt x.isLt
  have hy : y.toNat % 2 ^ 32 = y.toNat := Nat.mod_eq_of_lt y.isLt
  refine ⟨fun u => ⟨?_, ?_, ?_, ?_, ?_, ?_⟩, ?_, ?_, ?_, ?_⟩ <;>
    simp only [atomNew, ho, hx, hy, signedOf_signed, signedOf_unsigned, ge_iff_le, apply_ite BitVec.toNat, BitVec.le_def,
      Nat.cast_le, BitVec.toNat_add, BitVec.toNat_and, BitVec.toNat_or, BitVec.toNat_xor, BitVec.toNat_inj]

/-! ## What a write of a place leaves alone -/

theorem writeDev_frame (s : State) (t : Report) (a : Nat) (bs : List Byte) : writeDev s t a bs =
    { s with mem := (writeDev s t a bs).mem, badGranules := (writeDev s t a bs).badGranules,
             reports := (writeDev s t a bs).reports, scrubs := (writeDev s t a bs).scrubs,
             wrote := (writeDev s t a bs).wrote } := by
  have h (gs : List Nat) (u : State) : gs.foldl (writeGranule t a bs) u =
      { u with mem := (gs.foldl (writeGranule t a bs) u).mem, badGranules := (gs.foldl (writeGranule t a bs) u).badGranules,
               reports := (gs.foldl (writeGranule t a bs) u).reports } := by
    induction gs generalizing u with
    | nil => rfl
    | cons g gs ih =>
      rw [List.foldl_cons, ih]
      rcases writeGranule_cases t a bs u g with h | h
      · rw [h]; rfl
      · rw [h]
  unfold writeDev
  rw [h]
  rfl

theorem writeLoc_frame (s : State) (t : Report) (l : Loc) (bs : List Byte) : writeLoc s t l bs =
    { s with mem := (writeLoc s t l bs).mem, span := (writeLoc s t l bs).span,
             badGranules := (writeLoc s t l bs).badGranules, badSpan := (writeLoc s t l bs).badSpan,
             reports := (writeLoc s t l bs).reports, scrubs := (writeLoc s t l bs).scrubs,
             wrote := (writeLoc s t l bs).wrote, fabOps := (writeLoc s t l bs).fabOps,
             nextId := (writeLoc s t l bs).nextId } := by
  by_cases hb : bs = []
  · rw [hb]; rfl
  · cases l with
    | dev a => rw [writeLoc_dev hb, writeDev_frame]
    | span o => rw [writeLoc_span hb]; rfl
    | fab c e a => rw [writeLoc, if_neg (by simpa using hb)]; rfl

/-! ## One atomic at its home (R141, R414, R431) -/

theorem memNat_memWrite_leBytes {m : Mem} (a n w : Nat) (h : Memory.wf m = true) :
    memNat (memWrite m a (leBytes n w)) a n = w % 2 ^ (8 * n) := by
  have hr := memRead_memWrite a (leBytes n w) h
  rw [leBytes_length] at hr
  rw [memNat, hr, leNat_leBytes, pow_mul]
  norm_num

theorem rmw_clean {s : State} (t : Report) {l : Loc} (op : AtomOp) (u : Bool) {size : Size} (b1 b2 : Word64) (ret : Bool)
    (h : poisonAt s l size.bytes = false) :
    rmw s t l op u size b1 b2 ret =
      (writeLoc s t l (leBytes size.bytes (atomNew op u (8 * size.bytes) (leNat (readLoc s l size.bytes)) b1.toNat b2.toNat)),
        some (BitVec.ofNat 64 (leNat (readLoc s l size.bytes)))) := by
  rw [rmw]
  simp only [h, Bool.false_eq_true, if_false]

theorem rmw_poisoned {s : State} (t : Report) {l : Loc} (op : AtomOp) (u : Bool) {size : Size} (b1 b2 : Word64) (ret : Bool)
    (h : poisonAt s l size.bytes = true) :
    rmw s t l op u size b1 b2 ret =
      (if ret then logPoison s l (tagCtx s t) else report (logPoison s l (tagCtx s t)) t 0, none) := by
  rw [rmw]
  simp only [h, if_true]

theorem atomicReadsModifiesWrites : AtomicReadsModifiesWrites := by
  intro s t a op u size b1 b2 hs
  obtain ⟨hmem, -, -⟩ := homesWf_iff.mp hs
  refine ⟨fun hp => ?_, fun hp => ?_⟩
  · have hclean : ∀ g ∈ unitsOf 32 a size.bytes, s.badGranules.contains g = false := fun g hg => by
      by_contra hc
      rw [poisonAt, List.any_eq_false] at hp
      exact hp g hg (by simpa using hc)
    have hw (n : Nat) : (writeLoc s t (.dev a) (leBytes size.bytes n)).mem = memWrite s.mem a (leBytes size.bytes n) :=
      writeLoc_dev_mem hmem (by rwa [leBytes_length])
    rw [rmw_clean _ _ _ _ _ _ hp]
    refine ⟨rfl, ?_, fun b hb => ?_⟩
    · rw [hw, memNat_memWrite_leBytes _ _ _ hmem]
      rfl
    · rw [hw]
      exact memGet_memWrite_other a b _ hmem (by rwa [leBytes_length])
  · refine ⟨fun ret => ?_, ?_, ?_⟩
    · rw [rmw_poisoned _ _ _ _ _ _ hp, logPoison_frame]
      cases ret <;> exact ⟨rfl, rfl⟩
    · rw [rmw_poisoned _ _ _ _ _ _ hp, logPoison_frame]
      rfl
    · rw [rmw_poisoned _ _ _ _ _ _ hp, logPoison_frame]
      exact ⟨_, rfl, rfl, rfl⟩

/-! ## ATOM (R141, R142, R385, R448) -/

/-- The lines that a pending result holds depend only on those it takes. -/
theorem linesHeld_pend_congr {w : Warp} {p q : Pend} (h : p.takes = q.takes) :
    linesHeld { w with pend := w.pend ++ [p] } = linesHeld { w with pend := w.pend ++ [q] } := by
  simp only [linesHeld, List.any_append, List.any_cons, List.any_nil, h]

theorem checkLines_ok {w : Warp} (m : LaneMask) (h : linesHeld w ≤ w.gmax) : checkLines w m = .ok () :=
  if_neg (Nat.not_lt.mpr h)

theorem checkLines_pend_ok {w : Warp} {p : Pend} (m : LaneMask) (h : linesHeld { w with pend := w.pend ++ [p] } ≤ w.gmax) :
    checkLines { w with pend := w.pend ++ [p] } m = .ok () := if_neg (Nat.not_lt.mpr h)

theorem checkLines_pend_error {w : Warp} {p : Pend} (m : LaneMask)
    (h : w.gmax < linesHeld { w with pend := w.pend ++ [p] }) :
    checkLines { w with pend := w.pend ++ [p] } m = .error (raise .regpool (some (lowLane m))) := if_pos h

theorem checkLines_error {w : Warp} (m : LaneMask) (h : w.gmax < linesHeld w) :
    checkLines w m = .error (raise .regpool (some (lowLane m))) := if_pos h

theorem addPend_ok {s : State} {k : GCtx} {p : Pend} (h : linesHeld { k.wp with pend := k.wp.pend ++ [p] } ≤ k.wp.gmax) :
    addPend s k p = .ok (withPend s k p) := (addPend_eq s k p).trans (if_pos h)

/-- The entry that a lane's buffered atomic adds (R142). -/
def bufEntry (k : GCtx) (op : AtomOp) (u : Bool) (ord : Order) (size : Size) (vals : List VVal) (a : LaneAcc) : BufAtom :=
  { warp := some k.w, lane := a.lane, ea := a.ea, loc := a.loc, op := op, u := u, size := size,
    b1 := (atomData size vals a.lane).1, b2 := (atomData size vals a.lane).2, pc := k.g.pc,
    acq := ord = .acq || ord = .ar, rel := ord = .rel || ord = .ar }

section Atom

variable {s : State} {k : GCtx} {c : Ctl} {m : LaneMask} {addr : Fin 128} {data : Src} {op : AtomOp} {u : Bool} {ord : Order}
  {scope : Scope} {size : Size} {uni : Bool} {accs : List LaneAcc} {vals : List VVal}

/-- What an ATOM without a destination comes to. -/
theorem execAtom_none (hi : Issues s k c m) (hv : dataVals k m (atomRegsOf op size) data = .ok vals)
    (hr : Reaches s k m .atom false size addr 0 uni accs) :
    execAtom c none addr data op u ord scope size s =
      .next (if (isDet s k.blk && narrow scope && (spreadAccs uni m accs).any (·.mig)) = true then
          holdGang s k ((((spreadAccs uni m accs).find? (·.mig)).map (·.ea)).getD 0)
        else if (isDet s k.blk && narrow scope) = true then
          advance (modBlock (reached s k .atom size accs) k.b fun x =>
            { x with buffer := x.buffer ++ (spreadAccs uni m accs).map (bufEntry k op u ord size vals) }) k
        else advance ((spreadAccs uni m accs).foldl
          (atomLane k 0 (tagOf s s.cur) op u false (ord = .acq || ord = .ar) size vals) (reached s k .atom size accs, [])).1 k) := by
  obtain ⟨x, hx⟩ := laneEas_of_reaches hr
  rw [execAtom, onDst_issues hi]
  simp only [hx, hv, bind, Except.bind, withAccs_reaches hr]
  split
  next t ht =>
    congr 1
    by_cases h1 : (isDet s k.blk && narrow scope && (spreadAccs uni m accs).any (·.mig)) = true
    · rw [if_pos h1] at ht ⊢
      cases ht
      rfl
    · rw [if_neg h1] at ht ⊢
      by_cases h2 : (isDet s k.blk && narrow scope) = true
      · rw [if_pos h2] at ht ⊢
        cases ht
        rfl
      · rw [if_neg h2] at ht ⊢
        cases ht
        rfl
  next e he =>
    split at he
    · cases he
    · split at he <;> cases he

/-- The lanes whose old value did not come, though no later answer brings it (R141). -/
def atomBad (m : LaneMask) (lanes : List LaneAcc) (olds : List (Nat × Word64)) : LaneMask :=
  m &&& ~~~(maskOf fun l => lanes.any fun a => a.lane = l && later a) &&& maskOf fun l => !olds.any fun o => o.1 = l

theorem not_mem_of_atomBad {lanes : List LaneAcc} {olds : List (Nat × Word64)} {l : Nat}
    (h : laneBit (atomBad m lanes olds) l = true) (o : Word64) : (l, o) ∉ olds := by
  intro hm
  rw [atomBad, laneBit_and, laneBit_maskOf] at h
  have hany : (olds.any fun x => decide (x.1 = l)) = true := List.any_eq_true.mpr ⟨(l, o), hm, by simp⟩
  rw [hany] at h
  simp at h

/-- What an ATOM with a destination comes to. -/
theorem execAtom_some {d : Dst} {idx : List (Nat × Fin 256)} {t : State} {p : Pend} (hi : Issues s k c m)
    (hv : dataVals k m (atomRegsOf op size) data = .ok vals) (hr : Reaches s k m .atom false size addr 0 uni accs)
    (hidx : dstIdx k d m = .ok idx) (ht : t = reached s k .atom size accs)
    (hp : p = atomPend k m d idx (spreadAccs uni m accs) size ord t.nextId) :
    let r := (spreadAccs uni m accs).foldl
      (atomLane k t.nextId (tagOf s s.cur) op u true (ord = .acq || ord = .ar) size vals) ({ t with nextId := t.nextId + 1 }, [])
    let v := withPend r.1 k { p with kind := .atomic r.2, failed := atomBad m (spreadAccs uni m accs) r.2 }
    execAtom c (some d) addr data op u ord scope size s =
      if linesHeld { k.wp with pend := k.wp.pend ++ [p] } ≤ k.wp.gmax then
        .next (if (isDet s k.blk && !narrow scope) = true then raiseFlags v k.b Flags.nondet else v)
      else .next (takeFault s s.cur (raise .regpool (some (lowLane m)))) := by
  intro r v
  obtain ⟨x, hx⟩ := laneEas_of_reaches hr
  rw [execAtom, onDst_issues hi]
  simp only [hx, hv, hidx, bind, Except.bind, withAccs_reaches hr]
  subst ht
  by_cases hl : linesHeld { k.wp with pend := k.wp.pend ++ [p] } ≤ k.wp.gmax
  · rw [if_pos hl]
    have hc := checkLines_pend_ok m hl
    rw [hp] at hc
    simp only [atomPend] at hc
    simp only [hc]
    have hl' := (linesHeld_pend_congr (w := k.wp) (p := { p with
      kind := .atomic r.2, failed := atomBad m (spreadAccs uni m accs) r.2 }) (q := p) rfl).le.trans hl
    have hq := addPend_ok (s := r.1) hl'
    rw [hp] at hq
    simp only [atomPend, r, atomBad] at hq
    simp only [hq]
    simp only [v, r, hp, atomBad]
    rfl
  · rw [if_neg hl]
    have hc := checkLines_pend_error m (Nat.not_le.mp hl)
    rw [hp] at hc
    simp only [atomPend] at hc
    simp only [hc]

end Atom

theorem atomicsPerformInLaneOrder : AtomicsPerformInLaneOrder := by
  intro s k c m addr data op u ord scope size uni accs lanes vals hi hv hr hlanes
  subst hlanes
  have hnone := execAtom_none (u := u) (ord := ord) (scope := scope) hi hv hr
  refine ⟨fun hd => ?_, fun hd hm => ⟨(spreadAccs uni m accs).map (bufEntry k op u ord size vals), ?_, ?_, ?_⟩, fun hd a ha => ?_, fun d idx t id p hidx ht hid hp => ?_⟩
  · refine hnone.trans ?_
    rw [hd, Bool.false_and, if_neg Bool.false_ne_true, if_neg Bool.false_ne_true]
  · refine hnone.trans ?_
    rw [hd, Bool.true_and, if_neg (by simpa using hm), if_pos rfl]
  · rw [List.map_map]
    rfl
  · intro e he
    obtain ⟨a, -, rfl⟩ := List.mem_map.mp he
    exact ⟨rfl, rfl, rfl, rfl, rfl, rfl, rfl⟩
  · refine hnone.trans ?_
    have hany : (spreadAccs uni m accs).any (·.mig) = true :=
      List.any_eq_true.mpr ⟨a, List.mem_of_find?_eq_some ha, List.find?_some ha⟩
    rw [hd, Bool.true_and, if_pos hany, ha]
    rfl
  · subst hid
    have hsome := execAtom_some (u := u) (scope := scope) hi hv hr hidx ht hp
    refine ⟨fun hl => hsome.trans (if_neg (Nat.not_le.mpr hl)), fun hl => ⟨_, _, rfl, ?_, _, rfl, hsome.trans (if_pos hl)⟩⟩
    intro l hb o
    exact not_mem_of_atomBad hb o

/-- Settles O25: the lanes' atomics one after the other, and what one of them does at its home. -/
theorem atomicsReadModifyWrite : Obligations.AtomicsReadModifyWrite := ⟨atomicsPerformInLaneOrder, atomicReadsModifiesWrites⟩

/-! ## Exact accumulation (R143 to R146) -/

theorem addToCell_comm (x y : Word) (c : ACell) : addToCell x (addToCell y c) = addToCell y (addToCell x c) := by
  unfold addToCell
  rcases unpackF .f32 x.toNat with nx | nx | ⟨nx, mx, ex⟩ <;> rcases unpackF .f32 y.toNat with ny | ny | ⟨ny, my, ey⟩
  · rfl
  · cases ny <;> rfl
  · rfl
  · cases nx <;> rfl
  · cases nx <;> cases ny <;> rfl
  · cases nx <;> rfl
  · rfl
  · cases ny <;> rfl
  · cases nx <;> cases ny <;> simp only [Bool.false_eq_true, if_false, if_true, ACell.mk.injEq, true_and, and_true] <;> omega

theorem addToCell_keeps (x : Word) (c : ACell) :
    (addToCell x c).loc = c.loc ∧ (addToCell x c).count = c.count ∧ (addToCell x c).poison = c.poison ∧
      (addToCell x c).nodes = c.nodes := by
  unfold addToCell
  split
  · exact ⟨rfl, rfl, rfl, rfl⟩
  · split <;> exact ⟨rfl, rfl, rfl, rfl⟩
  · exact ⟨rfl, rfl, rfl, rfl⟩

/-- Sum and marks after a contribution depend on the value, sum and marks alone. -/
theorem addToCell_congr {x : Word} {c d : ACell} (hs : d.sum = c.sum) (hn : d.nan = c.nan) (hp : d.pinf = c.pinf)
    (hm : d.ninf = c.ninf) :
    (addToCell x d).sum = (addToCell x c).sum ∧ (addToCell x d).nan = (addToCell x c).nan ∧
      (addToCell x d).pinf = (addToCell x c).pinf ∧ (addToCell x d).ninf = (addToCell x c).ninf := by
  unfold addToCell
  split
  · exact ⟨hs, rfl, hp, hm⟩
  · split
    · exact ⟨hs, hn, hp, rfl⟩
    · exact ⟨hs, hn, rfl, hm⟩
  · exact ⟨by dsimp only; rw [hs], hn, hp, hm⟩

theorem raiseFlags_cells (s : State) (b : Nat) (f : Flags) : (raiseFlags s b f).cells = s.cells := by
  unfold raiseFlags
  split <;> rfl

theorem exactAccumulationHasNoOrder : ExactAccumulationHasNoOrder := by
  refine ⟨fun s k c m addr data off uni accs v hi hv hr => ?_, addToCell_comm, fun s t b ctx l x c hc hl hp => ?_⟩
  · refine (onLanes_issues hi).trans ?_
    obtain ⟨e, he⟩ := laneEas_of_reaches hr
    simp only [he, hv, bind, Except.bind, withAccs_reaches hr]
  · have hfound : (s.cells.any fun c => decide (c.loc = l)) = true := by simp [hc, hl]
    unfold contribute
    simp only [hfound, if_true]
    rw [raiseFlags_cells]
    simp only [hc, List.map_cons, List.map_nil, if_pos hl]
    rw [if_neg (by rw [hp]; exact Bool.false_ne_true)]
    obtain ⟨h1, h2, h3, h4⟩ := addToCell_congr (x := x) (c := c)
      (d := { c with count := c.count + 1, nodes := if c.nodes.contains t.node then c.nodes else t.node :: c.nodes })
      rfl rfl rfl rfl
    obtain ⟨-, hcount, hpoison, -⟩ := addToCell_keeps x
      { c with count := c.count + 1, nodes := if c.nodes.contains t.node then c.nodes else t.node :: c.nodes }
    refine ⟨_, rfl, ?_, hcount, h1, h2, h3, h4, hpoison.trans hp⟩
    exact StoresEq.sameStores ⟨(raiseFlags_storesEq ..).mem, (raiseFlags_storesEq ..).span, (raiseFlags_storesEq ..).lineVer⟩

theorem cellWord_nan {c : ACell} (h : c.nan = true ∨ (c.pinf = true ∧ c.ninf = true)) :
    cellWord c = (0x7FC00000, Flags.invalid) := by
  rw [cellWord, if_pos]
  rcases h with h | ⟨h1, h2⟩
  · simp [h]
  · simp [h1, h2]

/-- The word of a cell without a NaN, whose count is in range and which has not met both infinities. -/
theorem cellWord_number {c : ACell} (hn : c.nan = false) (hc : c.count ≤ 2 ^ 32) (hi : (c.pinf && c.ninf) = false) :
    cellWord c = if c.pinf then (0x7F800000, 0) else if c.ninf then (0xFF800000, 0)
      else (BitVec.ofNat 32 (roundDy .f32 .rn false { m := c.sum, e := -149 }).1,
        (roundDy .f32 .rn false { m := c.sum, e := -149 }).2) := by
  rw [cellWord, if_neg (by rw [hn, hi]; simpa using hc)]

theorem closeCell_cells (node : Nat) (p : Option Party) (s : State) (c : ACell) :
    (closeCell node p s c).cells = s.cells.filter fun x => x.loc != c.loc := by
  unfold closeCell
  dsimp only
  split
  · rfl
  · rw [modNode_cells, writeLoc_frame]

theorem closeCell_span {node : Nat} {p : Option Party} {s : State} {c : ACell} {o : Nat} (hl : c.loc = .span o)
    (hp : c.poison = false) (hb : poisonAt s c.loc 4 = false) :
    (closeCell node p s c).span = memWrite s.span o (leBytes 4 (cellWord c).1.toNat) := by
  rw [closeCell, if_neg (by simp [hp, hb]), hl]
  rw [modNode_span, writeLoc_span_span]

theorem cellCloses : CellCloses := by
  intro s l c hc
  have hloc : c.loc = l := by simpa using List.find?_some hc
  have hexec : exec (.cellClose l) s =
      .next (if c.nodes.any (nodeRuns s) || locHeld s c.loc then s else closeCell (lastEnded s c.nodes) none s c) := by
    change execCellClose l s = _
    simp only [execCellClose, hc]
  refine ⟨?_, fun h => ?_, fun hn hh => ⟨?_, fun x hx => ?_, fun o ho hp hb => ?_⟩, cellWord_nan, fun hn hk hp hm => ?_,
    fun hn hk hp hm => ?_, fun hn hk hp hm => ?_⟩
  · rintro ⟨n, hn, hr⟩
    rw [hexec, List.any_eq_true.mpr ⟨n, hn, hr⟩]
    rfl
  · rw [hexec, h, Bool.or_true]
    rfl
  · have hany : c.nodes.any (nodeRuns s) = false := List.any_eq_false.mpr fun n h => by simp [hn n h]
    rw [hexec, hany, hh]
    rfl
  · rw [closeCell_cells] at hx
    have := (List.mem_filter.mp hx).2
    rwa [hloc, bne_iff_ne] at this
  · exact closeCell_span (hloc.trans ho) hp (hloc ▸ hb)
  · rw [cellWord_number hn hk (by rw [hm, Bool.and_false]), hp]
    rfl
  · rw [cellWord_number hn hk (by rw [hp, Bool.false_and]), hp, hm]
    rfl
  · rw [cellWord_number hn hk (by rw [hm, Bool.and_false]), hp, hm]
    rfl

/-- Settles O26: contributions to an open cell commute, and a closing cell writes its rounded sum or its mark. -/
theorem exactAccumulation : Obligations.ExactAccumulation := ⟨exactAccumulationHasNoOrder, cellCloses⟩

end Sys2Proof.Machine

/-! # Waits on words of memory (R49, R51, R148, R368) -/

namespace Sys2Proof.Machine

open Sys2Proof Sys2Proof.Claims

/-! ## The gang of a party after its warp changes -/

theorem gangOf_congr {s t : State} (h : t.blocks = s.blocks) (p : Party) : gangOf t p = gangOf s p := by
  unfold gangOf
  rw [h]

/-- What it means that a party names a gang. -/
theorem gangOf_eq_some {s : State} {p : Party} {k : GCtx} (h : gangOf s p = some k) :
    p = .gang k.b k.w k.g.gid ∧ s.blocks[k.b]? = some k.blk ∧ k.blk.warps[k.w]? = some k.wp ∧
      k.wp.gangs.find? (·.gid = k.g.gid) = some k.g := by
  unfold gangOf at h
  split at h
  next b w g =>
    split at h
    · cases h
    next blk hblk =>
      split at h
      · cases h
      next wp hwp =>
        split at h
        · cases h
        next gg hg =>
          cases h
          have hid : gg.gid = g := by simpa using List.find?_some hg
          subst hid
          exact ⟨rfl, hblk, hwp, hg⟩
  · cases h

/-- The party's gang once its warp has become another. -/
theorem gangOf_modWarp {s : State} {p : Party} {k : GCtx} (h : gangOf s p = some k) (f : Warp → Warp) :
    gangOf (modWarp s k.b k.w f) p = ((f k.wp).gangs.find? (·.gid = k.g.gid)).map fun g =>
      { k with blk := { k.blk with warps := k.blk.warps.modify k.w f }, wp := f k.wp, g := g } := by
  obtain ⟨hp, hblk, hwp, -⟩ := gangOf_eq_some h
  rw [hp]
  have h1 : (modWarp s k.b k.w f).blocks[k.b]? = some { k.blk with warps := k.blk.warps.modify k.w f } := by
    rw [modWarp, modBlock_get, if_pos rfl, hblk, Option.map_some]
  have h2 : (k.blk.warps.modify k.w f)[k.w]? = some (f k.wp) := by
    simp [hwp]
  simp only [gangOf, h1, h2]
  cases (f k.wp).gangs.find? (·.gid = k.g.gid) <;> rfl

/-- Gangs keep their numbers and their order under a change of each. -/
theorem find?_map_gang {gs : List Gang} {f : Gang → Gang} (hf : ∀ g, (f g).gid = g.gid) (i : Nat) :
    (gs.map f).find? (·.gid = i) = (gs.find? (·.gid = i)).map f := by
  rw [List.find?_map]
  simp only [Function.comp_def, hf]

theorem find?_modGangs {wp : Warp} {i : Nat} {f : Gang → Gang} (hf : ∀ g, (f g).gid = g.gid) :
    (modGangs wp i f).gangs.find? (·.gid = i) = (wp.gangs.find? (·.gid = i)).map f := by
  rw [modGangs, find?_map_gang fun g => by split <;> simp [hf]]
  cases hg : wp.gangs.find? (·.gid = i) with
  | none => rfl
  | some g =>
    have : g.gid = i := by simpa using List.find?_some hg
    rw [Option.map_some, Option.map_some, if_pos this]

theorem fillSlot_gangs (n : Fin 3) (gs : List Gang) : ∃ f : Gang → Fin 3, fillSlot n gs = gs.map fun g => { g with slot := f g } := by
  unfold fillSlot
  split
  · exact ⟨fun g => g.slot, (List.map_id gs).symm⟩
  · split
    · exact ⟨fun g => g.slot, (List.map_id gs).symm⟩
    next i _ =>
      refine ⟨fun g => if g.gid = i then n else g.slot, List.map_congr_left fun g _ => ?_⟩
      by_cases h : g.gid = i
      · simp only [h, if_true]
      · simp only [h, if_false]

/-- Slots passed on change nothing of a gang but its slot. -/
theorem settle_gangs (wp : Warp) : ∃ f : Gang → Fin 3, (settle wp).gangs = wp.gangs.map fun g => { g with slot := f g } := by
  obtain ⟨f1, h1⟩ := fillSlot_gangs 1 (wp.gangs.map fun g => if keepsSlot g.wait then g else { g with slot := 0 })
  obtain ⟨f2, h2⟩ := fillSlot_gangs 2 (fillSlot 1 (wp.gangs.map fun g => if keepsSlot g.wait then g else { g with slot := 0 }))
  let g0 (g : Gang) : Gang := if keepsSlot g.wait then g else { g with slot := 0 }
  refine ⟨fun g => f2 { g0 g with slot := f1 (g0 g) }, ?_⟩
  have hs : (settle wp).gangs = _ := h2
  rw [hs, h1, List.map_map, List.map_map]
  refine List.map_congr_left fun g _ => ?_
  simp only [Function.comp_apply, g0]
  split <;> rfl

theorem find?_settle (wp : Warp) (i : Nat) :
    ∃ f : Gang → Fin 3, (settle wp).gangs.find? (·.gid = i) = (wp.gangs.find? (·.gid = i)).map fun g => { g with slot := f g } := by
  obtain ⟨f, hf⟩ := settle_gangs wp
  exact ⟨f, by rw [hf]; exact find?_map_gang (f := fun g => { g with slot := f g }) (fun _ => rfl) i⟩

/-! ## A result that arrives -/

/-- A fold whose steps keep something keeps it. -/
theorem foldl_keeps {α β γ : Type} (proj : β → γ) {step : β → α → β} (h : ∀ b x, proj (step b x) = proj b) (l : List α)
    (b : β) : proj (l.foldl step b) = proj b := by
  induction l generalizing b with
  | nil => rfl
  | cons x l ih => rw [List.foldl_cons, ih, h]

/-- Values that arrive change registers and slots only. -/
theorem landDst_gangs (wp : Warp) (d : Dst) (idx : List (Nat × Fin 256)) (vals : List VVal) (m bad : LaneMask) :
    (landDst wp d idx vals m bad).1.gangs = wp.gangs := by
  cases d with
  | v n vw => exact foldl_keeps (fun acc : Warp × Nat => acc.1.gangs) (fun _ _ => by rfl) vals (wp, n.val)
  | o n => rfl
  | vo n o vw => rfl
  | vx a vw => exact foldl_keeps Warp.gangs (fun _ _ => by rfl) _ wp
  | latch => rfl

/-- One value that arrives at a register. -/
theorem landDst_v (wp : Warp) (n : Fin 256) (vw : View) (idx : List (Nat × Fin 256)) (v : VVal) (m bad : LaneMask) :
    (landDst wp (.v n vw) idx [v] m bad).1 = setReg wp n (landReg (isFull wp m) wp.regs[n] v m bad) := by
  have hn : Fin.ofNat 256 n.val = n := Fin.ext (Nat.mod_eq_of_lt n.isLt)
  simp only [landDst, List.foldl_cons, List.foldl_nil, hn]

theorem laneVal_landReg {k : GCtx} {old : VReg} {v : VVal} {m bad : LaneMask} {l : Nat} (hl : l < 4 * k.wp.width.val)
    (hm : laneBit m l = true) : laneVal (landReg (isFull k.wp m) old v m bad).val l = laneVal v l := by
  obtain ⟨h, -⟩ := mergeReg_lanes k old v m l hl
  rw [hm, if_pos rfl] at h
  exact h

/-! ## WAITA (R148) -/

/-- The warp that a completed WAITA leaves (R148). -/
def watchWarp (k : GCtx) (d : Dst) (idx : List (Nat × Fin 256)) (m : LaneMask) (ls : List WaitLane) (size : Size)
    (uni : Bool) : Warp :=
  (landDst (modGangs k.wp k.g.gid fun g => { g with takes := [], reach := [] }) d idx (watchValues uni size ls).1 m
    (watchValues uni size ls).2).1

/-- The latch that it leaves: the first level's value, or the values merged into it. -/
def watchLatch (k : GCtx) (d : Dst) (idx : List (Nat × Fin 256)) (m : LaneMask) (ls : List WaitLane) (size : Size)
    (uni : Bool) : VReg :=
  let r := watchValues uni size ls
  match (landDst (modGangs k.wp k.g.gid fun g => { g with takes := [], reach := [] }) d idx r.1 m r.2).2 with
  | some x => { x with poison := x.poison &&& r.2 }
  | none => landReg (isFull k.wp m) k.g.latch (r.1.headD (.u 0)) m r.2

/-- A completed WAITA changes its own warp, and logs. -/
theorem finishWatch_effect (s : State) (k : GCtx) (d : Dst) (idx : List (Nat × Fin 256)) (m : LaneMask) (ls : List WaitLane)
    (size : Size) (uni : Bool) :
    StoresEq s (finishWatch s k d idx m ls size uni) ∧
    (finishWatch s k d idx m ls size uni).blocks = (modWarp s k.b k.w fun _ =>
      modGangs (watchWarp k d idx m ls size uni) k.g.gid fun g =>
        { g with latch := watchLatch k d idx m ls size uni, lat := [], pc := g.pc + 1 }).blocks := by
  have hlog (u : State) (w : WaitLane) : (if w.bad then logPoison u w.loc k.blk.ctx.val else u) =
      { u with errlog := (if w.bad then logPoison u w.loc k.blk.ctx.val else u).errlog,
               errCount := (if w.bad then logPoison u w.loc k.blk.ctx.val else u).errCount } := by
    split
    · exact logPoison_frame ..
    · rfl
  have hblocks (s0 : State) :
      (ls.foldl (fun t w => if w.bad then logPoison t w.loc k.blk.ctx.val else t) s0).blocks = s0.blocks :=
    foldl_blocks (fun u w => by rw [hlog]) ls s0
  have hstores (s0 : State) :
      StoresEq s0 (ls.foldl (fun t w => if w.bad then logPoison t w.loc k.blk.ctx.val else t) s0) :=
    StoresEq.foldl (fun u w => by rw [hlog]; exact ⟨rfl, rfl, rfl⟩) ls s0
  obtain ⟨hm, hs, hv⟩ := hstores
    (modWarp s k.b k.w fun _ => modGangs k.wp k.g.gid fun g => { g with takes := [], reach := [] })
  refine ⟨⟨hm, hs, hv⟩, ?_⟩
  unfold finishWatch
  dsimp only
  rw [commit, modWarp, modBlock]
  dsimp only
  rw [hblocks]
  exact congrArg State.blocks (modWarp_modWarp ..)

/-- One read of a word of device memory that holds no uncorrectable data. -/
theorem watchLane_clean {s : State} {cmp : WCmp} {size : Size} {w : WaitLane} {a : Nat} (hl : w.loc = .dev a)
    (hg : w.got = none) (hb : w.bad = false) (hp : poisonAt s w.loc size.bytes = false) : watchLane s cmp size w =
      if wcmp cmp (8 * size.bytes) (memNat s.mem a size.bytes) w.cmp.toNat then
        { w with got := some (BitVec.ofNat 64 (memNat s.mem a size.bytes)) } else w := by
  have hr : leNat (readLoc s w.loc size.bytes) = memNat s.mem a size.bytes := by rw [hl]; rfl
  have hf : isFab w.loc = false := by rw [hl]; rfl
  rw [watchLane, hg, hb, hf, hp, hr]
  rfl

/-- The word that a lane of a WAITA receives, where no other entry is of the same lane. -/
theorem laneVal_watchValues {size : Size} {ls : List WaitLane} {w : WaitLane} {x : Word64} (hs : size.regs = 1)
    (hw : w ∈ ls) (hx : w.got = some x) (hl : w.lane < 32) (huniq : ∀ y ∈ ls, y.lane = w.lane → y = w) :
    ∃ v, (watchValues false size ls).1 = [v] ∧ laneVal v w.lane = x.setWidth 32 := by
  have hfind : ls.find? (fun y => decide (y.lane = w.lane)) = some w := by
    cases hf : ls.find? (fun y => decide (y.lane = w.lane)) with
    | none => simpa using List.find?_eq_none.mp hf w hw
    | some y => rw [huniq y (List.mem_of_find?_eq_some hf) (by simpa using List.find?_some hf)]
  refine ⟨mkG fun l => ((ls.find? (·.lane = l)).bind (·.got)).elim 0 fun v => v.extractLsb' (32 * 0) 32, ?_, ?_⟩
  · simp only [watchValues, hs, List.range_one, List.map_cons, List.map_nil, Bool.false_eq_true, if_false]
  · rw [laneVal_mkG _ hl, hfind, Option.bind_some, hx, Option.elim_some]
    exact BitVec.eq_of_toNat_eq (by simp)

/-- A waiting WAITA that is satisfied, where it stands. -/
theorem execWaitaSatisfied_eq {s : State} {p : Party} {k : GCtx} {d : Dst} {m : LaneMask} {ls : List WaitLane} {cmp : WCmp}
    {size : Size} {uni : Bool} (hk : gangOf s p = some k) (hw : k.g.wait = .waita d m ls cmp size uni) :
    execWaitaSatisfied p s =
      if watchDone (ls.map (watchLane s cmp size)) then
        .next (finishWatch (modWarp s k.b k.w fun _ => settle (modGangs k.wp k.g.gid fun g => { g with wait := .none, wd := 0 }))
          { k with wp := settle (modGangs k.wp k.g.gid fun g => { g with wait := .none, wd := 0 }) } d k.g.reach m
          (ls.map (watchLane s cmp size)) size uni)
      else .next (modGang s k.b k.w k.g.gid fun g => { g with wait := .waita d m (ls.map (watchLane s cmp size)) cmp size uni }) := by
  simp only [execWaitaSatisfied, hk, hw]

section Completed

variable {s : State} {p : Party} {k : GCtx} (d : Dst) (m : LaneMask) (ls1 : List WaitLane) (size : Size) (uni : Bool)

/-- The issuing gang's context as a WAITA that has waited completes. -/
def wokenWatch (k : GCtx) : GCtx :=
  { k with wp := settle (modGangs k.wp k.g.gid fun g => { g with wait := .none, wd := 0 }) }

/-- The party's gang after a WAITA that has waited completes: at its next PC, waiting for nothing, in its new warp. -/
theorem gangOf_finishWatch (hk : gangOf s p = some k) : ∃ k' slot l,
    gangOf (finishWatch (modWarp s k.b k.w fun _ => (wokenWatch k).wp) (wokenWatch k) d k.g.reach m ls1 size uni) p = some k' ∧
    k'.g = { k.g with wait := .none, wd := 0, slot := slot, takes := [], reach := [], latch := l, lat := [], pc := k.g.pc + 1 } ∧
    k'.wp.regs = (watchWarp (wokenWatch k) d k.g.reach m ls1 size uni).regs := by
  obtain ⟨-, hb⟩ := finishWatch_effect (modWarp s k.b k.w fun _ => (wokenWatch k).wp) (wokenWatch k) d k.g.reach m ls1 size uni
  obtain ⟨l, hl⟩ : ∃ l, l = watchLatch (wokenWatch k) d k.g.reach m ls1 size uni := ⟨_, rfl⟩
  rw [← hl] at hb
  obtain ⟨-, -, -, hg⟩ := gangOf_eq_some hk
  obtain ⟨f, hf⟩ := find?_settle (modGangs k.wp k.g.gid fun g => { g with wait := .none, wd := 0 }) k.g.gid
  have hfind : (modGangs (watchWarp (wokenWatch k) d k.g.reach m ls1 size uni) k.g.gid
      fun g => { g with latch := l, lat := [], pc := g.pc + 1 }).gangs.find? (·.gid = k.g.gid) =
      some { k.g with wait := .none, wd := 0, slot := f { k.g with wait := .none, wd := 0 }, takes := [], reach := [],
                      latch := l, lat := [], pc := k.g.pc + 1 } := by
    have h1 : (watchWarp (wokenWatch k) d k.g.reach m ls1 size uni).gangs.find? (·.gid = k.g.gid) =
        ((wokenWatch k).wp.gangs.find? (·.gid = k.g.gid)).map fun g => { g with takes := [], reach := [] } := by
      rw [watchWarp, landDst_gangs]
      exact find?_modGangs fun _ => rfl
    rw [find?_modGangs, h1, wokenWatch, hf, find?_modGangs, hg]
    · rfl
    · exact fun _ => rfl
    · exact fun _ => rfl
  have hgang := gangOf_modWarp hk fun _ => modGangs (watchWarp (wokenWatch k) d k.g.reach m ls1 size uni) k.g.gid
    fun g => { g with latch := l, lat := [], pc := g.pc + 1 }
  rw [hfind, Option.map_some] at hgang
  refine ⟨_, _, l, (gangOf_congr (hb.trans ?_) p).trans hgang, rfl, rfl⟩
  exact congrArg State.blocks (modWarp_modWarp ..)

end Completed

/-- A register that a completed WAITA writes takes the words of its lanes; no other register changes. -/
theorem watchWarp_regs {k : GCtx} {n : Fin 256} (vw : View) (idx : List (Nat × Fin 256)) (m : LaneMask) {ls : List WaitLane}
    {size : Size} {uni : Bool} (hs : size.regs = 1) :
    (∀ i : Fin 256, i ≠ n → (watchWarp k (.v n vw) idx m ls size uni).regs[i] = k.wp.regs[i]) ∧
    ∀ w ∈ ls, ∀ x, w.got = some x → w.lane < 4 * k.wp.width.val → laneBit m w.lane = true → uni = false →
      (∀ y ∈ ls, y.lane = w.lane → y = w) →
      laneVal (watchWarp k (.v n vw) idx m ls size uni).regs[n].val w.lane = x.setWidth 32 := by
  obtain ⟨v, hv⟩ : ∃ v, (watchValues uni size ls).1 = [v] := ⟨_, by simp only [watchValues, hs]; rfl⟩
  rw [watchWarp, hv, landDst_v]
  refine ⟨fun i hi => setReg_other _ _ _ _ hi, ?_⟩
  rintro w hw x hx hl hm rfl huniq
  obtain ⟨v', hv', hval⟩ := laneVal_watchValues hs hw hx (laneBit_lt hm) huniq
  rw [hv] at hv'
  cases hv'
  rw [setReg_same, ← hval]
  exact laneVal_landReg (k := { k with wp := modGangs k.wp k.g.gid fun g => { g with takes := [], reach := [] } }) hl hm

/-- Settles O24: WAITA judges its words as it issues and again as they are read, and completes in the registers named at issue. -/
theorem watchWaitsForItsWords : Obligations.WatchWaitsForItsWords := by
  refine ⟨?_, ?_, fun s cmp size w a hl hg hb hp => ⟨fun h => ?_, fun h => ?_⟩⟩
  · intro s k c m d addr data cmp ord scope size uni both accs vals idx ls t hi hv hidx hr hboth ht hls takes htakes
    obtain ⟨x, hx⟩ := laneEas_of_reaches hr
    subst ht
    have hexec : exec (.waita c d addr data cmp ord scope size) s =
        match (takeLines k takes m).bind fun _ =>
          (if watchDone ls then pure (finishWatch (reached s k .watch size accs) k d idx m ls size both)
           else pure (modGangW (sendWatch (reached s k .watch size accs) s.cur size ls) k.b k.w k.g.gid fun g =>
             { g with wait := .waita d m ls cmp size both, takes := takes, reach := idx }) : Except Raise State) with
        | .ok t => .next t
        | .error r => .next (takeFault s s.cur r) := by
      refine (onResult_issues hi).trans ?_
      simp only [hx, hv, hidx, bind, Except.bind, withAccs_reaches hr, ← hboth, ← hls, ← htakes] <;> rfl
    refine ⟨fun h => ?_, fun h => ?_⟩
    · have hl : takeLines k takes m = .error (raise .regpool (some (lowLane m))) := checkLines_error m h
      rw [hexec, hl]
      rfl
    · have hl : takeLines k takes m = .ok () := checkLines_ok m h
      rw [hl] at hexec
      obtain ⟨hstores, -⟩ := finishWatch_effect (reached s k .watch size accs) k d idx m ls size both
      refine ⟨fun hd => ⟨?_, ((reached_storesEq ..).trans hstores).sameStores⟩, fun hd => ?_⟩
      · rw [hexec, hd]
        rfl
      · rw [hexec, hd]
        rfl
  · intro s p k d m ls ls1 cmp size uni hk hw hls
    subst hls
    refine ⟨fun hd => ?_, fun hd => ⟨_, (execWaitaSatisfied_eq hk hw).trans (if_pos hd), ?_, ?_, ?_⟩, ?_⟩
    · exact (execWaitaSatisfied_eq hk hw).trans (if_neg (by rw [hd]; exact Bool.false_ne_true))
    · obtain ⟨hstores, -⟩ := finishWatch_effect (modWarp s k.b k.w fun _ => (wokenWatch k).wp) (wokenWatch k) d k.g.reach m
        (ls.map (watchLane s cmp size)) size uni
      exact (StoresEq.trans (t := modWarp s k.b k.w fun _ => (wokenWatch k).wp) ⟨rfl, rfl, rfl⟩ hstores).sameStores
    · intro k' hk'
      obtain ⟨k'', slot, l, h1, h2, -⟩ := gangOf_finishWatch d m (ls.map (watchLane s cmp size)) size uni hk
      have : k'' = k' := Option.some.inj (h1.symm.trans hk')
      rw [← this, h2]
      exact ⟨rfl, rfl⟩
    · rintro n v rfl hs
      obtain ⟨k'', slot, l, h1, -, h3⟩ := gangOf_finishWatch (.v n v) m (ls.map (watchLane s cmp size)) size uni hk
      obtain ⟨h4, h5⟩ := watchWarp_regs (k := wokenWatch k) (n := n) v k.g.reach m (ls := ls.map (watchLane s cmp size)) (uni := uni) hs
      refine ⟨k'', h1, fun i hi => ?_, fun w hw x hx hl hm hu huniq => ?_⟩
      · rw [h3]
        exact h4 i hi
      · rw [h3]
        exact h5 w hw x hx hl hm hu huniq
    · change execFabricPoll p s = _
      simp only [execFabricPoll, hk, hw]
  · rw [watchLane_clean hl hg hb hp, if_pos h]
  · rw [watchLane_clean hl hg hb hp, if_neg (by rw [h]; exact Bool.false_ne_true)]

end Sys2Proof.Machine

/-! # PREF checks its lanes before it caches a translation (R149, R379)

The meaning of PREF judges every lane's address with the translations that the cores hold before the instruction. The statement
about it judges each lane with those that the lanes below it have left. Where the TLBs of a core and of its die disagree the two
differ: here the core holds a 64 KiB translation without R for the page of lane 1, and the die a 2 MiB translation with R for
the pages of all lanes. Lane 0 caches the die's entry in the core's TLB, in front of the other one. -/

namespace Sys2Proof.Machine

open Sys2Proof Sys2Proof.Claims

/-- A leaf entry at 2 MiB, valid and a leaf, with R or without it (R377). -/
def prefPte (readable : Bool) : BitVec 128 := BitVec.ofNat 128 (0x200000 * 2 ^ 64 + if readable then 0x7 else 0x3)

/-- A gang of 32 lanes whose register pair 4 names 32 consecutive pages from 2 MiB on; the page of lane 1 is staged and was last
used at tick 99. -/
def prefState : State :=
  let s0 : State := { placeWord State.reset 0 with agenda := [], cur := .gang 0 0 0 }
  let s1 := modWarp s0 0 0 fun wp => { wp with regs := wp.regs.set 8 { val := .a 0x200000 0x10000, poison := 0 } }
  let s2 := modCore s1 0 fun c => { c with tlb := [{ ctx := 0, va := 0x210000, len := 0x10000, pte := prefPte false }] }
  { s2 with
    dieTlb := s2.dieTlb.set 0 [{ ctx := 0, va := 0x200000, len := 0x200000, pte := prefPte true }]
    staged := [{ frame := 0, ctx := 0, va := 0x210000, len := 0x10000, home := 0, last := 99 }] }

/-- The gang that issues in that state. -/
def prefGang : GCtx := (gangOf prefState prefState.cur).get (by decide +kernel)

theorem gangOf_prefState : gangOf prefState prefState.cur = some prefGang := (Option.some_get _).symm

/-- When the staged pages of an outcome's state were last used. -/
def lastUses : Out1 → List Nat
  | .next s => s.staged.map (·.last)
  | _ => []

/-- The addresses of the gang's lanes. -/
def prefAddrs : List Int :=
  (((lanesOf (activeLanes prefGang.wp prefGang.g)).filter fun l =>
      !laneBit (predReg prefGang.wp 7).poison l && (predBit (predReg prefGang.wp 7).val l != false) &&
      !laneBit prefGang.wp.regs[Fin.ofNat 256 (2 * (4 : Fin 128).val)].poison l &&
      !laneBit prefGang.wp.regs[Fin.ofNat 256 (2 * (4 : Fin 128).val + 1)].poison l).map fun l =>
    ((laneVal prefGang.wp.regs[Fin.ofNat 256 (2 * (4 : Fin 128).val + 1)].val l ++
      laneVal prefGang.wp.regs[Fin.ofNat 256 (2 * (4 : Fin 128).val)].val l).toNat : Int) + (0 : BitVec 18).toInt)

/-- PREF itself finds lane 1's page not readable and leaves the staged page's use as it was. -/
theorem lastUses_pref : lastUses (exec (.pref ⟨7, false, 0⟩ 4 0 .tlb) prefState) = [99] := by decide +kernel

/-- Judged one lane after the other, lane 1's page is readable, and its use is noted. -/
theorem lastUses_prefAt : lastUses (.next (advance (prefAddrs.foldl (prefAt prefGang) prefState) prefGang)) = [0] := by
  decide +kernel

/-- Refutes O27: a PREF of 32 lanes checks lane 1 against the core's old translation of its page, which has no R; judged after
lane 0 has cached the die's, the page would be readable and its use noted. -/
theorem not_fencesAndFlushPoints : ¬ Obligations.FencesAndFlushPoints := by
  rintro ⟨⟨-, -, hpref, -⟩, -⟩
  obtain ⟨t, hexec, ht⟩ := hpref prefState prefGang ⟨7, false, 0⟩ 4 0 .tlb gangOf_prefState
  have huses : lastUses (exec (.pref ⟨7, false, 0⟩ 4 0 .tlb) prefState) = [0] := by
    rw [hexec, ht]
    exact lastUses_prefAt
  rw [lastUses_pref] at huses
  exact absurd huses (by decide)

end Sys2Proof.Machine

/-! # REGANG, NOP, YIELD and BKPT (R161, R163, R167, R172, R175, R178, R199) -/

namespace Sys2Proof.Machine

open Sys2Proof Sys2Proof.Claims

/-! ## Meanings without a guard -/

theorem onGang_ok {s : State} {k : GCtx} {f : GCtx → Except Raise State} {t : State} (h : gangOf s s.cur = some k)
    (hf : f k = .ok t) : onGang s f = .next t := by
  rw [onGang_gang h, hf]

theorem onGang_error {s : State} {k : GCtx} {f : GCtx → Except Raise State} {r : Raise} (h : gangOf s s.cur = some k)
    (hf : f k = .error r) : onGang s f = .next (takeFault s s.cur r) := by
  rw [onGang_gang h, hf]

theorem onLanes_ok {s : State} {k : GCtx} {c : Ctl} {m : LaneMask} {f : GCtx → LaneMask → Except Raise State} {t : State}
    (h : Issues s k c m) (hf : f k m = .ok t) : onLanes s c f = .next t := by
  rw [onLanes_issues h, hf]

theorem onLanes_error {s : State} {k : GCtx} {c : Ctl} {m : LaneMask} {f : GCtx → LaneMask → Except Raise State} {r : Raise}
    (h : Issues s k c m) (hf : f k m = .error r) : onLanes s c f = .next (takeFault s s.cur r) := by
  rw [onLanes_issues h, hf]

/-! ## Merging (R161, R178, R199) -/

/-- A union of slices holds those of each part. -/
theorem sliceIn_foldl_or (gs : List Gang) (a : SliceMask) (i : Nat) :
    sliceIn (gs.foldl (fun a x => a ||| x.slices) a) i = (sliceIn a i || gs.any fun g => sliceIn g.slices i) := by
  induction gs generalizing a with
  | nil => simp
  | cons g gs ih =>
    rw [List.foldl_cons, ih, List.any_cons, ← Bool.or_assoc]
    simp [sliceIn]

theorem laneBit_latchShare {gs : List Gang} {g : Gang} {l : Nat} (hl : l < 32)
    (hall : ∃ h ∈ gs, sliceIn h.slices (l / 4) = true) : laneBit (latchShare gs g) l = sliceIn g.slices (l / 4) := by
  obtain ⟨h, hm, hs⟩ := hall
  have hin : sliceIn (gs.foldl (fun a x => a ||| x.slices) 0) (l / 4) = true := by
    rw [sliceIn_foldl_or, List.any_eq_true.mpr ⟨h, hm, hs⟩, Bool.or_true]
  rw [latchShare, laneBit_maskOf, hin, decide_eq_true hl]
  simp

/-- What the lanes of a merged latch hold, by the gang that gives each (R178). -/
def mergedLane (gs : List Gang) (l : Nat) : Word :=
  match gs.find? fun g => laneBit (latchShare gs g) l with
  | some g => laneVal g.latch.val l
  | none => 0

/-- The lane of a merged latch that one of the gangs alone holds. -/
theorem laneVal_mergedLatch {gs : List Gang} {g : Gang} {l : Nat} (hg : g ∈ gs) (hl : l < 32)
    (hs : sliceIn g.slices (l / 4) = true) (huniq : ∀ h ∈ gs, sliceIn h.slices (l / 4) = true → h = g) :
    laneVal (mergedLatch gs).val l = laneVal g.latch.val l := by
  have hfind : gs.find? (fun g => laneBit (latchShare gs g) l) = some g := by
    simp only [laneBit_latchShare hl ⟨g, hg, hs⟩]
    cases hf : gs.find? (fun g => sliceIn g.slices (l / 4)) with
    | none => exact absurd hs (by simpa using List.find?_eq_none.mp hf g hg)
    | some h => rw [huniq h (List.mem_of_find?_eq_some hf) (List.find?_some (p := fun g : Gang => sliceIn g.slices (l / 4)) hf)]
  have hmix : laneVal (mkG (mergedLane gs)) l = laneVal g.latch.val l := by
    rw [laneVal_mkG _ hl, mergedLane, hfind]
  unfold mergedLatch
  dsimp only
  split
  next h r =>
    split
    next x hx =>
      split
      next hu =>
        have : g.latch.val = .u x := by
          rcases List.mem_cons.mp hg with rfl | hr
          · exact hx
          · exact of_decide_eq_true (List.all_eq_true.mp hu g hr)
        rw [this]
      next => exact hmix
    next => exact hmix
  next => cases hg

theorem foldl_min_gid (gs : List Gang) (a : Nat) :
    gs.foldl (fun a x => min a x.gid) a ≤ a ∧ (∀ h ∈ gs, gs.foldl (fun a x => min a x.gid) a ≤ h.gid) ∧
      (gs.foldl (fun a x => min a x.gid) a = a ∨ ∃ h ∈ gs, h.gid = gs.foldl (fun a x => min a x.gid) a) := by
  induction gs generalizing a with
  | nil => exact ⟨le_rfl, by simp, .inl rfl⟩
  | cons g gs ih =>
    obtain ⟨h1, h2, h3⟩ := ih (min a g.gid)
    rw [List.foldl_cons]
    refine ⟨h1.trans (min_le_left _ _), fun h hh => ?_, ?_⟩
    · rcases List.mem_cons.mp hh with rfl | hh
      · exact h1.trans (min_le_right _ _)
      · exact h2 h hh
    · rcases h3 with h3 | ⟨h, hh, h3⟩
      · rcases min_choice a g.gid with hm | hm
        · exact .inl (h3.trans hm)
        · exact .inr ⟨g, List.mem_cons_self, (h3.trans hm).symm⟩
      · exact .inr ⟨h, List.mem_cons_of_mem _ hh, h3⟩

theorem lowestHolder_mem {gs : List Gang} {g : Gang} (h : lowestHolder gs = some g) : g ∈ gs := by
  obtain ⟨i, -, hi⟩ := List.exists_of_findSome?_eq_some h
  exact List.mem_of_find?_eq_some hi

theorem awaiting_of_mem_waitingAt {wp : Warp} {p : Word} {g : Gang} (h : g ∈ waitingAt wp p) : g ∈ wp.gangs :=
  (List.mem_filter.mp h).1

section RegangTry

variable {s : State} {b w : Nat} {blk : Block} {wp : Warp} (hb : s.blocks[b]? = some blk) (hw : blk.warps[w]? = some wp)
include hb hw

theorem warpAt_of_getElem? : (s.blocks[b]?).bind (·.warps[w]?) = some wp := by
  rw [hb]
  exact hw

theorem regangTry_not_awaited (slot : Fin 3) (waited : Bool) {p : Word} (h : awaitedHere wp p = false) :
    regangTry s b w slot waited p = s := by
  simp only [regangTry, warpAt_of_getElem? hb hw, h, Bool.not_false, if_true]

theorem regangTry_merges (slot : Fin 3) (waited : Bool) {p : Word} (h : awaitedHere wp p = true)
    (hin : ∀ g ∈ wp.gangs, g.inHandler = false) (h2 : 2 ≤ (waitingAt wp p).length) :
    regangTry s b w slot waited p = modWarp s b w fun x => mergeGangs x (waitingAt wp p) slot p := by
  have hany : (waitingAt wp p).any (·.inHandler) = false :=
    List.any_eq_false.mpr fun g hg => by simp [hin g (awaiting_of_mem_waitingAt hg)]
  simp only [regangTry, warpAt_of_getElem? hb hw, h, hany, Bool.not_true, Bool.false_and, Bool.false_eq_true, if_false]
  split
  next hs => simp [hs] at h2
  next => rfl

end RegangTry

/-- The gang that a merge makes of its parts (R161, R178, R199). -/
def mergedGang (gs : List Gang) (slot : Fin 3) (p : Word) (g : Gang) : Gang :=
  { g with
    gid := gs.foldl (fun a x => min a x.gid) g.gid
    slices := gs.foldl (fun a x => a ||| x.slices) 0
    pc := p + 1, latch := mergedLatch gs, slot := slot, wait := .none, wd := 0
    last := gs.foldl (fun a x => max a x.last) 0
    board := (gs.flatMap (·.board)).eraseDups, lat := mergedLat gs, takes := (gs.flatMap (·.takes)).eraseDups }

/-- A merge puts that gang in the place of its parts. -/
theorem mergeGangs_gangs {wp : Warp} {gs : List Gang} {g : Gang} (slot : Fin 3) (p : Word) (h : lowestHolder gs = some g) :
    ∃ f : Gang → Fin 3, (mergeGangs wp gs slot p).gangs =
      (wp.gangs.filter (fun x => !gs.contains x) ++ [mergedGang gs slot p g]).map fun x => { x with slot := f x } := by
  obtain ⟨f, hf⟩ := settle_gangs { wp with
    gangs := wp.gangs.filter (fun x => !gs.contains x) ++ [mergedGang gs slot p g] }
  refine ⟨f, ?_⟩
  simp only [mergeGangs, h]
  exact hf

/-- Settles O28: the step of REGANG, when its gangs merge, what the merged gang is, and whose latch each lane takes. -/
theorem regangMerges : Obligations.RegangMerges := by
  refine ⟨fun s k c a m hg ha => ?_, fun s b w slot p blk wp hb hw => ⟨fun h waited => ?_, fun h hin h2 waited => ?_⟩,
    fun wp gs g slot p h => ?_, fun gs g l hg hl hs huniq => laneVal_mergedLatch hg hl hs huniq⟩
  · refine onGang_ok hg ?_
    simp only [ha, bind, Except.bind]
    rfl
  · exact regangTry_not_awaited hb hw slot waited h
  · exact regangTry_merges hb hw slot waited h hin h2
  · obtain ⟨f, hf⟩ := mergeGangs_gangs (wp := wp) slot p h
    obtain ⟨-, hle, hin⟩ := foldl_min_gid gs g.gid
    refine ⟨(mergedGang gs slot p g).gid, hin.elim (fun he => ⟨g, lowestHolder_mem h, he.symm⟩) id, hle, ?_,
      { mergedGang gs slot p g with slot := f (mergedGang gs slot p g) }, ?_, rfl, rfl, rfl, rfl, rfl⟩
    · rw [hf, List.map_map, List.map_append]
      rfl
    · rw [hf, List.map_append]
      exact List.getLast?_concat

/-! ## NOP, YIELD, BKPT -/

/-- A gang comes to the end of a RECOMP sequence while another of its warp has not: it waits there. -/
theorem finishRecomp_waits {s : State} {k : GCtx} (hg : gangOf s s.cur = some k)
    (h : ∃ g ∈ k.wp.gangs, g.gid ≠ k.g.gid ∧ g.recomp ≠ none ∧ g.wait ≠ .recomp) :
    finishRecomp s k = modGangW s k.b k.w k.g.gid fun g => { g with wait := .recomp } := by
  obtain ⟨-, hblk, hwp, -⟩ := gangOf_eq_some hg
  obtain ⟨g, hmem, hid, hre, hwait⟩ := h
  have hw : ((modGangW s k.b k.w k.g.gid fun g => { g with wait := .recomp }).blocks[k.b]?).bind (·.warps[k.w]?) =
      some (settle (modGangs k.wp k.g.gid fun g => { g with wait := .recomp })) := by
    rw [modGangW, modWarp, modBlock_get, if_pos rfl, hblk]
    simp [hwp]
  obtain ⟨f, hf⟩ := settle_gangs (modGangs k.wp k.g.gid fun g => { g with wait := .recomp })
  have hdone : recompDone (settle (modGangs k.wp k.g.gid fun g => { g with wait := .recomp })) = false := by
    rw [recompDone, hf, List.all_map, List.all_eq_false]
    refine ⟨g, List.mem_map.mpr ⟨g, hmem, if_neg hid⟩, ?_⟩
    simp [hre, hwait]
  simp only [finishRecomp, hw, hdone, Bool.false_eq_true, if_false]

theorem handOver_gangs (det : Bool) (slot : Fin 3) (wp : Warp) : (handOver det slot wp).gangs = wp.gangs ∧
    (handOver det slot wp).regs = wp.regs := by
  unfold handOver
  split
  · exact ⟨rfl, rfl⟩
  · split <;> exact ⟨rfl, rfl⟩

/-- A slot passed on changes the slots of the gangs only. -/
theorem passSlot_gangs (wp : Warp) (gid : Nat) (slot : Fin 3) : (∃ f : Gang → Fin 3,
    (passSlot wp gid slot).gangs = wp.gangs.map fun g => { g with slot := f g }) ∧ (passSlot wp gid slot).regs = wp.regs := by
  unfold passSlot
  split
  · exact ⟨⟨fun g => g.slot, (List.map_id _).symm⟩, rfl⟩
  next i _ =>
    refine ⟨⟨fun g => if g.gid = i then slot else if g.gid = gid then 0 else g.slot, List.map_congr_left fun g _ => ?_⟩, rfl⟩
    by_cases h1 : g.gid = i
    · simp only [h1, if_true]
    · by_cases h2 : g.gid = gid
      · subst h2
        simp only [h1, if_true, if_false]
      · simp only [h1, h2, if_false]

/-- A block that keeps its warps keeps its gangs. -/
theorem gangOf_modBlock_of_warps {s : State} {b : Nat} {f : Block → Block} (hf : ∀ x, (f x).warps = x.warps) {p : Party}
    {k' : GCtx} (h : gangOf (modBlock s b f) p = some k') : ∃ k, gangOf s p = some k ∧ k'.wp = k.wp ∧ k'.g = k.g := by
  obtain ⟨hp, hblk, hwp, hg⟩ := gangOf_eq_some h
  rw [modBlock_get] at hblk
  obtain ⟨blk, h1, h2⟩ : ∃ blk, s.blocks[k'.b]? = some blk ∧ blk.warps[k'.w]? = some k'.wp := by
    split at hblk
    · obtain ⟨blk, h1, h2⟩ := Option.map_eq_some_iff.mp hblk
      rw [← h2, hf] at hwp
      exact ⟨blk, h1, hwp⟩
    · exact ⟨_, hblk, hwp⟩
  refine ⟨{ b := k'.b, w := k'.w, blk := blk, wp := k'.wp, g := k'.g }, ?_, rfl, rfl⟩
  rw [hp]
  simp only [gangOf, h1, h2, hg]

/-- The issuing gang's warp after a YIELD. -/
def yieldWarp (s : State) (k : GCtx) (det : Bool) (wp : Warp) : Warp :=
  let w := modGangs (passSlot (handOver det k.g.slot wp) k.g.gid k.g.slot) k.g.gid fun x => { x with pc := x.pc + 1 }
  { w with yieldAt := s.tick }

theorem gangOf_yieldWarp {s : State} {k : GCtx} (hg : gangOf s s.cur = some k) (det : Bool) :
    ∃ k', gangOf (modWarp s k.b k.w (yieldWarp s k det)) s.cur = some k' ∧ k'.g.pc = k.g.pc + 1 ∧ k'.wp.regs = k.wp.regs := by
  obtain ⟨-, -, -, hfind⟩ := gangOf_eq_some hg
  obtain ⟨⟨f, hf⟩, hregs⟩ := passSlot_gangs (handOver det k.g.slot k.wp) k.g.gid k.g.slot
  obtain ⟨hgangs, hregs'⟩ := handOver_gangs det k.g.slot k.wp
  have h1 : (yieldWarp s k det k.wp).gangs.find? (·.gid = k.g.gid) =
      some { k.g with slot := f k.g, pc := k.g.pc + 1 } := by
    change (modGangs (passSlot _ _ _) k.g.gid _).gangs.find? _ = _
    rw [find?_modGangs, hf, hgangs, find?_map_gang, hfind]
    · rfl
    · exact fun _ => rfl
    · exact fun _ => rfl
  refine ⟨_, (gangOf_modWarp hg _).trans (by rw [h1]; rfl), rfl, ?_⟩
  exact hregs.trans hregs'

theorem modWarp_yieldWarp (s : State) (k : GCtx) (det : Bool) :
    modWarp (advance (modWarp s k.b k.w fun wp => passSlot (handOver det k.g.slot wp) k.g.gid k.g.slot) k) k.b k.w
      (fun wp => { wp with yieldAt := s.tick }) = modWarp s k.b k.w (yieldWarp s k det) := by
  rw [advance, modGang, modWarp_modWarp, modWarp_modWarp]
  rfl

theorem passToken_warps (blk : Block) : (passToken blk).warps = blk.warps := by
  unfold passToken
  dsimp only
  split <;> rfl

/-- YIELD in deterministic mode: the token and the partition's turn pass too (R172, R362). -/
theorem execYield_det {s : State} {k : GCtx} {c : Ctl} {m : LaneMask} (hi : Issues s k c m)
    (h : ((s.nodes[k.blk.node]?).map (·.det)).getD false = true) : execYield c s =
      .next (modCore (modBlock (modWarp s k.b k.w (yieldWarp s k true)) k.b fun blk =>
          if blk.token = k.w + 1 then passToken blk else blk) k.blk.core fun c =>
        { c with current := c.current.set (partitionOf k.blk k.w) (nextAfter (some (k.b, k.w))
          (detWarps (modWarp s k.b k.w (yieldWarp s k true)) k.blk.core (partitionOf k.blk k.w))) }) := by
  refine onLanes_ok hi ?_
  dsimp only
  rw [h, modWarp_yieldWarp, if_pos rfl]

/-- Settles O30: the branches of NOP, BKPT and YIELD; what YIELD passes on are slots, the token and the turn. -/
theorem nopYieldBreakpoint : Obligations.NopYieldBreakpoint := by
  intro s k c hg
  refine ⟨fun h => ?_, fun h => ⟨?_, finishRecomp_waits hg⟩, fun m hi => ⟨fun h => ?_, fun h => ?_, fun h => ?_, fun h => ?_⟩⟩
  · change execNop c s = _
    rw [execNop, onGang_gang hg, h]
    rfl
  · change execNop c s = _
    rw [execNop, onGang_gang hg, h]
    rfl
  · exact onLanes_ok hi (if_pos h)
  · exact onLanes_ok hi (if_neg (by rw [h]; exact Bool.false_ne_true))
  · refine onLanes_ok hi ?_
    dsimp only
    rw [h]
    rfl
  · refine ⟨_, execYield_det hi h, fun a => ⟨rfl, rfl, rfl⟩, rfl, fun k' hk' => ?_⟩
    obtain ⟨k1, h1, hpc, hregs⟩ := gangOf_yieldWarp hg true
    obtain ⟨k2, h2, hw, hgg⟩ := gangOf_modBlock_of_warps (f := fun blk => if blk.token = k.w + 1 then passToken blk else blk)
      (fun x => by split <;> simp [passToken_warps]) ((gangOf_congr rfl s.cur).symm.trans hk')
    rw [h1] at h2
    cases h2
    rw [hw, hgg]
    exact ⟨hpc, hregs⟩

end Sys2Proof.Machine

/-! # Branches, reconvergence, calls, returns and exits (R151 to R162) -/

namespace Sys2Proof.Machine

open Sys2Proof Sys2Proof.Claims

/-! ## Branches of the whole gang (R151 to R155, R157, R158) -/

section Branch

variable {s : State} {k : GCtx} {bra : Bool} {r : Word} {groups : Nat → Groups}

theorem branchGang_ok (h : ∀ j ∈ slicesOf k.g, stackNeed bra (sliceAt k.wp j) (groups j) r (k.g.pc + 1) ≤ 16) :
    branchGang s k bra r groups = .ok (modWarp s k.b k.w fun wp =>
      regroup (((slicesOf k.g).map fun i => (i, branchSlice bra (sliceAt k.wp i) (groups i) r (k.g.pc + 1))).foldl
        (fun w x => setSlice w x.1 x.2.1) wp) k.g
        (((slicesOf k.g).map fun i => (i, branchSlice bra (sliceAt k.wp i) (groups i) r (k.g.pc + 1))).map fun x => (x.1, x.2.2))) := by
  have hnone : (slicesOf k.g).find? (fun i => decide (stackNeed bra (sliceAt k.wp i) (groups i) r (k.g.pc + 1) > 16)) = none :=
    List.find?_eq_none.mpr fun j hj => by simpa using h j hj
  simp only [branchGang, hnone]

theorem branchGang_full {j : Nat} (h : (slicesOf k.g).find? (fun i =>
    decide (stackNeed bra (sliceAt k.wp i) (groups i) r (k.g.pc + 1) > 16)) = some j) :
    branchGang s k bra r groups = .error (raise .maskStack (some (sliceLow k.wp j))) := by
  simp only [branchGang, h]

end Branch

/-- A branch instruction of a gang is a branch of its slices into their groups. -/
theorem exec_branch {s : State} {k : GCtx} {c : Ctl} {taken : LaneMask} (hg : gangOf s s.cur = some k)
    (hp : partLanes k c = .ok taken) {rc : BitVec 18} {bra : Bool} {i : Instr} {groups : Nat → Groups}
    (h : (∃ off, bra = true ∧ i = .bra c rc off ∧
        groups = fun j => braGroups (sliceAt k.wp j).active (sliceLanes taken j) (k.g.pc + off) (k.g.pc + 1)) ∨
      (∃ a v, bra = false ∧ i = .brx c rc a ∧ readSrc k taken (.int .w32) false a = .ok v ∧
        groups = fun j => brxGroups (sliceAt k.wp j).active fun l =>
          if laneBit taken (4 * j + l) then laneVal v (4 * j + l) else k.g.pc + 1)) :
    (∀ t, branchGang s k bra (pcOff18 k.g.pc rc) groups = .ok t → exec i s = .next t) ∧
    ∀ e, branchGang s k bra (pcOff18 k.g.pc rc) groups = .error e → exec i s = .next (takeFault s s.cur e) := by
  rcases h with ⟨off, rfl, rfl, rfl⟩ | ⟨a, v, rfl, rfl, hv, rfl⟩
  · refine ⟨fun t ht => onGang_ok hg ?_, fun e he => onGang_error hg ?_⟩
    · simp only [hp, bind, Except.bind, ht]
    · simp only [hp, bind, Except.bind, he]
  · refine ⟨fun t ht => onGang_ok hg ?_, fun e he => onGang_error hg ?_⟩
    · simp only [hp, hv, bind, Except.bind, ht]
    · simp only [hp, hv, bind, Except.bind, he]

theorem branchesSplitTheirSlices : BranchesSplitTheirSlices := by
  intro s k c taken hg hp rc bra i groups h
  obtain ⟨hok, herr⟩ := exec_branch hg hp h
  exact ⟨fun hroom => ⟨_, hok _ (branchGang_ok hroom), rfl⟩, fun j hj => herr _ (branchGang_full hj)⟩

theorem guardDiffers_eq_none {act taken : LaneMask} (h : ∀ l ∈ lanesOf act, laneBit taken l = laneBit taken (lowLane act)) :
    guardDiffers act taken = none :=
  List.find?_eq_none.mpr fun l hl => by simp [h l hl]

/-- The first lane whose guard differs from that of the lowest. -/
theorem guardDiffers_eq_some {act taken : LaneMask} {l : Nat} (hl : l ∈ lanesOf act)
    (hd : laneBit taken l ≠ laneBit taken (lowLane act))
    (hfirst : ∀ j ∈ lanesOf act, j < l → laneBit taken j = laneBit taken (lowLane act)) :
    guardDiffers act taken = some l :=
  find?_sorted (lanesOf_sorted act) hl (by simpa using hd) fun j hj hlt => by simp [hfirst j hj hlt]

theorem execBru_eq {s : State} {k : GCtx} {c : Ctl} {taken : LaneMask} (t : BruTarget) (hg : gangOf s s.cur = some k)
    (hp : partLanes k c = .ok taken) : execBru c t s =
      if (c.pred = 7 && c.inv) = true then .next (advance s k)
      else
        match guardDiffers (activeLanes k.wp k.g) taken, bruTarget k t with
        | some l, _ => .next (takeFault s s.cur (raise .uniform (some l)))
        | none, .error e => .next (takeFault s s.cur e)
        | none, .ok pc => .next (modGang s k.b k.w k.g.gid fun g => { g with pc := if taken = 0 then g.pc + 1 else pc }) := by
  rw [execBru, onGang_gang hg]
  simp only [hp, bind, Except.bind]
  by_cases hc : (c.pred = 7 && c.inv) = true
  · rw [if_pos hc, if_pos hc] <;> rfl
  · rw [if_neg hc, if_neg hc]
    cases guardDiffers (activeLanes k.wp k.g) taken with
    | some l => rfl
    | none => cases bruTarget k t <;> rfl

/-- Where the guard is (!pt) no lane is taken. -/
theorem taken_eq_zero_of_never {k : GCtx} {c : Ctl} {taken : LaneMask} (hp : partLanes k c = .ok taken)
    (hc : (c.pred = 7 && c.inv) = true) : taken = 0 := by
  rw [Bool.and_eq_true, decide_eq_true_eq] at hc
  rw [partLanes, if_pos hc.1, if_pos hc.2] at hp
  exact (Except.ok.inj hp).symm

theorem uniformBranch : UniformBranch := by
  intro s k c t taken act hg hp hact
  subst hact
  have hexec : exec (.bru c t) s = _ := execBru_eq t hg hp
  have htarget : ((∃ o, t = .off o) ∨ ∃ a pc, t = .reg a ∧ readUni k (activeLanes k.wp k.g) a = .ok pc) →
      ∃ pc, bruTarget k t = .ok pc := by
    rintro (⟨o, rfl⟩ | ⟨a, pc, rfl, h⟩)
    · exact ⟨_, rfl⟩
    · exact ⟨pc, h⟩
  refine ⟨fun ht h0 pc hpc => ?_, fun h0 hpc => ?_, fun h1 h2 => ?_, fun l hl hd hfirst => ?_⟩
  · have hc : ¬ (c.pred = 7 && c.inv) = true := fun hc => h0 (taken_eq_zero_of_never hp hc)
    have hnone : guardDiffers (activeLanes k.wp k.g) taken = none := by
      refine guardDiffers_eq_none fun l hl => ?_
      rw [ht] at h0 ⊢
      rw [(mem_lanesOf.mp hl).2, (mem_lanesOf.mp (lowLane_mem h0)).2]
    have hb : bruTarget k t = .ok pc := by
      rcases hpc with ⟨o, rfl, rfl⟩ | ⟨a, rfl, h⟩
      · rfl
      · exact h
    rw [hexec, if_neg hc, hnone, hb]
    simp only [if_neg h0]
  · by_cases hc : (c.pred = 7 && c.inv) = true
    · rw [hexec, if_pos hc]
    · obtain ⟨pc, hb⟩ := htarget hpc
      rw [hexec, if_neg hc, guardDiffers_eq_none fun l hl => by rw [h0, laneBit_zero, laneBit_zero], hb]
      simp only [if_pos h0]
      rfl
  · rw [hexec, if_pos (by simp [h1, h2])]
  · have hc : ¬ (c.pred = 7 && c.inv) = true := fun hc => hd (by rw [taken_eq_zero_of_never hp hc, laneBit_zero, laneBit_zero])
    rw [hexec, if_neg hc, guardDiffers_eq_some hl hd hfirst]

/-- Settles O31: a branch acts on every slice of its gang or on none, and a uniform one on the gang's PC. -/
theorem branches : Obligations.Branches := ⟨branchesSplitTheirSlices, uniformBranch⟩

/-! ## Reconvergence (R152 to R154) -/

/-- Both sides of a branch to another PC. -/
theorem braGroups_both {act taken : BitVec 4} {target next : Word} (ht : act &&& taken ≠ 0) (hf : act &&& ~~~taken ≠ 0)
    (hne : target ≠ next) : braGroups act taken target next = [(act &&& taken, target), (act &&& ~~~taken, next)] := by
  simp only [braGroups, if_neg ht, hf, hne, decide_false, Bool.or_false, Bool.false_eq_true, if_false]

/-- A branch splits the active lanes, or all of them go on at one PC. -/
theorem braGroups_cases (act taken : BitVec 4) (target next : Word) :
    (∃ p, braGroups act taken target next = [(act, p)]) ∨ target ≠ next ∧
      braGroups act taken target next = [(act &&& taken, target), (act &&& ~~~taken, next)] := by
  by_cases ht : act &&& taken = 0
  · exact .inl ⟨next, by simp only [braGroups, ht, if_true]⟩
  · by_cases hf : act &&& ~~~taken = 0
    · exact .inl ⟨target, by simp only [braGroups, if_neg ht, hf, decide_true, Bool.true_or, if_true]⟩
    · by_cases hne : target = next
      · exact .inl ⟨target, by simp only [braGroups, if_neg ht, hne, decide_true, Bool.or_true, if_true]⟩
      · exact .inr ⟨hne, braGroups_both ht hf hne⟩

/-- The two sides of a branch share no lane and hold all. -/
theorem sides_partition : ∀ act taken : BitVec 4, (act &&& taken) ||| (act &&& ~~~taken) = act ∧
    (act &&& taken) &&& (act &&& ~~~taken) = 0 := by decide

/-- At its reconvergence PC a slice goes on with the lanes of the PATH on top. -/
theorem checkStack_path {n : Nat} {sl : Slice} {e : MEntry} {st : List MEntry} (hk : e.kind = .path) (hm : e.mask ≠ 0)
    (hr : e.resume ≠ e.rpc) : checkStack (n + 1) { sl with stack := e :: st } e.rpc =
      ({ sl with stack := st, active := e.mask }, e.resume) := by
  simp only [checkStack, hk]
  rw [if_neg (by simp), if_neg hm, if_pos (by simpa using hr)]

/-- At a JOIN it has the lanes back that it holds, and checks on. -/
theorem checkStack_join {n : Nat} {sl : Slice} {e : MEntry} {st : List MEntry} (hk : e.kind = .join) (hm : e.mask ≠ 0)
    (hr : e.resume = e.rpc) : checkStack (n + 1) { sl with stack := e :: st } e.rpc =
      checkStack n { sl with stack := st, active := e.mask } e.rpc := by
  simp only [checkStack, hk]
  rw [if_neg (by simp), if_neg hm, if_neg (by simp), hr]

theorem divergedSliceReconverges : DivergedSliceReconverges := by
  intro sl taken target next r ht hf hne hnr hacc
  rw [braGroups_both ht hf hne] at hacc ⊢
  have ha : sl.active ≠ 0 := by
    rintro h
    rw [h] at ht
    exact ht (BitVec.zero_and)
  refine ⟨_, by simp only [branchSlice, hacc, Bool.false_eq_true, if_false]; rfl, rfl, _,
    checkStack_path (sl := { sl with active := sl.active &&& taken }) (e := { kind := .path, mask := sl.active &&& ~~~taken, resume := next, rpc := r }) rfl hf hnr, rfl, rfl, ?_⟩
  exact checkStack_join (sl := { sl with active := sl.active &&& ~~~taken })
    (e := { kind := .join, mask := sl.active, resume := r, rpc := r }) rfl ha rfl

/-! ## The groups of a branch (R153, R158) -/

/-- The lanes of a mask, as a sum of their powers of two. -/
theorem getLsbD_laneSum (p : Nat → Bool) {i : Nat} (hi : i < 4) :
    (BitVec.ofNat 4 (((List.range 4).filter p).foldl (fun a i => a + 2 ^ i) 0)).getLsbD i = p i := by
  have h := (maskSum_testBit p 4).2 i
  rw [List.foldl_filter, BitVec.getLsbD_ofNat, h]
  simp [hi]

theorem getLsbD_none (i : Nat) : (0 : BitVec 4).getLsbD i = false := by simp

/-- A union of groups holds the lanes of each. -/
theorem getLsbD_foldl_or (l : List (BitVec 4)) (a : BitVec 4) (i : Nat) :
    (l.foldl (· ||| ·) a).getLsbD i = (a.getLsbD i || l.any fun x => x.getLsbD i) := by
  induction l generalizing a with
  | nil => simp
  | cons x l ih => rw [List.foldl_cons, ih, List.any_cons, BitVec.getLsbD_or, Bool.or_assoc]

section Brx

variable {act : BitVec 4} {pcOf : Nat → Word}

/-- A group of BRX has the active lanes of its PC. -/
theorem mem_brxGroups {g : BitVec 4 × Word} : g ∈ brxGroups act pcOf ↔
    (∃ i < 4, act.getLsbD i = true ∧ pcOf i = g.2) ∧ ∀ i < 4, g.1.getLsbD i = (act.getLsbD i && pcOf i = g.2) := by
  have hmask (p : Word) (i : Nat) (hi : i < 4) : (BitVec.ofNat 4 ((((List.range 4).filter act.getLsbD).filter
      fun i => pcOf i = p).foldl (fun a i => a + 2 ^ i) 0)).getLsbD i = (act.getLsbD i && decide (pcOf i = p)) := by
    rw [List.filter_filter, getLsbD_laneSum _ hi, Bool.and_comm]
  simp only [brxGroups, List.mem_map, List.mem_eraseDups, List.mem_filter, List.mem_range]
  constructor
  · rintro ⟨p, ⟨i, ⟨hi, ha⟩, rfl⟩, rfl⟩
    exact ⟨⟨i, hi, ha, rfl⟩, fun j hj => hmask _ j hj⟩
  · rintro ⟨⟨i, hi, ha, hp⟩, hbits⟩
    refine ⟨g.2, ⟨i, ⟨hi, ha⟩, hp⟩, Prod.ext (BitVec.eq_of_getLsbD_eq fun j hj => ?_) rfl⟩
    rw [hbits j hj]
    exact hmask _ j hj

theorem brxGroups_pcs : (brxGroups act pcOf).map (·.2) = (((List.range 4).filter act.getLsbD).map pcOf).eraseDups := by
  rw [brxGroups, List.map_map]
  exact List.map_id _

theorem brxGroups_pairwise : (brxGroups act pcOf).Pairwise fun x y => x.1 &&& y.1 = 0 := by
  have hnd : ((brxGroups act pcOf).map (·.2)).Nodup := by
    rw [brxGroups_pcs]
    exact nodup_eraseDups _ _ le_rfl
  rw [List.Nodup, List.pairwise_map] at hnd
  refine List.Pairwise.imp_of_mem (fun {x y} hx hy hne => BitVec.eq_of_getLsbD_eq fun i hi => ?_) hnd
  rw [BitVec.getLsbD_and, (mem_brxGroups.mp hx).2 i hi, (mem_brxGroups.mp hy).2 i hi, getLsbD_none]
  by_cases h : pcOf i = x.2
  · rw [h]
    simp [hne]
  · simp [h]

theorem brxGroups_union : ((brxGroups act pcOf).map (·.1)).foldl (· ||| ·) 0 = act := by
  refine BitVec.eq_of_getLsbD_eq fun i hi => ?_
  rw [getLsbD_foldl_or, getLsbD_none, Bool.false_or, Bool.eq_iff_iff, List.any_map, List.any_eq_true]
  constructor
  · rintro ⟨g, hg, hb⟩
    have := (mem_brxGroups.mp hg).2 i hi
    rw [Function.comp_apply, this, Bool.and_eq_true] at hb
    exact hb.1
  · intro ha
    refine ⟨(BitVec.ofNat 4 ((((List.range 4).filter act.getLsbD).filter fun j => pcOf j = pcOf i).foldl
      (fun a i => a + 2 ^ i) 0), pcOf i), ?_, ?_⟩
    · simp only [brxGroups, List.mem_map, List.mem_eraseDups, List.mem_filter, List.mem_range]
      exact ⟨pcOf i, ⟨i, ⟨hi, ha⟩, rfl⟩, rfl⟩
    · rw [Function.comp_apply, List.filter_filter, getLsbD_laneSum _ hi]
      simp [ha]

end Brx

theorem branchGroupsPartitionLanes : BranchGroupsPartitionLanes := by
  refine ⟨fun act taken target next => ?_, fun act pcOf => ⟨brxGroups_union, ?_, brxGroups_pairwise, fun i hi ha => ?_⟩⟩
  · rcases braGroups_cases act taken target next with ⟨p, h⟩ | ⟨hne, h⟩
    · rw [h]
      simp
    · obtain ⟨hor, hand⟩ := sides_partition act taken
      rw [h]
      refine ⟨?_, by simpa using hne, by simpa using hand⟩
      simpa using hor
  · rw [brxGroups_pcs]
    exact nodup_eraseDups _ _ le_rfl
  · have hu := (congrArg (fun m : BitVec 4 => m.getLsbD i) (brxGroups_union (act := act) (pcOf := pcOf))).trans ha
    rw [getLsbD_foldl_or, getLsbD_none, Bool.false_or, List.any_map, List.any_eq_true] at hu
    obtain ⟨g, hg, hb⟩ := hu
    have := (mem_brxGroups.mp hg).2 i hi
    rw [Function.comp_apply, this, Bool.and_eq_true, decide_eq_true_eq] at hb
    exact ⟨g, hg, by rw [this, hb.1, hb.2]; simp, hb.2.symm⟩

/-- Settles O32: a diverged slice runs both sides and has its lanes back, and a branch's groups share out the active lanes. -/
theorem reconvergence : Obligations.Reconvergence := ⟨divergedSliceReconverges, branchGroupsPartitionLanes⟩

/-! ## Calls and returns (R159, R160) -/

section Calls

variable {s : State} {k : GCtx} (c : Ctl) (hg : gangOf s s.cur = some k)
include hg

theorem execCall_full {i : Nat} (h : fullSlice k = some i) (off : BitVec 32) :
    execCall c off s = .next (takeFault s s.cur (raise .maskStack (some (sliceLow k.wp i)))) := by
  rw [execCall, onGang_gang hg, h]

theorem execCallx_full {i : Nat} (h : fullSlice k = some i) (a : Src) :
    execCallx c a s = .next (takeFault s s.cur (raise .maskStack (some (sliceLow k.wp i)))) := by
  rw [execCallx, onGang_gang hg, h]

theorem execCall_room (h : fullSlice k = none) (off : BitVec 32) :
    execCall c off s = .next (callTo s k (k.g.pc + off)) := by
  rw [execCall, onGang_gang hg, h]

theorem execCallx_room (h : fullSlice k = none) {a : Src} {t : Word} (ha : readUni k (activeLanes k.wp k.g) a = .ok t) :
    execCallx c a s = .next (callTo s k t) := by
  rw [execCallx, onGang_gang hg, h, ha]
  rfl

end Calls

theorem callsReturn : CallsReturn := by
  intro s k c hg
  refine ⟨fun hroom => ?_, fun i hi off a => ⟨execCall_full c hg hi off, execCallx_full c hg hi a⟩, fun hret => ?_, fun i hi => ?_⟩
  · have hnone : fullSlice k = none := List.find?_eq_none.mpr fun i hi => by simpa using hroom i hi
    exact ⟨execCall_room c hg hnone, fun a t => execCallx_room c hg hnone⟩
  · have hnone : (slicesOf k.g).find? (fun i => !((sliceAt k.wp i).stack.any fun e => e.kind = .ret)) = none :=
      List.find?_eq_none.mpr fun i hi => by simpa using hret i hi
    change execRet c s = _
    rw [execRet, onGang_gang hg, hnone]
  · change execRet c s = _
    rw [execRet, onGang_gang hg, hi]

/-! ## Unwinding (R160, R162) -/

theorem unwind_cons {e : MEntry} {st : List MEntry} (h : e.mask ≠ 0) : unwind (e :: st) = some (e, st) := if_neg h

/-- A stack without lanes unwinds to nothing. -/
theorem unwind_eq_none {st : List MEntry} (h : ∀ e ∈ st, e.mask = 0) : unwind st = none := by
  induction st with
  | nil => rfl
  | cons e st ih =>
    rw [unwind, if_pos (h e List.mem_cons_self)]
    exact ih fun x hx => h x (List.mem_cons_of_mem _ hx)

/-- What a stack unwinds to is among its entries. -/
theorem unwind_mem {st r : List MEntry} {e : MEntry} (h : unwind st = some (e, r)) : e ∈ st ∧ ∀ x ∈ r, x ∈ st := by
  induction st with
  | nil => cases h
  | cons a st ih =>
    rw [unwind] at h
    split at h
    · obtain ⟨h1, h2⟩ := ih h
      exact ⟨List.mem_cons_of_mem _ h1, fun x hx => List.mem_cons_of_mem _ (h2 x hx)⟩
    · cases h
      exact ⟨List.mem_cons_self, fun x hx => List.mem_cons_of_mem _ hx⟩

theorem and_not_and : ∀ a g : BitVec 4, a &&& ~~~g &&& g = 0 := by decide

/-- Lanes that a slice's stack does not hold are not in it once it has unwound. -/
theorem unwindSlice_without {sl : Slice} {gone : BitVec 4} (h : ∀ e ∈ sl.stack, e.mask &&& gone = 0) :
    (unwindSlice sl).1.active &&& gone = 0 ∧ ∀ e ∈ (unwindSlice sl).1.stack, e.mask &&& gone = 0 := by
  unfold unwindSlice
  split
  next e r hu =>
    obtain ⟨h1, h2⟩ := unwind_mem hu
    exact ⟨h e h1, fun x hx => h x (h2 x hx)⟩
  next => exact ⟨BitVec.zero_and, by simp⟩

theorem exitSlice_without (gone : BitVec 4) (next : Word) (sl : Slice) :
    (exitSlice gone next sl).1.active &&& gone = 0 ∧ ∀ e ∈ (exitSlice gone next sl).1.stack, e.mask &&& gone = 0 := by
  have hstack : ∀ e ∈ sl.stack.map (fun e => { e with mask := e.mask &&& ~~~gone }), e.mask &&& gone = 0 := by
    intro e he
    obtain ⟨x, -, rfl⟩ := List.mem_map.mp he
    exact and_not_and x.mask gone
  unfold exitSlice
  dsimp only
  split
  · exact unwindSlice_without hstack
  · exact ⟨and_not_and sl.active gone, hstack⟩

theorem returnAndExitUnwind : ReturnAndExitUnwind := by
  refine ⟨fun sl pc ha => ?_, fun sl h => ?_, exitSlice_without, fun gone next sl h => ?_, fun s k c m hi => onLanes_ok hi rfl⟩
  · have hd : dropAbove sl.active ({ kind := .ret, mask := sl.active, resume := pc, rpc := 0 } :: sl.stack) =
        { kind := .ret, mask := sl.active, resume := pc, rpc := 0 } :: sl.stack := if_pos rfl
    rw [hd, unwindSlice, unwind_cons ha]
  · simp only [unwindSlice, unwind_eq_none h]
  · rw [exitSlice, if_neg h]
    exact ⟨rfl, rfl⟩

/-- Settles O33: a call's RETURN entry is what a return finds, and lanes that exit leave every entry. -/
theorem callsReturnsAndExits : Obligations.CallsReturnsAndExits := ⟨callsReturn, returnAndExitUnwind⟩

end Sys2Proof.Machine

/-! # Version transfers (R164, R165, R408 to R411) -/

namespace Sys2Proof.Machine

open Sys2Proof Sys2Proof.Claims

/-! ## Requests (R164, R165) -/

section Safe

variable {s : State} {k : GCtx} (c : Ctl) {n : BitVec 13} {v : BitVec 16} (hg : gangOf s s.cur = some k)
include hg

theorem execSafe_without_request (h : k.wp.xferReq = none) : execSafe c n s = .next (advance s k) := by
  rw [execSafe, onGang_gang hg, h]

variable (hv : k.wp.xferReq = some v) (hin : k.g.inHandler = false) (hn : k.wp.safeN = none ∨ k.wp.safeN = some n)
include hv hin hn

/-- A SAFE that the request concerns waits where a map begins, and else withdraws it. -/
theorem execSafe_with_request : execSafe c n s = .next (if (mapFor s k.blk.ctx k.wp n.toNat v.toNat).isNone then
      modWarp (takeFault s s.cur (raise .transferNoMap (some (lowActive k.wp k.g)))) k.b k.w withdraw
    else modGangW (modWarp s k.b k.w fun wp => { wp with safeN := some n }) k.b k.w k.g.gid fun g => { g with wait := .safe n }) := by
  have hother : (k.wp.safeN.isSome && k.wp.safeN != some n) = false := by
    rcases hn with h | h <;> simp [h]
  rw [execSafe, onGang_gang hg, hv]
  simp only [hin, hother, Bool.false_eq_true, if_false]
  split
  next t ht =>
    split at ht <;> cases ht
    next h => rw [if_pos h]
    next h => rw [if_neg h]
  next e he => split at he <;> cases he

end Safe

section Xfer

variable {s : State} {k : GCtx} {c : Ctl} {m : LaneMask} {a : Src} {v : Word} (hi : Issues s k c m)
  (ha : readUni k m a = .ok v)
include hi ha

theorem execXfer_loaded (hlt : v.toNat < 65536) (bk : Bool) (h : (loadedAs s k.blk.ctx k.wp.dirIdx v.toNat).isSome) : execXfer c a bk s =
    .next (advance (if bk then modBlock s k.b fun blk => { blk with warps := blk.warps.map (requestXfer (v.setWidth 16)) }
      else modWarp s k.b k.w (requestXfer (v.setWidth 16))) k) := by
  obtain ⟨e, he⟩ := Option.isSome_iff_exists.mp h
  refine onLanes_ok hi ?_
  simp only [ha, he, bind, Except.bind]
  rw [if_neg (by simp [hlt])]
  rfl

theorem execXfer_not_loaded (bk : Bool) (h : loadedAs s k.blk.ctx k.wp.dirIdx v.toNat = none) : execXfer c a bk s =
    .next (takeFault s s.cur (raise .transferNoMap (some (lowLane m)))) := by
  refine onLanes_error hi ?_
  simp only [ha, h, bind, Except.bind]
  rw [if_pos (by simp)]

end Xfer

theorem requestXfer_cases (x : BitVec 16) (wp : Warp) :
    (wp.drainAt.isSome = true → requestXfer x wp = { wp with xferNext := some x }) ∧
    (wp.drainAt = none → wp.version ≠ x → requestXfer x wp = { wp with xferReq := some x }) ∧
    (wp.drainAt = none → wp.version = x → wp.xferReq.isSome = true → requestXfer x wp = withdraw wp) := by
  refine ⟨fun h => if_pos h, fun h hx => ?_, fun h hx hr => ?_⟩
  · rw [requestXfer, h, if_neg (by simp), if_neg hx]
  · rw [requestXfer, h, if_neg (by simp), if_pos hx, if_pos hr]

theorem transferRequests : TransferRequests := by
  intro s k c hg
  refine ⟨fun n h => execSafe_without_request c hg h, fun n v hv hin hn => ⟨fun mp hmp => ?_, fun hmp => ?_⟩,
    fun m a v hi ha => ⟨fun hlt e he => ⟨?_, ?_⟩, requestXfer_cases, fun hlt h bk => execXfer_not_loaded hi ha bk h⟩⟩
  · refine (execSafe_with_request c hg hv hin hn).trans ?_
    rw [hmp]
    rfl
  · refine (execSafe_with_request c hg hv hin hn).trans ?_
    rw [hmp]
    rfl
  · exact execXfer_loaded hi ha hlt false (by rw [he]; rfl)
  · exact execXfer_loaded hi ha hlt true (by rw [he]; rfl)

/-! ## The transfer (R408 to R410) -/

/-- Where no gang of a warp waits at REGANG there is nothing to merge. -/
theorem regangAll_of_none {s : State} {b w : Nat} {blk : Block} {wp : Warp} (hb : s.blocks[b]? = some blk)
    (hw : blk.warps[w]? = some wp) (h : ∀ g ∈ wp.gangs, (regangMask g).isSome = false) : regangAll s b w = s := by
  have hat := warpAt_of_getElem? hb hw
  have hplaces : regangPlaces s b w = s := by
    have hf : wp.gangs.filter (fun g => (regangMask g).isSome) = [] :=
      List.filter_eq_nil_iff.mpr fun g hg => by simp [h g hg]
    simp only [regangPlaces, hat, hf]
    rfl
  rw [regangAll, hplaces]
  simp only [regangDead, hat]
  rw [if_pos]
  cases hgs : wp.gangs with
  | nil => rfl
  | cons g gs => simp [h g (hgs ▸ List.mem_cons_self)]

/-- A gang that stood at a SAFE waits at no REGANG where it lands. -/
theorem regangMask_landGang {rp : List (Word × Word)} {land : Word} {recomp : List Word} {g : Gang} {n : BitVec 13}
    (h : g.wait = .safe n) : regangMask (landGang rp land recomp g) = none := by
  unfold landGang
  rw [h]
  cases recomp <;> rfl

theorem transferWarp_gangs {s : State} {ctx : Fin 64} {blk : Block} {wp : Warp} {m : MapHdr} {di : Nat} {n : BitVec 13}
    (h : ∀ g ∈ wp.gangs, g.wait = .safe n) : ∀ g ∈ (transferWarp s ctx blk wp m di).gangs, (regangMask g).isSome = false := by
  intro g hg
  unfold transferWarp at hg
  obtain ⟨f, hf⟩ := settle_gangs _
  rw [hf] at hg
  obtain ⟨x, hx, rfl⟩ := List.mem_map.mp hg
  obtain ⟨y, hy, rfl⟩ := List.mem_map.mp hx
  exact congrArg Option.isSome (regangMask_landGang (h y hy))

theorem settle_regs (wp : Warp) : (settle wp).regs = wp.regs := rfl
theorem settle_preds (wp : Warp) : (settle wp).preds = wp.preds := rfl
theorem settle_slices (wp : Warp) : (settle wp).slices = wp.slices := rfl
theorem settle_version (wp : Warp) : (settle wp).version = wp.version := rfl
theorem settle_xferReq (wp : Warp) : (settle wp).xferReq = wp.xferReq := rfl

section Image

variable (s : State) (ctx : Fin 64) (blk : Block) (wp : Warp) (m : MapHdr) (di : Nat)

theorem transferWarp_regs : (transferWarp s ctx blk wp m di).regs =
    recRegs s blk wp ((MapHdr.records s ctx m).filter (recKind · != 3)) := by rw [transferWarp, settle_regs]
theorem transferWarp_preds : (transferWarp s ctx blk wp m di).preds = wp.preds := by rw [transferWarp, settle_preds]
theorem transferWarp_slices : (transferWarp s ctx blk wp m di).slices =
    wp.slices.map fun sl => { sl with stack := sl.stack.map (mapEntry (MapHdr.maskPairs s ctx m)) } := by
  rw [transferWarp, settle_slices]
theorem transferWarp_version : (transferWarp s ctx blk wp m di).version = BitVec.ofNat 16 m.dest := by
  rw [transferWarp, settle_version]
theorem transferWarp_xferReq : (transferWarp s ctx blk wp m di).xferReq = laterReq (BitVec.ofNat 16 m.dest) wp := by
  rw [transferWarp, settle_xferReq]

end Image

/-- A register that no record names is 0 after the recipes. -/
theorem recRegs_unnamed {s : State} {blk : Block} {wp : Warp} {rs : List Nat} {i : Fin 256} (h : ∀ r ∈ rs, bitsOf r 0 8 ≠ i.val) :
    (recRegs s blk wp rs)[i] = VReg.zero := by
  have hnone : rs.find? (fun r => decide (bitsOf r 0 8 = i.val)) = none := List.find?_eq_none.mpr fun r hr => by simpa using h r hr
  have hget : (recRegs s blk wp rs)[i] = match rs.find? (fun r => decide (bitsOf r 0 8 = i.val)) with
      | some r => recValue s blk wp r
      | none => VReg.zero := Vector.getElem_ofFn i.isLt
  rw [hget, hnone]

section Transfer

variable {s : State} {b w : Nat} {blk : Block} {wp : Warp} {v : BitVec 16} {n : BitVec 13} {mp : MapHdr} {di : Nat} {e : DirEnt}
  (hb : s.blocks[b]? = some blk) (hw : blk.warps[w]? = some wp) (hv : wp.xferReq = some v) (hn : wp.safeN = some n)
  (hmp : mapFor s blk.ctx wp n.toNat v.toNat = some mp) (hld : loadedAs s blk.ctx wp.dirIdx v.toNat = some (di, e))
  (hall : ∀ g ∈ wp.gangs, g.wait = .safe n)

include hall in
theorem all_standsAt (rp : List (Word × Word)) : wp.gangs.all (standsAt rp n) = true :=
  List.all_eq_true.mpr fun g hg => by simp [standsAt, hall g hg]

include hv hn hmp hall in
/-- As the last gang comes to stand the block's issued counts are noted. -/
theorem noteStop_drainAt (h : wp.drainAt = none) :
    (noteStop s blk wp).drainAt = some ((List.finRange 4).map fun k => blk.ctxs[k].issued) := by
  simp only [noteStop, hv, hn, h, hmp, all_standsAt hall, if_true]

/-- The counts that a transfer's DRAIN values are held against. -/
def drainCounts (blk : Block) (wp : Warp) : List Nat := wp.drainAt.getD ((List.finRange 4).map fun k => blk.ctxs[k].issued)

/-- The addresses that a map's SPAN records read. -/
def spanReads (s : State) (blk : Block) (wp : Warp) (mp : MapHdr) : List Nat :=
  ((MapHdr.records s blk.ctx mp).filter (recKind · = 4)).flatMap fun r => spanAddrs blk wp (bitsOf r 32 32)

include hb hw hv hn hmp hld hall in
/-- VERSION_TRANSFER with every gang at its SAFE: the checks, one after the other. -/
theorem execVersionTransfer_standing : execVersionTransfer b w s =
    if (!drained blk mp (drainCounts blk wp) || !wp.pend.isEmpty) = true then
      .next (modWarp s b w fun x => { x with drainAt := some (drainCounts blk wp) })
    else if (!(wp.slices.toList.all fun sl => sl.stack.all (entryMapped (MapHdr.maskPairs s blk.ctx mp)))) = true then
      .next (failTransfer s b w wp .transferNoMap 1)
    else
      match (spanReads s blk wp mp).find? fun va => !spanReadable s blk.ctx va with
      | some va => .next (failTransfer s b w wp .spanProtection 0 va)
      | none =>
        if linesHeld (transferWarp s blk.ctx blk wp mp di) > wp.gmax then .next (failTransfer s b w wp .regpool 0)
        else if ((spanReads s blk wp mp).any fun va => sliceHeld s (va - Config.spanBase)) = true then
          .next (modWarp s b w fun x => { x with drainAt := some (drainCounts blk wp) })
        else .next (regangAll (modWarp (modWarp s b w fun x => { x with drainAt := some (drainCounts blk wp) }) b w
          fun _ => transferWarp s blk.ctx blk wp mp di) b w) := by
  simp only [execVersionTransfer, hb, hw, hv, hn, hmp, hld, all_standsAt hall, Bool.not_true, Bool.false_eq_true, if_false] <;> rfl

include hw hall in
/-- The warp that a transfer leaves is its image in the other version. -/
theorem transferred (hb : s.blocks[b]? = some blk) :
    let t := regangAll (modWarp (modWarp s b w fun x => { x with drainAt := some (drainCounts blk wp) }) b w
      fun _ => transferWarp s blk.ctx blk wp mp di) b w
    SameStores s t ∧ ∃ blk', t.blocks[b]? = some blk' ∧ blk'.warps[w]? = some (transferWarp s blk.ctx blk wp mp di) := by
  have hblk : (modWarp s b w fun _ => transferWarp s blk.ctx blk wp mp di).blocks[b]? =
      some { blk with warps := blk.warps.modify w fun _ => transferWarp s blk.ctx blk wp mp di } := by
    rw [modWarp, modBlock_get, if_pos rfl, hb, Option.map_some]
  have hwp : (blk.warps.modify w fun _ => transferWarp s blk.ctx blk wp mp di)[w]? =
      some (transferWarp s blk.ctx blk wp mp di) := by simp [hw]
  intro t
  have ht : t = modWarp s b w fun _ => transferWarp s blk.ctx blk wp mp di := by
    change regangAll (modWarp (modWarp _ _ _ _) _ _ _) b w = _
    rw [modWarp_modWarp]
    exact regangAll_of_none hblk hwp (transferWarp_gangs hall)
  rw [ht]
  exact ⟨fun a => ⟨rfl, rfl, rfl⟩, _, hblk, hwp⟩

end Transfer

theorem versionTransferMovesTheWarp : VersionTransferMovesTheWarp := by
  intro s b w blk wp v n mp di e at_ spans hb hw hv hn hmp hld hall hat hspans
  change at_ = drainCounts blk wp at hat
  change spans = spanReads s blk wp mp at hspans
  subst hat hspans
  have hexec : exec (.versionTransfer b w) s = _ := execVersionTransfer_standing hb hw hv hn hmp hld hall
  have hgo : wp.pend = [] → drained blk mp (drainCounts blk wp) = true →
      ¬ (!drained blk mp (drainCounts blk wp) || !wp.pend.isEmpty) = true := fun hp hd => by simp [hp, hd]
  have hmapped : (∀ sl ∈ wp.slices.toList, ∀ x ∈ sl.stack, entryMapped (MapHdr.maskPairs s blk.ctx mp) x = true) →
      ¬ (!(wp.slices.toList.all fun sl => sl.stack.all (entryMapped (MapHdr.maskPairs s blk.ctx mp)))) = true := fun h => by
    rw [Bool.not_eq_true', Bool.not_eq_false]
    exact List.all_eq_true.mpr fun sl hsl => List.all_eq_true.mpr fun x hx => h sl hsl x hx
  have hread : (∀ va ∈ spanReads s blk wp mp, spanReadable s blk.ctx va = true) →
      (spanReads s blk wp mp).find? (fun va => !spanReadable s blk.ctx va) = none := fun h =>
    List.find?_eq_none.mpr fun va hva => by simp [h va hva]
  refine ⟨noteStop_drainAt hv hn hmp hall, fun h => ?_, fun hp hd hbad => ?_, fun hp hd hmap => ⟨fun va hva => ?_,
    fun hok hlines hheld => ?_⟩, fun hp hd hmap hok hlines => ?_⟩
  · rw [hexec, if_pos]
    rcases h with h | h <;> simp [h]
  · obtain ⟨sl, hsl, x, hx, hm⟩ := hbad
    rw [hexec, if_neg (hgo hp hd), if_pos]
    rw [Bool.not_eq_true', List.all_eq_false]
    exact ⟨sl, hsl, by simpa using ⟨x, hx, hm⟩⟩
  · rw [hexec, if_neg (hgo hp hd), if_neg (hmapped hmap), hva]
  · rw [hexec, if_neg (hgo hp hd), if_neg (hmapped hmap), hread hok]
    simp only [gt_iff_lt, if_neg (Nat.not_lt.mpr hlines)]
    rw [if_pos (by simpa using hheld)]
  · obtain ⟨hst, blk', hblk', hwp'⟩ := transferred (mp := mp) (di := di) hw hall hb
    refine ⟨_, ?_, hst, blk', _, hblk', hwp', rfl, transferWarp_preds .., transferWarp_version .., fun hnext => ?_, fun i hi => ?_, fun k => ?_⟩
    · rw [hexec, if_neg (hgo hp hd), if_neg (hmapped hmap), hread fun va hva => (hok va hva).1]
      simp only [gt_iff_lt, if_neg (Nat.not_lt.mpr hlines)]
      rw [if_neg (by simpa using fun va hva => (hok va hva).2)]
    · rw [transferWarp_xferReq, laterReq, hnext]
      rfl
    · rw [transferWarp_regs]
      exact recRegs_unnamed fun r hr => hi r (List.mem_filter.mp hr).1
    · simp only [transferWarp_slices, Fin.getElem_fin, Vector.getElem_map, and_self]

/-- Settles O34: a request waits for its SAFE, and the checks of a transfer come one after the other before the warp moves. -/
theorem versionTransfers : Obligations.VersionTransfers := ⟨transferRequests, versionTransferMovesTheWarp⟩

end Sys2Proof.Machine

/-! # The helm (R209, R215, R216, R223 to R233) -/

namespace Sys2Proof.Machine

open Sys2Proof Sys2Proof.Claims

variable {s : State} {k : HCtx} {c : Ctl}

theorem onHelmC_ok {f : HCtx → Except Raise State} {t : State} (hi : HelmIssues s k c) (h : f k = .ok t) :
    onHelmC s c f = .next t := by
  rw [onHelmC_issues hi, h]

theorem onHelmC_error {f : HCtx → Except Raise State} {r : Raise} (hi : HelmIssues s k c) (h : f k = .error r) :
    onHelmC s c f = .next (takeFault s s.cur r) := by
  rw [onHelmC_issues hi, h]

theorem onHelmC_skips {f : HCtx → Except Raise State} (hk : helmOf s s.cur = some k) (hg : helmGuard k c = false) :
    onHelmC s c f = .next (advanceHelm s k.b) := by
  rw [onHelmC, onHelm_helm hk, hg]
  rfl

theorem readS_ok {n : Fin 64} (h : k.blk.helm.poison[n] = false) : readS k n = .ok k.blk.helm.s[n] := by
  rw [readS, if_neg (by rw [h]; exact Bool.false_ne_true)]

theorem readS_poisoned {n : Fin 64} (h : k.blk.helm.poison[n] = true) : readS k n = .error (raise .uncorrectable none) :=
  if_pos h

/-! ## Arithmetic (R225) -/

section
variable {d : Fin 64} {a b : HSrc} {x y : Word64}

theorem helmBin_ok (f : Word64 → Word64 → Word64) (hi : HelmIssues s k c) (ha : readH k a = .ok x) (hb : readH k b = .ok y) :
    helmBin s c d a b f = .next (putS s k d (f x y)) :=
  onHelmC_ok hi (by rw [ha, hb]; rfl)

theorem helmLogic_s (f : Word64 → Word64 → Word64) (hi : HelmIssues s k c) (ha : readH k a = .ok x) (hb : readH k b = .ok y) :
    helmLogic s c (.s d) a b f = .next (putS s k d (f x y)) :=
  onHelmC_ok hi (by rw [ha, hb]; rfl)

theorem helmLogic_q (f : Word64 → Word64 → Word64) {q : Fin 8} (hi : HelmIssues s k c) (ha : readH k a = .ok x)
    (hb : readH k b = .ok y) : helmLogic s c (.q q) a b f = .next (putQ s k q (f x y != 0)) :=
  onHelmC_ok hi (by rw [ha, hb]; rfl)

end

/-- An instruction of two sources gives its function of them, written as the model has it. -/
theorem hGives2_of_helmBin {i : Ctl → Fin 64 → HSrc → HSrc → Instr} {f g : Word64 → Word64 → Word64}
    (hexec : ∀ c d a b s, exec (i c d a b) s = helmBin s c d a b g) (hfg : ∀ x y, g x y = f x y) : HGives2 i f := by
  intro s k c d a b x y hk ha hb
  refine ⟨fun hg => ?_, fun hg => ?_⟩
  · rw [hexec, helmBin_ok g ⟨hk, hg⟩ ha hb, hfg]
    rfl
  · rw [hexec, helmBin, onHelmC_skips hk hg]
    rfl

theorem hGivesQ_of_helmLogic {i : Ctl → HDst → HSrc → HSrc → Instr} {f : Word64 → Word64 → Word64}
    (hexec : ∀ c d a b s, exec (i c d a b) s = helmLogic s c d a b f) : HGivesQ i f := by
  intro s k c a b x y hi ha hb
  refine ⟨fun n => ?_, fun n => ?_⟩
  · rw [hexec, helmLogic_s f hi ha hb]
    rfl
  · rw [hexec, helmLogic_q f hi ha hb]
    rfl

/-- A shift by 64 or more leaves nothing of a word but its sign. -/
theorem shiftLeft_word64 (x y : Word64) : (if y.toNat < 64 then x <<< y.toNat else 0) = x <<< y.toNat := by
  split
  · rfl
  · exact (BitVec.shiftLeft_eq_zero (by omega)).symm

theorem shiftRight_word64 (x y : Word64) : (if y.toNat < 64 then x >>> y.toNat else 0) = x >>> y.toNat := by
  split
  · rfl
  · exact (BitVec.ushiftRight_eq_zero (by omega)).symm

theorem sshiftRight_word64 (x y : Word64) : x.sshiftRight (min y.toNat 64) = x.sshiftRight y.toNat := by
  by_cases h : y.toNat ≤ 64
  · rw [Nat.min_eq_left h]
  · refine BitVec.eq_of_getLsbD_eq fun i hi => ?_
    rw [BitVec.getLsbD_sshiftRight, BitVec.getLsbD_sshiftRight, if_neg (by omega), if_neg (by omega)]

theorem helmArithmetic : HelmArithmetic := by
  refine ⟨hGives2_of_helmBin (fun _ _ _ _ _ => rfl) fun _ _ => rfl, hGives2_of_helmBin (fun _ _ _ _ _ => rfl) fun _ _ => rfl,
    hGives2_of_helmBin (fun _ _ _ _ _ => rfl) fun _ _ => rfl, hGivesQ_of_helmLogic fun _ _ _ _ _ => rfl,
    hGivesQ_of_helmLogic fun _ _ _ _ _ => rfl, hGivesQ_of_helmLogic fun _ _ _ _ _ => rfl,
    hGives2_of_helmBin (fun _ _ _ _ _ => rfl) shiftLeft_word64, hGives2_of_helmBin (fun _ _ _ _ _ => rfl) shiftRight_word64,
    hGives2_of_helmBin (fun _ _ _ _ _ => rfl) sshiftRight_word64, hGives2_of_helmBin (fun _ _ _ _ _ => rfl) fun x y => ?_,
    hGives2_of_helmBin (fun _ _ _ _ _ => rfl) fun x y => ?_, hGives2_of_helmBin (fun _ _ _ _ _ => rfl) fun x y => ?_,
    hGives2_of_helmBin (fun _ _ _ _ _ => rfl) fun x y => ?_⟩
  all_goals simp [BitVec.le_def]

/-! ## Moves, compares, branches and calls (R226, R229, R230) -/

theorem helmMovesAndCompares : HelmMovesAndCompares := by
  intro s k c hi
  refine ⟨fun q a b cmp u x y ha hb => onHelmC_ok hi (by rw [ha, hb]; rfl),
    fun d a b q x y ha hb => onHelmC_ok hi (by rw [ha, hb]; rfl),
    fun n q a x ha => ⟨onHelmC_ok hi (by rw [ha]; rfl), onHelmC_ok hi (by rw [ha]; rfl)⟩,
    fun d imm => onHelmC_ok hi rfl, fun d imm hd => onHelmC_ok hi (by rw [readS_ok hd]; rfl), fun n d b hn => ⟨?_, ?_⟩⟩
  · exact onHelmC_error hi (by rw [readH, readS_poisoned hn]; rfl)
  · exact onHelmC_error hi (by rw [readS_poisoned hn]; rfl)

theorem helmBranchesAndCalls : HelmBranchesAndCalls := by
  intro s k c hi
  refine ⟨fun off => onHelmC_ok hi rfl, fun a x ha => onHelmC_ok hi (by rw [ha]; rfl),
    fun off => ⟨fun h => onHelmC_ok hi (if_neg (by omega)), fun h => onHelmC_error hi (if_pos h)⟩,
    fun p r h => onHelmC_ok hi (by rw [h]), fun h => onHelmC_error hi (by rw [h])⟩

/-- Settles O39: each instruction's meaning run by the helm that issues it. -/
theorem helmInstructions : Obligations.HelmInstructions := ⟨helmArithmetic, helmMovesAndCompares, helmBranchesAndCalls⟩

/-! ## FORK, JOIN and HEND (R215, R216, R232, R233) -/

/-- FORK starts its stream where no register is poisoned and the word at its entry is of the stream's kind (R232). -/
theorem forkNow_ok {ctx : Fin 4} {entry : Word} (hp : ∀ n : Fin 64, k.blk.helm.poison[n] = false)
    (hw : ∀ w, fetchWord s k.blk.core k.blk.ctx k.blk.helmDir entry = .ok w →
      wrongFor (if ctx = 0 then .matrix else .copy) w = false) :
    forkNow s k ctx entry =
      .ok (modEng s k.b ctx fun e => { e with stream := some (newStream k.blk.helm entry), forked := true }) := by
  have hpo : ((List.finRange 64).any fun n => k.blk.helm.poison[n]) = false :=
    List.any_eq_false.2 fun n _ => by rw [hp n]; exact Bool.false_ne_true
  unfold forkNow
  cases hf : fetchWord s k.blk.core k.blk.ctx k.blk.helmDir entry with
  | ok w => simp only [hw w hf, hpo, Bool.false_eq_true, if_false]
  | error e => simp only [hpo, Bool.false_eq_true, if_false]

/-- Settles O36: the meanings of FORK, JOIN and HEND, and of the events that end their waits, on each state of the stream. -/
theorem forkJoinAndHelmEnd : Obligations.ForkJoinAndHelmEnd := by
  refine ⟨fun s k c ctx hi => ⟨fun e x he hr => ?_, fun e x he hr hp hw => ⟨?_, rfl⟩, fun hj => ?_, fun hj => ?_, fun hp => ?_,
    fun p r hp => ?_⟩, fun s b blk ctx hb => ⟨fun e t hw hr ht => ?_, fun e hw hr => ?_, fun hw hj => ?_, fun hw hj => ?_⟩⟩
  · exact onHelmC_ok hi (by simp only [he, bind, Except.bind, hr, if_true]; rfl)
  · exact onHelmC_ok hi (by
      simp only [he, bind, Except.bind, hr, Bool.false_eq_true, if_false, forkNow_ok hp hw]; rfl)
  · exact onHelmC_ok hi (if_pos hj)
  · exact onHelmC_ok hi (if_neg (by rw [hj]; exact Bool.false_ne_true))
  · exact onHelmC_ok hi (by rw [hp])
  · exact onHelmC_ok hi (by rw [hp])
  · change execForkStart b s = _
    simp only [execForkStart, hb, hw, hr, ht, Bool.false_eq_true, if_false]
  · change execForkStart b s = _
    simp only [execForkStart, hb, hw, hr, if_true]
  · change execJoinComplete b s = _
    simp only [execJoinComplete, hb, hw, hj, if_true] <;> rfl
  · change execJoinComplete b s = _
    simp only [execJoinComplete, hb, hw, hj, Bool.false_eq_true, if_false]

/-! ## Memory (R227, R228) -/

theorem helmReached_storesEq (s : State) (k : HCtx) (f : AccForm) (size : Size) (a : LaneAcc) :
    StoresEq s (helmReached s k f size a) := by
  unfold helmReached
  rw [touchAll_frame]
  exact ⟨rfl, rfl, rfl⟩

theorem helmReached_fabOps (s : State) (k : HCtx) (f : AccForm) (size : Size) (a : LaneAcc) :
    (helmReached s k f size a).fabOps = s.fabOps := by
  unfold helmReached
  rw [touchAll_frame]
  rfl

section
variable {f : AccForm} {size : Size} {ea : Int} {ch : Checked} {go : State → LaneAcc → Except Raise State}

/-- A helm's access that passes its check and that nothing holds goes on. -/
theorem helmAcc_go (hc : checkAcc s (some k.blk.core) k.blk.ctx f false size ea = .ok ch) (hh : ch.held = false)
    (hm : (ch.acc.mig && mmuFull s k.blk.core) = false) :
    helmAcc s k f size ea go = go (helmReached s k f size ch.acc) ch.acc := by
  simp only [helmAcc, hc, hh, hm, Bool.or_self, Bool.false_eq_true, if_false] <;> rfl

/-- One that a migration or a copy holds waits, with its helm (R385). -/
theorem helmAcc_held (hc : checkAcc s (some k.blk.core) k.blk.ctx f false size ea = .ok ch)
    (hh : (ch.held || (ch.acc.mig && mmuFull s k.blk.core)) = true) : helmAcc s k f size ea go =
      .ok (holdFor (modHelm s k.b fun h => { h with wait := .mig k.blk.ctx.val (pageBase ch.acc.ea) }) k.blk.ctx.val
        (pageBase ch.acc.ea) (.party (.helm k.b))) := by
  simp only [helmAcc, hc, hh, if_true] <;> rfl

end

section
variable {a : Fin 64} {x : Word64} {size : Size} {ch : Checked}

/-- SLD of device memory or of the span: its load is pending, and the helm goes on. -/
theorem execSld_local (d : Fin 64) {off : BitVec 18} (ord : Order) (scope : Scope) (sx : Bool) (hi : HelmIssues s k c)
    (ha : readS k a = .ok x) (hh : ch.held = false) (hm : ch.acc.mig = false)
    (hc : checkAcc s (some k.blk.core) k.blk.ctx .watch false size ((x.toNat : Int) + off.toInt) = .ok ch)
    (hf : isFab ch.acc.loc = false) : execSld c d a off ord scope sx size s =
      let t := helmReached s k .watch size ch.acc
      .next (addHPend { t with nextId := t.nextId + 1 } k
        (helmPend t d ch.acc size sx none false (ord = .acq)) false) := by
  refine onHelmC_ok hi ?_
  simp only [ha, bind, Except.bind]
  rw [helmAcc_go hc hh (by rw [hm]; rfl)]
  simp only [hf, Bool.false_eq_true, if_false] <;> rfl

/-- SLD of fabric memory: the read is sent, and the helm waits. -/
theorem execSld_fabric (d : Fin 64) {off : BitVec 18} (ord : Order) (scope : Scope) (sx : Bool) (hi : HelmIssues s k c)
    (ha : readS k a = .ok x) (hh : ch.held = false) (hm : ch.acc.mig = false)
    (hc : checkAcc s (some k.blk.core) k.blk.ctx .watch false size ((x.toNat : Int) + off.toInt) = .ok ch)
    (hf : isFab ch.acc.loc = true) : execSld c d a off ord scope sx size s =
      let t := helmReached s k .watch size ch.acc
      .next (sendFab (addHPend { t with nextId := t.nextId + 1 } k
        (helmPend t d ch.acc size sx none false (ord = .acq)) true) ch.acc.loc (.read size.bytes) (.helmLoad k.b t.nextId)) := by
  refine onHelmC_ok hi ?_
  simp only [ha, bind, Except.bind]
  rw [helmAcc_go hc hh (by rw [hm]; rfl)]
  simp only [hf, if_true] <;> rfl

/-- SST whose access nothing holds: its bytes are written, or, on a migrating page, held apart. -/
theorem execSst_goes {b : HSrc} {y : Word64} {off : BitVec 18} (ord : Order) (scope : Scope) (hi : HelmIssues s k c)
    (ha : readS k a = .ok x) (hb : readH k b = .ok y) (hh : ch.held = false)
    (hm : (ch.acc.mig && mmuFull s k.blk.core) = false)
    (hc : checkAcc s (some k.blk.core) k.blk.ctx .st false size ((x.toNat : Int) + off.toInt) = .ok ch) :
    execSst c a b off ord scope size s =
      let t := helmReached s k .st size ch.acc
      let tag := (tagOf s s.cur).at ch.acc.ea
      let bytes := leBytes size.bytes y.toNat
      .next (advanceHelm (if ch.acc.mig then holdAcc t k.blk.ctx.val ch.acc.loc (.write bytes) (storeWhy tag) false ch.acc.ea
        else writeLoc t tag ch.acc.loc bytes) k.b) := by
  refine onHelmC_ok hi ?_
  simp only [ha, hb, bind, Except.bind]
  rw [helmAcc_go hc hh hm]

theorem execSst_held {b : HSrc} {y : Word64} {off : BitVec 18} (ord : Order) (scope : Scope) (hi : HelmIssues s k c)
    (ha : readS k a = .ok x) (hb : readH k b = .ok y) (hh : (ch.held || (ch.acc.mig && mmuFull s k.blk.core)) = true)
    (hc : checkAcc s (some k.blk.core) k.blk.ctx .st false size ((x.toNat : Int) + off.toInt) = .ok ch) :
    execSst c a b off ord scope size s =
      .next (holdFor (modHelm s k.b fun h => { h with wait := .mig k.blk.ctx.val (pageBase ch.acc.ea) }) k.blk.ctx.val
        (pageBase ch.acc.ea) (.party (.helm k.b))) := by
  refine onHelmC_ok hi ?_
  simp only [ha, hb, bind, Except.bind]
  rw [helmAcc_held hc hh]

/-- The entry that a SATOM leaves in its block's buffer (R142). -/
def satomEntry (k : HCtx) (op : AtomOp) (u : Bool) (ord : Order) (size : Size) (b1 b2 : Word64) (acc : LaneAcc) : BufAtom :=
  { warp := none, lane := 0, ea := acc.ea, loc := acc.loc, op := op, u := u, size := size, b1 := b1, b2 := b2
    pc := k.blk.helm.pc, acq := ord = .acq || ord = .ar, rel := ord = .rel || ord = .ar }

/-- What SATOM does once its access has passed its check and nothing holds it. -/
def satomGo (s : State) (k : HCtx) (d : Option (Fin 64)) (op : AtomOp) (u : Bool) (ord : Order) (scope : Scope) (size : Size)
    (b1 b2 : Word64) (t : State) (acc : LaneAcc) : State :=
  let tag := (tagOf s s.cur).at acc.ea
  let acq : Bool := ord = .acq || ord = .ar
  match d with
  | none =>
    if isDet s k.blk && narrow scope then
      advanceHelm (modBlock t k.b fun y => { y with buffer := y.buffer ++ [satomEntry k op u ord size b1 b2 acc] }) k.b
    else if isFab acc.loc then
      advanceHelm (sendFab t acc.loc (.atomic op u size b1 b2 false) (storeWhy tag) acq acc.ea) k.b
    else advanceHelm (rmw t tag acc.loc op u size b1 b2).1 k.b
  | some d =>
    let t0 := { t with nextId := t.nextId + 1 }
    let t1 :=
      if isFab acc.loc then
        sendFab (addHPend t0 k (helmPend t d acc size false none false acq) false) acc.loc (.atomic op u size b1 b2 true)
          (.helmLoad k.b t.nextId) false acc.ea
      else
        let r := rmw t0 tag acc.loc op u size b1 b2 true
        addHPend r.1 k (helmPend t d acc size false r.2 r.2.isNone acq) false
    if isDet s k.blk && !narrow scope then raiseFlags t1 k.b Flags.nondet else t1

/-- SATOM on a page that is not migrating (R228). -/
theorem execSatom_goes {d : Option (Fin 64)} {b : Fin 64} {op : AtomOp} (u : Bool) (ord : Order) (scope : Scope)
    {b1 b2 : Word64} (hi : HelmIssues s k c) (ha : readS k a = .ok x) (h1 : readS k b = .ok b1)
    (h2 : (if op = .cas then readS k (casReg b) else .ok 0) = .ok b2) (hh : ch.held = false) (hm : ch.acc.mig = false)
    (hc : checkAcc s (some k.blk.core) k.blk.ctx .atom false size x.toNat = .ok ch) :
    execSatom c d a b op u ord scope size s =
      .next (satomGo s k d op u ord scope size b1 b2 (helmReached s k .atom size ch.acc) ch.acc) := by
  refine onHelmC_ok hi ?_
  have hgo (go : State → LaneAcc → Except Raise State) := helmAcc_go (go := go) hc hh (by rw [hm]; rfl)
  simp only [ha, h1, bind, Except.bind]
  split at h2
  case' isTrue hcas => simp only [if_pos hcas, h2, hgo]
  case' isFalse hcas =>
    obtain rfl := Except.ok.inj h2
    simp only [if_neg hcas, pure, Except.pure, hgo]
  all_goals
    have hl : later ch.acc = isFab ch.acc.loc := by rw [later, hm, Bool.or_false]
    cases d with
    | none =>
      simp only [satomGo, sendAcc, hl, hm, Bool.and_false, Bool.false_eq_true, if_false]
      split
      · rfl
      · split <;> rfl
    | some d =>
      simp only [satomGo, sendAcc, hl, hm, Bool.false_eq_true, if_false]
      rfl

variable {b : Fin 64} {op : AtomOp} (u : Bool) (ord : Order) {scope : Scope} {b1 b2 : Word64}

section
variable (hi : HelmIssues s k c) (ha : readS k a = .ok x) (h1 : readS k b = .ok b1)
  (h2 : (if op = .cas then readS k (casReg b) else .ok 0) = .ok b2) (hh : ch.held = false) (hm : ch.acc.mig = false)
  (hc : checkAcc s (some k.blk.core) k.blk.ctx .atom false size x.toNat = .ok ch)
include hi ha h1 h2 hh hm hc

theorem execSatom_performs (hd : (isDet s k.blk && narrow scope) = false) (hf : isFab ch.acc.loc = false) :
    execSatom c none a b op u ord scope size s = .next (advanceHelm
      (rmw (helmReached s k .atom size ch.acc) ((tagOf s s.cur).at ch.acc.ea) ch.acc.loc op u size b1 b2).1 k.b) := by
  rw [execSatom_goes u ord scope hi ha h1 h2 hh hm hc]
  simp only [satomGo, hd, hf, Bool.false_eq_true, if_false]

theorem execSatom_sends (hd : (isDet s k.blk && narrow scope) = false) (hf : isFab ch.acc.loc = true) :
    execSatom c none a b op u ord scope size s = .next (advanceHelm (sendFab (helmReached s k .atom size ch.acc) ch.acc.loc
      (.atomic op u size b1 b2 false) (storeWhy ((tagOf s s.cur).at ch.acc.ea)) (ord = .acq || ord = .ar) ch.acc.ea) k.b) := by
  rw [execSatom_goes u ord scope hi ha h1 h2 hh hm hc]
  simp only [satomGo, hd, hf, Bool.false_eq_true, if_false, if_true]

theorem execSatom_buffers (hd : (isDet s k.blk && narrow scope) = true) : ∃ e : BufAtom, e.warp = none ∧ e.loc = ch.acc.loc ∧
    e.ea = ch.acc.ea ∧ e.op = op ∧ e.u = u ∧ e.size = size ∧ e.b1 = b1 ∧ e.b2 = b2 ∧ e.acq = (ord = .acq || ord = .ar) ∧
    e.rel = (ord = .rel || ord = .ar) ∧ execSatom c none a b op u ord scope size s = .next
      (advanceHelm (modBlock (helmReached s k .atom size ch.acc) k.b fun y => { y with buffer := y.buffer ++ [e] }) k.b) := by
  refine ⟨satomEntry k op u ord size b1 b2 ch.acc, rfl, rfl, rfl, rfl, rfl, rfl, rfl, rfl, rfl, rfl, ?_⟩
  rw [execSatom_goes u ord scope hi ha h1 h2 hh hm hc, satomGo, if_pos hd]

theorem execSatom_sends_returning (d : Fin 64) (hf : isFab ch.acc.loc = true) (hd : isDet s k.blk = false) :
    execSatom c (some d) a b op u ord scope size s =
      let t := helmReached s k .atom size ch.acc
      .next (sendFab (addHPend { t with nextId := t.nextId + 1 } k
        (helmPend t d ch.acc size false none false (ord = .acq || ord = .ar)) false) ch.acc.loc (.atomic op u size b1 b2 true)
        (.helmLoad k.b t.nextId) false ch.acc.ea) := by
  rw [execSatom_goes u ord scope hi ha h1 h2 hh hm hc]
  simp only [satomGo, hd, hf, Bool.false_and, Bool.false_eq_true, if_false, if_true]

theorem execSatom_returns (d : Fin 64) {t2 : State} {old : Option Word64} (hf : isFab ch.acc.loc = false)
    (hr : rmw { helmReached s k .atom size ch.acc with nextId := (helmReached s k .atom size ch.acc).nextId + 1 }
      ((tagOf s s.cur).at ch.acc.ea) ch.acc.loc op u size b1 b2 true = (t2, old)) (hd : isDet s k.blk = false) :
    execSatom c (some d) a b op u ord scope size s =
      .next (addHPend t2 k (helmPend (helmReached s k .atom size ch.acc) d ch.acc size false old old.isNone
        (ord = .acq || ord = .ar)) false) := by
  rw [execSatom_goes u ord scope hi ha h1 h2 hh hm hc]
  simp only [satomGo, hd, hf, hr, Bool.false_and, Bool.false_eq_true, if_false]

end

end

/-! ## HELM_LOAD_RETURN (R224, R227) -/

theorem block_of_pend {b id : Nat} {p : HPend} (h : ((s.blocks.zipIdx).findSome? fun x =>
    (x.1.helm.pend.find? (·.id = id)).map fun q => (x.2, q)) = some (b, p)) : ∃ blk, s.blocks[b]? = some blk := by
  obtain ⟨x, hx, hq⟩ := List.exists_of_findSome?_eq_some h
  obtain ⟨q, -, hq⟩ := Option.map_eq_some_iff.1 hq
  cases hq
  exact ⟨x.1, List.mem_zipIdx_iff_getElem?.1 hx⟩

/-- The helm once its pending result is written. -/
def helmReturned (p : HPend) (v : Word64) (bad : Bool) (h : Helm) : Helm :=
  { setS h p.d v with
    poison := (setS h p.d v).poison.set p.d bad
    pend := h.pend.filter (·.id != p.id)
    wd := if h.wait = .load p.id then 0 else h.wd
    wait := if h.wait = .load p.id then .none else h.wait }

/-- A pending result that is ready is written to its register, and its poison logged. -/
theorem execHelmLoadReturn_ready {b : Nat} {p : HPend} (h : ((s.blocks.zipIdx).findSome? fun x =>
      (x.1.helm.pend.find? (·.id = p.id)).map fun q => (x.2, q)) = some (b, p)) (hr : hpendReady p = true) :
    execHelmLoadReturn p.id s =
      .next (modHelm (if (hpendValue s p).2 && !p.failed then
        logPoison s p.acc.loc (((s.blocks[b]?).map (·.ctx.val)).getD 0) else s) b
        (helmReturned p (hpendValue s p).1 (hpendValue s p).2)) := by
  simp only [execHelmLoadReturn, h, hr, Bool.not_true, Bool.false_eq_true, if_false] <;> rfl

/-- A register poisoned or not by the last of two writes of its mark. -/
theorem set_set_bool (v : Vector Bool 64) (n : Fin 64) (x y : Bool) : (v.set n x).set n y = v.set n y := by
  ext i hi
  simp only [Vector.getElem_set]
  split <;> rfl

/-- An access held apart is one more fabric operation. -/
theorem holdAcc_fabOps (s : State) (ctx : Nat) (l : Loc) (f : FabKind) (why : FabFor) (acq : Bool) (va : Nat) :
    ∃ o : FabOp, (holdAcc s ctx l f why acq va).fabOps = s.fabOps ++ [o] ∧ o.held = true ∧ o.loc = l ∧ o.kind = f := by
  refine ⟨{ id := s.nextId, loc := l, kind := f, why := why, acq := acq, va := va, held := true }, ?_, rfl, rfl, rfl⟩
  unfold holdAcc
  rw [holdFor_frame]

/-- SST to a migrating page is held apart, and the helm goes on (R385). -/
theorem execSst_migrating {a : Fin 64} {b : HSrc} {x y : Word64} {size : Size} {ch : Checked} {off : BitVec 18} (ord : Order)
    (scope : Scope) (hi : HelmIssues s k c) (ha : readS k a = .ok x) (hb : readH k b = .ok y)
    (hc : checkAcc s (some k.blk.core) k.blk.ctx .st false size ((x.toNat : Int) + off.toInt) = .ok ch) (hh : ch.held = false)
    (hm : ch.acc.mig = true) (hu : mmuFull s k.blk.core = false) : ∃ t, execSst c a b off ord scope size s = .next t ∧
      SameStores s t ∧ ∃ o : FabOp, t.fabOps = s.fabOps ++ [o] ∧ o.held = true ∧ o.loc = ch.acc.loc ∧
        o.kind = .write (leBytes size.bytes y.toNat) := by
  refine ⟨_, execSst_goes ord scope hi ha hb hh (by rw [hu, Bool.and_false]) hc, ?_⟩
  simp only [hm, if_true]
  obtain ⟨o, ho, hheld, hloc, hkind⟩ := holdAcc_fabOps (helmReached s k .st size ch.acc) k.blk.ctx.val ch.acc.loc
    (.write (leBytes size.bytes y.toNat)) (storeWhy ((tagOf s s.cur).at ch.acc.ea)) false ch.acc.ea
  refine ⟨StoresEq.sameStores ((helmReached_storesEq s k .st size ch.acc).trans ?_), o, ?_, hheld, hloc, hkind⟩
  · rw [holdAcc_frame]
    exact ⟨rfl, rfl, rfl⟩
  · exact ho.trans (congrArg (· ++ [o]) (helmReached_fabOps s k .st size ch.acc))

/-- One that the MMU cannot hold waits. -/
theorem execSst_waits {a : Fin 64} {b : HSrc} {x y : Word64} {size : Size} {ch : Checked} {off : BitVec 18} (ord : Order)
    (scope : Scope) (hi : HelmIssues s k c) (ha : readS k a = .ok x) (hb : readH k b = .ok y)
    (hc : checkAcc s (some k.blk.core) k.blk.ctx .st false size ((x.toNat : Int) + off.toInt) = .ok ch)
    (hh : ch.held = true ∨ (ch.acc.mig = true ∧ mmuFull s k.blk.core = true)) :
    ∃ t, execSst c a b off ord scope size s = .next t ∧ SameStores s t ∧ t.fabOps = s.fabOps := by
  refine ⟨_, execSst_held ord scope hi ha hb (by simpa only [Bool.or_eq_true, Bool.and_eq_true] using hh) hc, ?_⟩
  rw [holdFor_frame]
  exact ⟨StoresEq.sameStores ⟨rfl, rfl, rfl⟩, rfl⟩

/-- A ready result changes its block's helm alone, and may log. -/
theorem execHelmLoadReturn_effect {b : Nat} {p : HPend} (h : ((s.blocks.zipIdx).findSome? fun x =>
      (x.1.helm.pend.find? (·.id = p.id)).map fun q => (x.2, q)) = some (b, p)) (hr : hpendReady p = true) :
    ∃ t blk, execHelmLoadReturn p.id s = .next t ∧ SameStores s t ∧ s.blocks[b]? = some blk ∧
      t.blocks[b]? = some { blk with helm := helmReturned p (hpendValue s p).1 (hpendValue s p).2 blk.helm } := by
  obtain ⟨blk, hb⟩ := block_of_pend h
  refine ⟨_, blk, execHelmLoadReturn_ready h hr, ?_, hb, ?_⟩
  · split
    · rw [logPoison_frame]
      exact StoresEq.sameStores ⟨rfl, rfl, rfl⟩
    · exact StoresEq.sameStores ⟨rfl, rfl, rfl⟩
  · rw [modHelm, modBlock_get, if_pos rfl]
    split
    · rw [logPoison_frame]
      exact congrArg (Option.map _) hb
    · exact congrArg (Option.map _) hb

/-- Settles O35: the check of each access as a lane's, then what its instruction does, and the write of a pending result. -/
theorem helmMemory : Obligations.HelmMemory := by
  refine ⟨fun s k c a x size ch hi ha hh hm => ?_, fun s k c a b x y size ch off ord scope hi ha hb hc => ?_,
    fun s b p h hr => ?_⟩
  · refine ⟨fun d off ord scope sx t ht hc hf => ⟨?_, ?_⟩, fun d off ord scope sx t ht hc hf => ⟨?_, ?_⟩,
      fun b off ord scope y t ht hc hb => ?_, fun b op u ord scope b1 b2 t ht hc h1 h2 =>
        ⟨fun hd hf => ?_, fun hd hf => ?_, fun hd => ?_, fun d hf hd => ?_, fun d old t2 hf hr hd => ?_⟩⟩
    all_goals subst ht
    · exact (helmReached_storesEq s k .watch size ch.acc).sameStores
    · exact execSld_local d ord scope sx hi ha hh hm hc hf
    · exact (helmReached_storesEq s k .watch size ch.acc).sameStores
    · exact execSld_fabric d ord scope sx hi ha hh hm hc hf
    · refine (execSst_goes ord scope hi ha hb hh (by rw [hm]; rfl) hc).trans ?_
      simp only [hm, Bool.false_eq_true, if_false]
    · exact execSatom_performs u ord hi ha h1 h2 hh hm hc hd hf
    · exact execSatom_sends u ord hi ha h1 h2 hh hm hc hd hf
    · exact execSatom_buffers u ord hi ha h1 h2 hh hm hc hd
    · exact execSatom_sends_returning u ord hi ha h1 h2 hh hm hc d hf hd
    · exact execSatom_returns u ord hi ha h1 h2 hh hm hc d hf hr hd
  · exact ⟨execSst_migrating ord scope hi ha hb hc, execSst_waits ord scope hi ha hb hc⟩
  · obtain ⟨t, blk, ht, hs, hb, hb'⟩ := execHelmLoadReturn_effect h hr
    exact ⟨t, ht, hs, blk, _, hb, hb', rfl, rfl, rfl, set_set_bool _ _ _ _, rfl⟩

end Sys2Proof.Machine

/-! # Barriers, timelines, signals and the decision queue (R211 to R213, R218, R220 to R222, R231, R234 to R240) -/

namespace Sys2Proof.Machine

open Sys2Proof Sys2Proof.Claims

/-! ## Barriers (R220 to R222) -/

section
variable {blk : Block} {p : BParty} {bar n : Nat} {br : Bar}

theorem arrive_overflows (hb : blk.bars[bar]? = some br) (h : n = 0 ∨ 1023 < n ∨ (0 < br.arrived ∧ br.count ≠ n)) :
    arrive blk p bar n = none := by
  have hc : (n = 0 || n > 1023 || (br.arrived > 0 && br.count != n)) = true := by
    simpa [or_assoc] using h
  simp only [arrive, hb, hc, if_true]

theorem arrive_counts (hb : blk.bars[bar]? = some br) (h1 : 1 ≤ n) (h2 : n ≤ 1023) (h : br.arrived = 0 ∨ br.count = n) :
    arrive blk p bar n = some { blk with
      bars := blk.bars.set bar (barAfter br n)
      arrivals := (p, bar, br.phase) :: blk.arrivals.filter fun x => !(x.1 = p && x.2.1 = bar) } := by
  have hc : ¬ (n = 0 || n > 1023 || (br.arrived > 0 && br.count != n)) = true := by
    simp only [Bool.or_eq_true, Bool.and_eq_true, decide_eq_true_eq, bne_iff_ne]
    omega
  simp only [arrive, hb, if_neg hc]

theorem barAfter_phase_ne (br : Bar) (n : Nat) : (br.phase != (barAfter br n).phase) = decide (br.arrived + 1 = n) := by
  unfold barAfter
  split
  next h => simp only [h, decide_true, bne_iff_ne, ne_eq]; bv_omega
  next h => simp only [h, decide_false, bne_self_eq_false]

theorem barrierArrivals : BarrierArrivals := by
  intro blk p bar n br hb
  have hlt : bar < blk.bars.length := (List.getElem?_eq_some_iff.1 hb).1
  refine ⟨arrive_overflows hb, fun h1 h2 h => ⟨_, arrive_counts hb h1 h2 h, ?_, fun j hj => ?_, rfl, ?_⟩⟩
  · exact List.getElem?_set_self hlt
  · exact List.getElem?_set_ne (Ne.symm hj)
  · have hset : (blk.bars.set bar (barAfter br n))[bar]? = some (barAfter br n) := List.getElem?_set_self hlt
    simp only [waitPhase, hset, lastArrival, List.find?_cons, decide_true, Bool.and_self, Option.map_some, Option.getD_some,
      barAfter_phase_ne]

end

theorem barrierInstructions : BarrierInstructions := by
  refine ⟨fun s k c m b n bar cnt hi hb hn => ⟨fun out ho => ⟨?_, fun r hr => ?_⟩, fun ho => ⟨?_, ?_⟩, fun r hr => ?_⟩,
    fun s p k bar ph hk hw => ?_⟩
  · exact onLanes_ok hi (by simp only [hb, hn, bind, Except.bind, ho])
  · exact onLanes_ok hi (by simp only [hb, hn, bind, Except.bind, ho, hr] <;> rfl)
  · exact onLanes_error hi (by simp only [hb, hn, bind, Except.bind, ho])
  · exact onLanes_error hi (by simp only [hb, hn, bind, Except.bind, ho])
  · exact onLanes_ok hi (by simp only [hb, bind, Except.bind, hr] <;> rfl)
  · change execBarrierWaitComplete p s = _
    simp only [execBarrierWaitComplete, hk, hw] <;> rfl

/-! ## Timelines (R218, R237) -/

/-- An update of a warp depends only on what it makes of the warp that stands there. -/
theorem modWarp_congr_of_getElem? {s : State} {b w : Nat} {blk : Block} {wp : Warp} {f g : Warp → Warp}
    (hb : s.blocks[b]? = some blk) (hw : blk.warps[w]? = some wp) (hfg : f wp = g wp) : modWarp s b w f = modWarp s b w g := by
  have hblocks : s.blocks.modify b (fun x => { x with warps := x.warps.modify w f }) =
      s.blocks.modify b fun x => { x with warps := x.warps.modify w g } :=
    modify_congr_of_getElem? hb (by rw [modify_congr_of_getElem? hw hfg])
  rw [modWarp, modBlock, hblocks]
  rfl

theorem finishTwait_writes {s : State} {k : GCtx} (ctx : Fin 4) (n : Word64) (m : LaneMask) (p : Fin 8)
    (hb : s.blocks[k.b]? = some k.blk) (hw : k.blk.warps[k.w]? = some k.wp) : ∃ preds : Vector PReg 7,
      finishTwait s k ctx n (some p) m = modWarp s k.b k.w (fun _ => { k.wp with preds := preds }) ∧
      (∀ j : Fin 7, j.val ≠ p.val → preds[j] = k.wp.preds[j]) ∧
      ∀ j : Fin 7, j.val = p.val →
        PredWritten k k.wp.preds[j] preds[j] m fun _ => abandonedBy k.blk.ctxs[ctx] n.toNat := by
  obtain ⟨preds, hset, hin, hout⟩ := setPred_preds (k := k) (m := m) (p := p) (.u (abandonedBy k.blk.ctxs[ctx] n.toNat))
  refine ⟨preds, ?_, hout, fun j hj => PredWritten.congr (hin j hj) fun _ _ => rfl⟩
  rw [finishTwait]
  exact modWarp_congr_of_getElem? hb hw hset

theorem timelineWaits : TimelineWaits := by
  refine ⟨fun s k c m ctx p hi n v hn => ?_, fun s p k ctx n pd m hk hw => ⟨fun h => ?_, fun h => ?_⟩,
    fun s k ctx n m => ⟨rfl, fun p hb hw => finishTwait_writes ctx n m p hb hw⟩⟩
  · refine ⟨fun h => onLanes_ok hi ?_, fun h => onLanes_ok hi ?_⟩
    · rcases hn with ⟨i, rfl, rfl⟩ | ⟨r, rfl, hr⟩
      · exact if_pos h
      · simp only [hr, bind, Except.bind]
        exact if_pos h
    · rcases hn with ⟨i, rfl, rfl⟩ | ⟨r, rfl, hr⟩
      · exact if_neg (by omega)
      · simp only [hr, bind, Except.bind]
        exact if_neg (by omega)
  · change execTwaitSatisfied p s = _
    simp only [execTwaitSatisfied, hk, hw, ge_iff_le, if_pos h]
  · change execTwaitSatisfied p s = _
    simp only [execTwaitSatisfied, hk, hw, ge_iff_le, if_neg (Nat.not_le.2 h)]

/-! ## Signals (R239, R385) -/

section
variable {s : State} {k : GCtx} {c : Ctl} {m : LaneMask} {addr : Fin 128} {val : SigVal} {a v : Word64} {ch : Checked}

/-- An update of a migrating word is held apart (R385). -/
theorem signalLoc_migrating (s : State) (t : Report) {acc : LaneAcc} (op : SigOp) (v : Word64) (hm : acc.mig = true) :
    StoresEq s (signalLoc s t acc op v) ∧
      ∃ o : FabOp, (signalLoc s t acc op v).fabOps = s.fabOps ++ [o] ∧ o.held = true ∧ o.loc = acc.loc := by
  have hs : signalLoc s t acc op v = holdAcc s (tagCtx s t) acc.loc
      (.atomic (sigAtom op v).1 false .b64 (sigAtom op v).2 0 false) (storeWhy t) false t.addr := by
    simp only [signalLoc, later, sendAcc, hm, Bool.or_true, if_true]
  rw [hs]
  obtain ⟨o, ho, hheld, hloc, -⟩ := holdAcc_fabOps s (tagCtx s t) acc.loc
    (.atomic (sigAtom op v).1 false .b64 (sigAtom op v).2 0 false) (storeWhy t) false t.addr
  refine ⟨?_, o, ho, hheld, hloc⟩
  rw [holdAcc_frame]
  exact ⟨rfl, rfl, rfl⟩

/-- The new value of a signal word, as an atomic of 64 bits (R239, R309). -/
theorem atomNew_sigAtom (op : SigOp) (v : Word64) (old : Nat) :
    atomNew (sigAtom op v).1 false 64 old (sigAtom op v).2.toNat 0 =
      (match op with
        | .add => BitVec.ofNat 64 old + v
        | .sub => BitVec.ofNat 64 old - v
        | .set => v).toNat := by
  cases op with
  | add => simp only [sigAtom, atomNew, BitVec.toNat_add, BitVec.toNat_ofNat]; omega
  | sub => simp only [sigAtom, atomNew, BitVec.toNat_sub, BitVec.toNat_neg, BitVec.toNat_ofNat]; omega
  | set => exact Nat.mod_eq_of_lt v.isLt

/-- An update of a sound word of device memory. -/
theorem signalLoc_dev {t : Report} {acc : LaneAcc} {p : Nat} (op : SigOp) (v : Word64) (hl : acc.loc = .dev p)
    (hm : acc.mig = false) (hp : poisonAt s (.dev p) 8 = false) (hwf : s.homesWf = true) :
    memNat (signalLoc s t acc op v).mem p 8 = (match op with
          | .add => BitVec.ofNat 64 (memNat s.mem p 8) + v
          | .sub => BitVec.ofNat 64 (memNat s.mem p 8) - v
          | .set => v).toNat ∧
      ∀ b, (b < p ∨ p + 8 ≤ b) → memGet (signalLoc s t acc op v).mem b = memGet s.mem b := by
  have hs : signalLoc s t acc op v = (rmw s t (.dev p) (sigAtom op v).1 false .b64 (sigAtom op v).2 0).1 := by
    simp only [signalLoc, later, isFab, hl, hm, Bool.or_self, Bool.false_eq_true, if_false]
  obtain ⟨-, hmem, hother⟩ := (atomicReadsModifiesWrites s t p (sigAtom op v).1 false .b64 (sigAtom op v).2 0 hwf).1 hp
  rw [hs]
  refine ⟨hmem.trans ?_, hother⟩
  change atomNew (sigAtom op v).1 false 64 _ (sigAtom op v).2.toNat 0 % 2 ^ 64 = _
  rw [atomNew_sigAtom]
  exact Nat.mod_eq_of_lt (BitVec.isLt _)

theorem poisonAt_touchAll (s : State) (who : Fin 256) (ctx : Fin 64) (accs : List LaneAcc) (l : Loc) (n : Nat) :
    poisonAt (touchAll s who ctx accs) l n = poisonAt s l n := by
  rw [touchAll_frame]
  rfl

theorem touchAll_storesEq (s : State) (who : Fin 256) (ctx : Fin 64) (accs : List LaneAcc) :
    StoresEq s (touchAll s who ctx accs) ∧ (touchAll s who ctx accs).fabOps = s.fabOps := by
  rw [touchAll_frame]
  exact ⟨⟨rfl, rfl, rfl⟩, rfl⟩

theorem signalUpdates : SignalUpdates := by
  intro s k c m addr val op scope a v ch hi ha hv hc
  refine ⟨fun hh => onLanes_ok hi ?_, fun hh hm => ⟨_, onLanes_ok hi ?_, rfl, fun hmig => ?_, fun p hl hmig hp hwf => ?_⟩⟩
  · have hheld : (ch.held || (ch.acc.mig && mmuFull s k.blk.core)) = true := by
      simpa only [Bool.or_eq_true, Bool.and_eq_true] using hh
    simp only [ha, hv, bind, Except.bind, hc, hheld, if_true]
  · have hfree : (ch.held || (ch.acc.mig && mmuFull s k.blk.core)) = false := by
      simpa only [hh, Bool.false_or, Bool.and_eq_false_iff] using hm
    simp only [ha, hv, bind, Except.bind, hc, hfree, Bool.false_eq_true, if_false]
  · obtain ⟨hs, hf⟩ := touchAll_storesEq s k.blk.core k.blk.ctx [ch.acc]
    obtain ⟨hsig, o, ho, hheld, hloc⟩ := signalLoc_migrating (touchAll s k.blk.core k.blk.ctx [ch.acc])
      ((tagOf s s.cur).at ch.acc.ea) op v hmig
    exact ⟨(hs.trans hsig).sameStores, o, ho.trans (congrArg (· ++ [o]) hf), hheld, hloc⟩
  · obtain ⟨hs, -⟩ := touchAll_storesEq s k.blk.core k.blk.ctx [ch.acc]
    have h := signalLoc_dev (s := touchAll s k.blk.core k.blk.ctx [ch.acc]) (t := (tagOf s s.cur).at ch.acc.ea) op v hl hmig
      (by rwa [poisonAt_touchAll]) (hs.homesWf hwf)
    rwa [hs.mem] at h

/-- Settles O37: arrivals, waits, timelines and signals, each by its meaning in the model. -/
theorem barriersTimelinesAndSignals : Obligations.BarriersTimelinesAndSignals :=
  ⟨barrierArrivals, barrierInstructions, timelineWaits, signalUpdates⟩

end

/-! ## The decision queue (R211 to R213, R231, R238) -/

/-- A warp holds at most a line for each of its registers. -/
theorem linesHeld_le (wp : Warp) : linesHeld wp ≤ 256 :=
  (List.length_filter_le _ _).trans (by simp)

section
variable {s : State} {k : GCtx} {c : Ctl} {m : LaneMask} {d : Dst}

/-- A pop delivers wherever nothing stops the write of its destination; stores stay as they are. -/
theorem deliverPop_ok {idx : List (Nat × Fin 256)} (r : Word × Nat) (hidx : dstIdx k d m = .ok idx) (hm : m ≠ 0)
    (hd : CanWrite k d m) : ∃ t, deliverPop s k d idx m r = .ok t ∧ SameStores s t := by
  let k1 : GCtx := { k with wp :=
    { modGangs k.wp k.g.gid (fun g => { g with takes := [], reach := [], wait := .none }) with dqPos := r.2 } }
  obtain ⟨wp, latch, hw, -⟩ := writeLevels_ok k1 d (.u r.1) m hm hd
  have hidx1 : dstIdx k1 d m = .ok idx := hidx
  have hat : writeLevelsAt k1 d idx (.u r.1) m = .ok (wp, latch) := by
    rw [writeLevels] at hw
    rwa [hidx1] at hw
  exact ⟨modBlock (commit s k1 wp latch) k.b freeDq, by rw [deliverPop, hat]; rfl, StoresEq.sameStores ⟨rfl, rfl, rfl⟩⟩

theorem takeLines_ok {takes : List (Fin 256)}
    (h : linesHeld (modGangs k.wp k.g.gid fun g => { g with takes := takes }) ≤ k.wp.gmax) : takeLines k takes m = .ok () :=
  checkLines_ok m h

theorem takeLines_error {takes : List (Fin 256)}
    (h : k.wp.gmax < linesHeld (modGangs k.wp k.g.gid fun g => { g with takes := takes })) :
    takeLines k takes m = .error (raise .regpool (some (lowLane m))) :=
  checkLines_error m h

theorem popFor_of_popped {blk : Block} {wp : Warp}
    (h : ∀ e ∈ blk.dq, e.mask.getLsbD wp.role.val = true → e.seq < wp.dqPos) :
    popFor blk wp = if blk.helm.ended then some (0xFFFFFFFF, wp.dqPos) else none := by
  have hf : blk.dq.find? (fun e => e.mask.getLsbD wp.role.val && wp.dqPos ≤ e.seq) = none := by
    refine List.find?_eq_none.2 fun e he => ?_
    simp only [Bool.and_eq_true, decide_eq_true_eq, not_and, Nat.not_le]
    exact h e he
  rw [popFor, hf]

theorem popFor_oldest {blk : Block} {wp : Warp} {before after : List DqEnt} {e : DqEnt} (h : blk.dq = before ++ e :: after)
    (hb : ∀ x ∈ before, x.mask.getLsbD wp.role.val = false ∨ x.seq < wp.dqPos) (hm : e.mask.getLsbD wp.role.val = true)
    (hs : wp.dqPos ≤ e.seq) : popFor blk wp = some (e.val, e.seq + 1) := by
  have hf : blk.dq.find? (fun e => e.mask.getLsbD wp.role.val && wp.dqPos ≤ e.seq) = some e := by
    refine List.find?_eq_some_iff_append.2 ⟨by simp only [hm, hs, decide_true, Bool.and_self], before, after, h, fun x hx => ?_⟩
    rcases hb x hx with h | h
    · rw [h]; rfl
    · rw [decide_eq_false (Nat.not_le.2 h), Bool.and_false]; rfl
  rw [popFor, hf]

theorem decisionQueueDelivers : DecisionQueueDelivers := by
  refine ⟨fun s k c m d hi hp idx takes hidx ht => ⟨fun r hr hd hg => ?_, fun hr hl => ?_, fun hl => ?_⟩,
    fun s p k d m hk hw hp => ⟨fun hr => ?_, fun r t hr ht => ?_⟩, fun blk wp h => popFor_of_popped h,
    fun blk wp before after e h hb hm hs => popFor_oldest h hb hm hs, fun blk e => ?_⟩
  · obtain ⟨t, ht', hs⟩ := deliverPop_ok (s := s) r hidx hi.some hd
    refine ⟨t, ht', onLanes_ok hi ?_, hs⟩
    simp only [hidx, bind, Except.bind, takeLines_ok ((linesHeld_le _).trans hg), hp, Bool.false_eq_true, if_false, hr, ht']
  · subst ht
    refine onLanes_ok hi ?_
    simp only [hidx, bind, Except.bind, takeLines_ok hl, hp, Bool.false_eq_true, if_false, hr]
    rfl
  · subst ht
    refine onLanes_error hi ?_
    simp only [hidx, bind, Except.bind, takeLines_error hl]
  · change execDqpopDeliver p s = _
    simp only [execDqpopDeliver, hk, hw, hp, hr, Bool.false_eq_true, if_false]
  · change execDqpopDeliver p s = _
    simp only [execDqpopDeliver, hk, hw, hp, hr, ht, Bool.false_eq_true, if_false]
  · simp only [freeDq, List.mem_filter, List.any_eq_true, Bool.and_eq_true, Bool.not_eq_true', decide_eq_true_eq, and_assoc]

end

theorem decisionQueuePushes : DecisionQueuePushes := by
  refine ⟨fun s k c v m x y hi hv hm => ⟨fun hn => ?_, fun hn hl => ?_, fun hn hl => ?_⟩,
    fun s b blk v m hb hw => ⟨fun hl => ?_, fun hl => ?_⟩⟩
  · exact onHelmC_ok hi (by simp only [hv, hm, bind, Except.bind, hn, Bool.not_false, if_true]; rfl)
  · exact onHelmC_ok hi (by
      simp only [hv, hm, bind, Except.bind, hn, Bool.not_true, Bool.false_eq_true, if_false, if_pos hl]; rfl)
  · exact onHelmC_ok hi (by
      simp only [hv, hm, bind, Except.bind, hn, Bool.not_true, Bool.false_eq_true, if_false, if_neg (Nat.not_lt.2 hl)]; rfl)
  · change execDqpushAppend b s = _
    simp only [execDqpushAppend, hb, hw, if_pos hl] <;> rfl
  · change execDqpushAppend b s = _
    simp only [execDqpushAppend, hb, hw, if_neg (Nat.not_lt.2 hl)]

/-- Settles O38: what a pop delivers and when it waits, and what the helm's push appends. -/
theorem decisionQueue : Obligations.DecisionQueue := ⟨decisionQueueDelivers, decisionQueuePushes⟩

end Sys2Proof.Machine

/-! # Engine operations and copy streams (R214, R217, R256, R292, R293, R297 to R311) -/

namespace Sys2Proof.Machine

open Sys2Proof Sys2Proof.Claims

/-! ## Meanings of streams -/

section
variable {s : State} {k : SCtx} {copies numbered : Bool} {f : SCtx → Except Raise State}

theorem onStream_ok {t : State} (hi : StreamIssues s k copies) (h : f k = .ok t) :
    onStream s copies numbered f = .next t := by
  rw [onStream_issues hi, h]

theorem onStream_error {r : Raise} (hi : StreamIssues s k copies) (h : f k = .error r) :
    onStream s copies numbered f = .next (takeFault s s.cur r numbered) := by
  rw [onStream_issues hi, h]

/-- What it means that a party names a stream. -/
theorem streamOf_eq_some {p : Party} (h : streamOf s p = some k) :
    p = .stream k.b k.k ∧ s.blocks[k.b]? = some k.blk ∧ k.blk.ctxs[k.k] = k.e ∧ k.e.stream = some k.st := by
  unfold streamOf at h
  split at h
  next b j =>
    split at h
    · cases h
    next blk hb =>
      split at h
      · cases h
      next st hst =>
        cases h
        exact ⟨rfl, hb, rfl, hst⟩
  · cases h

end

/-! ## Operations are numbered (R214, R217) -/

section
variable {s : State} {b : Nat} {k : Fin 4} {blk : Block}

theorem modEng_get (hb : s.blocks[b]? = some blk) (f : EngCtx → EngCtx) :
    (modEng s b k f).blocks[b]? = some { blk with ctxs := blk.ctxs.set k (f blk.ctxs[k]) } := by
  rw [modEng, modBlock_get, if_pos rfl, hb, Option.map_some]

theorem accept_effect (hb : s.blocks[b]? = some blk) (op : EngOp) :
    ∃ blk', (accept s b k op).blocks[b]? = some blk' ∧ SameStores s (accept s b k op) ∧
      blk'.ctxs[k] = { blk.ctxs[k] with
        issued := blk.ctxs[k].issued + 1
        ops := blk.ctxs[k].ops ++ [{ op with n := blk.ctxs[k].issued + 1 }] } ∧
      (∀ j, j ≠ k → blk'.ctxs[j] = blk.ctxs[j]) ∧ blk'.warps = blk.warps ∧ blk'.helm = blk.helm := by
  refine ⟨_, modEng_get hb _, StoresEq.sameStores ⟨rfl, rfl, rfl⟩, ?_, fun j hj => ?_, rfl, rfl⟩
  · simp only [Fin.getElem_fin, Vector.getElem_set_self]
  · simp only [Fin.getElem_fin]
    exact Vector.getElem_set_ne _ _ fun h => hj (Fin.ext h.symm)

/-! ## When an operation starts (R293, R303) -/

variable {n : Nat} {op : EngOp}

theorem runReady_not_started (hs : op.started = false) (hw : op.rows ≠ [] ∨ op.fill ≠ none) :
    runReady s b k blk op = mayStart s (opAgent s b k op blk) blk.ctxs[k] op := by
  have h : (op.rows.isEmpty && op.fill.isNone) = false := by
    rcases hw with h | h
    · rw [List.isEmpty_eq_false_iff.2 h, Bool.false_and]
    · rw [Option.isNone_eq_false_iff.2 (Option.isSome_iff_ne_none.2 h), Bool.and_false]
  simp only [runReady, h, hs, Bool.not_false, Bool.true_and, Bool.false_eq_true, if_false]

theorem runOp_starts (hb : s.blocks[b]? = some blk) (hop : blk.ctxs[k].ops.find? (·.n = n) = some op)
    (hs : op.started = false) (hw : op.rows ≠ [] ∨ op.fill ≠ none) (hr : blk.status = .resident)
    (hm : mayStart s (opAgent s b k op blk) blk.ctxs[k] op = true) : runOp s b k n = startOp s b k blk op := by
  simp only [runOp, hb, hop, runReady_not_started hs hw, hm, hs, hr, bne_self_eq_false, Bool.false_and, Bool.not_true, Bool.or_self,
    Bool.false_eq_true, if_false]

theorem runOp_waits (hb : s.blocks[b]? = some blk) (hop : blk.ctxs[k].ops.find? (·.n = n) = some op)
    (hs : op.started = false) (hw : op.rows ≠ [] ∨ op.fill ≠ none)
    (hm : mayStart s (opAgent s b k op blk) blk.ctxs[k] op = false) : runOp s b k n = s := by
  simp only [runOp, hb, hop, runReady_not_started hs hw, hm, Bool.not_false, Bool.or_true, if_true]

theorem mayStart_missed {a : EAgent} {e : EngCtx} (h : ∃ o ∈ e.ops, o.n ≠ op.n ∧ ∃ r ∈ o.rows, r.missed = true) :
    mayStart s a e op = false := by
  obtain ⟨o, ho, hn, r, hr, hm⟩ := h
  have hany : (e.ops.any fun o => o.n != op.n && o.rows.any (·.missed)) = true :=
    List.any_eq_true.2 ⟨o, ho, by rw [Bool.and_eq_true]; exact ⟨bne_iff_ne.2 hn, List.any_eq_true.2 ⟨r, hr, hm⟩⟩⟩
  simp only [mayStart, hany, Bool.not_true, Bool.false_and]

theorem mayStart_overlaps {a : EAgent} {e : EngCtx} {op1 : EngOp} {w : Nat} (hst : starting s a op = .ok (op1, w))
    (h : ∃ o ∈ e.ops, o.n < op.n ∧ o.started = true ∧ opsMeet s a o op1 = true) : mayStart s a e op = false := by
  obtain ⟨o, ho, hn, hs, hm⟩ := h
  have hany : (e.ops.any fun o => o.n < op.n && holdsBack s a o op1) = true :=
    List.any_eq_true.2 ⟨o, ho, by rw [Bool.and_eq_true]; exact ⟨decide_eq_true hn, by rw [holdsBack, if_pos hs, hm]⟩⟩
  simp only [mayStart, hst, hany, Bool.not_true, Bool.and_false]

theorem rangesOverlap_of_rangesMeet {a : EAgent} {κ : AKind} {xs ys : List (Nat × Nat)} {x y : Nat × Nat} (hx : x ∈ xs)
    (hy : y ∈ ys) (h : rangesMeet x y = true) : rangesOverlap s a xs κ ys = true :=
  List.any_eq_true.2 ⟨x, hx, List.any_eq_true.2 ⟨y, hy, by rw [h, Bool.true_or]⟩⟩

theorem rangesOverlap_of_locsMeet {a : EAgent} {κ : AKind} {xs ys : List (Nat × Nat)} {x y : Nat × Nat} {p q : Loc × Nat}
    (hx : x ∈ xs) (hy : y ∈ ys) (hp : p ∈ placesOf s a .engW x) (hq : q ∈ placesOf s a κ y)
    (h : locsMeet p.1 p.2 q.1 q.2 = true) : rangesOverlap s a xs κ ys = true := by
  refine List.any_eq_true.2 ⟨x, hx, List.any_eq_true.2 ⟨y, hy, ?_⟩⟩
  rw [Bool.or_eq_true]
  exact .inr (List.any_eq_true.2 ⟨p, hp, List.any_eq_true.2 ⟨q, hq, h⟩⟩)

theorem opsMeet_of_rangesMeet {a : EAgent} {o op1 : EngOp} {x y : Nat × Nat} (hx : x ∈ o.dsts)
    (hy : y ∈ op1.dsts ∨ y ∈ opSrcs s a op1) (h : rangesMeet x y = true) : opsMeet s a o op1 = true := by
  rcases hy with hy | hy
  · simp only [opsMeet, rangesOverlap_of_rangesMeet hx hy h, Bool.true_or]
  · simp only [opsMeet, rangesOverlap_of_rangesMeet hx hy h, Bool.or_true, Bool.true_or]

/-! ## OPERATION_COMPLETE and DONE (R217) -/

theorem execOperationComplete_completes (hb : s.blocks[b]? = some blk) (hop : blk.ctxs[k].ops.find? (·.n = n) = some op)
    (hr : op.rows = []) (hf : op.fill = none) (ho : opFabs s b k n = false) : execOperationComplete b k n s =
      .next (modEng s b k fun e => engDone { e with ops := e.ops.filter (·.n != n) }) := by
  simp only [execOperationComplete, hb, hop, hr, hf, ho, List.isEmpty_nil, Option.isNone_none, Bool.not_false, Bool.and_self, if_true]

theorem execOperationComplete_waits (hb : s.blocks[b]? = some blk) (hop : blk.ctxs[k].ops.find? (·.n = n) = some op)
    (h : op.rows ≠ [] ∨ op.fill ≠ none ∨ opFabs s b k n = true) : execOperationComplete b k n s = .next s := by
  have hc : ¬ (op.rows.isEmpty && op.fill.isNone && !opFabs s b k n) = true := by
    simp only [Bool.and_eq_true, List.isEmpty_iff, Option.isNone_iff_eq_none, Bool.not_eq_true', not_and]
    rintro ⟨hr, hf⟩ ho
    rcases h with h | h | h
    · exact h hr
    · exact h hf
    · rw [ho] at h; cases h
  simp only [execOperationComplete, hb, hop, if_neg hc]

theorem foldl_min_eq {l : List Nat} {a m : Nat} (hm : m ∈ a :: l) (h : ∀ x ∈ a :: l, m ≤ x) : l.foldl min a = m := by
  induction l generalizing a with
  | nil => exact (List.mem_singleton.1 hm).symm
  | cons x l ih =>
    rw [List.foldl_cons]
    have ha := h a (by simp)
    have hx := h x (by simp)
    refine ih ?_ fun y hy => ?_
    · rcases List.mem_cons.1 hm with rfl | hm
      · rw [Nat.min_eq_left hx]; exact List.mem_cons_self
      · rcases List.mem_cons.1 hm with rfl | hm
        · rw [Nat.min_eq_right ha]; exact List.mem_cons_self
        · exact List.mem_cons_of_mem _ hm
    · rcases List.mem_cons.1 hy with rfl | hy
      · exact le_min ha hx
      · exact h y (by simp [hy])

/-- DONE is the number below the lowest outstanding operation. -/
theorem engDone_done {e : EngCtx} {o : EngOp} (ho : o ∈ e.ops) (h : ∀ p ∈ e.ops, o.n ≤ p.n) : (engDone e).done = o.n - 1 := by
  have hm : o.n ∈ e.ops.map (·.n) := List.mem_map_of_mem ho
  have hle : ∀ x ∈ e.ops.map (·.n), o.n ≤ x := fun x hx => by
    obtain ⟨p, hp, rfl⟩ := List.mem_map.1 hx
    exact h p hp
  unfold engDone
  cases hl : e.ops.map (·.n) with
  | nil => rw [hl] at hm; cases hm
  | cons x r =>
    rw [hl] at hm hle
    simp only [foldl_min_eq hm hle]

end

/-- Settles O40: the number that acceptance gives, the conditions of a start one by one, and DONE as the least number. -/
theorem operationsAreNumberedAndComplete : Obligations.OperationsAreNumberedAndComplete := by
  intro s b k blk hb
  refine ⟨accept_effect hb, fun n op a hop hs hw ha => ⟨fun hr hm => ⟨fun op1 w hst => ?_, fun r hst => ?_⟩, fun hm => ?_,
    mayStart_missed, fun op1 w hst h => mayStart_overlaps hst h, fun o op1 x hx y hy h => opsMeet_of_rangesMeet hx hy h,
    fun o op1 x hx y hy p hp q hq h => ?_⟩,
    fun n op hop => ⟨execOperationComplete_completes hb hop, execOperationComplete_waits hb hop⟩,
    fun e => ⟨fun he => ?_, rfl, rfl, fun o ho h => engDone_done ho h⟩⟩
  · subst ha
    rw [runOp_starts hb hop hs hw hr hm]
    simp only [startOp, hst]
  · subst ha
    rw [runOp_starts hb hop hs hw hr hm]
    simp only [startOp, hst]
  · subst ha
    exact runOp_waits hb hop hs hw hm
  · simp only [opsMeet, rangesOverlap_of_locsMeet hx hy hp hq h, Bool.true_or]
  · simp only [engDone, he, List.map_nil]

/-! ## A raw row between plain pages (R292, R302) -/

section
variable {s : State} {a : EAgent}

/-- The run of bytes that lie in one plain page. -/
def plainRun (ctx : Fin 64) (p : Page) (va n : Nat) : Run :=
  { va := va, off := 0, n := n, u := 1, loc := placeOf ctx p 0, page := some p, ent := none, mig := p.mig }

theorem sideRuns_plain {κ : AKind} {va n : Nat} {p : Page} (hn : 0 < n) (hroom : va % 65536 + n ≤ 65536) (hva : va < Config.vaLimit)
    (hs : inSpan va = false) (hp : pageOf s a.who a.ctx κ va = .ok p) (hf : p.fmt = 0) :
    sideRuns s a κ 1 va n = .ok [plainRun a.ctx p va n] := by
  have hmin : min n ((65536 - va % 65536) / 1) = n := by omega
  have hrest (off va' : Nat) : runsOf s a κ 1 n off va' 0 = .ok [] := by
    cases n <;> simp only [runsOf, if_true]
  simp only [sideRuns, runsOf, if_neg (Nat.pos_iff_ne_zero.1 hn), ge_iff_le, if_neg (Nat.not_le.2 hva), hs, Bool.false_eq_true,
    if_false, hp, hf, if_true, hmin, Nat.sub_self, hrest]
  rfl

theorem poisonAt_dev_of_none (h : s.badGranules = []) (x n : Nat) : poisonAt s (.dev x) n = false := by
  simp only [poisonAt, h, List.contains_nil, List.any_eq_false, Bool.false_eq_true, not_false_eq_true, implies_true]

theorem needWritable_plain {q : Page} {va n : Nat} (hl : placeOf a.ctx q 0 = .dev q.base) (hm : q.mig = false) :
    needWritable s a none [plainRun a.ctx q va n] = .ok () := by
  simp only [needWritable, plainRun, hl, hm, List.find?_cons, List.find?_nil, Option.isSome_none, Bool.false_and, List.any_cons,
    List.any_nil, fabBusy, isFab, Bool.or_self, Bool.false_eq_true, if_false]

theorem readRuns_plain {p : Page} {va n : Nat} (row : Row) (hl : placeOf a.ctx p 0 = .dev p.base) (hb : s.badGranules = []) :
    readRuns s a row [plainRun a.ctx p va n] =
      .ok [(plainRun a.ctx p va n, readLoc s (.dev p.base) (plainRun a.ctx p va n).bytes)] := by
  simp only [readRuns, plainRun, hl, List.find?_cons, poisonAt_dev_of_none hb, List.find?_nil, isFab, Bool.false_and,
    List.filter_cons, List.filter_nil, Bool.false_eq_true, if_false, List.isEmpty_nil, if_true, List.map_cons, List.map_nil]

theorem rawCheck_plain (ctx : Fin 64) (p q : Page) (src dst n : Nat) :
    rawCheck [plainRun ctx p src n] [plainRun ctx q dst n] = .ok () := by
  have h : pairOk (plainRun ctx p src n) (plainRun ctx q dst n) = none := ite_self none
  simp only [rawCheck, List.findSome?_cons, List.findSome?_nil, h, Option.map_none]

/-- The one run of a plain destination takes the bytes of the one run of a plain source. -/
theorem rawRun_plain (n : Nat) (lines : Lines) {p q : Page} {src dst len : Nat} {bs : List Byte} (hbs : bs.length = len)
    (hne : bs ≠ []) (hl : placeOf a.ctx q 0 = .dev q.base) :
    rawRun a n none [(plainRun a.ctx p src len, bs)] ((s, lines), 0) (plainRun a.ctx q dst len) =
      ((writeLoc s (a.tag.at dst) (.dev q.base) bs, lines), 0) := by
  have hshare : shared (plainRun a.ctx p src len) (plainRun a.ctx q dst len) bs = bs := by
    simp only [shared, plainRun, Nat.max_self, Nat.sub_self, List.drop_zero, Nat.zero_add, Nat.min_self, Nat.sub_zero]
    exact List.take_of_length_le (Nat.le_of_eq hbs)
  have hcoded : (plainRun a.ctx p src len).coded = false := rfl
  have hent : (plainRun a.ctx q dst len).ent = none := rfl
  simp only [rawRun, hent, List.flatMap_cons, List.flatMap_nil, List.append_nil, hcoded, Bool.false_eq_true, if_false, hshare,
    putBytes, List.isEmpty_eq_false_iff.2 hne]
  simp only [plainRun, hl]

/-- Such a row writes the bytes that its source holds, in one write of its destination. -/
theorem rawRow_plain (lines : Lines) (row : Row) {src dst len : Nat} {p q : Page} (hlen : 0 < len)
    (hsr : src % 65536 + len ≤ 65536) (hdr : dst % 65536 + len ≤ 65536) (hsv : src < Config.vaLimit) (hdv : dst < Config.vaLimit)
    (hss : inSpan src = false) (hds : inSpan dst = false) (hp : pageOf s a.who a.ctx .engR src = .ok p) (hpf : p.fmt = 0)
    (hpt : p.tier = false) (hq : pageOf s a.who a.ctx .engW dst = .ok q) (hqf : q.fmt = 0) (hqt : q.tier = false)
    (hqm : q.mig = false) (hb : s.badGranules = []) : rawRow s a none lines row src dst len =
      .ok (writeLoc s (a.tag.at dst) (.dev q.base) (memRead s.mem p.base len), lines, 0) := by
  have hpl : placeOf a.ctx p 0 = .dev p.base := placeOf_local hpt 0
  have hql : placeOf a.ctx q 0 = .dev q.base := placeOf_local hqt 0
  have hbytes : (plainRun a.ctx p src len).bytes = len := Nat.mul_one len
  have hne : memRead s.mem p.base len ≠ [] := by
    rw [← List.length_pos_iff, memRead_length]; exact hlen
  have hsides : rawSides s a src dst len = .ok ([plainRun a.ctx p src len], [plainRun a.ctx q dst len]) := by
    rw [rawSides, sideRuns_plain hlen hsr hsv hss hp hpf, sideRuns_plain hlen hdr hdv hds hq hqf]
    simp only [bind, Except.bind, rawCheck_plain]
    rfl
  rw [rawRow, hsides]
  simp only [bind, Except.bind, needWritable_plain hql hqm, readRuns_plain row hpl hb, hbytes]
  exact congrArg (fun w : (State × Lines) × Flags => Except.ok (w.1.1, w.1.2, w.2))
    (rawRun_plain row.n lines (memRead_length _ _ _) hne hql)

/-- Settles O41: the row is one write of what its source holds. -/
theorem plainRowCopiesItsBytes : Obligations.PlainRowCopiesItsBytes := by
  intro s a lines row src dst len p q hwf hlen hsr hdr hsv hdv hss hds hp hpf hpt hq hqf hqt hqm hb
  obtain ⟨hmem, -, -⟩ := homesWf_iff.mp hwf
  have hw : (writeLoc s (a.tag.at dst) (.dev q.base) (memRead s.mem p.base len)).mem =
      memWrite s.mem q.base (memRead s.mem p.base len) :=
    writeLoc_dev_mem hmem fun g _ => by rw [hb]; rfl
  refine ⟨_, rawRow_plain lines row hlen hsr hdr hsv hdv hss hds hp hpf hpt hq hqf hqt hqm hb, fun i hi => ?_, fun x hx => ?_,
    ?_, ?_⟩
  · rw [hw, memGet_memWrite _ _ _ hmem, dif_pos (by rw [memRead_length]; omega)]
    simp only [memRead, List.getElem_map, List.getElem_range, Nat.add_sub_cancel_left]
  · rw [hw]
    exact memGet_memWrite_other _ _ _ hmem (by rwa [memRead_length])
  · rw [writeLoc_frame]
  · rw [writeLoc_dev (List.length_pos_iff.1 (by rwa [memRead_length])), writeDev_frame]

end

/-! ## Loops (R297, R299, R311) -/

/-- A level that would be opened where no open level ends within its body. -/
theorem openLoop_fits {st : Stream} {trip len : Nat} {ctr : MCtr} (h : ∀ l ∈ st.loops, st.pc.toNat + len ≤ l.last.toNat) :
    openLoop st trip len ctr =
      if trip % 2 ^ 32 = 0 then
        .ok (passLoops (st.pc + BitVec.ofNat 32 len) (setCtr st ctr fun _ => 0).loops (setCtr st ctr fun _ => 0))
      else if st.loops.length ≥ 4 then .error (raise .maskStack none 3)
      else .ok { setCtr st ctr fun _ => 0 with
        pc := st.pc + 1
        loops := { trip := trip % 2 ^ 32, left := trip % 2 ^ 32, first := st.pc + 1, last := st.pc + BitVec.ofNat 32 len,
                   ctr := ctr } :: st.loops } := by
  have hf : (st.loops.find? fun l =>
      l.first.toNat ≤ st.pc.toNat && st.pc.toNat ≤ l.last.toNat && l.last.toNat < st.pc.toNat + len) = none :=
    List.find?_eq_none.2 fun l hl => by
      rw [decide_eq_false (Nat.not_lt.2 (h l hl)), Bool.and_false]
      exact Bool.false_ne_true
  simp only [openLoop, hf] <;> rfl

theorem openLoop_mod (st : Stream) (trip len : Nat) (ctr : MCtr) :
    openLoop st trip len ctr = openLoop st (trip % 2 ^ 32) len ctr := by
  simp only [openLoop, Nat.mod_mod]

/-- Levels none of which ends at the PC stay as they are. -/
theorem passLoops_of_none {pc : Word} (ls : List Loop) (st : Stream) (h : ∀ l ∈ ls, l.last ≠ pc) :
    passLoops pc ls st = { st with loops := ls, pc := pc + 1 } := by
  induction ls with
  | nil => rfl
  | cons l ls ih =>
    have hl : (l.last != pc) = true := bne_iff_ne.2 (h l (by simp))
    rw [passLoops, if_pos hl, ih fun x hx => h x (by simp [hx])]

/-- Settles O43: the meanings of the loop instructions, and the levels as they open, pass and close. -/
theorem streamLoops : Obligations.StreamLoops := by
  refine ⟨fun s k c n len => ⟨fun st h hi => onStream_ok hi (by rw [h]; rfl), fun ctr st h hi => onStream_ok hi (by rw [h]; rfl),
    fun hi => ?_, fun hi => ?_⟩, openLoop_mod, fun st trip len hl h0 hlt => ?_, fun st len hl => ?_,
    fun st trip len ctr hl h0 hlt h => ?_, fun st l r hl he hc => ⟨fun hleft => ?_, fun hleft hr => ?_⟩, fun st h => ?_,
    fun st => ⟨rfl, rfl, rfl⟩⟩
  · change execCend c s = _
    rw [execCend, onStream_ok hi rfl]
  · change execMend c s = _
    rw [execMend, onStream_ok hi rfl]
  · rw [openLoop_fits (by rw [hl]; simp), Nat.mod_eq_of_lt hlt, if_neg (Nat.pos_iff_ne_zero.1 h0), hl]
    rfl
  · rw [openLoop_fits (by rw [hl]; simp), if_pos (Nat.zero_mod _)]
    simp only [setCtr, hl, passLoops]
  · rw [openLoop_fits h, Nat.mod_eq_of_lt hlt, if_neg (Nat.pos_iff_ne_zero.1 h0), if_pos hl.ge]
  · simp only [stepStream, hl, passLoops, he, bne_self_eq_false, Bool.false_eq_true, if_false, hc, setCtr, gt_iff_lt, if_pos hleft]
  · simp only [stepStream, hl, hr, passLoops, he, bne_self_eq_false, Bool.false_eq_true, if_false, hc, setCtr, gt_iff_lt,
      if_neg (Nat.not_lt.2 hleft)]
  · rw [stepStream, passLoops_of_none _ _ h]

/-! ## CSIG and CWAIT (R309, R310) -/

/-- Settles O42: each form of CSIG and CWAIT, by the meaning of its instruction. -/
theorem copyStreamSignalsAndWaits : Obligations.CopyStreamSignalsAndWaits := by
  refine ⟨fun s k c hi => ⟨fun hd form => ?_, fun hd => ⟨fun bar n out ho => ?_, fun o scope addr val ch ea t hea hc hh hm => ?_,
    fun bar n ho => ?_⟩, fun bar ph done hw => ?_, fun cmp scope addr val ch t ht hc => ⟨fun hf r hr => ?_, fun hf => ?_⟩⟩,
    fun s b j x hx => ⟨fun bar ph hw => ?_, fun l cmp v r hw hf hr => ?_⟩⟩
  · exact onStream_ok hi (by simp only [hd, Bool.not_false, if_true])
  · exact onStream_ok hi (by simp only [hd, Bool.not_true, Bool.false_eq_true, if_false, ho])
  · subst hea
    refine ⟨fun hp => onStream_ok hi ?_, fun hp ht => ?_⟩
    · simp only [hd, Bool.not_true, Bool.false_eq_true, if_false, hc, hh, hm, Bool.or_self, hp, if_true]
    · subst ht
      refine ⟨fun hf => onStream_ok hi ?_, fun hf => onStream_ok hi ?_⟩
      · simp only [hd, Bool.not_true, Bool.false_eq_true, if_false, hc, hh, hm, Bool.or_self, hp, hf]
      · simp only [hd, Bool.not_true, Bool.false_eq_true, if_false, hc, hh, hm, Bool.or_self, hp, hf, if_true]
  · exact onStream_ok hi (by simp only [hd, Bool.not_true, Bool.false_eq_true, if_false, ho])
  · refine onStream_ok hi ?_
    simp only [hw]
    cases done <;> rfl
  · subst ht
    refine onStream_ok hi ?_
    simp only [hc, hf, Bool.false_eq_true, if_false, hr]
    cases r <;> rfl
  · subst ht
    refine onStream_ok hi ?_
    simp only [hc, hf, if_true]
  · change execCwaitSatisfied b j s = _
    simp only [execCwaitSatisfied, hx, hw]
  · change execCwaitSatisfied b j s = _
    simp only [execCwaitSatisfied, hx, hw, hf, Bool.false_eq_true, if_false, hr]
    cases r <;> rfl

end Sys2Proof.Machine

/-! # The matrix stream (R280, R281, R286, R291, R294, R311 to R319) -/

namespace Sys2Proof.Machine

open Sys2Proof Sys2Proof.Claims

/-! ## Products (R281, R294, R313 to R315) -/

section
variable {s : State} {k : SCtx} {check : Core → Option FCode} {act : Core → Core × Flags}

theorem matrixOp_ok (hi : engIdle k.e = true) (h : check (coreOf s k) = none) : matrixOp s k check act =
    .ok (accept (goOn (raiseFlags (modCore s k.blk.core fun _ => (act (coreOf s k)).1) k.b (act (coreOf s k)).2) k) k.b k.k
      (mkOp k.st.pc none none none [])) := by
  simp only [matrixOp, hi, h, Bool.not_true, Bool.false_eq_true, if_false]

theorem matrixOp_error {code : FCode} (hi : engIdle k.e = true) (h : check (coreOf s k) = some code) :
    matrixOp s k check act = .error (raise code none) := by
  simp only [matrixOp, hi, h, Bool.not_true, Bool.false_eq_true, if_false]

theorem withGrant_granted {bit : Nat} {go : Except Raise State} {g : BitVec 16} (hg : k.st.granted = some g)
    (h : grants g bit = true) : withGrant s k bit go = go := by
  simp only [withGrant, hg, h, if_true]

theorem withGrant_asks {bit : Nat} {go : Except Raise State} (hg : k.st.granted = none) (h : grants k.st.profile bit = true) :
    withGrant s k bit go =
      .ok (askGrant (modStream s k.b k.k fun st => { st with wait := .grant k.st.profile }) k.b) := by
  simp only [withGrant, hg, h, if_true]

/-- An MMA once no operation has rows left and its check has passed. -/
theorem execMma_checked {c : Ctl} {d : Fin 48} {a b : Fin 64} {kind : MmaKind} (hi : StreamIssues s k false) (he : engIdle k.e = true)
    (h : mmaCheck (coreOf s k) k.b d a b kind = none) {t : State}
    (ht : withGrant s k (kindBit (coreOf s k) a b kind)
      (matrixOp (addWork s k.b (32768 * slotK (coreOf s k).slots[a].origin.fmt.toNat) 0) k
        (fun c => mmaCheck c k.b d a b kind) fun c => mmaCompute c d a b kind) = .ok t) :
    execMma c d a b kind s = .next t :=
  onStream_ok hi (by simp only [he, Bool.not_true, Bool.false_eq_true, if_false, h, ht])

/-- Settles O44: each instruction's check, then its effect on its tile and its number. -/
theorem matrixProductsAct : Obligations.MatrixProductsAct := by
  intro s k c hi he
  refine ⟨fun d a b kind g hc hg hgr => execMma_checked (c := c) hi he hc ?_, fun d a b kind code hc => onStream_error hi ?_,
    fun d a b kind hc hg hgr => execMma_checked (c := c) hi he hc (withGrant_asks hg hgr),
    fun d a hc => onStream_ok hi (matrixOp_ok he hc), fun d hh => ⟨_, rfl, onStream_ok hi (matrixOp_ok he (if_pos hh))⟩,
    fun d hh => onStream_error hi (matrixOp_error he (if_neg (by rw [hh]; exact Bool.false_ne_true))),
    fun d x gg p g bytes hc hg hgr table list ht hl hta hla hb => ?_,
    fun d a code hc => onStream_error hi (matrixOp_error he hc), fun d x gg p code hc => onStream_error hi ?_,
    fun d x gg p hc hal => onStream_error hi ?_⟩
  · rw [withGrant_granted hg hgr]
    exact matrixOp_ok he hc
  · simp only [he, Bool.not_true, Bool.false_eq_true, if_false, hc]
  · subst ht hl
    refine ⟨fun hp => onStream_error hi ?_, fun hp s1 hs1 => onStream_ok hi ?_⟩
    · simp only [he, Bool.not_true, Bool.false_eq_true, if_false, hc, hta, hla, bne_self_eq_false, Bool.or_self,
        withGrant_granted hg hgr, hb, hp, if_true]
    · subst hs1
      simp only [he, Bool.not_true, Bool.false_eq_true, if_false, hc, hta, hla, bne_self_eq_false, Bool.or_self,
        withGrant_granted hg hgr, hb, hp]
  · simp only [he, Bool.not_true, Bool.false_eq_true, if_false, hc]
  · have hmis : (k.st.params[p].toNat % 2 ^ 56 % 64 != 0 ||
        k.st.params[Fin.ofNat 64 (p.val + 1)].toNat % 2 ^ 56 % 256 != 0) = true := by
      rw [Nat.mod_mod_of_dvd _ (by norm_num), Nat.mod_mod_of_dvd _ (by norm_num), Bool.or_eq_true, bne_iff_ne, bne_iff_ne]
      exact hal
    simp only [he, Bool.not_true, Bool.false_eq_true, if_false, hc, hmis, if_true]

end

/-! ## Copy instructions (R293, R300 to R307) -/

theorem descOk_ok {d : CDesc} (hl : d.rowlen ≠ 0) {rows planes : Bool} (hr : rows = true → d.rows ≠ 0)
    (hp : planes = true → d.planes ≠ 0) : descOk d rows planes = .ok () := by
  have hc : ¬ (d.rowlen = 0 || (rows && d.rows = 0) || (planes && d.planes = 0)) = true := by
    simp only [Bool.or_eq_true, Bool.and_eq_true, decide_eq_true_eq, not_or, not_and]
    exact ⟨⟨hl, hr⟩, hp⟩
  exact if_neg hc

theorem descOk_empty {d : CDesc} (hl : d.rowlen = 0) (rows planes : Bool) : descOk d rows planes = .error (descError 0) := by
  simp only [descOk, hl, decide_true, Bool.true_or, if_true]

/-- The rows of an operation write what their kinds write; the writing of what a versioned one gathers adds nothing. -/
theorem opDsts_numberRows (s : State) (a : EAgent) {op : EngOp} {ver : Option (BitVec 8)} {rows : List RowKind}
    (h : op.rows = numberRows ver rows) : opDsts s a op = rows.flatMap (rowDsts s a) := by
  have hk : (numberRows ver rows).map (·.kind) = rows ++ if ver.isSome then [RowKind.put] else [] := by
    rw [numberRows, List.map_map]
    exact List.zipIdx_map_fst 0 _
  have : opDsts s a op = ((numberRows ver rows).map (·.kind)).flatMap (rowDsts s a) := by
    rw [opDsts, h, List.flatMap_map]
  rw [this, hk, List.flatMap_append]
  cases ver <;> simp [rowDsts]

section
variable {s : State} {a : EAgent} {d : CDesc} {va i : Nat} {cc : CopyKind} {rows : List RowKind} {ver : Option (BitVec 8)}
  {fill : Option Fill}

/-- An operation with the rows, the version and the fill that its descriptor plans, as it starts. -/
def planned (s : State) (a : EAgent) (op : EngOp) (rows : List RowKind) (ver : Option (BitVec 8)) (fill : Option Fill) : EngOp :=
  let op1 := { op with rows := numberRows ver rows, ver := ver, fill := fill, started := true }
  { op1 with dsts := opDsts s a op1 }

/-- An operation starts with what its descriptor plans. -/
theorem startsWith_of_plan {n : Nat} (hd : readDesc s a va = .ok d) (hp : planOf s a cc d i = .ok (rows, ver, fill))
    (hn : n = descWork va + if (cc = .cgath || cc = .cscat) && !inSpan d.aux then 4 * d.rows else 0) :
    StartsWith s a cc va i n rows ver fill := by
  intro op hop
  subst hn
  refine ⟨planned s a op rows ver fill, ?_, rfl, rfl, rfl, rfl, rfl, rfl, rfl, opDsts_numberRows s a rfl⟩
  simp only [starting, hop, hd, hp]
  rfl

theorem rawPlan_ok {xs ys : List Nat} (h : preCheck s a ((xs.zip ys).map fun p => RowKind.raw p.1 p.2 d.rowlen) = .ok ()) :
    rawPlan s a d xs ys = .ok ((xs.zip ys).map fun p => RowKind.raw p.1 p.2 d.rowlen, d.ver, none) := by
  simp only [rawPlan, h, bind, Except.bind]
  rfl

/-- A descriptor of length 0 plans nothing, whatever the instruction (R301). -/
theorem planOf_empty (cc : CopyKind) (i : Nat) (hl : d.rowlen = 0) : planOf s a cc d i = .error (descError 0) := by
  cases cc <;> simp only [planOf, descOk_empty hl, bind, Except.bind]

end

theorem copyAccepted {s : State} {k : SCtx} (hi : StreamIssues s k true) (p : Fin 64) (cc : CopyKind) :
    CopyAccepted s k p cc (onStream s true true fun k => copyOp s k p cc) := onStream_ok hi rfl

theorem copyInstructionsAreAccepted : CopyInstructionsAreAccepted := by
  refine ⟨fun s k c p hi => ⟨copyAccepted hi p _, copyAccepted hi p _, copyAccepted hi p _, copyAccepted hi p _, copyAccepted hi p _,
    copyAccepted hi p _, fun m => copyAccepted hi p _, fun t => copyAccepted hi p _⟩,
    fun s a d va i w wl hw hwl hd hlen => ⟨fun rows hr hpre => ?_, fun hrows => ⟨fun idx rows hidx => ⟨fun hr hpre => ?_,
      fun hr hpre => ?_⟩, fun t => ?_, fun m o0 o ho0 ho hf0 hf2 hf7 hr hl hss => ?_, fun hpl => ⟨fun rows hr hpre => ?_,
      fun hv hop h1 h2 h3 h4 h5 h6 h7 => ?_, fun h1 h2 h3 h4 => ?_⟩⟩⟩,
    fun s a op cc va i x hop => ⟨fun hd => ?_, fun d hd hl => ?_⟩⟩
  · subst hr hw
    refine startsWith_of_plan hd ?_ rfl
    simp only [planOf, descOk_ok (rows := false) (planes := false) hlen nofun nofun, bind, Except.bind]
    exact rawPlan_ok hpre
  · subst hr hw hwl
    refine startsWith_of_plan hd ?_ (by cases h : inSpan d.aux <;> simp)
    simp only [planOf, descOk_ok (rows := true) (planes := false) hlen (fun _ => hrows) nofun, bind, Except.bind, hidx]
    exact rawPlan_ok hpre
  · subst hr hw hwl
    refine startsWith_of_plan hd ?_ (by cases h : inSpan d.aux <;> simp)
    simp only [planOf, descOk_ok (rows := true) (planes := false) hlen (fun _ => hrows) nofun, bind, Except.bind, hidx]
    exact rawPlan_ok hpre
  · subst hw
    refine startsWith_of_plan hd ?_ rfl
    simp only [planOf, descOk_ok (rows := true) (planes := false) hlen (fun _ => hrows) nofun, bind, Except.bind]
    rfl
  · subst hw
    refine startsWith_of_plan hd ?_ rfl
    have hc : ¬ (d.rows > 128 || o.fmt.toNat = 0 || o.fmt.toNat = 2 || o.fmt.toNat > 7 || d.rowlen > slotK o.fmt.toNat ||
        (!o.plain && (d.ss < 0 || d.ss ≥ 2 ^ 24))) = true := by
      have h0 : o.fmt.toNat ≠ 0 := fun h => hf0 (BitVec.eq_of_toNat_eq h)
      have h2 : o.fmt.toNat ≠ 2 := fun h => hf2 (BitVec.eq_of_toNat_eq h)
      rcases hss with hss | ⟨hss, hss'⟩
      · simp only [hss, Bool.not_true, Bool.false_and, Bool.or_false, Bool.or_eq_true, decide_eq_true_eq]
        omega
      · simp only [Bool.or_eq_true, Bool.and_eq_true, decide_eq_true_eq]
        omega
    simp only [planOf, descOk_ok (rows := true) (planes := false) hlen (fun _ => hrows) nofun, bind, Except.bind, ho0]
    rw [← ho, if_neg hc]
    rfl
  · subst hr hw
    refine startsWith_of_plan hd ?_ rfl
    simp only [planOf, descOk_ok (rows := true) (planes := true) hlen (fun _ => hrows) (fun _ => hpl), bind, Except.bind]
    exact rawPlan_ok hpre
  · subst hw
    refine startsWith_of_plan hd ?_ rfl
    simp only [planOf, descOk_ok (rows := true) (planes := true) hlen (fun _ => hrows) (fun _ => hpl), bind, Except.bind, hv,
      Option.isSome_none, Bool.false_or, gt_iff_lt, decide_eq_true_eq, if_neg (Nat.not_lt.2 hop), h1, h2, h3, h4, h5, h6, h7,
      bne_self_eq_false, Bool.or_self, Bool.false_eq_true, if_false]
    rfl
  · subst hw
    refine startsWith_of_plan hd ?_ rfl
    have h3' : d.ds % ((2 ^ d.fillw : Nat) : Int) = 0 := by exact_mod_cast h3
    have h4' : d.dps % ((2 ^ d.fillw : Nat) : Int) = 0 := by exact_mod_cast h4
    simp only [planOf, descOk_ok (rows := true) (planes := true) hlen (fun _ => hrows) (fun _ => hpl), bind, Except.bind, h1, h2,
      h3', h4', bne_self_eq_false, Bool.or_self, Bool.false_eq_true, if_false]
    rfl
  · simp only [starting, hop, hd]
  · simp only [starting, hop, hd, planOf_empty cc i hl] <;> rfl

/-! ## TGATH (R308) -/

/-- The check of one lane's row of a TGATH. -/
def gatherLane (lo hi : VVal) (dest len : Nat) (fromReg : Bool) (l : Nat) : Except Raise (Nat × Nat × Nat) :=
  let ea := (pairLane lo hi l).toNat
  if ea ≥ Config.vaLimit then .error (raise .protection (some l) 0 ea)
  else if ea % 4 != 0 || dest % 4 != 0 then .error (raise .misaligned (some l) 0 ea)
  else if fromReg && (len < 4 || len > 4096 || len % 4 != 0) then .error (raise .illegal (some l) 6)
  else .ok (l, ea, dest + l * len)

section
variable {k : GCtx} {m : LaneMask} {a : Fin 128} {dest len : Nat} {fromReg : Bool} {lo hi : VVal}

theorem gatherRows_eq (hlo : readV k m (2 * a.val) = .ok lo) (hhi : readV k m (2 * a.val + 1) = .ok hi) :
    gatherRows k m a dest len fromReg = forLanes (gatherLane lo hi dest len fromReg) (lanesOf m) := by
  simp only [gatherRows, hlo, hhi, bind, Except.bind]
  rfl

/-- What it means that a lane's row is sound. -/
theorem gatherLane_ok_iff {l : Nat} {x : Nat × Nat × Nat} : gatherLane lo hi dest len fromReg l = .ok x ↔
    (pairLane lo hi l).toNat < Config.vaLimit ∧ (pairLane lo hi l).toNat % 4 = 0 ∧ dest % 4 = 0 ∧
      (fromReg = true → 4 ≤ len ∧ len ≤ 4096 ∧ len % 4 = 0) ∧ x = (l, (pairLane lo hi l).toNat, dest + l * len) := by
  by_cases h1 : Config.vaLimit ≤ (pairLane lo hi l).toNat
  · simp only [gatherLane, ge_iff_le, h1, if_true, reduceCtorEq, Nat.not_lt.2 h1, false_and]
  · by_cases h2 : ((pairLane lo hi l).toNat % 4 != 0 || dest % 4 != 0) = true
    · simp only [gatherLane, ge_iff_le, h1, h2, if_true, if_false, reduceCtorEq, false_iff]
      simp only [Bool.or_eq_true, bne_iff_ne] at h2
      rintro ⟨-, ha, hd, -⟩
      rcases h2 with h2 | h2
      · exact h2 ha
      · exact h2 hd
    · have h2' : (pairLane lo hi l).toNat % 4 = 0 ∧ dest % 4 = 0 := by
        simpa only [Bool.or_eq_true, bne_iff_ne, not_or, not_not] using h2
      by_cases h3 : (fromReg && (len < 4 || len > 4096 || len % 4 != 0)) = true
      · simp only [gatherLane, ge_iff_le, h1, h2, h3, if_true, if_false, reduceCtorEq, false_iff]
        simp only [Bool.and_eq_true, Bool.or_eq_true, decide_eq_true_eq, bne_iff_ne] at h3
        rintro ⟨-, -, -, hlen, -⟩
        have := hlen h3.1
        omega
      · have h3' : fromReg = true → 4 ≤ len ∧ len ≤ 4096 ∧ len % 4 = 0 := fun h => by
          simp only [h, Bool.true_and, Bool.or_eq_true, decide_eq_true_eq, bne_iff_ne] at h3
          omega
        have hok : gatherLane lo hi dest len fromReg l = .ok (l, (pairLane lo hi l).toNat, dest + l * len) := by
          rw [gatherLane, if_neg h1, if_neg h2, if_neg h3]
        rw [hok, Except.ok.injEq]
        exact ⟨fun h => ⟨Nat.not_le.1 h1, h2'.1, h2'.2, h3', h.symm⟩, fun ⟨_, _, _, _, h⟩ => h.symm⟩

theorem gatherRows_sound {rows : List (Nat × Nat × Nat)} (hlo : readV k m (2 * a.val) = .ok lo)
    (hhi : readV k m (2 * a.val + 1) = .ok hi) (h : gatherRows k m a dest len fromReg = .ok rows) :
    rows = (lanesOf m).map (fun l => (l, (pairLane lo hi l).toNat, dest + l * len)) ∧
    (m ≠ 0 → dest % 4 = 0 ∧ (fromReg = true → 4 ≤ len ∧ len ≤ 4096 ∧ len % 4 = 0)) ∧
    ∀ l ∈ lanesOf m, (pairLane lo hi l).toNat % 4 = 0 ∧ (pairLane lo hi l).toNat < Config.vaLimit := by
  rw [gatherRows_eq hlo hhi] at h
  have hall := forLanes_ok_mem h
  have hmap := forLanes_ok (f := gatherLane lo hi dest len fromReg)
    (g := fun l => (l, (pairLane lo hi l).toNat, dest + l * len)) (ls := lanesOf m) fun l hl => by
      obtain ⟨x, hx⟩ := hall l hl
      obtain ⟨-, -, -, -, rfl⟩ := gatherLane_ok_iff.1 hx
      exact hx
  refine ⟨Except.ok.inj (h.symm.trans hmap), fun hm => ?_, fun l hl => ?_⟩
  · obtain ⟨l, hl⟩ := exists_lane hm
    obtain ⟨x, hx⟩ := hall l hl
    obtain ⟨-, -, hd, hn, -⟩ := gatherLane_ok_iff.1 hx
    exact ⟨hd, hn⟩
  · obtain ⟨x, hx⟩ := hall l hl
    obtain ⟨hv, ha, -, -, -⟩ := gatherLane_ok_iff.1 hx
    exact ⟨ha, hv⟩

/-- The first lane whose row is not sound decides. -/
theorem gatherRows_error {pre post : List Nat} {l : Nat} {e : Raise} (hlo : readV k m (2 * a.val) = .ok lo)
    (hhi : readV k m (2 * a.val + 1) = .ok hi) (hl : lanesOf m = pre ++ l :: post)
    (hpre : ∀ x ∈ pre, (pairLane lo hi x).toNat < Config.vaLimit ∧ (pairLane lo hi x).toNat % 4 = 0 ∧ dest % 4 = 0 ∧
      (fromReg = true → 4 ≤ len ∧ len ≤ 4096 ∧ len % 4 = 0))
    (he : gatherLane lo hi dest len fromReg l = .error e) : gatherRows k m a dest len fromReg = .error e := by
  rw [gatherRows_eq hlo hhi]
  have hs := lanesOf_sorted m
  refine forLanes_error hs (by rw [hl]; simp) he fun j hj hjl => ?_
  rw [hl, List.pairwise_append] at hs
  rw [hl] at hj
  rcases List.mem_append.1 hj with hj | hj
  · obtain ⟨hv, ha, hd, hn⟩ := hpre j hj
    exact ⟨_, gatherLane_ok_iff.2 ⟨hv, ha, hd, hn, rfl⟩⟩
  · rcases List.mem_cons.1 hj with rfl | hj
    · exact absurd hjl (Nat.lt_irrefl _)
    · exact absurd ((List.pairwise_cons.1 hs.2.1).1 j hj) (Nat.not_lt.2 hjl.le)

end

section
variable {s : State} {k : GCtx} {c : Ctl} {m : LaneMask} {d a b : Fin 128} {len : Src} {dest : Word64} {n : Word}

/-- Acceptance never fails. -/
theorem acceptGather_ok (s : State) (k : GCtx) (d : Fin 128) (m : LaneMask) (rows : List (Nat × Nat × Nat)) (len : Nat) :
    ∃ t, acceptGather s k d m rows len = .ok t := ⟨_, rfl⟩

/-- Whether a length comes from a register. -/
def lenFromReg : Src → Bool
  | .int _ => false
  | _ => true

/-- TGATH once every lane's row is sound. -/
def tgathGo (s : State) (k : GCtx) (d : Fin 128) (m : LaneMask) (dest n : Nat) (rows : List (Nat × Nat × Nat)) :
    Except Raise State :=
  let takes := linesFor k.wp (.v (Fin.ofNat 256 (2 * d.val)) .w) [] 2 false m
  match takeLines k takes m with
  | .error e => .error e
  | .ok _ =>
    if engIdle k.blk.ctxs[(1 : Fin 4)] then acceptGather s k d m rows n
    else .ok (modGangW s k.b k.w k.g.gid fun g => { g with wait := .tgath d m rows dest n, takes := takes })

theorem execTgath_eq (hi : Issues s k c m) (hb : readPairUni k m b = .ok dest) (hn : readUni k m len = .ok n) :
    execTgath c d a b len s =
      match gatherRows k m a dest.toNat n.toNat (lenFromReg len) with
      | .error e => .next (takeFault s s.cur e)
      | .ok rows =>
        match tgathGo s k d m dest.toNat n.toNat rows with
        | .error e => .next (takeFault s s.cur e)
        | .ok t => .next t := by
  refine (onLanes_issues hi).trans ?_
  simp only [hb, hn, bind, Except.bind]
  cases len
  all_goals
    simp only [lenFromReg]
    generalize gatherRows k m a dest.toNat n.toNat _ = x
    cases x with
    | error e => rfl
    | ok rows =>
      simp only [tgathGo]
      cases takeLines k (linesFor k.wp (.v (Fin.ofNat 256 (2 * d.val)) .w) [] 2 false m) m with
      | error e => simp only [ite_self]
      | ok _ => cases engIdle k.blk.ctxs[(1 : Fin 4)] <;> rfl

theorem gatherIsAccepted : GatherIsAccepted := by
  refine ⟨fun s k c m d a b len dest n rows hi hb hn hr takes ht => ⟨fun hl => ⟨fun he => ?_, fun he => ?_⟩, fun hl => ?_⟩,
    fun s p k d m rows dst len hk hw => ?_, fun k m a dest len fromReg rows lo hi hlo hhi h => gatherRows_sound hlo hhi h,
    fun s k c m d a b len dest n fromReg lo hi pre post l ea hiss hb hn hf hlo hhi hl hpre hea =>
      ⟨fun h => ?_, fun h1 h2 => ?_, fun h1 h2 h3 hreg h4 => ?_⟩⟩
  · obtain ⟨t, hacc⟩ := acceptGather_ok s k d m rows n.toNat
    subst ht
    have hr' : gatherRows k m a dest.toNat n.toNat (lenFromReg len) = .ok rows := hr
    refine ⟨t, hacc, (execTgath_eq hi hb hn).trans ?_⟩
    simp only [hr', tgathGo, takeLines_ok hl, he, if_true, hacc]
  · subst ht
    have hr' : gatherRows k m a dest.toNat n.toNat (lenFromReg len) = .ok rows := hr
    refine (execTgath_eq hi hb hn).trans ?_
    simp only [hr', tgathGo, takeLines_ok hl, he, Bool.false_eq_true, if_false]
  · subst ht
    have hr' : gatherRows k m a dest.toNat n.toNat (lenFromReg len) = .ok rows := hr
    refine (execTgath_eq hi hb hn).trans ?_
    simp only [hr', tgathGo, takeLines_error hl]
  · obtain ⟨t, hacc⟩ := acceptGather_ok s k d m rows len
    refine ⟨t, hacc, ?_⟩
    change execTgathAccept p s = _
    simp only [execTgathAccept, hk, hw, hacc]
  all_goals
    have hf' : fromReg = lenFromReg len := hf
    subst hea hf'
    refine (execTgath_eq hiss hb hn).trans ?_
  · rw [gatherRows_error (e := raise .protection (some l) 0 (pairLane lo hi l).toNat) hlo hhi hl hpre]
    simp only [gatherLane, ge_iff_le, h, if_true]
  · have hmis : ((pairLane lo hi l).toNat % 4 != 0 || dest.toNat % 4 != 0) = true := by
      simpa only [Bool.or_eq_true, bne_iff_ne] using h2
    rw [gatherRows_error (e := raise .misaligned (some l) 0 (pairLane lo hi l).toNat) hlo hhi hl hpre]
    simp only [gatherLane, ge_iff_le, if_neg (Nat.not_le.2 h1), hmis, if_true]
  · have hlen : (lenFromReg len && (n.toNat < 4 || n.toNat > 4096 || n.toNat % 4 != 0)) = true := by
      simp only [hreg, Bool.true_and, Bool.or_eq_true, decide_eq_true_eq, bne_iff_ne]
      omega
    rw [gatherRows_error (e := raise .illegal (some l) 6) hlo hhi hl hpre]
    simp only [gatherLane, ge_iff_le, if_neg (Nat.not_le.2 h1), h2, h3, bne_self_eq_false, Bool.or_self, Bool.false_eq_true,
      if_false, hlen, if_true]

end

/-- Settles O46: copy instructions by the plan of their descriptor, TGATH by the check of each lane's row. -/
theorem copiesAreAccepted : Obligations.CopiesAreAccepted := ⟨copyInstructionsAreAccepted, gatherIsAccepted⟩

end Sys2Proof.Machine

/-! # Elements of tiles, claims and saved matrix state (R33 to R36, R279, R280, R286, R291, R294, R312, R313, R316 to R319) -/

namespace Sys2Proof.Machine

open Sys2Proof Sys2Proof.Claims

/-! ## Lists of chunks of one length -/

theorem drop_take_flatMap {α β : Type} {f : α → List β} {n : Nat} (hf : ∀ x, (f x).length = n) :
    ∀ (l : List α) (i : Nat) (h : i < l.length), ((l.flatMap f).drop (n * i)).take n = f l[i]
  | x :: l, 0, _ => by
    rw [List.flatMap_cons, Nat.mul_zero, List.drop_zero, List.getElem_cons_zero, ← hf x, List.take_left]
  | x :: l, i + 1, h => by
    have e : n * (i + 1) = (f x).length + n * i := by rw [hf x]; ring
    rw [List.flatMap_cons, e, List.drop_length_add_append, List.getElem_cons_succ]
    exact drop_take_flatMap hf l i (by simpa using h)

theorem length_flatMap_const {α β : Type} {f : α → List β} {n : Nat} (hf : ∀ x, (f x).length = n) (l : List α) :
    (l.flatMap f).length = n * l.length := by
  rw [List.length_flatMap, List.map_congr_left (fun x _ => hf x), List.map_const', List.sum_replicate, smul_eq_mul, Nat.mul_comm]

/-- Part of a range just written. -/
theorem memRead_memWrite_part {m : Mem} (a o n : Nat) (bs : List Byte) (h : Memory.wf m = true) (hn : o + n ≤ bs.length) :
    memRead (memWrite m a bs) (a + o) n = (bs.drop o).take n := by
  refine List.ext_getElem (by simp; omega) fun i hi _ => ?_
  rw [memRead_length] at hi
  simp only [memRead, List.getElem_map, List.getElem_range, List.getElem_take, List.getElem_drop]
  rw [memGet_memWrite _ _ _ h, dif_pos (by omega)]
  congr 1
  omega

/-- Reading outside a range just written. -/
theorem memRead_memWrite_other {m : Mem} (a b n : Nat) (bs : List Byte) (h : Memory.wf m = true)
    (hb : b + n ≤ a ∨ a + bs.length ≤ b) : memRead (memWrite m a bs) b n = memRead m b n :=
  List.map_congr_left fun i hi => memGet_memWrite_other _ _ _ h (by have := List.mem_range.1 hi; omega)

/-! ## Tiles (R288) -/

section
variable {c : Core} {d : Fin 48} {f : Nat → Nat → Word} {i j : Nat}

/-- The bytes of a whole tile. -/
def tileWords (f : Nat → Nat → Word) : List Byte :=
  (List.range 128).flatMap fun r => (List.range 128).flatMap fun j => leBytes 4 (f r j).toNat

theorem tileRow_length (f : Nat → Nat → Word) (r : Nat) :
    ((List.range 128).flatMap fun j => leBytes 4 (f r j).toNat).length = 512 := by
  rw [length_flatMap_const fun _ => leBytes_length _ _, List.length_range]

theorem tileWords_length (f : Nat → Nat → Word) : (tileWords f).length = 65536 := by
  rw [tileWords, length_flatMap_const (tileRow_length f), List.length_range]

theorem tileWords_part (hi : i < 128) (hj : j < 128) :
    ((tileWords f).drop (4 * (128 * i + j))).take 4 = leBytes 4 (f i j).toNat := by
  have hrow := drop_take_flatMap (tileRow_length f) (List.range 128) i (by simpa using hi)
  have hel := drop_take_flatMap (fun j => leBytes_length 4 (f i j).toNat) (List.range 128) j (by simpa using hj)
  rw [List.getElem_range] at hrow hel
  rw [← hel, ← hrow, List.drop_take, List.take_take, List.drop_drop, Nat.min_eq_left (by omega)]
  congr 2
  omega

theorem setTileMode_tileBytes (c : Core) (d : Fin 48) (m : TMode) (sR sC : List (BitVec 16)) :
    (setTileMode c d m sR sC).tileBytes = c.tileBytes := rfl

theorem setTileRows_tiles (c : Core) (d : Fin 48) (lo hi : Nat) (f : Nat → Nat → Word) :
    (setTileRows c d lo hi f).tiles = c.tiles := rfl

theorem setTileRows_all (c : Core) (d : Fin 48) (f : Nat → Nat → Word) : setTileRows c d 0 128 f =
    { c with tileBytes := memWrite c.tileBytes (tileAddr d.val 0 0) (tileWords f) } := by
  simp only [setTileRows, tileWords, Nat.sub_zero, Nat.zero_add]

/-- An element of a tile that has been written whole and is not EMPTY. -/
theorem tileWord_of_written {c' : Core} (hwf : Memory.wf c.tileBytes = true) (hi : i < 128) (hj : j < 128)
    (hb : c'.tileBytes = (setTileRows c d 0 128 f).tileBytes) (hm : c'.tiles[d].mode ≠ .empty) : tileWord c' d i j = f i j := by
  have ha : tileAddr d.val i j = tileAddr d.val 0 0 + 4 * (128 * i + j) := by simp only [tileAddr]; omega
  rw [tileWord, if_neg hm, hb, setTileRows_all, memNat, ha,
    memRead_memWrite_part _ _ _ _ hwf (by rw [tileWords_length]; omega), tileWords_part hi hj, leNat_leBytes,
    Nat.mod_eq_of_lt (show (f i j).toNat < 256 ^ 4 from (f i j).isLt), BitVec.ofNat_toNat, BitVec.setWidth_eq]

/-- The elements of the other tiles stay. -/
theorem tileWord_of_other {c' : Core} {e : Fin 48} (hwf : Memory.wf c.tileBytes = true) (hi : i < 128) (hj : j < 128)
    (hb : c'.tileBytes = (setTileRows c d 0 128 f).tileBytes) (he : e ≠ d) (hm : c'.tiles[e] = c.tiles[e]) :
    tileWord c' e i j = tileWord c e i j := by
  have hne : e.val ≠ d.val := fun h => he (Fin.ext h)
  rw [tileWord, tileWord, hm, hb, setTileRows_all, memNat, memNat, memRead_memWrite_other _ _ _ _ hwf]
  rw [tileWords_length]
  simp only [tileAddr]
  omega

end

/-! ## Products (R33 to R36, R286, R313) -/

/-- An element of the tile that an MMA forms. -/
def mmaElem (c : Core) (d : Fin 48) (a b : Fin 64) (kind : MmaKind) (i j : Nat) : Word × Flags :=
  let as := (kindSlots kind a b).1
  let bs := (kindSlots kind a b).2
  let ts := (List.range (kindK kind)).map fun k => ((operandVal c as i k).1, (operandVal c bs j k).1)
  match kind with
  | .fp8 => fp8Elem ts ((operandScales (as.map fun m => c.slots[m].origin)).getD i 0x3F80)
      ((operandScales (bs.map fun m => c.slots[m].origin)).getD j 0x3F80) (tileWord c d i j)
  | .bf16 => bf16Elem ts (tileWord c d i j)
  | _ => fixElem ts (tileWord c d i j)

section
variable {c : Core} {d : Fin 48} {a b : Fin 64} {kind : MmaKind}

theorem setTileMode_tiles {c1 : Core} (m : TMode) (sR sC : List (BitVec 16)) (hm : m ≠ .empty) :
    (setTileMode c1 d m sR sC).tiles[d].mode ≠ .empty ∧
    ∀ e : Fin 48, e ≠ d → (setTileMode c1 d m sR sC).tiles[e] = c1.tiles[e] := by
  refine ⟨?_, fun e he => ?_⟩
  · simp only [setTileMode, Fin.getElem_fin, Vector.getElem_set_self]
    exact hm
  · simp only [setTileMode, Fin.getElem_fin]
    exact Vector.getElem_set_ne _ _ fun h => he (Fin.ext h.symm)

/-- The tile store and the tiles that an MMA leaves. -/
theorem mmaCompute_core (c : Core) (d : Fin 48) (a b : Fin 64) (kind : MmaKind) : ∃ c1 : Core,
    c1 = (setTileRows c d 0 128 fun i j => (mmaElem c d a b kind i j).1) ∧ (mmaCompute c d a b kind).1.tileBytes = c1.tileBytes ∧
    (mmaCompute c d a b kind).1.tiles[d].mode ≠ .empty ∧
    ∀ e : Fin 48, e ≠ d → (mmaCompute c d a b kind).1.tiles[e] = c.tiles[e] := by
  obtain ⟨c1, hc1⟩ : ∃ c1, c1 = setTileRows c d 0 128 fun i j => (mmaElem c d a b kind i j).1 := ⟨_, rfl⟩
  have ht : c1.tiles = c.tiles := by rw [hc1]; exact setTileRows_tiles _ _ _ _ _
  refine ⟨c1, hc1, ?_⟩
  by_cases hm : c.tiles[d].mode = .empty
  · have h : (mmaCompute c d a b kind).1 = setTileMode c1 d (if kindFix kind then .fix else .fp)
        (if kindFix kind then operandScales ((kindSlots kind a b).1.map fun m => c.slots[m].origin) else [])
        (if kindFix kind then operandScales ((kindSlots kind a b).2.map fun m => c.slots[m].origin) else []) := by
      rw [hc1]
      exact if_pos hm
    obtain ⟨hd, ho⟩ := setTileMode_tiles (d := d) (c1 := c1) (if kindFix kind then .fix else .fp)
      (if kindFix kind then operandScales ((kindSlots kind a b).1.map fun m => c.slots[m].origin) else [])
      (if kindFix kind then operandScales ((kindSlots kind a b).2.map fun m => c.slots[m].origin) else [])
      (by cases kind <;> decide)
    rw [ht] at ho
    rw [h]
    exact ⟨setTileMode_tileBytes _ _ _ _ _, hd, ho⟩
  · have h : (mmaCompute c d a b kind).1 = c1 := by
      rw [hc1]
      exact if_neg hm
    rw [h, ht]
    exact ⟨rfl, hm, fun _ _ => rfl⟩

variable {i j : Nat}

theorem tileWord_mmaCompute (hwf : Memory.wf c.tileBytes = true) (hi : i < 128) (hj : j < 128) :
    tileWord (mmaCompute c d a b kind).1 d i j = (mmaElem c d a b kind i j).1 := by
  obtain ⟨c1, hc1, hb, hm, -⟩ := mmaCompute_core c d a b kind
  exact tileWord_of_written hwf hi hj (hb.trans (congrArg Core.tileBytes hc1)) hm

theorem tileWord_mmaCompute_other {e : Fin 48} (hwf : Memory.wf c.tileBytes = true) (hi : i < 128) (hj : j < 128) (he : e ≠ d) :
    tileWord (mmaCompute c d a b kind).1 e i j = tileWord c e i j := by
  obtain ⟨c1, hc1, hb, -, ht⟩ := mmaCompute_core c d a b kind
  exact tileWord_of_other hwf hi hj (hb.trans (congrArg Core.tileBytes hc1)) he (ht e he)

theorem slotRun_one (m : Fin 64) : slotRun m 1 = [m] := by
  have : Fin.ofNat 64 (m.val + 0) = m := Fin.ext (Nat.mod_eq_of_lt m.isLt)
  simp only [slotRun, List.range_one, List.map_cons, List.map_nil, this]

/-- Position k of an operand of five slots. -/
theorem operandVal_five (c : Core) (m : Fin 64) (i : Nat) {k : Nat} (hk : k < 640) :
    operandVal c (slotRun m 5) i k = portVal c (Fin.ofNat 64 (m.val + k / 128)) i (k % 128) := by
  have hq : k / 128 < (slotRun m 5).length := by simp only [slotRun, List.length_map, List.length_range]; omega
  have hget : (slotRun m 5).getD (k / 128) 0 = Fin.ofNat 64 (m.val + k / 128) := by
    rw [List.getD_eq_getElem _ _ hq]
    simp only [slotRun, List.getElem_map, List.getElem_range]
  rw [← hget]
  rfl

/-- The clamp of an integer or ternary element (R35). -/
theorem clampFix_eq (x : Int) : (clampFix x).1 = max (-2 ^ 31) (min (2 ^ 31 - 1) x) := by
  unfold clampFix
  split
  · dsimp only; omega
  · split
    · dsimp only; omega
    · dsimp only; omega

theorem fixElem_eq (xs : List (FVal × FVal)) (w : Word) : (fixElem xs w).1 = BitVec.ofInt 32 (max (-2 ^ 31) (min (2 ^ 31 - 1)
    (w.toInt + ((xs.map fun t => eighths t.1 * eighths t.2).foldl (· + ·) 0) / 2))) := by
  rw [List.foldl_map]
  exact congrArg (BitVec.ofInt 32) (clampFix_eq _)

end

/-- Settles O45: each element of the tile written is that of its kind's operands, and the other tiles' bytes lie elsewhere. -/
theorem matrixProductElements : Obligations.MatrixProductElements := by
  intro c d a b i j hwf hi hj
  have hb : Memory.wf c.tileBytes = true := by
    rw [Core.memWf, Bool.and_eq_true] at hwf
    exact hwf.2
  refine ⟨?_, ?_, ?_, ?_, ?_, fixElem_eq, fun kind e he => tileWord_mmaCompute_other hb hi hj he⟩
  all_goals rw [tileWord_mmaCompute hb hi hj]
  · simp only [mmaElem, kindSlots, kindK, slotRun_one, List.map_cons, List.map_nil]
  · simp only [mmaElem, kindSlots, kindK, slotRun_one]
  · rfl
  · simp only [mmaElem, kindSlots, kindK, slotRun_one]
    rw [List.map_congr_left fun k hk => by rw [operandVal_five c b j (List.mem_range.1 hk)]]
    rfl
  · simp only [mmaElem, kindSlots, kindK, slotRun_one]
    rw [List.map_congr_left fun k hk => by rw [operandVal_five c a i (List.mem_range.1 hk)]]
    rfl

end Sys2Proof.Machine

/-! # Claims, matrix stores, barriers, grants and saved matrix state (R280, R291, R294, R312, R316 to R319) -/

namespace Sys2Proof.Machine

open Sys2Proof Sys2Proof.Claims

/-! ## Claims (R280, R312) -/

/-- A run of writes of one value. -/
theorem foldl_set_get {α : Type} {n : Nat} [NeZero n] (x : α) (ls : List Nat) (v : Vector α n) (y : Fin n) :
    (ls.foldl (fun v i => v.set (Fin.ofNat n i) x) v)[y] = if y.val ∈ ls.map (· % n) then x else v[y] := by
  induction ls generalizing v with
  | nil => simp
  | cons i ls ih =>
    have hmem : y.val ∈ (i :: ls).map (· % n) ↔ y.val = i % n ∨ y.val ∈ ls.map (· % n) := by
      rw [List.map_cons, List.mem_cons]
    rw [List.foldl_cons, ih]
    by_cases hm : y.val ∈ ls.map (· % n)
    · rw [if_pos hm, if_pos (hmem.2 (.inr hm))]
    · rw [if_neg hm]
      by_cases hy : y.val = i % n
      · rw [if_pos (hmem.2 (.inl hy))]
        simp only [Fin.getElem_fin, hy, Fin.ofNat, Vector.getElem_set_self]
      · rw [if_neg fun h => (hmem.1 h).elim hy hm]
        simp only [Fin.getElem_fin]
        exact Vector.getElem_set_ne _ _ fun h => hy h.symm

theorem mem_rangeFrom_mod {a n m : Nat} (h : a + n ≤ m) {y : Nat} :
    y ∈ (rangeFrom a n).map (· % m) ↔ a ≤ y ∧ y < a + n := by
  simp only [rangeFrom, List.map_map, List.mem_map, List.mem_range, Function.comp_apply]
  constructor
  · rintro ⟨i, hi, rfl⟩
    rw [Nat.mod_eq_of_lt (by omega)]
    omega
  · rintro ⟨h1, h2⟩
    exact ⟨y - a, by omega, by rw [Nat.mod_eq_of_lt (by omega)]; omega⟩

section
variable {s : State} {b : Nat} {core : Fin 256} {a m ns nt : Nat}

theorem takeClaim_core : (takeClaim s b core a m ns nt).cores[core].slots =
      (rangeFrom m ns).foldl (fun v x => v.set (Fin.ofNat 64 x) { Slot.free with owner := some b }) s.cores[core].slots ∧
    (takeClaim s b core a m ns nt).cores[core].tiles =
      (rangeFrom a nt).foldl (fun v x => v.set (Fin.ofNat 48 x) { Tile.free with owner := some b }) s.cores[core].tiles := by
  rw [takeClaim, modBlock_cores, modCore_same]
  exact ⟨rfl, rfl⟩

theorem takeClaim_takes (hm : m + ns ≤ 64) (ha : a + nt ≤ 48) :
    (∀ x : Fin 64, ((takeClaim s b core a m ns nt).cores[core].slots[x]) =
      if m ≤ x.val ∧ x.val < m + ns then { Slot.free with owner := some b } else s.cores[core].slots[x]) ∧
    ∀ x : Fin 48, ((takeClaim s b core a m ns nt).cores[core].tiles[x]) =
      if a ≤ x.val ∧ x.val < a + nt then { Tile.free with owner := some b } else s.cores[core].tiles[x] := by
  obtain ⟨hs, ht⟩ := takeClaim_core (s := s) (b := b) (core := core) (a := a) (m := m) (ns := ns) (nt := nt)
  refine ⟨fun x => ?_, fun x => ?_⟩
  · rw [hs, foldl_set_get]
    simp only [mem_rangeFrom_mod hm]
  · rw [ht, foldl_set_get]
    simp only [mem_rangeFrom_mod ha]

end

section
variable {s : State} {k : SCtx} {c : Ctl} {a : Fin 48} {m : Fin 64} {ns nt : BitVec 16}

/-- A state once a stream's block has given back slots and tiles that it holds. -/
def releasedFrom (s : State) (k : SCtx) (ms as : List Nat) : State :=
  modBlock (modCore s k.blk.core fun c =>
    { c with
      slots := ms.foldl (fun v x => v.set (Fin.ofNat 64 x) Slot.free) c.slots
      tiles := as.foldl (fun v x => v.set (Fin.ofNat 48 x) Tile.free) c.tiles }) k.b fun blk =>
    { blk with claim := blk.claim.bind fun cl => claimAfter cl ms as }

/-- MREL of what its block holds frees exactly that (R312). -/
theorem execMrel_frees (hi : StreamIssues s k false) (hd : engDrained k.e = true)
    (hs : ∀ x ∈ rangeFrom m.val ns.toNat, ((coreOf s k).slots[Fin.ofNat 64 x]).owner = some k.b)
    (ht : ∀ x ∈ rangeFrom a.val nt.toNat, ((coreOf s k).tiles[Fin.ofNat 48 x]).owner = some k.b) :
    ∃ t, execMrel c a m ns nt s = .next (goOn t k) ∧ SameStores s t ∧
      (∀ x : Fin 64, (t.cores[k.blk.core].slots[x]) =
        if x.val ∈ (rangeFrom m.val ns.toNat).map (· % 64) then Slot.free else s.cores[k.blk.core].slots[x]) ∧
      ∀ x : Fin 48, (t.cores[k.blk.core].tiles[x]) =
        if x.val ∈ (rangeFrom a.val nt.toNat).map (· % 48) then Tile.free else s.cores[k.blk.core].tiles[x] := by
  have hs' : ((rangeFrom m.val ns.toNat).all fun x => ((coreOf s k).slots[Fin.ofNat 64 x]).owner = some k.b) = true :=
    List.all_eq_true.2 fun x hx => decide_eq_true (hs x hx)
  have ht' : ((rangeFrom a.val nt.toNat).all fun x => ((coreOf s k).tiles[Fin.ofNat 48 x]).owner = some k.b) = true :=
    List.all_eq_true.2 fun x hx => decide_eq_true (ht x hx)
  refine ⟨releasedFrom s k (rangeFrom m.val ns.toNat) (rangeFrom a.val nt.toNat), onStream_ok hi ?_,
    StoresEq.sameStores ⟨rfl, rfl, rfl⟩, fun x => ?_, fun x => ?_⟩
  · simp only [hd, hs', ht', Bool.not_true, Bool.or_self, Bool.false_eq_true, if_false]
    rfl
  · rw [releasedFrom, modBlock_cores, modCore_same]
    exact foldl_set_get _ _ _ _
  · rw [releasedFrom, modBlock_cores, modCore_same]
    exact foldl_set_get _ _ _ _

theorem execMrel_error (hi : StreamIssues s k false) (hd : engDrained k.e = true) {x : Nat}
    (hx : x ∈ rangeFrom m.val ns.toNat) (ho : ((coreOf s k).slots[Fin.ofNat 64 x]).owner ≠ some k.b) :
    execMrel c a m ns nt s = .next (takeFault s s.cur (raise .slotState none)) := by
  have hs' : ((rangeFrom m.val ns.toNat).all fun x => ((coreOf s k).slots[Fin.ofNat 64 x]).owner = some k.b) = false :=
    List.all_eq_false.2 ⟨x, hx, by simpa using ho⟩
  refine onStream_error hi ?_
  simp only [hd, hs', Bool.not_true, Bool.not_false, Bool.true_or, Bool.false_eq_true, if_false, if_true]

end

theorem claimsAreTakenAndReleased : ClaimsAreTakenAndReleased := by
  refine ⟨fun s k c a m ns nt hi => ⟨fun hc => ⟨fun hf => onStream_ok hi ?_, fun hf => onStream_ok hi ?_⟩,
    fun hc => onStream_error hi ?_, fun hd => ⟨execMrel_frees (c := c) hi hd, fun x hx ho => execMrel_error (c := c) hi hd hx ho⟩⟩,
    fun s b k a m ns nt hk hw hr => ⟨fun hf => ?_, fun hf => ?_⟩, fun s b core a m ns nt hm ha => takeClaim_takes hm ha⟩
  · simp only [hc, Option.isSome_none, Bool.false_eq_true, if_false, hf, if_true]
  · simp only [hc, Option.isSome_none, Bool.false_eq_true, if_false, hf]
  · simp only [Option.isSome_iff_ne_none.2 hc, if_true]
  · change execMclaimTaken b s = _
    simp only [execMclaimTaken, hk, hw, hr, hf, decide_true, Bool.and_self, if_true]
  · change execMclaimTaken b s = _
    simp only [execMclaimTaken, hk, hw, hr, hf, decide_true, Bool.and_false, Bool.false_eq_true, if_false]

/-! ## Stores, barriers and grants (R294, R316, R317, R319) -/

theorem streamOf_of_block {s : State} {b : Nat} {j : Fin 4} {blk : Block} {st : Stream} (hb : s.blocks[b]? = some blk)
    (hst : blk.ctxs[j].stream = some st) :
    streamOf s (.stream b j) = some { b := b, k := j, blk := blk, e := blk.ctxs[j], st := st } := by
  simp only [streamOf, hb, hst]

/-- The stream of a party once its context's stream has changed. -/
theorem streamOf_modStream {s : State} {p : Party} {k : SCtx} (h : streamOf s p = some k) (f : Stream → Stream) :
    ∃ k', streamOf (modStream s k.b k.k f) p = some k' ∧ k'.st = f k.st := by
  obtain ⟨rfl, hb, he, hst⟩ := streamOf_eq_some h
  have hb' := modEng_get (k := k.k) hb fun e => { e with stream := e.stream.map f }
  refine ⟨_, streamOf_of_block (st := f k.st) hb' ?_, rfl⟩
  simp only [Fin.getElem_fin, Vector.getElem_set_self]
  rw [← Fin.getElem_fin, he, hst, Option.map_some]

theorem streamOf_congr {s t : State} (h : t.blocks = s.blocks) (p : Party) : streamOf t p = streamOf s p := by
  unfold streamOf
  rw [h]

theorem giveGrant_sameStores (s : State) (b : Nat) : SameStores s (giveGrant s b) := StoresEq.sameStores ⟨rfl, rfl, rfl⟩

/-- What a grant makes of the stream that waits for it. -/
theorem giveGrant_stream {s : State} {b : Nat} {k : SCtx} {r : BitVec 16} (hk : streamOf s (.stream b 0) = some k)
    (hw : k.st.wait = .grant r) : ∃ k', streamOf (giveGrant s b) (.stream b 0) = some k' ∧
      k'.st = { k.st with granted := some r, wait := .none } := by
  obtain ⟨hp, -⟩ := streamOf_eq_some hk
  obtain ⟨hb, hj⟩ := Party.stream.inj hp
  have hk1 : streamOf { s with matrixReqs := s.matrixReqs.filter (· != b) } (.stream b 0) = some k :=
    (streamOf_congr (s := s) rfl _).trans hk
  obtain ⟨k', hk', hst⟩ := streamOf_modStream hk1 fun st => match st.wait with
      | .grant r => { st with granted := some r, wait := .none }
      | _ => { st with granted := some st.profile }
  rw [← hb, ← hj] at hk'
  refine ⟨k', hk', ?_⟩
  rw [hst, hw]

theorem matrixStoresBarriersGrants : MatrixStoresBarriersGrants := by
  refine ⟨fun s k c hi => ⟨fun a p conv d he hh hbad hd h1 h2 h3 h4 hc => onStream_ok hi ?_, fun b n out hd ho => onStream_ok hi ?_,
    fun b ph done hw => onStream_ok hi ?_, fun profile => ?_⟩,
    fun s b k hk => ⟨fun bar ph hw => ?_, fun hr => ?_, fun hp => ?_, fun hr hp r hw => ?_⟩⟩
  · have hbad' : (coreOf s k).badTiles.contains a.val = false := by simpa using hbad
    have hrange : ¬ (d.rows = 0 || d.rows > 128 || d.rowlen = 0 || d.rowlen > 128) = true := by
      simp only [Bool.or_eq_true, decide_eq_true_eq]
      omega
    simp only [he, hh, hbad', hd, if_neg hrange, hc, Bool.not_true, Bool.false_eq_true, if_false]
  · simp only [hd, ho, Bool.not_true, Bool.false_eq_true, if_false]
    rfl
  · simp only [hw]
    cases done <;> rfl
  · change execMcur c profile s = _
    rw [execMcur, onStream_ok hi rfl]
  · change execMbarwSatisfied b s = _
    simp only [execMbarwSatisfied, hk, hw]
  · change execMatrixGrant b s = _
    simp only [execMatrixGrant, hk, bne_iff_ne.2 hr, if_true]
  · change execMatrixGrant b s = _
    simp only [execMatrixGrant, hk, hp, Bool.false_eq_true, if_false, ite_self]
  · obtain ⟨k', hk', hst⟩ := giveGrant_stream hk hw
    refine ⟨giveGrant s b, ?_, giveGrant_sameStores s b, ?_, k', hk', hst⟩
    · change execMatrixGrant b s = _
      simp only [execMatrixGrant, hk, hr, bne_self_eq_false, Bool.false_eq_true, if_false, hp, if_true]
    · exact fun h => by simpa using (List.mem_filter.1 h).2

/-! ## Saved state (R291, R318) -/

/-- The sixteen words of a stream's image. -/
def imageWords (st : Stream) : List Word :=
  [st.pc, BitVec.ofNat 32 (2 ^ 24 + st.loops.reverse.length)] ++ (List.range 4).flatMap (fun n => match st.loops.reverse[n]? with
    | some l => [BitVec.ofNat 32 l.left, l.first]
    | none => [0, 0]) ++
  [st.colb ++ st.rowb, st.kb.setWidth 32, st.profile.setWidth 32, 0, 0, 0]

theorem loopImage_eq (st : Stream) : loopImage st = (imageWords st).flatMap fun w => leBytes 4 w.toNat := rfl

theorem imageWords_eq (st : Stream) : ∃ a0 a1 b0 b1 c0 c1 d0 d1 : Word, imageWords st =
    [st.pc, BitVec.ofNat 32 (2 ^ 24 + st.loops.length), a0, a1, b0, b1, c0, c1, d0, d1, st.colb ++ st.rowb, st.kb.setWidth 32,
      st.profile.setWidth 32, 0, 0, 0] := by
  have h (n : Nat) : ∃ x y : Word, (match st.loops.reverse[n]? with
      | some l => [BitVec.ofNat 32 l.left, l.first]
      | none => [0, 0]) = [x, y] := by
    cases st.loops.reverse[n]? <;> exact ⟨_, _, rfl⟩
  obtain ⟨a0, a1, ha⟩ := h 0
  obtain ⟨b0, b1, hb⟩ := h 1
  obtain ⟨c0, c1, hc⟩ := h 2
  obtain ⟨d0, d1, hd⟩ := h 3
  refine ⟨a0, a1, b0, b1, c0, c1, d0, d1, ?_⟩
  rw [imageWords, List.length_reverse, show List.range 4 = [0, 1, 2, 3] from rfl]
  simp only [List.flatMap_cons, List.flatMap_nil, ha, hb, hc, hd]
  rfl

/-- Words read back from their bytes. -/
theorem wordsOf_flatMap_leBytes (ws : List Word) : wordsOf (ws.flatMap fun w => leBytes 4 w.toNat) = ws := by
  have hlen : (ws.flatMap fun w => leBytes 4 w.toNat).length = 4 * ws.length := length_flatMap_const (fun _ => leBytes_length _ _) ws
  refine List.ext_getElem (by simp [wordsOf, hlen]) fun i h1 h2 => ?_
  simp only [wordsOf, List.getElem_map, List.getElem_range]
  rw [drop_take_flatMap (fun w : Word => leBytes_length 4 w.toNat) ws i h2, leNat_leBytes,
    Nat.mod_eq_of_lt (show (ws[i]).toNat < 256 ^ 4 from (ws[i]).isLt), BitVec.ofNat_toNat, BitVec.setWidth_eq]

theorem setWidth_append_word (x y : BitVec 16) : ((x ++ y : BitVec (16 + 16)) : Word).setWidth 16 = y := by
  ext i hi
  rw [BitVec.getElem_setWidth, BitVec.getLsbD_append, if_pos hi, BitVec.getLsbD_eq_getElem hi]

theorem extractLsb'_append_word (x y : BitVec 16) : ((x ++ y : BitVec (16 + 16)) : Word).extractLsb' 16 16 = x := by
  ext i hi
  rw [BitVec.getElem_extractLsb', BitVec.getLsbD_append, if_neg (by omega), Nat.add_sub_cancel_left, BitVec.getLsbD_eq_getElem hi]

theorem loopImage_reads (st : Stream) (h : st.loops.length ≤ 4) :
    (loopImage st).length = 64 ∧ imageOk (wordsOf (loopImage st)) = true ∧
    (wordsOf (loopImage st)).getD 0 0 = st.pc ∧ ((wordsOf (loopImage st)).getD 1 0).toNat % 8 = st.loops.length ∧
    ((wordsOf (loopImage st)).getD 10 0).setWidth 16 = st.rowb ∧
    ((wordsOf (loopImage st)).getD 10 0).extractLsb' 16 16 = st.colb ∧
    ((wordsOf (loopImage st)).getD 11 0).setWidth 16 = st.kb ∧ ((wordsOf (loopImage st)).getD 12 0).setWidth 16 = st.profile := by
  obtain ⟨a0, a1, b0, b1, c0, c1, d0, d1, hw⟩ := imageWords_eq st
  have h1 : (BitVec.ofNat 32 (2 ^ 24 + st.loops.length)).toNat = 2 ^ 24 + st.loops.length := by
    rw [BitVec.toNat_ofNat, Nat.mod_eq_of_lt (by omega)]
  rw [loopImage_eq, wordsOf_flatMap_leBytes, length_flatMap_const (fun w : Word => leBytes_length 4 w.toNat), hw]
  refine ⟨rfl, ?_, rfl, ?_, ?_, ?_, ?_, ?_⟩
  · have hkb : (st.kb.setWidth 32).toNat / 65536 = 0 := by
      rw [BitVec.toNat_setWidth]
      have := st.kb.isLt
      omega
    simp only [imageOk, List.getD_cons_succ, List.getD_cons_zero, h1, hkb]
    simp only [Bool.and_eq_true, decide_eq_true_eq, show (0 : Word).toNat = 0 from rfl, and_true]
    omega
  · simp only [List.getD_cons_succ, List.getD_cons_zero, h1]
    omega
  · exact setWidth_append_word st.colb st.rowb
  · exact extractLsb'_append_word st.colb st.rowb
  · exact (BitVec.setWidth_setWidth_of_le st.kb (by decide)).trans (BitVec.setWidth_eq _)
  · exact (BitVec.setWidth_setWidth_of_le st.profile (by decide)).trans (BitVec.setWidth_eq _)

/-- An update of a stream depends only on what it makes of the stream that stands there. -/
theorem modStream_congr {s : State} {p : Party} {k : SCtx} {f g : Stream → Stream} (h : streamOf s p = some k)
    (hfg : f k.st = g k.st) : modStream s k.b k.k f = modStream s k.b k.k g := by
  obtain ⟨-, hb, he, hst⟩ := streamOf_eq_some h
  rw [modStream, modStream, modEng, modEng, modBlock, modBlock]
  refine congrArg (fun bs => { s with blocks := bs }) (modify_congr_of_getElem? hb ?_)
  simp only [he, hst, Option.map_some, hfg]

theorem matrixStateSavesAndResumes : MatrixStateSavesAndResumes := by
  refine ⟨fun s k c p a hi ha hal => ⟨fun rs hd hrs hw => onStream_ok hi ?_, fun rs ws he hrs hp hws => ?_⟩, loopImage_reads⟩
  · have hmod : (k.st.params[p].toNat % 2 ^ 56 % 64 != 0) = false := by
      rw [Nat.mod_mod_of_dvd _ (by norm_num), hal]
      rfl
    subst ha
    simp only [hd, hmod, hrs, hw, Bool.not_true, Bool.false_eq_true, if_false]
  · have hmod : (k.st.params[p].toNat % 2 ^ 56 % 64 != 0) = false := by
      rw [Nat.mod_mod_of_dvd _ (by norm_num), hal]
      rfl
    have hfind : (rs.find? fun r => poisonAt s r.loc r.bytes) = none :=
      List.find?_eq_none.2 fun r hr => by rw [hp r hr]; exact Bool.false_ne_true
    subst ha hws
    refine ⟨fun hk => onStream_error hi ?_, fun ls hk hl => ⟨_, rfl, onStream_ok hi ?_⟩, fun z hk hl => onStream_ok hi ?_⟩
    · simp only [he, hmod, hrs, hfind, hk, Bool.not_true, Bool.not_false, Bool.false_eq_true, if_false, if_true]
    · simp only [he, hmod, hrs, hfind, hk, hl, Bool.not_true, Bool.false_eq_true, if_false]
      exact congrArg (fun t => Except.ok (accept (askGrant t k.b) k.b k.k (mkOp k.st.pc none none none [])))
        (modStream_congr hi.stream rfl)
    · simp only [he, hmod, hrs, hfind, hk, hl, Bool.not_true, Bool.false_eq_true, if_false]

/-- Settles O47: claims, stores, barriers and grants by their meanings, and the image word by word. -/
theorem claimsStoresAndMatrixState : Obligations.ClaimsStoresAndMatrixState :=
  ⟨claimsAreTakenAndReleased, matrixStoresBarriersGrants, matrixStateSavesAndResumes⟩

end Sys2Proof.Machine

/-! # Faults by the policy of each level, and the log of a context (R197, R198, R298, R413 to R419) -/

namespace Sys2Proof.Machine

open Sys2Proof Sys2Proof.Claims

/-! ## Where the walk stops (R418) -/

section
variable {s s1 : State} {p : Party} {nb : Bool} {f : FRec} {fuel lvl : Nat}

/-- The test by which the walk knows an administrative fault. -/
theorem not_administrative (h : ¬ Administrative f.r) :
    (decide (f.r.code = .aborted) || (decide (f.r.code = .illegal) && (decide (f.r.cause = 2) || decide (f.r.cause = 3)))) = false := by
  simpa [Administrative] using h

theorem walk_ignores (ha : ¬ Administrative f.r) (h : policyAt s f lvl = 0) : walk p nb f (fuel + 1) lvl s =
    { s := if f.stands && lvl = f.start then ignoreFault s p f.r nb else s, stopped := lvl, action := 0, suppressed := false,
      retry := retriesAt s f lvl } := by
  simp [walk, not_administrative ha, h]

theorem walk_retries (ha : ¬ Administrative f.r) (h : policyAt s f lvl = 1) (hst : f.stands = true) (hn : retriesAt s f lvl < 3) :
    walk p nb f (fuel + 1) lvl s =
    { s := retryAt s f p lvl, stopped := lvl, action := 1, suppressed := false, retry := retriesAt s f lvl } := by
  simp [walk, not_administrative ha, h, hst, Nat.not_le.2 hn]

theorem walk_ends (ha : ¬ Administrative f.r) (h : policyAt s f lvl = 2 ∨ (policyAt s f lvl = 1 ∧ 3 ≤ retriesAt s f lvl)) :
    walk p nb f (fuel + 1) lvl s =
    { s := endAt s f lvl, stopped := lvl, action := 2, suppressed := false, retry := retriesAt s f lvl } := by
  rcases h with h | ⟨h, hn⟩
  · simp [walk, not_administrative ha, h]
  · simp [walk, not_administrative ha, h, hn]

/-- From a warp a fault escalates to its block. -/
theorem walk_escalates (ha : ¬ Administrative f.r) (h : policyAt s f 0 = 3) :
    walk p nb f (fuel + 1) 0 s = walk p nb f fuel 1 (endAt s f 0) := by
  simp [walk, not_administrative ha, h]

/-- A fault whose walk stops is recorded there. -/
theorem offer_recorded {stopped action retry : Nat} (hnamed : f.named = none) (hl : levelEnded s f f.start = false)
    (hw : walk p nb f 5 f.start s = { s := s1, stopped := stopped, action := action, suppressed := false, retry := retry }) :
    offer s p nb f = Recorded s s1 f stopped action retry := by
  have hf : walkFrom s p nb f = { s := s1, stopped := stopped, action := action, suppressed := false, retry := retry } := by
    rw [walkFrom, hl, hw]
    rfl
  have hplace : f.place = (f.block, f.warp) := by rw [FRec.place, hnamed]
  simp only [offer, hf, hplace, Recorded]

theorem policyAt_of_node {nd : Node} (h : s.nodes[f.node]? = some nd) :
    policyAt s f 0 = nd.kd.polwp ∧ policyAt s f 1 = nd.kd.polbk := by
  simp only [policyAt, h, and_self]

end

/-! ## Faults of a gang, a helm and a stream -/

theorem faultOf_gang {s : State} {k : GCtx} (h : gangOf s s.cur = some k) (r : Raise) : faultOf s s.cur r =
    { r := r, source := 0, block := some k.b, warp := some k.w, gid := some k.g.gid, pc := k.g.pc, slices := k.g.slices,
      node := k.blk.node, incarnation := k.blk.incarnation, start := 0, precise := true, stands := true, retired := false } := by
  obtain ⟨hp, hblk, -⟩ := gangOf_eq_some h
  rw [hp] at h
  rw [hp]
  simp only [faultOf, h, hblk, Option.map_some, Option.getD_some]

theorem helmOf_eq_some {s : State} {p : Party} {k : HCtx} (h : helmOf s p = some k) : p = .helm k.b ∧ s.blocks[k.b]? = some k.blk := by
  unfold helmOf at h
  split at h
  next b =>
    cases hb : s.blocks[b]? with
    | none => simp [hb] at h
    | some blk =>
      simp only [hb, Option.some.injEq] at h
      subst h
      exact ⟨rfl, hb⟩
  · cases h

theorem faultOf_helm {s : State} {k : HCtx} (h : helmOf s s.cur = some k) (r : Raise) : faultOf s s.cur r =
    { r := { r with lane := none }, source := 1, block := some k.b, warp := none, gid := none, pc := k.blk.helm.pc, slices := 0,
      node := k.blk.node, incarnation := k.blk.incarnation, start := 1, precise := true, stands := true, retired := false } := by
  obtain ⟨hp, hblk⟩ := helmOf_eq_some h
  rw [hp]
  simp only [faultOf, hblk, Option.map_some, Option.getD_some]

theorem faultOf_stream {s : State} {k : SCtx} (h : streamOf s s.cur = some k) (r : Raise) : faultOf s s.cur r =
    { r := { r with lane := none }, source := 2 + k.k.val, block := some k.b, warp := none, gid := none, pc := k.st.pc, slices := 0,
      node := k.blk.node, incarnation := k.blk.incarnation, start := 1, precise := true, stands := true, retired := false } := by
  obtain ⟨hp, hblk, he, hst⟩ := streamOf_eq_some h
  rw [hp]
  simp only [faultOf, hblk, he, hst, Option.map_some, Option.bind_some, Option.getD_some]

theorem gangFaults : GangFaults := by
  intro s k nd r f n hk hnd hf hl ha hn
  obtain ⟨hp, hblk, -⟩ := gangOf_eq_some hk
  rw [faultOf_gang hk] at hf
  have htake : takeFault s s.cur r = offer s s.cur false f := by rw [hf, ← faultOf_gang hk]; rfl
  have hnode : f.node = k.blk.node := by rw [hf]
  have hfr : f.r = r := by rw [hf]
  have hstart : f.start = 0 := by rw [hf]
  have hstands : f.stands = true := by rw [hf]
  have hnamed : f.named = none := by rw [hf]
  have ha' : ¬ Administrative f.r := by rwa [hfr]
  rw [← hnode] at hnd
  obtain ⟨hpol, -⟩ := policyAt_of_node hnd
  have hl' : levelEnded s f f.start = false := by rwa [hstart]
  rw [htake]
  refine ⟨fun h => ?_, fun h h3 s1 hs1 => ?_, fun h => ?_, fun h h2 s1 hs1 hnd1 => ?_⟩
  · refine offer_recorded hnamed hl' ?_
    rw [hstart, walk_ignores ha' (hpol.trans h), hstart, hstands, hn, hp, hfr]
    rfl
  · refine offer_recorded hnamed hl' ?_
    rw [hstart, walk_retries ha' (hpol.trans h) hstands (hn ▸ h3), hs1, hn, hp]
    have hcount : retriesAt s f 0 = ((k.blk.warpRetries.find? (·.1 = k.w)).map (·.2)).getD 0 := by
      simp only [retriesAt, hf, Option.bind_some, hblk]
    have hmod : modBlock s k.b (fun blk => { blk with warpRetries :=
          (k.w, ((blk.warpRetries.find? (·.1 = k.w)).map (·.2)).getD 0 + 1) :: blk.warpRetries.filter (·.1 != k.w) }) =
        modBlock s k.b fun blk => { blk with warpRetries :=
          (k.w, retriesAt s f 0 + 1) :: blk.warpRetries.filter (·.1 != k.w) } := by
      rw [modBlock, modBlock]
      refine congrArg (fun bs => { s with blocks := bs }) (modify_congr_of_getElem? hblk ?_)
      simp only [hcount]
    simp only [retryAt, hf] at hmod ⊢
    rw [hmod]
  · refine offer_recorded hnamed hl' ?_
    rw [hstart, walk_ends ha' (by rwa [hpol, ← hn]), hn, hf]
    rfl
  · refine offer_recorded hnamed hl' ?_
    have hend : endAt s f 0 = s1 := by rw [hs1, hf]; rfl
    rw [hstart, walk_escalates ha' (hpol.trans h), hend, walk_ends ha' (.inl ((policyAt_of_node hnd1).2.trans h2)), hf]
    rfl

theorem helmFaults : HelmFaults := by
  intro s k nd r f n hk hnd hf hl ha hn
  obtain ⟨hp, hblk⟩ := helmOf_eq_some hk
  rw [faultOf_helm hk] at hf
  have htake : takeFault s s.cur r = offer s s.cur false f := by rw [hf, ← faultOf_helm hk]; rfl
  have hnode : f.node = k.blk.node := by rw [hf]
  have hstart : f.start = 1 := by rw [hf]
  have hstands : f.stands = true := by rw [hf]
  have hnamed : f.named = none := by rw [hf]
  have ha' : ¬ Administrative f.r := by rwa [hf]
  rw [← hnode] at hnd
  obtain ⟨-, hpol⟩ := policyAt_of_node hnd
  have hl' : levelEnded s f f.start = false := by rwa [hstart]
  rw [htake]
  refine ⟨fun h => ?_, fun h => ?_⟩
  · refine offer_recorded hnamed hl' ?_
    rw [hstart, walk_ignores ha' (hpol.trans h), hstart, hstands, hn, hp, hf]
    rfl
  · refine offer_recorded hnamed hl' ?_
    rw [hstart, walk_ends ha' (by rwa [hpol, ← hn]), hn, hf]
    rfl

theorem streamFaults : StreamFaults := by
  intro s k nd r f n nb hk hnd hf hl ha hn
  obtain ⟨hp, -⟩ := streamOf_eq_some hk
  rw [faultOf_stream hk] at hf
  have htake : takeFault s s.cur r nb = offer s s.cur nb f := by rw [hf, ← faultOf_stream hk]; rfl
  have hnode : f.node = k.blk.node := by rw [hf]
  have hstart : f.start = 1 := by rw [hf]
  have hstands : f.stands = true := by rw [hf]
  have hnamed : f.named = none := by rw [hf]
  have ha' : ¬ Administrative f.r := by rwa [hf]
  rw [← hnode] at hnd
  obtain ⟨-, hpol⟩ := policyAt_of_node hnd
  have hl' : levelEnded s f f.start = false := by rwa [hstart]
  rw [htake]
  refine ⟨fun h => ?_, fun h => ?_⟩
  · refine offer_recorded hnamed hl' ?_
    rw [hstart, walk_ignores ha' (hpol.trans h), hstart, hstands, hn, hp, hf]
    rfl
  · refine offer_recorded hnamed hl' ?_
    rw [hstart, walk_ends ha' (by rwa [hpol, ← hn]), hn, hf]
    rfl

/-! ## The device's own writes (R415, R431) -/

/-- What a write of the device's own leaves: memory outside its range, its canonical form, poison outside its granules. -/
structure OwnWrite (a n : Nat) (s t : State) : Prop where
  frame : t = { s with mem := t.mem, badGranules := t.badGranules, wrote := t.wrote, scrubs := t.scrubs }
  wf : Memory.wf s.mem = true → Memory.wf t.mem = true
  other : Memory.wf s.mem = true → ∀ x, (x < a ∨ a + n ≤ x) → memGet t.mem x = memGet s.mem x
  bad : ∀ g, g ∉ unitsOf 32 a n → (g ∈ t.badGranules ↔ g ∈ s.badGranules)

theorem putGranule_own (a : Nat) (bs : List Byte) (s : State) {g : Nat} (hg : g ∈ unitsOf 32 a bs.length) :
    OwnWrite a bs.length s ((putGranule a bs s g).getD s) := by
  by_cases h : (s.badGranules.contains g && decide (min (a + bs.length) (32 * g + 32) - max a (32 * g) < 32)) = true
  · have hp : putGranule a bs s g = none := if_pos h
    rw [hp]
    exact ⟨rfl, id, fun _ _ _ => rfl, fun _ _ => Iff.rfl⟩
  · have hp : putGranule a bs s g = some { s with mem := putPiece a bs s.mem g, badGranules := s.badGranules.filter (· != g) } :=
      if_neg h
    rw [hp]
    refine ⟨rfl, putPiece_wf, fun hm x hx => (memGet_putPiece hm x).trans (if_neg fun ⟨_, _, _⟩ => by omega), fun y hy => ?_⟩
    rw [Option.getD_some, List.mem_filter, bne_iff_ne]
    exact ⟨fun h => h.1, fun h => ⟨h, fun he => hy (he ▸ hg)⟩⟩

theorem OwnWrite.trans {a n : Nat} {s t u : State} (h1 : OwnWrite a n s t) (h2 : OwnWrite a n t u) : OwnWrite a n s u where
  frame := by rw [h2.frame, h1.frame]
  wf h := h2.wf (h1.wf h)
  other h x hx := (h2.other (h1.wf h) x hx).trans (h1.other h x hx)
  bad g hg := (h2.bad g hg).trans (h1.bad g hg)

theorem OwnWrite.refl (a n : Nat) (s : State) : OwnWrite a n s s := ⟨rfl, id, fun _ _ _ => rfl, fun _ _ => Iff.rfl⟩

theorem foldl_putGranule_own (a : Nat) (bs : List Byte) (gs : List Nat) (s : State) (h : ∀ g ∈ gs, g ∈ unitsOf 32 a bs.length) :
    OwnWrite a bs.length s (gs.foldl (fun u g => (putGranule a bs u g).getD u) s) := by
  induction gs generalizing s with
  | nil => exact .refl ..
  | cons g gs ih =>
    exact (putGranule_own a bs s (h g List.mem_cons_self)).trans (ih _ fun x hx => h x (List.mem_cons_of_mem _ hx))

theorem writeOwn_own (s : State) (a : Nat) (bs : List Byte) : OwnWrite a bs.length s (writeOwn s a bs) := by
  refine (foldl_putGranule_own a bs _ s fun _ h => h).trans ?_
  exact ⟨rfl, id, fun _ _ _ => rfl, fun _ _ => Iff.rfl⟩

theorem OwnWrite.memRead {a n : Nat} {s t : State} (h : OwnWrite a n s t) (hm : Memory.wf s.mem = true) {b m : Nat}
    (hb : b + m ≤ a ∨ a + n ≤ b) : memRead t.mem b m = memRead s.mem b m :=
  List.map_congr_left fun i hi => h.other hm _ (by have := List.mem_range.1 hi; omega)

/-- A write within one poisoned granule that does not cover it is discarded. -/
theorem writeOwn_discarded {s : State} {a : Nat} {bs : List Byte} (hn : 0 < bs.length) (hfit : a % 32 + bs.length ≤ 32)
    (hlt : bs.length < 32) (hbad : a / 32 ∈ s.badGranules) : writeOwn s a bs = reachDev s a bs.length := by
  have hu : unitsOf 32 a bs.length = [a / 32] := by
    have := unitsOf_singleton (w := 32) (g := a / 32) hn hfit
    rwa [Nat.div_add_mod] at this
  have hnone : putGranule a bs s (a / 32) = none :=
    putGranule_partial (List.contains_iff_mem.2 hbad) (by omega)
  rw [writeOwn, hu, List.foldl_cons, List.foldl_nil, hnone, Option.getD_none]

/-- Two writes of the device's own where nothing is poisoned. -/
theorem writeOwn_writeOwn_clean {s : State} {a b : Nat} {bs cs : List Byte} (hm : Memory.wf s.mem = true)
    (hclean : s.badGranules = []) : ∃ w sc, writeOwn (writeOwn s a bs) b cs =
      { s with mem := memWrite (memWrite s.mem a bs) b cs, wrote := w, scrubs := sc } := by
  have h1 : writeOwn s a bs = reachDev { s with mem := memWrite s.mem a bs } a bs.length :=
    writeOwn_clean hm (by simp [hclean])
  have hc1 : (reachDev { s with mem := memWrite s.mem a bs } a bs.length).badGranules = [] := hclean
  have hm1 : Memory.wf (reachDev { s with mem := memWrite s.mem a bs } a bs.length).mem = true := memWrite_wf _ _ hm
  rw [h1, writeOwn_clean hm1 (by simp [hc1])]
  exact ⟨_, _, rfl⟩

/-- The slot of the record that write index n names. -/
def logSlot (s : State) (ctx : Fin 64) (n : Nat) : Nat :=
  s.ctxs[ctx].flogBase.toNat + 128 + 128 * (n % 2 ^ s.ctxs[ctx].flogSize.toNat)

theorem logFault_eq {s : State} {ctx : Fin 64} {mk : Nat → Nat} {n : Nat} (h : 4 ≤ s.ctxs[ctx].flogSize.toNat)
    (hn : n = memNat s.mem s.ctxs[ctx].flogBase.toNat 8) : logFault s ctx mk =
      writeOwn (writeOwn s (logSlot s ctx n) (leBytes 128 (mk n))) s.ctxs[ctx].flogBase.toNat (leBytes 8 (n + 1)) := by
  rw [hn]
  exact if_neg (Nat.not_lt.2 h)

theorem logAppends : LogAppends := by
  intro s ctx mk base n z hbase hz hn hm
  subst hbase hz
  have hlen : (leBytes 8 (n + 1)).length = 8 := leBytes_length _ _
  have hlen' (v : Nat) : (leBytes 128 v).length = 128 := leBytes_length _ _
  refine ⟨fun h => if_pos h, fun h hbad hfit => ?_, fun h hclean => ?_⟩
  · have hslot : s.ctxs[ctx].flogBase.toNat + 128 ≤ logSlot s ctx n := Nat.le_add_right _ _
    have hown := writeOwn_own s (logSlot s ctx n) (leBytes 128 (mk n))
    have hbad1 : s.ctxs[ctx].flogBase.toNat / 32 ∈ (writeOwn s (logSlot s ctx n) (leBytes 128 (mk n))).badGranules := by
      refine (hown.bad _ fun hmem => ?_).2 hbad
      obtain ⟨h1, -⟩ := (mem_unitsOf (by decide)).1 hmem
      omega
    rw [logFault_eq h hn, writeOwn_discarded (by omega) (by omega) (by omega) hbad1]
    refine ⟨hown.memRead hm (.inl (by omega)), ?_⟩
    have := congrArg State.reports hown.frame
    exact this
  · have hslot : s.ctxs[ctx].flogBase.toNat + 128 ≤ logSlot s ctx n := Nat.le_add_right _ _
    obtain ⟨w, sc, hlog⟩ := writeOwn_writeOwn_clean (a := logSlot s ctx n) (b := s.ctxs[ctx].flogBase.toNat)
      (bs := leBytes 128 (mk n)) (cs := leBytes 8 (n + 1)) hm hclean
    have hm1 := memWrite_wf (logSlot s ctx n) (leBytes 128 (mk n)) hm
    refine ⟨_, _, _, (logFault_eq h hn).trans hlog, memWrite_wf _ _ hm1, ?_, ?_, fun a h1 h2 => ?_⟩
    · have := memRead_memWrite s.ctxs[ctx].flogBase.toNat (leBytes 8 (n + 1)) hm1
      rwa [hlen] at this
    · refine (memRead_memWrite_other _ _ _ _ hm1 (.inr (by omega))).trans ?_
      have := memRead_memWrite (logSlot s ctx n) (leBytes 128 (mk n)) hm
      rwa [hlen'] at this
    · refine (memGet_memWrite_other _ _ _ hm1 (by omega)).trans (memGet_memWrite_other _ _ _ hm ?_)
      rw [hlen', logSlot]
      omega

/-- Settles O48: the walk of a fault stops where its policy says, and its record is appended. -/
theorem faultsFollowTheirPolicies : Obligations.FaultsFollowTheirPolicies :=
  ⟨gangFaults, helmFaults, streamFaults, logAppends⟩

end Sys2Proof.Machine

/-! # The watchdog, imprecise faults, poison found in storage, the end of a continuation (R398, R414, R421, R428 to R430) -/

namespace Sys2Proof.Machine

open Sys2Proof Sys2Proof.Claims

/-! ## The watchdog (R421) -/

theorem wdLimit_eq {s : State} {blk : Block} {nd : Node} (h : s.nodes[blk.node]? = some nd) : wdLimit s blk = Limit nd := by
  have h0 : nd.wdlog.toNat = 0 ↔ nd.wdlog = 0 := ⟨fun h => BitVec.eq_of_toNat_eq h, fun h => by rw [h]; rfl⟩
  simp only [wdLimit, Limit, h, Option.map_some, Option.getD_some, h0]

theorem gangOf_of_helmOf {s : State} {p : Party} {h : HCtx} (hh : helmOf s p = some h) : gangOf s p = none := by
  obtain ⟨hp, -⟩ := helmOf_eq_some hh
  rw [hp]
  rfl

theorem watchdogFaults : WatchdogFaults := by
  refine fun s nd => ⟨fun k hk hnd => ?_, fun h hh hnd => ?_⟩
  · change execWatchdog s = _
    rw [execWatchdog, hk]
    simp only [wdLimit_eq hnd, ge_iff_le, lowActive]
    split <;> rfl
  · change execWatchdog s = _
    rw [execWatchdog, gangOf_of_helmOf hh, hh]
    simp only [wdLimit_eq hnd, ge_iff_le]
    split <;> rfl

/-! ## Imprecise faults (R414, R416) -/

/-- What a party's fault names whichever party it is. -/
theorem faultOf_imprecise (s : State) (p : Party) (cause addr : Nat) :
    (faultOf s p (raise .storeImprecise none cause addr)).r = raise .storeImprecise none cause addr ∧
    (faultOf s p (raise .storeImprecise none cause addr)).block = some (partyBlock p) := by
  cases p <;> exact ⟨rfl, rfl⟩

/-- Whether the block that a report is offered to has ended. -/
def outerEnded (s : State) (t : Report) : Bool :=
  match s.blocks[partyBlock (reportTo t)]? with
  | none => true
  | some blk => blk.status == .ended

/-- The level outside a warp at which a report is offered: the block, or the node where the block has ended. -/
def outerLevel (s : State) (t : Report) : Nat := if outerEnded s t then 3 else 1

theorem outerLevel_pos (s : State) (t : Report) : outerLevel s t ≠ 0 := by
  unfold outerLevel
  split <;> decide

/-- The fault of a report before its source and a gang's level are put in. -/
def impreciseBase (s : State) (t : Report) (gid : Option Nat) : FRec :=
  { faultOf s (reportTo t) (raise .storeImprecise none t.cause.toNat t.addr) with
    pc := t.pc
    incarnation := if t.flush.isSome then (faultOf s (reportTo t) (raise .storeImprecise none t.cause.toNat t.addr)).incarnation
      else t.incarnation
    node := t.node, slices := 0, gid := gid, precise := false, stands := false, start := outerLevel s t
    named := if t.flush.isSome then some (partyBlock t.party, match t.party with | .gang _ w _ => some w | _ => none) else none }

theorem imprecise_gang {s : State} {t : Report} {b w x : Nat} (h : reportTo t = .gang b w x) (gid : Option Nat) :
    imprecise s t gid = if gid.isSome then { impreciseBase s t gid with source := 6, start := 0 }
      else { impreciseBase s t gid with source := 6, retired := true } := by
  simp only [imprecise, impreciseBase, outerLevel, outerEnded, h] <;> rfl

theorem imprecise_outside {s : State} {t : Report} (h : ¬ ∃ b w x, reportTo t = .gang b w x) (gid : Option Nat) :
    imprecise s t gid = impreciseBase s t gid := by
  cases hp : reportTo t with
  | gang b w x => exact absurd ⟨b, w, x, hp⟩ h
  | helm b => simp only [imprecise, impreciseBase, outerLevel, outerEnded, hp] <;> rfl
  | stream b k => simp only [imprecise, impreciseBase, outerLevel, outerEnded, hp] <;> rfl

/-- What every report's fault has, whatever its source and level. -/
theorem impreciseBase_fields (s : State) (t : Report) (gid : Option Nat) (f : FRec) (src st : Nat) (re : Bool)
    (hf : f = { impreciseBase s t gid with source := src, start := st, retired := re }) :
    f.r = raise .storeImprecise none t.cause.toNat t.addr ∧ f.pc = t.pc ∧ f.node = t.node ∧ f.slices = 0 ∧
    f.precise = false ∧ f.stands = false ∧ f.block = some (partyBlock (reportTo t)) ∧
    (t.flush = none → f.incarnation = t.incarnation ∧ f.named = none) ∧
    (∀ p, t.flush = some p → f.named.map (·.1) = some (partyBlock t.party)) := by
  subst hf
  obtain ⟨h1, h2⟩ := faultOf_imprecise s (reportTo t) t.cause.toNat t.addr
  refine ⟨h1, rfl, rfl, rfl, rfl, rfl, h2, fun hn => ?_, fun p hp => ?_⟩
  · simp only [impreciseBase, hn, Option.isSome_none, Bool.false_eq_true, if_false, and_self]
  · simp only [impreciseBase, hp, Option.isSome_some, if_true, Option.map_some]

theorem outerLevel_eq (s : State) (t : Report) : outerLevel s t = match s.blocks[partyBlock (reportTo t)]? with
    | some blk => if blk.status = .ended then 3 else 1
    | none => 3 := by
  unfold outerLevel outerEnded
  cases s.blocks[partyBlock (reportTo t)]? with
  | none => rfl
  | some blk =>
    by_cases h : blk.status = .ended
    · simp only [h, beq_self_eq_true, if_true]
    · simp only [h, beq_eq_false_iff_ne.2 h, Bool.false_eq_true, if_false]

theorem reportsAreOffered : ReportsAreOffered := by
  intro s i t ht
  refine ⟨fun hw => ?_, fun hw b w x hh => ⟨fun g hc => ?_, fun hc => ?_⟩, fun gid f hf => ?_⟩
  · change execStoreImprecise i s = _
    rw [execStoreImprecise, ht]
    simp only [hw, Bool.false_eq_true, if_false]
    rfl
  · have hhere : reportHere s t = some g := by
      have hto : reportTo t = .gang b w x := hh
      simp only [reportHere, hto, hc, decide_true, Bool.and_self, if_true]
    change execStoreImprecise i s = _
    rw [execStoreImprecise, ht]
    simp only [hw, if_true, hhere]
    rfl
  · have hhere : reportHere s t = none := by
      have hto : reportTo t = .gang b w x := hh
      cases hcur : s.cur with
      | gang y z g =>
        have hne : ¬ (b = y ∧ w = z) := by
          rintro ⟨rfl, rfl⟩
          exact hc g hcur
        simp only [reportHere, hto, hcur, Bool.and_eq_true, decide_eq_true_eq, if_neg hne]
      | helm y => simp only [reportHere, hto, hcur]
      | stream y j => simp only [reportHere, hto, hcur]
    change execStoreImprecise i s = _
    rw [execStoreImprecise, ht]
    simp only [hw, if_true, hhere]
  · change f.r = _ ∧ _ ∧ _ ∧ _ ∧ _ ∧ _ ∧ f.block = some (partyBlock (reportTo t)) ∧ _ ∧ _ ∧ ((∃ b w x, reportTo t = .gang b w x) → _) ∧ _
    by_cases hg : ∃ b w x, reportTo t = .gang b w x
    · obtain ⟨b, w, x, hto⟩ := hg
      rw [imprecise_gang hto] at hf
      cases gid with
      | some g =>
        obtain ⟨h1, h2, h3, h4, h5, h6, h7, h8, h9⟩ := impreciseBase_fields s t (some g) f 6 0 _ hf
        exact ⟨h1, h2, h3, h4, h5, h6, h7, h8, h9, fun _ => by rw [hf]; exact ⟨rfl, fun _ => nofun, fun _ => rfl⟩,
          fun h => h.elim nofun fun h => absurd ⟨b, w, x, hto⟩ h⟩
      | none =>
        obtain ⟨h1, h2, h3, h4, h5, h6, h7, h8, h9⟩ := impreciseBase_fields s t none f 6 _ true hf
        refine ⟨h1, h2, h3, h4, h5, h6, h7, h8, h9, fun _ => ?_, fun _ => ?_⟩
        · rw [hf]
          exact ⟨rfl, fun h => absurd h (outerLevel_pos s t), fun h => absurd rfl h⟩
        · rw [hf]
          exact outerLevel_eq s t
    · rw [imprecise_outside hg] at hf
      obtain ⟨h1, h2, h3, h4, h5, h6, h7, h8, h9⟩ := impreciseBase_fields s t gid f _ _ _ hf
      refine ⟨h1, h2, h3, h4, h5, h6, h7, h8, h9, fun h => absurd h hg, fun _ => ?_⟩
      rw [hf]
      exact outerLevel_eq s t

/-! ## Poison found in storage (R429, R430, R434, R449) -/

theorem execPoisonDetected_eq {s : State} {x : PoisonAt} {e : ErrEvent} (h : storageEvent s 1 x = some e) :
    exec (.poisonDetected x) s = .next (countError (setPoison x (logErr s e)) false x) := by
  change execPoisonDetected x s = _
  rw [execPoisonDetected, h]

theorem logErr_storesEq (s : State) (e : ErrEvent) : StoresEq s (logErr s e) := by
  rw [logErr_frame]
  exact ⟨rfl, rfl, rfl⟩

theorem logErr_badGranules (s : State) (e : ErrEvent) : (logErr s e).badGranules = s.badGranules := by rw [logErr_frame]
theorem logErr_cores (s : State) (e : ErrEvent) : (logErr s e).cores = s.cores := by rw [logErr_frame]
theorem logErr_hbmStacks (s : State) (e : ErrEvent) : (logErr s e).hbmStacks = s.hbmStacks := by rw [logErr_frame]

theorem countError_frame (s : State) (c : Bool) (x : PoisonAt) :
    countError s c x = { s with hbmStacks := (countError s c x).hbmStacks } := by
  cases x <;> rfl

theorem countError_hbmStacks {s : State} {x : PoisonAt} (c : Bool) (h : ∀ pa, x ≠ .granule pa) :
    (countError s c x).hbmStacks = s.hbmStacks := by
  cases x with
  | granule pa => exact absurd rfl (h pa)
  | _ => rfl

/-- An uncorrectable error makes its channel due. -/
theorem countChannel_due (s : State) (pa : Nat) :
    Config.channelOf (pa / 32) ∈ (countChannel s pa false).hbmStacks[(Fin.ofNat 8 (stackOf pa) : Fin 8)].due := by
  simp only [countChannel, Fin.getElem_fin, Vector.getElem_set_self, Bool.not_false, Bool.true_or, Bool.true_and]
  split
  · exact List.mem_append_right _ (List.mem_singleton_self _)
  next h =>
    rw [Bool.not_eq_true, Bool.not_eq_false'] at h
    exact List.contains_iff_mem.1 h

theorem poisonGranule_bad (s : State) (g : Nat) :
    g ∈ (poisonGranule s g).badGranules ∧ ∀ x, x ≠ g → (x ∈ (poisonGranule s g).badGranules ↔ x ∈ s.badGranules) := by
  simp only [poisonGranule]
  split
  next h => exact ⟨List.contains_iff_mem.1 h, fun _ _ => Iff.rfl⟩
  · exact ⟨List.mem_cons_self, fun x hx => by rw [List.mem_cons, or_iff_right hx]⟩

theorem storageEvent_v {s : State} {b w kind : Nat} {blk : Block} {wp : Warp} (hb : s.blocks[b]? = some blk)
    (hw : blk.warps[w]? = some wp) (n : Fin 256) (m : LaneMask) :
    storageEvent s kind (.v b w n m) = some (regEvent s kind b (if isG wp.regs[n].val then .regs else .shapes)
      (if isG wp.regs[n].val then lowLane m else 0xFF)) := by
  simp only [storageEvent, hb, hw, Option.bind_some, Option.map_some, regUnit]
  split <;> rfl

theorem storageEvent_o {s : State} {b w kind : Nat} {blk : Block} {wp : Warp} (hb : s.blocks[b]? = some blk)
    (hw : blk.warps[w]? = some wp) (n : Fin 8) (m : LaneMask) :
    storageEvent s kind (.o b w n m) = some (regEvent s kind b .regs (lowLane m)) := by
  simp only [storageEvent, hb, hw, Option.bind_some, Option.map_some]

theorem poisonIsMarked : PoisonIsMarked := by
  intro s b w blk wp hb hw
  refine ⟨fun n m s1 h1 => ?_, fun n m s1 h1 => ?_, fun n s1 h1 => ?_, fun n s1 h1 => ?_, fun g m s1 h1 => ?_, fun n s1 h1 => ?_,
    fun pa => ?_, fun off => ?_, fun c m => ?_, fun c a => ?_, fun pa t ht => ?_, fun x e he => ?_⟩
  · subst h1
    exact execPoisonDetected_eq (storageEvent_v hb hw n m)
  · subst h1
    exact execPoisonDetected_eq (storageEvent_o hb hw n m)
  · subst h1
    exact execPoisonDetected_eq rfl
  · subst h1
    exact execPoisonDetected_eq rfl
  · subst h1
    exact execPoisonDetected_eq rfl
  · subst h1
    exact execPoisonDetected_eq rfl
  · obtain ⟨h1, h2⟩ := poisonGranule_bad (logErr s (hbmEvent 1 pa 0)) (pa / 32)
    have hst : StoresEq (logErr s (hbmEvent 1 pa 0)) (countChannel (poisonGranule (logErr s (hbmEvent 1 pa 0)) (pa / 32)) pa false) :=
      ⟨rfl, rfl, rfl⟩
    refine ⟨_, execPoisonDetected_eq rfl, ((logErr_storesEq _ _).trans hst).sameStores, h1, fun g hg => ?_⟩
    rw [← logErr_badGranules s (hbmEvent 1 pa 0)]
    exact h2 g hg
  · refine ⟨_, execPoisonDetected_eq rfl, StoresEq.sameStores ((logErr_storesEq _ _).trans ⟨rfl, rfl, rfl⟩), ?_⟩
    simp only [countError, setPoison]
    split
    next h => exact List.contains_iff_mem.1 h
    · exact List.mem_cons_self
  · refine ⟨_, execPoisonDetected_eq rfl, ?_⟩
    simp only [countError, setPoison, modCore_same, logErr_cores]
  · refine ⟨_, execPoisonDetected_eq rfl, ?_⟩
    simp only [countError, setPoison, modCore_same, logErr_cores]
  · have h := (execPoisonDetected_eq (s := s) (x := .granule pa) rfl).symm.trans ht
    rw [← Host.Outcome.next.inj h]
    exact countChannel_due _ _
  · refine ⟨(countError (logErr s e) true x).hbmStacks, ?_, fun hx => ?_⟩
    · rw [correctedError, he]
      exact congrArg Host.Outcome.next (countError_frame _ _ _)
    · exact (countError_hbmStacks _ hx).trans (logErr_hbmStacks s e)

/-! ## The end of a continuation (R398, R428) -/

/-- A warp's predicates once a gang has left its continuation. -/
def contPreds (wp : Warp) (g : Gang) (c : ContSave) : Vector PReg 7 :=
  Vector.ofFn fun i : Fin 7 => backPred (isFull wp (gangLanes g)) wp.preds[i] c.preds[i] (gangLanes g)

/-- A gang that has left its continuation. -/
def contGang (c : ContSave) (wait : GWait) (g : Gang) : Gang :=
  { g with latch := c.latch, lat := c.lat, pc := c.pc, wait := wait, contSave := none, replay := wait = .none }

/-- The warp of a gang that leaves its continuation. -/
def contWarp (wp : Warp) (g : Gang) (c : ContSave) (wait : GWait) : Warp :=
  settle (modGangs { wp with preds := contPreds wp g c } g.gid (contGang c wait))

theorem leaveCont_eq (s : State) (k : GCtx) (c : ContSave) (wait : GWait) :
    leaveCont s k c wait = modWarp s k.b k.w fun wp => contWarp wp k.g c wait := rfl

theorem contWarp_preds (wp : Warp) (g : Gang) (c : ContSave) (wait : GWait) (i : Fin 7) :
    (contWarp wp g c wait).preds[i] = backPred (isFull wp (gangLanes g)) wp.preds[i] c.preds[i] (gangLanes g) := by
  change (Vector.ofFn _)[i] = _
  rw [Fin.getElem_fin, Vector.getElem_ofFn]

theorem contWarp_gang {wp : Warp} {g : Gang} (c : ContSave) (wait : GWait) (hg : wp.gangs.find? (·.gid = g.gid) = some g) :
    ∃ slot, (contWarp wp g c wait).gangs.find? (·.gid = g.gid) = some { contGang c wait g with slot := slot } := by
  obtain ⟨f, hf⟩ := find?_settle (modGangs { wp with preds := contPreds wp g c } g.gid (contGang c wait)) g.gid
  have hm : (modGangs { wp with preds := contPreds wp g c } g.gid (contGang c wait)).gangs.find? (·.gid = g.gid) =
      some (contGang c wait g) := by
    rw [find?_modGangs (f := contGang c wait) fun _ => rfl]
    exact congrArg (Option.map _) hg
  rw [hm, Option.map_some] at hf
  exact ⟨_, hf⟩

theorem leaveCont_gang {s : State} {p : Party} {k k' : GCtx} {c : ContSave} {wait : GWait} (hk : gangOf s p = some k)
    (hk' : gangOf (leaveCont s k c wait) p = some k') :
    k'.g.latch = c.latch ∧ k'.g.lat = c.lat ∧ k'.g.pc = c.pc ∧ k'.g.wait = wait ∧ k'.g.contSave = none ∧
    k'.g.replay = decide (wait = .none) ∧ k'.wp = contWarp k.wp k.g c wait := by
  obtain ⟨-, -, -, hg⟩ := gangOf_eq_some hk
  obtain ⟨slot, hs⟩ := contWarp_gang c wait hg
  rw [leaveCont_eq, gangOf_modWarp hk, hs, Option.map_some, Option.some.injEq] at hk'
  subst hk'
  exact ⟨rfl, rfl, rfl, rfl, rfl, rfl, rfl⟩

theorem fresumeReturns : FresumeReturns := by
  refine fun s k c hk => ⟨fun hn => ?_, fun v hv => ⟨fun h0 => ?_, fun h1 => ?_, fun h2 => ?_, fun wait k' hk' => ?_⟩⟩
  · change execFresume c s = _
    simp only [execFresume, onGang, hk, hn]
    rfl
  · change execFresume c s = _
    simp only [execFresume, onGang, hk, hv, h0, if_true]
  · change execFresume c s = _
    simp only [execFresume, onGang, hk, hv, h1]
    rfl
  · change execFresume c s = _
    simp only [execFresume, onGang, hk, hv, h2]
    rfl
  · obtain ⟨h1, h2, h3, h4, h5, h6, hwp⟩ := leaveCont_gang hk hk'
    refine ⟨h1, h2, h3, h4, h5, h6, by rw [hwp]; rfl, fun i l hl => ?_⟩
    rw [hwp, contWarp_preds]
    exact (mergePred_lanes k k.wp.preds[i] v.preds[i].val (gangLanes k.g) l hl).1

/-- Settles O49: the watchdog's and the reports' branches, poison by kind of storage, and the restored gang. -/
theorem watchdogReportsPoisonAndResume : Obligations.WatchdogReportsPoisonAndResume :=
  ⟨watchdogFaults, reportsAreOffered, poisonIsMarked, fresumeReturns⟩

end Sys2Proof.Machine

/-! # Packets start by their type (R187, R330 to R349) -/

namespace Sys2Proof.Machine

open Sys2Proof Sys2Proof.Claims

/-! ## The table of queues -/

section
variable {s : State}

theorem modQueue_modQueue {q : Nat} (f g : Queue → Queue) (hf : ∀ x, x.qid = q → (f x).qid = q) :
    modQueue (modQueue s q f) q g = modQueue s q fun x => g (f x) := by
  simp only [modQueue, List.map_map]
  refine congrArg (fun qs => { s with queues := qs }) (List.map_congr_left fun x _ => ?_)
  by_cases h : x.qid = q
  · simp only [Function.comp_apply, h, hf x h, if_true]
  · simp only [Function.comp_apply, h, if_false]

theorem modQueue_getQueue {q : Nat} {f : Queue → Queue} (hf : ∀ x, x.qid = q → (f x).qid = q) (i : Nat) :
    getQueue (modQueue s q f) i = (getQueue s i).map fun x => if x.qid = q then f x else x := by
  have hid (x : Queue) : (if x.qid = q then f x else x).qid = x.qid := by
    split
    next h => rw [hf x h, h]
    · rfl
  simp only [getQueue, modQueue, List.find?_map, Function.comp_def, hid]

theorem getQueue_qid {i : Nat} {q : Queue} (h : getQueue s i = some q) : q.qid = i := by simpa using List.find?_some h

/-- The ids of the queues. -/
def queueIds (s : State) : List Nat := s.queues.map (·.qid)

theorem getQueue_isSome {i : Nat} : (getQueue s i).isSome = true ↔ i ∈ queueIds s := by
  simp only [getQueue, List.find?_isSome, queueIds, List.mem_map, decide_eq_true_eq]

theorem queueIds_modQueue {q : Nat} {f : Queue → Queue} (hf : ∀ x, x.qid = q → (f x).qid = q) :
    queueIds (modQueue s q f) = queueIds s := by
  simp only [queueIds, modQueue, List.map_map]
  refine List.map_congr_left fun x _ => ?_
  rw [Function.comp_apply]
  split
  next h => rw [hf x h, h]
  · rfl

theorem placeState_qid (q : Queue) : (placeState s q).qid = q.qid := by
  unfold placeState
  split
  · rfl
  · split <;> rfl

theorem queueIds_givePlace : queueIds (givePlace s) = queueIds s := by
  unfold givePlace
  split
  · rfl
  · dsimp only
    split
    · rfl
    · exact queueIds_modQueue fun _ h => h

theorem queueIds_settlePlaces : queueIds (settlePlaces s) = queueIds s := by
  have h0 : queueIds { s with queues := s.queues.map (placeState s) } = queueIds s := by
    simp only [queueIds, List.map_map]
    exact List.map_congr_left fun x _ => placeState_qid x
  exact (foldl_keeps queueIds (fun _ _ => queueIds_givePlace) _ _).trans h0

/-! ## Writes of the hub die -/

theorem hubWrite_frame (s : State) (a : Nat) (bs : List Byte) : hubWrite s a bs =
    { s with mem := (hubWrite s a bs).mem, badGranules := (hubWrite s a bs).badGranules, scrubs := (hubWrite s a bs).scrubs,
             wrote := (hubWrite s a bs).wrote } := by
  unfold hubWrite
  rw [writeDev_frame]

theorem hubWrite_queues (s : State) (a : Nat) (bs : List Byte) : (hubWrite s a bs).queues = s.queues := by
  rw [hubWrite_frame]

theorem writeBounds_queues (s : State) (lv : Fin 24) : (writeBounds s lv).queues = s.queues :=
  foldl_keeps State.queues (fun t q => hubWrite_queues t _ _) _ _

/-- A write does not look at the queues. -/
theorem writeGranule_withQueues (t : Report) (a : Nat) (bs : List Byte) (qs : List Queue) (g : Nat) :
    writeGranule t a bs { s with queues := qs } g = { writeGranule t a bs s g with queues := qs } := by
  by_cases h : (s.badGranules.contains g && decide (min (a + bs.length) (32 * g + 32) - max a (32 * g) < 32)) = true
  · have h1 : putGranule a bs s g = none := if_pos h
    have h2 : putGranule a bs { s with queues := qs } g = none := if_pos h
    rw [writeGranule, writeGranule, h1, h2]
    rfl
  · have h1 : putGranule a bs s g = some _ := if_neg h
    have h2 : putGranule a bs { s with queues := qs } g = some _ := if_neg h
    rw [writeGranule, writeGranule, h1, h2]
    rfl

theorem hubWrite_withQueues (a : Nat) (bs : List Byte) (qs : List Queue) :
    hubWrite { s with queues := qs } a bs = { hubWrite s a bs with queues := qs } := by
  have h (gs : List Nat) (u : State) : gs.foldl (writeGranule noTag a bs) { u with queues := qs } =
      { gs.foldl (writeGranule noTag a bs) u with queues := qs } := by
    induction gs generalizing u with
    | nil => rfl
    | cons g gs ih => rw [List.foldl_cons, List.foldl_cons, writeGranule_withQueues, ih]
  unfold hubWrite writeDev
  rw [h]
  rfl

theorem hubWrite_modQueue (a : Nat) (bs : List Byte) (q : Nat) (f : Queue → Queue) :
    hubWrite (modQueue s q f) a bs = modQueue (hubWrite s a bs) q f := by
  rw [modQueue, hubWrite_withQueues, modQueue, hubWrite_queues]

end

/-! ## The start of a packet (R330, R334, R335, R340, R341) -/

section
variable {s : State} {q : Queue} {p : Nat}

/-- A state once queue q has read the packet p. -/
def fetchedAt (s : State) (q : Queue) (p : Nat) : State := modQueue s q.qid fun x => { x with fetched := some p }

/-- That a packet has started forgets that it was read. -/
theorem addFlight_fetchedAt (f : Flight) : addFlight (fetchedAt s q p) q f = addFlight s q f :=
  modQueue_modQueue (fun x => { x with fetched := some p }) _ fun _ h => h

theorem addFlight_setHolding (f : Flight) :
    addFlight (setHolding (fetchedAt s q p) q false) q f = addFlight (setHolding s q false) q f := by
  have h : descBit (fetchedAt s q p) q 1 false = fetchedAt (descBit s q 1 false) q p := hubWrite_modQueue _ _ _ _
  have hc : setHolding (fetchedAt s q p) q false = fetchedAt (setHolding s q false) q p := by
    rw [setHolding, h]
    exact (modQueue_modQueue (fun x => { x with fetched := some p }) _ fun _ h => h).trans
      (modQueue_modQueue (fun x => { x with holding := false }) (fun x => { x with fetched := some p }) fun _ h => h).symm
  rw [hc, addFlight_fetchedAt]

theorem newFlight_fetchedAt (q' : Queue) (p' : Nat) (k : FKind) : newFlight (fetchedAt s q p) q' p' k = newFlight s q' p' k := rfl

/-- A queue that may start a packet is of a context that does not leave. -/
theorem ctxAborts_of_canStart (h : canStart s q = true) : ctxAborts s q.ctx = false := by
  simp only [canStart, ctxStarts, Bool.and_eq_true, Bool.or_eq_true, decide_eq_true_eq, Option.isNone_iff_eq_none] at h
  obtain ⟨-, hi, hl⟩ := h
  rw [ctxAborts, hl]
  rcases hi with hi | hi <;> rw [hi] <;> rfl

theorem ctxAborts_of_canAbort (h : canAbort s q = true) : ctxAborts s q.ctx = true := by
  simp only [canAbort, Bool.and_eq_true] at h
  exact h.2

variable {want : Nat → Bool} {go : State → Queue → Nat → State} (hq : getQueue s q.qid = some q)
include hq

theorem startPacket_waits (hs : canStart s q = false) (ha : canAbort s q = false) : startPacket s q.qid want go = .next s := by
  simp only [startPacket, hq, hs, ha, Bool.not_false, Bool.and_self, if_true]

theorem startPacket_leaves (ha : canAbort s q = true) (hp : fetchPacket s q = .ok p) : startPacket s q.qid want go =
    .next (addFlight s q { newFlight s q p .bad with abort := 0x07, finished := true }) := by
  simp only [startPacket, hq, ha, hp, ctxAborts_of_canAbort ha, Bool.not_true, Bool.and_false, Bool.false_eq_true, if_false, if_true]
  exact congrArg Host.Outcome.next (addFlight_fetchedAt _)

variable (hs : canStart s q = true) (hp : fetchPacket s q = .ok p)
include hs hp

theorem startPacket_held (hh : q.holding = true) (hr : pkResync p = false) : startPacket s q.qid want go =
    .next (addFlight s q { newFlight s q p .bad with abort := 0x02, finished := true }) := by
  simp only [startPacket, hq, hs, hp, ctxAborts_of_canStart hs, hh, hr, Bool.not_true, Bool.not_false, Bool.false_and, Bool.and_self,
    Bool.false_eq_true, if_false, if_true]
  exact congrArg Host.Outcome.next (addFlight_fetchedAt _)

variable (hh : (q.holding && !pkResync p) = false)
include hh

theorem startPacket_other (hw : want (pkType p) = false) : startPacket s q.qid want go = .next (fetchedAt s q p) := by
  simp only [startPacket, hq, hs, hp, ctxAborts_of_canStart hs, hh, hw, Bool.not_true, Bool.not_false, Bool.false_and,
    Bool.false_eq_true, if_false, if_true]
  rfl

theorem startPacket_malformed (hw : want (pkType p) = true) (hm : malformed s q p = true) : startPacket s q.qid want go =
    .next (addFlight (if q.holding then setHolding s q false else s) q
      { newFlight s q p .bad with abort := 0x04, finished := true }) := by
  simp only [startPacket, hq, hs, hp, ctxAborts_of_canStart hs, hh, hw, hm, Bool.not_true, Bool.false_and,
    Bool.false_eq_true, if_false, if_true]
  refine congrArg Host.Outcome.next ?_
  split
  · exact addFlight_setHolding _
  · exact addFlight_fetchedAt _

end

/-- A packet that is well formed goes on to its own effect. -/
theorem startPacket_starts {s : State} {q : Queue} {t p : Nat} {go : State → Queue → Nat → State} (h : PacketGood s q t p) :
    startPacket s q.qid (· = t) go = .next (go (fetchedAt s q p) q p) := by
  obtain ⟨⟨hq, -, -, hs, hp⟩, hh, ht, hm⟩ := h
  simp only [startPacket, hq, hs, hp, ctxAborts_of_canStart hs, hh, ht, hm, decide_true, Bool.not_true, Bool.false_and,
    Bool.false_eq_true, if_false]
  rfl

/-- The step that starts a packet of type t is a start for that type. -/
theorem exec_startOf {s : State} {t qid : Nat} (ht : t ≤ 6) (hc : t = 3 → readyCopy s qid = none) :
    ∃ go, exec (startOf t qid) s = startPacket s qid (· = t) go := by
  obtain rfl | rfl | rfl | rfl | rfl | rfl | rfl : t = 0 ∨ t = 1 ∨ t = 2 ∨ t = 3 ∨ t = 4 ∨ t = 5 ∨ t = 6 := by omega
  · exact ⟨_, (rfl : execNopPacket qid s = _)⟩
  · exact ⟨_, (rfl : execNodePacket qid s = _)⟩
  · exact ⟨_, (rfl : execGraphPacket qid s = _)⟩
  · change ∃ go, execCopyPacket qid s = _
    simp only [execCopyPacket, hc rfl]
    exact ⟨_, rfl⟩
  · exact ⟨_, (rfl : execBarrierPacket qid s = _)⟩
  · exact ⟨_, (rfl : execSignalPacket qid s = _)⟩
  · exact ⟨_, (rfl : execXferPacket qid s = _)⟩

theorem packetsStart : PacketsStart := by
  refine ⟨fun s q t hq ht hc hs ha => ?_, fun s q t p hq ht hc ha hp => ?_, fun s q t p ⟨hq, ht, hc, hs, hp⟩ => ?_⟩
  · obtain ⟨go, h⟩ := exec_startOf ht hc
    rw [h, startPacket_waits hq hs ha]
  · obtain ⟨go, h⟩ := exec_startOf ht hc
    rw [h, startPacket_leaves hq ha hp]
  · obtain ⟨go, h⟩ := exec_startOf ht hc
    rw [h]
    refine ⟨fun ⟨hh, hr⟩ => startPacket_held hq hs hp hh hr, fun hn => ?_⟩
    have hh : (q.holding && !pkResync p) = false := by
      rw [Bool.eq_false_iff]
      intro hx
      rw [Bool.and_eq_true, Bool.not_eq_true'] at hx
      exact hn hx
    exact ⟨fun hne => startPacket_other hq hs hp hh (decide_eq_false hne),
      fun he hm => startPacket_malformed hq hs hp hh (decide_eq_true he) hm⟩

/-! ## NOP and NODE (R187, R188) -/

/-! ### Readings do not look at the queues -/

section
variable (s : State) (qs : List Queue) (who : Option (Fin 256)) (ctx : Fin 64)

theorem auxEach_withQueues (k : AKind) (n va : Nat) :
    auxEach { s with queues := qs } who ctx k n va = auxEach s who ctx k n va := by
  induction n generalizing va with
  | zero => rfl
  | succ n ih =>
    have hb : auxByte { s with queues := qs } who ctx k va = auxByte s who ctx k va := rfl
    simp only [auxEach, hb, ih]

theorem auxNat_withQueues (k : AKind) (n va : Nat) :
    auxNat { s with queues := qs } who ctx k n va = auxNat s who ctx k n va := by
  have hr (m : Nat) : auxRun { s with queues := qs } who ctx k m va = auxRun s who ctx k m va := rfl
  simp only [auxNat, auxBytes, hr, auxEach_withQueues]

theorem dirEnt_withQueues (i : Nat) : dirEnt { s with queues := qs } ctx i = dirEnt s ctx i := by
  simp only [dirEnt, auxNat_withQueues]

theorem findDir_withQueues (f : Nat → DirEnt → Bool) : findDir { s with queues := qs } ctx f = findDir s ctx f := by
  simp only [findDir, dirEnt_withQueues]

theorem loadedAs_withQueues (i v : Nat) : loadedAs { s with queues := qs } ctx i v = loadedAs s ctx i v := by
  simp only [loadedAs, dirEnt_withQueues, findDir_withQueues]

end

theorem findDir_fetchedAt {s : State} {q : Queue} {p : Nat} (ctx : Fin 64) (f : Nat → DirEnt → Bool) :
    findDir (fetchedAt s q p) ctx f = findDir s ctx f := findDir_withQueues ..

theorem checkLaunch_fetchedAt {s : State} {q : Queue} {p : Nat} (ctx : Fin 64) (fatal : Option (Nat × Nat)) (e : Nat) :
    checkLaunch (fetchedAt s q p) ctx fatal e = checkLaunch s ctx fatal e := by
  have hl : hubLoad (fetchedAt s q p) ctx fatal (pkB e 24 8) 64 = hubLoad s ctx fatal (pkB e 24 8) 64 := rfl
  simp only [checkLaunch, hl, launchDir, findDir_fetchedAt]
  rfl

theorem nodePackets : NodePackets := by
  refine fun s q p => ⟨fun h => ?_, fun h => ⟨fun kd di hk => ?_, fun hk => ?_⟩⟩
  · change execNopPacket q.qid s = _
    rw [execNopPacket, startPacket_starts h, addFlight_fetchedAt, newFlight_fetchedAt]
  · rw [← checkLaunch_fetchedAt (q := q) (p := p)] at hk
    change execNodePacket q.qid s = _
    rw [execNodePacket, startPacket_starts h]
    simp only [takeNode, hk]
    exact congrArg Host.Outcome.next (addFlight_fetchedAt (s := { s with nodes := _ }) _)
  · rw [← checkLaunch_fetchedAt (q := q) (p := p)] at hk
    refine ⟨addFlight { s with nodes := s.nodes ++ [{ newNode s q.ctx q.qid q.next none p KDesc.none 0 with nblocks := 0 }] } q
      (newFlight s q p (.node s.nodes.length)), ?_, rfl, _, rfl, rfl⟩
    change execNodePacket q.qid s = _
    rw [execNodePacket, startPacket_starts h]
    simp only [takeNode, hk]
    exact congrArg (fun u => Host.Outcome.next (offer u _ _ _)) (addFlight_fetchedAt (s := { s with nodes := _ }) _)

/-! ## GRAPH (R347 to R349) -/

section
variable {s : State} {q q' : Queue} {p : Nat}

theorem readSucc_fetchedAt (ctx : Fin 64) (fatal : Option (Nat × Nat)) (e n : Nat) (got : List Byte) :
    readSucc (fetchedAt s q p) ctx fatal e n got = readSucc s ctx fatal e n got := by
  induction n generalizing got with
  | zero => rfl
  | succ n ih =>
    have hl : hubLoad (fetchedAt s q p) ctx fatal (bitsOf e 64 64 + got.length) 2 =
      hubLoad s ctx fatal (bitsOf e 64 64 + got.length) 2 := rfl
    simp only [readSucc, hl, ih]

theorem readRec_fetchedAt (ctx : Fin 64) (fatal : Option (Nat × Nat)) (nn va : Nat) (cur : Option (Nat × List Byte)) :
    readRec (fetchedAt s q p) ctx fatal nn va cur = readRec s ctx fatal nn va cur := by
  have hl : hubLoad (fetchedAt s q p) ctx fatal va 64 = hubLoad s ctx fatal va 64 := rfl
  simp only [readRec, hl, checkLaunch_fetchedAt, readSucc_fetchedAt]

theorem readRecs_fetchedAt (ctx : Fin 64) (fatal : Option (Nat × Nat)) (nn base n : Nat) (got : List GRec)
    (cur : Option (Nat × List Byte)) :
    readRecs (fetchedAt s q p) ctx fatal nn base n got cur = readRecs s ctx fatal nn base n got cur := by
  induction n generalizing got cur with
  | zero => rfl
  | succ n ih => simp only [readRecs, readRec_fetchedAt, ih]

/-- What a queue has of the graph that it reads: the head, the records read before, and what it has read of the next one. -/
def HasHead (s : State) (q : Queue) (p e : Nat) (got : List GRec) (cur : Option (Nat × List Byte)) : Prop :=
  ∃ bs, leNat bs = e ∧ (q.part.map (·.recs)).getD [] = got ∧ q.part.bind (·.cur) = cur ∧
    ((q.part = none ∧ hubRead s q.ctx q.fatal (pkB p 24 8) 64 = .ok bs) ∨ ∃ g, q.part = some g ∧ bs = leBytes 64 g.head)

theorem hasHead_of_read {e : Nat} {bs : List Byte} {got : List GRec} {cur : Option (Nat × List Byte)}
    (h : (q.part = none ∧ hubRead s q.ctx q.fatal (pkB p 24 8) 64 = .ok bs ∧ e = leNat bs ∧ got = [] ∧ cur = none) ∨
      ∃ g, q.part = some g ∧ g.head < 2 ^ 512 ∧ e = g.head ∧ got = g.recs ∧ cur = g.cur) : HasHead s q p e got cur := by
  rcases h with ⟨hp, hr, rfl, rfl, rfl⟩ | ⟨g, hp, hlt, rfl, rfl, rfl⟩
  · exact ⟨bs, rfl, by rw [hp]; rfl, by rw [hp]; rfl, .inl ⟨hp, hr⟩⟩
  · refine ⟨leBytes 64 g.head, ?_, by rw [hp]; rfl, by rw [hp]; rfl, .inr ⟨g, hp, rfl⟩⟩
    rw [leNat_leBytes, Nat.mod_eq_of_lt (lt_of_lt_of_eq hlt (show 2 ^ 512 = 256 ^ 64 from pow_mul 2 8 64))]

/-- Whether a graph's head is sound (R347). -/
def soundHead (e nn : Nat) : Prop :=
  bitsOf e 98 414 = 0 ∧ bitsOf e 80 16 = 0 ∧ nn ≠ 0 ∧ bitsOf e 0 64 % 64 = 0 ∧ bitsOf e 56 8 = 0

theorem soundHead_iff (e nn : Nat) : (bitsOf e 98 414 != 0 || bitsOf e 80 16 != 0 || decide (nn = 0) || bitsOf e 0 64 % 64 != 0 ||
    bitsOf e 56 8 != 0) = false ↔ soundHead e nn := by
  simp only [soundHead, Bool.or_eq_false_iff, bne_eq_false_iff_eq, decide_eq_false_iff_not, and_assoc, ne_eq]

/-- A graph as it is taken, before its head is read. -/
def freshGraph (q : Queue) : Graph :=
  { ctx := q.ctx, qid := q.qid, pidx := q.next, policy := 2, nodes := [], retries := 0, ended := false, aborted := false,
    nfault := 0, summary := 0, first := none }

variable {e : Nat} {got : List GRec} {cur : Option (Nat × List Byte)}

theorem takeGraph_unsound (hh : HasHead s q p e got cur) (hs : ¬ soundHead e (bitsOf e 64 16)) : takeGraph s q p =
    graphFault (addFlight { s with graphs := s.graphs ++ [freshGraph q] } q (newFlight s q p (.graph s.graphs.length)))
      s.graphs.length (raise .illegal none 3) := by
  rw [← soundHead_iff, Bool.not_eq_false] at hs
  obtain ⟨bs, rfl, rfl, rfl, ⟨hp, hr⟩ | ⟨g, hp, rfl⟩⟩ := hh
  · simp only [takeGraph, hp, hr, hs, if_true]
    rfl
  · simp only [takeGraph, hp, hs, if_true]
    rfl

theorem takeGraph_waits (hh : HasHead s q p e got cur) (hs : soundHead e (bitsOf e 64 16)) {c vp : Nat} {kd : Option (BitVec 4)}
    {recs : List GRec} {cur1 : Option (Nat × List Byte)}
    (hr : readRecs s q.ctx q.fatal (bitsOf e 64 16) (bitsOf e 0 64) (bitsOf e 64 16 - got.length) got cur = .wait c vp kd recs cur1) :
    takeGraph s q p = modQueue (stallQueue s q c vp kd) q.qid fun x => { x with part := some { head := e, recs := recs, cur := cur1 } } := by
  rw [← soundHead_iff] at hs
  obtain ⟨bs, rfl, rfl, rfl, ⟨hp, hrd⟩ | ⟨g, hp, rfl⟩⟩ := hh
  · simp only [hp] at hr
    simp only [takeGraph, hp, hrd, hs, hr, Bool.false_eq_true, if_false]
  · simp only [hp] at hr
    simp only [takeGraph, hp, hs, hr, Bool.false_eq_true, if_false]

theorem takeGraph_takes (hh : HasHead s q p e got cur) (hs : soundHead e (bitsOf e 64 16)) {rs : List GRec}
    (hr : readRecs s q.ctx q.fatal (bitsOf e 64 16) (bitsOf e 0 64) (bitsOf e 64 16 - got.length) got cur = .ok rs)
    (hc : countsAgree rs = true) (hlim : s.counters + bitsOf e 64 16 ≤ 262144) :
    takeGraph s q p = breakCycle (addFlight { s with
      nodes := s.nodes ++ graphNodes s q s.graphs.length s.nodes.length rs
      graphs := s.graphs ++ [{ freshGraph q with
        policy := BitVec.ofNat 2 (bitsOf e 96 2), nodes := (List.range (bitsOf e 64 16)).map (s.nodes.length + ·) }]
      counters := s.counters + bitsOf e 64 16 } q (newFlight s q p (.graph s.graphs.length))) s.graphs.length := by
  rw [← soundHead_iff] at hs
  have hlim' : ¬ s.counters + bitsOf e 64 16 > counterLimit := Nat.not_lt.2 hlim
  obtain ⟨bs, rfl, rfl, rfl, ⟨hp, hrd⟩ | ⟨g, hp, rfl⟩⟩ := hh
  · simp only [hp] at hr
    simp only [takeGraph, hp, hrd, hs, hr, hc, hlim', Bool.not_true, Bool.false_eq_true, if_false]
    rfl
  · simp only [hp] at hr
    simp only [takeGraph, hp, hs, hr, hc, hlim', Bool.not_true, Bool.false_eq_true, if_false]
    rfl

theorem HasHead.fetchedAt (h : HasHead s q p e got cur) : HasHead (fetchedAt s q p) q p e got cur := h

end

theorem graphPackets : GraphPackets := by
  intro s q p e nn bs got cur h hh hnn sound gr
  have hhead := (hasHead_of_read hh).fetchedAt
  subst hnn
  have hexec : exec (.graphPacket q.qid) s = .next (takeGraph (fetchedAt s q p) q p) := startPacket_starts h
  rw [hexec]
  refine ⟨fun c vp kd recs cur1 hs hr s0 hs0 => ?_, fun rs hs hr hc hlim => ?_, fun hs => ?_⟩
  · rw [← readRecs_fetchedAt (q := q) (p := p)] at hr
    rw [takeGraph_waits hhead hs hr, hs0]
    rfl
  · rw [← readRecs_fetchedAt (q := q) (p := p)] at hr
    rw [takeGraph_takes hhead hs hr hc hlim]
    exact congrArg (fun u => Host.Outcome.next (breakCycle u _))
      (addFlight_fetchedAt (s := { s with nodes := _, graphs := _, counters := _ }) _)
  · rw [takeGraph_unsound hhead hs]
    exact congrArg (fun u => Host.Outcome.next (graphFault u _ _)) (addFlight_fetchedAt (s := { s with graphs := _ }) _)

/-! ## COPY (R345, R350) -/

/-- A raw row that is written whole. -/
theorem runCopy_writes {s t : State} {ctx : Fin 64} {why : FabFor} {j : CopyJob} {src dst len : Nat} {ws : Lines} {fl : Flags}
    (hf : j.fatal = none) (hk : j.row.kind = .raw src dst len)
    (hr : rawRow { s with reports := [] } { who := none, ctx := ctx, tag := noTag, b := none, why := fun _ => why }
      j.ver [] j.row src dst len = .ok (t, ws, fl)) : ∃ u fs, runCopy s ctx why j =
      { s := { u with reports := s.reports }, j := { j with written := true, stalled := none }, faults := fs, flags := fl,
        failed := false } ∧ u = match j.ver with | some n => writeVersioned t noTag n ws | none => t := by
  simp only [runCopy, hf, hk, hr]
  exact ⟨_, _, rfl, rfl⟩

theorem copyPackets : CopyPackets := by
  refine ⟨fun s q p h => ?_, fun s qid n h => ?_, fun s t ctx why j src dst len ws fl hf hk hr => ?_⟩
  · have hexec : exec (.copyPacket q.qid) s = startPacket s q.qid (· = 3) fun t x p =>
        if copySpan (copyJob p) then addFlight t x { newFlight t x p (.copy (copyJob p)) with abort := 0x06 }
        else pumpCopyPacket (addFlight t x (newFlight t x p (.copy (copyJob p)))) q.qid x.next := by
      change execCopyPacket q.qid s = _
      rw [execCopyPacket, h.reached.copy rfl]
    rw [hexec, startPacket_starts h]
    refine ⟨fun hc => ?_, fun hc => ?_⟩
    · rw [if_pos hc, addFlight_fetchedAt, newFlight_fetchedAt]
    · rw [if_neg (by simp [hc]), addFlight_fetchedAt, newFlight_fetchedAt]
  · change execCopyPacket qid s = _
    rw [execCopyPacket, h]
  · obtain ⟨u, fs, hrun, hu⟩ := runCopy_writes (why := why) hf hk hr
    subst hu
    rw [hrun]
    exact ⟨rfl, rfl, rfl, rfl⟩

/-! ## SIGNAL and XFER (R335, R338, R344) -/

theorem startedNode_fetchedAt {s : State} {q : Queue} {p : Nat} (qid idx : Nat) :
    startedNode (fetchedAt s q p) qid idx = startedNode s qid idx := by
  simp only [startedNode, findFlight, fetchedAt, modQueue_getQueue (f := fun x => { x with fetched := some p }) (fun _ h => h)]
  cases getQueue s qid with
  | none => rfl
  | some x =>
    have hfl : (if x.qid = q.qid then { x with fetched := some p } else x).flights = x.flights := by split <;> rfl
    simp only [Option.map_some, hfl]
    cases x.flights.find? (·.idx = idx) <;> rfl

theorem trySignal_performs {s : State} {qid idx : Nat} {q : Queue} {f : Flight} {op : SigOp} {va a : Nat} {v : Word64}
    (hf : findFlight s qid idx = some (q, f)) (hk : f.kind = .signal op va v) (he : evaluates f = true)
    (hc : cpSent s (.signalOp qid idx) = false) (hp : hubPlace s q.ctx .atomic f.fatal va = .ok (.dev a))
    (hb : poisonAt s (.dev a) 8 = false) : trySignal s qid idx = modFlight
      (rmw s noTag (.dev a) (sigAtom op v).1 false .b64 (sigAtom op v).2 0).1 qid idx fun y => { y with finished := true } := by
  simp only [trySignal, hf, hk, he, hc, hp, hb, isFab, Bool.not_true, Bool.or_self, Bool.false_eq_true, if_false]

theorem signalAndXferPackets : SignalAndXferPackets := by
  refine fun s q p => ⟨fun h op v f s1 a hop hv hf hs1 hfind hsent hplace hpois => ?_, fun h f hf => ?_⟩
  · have hexec : exec (.signalPacket q.qid) s = .next (trySignal s1 q.qid q.next) := by
      change execSignalPacket q.qid s = _
      rw [execSignalPacket, startPacket_starts h, hs1, hf, hop, hv]
      exact congrArg (fun u => Host.Outcome.next (trySignal u q.qid q.next)) (addFlight_fetchedAt _)
    have hsent' : cpSent s1 (.signalOp q.qid q.next) = false := by rw [hs1]; exact hsent
    have hkind : f.kind = .signal op (pkB p 24 8) v := by rw [hf]; rfl
    have heval : evaluates f = true := by rw [hf]; rfl
    have hfatal : f.fatal = none := by rw [hf]; rfl
    rw [hexec, trySignal_performs hfind hkind heval hsent' (hfatal ▸ hplace) hpois]
  · subst hf
    have hload (ctx : Fin 64) (i v : Nat) : loadedAs (fetchedAt s q p) ctx i v = loadedAs s ctx i v := loadedAs_withQueues ..
    have hnodes : (fetchedAt s q p).nodes = s.nodes := rfl
    change (_ → execXferPacket q.qid s = _) ∧ ∀ n nd, _ → _ → (_ → execXferPacket q.qid s = _) ∧
      (_ → _ → execXferPacket q.qid s = _) ∧ (_ → _ → execXferPacket q.qid s = _)
    rw [execXferPacket, startPacket_starts h]
    simp only [startedNode_fetchedAt, hload, hnodes, newFlight_fetchedAt, addFlight_fetchedAt]
    refine ⟨fun hn => by rw [hn], fun n nd hn hnd => ?_⟩
    simp only [hn, hnd]
    refine ⟨fun hl => ?_, fun hl hr => ?_, fun hl hr => ?_⟩
    · rw [hl]
      rfl
    · rw [if_neg (by simpa using hl), if_pos hr]
    · rw [if_neg (by simpa using hl), if_neg hr]

/-! ## Write indices (R330, R341, R355, R356) -/

theorem startPacket_next {s : State} {qid : Nat} {want : Nat → Bool} {go : State → Queue → Nat → State}
    (h : qid ∈ queueIds s) : ∃ t, startPacket s qid want go = .next t := by
  obtain ⟨q, hq⟩ := Option.isSome_iff_exists.1 (getQueue_isSome.2 h)
  simp only [startPacket, hq]
  split
  · exact ⟨_, rfl⟩
  · split
    · exact ⟨_, rfl⟩
    · split
      · exact ⟨_, rfl⟩
      · split
        · exact ⟨_, rfl⟩
        · split
          · exact ⟨_, rfl⟩
          · split <;> exact ⟨_, rfl⟩

/-- The state once a queue has observed a write index. -/
def observedAt (s : State) (q : Queue) (v : Nat) : State :=
  writeBounds (settlePlaces (modQueue s q.qid fun x => { x with observed := max v x.observed })) q.level

theorem mem_queueIds_observedAt {s : State} {q : Queue} (hq : getQueue s q.qid = some q) (v : Nat) :
    q.qid ∈ queueIds (observedAt s q v) := by
  have h : queueIds (observedAt s q v) = queueIds s := by
    have h1 := congrArg (List.map (·.qid)) (writeBounds_queues (settlePlaces (modQueue s q.qid fun x => { x with observed := max v x.observed })) q.level)
    exact h1.trans (queueIds_settlePlaces.trans (queueIds_modQueue fun _ h => h))
  rw [h, ← getQueue_isSome, hq]
  rfl

section
variable {s : State} {q : Queue} (hq : getQueue s q.qid = some q)
include hq

theorem writeIndex_off (h : qEnabled s q = false ∨ q.stalled ≠ none ∨ q.closing = true) :
    execWriteIndexObserved q.qid s = .next (writeBounds (settlePlaces s) q.level) := by
  have hoff : (!qEnabled s q || q.stalled.isSome || q.closing) = true := by
    rcases h with h | h | h
    · rw [h]; rfl
    · rw [Option.isSome_iff_ne_none.2 h, Bool.or_true, Bool.true_or]
    · rw [h, Bool.or_true]
  simp only [execWriteIndexObserved, hq, hoff, if_true]

variable (he : qEnabled s q = true) (hst : q.stalled = none) (hcl : q.closing = false)
include he hst hcl

theorem writeIndex_bad (hr : hubRead s q.ctx q.fatal q.widx 8 = .bad) :
    execWriteIndexObserved q.qid s = .next (settlePlaces (queueError s q 2)) := by
  simp only [execWriteIndexObserved, hq, he, hst, hcl, hr, Option.isSome_none, Bool.not_true, Bool.or_self, Bool.false_eq_true, if_false]

theorem writeIndex_waits {c vp : Nat} {kd : Option (BitVec 4)} (hr : hubRead s q.ctx q.fatal q.widx 8 = .wait c vp kd) :
    execWriteIndexObserved q.qid s = .next (stallQueue s q c vp kd) := by
  simp only [execWriteIndexObserved, hq, he, hst, hcl, hr, Option.isSome_none, Bool.not_true, Bool.or_self, Bool.false_eq_true, if_false]

theorem writeIndex_read {bs : List Byte} (hr : hubRead s q.ctx q.fatal q.widx 8 = .ok bs) : execWriteIndexObserved q.qid s =
    if leNat bs > q.observed ∧ leNat bs > q.readIdx + 2 ^ q.sizelog then .next (settlePlaces (queueError s q 1))
    else startPacket (observedAt s q (leNat bs)) q.qid (· > 6) fun t _ _ => t := by
  simp only [execWriteIndexObserved, hq, he, hst, hcl, hr, Option.isSome_none, Bool.not_true, Bool.or_self, Bool.false_eq_true,
    if_false, Bool.and_eq_true, decide_eq_true_eq]
  rfl

end

theorem writeIndices : WriteIndices := by
  intro s q hq
  change (∃ t, execWriteIndexObserved q.qid s = _) ∧ _
  refine ⟨?_, writeIndex_off hq, fun he hst hcl => ⟨writeIndex_bad hq he hst hcl, fun bs v hr hv => ⟨fun hj => ?_, fun hj s1 hs1 hx => ?_⟩⟩⟩
  · by_cases hoff : qEnabled s q = false ∨ q.stalled ≠ none ∨ q.closing = true
    · exact ⟨_, writeIndex_off hq hoff⟩
    · obtain ⟨he, hst, hcl⟩ : qEnabled s q = true ∧ q.stalled = none ∧ q.closing = false := by simpa using hoff
      cases hr : hubRead s q.ctx q.fatal q.widx 8 with
      | bad => exact ⟨_, writeIndex_bad hq he hst hcl hr⟩
      | wait c vp kd => exact ⟨_, writeIndex_waits hq he hst hcl hr⟩
      | ok bs =>
        rw [writeIndex_read hq he hst hcl hr]
        split
        · exact ⟨_, rfl⟩
        · exact startPacket_next (mem_queueIds_observedAt hq _)
  · subst hv
    exact (writeIndex_read hq he hst hcl hr).trans (if_pos hj)
  · subst hv hs1
    obtain ⟨x, hgx⟩ := Option.isSome_iff_exists.1 (getQueue_isSome.2 (mem_queueIds_observedAt hq (leNat bs)))
    obtain ⟨h1, h2⟩ := hx x hgx
    refine (writeIndex_read hq he hst hcl hr).trans ((if_neg hj).trans ?_)
    have hqid := getQueue_qid hgx
    have hw := startPacket_waits (want := (· > 6)) (go := fun t _ _ => t)
      (show getQueue (observedAt s q (leNat bs)) x.qid = some x by rw [hqid]; exact hgx) h1 h2
    rw [hqid] at hw
    exact hw

/-- Settles O50: the start of a packet, then the effect of each type. -/
theorem packetsStartByTheirType : Obligations.PacketsStartByTheirType :=
  ⟨writeIndices, packetsStart, nodePackets, graphPackets, copyPackets, signalAndXferPackets⟩

end Sys2Proof.Machine

/-! # Barriers evaluate, packets retire, a graph's nodes follow one another (R335, R336, R339, R340, R350, R374) -/

namespace Sys2Proof.Machine

open Sys2Proof Sys2Proof.Claims

/-! ## Rounds of a BARRIER (R339) -/

/-- Readings that all gave values. -/
theorem exists_values {rs : List (Nat × SigRead)} {vs : List Word64} (h : rs.map (·.2) = vs.map .val) :
    ∃ l : List (Nat × Word64), rs = l.map (fun x => (x.1, .val x.2)) ∧ l.map (·.2) = vs := by
  induction rs generalizing vs with
  | nil =>
    cases vs with
    | nil => exact ⟨[], rfl, rfl⟩
    | cons v vs => simp at h
  | cons r rs ih =>
    cases vs with
    | nil => simp at h
    | cons v vs =>
      obtain ⟨n, x⟩ := r
      rw [List.map_cons, List.map_cons, List.cons.injEq] at h
      obtain ⟨rfl, h⟩ := h
      obtain ⟨l, rfl, rfl⟩ := ih h
      exact ⟨(n, v) :: l, rfl, rfl⟩

/-- A flight once a round has read the values vs. -/
def roundOutcome (sigs : List Nat) (vs : List Word64) (x : Flight) : Flight :=
  { x with
    kind := .barrier sigs [], stalled := none, fatal := none
    abort := if ∃ v ∈ vs, v.toInt < 0 then 1 else x.abort
    finished := if (∀ v ∈ vs, ¬ v.toInt < 0) ∧ (∀ v ∈ vs, v = 0) then true else x.finished }

theorem runRound_of_values {s : State} {q : Queue} {f : Flight} {sigs : List Nat} {got : List (Nat × Word64)} {vs : List Word64}
    (h : (sigs.zipIdx.map fun x => readSig s q.ctx f.fatal (gotOf got x.2) x.1) = vs.map .val) :
    runRound s q f sigs got = modFlight s q.qid f.idx (roundOutcome sigs vs) := by
  have hrs : (sigs.zipIdx.map fun x => (x.2, readSig s q.ctx f.fatal (gotOf got x.2) x.1)).map (·.2) = vs.map SigRead.val := by
    rw [← h, List.map_map]
    rfl
  obtain ⟨l, hl, rfl⟩ := exists_values hrs
  have hany {p : Nat × SigRead → Bool} (hp : ∀ x : Nat × Word64, p (x.1, .val x.2) = false) :
      (l.map fun x => (x.1, SigRead.val x.2)).any p = false := by
    rw [List.any_map]
    exact List.any_eq_false.2 fun x _ => by rw [Function.comp_apply, hp]; exact Bool.false_ne_true
  have hfind {p : Nat × SigRead → Bool} (hp : ∀ x : Nat × Word64, p (x.1, .val x.2) = false) :
      (l.map fun x => (x.1, SigRead.val x.2)).find? p = none := by
    refine List.find?_eq_none.2 fun r hr => ?_
    obtain ⟨x, -, rfl⟩ := List.mem_map.1 hr
    rw [hp]
    exact Bool.false_ne_true
  have hread {g : Nat × SigRead → Option (Nat × Word64)} (hg : ∀ x : Nat × Word64, g (x.1, .val x.2) = some x) :
      (l.map fun x => (x.1, SigRead.val x.2)).filterMap g = l := by
    rw [List.filterMap_map, funext (f := g ∘ _) hg, List.filterMap_some]
  unfold runRound
  simp only [hl]
  rw [hany fun _ => rfl, hfind fun _ => rfl]
  simp only [Bool.false_eq_true, if_false]
  rw [hany fun _ => rfl, hread fun _ => rfl]
  simp only [Bool.false_eq_true, if_false]
  generalize l.map (·.2) = vs
  by_cases hneg : ∃ v ∈ vs, v.toInt < 0
  · have hn : vs.any (fun v => decide (v.toInt < 0)) = true := by simpa using hneg
    have hn' : ¬ ((∀ v ∈ vs, ¬ v.toInt < 0) ∧ ∀ v ∈ vs, v = 0) := fun h => hneg.elim fun v hv => h.1 v hv.1 hv.2
    rw [if_pos hn]
    refine congrArg (modFlight s q.qid f.idx) (funext fun x => ?_)
    rw [roundOutcome, if_pos hneg, if_neg hn']
  · have hn : ¬ vs.any (fun v => decide (v.toInt < 0)) = true := by simpa using hneg
    have hn' : ∀ v ∈ vs, ¬ v.toInt < 0 := fun v hv h => hneg ⟨v, hv, h⟩
    rw [if_neg hn]
    by_cases hz : ∀ v ∈ vs, v = 0
    · have hz1 : vs.all (fun v => decide (v = 0)) = true := by simpa using hz
      rw [if_pos hz1]
      refine congrArg (modFlight s q.qid f.idx) (funext fun x => ?_)
      rw [roundOutcome, if_neg hneg, if_pos ⟨hn', hz⟩]
    · have hz1 : ¬ vs.all (fun v => decide (v = 0)) = true := by simpa using hz
      rw [if_neg hz1]
      refine congrArg (modFlight s q.qid f.idx) (funext fun x => ?_)
      rw [roundOutcome, if_neg hneg, if_neg fun h => hz h.2]

theorem barrierRounds : BarrierRounds := by
  refine ⟨fun s q p h hs => ?_, fun s q p h _ => ?_, fun s q f sigs got vs i hf hk hi => ?_⟩
  · change execBarrierPacket q.qid s = _
    rw [execBarrierPacket, startPacket_starts h]
    simp only [hs, List.map_nil, List.isEmpty_nil, if_true]
    exact congrArg Host.Outcome.next (addFlight_fetchedAt _)
  · change ∃ t, execBarrierPacket q.qid s = _
    rw [execBarrierPacket, startPacket_starts h]
    exact ⟨_, rfl⟩
  · have hexec : exec i s = .next (if evaluates f then runRound s q f sigs got else s) := by
      have hr : nextRound s q.qid f.idx = .next (if evaluates f then runRound s q f sigs got else s) := by
        simp only [nextRound, hf, hk]
      rcases hi with rfl | rfl <;> exact hr
    rw [hexec]
    refine ⟨fun he => by rw [he]; rfl, fun he hv => ?_⟩
    rw [if_pos he, runRound_of_values hv]
    rfl

/-! ## Retirement (R336, R340, R369) -/

section
variable {s : State} {q : Queue} {f : Flight} (hf : findFlight s q.qid f.idx = some (q, f))
include hf

theorem trySignal_other (h : ∀ op va v, f.kind ≠ .signal op va v) : trySignal s q.qid f.idx = s := by
  simp only [trySignal, hf]

theorem retireSteps_record (hst : f.stage = .record) (hc : f.creca ≠ 0) {a n : Nat}
    (hp : hubPlace s q.ctx .store f.fatal f.creca = .ok (.dev a)) : retireSteps q.qid f.idx (n + 1) s = retireSteps q.qid f.idx n
      (modFlight (hubWrite s a (recordBytes s f)) q.qid f.idx fun x => { x with stage := .signal }) := by
  simp only [retireSteps, hf, hst, if_neg hc, hp, isFab, Bool.false_eq_true, if_false]

theorem retireSteps_signal (hst : f.stage = .signal) (hfl : f.failed = false) (hc : f.csiga ≠ 0) {a n : Nat} {s1 : State}
    (hs1 : s1 = modFlight s q.qid f.idx (fun x => { x with abort := f.abort }))
    (hp : hubPlace s1 q.ctx .atomic f.fatal f.csiga = .ok (.dev a)) (hb : poisonAt s1 (.dev a) 8 = false) :
    retireSteps q.qid f.idx (n + 1) s = retireSteps q.qid f.idx n
      (modFlight (if (BitVec.ofNat 64 (memNat s.mem a 8)).toInt < 0 then s1
        else hubWrite s1 a (leBytes 8 (signalNew f.abort (BitVec.ofNat 64 (memNat s.mem a 8))).toNat)) q.qid f.idx
        fun x => { x with stage := .last }) := by
  subst hs1
  simp only [retireSteps, hf, hst, hfl, if_neg hc, hp, hb, isFab, Bool.false_and, Bool.false_eq_true, if_false]
  rfl

theorem retireSteps_last (hst : f.stage = .last) (hfl : f.failed = false) (n : Nat) :
    retireSteps q.qid f.idx (n + 1) s = retireNow s q f := by
  simp only [retireSteps, hf, hst, hfl, Bool.not_false, if_true]

end

theorem retirement : Retirement := by
  refine ⟨fun s q f hf => ⟨fun h => ?_, fun hr hs hn => ⟨?_, fun hk => trySignal_other hf hk⟩, fun hr hs hn => ?_⟩, fun s q f n hf => ⟨fun hst hc a hp =>
    retireSteps_record hf hst hc hp, fun hst hfl hc a s1 old hs1 hp hb hold => ?_, fun hst hfl => retireSteps_last hf hst hfl n⟩,
    fun q => ⟨fun f r hq hi hr n => ?_, fun f r hq hr n => ?_⟩⟩
  · change execPacketRetire q.qid f.idx s = _
    have hstop : (f.retired || f.stalled.isSome) = true := by
      rcases h with h | h
      · rw [h]; rfl
      · rw [Option.isSome_iff_ne_none.2 h, Bool.or_true]
    simp only [execPacketRetire, hf, hstop, if_true]
  · change execPacketRetire q.qid f.idx s = _
    simp only [execPacketRetire, hf, hr, hs, hn, Option.isSome_none, Bool.or_self, Bool.not_false, Bool.false_eq_true, if_false, if_true]
  · change execPacketRetire q.qid f.idx s = _
    simp only [execPacketRetire, hf, hr, hs, hn, Option.isSome_none, Bool.or_self, Bool.not_true, Bool.false_eq_true, if_false]
  · subst hold
    exact retireSteps_signal hf hst hfl hc hs1 hp hb
  · simp only [advanceRead, hq, hi, hr, decide_true, Bool.and_self, if_true]
  · cases n with
    | zero => rfl
    | succ n => simp only [advanceRead, hq, hr, Bool.and_false, Bool.false_eq_true, if_false]

/-! ## The nodes of a graph (R350) -/

theorem countDown_graphs (s : State) (succ : List Nat) : (countDown s succ).graphs = s.graphs := by
  unfold countDown
  exact foldl_keeps State.graphs (fun _ _ => by rfl) _ _

/-- A node counted down k times. -/
def countedDown (tick k : Nat) (x : Node) : Node :=
  if x.status ≠ .waiting ∨ k = 0 then x
  else if k < x.count then { x with count := x.count - k }
  else { x with count := 0, status := .ready, readyAt := tick }

/-- One count of a node. -/
def countOnce (tick : Nat) (x : Node) : Node :=
  if x.status = .waiting then
    if x.count ≤ 1 then { x with count := 0, status := .ready, readyAt := tick } else { x with count := x.count - 1 }
  else x

theorem countedDown_countOnce (tick k : Nat) (x : Node) : countedDown tick k (countOnce tick x) = countedDown tick (k + 1) x := by
  by_cases hw : x.status = .waiting
  · by_cases hc : x.count ≤ 1
    · have h1 : ¬ k + 1 < x.count := by omega
      simp only [countOnce, hw, hc, if_true, countedDown, ne_eq, reduceCtorEq, not_false_eq_true, true_or, not_true_eq_false,
        false_or, Nat.add_eq_zero_iff, one_ne_zero, and_false, if_false, h1]
    · simp only [countOnce, hw, hc, if_true, if_false, countedDown, ne_eq, not_true_eq_false, false_or, Nat.add_eq_zero_iff,
        one_ne_zero, and_false]
      by_cases hk : k = 0
      · have h1 : k + 1 < x.count := by omega
        rw [if_pos hk, if_pos h1, hk]
      · rw [if_neg hk]
        by_cases hl : k + 1 < x.count
        · rw [if_pos (by omega), if_pos hl, Nat.sub_sub, Nat.add_comm 1 k]
        · rw [if_neg (by omega), if_neg hl]
  · simp only [countOnce, hw, if_false, countedDown, ne_eq, not_false_eq_true, true_or, if_true]

theorem countDown_get (s : State) (succ : List Nat) {m : Nat} {x : Node} (h : s.nodes[m]? = some x) :
    (countDown s succ).nodes[m]? = some (countedDown s.tick (succ.count m) x) := by
  have hfold (t : State) (x : Node) (ht : t.nodes[m]? = some x) :
      (succ.foldl (fun t m => modNode t m (countOnce s.tick)) t).nodes[m]? = some (countedDown s.tick (succ.count m) x) := by
    induction succ generalizing t x with
    | nil =>
      rw [List.foldl_nil, ht, List.count_nil, countedDown, if_pos (.inr rfl)]
    | cons i succ ih =>
      rw [List.foldl_cons]
      by_cases hi : i = m
      · subst hi
        rw [ih _ (countOnce s.tick x) (by rw [modNode_get, if_pos rfl, ht]; rfl), List.count_cons_self, countedDown_countOnce]
      · rw [ih _ x (by rw [modNode_get, if_neg hi, ht]), List.count_cons_of_ne hi]
  exact hfold s x h

theorem graphNodesComplete : GraphNodesComplete := by
  refine ⟨fun s n g nd j gr hnd hg hgr => ⟨fun h => ?_, fun hd hs s1 s2 hs1 hs2 => ?_⟩, fun s succ m x h => countDown_get s succ h⟩
  · change execGraphNodeComplete n s = _
    have hstop : (decide (nd.status = .done) || !nodeSettled s n) = true := by
      rcases h with h | h
      · rw [decide_eq_true h]; rfl
      · rw [h, Bool.not_false, Bool.or_true]
    simp only [execGraphNodeComplete, hnd, hg, hstop, if_true]
  · have hgo : (decide (nd.status = .done) || !nodeSettled s n) = false := by
      rw [decide_eq_false hd, hs]; rfl
    have hexec : execGraphNodeComplete n s = if graphOver s2 g then
        .next { s2 with graphs := s2.graphs.modify g fun x => { x with ended := true }
                        counters := s2.counters - ((s2.graphs[g]?).map (·.nodes.length)).getD 0 }
        else .next (breakCycle s2 g) := by
      subst hs1 hs2
      simp only [execGraphNodeComplete, hnd, hg, hgo, Bool.false_eq_true, if_false, hgr, Option.map_some, Option.getD_some]
    have hk : s2.graphs[g]? = some gr := by
      rw [hs2]
      split
      · rw [hs1]; exact hgr
      · rw [countDown_graphs, hs1]; exact hgr
    refine ⟨fun ho => ?_, fun ho => ?_⟩
    · exact hexec.trans (if_neg (by rw [ho]; exact Bool.false_ne_true))
    · rw [hk] at hexec
      exact hexec.trans (if_pos ho)

/-- Settles O51: rounds over the values read, the stages of a retirement, and the count of a node's predecessors. -/
theorem packetsEvaluateAndRetire : Obligations.PacketsEvaluateAndRetire :=
  ⟨barrierRounds, retirement, graphNodesComplete⟩

end Sys2Proof.Machine

/-! # Blocks are placed, released and ended (R57, R58, R190 to R194, R244, R351 to R359) -/

namespace Sys2Proof.Machine

open Sys2Proof Sys2Proof.Claims

/-! ## A warp, a helm and a block at their start (R57, R58, R424) -/

theorem linesHeld_launchWarp (nd : Node) (j : Nat) (r : Role) : linesHeld (launchWarp nd j r) = 0 := by
  have hu (n : Nat) (x : VReg) (h : (x, n) ∈ (launchWarp nd j r).regs.toList.zipIdx) : isG x.val = false := by
    have hx : x ∈ (launchWarp nd j r).regs.toList := (List.mem_zipIdx' h).2 ▸ List.getElem_mem _
    rw [Vector.mem_toList_iff] at hx
    obtain ⟨i, hi, rfl⟩ := Vector.getElem_of_mem hx
    simp only [launchWarp, Vector.getElem_set]
    split
    · rfl
    · split
      · rfl
      · rw [Vector.getElem_replicate]
        rfl
  rw [linesHeld, List.length_eq_zero_iff, List.filter_eq_nil_iff]
  rintro ⟨x, n⟩ hx
  rw [hu n x hx]
  simp [launchWarp, firstGang]

theorem firstGang_slices (r : Role) (k : Fin 8) :
    (BitVec.ofNat 8 (2 ^ r.nslice.val - 1)).getLsbD k.val = decide (k.val < r.nslice.val) := by
  rw [BitVec.getLsbD_ofNat, Nat.testBit_two_pow_sub_one, decide_eq_true k.isLt, Bool.true_and]

theorem partiesStart : PartiesStart := by
  rintro nd j r wp h rfl rfl
  refine ⟨⟨rfl, rfl, rfl, rfl, rfl, rfl⟩, fun n => ?_, fun n => Vector.getElem_replicate _, fun n => Vector.getElem_replicate _,
    fun k => Vector.getElem_ofFn _, ⟨_, rfl, rfl, rfl, rfl, rfl, rfl, firstGang_slices r⟩, rfl, fun n => ?_,
    fun n => Vector.getElem_replicate _, rfl, rfl, fun n => Vector.getElem_replicate _, linesHeld_launchWarp nd j r, ?_⟩
  · simp only [launchWarp, Fin.getElem_fin, Vector.getElem_set, Vector.getElem_replicate]
    by_cases h1 : n.val = 1
    · simp [h1]
    · by_cases h0 : n.val = 0
      · simp [h0]
      · simp [h0, h1, Ne.symm h0, Ne.symm h1, VReg.zero]
  · simp only [launchHelm, Fin.getElem_fin, Vector.getElem_set, Vector.getElem_replicate, eq_comm (a := 0)]
  · rintro n b c hp off blk rfl
    exact ⟨rfl, rfl, rfl⟩

/-! ## The cores chosen (R191, R194, R357) -/

/-- A fold that keeps the better of two finds one of those it looks at. -/
theorem foldl_best_mem {α : Type} {step : Option α → α → Option α} (hs : ∀ a x y, step a x = some y → y = x ∨ a = some y)
    (l : List α) {a : Option α} {y : α} (h : l.foldl step a = some y) : y ∈ l ∨ a = some y := by
  induction l generalizing a with
  | nil => exact .inr h
  | cons x l ih =>
    rcases ih h with h1 | h1
    · exact .inl (List.mem_cons_of_mem _ h1)
    · rcases hs _ _ _ h1 with rfl | h2
      · exact .inl List.mem_cons_self
      · exact .inr h2

theorem bestCore_mem {s : State} {nd : Node} {i : Nat} {cs : List (Fin 256)} {c : Fin 256} (h : bestCore s nd i cs = some c) :
    c ∈ cs := by
  obtain ⟨x, hx, rfl⟩ := Option.map_eq_some_iff.1 h
  have hfold (l : List (Fin 256)) (a : Option (Fin 256 × Pref)) (ha : ∀ y, a = some y → y.1 ∈ cs) (hl : ∀ c ∈ l, c ∈ cs) :
      ∀ y, l.foldl (fun (a : Option (Fin 256 × Pref)) c =>
        match a with
        | none => some (c, prefOf s nd i c)
        | some x => if prefBefore (prefOf s nd i c) x.2 then some (c, prefOf s nd i c) else some x) a = some y → y.1 ∈ cs := by
    induction l generalizing a with
    | nil => exact ha
    | cons c l ih =>
      refine ih _ (fun y hy => ?_) fun d hd => hl d (List.mem_cons_of_mem _ hd)
      have hc := hl c List.mem_cons_self
      cases a with
      | none =>
        obtain rfl := Option.some.inj hy
        exact hc
      | some x =>
        dsimp only at hy
        split at hy
        · obtain rfl := Option.some.inj hy
          exact hc
        · exact ha y hy
  exact hfold cs none nofun (fun _ h => h) x hx

theorem spreadCores_spec {s : State} {nd : Node} {idxs : List Nat} {cs xs : List (Fin 256)} (h : spreadCores s nd idxs cs = some xs) :
    xs.length = idxs.length ∧ xs.Nodup ∧ ∀ c ∈ xs, c ∈ cs := by
  induction idxs generalizing cs xs with
  | nil =>
    obtain rfl := Option.some.inj h
    exact ⟨rfl, List.nodup_nil, nofun⟩
  | cons i r ih =>
    rw [spreadCores] at h
    split at h
    · cases h
    next c hc =>
      obtain ⟨ys, hy, rfl⟩ := Option.map_eq_some_iff.1 h
      obtain ⟨h1, h2, h3⟩ := ih hy
      refine ⟨by rw [List.length_cons, List.length_cons, h1], List.nodup_cons.2 ⟨fun hm => ?_, h2⟩, fun d hd => ?_⟩
      · simpa using (List.mem_filter.1 (h3 c hm)).2
      · rcases List.mem_cons.1 hd with rfl | hd
        · exact bestCore_mem hc
        · exact (List.mem_filter.1 (h3 d hd)).1

theorem chosenCores : ChosenCores := by
  intro s nd idxs cs xs _ h
  rw [chooseCores] at h
  split at h
  · cases h
  next c hc =>
    obtain ⟨h1, h2, h3⟩ := spreadCores_spec h
    have hmem (d : Fin 256) (hd : d ∈ xs) := List.mem_filter.1 (h3 d hd)
    have hdie (d : Fin 256) (hd : d ∈ xs) : dieOf d = dieOf c := by simpa using (hmem d hd).2
    exact ⟨h1, h2, fun d hd => (List.mem_filter.1 (hmem d hd).1).1, fun d hd e he => (hdie d hd).trans (hdie e he).symm⟩

/-! ## Room on a core (R190, R191, R244) -/

theorem helmFit_spec {s : State} {c : Fin 256} {n : Need} {h : Nat} (hf : helmFit s c n = some h) :
    ((blocksOn s c).map (·.bars.length)).foldl (· + ·) 0 + n.bars ≤ 512 ∧ h < 16 ∧ fitsAt (blocksOn s c) n h = true := by
  rw [helmFit] at hf
  split at hf
  · cases hf
  next hn =>
    simp only [Bool.or_eq_true, decide_eq_true_eq, not_or, gt_iff_lt, not_lt] at hn
    exact ⟨hn.1, List.mem_range.1 (List.mem_of_find?_eq_some hf), List.find?_some hf⟩

theorem roomOnACore : RoomOnACore := by
  intro s c n h hf
  obtain ⟨hb, h16, hfit⟩ := helmFit_spec hf
  simp only [fitsAt, Bool.and_eq_true, Bool.not_eq_true', List.any_eq_false, List.all_eq_true, List.mem_range,
    decide_eq_true_eq] at hfit
  exact ⟨h16, hfit.1, hb, hfit.2⟩

/-- The lesser of a number found so far, if any, and another. -/
def leastSoFar (a : Option Nat) (o : Nat) : Option Nat := some (a.elim o fun x => min x o)

theorem foldl_leastSoFar_mem {l : List Nat} {y : Nat} (h : l.foldl leastSoFar none = some y) : y ∈ l := by
  refine (foldl_best_mem (fun a x y hy => ?_) l h).resolve_right nofun
  cases a with
  | none => exact .inl (Option.some.inj hy).symm
  | some z =>
    have hy' : min z x = y := Option.some.inj hy
    rcases Nat.le_total z x with hzx | hzx
    · exact .inr (congrArg some (by omega))
    · exact .inl (by omega)

/-- The place found for a span lies in the core's slice and meets no range in use. -/
theorem spanPlace_spec {s : State} {c : Fin 256} {n off : Nat} (hn : n ≠ 0) (h : spanPlace s c n = some off) :
    c.val * 0x200000 ≤ off ∧ off + n ≤ (c.val + 1) * 0x200000 ∧ spanFree s off n = true := by
  rw [spanPlace, if_neg hn] at h
  have hstep : (fun (a : Option Nat) o => match a with | none => some o | some x => some (min x o)) = leastSoFar := by
    funext a o
    cases a <;> rfl
  have hm := foldl_leastSoFar_mem (hstep ▸ h)
  obtain ⟨hm, hg⟩ := List.mem_filter.1 hm
  rw [Bool.and_eq_true, decide_eq_true_eq] at hg
  have hlo : c.val * Config.spanSlice ≤ off := by
    rcases List.mem_cons.1 hm with rfl | hm
    · exact le_rfl
    · simpa using (List.mem_filter.1 hm).2
  rw [Config.spanSlice] at hlo hg
  exact ⟨hlo, by omega, hg.2⟩

theorem oneIsReleased : OneIsReleased := by
  intro s n nd b c h off hf hs
  refine ⟨_, rfl, ?_, ?_, fun hn => ?_, fun hn => ?_⟩
  · simp only [releaseOne, hf, hs]
    split <;> rfl
  · simp only [releaseOne, hf, hs]
    split <;> rfl
  · simp only [releaseOne, hf, hs, if_neg hn]
    rfl
  · obtain ⟨h1, h2, h3⟩ := spanPlace_spec hn hs
    refine ⟨h1, h2, fun r hr => ?_⟩
    have := List.all_eq_true.1 h3 r hr
    simpa using this

/-! ## Which blocks are released (R353 to R359, R394) -/

theorem selectedBatch_kept {s : State} {q : Queue} {n : Nat} {nd : Node} (hq : q.selected = some n) (hn : s.nodes[n]? = some nd)
    (hst : nd.status = .ready) (hp : q.pick ≠ []) (hall : ∀ r ∈ q.pick, r ∈ nd.redo ∨ nd.next ≤ r.1) :
    selectedBatch s q = some { node := n, blocks := q.pick } := by
  have hk : (decide (nd.status = .ready) && !q.pick.isEmpty && q.pick.all fun r => nd.redo.contains r || decide (nd.next ≤ r.1)) = true := by
    simp only [hst, decide_true, Bool.true_and, Bool.and_eq_true, List.all_eq_true, Bool.or_eq_true, List.contains_iff_mem,
      decide_eq_true_eq]
    exact ⟨by simpa using hp, hall⟩
  have hb : keptBatch s q = some { node := n, blocks := q.pick } := by
    simp only [keptBatch, hq, Option.bind_some, hn, Option.map_some]
    exact if_pos hk
  rw [selectedBatch, hb]

theorem blocksAreReleased : BlocksAreReleased := by
  intro s s1
  change (_ → execBlockRelease s = _) ∧ ∀ qid q, _ → _ → (_ → execBlockRelease s = _) ∧ (_ → ∀ b nd cs, _ → _ → _ →
    (_ → execBlockRelease s = _) ∧ ∀ xs, _ → execBlockRelease s = _) ∧ _
  refine ⟨fun h => by rw [execBlockRelease, h], fun qid q h hq => ⟨fun hn => ?_, fun he b nd cs hb hnd hcs => ⟨fun hc => ?_, fun xs hc => ?_⟩,
    fun n nd h1 h2 h3 h4 h5 => selectedBatch_kept h1 h2 h3 h4 h5⟩⟩
  · rw [execBlockRelease, h]
    rcases hn with hn | hn
    · simp only [Option.isSome_iff_ne_none.2 hn, if_true]
    · simp only [hq, hn, ite_self]
  · subst hcs
    rw [execBlockRelease, h]
    simp only [he, Option.isSome_none, Bool.false_eq_true, if_false, hq, hb, hnd]
    rw [coresFor, hc]
    simp only [keepSelected, getQueue_qid hq]
  · subst hcs
    rw [execBlockRelease, h]
    simp only [he, Option.isSome_none, Bool.false_eq_true, if_false, hq, hb, hnd]
    rw [coresFor, hc]

/-! ## Waits and charges (R352, R359) -/

theorem waitsAndCharges : WaitsAndCharges := by
  refine ⟨fun s q hq => ⟨fun h => ?_, fun hr hw b nd cs hk hnd hc => ?_⟩, fun s b blk hb => ⟨fun h => ?_, fun h => ?_⟩⟩
  · change execSelectedBlockTimeout q.qid s = _
    have hstop : (!waitedLong s q || !q.reserved.isEmpty) = true := by
      rcases h with h | h | h
      · rw [waitedLong, h]; rfl
      · have : q.reserved.isEmpty = false := by simpa using h
        rw [this, Bool.not_false, Bool.or_true]
      · rw [waitedLong, decide_eq_false (Nat.not_le.2 h), Bool.and_false]; rfl
    simp only [execSelectedBlockTimeout, hq, hstop, if_true]
  · change execSelectedBlockTimeout q.qid s = _
    have hgo : (!waitedLong s q || !q.reserved.isEmpty) = false := by
      rw [waitedLong, hk, decide_eq_true hw, hr]
      rfl
    simp only [execSelectedBlockTimeout, hq, hgo, selectedBatch, hk, hnd, Bool.false_eq_true, if_false]
    rw [hc]
  · change execInterimCharge b s = _
    simp only [execInterimCharge, hb, if_pos h]
  · change execInterimCharge b s = _
    simp only [execInterimCharge, hb, if_neg (Nat.not_lt.2 h)]

/-! ## The end of a block (R142, R192, R244, R279) -/

theorem rmw_blocks (s : State) (t : Report) (l : Loc) (op : AtomOp) (u : Bool) (size : Size) (b1 b2 : Word64) (ret : Bool) :
    (rmw s t l op u size b1 b2 ret).1.blocks = s.blocks := by
  cases h : poisonAt s l size.bytes with
  | false =>
    rw [rmw_clean t op u b1 b2 ret h, writeLoc_frame]
  | true =>
    rw [rmw_poisoned t op u b1 b2 ret h]
    have hp : (logPoison s l (tagCtx s t)).blocks = s.blocks := by rw [logPoison_frame]
    cases ret <;> exact hp

theorem runBuffered_blocks (b : Nat) (s : State) (a : BufAtom) : (runBuffered b s a).blocks = s.blocks := by
  rw [runBuffered]
  split
  · rfl
  · exact rmw_blocks ..

theorem runEntries_blocks (b : Nat) (l : List BufAtom) (s : State) : (runEntries b l s).1.blocks = s.blocks := by
  induction l generalizing s with
  | nil => rfl
  | cons a r ih =>
    rw [runEntries]
    split
    · rfl
    · exact (ih _).trans (runBuffered_blocks b s a)

/-- A drain changes of its block the buffer only. -/
theorem drain_get {s : State} {b : Nat} {blk : Block} (h : s.blocks[b]? = some blk) :
    ∃ l, (drain s b).blocks[b]? = some { blk with buffer := l } := by
  simp only [drain, h]
  exact ⟨_, by rw [modBlock_get, if_pos rfl, runEntries_blocks, h, Option.map_some]⟩

theorem takeCharge_blocks (s : State) (blk : Block) (c : Nat) : (takeCharge s blk c).blocks = s.blocks := by
  rw [takeCharge]
  split <;> rfl

theorem closeBlock_get {s : State} {b : Nat} {blk x : Block} (h : s.blocks[b]? = some x) :
    (closeBlock s b blk).blocks[b]? = some { x with status := .ended, charge := 0, claim := none } := by
  change (modBlock _ b _).blocks[b]? = _
  rw [modBlock_get, if_pos rfl]
  exact congrArg (Option.map _) h

theorem closeBlock_core (s : State) (b : Nat) (blk : Block) : (closeBlock s b blk).cores[blk.core] =
    { releaseClaims s.cores[blk.core] b with
      current := s.cores[blk.core].current.map fun x => if (x.map (·.1)) = some b then none else x } := by
  simp only [closeBlock, modNode_cores, modBlock_cores, modCore_same]

theorem endCheck_blocks (s : State) (n : Nat) : (endCheck s n).blocks = s.blocks := rfl
theorem endCheck_cores (s : State) (n : Nat) : (endCheck s n).cores = s.cores := rfl

theorem releaseClaims_slots (c : Core) (b : Nat) (m : Fin 64) : ((releaseClaims c b).slots[m]).owner ≠ some b := by
  simp only [releaseClaims, Fin.getElem_fin, Vector.getElem_map]
  split
  · exact nofun
  next h => exact h

theorem releaseClaims_tiles (c : Core) (b : Nat) (a : Fin 48) : ((releaseClaims c b).tiles[a]).owner ≠ some b := by
  simp only [releaseClaims, Fin.getElem_fin, Vector.getElem_map]
  split
  · exact nofun
  next h => exact h

theorem mayEnd_iff (s : State) (blk : Block) : mayEnd s blk = true ↔ (blk.status = .resident ∨ blk.status = .ending) ∧
    blk.helm.ended = true ∧ (∀ wp ∈ blk.warps, warpEnded wp = true) ∧ spanTargeted s blk = false ∧
    ∀ k : Fin 4, streamRuns blk.ctxs[k] = false ∧ blk.ctxs[k].ops = [] := by
  simp only [mayEnd, Bool.and_eq_true, Bool.or_eq_true, decide_eq_true_eq, List.all_eq_true, Bool.not_eq_true', List.mem_finRange,
    forall_const, List.isEmpty_iff]
  tauto

theorem blocksEnd : BlocksEnd := by
  refine fun s b blk hb => ⟨mayEnd_iff s blk, fun hm => ?_, fun hm x hx hne => ?_, fun hm hbuf => ?_⟩
  · change execBlockEnd b s = _
    simp only [execBlockEnd, hb, hm, Bool.not_false, if_true]
  · change execBlockEnd b s = _
    have hne' : (((drain s b).blocks[b]?).map (·.buffer) != some []) = true := by
      rw [hx, Option.map_some, bne_iff_ne]
      exact fun h => hne (Option.some.inj h)
    simp only [execBlockEnd, hb, hm, Bool.not_true, Bool.false_eq_true, if_false, hne', if_true]
  · obtain ⟨l, hd⟩ := drain_get hb
    have hl : l = [] := hbuf _ hd
    subst hl
    have he' : (((drain s b).blocks[b]?).map (·.buffer) != some []) = false := by
      rw [hd]
      rfl
    have hx : (takeCharge (drain s b) blk (blk.charge / chargeUnit)).blocks[b]? = some { blk with buffer := [] } := by
      rw [takeCharge_blocks, hd]
    have hc := closeBlock_core (takeCharge (drain s b) blk (blk.charge / chargeUnit)) b blk
    have hget := closeBlock_get (blk := blk) hx
    rw [← endCheck_blocks _ blk.node] at hget
    refine ⟨endCheck (closeBlock (takeCharge (drain s b) blk (blk.charge / chargeUnit)) b blk) blk.node, ?_, rfl, ⟨_, hget, rfl⟩,
      fun m => ?_, fun a => ?_⟩
    · change execBlockEnd b s = _
      simp only [execBlockEnd, hb, hm, Bool.not_true, Bool.false_eq_true, if_false, he']
    · rw [endCheck_cores, hc]
      exact releaseClaims_slots _ b m
    · rw [endCheck_cores, hc]
      exact releaseClaims_tiles _ b a

/-- Settles O52: parties at their start, the choice of cores, release, charges and the end of a block. -/
theorem blocksAreReleasedAndEnd : Obligations.BlocksAreReleasedAndEnd :=
  ⟨partiesStart, chosenCores, roomOnACore, blocksAreReleased, oneIsReleased, waitsAndCharges, blocksEnd⟩

end Sys2Proof.Machine

/-! # Blocks are evicted, wake and return (R387 to R396) -/

namespace Sys2Proof.Machine

open Sys2Proof Sys2Proof.Claims

/-! ## The request (R387, R388) -/

theorem mayFreeze_spec {x : Block} (h : mayFreeze x = true) : x.status = .resident ∧ helmStands x.helm = true ∧
    ∀ wp ∈ x.warps, warpEnded wp = false → ∀ g ∈ wp.gangs, atBlocking g.wait = true := by
  simp only [mayFreeze, Bool.and_eq_true, decide_eq_true_eq, List.all_eq_true, Bool.or_eq_true] at h
  obtain ⟨⟨⟨hs, -⟩, hh⟩, hw⟩ := h
  exact ⟨hs, hh, fun wp hwp he => (hw wp hwp).resolve_left (by rw [he]; exact Bool.false_ne_true)⟩

theorem evicts : Evicts := by
  rintro s b blk ms hb rfl
  have hfits : ((clusterMates s b).all (fun m => mayFreeze m.2) && (clusterMates s b).any (fun m => decide (m.1 = b)) &&
      decide (poolTaken s blk.ctx + ((clusterMates s b).map fun m => (sized s m.1 m.2).size).foldl (· + ·) 0 ≤
        65536 * s.ctxs[blk.ctx].poolLen.toNat)) = true ↔
      (∀ m ∈ clusterMates s b, mayFreeze m.2 = true) ∧ (∃ m ∈ clusterMates s b, m.1 = b) ∧
      poolTaken s blk.ctx + ((clusterMates s b).map fun m => (sized s m.1 m.2).size).foldl (· + ·) 0 ≤
        65536 * s.ctxs[blk.ctx].poolLen.toNat := by
    simp only [Bool.and_eq_true, List.all_eq_true, List.any_eq_true, decide_eq_true_eq, and_assoc]
  refine ⟨fun hs => ?_, fun hs hf => ?_, fun hs hf => ?_, fun x => mayFreeze_spec⟩
  · change execBlockEvict b s = _
    simp only [execBlockEvict, hb, hs, if_true]
  · change execBlockEvict b s = _
    simp only [execBlockEvict, hb, if_neg hs]
    exact if_neg fun h => hf (hfits.1 h)
  · change execBlockEvict b s = _
    simp only [execBlockEvict, hb, if_neg hs]
    exact if_pos (hfits.2 hf)

/-! ## A frozen block (R389, R390, R392) -/

section
variable {s : State} {b : Nat} {blk : Block}

theorem issueGang_frozen {k : GCtx} (h : k.blk.status ≠ .resident) : issueGang s k = .next s := by
  have hr : gangReady k = false := by
    rw [gangReady, decide_eq_false h, Bool.and_false, Bool.false_and]
  rw [issueGang, hr]
  rfl

theorem issueHelm_frozen {k : HCtx} (h : k.blk.status ≠ .resident) : issueHelm s k = .next s := by
  have hr : (k.blk.helm.ended || k.blk.helm.wait != .none || k.blk.status != .resident) = true := by
    rw [bne_iff_ne.2 h, Bool.or_true]
  rw [issueHelm]
  exact if_pos hr

theorem issueStream_frozen {k : SCtx} (h : k.blk.status ≠ .resident) : issueStream s k = .next s := by
  have hr : (!k.st.running || k.st.wait != .none || k.blk.status != .resident) = true := by
    rw [bne_iff_ne.2 h, Bool.or_true]
  rw [issueStream]
  exact if_pos hr

/-- No party of a block that is not resident issues anything. -/
theorem issue_frozen (hb : s.blocks[b]? = some blk) (h : blk.status ≠ .resident) {p : Party} (hp : partyBlock p = b) :
    issue s p = .next { s with cur := p } := by
  have hof {k : Block} {i : Nat} (hi : partyBlock p = i) (hk : s.blocks[i]? = some k) : k.status ≠ .resident := by
    rw [← hi, hp, hb] at hk
    exact Option.some.inj hk ▸ h
  rw [issue]
  cases hg : gangOf { s with cur := p } p with
  | some k =>
    obtain ⟨hpk, hk, -⟩ := gangOf_eq_some hg
    exact issueGang_frozen (hof (by rw [hpk]; rfl) hk)
  | none =>
    cases hh : helmOf { s with cur := p } p with
    | some k =>
      obtain ⟨hpk, hk⟩ := helmOf_eq_some hh
      exact issueHelm_frozen (hof (by rw [hpk]; rfl) hk)
    | none =>
      cases hst : streamOf { s with cur := p } p with
      | some k =>
        obtain ⟨hpk, hk, -⟩ := streamOf_eq_some hst
        exact issueStream_frozen (hof (by rw [hpk]; rfl) hk)
      | none => rfl

theorem landNear_nothing (hb : s.blocks[b]? = some blk) (h : NothingLands blk) : landNear s b = s := by
  obtain ⟨hw, hh⟩ := h
  have h1 : (blk.warps.zipIdx.flatMap fun x => (x.1.pend.filter pendReady).map fun p => (x.2, p)) = [] := by
    refine List.flatMap_eq_nil_iff.2 fun x hx => ?_
    have hm : x.1 ∈ blk.warps := (List.mem_zipIdx' hx).2 ▸ List.getElem_mem _
    rw [List.filter_eq_nil_iff.2 fun p hp => by rw [hw x.1 hm p hp]; exact Bool.false_ne_true]
    rfl
  have h2 : blk.helm.pend.filter hpendReady = [] :=
    List.filter_eq_nil_iff.2 fun p hp => by rw [hh p hp]; exact Bool.false_ne_true
  simp only [landNear, hb, h1, h2, List.foldl_nil]

theorem drain_empty (hb : s.blocks[b]? = some blk) (h : blk.buffer = []) : drain s b = s := by
  have hm : s.blocks.modify b (fun x => { x with buffer := [] }) = s.blocks := by
    rw [modify_congr_of_getElem? (g := id) hb (by rw [← h]; rfl), List.modify_id]
  simp only [drain, hb, h, drainOrder, List.foldl_nil, runEntries, modBlock, hm]

/-- A frozen block that has come to rest holds nothing in its buffer. -/
theorem buffer_of_blockRests (h : blockRests s b blk = true) : blk.buffer = [] := by
  rw [blockRests, Bool.and_eq_true] at h
  exact List.isEmpty_iff.1 h.1

/-- A block as it is saved. -/
def savedBlock (im : Image) (x : Block) : Block :=
  { x with
    status := .evicted false
    away := true
    image := some im
    ctxs := x.ctxs.map fun e =>
      { e with stream := e.stream.map fun st => { st with granted := none }, ops := e.ops.map savedOp } }

/-- A state in which a block's claims have left its core. -/
def offCore (s : State) (b : Nat) (blk : Block) : State :=
  let s1 := modCore s blk.core fun c =>
    { releaseClaims c b with current := c.current.map fun x => if (x.map (·.1)) = some b then none else x }
  { s1 with matrixReqs := s1.matrixReqs.filter (· != b) }

variable (hb : s.blocks[b]? = some blk) (hn : NothingLands blk)
include hb hn

theorem saveImage_from_rest (hbuf : blk.buffer = []) : saveImage s b =
    if blk.status != .saving || !blockRests s b blk then s
    else if !hasWaiter blk || poolUsed s blk.ctx + (sized s b blk).size > 65536 * s.ctxs[blk.ctx].poolLen.toNat then
      modBlock s b fun x => { x with status := .resident, woken := false, warps := x.warps.map settle }
    else modBlock (offCore s b blk) b (savedBlock (sized s b blk)) := by
  have h1 : drain (landNear s b) b = s := by rw [landNear_nothing hb hn, drain_empty hb hbuf]
  simp only [saveImage, h1, hb]
  rfl

theorem saveImage_saves (hs : blk.status = .saving) (hr : blockRests s b blk = true) (hw : hasWaiter blk = true)
    (hp : poolUsed s blk.ctx + (sized s b blk).size ≤ 65536 * s.ctxs[blk.ctx].poolLen.toNat) :
    saveImage s b = modBlock (offCore s b blk) b (savedBlock (sized s b blk)) := by
  have hgo : (blk.status != .saving || !blockRests s b blk) = false := by rw [hs, hr]; rfl
  have hfit : ¬ (!hasWaiter blk || decide (poolUsed s blk.ctx + (sized s b blk).size > 65536 * s.ctxs[blk.ctx].poolLen.toNat)) = true := by
    rw [hw, decide_eq_false (Nat.not_lt.2 hp)]
    exact Bool.false_ne_true
  rw [saveImage_from_rest hb hn (buffer_of_blockRests hr), hgo]
  exact if_neg hfit

end

theorem savedBlock_ctxs (im : Image) (x : Block) (k : Fin 4) : (savedBlock im x).ctxs[k].ops = x.ctxs[k].ops.map savedOp ∧
    (savedBlock im x).ctxs[k].issued = x.ctxs[k].issued ∧ (savedBlock im x).ctxs[k].done = x.ctxs[k].done ∧
    ∀ st, (savedBlock im x).ctxs[k].stream = some st → st.granted = none := by
  simp only [savedBlock, Fin.getElem_fin, Vector.getElem_map, true_and]
  intro st hst
  obtain ⟨st0, -, rfl⟩ := Option.map_eq_some_iff.1 hst
  rfl

theorem mem_sized_slots {s : State} {b : Nat} {blk : Block} {m : Fin 64} (h : (s.cores[blk.core].slots[m]).owner = some b) :
    (m.val, s.cores[blk.core].slots[m]) ∈ (sized s b blk).slots :=
  List.mem_map.2 ⟨m, List.mem_filter.2 ⟨List.mem_finRange m, decide_eq_true h⟩, rfl⟩

theorem mem_sized_tiles {s : State} {b : Nat} {blk : Block} {a : Fin 48} (h : (s.cores[blk.core].tiles[a]).owner = some b) :
    (a.val, s.cores[blk.core].tiles[a]) ∈ (sized s b blk).tiles :=
  List.mem_map.2 ⟨a, List.mem_filter.2 ⟨List.mem_finRange a, decide_eq_true h⟩, rfl⟩

theorem offCore_core (s : State) (b : Nat) (blk : Block) : (offCore s b blk).cores[blk.core] =
    { releaseClaims s.cores[blk.core] b with
      current := s.cores[blk.core].current.map fun x => if (x.map (·.1)) = some b then none else x } := by
  simp only [offCore, modCore_same]

theorem savedOp_spec (o : EngOp) : (savedOp o).n = o.n ∧ (savedOp o).rows.map (·.kind) = o.rows.map (·.kind) ∧
    (isSeg o = false → savedOp o = o) := by
  cases h : isSeg o with
  | true =>
    refine ⟨by rw [savedOp, if_pos h], ?_, nofun⟩
    rw [savedOp, if_pos h, List.map_map]
    rfl
  | false =>
    have he : savedOp o = o := by rw [savedOp, h]; rfl
    rw [he]
    exact ⟨rfl, rfl, fun _ => rfl⟩

theorem freezes : Freezes := by
  refine fun s b blk hb hn => ⟨fun hs p hp => issue_frozen hb hs hp, fun hbuf => ?_, fun hs hbuf hr => ?_, fun hs hr h => ?_,
    savedOp_spec, fun hs hr hw hp => ?_⟩
  · rw [freeze, landNear_nothing hb hn, drain_empty hb hbuf]
  · rw [saveImage_from_rest hb hn hbuf, hr, Bool.not_false, Bool.or_true, if_pos rfl]
  · have hgo : (blk.status != .saving || !blockRests s b blk) = false := by rw [hs, hr]; rfl
    rw [saveImage_from_rest hb hn (buffer_of_blockRests hr), hgo, if_neg Bool.false_ne_true]
    refine if_pos ?_
    rcases h with h | h
    · rw [h]; rfl
    · rw [decide_eq_true h, Bool.or_true]
  · have hsave := saveImage_saves hb hn hs hr hw hp
    have hget : (saveImage s b).blocks[b]? = some (savedBlock (sized s b blk) blk) := by
      rw [hsave, modBlock_get, if_pos rfl]
      exact congrArg (Option.map _) hb
    have hcore : (saveImage s b).cores[blk.core] = (offCore s b blk).cores[blk.core] := by rw [hsave]; rfl
    refine ⟨_, _, rfl, hget, rfl, savedBlock_ctxs _ _, fun m hm => mem_sized_slots hm, fun a ha => mem_sized_tiles ha,
      fun m => ?_, fun a => ?_⟩
    · rw [hcore, offCore_core]
      exact releaseClaims_slots _ b m
    · rw [hcore, offCore_core]
      exact releaseClaims_tiles _ b a

/-! ## Waking and returning (R389, R394, R396) -/

theorem blockWakes_of_written {s : State} {blk : Block} {w : Warp} {g : Gang} {d : Dst} {m : LaneMask} {ls : List WaitLane}
    {cmp : WCmp} {size : Size} {acq : Bool} {x : WaitLane} (hw : w ∈ blk.warps) (hg : g ∈ w.gangs)
    (hwait : g.wait = .waita d m ls cmp size acq) (hx : x ∈ ls) (hwr : wordWritten s x.loc size.bytes = true) :
    blockWakes s blk = true := by
  have hgw : gangWakes s blk w g = true := by
    simp only [gangWakes, hwait]
    rw [List.any_eq_true.2 ⟨x, hx, hwr⟩, Bool.or_true]
  have hany : (blk.warps.any fun wp => wp.gangs.any (gangWakes s blk wp)) = true :=
    List.any_eq_true.2 ⟨w, hw, List.any_eq_true.2 ⟨g, hg, hgw⟩⟩
  rw [blockWakes, hany, Bool.or_true, Bool.true_or]

theorem noteWake_woken {s : State} {blk : Block} (hs : blk.status = .saving ∨ blk.status = .evicted false)
    (hw : blockWakes s blk = true) : (noteWake s blk).woken = true := by
  have hst : (decide (blk.status = .saving) || decide (blk.status = .evicted false)) = true := by simpa using hs
  rw [noteWake, hst, hw]
  cases h : blk.woken with
  | true => exact h
  | false => rfl

theorem wakesAndReturns : WakesAndReturns := by
  refine fun s b blk hb => ⟨fun w hw g hg d m ls cmp size acq x h1 h2 h3 => blockWakes_of_written hw hg h1 h2 h3,
    fun hs hw => noteWake_woken hs hw, fun hs hw => ?_, fun h => ?_, fun s1 => ?_⟩
  · change execBlockWake b s = _
    have hgo : (decide (blk.status = .evicted false) && (blk.woken || blockWakes s blk)) = true := by
      rw [decide_eq_true hs, Bool.true_and, Bool.or_eq_true]
      exact hw
    simp only [execBlockWake, hb, hgo, if_true]
  · change execBlockWake b s = _
    have hno : (decide (blk.status = .evicted false) && (blk.woken || blockWakes s blk)) = false := by
      rcases h with h | ⟨h1, h2⟩
      · rw [decide_eq_false h, Bool.false_and]
      · rw [h1, h2, Bool.or_self, Bool.and_false]
    simp only [execBlockWake, hb, hno, Bool.false_eq_true, if_false]
  · change (_ → execBlockRestore b s = _) ∧ ∀ qid, _ → (_ → execBlockRestore b s = _) ∧ (_ → _ →
      (_ → execBlockRestore b s = _) ∧ (_ → execBlockRestore b s = _))
    refine ⟨fun h => ?_, fun qid h => ⟨fun hn => ?_, fun hq he => ?_⟩⟩
    · rw [execBlockRestore, hb]
      simp only [h]
    · have hno : (qid != queueOfBlock s blk || readyEvicted s1 qid != some b) = true := by
        rcases hn with hn | hn
        · rw [bne_iff_ne.2 hn, Bool.true_or]
        · rw [bne_iff_ne.2 hn, Bool.or_true]
      rw [execBlockRestore, hb]
      simp only [h, hno, if_true]
    · have hgo : (qid != queueOfBlock s blk || readyEvicted s1 qid != some b) = false := by
        rw [hq, bne_self_eq_false, Bool.false_or, ← hq, he, bne_self_eq_false]
      have hexec : execBlockRestore b s = if ((clusterMates s1 b).all fun m => mayRestore s1 m.2) = true then
          .next ((clusterMates s1 b).foldl (fun t m => restoreOne t m.1) s1)
          else .next (modQueue s1 qid fun q => { q with turn := false }) := by
        rw [execBlockRestore, hb]
        simp only [h, hgo, Bool.false_eq_true, if_false]
      exact ⟨fun hall => hexec.trans (if_pos (List.all_eq_true.2 hall)),
        fun hall => hexec.trans (if_neg fun h => hall (List.all_eq_true.1 h))⟩

/-! ## Images (R395, R396) -/

section
variable {α : Type} {n : Nat} [NeZero n]

/-- What a run of writes under numbers leaves at a number that it does not name. -/
theorem foldl_set_other (l : List (Nat × α)) (v : Vector α n) (y : Fin n) (hl : ∀ x ∈ l, x.1 < n) (hy : ∀ x ∈ l, x.1 ≠ y.val) :
    (l.foldl (fun v x => v.set (Fin.ofNat n x.1) x.2) v)[y] = v[y] := by
  induction l generalizing v with
  | nil => rfl
  | cons x l ih =>
    rw [List.foldl_cons, ih _ (fun z hz => hl z (List.mem_cons_of_mem _ hz)) (fun z hz => hy z (List.mem_cons_of_mem _ hz))]
    have hx := hy x List.mem_cons_self
    have hm : x.1 % n = x.1 := Nat.mod_eq_of_lt (hl x List.mem_cons_self)
    simp only [Fin.getElem_fin, Fin.ofNat, hm]
    exact Vector.getElem_set_ne _ _ hx

theorem foldl_set_same (l : List (Nat × α)) (v : Vector α n) (hn : (l.map (·.1)).Nodup) (hl : ∀ x ∈ l, x.1 < n) {x : Nat × α}
    (hx : x ∈ l) : (l.foldl (fun v x => v.set (Fin.ofNat n x.1) x.2) v)[x.1]? = some x.2 := by
  induction l generalizing v with
  | nil => cases hx
  | cons z l ih =>
    rw [List.map_cons, List.nodup_cons] at hn
    obtain ⟨hz, hn⟩ := hn
    rw [List.foldl_cons]
    rcases List.mem_cons.1 hx with rfl | hx
    · have hlt := hl x List.mem_cons_self
      have ho := foldl_set_other l (v.set (Fin.ofNat n x.1) x.2) ⟨x.1, hlt⟩ (fun y hy => hl y (List.mem_cons_of_mem _ hy))
        fun y hy he => hz (List.mem_map.2 ⟨y, hy, he⟩)
      rw [Vector.getElem?_eq_getElem hlt]
      refine congrArg some (Eq.trans ho ?_)
      simp only [Fin.getElem_fin, Fin.ofNat, Nat.mod_eq_of_lt hlt, Vector.getElem_set_self]
    · exact ih _ hn (fun y hy => hl y (List.mem_cons_of_mem _ hy)) hx

end

theorem imageGoesBack : ImageGoesBack := fun _ im hs ht hsl htl =>
  ⟨fun _ hx => foldl_set_same im.slots _ hs hsl hx, fun _ hx => foldl_set_same im.tiles _ ht htl hx,
    fun m hm => foldl_set_other im.slots _ m hsl hm, fun a ha => foldl_set_other im.tiles _ a htl ha⟩

theorem isEvicted_modPend (s : State) (b c w id : Nat) (f : Pend → Pend) : isEvicted (modPend s b w id f) c = isEvicted s c := by
  simp only [isEvicted, modPend, modWarp, modBlock_get]
  by_cases h : b = c
  · rw [if_pos h]
    cases s.blocks[c]? <;> rfl
  · rw [if_neg h]

theorem landsInTheImage : LandsInTheImage := by
  intro s id data o b w pid lane hf hw hm s0
  change (_ → execFabricLoadIntoImage id data s = _) ∧ (_ → ∀ s1, _ → ∀ b1 w1 p, _ → execFabricLoadIntoImage id data s = _)
  refine ⟨fun he => ?_, fun he s1 hs1 b1 w1 p hp => ?_⟩
  · simp only [execFabricLoadIntoImage, hf, hw, he, Bool.false_eq_true, if_false]
  · have hperf : perform s0 o data = s1 := by
      simp only [perform, hm, hw, hs1]
    have hev : isEvicted s1 b = true := by rw [hs1, isEvicted_modPend]; exact he
    have hexec : execFabricLoadIntoImage id data s = landInImage (perform s0 o data) o := by
      simp only [execFabricLoadIntoImage, hf, hw, he, if_true]
      rfl
    rw [hexec, hperf]
    simp only [landInImage, hw, hev, Bool.not_true, Bool.false_eq_true, if_false, hp]

/-- Settles O53: the freeze, the image, the wake and the return of a block. -/
theorem blocksLeaveAndReturn : Obligations.BlocksLeaveAndReturn :=
  ⟨evicts, freezes, wakesAndReturns, imageGoesBack, landsInTheImage⟩

end Sys2Proof.Machine

/-! # Page faults are recorded and served; shootdowns (R380 to R383, R398, R417, R420) -/

namespace Sys2Proof.Machine

open Sys2Proof Sys2Proof.Claims

/-! ## Records of the fault ring (R380, R382) -/

theorem memNat_eq_of_memRead {m : Mem} {a n v : Nat} (h : memRead m a n = leBytes n v) : memNat m a n = v % 256 ^ n := by
  rw [memNat, h, leNat_leBytes]

section
variable {s : State} {ctx : Fin 64} {vp n : Nat} {kind : BitVec 4}

/-- The bits of a fault record (R382). -/
def ringBits (ctx : Fin 64) (vp : Nat) (kind : BitVec 4) : Nat := vp % 2 ^ 56 * 2 ^ 64 + ctx.val * 2 ^ 8 + kind.toNat

theorem ringBits_lt (ctx : Fin 64) (vp : Nat) (kind : BitVec 4) : ringBits ctx vp kind < 256 ^ 32 := by
  have h1 : vp % 2 ^ 56 < 2 ^ 56 := Nat.mod_lt _ (by norm_num)
  have h2 := ctx.isLt
  have h3 := kind.isLt
  have h4 : ringBits ctx vp kind < 2 ^ 120 := by
    rw [ringBits]
    omega
  exact h4.trans (by norm_num)

theorem ringAddr_ge (s : State) (ctx : Fin 64) (n : Nat) : s.ctxs[ctx].fring.toNat + 64 ≤ ringAddr s ctx n := Nat.le_add_right _ _

/-- A record that is written: it stands in its slot, the index is one higher, and nothing else of the memory changes. -/
theorem writeRing_writes (hm : Memory.wf s.mem = true) (hclean : s.badGranules = []) :
    ∃ m w sc, writeRing s ctx n vp kind = { s with mem := m, wrote := w, scrubs := sc } ∧
      memNat m (ringAddr s ctx n) 32 = ringBits ctx vp kind ∧ memNat m s.ctxs[ctx].fring.toNat 8 = (n + 1) % 2 ^ 64 ∧
      ∀ x, (x < s.ctxs[ctx].fring.toNat ∨ s.ctxs[ctx].fring.toNat + 8 ≤ x) →
        (x < ringAddr s ctx n ∨ ringAddr s ctx n + 32 ≤ x) → memGet m x = memGet s.mem x := by
  have hge := ringAddr_ge s ctx n
  obtain ⟨w, sc, hw⟩ := writeOwn_writeOwn_clean (a := ringAddr s ctx n) (b := s.ctxs[ctx].fring.toNat)
    (bs := leBytes 32 (ringBits ctx vp kind)) (cs := leBytes 8 (n + 1)) hm hclean
  have hl1 : (leBytes 32 (ringBits ctx vp kind)).length = 32 := leBytes_length _ _
  have hl2 : (leBytes 8 (n + 1)).length = 8 := leBytes_length _ _
  have hm1 := memWrite_wf (ringAddr s ctx n) (leBytes 32 (ringBits ctx vp kind)) hm
  refine ⟨_, w, sc, hw, ?_, ?_, fun x h1 h2 => ?_⟩
  · have hr := memRead_memWrite_other s.ctxs[ctx].fring.toNat (ringAddr s ctx n) 32
      (leBytes 8 (n + 1)) hm1 (.inr (by omega))
    have hr0 := memRead_memWrite (ringAddr s ctx n) (leBytes 32 (ringBits ctx vp kind)) hm
    rw [hl1] at hr0
    rw [memNat_eq_of_memRead (hr.trans hr0), Nat.mod_eq_of_lt (ringBits_lt ctx vp kind)]
  · have hr := memRead_memWrite s.ctxs[ctx].fring.toNat (leBytes 8 (n + 1)) hm1
    rw [hl2] at hr
    rw [memNat_eq_of_memRead hr]
    rfl
  · exact (memGet_memWrite_other _ _ _ hm1 (by omega)).trans (memGet_memWrite_other _ _ _ hm (by omega))

end

theorem recordsAreWritten : RecordsAreWritten := by
  intro s ctx va vp n kind who hvp hn mine known waits
  subst hvp hn
  have hk : (s.ring.any fun r => decide (r.ctx = ctx.val) && decide (r.die = mmuOf who) && decide (r.vpage = pageBase va)) = true ↔
      known := by
    simp only [List.any_eq_true, Bool.and_eq_true, decide_eq_true_eq, and_assoc]
    rfl
  have hw : (slotHeld s ctx (memNat s.mem s.ctxs[ctx].fring.toNat 8) ||
      s.ring.any fun r => decide (r.ctx = ctx.val) && r.n.isNone) = true ↔ waits := by
    simp only [Bool.or_eq_true, List.any_eq_true, Bool.and_eq_true, decide_eq_true_eq, Option.isNone_iff_eq_none]
    rfl
  refine ⟨fun h => if_pos (hk.2 h), fun h h2 => ?_, fun h h2 hm hclean => ?_⟩
  · exact (if_neg fun hx => h (hk.1 hx)).trans (if_pos (hw.2 h2))
  · obtain ⟨m, w, sc, hring, hrec, hidx, hrest⟩ := writeRing_writes (ctx := ctx) (vp := va / 65536 * 65536)
      (n := memNat s.mem s.ctxs[ctx].fring.toNat 8) (kind := kind) hm hclean
    refine ⟨m, w, sc, ?_, hrec, hidx, hrest⟩
    refine (if_neg fun hx => h (hk.1 hx)).trans ((if_neg fun hx => h2 (hw.1 hx)).trans ?_)
    exact congrArg (fun t : State => { t with ring := t.ring ++ [mine (some (memNat s.mem s.ctxs[ctx].fring.toNat 8))] }) hring

/-! ## Service (R380, R382) -/

theorem faultsAreServed : FaultsAreServed := by
  intro s ctx n st r hr hst s1
  change (_ → execFaultService ctx n s = _) ∧ (_ → execFaultService ctx n s = _) ∧ (_ → _ → execFaultService ctx n s = _)
  refine ⟨fun h => ?_, fun h => ?_, fun h0 h1 => ?_⟩
  · simp only [execFaultService, hr, ← hst, h, if_true]
  · simp only [execFaultService, hr, ← hst, h, one_ne_zero, if_false, if_true]
    rfl
  · simp only [execFaultService, hr, ← hst, h0, h1, if_false]
    rfl

/-! ## The parties that wait (R380, R398, R421, R428) -/

theorem serveGang_page {ctx vp bctx c va lane : Nat} {g : Gang} (hw : g.wait = .page c va lane) (hc : g.contSave = none) :
    serveGang ctx vp .replay bctx g =
      if c = ctx ∧ va / 65536 * 65536 = vp then { g with wait := .none, replay := true } else g := by
  by_cases h : c = ctx ∧ va / 65536 * 65536 = vp
  · obtain ⟨rfl, rfl⟩ := h
    simp [serveGang, hc, gangWaits, hw, pageBase, replayGang]
  · rw [if_neg h]
    have h' : ¬ (decide (c = ctx) && decide (pageBase va = vp)) = true := by
      rw [Bool.and_eq_true, decide_eq_true_eq, decide_eq_true_eq]
      exact h
    simp only [serveGang, hc, gangWaits, hw, if_neg h', Option.isSome_none, Bool.and_false, Bool.false_eq_true, if_false]

theorem serveGang_fresume {ctx vp bctx va lane : Nat} {g : Gang} (hw : g.wait = .fresume va lane) (hc : g.contSave = none) :
    serveGang ctx vp .replay bctx g =
      if bctx = ctx ∧ va / 65536 * 65536 = vp then { g with wait := .none, replay := true, wd := 0 } else g := by
  by_cases h : bctx = ctx ∧ va / 65536 * 65536 = vp
  · obtain ⟨rfl, rfl⟩ := h
    simp [serveGang, hc, gangWaits, hw, pageBase, replayGang]
  · rw [if_neg h]
    have h' : ¬ (decide (bctx = ctx) && decide (pageBase va = vp)) = true := by
      rw [Bool.and_eq_true, decide_eq_true_eq, decide_eq_true_eq]
      exact h
    simp only [serveGang, hc, gangWaits, hw, if_neg h', Option.isSome_none, Bool.and_false, Bool.false_eq_true, if_false]

/-- A gang in its continuation keeps the verdict for its FRESUME. -/
theorem serveGang_continued {ctx vp bctx : Nat} {v : Verdict} {g : Gang} {c : ContSave} (hw : g.wait = .none)
    (hc : g.contSave = some c) (hb : bctx = ctx) (hv : c.va / 65536 * 65536 = vp) :
    serveGang ctx vp v bctx g = { g with contSave := some { c with got := if v = .replay then 1 else 2 } } := by
  have hp : (decide (bctx = ctx) && decide (pageBase c.va = vp)) = true := by
    rw [decide_eq_true hb, decide_eq_true (show pageBase c.va = vp from hv)]
    rfl
  simp only [serveGang, hc, hp, if_true, gangWaits, hw, Option.isSome_none, Bool.and_false, Bool.false_eq_true, if_false]

theorem serveHelm_page {ctx vp c va : Nat} {h : Helm} (hw : h.wait = .page c va) : serveHelm ctx vp .replay h =
    if c = ctx ∧ va / 65536 * 65536 = vp then { h with wait := .none, replay := true } else h := by
  simp only [serveHelm, hw, Bool.and_eq_true, decide_eq_true_eq]
  rfl

theorem serveStream_page {ctx vp c va : Nat} {drop : Bool} {st : Stream} (hw : st.wait = .page c va drop) :
    serveStream ctx vp .replay st = if c = ctx ∧ va / 65536 * 65536 = vp then { st with wait := .none } else st := by
  simp only [serveStream, hw, Bool.and_eq_true, decide_eq_true_eq]
  rfl

theorem waitersReplay : WaitersReplay := by
  refine ⟨fun ctx vp bctx c va lane g hw hc => serveGang_page hw hc, fun ctx vp bctx va lane g hw hc => serveGang_fresume hw hc,
    fun ctx vp v die blk h => ?_, fun ctx vp bctx g c hw hc hb hv => ⟨?_, ?_⟩, fun ctx vp c va h hw => serveHelm_page hw,
    fun ctx vp c va drop st hw => serveStream_page hw⟩
  · rw [serveBlock, if_pos (bne_iff_ne.2 (Ne.symm h))]
  · exact serveGang_continued hw hc hb hv
  · exact serveGang_continued hw hc hb hv

/-! ## Fatal verdicts (R380, R417, R420) -/

theorem fatalRec_gang {s : State} {b w g : Nat} {k : GCtx} {ctx vp va lane : Nat} (hk : gangOf s (.gang b w g) = some k)
    (hw : k.g.wait = .page ctx va lane) : fatalRec ctx vp s (.party (.gang b w g)) =
      if va / 65536 * 65536 = vp then some (.gang b w g, faultOf s (.gang b w g) (raise .pageNotPresent (some lane) 0 va)) else none := by
  by_cases h : va / 65536 * 65536 = vp
  · simp only [fatalRec, hk, Option.bind_some, gangWaits, hw, pageBase, h, decide_true, Bool.and_self, if_true]
  · simp only [fatalRec, hk, Option.bind_some, gangWaits, hw, pageBase, h, decide_false, Bool.and_false, Bool.false_eq_true, if_false, Option.bind_none]

theorem waitersFault : WaitersFault := by
  refine ⟨fun s b w g k ctx vp va lane hk hw => ⟨fun h => ?_, fun h => (fatalRec_gang hk hw).trans (if_neg h)⟩, fun s ctx vp v p f h => ?_⟩
  · have hr := (fatalRec_gang (vp := vp) hk hw).trans (if_pos h)
    refine ⟨hr, fun x => ?_⟩
    simp only [fatalOne, hr, fatalTaken]
    rfl
  · simp only [fatalOne, h]

/-! ## Shootdowns (R383) -/

theorem inSession_open {s : State} {i : Fin 16} {f : Fin 16 → State} (hb : s.boot = .up) (ho : s.sessions[i].isOpen = true)
    (hf : s.sessions[i].finished = true) : inSession s i.val f = .next (f i) := by
  have hi : Fin.ofNat 16 i.val = i := Fin.ext (Nat.mod_eq_of_lt i.isLt)
  have hgo : (decide (s.boot = .up) && decide (i.val < 16) && s.sessions[i].isOpen && s.sessions[i].finished) = true := by
    rw [decide_eq_true hb, decide_eq_true i.isLt, ho, hf]
    rfl
  simp only [inSession, hi]
  exact if_pos hgo

/-- The 256 bits of a session's four words, the first lowest. -/
def sdBits (w : Vector Word64 4) : Nat := w[0].toNat + w[1].toNat * 2 ^ 64 + w[2].toNat * 2 ^ 128 + w[3].toNat * 2 ^ 192

/-- The shootdown that 256 bits ask for (R383). -/
def requestOf (i : Fin 16) (e : Nat) : Shoot :=
  { session := some i, own := false, ctx := Fin.ofNat 64 (bitsOf e 64 6), vbase := bitsOf e 16 40 * 65536, npages := bitsOf e 0 16 + 1,
    pteAddr := bitsOf e 72 56, newPte := BitVec.ofNat 128 (e / 2 ^ 128) }

/-- What a session's bits ask for, if they ask for anything (R383). -/
def requested (s : State) (i : Fin 16) (e : Nat) : Option Shoot :=
  if bitsOf e 70 2 != 0 || bitsOf e 56 8 != 0 || bitsOf e 72 56 % 16 != 0 || !s.ctxs[(Fin.ofNat 64 (bitsOf e 64 6) : Fin 64)].valid ||
      s.sessions[i].sdBusy then none
  else some (requestOf i e)

theorem shootOf_eq (s : State) (i : Fin 16) : shootOf s i = requested s i (sdBits s.sessions[i].sdWords) := rfl

/-- A submission by what its session's words ask for. Only the equations below unfold `submitShoot`: the kernel would evaluate
products by `2 ^ 64` in unary to decide which case it is in, so the match is the model's own and the unused name keeps the two
definitions at one height. -/
def submitted (s : State) (i : Fin 16) (o : Option Shoot) : State :=
  have _asked := shootOf s i
  submitShoot.match_1 (fun _ => State) o
    (fun _ => modSession s i fun x => { x with sdDone := x.sdDone + 1, sdResult := 1 })
    (fun sh => { modSession s i (fun x => { x with sdBusy := true }) with shoots := s.shoots ++ [sh] })

theorem submitShoot_eq (s : State) (i : Fin 16) : submitShoot s i = submitted s i (shootOf s i) := rfl

theorem submitted_none (s : State) (i : Fin 16) : submitted s i none =
    modSession s i fun x => { x with sdDone := x.sdDone + 1, sdResult := 1 } := rfl

theorem submitted_some (s : State) (i : Fin 16) (sh : Shoot) : submitted s i (some sh) =
    { modSession s i (fun x => { x with sdBusy := true }) with shoots := s.shoots ++ [sh] } := rfl

theorem mgmtAnswer_ok (t : State) : mgmtAnswer (t, true) = { t with out := t.out ++ [.mgmtOk] } := rfl

theorem execSdgo_open {s : State} {i : Fin 16} (hb : s.boot = .up) (ho : s.sessions[i].isOpen = true)
    (hf : s.sessions[i].finished = true) :
    exec (.sdgo i.val) s = .next (mgmtAnswer (submitted s i (requested s i (sdBits s.sessions[i].sdWords)), true)) := by
  change execSdgo i.val s = _
  rw [execSdgo, inSession_open hb ho hf, submitShoot_eq, shootOf_eq]

theorem shootdownsAreSubmitted : ShootdownsAreSubmitted := by
  intro s i e w hb ho hf hw he refused said upd
  have hbits : sdBits s.sessions[i].sdWords = e := by
    rw [he, hw, sdBits]
  have hexec := execSdgo_open hb ho hf
  rw [hbits] at hexec
  have hrefused : (bitsOf e 70 2 != 0 || bitsOf e 56 8 != 0 || bitsOf e 72 56 % 16 != 0 ||
      !s.ctxs[(Fin.ofNat 64 (bitsOf e 64 6) : Fin 64)].valid || s.sessions[i].sdBusy) = true ↔ refused := by
    simp only [Bool.or_eq_true, bne_iff_ne, Bool.not_eq_true', or_assoc]
    exact Iff.rfl
  clear_value refused
  clear he hw hbits
  refine ⟨fun h => ?_, fun h => ?_⟩
  · rw [hexec, requested, if_pos (hrefused.2 h), submitted_none, mgmtAnswer_ok]
    rfl
  · rw [hexec, requested, if_neg fun hx => h (hrefused.1 hx), submitted_some, mgmtAnswer_ok]
    rfl

/-- The state of a shootdown once its entry is written. -/
def entryWritten (s : State) (sh : Shoot) : State :=
  if sh.pteAddr = 0 then s else writeOwn s sh.pteAddr (leBytes 16 sh.newPte.toNat)

theorem entryWritten_tlbs (s : State) (sh : Shoot) :
    (entryWritten s sh).cores = s.cores ∧ (entryWritten s sh).dieTlb = s.dieTlb := by
  rw [entryWritten]
  split
  · exact ⟨rfl, rfl⟩
  · have hown := (writeOwn_own s sh.pteAddr (leBytes 16 sh.newPte.toNat)).frame
    have hc := congrArg State.cores hown
    have hd := congrArg State.dieTlb hown
    exact ⟨hc, hd⟩

theorem shootDown_tlb (s : State) (sh : Shoot) (c : Fin 256) :
    ((shootDown s sh).cores[c]).tlb = (s.cores[c].tlb).filter fun t => !sh.hits t := by
  have hc : (shootDown s sh).cores =
      (entryWritten s sh).cores.map fun (x : Core) => { x with tlb := x.tlb.filter fun t => !sh.hits t } := rfl
  rw [hc, (entryWritten_tlbs s sh).1, Fin.getElem_fin, Vector.getElem_map]
  rfl

theorem shootDown_dieTlb (s : State) (sh : Shoot) (d : Fin 4) :
    (shootDown s sh).dieTlb[d] = (s.dieTlb[d]).filter fun t => !sh.hits t := by
  have hd : (shootDown s sh).dieTlb = (entryWritten s sh).dieTlb.map fun l => l.filter fun t => !sh.hits t := rfl
  rw [hd, (entryWritten_tlbs s sh).2, Fin.getElem_fin, Vector.getElem_map]
  rfl

theorem shootDown_mem (s : State) (sh : Shoot) : (shootDown s sh).mem = (entryWritten s sh).mem := rfl

theorem writeOwn_mem {s : State} {a : Nat} {bs : List Byte} (hm : Memory.wf s.mem = true) (hclean : s.badGranules = []) :
    (writeOwn s a bs).mem = memWrite s.mem a bs := by
  rw [writeOwn_clean hm (by simp [hclean])]
  rfl

theorem shootdownsComplete : ShootdownsComplete := by
  refine ⟨fun s sh hn => ⟨fun ho => ?_, fun ho s1 hs1 => ?_⟩, fun s sh => ⟨fun c t ht => ?_, fun d t ht => ?_, fun h => ?_, fun h hm hclean => ?_⟩⟩
  · change execShootdownComplete s = _
    have hany : s.blocks.zipIdx.any (accessOpen s sh) = true := List.any_eq_true.2 ho
    simp only [execShootdownComplete, hn, hany, if_true]
  · have hany : s.blocks.zipIdx.any (accessOpen s sh) = false :=
      List.any_eq_false.2 fun x hx => by rw [ho x hx]; exact Bool.false_ne_true
    subst hs1
    change (_ → execShootdownComplete s = _) ∧ (_ → _ → execShootdownComplete s = _) ∧ ∀ i, _ → _ → execShootdownComplete s = _
    refine ⟨fun h => ?_, fun h h1 => ?_, fun i h h1 => ?_⟩
    · simp only [execShootdownComplete, hn, hany, h, Bool.false_eq_true, if_false, if_true]
    · simp only [execShootdownComplete, hn, hany, h, h1, Bool.false_eq_true, if_false]
    · simp only [execShootdownComplete, hn, hany, h, h1, Bool.false_eq_true, if_false]
      rfl
  · rw [shootDown_tlb] at ht
    obtain ⟨h1, h2⟩ := List.mem_filter.1 ht
    exact ⟨h1, by simpa using h2⟩
  · rw [shootDown_dieTlb] at ht
    obtain ⟨h1, h2⟩ := List.mem_filter.1 ht
    exact ⟨h1, by simpa using h2⟩
  · rw [shootDown_mem, entryWritten, if_pos h]
  · have hl : (leBytes 16 sh.newPte.toNat).length = 16 := leBytes_length _ _
    rw [shootDown_mem, entryWritten, if_neg h, writeOwn_mem hm hclean]
    refine ⟨?_, fun a ha => memGet_memWrite_other _ _ _ hm (by rw [hl]; exact ha)⟩
    have := memRead_memWrite sh.pteAddr (leBytes 16 sh.newPte.toNat) hm
    rwa [hl] at this

theorem shootdownsKeepOrder : ShootdownsKeepOrder := by
  intro s sh r hs
  refine ⟨fun h => ?_, fun h x hx => ?_⟩
  · simp only [nextShoot, hs, h, Bool.false_eq_true, if_false]
  · have hfind : nextShoot s = s.shoots.find? (·.own) := by
      simp only [nextShoot, hs, h, if_true]
    rw [hfind] at hx
    exact ⟨List.mem_of_find?_eq_some hx, by simpa using List.find?_some hx⟩

/-- Settles O54: the ring's records, the service of a page by kind of waiter, and the shootdown's steps. -/
theorem faultsAndShootdownsAreServed : Obligations.FaultsAndShootdownsAreServed :=
  ⟨faultsAreServed, shootdownsAreSubmitted, shootdownsComplete, shootdownsKeepOrder, recordsAreWritten, waitersReplay, waitersFault⟩

end Sys2Proof.Machine

/-! # Migration and adapter prefetch (R346, R360, R384 to R386) -/

namespace Sys2Proof.Machine

open Sys2Proof Sys2Proof.Claims

/-! ## Requests (R360, R384) -/

theorem migWaits_iff {s : State} {r : MigReq} :
    migWaits s r = true ↔ ∃ x ∈ s.migWait, x.ctx = r.ctx ∧ x.va / 65536 = r.va / 65536 := by
  simp only [migWaits, List.any_eq_true, Bool.and_eq_true, decide_eq_true_eq]
  exact exists_congr fun x => and_congr_right fun _ => and_congr_right fun _ => Nat.mul_left_inj (by decide)

theorem covers_iff {m : Mig} {c : Fin 64} {va : Nat} : m.covers c.val va = true ↔ m.ctx = c ∧ m.va ≤ va ∧ va < m.va + m.len := by
  simp only [Mig.covers, Bool.and_eq_true, decide_eq_true_eq, and_assoc, Fin.val_inj]

theorem tryMig_migrating {s : State} {r : MigReq} (h : ∃ m ∈ s.migs, m.covers r.ctx.val r.va = true) : tryMig s r = s := by
  have hany : (s.migs.any fun m => m.covers r.ctx.val r.va) = true := List.any_eq_true.2 h
  rw [tryMig, hany, Bool.or_true, if_pos rfl]

theorem tryMig_unmapped {s : State} {r : MigReq} (h : entryOf s.mem r.va levels s.ctxs[r.ctx].root.toNat = none) : tryMig s r = s := by
  rw [tryMig, h]
  exact ite_self s

/-- A request whose page is mapped, in a valid context, and does not migrate waits for a cell, or begins at its destination. -/
theorem tryMig_mapped {s : State} {r : MigReq} {a e len dst : Nat} (hspan : inSpan r.va = false) (hv : s.ctxs[r.ctx].valid = true)
    (hm : ∀ m ∈ s.migs, m.covers r.ctx.val r.va = false) (hd : r.dst = some dst)
    (he : entryOf s.mem r.va levels s.ctxs[r.ctx].root.toNat = some (a, e, len)) : tryMig s r =
      if bitsOf e 5 1 = 0 ∧ cellIn s (pteAddr e) (frameLen s r.ctx e len) = true then { s with migWait := s.migWait ++ [r] }
      else noteStaged (beginMig s r a e len dst) r e len dst := by
  have hany : (s.migs.any fun m => m.covers r.ctx.val r.va) = false :=
    List.any_eq_false.2 fun m h => by rw [hm m h]; exact Bool.false_ne_true
  rw [tryMig, hany, hspan, hv, he, if_neg (by decide)]
  simp only [hd, Bool.and_eq_true, decide_eq_true_eq]

/-- The frames of the pool that a request takes. -/
def stagedRun (s : State) (r : MigReq) (e len dst : Nat) : Staged :=
  { frame := dst, ctx := r.ctx, va := r.va / len * len, len := len, home := BitVec.ofNat 128 e, last := s.tick }

theorem noteStaged_eq (s : State) (r : MigReq) (e len dst : Nat) : noteStaged s r e len dst =
    { s with staged := if r.tier = false ∧ dst / 65536 ∈ Config.staging then s.staged ++ [stagedRun s r e len dst] else s.staged } := by
  by_cases h : r.tier = false ∧ dst / 65536 ∈ Config.staging
  · have hin : (r.tier || !Config.staging.contains (dst / 65536)) = false := by simp [h.1, h.2]
    rw [if_pos h, noteStaged, hin, if_neg Bool.false_ne_true]
    rfl
  · rw [if_neg h, noteStaged, if_pos]
    simpa [Classical.or_iff_not_imp_left] using h

/-- The bits of the entry of a migrated page (R377, R384). -/
def movedPte (r : MigReq) (e dst : Nat) : Nat :=
  bitsOf e 8 6 * 256 + bitsOf e 0 5 + (if r.tier then 32 + r.ep % 256 * 2 ^ 16 else 0) + dst % 2 ^ 56 * 2 ^ 64

/-- A migration that begins, and the frames of the pool that it takes. -/
theorem noteStaged_beginMig (s : State) (r : MigReq) (a e len dst : Nat) : noteStaged (beginMig s r a e len dst) r e len dst = { s with
    migs := s.migs ++ [(⟨r.ctx, r.va / len * len, len, a, BitVec.ofNat 128 e, BitVec.ofNat 128 (movedPte r e dst), false, r.hint⟩ : Mig)]
    shoots := s.shoots ++ [(⟨none, true, r.ctx, r.va / len * len, len / 65536, a, BitVec.ofNat 128 (e ||| 64)⟩ : Shoot)]
    staged := if r.tier = false ∧ dst / 65536 ∈ Config.staging then s.staged ++ [stagedRun s r e len dst] else s.staged } :=
  noteStaged_eq _ _ _ _ _

theorem pagesMove : PagesMove := by
  intro s ctx va dst vp a e len tier ep c hc hvp r known cell ask
  subst hc hvp
  have hask : exec ask s = .next (askMig s r) := rfl
  have hwaits : migWaits s r = true ↔ ∃ x ∈ s.migWait, x.ctx = Fin.ofNat 64 ctx ∧ x.va / 65536 = va / 65536 := migWaits_iff
  refine ⟨fun h => ?_, fun h => ?_, fun hk hspan hv he => ?_⟩
  · rw [hask, askMig]
    rcases h with h | ⟨m, hm, h⟩
    · rw [if_pos (hwaits.2 h)]
    · rw [tryMig_migrating ⟨m, hm, covers_iff.2 h⟩, ite_self]
  · rw [hask, askMig, tryMig_unmapped (r := r) h, ite_self]
  · have hm : ∀ m ∈ s.migs, m.covers r.ctx.val r.va = false := fun m hm =>
      Bool.eq_false_iff.2 fun h => hk (.inr ⟨m, hm, covers_iff.1 h⟩)
    have htry := tryMig_mapped (r := r) (dst := dst) hspan hv hm rfl he
    rw [hask, askMig, if_neg fun h => hk (.inl (hwaits.1 h)), htry]
    refine ⟨fun h => congrArg Host.Outcome.next (if_pos h), fun h => congrArg Host.Outcome.next ((if_neg h).trans ?_)⟩
    have hep : movedPte r e dst =
        bitsOf e 8 6 * 256 + bitsOf e 0 5 + (if tier then 32 + ep.toNat * 2 ^ 16 else 0) + dst % 2 ^ 56 * 2 ^ 64 := by
      rw [movedPte, show r.ep % 256 = ep.toNat from Nat.mod_eq_of_lt ep.isLt]
    rw [noteStaged_beginMig, hep]
    rfl

/-! ## The end of a copy and of a migration (R384 to R386) -/

theorem holds_of_entry {s : State} {m : Mig} {ctx va : Nat} (h : (m.ctx.val = ctx ∧ m.va ≤ va ∧ va < m.va + m.len) ∨
    ∃ e len, entryOf s.mem va levels s.ctxs[(Fin.ofNat 64 ctx : Fin 64)].root.toNat = some (m.pteAddr, e, len)) :
    m.holds s ctx va = true := by
  rw [Mig.holds, Bool.or_eq_true]
  rcases h with ⟨h1, h2, h3⟩ | ⟨e, len, he⟩
  · left
    simp only [Mig.covers, h1, h2, h3, decide_true, Bool.and_self]
  · right
    rw [he]
    simp

/-- A migration whose copy has ended, and the shootdown of the entry that follows. -/
def copyEnded (t : State) (m : Mig) (p : BitVec 128) : State :=
  { t with
    migs := t.migs.map fun x => if x = m then { x with copied := true } else x
    shoots := t.shoots ++ [{ session := none, own := true, ctx := m.ctx, vbase := m.va, npages := m.len / 65536, pteAddr := m.pteAddr,
                             newPte := p }] }

theorem migStep_none {s : State} {sh : Shoot} (h : ∀ m ∈ s.migs, ¬(m.ctx = sh.ctx ∧ m.va = sh.vbase ∧ m.copied = true)) :
    migStep s sh = s := by
  have hfind : s.migs.find? (fun m => decide (m.ctx = sh.ctx) && decide (m.va = sh.vbase) && m.copied) = none :=
    List.find?_eq_none.2 fun m hm => by
      simp only [Bool.and_eq_true, decide_eq_true_eq, and_assoc]
      exact h m hm
  rw [migStep, hfind]

theorem migStep_some {s : State} {sh : Shoot} {m : Mig}
    (h : s.migs.find? (fun m => decide (m.ctx = sh.ctx) && decide (m.va = sh.vbase) && m.copied) = some m) :
    migStep s sh = releaseHeld (freeFrames { s with migs := s.migs.filter (· != m) } m sh.newPte) (m.holds s) := by
  rw [migStep, h]

/-- The step that ends a copy, with the entry that its shootdown is to write. -/
theorem execMigrationCopyDone_steps {s : State} {i : Nat} {ok : Bool} {m : Mig} (hi : s.migs[i]? = some m)
    (ho : ¬(m.copied = true ∨ ∃ sh ∈ s.shoots, sh.own = true ∧ sh.ctx = m.ctx ∧ sh.vbase = m.va)) (good : Bool)
    (hg : good = (ok && !(decide (bitsOf m.oldPte.toNat 5 1 = 0) &&
      poisonAt s (.dev (pteAddr m.oldPte.toNat)) (frameLen s m.ctx m.oldPte.toNat m.len)))) :
    execMigrationCopyDone i ok s = .next (copyEnded (if good then copyFrame s m else s) m (if good then m.newPte else m.oldPte)) := by
  have hopen : ¬(m.copied || s.shoots.any fun sh => sh.own && decide (sh.ctx = m.ctx) && decide (sh.vbase = m.va)) = true := by
    simpa only [Bool.or_eq_true, List.any_eq_true, Bool.and_eq_true, decide_eq_true_eq, and_assoc] using ho
  subst hg
  simp only [execMigrationCopyDone, hi]
  exact if_neg hopen

theorem pagesArrive : PagesArrive := by
  refine ⟨fun s i ok m hi => ?_, fun s sh => ⟨migStep_none, fun m hfind => ?_⟩⟩
  · intro open_ bad step done asks
    change (_ → execMigrationCopyDone i ok s = _) ∧ (_ → _ → _ → execMigrationCopyDone i ok s = _) ∧
      (_ → _ → execMigrationCopyDone i ok s = _)
    have hbad : (decide (bitsOf m.oldPte.toNat 5 1 = 0) &&
        poisonAt s (.dev (pteAddr m.oldPte.toNat)) (frameLen s m.ctx m.oldPte.toNat m.len)) = true ↔ bad := by
      simp only [Bool.and_eq_true, decide_eq_true_eq]
      rfl
    refine ⟨fun h => ?_, fun h hok hb => ?_, fun h hb => ?_⟩
    · have hopen : (m.copied || s.shoots.any fun sh => sh.own && decide (sh.ctx = m.ctx) && decide (sh.vbase = m.va)) = true := by
        simpa only [Bool.or_eq_true, List.any_eq_true, Bool.and_eq_true, decide_eq_true_eq, and_assoc] using h
      simp only [execMigrationCopyDone, hi]
      exact if_pos hopen
    · refine execMigrationCopyDone_steps hi h true ?_
      rw [hok, Bool.eq_false_iff.2 fun x => hb (hbad.1 x)]
      rfl
    · refine execMigrationCopyDone_steps hi h false ?_
      rcases hb with hb | hb
      · rw [hb, Bool.false_and]
      · rw [hbad.2 hb, Bool.not_true, Bool.and_false]
  · exact ⟨(freeFrames { s with migs := s.migs.filter (· != m) } m sh.newPte).staged, migStep_some hfind, fun ctx va => holds_of_entry⟩

/-! ## The copy of a frame (R384, R385) -/

theorem memGet_absent {m : Mem} {a : Nat} (h : ∀ c ∈ m, c.1 ≠ a) : memGet m a = 0 := by
  induction m with
  | nil => rfl
  | cons c r ih =>
    rw [memGet, if_neg (Ne.symm (h c List.mem_cons_self)), ih fun d hd => h d (List.mem_cons_of_mem _ hd), ite_self]

theorem clearVersions_fresh {m : Mem} {a n l : Nat} (h : a / 128 ≤ l ∧ l < (a + n) / 128) : memGet (clearVersions m a n) l = 0 := by
  refine memGet_absent fun c hc => ?_
  rintro rfl
  have := (List.mem_filter.1 hc).2
  simp only [h.1, h.2, decide_true, Bool.and_self, Bool.not_true, Bool.false_eq_true] at this

theorem clearVersions_keeps_fresh {m : Mem} {a n b k l : Nat} (h : b / 128 ≤ l ∧ l < (b + k) / 128) :
    memGet (clearVersions (clearVersions m b k) a n) l = 0 := by
  refine memGet_absent fun c hc => ?_
  rintro rfl
  have := (List.mem_filter.1 (List.mem_filter.1 hc).1).2
  simp only [h.1, h.2, decide_true, Bool.and_self, Bool.not_true, Bool.false_eq_true] at this

theorem copyFrame_device {s : State} {m : Mig} (ho : bitsOf m.oldPte.toNat 5 1 = 0) (he : bitsOf m.newPte.toNat 5 1 = 0) :
    (copyFrame s m).mem = memWrite s.mem (pteAddr m.newPte.toNat)
      (memRead s.mem (pteAddr m.oldPte.toNat) (frameLen s m.ctx m.oldPte.toNat m.len)) ∧
    (copyFrame s m).lineVer = clearVersions (clearVersions s.lineVer (pteAddr m.oldPte.toNat) (frameLen s m.ctx m.oldPte.toNat m.len))
      (pteAddr m.newPte.toNat) (frameLen s m.ctx m.oldPte.toNat m.len) := by
  simp only [copyFrame, ho, he, if_true, zero_ne_one, if_false, and_self]

theorem frameCopy : FrameCopy := by
  intro s m src dst n ho he hsrc hdst hn _ _ _ hwf
  obtain ⟨hmem, hline⟩ := copyFrame_device (s := s) ho he
  rw [← hsrc, ← hdst, ← hn] at hmem hline
  obtain ⟨hm, -, -⟩ := homesWf_iff.1 hwf
  refine ⟨fun i hi => ?_, fun a ha => ?_, fun l hl => ?_⟩
  · rw [hmem, memGet_memWrite _ _ _ hm, dif_pos ⟨Nat.le_add_right _ _, by rw [memRead_length]; omega⟩]
    simp only [memRead, List.getElem_map, List.getElem_range, Nat.add_sub_cancel_left]
  · rw [hmem]
    exact memGet_memWrite_other _ _ _ hm (by rw [memRead_length]; exact ha)
  · rw [hline]
    exact hl.elim clearVersions_keeps_fresh clearVersions_fresh

/-! ## Prefetch (R346, R360) -/

theorem adaptersArePrefetched : AdaptersArePrefetched := by
  intro s q n h p ea bs hq hres h1 h2 h3 h4 hread hp hea
  change (_ → execAdapterPrefetch q.qid n h s = _) ∧ (_ → _ → _ → ∀ bytes, _ → (_ → execAdapterPrefetch q.qid n h s = _) ∧
    ∀ en, _ → execAdapterPrefetch q.qid n h s = _)
  have hopen : (!q.resident || decide (n < q.next) || decide (n ≥ q.observed) || decide (n ≥ q.next + 64) ||
      decide (hintsOpen s ≥ 256)) = false := by
    rw [hres, decide_eq_false (not_lt.2 h1), decide_eq_false (not_le.2 h2), decide_eq_false (not_le.2 h3), decide_eq_false (not_le.2 h4)]
    rfl
  refine ⟨fun hbad => ?_, fun htype hlt hle bytes hbytes => ⟨fun hnone => ?_, fun en hen => ?_⟩⟩
  · have hskip : (pkType p != 1 && pkType p != 2 || decide (bitsOf p 12 4 ≤ h) || decide (bitsOf p 12 4 > 4)) = true := by
      simp only [Bool.or_eq_true, Bool.and_eq_true, bne_iff_ne, decide_eq_true_eq, or_assoc]
      exact hbad
    simp only [execAdapterPrefetch, hq, hopen, hread, Bool.false_eq_true, if_false, ← hp, hskip, if_true]
  all_goals
    have hgo : (pkType p != 1 && pkType p != 2 || decide (bitsOf p 12 4 ≤ h) || decide (bitsOf p 12 4 > 4)) = false := by
      simp only [Bool.or_eq_false_iff, Bool.and_eq_false_iff, bne_eq_false_iff_eq, decide_eq_false_iff_not]
      exact ⟨⟨htype, by omega⟩, by omega⟩
  · simp only [execAdapterPrefetch, hq, hopen, hread, Bool.false_eq_true, if_false, ← hp, hgo, ← hea, hbytes, hnone]
  · simp only [execAdapterPrefetch, hq, hopen, hread, Bool.false_eq_true, if_false, ← hp, hgo, ← hea, hbytes, hen]

/-! ## The staging pool (R360; log 13) -/

theorem freeRun_spec {s : State} {len f : Nat} (h : freeRun s len = some f) : f % 65536 = 0 ∧ f % len = 0 ∧
    (∀ i < len / 65536, f / 65536 + i ∈ Config.staging) ∧ ∀ x ∈ s.staged, x.frame + x.len ≤ f ∨ f + len ≤ x.frame := by
  have hfree := List.find?_some h
  obtain ⟨hframe, hrun⟩ := List.mem_filter.1 (List.mem_of_find?_eq_some h)
  obtain ⟨k, -, rfl⟩ := List.mem_map.1 hframe
  simp only [Bool.and_eq_true, decide_eq_true_eq, List.all_eq_true, List.mem_range, List.contains_iff_mem] at hrun
  simp only [Bool.not_eq_true', List.any_eq_false, Bool.and_eq_true, decide_eq_true_eq] at hfree
  exact ⟨Nat.mul_mod_left _ _, hrun.1, hrun.2, fun x hx => by have := hfree x hx; omega⟩

/-- The page accessed earlier, the first of two accessed at the same time. -/
def olderOf (o : Option Staged) (x : Staged) : Option Staged :=
  match o with
  | none => some x
  | some y => if x.last < y.last then some x else some y

theorem foldl_olderOf (l : List Staged) {o : Option Staged} {x : Staged} (h : l.foldl olderOf o = some x) :
    (x ∈ l ∨ o = some x) ∧ (∀ y ∈ l, x.last ≤ y.last) ∧ ∀ y, o = some y → x.last ≤ y.last := by
  induction l generalizing o with
  | nil => exact ⟨.inr h, nofun, fun y hy => by cases (show o = some x from h).symm.trans hy; exact le_rfl⟩
  | cons z l ih =>
    obtain ⟨hmem, hall, hacc⟩ := ih h
    cases o with
    | none =>
      refine ⟨.inl (hmem.elim (List.mem_cons_of_mem _) fun hz => ?_), fun y hy => ?_, nofun⟩
      · cases hz
        exact List.mem_cons_self
      · rcases List.mem_cons.1 hy with rfl | hy
        · exact hacc y rfl
        · exact hall y hy
    | some w =>
      by_cases hlt : z.last < w.last
      · have ho : olderOf (some w) z = some z := if_pos hlt
        rw [ho] at hmem hacc
        refine ⟨.inl (hmem.elim (List.mem_cons_of_mem _) fun hz => ?_), fun y hy => ?_, fun y hy => ?_⟩
        · cases hz
          exact List.mem_cons_self
        · rcases List.mem_cons.1 hy with rfl | hy
          · exact hacc y rfl
          · exact hall y hy
        · cases hy
          exact (hacc z rfl).trans hlt.le
      · have ho : olderOf (some w) z = some w := if_neg hlt
        rw [ho] at hmem hacc
        refine ⟨hmem.imp_left (List.mem_cons_of_mem _), fun y hy => ?_, hacc⟩
        rcases List.mem_cons.1 hy with rfl | hy
        · exact (hacc w rfl).trans (not_lt.1 hlt)
        · exact hall y hy

theorem leastUsed_spec {s : State} {x : Staged} (h : leastUsed s = some x) : x ∈ s.staged ∧
    ∀ y ∈ s.staged, (∀ m ∈ s.migs, m.covers y.ctx.val y.va = false) → x.last ≤ y.last := by
  obtain ⟨hmem, hall, -⟩ := foldl_olderOf _ (show List.foldl olderOf none _ = some x from h)
  refine ⟨(List.mem_filter.1 (hmem.resolve_right nofun)).1, fun y hy hm => hall y (List.mem_filter.2 ⟨hy, ?_⟩)⟩
  rw [Bool.not_eq_true', List.any_eq_false]
  exact fun m h => by rw [hm m h]; exact Bool.false_ne_true

theorem prefetchedPages : PrefetchedPages := by
  refine fun s => ⟨fun ctx ea vp t h => ?_, fun ctx ea vp h => ?_, fun f len => freeRun_spec, fun x => leastUsed_spec⟩
  · rw [prefetchPage, h]
  · rw [prefetchPage]
    cases hl : leafOf s none ctx vp with
    | leaf t => exact absurd hl (h t)
    | _ => rfl

/-- Settles O55: each step by the cases of its request; the pool's choices by what its searches find. -/
theorem pagesMoveAndArePrefetched : Obligations.PagesMoveAndArePrefetched :=
  ⟨pagesMove, pagesArrive, adaptersArePrefetched, frameCopy, prefetchedPages⟩

end Sys2Proof.Machine

/-! # Answers and failures of outgoing operations, and incoming requests (R363, R368 to R372, R374) -/

namespace Sys2Proof.Machine

open Sys2Proof Sys2Proof.Claims

/-! ## Answers (R139, R368, R369) -/

theorem isEvicted_modBlock {s : State} {b c : Nat} {f : Block → Block} (hf : ∀ k, (f k).status = k.status) :
    isEvicted (modBlock s b f) c = isEvicted s c := by
  simp only [isEvicted, modBlock_get]
  by_cases h : b = c
  · rw [if_pos h]
    cases s.blocks[c]? with
    | none => rfl
    | some k => simp only [Option.map_some, hf]
  · rw [if_neg h]

theorem isEvicted_modHPend (s : State) (b c id : Nat) (f : HPend → HPend) : isEvicted (modHPend s b id f) c = isEvicted s c :=
  isEvicted_modBlock fun _ => rfl

/-- What an answer changes in the image of a block happens only where the block that asked is evicted. -/
theorem landInImage_kept {t : State} {o : FabOp} (h : NotOfEvicted t o) : landInImage t o = .next t := by
  cases hw : o.why with
  | load b w pid lane => simp only [landInImage, hw, h b (.inl ⟨w, pid, lane, hw⟩), Bool.not_false, if_true]
  | helmLoad b pid => simp only [landInImage, hw, h b (.inr ⟨pid, hw⟩), Bool.not_false, if_true]
  | _ => simp only [landInImage, hw]

theorem notOfEvicted_congr {s t : State} {o : FabOp} (h : NotOfEvicted s o)
    (ht : ∀ b, ((∃ w pid lane, o.why = .load b w pid lane) ∨ ∃ pid, o.why = .helmLoad b pid) → isEvicted t b = isEvicted s b) :
    NotOfEvicted t o :=
  fun b hb => (ht b hb).trans (h b hb)

theorem perform_again {s : State} {o : FabOp} {data : List Byte} {k : FabKind}
    (h : mergeAgain o (valueOf (returned o data)) = some k) : perform s o data = sendFab s o.loc k o.why o.acq o.va := by
  rw [perform]
  simp only [h]

theorem perform_load {s : State} {o : FabOp} {data : List Byte} {b w pid lane : Nat}
    (h : mergeAgain o (valueOf (returned o data)) = none) (hw : o.why = .load b w pid lane) :
    perform s o data = modPend s b w pid (takeData lane (returned o data)) := by
  rw [perform]
  simp only [h, hw]

theorem perform_helmLoad {s : State} {o : FabOp} {data : List Byte} {b pid : Nat}
    (h : mergeAgain o (valueOf (returned o data)) = none) (hw : o.why = .helmLoad b pid) :
    perform s o data = modHPend s b pid (takeHData (!isRead o.kind) (returned o data)) := by
  rw [perform]
  simp only [h, hw]

theorem perform_store {s : State} {o : FabOp} {data : List Byte} {p : Party} {w inc : Nat} {pc : Word}
    (h : mergeAgain o (valueOf (returned o data)) = none) (hw : o.why = .store p w pc inc) : perform s o data = s := by
  rw [perform]
  simp only [h, hw]

theorem perform_signalOp {s : State} {o : FabOp} {data : List Byte} {qid idx : Nat}
    (h : mergeAgain o (valueOf (returned o data)) = none) (hw : o.why = .signalOp qid idx) :
    perform s o data = modFlight s qid idx fun f => { f with finished := true } := by
  rw [perform]
  simp only [h, hw]

theorem perform_keeps_evicted {s : State} {o : FabOp} (data : List Byte) {b : Nat}
    (hb : (∃ w pid lane, o.why = .load b w pid lane) ∨ ∃ pid, o.why = .helmLoad b pid) :
    isEvicted (perform s o data) b = isEvicted s b := by
  cases h : mergeAgain o (valueOf (returned o data)) with
  | some k =>
    rw [perform_again h]
    rfl
  | none =>
    rcases hb with ⟨w, pid, lane, hw⟩ | ⟨pid, hw⟩
    · rw [perform_load h hw]
      exact isEvicted_modPend _ _ _ _ _ _
    · rw [perform_helmLoad h hw]
      exact isEvicted_modHPend _ _ _ _ _

theorem mergeAgain_merge {o : FabOp} {f : BitVec 4} {sub code : Nat} {last : Bool} {cmp v : Word64}
    (hk : o.kind = .merge f sub code last cmp) : mergeAgain o v = if v = cmp then none else some (.merge f sub code last v) := by
  simp only [mergeAgain, hk]

theorem answersArrive : AnswersArrive := by
  intro s id data o ho s0
  refine ⟨fun h => ?_, fun b w pid lane n hw hk => ?_, fun p w pc inc hw hm => perform_store (hm _) hw,
    fun qid idx hw hm => perform_signalOp (hm _) hw, fun f sub code last cmp v hk hv => ⟨fun hne => ?_, fun heq p w pc inc hw => ?_⟩⟩
  · change execFabricDeliveryComplete id data s = _
    simp only [execFabricDeliveryComplete, ho]
    exact landInImage_kept (notOfEvicted_congr h fun b hb => perform_keeps_evicted data hb)
  · have hm (v : Word64) : mergeAgain o v = none := by simp only [mergeAgain, hk]
    have hr : returned o data = fitBytes n data := by simp only [returned, hk]
    rw [perform_load (hm _) hw, hr]
    rfl
  · have hr : valueOf (returned o data) = v := by
      simp only [returned, hk]
      exact hv.symm
    exact perform_again ((mergeAgain_merge hk).trans (by rw [hr, if_neg hne]))
  · have hr : valueOf (returned o data) = v := by
      simp only [returned, hk]
      exact hv.symm
    exact perform_store ((mergeAgain_merge hk).trans (by rw [hr, if_pos heq])) hw

/-! ## Failures (R370, R416, R449) -/

theorem failFab_load {s : State} {o : FabOp} {b w pid lane : Nat} (hw : o.why = .load b w pid lane) :
    failFab s o = modPend s b w pid fun p => { p with failed := p.failed ||| maskOf fun l => l = lane } := by
  simp only [failFab, hw]

theorem failFab_helmLoad {s : State} {o : FabOp} {b pid : Nat} (hw : o.why = .helmLoad b pid) :
    failFab s o = modHPend s b pid fun p => { p with failed := true } := by
  simp only [failFab, hw]

/-- The report of a store that failed over the fabric. -/
def storeFailed (s : State) (o : FabOp) (p : Party) (w : Nat) (pc : Word) (inc : Nat) : Report :=
  { party := p, warp := w, pc := pc, incarnation := inc, cause := 3, addr := o.va, node := ((s.blocks[partyBlock p]?).map (·.node)).getD 0 }

theorem failFab_store {s : State} {o : FabOp} {p : Party} {w inc : Nat} {pc : Word} (hw : o.why = .store p w pc inc) :
    failFab s o = { s with reports := s.reports ++ [storeFailed s o p w pc inc] } := by
  simp only [failFab, hw]
  rfl

theorem failFab_keeps_evicted {s : State} {o : FabOp} {b : Nat}
    (hb : (∃ w pid lane, o.why = .load b w pid lane) ∨ ∃ pid, o.why = .helmLoad b pid) :
    isEvicted (failFab s o) b = isEvicted s b := by
  rcases hb with ⟨w, pid, lane, hw⟩ | ⟨pid, hw⟩
  · rw [failFab_load hw]
    exact isEvicted_modPend _ _ _ _ _ _
  · rw [failFab_helmLoad hw]
    exact isEvicted_modHPend _ _ _ _ _

theorem logErr_out (s : State) (e : ErrEvent) : (logErr s e).out = s.out := by rw [logErr_frame]

theorem isEvicted_logErr (s : State) (e : ErrEvent) (b : Nat) : isEvicted (logErr s e) b = isEvicted s b := by
  rw [logErr_frame]
  rfl

theorem failuresAreReported : FailuresAreReported := by
  intro s id o ho h
  refine ⟨logErr { s with fabOps := s.fabOps.filter (·.id != id) }
    (errEvent .port (Config.port s.tick).val 7 0 0xFF (match o.loc with | .fab c _ _ => c | _ => 0) 0), logErr_frame _ _, ?_,
    fun p w pc inc hw => ?_, fun b w pid lane hw => failFab_load hw, fun qid idx hw => ?_⟩
  · change execFabricOperationFailed id s = _
    simp only [execFabricOperationFailed, ho]
    exact landInImage_kept (notOfEvicted_congr h fun b hb => (failFab_keeps_evicted hb).trans (isEvicted_logErr _ _ _))
  · exact ⟨_, failFab_store hw, rfl, rfl, rfl, rfl, rfl, rfl⟩
  · simp only [failFab, hw]

/-! ## Windows (R371) -/

theorem matchWindow_some {s : State} {r : Req} {len : Nat} {wr : Bool} {ctx : Fin 64} {va : Nat}
    (h : matchWindow s r len wr = some (ctx, va)) : ∃ w ∈ s.windows.toList, w.valid = true ∧ w.job = r.job ∧ w.pid = r.pid ∧
      w.ri = r.ri ∧ r.off + len ≤ w.len.toNat ∧ (if wr then w.wr else w.rd) = true ∧ ctx = w.ctx ∧ va = w.base.toNat + r.off := by
  rw [matchWindow] at h
  cases hw : windowOf s r with
  | none =>
    rw [hw] at h
    cases h
  | some w =>
    rw [hw] at h
    have hmatch := List.find?_some hw
    simp only [Bool.and_eq_true, decide_eq_true_eq, and_assoc] at hmatch
    obtain ⟨hv, hj, hp, hr⟩ := hmatch
    have hadmit := (Option.ite_none_right_eq_some.1 h)
    obtain ⟨hin, heq⟩ := hadmit
    rw [Bool.and_eq_true, decide_eq_true_eq] at hin
    cases heq
    exact ⟨w, List.mem_of_find?_eq_some hw, hv, hj, hp, hr, hin.1, hin.2, rfl, rfl⟩

theorem windowsAdmit : WindowsAdmit := by
  refine ⟨fun s r len wr ctx va => matchWindow_some, fun s r => ⟨fun data h => ?_, fun len h => ?_, fun op wide v hop h => ?_,
    fun op wide v c h => ?_⟩⟩
  · change execRmaWrite r data s = _
    rw [execRmaWrite, serveWrite, h]
    rfl
  · change execRmaRead r len s = _
    rw [execRmaRead, serveRead, h]
    rfl
  · change execAtomicNonFetching r op wide v s = _
    simp only [execAtomicNonFetching, serveAtomic, hop, h, Bool.not_true, Bool.and_false, Bool.false_eq_true, if_false]
    rfl
  · change execAtomicFetching r op wide v c s = _
    simp only [execAtomicFetching, serveAtomic, h, Bool.not_true, Bool.false_and, Bool.false_eq_true, if_false]
    rfl

/-! ## Requests on memory (R372, R431) -/

theorem clean_of_poisonAt {s : State} {a n : Nat} (h : poisonAt s (.dev a) n = false) :
    ∀ g ∈ unitsOf 32 a n, s.badGranules.contains g = false := fun g hg => by
  rw [poisonAt, List.any_eq_false] at h
  exact Bool.eq_false_iff.2 (h g hg)

/-- A write of device memory that meets no poison changes the bytes, and what is noted of the write. -/
theorem writeLoc_dev_clean {s : State} {a : Nat} {bs : List Byte} (t : Report) (hm : Memory.wf s.mem = true)
    (h : poisonAt s (.dev a) bs.length = false) :
    ∃ w sc, writeLoc s t (.dev a) bs = { s with mem := memWrite s.mem a bs, wrote := w, scrubs := sc } := by
  by_cases hb : bs = []
  · subst hb
    exact ⟨_, _, rfl⟩
  · rw [writeLoc_dev hb, writeDev_clean hm (clean_of_poisonAt h)]
    exact ⟨_, _, rfl⟩

/-- A request's bytes written at one place of device memory. -/
theorem putPlaces_dev {s : State} {a : Nat} {bs : List Byte} (k : Nat) (hm : Memory.wf s.mem = true)
    (h : poisonAt s (.dev a) bs.length = false) : ∃ w sc, putPlaces s k [(.dev a, bs.length)] bs =
      ({ s with mem := memWrite s.mem a bs, wrote := w, scrubs := sc }, true) := by
  obtain ⟨w, sc, hw⟩ := writeLoc_dev_clean (s := { s with reports := [] }) noTag hm h
  refine ⟨w, sc, ?_⟩
  simp only [putPlaces, List.foldl_cons, List.foldl_nil, isFab, Bool.false_eq_true, if_false, List.take_length, hw]
  rfl

theorem answerPart_last {s : State} {n : Nat} (h : ∀ o ∈ s.fabOps, ∀ bad, o.why ≠ .incoming n bad) (o : Out) :
    answerPart s n false o = answer s o := by
  have hany : (s.fabOps.any fun x => match x.why with | .incoming m _ => decide (m = n) | _ => false) = false := by
    refine List.any_eq_false.2 fun x hx => ?_
    cases hw : x.why with
    | incoming m bad =>
      have hne : m ≠ n := fun e => h x hx bad (e ▸ hw)
      simp only [hne, decide_false, Bool.false_eq_true, not_false_eq_true]
    | _ => exact Bool.false_ne_true
  exact if_neg (fun hx => Bool.false_ne_true (hany.symm.trans hx))

theorem requestsActOnMemory : RequestsActOnMemory := by
  intro s r ctx va a n hn
  refine ⟨fun data hl hwin hplace hclean hwf hours => ?_, fun hwin hplace => ⟨fun hclean => ?_, fun hbad => ?_⟩⟩
  · subst hl
    obtain ⟨hm, -, -⟩ := homesWf_iff.1 hwf
    obtain ⟨w, sc, hput⟩ := putPlaces_dev (s := { s with nextId := s.nextId + 1 }) s.nextId hm hclean
    have hstep : exec (.rmaWrite r data) s = .next (answer { s with
        nextId := s.nextId + 1, mem := memWrite s.mem a data, wrote := w, scrubs := sc } .rmaOk) := by
      change execRmaWrite r data s = _
      simp only [execRmaWrite, serveWrite, hwin, hplace, hput, Bool.not_true]
      exact congrArg Host.Outcome.next (answerPart_last (s := { s with
        nextId := s.nextId + 1, mem := memWrite s.mem a data, wrote := w, scrubs := sc }) hours .rmaOk)
    exact ⟨_, hstep, rfl, memRead_memWrite a data hm, rfl, rfl, rfl, fun b hb => memGet_memWrite_other a b data hm hb⟩
  · change execRmaRead r n s = _
    simp only [execRmaRead, serveRead, hwin, hplace, List.any_cons, List.any_nil, readFails, hclean, Bool.or_false,
      Bool.false_eq_true, if_false, List.flatMap_cons, List.flatMap_nil, isFab, readLoc, List.append_nil]
    rfl
  · change execRmaRead r n s = _
    simp only [execRmaRead, serveRead, hwin, hplace, List.any_cons, List.any_nil, readFails, hbad, Bool.true_or, if_true]
    rfl

/-! ## Incoming atomics (R363, R368, R372) -/

/-- The width of an incoming atomic. -/
theorem wide_bytes (wide : Bool) : (if wide then Size.b64 else .b32).bytes = if wide then 8 else 4 := by cases wide <;> rfl

section
variable {s : State} {r : Req} {ctx : Fin 64} {va : Nat} {op : RmaOp} {wide fetch : Bool} {val cmp : Word64} {i : Instr}

theorem serveAtomic_misaligned (hf : fetch = true ∨ nonFetching op = true)
    (hwin : matchWindow s r (if wide then 8 else 4) true = some (ctx, va)) (h : va % (if wide then 8 else 4) ≠ 0) :
    serveAtomic s r op wide fetch val cmp i = answer s .rmaErr := by
  have hgo : (!fetch && !nonFetching op) = false := by rcases hf with h | h <;> simp [h]
  simp only [serveAtomic, hgo, hwin, Bool.false_eq_true, if_false]
  exact if_pos (bne_iff_ne.2 h)

/-- The answer to an atomic performed at the device. -/
def atomAnswered (s : State) (fetch : Bool) : State × Option Word64 → State
  | (t, none) => answer { t with reports := s.reports } .rmaErr
  | (t, some old) => answer t (if fetch then .atomOld old else .rmaOk)

/-- An aligned atomic acts at its place. -/
theorem serveAtomic_aligned {l : Loc} {m : Nat} (hf : fetch = true ∨ nonFetching op = true)
    (hwin : matchWindow s r (if wide then 8 else 4) true = some (ctx, va)) (h : va % (if wide then 8 else 4) = 0)
    (hp : inPlaces s ctx .inW ((if wide then 8 else 4) + 1) va (if wide then 8 else 4) = .ok [(l, m)]) :
    serveAtomic s r op wide fetch val cmp i =
      if isFab l then sendFab { s with nextId := s.nextId + 1 } l
        (.atomic (rmaAtom op).1 (rmaAtom op).2 (if wide then .b64 else .b32) (if op = .cas then cmp else val)
          (if op = .cas then val else 0) fetch) (.incoming s.nextId false)
      else atomAnswered s fetch (rmw s noTag l (rmaAtom op).1 (rmaAtom op).2 (if wide then .b64 else .b32)
        (if op = .cas then cmp else val) (if op = .cas then val else 0)) := by
  have hgo : (!fetch && !nonFetching op) = false := by rcases hf with h | h <;> simp [h]
  have hal : (va % (if wide then 8 else 4) != 0) = false := by rw [h]; rfl
  simp only [serveAtomic, hgo, hwin, hal, hp, Bool.false_eq_true, if_false]
  cases op <;> rfl

/-- An atomic on a sound word of device memory: the new value is there, and the answer is the old one, or that it is done. -/
theorem serveAtomic_performed {a n : Nat} (hf : fetch = true ∨ nonFetching op = true) (hn : n = if wide then 8 else 4)
    (hwin : matchWindow s r n true = some (ctx, va)) (h : va % n = 0)
    (hp : inPlaces s ctx .inW (n + 1) va n = .ok [(.dev a, n)]) (hclean : poisonAt s (.dev a) n = false) (hwf : s.homesWf = true) :
    memRead (serveAtomic s r op wide fetch val cmp i).mem a n = leBytes n (atomNew (rmaAtom op).1 (rmaAtom op).2 (8 * n)
      (memNat s.mem a n) (if op = .cas then cmp else val).toNat (if op = .cas then val else 0).toNat) ∧
    (serveAtomic s r op wide fetch val cmp i).out =
      s.out ++ [if fetch then .atomOld (BitVec.ofNat 64 (memNat s.mem a n)) else .rmaOk] ∧
    ∀ b, (b < a ∨ a + n ≤ b) → memGet (serveAtomic s r op wide fetch val cmp i).mem b = memGet s.mem b := by
  obtain ⟨hm, -, -⟩ := homesWf_iff.1 hwf
  have hsize : (if wide then Size.b64 else .b32).bytes = n := (wide_bytes wide).trans hn.symm
  subst hn
  have hrmw := rmw_clean noTag (rmaAtom op).1 (rmaAtom op).2 (if op = .cas then cmp else val) (if op = .cas then val else 0) false
    (show poisonAt s (.dev a) (if wide then Size.b64 else .b32).bytes = false by rw [hsize]; exact hclean)
  rw [hsize] at hrmw
  have hlen (x : Nat) : (leBytes (if wide then 8 else 4) x).length = if wide then 8 else 4 := leBytes_length _ _
  obtain ⟨w, sc, hw⟩ := writeLoc_dev_clean (bs := leBytes (if wide then 8 else 4) (atomNew (rmaAtom op).1 (rmaAtom op).2
    (8 * if wide then 8 else 4) (memNat s.mem a (if wide then 8 else 4)) (if op = .cas then cmp else val).toNat
    (if op = .cas then val else 0).toNat)) noTag hm (by rw [hlen]; exact hclean)
  have hstep := (serveAtomic_aligned (val := val) (cmp := cmp) (i := i) hf hwin h hp).trans (if_neg Bool.false_ne_true)
  rw [hrmw] at hstep
  rw [hstep, atomAnswered, readLoc, ← memNat, hw]
  refine ⟨?_, rfl, fun b hb => memGet_memWrite_other _ _ _ hm (by rw [hlen]; exact hb)⟩
  have hr := memRead_memWrite a (leBytes (if wide then 8 else 4) (atomNew (rmaAtom op).1 (rmaAtom op).2
    (8 * if wide then 8 else 4) (memNat s.mem a (if wide then 8 else 4)) (if op = .cas then cmp else val).toNat
    (if op = .cas then val else 0).toNat)) hm
  rwa [hlen] at hr

end

theorem atomicRequestsAct : AtomicRequestsAct := by
  refine ⟨fun s r op wide val hop => ?_, fun s r ctx va a op wide val cmp n hn hwin => ⟨fun h => ⟨?_, fun hf => ?_⟩,
    fun h c e x m hp => ?_, fun h hp hclean hwf old b1 b2 hold hb1 hb2 => ⟨?_, fun hf => ?_⟩⟩⟩
  · change execAtomicNonFetching r op wide val s = _
    have hno : nonFetching op = false := by rcases hop with rfl | rfl <;> rfl
    simp only [execAtomicNonFetching, serveAtomic, hno, Bool.not_false, Bool.and_self, if_true]
    exact congrArg (fun l => Host.Outcome.next { logErr s (errEvent .port (Config.port s.tick).val 6 0 0xFF 0 0) with
      out := l ++ [Out.rmaErr] }) (logErr_out s _)
  · subst hn
    exact congrArg Host.Outcome.next (serveAtomic_misaligned (.inl rfl) hwin h)
  · subst hn
    exact congrArg Host.Outcome.next (serveAtomic_misaligned (.inr hf) hwin h)
  · subst hn
    exact congrArg Host.Outcome.next ((serveAtomic_aligned (.inl rfl) hwin h hp).trans (if_pos rfl))
  · subst hold hb1 hb2
    obtain ⟨h1, h2, h3⟩ := serveAtomic_performed (val := val) (cmp := cmp) (i := .atomicFetching r op wide val cmp) (fetch := true)
      (.inl rfl) hn hwin h hp hclean hwf
    exact ⟨_, rfl, h1, h2, h3⟩
  · subst hold hb1 hb2
    obtain ⟨h1, h2, h3⟩ := serveAtomic_performed (val := val) (cmp := 0) (i := .atomicNonFetching r op wide val) (fetch := false)
      (.inr hf) hn hwin h hp hclean hwf
    have hcas : op ≠ .cas := by rintro rfl; cases hf
    rw [if_neg hcas, if_neg hcas] at h1 ⊢
    exact ⟨_, rfl, h1, h2, h3⟩

/-! ## Other requests (R363) -/

theorem othersAreTurnedAway : OthersAreTurnedAway := by
  refine fun s => ⟨fun code => ?_, rfl⟩
  have hlog := logErr_frame s (errEvent .port (Config.port s.tick).val 6 0 0xFF 0 0)
  have hstores := logErr_storesEq s (errEvent .port (Config.port s.tick).val 6 0 0xFF 0 0)
  refine ⟨answer (logErr s (errEvent .port (Config.port s.tick).val 6 0 0xFF 0 0)) .rmaErr, rfl, ?_, ?_, ?_⟩
  · exact fun a => ⟨congrArg (memGet · a) hstores.mem, congrArg (memGet · a) hstores.span, congrArg (memGet · a) hstores.lineVer⟩
  · exact congrArg (· ++ [Out.rmaErr]) (logErr_out s _)
  · exact congrArg (fun t : State => { t with 
      out := (logErr s (errEvent .port (Config.port s.tick).val 6 0 0xFF 0 0)).out ++ [Out.rmaErr] }) hlog

/-- Settles O56: outgoing operations by what asked for them, incoming ones by their window and their place. -/
theorem fabricAnswersAndRequests : Obligations.FabricAnswersAndRequests :=
  ⟨answersArrive, failuresAreReported, windowsAdmit, requestsActOnMemory, atomicRequestsAct, othersAreTurnedAway⟩

end Sys2Proof.Machine

/-! # Repair, boot, firmware, calibration and the arbiter (R244, R276, R364 to R366, R432 to R437, R445, R446) -/

namespace Sys2Proof.Machine

open Sys2Proof Sys2Proof.Claims

/-! ## Ports (R364 to R366) -/

/-- The widths of a port, with the lanes that each uses. -/
def portWidths : List (BitVec 2 × BitVec 4) := [(3, 0xF), (2, 0x3), (2, 0xC), (1, 1), (1, 2), (1, 4), (1, 8)]

theorem widest_down (r : BitVec 4) : ((widest r).2 != 0) = false ↔ r = 0xF := by
  revert r
  decide

theorem widest_free (r : BitVec 4) : (widest r).1 &&& r = 0 := by
  revert r
  decide

theorem widest_width (r : BitVec 4) : ((widest r).2, (widest r).1) ∈ portWidths ++ [(0, 0)] := by
  revert r
  decide

theorem widest_widest (r : BitVec 4) : ∀ x ∈ portWidths, x.2 &&& r = 0 → x.1.toNat ≤ (widest r).2.toNat := by
  revert r
  decide

theorem counted_to_63 (n : BitVec 6) : (if n = 63 then 63 else n + 1).toNat = min 63 (n.toNat + 1) := by
  revert n
  decide

theorem lanesRetire : LanesRetire := by
  refine ⟨fun s port lane => ⟨fun h => ?_, fun h => ?_⟩, fun s port => ⟨fun h => ?_, fun h => ?_⟩⟩
  · change execLaneRetire port lane s = _
    simp only [execLaneRetire, h, if_true]
  · refine ⟨logErr s (errEvent .port port.val 4 0 lane.val 0 0),
      { s.ports[port] with
          retired := s.ports[port].retired ||| BitVec.ofNat 4 (2 ^ lane.val), active := 0, width := 0
          training := (widest (s.ports[port].retired ||| BitVec.ofNat 4 (2 ^ lane.val))).2 != 0 },
      logErr_frame _ _, ?_, rfl, rfl, rfl, rfl, widest_down _⟩
    change execLaneRetire port lane s = _
    simp only [execLaneRetire, h, Bool.false_eq_true, if_false]
  · change execPortRetrainDone port s = _
    simp only [execPortRetrainDone, h, Bool.not_false, if_true]
  · refine ⟨{ s.ports[port] with
        active := (widest s.ports[port].retired).1, width := (widest s.ports[port].retired).2, training := false
        retrains := if s.ports[port].retrains = 63 then 63 else s.ports[port].retrains + 1 },
      ?_, rfl, rfl, counted_to_63 _, widest_free _, widest_width _, fun w a hwa => widest_widest _ (w, a) hwa⟩
    change execPortRetrainDone port s = _
    simp only [execPortRetrainDone, h, Bool.not_true, Bool.false_eq_true, if_false]

/-! ## Scrubs and channels (R432 to R434) -/

theorem countChannel_hbmStacks {s t : State} (h : t.hbmStacks = s.hbmStacks) (pa : Nat) (c : Bool) :
    (countChannel t pa c).hbmStacks = (countChannel s pa c).hbmStacks := by
  simp only [countChannel, h]

theorem logErr_scrubs (s : State) (e : ErrEvent) : (logErr s e).scrubs = s.scrubs := by rw [logErr_frame]

/-- What one error makes of the channels that are due for retirement. -/
theorem mem_due_iff {due : List (Fin 32)} {ch d : Fin 32} {bad : Bool} :
    d ∈ (if bad && !due.contains ch then due ++ [ch] else due) ↔ d ∈ due ∨ d = ch ∧ bad = true := by
  by_cases h : (bad && !due.contains ch) = true
  · rw [if_pos h, List.mem_append, List.mem_singleton]
    rw [Bool.and_eq_true] at h
    simp only [h.1, and_true]
  · rw [if_neg h]
    refine ⟨.inl, fun hd => hd.elim id ?_⟩
    rintro ⟨rfl, ho⟩
    rw [ho, Bool.true_and, Bool.not_eq_true', Bool.not_eq_false, List.contains_iff_mem] at h
    exact h

theorem scrubs : Scrubs := by
  refine ⟨fun s pa => ⟨rfl, ⟨logErr s (hbmEvent 0 pa 0), logErr_frame _ _, ?_⟩, ?_, rfl⟩, fun s pa corrected st ch x hst hch hx => ?_⟩
  · change execPatrolScrub pa .corrected s = _
    exact congrArg (fun l : List Scrub => Host.Outcome.next { countChannel (logErr s (hbmEvent 0 pa 0)) pa true with
      scrubs := { granule := pa / 32, dropped := false } :: l.filter (·.granule != pa / 32) }) (logErr_scrubs s _)
  · refine ⟨countChannel (poisonGranule (logErr s (hbmEvent 2 pa 0)) (pa / 32)) pa false, rfl, ?_, ?_, ?_, ?_⟩
    · have hstores := logErr_storesEq s (hbmEvent 2 pa 0)
      exact fun a => ⟨congrArg (memGet · a) hstores.mem, congrArg (memGet · a) hstores.span, congrArg (memGet · a) hstores.lineVer⟩
    · exact (poisonGranule_bad _ _).1
    · exact countChannel_hbmStacks (logErr_hbmStacks s _) _ _
    · exact fun g hg => ((poisonGranule_bad _ _).2 g hg).trans (by rw [logErr_badGranules])
  · have hst' : (Fin.ofNat 8 (stackOf pa)) = st := Fin.ext hst.symm
    subst hst' hch hx
    refine ⟨_, rfl, rfl, rfl, mem_due_iff.trans ?_, fun d hd => mem_due_iff.trans ?_⟩
    · simp only [true_and, Bool.or_eq_true, Bool.not_eq_true', decide_eq_true_eq, Fin.getElem_fin, Vector.getElem_set_self]
    · simp only [hd, false_and, or_false]

theorem channelsRetire : ChannelsRetire := by
  intro s k ch x hx x0
  subst hx
  change (_ → execChannelRetire k ch s = _) ∧ (_ → (_ → execChannelRetire k ch s = _) ∧ (_ → ∃ s1, _ ∧ execChannelRetire k ch s = _)) ∧
    (_ → execChannelCopyComplete k ch s = _) ∧ (_ → execChannelCopyComplete k ch s = _)
  have hc (h : ch ∉ s.hbmStacks[k].copying) : s.hbmStacks[k].copying.contains ch = false := by simpa using h
  refine ⟨fun h => ?_, fun h => ⟨fun h0 => ?_, fun h0 => ⟨logErr s (errEvent .hbm k.val 3 0 ch.val 0 0), logErr_frame _ _, ?_⟩⟩,
    fun h => ?_, fun h => ?_⟩
  · simp only [execChannelRetire, List.contains_iff_mem.2 h, if_true]
    rfl
  · exact (if_neg (by rw [hc h]; exact Bool.false_ne_true)).trans (if_pos h0)
  · simp only [execChannelRetire, hc h, h0, Bool.false_eq_true, if_false, logErr_hbmStacks]
    rfl
  · simp only [execChannelCopyComplete, hc h, Bool.not_false, if_true]
  · simp only [execChannelCopyComplete, List.contains_iff_mem.2 h, Bool.not_true, Bool.false_eq_true, if_false]

/-! ## Spare cores (R244, R435, R445) -/

/-- What a filter by address leaves of a memory in canonical form. -/
theorem memGet_filter {m : Mem} (hm : Memory.wf m = true) (p : Nat → Bool) (a : Nat) :
    memGet (m.filter fun c => p c.1) a = if p a then memGet m a else 0 := by
  induction m with
  | nil => simp only [List.filter_nil, memGet, ite_self]
  | cons c r ih =>
    obtain ⟨b, w⟩ := c
    have ih := ih (wf_tail hm)
    have hbefore (h : a ≤ b) : memGet r a = 0 := memGet_before fun c hc => lt_of_le_of_lt h (wf_lt hm c hc)
    by_cases hab : a = b
    · subst hab
      cases hp : p a with
      | true => rw [List.filter_cons, if_pos hp, memGet, memGet, if_pos rfl, if_pos rfl, if_pos rfl]
      | false => rw [List.filter_cons, if_neg (by simp [hp]), ih, hp, if_neg Bool.false_ne_true, if_neg Bool.false_ne_true]
    · have hstep : memGet ((b, w) :: r) a = memGet r a := by
        rw [memGet, if_neg hab]
        split
        · next h => exact (hbefore h.le).symm
        · rfl
      cases hp : p b with
      | true =>
        rw [List.filter_cons, if_pos hp, hstep, ← ih, memGet, if_neg hab]
        split
        · next h => rw [ih, hbefore h.le, ite_self]
        · rfl
      | false => rw [List.filter_cons, if_neg (by simp [hp]), hstep, ih]

theorem spanRangeCleared_reads {s : State} {off : Nat} (hm : Memory.wf s.span = true) :
    ((∀ r ∈ s.spanRanges, ¬(r.off = off ∧ r.clearing = true)) → exec (.spanRangeCleared off) s = .next s) ∧
    ∀ r, s.spanRanges.find? (fun r => r.off = off && r.clearing) = some r → ∃ t,
      exec (.spanRangeCleared off) s = .next t ∧ t.spanRanges = s.spanRanges.filter (· != r) ∧
      (∀ c ∈ t.cells, ∀ o, c.loc = .span o → ¬(r.off ≤ o ∧ o < r.off + r.len)) ∧
      ∀ a, memGet t.span a = if r.off ≤ a ∧ a < r.off + r.len then 0 else memGet s.span a := by
  change (_ → execSpanRangeCleared off s = _) ∧ ∀ r, _ → ∃ t, execSpanRangeCleared off s = _ ∧ _
  refine ⟨fun h => ?_, fun r hr => ?_⟩
  · have hfind : s.spanRanges.find? (fun r => decide (r.off = off) && r.clearing) = none :=
      List.find?_eq_none.2 fun r hr => by
        rw [Bool.and_eq_true, decide_eq_true_eq]
        exact h r hr
    simp only [execSpanRangeCleared, hfind]
  · refine ⟨_, by simp only [execSpanRangeCleared, hr]; rfl, rfl, fun c hc o ho => ?_, fun a => ?_⟩
    · have := (List.mem_filter.1 hc).2
      rw [ho] at this
      simp only [Bool.not_eq_true', Bool.and_eq_false_iff, decide_eq_false_iff_not] at this
      omega
    · refine (memGet_filter hm (fun x => !(decide (r.off ≤ x) && decide (x < r.off + r.len))) a).trans ?_
      by_cases h : r.off ≤ a ∧ a < r.off + r.len
      · simp [h]
      · rw [if_neg h, if_pos]
        simp only [Bool.not_eq_true', Bool.and_eq_false_iff, decide_eq_false_iff_not]
        omega

theorem coresAreReplaced : CoresAreReplaced := by
  refine ⟨fun s c => ⟨fun h h1 => ?_, fun sp r h h1 => ?_, fun h => ?_, fun h => ?_, fun sp h h1 => ?_, fun qid h => ?_⟩,
    fun s off hm => spanRangeCleared_reads hm⟩
  · change execSpareTakeover c s = _
    simp only [execSpareTakeover, h, h1]
  · change execSpareTakeover c s = _
    simp only [execSpareTakeover, h, h1]
  · change execSpareTakeover c s = _
    obtain ⟨sp, hsp⟩ := Option.ne_none_iff_exists'.1 h
    simp only [execSpareTakeover, hsp, List.isEmpty_iff]
    split <;> rfl
  · change execSpanSliceCopyComplete c s = _
    cases hk : s.cores[c].takeover with
    | none => simp only [execSpanSliceCopyComplete, hk]
    | some sp => simp only [execSpanSliceCopyComplete, hk, h.resolve_left (by rw [hk]; exact Option.some_ne_none sp), Bool.not_false, if_true]
  · refine ⟨logErr s (errEvent .regs c.val 5 0 0xFF 0 0), logErr_frame _ _, Config.digest s.tick, ?_⟩
    intro mine
    change execSpanSliceCopyComplete c s = _
    simp only [execSpanSliceCopyComplete, h, h1, Bool.not_true, Bool.false_eq_true, if_false]
    exact congrArg (fun t : State => Host.Outcome.next { modCore (logErr s (errEvent .regs c.val 5 0 0xFF 0 0)) c (fun _ => { Core.reset with phys := sp + 1 }) with
        measures := t.measures.set 3 (Config.digest s.tick)
        agenda := ((t.migHeld.filter mine).map fun (h : Nat × Nat × Held) => Move.resume h.1 h.2.1 h.2.2) ++ t.agenda
        migHeld := t.migHeld.filter fun h => !mine h }) (logErr_frame s _)
  · obtain ⟨sp, hsp⟩ := Option.ne_none_iff_exists'.1 h
    simp only [coreOpen, hsp, Option.isNone_some, Bool.false_and]

/-! ## The boot (R276, R436, R445) -/

/-- The nearer of two spares, the first of two that are equally near. -/
def nearerTo (c : Nat) (a : Option Nat) (k : Nat) : Option Nat :=
  match a with
  | none => some k
  | some x => if hopsTo c k < hopsTo c x then some k else some x

theorem foldl_nearerTo (c : Nat) (ks : List Nat) (x : Nat) : ∃ k, ks.foldl (nearerTo c) (some x) = some k ∧ (k = x ∨ k ∈ ks) ∧
    hopsTo c k ≤ hopsTo c x ∧ ∀ y ∈ ks, hopsTo c k ≤ hopsTo c y := by
  induction ks generalizing x with
  | nil => exact ⟨x, rfl, .inl rfl, le_rfl, nofun⟩
  | cons z ks ih =>
    by_cases h : hopsTo c z < hopsTo c x
    · obtain ⟨k, hk, hmem, hle, hall⟩ := ih z
      refine ⟨k, (congrArg (List.foldl (nearerTo c) · ks) (if_pos h)).trans hk, .inr ?_, hle.trans h.le, ?_⟩
      · exact hmem.elim (fun e => e ▸ List.mem_cons_self) (List.mem_cons_of_mem _)
      · exact List.forall_mem_cons.2 ⟨hle, hall⟩
    · obtain ⟨k, hk, hmem, hle, hall⟩ := ih x
      refine ⟨k, (congrArg (List.foldl (nearerTo c) · ks) (if_neg h)).trans hk, hmem.imp_right (List.mem_cons_of_mem _), hle, ?_⟩
      exact List.forall_mem_cons.2 ⟨hle.trans (not_lt.1 h), hall⟩

/-- Where there is a spare, one is the nearest. -/
theorem nearestSpare_spec (c : Nat) {ks : List Nat} (h : ks ≠ []) :
    ∃ k, nearestSpare c ks = some k ∧ k ∈ ks ∧ ∀ x ∈ ks, hopsTo c k ≤ hopsTo c x := by
  obtain ⟨z, ks, rfl⟩ := List.exists_cons_of_ne_nil h
  obtain ⟨k, hk, hmem, hle, hall⟩ := foldl_nearerTo c ks z
  exact ⟨k, hk, hmem.elim (fun e => e ▸ List.mem_cons_self) (List.mem_cons_of_mem _), List.forall_mem_cons.2 ⟨hle, hall⟩⟩

theorem coresAreTested : CoresAreTested := by
  refine fun s c => ⟨fun h => ?_, fun h => ?_⟩
  · rw [testCore, h]
    exact ite_self s
  · obtain ⟨k, hk, hmem, hall⟩ := nearestSpare_spec c.val h
    refine ⟨k, hmem, hall, ?_⟩
    simp only [testCore, hk]
    cases Config.coreFails c.val <;> rfl

/-- The bytes of a bank once an image is written into it (R436). -/
theorem memGet_loadBank {m : Mem} (hm : Memory.wf m = true) (b : Fin 2) (bytes : List Byte) (a : Nat) :
    memGet (loadBank m b bytes) a = if a / 131072 = b.val then bytes.getD (a % 131072) 0 else memGet m a := by
  have hf := filter_wf (fun x => x.1 / bankSize != b.val) hm
  have hdiv := Nat.div_add_mod a 131072
  have hmod := Nat.mod_lt a (show 0 < 131072 by decide)
  have hlen : (bytes.take bankSize).length = min 131072 bytes.length := List.length_take
  have hmul : bankSize * b.val = 131072 * b.val := rfl
  rw [loadBank, memGet_memWrite _ _ _ hf, memGet_filter hm fun x => x / bankSize != b.val]
  by_cases h : a / 131072 = b.val
  · rw [h] at hdiv
    rw [if_pos h, List.getD_eq_getElem?_getD]
    by_cases hin : a % 131072 < bytes.length
    · have hat : a - bankSize * b.val = a % 131072 := by omega
      rw [dif_pos (by omega), List.getElem_take, List.getElem?_eq_getElem hin, Option.getD_some]
      simp only [hat]
    · have hoff : (a / bankSize != b.val) = false := bne_eq_false_iff_eq.2 h
      rw [dif_neg (by omega), hoff, if_neg Bool.false_ne_true, List.getElem?_eq_none (by omega), Option.getD_none]
  · have hon : (a / bankSize != b.val) = true := bne_iff_ne.2 h
    rw [if_neg h, dif_neg (by omega), hon, if_pos rfl]

theorem loadBank_wf {m : Mem} (hm : Memory.wf m = true) (b : Fin 2) (bytes : List Byte) : Memory.wf (loadBank m b bytes) = true :=
  memWrite_wf _ _ (filter_wf _ hm)

/-- A request outside a session is only counted. -/
theorem inSession_closed {s : State} {i : Fin 16} {f : Fin 16 → State}
    (h : ¬(s.boot = .up ∧ s.sessions[i].isOpen = true ∧ s.sessions[i].finished = true)) :
    inSession s i.val f = .next (logErr s (errEvent .session i.val 6 0 0xFF 0 0)) := by
  have hi : Fin.ofNat 16 i.val = i := Fin.ext (Nat.mod_eq_of_lt i.isLt)
  simp only [inSession, hi]
  refine if_neg fun hx => h ?_
  simp only [Bool.and_eq_true, decide_eq_true_eq, and_assoc] at hx
  exact ⟨hx.1, hx.2.2⟩

/-- The idle bank by its number. -/
theorem set_idle {α : Type} (v : Vector α 2) (b : Fin 2) (x : α) : v.set (1 - b : Fin 2).val x (1 - b).isLt = v.set (1 - b.val) x (by omega) := by
  have h : (1 - b : Fin 2).val = 1 - b.val := by
    revert b
    decide
  simp only [h]

theorem bootAndFirmware : BootAndFirmware := by
  refine ⟨fun s h => ⟨fun b hb => ?_, fun h0 h1 => ?_⟩, fun s h => ?_, fun s i image bytes ok => ?_⟩
  · refine ⟨Vector.ofFn fun i : Fin 5 => if i = 1 then s.banks[b].1 else Config.digest i.val, ?_, ?_⟩
    · change execPowerOn s = _
      rcases hb with ⟨h0, rfl⟩ | ⟨h0, h1, rfl⟩
      · simp only [execPowerOn, h, h0, if_true]
      · simp only [execPowerOn, h, h0, h1, Bool.false_eq_true, if_false, if_true]
    · simp
  · refine ⟨s.measures.set 0 (Config.digest 0), ?_, fun i hi => ?_⟩
    · change execPowerOn s = _
      simp only [execPowerOn, h, h0, h1, Bool.false_eq_true, if_false]
    · exact Vector.getElem_set_ne _ _ fun e => hi (Fin.ext e.symm)
  · change execPowerOn s = _
    cases hb : s.boot with
    | off => exact absurd hb h
    | _ => simp only [execPowerOn, hb]
  · intro fw
    change (_ → _ → _ → ∃ m, _ ∧ execFirmwareReplacement fw ok s = _) ∧ (_ → ∃ s1, _ ∧ execFirmwareReplacement fw ok s = _)
    refine ⟨fun hb ho hf => ?_, fun h => ⟨_, logErr_frame _ _, inSession_closed h⟩⟩
    refine ⟨loadBank s.tcm (1 - s.bank) bytes, fun hm => ⟨loadBank_wf hm _ _, memGet_loadBank hm _ _⟩, (inSession_open hb ho hf).trans ?_⟩
    have hset := set_idle s.banks s.bank (image, ok)
    cases ok with
    | true => exact congrArg (fun v => Host.Outcome.next { s with
        tcm := loadBank s.tcm (1 - s.bank) bytes, banks := v, bank := 1 - s.bank, measures := s.measures.set 1 image }) hset
    | false => exact congrArg (fun v => Host.Outcome.next { s with
        tcm := loadBank s.tcm (1 - s.bank) bytes, banks := v }) hset

/-! ## Calibration and the arbiter (R5, R294, R437, R446) -/

theorem giveGrant_frame (s : State) (b : Nat) :
    giveGrant s b = { s with matrixReqs := s.matrixReqs.filter (· != b), blocks := (giveGrant s b).blocks } := rfl

theorem foldl_giveGrant (l : List Nat) (s : State) : l.foldl giveGrant s =
    { s with matrixReqs := s.matrixReqs.filter (!l.contains ·), blocks := (l.foldl giveGrant s).blocks } := by
  induction l generalizing s with
  | nil =>
    have hall : s.matrixReqs.filter (fun x => !([] : List Nat).contains x) = s.matrixReqs := List.filter_true _
    simp only [List.foldl_nil, hall]
  | cons b l ih =>
    have hfilter : (s.matrixReqs.filter (· != b)).filter (!l.contains ·) = s.matrixReqs.filter (!(b :: l).contains ·) := by
      rw [List.filter_filter]
      refine List.filter_congr fun x _ => ?_
      rw [List.contains_cons, Bool.not_or, Bool.and_comm]
      rfl
    rw [List.foldl_cons, ih, giveGrant_frame, hfilter]

theorem topGrant_spec (fits : Nat → Bool) (n : Nat) : topGrant fits n ≤ n ∧
    (topGrant fits n = 0 ∨ fits (topGrant fits n) = true) ∧ ∀ k ≤ n, fits k = true → k ≤ topGrant fits n := by
  induction n with
  | zero => exact ⟨le_rfl, .inl rfl, fun k hk _ => hk⟩
  | succ n ih =>
    obtain ⟨hle, hfit, htop⟩ := ih
    rw [topGrant]
    by_cases h : fits (n + 1) = true
    · rw [if_pos h]
      exact ⟨le_rfl, .inr h, fun k hk _ => hk⟩
    · rw [if_neg h]
      refine ⟨hle.trans (Nat.le_succ n), hfit, fun k hk hf => ?_⟩
      rcases Nat.lt_or_eq_of_le hk with hk | rfl
      · exact htop k (Nat.lt_succ_iff.1 hk) hf
      · exact absurd hf h

/-- The base current and the HBM traffic in flight fit any budget of 1,200 W or more. -/
theorem powerFits_least {s : State} {h : Nat} (hb : 1200 ≤ s.pwrBudget.toNat) (hh : h ≤ 255) : powerFits s 0 0 h = true := by
  rw [powerFits, decide_eq_true_eq]
  omega

/-- The rate of the matrix arrays that the arbiter leaves. -/
def matrixGrant (s : State) : Nat := topGrant (fun x => powerFits s x 0 (leastHbm s)) 255

/-- The HBM traffic that it leaves, at most h beside the traffic in flight. -/
def hbmGrant (s : State) (h : Nat) : Nat :=
  topGrant (fun x => decide (x ≤ leastHbm s) || powerFits s (matrixGrant s) 0 x) (max h (leastHbm s))

/-- The vector issue that it leaves, at most v. -/
def vectorGrant (s : State) (v h : Nat) : Nat := topGrant (fun x => powerFits s (matrixGrant s) x (hbmGrant s h)) v

theorem divide_eq (s : State) (v h : Nat) : divide s v h = { s with
    mgrant := BitVec.ofNat 8 (matrixGrant s), vgrant := BitVec.ofNat 8 (vectorGrant s v h), hgrant := BitVec.ofNat 8 (hbmGrant s h) } := rfl

theorem leastHbm_le (s : State) : leastHbm s ≤ 255 := (Nat.min_le_left _ _).trans (Nat.lt_succ_iff.1 s.hgrant.isLt)

theorem matrixGrant_le (s : State) : matrixGrant s ≤ 255 := (topGrant_spec _ _).1

theorem hbmGrant_le {s : State} {h : Nat} (hh : h ≤ 255) : hbmGrant s h ≤ 255 :=
  (topGrant_spec _ _).1.trans (Nat.max_le.2 ⟨hh, leastHbm_le s⟩)

theorem vectorGrant_le {s : State} {v h : Nat} (hv : v ≤ 255) : vectorGrant s v h ≤ 255 := (topGrant_spec _ _).1.trans hv

theorem leastHbm_le_hbmGrant (s : State) (h : Nat) : leastHbm s ≤ hbmGrant s h :=
  (topGrant_spec _ _).2.2 _ (Nat.le_max_right _ _) (by rw [decide_eq_true le_rfl, Bool.true_or])

/-- The grants fit a budget of 1,200 W or more: each is lowered until it does, and the least of all three fit. -/
theorem grants_fit {s : State} (v h : Nat) (hb : 1200 ≤ s.pwrBudget.toNat) :
    powerFits s (matrixGrant s) (vectorGrant s v h) (hbmGrant s h) = true := by
  have hm : powerFits s (matrixGrant s) 0 (leastHbm s) = true := by
    rcases (topGrant_spec (fun x => powerFits s x 0 (leastHbm s)) 255).2.1 with e | hfit
    · rw [matrixGrant, e]
      exact powerFits_least hb (leastHbm_le s)
    · exact hfit
  have hge := leastHbm_le_hbmGrant s h
  have hh : powerFits s (matrixGrant s) 0 (hbmGrant s h) = true := by
    rcases (topGrant_spec (fun x => decide (x ≤ leastHbm s) || powerFits s (matrixGrant s) 0 x) (max h (leastHbm s))).2.1 with e | hfit
    · have hz : hbmGrant s h = leastHbm s := le_antisymm ((show hbmGrant s h = 0 from e).trans_le (Nat.zero_le _)) hge
      rw [hz]
      exact hm
    · rw [Bool.or_eq_true, decide_eq_true_eq] at hfit
      rcases hfit with hle | hfit
      · have hz : hbmGrant s h = leastHbm s := le_antisymm hle hge
        rw [hz]
        exact hm
      · exact hfit
  rcases (topGrant_spec (fun x => powerFits s (matrixGrant s) x (hbmGrant s h)) v).2.1 with e | hfit
  · rw [vectorGrant, e]
    exact hh
  · exact hfit

theorem calibrationAndArbiter : CalibrationAndArbiter := by
  refine ⟨fun s i tables hb ho hf => inSession_open hb ho hf, fun s p => rfl, fun s s1 hs1 => ?_⟩
  have hframe := foldl_giveGrant s.matrixReqs s
  rw [← hs1] at hframe
  have hnone : s1.matrixReqs = [] := by
    rw [hframe]
    exact List.filter_eq_nil_iff.2 fun x hx => by simp [hx]
  have hh : s1.hgrant = s.hgrant := by rw [hframe]
  have ht : s1.tick = s.tick := by rw [hframe]
  have hp : s1.pwrBudget = s.pwrBudget := by rw [hframe]
  have hbyte {x : Nat} (hx : x ≤ 255) : (BitVec.ofNat 8 x).toNat = x := by
    rw [BitVec.toNat_ofNat]
    exact Nat.mod_eq_of_lt (Nat.lt_succ_of_le hx)
  have hv := Nat.lt_succ_iff.1 (Config.vgrant s.tick).isLt
  have hh1 := Nat.lt_succ_iff.1 (Config.hgrant s.tick).isLt
  refine ⟨hnone, BitVec.ofNat 8 (matrixGrant s1),
    BitVec.ofNat 8 (vectorGrant s1 (Config.vgrant s.tick).toNat (Config.hgrant s.tick).toNat),
    BitVec.ofNat 8 (hbmGrant s1 (Config.hgrant s.tick).toNat), Config.draw s.tick, ?_, ?_, fun hb => ?_⟩
  · change execArbiterEpoch s = _
    rw [execArbiterEpoch]
    simp only [← hs1, divide_eq]
  · rw [hbyte (hbmGrant_le hh1), ← hh, ← ht]
    exact leastHbm_le_hbmGrant s1 _
  · rw [hbyte (matrixGrant_le s1), hbyte (vectorGrant_le hv), hbyte (hbmGrant_le hh1)]
    exact grants_fit _ _ (by rwa [hp])

/-- Settles O57: ports and channels by their counters, cores and boots by what a test or a copy finds, grants by the largest that fit. -/
theorem repairPowerAndBoot : Obligations.RepairPowerAndBoot :=
  ⟨lanesRetire, scrubs, channelsRetire, coresAreReplaced, coresAreTested, bootAndFirmware, calibrationAndArbiter⟩

end Sys2Proof.Machine

/-! # The general request block (R328, R329, R365, R404 to R406, R419, R442, R450) -/

namespace Sys2Proof.Machine

open Sys2Proof Sys2Proof.Claims

/-! ## Requests in their order (R450) -/

theorem endReq_cons {s : State} {r : GenReq} {rest : List GenReq} {result : BitVec 8} (h : s.requests = r :: rest) :
    (r.session = none → endReq s result = { s with requests := rest }) ∧
    ∀ i, r.session = some i → endReq s result = modSession { s with requests := rest } i fun x =>
      { x with reqBusy := false, reqDone := x.reqDone + 1, reqResult := result } := by
  refine ⟨fun hn => ?_, fun i hi => ?_⟩
  · simp only [endReq, h, hn]
  · simp only [endReq, h, hi]

theorem requestEnds : RequestEnds := fun _ _ _ _ h => ⟨(endReq_cons h).1, (endReq_cons h).2⟩

theorem onReq_nil {s : State} {c : BitVec 8} {f : GenReq → State} (h : s.requests = []) : onReq s c f = .next s := by
  simp only [onReq, h]

theorem onReq_other {s : State} {c : BitVec 8} {f : GenReq → State} {r : GenReq} {rest : List GenReq} (h : s.requests = r :: rest)
    (hc : r.code ≠ c) : onReq s c f = .next s := by
  simp only [onReq, h, hc, if_false]

theorem onReq_first {s : State} {c : BitVec 8} {f : GenReq → State} {r : GenReq} {rest : List GenReq} (h : s.requests = r :: rest)
    (hc : r.code = c) : onReq s c f = .next (f r) := by
  simp only [onReq, h, hc, if_true]

/-- What holds of every step of the request block. -/
theorem onReq_serves (s : State) (c : BitVec 8) (f : GenReq → State) : (∃ t, onReq s c f = .next t) ∧
    (s.requests = [] → onReq s c f = .next s) ∧ ∀ r rest, s.requests = r :: rest → r.code ≠ c → onReq s c f = .next s := by
  refine ⟨?_, onReq_nil, fun r rest => onReq_other⟩
  cases h : s.requests with
  | nil => exact ⟨_, onReq_nil h⟩
  | cons r rest =>
    by_cases hc : r.code = c
    · exact ⟨_, onReq_first h hc⟩
    · exact ⟨_, onReq_other h hc⟩

theorem requestsByCode : RequestsByCode := by
  intro s c i h
  simp only [List.mem_cons, List.not_mem_nil, or_false, Prod.mk.injEq] at h
  rcases h with ⟨rfl, rfl⟩ | ⟨rfl, rfl⟩ | ⟨rfl, rfl⟩ | ⟨rfl, rfl⟩ | ⟨rfl, rfl⟩ | ⟨rfl, rfl⟩
  all_goals exact onReq_serves s _ _

theorem beginReq_cons {s : State} {r : GenReq} {rest : List GenReq} (h : s.requests = r :: rest) :
    beginReq s = { s with requests := { r with started := true } :: rest } := by
  simp only [beginReq, h]

/-! ## Submission (R450) -/

/-- The request that a write of REQGO submits. -/
def submittedReq (s : State) (i : Fin 16) (v : Nat) : GenReq :=
  { session := some i, code := if v < 256 then BitVec.ofNat 8 v else 0, args := s.sessions[i].args, started := false }

theorem submitReq_idle {s : State} {i : Fin 16} {v : Nat} (hb : s.sessions[i].reqBusy = false) (hr : s.requests = []) :
    submitReq s i v = refuseUnknown 2 { modSession s i (fun x => { x with reqBusy := true }) with requests := [submittedReq s i v] } := by
  have hq : (modSession s i fun x => { x with reqBusy := true }).requests = [] := hr
  simp only [submitReq, hb, Bool.false_eq_true, if_false, hr, hq]
  rfl

theorem submittedReq_known {s : State} {i : Fin 16} {v : Nat} : knownCode (submittedReq s i v).code = true ↔ 1 ≤ v ∧ v ≤ 6 := by
  rw [knownCode, Bool.and_eq_true, decide_eq_true_eq, decide_eq_true_eq, submittedReq]
  by_cases h : v < 256
  · rw [if_pos h, BitVec.toNat_ofNat, Nat.mod_eq_of_lt h]
  · rw [if_neg h]
    simp only [BitVec.ofNat_eq_ofNat, BitVec.toNat_ofNat]
    omega

theorem refuseUnknown_known {s : State} {r : GenReq} {rest : List GenReq} (n : Nat) (h : s.requests = r :: rest)
    (hk : knownCode r.code = true) : refuseUnknown (n + 1) s = s := by
  simp only [refuseUnknown, h, hk, if_true]

theorem refuseUnknown_unknown {s : State} {r : GenReq} {rest : List GenReq} (n : Nat) (h : s.requests = r :: rest)
    (hk : knownCode r.code = false) : refuseUnknown (n + 1) s = refuseUnknown n (endReq s 1) := by
  simp only [refuseUnknown, h, hk, Bool.false_eq_true, if_false]

theorem refuseUnknown_nil {s : State} (n : Nat) (h : s.requests = []) : refuseUnknown n s = s := by
  cases n with
  | zero => rfl
  | succ n => simp only [refuseUnknown, h]

theorem requestsAreSubmitted : RequestsAreSubmitted := by
  intro s i v _ _ _
  refine ⟨fun h => ?_, fun h hr => ⟨fun h1 h6 => ?_, fun hv => ?_⟩⟩
  · change (submitReq s i v, true) = _
    rw [submitReq, if_pos h]
  · change (submitReq s i v, true) = _
    have hcode : submittedReq s i v = { session := some i, code := BitVec.ofNat 8 v, args := s.sessions[i].args, started := false } := by
      rw [submittedReq, if_pos (by omega)]
    rw [submitReq_idle h hr, refuseUnknown_known 1 rfl (submittedReq_known.2 ⟨h1, h6⟩), hcode]
    rfl
  · change (submitReq s i v, true) = _
    have hk : knownCode (submittedReq s i v).code = false :=
      Bool.eq_false_iff.2 fun hk => by have := submittedReq_known.1 hk; omega
    rw [submitReq_idle h hr, refuseUnknown_unknown 1 rfl hk, (endReq_cons rfl).2 i rfl, refuseUnknown_nil _ rfl, ← hr]
    simp only [modSession, Fin.getElem_fin, Vector.getElem_set_self, Vector.set_set]

/-! ## Queues (R328, R329, R442, R450) -/

theorem queuesRegister : QueuesRegister := by
  intro s r rest desc qid e ctx hr hc hd hq he hctx named bad
  have hstep : exec .registerQueue s = .next (if (decide (qid ≥ 4096) || desc % 64 != 0 || decide (desc ≥ 2 ^ 56) ||
        (getQueue s qid).isSome || s.queues.any fun q => decide (q.desc = desc)) = true then finishReq s 1
      else if s.queues.length ≥ 4096 then finishReq s 2
      else if (!ctxAdmits s ctx r.session) = true then finishReq s 5
      else finishReq (writeBounds { writeDesc s desc (if (poisonAt s (.dev desc) 64 || descBad e) = true then 2 else 0) with
          queues := s.queues ++ [newQueue qid desc e (if (poisonAt s (.dev desc) 64 || descBad e) = true then 2 else 0)] }
        (newQueue qid desc e (if (poisonAt s (.dev desc) 64 || descBad e) = true then 2 else 0)).level)
        (if (poisonAt s (.dev desc) 64 || descBad e) = true then 3 else 0)) := by
    rw [hctx, he, hd, hq]
    exact onReq_first hr hc
  have hnamed : (decide (qid ≥ 4096) || desc % 64 != 0 || decide (desc ≥ 2 ^ 56) || (getQueue s qid).isSome ||
      s.queues.any fun q => decide (q.desc = desc)) = true ↔ ¬named := by
    rw [← Bool.not_eq_false, not_iff_not]
    simp only [Bool.or_eq_false_iff, decide_eq_false_iff_not, bne_eq_false_iff_eq, List.any_eq_false, decide_eq_true_eq,
      Option.isSome_eq_false_iff, Option.isNone_iff_eq_none, not_le, ge_iff_le, and_assoc]
    rfl
  have hbad : (poisonAt s (.dev desc) 64 || descBad e) = true ↔ bad := by rw [Bool.or_eq_true]
  refine ⟨fun h => ?_, fun h h1 => ?_, fun h h1 h2 => ?_, fun h h1 h2 => ?_⟩
  · rw [hstep, if_pos (hnamed.2 h)]
  · rw [hstep, if_neg fun x => hnamed.1 x h, if_pos h1]
  · rw [hstep, if_neg fun x => hnamed.1 x h, if_neg (not_le.2 h1), if_pos (by rw [h2]; rfl)]
  · rw [hstep, if_neg fun x => hnamed.1 x h, if_neg (not_le.2 h1),
      if_neg (show ¬(!ctxAdmits s ctx r.session) = true by rw [h2]; exact Bool.false_ne_true)]
    simp only [hbad]

theorem queuesDeregister : QueuesDeregister := by
  intro s r rest qid hr hc hq
  have hstep : exec .deregisterQueue s = _ := onReq_first hr hc
  rw [← hq] at hstep
  refine ⟨fun h => ?_, fun q h => ⟨fun h1 h2 => ?_, fun h1 => ?_⟩⟩
  · rw [hstep]
    simp only [h]
  · rw [hstep]
    simp only [h, h1, h2, Bool.not_false, Bool.and_self, if_true]
  · intro s1
    have hgo : (!r.started && !ctxAdmits s q.ctx r.session) = false := by rcases h1 with h1 | h1 <;> simp [h1]
    simp only [h, hgo, Bool.false_eq_true, if_false] at hstep
    refine ⟨fun ⟨f, hf, hfr⟩ => ?_, fun hall => ?_⟩
    · have hn : ¬q.flights.all (·.retired) = true := fun hx => by
        have := List.all_eq_true.1 hx f hf
        rw [hfr] at this
        cases this
      rw [hstep, if_neg hn]
    · rw [hstep, if_pos (List.all_eq_true.2 hall)]

/-! ## Code (R404 to R406, R450) -/

theorem codeIsMoved {s : State} {r : GenReq} {rest : List GenReq} {ctx : Fin 64} {i old new : Nat} (hr : s.requests = r :: rest)
    (hc : r.code = 3) (ha : codeArgs r = some (ctx, i)) (hold : old = r.args[1].toNat) (hnew : new = r.args[2].toNat)
    (h1 : old < 2 ^ 56) (h2 : new < 2 ^ 56) (h3 : old % 64 = 0) (h4 : new % 64 = 0) (h5 : r.args[3].toNat < 2 ^ 32) :
    exec .moveCode s = .next (if (dirEnt s ctx i).isNone = true then finishReq s 4
      else if (!ctxAdmits s ctx r.session) = true then finishReq s 5
      else if s.ctxs[ctx].forward.length ≥ 256 then finishReq s 2
      else finishReq (writeDir (modCtx s ctx fun c => { c with forward := (old, i) :: s.ctxs[ctx].forward }) ctx i 8 (leBytes 7 new)) 0) := by
  have hstep : exec .moveCode s = _ := onReq_first hr hc
  rw [← hold, ← hnew] at hstep
  have hgo : (decide (old ≥ 2 ^ 56) || decide (new ≥ 2 ^ 56) || old % 64 != 0 || new % 64 != 0 || decide (r.args[3].toNat ≥ 2 ^ 32)) = false := by
    simp only [Bool.or_eq_false_iff, decide_eq_false_iff_not, bne_eq_false_iff_eq, not_le, ge_iff_le]
    exact ⟨⟨⟨⟨h1, h2⟩, h3⟩, h4⟩, h5⟩
  rw [hstep]
  simp only [ha, hgo, Bool.false_eq_true, if_false]

/-- The valid bit of a directory entry cleared, once nothing uses the entry (R405). -/
def retiredAt (s : State) (ctx : Fin 64) (i : Nat) : State :=
  match auxNat s none ctx .load 1 (s.ctxs[ctx].dirBase.toNat + 32 * i + 6) with
  | .ok b => finishReq (writeDir s ctx i 6 [BitVec.ofNat 8 (b / 2 * 2)]) 0
  | .error _ => finishReq s 4

theorem versionRetires {s : State} {r : GenReq} {rest : List GenReq} {ctx : Fin 64} {i : Nat} (hr : s.requests = r :: rest)
    (hc : r.code = 4) (ha : codeArgs r = some (ctx, i)) :
    (dirEnt s ctx i = none → exec .retireVersion s = .next (finishReq s 4)) ∧
    ∀ e, dirEnt s ctx i = some e → exec .retireVersion s = .next (if (!e.valid) = true then finishReq s 4
      else if (!r.started && !ctxAdmits s ctx r.session) = true then finishReq s 5
      else if ((s.blocks.any fun blk => decide (blk.ctx = ctx) && blockLives blk && entryInUse i blk) || entryRequested s ctx i) = true
        then beginReq s
      else retiredAt s ctx i) := by
  have hstep : exec .retireVersion s = _ := onReq_first hr hc
  refine ⟨fun h => ?_, fun e h => ?_⟩
  · rw [hstep]
    simp only [ha, h]
  · rw [hstep]
    simp only [ha, h]
    rfl

theorem codeIsMovedAndRetired : CodeIsMovedAndRetired := by
  refine ⟨fun s r rest ctx i old new hr hc ha hold hnew h1 h2 h3 h4 h5 => ?_, fun s r rest ctx i hr hc ha => ?_⟩
  · have hstep := codeIsMoved hr hc ha hold hnew h1 h2 h3 h4 h5
    have hsome (h : dirEnt s ctx i ≠ none) : ¬(dirEnt s ctx i).isNone = true := fun hx => h (Option.isNone_iff_eq_none.1 hx)
    refine ⟨fun h => ?_, fun h ha => ?_, fun h ha => ⟨fun hf => ?_, fun hf => ?_⟩⟩
    · rw [hstep, if_pos (by rw [h]; rfl)]
    · rw [hstep, if_neg (hsome h), if_pos (by rw [ha]; rfl)]
    · rw [hstep, if_neg (hsome h), if_neg (by rw [ha]; exact Bool.false_ne_true), if_pos hf]
    · rw [hstep, if_neg (hsome h), if_neg (by rw [ha]; exact Bool.false_ne_true), if_neg (not_le.2 hf)]
      rfl
  · obtain ⟨hnone, hsome⟩ := versionRetires hr hc ha
    refine ⟨hnone, fun e he => ⟨fun hv => ?_, fun hv h1 h2 => ?_, fun hv h1 => ?_⟩⟩
    · rw [hsome e he, if_pos (by rw [hv]; rfl)]
    · rw [hsome e he, if_neg (by rw [hv]; exact Bool.false_ne_true), if_pos (by rw [h1, h2]; rfl)]
    · intro used
      have hused : ((s.blocks.any fun blk => decide (blk.ctx = ctx) && blockLives blk && entryInUse i blk) ||
          entryRequested s ctx i) = true ↔ used := by
        simp only [Bool.or_eq_true, List.any_eq_true, Bool.and_eq_true, decide_eq_true_eq, and_assoc]
        rfl
      have hgo : ¬(!r.started && !ctxAdmits s ctx r.session) = true := by rcases h1 with h1 | h1 <;> simp [h1]
      rw [hsome e he, if_neg (by rw [hv]; exact Bool.false_ne_true), if_neg hgo]
      refine ⟨fun hu => ?_, fun hu b hb => ?_⟩
      · rw [if_pos (hused.2 hu), beginReq_cons hr]
      · rw [if_neg fun x => hu (hused.1 x)]
        simp only [retiredAt, hb]

/-! ## Ports and nodes (R365, R419, R450) -/

theorem portsReset {s : State} {r : GenReq} {rest : List GenReq} {n : Fin 16} (hr : s.requests = r :: rest) (hc : r.code = 5) :
    (16 ≤ r.args[0].toNat → exec .resetPort s = .next (finishReq s 1)) ∧
    (r.args[0].toNat = n.val →
      (r.started = false → exec .resetPort s = .next { s with
        ports := s.ports.set n { retired := 0, active := 0, width := 0, retrains := 0, training := true }
        requests := { r with started := true } :: rest }) ∧
      (r.started = true → exec .resetPort s = .next (if s.ports[n].training then s else finishReq s 0))) := by
  have hstep : exec .resetPort s = _ := onReq_first hr hc
  refine ⟨fun h => ?_, fun h => ?_⟩
  · rw [hstep]
    exact congrArg Host.Outcome.next (if_pos h)
  · have hlt : ¬n.val ≥ 16 := not_le.2 n.isLt
    have hn : Fin.ofNat 16 n.val = n := Fin.ext (Nat.mod_eq_of_lt n.isLt)
    simp only [h, hlt, if_false, hn] at hstep
    refine ⟨fun h1 => ?_, fun h1 => ?_⟩
    · rw [hstep, h1, if_neg Bool.false_ne_true, beginReq_cons (s := { s with
        ports := s.ports.set n { retired := 0, active := 0, width := 0, retrains := 0, training := true } }) hr]
    · rw [hstep, h1, if_pos rfl]

theorem portsAndNodesEnd : PortsAndNodesEnd := by
  refine ⟨fun s r rest n hr hc => portsReset hr hc, fun s r rest a qid idx ctx hr hc ha hctx hq hi hb1 hb2 => ?_⟩
  have hstep : exec .endNode s = _ := onReq_first hr hc
  have hres : (bitsOf a 6 10 != 0 || bitsOf a 28 36 != 0) = false := by rw [hb1, hb2]; rfl
  rw [← ha, ← hi] at hstep
  simp only [hres, ← hctx, ← hq, Bool.false_eq_true, if_false] at hstep
  refine ⟨fun h hn => ?_, fun h n q hn hg => ⟨fun hx => ?_, fun hx ha => ?_, fun hx ha => ?_⟩, fun h q f hf => ?_⟩
  · rw [hstep]
    simp only [h, hn, Bool.false_eq_true, if_false]
  · rw [hstep]
    simp only [h, hn, hg, bne_iff_ne.2 hx, Bool.false_eq_true, if_false, if_true]
  · rw [hstep]
    simp only [h, hn, hg, hx, ha, bne_self_eq_false, Bool.not_false, Bool.false_eq_true, if_false, if_true]
  · rw [hstep]
    simp only [h, hn, hg, hx, ha, bne_self_eq_false, Bool.not_true, Bool.false_eq_true, if_false]
  · rw [hstep]
    simp only [h, hf, if_true]

/-- Settles O58: each request by the first of its checks that fails, or by its effect. -/
theorem generalRequests : Obligations.GeneralRequests :=
  ⟨requestEnds, requestsByCode, requestsAreSubmitted, queuesRegister, queuesDeregister, codeIsMovedAndRetired, portsAndNodesEnd⟩

end Sys2Proof.Machine

/-! # What a fault changes: blocks, cores, nodes, graphs and queues, and its record in memory (R197, R415 to R419) -/

namespace Sys2Proof.Machine

open Sys2Proof Sys2Proof.Claims

/-- The contexts of the queues. -/
def queueCtxs (s : State) : List (Fin 64) := s.queues.map (·.ctx)

/-- From s to t only the work changed: its blocks, cores, nodes, graphs and queues; the queues kept their contexts. -/
structure WorkOnly (s t : State) : Prop where
  eq : t = { s with blocks := t.blocks, cores := t.cores, nodes := t.nodes, graphs := t.graphs, queues := t.queues }
  ctxs : queueCtxs t = queueCtxs s

namespace WorkOnly

theorem refl (s : State) : WorkOnly s s := ⟨rfl, rfl⟩

theorem trans {s t u : State} (h : WorkOnly s t) (g : WorkOnly t u) : WorkOnly s u :=
  ⟨g.eq.trans (congrArg (fun t : State => { t with
    blocks := u.blocks, cores := u.cores, nodes := u.nodes, graphs := u.graphs, queues := u.queues }) h.eq), g.ctxs.trans h.ctxs⟩

/-- A fold of steps that change only the work. -/
theorem foldl {α : Type} {f : State → α → State} (hf : ∀ t x, WorkOnly t (f t x)) (l : List α) (s : State) : WorkOnly s (l.foldl f s) := by
  induction l generalizing s with
  | nil => exact refl s
  | cons x l ih => exact (hf s x).trans (ih _)

end WorkOnly

theorem modQueue_work (s : State) (q : Nat) {f : Queue → Queue} (hf : ∀ x, (f x).ctx = x.ctx) : WorkOnly s (modQueue s q f) := by
  refine ⟨rfl, ?_⟩
  simp only [queueCtxs, modQueue, List.map_map]
  refine List.map_congr_left fun x _ => ?_
  rw [Function.comp_apply]
  split
  · exact hf x
  · rfl

theorem abortFlight_work {s t : State} (h : WorkOnly s t) (q i : Nat) (code : BitVec 8) : WorkOnly s (abortFlight t q i code) :=
  h.trans (modQueue_work t q fun _ => rfl)

theorem unselect_work {s t : State} (h : WorkOnly s t) (n : Nat) : WorkOnly s (unselect n t) := by
  refine h.trans ⟨rfl, ?_⟩
  simp only [queueCtxs, unselect, List.map_map]
  refine List.map_congr_left fun x _ => ?_
  rw [Function.comp_apply]
  split
  · rfl
  · rfl

/-! ## Ends (R162, R192, R419) -/

theorem endWarp_work (s : State) (b w : Nat) : WorkOnly s (endWarp s b w) := ⟨rfl, rfl⟩

theorem endBlock_work (s : State) (b : Nat) : WorkOnly s (endBlock s b) := by
  rw [endBlock]
  split
  · exact .refl s
  · exact ⟨rfl, rfl⟩

theorem endBlocks_work (s : State) (p : Block → Bool) : WorkOnly s (endBlocks s p) := by
  refine .foldl (fun t b => ?_) _ s
  split
  · exact .refl t
  · split
    · exact endBlock_work t b
    · exact .refl t

theorem endNode_work (s : State) (n : Nat) (code : BitVec 8) : WorkOnly s (endNode s n code) := by
  rw [endNode]
  split
  · exact .refl s
  · refine (endBlocks_work s fun blk => blk.node = n).trans ?_
    dsimp only
    split
    · refine abortFlight_work ?_ _ _ _
      exact ⟨rfl, rfl⟩
    · exact ⟨rfl, rfl⟩

theorem endGraph_work (s : State) (g : Nat) (code : BitVec 8) : WorkOnly s (endGraph s g code) := by
  rw [endGraph]
  split
  · exact .refl s
  · next gr _ =>
    refine abortFlight_work ?_ _ _ _
    exact (WorkOnly.foldl (fun t n => endNode_work t n code) gr.nodes s).trans ⟨rfl, rfl⟩

theorem endCluster_work (s : State) (n c : Nat) : WorkOnly s (endCluster s n c) := by
  rw [endCluster]
  split
  · exact .refl s
  · exact endBlocks_work s _

theorem endAt_work (s : State) (f : FRec) (lvl : Nat) : WorkOnly s (endAt s f lvl) := by
  unfold endAt
  split
  · split
    · exact endWarp_work s _ _
    · exact .refl s
  · split
    · exact endBlock_work s _
    · exact .refl s
  · exact endCluster_work s _ _
  · exact endNode_work s _ _
  · split
    · exact endGraph_work s _ _
    · exact .refl s

/-! ## Retries and faults ignored (R197, R298) -/

theorem ignoreFault_work (s : State) (p : Party) (r : Raise) (nb : Bool) : WorkOnly s (ignoreFault s p r nb) := by
  cases p <;> exact ⟨rfl, rfl⟩

theorem retryAt_work (s : State) (f : FRec) (p : Party) (lvl : Nat) : WorkOnly s (retryAt s f p lvl) := by
  unfold retryAt
  split
  · split
    · exact ⟨rfl, rfl⟩
    · exact .refl s
  · split
    · exact .refl s
    · split
      · split
        · exact (endBlock_work s _).trans ⟨rfl, rfl⟩
        · exact (endCluster_work s _ _).trans ⟨rfl, rfl⟩
      · exact .refl s
  · split
    · exact .refl s
    · exact (endCluster_work s _ _).trans ⟨rfl, rfl⟩
  · refine unselect_work ?_ _
    exact (endBlocks_work s _).trans ⟨rfl, rfl⟩
  · split
    · exact .refl s
    · split
      · exact .refl s
      · next gr _ =>
        refine (WorkOnly.foldl (fun t n => ?_) gr.nodes s).trans ⟨rfl, rfl⟩
        refine unselect_work ?_ n
        exact (endBlocks_work t fun blk => blk.node = n).trans ⟨rfl, rfl⟩

/-- The policy that the walk takes at a level (R197, R418, R419). -/
def policyTaken (s : State) (f : FRec) (lvl : Nat) : BitVec 2 :=
  let administrative := f.r.code = .aborted || (f.r.code = .illegal && (f.r.cause = 2 || f.r.cause = 3))
  let pol0 : BitVec 2 := if administrative then 2 else policyAt s f lvl
  let pol1 : BitVec 2 := if pol0 = 1 && (retriesAt s f lvl ≥ 3 || (lvl = 0 && !f.stands)) then 2 else pol0
  let inGraph := ((s.nodes[f.node]?).bind (·.graph)).isSome
  if pol1 = 3 && (lvl ≥ 4 || (lvl = 3 && !inGraph)) then 2 else pol1

/-- The level above one, where a node's clusters are of one block or of more. -/
def levelAbove (s : State) (f : FRec) (lvl : Nat) : Nat :=
  let cl := match s.nodes[f.node]? with | none => 1 | some nd => nd.kd.cluster
  if lvl = 1 && cl ≤ 1 then 3 else lvl + 1

theorem walk_succ (p : Party) (nb : Bool) (f : FRec) (fuel lvl : Nat) (s : State) : walk p nb f (fuel + 1) lvl s =
    if policyTaken s f lvl = 3 then walk p nb f fuel (levelAbove s f lvl) (endAt s f lvl)
    else if policyTaken s f lvl = 2 then
      { s := endAt s f lvl, stopped := lvl, action := 2, suppressed := false, retry := retriesAt s f lvl }
    else if policyTaken s f lvl = 1 then
      { s := retryAt s f p lvl, stopped := lvl, action := 1, suppressed := false, retry := retriesAt s f lvl }
    else
      { s := if f.stands && lvl = f.start then ignoreFault s p f.r nb else s
        stopped := lvl, action := 0, suppressed := false, retry := retriesAt s f lvl } := rfl

theorem walk_work (p : Party) (nb : Bool) (f : FRec) (fuel lvl : Nat) (s : State) : WorkOnly s (walk p nb f fuel lvl s).s := by
  induction fuel generalizing lvl s with
  | zero => exact .refl s
  | succ fuel ih =>
    rw [walk_succ]
    by_cases h3 : policyTaken s f lvl = 3
    · rw [if_pos h3]
      exact (endAt_work s f lvl).trans (ih _ _)
    · rw [if_neg h3]
      by_cases h2 : policyTaken s f lvl = 2
      · rw [if_pos h2]
        exact endAt_work s f lvl
      · rw [if_neg h2]
        by_cases h1 : policyTaken s f lvl = 1
        · rw [if_pos h1]
          exact retryAt_work s f p lvl
        · rw [if_neg h1]
          dsimp only
          split
          · exact ignoreFault_work s p f.r nb
          · exact .refl s

theorem walkFrom_work (s : State) (p : Party) (nb : Bool) (f : FRec) : WorkOnly s (walkFrom s p nb f).s := by
  rw [walkFrom]
  split
  · exact .refl s
  · exact walk_work p nb f 5 f.start s

/-! ## A fault offered (R415 to R418) -/

/-- From s to t the work changed, and device memory by writes of the device's own. -/
structure Offered (s t : State) : Prop where
  eq : t = { s with blocks := t.blocks, cores := t.cores, nodes := t.nodes, graphs := t.graphs, queues := t.queues,
                    mem := t.mem, badGranules := t.badGranules, wrote := t.wrote, scrubs := t.scrubs }
  wf : Memory.wf s.mem = true → Memory.wf t.mem = true
  queues : queueCtxs t = queueCtxs s

namespace Offered

theorem refl (s : State) : Offered s s := ⟨rfl, id, rfl⟩

theorem trans {s t u : State} (h : Offered s t) (g : Offered t u) : Offered s u :=
  ⟨g.eq.trans (congrArg (fun t : State => { t with
    blocks := u.blocks, cores := u.cores, nodes := u.nodes, graphs := u.graphs, queues := u.queues
    mem := u.mem, badGranules := u.badGranules, wrote := u.wrote, scrubs := u.scrubs }) h.eq), g.wf ∘ h.wf, g.queues.trans h.queues⟩

theorem ofWork {s t : State} (h : WorkOnly s t) : Offered s t := by
  have hmem : t.mem = s.mem := by rw [h.eq]
  have hbad : t.badGranules = s.badGranules := by rw [h.eq]
  have hwrote : t.wrote = s.wrote := by rw [h.eq]
  have hscrubs : t.scrubs = s.scrubs := by rw [h.eq]
  refine ⟨?_, fun hm => by rwa [hmem], h.ctxs⟩
  rw [hmem, hbad, hwrote, hscrubs]
  exact h.eq

theorem ofOwn {s t : State} {a n : Nat} (h : OwnWrite a n s t) : Offered s t := by
  have hblocks : t.blocks = s.blocks := by rw [h.frame]
  have hcores : t.cores = s.cores := by rw [h.frame]
  have hnodes : t.nodes = s.nodes := by rw [h.frame]
  have hgraphs : t.graphs = s.graphs := by rw [h.frame]
  have hqueues : t.queues = s.queues := by rw [h.frame]
  refine ⟨?_, h.wf, by rw [queueCtxs, hqueues]; rfl⟩
  rw [hblocks, hcores, hnodes, hgraphs, hqueues]
  exact h.frame

theorem foldl {α : Type} {f : State → α → State} (hf : ∀ t x, Offered t (f t x)) (l : List α) (s : State) : Offered s (l.foldl f s) := by
  induction l generalizing s with
  | nil => exact refl s
  | cons x l ih => exact (hf s x).trans (ih _)

theorem ctxs {s t : State} (h : Offered s t) : t.ctxs = s.ctxs := by rw [h.eq]
theorem windows {s t : State} (h : Offered s t) : t.windows = s.windows := by rw [h.eq]

/-- A fault keeps device memory, the span and the versions in canonical form. -/
theorem homes {s t : State} (h : Offered s t) (hs : s.homesWf = true) : t.homesWf = true := by
  obtain ⟨hm, hsp, hl⟩ := homesWf_iff.1 hs
  have hspan : t.span = s.span := by rw [h.eq]
  have hline : t.lineVer = s.lineVer := by rw [h.eq]
  exact homesWf_iff.2 ⟨h.wf hm, hspan ▸ hsp, hline ▸ hl⟩

end Offered

theorem logFault_offered (s : State) (ctx : Fin 64) (mk : Nat → Nat) : Offered s (logFault s ctx mk) := by
  rw [logFault]
  dsimp only
  split
  · exact .refl s
  · exact (Offered.ofOwn (writeOwn_own s _ _)).trans (.ofOwn (writeOwn_own _ _ _))

theorem offer_offered (s : State) (p : Party) (nb : Bool) (f : FRec) : Offered s (offer s p nb f) :=
  ((Offered.ofWork (walkFrom_work s p nb f)).trans (logFault_offered _ _ _)).trans (.ofWork ⟨rfl, rfl⟩)

end Sys2Proof.Machine

/-! # Writes through the management path (R167, R351, R440 to R442, R447, R448) -/

namespace Sys2Proof.Machine

open Sys2Proof Sys2Proof.Claims

theorem inSession_serves {s : State} {i : Fin 16} (h : InSession s i) (f : Fin 16 → State) : inSession s i.val f = .next (f i) :=
  inSession_open h.up h.open_ h.finished

/-! ## The queue that is served (R351, R353) -/

theorem foldl_min_mem (xs : List Nat) {n : Nat}
    (h : xs.foldl (fun a x => match a with | none => some x | some y => some (min x y)) none = some n) : n ∈ xs := by
  refine (foldl_best_mem (fun a x y hy => ?_) xs h).resolve_right nofun
  cases a with
  | none => exact .inl (Option.some.inj hy).symm
  | some z =>
    have hz : min x z = y := Option.some.inj hy
    rcases Nat.le_total x z with hle | hle
    · exact .inl (hz.symm.trans (Nat.min_eq_left hle))
    · exact .inr (congrArg some ((Nat.min_eq_right hle).symm.trans hz))

theorem nextInTurn_mem {ids : List Nat} {last : Option Nat} {n : Nat} (h : nextInTurn ids last = some n) : n ∈ ids := by
  rw [nextInTurn] at h
  dsimp only at h
  split at h
  · next x hx =>
    cases h
    exact (List.mem_filter.1 (foldl_min_mem _ hx)).1
  · exact foldl_min_mem _ h

theorem settleTurns_mem {s : State} {q : Queue} (h : q ∈ (settleTurns s).queues) : ∃ p ∈ s.queues, p.qid = q.qid ∧ p.level = q.level := by
  obtain ⟨p, hp, rfl⟩ := List.mem_map.1 h
  refine ⟨p, hp, ?_⟩
  split
  · exact ⟨rfl, rfl⟩
  · exact ⟨rfl, rfl⟩

/-- A queue that is served is backlogged. -/
theorem serve_backlogged {s s1 : State} {qid : Nat} (h : serve s = (s1, some qid)) :
    ∃ q ∈ (settleTurns s).queues, q.qid = qid ∧ backlogged (settleTurns s) q = true := by
  rw [serve] at h
  dsimp only at h
  split at h
  · cases h
  · next lv _ =>
    split at h
    · next q hq =>
      cases h
      obtain ⟨hmem, hb⟩ := List.mem_filter.1 (List.mem_of_find?_eq_some hq)
      rw [Bool.and_eq_true] at hb
      exact ⟨q, hmem, rfl, hb.2⟩
    · split at h
      · cases h
      · next x hx =>
        have hmine : x = qid := by
          split at h
          · cases h
          · split at h
            · cases h
              rfl
            · cases h
        subst hmine
        obtain ⟨q, hq, rfl⟩ := List.mem_map.1 (nextInTurn_mem hx)
        obtain ⟨hmem, hb⟩ := List.mem_filter.1 hq
        rw [Bool.and_eq_true] at hb
        exact ⟨q, hmem, rfl, hb.2⟩

theorem serve_below_cap {s s1 : State} {qid : Nat} (h : serve s = (s1, some qid)) :
    ∃ q ∈ s.queues, q.qid = qid ∧ residentBlocks s qid < s.levels[q.level].cap.toNat := by
  obtain ⟨q, hq, hqid, hb⟩ := serve_backlogged h
  obtain ⟨p, hp, hpid, hlv⟩ := settleTurns_mem hq
  rw [backlogged, Bool.and_eq_true, Bool.and_eq_true, decide_eq_true_eq] at hb
  refine ⟨p, hp, hpid.trans hqid, ?_⟩
  have hlt : residentBlocks s q.qid < s.levels[q.level].cap.toNat := hb.1.2
  have hlevel : s.levels[p.level] = s.levels[q.level] := by simp only [hlv]
  rw [hlevel, ← hqid]
  exact hlt

/-! ## Levels and the budget (R351, R447) -/

theorem setLevel_eq (s : State) (l : Fin 24) (v : Nat) : setLevel s l v =
    if bitsOf v 8 13 = 0 ∨ 4096 < bitsOf v 8 13 ∨
        256 < ((List.finRange 24).filter (· != l)).foldl (fun a k => a + s.levels[k].floor.toNat) 0 + bitsOf v 0 8 then (s, false)
    else (writeBounds { s with levels := s.levels.set l { cap := BitVec.ofNat 13 (bitsOf v 8 13), floor := BitVec.ofNat 8 (bitsOf v 0 8) } } l,
      true) := by
  rw [setLevel]
  simp only [Bool.or_eq_true, decide_eq_true_eq, or_assoc, gt_iff_lt]

theorem setBudget_refused {s : State} {v : Nat} (h : v % 4096 < 1200 ∨ 2600 < v % 4096) : setBudget s v = (s, false) := by
  rw [setBudget]
  exact if_pos (by rw [Bool.or_eq_true, decide_eq_true_eq, decide_eq_true_eq]; exact h)

theorem setBudget_taken {s : State} {v : Nat} (h1 : 1200 ≤ v % 4096) (h2 : v % 4096 ≤ 2600) :
    setBudget s v = (divide { s with pwrBudget := BitVec.ofNat 12 (v % 4096) } s.vgrant.toNat s.hgrant.toNat, true) := by
  rw [setBudget]
  exact if_neg (by rw [Bool.or_eq_true, decide_eq_true_eq, decide_eq_true_eq]; omega)

theorem toNat_ofNat_byte {x : Nat} (hx : x ≤ 255) : (BitVec.ofNat 8 x).toNat = x := by
  rw [BitVec.toNat_ofNat]
  exact Nat.mod_eq_of_lt (Nat.lt_succ_of_le hx)

/-- The grants that follow a new budget fit it. -/
theorem divide_fits (s : State) (hb : 1200 ≤ s.pwrBudget.toNat) : ∃ m vg hg, divide s s.vgrant.toNat s.hgrant.toNat =
    { s with mgrant := m, vgrant := vg, hgrant := hg } ∧ powerFits s m.toNat vg.toNat hg.toNat = true := by
  have hv := Nat.lt_succ_iff.1 s.vgrant.isLt
  have hh := Nat.lt_succ_iff.1 s.hgrant.isLt
  refine ⟨_, _, _, divide_eq s _ _, ?_⟩
  rw [toNat_ofNat_byte (matrixGrant_le s), toNat_ofNat_byte (vectorGrant_le hv), toNat_ofNat_byte (hbmGrant_le hh)]
  exact grants_fit _ _ hb

theorem mgmtAnswer_pair (t : State) (ok : Bool) : mgmtAnswer (t, ok) = Answers t (if ok then .mgmtOk else .mgmtErr) := rfl

theorem levelsAndBudget : LevelsAndBudget := by
  intro s i hi
  refine ⟨fun l v cap fl hcap hfl => ?_, fun v w hw => ⟨fun h => ?_, fun h1 h2 => ?_, fun l => ?_, rfl, fun h => ?_,
    fun s1 qid h => serve_below_cap h, by decide, rfl, rfl, rfl, rfl⟩⟩
  · intro others
    subst hcap hfl
    have hstep : exec (.priorityLevelWrite i.val l v) s = .next (mgmtAnswer (setLevel s l v.toNat)) :=
      inSession_serves hi fun _ => mgmtAnswer (setLevel s l v.toNat)
    refine ⟨fun h => ?_, fun h1 h2 h3 => ?_⟩
    · rw [hstep, setLevel_eq, if_pos h, mgmtAnswer_pair]
      rfl
    · rw [hstep, setLevel_eq, if_neg (by omega), mgmtAnswer_pair]
      rfl
  · subst hw
    have hstep : exec (.pwrbudgetWrite i.val v) s = .next (mgmtAnswer (setBudget s v.toNat)) :=
      inSession_serves hi fun _ => mgmtAnswer (setBudget s v.toNat)
    rw [hstep, setBudget_refused h, mgmtAnswer_pair]
    rfl
  · subst hw
    have hstep : exec (.pwrbudgetWrite i.val v) s = .next (mgmtAnswer (setBudget s v.toNat)) :=
      inSession_serves hi fun _ => mgmtAnswer (setBudget s v.toNat)
    have hb : (BitVec.ofNat 12 (v.toNat % 4096)).toNat = v.toNat % 4096 := by
      rw [BitVec.toNat_ofNat]
      exact Nat.mod_eq_of_lt (Nat.mod_lt _ (by decide))
    obtain ⟨m, vg, hg, hdiv, hfit⟩ := divide_fits { s with pwrBudget := BitVec.ofNat 12 (v.toNat % 4096) } (by rw [hb]; exact h1)
    refine ⟨m, vg, hg, _, rfl, ?_, hfit⟩
    rw [hstep, setBudget_taken h1 h2, hdiv, mgmtAnswer_pair]
    rfl
  · show s.levels[l].cap.toNat * 2 ^ 8 + s.levels[l].floor.toNat = _
    omega
  · show s.vgrant.toNat * 2 ^ 24 + min s.matrixReqs.length 4095 * 2 ^ 12 + s.draw.toNat = _
    omega

/-! ## The debugger (R167, R448) -/

theorem resumeGang_at {g : Gang} (h : g.wait = .bkpt) : resumeGang g = { g with wait := .none, wd := 0, pc := g.pc + 1 } := by
  simp only [resumeGang, h]

theorem resumeGang_elsewhere {g : Gang} (h : g.wait ≠ .bkpt) : resumeGang g = g := by
  rw [resumeGang]
  cases hw : g.wait with
  | bkpt => exact absurd hw h
  | _ => rfl

theorem debugResumes : DebugResumes := by
  refine ⟨fun s i n v hi => ⟨fun h => ?_, fun h => ?_⟩, fun g => ⟨resumeGang_at, resumeGang_elsewhere⟩⟩
  · have hstep : exec (.dbgresume i.val n v) s = .next (mgmtAnswer (if v = 1 then resumeAll s n else s, true)) :=
      inSession_serves hi fun _ => mgmtAnswer (if v = 1 then resumeAll s n else s, true)
    rw [hstep, if_neg h]
    rfl
  · have hstep : exec (.dbgresume i.val n v) s = .next (mgmtAnswer (if v = 1 then resumeAll s n else s, true)) :=
      inSession_serves hi fun _ => mgmtAnswer (if v = 1 then resumeAll s n else s, true)
    rw [if_pos h] at hstep
    refine ⟨resumeAll s n, hstep, rfl, List.length_map _, ?_⟩
    intro go b blk hb
    have hget : (resumeAll s n).blocks[b]? = some (if blk.ctx != n then blk else { blk with warps := blk.warps.map go }) := by
      rw [resumeAll, List.getElem?_map, hb]
      rfl
    refine ⟨fun hne => ?_, fun heq => ?_⟩
    · rw [hget, if_pos (bne_iff_ne.2 hne)]
    · rw [hget, if_neg (by rw [heq, bne_self_eq_false]; exact Bool.false_ne_true)]

/-! ## Management writes (R440, R448) -/

theorem mgmtAligned_iff {off size : Nat} : mgmtAligned off size = true ↔ (size = 4 ∨ size = 8) ∧ off % size = 0 := by
  simp only [mgmtAligned, Bool.and_eq_true, Bool.or_eq_true, decide_eq_true_eq]

/-- A request that no open session makes is only logged. -/
theorem inSession_dropped {s : State} {session : Nat} (f : Fin 16 → State)
    (h : 16 ≤ session ∨ s.boot ≠ .up ∨ s.sessions[(Fin.ofNat 16 session : Fin 16)].isOpen = false ∨
      s.sessions[(Fin.ofNat 16 session : Fin 16)].finished = false) : ∃ s1, LoggedOnly s s1 ∧ inSession s session f = .next s1 := by
  refine ⟨_, logErr_frame s _, if_neg fun hx => ?_⟩
  simp only [Bool.and_eq_true, decide_eq_true_eq, and_assoc] at hx
  obtain ⟨hb, hlt, ho, hf⟩ := hx
  rcases h with h | h | h | h
  · omega
  · exact h hb
  · rw [h] at ho
    cases ho
  · rw [h] at hf
    cases hf

theorem managementWrites : ManagementWrites := by
  refine ⟨fun s i off size v hi => ⟨fun h => ?_, fun h1 h2 => ?_⟩, fun s session i h hi => ?_⟩
  · have hstep : exec (.managementWrite i.val off size v) s = .next (if mgmtAligned off size then
        mgmtAnswer (mgmtWrite s i off size (v.toNat % 256 ^ size)) else mgmtBad s i) :=
      inSession_serves hi fun i => if mgmtAligned off size then mgmtAnswer (mgmtWrite s i off size (v.toNat % 256 ^ size)) else mgmtBad s i
    refine ⟨_, logErr_frame s _, hstep.trans (congrArg Host.Outcome.next (if_neg fun hx => ?_))⟩
    have := mgmtAligned_iff.1 hx
    omega
  · have hstep : exec (.managementWrite i.val off size v) s = .next (if mgmtAligned off size then
        mgmtAnswer (mgmtWrite s i off size (v.toNat % 256 ^ size)) else mgmtBad s i) :=
      inSession_serves hi fun i => if mgmtAligned off size then mgmtAnswer (mgmtWrite s i off size (v.toNat % 256 ^ size)) else mgmtBad s i
    refine ⟨_, _, hstep.trans (congrArg Host.Outcome.next (if_pos (mgmtAligned_iff.2 ⟨h1, h2⟩))), rfl⟩
  · rcases hi with ⟨l, v, rfl⟩ | ⟨v, rfl⟩ | ⟨n, v, rfl⟩ | ⟨off, size, v, rfl⟩ | rfl
    · exact inSession_dropped (fun _ => mgmtAnswer (setLevel s l v.toNat)) h
    · exact inSession_dropped (fun _ => mgmtAnswer (setBudget s v.toNat)) h
    · exact inSession_dropped (fun _ => mgmtAnswer (if v = 1 then resumeAll s n else s, true)) h
    · exact inSession_dropped (fun i => if mgmtAligned off size then mgmtAnswer (mgmtWrite s i off size (v.toNat % 256 ^ size)) else mgmtBad s i) h
    · exact inSession_dropped (fun i => mgmtAnswer (submitShoot s i, true)) h

/-! ## Locked configurations (R441, R442, R444) -/

theorem abortNodes_offered (s : State) (n : Fin 64) : Offered s (abortNodes s n) := by
  refine .foldl (fun t i => ?_) _ s
  split
  · exact .refl t
  · split
    · exact offer_offered t _ _ _
    · exact .refl t

/-- The state of an interface that begins to leave. -/
def leavingAt (s : State) (n : Fin 64) (st : IState) (reply : Bool) : State :=
  abortPackets (abortNodes (modCtx s n fun c => { c with leaving := some (st, reply) }) n) n

theorem leaveRun_eq (s : State) (n : Fin 64) (st : IState) (reply : Bool) :
    leaveRun s n st reply = settleLeave (leavingAt s n st reply) n := rfl

theorem leavingAt_ctx (s : State) (n : Fin 64) (st : IState) (reply : Bool) :
    (leavingAt s n st reply).ctxs[n] = { s.ctxs[n] with leaving := some (st, reply) } := by
  have h : (leavingAt s n st reply).ctxs = _ := (abortNodes_offered (modCtx s n fun c => { c with leaving := some (st, reply) }) n).ctxs
  rw [h, modCtx_same]

theorem leavingAt_windows (s : State) (n : Fin 64) (st : IState) (reply : Bool) : (leavingAt s n st reply).windows = s.windows :=
  (abortNodes_offered (modCtx s n fun c => { c with leaving := some (st, reply) }) n).windows

theorem leavingAt_aborts (s : State) (n : Fin 64) (st : IState) (reply : Bool) : PacketsAbort (leavingAt s n st reply) n := by
  intro q hq hn f hf hr
  obtain ⟨p, hp, rfl⟩ := List.mem_map.1 hq
  by_cases hp : p.ctx = n
  · rw [if_neg (by rw [hp, bne_self_eq_false]; exact Bool.false_ne_true)] at hf
    obtain ⟨g, -, rfl⟩ := List.mem_map.1 hf
    by_cases hg : g.retired = true
    · rw [if_pos hg, hg] at hr
      cases hr
    · rw [if_neg hg]
      exact ⟨rfl, rfl⟩
  · rw [if_pos (bne_iff_ne.2 hp)] at hn
    exact absurd hn hp

/-- What dropping a context's work leaves as it is, and the keys that go. -/
theorem dropWork_keeps (s : State) (n : Fin 64) :
    (dropWork s n).ctxs = s.ctxs.set n { s.ctxs[n] with keys := [] } ∧ (dropWork s n).queues = s.queues ∧
      (dropWork s n).windows = s.windows := by
  rw [dropWork]
  dsimp only
  split
  · refine ⟨foldl_keeps State.ctxs (step := poisonGranule) (fun _ _ => rfl) _ _, foldl_keeps State.queues (step := poisonGranule) (fun _ _ => rfl) _ _,
      foldl_keeps State.windows (step := poisonGranule) (fun _ _ => rfl) _ _⟩
  · exact ⟨rfl, rfl, rfl⟩

theorem dropWork_ctx (s : State) (n : Fin 64) : (dropWork s n).ctxs[n] = { s.ctxs[n] with keys := [] } := by
  simp only [(dropWork_keeps s n).1, Fin.getElem_fin, Vector.getElem_set_self]

/-- An interface that has left, and the answer that it owes. -/
def leftAt (t : State) (n : Fin 64) (st : IState) (reply : Bool) : State :=
  let s1 := modCtx (dropWork t n) n fun c => { c with inst := st, leaving := none, bound := if st = .unlocked then none else c.bound }
  if reply then answer s1 (.tdisp n st) else s1

theorem settleLeave_leaving {t : State} {n : Fin 64} {st : IState} {reply : Bool} (h : t.ctxs[n].leaving = some (st, reply)) :
    settleLeave t n = if ctxDrained t n then leftAt t n st reply else t := by
  rw [settleLeave, h]
  cases ctxDrained t n <;> rfl

theorem leftAt_ctx (t : State) (n : Fin 64) (st : IState) (reply : Bool) : (leftAt t n st reply).ctxs[n] =
    { t.ctxs[n] with inst := st, leaving := none, keys := [], bound := if st = .unlocked then none else t.ctxs[n].bound } := by
  have h : (leftAt t n st reply).ctxs = (modCtx (dropWork t n) n fun c =>
      { c with inst := st, leaving := none, bound := if st = .unlocked then none else c.bound }).ctxs := by
    cases reply <;> rfl
  rw [h, modCtx_same, dropWork_ctx]

theorem leftAt_keeps (t : State) (n : Fin 64) (st : IState) (reply : Bool) :
    (leftAt t n st reply).queues = t.queues ∧ (leftAt t n st reply).windows = t.windows := by
  obtain ⟨-, hq, hw⟩ := dropWork_keeps t n
  cases reply
  · exact ⟨hq, hw⟩
  · exact ⟨hq, hw⟩

/-- How an interface leaves: it is leaving while a packet of its context has not retired, and has left once all have. -/
theorem leaveRun_cases (s : State) (n : Fin 64) (st : IState) (reply : Bool) : leaveRun s n st reply =
    if ctxDrained (leavingAt s n st reply) n then leftAt (leavingAt s n st reply) n st reply else leavingAt s n st reply := by
  rw [leaveRun_eq]
  exact settleLeave_leaving (by rw [leavingAt_ctx])

theorem leaveRun_leaves (s : State) (n : Fin 64) (st : IState) (reply : Bool) :
    CtxLeaves s.ctxs[n] (leaveRun s n st reply).ctxs[n] st := by
  rw [leaveRun_cases]
  split
  · right
    rw [leftAt_ctx, leavingAt_ctx]
  · left
    exact ⟨reply, leavingAt_ctx s n st reply⟩

theorem leaveRun_queues (s : State) (n : Fin 64) (st : IState) (reply : Bool) :
    (leaveRun s n st reply).queues = (leavingAt s n st reply).queues := by
  rw [leaveRun_cases]
  split
  · exact (leftAt_keeps _ _ _ _).1
  · rfl

theorem leaveRun_windows (s : State) (n : Fin 64) (st : IState) (reply : Bool) : (leaveRun s n st reply).windows = s.windows := by
  rw [leaveRun_cases]
  split
  · exact (leftAt_keeps _ _ _ _).2.trans (leavingAt_windows s n st reply)
  · exact leavingAt_windows s n st reply

theorem leaveRun_aborts (s : State) (n : Fin 64) (st : IState) (reply : Bool) : PacketsAbort (leaveRun s n st reply) n := by
  rw [PacketsAbort, leaveRun_queues]
  exact leavingAt_aborts s n st reply

/-- A context without a queue has nothing to wait for. -/
theorem leaveRun_at_once {s : State} {n : Fin 64} {st : IState} {reply : Bool}
    (h : ∀ q ∈ (leaveRun s n st reply).queues, q.ctx ≠ n) : (leaveRun s n st reply).ctxs[n].inst = st := by
  rw [leaveRun_queues] at h
  have hd : ctxDrained (leavingAt s n st reply) n = true :=
    List.all_eq_true.2 fun q hq => by rw [bne_iff_ne.2 (h q hq), Bool.true_or]
  rw [leaveRun_cases, if_pos hd, leftAt_ctx]

theorem ctxLocked_iff {s : State} {n : Fin 64} : ctxLocked s n = true ↔ s.ctxs[n].inst = .locked ∨ s.ctxs[n].inst = .run := by
  rw [ctxLocked, Bool.or_eq_true, decide_eq_true_eq, decide_eq_true_eq]

theorem ctxAdmits_session {s : State} {n : Fin 64} {i : Fin 16} :
    ctxAdmits s n (some i) = true ↔ s.ctxs[n].inst = .unlocked ∨ s.ctxs[n].bound = some i.val := by
  rw [ctxAdmits, Bool.or_eq_true, Bool.and_eq_true, decide_eq_true_eq, decide_eq_true_eq]
  simp only [Option.isSome_some, true_and, Option.map_some]

theorem writeGuarded_locked {s : State} {i : Fin 16} {r : MReg} {v : Nat} {n : Fin 64} (hc : configOf s r = some n)
    (h : s.ctxs[n].inst = .locked ∨ s.ctxs[n].inst = .run) : writeGuarded s i r v = (toError s n, false) := by
  rw [writeGuarded, hc, Option.filter_some, if_pos (ctxLocked_iff.2 h)]

theorem writeGuarded_free {s : State} {i : Fin 16} {r : MReg} {v : Nat} {n : Fin 64} (hc : configOf s r = some n)
    (h : ¬(s.ctxs[n].inst = .locked ∨ s.ctxs[n].inst = .run)) : writeGuarded s i r v =
      if ((requestsAbout s v r).all fun n => ctxAdmits s n (some i)) = true then writeMReg s i r v else (s, false) := by
  rw [writeGuarded, hc, Option.filter_some, if_neg fun hx => h (ctxLocked_iff.1 hx)]

theorem toError_guarded (s : State) (n : Fin 64) : CtxLeaves s.ctxs[n] (toError s n).ctxs[n] .error ∧ PacketsAbort (toError s n) n ∧
    ((∀ q ∈ (toError s n).queues, q.ctx ≠ n) → (toError s n).ctxs[n].inst = .error) :=
  ⟨leaveRun_leaves s n .error false, leaveRun_aborts s n .error false, leaveRun_at_once⟩

/-- The registers of a context's configuration. -/
theorem configOf_ctx {s : State} {n : Fin 64} {r : MReg} {v : Nat}
    (h : r ∈ [.ctxrec n, .savepool n, .flog n, .codedir n, .legacy n, .ctxmode n, .cellpool n]) :
    configOf s r = some n ∧ requestsAbout s v r = [] := by
  simp only [List.mem_cons, List.not_mem_nil, or_false] at h
  rcases h with rfl | rfl | rfl | rfl | rfl | rfl | rfl
  all_goals exact ⟨rfl, rfl⟩

theorem configurationIsGuarded : ConfigurationIsGuarded := by
  intro s i n v r hr locked admits
  obtain ⟨hc, hreq⟩ := configOf_ctx (s := s) (v := v) hr
  refine ⟨fun h => ⟨toError s n, writeGuarded_locked hc h, toError_guarded s n⟩, fun h => ?_, fun k o w ho hw => ?_⟩
  · rw [writeGuarded_free hc h, hreq]
    rfl
  · have hk : configOf s (.window k) = some o := congrArg some ho.symm
    have hw' : (Fin.ofNat 64 (bitsOf v 196 6) : Fin 64) = w :=
      Fin.ext ((Nat.mod_eq_of_lt (hw ▸ w.isLt)).trans hw.symm)
    have hall : ((requestsAbout s v (.window k)).all fun n => ctxAdmits s n (some i)) = true ↔ admits o ∧ admits w := by
      rw [requestsAbout, hw', ← ho, List.all_cons, List.all_cons, List.all_nil, Bool.and_true, Bool.and_eq_true,
        ctxAdmits_session, ctxAdmits_session]
    refine ⟨fun h => ⟨toError s o, writeGuarded_locked hk h, (toError_guarded s o).1, leaveRun_windows s o .error false⟩,
      fun h h1 => ?_, fun h h1 h2 => ?_⟩
    · rw [writeGuarded_free hk h, if_neg fun hx => h1 (hall.1 hx)]
    · rw [writeGuarded_free hk h, if_pos (hall.2 ⟨h1, h2⟩)]
      rfl

/-- Settles O59: each write by the check that it fails or by its effect, and a locked interface by its leaving. -/
theorem managementWritesAct : Obligations.ManagementWritesAct :=
  ⟨levelsAndBudget, debugResumes, managementWrites, configurationIsGuarded⟩

end Sys2Proof.Machine

/-! # Secure messages, sessions and interfaces (R439 to R445) -/

namespace Sys2Proof.Machine

open Sys2Proof Sys2Proof.Claims

/-! ## Messages outside a session (R439, R445) -/

theorem whenBooted_off {s : State} (f : State) (h : s.boot = .off) : whenBooted s f = .next s := if_pos h
theorem whenBooted_on {s : State} (f : State) (h : s.boot ≠ .off) : whenBooted s f = .next f := if_neg h
theorem whenUp_up {s : State} (f : State) (h : s.boot = .up) : whenUp s f = .next f := if_pos h
theorem whenUp_down {s : State} (f : State) (h : s.boot ≠ .up) : whenUp s f = .next s := if_neg h

theorem measurement_read {s : State} {n : Fin 5} : (if (decide (1 ≤ (BitVec.ofNat 8 (n.val + 1)).toNat) &&
      decide ((BitVec.ofNat 8 (n.val + 1)).toNat ≤ 5)) = true then
      spdmSay s .measurements (s.measures[(Fin.ofNat 5 ((BitVec.ofNat 8 (n.val + 1)).toNat - 1) : Fin 5)]) else spdmFail s 1) =
    spdmSay s .measurements s.measures[n] := by
  have hn : (BitVec.ofNat 8 (n.val + 1)).toNat = n.val + 1 := by
    rw [BitVec.toNat_ofNat]
    exact Nat.mod_eq_of_lt (by omega)
  have hi : (Fin.ofNat 5 n.val : Fin 5) = n := Fin.ext (Nat.mod_eq_of_lt n.isLt)
  rw [if_pos (by rw [hn, Bool.and_eq_true, decide_eq_true_eq, decide_eq_true_eq]; omega)]
  simp only [hn, Nat.add_sub_cancel, hi]

theorem messagesAreAnswered : MessagesAreAnswered := by
  refine fun s => ⟨fun i hi h => ?_, fun h => ⟨⟨_, _, whenBooted_on _ h⟩, ⟨_, whenBooted_on _ h⟩, whenBooted_on _ h⟩,
    fun slot => ⟨whenBooted_off _, fun h => ⟨_, _, whenBooted_on _ h⟩⟩, ⟨whenUp_down _, fun h => ⟨_, _, whenUp_up _ h⟩⟩,
    fun slot => ⟨whenUp_down _, fun h => ⟨_, _, whenUp_up _ h⟩⟩, fun n h => ⟨0x60, (whenBooted_on _ h).trans ?_⟩,
    fun idx h hidx => ⟨1, (whenBooted_on _ h).trans ?_⟩, fun code => ⟨whenUp_up _, whenUp_down _⟩⟩
  · simp only [List.mem_cons, List.not_mem_nil, or_false] at hi
    rcases hi with rfl | rfl | rfl
    all_goals exact whenBooted_off _ h
  · exact congrArg Host.Outcome.next measurement_read
  · refine congrArg Host.Outcome.next (if_neg fun hx => ?_)
    rw [Bool.and_eq_true, decide_eq_true_eq, decide_eq_true_eq] at hx
    rcases hidx with rfl | hidx
    · exact absurd hx.1 (by decide)
    · omega

/-! ## Sessions (R439, R440) -/

theorem onSession_open {s : State} {i : Fin 16} (f : Fin 16 → State) (hb : s.boot = .up) (ho : s.sessions[i].isOpen = true) :
    onSession s i.val f = .next (f i) := by
  have hi : (Fin.ofNat 16 i.val : Fin 16) = i := Fin.ext (Nat.mod_eq_of_lt i.isLt)
  simp only [onSession, hi]
  exact if_pos (by rw [decide_eq_true hb, decide_eq_true i.isLt, ho]; rfl)

/-- The session that KEY_EXCHANGE opens: the lowest that is free. -/
theorem find_free {s : State} {i : Fin 16} (hi : s.sessions[i].isOpen = false) (hlow : ∀ j : Fin 16, j < i → s.sessions[j].isOpen = true) :
    (List.finRange 16).find? (fun i => !s.sessions[i].isOpen) = some i := by
  rw [List.find?_eq_some_iff_getElem]
  refine ⟨by rw [hi]; rfl, i.val, by rw [List.length_finRange]; exact i.isLt, List.getElem_finRange _, fun j hj => ?_⟩
  have hopen := hlow ⟨j, hj.trans i.isLt⟩ hj
  rw [List.getElem_finRange, Bool.not_not]
  exact hopen

theorem sessionsOpen : SessionsOpen := by
  refine ⟨fun s h => ⟨⟨1, whenUp_up _ h⟩, fun hall => ⟨1, (whenUp_up _ h).trans ?_⟩, fun i hi hlow =>
      ⟨Config.secret s.tick, 0x64, (whenUp_up _ h).trans ?_⟩⟩,
    fun s i hb ho => ⟨⟨0x65, 0, ?_⟩, ⟨1, ?_⟩⟩, fun s i hi => ⟨⟨0x68, 0, ?_⟩, ⟨Config.secret s.tick, 0x69, 0, ?_⟩⟩⟩
  · have hnone : (List.finRange 16).find? (fun i => !s.sessions[i].isOpen) = none :=
      List.find?_eq_none.2 fun i _ => by rw [hall i]; exact Bool.false_ne_true
    simp only [hnone, Bool.not_true, Bool.false_eq_true, if_false]
    rfl
  · simp only [find_free hi hlow, Bool.not_true, Bool.false_eq_true, if_false]
    rfl
  · exact onSession_open (fun i => if true then spdmSay (modSession s i fun x => { x with finished := true }) .finish 0
      else spdmFail (closeSession s i) 1) hb ho
  · exact onSession_open (fun i => if false then spdmSay (modSession s i fun x => { x with finished := true }) .finish 0
      else spdmFail (closeSession s i) 1) hb ho
  · exact inSession_serves hi fun _ => spdmSay s .heartbeatAck 0
  · exact inSession_serves hi fun i => spdmSay (modSession s i fun x => { x with key := Config.secret s.tick }) .keyUpdateAck 0

/-! ## The end of a session (R439, R441) -/

theorem ctxs_set_other {v : Vector Ctx 64} {n k : Fin 64} (c : Ctx) (h : k ≠ n) : (v.set n c)[k] = v[k] :=
  Vector.getElem_set_ne n.isLt k.isLt fun e => h (Fin.ext e.symm)

theorem leavingAt_other (s : State) {n k : Fin 64} (st : IState) (reply : Bool) (h : k ≠ n) :
    (leavingAt s n st reply).ctxs[k] = s.ctxs[k] := by
  have hc : (leavingAt s n st reply).ctxs = _ := (abortNodes_offered (modCtx s n fun c => { c with leaving := some (st, reply) }) n).ctxs
  rw [hc]
  exact ctxs_set_other _ h

theorem leavingAt_queueCtxs (s : State) (n : Fin 64) (st : IState) (reply : Bool) : queueCtxs (leavingAt s n st reply) = queueCtxs s := by
  have hq := (abortNodes_offered (modCtx s n fun c => { c with leaving := some (st, reply) }) n).queues
  refine Eq.trans ?_ hq
  simp only [queueCtxs, leavingAt, abortPackets, List.map_map]
  refine List.map_congr_left fun x _ => ?_
  rw [Function.comp_apply]
  split
  · rfl
  · rfl

theorem leftAt_other (t : State) {n k : Fin 64} (st : IState) (reply : Bool) (h : k ≠ n) : (leftAt t n st reply).ctxs[k] = t.ctxs[k] := by
  have hc : (leftAt t n st reply).ctxs = (modCtx (dropWork t n) n fun c =>
      { c with inst := st, leaving := none, bound := if st = .unlocked then none else c.bound }).ctxs := by
    cases reply <;> rfl
  rw [hc, modCtx]
  simp only [(dropWork_keeps t n).1]
  rw [ctxs_set_other _ h, ctxs_set_other _ h]

/-- Leaving RUN changes no other context. -/
theorem leaveRun_other (s : State) {n k : Fin 64} (st : IState) (reply : Bool) (h : k ≠ n) :
    (leaveRun s n st reply).ctxs[k] = s.ctxs[k] := by
  rw [leaveRun_cases]
  split
  · rw [leftAt_other _ _ _ h, leavingAt_other _ _ _ h]
  · exact leavingAt_other _ _ _ h

theorem leaveRun_queueCtxs (s : State) (n : Fin 64) (st : IState) (reply : Bool) : queueCtxs (leaveRun s n st reply) = queueCtxs s := by
  rw [queueCtxs, leaveRun_queues]
  exact leavingAt_queueCtxs s n st reply

theorem foldl_toError_other (l : List (Fin 64)) {k : Fin 64} (h : k ∉ l) (s : State) : (l.foldl toError s).ctxs[k] = s.ctxs[k] := by
  induction l generalizing s with
  | nil => rfl
  | cons n l ih =>
    rw [List.mem_cons, not_or] at h
    rw [List.foldl_cons, ih h.2]
    exact leaveRun_other s .error false h.1

/-- Of several interfaces that leave for ERROR each leaves once. -/
theorem foldl_toError_leaves {l : List (Fin 64)} (hl : l.Nodup) {n : Fin 64} (h : n ∈ l) (s : State) :
    CtxLeaves s.ctxs[n] (l.foldl toError s).ctxs[n] .error ∧
      ((∀ q ∈ s.queues, q.ctx ≠ n) → (l.foldl toError s).ctxs[n].inst = .error) := by
  induction l generalizing s with
  | nil => cases h
  | cons m l ih =>
    obtain ⟨hm, hl⟩ := List.nodup_cons.1 hl
    have hq : (∀ q ∈ s.queues, q.ctx ≠ n) ↔ n ∉ queueCtxs s := by
      simp only [queueCtxs, List.mem_map, not_exists, not_and]
    rw [List.foldl_cons]
    rcases List.mem_cons.1 h with rfl | h
    · rw [foldl_toError_other l hm]
      refine ⟨leaveRun_leaves s n .error false, fun hnone => leaveRun_at_once fun q hqm hqn => ?_⟩
      refine hq.1 hnone ?_
      rw [← leaveRun_queueCtxs s n .error false]
      exact List.mem_map.2 ⟨q, hqm, hqn⟩
    · have hne : n ≠ m := fun e => hm (e ▸ h)
      have hsame : (toError s m).ctxs[n] = s.ctxs[n] := leaveRun_other s .error false hne
      obtain ⟨h1, h2⟩ := ih hl h (toError s m)
      rw [hsame] at h1
      refine ⟨h1, fun hnone => h2 fun q hqm hqn => hq.1 hnone ?_⟩
      rw [← leaveRun_queueCtxs s m .error false]
      exact List.mem_map.2 ⟨q, hqm, hqn⟩

/-- The binding of a context once session i has ended. -/
def unbound (i : Fin 16) (c : Ctx) : Ctx := if c.bound = some i.val then { c with bound := some endedSession } else c

theorem closeSession_ctx (s : State) (i : Fin 16) (n : Fin 64) :
    (closeSession s i).ctxs[n] = unbound i ((boundTo s i).foldl toError s).ctxs[n] := by
  have h : (closeSession s i).ctxs = ((boundTo s i).foldl toError s).ctxs.map (unbound i) := rfl
  rw [h, Fin.getElem_fin, Vector.getElem_map]
  rfl

theorem closeSession_session (s : State) (i : Fin 16) : (closeSession s i).sessions[i] = Session.reset := by
  rw [closeSession]
  simp only [modSession, Fin.getElem_fin, Vector.getElem_set_self]

theorem mem_boundTo {s : State} {i : Fin 16} {n : Fin 64} :
    n ∈ boundTo s i ↔ s.ctxs[n].bound = some i.val ∧ (s.ctxs[n].inst = .locked ∨ s.ctxs[n].inst = .run) := by
  rw [boundTo, List.mem_filter, Bool.and_eq_true, decide_eq_true_eq, ctxLocked_iff]
  simp only [List.mem_finRange, true_and]

theorem CtxLeaves_bound {c d : Ctx} (h : CtxLeaves c d .error) : d.bound = c.bound := by
  rcases h with ⟨_, rfl⟩ | rfl
  · rfl
  · rfl

theorem sessionsEnd : SessionsEnd := by
  refine fun s i => ⟨fun hb ho => ⟨0x6C, 0, onSession_open (fun i => spdmSay (closeSession s i) .endSessionAck 0) hb ho⟩,
    closeSession_session s i, fun n c d hc hd => ?_⟩
  rw [closeSession_ctx] at hd
  refine ⟨?_, fun h => ?_, fun h hlock => ?_⟩
  · rw [hd, unbound]
    split
    · exact fun e => absurd (Option.some.inj e) (Nat.ne_of_gt i.isLt)
    · next h => exact h
  · rw [hd, foldl_toError_other _ fun hn => h (hc ▸ (mem_boundTo.1 hn).1), ← hc, unbound, if_neg h]
  · obtain ⟨hleave, herr⟩ := foldl_toError_leaves ((List.nodup_finRange 64).filter _) (mem_boundTo.2 ⟨hc ▸ h, hc ▸ hlock⟩) s
    have hleave' : CtxLeaves s.ctxs[n] ((boundTo s i).foldl toError s).ctxs[n] .error := hleave
    have hbound := CtxLeaves_bound hleave'
    rw [← hc] at hleave' hbound
    rw [unbound, if_pos (hbound.trans h)] at hd
    refine ⟨?_, by rw [hd]; rfl, fun hq => ?_⟩
    · have hback : { d with bound := c.bound } = ((boundTo s i).foldl toError s).ctxs[n] := by
        rw [hd, ← hbound]
      rw [hback]
      exact hleave'
    · rw [hd]
      exact herr hq

/-! ## Leaving RUN (R444) -/

theorem ctxDrained_iff {s : State} {n : Fin 64} : ctxDrained s n = true ↔
    ∀ q ∈ s.queues, q.ctx = n → toStart s q = false ∧ ∀ f ∈ q.flights, f.retired = true := by
  rw [ctxDrained, List.all_eq_true]
  refine forall_congr' fun q => forall_congr' fun _ => ?_
  rw [Bool.or_eq_true, bne_iff_ne, Bool.and_eq_true, Bool.not_eq_true', List.all_eq_true, ← imp_iff_not_or, and_comm]

/-- What dropping a context's work does to memory and blocks. -/
theorem dropWork_memory (s : State) (n : Fin 64) : (dropWork s n).mem = s.mem ∧ (dropWork s n).span = s.span ∧
    (dropWork s n).blocks = s.blocks.map (fun blk => if blk.ctx = n then { blk with buffer := [] } else blk) := by
  rw [dropWork]
  dsimp only
  split
  · exact ⟨foldl_keeps State.mem (step := poisonGranule) (fun _ _ => rfl) _ _,
      foldl_keeps State.span (step := poisonGranule) (fun _ _ => rfl) _ _,
      foldl_keeps State.blocks (step := poisonGranule) (fun _ _ => rfl) _ _⟩
  · exact ⟨rfl, rfl, rfl⟩

theorem foldl_poisonGranule_bad (gs : List Nat) (s : State) {g : Nat} (h : g ∈ gs ∨ g ∈ s.badGranules) :
    g ∈ (gs.foldl poisonGranule s).badGranules := by
  induction gs generalizing s with
  | nil => exact h.resolve_left nofun
  | cons x gs ih =>
    refine ih _ ?_
    by_cases hx : g = x
    · exact .inr (hx ▸ (poisonGranule_bad s x).1)
    · rcases h with h | h
      · exact .inl ((List.mem_cons.1 h).resolve_left hx)
      · exact .inr (((poisonGranule_bad s x).2 g hx).2 h)

/-- Every granule of a region of an interface that was in RUN is poisoned, and none of another. -/
theorem dropWork_poisons (s : State) (n : Fin 64) :
    (s.ctxs[n].inst = .run → ∀ (r : Fin 16) (g : Nat), g ∈ regionGranules s.ctxs[n].regions[r] → g ∈ (dropWork s n).badGranules) ∧
    (s.ctxs[n].inst ≠ .run → (dropWork s n).badGranules = s.badGranules) := by
  rw [dropWork]
  dsimp only
  refine ⟨fun h r g hg => ?_, fun h => ?_⟩
  · rw [if_pos h]
    refine foldl_poisonGranule_bad _ _ (.inl (List.mem_flatMap.2 ⟨s.ctxs[n].regions[r], ?_, hg⟩))
    rw [Vector.mem_toList_iff]
    exact Vector.getElem_mem _
  · rw [if_neg h]
    rfl

theorem leavingEnds : LeavingEnds := by
  intro s t n x reply hx ht
  rw [settleLeave_leaving hx] at ht
  refine ⟨ctxDrained_iff, fun h => ?_, fun h => ?_⟩
  · rw [ht, h, if_neg Bool.false_ne_true]
  · rw [if_pos h] at ht
    obtain ⟨hmem, hspan, hblocks⟩ := dropWork_memory s n
    obtain ⟨hbad, hgood⟩ := dropWork_poisons s n
    have hctxs : t.ctxs = s.ctxs.set n { s.ctxs[n] with
        inst := x, leaving := none, keys := [], bound := if x = .unlocked then none else s.ctxs[n].bound } := by
      have hc : t.ctxs = (modCtx (dropWork s n) n fun c =>
          { c with inst := x, leaving := none, bound := if x = .unlocked then none else c.bound }).ctxs := by
        rw [ht]
        cases reply <;> rfl
      rw [hc, modCtx, dropWork_ctx]
      simp only [(dropWork_keeps s n).1, Vector.set_set]
    have hbuf : ∀ blk ∈ (dropWork s n).blocks, blk.ctx = n → blk.buffer = [] := by
      rw [hblocks]
      intro blk hb hn
      obtain ⟨k, -, rfl⟩ := List.mem_map.1 hb
      by_cases hk : k.ctx = n
      · rw [if_pos hk]
      · rw [if_neg hk] at hn
        exact absurd hn hk
    cases reply with
    | false =>
      subst ht
      exact ⟨hctxs, hbuf, hmem, hspan, hbad, hgood, nofun⟩
    | true =>
      subst ht
      exact ⟨hctxs, hbuf, hmem, hspan, hbad, hgood, fun _ => List.getLast?_concat⟩

/-! ## Instances (R441 to R443) -/

theorem tdispOk_modCtx {s : State} {n : Fin 64} {f : Ctx → Ctx} {c : Ctx} (hc : f s.ctxs[n] = c) :
    tdispOk (modCtx s n f) n = Answers { s with ctxs := s.ctxs.set n c } (.tdisp n c.inst) := by
  rw [tdispOk, modCtx_same, hc, modCtx, hc]
  rfl

theorem regionKeys_regions (s : State) (n : Fin 64) :
    (regionKeys s n).map (·.1) = (List.finRange 16).filter fun r => s.ctxs[n].regions[r].valid := by
  rw [regionKeys, List.map_map]
  exact List.map_id _

theorem foldl_decrypt_other {a : Nat} (gs : List Nat) (f : Mem → Nat → List Byte) (hf : ∀ m g, (f m g).length = 32) (hg : a / 32 ∉ gs) {m : Mem}
    (hm : Memory.wf m = true) : Memory.wf (gs.foldl (fun m g => memWrite m (32 * g) (f m g)) m) = true ∧
      memGet (gs.foldl (fun m g => memWrite m (32 * g) (f m g)) m) a = memGet m a := by
  induction gs generalizing m with
  | nil => exact ⟨hm, rfl⟩
  | cons g gs ih =>
    rw [List.mem_cons, not_or] at hg
    obtain ⟨h1, h2⟩ := ih hg.2 (memWrite_wf (32 * g) (f m g) hm)
    refine ⟨h1, h2.trans (memGet_memWrite_other _ _ _ hm ?_)⟩
    rw [hf]
    omega

/-- Decryption changes no byte outside the granules of the regions. -/
theorem decryptRegions_other {s : State} {n : Fin 64} {a : Nat} (keys : List (Fin 16 × BitVec 128 × BitVec 128))
    (hm : Memory.wf s.mem = true) (h : ∀ k ∈ keys, a / 32 ∉ regionGranules s.ctxs[n].regions[k.1]) :
    Memory.wf (decryptRegions s n keys).mem = true ∧ memGet (decryptRegions s n keys).mem a = memGet s.mem a := by
  rw [decryptRegions]
  dsimp only
  generalize s.mem = m at hm ⊢
  induction keys generalizing m with
  | nil => exact ⟨hm, rfl⟩
  | cons k keys ih =>
    obtain ⟨h1, h2⟩ := foldl_decrypt_other (regionGranules s.ctxs[n].regions[k.1])
      (fun m g => (List.range 32).map fun i => Config.decrypted k.2.1 k.2.2 g i (memRead m (32 * g) 32))
      (fun m g => by rw [List.length_map, List.length_range]) (h k List.mem_cons_self) hm
    obtain ⟨h3, h4⟩ := ih (fun x hx => h x (List.mem_cons_of_mem _ hx)) _ h1
    exact ⟨h3, h4.trans h2⟩

theorem mayAsk_iff {s : State} {i : Fin 16} {n : Fin 64} :
    mayAsk s i n = true ↔ s.ctxs[n].bound = none ∨ s.ctxs[n].bound = some i.val := by
  rw [mayAsk]
  cases s.ctxs[n].bound with
  | none => exact ⟨fun _ => .inl rfl, fun _ => rfl⟩
  | some b => simp only [decide_eq_true_eq, reduceCtorEq, Option.some.injEq, false_or]

/-- What a STOP_INTERFACE_REQUEST of session i does (R441, R442, R444). -/
def stopped (s : State) (i : Fin 16) (n : Fin 64) : State :=
  match s.ctxs[n].inst with
  | .unlocked => answer s .tdispErr
  | .error => tdispOk (modCtx s n fun x => { x with inst := .unlocked, bound := none }) n
  | .locked | .run =>
    if s.ctxs[n].bound = some i.val && s.ctxs[n].leaving.isNone then leaveRun s n .unlocked true else answer s .tdispErr

theorem execStop_eq {s : State} {i : Fin 16} {n : Fin 64} (hi : InSession s i) :
    exec (.stopInterfaceRequest i.val n) s = .next (stopped s i n) :=
  inSession_serves hi fun i => stopped s i n

/-- An interface that a session locked or started leaves. -/
theorem stopped_leaves {s : State} {i : Fin 16} {n : Fin 64} (h : s.ctxs[n].inst = .locked ∨ s.ctxs[n].inst = .run) :
    stopped s i n =
      if s.ctxs[n].bound = some i.val ∧ s.ctxs[n].leaving = none then leaveRun s n .unlocked true else answer s .tdispErr := by
  rw [stopped]
  rcases h with h | h
  all_goals simp only [h, Bool.and_eq_true, decide_eq_true_eq, Option.isNone_iff_eq_none]

theorem leaveRun_answers {s : State} {n : Fin 64} {st : IState} (h : (leaveRun s n st true).ctxs[n].leaving = none) :
    (leaveRun s n st true).out.getLast? = some (.tdisp n st) := by
  rw [leaveRun_cases] at h ⊢
  split
  · exact List.getLast?_concat
  · next hd =>
    rw [if_neg hd, leavingAt_ctx] at h
    cases h

theorem instancesMove : InstancesMove := by
  intro s i n c hi hc now no
  have hlock : exec (.lockInterfaceRequest i.val n) s = .next (if (decide (s.ctxs[n].inst = .unlocked) && !ctxInService s n) = true then
      tdispOk (modCtx s n fun c => { c with inst := .locked, bound := some i.val }) n else answer s .tdispErr) :=
    inSession_serves hi fun i => if (decide (s.ctxs[n].inst = .unlocked) && !ctxInService s n) = true then
      tdispOk (modCtx s n fun c => { c with inst := .locked, bound := some i.val }) n else answer s .tdispErr
  have hstart : exec (.startInterfaceRequest i.val n) s = .next (if (decide (s.ctxs[n].inst = .locked) &&
        decide (s.ctxs[n].bound = some i.val) && s.ctxs[n].leaving.isNone) = true then
      tdispOk (modCtx (decryptRegions s n (regionKeys s n)) n fun c => { c with inst := .run, keys := regionKeys s n }) n
      else answer s .tdispErr) :=
    inSession_serves hi fun i => if (decide (s.ctxs[n].inst = .locked) &&
        decide (s.ctxs[n].bound = some i.val) && s.ctxs[n].leaving.isNone) = true then
      tdispOk (modCtx (decryptRegions s n (regionKeys s n)) n fun c => { c with inst := .run, keys := regionKeys s n }) n
      else answer s .tdispErr
  have hstate : exec (.getDeviceInterfaceState i.val n) s = .next (if mayAsk s i n = true then tdispOk s n else answer s .tdispErr) :=
    inSession_serves hi fun i => if mayAsk s i n = true then tdispOk s n else answer s .tdispErr
  have hreport : exec (.getDeviceInterfaceReport i.val n) s = .next (if mayAsk s i n = true then
      answer s (.tdispReport n (s.ctxs[n].regions.toList.filter (·.valid)) (Config.digest s.tick)) else answer s .tdispErr) :=
    inSession_serves hi fun i => if mayAsk s i n = true then
      answer s (.tdispReport n (s.ctxs[n].regions.toList.filter (·.valid)) (Config.digest s.tick)) else answer s .tdispErr
  simp only [Bool.and_eq_true, decide_eq_true_eq, Bool.not_eq_true', Option.isNone_iff_eq_none, and_assoc, ← hc] at hlock hstart
  subst hc
  refine ⟨fun h => ?_, fun h => ?_, fun h => ⟨regionKeys s n, regionKeys_regions s n, ?_⟩, fun h => ?_,
    fun keys a hm h => (decryptRegions_other keys hm h).2, fun h => ?_, fun h hb hl => ⟨leaveRun s n .unlocked true, ?_,
      leaveRun_leaves s n .unlocked true, leaveRun_aborts s n .unlocked true, leaveRun_answers, leaveRun_at_once⟩,
    fun h => ?_, fun h => ⟨?_, Config.digest s.tick, ?_⟩, fun h => ⟨?_, ?_⟩⟩
  · rw [hlock, if_pos h, tdispOk_modCtx rfl]
  · rw [hlock, if_neg h]
    rfl
  · rw [hstart, if_pos h]
    exact congrArg Host.Outcome.next (tdispOk_modCtx rfl)
  · rw [hstart, if_neg h]
    rfl
  · rw [execStop_eq hi, stopped, h]
    exact congrArg Host.Outcome.next (tdispOk_modCtx rfl)
  · rw [execStop_eq hi, stopped_leaves h, if_pos ⟨hb, hl⟩]
  · rw [execStop_eq hi]
    rcases h with h | ⟨h, hno⟩
    · rw [stopped, h]
      rfl
    · rw [stopped_leaves h, if_neg fun hx => hno.elim (fun hb => hb hx.1) fun hl => hl hx.2]
      rfl
  · rw [hstate, if_pos (mayAsk_iff.2 h)]
    rfl
  · rw [hreport, if_pos (mayAsk_iff.2 h)]
    rfl
  · rw [hstate, if_neg fun hx => (mayAsk_iff.1 hx).elim h.1 h.2]
    rfl
  · rw [hreport, if_neg fun hx => (mayAsk_iff.1 hx).elim h.1 h.2]
    rfl

/-! ## Key stores (R441, R449) -/

theorem logErr_ctxs (s : State) (e : ErrEvent) : (logErr s e).ctxs = s.ctxs := by rw [logErr_frame]

theorem keyStoresFail : KeyStoresFail := by
  intro s n
  have hctxs := logErr_ctxs s (errEvent .keys 0 1 0 0xFF n.val 0)
  refine ⟨_, rfl, fun h => ?_, fun h => ?_⟩
  · rw [if_pos (ctxLocked_iff.2 (by rw [hctxs]; exact h))]
    have hg := toError_guarded (logErr s (errEvent .keys 0 1 0 0xFF n.val 0)) n
    simp only [hctxs] at hg
    exact hg
  · rw [if_neg fun hx => ?_]
    · exact logErr_frame _ _
    · have := ctxLocked_iff.1 hx
      rw [hctxs] at this
      rcases h with h | h
      · rw [h] at this
        exact absurd this (by decide)
      · rw [h] at this
        exact absurd this (by decide)

/-- Settles O60: sessions by their lowest free place, interfaces by their state and binding, and leaving by what has retired. -/
theorem sessionsAndInstances : Obligations.SessionsAndInstances :=
  ⟨messagesAreAnswered, sessionsOpen, sessionsEnd, leavingEnds, instancesMove, keyStoresFail⟩

end Sys2Proof.Machine

/-! # Written words, the state after reset, and what a step runs -/

namespace Sys2Proof.Machine

open Sys2Proof Sys2Proof.Claims

/-- Settles O1: each of the fourteen words is decoded by evaluation. -/
theorem writtenWordsDecode : Obligations.WrittenWordsDecode := by
  unfold Obligations.WrittenWordsDecode
  refine ⟨by decide, by decide, by decide, by decide, by decide, by decide, by decide, by decide, by decide, by decide,
    by decide, by decide, by decide, by decide⟩

/-! ## Reset -/

theorem memWf_coreReset : Core.reset.memWf = true := rfl

/-- Every core after reset has empty slots and tiles; there is no block. -/
theorem memWf_reset : State.reset.memWf = true := by
  have hcores : State.reset.cores.toList.all Core.memWf = true := by
    rw [List.all_eq_true]
    intro c hc
    have hrep : State.reset.cores.toList = List.replicate 256 Core.reset := Vector.toList_replicate
    rw [hrep] at hc
    rw [List.eq_of_mem_replicate hc]
    exact memWf_coreReset
  unfold State.memWf
  rw [hcores]
  rfl

/-- Settles O4: the memories by `memWf_reset`, the rest by evaluation. -/
theorem resetState : Obligations.ResetState := by
  unfold Obligations.ResetState
  exact ⟨memWf_reset, rfl, rfl, rfl, rfl, rfl, rfl, by decide, by decide, by decide, rfl⟩

/-! ## Fetching (R59, R80) -/

section Fetch

variable {s : State} {kind : StreamKind} {core : Fin 256} {ctx : Fin 64} {dir : Nat} {pc : Word} {e : DirEnt} {bs : List Byte}
  {i : Instr}

theorem fetchWord_ok (he : dirEnt s ctx dir = some e) (hb : fetchBytes s core ctx (e.codebase + 12 * pc.toNat) = .ok bs) :
    fetchWord s core ctx dir pc = .ok (wordOfBytes bs) := by
  simp only [fetchWord, he, hb]
  rfl

/-- A word that its stream accepts and that decodes is fetched as its instruction. -/
theorem fetchInstr_instr (lane : Option Nat) (he : dirEnt s ctx dir = some e)
    (hb : fetchBytes s core ctx (e.codebase + 12 * pc.toNat) = .ok bs) (ha : opAssigned (splitWord (wordOfBytes bs)) = true)
    (hk : opStream (splitWord (wordOfBytes bs)) = kind) (hi : decode (wordOfBytes bs) = some i) :
    fetchInstr s kind core ctx dir pc lane = .instr i := by
  simp only [fetchInstr, fetchWord_ok he hb, ha, hk, hi, Bool.not_true, bne_self_eq_false, Bool.false_eq_true, if_false]

end Fetch

/-! ## The issue of a party -/

/-- What a step does with the outcome of its move. -/
def stepOut : Out1 → Host.Outcome State Fault Refusal
  | .next u => .next (afterMove u)
  | .fault r => .fault r
  | .refused r => .refused r

/-- A step whose agenda begins with a party's issue is that issue. -/
theorem step_issue {s : State} {p : Party} {rest : List Move} (h : s.agenda = .issue p :: rest) :
    step s = stepOut (issue { s with agenda := rest } p) := by
  have hn : nextMove s = some (.issue p, { s with agenda := rest }) := by simp only [nextMove, h]
  simp only [step, hn, doMove]
  rfl

/-- Reports of which none is for the issuing warp hold nothing up. -/
theorem offerReports_none {s : State} (n : Nat) (h : ∀ r ∈ s.reports, reportHere s r = none) :
    offerReports n s = .next s := by
  cases n with
  | zero => rfl
  | succ n =>
    have hf : (s.reports.zipIdx.find? fun r => reportWarp s r.1 && (reportHere s r.1).isSome) = none := by
      rw [List.find?_eq_none]
      intro x hx
      rw [h x.1 (List.fst_mem_of_mem_zipIdx hx)]
      simp
    simp only [offerReports, hf]

theorem issue_gang {s : State} {p : Party} {k : GCtx} (h : gangOf { s with cur := p } p = some k) :
    issue s p = issueGang { s with cur := p } k := by
  simp only [issue, h]

section Issue

variable {s : State} {i : Instr}

/-- The watchdog lets an issue pass that is replayed or whose count is below the limit. -/
theorem watchdog_passes {replay : Bool} {n l : Nat} (h : replay = true ∨ n < l) : (!replay && decide (n ≥ l)) = false := by
  rcases h with h | h
  · rw [h]
    rfl
  · rw [decide_eq_false (Nat.not_le.mpr h), Bool.and_false]

theorem issueGang_runs {s1 : State} {k0 k : GCtx} (hr0 : gangReady k0 = true) (hdet : detAllows s k0 = true)
    (hoff : offerReports (s.reports.length + 1) (modWarp s k0.b k0.w fun wp => settleGang wp k0.g) = .next s1)
    (hk : gangOf s1 s1.cur = some k) (hr : gangReady k = true) (hwd : k.g.replay = true ∨ k.g.wd.toNat < wdLimit s1 k.blk)
    (hf : fetchInstr s1 .warp k.blk.core k.blk.ctx k.wp.dirIdx k.g.pc (some (lowActive k.wp k.g)) = .instr i) :
    issueGang s k0 = issueInstr s1 k i := by
  simp only [issueGang, hr0, hdet, hoff, hk, hr, watchdog_passes hwd, hf, Bool.not_true, Bool.or_self, Bool.false_eq_true,
    if_false]

theorem issueInstr_exec {k : GCtx} (hd : drainsFirst s k (issueLanes k i) i = false)
    (hw : issueWaits s k (issueLanes k i) i = false)
    (hc : (k.g.contSave.isSome && contBars k.wp (issueLanes k i) i) = false) :
    issueInstr s k i = exec i (addWork (countGang (touchFetch s k.blk.core k.blk.ctx k.wp.dirIdx k.g.pc) k) k.b
      (laneFlops i * (lanesOf (issueLanes k i)).length) 0) := by
  simp only [issueInstr, hd, hw, hc, Bool.false_eq_true, if_false]

theorem issueHelm_runs {k : HCtx} (hend : k.blk.helm.ended = false) (hwait : k.blk.helm.wait = .none)
    (hres : k.blk.status = .resident) (hwd : k.blk.helm.replay = true ∨ k.blk.helm.wd.toNat < wdLimit s k.blk)
    (hf : fetchInstr s .helm k.blk.core k.blk.ctx k.blk.helmDir k.blk.helm.pc none = .instr i) :
    issueHelm s k = issueHelmInstr s k i := by
  simp only [issueHelm, hend, hwait, hres, watchdog_passes hwd, hf, bne_self_eq_false, Bool.or_self, Bool.false_eq_true,
    if_false]

/-- Whether a helm instruction's guard lets it act. -/
def helmActs (k : HCtx) (i : Instr) : Bool := match guardOf i with | some c => helmGuard k c | none => true

theorem issueHelmInstr_exec {k : HCtx} (h : helmActs k i = true → helmWaits k i = none ∧ helmDrains s k i = false ∧
      helmOrder s k i = false ∧ (needsToken i && isDet s k.blk && k.blk.token != 0) = false) :
    issueHelmInstr s k i =
      exec i (countHelm (touchFetch s k.blk.core k.blk.ctx k.blk.helmDir k.blk.helm.pc) k.b) := by
  change (match (if helmActs k i then helmWaits k i else none) with
    | some id => _
    | none => if (helmActs k i && helmDrains s k i) = true then _
        else if (helmActs k i && (helmOrder s k i || (needsToken i && isDet s k.blk && k.blk.token != 0))) = true then _ else _) = _
  cases hon : helmActs k i with
  | false => rfl
  | true =>
    obtain ⟨hw, hd, ho, ht⟩ := h hon
    simp only [hw, hd, ho, ht, Bool.and_false, Bool.or_self, if_true, Bool.false_eq_true, if_false]

theorem issueStream_runs {k : SCtx} (hrun : k.st.running = true) (hwait : k.st.wait = .none) (hres : k.blk.status = .resident)
    (hf : fetchInstr s (if k.k = 0 then .matrix else .copy) k.blk.core k.blk.ctx k.blk.helmDir k.st.pc none = .instr i) :
    issueStream s k = exec i (touchFetch s k.blk.core k.blk.ctx k.blk.helmDir k.st.pc) := by
  simp only [issueStream, hrun, hwait, hres, hf, bne_self_eq_false, Bool.not_true, Bool.or_self, Bool.false_eq_true, if_false]

theorem issue_helm {b : Nat} {blk : Block} (h : s.blocks[b]? = some blk) :
    issue s (.helm b) = issueHelm { s with cur := .helm b } { b := b, blk := blk } := by
  have hh : helmOf { s with cur := .helm b } (.helm b) = some { b := b, blk := blk } := by
    simp only [helmOf, h]
  simp only [issue, gangOf_of_helmOf hh, hh]

theorem issue_stream {b : Nat} {n : Fin 4} {blk : Block} {st : Stream} (h : s.blocks[b]? = some blk)
    (hst : blk.ctxs[n].stream = some st) : issue s (.stream b n) =
      issueStream { s with cur := .stream b n } { b := b, k := n, blk := blk, e := blk.ctxs[n], st := st } := by
  have hh : streamOf { s with cur := .stream b n } (.stream b n) = some { b := b, k := n, blk := blk, e := blk.ctxs[n], st := st } := by
    simp only [streamOf, h, hst]
  change (match streamOf { s with cur := .stream b n } (.stream b n) with | some k => _ | none => _) = _
  rw [hh]

end Issue

theorem stepRunsDecodedWarpInstruction : StepRunsDecodedWarpInstruction := by
  intro s b w g rest k0 k e bs i p s0 s1 m hag hk0 hr0 hdet hrep hk hr hwd he hb ha hst hi hd hw hc
  obtain ⟨hp, -⟩ := gangOf_eq_some hk0
  injection hp with hbk hwk
  have hoff : offerReports (s0.reports.length + 1) (modWarp s0 k0.b k0.w fun wp => settleGang wp k0.g) = .next s1 := by
    rw [← hbk, ← hwk]
    exact offerReports_none _ hrep
  have hrun : issueGang s0 k0 = issueInstr s1 k i :=
    issueGang_runs hr0 hdet hoff hk hr hwd (fetchInstr_instr _ he hb ha hst hi)
  have hissue : issue { s with agenda := rest } p = issueGang s0 k0 := issue_gang hk0
  exact (step_issue hag).trans (congrArg stepOut (hissue.trans (hrun.trans (issueInstr_exec hd hw hc))))

theorem stepRunsDecodedHelmAndStreamInstruction : StepRunsDecodedHelmAndStreamInstruction := by
  refine ⟨?_, ?_⟩
  · intro s b rest blk e bs i p s0 k on hag hblk hend hwait hres hwd he hb ha hst hi hon
    have hissue : issue { s with agenda := rest } p = issueHelm s0 k := issue_helm hblk
    have hrun : issueHelm s0 k = issueHelmInstr s0 k i :=
      issueHelm_runs (k := k) hend hwait hres hwd (fetchInstr_instr _ he hb ha hst hi)
    exact (step_issue hag).trans (congrArg stepOut (hissue.trans (hrun.trans (issueHelmInstr_exec hon))))
  · intro s b n rest blk st e bs i p s0 hag hblk hstr hrun hwait hres he hb ha hst hi
    let k : SCtx := { b := b, k := n, blk := blk, e := blk.ctxs[n], st := st }
    have hissue : issue { s with agenda := rest } p = issueStream s0 k := issue_stream hblk hstr
    exact (step_issue hag).trans (congrArg stepOut (hissue.trans
      (issueStream_runs (k := k) hrun hwait hres (fetchInstr_instr _ he hb ha hst hi))))

/-- Settles O6: the agenda's issue is the step, and it comes to `exec` once every check of the issue passes. -/
theorem stepRunsTheDecodedInstruction : Obligations.StepRunsTheDecodedInstruction :=
  ⟨stepRunsDecodedWarpInstruction, stepRunsDecodedHelmAndStreamInstruction⟩

end Sys2Proof.Machine

/-! # The canonical form of the homes: bookkeeping

Device memory, the span and the versions of the lines are the homes. A function that changes none of them keeps their form as it
is; this file says so of each such function of the model, in the order in which they use one another. -/

namespace Sys2Proof.Machine

open Sys2Proof Sys2Proof.Claims

/-- Whether three homes are in canonical form (log 1). -/
def canonical (m sp l : Mem) : Bool := Memory.wf m && Memory.wf sp && Memory.wf l

@[simp] theorem canonical_eq (s : State) : canonical s.mem s.span s.lineVer = s.homesWf := rfl

/-- Only three fields of a state are homes. -/
@[simp] theorem homesWf_mk {x0 x1 x2 x3 x4 x5 x6 m sp l x10 x11 x12 x13 x14 x15 x16 x17 x18 x19 x20 x21 x22 x23 x24 x25 x26 x27
    x28 x29 x30 x31 x32 x33 x34 x35 x36 x37 x38 x39 x40 x41 x42 x43 x44 x45 x46 x47 x48 x49 x50 x51 x52 x53 x54 x55 x56} :
    State.homesWf ⟨x0, x1, x2, x3, x4, x5, x6, m, sp, l, x10, x11, x12, x13, x14, x15, x16, x17, x18, x19, x20, x21, x22, x23,
    x24, x25, x26, x27, x28, x29, x30, x31, x32, x33, x34, x35, x36, x37, x38, x39, x40, x41, x42, x43, x44, x45, x46, x47,
    x48, x49, x50, x51, x52, x53, x54, x55, x56⟩ = canonical m sp l := rfl

@[simp] theorem homesWf_foldl {α : Type} {f : State → α → State} (h : ∀ s x, (f s x).homesWf = s.homesWf) (l : List α)
    (s : State) : (l.foldl f s).homesWf = s.homesWf := by
  induction l generalizing s with
  | nil => rfl
  | cons x xs ih => rw [List.foldl_cons, ih, h]

@[simp] theorem homesWf_ite {p : Prop} [Decidable p] {a b : State} :
    (if p then a else b).homesWf = if p then a.homesWf else b.homesWf := apply_ite State.homesWf p a b

/-! ## Functions that write none of the homes -/

@[simp] theorem homesWf_modBlock (s : State) (b : Nat) (f : Block → Block) : (modBlock s b f).homesWf = s.homesWf := rfl
@[simp] theorem homesWf_without (s : State) (b : Nat) : (without s b).homesWf = s.homesWf := homesWf_foldl (f := fun t
    (m : Nat × Block) => modBlock t m.1 fun x => { x with away := true }) (fun _ _ => rfl) _ _
@[simp] theorem homesWf_modCtx (s : State) (c : Fin 64) (f : Ctx → Ctx) : (modCtx s c f).homesWf = s.homesWf := rfl
@[simp] theorem homesWf_poisonGranule (s : State) (g : Nat) : (poisonGranule s g).homesWf = s.homesWf := rfl

@[simp] theorem homesWf_dropWork (s : State) (n : Fin 64) : (dropWork s n).homesWf = s.homesWf := by
  unfold dropWork
  dsimp only
  split
  · refine (homesWf_foldl homesWf_poisonGranule _ _).trans rfl
  · rfl

@[simp] theorem homesWf_answer (s : State) (o : Out) : (answer s o).homesWf = s.homesWf := rfl

@[simp] theorem homesWf_settleLeave (s : State) (n : Fin 64) : (settleLeave s n).homesWf = s.homesWf := by
  unfold settleLeave
  repeat' split
  all_goals simp

@[simp] theorem homesWf_noteWakes (s : State) : (noteWakes s).homesWf = s.homesWf := rfl

@[simp] theorem homesWf_noteStops (s : State) : (noteStops s).homesWf = s.homesWf := by
  unfold noteStops
  split <;> simp

@[simp] theorem homesWf_modCore (s : State) (c : Fin 256) (f : Core → Core) : (modCore s c f).homesWf = s.homesWf := rfl

@[simp] theorem homesWf_settleDet (s : State) : (settleDet s).homesWf = s.homesWf := by
  unfold settleDet
  dsimp only
  split
  · rfl
  · exact (homesWf_foldl (fun t c => homesWf_modCore t c _) _ _).trans rfl

@[simp] theorem homesWf_noteStaged (s : State) (r : MigReq) (e len dst : Nat) :
    (noteStaged s r e len dst).homesWf = s.homesWf := by
  unfold noteStaged
  split <;> simp

@[simp] theorem homesWf_beginMig (s : State) (r : MigReq) (a e len dst : Nat) :
    (beginMig s r a e len dst).homesWf = s.homesWf := rfl

@[simp] theorem homesWf_giveUp (s : State) : (giveUp s).homesWf = s.homesWf := by
  unfold giveUp
  repeat' split
  all_goals simp

@[simp] theorem homesWf_tryMig (s : State) (r : MigReq) : (tryMig s r).homesWf = s.homesWf := by
  unfold tryMig
  repeat' split
  all_goals simp

@[simp] theorem homesWf_settleMigs (s : State) : (settleMigs s).homesWf = s.homesWf := by
  unfold settleMigs
  simp

@[simp] theorem homesWf_settleTurns (s : State) : (settleTurns s).homesWf = s.homesWf := rfl

@[simp] theorem homesWf_settleAll (s : State) : (settleAll s).homesWf = s.homesWf := by
  unfold settleAll
  simp

@[simp] theorem homesWf_afterMove (s : State) : (afterMove s).homesWf = s.homesWf := by
  unfold afterMove
  simp

@[simp] theorem homesWf_modWarp (s : State) (b w : Nat) (f : Warp → Warp) : (modWarp s b w f).homesWf = s.homesWf := rfl
@[simp] theorem homesWf_endWarp (s : State) (b w : Nat) : (endWarp s b w).homesWf = s.homesWf := rfl

@[simp] theorem homesWf_endBlock (s : State) (b : Nat) : (endBlock s b).homesWf = s.homesWf := by
  unfold endBlock
  split <;> simp

@[simp] theorem homesWf_endBlocks (s : State) (p : Block → Bool) : (endBlocks s p).homesWf = s.homesWf := by
  refine homesWf_foldl (fun t b => ?_) _ _
  split
  · rfl
  · split <;> simp

@[simp] theorem homesWf_endCluster (s : State) (n c : Nat) : (endCluster s n c).homesWf = s.homesWf := by
  unfold endCluster
  split <;> simp

@[simp] theorem homesWf_modNode (s : State) (n : Nat) (f : Node → Node) : (modNode s n f).homesWf = s.homesWf := rfl
@[simp] theorem homesWf_modQueue (s : State) (q : Nat) (f : Queue → Queue) : (modQueue s q f).homesWf = s.homesWf := rfl
@[simp] theorem homesWf_modFlight (s : State) (q n : Nat) (f : Flight → Flight) : (modFlight s q n f).homesWf = s.homesWf := rfl
@[simp] theorem homesWf_abortFlight (s : State) (qid idx : Nat) (code : BitVec 8) :
    (abortFlight s qid idx code).homesWf = s.homesWf := rfl

@[simp] theorem homesWf_endNode (s : State) (n : Nat) (code : BitVec 8) : (endNode s n code).homesWf = s.homesWf := by
  unfold endNode
  split
  · simp
  · split <;> simp

@[simp] theorem homesWf_endGraph (s : State) (g : Nat) (code : BitVec 8) : (endGraph s g code).homesWf = s.homesWf := by
  unfold endGraph
  split <;> simp

@[simp] theorem homesWf_endAt (s : State) (f : FRec) (a : Nat) : (endAt s f a).homesWf = s.homesWf := by
  unfold endAt
  repeat' split
  all_goals simp

@[simp] theorem homesWf_modGangW (s : State) (b w g : Nat) (f : Gang → Gang) : (modGangW s b w g f).homesWf = s.homesWf := rfl
@[simp] theorem homesWf_unselect (n : Nat) (s : State) : (unselect n s).homesWf = s.homesWf := rfl

@[simp] theorem homesWf_retryAt (s : State) (f : FRec) (p : Party) (a : Nat) : (retryAt s f p a).homesWf = s.homesWf := by
  unfold retryAt
  repeat' split
  all_goals simp

@[simp] theorem homesWf_modHelm (s : State) (b : Nat) (f : Helm → Helm) : (modHelm s b f).homesWf = s.homesWf := rfl
@[simp] theorem homesWf_modEng (s : State) (b : Nat) (k : Fin 4) (f : EngCtx → EngCtx) :
    (modEng s b k f).homesWf = s.homesWf := rfl

@[simp] theorem homesWf_ignoreFault (s : State) (p : Party) (r : Raise) (numbered : Bool) :
    (ignoreFault s p r numbered).homesWf = s.homesWf := by
  unfold ignoreFault
  split <;> simp

@[simp] theorem homesWf_reachDev (s : State) (a n : Nat) : (reachDev s a n).homesWf = s.homesWf := rfl
@[simp] theorem homesWf_modGang (s : State) (b w g : Nat) (f : Gang → Gang) : (modGang s b w g f).homesWf = s.homesWf := rfl
@[simp] theorem homesWf_advance (s : State) (k : GCtx) : (advance s k).homesWf = s.homesWf := rfl
@[simp] theorem homesWf_commit (s : State) (k : GCtx) (wp : Warp) (l : VReg) : (commit s k wp l).homesWf = s.homesWf := rfl
@[simp] theorem homesWf_putPred (s : State) (k : GCtx) (p : Fin 8) (new : PVal) (mask : LaneMask) :
    (putPred s k p new mask).homesWf = s.homesWf := rfl

@[simp] theorem homesWf_raiseFlags (s : State) (b : Nat) (f : Flags) : (raiseFlags s b f).homesWf = s.homesWf := by
  unfold raiseFlags
  split <;> simp

@[simp] theorem homesWf_enterCont (s : State) (k : GCtx) (n lane va ea : Nat) :
    (enterCont s k n lane va ea).homesWf = s.homesWf := rfl

@[simp] theorem homesWf_holdFor (s : State) (ctx vpage : Nat) (h : Held) : (holdFor s ctx vpage h).homesWf = s.homesWf := by
  unfold holdFor
  split <;> simp

@[simp] theorem homesWf_holdGang (s : State) (k : GCtx) (ea : Nat) : (holdGang s k ea).homesWf = s.homesWf := by
  unfold holdGang
  simp

@[simp] theorem homesWf_addWork (s : State) (b flops bytes : Nat) : (addWork s b flops bytes).homesWf = s.homesWf := rfl

@[simp] theorem homesWf_noteUse (s : State) (ctx : Fin 64) (va : Nat) : (noteUse s ctx va).homesWf = s.homesWf := by
  unfold noteUse
  split <;> simp

@[simp] theorem homesWf_touch (s : State) (who : Option (Fin 256)) (ctx : Fin 64) (va : Nat) :
    (touch s who ctx va).homesWf = s.homesWf := by
  unfold touch
  split <;> simp

@[simp] theorem homesWf_touchAll (s : State) (who : Fin 256) (ctx : Fin 64) (accs : List LaneAcc) :
    (touchAll s who ctx accs).homesWf = s.homesWf := by
  unfold touchAll
  simp

@[simp] theorem homesWf_sendFab (s : State) (l : Loc) (k : FabKind) (why : FabFor) (acq : Bool) (va : Nat)
    (tag : Option Report) : (sendFab s l k why acq va tag).homesWf = s.homesWf := rfl

@[simp] theorem homesWf_sendReads (s : State) (k : GCtx) (id : Nat) (size : Size) (accs : List LaneAcc) :
    (sendReads s k id size accs).homesWf = s.homesWf := by
  unfold sendReads
  simp

@[simp] theorem homesWf_holdAcc (s : State) (ctx : Nat) (l : Loc) (k : FabKind) (why : FabFor) (acq : Bool) (va : Nat) :
    (holdAcc s ctx l k why acq va).homesWf = s.homesWf := by
  unfold holdAcc
  simp

@[simp] theorem homesWf_report (s : State) (t : Report) (cause off : Nat) : (report s t cause off).homesWf = s.homesWf := rfl

@[simp] theorem homesWf_logErr (s : State) (e : ErrEvent) : (logErr s e).homesWf = s.homesWf := by
  unfold logErr
  repeat' split
  all_goals simp

@[simp] theorem homesWf_logPoison (s : State) (l : Loc) (ctx : Nat) : (logPoison s l ctx).homesWf = s.homesWf := by
  unfold logPoison
  split <;> simp

@[simp] theorem homesWf_sendAcc (s : State) (ctx : Nat) (a : LaneAcc) (k : FabKind) (why : FabFor) (acq : Bool) (va : Nat) :
    (sendAcc s ctx a k why acq va).homesWf = s.homesWf := by
  unfold sendAcc
  split <;> simp

@[simp] theorem homesWf_contribute (s : State) (t : Report) (b : Nat) (ctx : Fin 64) (l : Loc) (x : Word) :
    (contribute s t b ctx l x).homesWf = s.homesWf := by
  unfold contribute
  repeat' split
  all_goals simp

@[simp] theorem homesWf_finishWatch (s : State) (k : GCtx) (d : Dst) (idx : List (Nat × Fin 256)) (m : LaneMask)
    (ls : List WaitLane) (size : Size) (uni : Bool) : (finishWatch s k d idx m ls size uni).homesWf = s.homesWf := by
  unfold finishWatch
  simp

@[simp] theorem homesWf_sendWatch (s : State) (p : Party) (size : Size) (ls : List WaitLane) :
    (sendWatch s p size ls).homesWf = s.homesWf := by
  unfold sendWatch
  simp

@[simp] theorem homesWf_callTo (s : State) (k : GCtx) (target : Word) : (callTo s k target).homesWf = s.homesWf := rfl

@[simp] theorem homesWf_endIfDone (s : State) (b w : Nat) : (endIfDone s b w).homesWf = s.homesWf := by
  unfold endIfDone
  split
  · simp
  · split <;> simp

@[simp] theorem homesWf_enterTrap (s : State) (k : GCtx) (lane : Nat) (n : BitVec 13) :
    (enterTrap s k lane n).homesWf = s.homesWf := rfl

@[simp] theorem homesWf_finishTwait (s : State) (k : GCtx) (ctx : Fin 4) (n : Word64) (pd : Option (Fin 8)) (m : LaneMask) :
    (finishTwait s k ctx n pd m).homesWf = s.homesWf := by
  unfold finishTwait
  split <;> simp

@[simp] theorem homesWf_advanceHelm (s : State) (b : Nat) : (advanceHelm s b).homesWf = s.homesWf := rfl
@[simp] theorem homesWf_putS (s : State) (k : HCtx) (n : Fin 64) (x : Word64) : (putS s k n x).homesWf = s.homesWf := rfl
@[simp] theorem homesWf_putQ (s : State) (k : HCtx) (n : Fin 8) (x : Bool) : (putQ s k n x).homesWf = s.homesWf := rfl
@[simp] theorem homesWf_addHPend (s : State) (k : HCtx) (p : HPend) (wait : Bool) :
    (addHPend s k p wait).homesWf = s.homesWf := rfl
@[simp] theorem homesWf_joined (s : State) (b : Nat) (k : Fin 4) : (joined s b k).homesWf = s.homesWf := rfl
@[simp] theorem homesWf_accept (s : State) (b : Nat) (k : Fin 4) (op : EngOp) : (accept s b k op).homesWf = s.homesWf := rfl
@[simp] theorem homesWf_modStream (s : State) (b : Nat) (k : Fin 4) (f : Stream → Stream) :
    (modStream s b k f).homesWf = s.homesWf := rfl
@[simp] theorem homesWf_goOn (s : State) (k : SCtx) : (goOn s k).homesWf = s.homesWf := rfl
@[simp] theorem homesWf_takeClaim (s : State) (b : Nat) (core : Fin 256) (a m ns nt : Nat) :
    (takeClaim s b core a m ns nt).homesWf = s.homesWf := rfl
@[simp] theorem homesWf_askGrant (s : State) (b : Nat) : (askGrant s b).homesWf = s.homesWf := rfl
@[simp] theorem homesWf_leaveTrap (s : State) (k : GCtx) : (leaveTrap s k).homesWf = s.homesWf := rfl
@[simp] theorem homesWf_leaveCont (s : State) (k : GCtx) (c : ContSave) (wait : GWait) :
    (leaveCont s k c wait).homesWf = s.homesWf := rfl

@[simp] theorem homesWf_landPend (s : State) (b w : Nat) (p : Pend) : (landPend s b w p).homesWf = s.homesWf := by
  unfold landPend
  simp

@[simp] theorem homesWf_wakeGang (s : State) (k : GCtx) : (wakeGang s k).homesWf = s.homesWf := rfl
@[simp] theorem homesWf_wakeHelm (s : State) (b : Nat) : (wakeHelm s b).homesWf = s.homesWf := rfl
@[simp] theorem homesWf_giveGrant (s : State) (b : Nat) : (giveGrant s b).homesWf = s.homesWf := rfl
@[simp] theorem homesWf_countChannel (s : State) (pa : Nat) (corrected : Bool) :
    (countChannel s pa corrected).homesWf = s.homesWf := rfl

@[simp] theorem homesWf_countError (s : State) (corrected : Bool) (a : PoisonAt) :
    (countError s corrected a).homesWf = s.homesWf := by
  unfold countError
  split <;> simp

@[simp] theorem homesWf_setPoison (at_ : PoisonAt) (s : State) : (setPoison at_ s).homesWf = s.homesWf := by
  unfold setPoison
  split <;> simp

@[simp] theorem homesWf_givePlace (s : State) : (givePlace s).homesWf = s.homesWf := by
  simp only [givePlace]
  repeat' split
  all_goals simp

@[simp] theorem homesWf_settlePlaces (s : State) : (settlePlaces s).homesWf = s.homesWf := by
  unfold settlePlaces
  simp

@[simp] theorem homesWf_addFlight (s : State) (q : Queue) (f : Flight) : (addFlight s q f).homesWf = s.homesWf := rfl

@[simp] theorem homesWf_sendSigs (s : State) (qid idx : Nat) (rs : List (Nat × SigRead)) :
    (sendSigs s qid idx rs).homesWf = s.homesWf := by
  refine homesWf_foldl (fun t x => ?_) _ _
  split
  · split <;> simp
  · rfl

@[simp] theorem homesWf_requestNode (s : State) (n : Nat) (v : BitVec 16) : (requestNode s n v).homesWf = s.homesWf := rfl

@[simp] theorem homesWf_closeNode (s : State) (f : Flight) : (closeNode s f).homesWf = s.homesWf := by
  unfold closeNode
  split <;> simp

@[simp] theorem homesWf_countDown (s : State) (succ : List Nat) : (countDown s succ).homesWf = s.homesWf := by
  refine homesWf_foldl (fun t x => ?_) _ _
  simp

@[simp] theorem homesWf_giveTurn (s : State) (lv : Fin 24) (qid : Nat) : (giveTurn s lv qid).homesWf = s.homesWf := rfl

@[simp] theorem homesWf_releaseOne (n : Nat) (nd : Node) (s : State) (x : (Nat × Nat × Nat) × Fin 256) :
    (releaseOne n nd s x).homesWf = s.homesWf := by
  unfold releaseOne
  repeat' split
  all_goals simp

@[simp] theorem homesWf_releaseBatch (s : State) (b : Batch) (nd : Node) (cs : List (Fin 256)) :
    (releaseBatch s b nd cs).homesWf = s.homesWf := by
  unfold releaseBatch
  simp

@[simp] theorem homesWf_keepSelected (s : State) (q : Queue) (b : Batch) : (keepSelected s q b).homesWf = s.homesWf := rfl

@[simp] theorem homesWf_takeCharge (s : State) (blk : Block) (c : Nat) : (takeCharge s blk c).homesWf = s.homesWf := by
  unfold takeCharge
  split <;> simp

@[simp] theorem homesWf_endCheck (s : State) (n : Nat) : (endCheck s n).homesWf = s.homesWf := rfl
@[simp] theorem homesWf_closeBlock (s : State) (b : Nat) (blk : Block) : (closeBlock s b blk).homesWf = s.homesWf := rfl

@[simp] theorem homesWf_restoreOne (s : State) (b : Nat) : (restoreOne s b).homesWf = s.homesWf := by
  unfold restoreOne
  split
  · simp
  · split <;> simp

@[simp] theorem homesWf_modPend (s : State) (b w id : Nat) (f : Pend → Pend) : (modPend s b w id f).homesWf = s.homesWf := rfl
@[simp] theorem homesWf_modHPend (s : State) (b id : Nat) (f : HPend → HPend) : (modHPend s b id f).homesWf = s.homesWf := rfl

@[simp] theorem homesWf_modWatch (s : State) (p : Party) (f : WCmp → Size → WaitLane → WaitLane) :
    (modWatch s p f).homesWf = s.homesWf := by
  unfold modWatch
  split
  · simp
  · split <;> simp

@[simp] theorem homesWf_takeCwait (s : State) (b : Nat) (k : Fin 4) (l : Loc) (data : List Byte) :
    (takeCwait s b k l data).homesWf = s.homesWf := by
  unfold takeCwait
  repeat' split
  all_goals simp

@[simp] theorem homesWf_answerPart (s : State) (n : Nat) (bad : Bool) (o : Out) :
    (answerPart s n bad o).homesWf = s.homesWf := by
  unfold answerPart
  simp

@[simp] theorem homesWf_askMig (s : State) (r : MigReq) : (askMig s r).homesWf = s.homesWf := by
  unfold askMig
  split <;> simp

@[simp] theorem homesWf_prefetchPage (ctx : Fin 64) (ea : Nat) (s : State) (vp : Nat) :
    (prefetchPage ctx ea s vp).homesWf = s.homesWf := by
  unfold prefetchPage
  repeat' split
  all_goals simp

@[simp] theorem homesWf_enterWith (s : State) (r : RingRec) (n : Nat) : (enterWith s r n).homesWf = s.homesWf := by
  refine homesWf_foldl (fun t p => ?_) _ _
  split
  · rfl
  · split
    · split <;> simp
    · rfl

@[simp] theorem homesWf_passSeg (s : State) (b : Nat) (k : Fin 4) : (passSeg s b k).homesWf = s.homesWf := by
  unfold passSeg
  repeat' split
  all_goals simp

@[simp] theorem homesWf_modSession (s : State) (i : Fin 16) (f : Session → Session) :
    (modSession s i f).homesWf = s.homesWf := rfl
@[simp] theorem homesWf_releaseHeld (s : State) (mine : Nat → Nat → Bool) : (releaseHeld s mine).homesWf = s.homesWf := rfl
@[simp] theorem homesWf_freeFrames (s : State) (m : Mig) (e : BitVec 128) : (freeFrames s m e).homesWf = s.homesWf := rfl

@[simp] theorem homesWf_migStep (s : State) (sh : Shoot) : (migStep s sh).homesWf = s.homesWf := by
  unfold migStep
  split <;> simp

@[simp] theorem homesWf_divide (s : State) (v h : Nat) : (divide s v h).homesWf = s.homesWf := rfl

@[simp] theorem homesWf_testCore (s : State) (c : Fin 256) : (testCore s c).homesWf = s.homesWf := by
  unfold testCore
  split
  · simp
  · split <;> simp

@[simp] theorem homesWf_endReq (s : State) (result : BitVec 8) : (endReq s result).homesWf = s.homesWf := by
  unfold endReq
  split
  · simp
  · split <;> simp

@[simp] theorem homesWf_refuseUnknown (n : Nat) (s : State) : (refuseUnknown n s).homesWf = s.homesWf := by
  induction n generalizing s with
  | zero => rfl
  | succ n ih =>
    unfold refuseUnknown
    split
    · split
      · rfl
      · exact (ih _).trans (homesWf_endReq _ _)
    · rfl

@[simp] theorem homesWf_finishReq (s : State) (result : BitVec 8) : (finishReq s result).homesWf = s.homesWf := by
  unfold finishReq
  simp

@[simp] theorem homesWf_beginReq (s : State) : (beginReq s).homesWf = s.homesWf := rfl
@[simp] theorem homesWf_resumeAll (s : State) (n : Fin 64) : (resumeAll s n).homesWf = s.homesWf := rfl
@[simp] theorem homesWf_abortPackets (s : State) (n : Fin 64) : (abortPackets s n).homesWf = s.homesWf := rfl

@[simp] theorem homesWf_submitReq (s : State) (i : Fin 16) (v : Nat) : (submitReq s i v).homesWf = s.homesWf := by
  unfold submitReq
  split <;> simp

@[simp] theorem homesWf_mgmtBad (s : State) (i : Fin 16) : (mgmtBad s i).homesWf = s.homesWf := by
  unfold mgmtBad
  simp

@[simp] theorem homesWf_spdmSay (s : State) (r : SpdmResp) (v : BitVec 256) : (spdmSay s r v).homesWf = s.homesWf := rfl
@[simp] theorem homesWf_spdmFail (s : State) (code : BitVec 8) : (spdmFail s code).homesWf = s.homesWf := rfl
@[simp] theorem homesWf_tdispOk (s : State) (n : Fin 64) : (tdispOk s n).homesWf = s.homesWf := rfl
@[simp] theorem homesWf_countGang (s : State) (k : GCtx) : (countGang s k).homesWf = s.homesWf := rfl

@[simp] theorem homesWf_touchFetch (s : State) (core : Fin 256) (ctx : Fin 64) (dir : Nat) (pc : Word) :
    (touchFetch s core ctx dir pc).homesWf = s.homesWf := by
  unfold touchFetch
  split <;> simp

@[simp] theorem homesWf_countHelm (s : State) (b : Nat) : (countHelm s b).homesWf = s.homesWf := rfl

@[simp] theorem homesWf_touchRow (s : State) (a : EAgent) (op : EngOp) (r : RowKind) :
    (touchRow s a op r).homesWf = s.homesWf := by
  unfold touchRow
  simp

@[simp] theorem homesWf_touchFactor (s : State) (a : EAgent) (base stride len n : Nat) :
    (touchFactor s a base stride len n).homesWf = s.homesWf := by
  unfold touchFactor
  simp

@[simp] theorem homesWf_setOp (s : State) (b : Nat) (k : Fin 4) (op : EngOp) : (setOp s b k op).homesWf = s.homesWf := rfl
@[simp] theorem homesWf_passTime (s : State) (n : Nat) : (passTime s n).homesWf = s.homesWf := rfl


theorem homesWf_submitted (s : State) (i : Fin 16) (o : Option Shoot) : (submitted s i o).homesWf = s.homesWf := by
  cases o with
  | none => rw [submitted_none, homesWf_modSession]
  | some sh => rw [submitted_some]; rfl

@[simp] theorem homesWf_submitShoot (s : State) (i : Fin 16) : (submitShoot s i).homesWf = s.homesWf := by
  rw [submitShoot_eq, homesWf_submitted]

end Sys2Proof.Machine

/-! # The canonical form of the homes: writes, faults, and the frames of an instruction -/

namespace Sys2Proof.Machine

open Sys2Proof Sys2Proof.Claims

/-! ## Outcomes whose states have canonical homes -/

/-- Every state that an outcome goes on to has canonical homes. -/
def OutWf (o : Out1) : Prop := ∀ t, o = .next t → t.homesWf = true

/-- The state of an instruction that has not raised has canonical homes. -/
def ExWf {ε : Type} (o : Except ε State) : Prop := ∀ t, o = .ok t → t.homesWf = true

@[simp] theorem outWf_next {t : State} : OutWf (.next t) ↔ t.homesWf = true :=
  ⟨fun h => h t rfl, fun h _ ht => Host.Outcome.next.inj ht ▸ h⟩

@[simp] theorem outWf_fault (r : Fault) : OutWf (.fault r) := fun _ h => nomatch h
@[simp] theorem outWf_refused (r : Refusal) : OutWf (.refused r) := fun _ h => nomatch h

@[simp] theorem exWf_ok {ε : Type} {t : State} : ExWf (.ok t : Except ε State) ↔ t.homesWf = true :=
  ⟨fun h => h t rfl, fun h _ ht => Except.ok.inj ht ▸ h⟩

@[simp] theorem exWf_pure {ε : Type} {t : State} : ExWf (pure t : Except ε State) ↔ t.homesWf = true := exWf_ok

@[simp] theorem exWf_error {ε : Type} (r : ε) : ExWf (.error r : Except ε State) := fun _ h => nomatch h

theorem exWf_bind {ε α : Type} {x : Except ε α} {f : α → Except ε State} (h : ∀ a, ExWf (f a)) : ExWf (x >>= f) := by
  cases x with
  | error r => exact exWf_error r
  | ok a => exact h a

theorem exWf_map {ε α : Type} {x : Except ε α} {f : α → State} (h : ∀ a, (f a).homesWf = true) : ExWf (x.map f) := by
  cases x with
  | error r => exact exWf_error r
  | ok a => exact exWf_ok.2 (h a)

theorem exWf_map_state {ε : Type} {x : Except ε State} {f : State → State} (hx : ExWf x)
    (h : ∀ t, t.homesWf = true → (f t).homesWf = true) : ExWf (x.map f) := by
  cases x with
  | error r => exact exWf_error r
  | ok a => exact exWf_ok.2 (h a (exWf_ok.1 hx))

theorem exWf_bind_state {ε : Type} {x : Except ε State} {f : State → Except ε State} (hx : ExWf x)
    (h : ∀ t, t.homesWf = true → ExWf (f t)) : ExWf (x >>= f) := by
  cases x with
  | error r => exact exWf_error r
  | ok a => exact h a (exWf_ok.1 hx)

@[simp] theorem outWf_ite {p : Prop} [Decidable p] {a b : Out1} : OutWf (if p then a else b) ↔ if p then OutWf a else OutWf b := by
  split <;> rfl

@[simp] theorem exWf_ite {ε : Type} {p : Prop} [Decidable p] {a b : Except ε State} :
    ExWf (if p then a else b) ↔ if p then ExWf a else ExWf b := by
  split <;> rfl

theorem exWf_of_ite {ε : Type} {p : Prop} [Decidable p] {a b : Except ε State} (ha : ExWf a) (hb : ExWf b) :
    ExWf (if p then a else b) := by
  split
  · exact ha
  · exact hb

theorem foldl_wf {α : Type} {f : State → α → State} (h : ∀ s x, s.homesWf = true → (f s x).homesWf = true) (l : List α)
    {s : State} (hs : s.homesWf = true) : (l.foldl f s).homesWf = true := by
  induction l generalizing s with
  | nil => exact hs
  | cons x xs ih => exact ih (h s x hs)

/-- A fold over a state and what is gathered on the way. -/
theorem foldl_fst_wf {α β : Type} {f : State × β → α → State × β} (h : ∀ x a, x.1.homesWf = true → (f x a).1.homesWf = true)
    (l : List α) {x : State × β} (hx : x.1.homesWf = true) : (l.foldl f x).1.homesWf = true := by
  induction l generalizing x with
  | nil => exact hx
  | cons a l ih => exact ih (h x a hx)

section Writes

variable {s : State}

/-! ## Writes of the homes (R8, R138, R431) -/

@[simp] theorem putGranule_wf (a : Nat) (bytes : List Byte) (g : Nat) (h : s.homesWf = true) :
    ((putGranule a bytes s g).getD s).homesWf = true := by
  obtain ⟨hm, hs, hl⟩ := homesWf_iff.1 h
  unfold putGranule
  dsimp only
  split
  · exact h
  · exact homesWf_iff.2 ⟨memWrite_wf _ _ hm, hs, hl⟩

@[simp] theorem writeOwn_wf (a : Nat) (bytes : List Byte) (h : s.homesWf = true) : (writeOwn s a bytes).homesWf = true :=
  (homesWf_reachDev _ _ _).trans (foldl_wf (fun _ _ hu => putGranule_wf _ _ _ hu) _ h)

@[simp] theorem writeDev_wf (t : Report) (a : Nat) (bytes : List Byte) (h : s.homesWf = true) :
    (writeDev s t a bytes).homesWf = true := (writeDev_writesIn s t a bytes).homes h

@[simp] theorem writeLoc_wf (t : Report) (l : Loc) (bytes : List Byte) (h : s.homesWf = true) :
    (writeLoc s t l bytes).homesWf = true := (writeLoc_writesIn s t l bytes).homes h

@[simp] theorem checkLine_wf (t : Report) (n : BitVec 8) (x : State × List Nat) (line : Nat × Nat) (h : x.1.homesWf = true) :
    (checkLine t n x line).1.homesWf = true := by
  obtain ⟨hm, hs, hl⟩ := homesWf_iff.1 h
  unfold checkLine
  split
  · exact homesWf_iff.2 ⟨hm, hs, memSet_wf _ _ hl⟩
  · rwa [homesWf_report]

@[simp] theorem writeVersioned_wf (t : Report) (n : BitVec 8) (ws : List VerW) (h : s.homesWf = true) :
    (writeVersioned s t n ws).homesWf = true :=
  foldl_wf (fun _ line hu => foldl_wf (fun u g hu => (writeCover_writesIn t ws line u _).homes hu) _ hu) _
    (foldl_fst_wf (fun x line hx => checkLine_wf t n x line hx) _ h)

@[simp] theorem hubWrite_wf (a : Nat) (bytes : List Byte) (h : s.homesWf = true) : (hubWrite s a bytes).homesWf = true :=
  writeDev_wf noTag a bytes h

@[simp] theorem rmw_wf (t : Report) (l : Loc) (op : AtomOp) (u : Bool) (size : Size) (b1 b2 : Word64) (returns : Bool)
    (h : s.homesWf = true) : (rmw s t l op u size b1 b2 returns).1.homesWf = true := by
  unfold rmw
  dsimp only
  split
  · split <;> simp [h]
  · exact writeLoc_wf _ _ _ h

/-! ## Faults, records and page faults (R380, R415, R418) -/

@[simp] theorem logFault_wf (ctx : Fin 64) (mk : Nat → Nat) (h : s.homesWf = true) : (logFault s ctx mk).homesWf = true :=
  (logFault_offered s ctx mk).homes h

@[simp] theorem offer_wf (p : Party) (numbered : Bool) (f : FRec) (h : s.homesWf = true) :
    (offer s p numbered f).homesWf = true := (offer_offered s p numbered f).homes h

@[simp] theorem takeFault_wf (p : Party) (r : Raise) (numbered : Bool) (h : s.homesWf = true) :
    (takeFault s p r numbered).homesWf = true := offer_wf p numbered _ h

@[simp] theorem writeRing_wf (ctx : Fin 64) (n vpage : Nat) (kind : BitVec 4) (h : s.homesWf = true) :
    (writeRing s ctx n vpage kind).homesWf = true := writeOwn_wf _ _ (writeOwn_wf _ _ h)

@[simp] theorem ringFault_wf (ctx : Fin 64) (va : Nat) (kind : BitVec 4) (who : Option (Fin 256)) (h : s.homesWf = true) :
    (ringFault s ctx va kind who).homesWf = true := by
  unfold ringFault
  dsimp only
  split
  · exact h
  · split
    · exact h
    · exact writeRing_wf ctx _ _ kind h

@[simp] theorem pageWait_wf (k : GCtx) (cont : Bool) (kind : AKind) (ctx va lane ea : Nat) (h : s.homesWf = true) :
    (pageWait s k cont kind ctx va lane ea).homesWf = true := by
  unfold pageWait
  dsimp only
  split
  · split <;> simp [h]
  · simp [h]

/-! ## The frames of an instruction of a gang (R41, R63) -/

theorem onGang_wf (h : s.homesWf = true) {f : GCtx → Except Raise State} (hf : ∀ k, ExWf (f k)) : OutWf (onGang s f) := by
  unfold onGang
  split
  next k _ =>
    split
    next t ht => exact outWf_next.2 (hf k t ht)
    next r _ => exact outWf_next.2 (takeFault_wf _ _ _ h)
  next => split <;> simp [h]

theorem onLanes_wf (h : s.homesWf = true) {c : Ctl} {f : GCtx → LaneMask → Except Raise State} (hf : ∀ k m, ExWf (f k m)) :
    OutWf (onLanes s c f) := by
  refine onGang_wf h fun k => ?_
  split
  · exact exWf_error _
  · split
    · simp [h]
    · exact hf k _

theorem onResult_wf (h : s.homesWf = true) {c : Ctl} {d : Dst} {f : GCtx → LaneMask → Except Raise State}
    (hf : ∀ k m, ExWf (f k m)) : OutWf (onResult s c d f) := by
  refine onGang_wf h fun k => ?_
  split
  · exact exWf_error _
  · split
    · split <;> simp [h]
    · exact hf k _

theorem onDst_wf (h : s.homesWf = true) {c : Ctl} {d : Option Dst} {f : GCtx → LaneMask → Except Raise State}
    (hf : ∀ k m, ExWf (f k m)) : OutWf (onDst s c d f) := by
  cases d with
  | some d => exact onResult_wf h hf
  | none => exact onLanes_wf h hf

@[simp] theorem putResult_wf (k : GCtx) (d : Dst) (new : VVal) (mask : LaneMask) (h : s.homesWf = true) :
    ExWf (putResult s k d new mask) := by
  unfold putResult
  split <;> simp [h]

@[simp] theorem putResultF_wf (k : GCtx) (d : Dst) (r : VVal × Flags) (mask : LaneMask) (h : s.homesWf = true) :
    ExWf (putResultF s k d r mask) := exWf_map_state (putResult_wf k d r.1 mask h) fun t ht => by simp [ht]

@[simp] theorem addPend_wf (k : GCtx) (p : Pend) (h : s.homesWf = true) : ExWf (addPend s k p) :=
  exWf_map fun _ => by simp [h]

/-- An access either stops at a check, waits, or goes on from a state with the homes it had. -/
theorem withAccs_wf (h : s.homesWf = true) {k : GCtx} {m : LaneMask} {cont : Bool} {f : AccForm} {ver : Bool} {size : Size}
    {addr : Fin 128} {off : BitVec 18} {go : State → Bool → List LaneAcc → Except Raise State}
    (hgo : ∀ t uni accs, t.homesWf = true → ExWf (go t uni accs)) : ExWf (withAccs s k m cont f ver size addr off go) := by
  unfold withAccs
  split
  · exact exWf_error _
  · split
    · exact exWf_error _
    · simp [h]
    · split
      · simp [h]
      · exact hgo _ _ _ (by simp [h])

/-! ## The frames of an instruction of a helm and of a stream (R223, R291) -/

theorem onHelm_wf (h : s.homesWf = true) {f : HCtx → Except Raise State} (hf : ∀ k, ExWf (f k)) : OutWf (onHelm s f) := by
  unfold onHelm
  split
  next k _ =>
    split
    next t ht => exact outWf_next.2 (hf k t ht)
    next r _ => exact outWf_next.2 (takeFault_wf _ _ _ h)
  next => split <;> simp [h]

theorem onHelmC_wf (h : s.homesWf = true) {c : Ctl} {f : HCtx → Except Raise State} (hf : ∀ k, ExWf (f k)) :
    OutWf (onHelmC s c f) := by
  refine onHelm_wf h fun k => ?_
  split
  · exact hf k
  · simp [h]

theorem helmAcc_wf (h : s.homesWf = true) {k : HCtx} {f : AccForm} {size : Size} {ea : Int}
    {go : State → LaneAcc → Except Raise State} (hgo : ∀ t acc, t.homesWf = true → ExWf (go t acc)) :
    ExWf (helmAcc s k f size ea go) := by
  unfold helmAcc
  split
  · exact exWf_error _
  · simp [h]
  · split
    · simp [h]
    · exact hgo _ _ (by simp [h])

theorem onStream_wf (h : s.homesWf = true) {copies numbered : Bool} {f : SCtx → Except Raise State} (hf : ∀ k, ExWf (f k)) :
    OutWf (onStream s copies numbered f) := by
  unfold onStream
  split
  next k _ =>
    split
    · simp [h]
    · split
      next t ht => exact outWf_next.2 (hf k t ht)
      next r _ => exact outWf_next.2 (takeFault_wf _ _ _ h)
  next => split <;> simp [h]

end Writes

end Sys2Proof.Machine

/-! # The canonical form of the homes: instructions of gangs -/

namespace Sys2Proof.Machine

open Sys2Proof Sys2Proof.Claims

section Canonical

variable {s : State}

/-! ## Floating-point instructions -/

@[simp] theorem fop1_wf (c : Ctl) (d : Dst) (a : Src) (pk : Pack) (f : Word → Word × Flags) (h : s.homesWf = true) :
    OutWf (fop1 s c d a pk f) :=
  onResult_wf h fun k m => exWf_bind fun _ => by simp [h]

@[simp] theorem fop2_wf (c : Ctl) (d : Dst) (a b : Src) (pk : Pack) (kb : SrcKind) (f : Word → Word → Word × Flags)
    (h : s.homesWf = true) : OutWf (fop2 s c d a b pk kb f) :=
  onResult_wf h fun k m => exWf_bind fun _ => exWf_bind fun _ => by simp [h]

@[simp] theorem fop3_wf (c : Ctl) (d : Dst) (a b e : Src) (pk pc : Pack) (f : Word → Word → Word → Word × Flags)
    (h : s.homesWf = true) : OutWf (fop3 s c d a b e pk pc f) :=
  onResult_wf h fun k m => exWf_bind fun _ => exWf_bind fun _ => exWf_bind fun _ => by simp [h]

theorem execFsetp_wf (c : Ctl) (p : Fin 8) (a b : Src) (cmp : FCmp) (h : s.homesWf = true) :
    OutWf (execFsetp c p a b cmp s) :=
  onLanes_wf h fun k m => exWf_bind fun _ => exWf_bind fun _ => by simp [h]

/-! ## Integer, data and cross-lane instructions -/

@[simp] theorem op1_wf (c : Ctl) (d : Dst) (a : Src) (w : Width) (sg : Bool) (f : VVal → VVal) (h : s.homesWf = true) :
    OutWf (op1 s c d a w sg f) :=
  onResult_wf h fun k m => exWf_bind fun _ => by simp [h]

@[simp] theorem op2_wf (c : Ctl) (d : Dst) (a b : Src) (w : Width) (sga sgb : Bool) (f : VVal → VVal → VVal)
    (h : s.homesWf = true) : OutWf (op2 s c d a b w sga sgb f) :=
  onResult_wf h fun k m => exWf_bind fun _ => exWf_bind fun _ => by simp [h]

@[simp] theorem op3_wf (c : Ctl) (d : Dst) (a b e : Src) (w : Width) (sg : Bool) (f : VVal → VVal → VVal → VVal)
    (h : s.homesWf = true) : OutWf (op3 s c d a b e w sg f) :=
  onResult_wf h fun k m => exWf_bind fun _ => exWf_bind fun _ => exWf_bind fun _ => by simp [h]

theorem execIsetp_wf (c : Ctl) (p : Fin 8) (a b : Src) (cmp : ICmp) (u : Bool) (h : s.homesWf = true) :
    OutWf (execIsetp c p a b cmp u s) :=
  onLanes_wf h fun k m => exWf_bind fun _ => exWf_bind fun _ => by simp [h]

theorem execSel_wf (c : Ctl) (d : Dst) (a b : Src) (p : PSrc) (h : s.homesWf = true) : OutWf (execSel c d a b p s) :=
  onResult_wf h fun k m => exWf_bind fun _ => exWf_bind fun _ => exWf_bind fun _ => by simp [h]

theorem execMovi_wf (c : Ctl) (d : Dst) (imm : Word) (h : s.homesWf = true) : OutWf (execMovi c d imm s) :=
  onResult_wf h fun k m => by simp [h]

theorem execCvt_wf (c : Ctl) (d : Dst) (a : Src) (dt st : CvtType) (rm : RMode) (sat : Bool) (h : s.homesWf = true) :
    OutWf (execCvt c d a dt st rm sat s) :=
  onResult_wf h fun k m => exWf_bind fun _ => by simp [h]

theorem execSread_wf (c : Ctl) (d : Dst) (sel : Fin 10) (hi : Bool) (h : s.homesWf = true) : OutWf (execSread c d sel hi s) :=
  onResult_wf h fun k m => by simp [h]

theorem execVtag_wf (c : Ctl) (d : Dst) (a : RegSrc) (h : s.homesWf = true) : OutWf (execVtag c d a s) :=
  onResult_wf h fun k m => by simp [h]

theorem execVshape_wf (c : Ctl) (n : Fin 256) (h : s.homesWf = true) : OutWf (execVshape c n s) :=
  onLanes_wf h fun k m => by simp [h]

theorem execVexp_wf (c : Ctl) (n : Fin 256) (h : s.homesWf = true) : OutWf (execVexp c n s) :=
  onLanes_wf h fun k m => exWf_bind fun _ => by simp [h]

theorem execShfl_wf (c : Ctl) (d : Dst) (a b : Src) (mode : ShflMode) (h : s.homesWf = true) :
    OutWf (execShfl c d a b mode s) :=
  onResult_wf h fun k m => exWf_bind fun _ => exWf_bind fun _ => exWf_bind fun _ => by simp [h]

theorem execVote_wf (c : Ctl) (form : VoteForm) (p : PSrc) (h : s.homesWf = true) : OutWf (execVote c form p s) :=
  onLanes_wf h fun k m => exWf_bind fun _ => by
    dsimp only
    repeat' split
    all_goals simp [h]

theorem execRedx_wf (c : Ctl) (d : Dst) (a : Src) (op : RedOp) (sat u : Bool) (h : s.homesWf = true) :
    OutWf (execRedx c d a op sat u s) :=
  onResult_wf h fun k m => exWf_bind fun _ => by simp [h]

theorem execScanx_wf (c : Ctl) (d : Dst) (a : Src) (op : RedOp) (sat u : Bool) (h : s.homesWf = true) :
    OutWf (execScanx c d a op sat u s) :=
  onResult_wf h fun k m => exWf_bind fun _ => by simp [h]

theorem execXset_wf (c : Ctl) (x : Fin 8) (base limit vidx : Src) (h : s.homesWf = true) :
    OutWf (execXset c x base limit vidx s) :=
  onLanes_wf h fun k m => exWf_bind fun _ => exWf_bind fun _ => exWf_bind fun _ => by simp [h]

theorem execXclr_wf (c : Ctl) (x : Fin 8) (h : s.homesWf = true) : OutWf (execXclr c x s) :=
  onLanes_wf h fun k m => by simp [h]

theorem execPlop_wf (c : Ctl) (p : Fin 8) (a b : PSrc) (op : PLogic) (h : s.homesWf = true) : OutWf (execPlop c p a b op s) :=
  onLanes_wf h fun k m => exWf_bind fun _ => exWf_bind fun _ => by simp [h]

theorem execPmov_wf (c : Ctl) (form : PMovForm) (h : s.homesWf = true) : OutWf (execPmov c form s) := by
  cases form with
  | toP p a => exact onLanes_wf h fun k m => exWf_bind fun _ => by simp [h]
  | toV d p => exact onResult_wf h fun k m => exWf_bind fun _ => putResult_wf _ _ _ _ h

/-! ## Homes -/

@[simp] theorem mergeElem_wf (t : Report) (e : Elem) (code : Nat) (mig : Bool) (h : s.homesWf = true) :
    (mergeElem s t e code mig).homesWf = true := by
  unfold mergeElem
  repeat' split
  all_goals simp [h]

@[simp] theorem signalLoc_wf (t : Report) (a : LaneAcc) (op : SigOp) (v : Word64) (h : s.homesWf = true) :
    (signalLoc s t a op v).homesWf = true := by
  unfold signalLoc
  simp [h]

/-! ## Directories and transfers -/

@[simp] theorem failTransfer_wf (b w : Nat) (wp : Warp) (code : FCode) (cause addr : Nat) (h : s.homesWf = true) :
    (failTransfer s b w wp code cause addr).homesWf = true := by
  unfold failTransfer
  repeat' split
  all_goals simp [h]

/-! ## Control flow -/

@[simp] theorem branchGang_wf (k : GCtx) (bra : Bool) (r : Word) (groups : Nat → Groups) (h : s.homesWf = true) : ExWf
    (branchGang s k bra r groups) := by
  unfold branchGang
  dsimp only
  repeat' split
  all_goals simp [h]

theorem execBra_wf (c : Ctl) (rc : BitVec 18) (off : BitVec 32) (h : s.homesWf = true) : OutWf (execBra c rc off s) :=
  onGang_wf h fun k => exWf_bind fun _ => by simp [h]

theorem execBru_wf (c : Ctl) (t : BruTarget) (h : s.homesWf = true) : OutWf (execBru c t s) := by
  refine onGang_wf h fun k => exWf_bind fun taken => ?_
  split
  · simp [h]
  · split
    · exact exWf_error _
    · exact exWf_bind fun _ => by simp [h]

theorem execBrx_wf (c : Ctl) (rc : BitVec 18) (a : Src) (h : s.homesWf = true) : OutWf (execBrx c rc a s) :=
  onGang_wf h fun k => exWf_bind fun _ => exWf_bind fun _ => by simp [h]

theorem execCall_wf (c : Ctl) (off : BitVec 32) (h : s.homesWf = true) : OutWf (execCall c off s) := onGang_wf h fun k => by
  repeat' split
  all_goals simp [h]

theorem execCallx_wf (c : Ctl) (a : Src) (h : s.homesWf = true) : OutWf (execCallx c a s) := by
  refine onGang_wf h fun k => ?_
  split
  · exact exWf_error _
  · exact exWf_map fun _ => by simp [h]

theorem execRet_wf (c : Ctl) (h : s.homesWf = true) : OutWf (execRet c s) := onGang_wf h fun k => by
  dsimp only
  repeat' split
  all_goals simp [h]

@[simp] theorem regangTry_wf (b w : Nat) (slot : Fin 3) (waited : Bool) (p : Word) (h : s.homesWf = true) :
    (regangTry s b w slot waited p).homesWf = true := by
  unfold regangTry
  dsimp only
  repeat' split
  all_goals simp [h]

@[simp] theorem regangPlaces_wf (b w : Nat) (h : s.homesWf = true) : (regangPlaces s b w).homesWf = true := by
  unfold regangPlaces
  split
  · exact h
  · exact foldl_wf (fun _ _ hu => regangTry_wf _ _ _ _ _ hu) _ h

@[simp] theorem regangDead_wf (b w : Nat) (h : s.homesWf = true) : (regangDead s b w).homesWf = true := by
  unfold regangDead
  repeat' split
  all_goals simp [h]

@[simp] theorem regangAll_wf (b w : Nat) (h : s.homesWf = true) : (regangAll s b w).homesWf = true := by
  unfold regangAll
  simp [h]

theorem execRegang_wf (c : Ctl) (a : Src) (h : s.homesWf = true) : OutWf (execRegang c a s) :=
  onGang_wf h fun k => exWf_bind fun _ => by simp [h]

theorem execExit_wf (c : Ctl) (h : s.homesWf = true) : OutWf (execExit c s) := onLanes_wf h fun k m => by simp [h]
theorem execYield_wf (c : Ctl) (h : s.homesWf = true) : OutWf (execYield c s) := onLanes_wf h fun k m => by simp [h]

theorem execSafe_wf (c : Ctl) (n : BitVec 13) (h : s.homesWf = true) : OutWf (execSafe c n s) := onGang_wf h fun k => by
  repeat' split
  all_goals simp [h]

theorem execXfer_wf (c : Ctl) (a : Src) (bk : Bool) (h : s.homesWf = true) : OutWf (execXfer c a bk s) :=
  onLanes_wf h fun k m => exWf_bind fun _ => by simp [h]

theorem execTrap_wf (c : Ctl) (n : BitVec 13) (h : s.homesWf = true) : OutWf (execTrap c n s) :=
  onLanes_wf h fun k m => by simp [h]

@[simp] theorem finishRecomp_wf (k : GCtx) (h : s.homesWf = true) : (finishRecomp s k).homesWf = true := by
  unfold finishRecomp
  dsimp only
  repeat' split
  all_goals simp [h]

theorem execNop_wf (c : Ctl) (h : s.homesWf = true) : OutWf (execNop c s) := onGang_wf h fun k => by simp [h]
theorem execBkpt_wf (c : Ctl) (h : s.homesWf = true) : OutWf (execBkpt c s) := onLanes_wf h fun k m => by simp [h]

theorem execVersionTransfer_wf (b w : Nat) (h : s.homesWf = true) : OutWf (execVersionTransfer b w s) := by
  unfold execVersionTransfer
  dsimp only
  repeat' split
  all_goals simp [h]

/-! ## Memory instructions -/

theorem execLd_wf (c : Ctl) (d : Dst) (addr : Fin 128) (off : BitVec 18) (ord : Order) (scope : Scope) (raw sx : Bool)
    (size : Size) (h : s.homesWf = true) : OutWf (execLd c d addr off ord scope raw sx size s) :=
  onResult_wf h fun k m => exWf_bind fun _ => withAccs_wf h fun t uni accs ht =>
    exWf_bind_state (addPend_wf _ _ ht) fun u hu => by
      dsimp only
      split <;> simp [hu]

@[simp] theorem storeLanes_wf (t : Report) (ver : Option (BitVec 8)) (ws : List (LaneAcc × List Byte)) (h : s.homesWf = true) :
    (storeLanes s t ver ws).homesWf = true := by
  cases ver with
  | none =>
    refine foldl_wf (fun u w hu => ?_) _ h
    split <;> simp [hu]
  | some n => exact writeVersioned_wf _ _ _ h

theorem execSt_wf (c : Ctl) (addr : Fin 128) (data : Src) (off : BitVec 18) (ord : Order) (scope : Scope) (raw : Bool)
    (ver : Option (BitVec 8)) (size : Size) (h : s.homesWf = true) :
    OutWf (execSt c addr data off ord scope raw ver size s) :=
  onLanes_wf h fun k m => exWf_bind fun _ => exWf_bind fun _ => withAccs_wf h fun t uni accs ht => by simp [ht]

@[simp] theorem mergeCodes_wf (t : Report) (ver : Option (BitVec 8)) (cs : List LaneCode) (h : s.homesWf = true) :
    (mergeCodes s t ver cs).homesWf = true := by
  unfold mergeCodes
  dsimp only
  split
  · exact foldl_wf (fun u c hu => mergeElem_wf _ _ _ _ hu) _ (by simp [h])
  · exact writeVersioned_wf _ _ _ (by simp [h])

theorem execQst_wf (c : Ctl) (addr : Fin 128) (data : Src) (off : BitVec 18) (ord : Order) (scope : Scope)
    (ver : Option (BitVec 8)) (size : Size) (h : s.homesWf = true) : OutWf (execQst c addr data off ord scope ver size s) :=
  onLanes_wf h fun k m => exWf_bind fun _ => exWf_bind fun _ => withAccs_wf h fun t uni accs ht => by simp [ht]

@[simp] theorem runBuffered_wf (b : Nat) (a : BufAtom) (h : s.homesWf = true) : (runBuffered b s a).homesWf = true := by
  unfold runBuffered
  simp [h]

@[simp] theorem runEntries_wf (b : Nat) (l : List BufAtom) (h : s.homesWf = true) : (runEntries b l s).1.homesWf = true := by
  induction l generalizing s with
  | nil => exact h
  | cons a r ih =>
    rw [runEntries]
    split
    · exact h
    · exact ih (runBuffered_wf _ _ h)

@[simp] theorem drain_wf (b : Nat) (h : s.homesWf = true) : (drain s b).homesWf = true := by
  unfold drain
  split
  · exact h
  · exact runEntries_wf b _ h

theorem atomLane_wf {k : GCtx} {id : Nat} {t : Report} {op : AtomOp} {u fetch acq : Bool} {size : Size} {vals : List VVal}
    {x : State × List (Nat × Word64)} {a : LaneAcc} (h : x.1.homesWf = true) :
    (atomLane k id t op u fetch acq size vals x a).1.homesWf = true := by
  have hr := rmw_wf (t.at a.ea) a.loc op u size (atomData size vals a.lane).1 (atomData size vals a.lane).2 fetch h
  unfold atomLane
  dsimp only
  split
  · simp [h]
  · split
    next heq => rwa [heq] at hr
    next heq => rwa [heq] at hr

theorem execAtom_wf (c : Ctl) (d : Option Dst) (addr : Fin 128) (data : Src) (op : AtomOp) (u : Bool) (ord : Order)
    (scope : Scope) (size : Size) (h : s.homesWf = true) : OutWf (execAtom c d addr data op u ord scope size s) := by
  refine onDst_wf h fun k m => exWf_bind fun _ => exWf_bind fun vals => ?_
  cases d with
  | none =>
    refine exWf_bind fun idx => withAccs_wf h fun t uni accs ht => ?_
    dsimp only
    split
    · simp [h]
    · split
      · simp [ht]
      · exact exWf_pure.2 ((homesWf_advance _ _).trans (foldl_fst_wf (fun _ _ hx => atomLane_wf hx) _ ht))
  | some d =>
    refine exWf_bind fun idx => withAccs_wf h fun t uni accs ht => exWf_bind fun _ => ?_
    refine exWf_bind_state (addPend_wf _ _ (foldl_fst_wf (fun _ _ hx => atomLane_wf hx) _ ht)) fun v hv => ?_
    split <;> simp [hv]

@[simp] theorem closeCell_wf (node : Nat) (by_ : Option Party) (c : ACell) (h : s.homesWf = true) :
    (closeCell node by_ s c).homesWf = true := by
  unfold closeCell
  simp [h]

theorem execAtomo_wf (c : Ctl) (addr : Fin 128) (data : Src) (off : BitVec 18) (h : s.homesWf = true) :
    OutWf (execAtomo c addr data off s) :=
  onLanes_wf h fun k m => exWf_bind fun _ => exWf_bind fun _ => withAccs_wf h fun t uni accs ht => by simp [ht]

@[simp] theorem flushCells_wf (ctx : Fin 64) (node : Nat) (by_ : Party) (h : s.homesWf = true) :
    (flushCells s ctx node by_).homesWf = true := foldl_wf (fun _ _ hu => closeCell_wf _ _ _ hu) _ h

theorem execFence_wf (c : Ctl) (ord : Order) (scope : Scope) (flush : Bool) (h : s.homesWf = true) :
    OutWf (execFence c ord scope flush s) := by
  refine onLanes_wf h fun k m => ?_
  have h1 : (if scope = .wp then s else drain s k.b).homesWf = true := by
    split <;> simp [h]
  cases flush <;> simp [h1]

theorem execWaita_wf (c : Ctl) (d : Dst) (addr : Fin 128) (data : Src) (cmp : WCmp) (ord : Order) (scope : Scope)
    (size : Size) (h : s.homesWf = true) : OutWf (execWaita c d addr data cmp ord scope size s) := by
  refine onResult_wf h fun k m => exWf_bind fun _ => exWf_bind fun vals => exWf_bind fun idx => withAccs_wf h fun t uni accs ht =>
    exWf_bind fun _ => ?_
  split <;> simp [ht]

theorem execPref_wf (c : Ctl) (addr : Fin 128) (off : BitVec 18) (kind : PrefKind) (h : s.homesWf = true) :
    OutWf (execPref c addr off kind s) := by
  refine onGang_wf h fun k => exWf_ok.2 ((homesWf_advance _ _).trans (foldl_wf (fun t l ht => ?_) _ h))
  dsimp only
  split
  · split <;> simp [ht]
  · exact ht

end Canonical

end Sys2Proof.Machine

/-! # The canonical form of the homes: waits, the helm, writes of the engines -/

namespace Sys2Proof.Machine

open Sys2Proof Sys2Proof.Claims

section Canonical

variable {s : State}

/-! ## Barriers, timelines, signals and the queue -/

theorem execBara_wf (c : Ctl) (b n : Src) (h : s.homesWf = true) : OutWf (execBara c b n s) :=
  onLanes_wf h fun k m => exWf_bind fun _ => exWf_bind fun _ => by
    repeat' split
    all_goals simp [h]

@[simp] theorem waitBar_wf (k : GCtx) (bar : Nat) (r : Word × Bool) (h : s.homesWf = true) :
    (waitBar s k bar r).homesWf = true := by
  unfold waitBar
  simp [h]

theorem execBarw_wf (c : Ctl) (b : Src) (h : s.homesWf = true) : OutWf (execBarw c b s) :=
  onLanes_wf h fun k m => exWf_bind fun _ => by
    repeat' split
    all_goals simp [h]

theorem execBars_wf (c : Ctl) (b n : Src) (h : s.homesWf = true) : OutWf (execBars c b n s) :=
  onLanes_wf h fun k m => exWf_bind fun _ => exWf_bind fun _ => by
    repeat' split
    all_goals simp [h]

theorem execBarrierWaitComplete_wf (p : Party) (h : s.homesWf = true) : OutWf (execBarrierWaitComplete p s) := by
  unfold execBarrierWaitComplete
  repeat' split
  all_goals simp [h]

theorem execTwait_wf (c : Ctl) (p : Option (Fin 8)) (k : Fin 4) (n : TwN) (h : s.homesWf = true) :
    OutWf (execTwait c p k n s) := by
  refine onLanes_wf h fun g m => ?_
  cases n
  all_goals
    refine exWf_bind fun v => ?_
    dsimp only
    split <;> simp [h]

theorem execTwaitSatisfied_wf (p : Party) (h : s.homesWf = true) : OutWf (execTwaitSatisfied p s) := by
  unfold execTwaitSatisfied
  repeat' split
  all_goals simp [h]

@[simp] theorem deliverPop_wf (k : GCtx) (d : Dst) (idx : List (Nat × Fin 256)) (m : LaneMask) (r : Word × Nat)
    (h : s.homesWf = true) : ExWf (deliverPop s k d idx m r) := exWf_map fun _ => by simp [h]

theorem execDqpop_wf (c : Ctl) (d : Dst) (h : s.homesWf = true) : OutWf (execDqpop c d s) :=
  onLanes_wf h fun k m => exWf_bind fun _ => exWf_bind fun _ => by
    repeat' split
    all_goals simp [h]

theorem execDqpopDeliver_wf (p : Party) (h : s.homesWf = true) : OutWf (execDqpopDeliver p s) := by
  unfold execDqpopDeliver
  split
  · exact outWf_fault _
  next k _ =>
    split
    next d m _ =>
      split
      · simp [h]
      · split
        · simp [h]
        next r _ =>
          have hr := deliverPop_wf (s := s) k d k.g.reach m r h
          split
          next t ht => simp [exWf_ok.1 (ht ▸ hr)]
          next => simp [h]
    · simp [h]

theorem execSigop_wf (c : Ctl) (addr : Fin 128) (val : SigVal) (op : SigOp) (scope : Scope) (h : s.homesWf = true) :
    OutWf (execSigop c addr val op scope s) :=
  onLanes_wf h fun k m => exWf_bind fun _ => exWf_bind fun _ => by
    repeat' split
    all_goals simp [h]

/-! ## The helm -/

@[simp] theorem helmBin_wf (c : Ctl) (d : Fin 64) (a b : HSrc) (f : Word64 → Word64 → Word64) (h : s.homesWf = true) :
    OutWf (helmBin s c d a b f) :=
  onHelmC_wf h fun k => exWf_bind fun _ => exWf_bind fun _ => by simp [h]

@[simp] theorem helmLogic_wf (c : Ctl) (d : HDst) (a b : HSrc) (f : Word64 → Word64 → Word64) (h : s.homesWf = true) :
    OutWf (helmLogic s c d a b f) :=
  onHelmC_wf h fun k => exWf_bind fun _ => exWf_bind fun _ => by
    repeat' split
    all_goals simp [h]

theorem execScmp_wf (c : Ctl) (q : Fin 8) (a b : HSrc) (cmp : ICmp) (u : Bool) (h : s.homesWf = true) :
    OutWf (execScmp c q a b cmp u s) :=
  onHelmC_wf h fun k => exWf_bind fun _ => exWf_bind fun _ => by simp [h]

theorem execSsel_wf (c : Ctl) (d : Fin 64) (a b : HSrc) (q : Fin 8) (h : s.homesWf = true) : OutWf (execSsel c d a b q s) :=
  onHelmC_wf h fun k => exWf_bind fun _ => exWf_bind fun _ => by simp [h]

theorem execSmov_wf (c : Ctl) (d : HDst) (a : HSrc) (h : s.homesWf = true) : OutWf (execSmov c d a s) :=
  onHelmC_wf h fun k => exWf_bind fun _ => by
    repeat' split
    all_goals simp [h]

theorem execSmovi_wf (c : Ctl) (d : Fin 64) (imm : Word) (hi : Bool) (h : s.homesWf = true) :
    OutWf (execSmovi c d imm hi s) := by
  refine onHelmC_wf h fun k => ?_
  split
  · exact exWf_map fun _ => by simp [h]
  · simp [h]

theorem execSld_wf (c : Ctl) (d a : Fin 64) (off : BitVec 18) (ord : Order) (scope : Scope) (sx : Bool) (size : Size)
    (h : s.homesWf = true) : OutWf (execSld c d a off ord scope sx size s) :=
  onHelmC_wf h fun k => exWf_bind fun _ => helmAcc_wf h fun t acc ht => exWf_ok.2 <| by
    split <;> simp [ht]

theorem execSst_wf (c : Ctl) (a : Fin 64) (b : HSrc) (off : BitVec 18) (ord : Order) (scope : Scope) (size : Size)
    (h : s.homesWf = true) : OutWf (execSst c a b off ord scope size s) :=
  onHelmC_wf h fun k => exWf_bind fun _ => exWf_bind fun _ => helmAcc_wf h fun t acc ht =>
    exWf_ok.2 <| (homesWf_advanceHelm _ _).trans <| by
      split <;> simp [ht]

theorem execSatom_wf (c : Ctl) (d : Option (Fin 64)) (a b : Fin 64) (op : AtomOp) (u : Bool) (ord : Order) (scope : Scope)
    (size : Size) (h : s.homesWf = true) : OutWf (execSatom c d a b op u ord scope size s) := by
  refine onHelmC_wf h fun k => exWf_bind fun x => exWf_bind fun b1 => exWf_of_ite ?_ ?_
  all_goals
    refine exWf_bind fun b2 => helmAcc_wf h fun t acc ht => ?_
    cases d with
    | none =>
      dsimp only
      split
      · simp [h]
      · split
        · simp [ht]
        · split <;> simp [ht]
    | some dst =>
      refine exWf_ok.2 ?_
      simp only [homesWf_ite, homesWf_raiseFlags, ite_self]
      split <;> simp [ht]

@[simp] theorem execHelmLoadReturn_wf (id : Nat) (h : s.homesWf = true) : OutWf (execHelmLoadReturn id s) := by
  unfold execHelmLoadReturn
  dsimp only
  repeat' split
  all_goals simp [h]

theorem execSbr_wf (c : Ctl) (off : BitVec 32) (h : s.homesWf = true) : OutWf (execSbr c off s) :=
  onHelmC_wf h fun k => by simp [h]

theorem execSjmp_wf (c : Ctl) (a : Fin 64) (h : s.homesWf = true) : OutWf (execSjmp c a s) :=
  onHelmC_wf h fun k => exWf_map fun _ => by simp [h]

theorem execScall_wf (c : Ctl) (off : BitVec 32) (h : s.homesWf = true) : OutWf (execScall c off s) :=
  onHelmC_wf h fun k => by simp [h]

theorem execSret_wf (c : Ctl) (h : s.homesWf = true) : OutWf (execSret c s) := onHelmC_wf h fun k => by
  repeat' split
  all_goals simp [h]

theorem execDqpush_wf (c : Ctl) (v m : HSrc) (h : s.homesWf = true) : OutWf (execDqpush c v m s) :=
  onHelmC_wf h fun k => exWf_bind fun _ => exWf_bind fun _ => by simp [h]

theorem execDqpushAppend_wf (b : Nat) (h : s.homesWf = true) : OutWf (execDqpushAppend b s) := by
  unfold execDqpushAppend
  repeat' split
  all_goals simp [h]

@[simp] theorem forkNow_wf (k : HCtx) (ctx : Fin 4) (entry : Word) (h : s.homesWf = true) : ExWf (forkNow s k ctx entry) := by
  unfold forkNow
  simp [h]

theorem execFork_wf (c : Ctl) (k : Fin 4) (e : HSrc) (h : s.homesWf = true) : OutWf (execFork c k e s) := by
  refine onHelmC_wf h fun x => exWf_bind fun v => ?_
  split
  · simp [h]
  · exact exWf_bind_state (forkNow_wf _ _ _ h) fun t ht => by simp [ht]

theorem execForkStart_wf (b : Nat) (h : s.homesWf = true) : OutWf (execForkStart b s) := by
  unfold execForkStart
  split
  · exact outWf_fault _
  next blk _ =>
    split
    next k e _ =>
      split
      · simp [h]
      · have hf := forkNow_wf (s := s) { b := b, blk := blk } k e h
        split
        next t ht => simp [exWf_ok.1 (ht ▸ hf)]
        next => simp [h]
    · simp [h]

theorem execJoin_wf (c : Ctl) (k : Fin 4) (h : s.homesWf = true) : OutWf (execJoin c k s) := onHelmC_wf h fun k => by simp [h]

theorem execJoinComplete_wf (b : Nat) (h : s.homesWf = true) : OutWf (execJoinComplete b s) := by
  unfold execJoinComplete
  repeat' split
  all_goals simp [h]

theorem execHend_wf (c : Ctl) (h : s.homesWf = true) : OutWf (execHend c s) := onHelmC_wf h fun k => by
  repeat' split
  all_goals simp [h]

/-! ## Engines -/

theorem putBytes_wf (a : EAgent) (n : Nat) (ver : Option (BitVec 8)) (x : State × Lines) (va : Nat) (l : Loc) (bytes : List Byte)
    (h : x.1.homesWf = true) : (putBytes a n ver x va l bytes).1.homesWf = true := by
  unfold putBytes
  split
  · exact h
  · split <;> simp [h]

theorem putCode_wf (a : EAgent) (n : Nat) (ver : Option (BitVec 8)) (f : Nat) (x : State × Lines) (va : Nat) (l : Loc)
    (sub code : Nat) (last : Bool) (h : x.1.homesWf = true) : (putCode a n ver f x va l sub code last).1.homesWf = true := by
  unfold putCode
  split
  · simp [h]
  · exact h
  · exact putBytes_wf _ _ _ _ _ _ _ h

/-- Every state that a row gives has canonical homes. -/
def RowWf (o : Except RowStop RowOut) : Prop := ∀ r, o = .ok r → r.1.homesWf = true

theorem rowWf_ok {r : RowOut} (h : r.1.homesWf = true) : RowWf (.ok r) := fun _ hr => Except.ok.inj hr ▸ h
theorem rowWf_error (x : RowStop) : RowWf (.error x) := fun _ h => nomatch h

theorem rowWf_of_ite {p : Prop} [Decidable p] {a b : Except RowStop RowOut} (ha : RowWf a) (hb : RowWf b) :
    RowWf (if p then a else b) := by
  split
  · exact ha
  · exact hb

theorem rowWf_bind {α : Type} {x : Except RowStop α} {f : α → Except RowStop RowOut} (h : ∀ a, RowWf (f a)) :
    RowWf (x >>= f) := by
  cases x with
  | error r => exact rowWf_error r
  | ok a => exact h a

theorem putRow_wf (a : EAgent) (ver : Option (BitVec 8)) (ws : Lines) (h : s.homesWf = true) : RowWf (putRow s a ver ws) := by
  cases ver with
  | none => exact rowWf_ok h
  | some n =>
    unfold putRow
    dsimp only
    cases mapStop (verPlace s a) ws with
    | error x => exact rowWf_error x
    | ok xs => exact rowWf_ok (writeVersioned_wf _ _ _ h)

@[simp] theorem flushVer_wf (a : EAgent) (ver : Option (BitVec 8)) (ws : Lines) (h : s.homesWf = true) :
    (flushVer s a ver ws).homesWf = true := by
  unfold flushVer
  repeat' split
  all_goals simp [h]

theorem putCodes_wf (a : EAgent) (n : Nat) (ver : Option (BitVec 8)) (f : Nat) (base : Loc) (va : Nat → Nat) (l : List CodeW)
    (p : Option (Nat × List Byte)) (x : State × Lines) (h : x.1.homesWf = true) :
    (putCodes a n ver f base va l p x).1.homesWf = true := by
  induction l generalizing p x with
  | nil =>
    cases p with
    | none => exact h
    | some q => exact putBytes_wf _ _ _ _ _ _ _ h
  | cons c r ih =>
    cases c with
    | whole off b =>
      cases p with
      | none => exact ih _ _ h
      | some q =>
        rw [putCodes]
        split
        · exact ih _ _ h
        · exact ih _ _ (putBytes_wf _ _ _ _ _ _ _ h)
    | part off cs last =>
      refine ih _ _ (foldl_fst_wf (fun y c hy => putCode_wf _ _ _ _ _ _ _ _ _ _ hy) _ ?_)
      cases p with
      | none => exact h
      | some q => exact putBytes_wf _ _ _ _ _ _ _ h

theorem rawRun_wf (a : EAgent) (n : Nat) (ver : Option (BitVec 8)) (data : List (Run × List Byte))
    (w : (State × Lines) × Flags) (y : Run) (h : w.1.1.homesWf = true) : (rawRun a n ver data w y).1.1.homesWf = true := by
  unfold rawRun
  split
  · exact putBytes_wf _ _ _ _ _ _ _ h
  · exact putCodes_wf _ _ _ _ _ _ _ _ _ h

/-- A fold over a state, the lines gathered and flags. -/
theorem foldl_lines_wf {α : Type} {f : (State × Lines) × Flags → α → (State × Lines) × Flags}
    (hf : ∀ x a, x.1.1.homesWf = true → (f x a).1.1.homesWf = true) (l : List α) {x : (State × Lines) × Flags}
    (hx : x.1.1.homesWf = true) : (l.foldl f x).1.1.homesWf = true := by
  induction l generalizing x with
  | nil => exact hx
  | cons a l ih => exact ih (hf x a hx)

theorem rawRow_wf (a : EAgent) (ver : Option (BitVec 8)) (lines : Lines) (row : Row) (src dst len : Nat)
    (h : s.homesWf = true) : RowWf (rawRow s a ver lines row src dst len) :=
  rowWf_bind fun _ => rowWf_bind fun _ => rowWf_bind fun _ =>
    rowWf_ok (foldl_lines_wf (fun x y hx => rawRun_wf _ _ _ _ x y hx) _ h)

theorem gatherRow_wf (a : EAgent) (lines : Lines) (row : Row) (src dst len : Nat) (h : s.homesWf = true) :
    RowWf (gatherRow s a lines row src dst len) :=
  rowWf_bind fun _ => rowWf_bind fun _ => rowWf_bind fun _ => rowWf_bind fun _ => rawRow_wf _ _ _ _ _ _ _ h

@[simp] theorem redOne_wf (a : EAgent) (n op : Nat) (p : Nat × Loc) (x : Word) (h : s.homesWf = true) :
    (redOne a n op s p x).homesWf = true := by
  unfold redOne
  simp [h]

theorem redRow_wf (a : EAgent) (lines : Lines) (row : Row) (src dst len op : Nat) (h : s.homesWf = true) :
    RowWf (redRow s a lines row src dst len op) := by
  refine rowWf_bind fun xs => rowWf_bind fun ys => rowWf_bind fun _ => rowWf_bind fun _ => rowWf_bind fun _ => ?_
  split
  · exact rowWf_error _
  · exact rowWf_bind fun _ => rowWf_ok (foldl_wf (fun _ _ hu => redOne_wf _ _ _ _ _ hu) _ h)

theorem fillRow_wf (a : EAgent) (ver : Option (BitVec 8)) (lines : Lines) (row : Row) (dst len : Nat) (pat : Word64) (w : Nat)
    (h : s.homesWf = true) : RowWf (fillRow s a ver lines row dst len pat w) :=
  rowWf_bind fun _ => rowWf_bind fun _ => rowWf_bind fun _ =>
    rowWf_ok (foldl_fst_wf (fun _ _ hx => putBytes_wf _ _ _ _ _ _ _ hx) _ h)

theorem putElem_wf (a : EAgent) (n : Nat) (ver : Option (BitVec 8)) (v : FVal) (x : (State × Lines) × Flags) (p : Nat × Elem)
    (h : x.1.1.homesWf = true) : (putElem a n ver v x p).1.1.homesWf = true := putCode_wf _ _ _ _ _ _ _ _ _ _ h

theorem recodeRow_wf (a : EAgent) (ver : Option (BitVec 8)) (lines : Lines) (row : Row) (src dst r n : Nat) (ds : Int) (t : Bool)
    (h : s.homesWf = true) : RowWf (recodeRow s a ver lines row src dst r n ds t) := by
  refine rowWf_bind fun us => rowWf_bind fun ud => ?_
  split
  · exact rowWf_error _
  · refine rowWf_bind fun _ => rowWf_bind fun _ => rowWf_bind fun xs => rowWf_bind fun _ => rowWf_bind fun ys =>
      rowWf_bind fun _ => rowWf_bind fun _ => rowWf_bind fun data => rowWf_bind fun elems => rowWf_of_ite ?_ ?_
    · refine rowWf_ok ?_
      exact foldl_fst_wf (fun _ _ hx => putBytes_wf _ _ _ _ _ _ _ hx) _ h
    · refine rowWf_bind fun _ => rowWf_ok ?_
      exact foldl_lines_wf (fun _ _ hx => putElem_wf _ _ _ _ _ _ hx) _ h

theorem homesWf_commitFill {t : State} {b : Nat} {core : Fin 256} {fl : Fill} (ht : commitFill s b core fl = some t) :
    t.homesWf = s.homesWf := by
  unfold commitFill at ht
  dsimp only at ht
  split at ht
  · cases ht
    exact homesWf_modCore _ _ _
  · cases ht

/-! ## The matrix array -/

theorem tileRow_wf (a : EAgent) (core : Fin 256) (ver : Option (BitVec 8)) (lines : Lines) (row : Row) (t i dst n : Nat)
    (conv : MConv) (h : s.homesWf = true) : RowWf (tileRow s a core ver lines row t i dst n conv) := by
  refine rowWf_of_ite (rowWf_error _) (rowWf_bind fun ys => rowWf_bind fun _ => ?_)
  split
  · refine rowWf_bind fun _ => rowWf_ok ?_
    refine foldl_lines_wf (fun x p hx => ?_) _ h
    exact putElem_wf _ _ _ _ _ _ hx
  · refine rowWf_ok ?_
    exact foldl_fst_wf (fun _ _ hx => putBytes_wf _ _ _ _ _ _ _ hx) _ h

end Canonical

end Sys2Proof.Machine

/-! # The canonical form of the homes: engines and packets -/

namespace Sys2Proof.Machine

open Sys2Proof Sys2Proof.Claims

section Canonical

variable {s : State}

/-! ## Rows of engine operations -/

theorem homesWf_segFill (b : Nat) (core : Fin 256) (s : State) (a : EAgent) (row : Row) (m : Fin 64)
    (base stride rows len fmt : Nat) (sofar : Option Fill) :
    (segFill b core s a row m base stride rows len fmt sofar).1.homesWf = s.homesWf := by
  unfold segFill
  dsimp only
  split
  · exact homesWf_touchFactor _ _ _ _ _ _
  · split
    next t ht => exact (homesWf_commitFill ht).trans (homesWf_touchFactor _ _ _ _ _ _)
    next => exact homesWf_touchFactor _ _ _ _ _ _

/-- The first factor of a segment, where the second has not been begun. -/
theorem homesWf_firstFill {p : Prop} [Decidable p] {b : Nat} {core : Fin 256} {s : State} {a : EAgent} {row : Row} {m : Fin 64}
    {base stride rows len fmt : Nat} {fl : Option Fill} {r : State × Option Fill × Option RowStop}
    (hr : (if p then (s, none, none) else segFill b core s a row m base stride rows len fmt fl) = r) :
    r.1.homesWf = s.homesWf := by
  subst hr
  split
  · rfl
  · exact homesWf_segFill _ _ _ _ _ _ _ _ _ _ _ _

theorem homesWf_secondFill {b : Nat} {core : Fin 256} {s : State} {a : EAgent} {row : Row} {m : Fin 64}
    {base stride rows len fmt : Nat} {fl : Option Fill} {r : State × Option Fill × Option RowStop}
    (hr : segFill b core s a row m base stride rows len fmt fl = r) : r.1.homesWf = s.homesWf :=
  hr ▸ homesWf_segFill _ _ _ _ _ _ _ _ _ _ _ _

theorem homesWf_runSegs (b : Nat) (core : Fin 256) (a : EAgent) (fuel : Nat) (s : State) (row : Row) (fl : Option Fill) :
    (runSegs b core a fuel s row fl).1.homesWf = s.homesWf := by
  induction fuel generalizing s row fl with
  | zero => rfl
  | succ n ih =>
    rw [runSegs]
    split
    · dsimp only
      split
      · rfl
      · split
        · exact ih _ _ _
        · split
          · rfl
          · split
            next h1 => exact homesWf_firstFill h1
            next h1 =>
              split
              next h2 => exact (homesWf_secondFill h2).trans (homesWf_firstFill h1)
              next h2 =>
                have h3 := (homesWf_secondFill h2).trans (homesWf_firstFill h1)
                split
                · exact h3
                · exact (ih _ _ _).trans ((homesWf_raiseFlags _ _ _).trans ((homesWf_modCore _ _ _).trans
                    ((homesWf_addWork _ _ _ _).trans h3)))
    · rfl

/-- How a row's outcome goes into the operation's state. -/
def rowFin (s : State) (work : State → State) (b : Nat) (op : EngOp) (row : Row) (o : Except RowStop RowOut) :
    State × EngOp × Row × Option RowStop :=
  match o with
  | .ok (t, ws, fl) => (work (raiseFlags t b fl), { op with writes := ws }, row, none)
  | .error x => (s, op, row, some x)

theorem rowFin_wf {work : State → State} (hw : ∀ t, (work t).homesWf = t.homesWf) (b : Nat) (op : EngOp) (row : Row)
    {o : Except RowStop RowOut} (ho : RowWf o) (h : s.homesWf = true) : (rowFin s work b op row o).1.homesWf = true := by
  cases o with
  | ok r => exact (hw _).trans ((homesWf_raiseFlags _ _ _).trans (ho r rfl))
  | error x => exact h

/-- What a row's work counts and touches. -/
def rowWork (s : State) (a : EAgent) (b : Nat) (op : EngOp) (kind : RowKind) (t : State) : State :=
  touchRow (addWork t b 0 (rowBytes s a op kind)) a op kind

theorem homesWf_rowWork (s : State) (a : EAgent) (b : Nat) (op : EngOp) (kind : RowKind) (t : State) :
    (rowWork s a b op kind t).homesWf = t.homesWf := by
  simp [rowWork]

theorem runRow_wf (b : Nat) (blk : Block) (a : EAgent) (op : EngOp) (row : Row) (h : s.homesWf = true) :
    (runRow b blk a s op row).1.homesWf = true := by
  have hfin (o : Except RowStop RowOut) (ho : RowWf o) :
      (rowFin s (rowWork s a b op row.kind) b op row o).1.homesWf = true :=
    rowFin_wf (homesWf_rowWork s a b op row.kind) b op row ho h
  unfold runRow
  dsimp only
  split
  · exact hfin _ (rawRow_wf _ _ _ _ _ _ _ h)
  · exact hfin _ (gatherRow_wf _ _ _ _ _ _ h)
  · exact hfin _ (redRow_wf _ _ _ _ _ _ _ h)
  · exact hfin _ (fillRow_wf _ _ _ _ _ _ _ _ h)
  · exact hfin _ (recodeRow_wf _ _ _ _ _ _ _ _ _ _ h)
  · exact hfin _ (tileRow_wf _ _ _ _ _ _ _ _ _ _ h)
  · split
    · exact h
    · split
      · exact (homesWf_rowWork s a b op row.kind s).trans h
      · exact h
  · exact (homesWf_runSegs _ _ _ _ _ _ _).trans h
  · exact hfin _ (putRow_wf _ _ _ h)
  · exact h

theorem sendRow_wf (a : EAgent) (row : Row) (rs : List (Nat × Loc × Nat)) (h : s.homesWf = true) :
    (sendRow a s row rs).1.homesWf = true := by
  refine foldl_fst_wf (fun x r hx => ?_) _ h
  exact (homesWf_sendFab _ _ _ _ _ _ _).trans hx

theorem waitRow_wf (b : Nat) (a : EAgent) (op : EngOp) (row : Row) (ctx vp : Nat) (kind : Option (BitVec 4))
    (h : s.homesWf = true) : (waitRow s b a op row ctx vp kind).1.homesWf = true := by
  cases kind <;> simp [waitRow, h]

theorem runRows_wf (b : Nat) (blk : Block) (a : EAgent) (rows : List Row) (op : EngOp) (h : s.homesWf = true) :
    (runRows b blk a rows s op).1.homesWf = true := by
  induction rows generalizing s op with
  | nil => exact h
  | cons row rest ih =>
    have hr := runRow_wf b blk a op row h
    rw [runRows]
    split
    · exact ih _ h
    · split
      next heq => exact ih _ (by rwa [heq] at hr)
      next heq => rwa [heq] at hr
      next heq => rwa [heq] at hr
      next t op1 row1 ctx vp kind heq =>
        rw [heq] at hr
        exact ih _ (waitRow_wf b a op1 row1 ctx vp kind hr)
      next heq =>
        rw [heq] at hr
        exact ih _ (sendRow_wf _ _ _ hr)
      next heq => exact ih _ (by rwa [heq] at hr)

@[simp] theorem opFault_wf (b : Nat) (k : Fin 4) (op : EngOp) (r : Raise) (lane : Nat) (h : s.homesWf = true) :
    (opFault s b k op r lane).homesWf = true := by
  unfold opFault
  simp [h]

theorem homesWf_finishRows (s : State) (b : Nat) (core : Fin 256) (op : EngOp) :
    (finishRows s b core op).1.homesWf = s.homesWf := by
  unfold finishRows
  split
  · rfl
  · split
    next ht => exact homesWf_commitFill ht
    next => rfl

theorem execOperationComplete_wf (b : Nat) (k : Fin 4) (n : Nat) (h : s.homesWf = true) :
    OutWf (execOperationComplete b k n s) := by
  unfold execOperationComplete
  repeat' split
  all_goals simp [h]

@[simp] theorem streamPage_wf (k : SCtx) (kind : AKind) (ctx va : Nat) (h : s.homesWf = true) :
    (streamPage s k kind ctx va).homesWf = true := by
  unfold streamPage
  simp [h]

@[simp] theorem dropOp_wf (k : SCtx) (r : Raise) (h : s.homesWf = true) : (dropOp s k r).homesWf = true := by
  unfold dropOp
  simp [h]

@[simp] theorem stopOp_wf (k : SCtx) (a : RowStop) (h : s.homesWf = true) : (stopOp s k a).homesWf = true := by
  unfold stopOp
  repeat' split
  all_goals simp [h]

@[simp] theorem stopRows_wf (b : Nat) (k : Fin 4) (a : EAgent) (op : EngOp) (x : RowFail) (h : s.homesWf = true) :
    (stopRows s b k a op x).homesWf = true := by
  unfold stopRows
  simp [h]

@[simp] theorem pump_wf (b : Nat) (k : Fin 4) (blk : Block) (op : EngOp) (h : s.homesWf = true) :
    (pump s b k blk op).homesWf = true := by
  have hr := runRows_wf b blk (opAgent s b k op blk) op.rows op h
  unfold pump
  dsimp only
  split
  next heq =>
    rw [heq] at hr
    exact stopRows_wf _ _ _ _ _ hr
  next t op1 heq =>
    rw [heq] at hr
    have hf := homesWf_finishRows t b blk.core op1
    split
    · exact (homesWf_setOp _ _ _ _).trans hr
    · split
      next heq =>
        rw [heq] at hf
        exact stopRows_wf _ _ _ _ _ (hf.trans hr)
      next heq =>
        rw [heq] at hf
        exact (homesWf_passSeg _ _ _).trans ((homesWf_setOp _ _ _ _).trans (hf.trans hr))

@[simp] theorem startOp_wf (b : Nat) (k : Fin 4) (blk : Block) (op : EngOp) (h : s.homesWf = true) :
    (startOp s b k blk op).homesWf = true := by
  unfold startOp
  dsimp only
  split
  · simp [h]
  · simp [h]
  · simp [h]
  · exact (homesWf_setOp _ _ _ _).trans (waitRow_wf _ _ _ _ _ _ _ h)
  · exact h

@[simp] theorem runOp_wf (b : Nat) (k : Fin 4) (n : Nat) (h : s.homesWf = true) : (runOp s b k n).homesWf = true := by
  unfold runOp
  repeat' split
  all_goals simp [h]

/-! ## Packets -/

@[simp] theorem hubFault_wf (ctx vp : Nat) (kind : Option (BitVec 4)) (hx : Held) (h : s.homesWf = true) :
    (hubFault s ctx vp kind hx).homesWf = true := by
  unfold hubFault
  repeat' split
  all_goals simp [h]

@[simp] theorem writeBounds_wf (lv : Fin 24) (h : s.homesWf = true) : (writeBounds s lv).homesWf = true :=
  foldl_wf (fun _ _ hu => hubWrite_wf _ _ hu) _ h

@[simp] theorem descBit_wf (q : Queue) (i : Nat) (v : Bool) (h : s.homesWf = true) : (descBit s q i v).homesWf = true := by
  unfold descBit
  simp [h]

@[simp] theorem queueError_wf (q : Queue) (e : BitVec 8) (h : s.homesWf = true) : (queueError s q e).homesWf = true :=
  writeBounds_wf _ ((homesWf_modQueue _ _ _).trans (descBit_wf _ _ _ (hubWrite_wf _ _ h)))

@[simp] theorem setHolding_wf (q : Queue) (v : Bool) (h : s.homesWf = true) : (setHolding s q v).homesWf = true := by
  unfold setHolding
  simp [h]

@[simp] theorem stallQueue_wf (q : Queue) (c vp : Nat) (kd : Option (BitVec 4)) (h : s.homesWf = true) :
    (stallQueue s q c vp kd).homesWf = true := by
  unfold stallQueue
  simp [h]

theorem fetchPacket_wf {q : Queue} {t : State} (ht : fetchPacket s q = .error t) (h : s.homesWf = true) : t.homesWf = true := by
  unfold fetchPacket at ht
  split at ht
  · cases ht
  · split at ht
    · cases ht
    · cases ht
      simp [h]
    · cases ht
      simp [h]

theorem startPacket_wf (h : s.homesWf = true) {qid : Nat} {want : Nat → Bool} {go : State → Queue → Nat → State}
    (hgo : ∀ t q p, t.homesWf = true → (go t q p).homesWf = true) : OutWf (startPacket s qid want go) := by
  unfold startPacket
  split
  · exact outWf_fault _
  next q _ =>
    split
    · simp [h]
    · split
      next ht => exact outWf_next.2 (fetchPacket_wf ht h)
      next p _ =>
        dsimp only
        split
        · simp [h]
        · split
          · simp [h]
          · split
            · simp [h]
            · have h1 : (if q.holding = true then setHolding (modQueue s qid fun x => { x with fetched := some p }) q false
                  else modQueue s qid fun x => { x with fetched := some p }).homesWf = true := by
                split <;> simp [h]
              split
              · exact outWf_next.2 ((homesWf_addFlight _ _ _).trans h1)
              · exact outWf_next.2 (hgo _ _ _ h1)

theorem execWriteIndexObserved_wf (qid : Nat) (h : s.homesWf = true) : OutWf (execWriteIndexObserved qid s) := by
  unfold execWriteIndexObserved
  split
  · exact outWf_fault _
  · split
    · simp [h]
    · split
      · simp [h]
      · simp [h]
      · dsimp only
        split
        · simp [h]
        · exact startPacket_wf (by simp [h]) fun t _ _ ht => ht

@[simp] theorem takeNode_wf (q : Queue) (p : Nat) (h : s.homesWf = true) : (takeNode s q p).homesWf = true := by
  unfold takeNode
  dsimp only
  repeat' split
  all_goals simp [h]

theorem execNodePacket_wf (qid : Nat) (h : s.homesWf = true) : OutWf (execNodePacket qid s) :=
  startPacket_wf h fun _ q p ht => takeNode_wf q p ht

/-- A COPY's row is a row of an engine, whose reports are its own faults. -/
theorem runCopy_wf (ctx : Fin 64) (why : FabFor) (j : CopyJob) (h : s.homesWf = true) : (runCopy s ctx why j).s.homesWf = true := by
  unfold runCopy
  dsimp only
  split
  · exact h
  next src dst len _ _ =>
    have hr := rawRow_wf (s := { s with reports := [] }) { who := none, ctx := ctx, tag := noTag, b := none, why := fun _ => why }
      j.ver [] j.row src dst len h
    split
    next t ws fl heq =>
      have ht : t.homesWf = true := hr _ heq
      cases j.ver with
      | none => exact ht
      | some n => exact writeVersioned_wf _ _ _ ht
    · exact h
    · exact h
    · exact hubFault_wf _ _ _ _ h
    · refine foldl_fst_wf (fun x r hx => ?_) _ h
      exact (homesWf_sendFab _ _ _ _ _ _ _).trans hx
    · exact h
  · exact h

@[simp] theorem logCopy_wf (ctx : Fin 64) (qid pidx : Nat) (fs : List (Raise × Nat)) (h : s.homesWf = true) :
    (logCopy s ctx qid pidx fs).homesWf = true := foldl_wf (fun _ _ hu => logFault_wf _ _ hu) _ h

@[simp] theorem landCopyPacket_wf (qid idx : Nat) (ctx : Fin 64) (o : CopyOut) (h : o.s.homesWf = true) :
    (landCopyPacket qid idx ctx o).homesWf = true := logCopy_wf _ _ _ _ h

@[simp] theorem pumpCopyPacket_wf (qid idx : Nat) (h : s.homesWf = true) : (pumpCopyPacket s qid idx).homesWf = true := by
  unfold pumpCopyPacket
  split
  · exact h
  · split
    · exact h
    · split
      · split
        · exact h
        · exact landCopyPacket_wf _ _ _ _ (runCopy_wf _ _ _ h)
      · exact h

@[simp] theorem landCopyNode_wf (n : Nat) (nd : Node) (o : CopyOut) (h : o.s.homesWf = true) :
    (landCopyNode n nd o).homesWf = true := logCopy_wf _ _ _ _ h

@[simp] theorem pumpCopyNode_wf (n : Nat) (h : s.homesWf = true) : (pumpCopyNode s n).homesWf = true := by
  unfold pumpCopyNode
  split
  · exact h
  · split
    · exact h
    · split
      · exact h
      · split
        · simp [h]
        · exact landCopyNode_wf _ _ _ (runCopy_wf _ _ _ h)

theorem execCopyPacket_wf (qid : Nat) (h : s.homesWf = true) : OutWf (execCopyPacket qid s) := by
  unfold execCopyPacket
  split
  · simp [h]
  · refine startPacket_wf h fun t q p ht => ?_
    dsimp only
    split <;> simp [ht]

@[simp] theorem runRound_wf (q : Queue) (f : Flight) (sigs : List Nat) (got : List (Nat × Word64)) (h : s.homesWf = true) :
    (runRound s q f sigs got).homesWf = true := by
  unfold runRound
  dsimp only
  repeat' split
  all_goals simp [h]

theorem execBarrierPacket_wf (qid : Nat) (h : s.homesWf = true) : OutWf (execBarrierPacket qid s) := by
  refine startPacket_wf h fun t q p ht => ?_
  dsimp only
  split <;> simp [ht]

@[simp] theorem nextRound_wf (qid n : Nat) (h : s.homesWf = true) : OutWf (nextRound s qid n) := by
  unfold nextRound
  repeat' split
  all_goals simp [h]

@[simp] theorem trySignal_wf (qid idx : Nat) (h : s.homesWf = true) : (trySignal s qid idx).homesWf = true := by
  unfold trySignal
  dsimp only
  repeat' split
  all_goals simp [h]

theorem execSignalPacket_wf (qid : Nat) (h : s.homesWf = true) : OutWf (execSignalPacket qid s) :=
  startPacket_wf h fun _ _ _ ht => trySignal_wf _ _ ((homesWf_addFlight _ _ _).trans ht)

theorem execXferPacket_wf (qid : Nat) (h : s.homesWf = true) : OutWf (execXferPacket qid s) := by
  refine startPacket_wf h fun t q p ht => ?_
  dsimp only
  split
  · simp [ht]
  · split
    · simp [ht]
    · split
      · simp [ht]
      · split <;> simp [ht]

theorem execNopPacket_wf (qid : Nat) (h : s.homesWf = true) : OutWf (execNopPacket qid s) :=
  startPacket_wf h fun _ _ _ ht => (homesWf_addFlight _ _ _).trans ht

@[simp] theorem graphFault_wf (g : Nat) (r : Raise) (h : s.homesWf = true) : (graphFault s g r).homesWf = true := by
  unfold graphFault
  dsimp only
  repeat' split
  all_goals simp [h]

@[simp] theorem breakCycle_wf (g : Nat) (h : s.homesWf = true) : (breakCycle s g).homesWf = true := by
  unfold breakCycle
  simp [h]

@[simp] theorem takeGraph_wf (q : Queue) (p : Nat) (h : s.homesWf = true) : (takeGraph s q p).homesWf = true := by
  unfold takeGraph
  dsimp only
  repeat' split
  all_goals simp [h]

theorem execGraphPacket_wf (qid : Nat) (h : s.homesWf = true) : OutWf (execGraphPacket qid s) :=
  startPacket_wf h fun _ q p ht => takeGraph_wf q p ht

theorem execGraphNodeComplete_wf (n : Nat) (h : s.homesWf = true) : OutWf (execGraphNodeComplete n s) := by
  unfold execGraphNodeComplete
  dsimp only
  repeat' split
  all_goals simp [h]

@[simp] theorem retireNow_wf (q : Queue) (f : Flight) (h : s.homesWf = true) : (retireNow s q f).homesWf = true := by
  unfold retireNow
  dsimp only
  repeat' split
  all_goals simp [h]

@[simp] theorem retireSteps_wf (qid idx fuel : Nat) (h : s.homesWf = true) : (retireSteps qid idx fuel s).homesWf = true := by
  induction fuel generalizing s with
  | zero => exact h
  | succ n ih =>
    rw [retireSteps]
    dsimp only
    repeat' split
    all_goals simp [h, ih]

theorem execPacketRetire_wf (qid n : Nat) (h : s.homesWf = true) : OutWf (execPacketRetire qid n s) := by
  unfold execPacketRetire
  repeat' split
  all_goals simp [h]

@[simp] theorem answerRetire_wf (qid idx : Nat) (v : Option Word64) (ok : Bool) (h : s.homesWf = true) :
    (answerRetire s qid idx v ok).homesWf = true := by
  unfold answerRetire
  dsimp only
  repeat' split
  all_goals simp [h]

/-! ## Copy instructions -/

@[simp] theorem copyOp_wf (k : SCtx) (p : Fin 64) (c : CopyKind) (h : s.homesWf = true) : ExWf (copyOp s k p c) := by
  unfold copyOp
  simp [h]

theorem execCpy_wf (c : Ctl) (p : Fin 64) (h : s.homesWf = true) : OutWf (execCpy c p s) := onStream_wf h fun k => by simp [h]

theorem execCpys_wf (c : Ctl) (p : Fin 64) (h : s.homesWf = true) : OutWf (execCpys c p s) :=
  onStream_wf h fun k => by simp [h]

theorem execCgath_wf (c : Ctl) (p : Fin 64) (h : s.homesWf = true) : OutWf (execCgath c p s) :=
  onStream_wf h fun k => by simp [h]

theorem execCscat_wf (c : Ctl) (p : Fin 64) (h : s.homesWf = true) : OutWf (execCscat c p s) :=
  onStream_wf h fun k => by simp [h]

theorem execCred_wf (c : Ctl) (p : Fin 64) (h : s.homesWf = true) : OutWf (execCred c p s) :=
  onStream_wf h fun k => by simp [h]

theorem execCfill_wf (c : Ctl) (p : Fin 64) (h : s.homesWf = true) : OutWf (execCfill c p s) :=
  onStream_wf h fun k => by simp [h]

theorem execCslot_wf (c : Ctl) (m p : Fin 64) (h : s.homesWf = true) : OutWf (execCslot c m p s) :=
  onStream_wf h fun k => by simp [h]

theorem execCrecode_wf (c : Ctl) (p : Fin 64) (t : Bool) (h : s.homesWf = true) : OutWf (execCrecode c p t s) :=
  onStream_wf h fun k => by simp [h]

@[simp] theorem acceptGather_wf (k : GCtx) (d : Fin 128) (m : LaneMask) (rows : List (Nat × Nat × Nat)) (len : Nat)
    (h : s.homesWf = true) : ExWf (acceptGather s k d m rows len) := by
  unfold acceptGather
  simp [h]

theorem execTgath_wf (c : Ctl) (d a b : Fin 128) (len : Src) (h : s.homesWf = true) : OutWf (execTgath c d a b len s) := by
  refine onLanes_wf h fun k m => exWf_bind fun _ => exWf_bind fun _ => exWf_bind fun _ => exWf_of_ite ?_ ?_
  · exact exWf_bind fun _ => acceptGather_wf _ _ _ _ _ h
  · exact exWf_bind fun _ => by simp [h]

theorem execTgathAccept_wf (p : Party) (h : s.homesWf = true) : OutWf (execTgathAccept p s) := by
  unfold execTgathAccept
  split
  · exact outWf_fault _
  next k _ =>
    split
    next d m rows _ len _ =>
      have hr := acceptGather_wf (s := s) k d m rows len h
      split
      next t ht => exact outWf_next.2 (exWf_ok.1 (ht ▸ hr))
      next => simp [h]
    · simp [h]

theorem execCsig_wf (c : Ctl) (form : CSigForm) (h : s.homesWf = true) : OutWf (execCsig c form s) :=
  onStream_wf h fun k => by
    dsimp only
    repeat' split
    all_goals simp [h]

theorem execCwait_wf (c : Ctl) (form : CWaitForm) (h : s.homesWf = true) : OutWf (execCwait c form s) :=
  onStream_wf h fun k => by
    dsimp only
    repeat' split
    all_goals simp [h]

theorem execCwaitSatisfied_wf (b : Nat) (k : Fin 4) (h : s.homesWf = true) : OutWf (execCwaitSatisfied b k s) := by
  unfold execCwaitSatisfied
  repeat' split
  all_goals simp [h]

theorem execCloop_wf (c : Ctl) (n : PC) (len : BitVec 16) (h : s.homesWf = true) : OutWf (execCloop c n len s) :=
  onStream_wf h fun k => exWf_map fun _ => by simp [h]

theorem execCend_wf (c : Ctl) (h : s.homesWf = true) : OutWf (execCend c s) := onStream_wf h fun k => by simp [h]

/-! ## Matrix instructions -/

theorem execMclaim_wf (c : Ctl) (a : Fin 48) (m : Fin 64) (ns nt : BitVec 16) (h : s.homesWf = true) :
    OutWf (execMclaim c a m ns nt s) :=
  onStream_wf h fun k => by simp [h]

theorem execMclaimTaken_wf (b : Nat) (h : s.homesWf = true) : OutWf (execMclaimTaken b s) := by
  unfold execMclaimTaken
  repeat' split
  all_goals simp [h]

theorem execMrel_wf (c : Ctl) (a : Fin 48) (m : Fin 64) (ns nt : BitVec 16) (h : s.homesWf = true) :
    OutWf (execMrel c a m ns nt s) :=
  onStream_wf h fun k => by simp [h]

theorem withGrant_wf (h : s.homesWf = true) {k : SCtx} {bit : Nat} {go : Except Raise State} (hgo : ExWf go) :
    ExWf (withGrant s k bit go) := by
  unfold withGrant
  dsimp only
  split
  · split
    · exact hgo
    · simp [h]
  · simp [h]

theorem execMcur_wf (c : Ctl) (profile : BitVec 16) (h : s.homesWf = true) : OutWf (execMcur c profile s) :=
  onStream_wf h fun k => by simp [h]

theorem execMatrixGrant_wf (b : Nat) (h : s.homesWf = true) : OutWf (execMatrixGrant b s) := by
  unfold execMatrixGrant
  dsimp only
  repeat' split
  all_goals simp [h]

@[simp] theorem matrixOp_wf (k : SCtx) (check : Core → Option FCode) (act : Core → Core × Flags)
    (h : s.homesWf = true) : ExWf (matrixOp s k check act) := by
  unfold matrixOp
  dsimp only
  repeat' split
  all_goals simp [h]

theorem execMma_wf (c : Ctl) (d : Fin 48) (a b : Fin 64) (kind : MmaKind) (h : s.homesWf = true) :
    OutWf (execMma c d a b kind s) := by
  refine onStream_wf h fun k => exWf_of_ite (exWf_ok.2 h) ?_
  split
  · exact exWf_error _
  · exact withGrant_wf h (matrixOp_wf _ _ _ ((homesWf_addWork _ _ _ _).trans h))

theorem execMmag_wf (c : Ctl) (d : Fin 48) (x g p : Fin 64) (h : s.homesWf = true) : OutWf (execMmag c d x g p s) := by
  refine onStream_wf h fun k => exWf_of_ite (exWf_ok.2 h) ?_
  dsimp only
  split
  · exact exWf_error _
  · refine exWf_of_ite (exWf_error _) (withGrant_wf h ?_)
    split
    · simp [h]
    · refine exWf_of_ite (exWf_error _) (exWf_ok.2 ?_)
      simp only [homesWf_accept, homesWf_modStream, homesWf_addWork]
      split <;> simp [h]

theorem execMzero_wf (c : Ctl) (d : Fin 48) (h : s.homesWf = true) : OutWf (execMzero c d s) :=
  onStream_wf h fun k => by simp [h]

theorem execMacc_wf (c : Ctl) (d a : Fin 48) (h : s.homesWf = true) : OutWf (execMacc c d a s) :=
  onStream_wf h fun k => by simp [h]

theorem execMstore_wf (c : Ctl) (a : Fin 48) (p : Fin 64) (conv : MConv) (h : s.homesWf = true) :
    OutWf (execMstore c a p conv s) :=
  onStream_wf h fun k => by
    dsimp only
    repeat' split
    all_goals simp [h]

theorem execMbara_wf (c : Ctl) (b : Fin 32) (n : BitVec 16) (h : s.homesWf = true) : OutWf (execMbara c b n s) :=
  onStream_wf h fun k => by
    repeat' split
    all_goals simp [h]

theorem execMbarw_wf (c : Ctl) (b : Fin 32) (h : s.homesWf = true) : OutWf (execMbarw c b s) := onStream_wf h fun k => by
  repeat' split
  all_goals simp [h]

theorem execMbarwSatisfied_wf (b : Nat) (h : s.homesWf = true) : OutWf (execMbarwSatisfied b s) := by
  unfold execMbarwSatisfied
  repeat' split
  all_goals simp [h]

theorem execMloop_wf (c : Ctl) (n : PC) (len : BitVec 16) (ctr : MCtr) (h : s.homesWf = true) :
    OutWf (execMloop c n len ctr s) :=
  onStream_wf h fun k => exWf_map fun _ => by simp [h]

theorem execMend_wf (c : Ctl) (h : s.homesWf = true) : OutWf (execMend c s) := onStream_wf h fun k => by simp [h]

theorem execMsave_wf (c : Ctl) (p : Fin 64) (h : s.homesWf = true) : OutWf (execMsave c p s) := by
  refine onStream_wf h fun k => exWf_of_ite (exWf_ok.2 h) (exWf_of_ite (exWf_error _) ?_)
  split
  · simp [h]
  · split
    · simp [h]
    · refine exWf_ok.2 ((homesWf_accept _ _ _ _).trans ((homesWf_goOn _ _).trans ?_))
      exact foldl_wf (fun _ _ hu => writeLoc_wf _ _ _ hu) _ h

theorem execMresume_wf (c : Ctl) (p : Fin 64) (h : s.homesWf = true) : OutWf (execMresume c p s) := onStream_wf h fun k => by
  dsimp only
  repeat' split
  all_goals simp [h]

end Canonical

end Sys2Proof.Machine

/-! # The canonical form of the homes: blocks, fabric, pages, service and management -/

namespace Sys2Proof.Machine

open Sys2Proof Sys2Proof.Claims

section Canonical

variable {s : State}

/-! ## CSRs and handlers -/

theorem execCsrr_wf (c : Ctl) (d : Dst) (sel : Fin 8) (h : s.homesWf = true) : OutWf (execCsrr c d sel s) :=
  onLanes_wf h fun k m => by simp [h]

theorem homesWf_csrWrite {t : State} {k : GCtx} {sel : Fin 8} {x : Word} (ht : csrWrite s k sel x = some t) :
    t.homesWf = s.homesWf := by
  unfold csrWrite at ht
  split at ht
  all_goals simp only [Option.some.injEq, reduceCtorEq] at ht
  all_goals subst ht; rfl

theorem execCsrw_wf (c : Ctl) (sel : Fin 8) (a : Src) (h : s.homesWf = true) : OutWf (execCsrw c sel a s) := by
  refine onLanes_wf h fun k m => exWf_bind fun x => ?_
  split
  next ht => exact exWf_pure.2 ((homesWf_advance _ _).trans ((homesWf_csrWrite ht).trans h))
  next => exact exWf_error _

theorem execTrapret_wf (c : Ctl) (h : s.homesWf = true) : OutWf (execTrapret c s) := onGang_wf h fun k => by simp [h]

theorem execCont_wf (c : Ctl) (a : Src) (h : s.homesWf = true) : OutWf (execCont c a s) :=
  onLanes_wf h fun k m => exWf_bind fun _ => by simp [h]

theorem execFresume_wf (c : Ctl) (h : s.homesWf = true) : OutWf (execFresume c s) := onGang_wf h fun k => by
  repeat' split
  all_goals simp [h]

/-! ## Results and reports of warps -/

theorem execLoadDataArrives_wf (id : Nat) (h : s.homesWf = true) : OutWf (execLoadDataArrives id s) := by
  unfold execLoadDataArrives
  repeat' split
  all_goals simp [h]

theorem execAtomReturn_wf (id : Nat) (h : s.homesWf = true) : OutWf (execAtomReturn id s) := by
  unfold execAtomReturn
  repeat' split
  all_goals simp [h]

theorem execCellClose_wf (l : Loc) (h : s.homesWf = true) : OutWf (execCellClose l s) := by
  unfold execCellClose
  repeat' split
  all_goals simp [h]

theorem execWaitaSatisfied_wf (p : Party) (h : s.homesWf = true) : OutWf (execWaitaSatisfied p s) := by
  unfold execWaitaSatisfied
  dsimp only
  repeat' split
  all_goals simp [h]

theorem execFabricPoll_wf (p : Party) (h : s.homesWf = true) : OutWf (execFabricPoll p s) := by
  unfold execFabricPoll
  repeat' split
  all_goals simp [h]

theorem execWatchdog_wf (h : s.homesWf = true) : OutWf (execWatchdog s) := by
  unfold execWatchdog
  repeat' split
  all_goals simp [h]

theorem execStoreImprecise_wf (r : Nat) (h : s.homesWf = true) : OutWf (execStoreImprecise r s) := by
  unfold execStoreImprecise
  dsimp only
  repeat' split
  all_goals simp [h]

theorem execPoisonDetected_wf (at_ : PoisonAt) (h : s.homesWf = true) : OutWf (execPoisonDetected at_ s) := by
  unfold execPoisonDetected
  repeat' split
  all_goals simp [h]

@[simp] theorem correctedError_wf (at_ : PoisonAt) (h : s.homesWf = true) : OutWf (correctedError at_ s) := by
  unfold correctedError
  repeat' split
  all_goals simp [h]

@[simp] theorem parityError_wf (at_ : ParityAt) (h : s.homesWf = true) : OutWf (parityError at_ s) := by
  unfold parityError
  dsimp only
  repeat' split
  all_goals simp [h]

/-! ## Blocks -/

theorem execInterimCharge_wf (b : Nat) (h : s.homesWf = true) : OutWf (execInterimCharge b s) := by
  unfold execInterimCharge
  repeat' split
  all_goals simp [h]

@[simp] theorem homesWf_serve (s : State) : (serve s).1.homesWf = s.homesWf := by
  unfold serve
  dsimp only
  repeat' split
  all_goals simp

theorem execBlockRelease_wf (h : s.homesWf = true) : OutWf (execBlockRelease s) := by
  have hs := (homesWf_serve s).trans h
  unfold execBlockRelease
  split
  next heq =>
    rw [heq] at hs
    exact outWf_next.2 hs
  next heq =>
    rw [heq] at hs
    repeat' split
    all_goals simp [hs]

theorem execSelectedBlockTimeout_wf (qid : Nat) (h : s.homesWf = true) : OutWf (execSelectedBlockTimeout qid s) := by
  unfold execSelectedBlockTimeout
  repeat' split
  all_goals simp [h]

theorem execBlockEnd_wf (b : Nat) (h : s.homesWf = true) : OutWf (execBlockEnd b s) := by
  unfold execBlockEnd
  dsimp only
  repeat' split
  all_goals simp [h]

@[simp] theorem landNear_wf (b : Nat) (h : s.homesWf = true) : (landNear s b).homesWf = true := by
  unfold landNear
  split
  · exact h
  · refine foldl_wf (fun t p ht => ?_) _ (foldl_wf (fun t x ht => (homesWf_landPend _ _ _ _).trans ht) _ h)
    have hr := execHelmLoadReturn_wf p.id ht
    split
    next heq => exact hr _ heq
    next => exact ht

@[simp] theorem freeze_wf (b : Nat) (h : s.homesWf = true) : (freeze s b).homesWf = true := by
  unfold freeze
  simp [h]

@[simp] theorem saveImage_wf (b : Nat) (h : s.homesWf = true) : (saveImage s b).homesWf = true := by
  unfold saveImage
  dsimp only
  repeat' split
  all_goals simp [h]

theorem execBlockEvict_wf (b : Nat) (h : s.homesWf = true) : OutWf (execBlockEvict b s) := by
  unfold execBlockEvict
  split
  · exact outWf_fault _
  · split
    · simp [h]
    · dsimp only
      split
      · exact outWf_next.2 (foldl_wf (fun _ _ hu => saveImage_wf _ (freeze_wf _ hu)) _ h)
      · simp [h]

theorem execBlockWake_wf (b : Nat) (h : s.homesWf = true) : OutWf (execBlockWake b s) := by
  unfold execBlockWake
  repeat' split
  all_goals simp [h]

theorem execBlockRestore_wf (b : Nat) (h : s.homesWf = true) : OutWf (execBlockRestore b s) := by
  have hs := (homesWf_serve s).trans h
  unfold execBlockRestore
  split
  · exact outWf_fault _
  · split
    next heq =>
      rw [heq] at hs
      exact outWf_next.2 hs
    next heq =>
      rw [heq] at hs
      split
      · exact outWf_next.2 hs
      · dsimp only
        split
        · simp [hs]
        · simp [hs]

/-! ## Fabric memory -/

@[simp] theorem takeSig_wf (qid idx j : Nat) (data : List Byte) (h : s.homesWf = true) :
    (takeSig s qid idx j data).homesWf = true := by
  unfold takeSig
  dsimp only
  repeat' split
  all_goals simp [h]

@[simp] theorem perform_wf (o : FabOp) (data0 : List Byte) (h : s.homesWf = true) : (perform s o data0).homesWf = true := by
  unfold perform
  dsimp only
  repeat' split
  all_goals simp [h]

@[simp] theorem landInImage_wf (o : FabOp) (h : s.homesWf = true) : OutWf (landInImage s o) := by
  unfold landInImage
  repeat' split
  all_goals simp [h]

theorem execFabricDeliveryComplete_wf (id : Nat) (data : List Byte) (h : s.homesWf = true) :
    OutWf (execFabricDeliveryComplete id data s) := by
  unfold execFabricDeliveryComplete
  repeat' split
  all_goals simp [h]

@[simp] theorem failOp_wf (o : FabOp) (b : Nat) (k : Fin 4) (n row : Nat) (h : s.homesWf = true) :
    (failOp s o b k n row).homesWf = true := by
  unfold failOp
  repeat' split
  all_goals simp [h]

/-- What a job failed with leaves the state as it was. -/
@[simp] theorem failJob_state (s : State) (j : CopyJob) (r : Raise) : (failJob s j r).s = s := rfl

@[simp] theorem failFab_wf (o : FabOp) (h : s.homesWf = true) : (failFab s o).homesWf = true := by
  unfold failFab
  repeat' split
  all_goals simp [h]

theorem performHeld_wf (o : FabOp) (l : Loc) (h : s.homesWf = true) : (performHeld s o l).1.homesWf = true := by
  unfold performHeld
  dsimp only
  split <;> simp [h]

@[simp] theorem performAccess_wf (ctx vpage id : Nat) (h : s.homesWf = true) : OutWf (performAccess s ctx vpage id) := by
  unfold performAccess
  split
  · simp [h]
  next o _ =>
    dsimp only
    split
    · exact landInImage_wf _ (failFab_wf _ h)
    · simp [h]
    next l _ =>
      split
      · exact outWf_next.2 h
      · have hp := performHeld_wf (s := { s with fabOps := s.fabOps.filter (·.id != id) }) o l h
        split
        next heq =>
          rw [heq] at hp
          exact landInImage_wf _ (perform_wf _ _ hp)
        next heq =>
          rw [heq] at hp
          exact landInImage_wf _ (failFab_wf _ hp)

theorem execFabricOperationFailed_wf (id : Nat) (h : s.homesWf = true) : OutWf (execFabricOperationFailed id s) := by
  unfold execFabricOperationFailed
  dsimp only
  repeat' split
  all_goals simp [h]

theorem execFabricLoadIntoImage_wf (id : Nat) (data : List Byte) (h : s.homesWf = true) :
    OutWf (execFabricLoadIntoImage id data s) := by
  unfold execFabricLoadIntoImage
  dsimp only
  repeat' split
  all_goals simp [h]

@[simp] theorem holdReq_wf (ctx : Fin 64) (vp : Nat) (kind : Option (BitVec 4)) (i : Instr) (h : s.homesWf = true) :
    (holdReq s ctx vp kind i).homesWf = true := by
  unfold holdReq
  dsimp only
  repeat' split
  all_goals simp [h]

theorem putPlaces_wf (n : Nat) (ls : List (Loc × Nat)) (data : List Byte) (h : s.homesWf = true) :
    (putPlaces s n ls data).1.homesWf = true := by
  have hput (t : State) (l : Loc) (bytes : List Byte) (ht : t.homesWf = true) :
      (if isFab l then sendFab t l (.write bytes) (.incoming n false) else writeLoc t noTag l bytes).homesWf = true := by
    split <;> simp [ht]
  refine foldl_fst_wf (x := ({ s with reports := [] }, data)) (fun x l hx => ?_) ls h
  exact hput _ _ _ hx

@[simp] theorem serveWrite_wf (r : Req) (data : List Byte) (h : s.homesWf = true) : (serveWrite s r data).homesWf = true := by
  unfold serveWrite
  split
  · simp [h]
  · split
    · simp [h]
    · simp [h]
    · exact (homesWf_answerPart _ _ _ _).trans (putPlaces_wf _ _ _ h)

theorem execRmaWrite_wf (r : Req) (data : List Byte) (h : s.homesWf = true) : OutWf (execRmaWrite r data s) := by
  unfold execRmaWrite
  simp [h]

@[simp] theorem serveRead_wf (r : Req) (len : Nat) (h : s.homesWf = true) : (serveRead s r len).homesWf = true := by
  unfold serveRead
  repeat' split
  all_goals simp [h]

theorem execRmaRead_wf (r : Req) (len : Nat) (h : s.homesWf = true) : OutWf (execRmaRead r len s) := by
  unfold execRmaRead
  simp [h]

/-- An atomic of a request performed at once: its old value answers. -/
theorem rmwAnswer_wf {l : Loc} {o : AtomOp} {u : Bool} {size : Size} {b1 b2 : Word64} {t : State} {v : Option Word64}
    (ht : rmw s noTag l o u size b1 b2 = (t, v)) (h : s.homesWf = true) : t.homesWf = true := by
  have hr := rmw_wf noTag l o u size b1 b2 false h
  rwa [ht] at hr

@[simp] theorem serveAtomic_wf (r : Req) (op : RmaOp) (wide fetch : Bool) (val cmp : Word64) (i : Instr) (h : s.homesWf = true) :
    (serveAtomic s r op wide fetch val cmp i).homesWf = true := by
  unfold serveAtomic
  dsimp only
  generalize (if wide = true then 8 else 4) = n
  generalize (if wide = true then Size.b64 else Size.b32) = size
  split
  · simp [h]
  · split
    · simp [h]
    · split
      · simp [h]
      · split
        · simp [h]
        · simp [h]
        · split
          · simp [h]
          · split
            next ht => simp [rmwAnswer_wf ht h]
            next ht => simp [rmwAnswer_wf ht h]
        · simp [h]

theorem execAtomicNonFetching_wf (r : Req) (op : RmaOp) (wide : Bool) (val : Word64) (h : s.homesWf = true) :
    OutWf (execAtomicNonFetching r op wide val s) := by
  unfold execAtomicNonFetching
  simp [h]

theorem execAtomicFetching_wf (r : Req) (op : RmaOp) (wide : Bool) (val cmp : Word64) (h : s.homesWf = true) :
    OutWf (execAtomicFetching r op wide val cmp s) := by
  unfold execAtomicFetching
  simp [h]

@[simp] theorem serveAgain_wf (i : Instr) (h : s.homesWf = true) : (serveAgain s i).homesWf = true := by
  cases i with
  | rmaWrite r d => exact serveWrite_wf r d h
  | rmaRead r n => exact serveRead_wf r n h
  | atomicNonFetching r op w v => exact serveAtomic_wf r op w false v 0 _ h
  | atomicFetching r op w v c => exact serveAtomic_wf r op w true v c _ h
  | _ => exact h

theorem execUnsupportedRequest_wf (code : Nat) (h : s.homesWf = true) : OutWf (execUnsupportedRequest code s) := by
  unfold execUnsupportedRequest
  simp [h]

theorem execSecurityCheckDrop_wf (h : s.homesWf = true) : OutWf (execSecurityCheckDrop s) := by
  unfold execSecurityCheckDrop
  simp [h]

theorem execLaneRetire_wf (port : Fin 16) (lane : Fin 4) (h : s.homesWf = true) : OutWf (execLaneRetire port lane s) := by
  unfold execLaneRetire
  simp [h]

theorem execPortRetrainDone_wf (port : Fin 16) (h : s.homesWf = true) : OutWf (execPortRetrainDone port s) := by
  unfold execPortRetrainDone
  simp [h]

/-! ## Page faults and shootdowns -/

@[simp] theorem fatalTaken_wf (ctx vp : Nat) (v : Victim) (f : FRec) (h : s.homesWf = true) :
    (fatalTaken ctx vp s v f).homesWf = true := by
  unfold fatalTaken
  dsimp only
  repeat' split
  all_goals simp [h]

@[simp] theorem fatalOne_wf (ctx vp : Nat) (x : Victim × Party × FRec) (h : s.homesWf = true) :
    (fatalOne ctx vp s x).homesWf = true := by
  unfold fatalOne
  repeat' split
  all_goals simp [h]

@[simp] theorem fatalAll_wf (ctx vp : Nat) (die : Option (Fin 4)) (h : s.homesWf = true) :
    (fatalAll ctx vp die s).homesWf = true := foldl_wf (fun _ _ hu => fatalOne_wf _ _ _ hu) _ h

@[simp] theorem goFlight_wf (qid idx : Nat) (h : s.homesWf = true) : (goFlight s qid idx).homesWf = true := by
  unfold goFlight
  repeat' split
  all_goals simp [h]

@[simp] theorem serveFlight_wf (ctx vp : Nat) (v : Verdict) (qid idx : Nat) (h : s.homesWf = true) :
    (serveFlight ctx vp v s qid idx).homesWf = true := by
  unfold serveFlight
  dsimp only
  repeat' split
  all_goals simp [h]

@[simp] theorem serveQueue_wf (ctx vp : Nat) (v : Verdict) (q : Queue) (h : s.homesWf = true) :
    (serveQueue ctx vp v s q).homesWf = true :=
  foldl_wf (fun _ _ hu => serveFlight_wf _ _ _ _ _ hu) _ (by split <;> simp [h])

@[simp] theorem serveNode_wf (ctx vp : Nat) (v : Verdict) (n : Nat) (h : s.homesWf = true) :
    (serveNode ctx vp v s n).homesWf = true := by
  unfold serveNode
  repeat' split
  all_goals simp [h]

@[simp] theorem serveHeld_wf (ctx vp : Nat) (v : Verdict) (h : s.homesWf = true) : (serveHeld ctx vp v s).homesWf = true := by
  refine foldl_wf (fun t x ht => ?_) _ h
  split <;> simp [ht]

@[simp] theorem servePage_wf (ctx vp : Nat) (v : Verdict) (die : Option (Fin 4)) (h : s.homesWf = true) :
    (servePage s ctx vp v die).homesWf = true := by
  have h2 : (if v = .fatal then fatalAll ctx vp die { s with blocks := s.blocks.map (serveBlock ctx vp v die) }
      else { s with blocks := s.blocks.map (serveBlock ctx vp v die) }).homesWf = true := by
    split
    · exact fatalAll_wf _ _ _ h
    · exact h
  unfold servePage
  dsimp only
  split
  · exact h2
  · exact serveHeld_wf _ _ _ (foldl_wf (fun _ _ hu => serveNode_wf _ _ _ _ hu) _
      (foldl_wf (fun _ _ hu => serveQueue_wf _ _ _ _ hu) _ h2))

@[simp] theorem fillRing_wf (ctx : Fin 64) (fuel : Nat) (h : s.homesWf = true) : (fillRing ctx fuel s).homesWf = true := by
  induction fuel generalizing s with
  | zero => exact h
  | succ n ih =>
    rw [fillRing]
    split
    · exact h
    · dsimp only
      split
      · exact h
      · exact ih ((homesWf_enterWith _ _ _).trans (writeRing_wf ctx _ _ _ h))

theorem execFaultService_wf (ctx n : Nat) (h : s.homesWf = true) : OutWf (execFaultService ctx n s) := by
  unfold execFaultService
  dsimp only
  repeat' split
  all_goals simp [h]

theorem inSession_wf (h : s.homesWf = true) {session : Nat} {f : Fin 16 → State} (hf : ∀ i, (f i).homesWf = true) :
    OutWf (inSession s session f) := by
  unfold inSession
  dsimp only
  split
  · exact outWf_next.2 (hf _)
  · simp [h]

theorem homesWf_mgmtAnswer (r : State × Bool) : (mgmtAnswer r).homesWf = r.1.homesWf := rfl

theorem execSdgo_wf (session : Nat) (h : s.homesWf = true) : OutWf (execSdgo session s) :=
  inSession_wf h fun i => (homesWf_mgmtAnswer (submitShoot s i, true)).trans ((homesWf_submitShoot s i).trans h)

@[simp] theorem shootDown_wf (sh : Shoot) (h : s.homesWf = true) : (shootDown s sh).homesWf = true := by
  unfold shootDown
  simp [h]

theorem execShootdownComplete_wf (h : s.homesWf = true) : OutWf (execShootdownComplete s) := by
  unfold execShootdownComplete
  dsimp only
  repeat' split
  all_goals simp [h]

theorem execMigrationRequest_wf (ctx va : Nat) (tier : Bool) (ep : BitVec 8) (dst : Nat) (h : s.homesWf = true) :
    OutWf (execMigrationRequest ctx va tier ep dst s) := by
  unfold execMigrationRequest
  simp [h]

theorem clearVersions_wf {m : Mem} (a n : Nat) (h : Memory.wf m = true) : Memory.wf (clearVersions m a n) = true :=
  filter_wf _ h

@[simp] theorem copyFrame_wf (m : Mig) (h : s.homesWf = true) : (copyFrame s m).homesWf = true := by
  have h1 (n : Nat) : (if bitsOf m.oldPte.toNat 5 1 = 0 then
      { s with lineVer := clearVersions s.lineVer (pteAddr m.oldPte.toNat) n } else s).homesWf = true := by
    obtain ⟨hm, hs, hl⟩ := homesWf_iff.1 h
    split
    · exact homesWf_iff.2 ⟨hm, hs, clearVersions_wf _ _ hl⟩
    · exact h
  unfold copyFrame
  dsimp only
  split
  · exact h1 _
  · obtain ⟨hm, hs, hl⟩ := homesWf_iff.1 (h1 (frameLen s m.ctx m.oldPte.toNat m.len))
    exact homesWf_iff.2 ⟨memWrite_wf _ _ hm, hs, clearVersions_wf _ _ hl⟩

theorem execMigrationCopyDone_wf (i : Nat) (ok : Bool) (h : s.homesWf = true) : OutWf (execMigrationCopyDone i ok s) := by
  unfold execMigrationCopyDone
  dsimp only
  repeat' split
  all_goals simp [h]

theorem execAdapterPrefetch_wf (qid n hx : Nat) (h : s.homesWf = true) : OutWf (execAdapterPrefetch qid n hx s) := by
  unfold execAdapterPrefetch
  dsimp only
  repeat' split
  all_goals simp [h]

/-! ## Repair -/

theorem execPatrolScrub_wf (pa : Nat) (found : ScrubFound) (h : s.homesWf = true) : OutWf (execPatrolScrub pa found s) := by
  unfold execPatrolScrub
  dsimp only
  repeat' split
  all_goals simp [h]

theorem execScrubWriteBack_wf (pa : Nat) (h : s.homesWf = true) : OutWf (execScrubWriteBack pa s) := by
  unfold execScrubWriteBack
  simp [h]

theorem execChannelRetire_wf (stack : Fin 8) (ch : Fin 32) (h : s.homesWf = true) : OutWf (execChannelRetire stack ch s) := by
  unfold execChannelRetire
  simp [h]

theorem execChannelCopyComplete_wf (stack : Fin 8) (ch : Fin 32) (h : s.homesWf = true) :
    OutWf (execChannelCopyComplete stack ch s) := by
  unfold execChannelCopyComplete
  simp [h]

theorem execSpareTakeover_wf (c : Fin 256) (h : s.homesWf = true) : OutWf (execSpareTakeover c s) := by
  unfold execSpareTakeover
  dsimp only
  repeat' split
  all_goals simp [h]

theorem execSpanSliceCopyComplete_wf (c : Fin 256) (h : s.homesWf = true) : OutWf (execSpanSliceCopyComplete c s) := by
  unfold execSpanSliceCopyComplete
  dsimp only
  repeat' split
  all_goals simp [h]

theorem execSpanRangeCleared_wf (base : Nat) (h : s.homesWf = true) : OutWf (execSpanRangeCleared base s) := by
  obtain ⟨hm, hs, hl⟩ := homesWf_iff.1 h
  unfold execSpanRangeCleared
  split
  · simp [h]
  · exact outWf_next.2 (homesWf_iff.2 ⟨hm, filter_wf _ hs, hl⟩)

theorem execFirmwareReplacement_wf (image : FwImage) (ok : Bool) (h : s.homesWf = true) :
    OutWf (execFirmwareReplacement image ok s) :=
  inSession_wf h fun i => by cases ok <;> exact h

theorem loadCalibration_wf (session : Nat) (tables : BitVec 256) (h : s.homesWf = true) :
    OutWf (loadCalibration session tables s) := inSession_wf h fun _ => h

theorem execRecalibration_wf (p : CalPath) (h : s.homesWf = true) : OutWf (execRecalibration p s) := by
  unfold execRecalibration
  simp [h]

theorem execArbiterEpoch_wf (h : s.homesWf = true) : OutWf (execArbiterEpoch s) := by
  have hg : (s.matrixReqs.foldl giveGrant s).homesWf = true := (homesWf_foldl homesWf_giveGrant _ _).trans h
  unfold execArbiterEpoch
  simp [hg]

theorem execPowerOn_wf (h : s.homesWf = true) : OutWf (execPowerOn s) := by
  unfold execPowerOn
  dsimp only
  repeat' split
  all_goals simp [h]

/-! ## Requests and the management path -/

@[simp] theorem abortNodes_wf (n : Fin 64) (h : s.homesWf = true) : (abortNodes s n).homesWf = true := by
  refine foldl_wf (fun t i ht => ?_) _ h
  split
  · exact ht
  · split <;> simp [ht]

@[simp] theorem leaveRun_wf (n : Fin 64) (st : IState) (reply : Bool) (h : s.homesWf = true) :
    (leaveRun s n st reply).homesWf = true := by
  unfold leaveRun
  simp [h]

@[simp] theorem toError_wf (n : Fin 64) (h : s.homesWf = true) : (toError s n).homesWf = true := by
  unfold toError
  simp [h]

theorem onReq_wf (h : s.homesWf = true) {code : BitVec 8} {f : GenReq → State} (hf : ∀ r, (f r).homesWf = true) :
    OutWf (onReq s code f) := by
  unfold onReq
  split
  · split
    · exact outWf_next.2 (hf _)
    · simp [h]
  · simp [h]

@[simp] theorem writeDesc_wf (desc : Nat) (err : BitVec 8) (h : s.homesWf = true) :
    (writeDesc s desc err).homesWf = true := by
  unfold writeDesc
  simp [h]

theorem execRegisterQueue_wf (h : s.homesWf = true) : OutWf (execRegisterQueue s) := by
  refine onReq_wf h fun r => ?_
  dsimp only
  split
  · simp [h]
  · split
    · simp [h]
    · split
      · simp [h]
      · exact (homesWf_finishReq _ _).trans (writeBounds_wf _ (writeDesc_wf _ _ h))

theorem execDeregisterQueue_wf (h : s.homesWf = true) : OutWf (execDeregisterQueue s) := by
  refine onReq_wf h fun r => ?_
  dsimp only
  split
  · simp [h]
  · split
    · simp [h]
    · split
      · exact (homesWf_finishReq _ _).trans ((homesWf_settlePlaces _).trans
          (writeBounds_wf _ (by simp [h])))
      · simp [h]

@[simp] theorem writeDir_wf (ctx : Fin 64) (i k : Nat) (bytes : List Byte) (h : s.homesWf = true) :
    (writeDir s ctx i k bytes).homesWf = true := by
  unfold writeDir
  repeat' split
  all_goals simp [h]

theorem execMoveCode_wf (h : s.homesWf = true) : OutWf (execMoveCode s) := by
  refine onReq_wf h fun r => ?_
  dsimp only
  repeat' split
  all_goals simp [h]

theorem execRetireVersion_wf (h : s.homesWf = true) : OutWf (execRetireVersion s) := by
  refine onReq_wf h fun r => ?_
  repeat' split
  all_goals simp [h]

theorem execResetPort_wf (h : s.homesWf = true) : OutWf (execResetPort s) := by
  refine onReq_wf h fun r => ?_
  dsimp only
  repeat' split
  all_goals simp [h]

theorem execEndNode_wf (h : s.homesWf = true) : OutWf (execEndNode s) := by
  refine onReq_wf h fun r => ?_
  dsimp only
  repeat' split
  all_goals simp [h]

@[simp] theorem setLevel_wf (l : Fin 24) (v : Nat) (h : s.homesWf = true) : (setLevel s l v).1.homesWf = true := by
  unfold setLevel
  dsimp only
  split
  · exact h
  · exact writeBounds_wf _ h

@[simp] theorem homesWf_setBudget (s : State) (v : Nat) : (setBudget s v).1.homesWf = s.homesWf := by
  unfold setBudget
  dsimp only
  split
  · rfl
  · exact homesWf_divide _ _ _

@[simp] theorem writeMReg_wf (i : Fin 16) (r : MReg) (v : Nat) (h : s.homesWf = true) : (writeMReg s i r v).1.homesWf = true := by
  cases r
  all_goals
    simp only [writeMReg]
    repeat' split
    all_goals simp [h]

theorem writeGuarded_wf (i : Fin 16) (r : MReg) (v : Nat) (h : s.homesWf = true) :
    (writeGuarded s i r v).1.homesWf = true := by
  unfold writeGuarded
  split
  · simp [h]
  · split <;> simp [h]

theorem mgmtWrite_wf (i : Fin 16) (off n v : Nat) (h : s.homesWf = true) : (mgmtWrite s i off n v).1.homesWf = true := by
  refine foldl_fst_wf (x := (s, true)) (fun x r hx => ?_) _ h
  exact writeGuarded_wf _ _ _ hx

theorem execManagementWrite_wf (session off size : Nat) (val : Word64) (h : s.homesWf = true) :
    OutWf (execManagementWrite session off size val s) := by
  refine inSession_wf h fun i => ?_
  split
  · exact mgmtWrite_wf _ _ _ _ h
  · simp [h]

theorem execPriorityLevelWrite_wf (session : Nat) (level : Fin 24) (val : Word) (h : s.homesWf = true) :
    OutWf (execPriorityLevelWrite session level val s) := inSession_wf h fun _ => setLevel_wf level _ h

theorem execPwrbudgetWrite_wf (session : Nat) (val : Word) (h : s.homesWf = true) :
    OutWf (execPwrbudgetWrite session val s) := inSession_wf h fun _ => (homesWf_setBudget _ _).trans h

theorem execDbgresume_wf (session : Nat) (n : Fin 64) (val : Word) (h : s.homesWf = true) :
    OutWf (execDbgresume session n val s) := by
  refine inSession_wf h fun _ => (homesWf_mgmtAnswer _).trans ?_
  split <;> simp [h]

theorem mgmtRead_wf (session off size : Nat) (h : s.homesWf = true) : OutWf (mgmtRead session off size s) := by
  refine inSession_wf h fun i => ?_
  split <;> simp [h]

@[simp] theorem badRequest_wf (session : Nat) (h : s.homesWf = true) : OutWf (badRequest session s) := by
  unfold badRequest
  simp [h]

theorem dropForward_wf (session : Nat) (ctx : Fin 64) (n : Nat) (h : s.homesWf = true) :
    OutWf (dropForward session ctx n s) := by
  refine inSession_wf h fun i => ?_
  split <;> simp [h]

/-! ## Sessions and instances -/

theorem whenBooted_wf {f : State} (h : s.homesWf = true) (hf : f.homesWf = true) : OutWf (whenBooted s f) := by
  unfold whenBooted
  split
  · exact outWf_next.2 h
  · exact outWf_next.2 hf

theorem whenUp_wf {f : State} (h : s.homesWf = true) (hf : f.homesWf = true) : OutWf (whenUp s f) := by
  unfold whenUp
  split
  · exact outWf_next.2 hf
  · exact outWf_next.2 h

theorem execGetVersion_wf (h : s.homesWf = true) : OutWf (execGetVersion s) := whenBooted_wf h (by simp [h])
theorem execGetCapabilities_wf (h : s.homesWf = true) : OutWf (execGetCapabilities s) := whenBooted_wf h (by simp [h])
theorem execNegotiateAlgorithms_wf (h : s.homesWf = true) : OutWf (execNegotiateAlgorithms s) := whenBooted_wf h (by simp [h])
theorem execGetDigests_wf (h : s.homesWf = true) : OutWf (execGetDigests s) := whenUp_wf h (by simp [h])
theorem execGetCertificate_wf (slot : BitVec 8) (h : s.homesWf = true) : OutWf (execGetCertificate slot s) := whenBooted_wf h (by simp [h])
theorem execChallenge_wf (slot : BitVec 8) (h : s.homesWf = true) : OutWf (execChallenge slot s) := whenUp_wf h (by simp [h])

theorem execGetMeasurements_wf (idx : BitVec 8) (h : s.homesWf = true) : OutWf (execGetMeasurements idx s) := by
  refine whenBooted_wf h ?_
  split <;> simp [h]

theorem execKeyExchange_wf (authOk : Bool) (h : s.homesWf = true) : OutWf (execKeyExchange authOk s) := by
  refine whenUp_wf h ?_
  split
  · simp [h]
  · split <;> simp [h]

theorem onSession_wf (h : s.homesWf = true) {session : Nat} {f : Fin 16 → State} (hf : ∀ i, (f i).homesWf = true) :
    OutWf (onSession s session f) := by
  unfold onSession
  dsimp only
  split
  · exact outWf_next.2 (hf _)
  · simp [h]

@[simp] theorem closeSession_wf (i : Fin 16) (h : s.homesWf = true) : (closeSession s i).homesWf = true :=
  foldl_wf (fun _ _ hu => toError_wf _ hu) _ h

theorem execFinish_wf (session : Nat) (ok : Bool) (h : s.homesWf = true) : OutWf (execFinish session ok s) := by
  refine onSession_wf h fun i => ?_
  split <;> simp [h]

theorem execHeartbeat_wf (session : Nat) (h : s.homesWf = true) : OutWf (execHeartbeat session s) :=
  inSession_wf h fun _ => by simp [h]

theorem execKeyUpdate_wf (session : Nat) (h : s.homesWf = true) : OutWf (execKeyUpdate session s) :=
  inSession_wf h fun _ => by simp [h]

theorem execEndSession_wf (session : Nat) (h : s.homesWf = true) : OutWf (execEndSession session s) :=
  onSession_wf h fun _ => by simp [h]

theorem execSpdmUnsupported_wf (code : BitVec 8) (h : s.homesWf = true) : OutWf (execSpdmUnsupported code s) := whenUp_wf h (by simp [h])

theorem execLockInterfaceRequest_wf (session : Nat) (n : Fin 64) (h : s.homesWf = true) :
    OutWf (execLockInterfaceRequest session n s) := by
  refine inSession_wf h fun i => ?_
  split <;> simp [h]

theorem foldl_memWrite_wf {α : Type} (addr : α → Nat) (bytes : Mem → α → List Byte) (l : List α) {m : Mem}
    (h : Memory.wf m = true) : Memory.wf (l.foldl (fun m x => memWrite m (addr x) (bytes m x)) m) = true := by
  induction l generalizing m with
  | nil => exact h
  | cons x l ih => exact ih (memWrite_wf _ _ h)

theorem foldl_mem_wf {α : Type} {f : Mem → α → Mem} (hf : ∀ m x, Memory.wf m = true → Memory.wf (f m x) = true) (l : List α)
    {m : Mem} (h : Memory.wf m = true) : Memory.wf (l.foldl f m) = true := by
  induction l generalizing m with
  | nil => exact h
  | cons x l ih => exact ih (hf m x h)

@[simp] theorem decryptRegions_wf (n : Fin 64) (keys : List (Fin 16 × BitVec 128 × BitVec 128)) (h : s.homesWf = true) :
    (decryptRegions s n keys).homesWf = true := by
  obtain ⟨hm, hs, hl⟩ := homesWf_iff.1 h
  exact homesWf_iff.2 ⟨foldl_mem_wf (fun m k hm => foldl_memWrite_wf (32 * ·) _ _ hm) _ hm, hs, hl⟩

theorem execStartInterfaceRequest_wf (session : Nat) (n : Fin 64) (h : s.homesWf = true) :
    OutWf (execStartInterfaceRequest session n s) := by
  refine inSession_wf h fun i => ?_
  split <;> simp [h]

theorem execStopInterfaceRequest_wf (session : Nat) (n : Fin 64) (h : s.homesWf = true) :
    OutWf (execStopInterfaceRequest session n s) := by
  refine inSession_wf h fun i => ?_
  dsimp only
  repeat' split
  all_goals simp [h]

theorem execGetDeviceInterfaceState_wf (session : Nat) (n : Fin 64) (h : s.homesWf = true) :
    OutWf (execGetDeviceInterfaceState session n s) := by
  refine inSession_wf h fun i => ?_
  split <;> simp [h]

theorem execGetDeviceInterfaceReport_wf (session : Nat) (n : Fin 64) (h : s.homesWf = true) :
    OutWf (execGetDeviceInterfaceReport session n s) := by
  refine inSession_wf h fun i => ?_
  split <;> simp [h]

theorem execKeyStoreError_wf (n : Fin 64) (h : s.homesWf = true) : OutWf (execKeyStoreError n s) := by
  unfold execKeyStoreError
  simp [h]

end Canonical

end Sys2Proof.Machine

/-! # The canonical form of the homes: issue, moves and the step -/

namespace Sys2Proof.Machine

open Sys2Proof Sys2Proof.Claims

section Canonical

variable {s : State}

/-! ## Every instruction -/

/-- The arms that are one shared operation go by its rule, every other by the rule of its own. -/
theorem exec_wf (i : Instr) (h : s.homesWf = true) : OutWf (exec i s) := by
  cases i with
  | iabs | popc | clz | brev | mov => exact op1_wf _ _ _ _ _ _ h
  | iadd | isub | imul | imulhi | imin | imax | shl | shr | sar | and | or | xor | andn | bfx => exact op2_wf _ _ _ _ _ _ _ _ h
  | imad | lop3 | idot4 | bfi | prmt => exact op3_wf _ _ _ _ _ _ _ _ h
  | frnd | fclass => exact fop1_wf _ _ _ _ _ h
  | fadd | fsub | fmul | fmin | fmax | fscale => exact fop2_wf _ _ _ _ _ _ _ h
  | ffma | fdot2 => exact fop3_wf _ _ _ _ _ _ _ _ h
  | rcp | rsq | sqrt | ex2 | lg2 | sinpi | cospi | tanh => exact fop1_wf _ _ _ _ _ h
  | sadd | ssub | smul | sshl | sshr | ssar | smin | smax => exact helmBin_wf _ _ _ _ _ h
  | sand | sor | sxor => exact helmLogic_wf _ _ _ _ _ h
  | barrierRound | barrierPoll => exact nextRound_wf _ _ h
  | isetp => exact execIsetp_wf _ _ _ _ _ _ h
  | sel => exact execSel_wf _ _ _ _ _ h
  | movi => exact execMovi_wf _ _ _ h
  | cvt => exact execCvt_wf _ _ _ _ _ _ _ h
  | sread => exact execSread_wf _ _ _ _ h
  | vtag => exact execVtag_wf _ _ _ h
  | vshape => exact execVshape_wf _ _ h
  | vexp => exact execVexp_wf _ _ h
  | shfl => exact execShfl_wf _ _ _ _ _ h
  | vote => exact execVote_wf _ _ _ h
  | redx => exact execRedx_wf _ _ _ _ _ _ h
  | scanx => exact execScanx_wf _ _ _ _ _ _ h
  | xset => exact execXset_wf _ _ _ _ _ h
  | xclr => exact execXclr_wf _ _ h
  | plop => exact execPlop_wf _ _ _ _ _ h
  | pmov => exact execPmov_wf _ _ h
  | fsetp => exact execFsetp_wf _ _ _ _ _ h
  | ld _ _ _ _ _ scope => exact execLd_wf _ _ _ _ _ scope _ _ _ h
  | st _ _ _ _ ord scope => exact execSt_wf _ _ _ _ ord scope _ _ _ h
  | qst _ _ _ _ ord scope => exact execQst_wf _ _ _ _ ord scope _ _ h
  | atom => exact execAtom_wf _ _ _ _ _ _ _ _ _ h
  | atomo => exact execAtomo_wf _ _ _ _ h
  | fence _ ord => exact execFence_wf _ ord _ _ h
  | waita _ _ _ _ _ ord scope => exact execWaita_wf _ _ _ _ _ ord scope _ h
  | pref _ _ _ kind => exact execPref_wf _ _ _ kind h
  | bra => exact execBra_wf _ _ _ h
  | bru => exact execBru_wf _ _ h
  | brx => exact execBrx_wf _ _ _ h
  | call c => exact execCall_wf c _ h
  | callx c => exact execCallx_wf c _ h
  | ret c => exact execRet_wf c h
  | regang c => exact execRegang_wf c _ h
  | exit => exact execExit_wf _ h
  | yield => exact execYield_wf _ h
  | safe c => exact execSafe_wf c _ h
  | xfer => exact execXfer_wf _ _ _ h
  | trap => exact execTrap_wf _ _ h
  | nop c => exact execNop_wf c h
  | bkpt => exact execBkpt_wf _ h
  | bara => exact execBara_wf _ _ _ h
  | barw => exact execBarw_wf _ _ h
  | bars => exact execBars_wf _ _ _ h
  | twait => exact execTwait_wf _ _ _ _ h
  | dqpop => exact execDqpop_wf _ _ h
  | sigop _ _ _ _ scope => exact execSigop_wf _ _ _ _ scope h
  | scmp => exact execScmp_wf _ _ _ _ _ _ h
  | ssel => exact execSsel_wf _ _ _ _ _ h
  | smov => exact execSmov_wf _ _ _ h
  | smovi => exact execSmovi_wf _ _ _ _ h
  | sld _ _ _ _ _ scope => exact execSld_wf _ _ _ _ _ scope _ _ h
  | sst _ _ _ _ ord scope => exact execSst_wf _ _ _ _ ord scope _ h
  | satom => exact execSatom_wf _ _ _ _ _ _ _ _ _ h
  | sbr => exact execSbr_wf _ _ h
  | sjmp => exact execSjmp_wf _ _ h
  | scall => exact execScall_wf _ _ h
  | sret => exact execSret_wf _ h
  | dqpush => exact execDqpush_wf _ _ _ h
  | fork => exact execFork_wf _ _ _ h
  | join => exact execJoin_wf _ _ h
  | hend => exact execHend_wf _ h
  | cpy c => exact execCpy_wf c _ h
  | cpys c => exact execCpys_wf c _ h
  | cgath c => exact execCgath_wf c _ h
  | cscat c => exact execCscat_wf c _ h
  | tgath => exact execTgath_wf _ _ _ _ _ h
  | cred c => exact execCred_wf c _ h
  | cfill c => exact execCfill_wf c _ h
  | cslot c => exact execCslot_wf c _ _ h
  | crecode c => exact execCrecode_wf c _ _ h
  | csig c => exact execCsig_wf c _ h
  | cwait c => exact execCwait_wf c _ h
  | cloop c => exact execCloop_wf c _ _ h
  | cend c => exact execCend_wf c h
  | mclaim c => exact execMclaim_wf c _ _ _ _ h
  | mrel c => exact execMrel_wf c _ _ _ _ h
  | mma c => exact execMma_wf c _ _ _ _ h
  | mmag c => exact execMmag_wf c _ _ _ _ h
  | mzero c => exact execMzero_wf c _ h
  | mstore c => exact execMstore_wf c _ _ _ h
  | macc c => exact execMacc_wf c _ _ h
  | mbara c => exact execMbara_wf c _ _ h
  | mbarw c => exact execMbarw_wf c _ h
  | mloop c => exact execMloop_wf c _ _ _ h
  | msave c => exact execMsave_wf c _ h
  | mresume c => exact execMresume_wf c _ h
  | mcur c => exact execMcur_wf c _ h
  | mend c => exact execMend_wf c h
  | csrr => exact execCsrr_wf _ _ _ h
  | csrw => exact execCsrw_wf _ _ _ h
  | trapret c => exact execTrapret_wf c h
  | cont => exact execCont_wf _ _ h
  | fresume c => exact execFresume_wf c h
  | loadDataArrives => exact execLoadDataArrives_wf _ h
  | atomReturn => exact execAtomReturn_wf _ h
  | cellClose => exact execCellClose_wf _ h
  | waitaSatisfied => exact execWaitaSatisfied_wf _ h
  | fabricPoll => exact execFabricPoll_wf _ h
  | versionTransfer => exact execVersionTransfer_wf _ _ h
  | barrierWaitComplete => exact execBarrierWaitComplete_wf _ h
  | twaitSatisfied => exact execTwaitSatisfied_wf _ h
  | dqpopDeliver => exact execDqpopDeliver_wf _ h
  | helmLoadReturn => exact execHelmLoadReturn_wf _ h
  | dqpushAppend => exact execDqpushAppend_wf _ h
  | forkStart => exact execForkStart_wf _ h
  | joinComplete => exact execJoinComplete_wf _ h
  | tgathAccept => exact execTgathAccept_wf _ h
  | cwaitSatisfied => exact execCwaitSatisfied_wf _ _ h
  | mclaimTaken => exact execMclaimTaken_wf _ h
  | mbarwSatisfied => exact execMbarwSatisfied_wf _ h
  | matrixGrant => exact execMatrixGrant_wf _ h
  | operationComplete => exact execOperationComplete_wf _ _ _ h
  | watchdog => exact execWatchdog_wf h
  | storeImprecise => exact execStoreImprecise_wf _ h
  | poisonDetected => exact execPoisonDetected_wf _ h
  | writeIndexObserved => exact execWriteIndexObserved_wf _ h
  | nodePacket => exact execNodePacket_wf _ h
  | graphPacket => exact execGraphPacket_wf _ h
  | copyPacket => exact execCopyPacket_wf _ h
  | barrierPacket => exact execBarrierPacket_wf _ h
  | signalPacket => exact execSignalPacket_wf _ h
  | xferPacket => exact execXferPacket_wf _ h
  | nopPacket => exact execNopPacket_wf _ h
  | packetRetire => exact execPacketRetire_wf _ _ h
  | graphNodeComplete => exact execGraphNodeComplete_wf _ h
  | blockRelease => exact execBlockRelease_wf h
  | selectedBlockTimeout => exact execSelectedBlockTimeout_wf _ h
  | interimCharge => exact execInterimCharge_wf _ h
  | blockEnd => exact execBlockEnd_wf _ h
  | blockEvict => exact execBlockEvict_wf _ h
  | blockWake => exact execBlockWake_wf _ h
  | blockRestore => exact execBlockRestore_wf _ h
  | fabricLoadIntoImage => exact execFabricLoadIntoImage_wf _ _ h
  | adapterPrefetch => exact execAdapterPrefetch_wf _ _ _ h
  | faultService => exact execFaultService_wf _ _ h
  | migrationRequest => exact execMigrationRequest_wf _ _ _ _ _ h
  | migrationCopyDone => exact execMigrationCopyDone_wf _ _ h
  | sdgo => exact execSdgo_wf _ h
  | shootdownComplete => exact execShootdownComplete_wf h
  | fabricDeliveryComplete => exact execFabricDeliveryComplete_wf _ _ h
  | fabricOperationFailed => exact execFabricOperationFailed_wf _ h
  | rmaWrite => exact execRmaWrite_wf _ _ h
  | rmaRead => exact execRmaRead_wf _ _ h
  | atomicNonFetching => exact execAtomicNonFetching_wf _ _ _ _ h
  | atomicFetching => exact execAtomicFetching_wf _ _ _ _ _ h
  | unsupportedRequest code => exact execUnsupportedRequest_wf code h
  | securityCheckDrop => exact execSecurityCheckDrop_wf h
  | laneRetire => exact execLaneRetire_wf _ _ h
  | portRetrainDone => exact execPortRetrainDone_wf _ h
  | patrolScrub => exact execPatrolScrub_wf _ _ h
  | scrubWriteBack => exact execScrubWriteBack_wf _ h
  | channelRetire => exact execChannelRetire_wf _ _ h
  | channelCopyComplete => exact execChannelCopyComplete_wf _ _ h
  | spareTakeover => exact execSpareTakeover_wf _ h
  | spanSliceCopyComplete => exact execSpanSliceCopyComplete_wf _ h
  | spanRangeCleared => exact execSpanRangeCleared_wf _ h
  | firmwareReplacement => exact execFirmwareReplacement_wf _ _ h
  | recalibration => exact execRecalibration_wf _ h
  | arbiterEpoch => exact execArbiterEpoch_wf h
  | powerOn => exact execPowerOn_wf h
  | registerQueue => exact execRegisterQueue_wf h
  | deregisterQueue => exact execDeregisterQueue_wf h
  | moveCode => exact execMoveCode_wf h
  | retireVersion => exact execRetireVersion_wf h
  | resetPort => exact execResetPort_wf h
  | endNode => exact execEndNode_wf h
  | priorityLevelWrite => exact execPriorityLevelWrite_wf _ _ _ h
  | pwrbudgetWrite => exact execPwrbudgetWrite_wf _ _ h
  | dbgresume => exact execDbgresume_wf _ _ _ h
  | managementWrite => exact execManagementWrite_wf _ _ _ _ h
  | getVersion => exact execGetVersion_wf h
  | getCapabilities => exact execGetCapabilities_wf h
  | negotiateAlgorithms => exact execNegotiateAlgorithms_wf h
  | getDigests => exact execGetDigests_wf h
  | getCertificate slot => exact execGetCertificate_wf slot h
  | challenge slot => exact execChallenge_wf slot h
  | getMeasurements => exact execGetMeasurements_wf _ h
  | keyExchange => exact execKeyExchange_wf _ h
  | finish => exact execFinish_wf _ _ h
  | heartbeat => exact execHeartbeat_wf _ h
  | keyUpdate => exact execKeyUpdate_wf _ h
  | endSession => exact execEndSession_wf _ h
  | spdmUnsupported code => exact execSpdmUnsupported_wf code h
  | lockInterfaceRequest => exact execLockInterfaceRequest_wf _ _ h
  | startInterfaceRequest => exact execStartInterfaceRequest_wf _ _ h
  | stopInterfaceRequest => exact execStopInterfaceRequest_wf _ _ h
  | getDeviceInterfaceState => exact execGetDeviceInterfaceState_wf _ _ h
  | getDeviceInterfaceReport => exact execGetDeviceInterfaceReport_wf _ _ h
  | keyStoreError => exact execKeyStoreError_wf _ h

theorem outWf_then {o : Out1} {f : State → Out1} (h : OutWf o) (hf : ∀ t, t.homesWf = true → OutWf (f t)) :
    OutWf (match o with | .next t => f t | o => o) := by
  cases o with
  | next t => exact hf t (outWf_next.1 h)
  | fault r => exact outWf_fault r
  | refused r => exact outWf_refused r

/-! ## The issue of a party -/

theorem offerReports_wf (n : Nat) (h : s.homesWf = true) : OutWf (offerReports n s) := by
  induction n generalizing s with
  | zero => exact outWf_next.2 h
  | succ n ih =>
    rw [offerReports]
    split
    · exact outWf_next.2 h
    · next r _ =>
      refine outWf_then (exec_wf _ h) fun t ht => ?_
      split
      · exact ih ht
      · exact outWf_next.2 ht

theorem issueInstr_wf (k : GCtx) (i : Instr) (h : s.homesWf = true) : OutWf (issueInstr s k i) := by
  have counted := (homesWf_countGang (touchFetch s k.blk.core k.blk.ctx k.wp.dirIdx k.g.pc) k).trans ((homesWf_touchFetch ..).trans h)
  unfold issueInstr
  dsimp only
  repeat' split
  · exact outWf_next.2 (drain_wf _ h)
  · exact outWf_next.2 h
  · exact outWf_next.2 (takeFault_wf _ _ _ counted)
  · exact exec_wf _ ((homesWf_addWork ..).trans counted)

theorem issueGang_wf (k : GCtx) (h : s.homesWf = true) : OutWf (issueGang s k) := by
  unfold issueGang
  split
  · exact outWf_next.2 h
  refine outWf_then (offerReports_wf _ ((homesWf_modWarp ..).trans h)) fun t ht => ?_
  split
  · exact outWf_next.2 ht
  split
  · exact outWf_next.2 ht
  split
  · exact exec_wf _ ht
  dsimp only
  split
  · simp [ht]
  · simp [ht]
  · exact issueInstr_wf _ _ ht

theorem issueHelmInstr_wf (k : HCtx) (i : Instr) (h : s.homesWf = true) : OutWf (issueHelmInstr s k i) := by
  unfold issueHelmInstr
  extract_lets on
  split
  · simp [h]
  split
  · simp [h]
  split
  · exact outWf_next.2 h
  · exact exec_wf _ (by simp [h])

theorem issueHelm_wf (k : HCtx) (h : s.homesWf = true) : OutWf (issueHelm s k) := by
  unfold issueHelm
  dsimp only
  split
  · exact outWf_next.2 h
  split
  · exact exec_wf _ h
  split
  · simp [h]
  · simp [h]
  · exact issueHelmInstr_wf _ _ h

theorem issueStream_wf (k : SCtx) (h : s.homesWf = true) : OutWf (issueStream s k) := by
  unfold issueStream
  split
  · exact outWf_next.2 h
  split
  · simp [h]
  · simp [h]
  · exact exec_wf _ (by simp [h])

theorem issue_wf (p : Party) (h : s.homesWf = true) : OutWf (issue s p) := by
  have setCur : ({ s with cur := p } : State).homesWf = true := h
  unfold issue
  dsimp only
  split
  · exact issueGang_wf _ setCur
  split
  · exact issueHelm_wf _ setCur
  split
  · exact issueStream_wf _ setCur
  · exact outWf_next.2 setCur

/-! ## Moves -/

theorem resumeOp_wf (ctx vpage b : Nat) (k : Fin 4) (n : Nat) (h : s.homesWf = true) :
    (resumeOp ctx vpage b k n s).homesWf = true :=
  runOp_wf _ _ _ h

theorem resumeHeld_wf (ctx vpage : Nat) (x : Held) (h : s.homesWf = true) : OutWf (resumeHeld ctx vpage x s) := by
  unfold resumeHeld
  cases x with
  | party p =>
    dsimp only
    split
    all_goals
      split
      · exact issue_wf _ h
      · exact outWf_next.2 h
  | op b k n => exact outWf_next.2 (resumeOp_wf _ _ _ _ _ h)
  | flight q idx => exact outWf_next.2 (serveFlight_wf _ _ _ _ _ h)
  | node n => exact outWf_next.2 (serveNode_wf _ _ _ _ h)
  | req i => exact outWf_next.2 (serveAgain_wf _ h)
  | access id => exact performAccess_wf _ _ _ h

theorem doMove_wf (m : Move) (h : s.homesWf = true) : OutWf (doMove m s) := by
  cases m with
  | event i => exact exec_wf _ h
  | issue p => exact issue_wf _ h
  | run b k n => exact outWf_next.2 (runOp_wf _ _ _ h)
  | resume ctx vpage x => exact resumeHeld_wf _ _ _ h
  | time n => exact outWf_next.2 h
  | mgmtRead i off n => exact mgmtRead_wf _ _ _ h
  | badRequest i => exact badRequest_wf _ h
  | corrected x => exact correctedError_wf _ h
  | parity x => exact parityError_wf _ h
  | dropForward i ctx n => exact dropForward_wf _ _ _ h
  | loadCal i tables => exact loadCalibration_wf _ _ h

theorem homesWf_nextMove {m : Move} {t : State} (hm : nextMove s = some (m, t)) : t.homesWf = s.homesWf := by
  unfold nextMove at hm
  split at hm
  · cases hm; rfl
  · cases hm; rfl
  · obtain ⟨_, _, hm⟩ := Option.map_eq_some_iff.1 hm
    cases hm; rfl

end Canonical

/-- Settles O5: every writer of the homes keeps their canonical form, and every instruction and every move goes through the
writers. -/
theorem storesStayCanonical : Obligations.StoresStayCanonical := by
  intro s t h hs
  unfold step at hs
  split at hs
  · cases hs
    exact (homesWf_afterMove _).trans h
  next m u hm =>
    have moved := doMove_wf m ((homesWf_nextMove hm).trans h)
    split at hs
    next v hv =>
      cases hs
      exact (homesWf_afterMove _).trans (moved v hv)
    all_goals cases hs

end Sys2Proof.Machine

/-! # Results of loads that arrive, and values of plain loads (R131 to R136) -/

namespace Sys2Proof.Machine

open Sys2Proof Sys2Proof.Claims

/-! ## A pending result lands -/

/-- The uncorrectable data that a result met, logged. -/
def landLog (s : State) (b : Nat) (p : Pend) : State :=
  let ctx := ((s.blocks[b]?).map (·.ctx.val)).getD 0
  p.accs.foldl (fun t a =>
    (a.els.flatMap (·.bad)).foldl (fun u l => logPoison u l ctx)
      (if poisonAt s a.loc (accBytes a p.size) then logPoison t a.loc ctx else t)) s

/-- The warp after a result of it has landed. -/
def landWarp (s : State) (p : Pend) (wp : Warp) : Warp :=
  let (vals, _, bad) := pendValues s p
  let (w1, first) := landDst wp p.dst p.idx vals p.lanes bad
  let gs := w1.gangs.map fun g =>
    let g1 := landLatch p.id first (isFull wp p.lanes) (vals.headD (.u 0)) p.lanes bad g
    if g1.wait = .fabric p.id then { g1 with wait := .none, wd := 0 } else g1
  settle { w1 with pend := w1.pend.filter (·.id != p.id), gangs := gs }

theorem landLog_frame (s : State) (b : Nat) (p : Pend) :
    StoresEq s (landLog s b p) ∧ (landLog s b p).blocks = s.blocks := by
  have hlog (u : State) (l : Loc) (c : Nat) : StoresEq u (logPoison u l c) ∧ (logPoison u l c).blocks = u.blocks := by
    rw [logPoison_frame]
    exact ⟨⟨rfl, rfl, rfl⟩, rfl⟩
  refine ⟨StoresEq.foldl (fun u a => ?_) _ _, foldl_blocks (fun u a => ?_) _ _⟩
  · refine StoresEq.trans ?_ (StoresEq.foldl (fun v l => (hlog v l _).1) _ _)
    split
    · exact (hlog ..).1
    · exact StoresEq.refl u
  · refine (foldl_blocks (fun v l => (hlog v l _).2) _ _).trans ?_
    split
    · exact (hlog ..).2
    · rfl

theorem landPend_storesEq (s : State) (b w : Nat) (p : Pend) : StoresEq s (landPend s b w p) := by
  obtain ⟨⟨hm, hs, hv⟩, -⟩ := landLog_frame s b p
  have hw : StoresEq s (modWarp (landLog s b p) b w (landWarp s p)) := ⟨hm, hs, hv⟩
  exact hw.trans (raiseFlags_storesEq ..)

/-- Flags that are raised change no warp. -/
theorem warps_raiseFlags {s : State} {b : Nat} {blk : Block} (fl : Flags) (hb : s.blocks[b]? = some blk) :
    ∃ blk', (raiseFlags s b fl).blocks[b]? = some blk' ∧ blk'.warps = blk.warps := by
  refine ⟨{ blk with esum := blk.esum ||| fl }, ?_, rfl⟩
  simp [raiseFlags, hb, modNode, modBlock]

/-- The warp of a result after it has landed. -/
theorem warp_landPend {s : State} {b w : Nat} {blk : Block} {wp : Warp} (p : Pend) (hb : s.blocks[b]? = some blk)
    (hw : blk.warps[w]? = some wp) : ∃ blk', (landPend s b w p).blocks[b]? = some blk' ∧ blk'.warps[w]? = some (landWarp s p wp) := by
  have hmod : (modWarp (landLog s b p) b w (landWarp s p)).blocks[b]? =
      some { blk with warps := blk.warps.modify w (landWarp s p) } := by
    rw [modWarp, modBlock_get, if_pos rfl, (landLog_frame s b p).2, hb]
    rfl
  obtain ⟨blk', hblk', hwarps⟩ := warps_raiseFlags (pendValues s p).2.1 hmod
  refine ⟨blk', hblk', ?_⟩
  rw [hwarps]
  simp [hw]

/-- What one value leaves in the lanes of a register that it lands in. -/
theorem landReg_lanes (k : GCtx) (old : VReg) (v : VVal) (m bad : LaneMask) {l : Nat} (hl : l < 4 * k.wp.width.val) :
    laneVal (landReg (isFull k.wp m) old v m bad).val l = (if laneBit m l then laneVal v l else laneVal old.val l) ∧
    (laneBit m l = true → laneBit (landReg (isFull k.wp m) old v m bad).poison l = laneBit bad l) := by
  obtain ⟨hval, hpoison⟩ := mergeReg_lanes k old v m l hl
  refine ⟨hval, fun hm => ?_⟩
  rw [hm, if_pos rfl] at hpoison
  have hor : laneBit (landReg (isFull k.wp m) old v m bad).poison l =
      (laneBit (mergeReg (isFull k.wp m) old v m).poison l || laneBit bad l) := BitVec.getLsbD_or
  rw [hor, hpoison, Bool.false_or]

/-- A landed result leaves the registers as its values land, and is no longer pending. -/
theorem landWarp_frame (s : State) (p : Pend) (wp : Warp) :
    let w := (landDst wp p.dst p.idx (pendValues s p).1 p.lanes (pendValues s p).2.2).1
    (landWarp s p wp).pend = w.pend.filter (·.id != p.id) ∧ (landWarp s p wp).ofile = w.ofile ∧
    (landWarp s p wp).preds = w.preds ∧ (landWarp s p wp).regs = w.regs := ⟨rfl, rfl, rfl, rfl⟩

theorem execLoadDataArrives_ready {s : State} {b w : Nat} {p : Pend} (hf : findPend s p.id = some (b, w, p))
    (hl : p.isLoad = true) (hr : pendReady p = true) : exec (.loadDataArrives p.id) s = .next (landPend s b w p) := by
  change execLoadDataArrives p.id s = _
  simp only [execLoadDataArrives, hf, hl, hr, Bool.and_self, if_true]

theorem execAtomReturn_ready {s : State} {b w : Nat} {p : Pend} (hf : findPend s p.id = some (b, w, p))
    (hl : p.isLoad = false) (hr : pendReady p = true) : exec (.atomReturn p.id) s = .next (landPend s b w p) := by
  change execAtomReturn p.id s = _
  simp only [execAtomReturn, hf, hl, hr, Bool.not_false, Bool.and_self, if_true]

theorem resultsArrive : ResultsArrive := by
  intro s b w p blk wp hf hb hw hr
  refine ⟨fun hl => execLoadDataArrives_ready hf hl hr, fun hl => execAtomReturn_ready hf hl hr,
    (landPend_storesEq s b w p).sameStores, fun n vw hd h1 => ?_⟩
  obtain ⟨v, hv⟩ := List.length_eq_one_iff.1 h1
  obtain ⟨blk', hblk', hwp'⟩ := warp_landPend p hb hw
  obtain ⟨hpend, hofile, hpreds, hregs⟩ := landWarp_frame s p wp
  rw [hd, hv, landDst_v] at hpend hofile hpreds hregs
  refine ⟨blk', landWarp s p wp, hblk', hwp', hpend, fun j hj => ?_, hofile, hpreds, fun l hl => ?_⟩
  · rw [hregs, setReg_other _ _ _ _ hj]
  · rw [hregs, setReg_same, hv]
    exact landReg_lanes ⟨b, w, blk, wp, firstGang 0 0⟩ _ _ _ _ hl

/-! ## Plain loads -/

theorem leNat_cons {n : Nat} {bs : List Byte} {x : BitVec n} (b : Byte) (h : leNat bs = x.toNat) :
    leNat (b :: bs) = (x ++ b).toNat := by
  rw [leNat, h, BitVec.toNat_append, ← Nat.shiftLeft_add_eq_or_of_lt b.isLt, Nat.shiftLeft_eq]
  omega

theorem leNat_append (xs ys : List Byte) : leNat (xs ++ ys) = leNat xs + 256 ^ xs.length * leNat ys := by
  induction xs with
  | nil => simp [leNat]
  | cons x xs ih => rw [List.cons_append, leNat, ih, leNat, List.length_cons]; ring

theorem leNat_single (b : Byte) : leNat [b] = b.toNat := by simp [leNat]

theorem plainWords_b8 (sx : Bool) (x : BitVec 8) :
    plainWords .b8 sx x.toNat = [if sx then x.signExtend 32 else x.setWidth 32] := by
  cases sx
  · simp [plainWords]
  · simp [plainWords, sextN_toNat, BitVec.signExtend]

theorem plainWords_b16 (sx : Bool) (x : BitVec 16) :
    plainWords .b16 sx x.toNat = [if sx then x.signExtend 32 else x.setWidth 32] := by
  cases sx
  · simp [plainWords]
  · simp [plainWords, sextN_toNat, BitVec.signExtend]

theorem plainWords_b32 (sx : Bool) (x : BitVec 32) : plainWords .b32 sx x.toNat = [x] := by
  simp [plainWords, Size.regs]

theorem toNat_append_word (hi lo : BitVec 32) : (hi ++ lo).toNat = hi.toNat * 2 ^ 32 + lo.toNat := by
  rw [BitVec.toNat_append, ← Nat.shiftLeft_add_eq_or_of_lt lo.isLt, Nat.shiftLeft_eq]

theorem plainWords_b64 (sx : Bool) (hi lo : BitVec 32) : plainWords .b64 sx (hi ++ lo).toNat = [lo, hi] := by
  have happend := toNat_append_word hi lo
  have hlo : BitVec.ofNat 32 (hi ++ lo).toNat = lo := by
    apply BitVec.eq_of_toNat_eq
    rw [BitVec.toNat_ofNat, happend]
    omega
  have hhi : BitVec.ofNat 32 ((hi ++ lo).toNat / 2 ^ 32) = hi := by
    apply BitVec.eq_of_toNat_eq
    rw [BitVec.toNat_ofNat, happend]
    omega
  change [BitVec.ofNat 32 ((hi ++ lo).toNat / 2 ^ 0), BitVec.ofNat 32 ((hi ++ lo).toNat / 2 ^ 32)] = _
  rw [pow_zero, Nat.div_one, hlo, hhi]

/-- What a plain load from one place of device memory gives to every lane. -/
theorem pendValues_plain {s : State} {p : Pend} {sx raw : Bool} {a : LaneAcc} {addr : Nat} (hk : p.kind = .load raw sx)
    (hu : p.uni = true) (ha : p.accs = [a]) (hl : a.loc = .dev addr) (he : a.els = []) : pendValues s p =
      ((plainWords p.size sx (leNat (memRead s.mem addr p.size.bytes))).map .u, 0,
        if (unitsOf 32 addr p.size.bytes).any s.badGranules.contains then p.lanes else 0) := by
  simp [pendValues, hk, hu, ha, readAcc, hl, isFab, lanesWords, he, accBytes, readLoc, poisonAt]

/-- The number in four bytes of memory. -/
theorem leNat_word (m : Mem) (a : Nat) : leNat [memGet m a, memGet m (a + 1), memGet m (a + 2), memGet m (a + 3)] =
    (memGet m (a + 3) ++ memGet m (a + 2) ++ memGet m (a + 1) ++ memGet m a).toNat :=
  leNat_cons _ (leNat_cons _ (leNat_cons _ (leNat_single _)))

theorem loadedValues : LoadedValues := by
  intro s p sx raw a addr hk hu ha hl he
  rw [pendValues_plain hk hu ha hl he]
  refine ⟨fun hs => ?_, fun hs => ?_, fun hs => ?_, fun hs => ?_, fun hb => if_neg (by rw [hb]; exact Bool.false_ne_true)⟩
  · have hn : leNat (memRead s.mem addr p.size.bytes) = (memGet s.mem addr).toNat := by rw [hs]; exact leNat_single _
    rw [hn, hs, plainWords_b8]
    rfl
  · have hn : leNat (memRead s.mem addr p.size.bytes) = (memGet s.mem (addr + 1) ++ memGet s.mem addr).toNat := by
      rw [hs]
      exact leNat_cons _ (leNat_single _)
    rw [hn, hs, plainWords_b16]
    rfl
  · have hn : leNat (memRead s.mem addr p.size.bytes) =
        (memGet s.mem (addr + 3) ++ memGet s.mem (addr + 2) ++ memGet s.mem (addr + 1) ++ memGet s.mem addr).toNat := by
      rw [hs]
      exact leNat_word s.mem addr
    rw [hn, hs, plainWords_b32]
    rfl
  · have hn : leNat (memRead s.mem addr p.size.bytes) =
        ((memGet s.mem (addr + 7) ++ memGet s.mem (addr + 6) ++ memGet s.mem (addr + 5) ++ memGet s.mem (addr + 4)) ++
          (memGet s.mem (addr + 3) ++ memGet s.mem (addr + 2) ++ memGet s.mem (addr + 1) ++ memGet s.mem addr)).toNat := by
      have hread : memRead s.mem addr p.size.bytes =
          [memGet s.mem addr, memGet s.mem (addr + 1), memGet s.mem (addr + 2), memGet s.mem (addr + 3)] ++
          [memGet s.mem (addr + 4), memGet s.mem (addr + 4 + 1), memGet s.mem (addr + 4 + 2), memGet s.mem (addr + 4 + 3)] := by
        rw [hs]
        rfl
      rw [hread, leNat_append, leNat_word, leNat_word, toNat_append_word, add_comm, mul_comm (256 ^ _)]
      norm_num
    rw [hn, hs, plainWords_b64]
    rfl

/-! ## Dither (R25, R26) -/

theorem ditherIsTheTables : DitherIsTheTables := by
  refine ⟨fun e => ?_, fun b t => ?_, by decide⟩
  · simp only [ditherIndex, Nat.shiftRight_eq_div_pow]
    exact (Nat.and_two_pow_sub_one_eq_mod _ 10).symm
  · have hk : 4 ^ (t % 4) = 2 ^ (2 * (t % 4)) := (pow_mul 2 2 _).symm
    have hand (n : Nat) : n &&& 3 = n % 4 := Nat.and_two_pow_sub_one_eq_mod n 2
    rw [BitVec.toNat_and, BitVec.toNat_ushiftRight, Nat.shiftRight_eq_div_pow, ← hk]
    exact (hand _).symm

end Sys2Proof.Machine

/-! # Stores in lane order, and a versioned write of one line (R138, R140) -/

namespace Sys2Proof.Machine

open Sys2Proof Sys2Proof.Claims

/-! ## Stores in lane order -/

/-- A write that meets no poison leaves the poison of device memory as it is. -/
theorem writeLoc_badGranules {s : State} (t : Report) {l : Loc} {bs : List Byte} (hm : Memory.wf s.mem = true)
    (h : ∀ a, l = .dev a → poisonAt s (.dev a) bs.length = false) : (writeLoc s t l bs).badGranules = s.badGranules := by
  by_cases hb : bs = []
  · rw [hb, writeLoc_nil]
  · cases l with
    | dev a =>
      rw [writeLoc_dev hb, writeDev_clean hm fun g hg => by simpa using List.any_eq_false.1 (h a rfl) g hg]
      rfl
    | span o => rw [writeLoc_span hb]; rfl
    | fab c e a => rw [writeLoc, if_neg (by simpa using hb)]; rfl

theorem poisonAt_dev_congr {s u : State} (h : u.badGranules = s.badGranules) (a n : Nat) :
    poisonAt u (.dev a) n = poisonAt s (.dev a) n := by
  simp only [poisonAt, h]

theorem storeLanes_append (s : State) (t : Report) (xs ys : List (LaneAcc × List Byte)) :
    storeLanes s t none (xs ++ ys) = storeLanes (storeLanes s t none xs) t none ys :=
  List.foldl_append

theorem storeLanes_cons {w : LaneAcc × List Byte} (s : State) (t : Report) (ws : List (LaneAcc × List Byte))
    (h : w.1.mig = false) :
    storeLanes s t none (w :: ws) = storeLanes (writeLoc s (t.at w.1.ea) w.1.loc w.2) t none ws := by
  have hstep : (if w.1.mig then holdAcc s (tagCtx s t) w.1.loc (.write w.2) (storeWhy t) false w.1.ea
      else writeLoc s (t.at w.1.ea) w.1.loc w.2) = writeLoc s (t.at w.1.ea) w.1.loc w.2 := by
    rw [h, if_neg Bool.false_ne_true]
  exact congrArg (storeLanes · t none ws) hstep

/-- Stores that meet no poison leave the poison of device memory as it is. -/
theorem storeLanes_badGranules (t : Report) (ws : List (LaneAcc × List Byte)) {s : State} (hs : s.homesWf = true)
    (h : ∀ w ∈ ws, (∀ a, w.1.loc = .dev a → poisonAt s (.dev a) w.2.length = false) ∧ w.1.mig = false) :
    (storeLanes s t none ws).badGranules = s.badGranules := by
  induction ws generalizing s with
  | nil => rfl
  | cons w ws ih =>
    obtain ⟨hw, hmig⟩ := h w List.mem_cons_self
    have hbad := writeLoc_badGranules (t.at w.1.ea) (homesWf_iff.1 hs).1 hw
    rw [storeLanes_cons s t ws hmig, ih ((writeLoc_writesIn ..).homes hs), hbad]
    intro v hv
    obtain ⟨hv, hm⟩ := h v (List.mem_cons_of_mem _ hv)
    exact ⟨fun a ha => (poisonAt_dev_congr hbad a _).trans (hv a ha), hm⟩

/-- The lanes before a lane leave its place clean, its own store leaves its bytes, and no lane after it stores over the byte. -/
theorem highestLaneStoreRemains : HighestLaneStoreRemains := by
  intro s t ws i x p bytes j hs hclean hi hx hj hlater
  obtain ⟨hlt, hget⟩ := List.getElem?_eq_some_iff.1 hi
  have hsplit : ws = ws.take i ++ (x, bytes) :: ws.drop (i + 1) := by
    rw [← hget, List.cons_getElem_drop_succ, List.take_append_drop]
  have hat := hclean _ (List.mem_of_getElem? hi)
  have hwf1 := (storeLanes_none_writesIn s t (ws.take i)).homes hs
  have hbad : (storeLanes s t none (ws.take i)).badGranules = s.badGranules :=
    storeLanes_badGranules t _ hs fun w hw =>
      ⟨fun a ha => ha ▸ (hclean w (List.mem_of_mem_take hw)).1, (hclean w (List.mem_of_mem_take hw)).2⟩
  obtain ⟨u, hu⟩ : ∃ u, u = writeLoc (storeLanes s t none (ws.take i)) (t.at x.ea) x.loc bytes := ⟨_, rfl⟩
  have hstore : storeLanes s t none ws = storeLanes u t none (ws.drop (i + 1)) :=
    (congrArg (storeLanes s t none) hsplit).trans (by rw [storeLanes_append, storeLanes_cons _ _ _ hat.2, ← hu])
  have hmem : u.mem = memWrite (storeLanes s t none (ws.take i)).mem p bytes := by
    rw [hu, hx]
    refine writeLoc_dev_mem (homesWf_iff.1 hwf1).1 fun g hg => ?_
    rw [hbad]
    have hp : poisonAt s x.loc bytes.length = false := hat.1
    rw [hx] at hp
    simpa using List.any_eq_false.1 hp g hg
  have hwf2 : u.homesWf = true := hu ▸ (writeLoc_writesIn ..).homes hwf1
  rw [hstore, (storeLanes_none_writesIn u t _).mem hwf2 (p + j), hmem, memGet_memWrite _ _ _ (homesWf_iff.1 hwf1).1,
    dif_pos (by omega)]
  · simp [hj]
  · rintro ⟨w, hw, q, hq, h1, h2⟩
    obtain ⟨n, hn, hgetn⟩ := List.getElem_of_mem hw
    have := hlater (i + 1 + n) (by omega) w.1 q w.2 (by
      rw [← List.getElem?_drop]
      exact (List.getElem?_eq_some_iff.2 ⟨hn, hgetn⟩)) hq
    omega

/-! ## One line of a versioned write (R140) -/

section VersionedWrite

variable {w : VerW}

/-- A write inside one line reaches that line at its own virtual address. -/
theorem linesOf_single {a va n : Nat} (hline : a / 128 = (a + n - 1) / 128) :
    linesOf [(a, va, n)] = [(a / 128, va)] := by
  have hunits : unitsOf 128 a n = [a / 128] := by
    rw [unitsOf, ← hline, Nat.add_sub_cancel_left]
    simp
  have hva : va + (128 * (a / 128) - a) = va := by
    have := Nat.mul_div_le a 128
    omega
  simp [linesOf, hunits, hva]

theorem memGet_foldl_memSet {α : Type} (a : α → Nat) (v : α → Byte) (f : Nat → Byte) {l : List α} {m : Mem}
    (h : Memory.wf m = true) (hv : ∀ x ∈ l, v x = f (a x)) (b : Nat) :
    memGet (l.foldl (fun m x => memSet m (a x) (v x)) m) b = if b ∈ l.map a then f b else memGet m b := by
  induction l generalizing m with
  | nil => rfl
  | cons x l ih =>
    rw [List.foldl_cons, ih (memSet_wf _ _ h) fun y hy => hv y (List.mem_cons_of_mem _ hy), memGet_memSet _ _ _ h, List.map_cons,
      hv x List.mem_cons_self]
    by_cases hb : b = a x
    · simp [hb]
    · simp [hb]

/-- The bytes that one write of bytes gives a granule. -/
theorem granuleBytes_single (s : State) (hc : w.code = none) (g : Nat) : granuleBytes s [w] g = (List.range 32).filterMap fun i =>
    if w.addr ≤ 32 * g + i ∧ 32 * g + i < w.addr + w.data.length then
      some (32 * g + i, w.data.getD (32 * g + i - w.addr) 0, true) else none := by
  refine List.filterMap_congr fun i _ => ?_
  by_cases h : w.addr ≤ 32 * g + i ∧ 32 * g + i < w.addr + w.data.length
  · simp [byteStep, hc, h]
  · simp [byteStep, hc, h]

theorem mem_map_granuleBytes (s : State) (hc : w.code = none) (g a : Nat) :
    a ∈ (granuleBytes s [w] g).map (·.1) ↔ a / 32 = g ∧ w.addr ≤ a ∧ a < w.addr + w.data.length := by
  simp only [granuleBytes_single s hc, List.mem_map, List.mem_filterMap, List.mem_range, Option.ite_none_right_eq_some,
    Option.some.injEq]
  constructor
  · rintro ⟨x, ⟨i, hi, hcov, rfl⟩, rfl⟩
    exact ⟨by dsimp only; omega, hcov⟩
  · rintro ⟨hg, hcov⟩
    have : 32 * g + a % 32 = a := by omega
    exact ⟨_, ⟨a % 32, by omega, by rw [this]; exact hcov, rfl⟩, this⟩

theorem granuleBytes_value (s : State) (hc : w.code = none) (g : Nat) :
    ∀ x ∈ granuleBytes s [w] g, x.2.1 = w.data.getD (x.1 - w.addr) 0 := by
  simp only [granuleBytes_single s hc, List.mem_filterMap, Option.ite_none_right_eq_some, Option.some.injEq]
  rintro x ⟨i, -, -, rfl⟩
  rfl

/-- What one write of bytes leaves of a granule, where no granule is poisoned. -/
theorem writeCover_clean {s : State} (t : Report) (line : Nat × Nat) (hc : w.code = none) (hs : s.homesWf = true)
    (hb : s.badGranules = []) (g : Nat) :
    (writeCover t [w] line s g).badGranules = [] ∧ (writeCover t [w] line s g).reports = s.reports ∧
    (writeCover t [w] line s g).lineVer = s.lineVer ∧
    ∀ a, memGet (writeCover t [w] line s g).mem a =
      if a / 32 = g ∧ w.addr ≤ a ∧ a < w.addr + w.data.length then w.data.getD (a - w.addr) 0 else memGet s.mem a := by
  have hfold := memGet_foldl_memSet (fun x : Nat × Byte × Bool => x.1) (·.2.1) (fun a => w.data.getD (a - w.addr) 0) (homesWf_iff.1 hs).1 (granuleBytes_value s hc g)
  simp only [mem_map_granuleBytes s hc] at hfold
  unfold writeCover
  dsimp only
  split
  next hnil =>
    rw [hnil] at hfold
    exact ⟨hb, rfl, rfl, hfold⟩
  · rw [hb]
    exact ⟨ite_self _, rfl, rfl, hfold⟩

/-- The same of several granules, one after the other. -/
theorem foldl_writeCover_clean (t : Report) (line : Nat × Nat) (hc : w.code = none) (gs : List Nat) {s : State}
    (hs : s.homesWf = true) (hb : s.badGranules = []) :
    (gs.foldl (writeCover t [w] line) s).reports = s.reports ∧ (gs.foldl (writeCover t [w] line) s).lineVer = s.lineVer ∧
    ∀ a, memGet (gs.foldl (writeCover t [w] line) s).mem a =
      if a / 32 ∈ gs ∧ w.addr ≤ a ∧ a < w.addr + w.data.length then w.data.getD (a - w.addr) 0 else memGet s.mem a := by
  induction gs generalizing s with
  | nil => exact ⟨rfl, rfl, fun a => rfl⟩
  | cons g gs ih =>
    obtain ⟨hbad, hrep, hver, hmem⟩ := writeCover_clean t line hc hs hb g
    obtain ⟨hrep', hver', hmem'⟩ := ih ((writeCover_writesIn t [w] line s g).homes hs) hbad
    refine ⟨hrep'.trans hrep, hver'.trans hver, fun a => ?_⟩
    rw [List.foldl_cons, hmem', hmem]
    by_cases hcov : w.addr ≤ a ∧ a < w.addr + w.data.length
    · by_cases h1 : a / 32 ∈ gs
      · simp only [hcov, h1, and_self, if_true, List.mem_cons, or_true]
      · simp only [hcov, h1, and_true, if_false, List.mem_cons, or_false]
    · simp only [hcov, and_false, if_false]

/-- The granules of a line. -/
theorem writeLine_eq (t : Report) (ws : List VerW) (s : State) (line : Nat × Nat) :
    writeLine t ws s line = ((List.range 4).map (4 * line.1 + ·)).foldl (writeCover t ws line) s := by
  rw [List.foldl_map, writeLine]

theorem mem_granules_of_line {a l : Nat} : a / 32 ∈ (List.range 4).map (4 * l + ·) ↔ a / 128 = l := by
  simp only [List.mem_map, List.mem_range]
  exact ⟨fun ⟨i, hi, h⟩ => by omega, fun h => ⟨a / 32 - 4 * l, by omega, by omega⟩⟩

/-- A versioned write whose line has its version: the version rises, then the line is written. -/
theorem writeVersioned_match {s : State} (t : Report) {n : BitVec 8} {line va : Nat}
    (hl : linesOf [(w.addr, w.va, max 1 w.data.length)] = [(line, va)]) (hv : memGet s.lineVer line = n) :
    writeVersioned s t n [w] = writeLine t [w] { s with lineVer := memSet s.lineVer line (n + 1) } (line, va) := by
  simp [writeVersioned, hl, checkLine, hv]

/-- One whose line has another version is reported. -/
theorem writeVersioned_mismatch {s : State} (t : Report) {n : BitVec 8} {line va : Nat}
    (hl : linesOf [(w.addr, w.va, max 1 w.data.length)] = [(line, va)]) (hv : memGet s.lineVer line ≠ n) :
    writeVersioned s t n [w] = report s (t.at va) 1 := by
  simp [writeVersioned, hl, checkLine, hv]

end VersionedWrite

theorem versionedWriteChecksItsLine : VersionedWriteChecksItsLine := by
  intro s t n a va bytes hs hne hline w
  have hlen : 0 < bytes.length := List.length_pos_iff.2 hne
  have hl : linesOf [(w.addr, w.va, max 1 w.data.length)] = [(a / 128, va)] := by
    rw [max_eq_right (by exact hlen)]
    exact linesOf_single hline
  refine ⟨fun hv hb => ?_, fun hv => writeVersioned_mismatch t hl hv⟩
  obtain ⟨hm, hsp, hver⟩ := homesWf_iff.1 hs
  have hs1 : ({ s with lineVer := memSet s.lineVer (a / 128) (n + 1) } : State).homesWf = true :=
    homesWf_iff.2 ⟨hm, hsp, memSet_wf _ _ hver⟩
  obtain ⟨hrep, hlv, hmem⟩ := foldl_writeCover_clean t (a / 128, va) (w := w) rfl ((List.range 4).map (4 * (a / 128) + ·)) hs1 hb
  refine ⟨_, writeVersioned_match t hl hv, ?_⟩
  rw [writeLine_eq, hlv, hrep]
  refine ⟨?_, rfl, fun l hl => ?_, fun j hj => ?_, fun b hb => ?_⟩
  · rw [memGet_memSet _ _ _ hver, if_pos rfl]
  · rw [memGet_memSet _ _ _ hver, if_neg hl]
  · rw [hmem, if_pos ⟨mem_granules_of_line.2 (by omega), Nat.le_add_right _ _, Nat.add_lt_add_left hj _⟩, Nat.add_sub_cancel_left]
  · rw [hmem, if_neg]
    rintro ⟨-, h1, h2⟩
    have h1 : a ≤ b := h1
    have h2 : b < a + bytes.length := h2
    omega

end Sys2Proof.Machine

/-! # Floating-point codes and the numbers that they stand for (R15, R16) -/

namespace Sys2Proof.Machine

open Sys2Proof Sys2Proof.Claims

/-! ## The magnitude of a code -/

/-- The exponent of the last place of a magnitude code. -/
def Fmt.ulpExp (f : Fmt) (c : Nat) : Int := (max (c / 2 ^ f.mb) 1 : Nat) - f.bias - f.mb

/-- The significand of a magnitude code, in units of its last place. -/
def Fmt.signif (f : Fmt) (c : Nat) : Nat := if c < 2 ^ f.mb then c else c % 2 ^ f.mb + 2 ^ f.mb

/-- The number of a magnitude code, also past the largest finite one. -/
def Fmt.mag (f : Fmt) (c : Nat) : ℚ := f.signif c * (2 : ℚ) ^ f.ulpExp c

section Magnitude

variable {f : Fmt}

@[simp] theorem Fmt.mag_zero (f : Fmt) : f.mag 0 = 0 := by
  simp [Fmt.mag, Fmt.signif]

theorem Fmt.ulpExp_mono (f : Fmt) {c k : Nat} (h : c ≤ k) : f.ulpExp c ≤ f.ulpExp k := by
  have : c / 2 ^ f.mb ≤ k / 2 ^ f.mb := Nat.div_le_div_right h
  simp only [Fmt.ulpExp]
  omega

theorem Fmt.signif_eq (f : Fmt) {b r : Nat} (hr : r < 2 ^ f.mb) (hb : 1 ≤ b) :
    f.signif (b * 2 ^ f.mb + r) = 2 ^ f.mb + r := by
  have hle : 2 ^ f.mb ≤ b * 2 ^ f.mb := Nat.le_mul_of_pos_left _ hb
  rw [Fmt.signif, if_neg (by omega), Nat.mul_add_mod', Nat.mod_eq_of_lt hr, add_comm]

theorem Fmt.ulpExp_eq (f : Fmt) {b r : Nat} (hr : r < 2 ^ f.mb) (hb : 1 ≤ b) :
    f.ulpExp (b * 2 ^ f.mb + r) = b - f.bias - f.mb := by
  rw [Fmt.ulpExp, mul_comm, Nat.mul_add_div (Nat.two_pow_pos _), Nat.div_eq_of_lt hr, add_zero, max_eq_left hb]

/-- A code in terms of its binade and its place there, the first place of the next one included. -/
theorem Fmt.mag_binade (f : Fmt) {b r : Nat} (hr : r ≤ 2 ^ f.mb) (hb : 1 ≤ b) :
    f.mag (b * 2 ^ f.mb + r) = (2 ^ f.mb + r : ℕ) * (2 : ℚ) ^ (b - f.bias - f.mb) := by
  rcases hr.lt_or_eq with hr | rfl
  · rw [Fmt.mag, f.signif_eq hr hb, f.ulpExp_eq hr hb]
  · have hnext : b * 2 ^ f.mb + 2 ^ f.mb = (b + 1) * 2 ^ f.mb + 0 := by ring
    have hexp : ((b + 1 : ℕ) : ℤ) - f.bias - f.mb = 1 + (b - f.bias - f.mb) := by push_cast; ring
    rw [hnext, Fmt.mag, f.signif_eq (Nat.two_pow_pos _) (Nat.le_add_left 1 b), f.ulpExp_eq (Nat.two_pow_pos _) (Nat.le_add_left 1 b),
      hexp, zpow_add₀ two_ne_zero]
    push_cast
    ring

/-- Below the least normal number codes count the places of the format. -/
theorem Fmt.mag_subnormal (f : Fmt) {c : Nat} (hc : c ≤ 2 ^ f.mb) : f.mag c = c * (2 : ℚ) ^ (1 - f.bias - f.mb) := by
  rcases hc.lt_or_eq with hc | rfl
  · rw [Fmt.mag, Fmt.signif, if_pos hc, Fmt.ulpExp, Nat.div_eq_of_lt hc]
    rfl
  · have h := f.mag_binade (Nat.zero_le _) (le_refl 1)
    rw [one_mul, add_zero] at h
    rw [h]
    rfl

theorem Fmt.ulpExp_subnormal (f : Fmt) {c : Nat} (hc : c < 2 ^ f.mb) : f.ulpExp c = 1 - f.bias - f.mb := by
  rw [Fmt.ulpExp, Nat.div_eq_of_lt hc]
  rfl

/-- The next code stands for the number one last place above. -/
theorem Fmt.mag_succ (f : Fmt) (c : Nat) : f.mag (c + 1) = f.mag c + (2 : ℚ) ^ f.ulpExp c := by
  rcases lt_or_ge c (2 ^ f.mb) with hc | hc
  · rw [f.mag_subnormal hc, f.mag_subnormal hc.le, f.ulpExp_subnormal hc]
    push_cast
    ring
  · have hr : c % 2 ^ f.mb < 2 ^ f.mb := Nat.mod_lt _ (Nat.two_pow_pos _)
    have hb : 1 ≤ c / 2 ^ f.mb := (Nat.one_le_div_iff (Nat.two_pow_pos _)).2 hc
    rw [← Nat.div_add_mod' c (2 ^ f.mb), add_assoc, f.mag_binade hr hb, f.mag_binade hr.le hb, f.ulpExp_eq hr hb]
    push_cast
    ring

theorem Fmt.mag_strictMono (f : Fmt) : StrictMono f.mag :=
  strictMono_nat_of_lt_succ fun c => by
    rw [f.mag_succ]
    exact lt_add_of_pos_right _ (zpow_pos two_pos _)

theorem Fmt.mag_nonneg (f : Fmt) (c : Nat) : 0 ≤ f.mag c := by
  rw [← f.mag_zero]
  exact f.mag_strictMono.monotone (Nat.zero_le c)

end Magnitude

/-! ## Codes of numbers -/

/-- What a code stands for lies in its sign bit, its exponent and its fraction. -/
theorem unpackF_congr {f : Fmt} {c k : Nat} (hs : c / 2 ^ (f.eb + f.mb) % 2 = k / 2 ^ (f.eb + f.mb) % 2)
    (he : c / 2 ^ f.mb % 2 ^ f.eb = k / 2 ^ f.mb % 2 ^ f.eb) (hm : c % 2 ^ f.mb = k % 2 ^ f.mb) :
    unpackF f c = unpackF f k := by
  simp only [unpackF, hs, he, hm]

theorem sign_add_fields (f : Fmt) (neg : Bool) {k : Nat} (hk : k < 2 ^ (f.eb + f.mb)) :
    (f.sign neg + k) / 2 ^ (f.eb + f.mb) % 2 = (if neg then 1 else 0) ∧
    (f.sign neg + k) / 2 ^ f.mb % 2 ^ f.eb = k / 2 ^ f.mb ∧ (f.sign neg + k) % 2 ^ f.mb = k % 2 ^ f.mb := by
  have hexp : k / 2 ^ f.mb < 2 ^ f.eb := by
    rw [Nat.div_lt_iff_lt_mul (Nat.two_pow_pos _), ← pow_add]
    exact hk
  refine ⟨?_, ?_, ?_⟩
  · cases neg <;> simp [Fmt.sign, Nat.div_eq_of_lt hk]
  · cases neg <;> simp [Fmt.sign, pow_add, mul_comm (2 ^ f.eb), Nat.mul_add_div, Nat.mod_eq_of_lt hexp]
  · cases neg <;> simp [Fmt.sign, pow_add]

section Codes

variable {f : Fmt} (hf : f ∈ [Fmt.f32, .bf16, .f16, .e4m3f, .e5m2])

include hf

theorem Fmt.top_le : f.top ≤ 2 ^ (f.eb + f.mb) := by
  simp only [List.mem_cons, List.not_mem_nil, or_false] at hf
  rcases hf with rfl | rfl | rfl | rfl | rfl <;> decide

/-- A magnitude code is one of a number exactly below the top. -/
theorem lt_top_iff {k : Nat} (hk : k < 2 ^ (f.eb + f.mb)) : k < f.top ↔
    ¬(f.e4m3 && k / 2 ^ f.mb = 15 && k % 2 ^ f.mb = 7) = true ∧ ¬(!f.e4m3 && k / 2 ^ f.mb = 2 ^ f.eb - 1) = true := by
  simp only [List.mem_cons, List.not_mem_nil, or_false] at hf
  simp only [Bool.and_eq_true, decide_eq_true_eq]
  rcases hf with rfl | rfl | rfl | rfl | rfl <;>
  · simp [Fmt.top, Fmt.f32, Fmt.bf16, Fmt.f16, Fmt.e4m3f, Fmt.e5m2] at hk ⊢
    omega

theorem unpackF_sign_add (neg : Bool) {c : Nat} (hc : c < f.top) :
    unpackF f (f.sign neg + c) = .fin neg (f.signif c) (f.ulpExp c) := by
  have hk := hc.trans_le (Fmt.top_le hf)
  obtain ⟨hs, he, hm⟩ := sign_add_fields f neg hk
  obtain ⟨h1, h2⟩ := (lt_top_iff hf hk).1 hc
  have hneg : decide ((if neg then 1 else 0) = 1) = neg := by cases neg <;> rfl
  simp only [unpackF, hs, he, hm, if_neg h1, if_neg h2, hneg]
  rcases lt_or_ge c (2 ^ f.mb) with hlt | hge
  · rw [if_pos (Nat.div_eq_of_lt hlt), Nat.mod_eq_of_lt hlt, Fmt.signif, if_pos hlt, f.ulpExp_subnormal hlt]
  · have hpos : 1 ≤ c / 2 ^ f.mb := (Nat.one_le_div_iff (Nat.two_pow_pos _)).2 hge
    rw [if_neg (by omega), Fmt.signif, if_neg (by omega), Fmt.ulpExp, max_eq_left hpos]

/-- A code of a number is a sign and a magnitude code. -/
theorem exists_sign_add {c : Nat} (h : FFin (unpackF f c)) :
    ∃ neg k, k < f.top ∧ unpackF f c = unpackF f (f.sign neg + k) := by
  obtain ⟨k, hkdef⟩ : ∃ k, k = c % 2 ^ (f.eb + f.mb) := ⟨_, rfl⟩
  have hk : k < 2 ^ (f.eb + f.mb) := hkdef ▸ Nat.mod_lt _ (Nat.two_pow_pos _)
  have hexp : c / 2 ^ f.mb % 2 ^ f.eb = k / 2 ^ f.mb := by
    rw [hkdef, add_comm f.eb, pow_add, Nat.mod_mul_right_div_self]
  have hfrac : c % 2 ^ f.mb = k % 2 ^ f.mb := by
    rw [hkdef, Nat.mod_mod_of_dvd _ (pow_dvd_pow 2 (Nat.le_add_left _ _))]
  obtain ⟨hs, he, hm⟩ := sign_add_fields f (decide (c / 2 ^ (f.eb + f.mb) % 2 = 1)) hk
  refine ⟨decide (c / 2 ^ (f.eb + f.mb) % 2 = 1), k, ?_, unpackF_congr ?_ (hexp.trans he.symm) (hfrac.trans hm.symm)⟩
  · rw [lt_top_iff hf hk]
    obtain ⟨hnan, hinf⟩ := h
    simp only [unpackF, hexp, hfrac] at hnan hinf
    split at hnan
    next => cases hnan
    next h1 =>
      refine ⟨h1, fun h2 => ?_⟩
      rw [if_pos h2] at hnan
      rw [if_neg h1, if_pos h2] at hinf
      split at hnan
      next h3 => exact hinf _ (if_pos h3)
      next => cases hnan
  · rw [hs]
    by_cases h1 : c / 2 ^ (f.eb + f.mb) % 2 = 1
    · simp [h1]
    · simp [h1]; omega

/-- The number of a code below the top. -/
theorem FRat_sign_add (neg : Bool) {c : Nat} (hc : c < f.top) :
    FRat (unpackF f (f.sign neg + c)) = (if neg then -1 else 1) * f.mag c := by
  rw [unpackF_sign_add hf neg hc, FRat, Fmt.mag, mul_assoc]

theorem FFin_sign_add (neg : Bool) {c : Nat} (hc : c < f.top) : FFin (unpackF f (f.sign neg + c)) := by
  rw [unpackF_sign_add hf neg hc]
  exact ⟨rfl, fun _ h => nomatch h⟩

/-- A code of a number is a signed magnitude. -/
theorem exists_mag {c : Nat} (h : FFin (unpackF f c)) :
    ∃ (neg : Bool) (k : Nat), k < f.top ∧ FRat (unpackF f c) = (if neg then -1 else 1) * f.mag k := by
  obtain ⟨neg, k, hk, he⟩ := exists_sign_add hf h
  exact ⟨neg, k, hk, by rw [he, FRat_sign_add hf neg hk]⟩

end Codes

end Sys2Proof.Machine

/-! # A number rounded once (R18) -/

namespace Sys2Proof.Machine

open Sys2Proof Sys2Proof.Claims

/-! ## What rounding a magnitude gives -/

/-- Whether a magnitude x, whose code below is c, is rounded up. -/
def RoundsUp (f : Fmt) (rm : RMode) (neg : Bool) (c : Nat) (x : ℝ) : Prop :=
  match rm with
  | .rn => (2 : ℝ) ^ f.ulpExp c < 2 * (x - f.mag c) ∨ (2 * (x - f.mag c) = (2 : ℝ) ^ f.ulpExp c ∧ c % 2 = 1)
  | .rz => False
  | .ru => neg = false ∧ x ≠ f.mag c
  | .rd => neg = true ∧ x ≠ f.mag c

/-- Whether a number past the largest one becomes an infinity. -/
def toInfinity (rm : RMode) (neg : Bool) : Bool :=
  match rm with
  | .rn => true
  | .rz => false
  | .ru => !neg
  | .rd => neg

/-- The code of a sign and a rounded magnitude code, with its flags. -/
def roundedAs (f : Fmt) (rm : RMode) (neg : Bool) (k : Nat) (exact tiny : Bool) : Nat × Flags :=
  if k ≥ f.top then
    (if toInfinity rm neg then f.inf neg else f.sign neg + f.maxFin, Flags.overflow ||| Flags.inexact)
  else (f.sign neg + k, Flags.when (!exact) (Flags.inexact ||| Flags.when tiny Flags.underflow))

/-- r is the magnitude x with a sign, rounded once: x lies between the numbers of code c and of the next, and goes to one of them;
what is tiny lies below the least normal number, and what is at most the greatest subnormal one is. -/
def RoundsTo (f : Fmt) (rm : RMode) (neg : Bool) (x : ℝ) (r : Nat × Flags) : Prop :=
  ∃ (c k : Nat) (tiny : Bool), (f.mag c : ℝ) ≤ x ∧ x < f.mag (c + 1) ∧
    (RoundsUp f rm neg c x → k = c + 1) ∧ (¬RoundsUp f rm neg c x → k = c) ∧
    (tiny = true → x < f.mag (2 ^ f.mb)) ∧ (x ≤ f.mag (2 ^ f.mb - 1) → tiny = true) ∧
    r = roundedAs f rm neg k (decide (x = f.mag c)) tiny

/-! ## Rounding in units (R18) -/

theorem two_zpow_toNat {u : Int} (h : 0 ≤ u) : (2 : ℝ) ^ u = 2 ^ u.toNat := by
  rw [← zpow_natCast, Int.toNat_of_nonneg h]

theorem two_zpow_neg_toNat {u : Int} (h : u ≤ 0) : (2 : ℝ) ^ u * 2 ^ (-u).toNat = 1 := by
  rw [← two_zpow_toNat (by omega), ← zpow_add₀ two_ne_zero, add_neg_cancel, zpow_zero]

theorem inUnits_spec (num : Nat) {den : Nat} (hd : 0 < den) (u : Int) :
    0 < (inUnits num den u).2 ∧
    ((inUnits num den u).1 : ℝ) / (inUnits num den u).2 = (num : ℝ) / den / (2 : ℝ) ^ u := by
  unfold inUnits
  split
  next h =>
    refine ⟨Nat.mul_pos hd (Nat.two_pow_pos _), ?_⟩
    rw [two_zpow_toNat h, div_div]
    push_cast
    rfl
  next h =>
    refine ⟨hd, ?_⟩
    have hu := two_zpow_neg_toNat (u := u) (by omega)
    have hz : (2 : ℝ) ^ u ≠ 0 := zpow_ne_zero _ two_ne_zero
    push_cast
    rw [div_div, div_eq_div_iff (by positivity) (by positivity)]
    linear_combination (num : ℝ) * den * hu

theorem log2Rat_spec {num den : Nat} (hn : 0 < num) (hd : 0 < den) :
    (2 : ℝ) ^ log2Rat num den ≤ (num : ℝ) / den ∧ (num : ℝ) / den < (2 : ℝ) ^ (log2Rat num den + 1) := by
  obtain ⟨l, hl⟩ : ∃ l : Int, l = (Nat.log2 num : Int) - Nat.log2 den := ⟨_, rfl⟩
  have hd' : (0 : ℝ) < den := Nat.cast_pos.2 hd
  have n1 : (2 : ℝ) ^ Nat.log2 num ≤ num := by exact_mod_cast Nat.log2_self_le hn.ne'
  have n2 : (num : ℝ) < 2 ^ (Nat.log2 num + 1) := by exact_mod_cast Nat.lt_log2_self
  have d1 : (2 : ℝ) ^ Nat.log2 den ≤ den := by exact_mod_cast Nat.log2_self_le hd.ne'
  have d2 : (den : ℝ) < 2 ^ (Nat.log2 den + 1) := by exact_mod_cast Nat.lt_log2_self
  have hlow : (2 : ℝ) ^ (l - 1) ≤ num / den := by
    have hp : (2 : ℝ) ^ (l - 1) * 2 ^ (Nat.log2 den + 1) = 2 ^ Nat.log2 num := by
      rw [← zpow_natCast, ← zpow_natCast, ← zpow_add₀ two_ne_zero]
      congr 1
      push_cast
      omega
    rw [le_div_iff₀ hd']
    calc (2 : ℝ) ^ (l - 1) * den ≤ (2 : ℝ) ^ (l - 1) * 2 ^ (Nat.log2 den + 1) := by gcongr
      _ ≤ num := hp.trans_le n1
  have hhigh : (num : ℝ) / den < (2 : ℝ) ^ (l + 1) := by
    have hp : (2 : ℝ) ^ (l + 1) * 2 ^ Nat.log2 den = 2 ^ (Nat.log2 num + 1) := by
      rw [← zpow_natCast, ← zpow_natCast, ← zpow_add₀ two_ne_zero]
      congr 1
      push_cast
      omega
    rw [div_lt_iff₀ hd']
    calc (num : ℝ) < 2 ^ (Nat.log2 num + 1) := n2
      _ = (2 : ℝ) ^ (l + 1) * 2 ^ Nat.log2 den := hp.symm
      _ ≤ (2 : ℝ) ^ (l + 1) * den := by gcongr
  have hbig : (if l ≥ 0 then decide (num ≥ den * 2 ^ l.toNat) else decide (num * 2 ^ (-l).toNat ≥ den)) = true ↔
      (2 : ℝ) ^ l ≤ num / den := by
    rw [le_div_iff₀ hd']
    split
    next h =>
      rw [two_zpow_toNat h, decide_eq_true_eq, mul_comm]
      exact_mod_cast Iff.rfl
    next h =>
      have hu := two_zpow_neg_toNat (u := l) (by omega)
      have hpow : (0 : ℝ) < 2 ^ (-l).toNat := by positivity
      have hcast : num * 2 ^ (-l).toNat ≥ den ↔ (den : ℝ) ≤ num * 2 ^ (-l).toNat := by exact_mod_cast Iff.rfl
      rw [decide_eq_true_eq, hcast, ← mul_le_mul_iff_left₀ (b := (2 : ℝ) ^ l * den) hpow, mul_right_comm, hu, one_mul]
  have hval : log2Rat num den = if (2 : ℝ) ^ l ≤ num / den then l else l - 1 := by
    simp only [log2Rat, ← hl, hbig]
  rw [hval]
  split
  next h => exact ⟨h, hhigh⟩
  next h => exact ⟨hlow, by rw [sub_add_cancel]; exact not_le.1 h⟩

/-- The quotient and the remainder of a fraction, as a number. -/
theorem div_mod_spec {K : Type} [Field K] [LinearOrder K] [IsStrictOrderedRing K] (n : Nat) {d : Nat} (hd : 0 < d) :
    (n : K) / d = ((n / d : ℕ) : K) + ((n % d : ℕ) : K) / d := by
  have hd' : (d : K) ≠ 0 := Nat.cast_ne_zero.2 hd.ne'
  rw [div_eq_iff hd', add_mul, div_mul_cancel₀ _ hd']
  exact_mod_cast (Nat.div_add_mod' n d).symm

/-- A fraction rounded to an integer, in terms of the number t: it goes up or not, and is exact where t is an integer. -/
theorem roundUp_iff {K : Type} [Field K] [LinearOrder K] [IsStrictOrderedRing K] (rm : RMode) (neg : Bool) (n : Nat) {d : Nat} (hd : 0 < d) {t : K} (ht : (n : K) / d = t) :
    (roundUp rm neg (n / d) (n % d) d = true ↔ match rm with
      | .rn => 1 < 2 * (t - (n / d : ℕ)) ∨ (2 * (t - (n / d : ℕ)) = 1 ∧ n / d % 2 = 1)
      | .rz => False
      | .ru => neg = false ∧ t ≠ (n / d : ℕ)
      | .rd => neg = true ∧ t ≠ (n / d : ℕ)) ∧ (n % d = 0 ↔ t = (n / d : ℕ)) := by
  have hd' : (0 : K) < d := Nat.cast_pos.2 hd
  have hfrac : t - (n / d : ℕ) = ((n % d : ℕ) : K) / d := by
    rw [← ht, div_mod_spec (K := K) n hd]
    ring
  have hzero : n % d = 0 ↔ t = (n / d : ℕ) := by
    rw [← sub_eq_zero (a := t), hfrac, div_eq_zero_iff, Nat.cast_eq_zero, Nat.cast_eq_zero]
    exact ⟨Or.inl, fun h => h.resolve_right hd.ne'⟩
  have hlt : 2 * (n % d) > d ↔ 1 < 2 * (t - (n / d : ℕ)) := by
    rw [hfrac, ← mul_div_assoc, lt_div_iff₀ hd', one_mul]
    exact_mod_cast Iff.rfl
  have heq : 2 * (n % d) = d ↔ 2 * (t - (n / d : ℕ)) = 1 := by
    rw [hfrac, ← mul_div_assoc, div_eq_one_iff_eq hd'.ne']
    exact_mod_cast Iff.rfl
  refine ⟨?_, hzero⟩
  cases rm with
  | rn => simp [roundUp, hlt, heq]
  | rz => simp [roundUp]
  | ru => simp [roundUp, hzero]
  | rd => simp [roundUp, hzero]

/-! ## roundRat rounds once -/

section RoundRat

variable {f : Fmt}

/-- The code of q units of a binade. -/
theorem mag_of_units {q : Nat} {ex : Int} (hq : q < 2 ^ (f.mb + 1)) (hex : 1 - f.bias ≤ ex) (h : ex = 1 - f.bias ∨ 2 ^ f.mb ≤ q) :
    f.mag ((ex + f.bias - 1).toNat * 2 ^ f.mb + q) = q * (2 : ℚ) ^ (ex - f.mb) ∧
    f.ulpExp ((ex + f.bias - 1).toNat * 2 ^ f.mb + q) = ex - f.mb := by
  rcases lt_or_ge q (2 ^ f.mb) with hlt | hge
  · obtain rfl := h.resolve_right (not_le.2 hlt)
    have h0 : (1 - f.bias + f.bias - 1).toNat = 0 := by omega
    rw [h0, zero_mul, zero_add, f.mag_subnormal hlt.le, f.ulpExp_subnormal hlt]
    exact ⟨rfl, rfl⟩
  · obtain ⟨r, rfl⟩ := Nat.exists_eq_add_of_le hge
    have hr : r < 2 ^ f.mb := by rw [pow_succ] at hq; omega
    have hc : (ex + f.bias - 1).toNat * 2 ^ f.mb + (2 ^ f.mb + r) = ((ex + f.bias - 1).toNat + 1) * 2 ^ f.mb + r := by ring
    have hb : (((ex + f.bias - 1).toNat + 1 : ℕ) : ℤ) - f.bias - f.mb = ex - f.mb := by
      push_cast
      omega
    rw [hc, f.mag_binade hr.le (Nat.le_add_left _ _), f.ulpExp_eq hr (Nat.le_add_left _ _), hb]
    exact ⟨rfl, rfl⟩

/-- Rounding up in units of the last place. -/
theorem roundsUp_iff (hmb : 1 ≤ f.mb) (rm : RMode) (neg : Bool) {n d q : Nat} {ex : Int} {x : ℝ} (hd : 0 < d)
    (ht : (n : ℝ) / d = x / (2 : ℝ) ^ (ex - f.mb)) (hq : n / d = q) (hlt : q < 2 ^ (f.mb + 1)) (hex : 1 - f.bias ≤ ex)
    (h : ex = 1 - f.bias ∨ 2 ^ f.mb ≤ q) :
    (roundUp rm neg q (n % d) d = true ↔ RoundsUp f rm neg ((ex + f.bias - 1).toNat * 2 ^ f.mb + q) x) ∧
    (n % d = 0 ↔ x = f.mag ((ex + f.bias - 1).toNat * 2 ^ f.mb + q)) := by
  obtain ⟨hmag, hulp⟩ := mag_of_units hlt hex h
  obtain ⟨hup, hexact⟩ := roundUp_iff rm neg n hd ht
  rw [hq] at hup hexact
  have hu : (0 : ℝ) < (2 : ℝ) ^ (ex - f.mb) := zpow_pos two_pos _
  have hcast : ((f.mag ((ex + f.bias - 1).toNat * 2 ^ f.mb + q) : ℚ) : ℝ) = q * (2 : ℝ) ^ (ex - f.mb) := by
    rw [hmag]
    push_cast
    rfl
  have hunits : 2 * (x / (2 : ℝ) ^ (ex - f.mb) - q) = 2 * (x - q * (2 : ℝ) ^ (ex - f.mb)) / (2 : ℝ) ^ (ex - f.mb) := by
    field_simp
  have hzero : x / (2 : ℝ) ^ (ex - f.mb) = q ↔ x = q * (2 : ℝ) ^ (ex - f.mb) := div_eq_iff hu.ne'
  have hparity : ((ex + f.bias - 1).toNat * 2 ^ f.mb + q) % 2 = q % 2 := by
    have h2 : 2 ∣ (ex + f.bias - 1).toNat * 2 ^ f.mb := Dvd.dvd.mul_left (dvd_pow_self 2 (by omega)) _
    obtain ⟨w, hw⟩ := h2
    rw [hw, Nat.mul_add_mod]
  rw [hunits, lt_div_iff₀ hu, div_eq_iff hu.ne', one_mul] at hup
  rw [hcast, hexact, hzero, hup]
  refine ⟨?_, Iff.rfl⟩
  cases rm with
  | rn => simp only [RoundsUp, hulp, hcast, hparity]
  | rz => rfl
  | ru => simp only [RoundsUp, hcast, ne_eq, hzero]
  | rd => simp only [RoundsUp, hcast, ne_eq, hzero]

/-- Rounded in the units of its own binade, what is at most the greatest subnormal number stays below the least normal one. -/
theorem roundInt_lt_of_subnormal (rm : RMode) (neg : Bool) {n d m : Nat} (h : (n : ℝ) / d ≤ 2 ^ (m + 1) - 2) :
    (roundInt rm neg n d).1 < 2 ^ (m + 1) := by
  have hq : ((n / d : ℕ) : ℝ) + 2 ≤ 2 ^ (m + 1) := by linarith [Nat.cast_div_le (α := ℝ) (m := n) (n := d)]
  have hq' : n / d + 2 ≤ 2 ^ (m + 1) := by exact_mod_cast hq
  have hle : (roundInt rm neg n d).1 ≤ n / d + 1 := by
    simp only [roundInt]
    split <;> omega
  omega

theorem mag_least_normal (f : Fmt) : ((f.mag (2 ^ f.mb) : ℚ) : ℝ) = (2 : ℝ) ^ (1 - f.bias) := by
  rw [f.mag_subnormal le_rfl]
  push_cast
  rw [← zpow_natCast, ← zpow_add₀ two_ne_zero]
  congr 1
  ring

theorem mag_greatest_subnormal (f : Fmt) :
    ((f.mag (2 ^ f.mb - 1) : ℚ) : ℝ) = (2 ^ f.mb - 1) * (2 : ℝ) ^ (1 - f.bias - f.mb) := by
  rw [f.mag_subnormal (Nat.sub_le _ _), Nat.cast_sub (Nat.one_le_two_pow)]
  push_cast
  rfl

/-- What is at most the greatest subnormal number is tiny after rounding. -/
theorem tiny_of_subnormal (rm : RMode) (neg : Bool) {num den : Nat} (hn : 0 < num) (hd : 0 < den) {e : Int}
    (he : e = log2Rat num den) (h : (num : ℝ) / den ≤ f.mag (2 ^ f.mb - 1)) : e < 1 - f.bias ∧ (e < 1 - f.bias - 1 ∨
      (roundInt rm neg (inUnits num den (e - f.mb)).1 (inUnits num den (e - f.mb)).2).1 < 2 ^ (f.mb + 1)) := by
  obtain ⟨hlow, -⟩ := log2Rat_spec hn hd
  rw [← he] at hlow
  have hlt : ((f.mag (2 ^ f.mb - 1) : ℚ) : ℝ) < (2 : ℝ) ^ (1 - f.bias) := by
    rw [← mag_least_normal]
    exact_mod_cast f.mag_strictMono (Nat.sub_lt (Nat.two_pow_pos _) one_pos)
  have hemin : e < 1 - f.bias := (zpow_lt_zpow_iff_right₀ one_lt_two).1 ((hlow.trans h).trans_lt hlt)
  refine ⟨hemin, (lt_or_ge e (1 - f.bias - 1)).imp_right fun hge => ?_⟩
  obtain ⟨-, ht1⟩ := inUnits_spec num hd (e - f.mb)
  refine roundInt_lt_of_subnormal rm neg ?_
  rw [ht1, div_le_iff₀ (zpow_pos two_pos _)]
  refine h.trans_eq ?_
  have he1 : 1 - f.bias - f.mb = 1 + (e - f.mb) := by omega
  rw [mag_greatest_subnormal, he1, zpow_add₀ two_ne_zero, zpow_one, pow_succ]
  ring

/-- The fraction of a model's rounding lies between its code and the next. -/
theorem roundRat_roundsTo (hmb : 1 ≤ f.mb) (rm : RMode) (neg : Bool) {num den : Nat} (hn : 0 < num) (hd : 0 < den) :
    RoundsTo f rm neg ((num : ℝ) / den) (roundRat f rm neg num den) := by
  obtain ⟨e, he⟩ : ∃ e, e = log2Rat num den := ⟨_, rfl⟩
  obtain ⟨ex, hex⟩ : ∃ ex, ex = max e (1 - f.bias) := ⟨_, rfl⟩
  obtain ⟨x, hx⟩ : ∃ x : ℝ, x = (num : ℝ) / den := ⟨_, rfl⟩
  obtain ⟨n, d, hnd⟩ : ∃ n d, inUnits num den (ex - f.mb) = (n, d) := ⟨_, _, rfl⟩
  obtain ⟨hlow, hhigh⟩ := log2Rat_spec hn hd
  obtain ⟨hdpos, ht⟩ := inUnits_spec num hd (ex - f.mb)
  rw [← hx, ← he] at hlow hhigh
  rw [← hx, hnd] at ht
  rw [hnd] at hdpos
  dsimp only at hdpos ht
  obtain ⟨q, hq⟩ : ∃ q, q = n / d := ⟨_, rfl⟩
  have hu : (0 : ℝ) < (2 : ℝ) ^ (ex - f.mb) := zpow_pos two_pos _
  have hbinade : (2 : ℝ) ^ ex = 2 ^ f.mb * (2 : ℝ) ^ (ex - f.mb) := by
    rw [← zpow_natCast, ← zpow_add₀ two_ne_zero, add_sub_cancel]
  have hqle : (q : ℝ) * (2 : ℝ) ^ (ex - f.mb) ≤ x := by
    rw [← le_div_iff₀ hu, ← ht, hq]
    exact Nat.cast_div_le
  have hxlt : x < (q + 1) * (2 : ℝ) ^ (ex - f.mb) := by
    rw [← div_lt_iff₀ hu, ← ht, hq]
    have hr : ((n % d : ℕ) : ℝ) / d < 1 := by
      rw [div_lt_one (Nat.cast_pos.2 hdpos)]
      exact_mod_cast Nat.mod_lt n hdpos
    rw [div_mod_spec n hdpos]
    exact add_lt_add_right hr _
  have hqlt : q < 2 ^ (f.mb + 1) := by
    have hlt : x < 2 ^ (f.mb + 1) * (2 : ℝ) ^ (ex - f.mb) :=
      calc x < (2 : ℝ) ^ (e + 1) := hhigh
        _ ≤ (2 : ℝ) ^ (ex + 1) := zpow_le_zpow_right₀ one_le_two (by omega)
        _ = 2 ^ (f.mb + 1) * (2 : ℝ) ^ (ex - f.mb) := by rw [zpow_add_one₀ two_ne_zero, hbinade]; ring
    exact_mod_cast lt_of_mul_lt_mul_right (hqle.trans_lt hlt) hu.le
  have hbin : ex = 1 - f.bias ∨ 2 ^ f.mb ≤ q := by
    refine (le_or_gt e (1 - f.bias)).imp (fun h => hex.trans (max_eq_right h)) fun h => ?_
    rw [hex, max_eq_left h.le] at hbinade hxlt
    have hlt := lt_of_mul_lt_mul_right ((hbinade.symm.trans_le hlow).trans_lt hxlt) (zpow_pos two_pos _).le
    have : 2 ^ f.mb < q + 1 := by exact_mod_cast hlt
    omega
  have hexmin : 1 - f.bias ≤ ex := hex ▸ le_max_right _ _
  obtain ⟨hup, hexact⟩ := roundsUp_iff hmb rm neg hdpos ht hq.symm hqlt hexmin hbin
  obtain ⟨hmag, hulp⟩ := mag_of_units hqlt hexmin hbin
  obtain ⟨c, hc⟩ : ∃ c, c = (ex + f.bias - 1).toNat * 2 ^ f.mb + q := ⟨_, rfl⟩
  rw [← hc] at hup hexact hmag hulp
  obtain ⟨tiny, htiny⟩ : ∃ tiny, tiny =
    (e < 1 - f.bias && (roundInt rm neg (inUnits num den (e - f.mb)).1 (inUnits num den (e - f.mb)).2).1 < 2 ^ (f.mb + 1) ||
      e < 1 - f.bias - 1) := ⟨_, rfl⟩
  have hcode : (ex + f.bias - 1).toNat * 2 ^ f.mb + (roundInt rm neg n d).1 =
      if roundUp rm neg q (n % d) d then c + 1 else c := by
    rw [roundInt, ← hq, hc]
    split <;> rfl
  have hround : roundRat f rm neg num den =
      roundedAs f rm neg (if roundUp rm neg q (n % d) d then c + 1 else c) (decide (n % d = 0)) tiny := by
    have hunfold := roundRat.eq_def f rm neg num den
    rw [if_neg hn.ne'] at hunfold
    dsimp only at hunfold
    rw [← he, ← hex, hnd] at hunfold
    rw [hunfold, ← hcode, htiny]
    rfl
  rw [← hx]
  refine ⟨c, if roundUp rm neg q (n % d) d then c + 1 else c, tiny, ?_, ?_, fun h => if_pos (hup.2 h), fun h => if_neg fun h' => h (hup.1 h'), fun h => ?_, fun h => ?_, ?_⟩
  · rw [hmag]
    push_cast
    exact hqle
  · rw [f.mag_succ, hmag, hulp]
    push_cast
    rw [add_mul, one_mul] at hxlt
    exact hxlt
  · rw [mag_least_normal]
    refine hhigh.trans_le (zpow_le_zpow_right₀ one_le_two ?_)
    rw [htiny] at h
    simp only [Bool.or_eq_true, Bool.and_eq_true, decide_eq_true_eq] at h
    omega
  · obtain ⟨h1, h2⟩ := tiny_of_subnormal rm neg hn hd he (hx ▸ h)
    rw [htiny]
    simp only [Bool.or_eq_true, Bool.and_eq_true, decide_eq_true_eq]
    exact h2.symm.imp_left fun h2 => ⟨h1, h2⟩
  · rw [hround, decide_eq_decide.2 hexact]

end RoundRat

end Sys2Proof.Machine

/-! # Rounding once selects the number that the mode names (R18, R23) -/

namespace Sys2Proof.Machine

open Sys2Proof Sys2Proof.Claims

/-! ## Between two neighbours -/

section Neighbours

variable {M : Nat → ℝ} (hM : StrictMono M) {c k : Nat} {x : ℝ} (hlow : M c ≤ x) (hhigh : x < M (c + 1))

include hM hlow hhigh

omit hlow hhigh in
/-- A term of the sequence lies at or below the lower neighbour, or at or above the upper one. -/
theorem le_or_ge_neighbour (c j : Nat) : M j ≤ M c ∨ M (c + 1) ≤ M j :=
  (Nat.lt_or_ge c j).symm.imp (fun h => hM.monotone h) fun h => hM.monotone h

omit hlow in
theorem le_low_of_le {j : Nat} (h : M j ≤ x) : M j ≤ M c :=
  (le_or_ge_neighbour hM c j).resolve_right fun h' => absurd (hhigh.trans_le (h'.trans h)) (lt_irrefl x)

omit hhigh in
theorem high_le_of_lt {j : Nat} (h : x ≤ M j) (hne : x ≠ M c) : M (c + 1) ≤ M j :=
  (le_or_ge_neighbour hM c j).resolve_left fun h' => hne (le_antisymm (h.trans h') hlow)

/-- The nearer neighbour, of two equally near the even one, is the nearest of all terms. -/
theorem nearest_of_neighbours
    (hup : M (c + 1) - M c < 2 * (x - M c) ∨ (2 * (x - M c) = M (c + 1) - M c ∧ c % 2 = 1) → k = c + 1)
    (hdown : ¬(M (c + 1) - M c < 2 * (x - M c) ∨ (2 * (x - M c) = M (c + 1) - M c ∧ c % 2 = 1)) → k = c) (j : Nat) :
    |M k - x| ≤ |M j - x| ∧ (|M k - x| = |M j - x| → M j = M k ∨ k % 2 = 0) := by
  by_cases h : M (c + 1) - M c < 2 * (x - M c) ∨ (2 * (x - M c) = M (c + 1) - M c ∧ c % 2 = 1)
  · rw [hup h, abs_of_pos (sub_pos.2 hhigh)]
    rcases le_or_ge_neighbour hM c j with hj | hj
    · rw [abs_of_nonpos (by linarith)]
      refine ⟨by rcases h with h | h <;> linarith [h], fun heq => Or.inr ?_⟩
      rcases h with h | ⟨-, h⟩
      · linarith
      · omega
    · rw [abs_of_nonneg (by linarith)]
      exact ⟨by linarith, fun heq => Or.inl (by linarith)⟩
  · rw [hdown h, abs_of_nonpos (sub_nonpos.2 hlow)]
    rcases le_or_ge_neighbour hM c j with hj | hj
    · rw [abs_of_nonpos (by linarith)]
      exact ⟨by linarith, fun heq => Or.inl (by linarith)⟩
    · push Not at h
      obtain ⟨h1, h2⟩ := h
      rw [abs_of_nonneg (by linarith)]
      refine ⟨by linarith, fun heq => Or.inr ?_⟩
      have := h2 (by linarith)
      omega

end Neighbours

/-! ## Signs -/

/-- A sign as a number. -/
def signR (neg : Bool) : ℝ := if neg then -1 else 1

@[simp] theorem signR_false : signR false = 1 := rfl
@[simp] theorem signR_true : signR true = -1 := rfl

theorem abs_signR_mul (neg : Bool) (x : ℝ) : |signR neg * x| = |x| := by
  cases neg <;> simp [signR]

theorem abs_signR_mul_sub (neg : Bool) (a x : ℝ) : |signR neg * a - signR neg * x| = |a - x| := by
  rw [← mul_sub, abs_signR_mul]

/-- Numbers of any sign are no nearer to one of a given sign than their magnitudes are; and as near only where they have its
sign, or are zero. -/
theorem abs_sub_signed (neg neg' : Bool) {a x : ℝ} (ha : 0 ≤ a) (hx : 0 < x) :
    |a - x| ≤ |signR neg' * a - signR neg * x| ∧
    (|signR neg' * a - signR neg * x| ≤ |a - x| → signR neg' * a = signR neg * a) := by
  by_cases hs : neg' = neg
  · rw [hs, abs_signR_mul_sub]
    exact ⟨le_rfl, fun _ => rfl⟩
  · have hopp : |signR neg' * a - signR neg * x| = a + x := by
      have : signR neg' * a - signR neg * x = signR neg' * (a + x) := by
        cases neg <;> cases neg' <;> simp [signR] at hs ⊢
        ring
      rw [this, abs_signR_mul, abs_of_pos (by linarith)]
    have hsub : |a - x| ≤ a + x := abs_le.2 ⟨by linarith, by linarith⟩
    refine ⟨hopp ▸ hsub, fun h => ?_⟩
    rw [hopp] at h
    have h0 : a = 0 := by
      rcases abs_cases (a - x) with ⟨h1, -⟩ | ⟨h1, -⟩ <;> linarith
    rw [h0, mul_zero, mul_zero]

/-! ## The flags of a rounding (R23) -/

theorem roundedFlags (exact tiny : Bool) :
    Flags.when (!exact) (Flags.inexact ||| Flags.when tiny Flags.underflow) &&& Flags.overflow = 0 ∧
    (Flags.when (!exact) (Flags.inexact ||| Flags.when tiny Flags.underflow) &&& Flags.inexact ≠ 0 ↔ exact = false) ∧
    (Flags.when (!exact) (Flags.inexact ||| Flags.when tiny Flags.underflow) &&& Flags.underflow ≠ 0 ↔
      exact = false ∧ tiny = true) := by
  cases exact <;> cases tiny <;> decide

/-! ## Rounded once -/

section RoundsTo

variable {f : Fmt} {rm : RMode} {neg : Bool} {x : ℝ} {r : Nat × Flags}

theorem magR_strictMono (f : Fmt) : StrictMono fun c => ((f.mag c : ℚ) : ℝ) :=
  fun _ _ h => Rat.cast_lt.2 (f.mag_strictMono h)

theorem magR_nonneg (f : Fmt) (c : Nat) : (0 : ℝ) ≤ f.mag c := by exact_mod_cast f.mag_nonneg c

theorem magR_succ (f : Fmt) (c : Nat) : ((f.mag (c + 1) : ℚ) : ℝ) - f.mag c = (2 : ℝ) ^ f.ulpExp c := by
  rw [f.mag_succ]
  push_cast
  ring

/-- A magnitude that is rounded up is no number of the format. -/
theorem ne_of_roundsUp {c : Nat} (h : RoundsUp f rm neg c x) : x ≠ f.mag c := by
  have hulp : (0 : ℝ) < (2 : ℝ) ^ f.ulpExp c := zpow_pos two_pos _
  rintro rfl
  cases rm with
  | rn =>
    simp only [RoundsUp, sub_self, mul_zero] at h
    rcases h with h | ⟨h, -⟩ <;> linarith
  | rz => exact h
  | ru => exact h.2 rfl
  | rd => exact h.2 rfl

variable (hf : f ∈ [Fmt.f32, .bf16, .f16, .e4m3f, .e5m2])

include hf

theorem FRat_sign_addR {c : Nat} (neg : Bool) (hc : c < f.top) :
    ((FRat (unpackF f (f.sign neg + c)) : ℚ) : ℝ) = signR neg * f.mag c := by
  rw [FRat_sign_add hf neg hc]
  cases neg <;> simp [signR]

theorem exists_magR {c : Nat} (h : FFin (unpackF f c)) :
    ∃ (neg : Bool) (k : Nat), k < f.top ∧ ((FRat (unpackF f c) : ℚ) : ℝ) = signR neg * f.mag k := by
  obtain ⟨neg, k, hk, he⟩ := exists_mag hf h
  refine ⟨neg, k, hk, ?_⟩
  rw [he]
  cases neg <;> simp [signR]

omit hf in
/-- A magnitude that is not rounded up goes to the greatest number at or below it. -/
theorem magR_floor {c k : Nat} (hlow : (f.mag c : ℝ) ≤ x) (hhigh : x < f.mag (c + 1)) (hk : k = c) :
    (f.mag k : ℝ) ≤ x ∧ ∀ j, (f.mag j : ℝ) ≤ x → (f.mag j : ℝ) ≤ f.mag k := by
  rw [hk]
  exact ⟨hlow, fun j hj => le_low_of_le (magR_strictMono f) hhigh hj⟩

omit hf in
/-- One that is rounded up wherever it is no number goes to the least number at or above it. -/
theorem magR_ceil {c k : Nat} (hlow : (f.mag c : ℝ) ≤ x) (hhigh : x < f.mag (c + 1)) (hup : x ≠ f.mag c → k = c + 1)
    (hdown : x = f.mag c → k = c) : x ≤ f.mag k ∧ ∀ j, x ≤ (f.mag j : ℝ) → (f.mag k : ℝ) ≤ f.mag j := by
  by_cases hx : x = f.mag c
  · rw [hdown hx]
    exact ⟨hx.le, fun j hj => hx ▸ hj⟩
  · rw [hup hx]
    exact ⟨hhigh.le, fun j hj => high_le_of_lt (magR_strictMono f) hlow hj hx⟩

theorem top_pos : 0 < f.top := by
  simp only [List.mem_cons, List.not_mem_nil, or_false] at hf
  rcases hf with rfl | rfl | rfl | rfl | rfl <;> decide

theorem subnormal_lt_top : 2 ^ f.mb - 1 < f.top := by
  simp only [List.mem_cons, List.not_mem_nil, or_false] at hf
  rcases hf with rfl | rfl | rfl | rfl | rfl <;> decide

theorem sign_add_mod_two (neg : Bool) (k : Nat) : (f.sign neg + k) % 2 = k % 2 := by
  have h2 : 2 ∣ f.sign neg := by
    simp only [List.mem_cons, List.not_mem_nil, or_false] at hf
    rcases hf with rfl | rfl | rfl | rfl | rfl <;> cases neg <;> decide
  omega

section Between

variable {c k : Nat} (hlow : (f.mag c : ℝ) ≤ x) (hhigh : x < f.mag (c + 1)) (hup : RoundsUp f rm neg c x → k = c + 1)
  (hdown : ¬RoundsUp f rm neg c x → k = c)

include hlow hhigh hup hdown

/-- To nearest, no number of the format is nearer, and only where the code is even another is as near. -/
theorem rounded_rn (hx : 0 < x) (hrm : rm = .rn) {d : Nat} (hd : FFin (unpackF f d)) :
    |signR neg * f.mag k - signR neg * x| ≤ |((FRat (unpackF f d) : ℚ) : ℝ) - signR neg * x| ∧
    (|signR neg * f.mag k - signR neg * x| = |((FRat (unpackF f d) : ℚ) : ℝ) - signR neg * x| →
      ((FRat (unpackF f d) : ℚ) : ℝ) = signR neg * f.mag k ∨ k % 2 = 0) := by
  subst hrm
  obtain ⟨neg', j, -, hv⟩ := exists_magR hf hd
  simp only [RoundsUp, ← magR_succ f c] at hup hdown
  obtain ⟨h1, h1'⟩ := nearest_of_neighbours (magR_strictMono f) hlow hhigh hup hdown j
  obtain ⟨h2, h2'⟩ := abs_sub_signed neg neg' (magR_nonneg f j) hx
  rw [abs_signR_mul_sub, hv]
  refine ⟨h1.trans h2, fun heq => ?_⟩
  rw [h2' (heq ▸ h1)]
  exact (h1' (le_antisymm h1 (heq ▸ h2))).imp_left fun h => congrArg _ h

/-- Towards zero, no number of the format at most as great in magnitude is greater. -/
theorem rounded_rz (hx : 0 < x) (hrm : rm = .rz) : |signR neg * (f.mag k : ℝ)| ≤ |signR neg * x| ∧
    0 ≤ signR neg * (f.mag k : ℝ) * (signR neg * x) ∧
    ∀ d, FFin (unpackF f d) → |((FRat (unpackF f d) : ℚ) : ℝ)| ≤ |signR neg * x| →
      |((FRat (unpackF f d) : ℚ) : ℝ)| ≤ |signR neg * (f.mag k : ℝ)| := by
  obtain ⟨h1, h2⟩ := magR_floor hlow hhigh (hdown (hrm ▸ id))
  have hsign : signR neg * signR neg = 1 := by cases neg <;> norm_num [signR]
  refine ⟨?_, ?_, fun d hd h => ?_⟩
  · rwa [abs_signR_mul, abs_signR_mul, abs_of_nonneg (magR_nonneg f k), abs_of_pos hx]
  · rw [mul_mul_mul_comm, hsign, one_mul]
    exact mul_nonneg (magR_nonneg f k) hx.le
  · obtain ⟨neg', j, -, hv⟩ := exists_magR hf hd
    rw [hv, abs_signR_mul, abs_of_nonneg (magR_nonneg f j)] at h ⊢
    rw [abs_signR_mul, abs_of_pos hx] at h
    rw [abs_signR_mul, abs_of_nonneg (magR_nonneg f k)]
    exact h2 j h

/-- Upwards, no number of the format at or above is less. -/
theorem rounded_ru (hx : 0 < x) (hrm : rm = .ru) : signR neg * x ≤ signR neg * (f.mag k : ℝ) ∧
    ∀ d, FFin (unpackF f d) → signR neg * x ≤ ((FRat (unpackF f d) : ℚ) : ℝ) →
      signR neg * (f.mag k : ℝ) ≤ ((FRat (unpackF f d) : ℚ) : ℝ) := by
  subst hrm
  cases neg with
  | false =>
    obtain ⟨h1, h2⟩ := magR_ceil hlow hhigh (fun h => hup ⟨rfl, h⟩) fun h => hdown fun h' => h'.2 h
    simp only [signR_false, one_mul]
    refine ⟨h1, fun d hd h => ?_⟩
    obtain ⟨neg', j, -, hv⟩ := exists_magR hf hd
    rw [hv] at h ⊢
    cases neg' with
    | false => simpa only [signR_false, one_mul] using h2 j (by simpa only [signR_false, one_mul] using h)
    | true =>
      rw [signR_true] at h
      linarith [magR_nonneg f j]
  | true =>
    obtain ⟨h1, h2⟩ := magR_floor hlow hhigh (hdown fun h => nomatch h.1)
    simp only [signR_true]
    refine ⟨by linarith, fun d hd h => ?_⟩
    obtain ⟨neg', j, -, hv⟩ := exists_magR hf hd
    rw [hv] at h ⊢
    cases neg' with
    | false =>
      rw [signR_false]
      linarith [magR_nonneg f j, magR_nonneg f k]
    | true =>
      rw [signR_true] at h ⊢
      linarith [h2 j (by linarith)]

/-- Downwards, no number of the format at or below is greater. -/
theorem rounded_rd (hx : 0 < x) (hrm : rm = .rd) : signR neg * (f.mag k : ℝ) ≤ signR neg * x ∧
    ∀ d, FFin (unpackF f d) → ((FRat (unpackF f d) : ℚ) : ℝ) ≤ signR neg * x →
      ((FRat (unpackF f d) : ℚ) : ℝ) ≤ signR neg * (f.mag k : ℝ) := by
  subst hrm
  cases neg with
  | false =>
    obtain ⟨h1, h2⟩ := magR_floor hlow hhigh (hdown fun h => nomatch h.1)
    simp only [signR_false, one_mul]
    refine ⟨h1, fun d hd h => ?_⟩
    obtain ⟨neg', j, -, hv⟩ := exists_magR hf hd
    rw [hv] at h ⊢
    cases neg' with
    | false => simpa only [signR_false, one_mul] using h2 j (by simpa only [signR_false, one_mul] using h)
    | true =>
      rw [signR_true]
      linarith [magR_nonneg f j, magR_nonneg f k]
  | true =>
    obtain ⟨h1, h2⟩ := magR_ceil hlow hhigh (fun h => hup ⟨rfl, h⟩) fun h => hdown fun h' => h'.2 h
    simp only [signR_true]
    refine ⟨by linarith, fun d hd h => ?_⟩
    obtain ⟨neg', j, -, hv⟩ := exists_magR hf hd
    rw [hv] at h ⊢
    cases neg' with
    | false =>
      rw [signR_false] at h
      linarith [magR_nonneg f j]
    | true =>
      rw [signR_true] at h ⊢
      linarith [h2 j (by linarith)]

omit hf hlow in
/-- A rounded magnitude is the number itself exactly where the number is one of the format's. -/
theorem magR_eq_iff : ((f.mag k : ℚ) : ℝ) = x ↔ x = f.mag c := by
  by_cases h : RoundsUp f rm neg c x
  · rw [hup h]
    exact ⟨fun h' => absurd h' hhigh.ne', fun h' => absurd h' (ne_of_roundsUp h)⟩
  · rw [hdown h]
    exact eq_comm

omit hf hhigh in
/-- A magnitude that is rounded to the top of the format lies past its largest number. -/
theorem maxFin_lt_of_top_le (h0 : 0 < f.top) (hk : f.top ≤ k) : ((f.mag f.maxFin : ℚ) : ℝ) < x := by
  have hsucc : f.maxFin + 1 = f.top := Nat.sub_add_cancel h0
  by_cases h : RoundsUp f rm neg c x
  · rw [hup h] at hk
    exact ((magR_strictMono f).monotone (by omega)).trans_lt (lt_of_le_of_ne hlow (ne_of_roundsUp h).symm)
  · rw [hdown h] at hk
    exact ((magR_strictMono f) (by omega)).trans_le hlow

end Between

theorem FRat_codeR {c : Nat} (hc : c < f.top) : ((FRat (unpackF f c) : ℚ) : ℝ) = f.mag c := by
  have h := FRat_sign_addR hf false hc
  rwa [signR_false, one_mul, Fmt.sign, if_neg Bool.false_ne_true, zero_add] at h

/-- A number past the largest one: the infinity, or the largest number, by the mode. -/
theorem rounded_overflow (hx : 0 < x) (hover : ((f.mag f.maxFin : ℚ) : ℝ) < x) : Rounded f rm neg (signR neg * x)
    (if toInfinity rm neg then f.inf neg else f.sign neg + f.maxFin, Flags.overflow ||| Flags.inexact) := by
  have hmax := FRat_codeR hf (Nat.sub_lt (top_pos hf) one_pos : f.maxFin < f.top)
  refine ⟨fun _ => ⟨?_, rfl, ?_⟩, fun h => absurd h (by decide : ¬(Flags.overflow ||| Flags.inexact) &&& Flags.overflow = 0)⟩
  · rw [abs_signR_mul, abs_of_pos hx]
    exact hmax.trans_lt hover
  · cases rm <;> cases neg <;> rfl

/-- A rounded magnitude of the format with its flags. -/
theorem rounded_finite {c k : Nat} {tiny : Bool} {fl : Flags} (hx : 0 < x) (hlow : (f.mag c : ℝ) ≤ x)
    (hhigh : x < f.mag (c + 1)) (hup : RoundsUp f rm neg c x → k = c + 1) (hdown : ¬RoundsUp f rm neg c x → k = c)
    (htiny : tiny = true → x < f.mag (2 ^ f.mb)) (hsub : x ≤ f.mag (2 ^ f.mb - 1) → tiny = true) (hk : k < f.top)
    (hover : fl &&& Flags.overflow = 0) (hinexact : fl &&& Flags.inexact ≠ 0 ↔ x ≠ f.mag c)
    (hunder : fl &&& Flags.underflow ≠ 0 ↔ x ≠ f.mag c ∧ tiny = true) :
    Rounded f rm neg (signR neg * x) (f.sign neg + k, fl) := by
  have hne : x ≠ f.mag c ↔ signR neg * (f.mag k : ℝ) ≠ signR neg * x := by
    rw [ne_eq, ← magR_eq_iff hhigh hup hdown, ne_eq, mul_right_inj' (by cases neg <;> norm_num [signR])]
  have heven : (f.sign neg + k) % 2 = k % 2 := sign_add_mod_two hf neg k
  refine ⟨fun h => absurd hover h, fun _ => ?_⟩
  dsimp only
  rw [FRat_sign_addR hf neg hk, FRat_codeR hf (subnormal_lt_top hf), heven, hinexact, hunder, hne]
  refine ⟨FFin_sign_add hf neg hk, fun hrm d hd => rounded_rn hf hlow hhigh hup hdown hx hrm hd,
    rounded_rz hf hlow hhigh hup hdown hx, rounded_ru hf hlow hhigh hup hdown hx, rounded_rd hf hlow hhigh hup hdown hx, Iff.rfl, ?_, ?_⟩
  · rintro ⟨h1, h2⟩
    rw [abs_signR_mul, abs_of_pos hx, ← mag_least_normal]
    exact ⟨h1, htiny h2⟩
  · intro h1 h2
    rw [abs_signR_mul, abs_of_pos hx] at h2
    exact ⟨h1, hsub h2⟩

/-- A magnitude rounded once selects the number that the mode names. -/
theorem rounded_of_roundsTo (hx : 0 < x) (h : RoundsTo f rm neg x r) : Rounded f rm neg (signR neg * x) r := by
  obtain ⟨c, k, tiny, hlow, hhigh, hup, hdown, htiny, hsub, rfl⟩ := h
  unfold roundedAs
  split
  next hk => exact rounded_overflow hf hx (maxFin_lt_of_top_le hlow hup hdown (top_pos hf) hk)
  next hk =>
    obtain ⟨hover, hinexact, hunder⟩ := roundedFlags (decide (x = f.mag c)) tiny
    rw [decide_eq_false_iff_not] at hinexact hunder
    exact rounded_finite hf hx hlow hhigh hup hdown htiny hsub (not_le.1 hk) hover hinexact hunder

end RoundsTo

end Sys2Proof.Machine

/-! # Sums of products, scaling and conversions (R18, R23, R115, R123) -/

namespace Sys2Proof.Machine

open Sys2Proof Sys2Proof.Claims

/-! ## Dyadic numbers -/

theorem Dy.val_add (a b : Dy) : (a.add b).val = a.val + b.val := by
  rw [Dy.val_eq_align_left a b, Dy.val_eq_align_right a b, ← add_mul]
  simp only [Dy.add, Dy.align, Dy.val]
  push_cast
  rfl

theorem Dy.val_neg (a : Dy) : a.neg.val = -a.val := by
  simp [Dy.neg, Dy.val]

theorem Dy.val_sub (a b : Dy) : (a.sub b).val = a.val - b.val := by
  rw [Dy.sub, Dy.val_add, Dy.val_neg, sub_eq_add_neg]

theorem Dy.val_mul (a b : Dy) : (a.mul b).val = a.val * b.val := by
  simp only [Dy.mul, Dy.val]
  rw [zpow_add₀ two_ne_zero]
  push_cast
  ring

theorem Dy.val_abs (a : Dy) : a.abs.val = |a.val| := by
  simp only [Dy.abs, Dy.val]
  rw [abs_mul, abs_of_pos (zpow_pos (two_pos (α := ℚ)) a.e)]
  simp

theorem Dy.val_zero : Dy.zero.val = 0 := by simp [Dy.zero, Dy.val]

theorem Dy.val_foldl_add (l : List Dy) (a : Dy) : (l.foldl Dy.add a).val = a.val + (l.map Dy.val).sum := by
  induction l generalizing a with
  | nil => simp
  | cons x l ih => rw [List.foldl_cons, ih, Dy.val_add, List.map_cons, List.sum_cons, add_assoc]

theorem Dy.val_sum (l : List Dy) : (Dy.sum l).val = (l.map Dy.val).sum := by
  rw [Dy.sum, Dy.val_foldl_add, Dy.val_zero, zero_add]

theorem Dy.m_neg_iff {a : Dy} : a.m < 0 ↔ a.val < 0 := by
  rw [Dy.val, ← not_le, ← not_le, mul_nonneg_iff_of_pos_right (zpow_pos two_pos _)]
  exact_mod_cast Iff.rfl

/-! ## A dyadic number rounded once -/

theorem signR_abs {q : ℚ} : signR (decide (q < 0)) * ((|q| : ℚ) : ℝ) = q := by
  by_cases h : q < 0
  · simp [h, abs_of_neg h]
  · simp [h, abs_of_nonneg (not_lt.1 h)]

section RoundDy

variable {f : Fmt} (rm : RMode) (zneg : Bool) {x : Dy}

theorem roundDy_of_zero (h : x.val = 0) : roundDy f rm zneg x = (f.sign zneg, 0) := by
  rw [roundDy, if_pos (Dy.m_eq_zero_iff.2 h)]

theorem roundDy_roundsTo (hmb : 1 ≤ f.mb) (h : x.val ≠ 0) :
    RoundsTo f rm (decide (x.val < 0)) ((|x.val| : ℚ) : ℝ) (roundDy f rm zneg x) := by
  have hm : x.m ≠ 0 := fun h0 => h (Dy.m_eq_zero_iff.1 h0)
  have hpos : 0 < x.m.natAbs := Int.natAbs_pos.2 hm
  have hneg : decide (x.m < 0) = decide (x.val < 0) := decide_eq_decide.2 Dy.m_neg_iff
  have habs : ((|x.val| : ℚ) : ℝ) = x.m.natAbs * (2 : ℝ) ^ x.e := by
    rw [← Dy.val_abs, Dy.abs, Dy.val]
    push_cast
    simp
  rw [roundDy, if_neg hm, hneg]
  split
  next he =>
    have hval : (((x.m.natAbs * 2 ^ x.e.toNat : ℕ) : ℝ)) / (1 : ℕ) = ((|x.val| : ℚ) : ℝ) := by
      rw [habs, two_zpow_toNat he]
      push_cast
      ring
    rw [← hval]
    exact roundRat_roundsTo hmb rm _ (Nat.mul_pos hpos (Nat.two_pow_pos _)) one_pos
  next he =>
    have hu := two_zpow_neg_toNat (u := x.e) (by omega)
    have hval : (x.m.natAbs : ℝ) / ((2 ^ (-x.e).toNat : ℕ) : ℝ) = ((|x.val| : ℚ) : ℝ) := by
      rw [habs, div_eq_iff (by positivity)]
      push_cast
      rw [mul_assoc, hu, mul_one]
    rw [← hval]
    exact roundRat_roundsTo hmb rm _ hpos (Nat.two_pow_pos _)

end RoundDy

section Formats

variable {f : Fmt} (hf : f ∈ [Fmt.f32, .bf16, .f16, .e4m3f, .e5m2])

include hf

theorem one_le_mb : 1 ≤ f.mb := by
  simp only [List.mem_cons, List.not_mem_nil, or_false] at hf
  rcases hf with rfl | rfl | rfl | rfl | rfl <;> decide

theorem rounded_roundRat (rm : RMode) (neg : Bool) {num den : Nat} (hn : 0 < num) (hd : 0 < den) :
    Rounded f rm neg (signR neg * ((num : ℝ) / den)) (roundRat f rm neg num den) :=
  rounded_of_roundsTo hf (by positivity) (roundRat_roundsTo (one_le_mb hf) rm neg hn hd)

theorem rounded_roundDy (rm : RMode) (zneg : Bool) {x : Dy} (h : x.val ≠ 0) :
    Rounded f rm (decide (x.val < 0)) (x.val : ℝ) (roundDy f rm zneg x) := by
  have := rounded_of_roundsTo hf (by exact_mod_cast abs_pos.2 h) (roundDy_roundsTo rm zneg (one_le_mb hf) h)
  rwa [signR_abs] at this

end Formats

/-! ## Sums of products (R115) -/

/-- The sign of an exact zero that is a sum of products. -/
def zeroSign (rm : RMode) (ts : List (FVal × FVal)) : Bool :=
  let zeros := ts.all fun t => t.1.dy.m * t.2.dy.m = 0
  if zeros && ts.all fun t => t.1.sgn != t.2.sgn then true
  else if zeros && ts.all fun t => t.1.sgn == t.2.sgn then false
  else rm == .rd

theorem exists_fin {v : FVal} (h : FFin v) : ∃ neg m e, v = .fin neg m e := by
  obtain ⟨hn, hi⟩ := h
  cases v with
  | nan => cases hn
  | inf n => exact absurd rfl (hi n)
  | fin neg m e => exact ⟨neg, m, e, rfl⟩

theorem any_eq_false_of_fin {ts : List (FVal × FVal)} (h : ∀ t ∈ ts, FFin t.1 ∧ FFin t.2) {p : FVal × FVal → Bool}
    (hp : ∀ n m e n' m' e', p (.fin n m e, .fin n' m' e') = false) : ts.any p = false := by
  rw [List.any_eq_false]
  rintro ⟨a, b⟩ hab
  obtain ⟨ha, hb⟩ := h _ hab
  obtain ⟨n, m, e, rfl⟩ := exists_fin ha
  obtain ⟨n', m', e', rfl⟩ := exists_fin hb
  rw [hp]
  exact Bool.false_ne_true

theorem zeroInf_fin (n : Bool) (m : Nat) (e : Int) (n' : Bool) (m' : Nat) (e' : Int) :
    zeroInf (.fin n m e, .fin n' m' e') = false := by
  cases m <;> cases m' <;> rfl

theorem infSigns_of_fin {ts : List (FVal × FVal)} (h : ∀ t ∈ ts, FFin t.1 ∧ FFin t.2) : infSigns ts = [] := by
  rw [infSigns, List.filterMap_eq_nil_iff]
  rintro ⟨a, b⟩ hab
  obtain ⟨ha, hb⟩ := h _ hab
  obtain ⟨n, m, e, rfl⟩ := exists_fin ha
  obtain ⟨n', m', e', rfl⟩ := exists_fin hb
  rfl

theorem sumProd_of_fin (f : Fmt) (rm : RMode) {ts : List (FVal × FVal)} (h : ∀ t ∈ ts, FFin t.1 ∧ FFin t.2) :
    sumProd f rm ts = roundDy f rm (zeroSign rm ts) (Dy.sum (ts.map fun t => t.1.dy.mul t.2.dy)) := by
  have hsnan : (ts.any fun t => t.1.isSnan || t.2.isSnan) = false := any_eq_false_of_fin h fun _ _ _ _ _ _ => rfl
  have hzero : ts.any zeroInf = false := any_eq_false_of_fin h zeroInf_fin
  have hnan : (ts.any fun t => t.1.isNan || t.2.isNan) = false := any_eq_false_of_fin h fun _ _ _ _ _ _ => rfl
  unfold sumProd
  simp only [hsnan, hzero, hnan, infSigns_of_fin h]
  rfl

/-- The exact number of a sum of products. -/
theorem val_sum_of_products {ts : List (FVal × FVal)} :
    (Dy.sum (ts.map fun t => t.1.dy.mul t.2.dy)).val = (ts.map fun t => FRat t.1 * FRat t.2).sum := by
  rw [Dy.val_sum, List.map_map]
  congr 1
  refine List.map_congr_left fun t _ => ?_
  rw [Function.comp_apply, Dy.val_mul, FRat_eq_val_dy, FRat_eq_val_dy]

theorem mantissas_eq_zero_iff (t : FVal × FVal) : t.1.dy.m * t.2.dy.m = 0 ↔ FRat t.1 * FRat t.2 = 0 := by
  rw [mul_eq_zero, mul_eq_zero, Dy.m_eq_zero_iff, Dy.m_eq_zero_iff, FRat_eq_val_dy, FRat_eq_val_dy]

/-- The sign of an exact zero: that of its addends where they agree, and else −0 only downwards. -/
theorem zeroSign_spec (rm : RMode) {ts : List (FVal × FVal)} (hne : ts ≠ []) :
    ((∀ t ∈ ts, FRat t.1 * FRat t.2 = 0 ∧ t.1.sgn ≠ t.2.sgn) → zeroSign rm ts = true) ∧
    ((∀ t ∈ ts, FRat t.1 * FRat t.2 = 0 ∧ t.1.sgn = t.2.sgn) → zeroSign rm ts = false) ∧
    (¬(∀ t ∈ ts, FRat t.1 * FRat t.2 = 0 ∧ t.1.sgn ≠ t.2.sgn) → ¬(∀ t ∈ ts, FRat t.1 * FRat t.2 = 0 ∧ t.1.sgn = t.2.sgn) →
      (zeroSign rm ts = true ↔ rm = .rd)) := by
  have hne' : ((ts.all fun t => t.1.dy.m * t.2.dy.m = 0) && ts.all fun t => t.1.sgn != t.2.sgn) = true ↔
      ∀ t ∈ ts, FRat t.1 * FRat t.2 = 0 ∧ t.1.sgn ≠ t.2.sgn := by
    simp only [Bool.and_eq_true, List.all_eq_true, decide_eq_true_eq, mantissas_eq_zero_iff, bne_iff_ne, forall_and]
  have heq : ((ts.all fun t => t.1.dy.m * t.2.dy.m = 0) && ts.all fun t => t.1.sgn == t.2.sgn) = true ↔
      ∀ t ∈ ts, FRat t.1 * FRat t.2 = 0 ∧ t.1.sgn = t.2.sgn := by
    simp only [Bool.and_eq_true, List.all_eq_true, decide_eq_true_eq, mantissas_eq_zero_iff, beq_iff_eq, forall_and]
  obtain ⟨t0, ht0⟩ := List.exists_mem_of_ne_nil _ hne
  simp only [zeroSign, hne', heq]
  refine ⟨fun h => if_pos h, fun h => ?_, fun h1 h2 => ?_⟩
  · rw [if_neg fun h' => (h' t0 ht0).2 (h t0 ht0).2, if_pos h]
  · rw [if_neg h1, if_neg h2, beq_iff_eq]

/-- A sum of products rounds the exact sum once. -/
theorem sumProd_rounds {f : Fmt} (hf : f ∈ [Fmt.f32, .bf16, .f16, .e4m3f, .e5m2]) (rm : RMode) {ts : List (FVal × FVal)} {x : ℚ}
    (h : ∀ t ∈ ts, FFin t.1 ∧ FFin t.2) (hx : x = (ts.map fun t => FRat t.1 * FRat t.2).sum) (h0 : x ≠ 0) :
    Rounded f rm (x < 0) (x : ℝ) (sumProd f rm ts) := by
  rw [sumProd_of_fin f rm h]
  rw [← val_sum_of_products] at hx
  subst hx
  exact rounded_roundDy hf rm _ h0

/-- Infinite addends of a sum (R115). -/
theorem sumProd_inf (f : Fmt) (rm : RMode) (b : Bool) {y z : FVal} (hy : FFin y) :
    sumProd f rm [(FVal.one, .inf b), (FVal.one, y)] = (f.inf b, 0) ∧
    (z.isSnan = false → sumProd f rm [(FVal.one, .inf b), (FVal.one, .inf !b), (FVal.one, z)] = (f.nan, Flags.invalid) ∧
      (FRat y = 0 → sumProd f rm [(.inf b, y), (FVal.one, z)] = (f.nan, Flags.invalid))) := by
  obtain ⟨n, m, e, rfl⟩ := exists_fin hy
  refine ⟨?_, fun hz => ⟨?_, fun h0 => ?_⟩⟩
  · cases b <;> rfl
  · cases z with
    | nan sg =>
      obtain rfl : sg = false := hz
      cases b <;> rfl
    | inf k => cases b <;> cases k <;> rfl
    | fin k j i => cases b <;> rfl
  · have hm : m = 0 := by
      have hd := (mantissas_eq_zero_iff (FVal.one, .fin n m e)).2 (by rw [h0, mul_zero])
      cases n <;> simpa [FVal.one, FVal.dy] using hd
    subst hm
    cases z with
    | nan sg =>
      obtain rfl : sg = false := hz
      rfl
    | inf k => rfl
    | fin k j i => rfl

/-! ## Magnitudes that round alike -/

/-- No number of the format and no midpoint of two lies between x and y, nor at one of them only. -/
def SameSide (f : Fmt) (x y : ℝ) : Prop :=
  ∀ c, ((f.mag c : ℝ) ≤ x ↔ (f.mag c : ℝ) ≤ y) ∧ (x = f.mag c ↔ y = f.mag c) ∧
    ((2 : ℝ) ^ f.ulpExp c < 2 * (x - f.mag c) ↔ (2 : ℝ) ^ f.ulpExp c < 2 * (y - f.mag c)) ∧
    (2 * (x - f.mag c) = (2 : ℝ) ^ f.ulpExp c ↔ 2 * (y - f.mag c) = (2 : ℝ) ^ f.ulpExp c)

section Alike

variable {f : Fmt} {rm : RMode} {neg : Bool} {x y : ℝ} {r : Nat × Flags}

theorem SameSide.roundsUp_iff (h : SameSide f x y) (c : Nat) : RoundsUp f rm neg c x ↔ RoundsUp f rm neg c y := by
  obtain ⟨-, heq, hlt, hmid⟩ := h c
  cases rm with
  | rn => simp only [RoundsUp, hlt, hmid]
  | rz => rfl
  | ru => simp only [RoundsUp, ne_eq, heq]
  | rd => simp only [RoundsUp, ne_eq, heq]

theorem SameSide.roundsTo (h : SameSide f x y) (hy : RoundsTo f rm neg y r) : RoundsTo f rm neg x r := by
  obtain ⟨c, k, tiny, hlow, hhigh, hup, hdown, htiny, hsub, hr⟩ := hy
  have hlt (c : Nat) : x < f.mag c ↔ y < f.mag c := by rw [← not_le, ← not_le, (h c).1]
  have hle : x ≤ f.mag (2 ^ f.mb - 1) ↔ y ≤ f.mag (2 ^ f.mb - 1) := by
    rw [le_iff_lt_or_eq, le_iff_lt_or_eq, hlt, (h _).2.1]
  refine ⟨c, k, tiny, (h c).1.2 hlow, (hlt _).2 hhigh, fun hx => hup ((h.roundsUp_iff c).1 hx),
    fun hx => hdown fun hy => hx ((h.roundsUp_iff c).2 hy), fun ht => (hlt _).2 (htiny ht), fun hx => hsub (hle.1 hx), ?_⟩
  rw [hr, decide_eq_decide.2 (h c).2.1]

/-- All magnitudes below half the least number round alike. -/
theorem sameSide_of_tiny (hx : 0 < x) (hxt : x < (2 : ℝ) ^ (f.ulpExp 0 - 1)) (hy : 0 < y) (hyt : y < (2 : ℝ) ^ (f.ulpExp 0 - 1)) :
    SameSide f x y := by
  intro c
  have hulp : (2 : ℝ) ^ f.ulpExp 0 = 2 * (2 : ℝ) ^ (f.ulpExp 0 - 1) := by
    rw [zpow_sub_one₀ two_ne_zero]
    ring
  have hpow : (2 : ℝ) ^ f.ulpExp 0 ≤ (2 : ℝ) ^ f.ulpExp c := zpow_le_zpow_right₀ one_le_two (f.ulpExp_mono (Nat.zero_le c))
  have hc := magR_nonneg f c
  rcases Nat.eq_zero_or_pos c with rfl | hpos
  · have h0 : ((f.mag 0 : ℚ) : ℝ) = 0 := by rw [f.mag_zero, Rat.cast_zero]
    rw [h0, sub_zero, sub_zero]
    refine ⟨iff_of_true hx.le hy.le, iff_of_false hx.ne' hy.ne', iff_of_false ?_ ?_, iff_of_false ?_ ?_⟩ <;> intro h <;> linarith
  · have h1 : (2 : ℝ) ^ f.ulpExp 0 ≤ f.mag c := by
      have hs := magR_succ f 0
      rw [f.mag_zero, Rat.cast_zero, sub_zero, zero_add] at hs
      rw [← hs]
      exact (magR_strictMono f).monotone hpos
    have hp := zpow_pos (two_pos (α := ℝ)) (f.ulpExp 0 - 1)
    refine ⟨iff_of_false ?_ ?_, iff_of_false ?_ ?_, iff_of_false ?_ ?_, iff_of_false ?_ ?_⟩ <;> intro h <;> linarith

theorem nat_mul_le_magR (f : Fmt) (c : Nat) : c * (2 : ℝ) ^ f.ulpExp 0 ≤ f.mag c := by
  induction c with
  | zero => simp
  | succ c ih =>
    have hs := magR_succ f c
    have hpow : (2 : ℝ) ^ f.ulpExp 0 ≤ (2 : ℝ) ^ f.ulpExp c := zpow_le_zpow_right₀ one_le_two (f.ulpExp_mono (Nat.zero_le c))
    push_cast
    linarith

/-- Every magnitude lies between the numbers of a code and of the next. -/
theorem exists_code (f : Fmt) (hx : 0 ≤ x) : ∃ c, (f.mag c : ℝ) ≤ x ∧ x < f.mag (c + 1) := by
  have hp := zpow_pos (two_pos (α := ℝ)) (f.ulpExp 0)
  obtain ⟨n, hn⟩ := exists_nat_gt (x / (2 : ℝ) ^ f.ulpExp 0)
  have hex : ∃ n, x < f.mag n := ⟨n, ((div_lt_iff₀ hp).1 hn).trans_le (nat_mul_le_magR f n)⟩
  classical
  obtain ⟨k, hk⟩ : ∃ k, Nat.find hex = k + 1 := by
    refine Nat.exists_eq_succ_of_ne_zero fun h0 => ?_
    have := Nat.find_spec hex
    rw [h0, f.mag_zero, Rat.cast_zero] at this
    linarith
  exact ⟨k, not_lt.1 (Nat.find_min hex (by omega)), hk ▸ Nat.find_spec hex⟩

/-- Every magnitude rounds. -/
theorem exists_roundsTo (f : Fmt) (rm : RMode) (neg : Bool) (hx : 0 ≤ x) : ∃ r, RoundsTo f rm neg x r := by
  classical
  obtain ⟨c, hlow, hhigh⟩ := exists_code f hx
  refine ⟨_, c, if RoundsUp f rm neg c x then c + 1 else c, decide (x ≤ f.mag (2 ^ f.mb - 1)), hlow, hhigh, fun h => if_pos h,
    fun h => if_neg h, fun h => (of_decide_eq_true h).trans_lt ?_, fun h => decide_eq_true h, rfl⟩
  exact magR_strictMono f (Nat.sub_lt (Nat.two_pow_pos _) one_pos)

/-- Past the top of the format a magnitude rounds to what the mode gives there. -/
theorem eq_of_huge (hx : ((f.mag f.top : ℚ) : ℝ) ≤ x) (h : RoundsTo f rm neg x r) :
    r = (if toInfinity rm neg then f.inf neg else f.sign neg + f.maxFin, Flags.overflow ||| Flags.inexact) := by
  obtain ⟨c, k, tiny, hlow, hhigh, hup, hdown, -, -, rfl⟩ := h
  have hc : f.top < c + 1 := (magR_strictMono f).lt_iff_lt.1 (hx.trans_lt hhigh)
  have hk : f.top ≤ k := by
    by_cases h : RoundsUp f rm neg c x
    · rw [hup h]; omega
    · rw [hdown h]; omega
  exact if_pos hk

/-- All magnitudes past the top of the format round alike. -/
theorem roundsTo_of_huge (hx : ((f.mag f.top : ℚ) : ℝ) ≤ x) (hy : ((f.mag f.top : ℚ) : ℝ) ≤ y) (h : RoundsTo f rm neg y r) :
    RoundsTo f rm neg x r := by
  obtain ⟨r', hr'⟩ := exists_roundsTo f rm neg ((magR_nonneg f _).trans hx)
  rwa [eq_of_huge hy h, ← eq_of_huge hx hr']

end Alike

/-! ## FSCALE (R123) -/

section Scale

variable {f : Fmt} (hf : f ∈ [Fmt.f32, .bf16, .f16, .e4m3f, .e5m2])

include hf

theorem mag_top_le : f.mag f.top ≤ (2 : ℚ) ^ (128 : ℤ) := by
  simp only [List.mem_cons, List.not_mem_nil, or_false] at hf
  rcases hf with rfl | rfl | rfl | rfl | rfl <;>
    norm_num [Fmt.mag, Fmt.signif, Fmt.ulpExp, Fmt.top, Fmt.f32, Fmt.bf16, Fmt.f16, Fmt.e4m3f, Fmt.e5m2]

theorem le_ulpExp_zero : -149 ≤ f.ulpExp 0 := by
  simp only [List.mem_cons, List.not_mem_nil, or_false] at hf
  rcases hf with rfl | rfl | rfl | rfl | rfl <;> decide

/-- The numbers of a format but zero lie between 2^-149 and 2^128. -/
theorem FRat_range {c : Nat} (h : FFin (unpackF f c)) (h0 : FRat (unpackF f c) ≠ 0) :
    (2 : ℚ) ^ (-149 : ℤ) ≤ |FRat (unpackF f c)| ∧ |FRat (unpackF f c)| < (2 : ℚ) ^ (128 : ℤ) := by
  obtain ⟨neg, k, hk, hv⟩ := exists_mag hf h
  have habs : |FRat (unpackF f c)| = f.mag k := by
    rw [hv]
    cases neg <;> simp [abs_of_nonneg (f.mag_nonneg k)]
  have hk0 : 0 < k := by
    refine Nat.pos_of_ne_zero fun hk0 => h0 ?_
    rw [hv, hk0, f.mag_zero, mul_zero]
  have h1 : (2 : ℚ) ^ f.ulpExp 0 ≤ f.mag k := by
    have hs := f.mag_succ 0
    rw [f.mag_zero, zero_add, zero_add] at hs
    rw [← hs]
    exact f.mag_strictMono.monotone hk0
  rw [habs]
  exact ⟨(zpow_le_zpow_right₀ one_le_two (le_ulpExp_zero hf)).trans h1, (f.mag_strictMono hk).trans_le (mag_top_le hf)⟩

/-- A number scaled by 2^n beyond ±2000 rounds as at that bound. -/
theorem roundsTo_of_clamped {rm : RMode} {neg : Bool} {r : Nat × Flags} {a : ℝ} (n : Int) (hlow : (2 : ℝ) ^ (-149 : ℤ) ≤ a)
    (hhigh : a < (2 : ℝ) ^ (128 : ℤ)) (h : RoundsTo f rm neg (a * (2 : ℝ) ^ max (-2000) (min 2000 n)) r) :
    RoundsTo f rm neg (a * (2 : ℝ) ^ n) r := by
  have ha : 0 < a := (zpow_pos two_pos _).trans_le hlow
  have htiny {k : Int} (hk : k ≤ -2000) : a * (2 : ℝ) ^ k < (2 : ℝ) ^ (f.ulpExp 0 - 1) :=
    calc a * (2 : ℝ) ^ k < (2 : ℝ) ^ (128 : ℤ) * (2 : ℝ) ^ k := by gcongr
      _ = (2 : ℝ) ^ (128 + k) := (zpow_add₀ two_ne_zero ..).symm
      _ ≤ (2 : ℝ) ^ (f.ulpExp 0 - 1) := zpow_le_zpow_right₀ one_le_two (by have := le_ulpExp_zero hf; omega)
  have htop : ((f.mag f.top : ℚ) : ℝ) ≤ (2 : ℝ) ^ (128 : ℤ) := by exact_mod_cast mag_top_le hf
  have hhuge {k : Int} (hk : 2000 ≤ k) : ((f.mag f.top : ℚ) : ℝ) ≤ a * (2 : ℝ) ^ k :=
    calc ((f.mag f.top : ℚ) : ℝ) ≤ (2 : ℝ) ^ (128 : ℤ) := htop
      _ ≤ (2 : ℝ) ^ (-149 + k) := zpow_le_zpow_right₀ one_le_two (by omega)
      _ = (2 : ℝ) ^ (-149 : ℤ) * (2 : ℝ) ^ k := zpow_add₀ two_ne_zero ..
      _ ≤ a * (2 : ℝ) ^ k := by gcongr
  rcases lt_or_ge n (-2000) with hn | hn
  · have hpos (k : Int) : 0 < a * (2 : ℝ) ^ k := mul_pos ha (zpow_pos two_pos _)
    exact (sameSide_of_tiny (hpos _) (htiny hn.le) (hpos _) (htiny (by omega))).roundsTo h
  · rcases lt_or_ge 2000 n with hn' | hn'
    · exact roundsTo_of_huge (hhuge hn'.le) (hhuge (by omega)) h
    · rwa [min_eq_right hn', max_eq_right hn] at h

omit hf in
theorem scaleF_of_fin {x : Nat} {neg : Bool} {m : Nat} {e : Int} (rm : RMode) (n : Int) (h : unpackF f x = .fin neg m e) (hm : m ≠ 0) :
    scaleF f rm x n = roundDy f rm neg { m := if neg then -(m : Int) else m, e := e + max (-2000) (min 2000 n) } := by
  simp only [scaleF, h, if_neg hm]

/-- FSCALE rounds the scaled number once. -/
theorem scaleF_rounds (rm : RMode) {x : Nat} (n : Int) (h : FFin (unpackF f x)) (h0 : FRat (unpackF f x) ≠ 0) :
    Rounded f rm (FRat (unpackF f x) < 0) ((FRat (unpackF f x) * (2 : ℚ) ^ n : ℚ) : ℝ) (scaleF f rm x n) := by
  obtain ⟨hlow, hhigh⟩ := FRat_range hf h h0
  obtain ⟨neg, m, e, hfin⟩ := exists_fin h
  obtain ⟨q, hq⟩ : ∃ q, q = FRat (unpackF f x) := ⟨_, rfl⟩
  obtain ⟨k, hk⟩ : ∃ k, k = max (-2000) (min 2000 n) := ⟨_, rfl⟩
  have hm : m ≠ 0 := by
    rintro rfl
    rw [hfin] at h0
    simp [FRat] at h0
  have hval : ({ m := if neg then -(m : Int) else m, e := e + k } : Dy).val = q * (2 : ℚ) ^ k := by
    rw [hq, hfin, FRat_eq_val_dy, Dy.val, Dy.val, FVal.dy, zpow_add₀ two_ne_zero, mul_assoc]
  rw [scaleF_of_fin rm n hfin hm, ← hq, ← hk]
  rw [← hq] at hlow hhigh h0
  have hround := roundDy_roundsTo (f := f) rm neg (one_le_mb hf) (hval.trans_ne (mul_ne_zero h0 (zpow_ne_zero k two_ne_zero)))
  have hneg : decide (q * (2 : ℚ) ^ k < 0) = decide (q < 0) :=
    decide_eq_decide.2 (by simp [mul_neg_iff, zpow_pos (two_pos (α := ℚ)), (zpow_pos (two_pos (α := ℚ)) k).not_gt])
  have habs : ((|q * (2 : ℚ) ^ k| : ℚ) : ℝ) = ((|q| : ℚ) : ℝ) * (2 : ℝ) ^ k := by
    rw [abs_mul, abs_of_pos (zpow_pos (two_pos (α := ℚ)) k)]
    push_cast
    rfl
  rw [hval, hneg, habs, hk] at hround
  have hlow' : (2 : ℝ) ^ (-149 : ℤ) ≤ ((|q| : ℚ) : ℝ) := by
    have h := (Rat.cast_le (K := ℝ)).2 hlow
    rwa [Rat.cast_zpow, Rat.cast_ofNat] at h
  have hhigh' : ((|q| : ℚ) : ℝ) < (2 : ℝ) ^ (128 : ℤ) := by
    have h := (Rat.cast_lt (K := ℝ)).2 hhigh
    rwa [Rat.cast_zpow, Rat.cast_ofNat] at h
  have hpos : 0 < ((|q| : ℚ) : ℝ) := (zpow_pos two_pos _).trans_le hlow'
  have := rounded_of_roundsTo hf (mul_pos hpos (zpow_pos two_pos n)) (roundsTo_of_clamped hf n hlow' hhigh' hround)
  rw [← mul_assoc, signR_abs] at this
  push_cast
  rwa [hk]

end Scale

end Sys2Proof.Machine

/-! # Conversions, and what floating-point results are (R18, R23, R101) -/

namespace Sys2Proof.Machine

open Sys2Proof Sys2Proof.Claims

/-! ## Rounded to an integer -/

section RoundInt

variable {K : Type} [Field K] [LinearOrder K] [IsStrictOrderedRing K]

/-- Whether a fraction's rounding q of t is the one of its mode. -/
def IntRounded (rm : RMode) (neg : Bool) (t : K) (q : Nat) : Prop :=
  |(q : K) - t| < 1 ∧ (rm = .rn → |(q : K) - t| ≤ 1 / 2 ∧ (|(q : K) - t| = 1 / 2 → q % 2 = 0)) ∧ (rm = .rz → (q : K) ≤ t) ∧
  (rm = .ru → if neg then (q : K) ≤ t else t ≤ q) ∧ (rm = .rd → if neg then t ≤ q else (q : K) ≤ t)

/-- Whether a number between the integers q and q + 1 goes to the upper one. -/
def IntUp (rm : RMode) (neg : Bool) (t : K) (q : Nat) : Prop :=
  match rm with
  | .rn => 1 < 2 * (t - q) ∨ (2 * (t - q) = 1 ∧ q % 2 = 1)
  | .rz => False
  | .ru => neg = false ∧ t ≠ q
  | .rd => neg = true ∧ t ≠ q

theorem intRounded_of_eq (rm : RMode) (neg : Bool) {t : K} {q : Nat} (h : (q : K) = t) : IntRounded rm neg t q := by
  rw [IntRounded, h]
  simp

/-- A number rounded to the integer below it, where its mode does not round up. -/
theorem intRounded_down (rm : RMode) (neg : Bool) {t : K} {q : Nat} (hlow : (q : K) ≤ t) (hhigh : t < q + 1)
    (hup : ¬IntUp rm neg t q) : IntRounded rm neg t q := by
  have habs : |(q : K) - t| = t - q := by rw [abs_sub_comm, abs_of_nonneg (sub_nonneg.2 hlow)]
  rw [IntRounded, habs]
  refine ⟨by linarith, ?_, fun _ => hlow, ?_, ?_⟩
  · rintro rfl
    obtain ⟨h1, h2⟩ := not_or.1 hup
    refine ⟨by linarith, fun h => ?_⟩
    have : q % 2 ≠ 1 := fun hq => h2 ⟨by rw [h]; norm_num, hq⟩
    omega
  · rintro rfl
    cases neg with
    | true => exact hlow
    | false => exact (not_ne_iff.1 fun h => hup ⟨rfl, h⟩).le
  · rintro rfl
    cases neg with
    | true => exact (not_ne_iff.1 fun h => hup ⟨rfl, h⟩).le
    | false => exact hlow

/-- A number rounded to the integer above it, where its mode rounds up. -/
theorem intRounded_up (rm : RMode) (neg : Bool) {t : K} {q : Nat} (hlow : (q : K) ≤ t) (hhigh : t < q + 1)
    (hup : IntUp rm neg t q) : (q : K) < t ∧ IntRounded rm neg t (q + 1) := by
  have hlt : (q : K) < t := by
    refine lt_of_le_of_ne hlow fun h => ?_
    cases rm with
    | rn => obtain hup | ⟨hup, -⟩ := hup <;> rw [h, sub_self, mul_zero] at hup <;> linarith
    | rz => exact hup
    | ru => exact hup.2 h.symm
    | rd => exact hup.2 h.symm
  have habs : |((q + 1 : ℕ) : K) - t| = q + 1 - t := by
    rw [Nat.cast_succ, abs_of_pos (sub_pos.2 hhigh)]
  rw [IntRounded, habs, Nat.cast_succ]
  refine ⟨hlt, by linarith, ?_, fun h => ?_, ?_, ?_⟩
  · rintro rfl
    obtain hup | ⟨hup, hodd⟩ := hup
    · exact ⟨by linarith, fun h => by linarith⟩
    · exact ⟨by linarith, fun _ => by omega⟩
  · subst h
    exact hup.elim
  · rintro rfl
    obtain ⟨rfl, -⟩ := hup
    exact hhigh.le
  · rintro rfl
    obtain ⟨rfl, -⟩ := hup
    exact hhigh.le

theorem roundInt_spec (rm : RMode) (neg : Bool) (n : Nat) {d : Nat} (hd : 0 < d) {t : K} (ht : (n : K) / d = t) :
    IntRounded rm neg t (roundInt rm neg n d).1 ∧ ((roundInt rm neg n d).2 = true ↔ ((roundInt rm neg n d).1 : K) = t) := by
  have hd' : (0 : K) < d := Nat.cast_pos.2 hd
  obtain ⟨hup, hexact⟩ := roundUp_iff rm neg n hd ht
  have hlow : ((n / d : ℕ) : K) ≤ t := ht ▸ Nat.cast_div_le
  have hhigh : t < (n / d : ℕ) + 1 := by
    have hr : ((n % d : ℕ) : K) / d < 1 := by
      rw [div_lt_one hd']
      exact_mod_cast Nat.mod_lt n hd
    rw [← ht, div_mod_spec n hd]
    exact add_lt_add_right hr _
  have hfst : (roundInt rm neg n d).1 = if roundUp rm neg (n / d) (n % d) d then n / d + 1 else n / d := rfl
  have hsnd : (roundInt rm neg n d).2 = true ↔ n % d = 0 := by
    change decide (n % d = 0) = true ↔ _
    rw [decide_eq_true_eq]
  rw [hfst, hsnd, hexact]
  by_cases h : roundUp rm neg (n / d) (n % d) d = true
  · obtain ⟨hlt, hround⟩ := intRounded_up rm neg hlow hhigh (hup.1 h)
    rw [if_pos h]
    refine ⟨hround, iff_of_false hlt.ne' ?_⟩
    rw [Nat.cast_succ]
    exact hhigh.ne'
  · rw [if_neg h]
    exact ⟨intRounded_down rm neg hlow hhigh fun hu => h (hup.2 hu), eq_comm⟩

end RoundInt

/-! ## A number to an integer (R23) -/

/-- The sign of a number, as a rational factor. -/
def signQ (neg : Bool) : ℚ := if neg then -1 else 1

theorem FRat_fin (neg : Bool) (m : Nat) (e : Int) : FRat (.fin neg m e) = signQ neg * ((m : ℚ) * (2 : ℚ) ^ e) := mul_assoc _ _ _

/-- A signed integer that a number rounds to, within a range. -/
def clampedTo (lo hi : Int) (neg : Bool) (q : Nat) (exact : Bool) : Int × Flags :=
  let v : Int := if neg then -(q : Int) else q
  if v < lo then (lo, Flags.invalid)
  else if v > hi then (hi, Flags.invalid)
  else (v, Flags.when (!exact) Flags.inexact)

theorem cvtFI_of_fin {st : Fmt} (lo hi : Int) (rm : RMode) {x : Nat} {neg : Bool} {m : Nat} {e : Int}
    (h : unpackF st x = .fin neg m e) : ∃ q exact, IntRounded rm neg ((m : ℚ) * (2 : ℚ) ^ e) q ∧
      (exact = true ↔ (q : ℚ) = (m : ℚ) * (2 : ℚ) ^ e) ∧ cvtFI st lo hi rm x = clampedTo lo hi neg q exact := by
  rcases lt_or_ge e 0 with he | he
  · have hval : (m : ℚ) / ((2 ^ (-e).toNat : ℕ) : ℚ) = (m : ℚ) * (2 : ℚ) ^ e := by
      rw [Nat.cast_pow, ← zpow_natCast, Int.toNat_of_nonneg (by omega), zpow_neg, div_inv_eq_mul, Nat.cast_ofNat]
    obtain ⟨hround, hexact⟩ := roundInt_spec rm neg m (Nat.two_pow_pos (-e).toNat) hval
    refine ⟨_, _, hround, hexact, ?_⟩
    simp only [cvtFI, h, if_neg (not_le.2 he)]
    rfl
  · have hval : ((m * 2 ^ e.toNat : ℕ) : ℚ) = (m : ℚ) * (2 : ℚ) ^ e := by
      rw [Nat.cast_mul, Nat.cast_pow, ← zpow_natCast, Int.toNat_of_nonneg he, Nat.cast_ofNat]
    refine ⟨_, true, intRounded_of_eq rm neg hval, iff_of_true rfl hval, ?_⟩
    simp only [cvtFI, h, if_pos he]
    rfl

/-- What a number rounded to an integer is, with its sign. -/
theorem intRounded_signed {rm : RMode} {neg : Bool} {t : ℚ} {q : Nat} (ht : 0 ≤ t) (h : IntRounded rm neg t q) {v : Int}
    (hv : v = if neg then -(q : Int) else q) :
    |(v : ℚ) - signQ neg * t| < 1 ∧
    (rm = .rn → |(v : ℚ) - signQ neg * t| ≤ 1 / 2 ∧ (|(v : ℚ) - signQ neg * t| = 1 / 2 → v % 2 = 0)) ∧
    (rm = .rz → |(v : ℚ)| ≤ |signQ neg * t|) ∧ (rm = .ru → signQ neg * t ≤ v) ∧ (rm = .rd → (v : ℚ) ≤ signQ neg * t) ∧
    ((q : ℚ) = t ↔ (v : ℚ) = signQ neg * t) := by
  obtain ⟨hone, hrn, hrz, hru, hrd⟩ := h
  have hvq : (v : ℚ) = signQ neg * q := by
    rw [hv, signQ]
    cases neg <;> simp
  have hsign : |signQ neg| = 1 := by cases neg <;> simp [signQ]
  have habs : |(v : ℚ) - signQ neg * t| = |(q : ℚ) - t| := by
    rw [hvq, ← mul_sub, abs_mul, hsign, one_mul]
  have hq0 : (0 : ℚ) ≤ q := Nat.cast_nonneg q
  rw [habs]
  refine ⟨hone, fun hrm => ⟨(hrn hrm).1, fun hh => ?_⟩, fun hrm => ?_, fun hrm => ?_, fun hrm => ?_, ?_⟩
  · have := (hrn hrm).2 hh
    rw [hv]
    split <;> omega
  · rw [hvq, abs_mul, abs_mul, hsign, one_mul, one_mul, abs_of_nonneg hq0, abs_of_nonneg ht]
    exact hrz hrm
  · have := hru hrm
    rw [hvq, signQ]
    cases neg with
    | true => simpa using this
    | false => simpa using this
  · have := hrd hrm
    rw [hvq, signQ]
    cases neg with
    | true => simpa using this
    | false => simpa using this
  · rw [hvq, signQ]
    cases neg <;> simp

theorem when_inexact_and_invalid (b : Bool) : Flags.when b Flags.inexact &&& Flags.invalid = 0 := by cases b <;> rfl

theorem when_inexact_and_inexact (b : Bool) : Flags.when (!b) Flags.inexact &&& Flags.inexact ≠ 0 ↔ ¬b = true := by
  cases b <;> decide

theorem zero_and_overflow : (0 : Flags) &&& Flags.overflow = 0 := by decide

theorem invalid_and_invalid : Flags.invalid &&& Flags.invalid ≠ 0 := by decide

/-- Conversions of a number to an integer (R23). -/
theorem cvtFI_values (st : Fmt) (lo hi : Int) (rm : RMode) (x : Nat) :
    ((unpackF st x).isNan = true → cvtFI st lo hi rm x = (0, Flags.invalid)) ∧
    (∀ b, unpackF st x = .inf b → cvtFI st lo hi rm x = (if b then lo else hi, Flags.invalid)) ∧
    (FFin (unpackF st x) → (cvtFI st lo hi rm x).2 &&& Flags.invalid ≠ 0 →
      ((cvtFI st lo hi rm x).1 = lo ∧ FRat (unpackF st x) < lo) ∨ ((cvtFI st lo hi rm x).1 = hi ∧ (hi : ℚ) < FRat (unpackF st x))) ∧
    (FFin (unpackF st x) → (cvtFI st lo hi rm x).2 &&& Flags.invalid = 0 →
      lo ≤ (cvtFI st lo hi rm x).1 ∧ (cvtFI st lo hi rm x).1 ≤ hi ∧ |((cvtFI st lo hi rm x).1 : ℚ) - FRat (unpackF st x)| < 1 ∧
      (rm = .rn → |((cvtFI st lo hi rm x).1 : ℚ) - FRat (unpackF st x)| ≤ 1 / 2 ∧
        (|((cvtFI st lo hi rm x).1 : ℚ) - FRat (unpackF st x)| = 1 / 2 → (cvtFI st lo hi rm x).1 % 2 = 0)) ∧
      (rm = .rz → |((cvtFI st lo hi rm x).1 : ℚ)| ≤ |FRat (unpackF st x)|) ∧
      (rm = .ru → FRat (unpackF st x) ≤ (cvtFI st lo hi rm x).1) ∧ (rm = .rd → ((cvtFI st lo hi rm x).1 : ℚ) ≤ FRat (unpackF st x)) ∧
      ((cvtFI st lo hi rm x).2 &&& Flags.inexact ≠ 0 ↔ ((cvtFI st lo hi rm x).1 : ℚ) ≠ FRat (unpackF st x))) := by
  refine ⟨fun h => ?_, fun b h => ?_, fun h hfl => ?_, fun h hfl => ?_⟩
  · cases hy : unpackF st x with
    | nan sg => simp only [cvtFI, hy]
    | inf b => rw [hy] at h; cases h
    | fin neg m e => rw [hy] at h; cases h
  · simp only [cvtFI, h]
  all_goals
    obtain ⟨neg, m, e, hy⟩ := exists_fin h
    obtain ⟨q, exact, hround, hexact, hr⟩ := cvtFI_of_fin lo hi rm hy
    obtain ⟨v, hv⟩ : ∃ v : Int, v = if neg then -(q : Int) else q := ⟨_, rfl⟩
    have ht : (0 : ℚ) ≤ (m : ℚ) * (2 : ℚ) ^ e := by positivity
    obtain ⟨hone, hrest⟩ := intRounded_signed ht hround hv
    rw [← FRat_fin, ← hy] at hone hrest
    rw [hr, clampedTo, ← hv] at hfl ⊢
    obtain ⟨hlower, hupper⟩ := abs_lt.1 hone
  · split at hfl
    next hlo =>
      rw [if_pos hlo]
      have : (v : ℚ) + 1 ≤ lo := by exact_mod_cast hlo
      exact Or.inl ⟨rfl, by linarith⟩
    next hlo =>
      rw [if_neg hlo]
      split at hfl
      next hhi =>
        rw [if_pos hhi]
        have : (hi : ℚ) + 1 ≤ v := by exact_mod_cast hhi
        exact Or.inr ⟨rfl, by linarith⟩
      next => exact absurd (when_inexact_and_invalid (!exact)) hfl
  · split at hfl
    next => exact absurd hfl invalid_and_invalid
    next hlo =>
      rw [if_neg hlo]
      split at hfl
      next => exact absurd hfl invalid_and_invalid
      next hhi =>
        rw [if_neg hhi]
        obtain ⟨hrn, hrz, hru, hrd, hiff⟩ := hrest
        refine ⟨not_lt.1 hlo, not_lt.1 hhi, hone, hrn, hrz, hru, hrd, ?_⟩
        exact (when_inexact_and_inexact exact).trans (not_congr (hexact.trans hiff))

/-! ## Between formats (R23) -/

section Formats

variable {dt st : Fmt} {rm : RMode} {x : Nat}

theorem cvtFF_of_fin {neg : Bool} {m : Nat} {e : Int} (h : unpackF st x = .fin neg m e) :
    cvtFF st dt rm x =
      if dt.e4m3 && ((roundDy dt rm neg (FVal.fin neg m e).dy).2 &&& Flags.overflow != 0) then
        (dt.inf neg, (roundDy dt rm neg (FVal.fin neg m e).dy).2)
      else roundDy dt rm neg (FVal.fin neg m e).dy := by
  simp only [cvtFF, h]
  rfl

theorem e4m3_eq_true_iff (hdt : dt ∈ [Fmt.f32, .bf16, .f16, .e4m3f, .e5m2]) : dt.e4m3 = true ↔ dt = .e4m3f := by
  simp only [List.mem_cons, List.not_mem_nil, or_false] at hdt
  rcases hdt with rfl | rfl | rfl | rfl | rfl <;> decide

theorem e4m3_greatest : FRat (unpackF .e4m3f (Fmt.maxFin .e4m3f)) = 448 := by
  have h : unpackF .e4m3f (Fmt.maxFin .e4m3f) = .fin false 14 5 := by decide
  rw [h]
  norm_num [FRat]

/-- Conversions of a number to a format (R23). -/
theorem cvtFF_values (hdt : dt ∈ [Fmt.f32, .bf16, .f16, .e4m3f, .e5m2]) :
    (FFin (unpackF st x) → FRat (unpackF st x) ≠ 0 → dt ≠ .e4m3f ∨ (cvtFF st dt rm x).2 &&& Flags.overflow = 0 →
      Rounded dt rm (FRat (unpackF st x) < 0) (FRat (unpackF st x) : ℝ) (cvtFF st dt rm x)) ∧
    (FFin (unpackF st x) → dt = .e4m3f → (cvtFF st dt rm x).2 &&& Flags.overflow ≠ 0 →
      448 < |FRat (unpackF st x)| ∧
      cvtFF st dt rm x = (if FRat (unpackF st x) < 0 then 0xFE else 0x7E, Flags.overflow ||| Flags.inexact)) ∧
    (∀ b, unpackF st x = .inf b → cvtFF st dt rm x =
      if dt = .e4m3f then (if b then 0xFE else 0x7E, Flags.overflow ||| Flags.inexact) else (dt.inf b, 0)) := by
  refine ⟨fun h h0 hfl => ?_, fun h he hfl => ?_, fun b h => ?_⟩
  · obtain ⟨neg, m, e, hy⟩ := exists_fin h
    rw [cvtFF_of_fin hy] at hfl ⊢
    rw [hy, FRat_eq_val_dy] at h0 ⊢
    have hround := rounded_roundDy hdt rm neg h0
    split at hfl
    next hov =>
      obtain ⟨he, hfl'⟩ := Bool.and_eq_true_iff.1 hov
      rcases hfl with hne | hfl
      · exact absurd ((e4m3_eq_true_iff hdt).1 he) hne
      · rw [hfl] at hfl'
        cases hfl'
    next hov =>
      rwa [if_neg hov]
  · subst he
    obtain ⟨neg, m, e, hy⟩ := exists_fin h
    rw [cvtFF_of_fin hy] at hfl ⊢
    have hov : (roundDy .e4m3f rm neg (FVal.fin neg m e).dy).2 &&& Flags.overflow ≠ 0 := by
      split at hfl <;> exact hfl
    have hcond : (Fmt.e4m3f.e4m3 && ((roundDy .e4m3f rm neg (FVal.fin neg m e).dy).2 &&& Flags.overflow != 0)) = true :=
      Bool.and_eq_true_iff.2 ⟨rfl, bne_iff_ne.2 hov⟩
    rw [if_pos hcond, hy]
    have h0 : (FVal.fin neg m e).dy.val ≠ 0 := by
      intro h0
      rw [roundDy_of_zero rm neg h0] at hov
      exact hov zero_and_overflow
    obtain ⟨hpast, hflags, -⟩ := (rounded_roundDy hdt rm neg h0).1 hov
    dsimp only at hpast
    rw [e4m3_greatest] at hpast
    have hneg : FRat (.fin neg m e) < 0 ↔ neg = true := by
      rw [← FRat_eq_val_dy, FRat_fin] at h0
      rw [FRat_fin]
      have ht : (0 : ℚ) ≤ (m : ℚ) * (2 : ℚ) ^ e := by positivity
      cases neg with
      | true =>
        have := lt_of_le_of_ne ht fun hz => h0 (by rw [← hz, mul_zero])
        simpa [signQ] using this
      | false => simpa [signQ] using ht
    refine ⟨?_, ?_⟩
    · rw [FRat_eq_val_dy]
      exact_mod_cast hpast
    · rw [hflags, if_congr hneg rfl rfl]
      cases neg <;> rfl
  · simp only [cvtFF, h]
    simp only [List.mem_cons, List.not_mem_nil, or_false] at hdt
    rcases hdt with rfl | rfl | rfl | rfl | rfl <;> cases b <;> rfl

end Formats

/-! ## Results of floating-point instructions (R18, R23, R115, R118, R123) -/

theorem floatResultsAreRounded : Sys2Proof.Claims.FloatResultsAreRounded := by
  refine ⟨fun f hf rm neg num den hn hd => rounded_roundRat hf rm neg hn hd, fun f hf rm ts x hne hfin hx => ⟨fun h0 => ?_, fun h0 => ?_⟩,
    fun f _ rm b y z hy => sumProd_inf f rm b hy, fun f hf rm x n h h0 => scaleF_rounds (mem_formats_of_mem_arith hf) rm n h h0,
    fun dt hdt st rm x _ => cvtFF_values hdt, fun st _ lo hi rm x => cvtFI_values st lo hi rm x⟩
  · exact sumProd_rounds (mem_formats_of_mem_arith hf) rm hfin hx h0
  · refine ⟨zeroSign rm ts, ?_, zeroSign_spec rm hne⟩
    rw [sumProd_of_fin f rm hfin]
    exact roundDy_of_zero rm _ (val_sum_of_products.trans (hx.symm.trans h0))

end Sys2Proof.Machine

/-! # The special functions (R39, R40, R125 to R127) -/

namespace Sys2Proof.Machine

open Sys2Proof Sys2Proof.Claims

/-! ## Integer square roots -/

theorem isqrtGo_spec {n : Nat} : ∀ k root : Nat, root * root ≤ n → n < (root + 2 ^ k) * (root + 2 ^ k) →
    isqrtGo n k root * isqrtGo n k root ≤ n ∧ n < (isqrtGo n k root + 1) * (isqrtGo n k root + 1)
  | 0, _, hlow, hhigh => ⟨hlow, hhigh⟩
  | k + 1, root, hlow, hhigh => by
    rw [isqrtGo]
    have htwo : root + 2 ^ (k + 1) = root + 2 ^ k + 2 ^ k := by rw [pow_succ]; ring
    split
    next h => exact isqrtGo_spec k _ h (htwo ▸ hhigh)
    next h => exact isqrtGo_spec k root hlow (not_le.1 h)

theorem isqrt_spec (n : Nat) : isqrt n * isqrt n ≤ n ∧ n < (isqrt n + 1) * (isqrt n + 1) := by
  refine isqrtGo_spec _ 0 (Nat.zero_le n) ?_
  rw [zero_add, ← pow_add]
  exact Nat.lt_log2_self.trans_le (Nat.pow_le_pow_right two_pos (by omega))

theorem le_isqrt {n q : Nat} (h : q * q ≤ n) : q ≤ isqrt n := by
  by_contra hlt
  exact absurd ((isqrt_spec n).2.trans_le (Nat.mul_le_mul (not_le.1 hlt) (not_le.1 hlt))) (not_lt.2 h)

/-! ## Numbers between two neighbours of a fine grid -/

section Cells

variable {f : Fmt} {x y L H : ℝ}

/-- Two numbers of one cell, at its lower end or not, round alike where no number of the format and no midpoint lies inside. -/
theorem sameSide_of_cell (hx : L ≤ x ∧ x < H) (hy : L ≤ y ∧ y < H) (heq : x = L ↔ y = L)
    (hgrid : ∀ c, ((f.mag c : ℝ) ≤ L ∨ H ≤ f.mag c) ∧
      ((f.mag c : ℝ) + 2 ^ f.ulpExp c / 2 ≤ L ∨ H ≤ f.mag c + 2 ^ f.ulpExp c / 2)) : SameSide f x y := by
  have hthreshold {t : ℝ} (ht : t ≤ L ∨ H ≤ t) : (t ≤ x ↔ t ≤ y) ∧ (x = t ↔ y = t) := by
    rcases ht with ht | ht
    · refine ⟨iff_of_true (ht.trans hx.1) (ht.trans hy.1), ?_⟩
      rcases ht.lt_or_eq with ht | rfl
      · exact iff_of_false (ht.trans_le hx.1).ne' (ht.trans_le hy.1).ne'
      · exact heq
    · exact ⟨iff_of_false (not_le.2 (hx.2.trans_le ht)) (not_le.2 (hy.2.trans_le ht)),
        iff_of_false (hx.2.trans_le ht).ne (hy.2.trans_le ht).ne⟩
  intro c
  obtain ⟨hle, hmag⟩ := hthreshold (hgrid c).1
  obtain ⟨hmle, hmid⟩ := hthreshold (hgrid c).2
  refine ⟨hle, hmag, ?_, ?_⟩
  · have hlt (z : ℝ) : (2 : ℝ) ^ f.ulpExp c < 2 * (z - f.mag c) ↔ f.mag c + 2 ^ f.ulpExp c / 2 ≤ z ∧ z ≠ f.mag c + 2 ^ f.ulpExp c / 2 := by
      constructor
      · intro h
        exact ⟨by linarith, by rintro rfl; linarith⟩
      · rintro ⟨h1, h2⟩
        linarith [lt_of_le_of_ne h1 h2.symm]
    rw [hlt, hlt, hmle, Ne, Ne, hmid]
  · have hat (z : ℝ) : 2 * (z - f.mag c) = (2 : ℝ) ^ f.ulpExp c ↔ z = f.mag c + 2 ^ f.ulpExp c / 2 := by
      constructor <;> intro h <;> linarith
    rw [hat, hat, hmid]

theorem le_or_ge_of_multiple {U : ℝ} (hU : 0 ≤ U) (N q : Nat) : (N : ℝ) * U ≤ q * U ∨ ((q : ℝ) + 1) * U ≤ N * U := by
  rcases le_or_gt N q with h | h
  · exact Or.inl (mul_le_mul_of_nonneg_right (by exact_mod_cast h) hU)
  · exact Or.inr (mul_le_mul_of_nonneg_right (by exact_mod_cast h) hU)

theorem signif_lt (f : Fmt) (c : Nat) : f.signif c < 2 ^ (f.mb + 1) := by
  rw [Fmt.signif, pow_succ]
  have := Nat.mod_lt c (Nat.two_pow_pos f.mb)
  split <;> omega

/-- A number of the format and the midpoint above it lie outside a cell with q times its width below it, for a large q. -/
theorem grid_of_cell (f : Fmt) {q : Nat} (hq : 2 ^ (f.mb + 1) ≤ q) (j : Int) (c : Nat) :
    ((f.mag c : ℝ) ≤ q * (2 : ℝ) ^ j ∨ ((q : ℝ) + 1) * (2 : ℝ) ^ j ≤ f.mag c) ∧
    ((f.mag c : ℝ) + 2 ^ f.ulpExp c / 2 ≤ q * (2 : ℝ) ^ j ∨ ((q : ℝ) + 1) * (2 : ℝ) ^ j ≤ f.mag c + 2 ^ f.ulpExp c / 2) := by
  have hmag : ((f.mag c : ℚ) : ℝ) = f.signif c * (2 : ℝ) ^ f.ulpExp c := by
    rw [Fmt.mag]
    push_cast
    rfl
  have hU : (0 : ℝ) < (2 : ℝ) ^ j := zpow_pos two_pos j
  rcases lt_or_ge j (f.ulpExp c) with h | h
  · obtain ⟨i, hi⟩ : ∃ i : Nat, f.ulpExp c = j + 1 + i := ⟨(f.ulpExp c - j - 1).toNat, by omega⟩
    have hulp : (2 : ℝ) ^ f.ulpExp c = ((2 * 2 ^ i : ℕ) : ℝ) * (2 : ℝ) ^ j := by
      rw [hi, zpow_add₀ two_ne_zero, zpow_add_one₀ two_ne_zero, zpow_natCast]
      push_cast
      ring
    have hmagN : ((f.mag c : ℚ) : ℝ) = ((f.signif c * (2 * 2 ^ i) : ℕ) : ℝ) * (2 : ℝ) ^ j := by
      rw [hmag, hulp]
      push_cast
      ring
    have hmidN : ((f.mag c : ℚ) : ℝ) + 2 ^ f.ulpExp c / 2 = ((f.signif c * (2 * 2 ^ i) + 2 ^ i : ℕ) : ℝ) * (2 : ℝ) ^ j := by
      rw [hmag, hulp]
      push_cast
      ring
    rw [hmidN, hmagN]
    exact ⟨le_or_ge_of_multiple hU.le _ q, le_or_ge_of_multiple hU.le _ q⟩
  · have hpow : (2 : ℝ) ^ f.ulpExp c ≤ (2 : ℝ) ^ j := zpow_le_zpow_right₀ one_le_two h
    have hpos : (0 : ℝ) < (2 : ℝ) ^ f.ulpExp c := zpow_pos two_pos _
    have hlt : (f.signif c : ℝ) + 1 ≤ q := by exact_mod_cast (signif_lt f c).trans_le hq
    have hmul : ((f.signif c : ℝ) + 1) * (2 : ℝ) ^ f.ulpExp c ≤ q * (2 : ℝ) ^ j := by gcongr
    rw [hmag]
    exact ⟨Or.inl (by linarith), Or.inl (by linarith)⟩

end Cells

/-! ## Square roots in sticky form (R126) -/

theorem f32_mem : Fmt.f32 ∈ [Fmt.f32, .bf16, .f16, .e4m3f, .e5m2] := List.mem_cons_self

/-- A root cut off below, with a sticky bit, rounds as the root does. -/
theorem rounded_sqrt {q : Nat} (hq : 2 ^ 24 ≤ q) (k : Int) {b : ℝ} (hlow : (q : ℝ) * q * (2 : ℝ) ^ (2 * k) ≤ b)
    (hhigh : b < ((q : ℝ) + 1) * (q + 1) * (2 : ℝ) ^ (2 * k)) {P : Prop} [Decidable P] (hP : P ↔ (q : ℝ) * q * (2 : ℝ) ^ (2 * k) = b) :
    Rounded .f32 .rn false (Real.sqrt b) (roundDy .f32 .rn false { m := 2 * q + (if P then 0 else 1), e := k - 1 }) := by
  obtain ⟨U, hU⟩ : ∃ U, U = (2 : ℝ) ^ k := ⟨_, rfl⟩
  have hUpos : 0 < U := hU ▸ zpow_pos two_pos k
  have hsq : (2 : ℝ) ^ (2 * k) = U * U := by rw [hU, two_mul, zpow_add₀ two_ne_zero]
  have hsq' (a : ℝ) : a * a * (U * U) = (a * U) ^ 2 := by ring
  rw [hsq, hsq'] at hlow hhigh hP
  have hqpos : (0 : ℝ) < q := by exact_mod_cast (Nat.two_pow_pos 24).trans_le hq
  have hroot : (q : ℝ) * U ≤ Real.sqrt b ∧ Real.sqrt b < (q + 1) * U :=
    ⟨Real.le_sqrt_of_sq_le hlow, (Real.sqrt_lt' (by positivity)).2 hhigh⟩
  have hrootEq : Real.sqrt b = q * U ↔ P := by
    rw [hP]
    refine ⟨fun h => ?_, fun h => ?_⟩
    · rw [← h]
      exact Real.sq_sqrt (Real.sqrt_ne_zero'.1 (by rw [h]; positivity)).le
    · rw [← h, Real.sqrt_sq (by positivity)]
  obtain ⟨d, hd⟩ : ∃ d : Dy, d = { m := 2 * q + (if P then 0 else 1), e := k - 1 } := ⟨_, rfl⟩
  have hval : (d.val : ℝ) = q * U + if P then 0 else U / 2 := by
    rw [hd, hU, Dy.val, zpow_sub_one₀ two_ne_zero]
    split <;> push_cast <;> ring
  have hdpos : 0 < (d.val : ℝ) := by
    rw [hval]
    split <;> positivity
  have hdpos' : 0 < d.val := by exact_mod_cast hdpos
  have hcell : (q : ℝ) * U ≤ d.val ∧ (d.val : ℝ) < (q + 1) * U := by
    rw [hval]
    split <;> constructor <;> linarith
  have hdEq : (d.val : ℝ) = q * U ↔ P := by
    rw [hval, add_eq_left]
    by_cases h : P
    · rw [if_pos h]; exact iff_of_true rfl h
    · rw [if_neg h]; exact iff_of_false (by positivity) h
  have hround := roundDy_roundsTo (f := .f32) .rn false (by decide) hdpos'.ne'
  rw [decide_eq_false (not_lt.2 hdpos'.le), abs_of_pos hdpos'] at hround
  have hsame : SameSide .f32 (Real.sqrt b) d.val :=
    sameSide_of_cell hroot hcell (hrootEq.trans hdEq.symm) fun c => hU ▸ grid_of_cell .f32 hq k c
  have := rounded_of_roundsTo f32_mem ((mul_pos hqpos hUpos).trans_le hroot.1) (hsame.roundsTo hround)
  rwa [signR_false, one_mul, hd] at this

section Numbers

variable {x : Nat} {neg : Bool} {m : Nat} {e : Int}

theorem f32_mantissa_lt (h : unpackF .f32 x = .fin neg m e) : m < 2 ^ 24 := by
  have hx := Nat.mod_lt x (Nat.two_pow_pos Fmt.f32.mb)
  have hmb : Fmt.f32.mb = 23 := rfl
  rw [unpackF] at h
  simp only [hmb] at hx h
  split at h
  next => cases h
  next =>
    split at h
    next => split at h <;> cases h
    next =>
      split at h
      all_goals
        obtain ⟨-, rfl, -⟩ := FVal.fin.inj h
        omega

theorem FRat_finR (neg : Bool) (m : Nat) (e : Int) : ((FRat (.fin neg m e) : ℚ) : ℝ) = signR neg * (m * (2 : ℝ) ^ e) := by
  rw [FRat_fin, signQ, signR]
  split <;> push_cast <;> rfl

theorem FRat_neg_iff (hm : m ≠ 0) : FRat (.fin neg m e) < 0 ↔ neg = true := by
  have hpos : 0 < (m : ℚ) * (2 : ℚ) ^ e := mul_pos (by exact_mod_cast Nat.pos_of_ne_zero hm) (zpow_pos two_pos e)
  rw [FRat_fin, signQ]
  cases neg with
  | true => simpa using hpos
  | false => simpa using hpos.le

/-! ## What each special function computes of a number but zero -/

section Branches

variable (h : unpackF .f32 x = .fin neg m e) (hm : m ≠ 0)

include h hm

theorem special_rcp : special .rcp x =
    if e ≥ 0 then roundRat .f32 .rn neg 1 (m * 2 ^ e.toNat) else roundRat .f32 .rn neg (2 ^ (-e).toNat) m := by
  obtain ⟨n, rfl⟩ := Nat.exists_eq_succ_of_ne_zero hm
  simp only [special, h]

theorem special_rsq : special .rsq x = if neg then (Fmt.nan .f32, Flags.invalid) else roundDy .f32 .rn false (rsqFin m e) := by
  obtain ⟨n, rfl⟩ := Nat.exists_eq_succ_of_ne_zero hm
  simp only [special, h]

theorem special_sqrt : special .sqrt x = if neg then (Fmt.nan .f32, Flags.invalid) else roundDy .f32 .rn false (sqrtFin m e) := by
  obtain ⟨n, rfl⟩ := Nat.exists_eq_succ_of_ne_zero hm
  simp only [special, h]

theorem special_lg2 : special .lg2 x = if neg then (Fmt.nan .f32, Flags.invalid)
    else if m = 2 ^ Nat.log2 m then roundDy .f32 .rn false (Dy.ofInt (e + Nat.log2 m)) else lg2Fin m e := by
  obtain ⟨n, rfl⟩ := Nat.exists_eq_succ_of_ne_zero hm
  simp only [special, h]

theorem special_tanh : special .tanh x = tanhFin neg m e := by
  obtain ⟨n, rfl⟩ := Nat.exists_eq_succ_of_ne_zero hm
  simp only [special, h]

/-! ## Reciprocals and roots -/

theorem rounded_rcp : Rounded .f32 .rn neg (1 / (FRat (.fin neg m e) : ℝ)) (special .rcp x) := by
  have hpos : 0 < m := Nat.pos_of_ne_zero hm
  have hsign : signR neg * signR neg = 1 := by cases neg <;> norm_num
  have hval {num den : Nat} (hn : (num : ℝ) / den = 1 / (m * (2 : ℝ) ^ e)) :
      1 / (FRat (.fin neg m e) : ℝ) = signR neg * ((num : ℝ) / den) := by
    have hz : (m : ℝ) * (2 : ℝ) ^ e ≠ 0 := mul_ne_zero (by exact_mod_cast hm) (zpow_ne_zero e two_ne_zero)
    have hs : signR neg ≠ 0 := left_ne_zero_of_mul_eq_one hsign
    rw [FRat_finR, hn, div_eq_iff (mul_ne_zero hs hz), mul_mul_mul_comm, hsign, one_mul, one_div_mul_cancel hz]
  rw [special_rcp h hm]
  split
  next he =>
    rw [hval (num := 1) (den := m * 2 ^ e.toNat) (by rw [two_zpow_toNat he]; push_cast; rfl)]
    exact rounded_roundRat f32_mem .rn neg one_pos (Nat.mul_pos hpos (Nat.two_pow_pos _))
  next he =>
    have hu := two_zpow_neg_toNat (u := e) (by omega)
    have hpow : (2 : ℝ) ^ e ≠ 0 := zpow_ne_zero e two_ne_zero
    have hnum : ((2 ^ (-e).toNat : ℕ) : ℝ) / m = 1 / (m * (2 : ℝ) ^ e) := by
      rw [div_eq_div_iff (by exact_mod_cast hm) (mul_ne_zero (by exact_mod_cast hm) hpow)]
      push_cast
      linear_combination (m : ℝ) * hu
    rw [hval hnum]
    exact rounded_roundRat f32_mem .rn neg (Nat.two_pow_pos _) hpos

end Branches

/-- A number with its exponent made even. -/
def evenParts (m : Nat) (e : Int) : Nat × Int := if e % 2 = 1 then (2 * m, (e - 1) / 2) else (m, e / 2)

theorem evenParts_spec (m : Nat) (e : Int) :
    ((evenParts m e).1 : ℝ) * (2 : ℝ) ^ (2 * (evenParts m e).2) = m * (2 : ℝ) ^ e ∧ m ≤ (evenParts m e).1 ∧ (evenParts m e).1 ≤ 2 * m := by
  rw [evenParts]
  split
  next h =>
    have he : 2 * ((e - 1) / 2) = e - 1 := by omega
    refine ⟨?_, by simp only; omega, le_refl _⟩
    simp only [he, zpow_sub_one₀ (two_ne_zero (α := ℝ))]
    push_cast
    ring
  next h =>
    have he : 2 * (e / 2) = e := by omega
    exact ⟨by simp only [he], le_refl _, by simp only; omega⟩

theorem sqrtFin_eq (m : Nat) (e : Int) : sqrtFin m e =
    { m := 2 * isqrt ((evenParts m e).1 * 2 ^ 64) +
        (if isqrt ((evenParts m e).1 * 2 ^ 64) * isqrt ((evenParts m e).1 * 2 ^ 64) = (evenParts m e).1 * 2 ^ 64 then 0 else 1),
      e := (evenParts m e).2 - 32 - 1 } := by
  by_cases h : e % 2 = 1
  · have he : (e - 1 - 64) / 2 = (e - 1) / 2 - 32 := by omega
    simp only [sqrtFin, evenParts, h, if_true, he]
  · have he : (e - 64) / 2 = e / 2 - 32 := by omega
    simp only [sqrtFin, evenParts, h, if_false, he]

theorem rsqFin_eq (m : Nat) (e : Int) : rsqFin m e =
    { m := 2 * isqrt (2 ^ 128 / (evenParts m e).1) +
        (if isqrt (2 ^ 128 / (evenParts m e).1) * isqrt (2 ^ 128 / (evenParts m e).1) * (evenParts m e).1 = 2 ^ 128 then 0 else 1),
      e := -(evenParts m e).2 - 64 - 1 } := by
  by_cases h : e % 2 = 1
  · have he : -(e - 1) / 2 = -((e - 1) / 2) := by omega
    simp only [rsqFin, evenParts, h, if_true, he]
  · have he : -e / 2 = -(e / 2) := by omega
    simp only [rsqFin, evenParts, h, if_false, he]

theorem rounded_sqrtFin (hm : m ≠ 0) : Rounded .f32 .rn false (Real.sqrt (m * (2 : ℝ) ^ e)) (roundDy .f32 .rn false (sqrtFin m e)) := by
  obtain ⟨hval, hle, -⟩ := evenParts_spec m e
  obtain ⟨a, ha⟩ : ∃ a, a = (evenParts m e).1 := ⟨_, rfl⟩
  obtain ⟨j, hj⟩ : ∃ j, j = (evenParts m e).2 := ⟨_, rfl⟩
  rw [sqrtFin_eq, ← hval]
  rw [← ha] at hle ⊢
  rw [← hj]
  obtain ⟨q, hq⟩ : ∃ q, q = isqrt (a * 2 ^ 64) := ⟨_, rfl⟩
  obtain ⟨hlow, hhigh⟩ := isqrt_spec (a * 2 ^ 64)
  have hlarge : 2 ^ 24 ≤ isqrt (a * 2 ^ 64) := le_isqrt (by omega)
  rw [← hq] at hlow hhigh hlarge ⊢
  have hpow : (a : ℝ) * (2 : ℝ) ^ (2 * j) = (a * 2 ^ 64 : ℕ) * (2 : ℝ) ^ (2 * (j - 32)) := by
    have : 2 * j = 64 + 2 * (j - 32) := by ring
    rw [this, zpow_add₀ two_ne_zero]
    push_cast
    ring
  have hU : (0 : ℝ) < (2 : ℝ) ^ (2 * (j - 32)) := zpow_pos two_pos _
  rw [hpow]
  refine rounded_sqrt hlarge (j - 32) ?_ ?_ ?_
  · exact mul_le_mul_of_nonneg_right (by exact_mod_cast hlow) hU.le
  · exact mul_lt_mul_of_pos_right (by exact_mod_cast hhigh) hU
  · rw [mul_left_inj' hU.ne']
    exact_mod_cast Iff.rfl

theorem rounded_rsqFin (hm : m ≠ 0) (hlt : m < 2 ^ 24) :
    Rounded .f32 .rn false (1 / Real.sqrt (m * (2 : ℝ) ^ e)) (roundDy .f32 .rn false (rsqFin m e)) := by
  obtain ⟨hval, hle, hle2⟩ := evenParts_spec m e
  obtain ⟨a, ha⟩ : ∃ a, a = (evenParts m e).1 := ⟨_, rfl⟩
  obtain ⟨j, hj⟩ : ∃ j, j = (evenParts m e).2 := ⟨_, rfl⟩
  rw [rsqFin_eq, ← hval]
  rw [← ha] at hle hle2 ⊢
  rw [← hj]
  obtain ⟨q, hq⟩ : ∃ q, q = isqrt (2 ^ 128 / a) := ⟨_, rfl⟩
  have hapos : 0 < a := by omega
  obtain ⟨hlow, hhigh⟩ := isqrt_spec (2 ^ 128 / a)
  have hlarge : 2 ^ 24 ≤ isqrt (2 ^ 128 / a) := le_isqrt ((Nat.le_div_iff_mul_le hapos).2 (by omega))
  rw [← hq] at hlow hhigh hlarge ⊢
  have hlow' : q * q * a ≤ 2 ^ 128 := (Nat.le_div_iff_mul_le hapos).1 hlow
  have hhigh' : 2 ^ 128 < (q + 1) * (q + 1) * a := (Nat.div_lt_iff_lt_mul hapos).1 hhigh
  have hapos' : (0 : ℝ) < a := Nat.cast_pos.2 hapos
  have hU : (0 : ℝ) < (2 : ℝ) ^ (2 * (-j - 64)) := zpow_pos two_pos _
  have hinv : 1 / ((a : ℝ) * (2 : ℝ) ^ (2 * j)) = 2 ^ 128 / a * (2 : ℝ) ^ (2 * (-j - 64)) := by
    have hz : (2 : ℝ) ^ (2 * (-j - 64)) * (2 : ℝ) ^ (2 * j) * 2 ^ 128 = 1 := by
      have : 2 * (-j - 64) + 2 * j + 128 = 0 := by ring
      rw [← zpow_add₀ two_ne_zero, ← zpow_natCast, ← zpow_add₀ two_ne_zero]
      push_cast
      rw [this, zpow_zero]
    have h2 : (2 : ℝ) ^ (2 * j) ≠ 0 := zpow_ne_zero _ two_ne_zero
    rw [div_mul_eq_mul_div, div_eq_div_iff (mul_ne_zero hapos'.ne' h2) hapos'.ne']
    linear_combination -(a : ℝ) * hz
  rw [one_div, ← Real.sqrt_inv, ← one_div, hinv]
  refine rounded_sqrt hlarge (-j - 64) ?_ ?_ ?_
  · refine mul_le_mul_of_nonneg_right ?_ hU.le
    rw [le_div_iff₀ hapos']
    exact_mod_cast hlow'
  · refine mul_lt_mul_of_pos_right ?_ hU
    rw [div_lt_iff₀ hapos']
    exact_mod_cast hhigh'
  · rw [mul_left_inj' hU.ne', eq_div_iff hapos'.ne']
    exact_mod_cast Iff.rfl

end Numbers

end Sys2Proof.Machine

/-! # The special functions where they are exact or reach a limit (R40, R126, R127) -/

namespace Sys2Proof.Machine

open Sys2Proof Sys2Proof.Claims

/-! ## Numbers of the format round to themselves -/

theorem roundsTo_exact {f : Fmt} {rm : RMode} {neg : Bool} {c : Nat} {r : Nat × Flags} (hc : c < f.top)
    (h : RoundsTo f rm neg (f.mag c : ℝ) r) : r = (f.sign neg + c, 0) := by
  obtain ⟨j, k, tiny, hlow, hhigh, -, hdown, -, -, rfl⟩ := h
  have hj : j = c := by
    have h1 := (magR_strictMono f).le_iff_le.1 hlow
    have h2 := (magR_strictMono f).lt_iff_lt.1 hhigh
    omega
  subst hj
  have hk : k = j := hdown fun hu => ne_of_roundsUp hu rfl
  rw [roundedAs, hk, if_neg (not_le.2 hc), decide_eq_true rfl]
  rfl

theorem roundDy_exact {f : Fmt} (hf : f ∈ [Fmt.f32, .bf16, .f16, .e4m3f, .e5m2]) (rm : RMode) (zneg : Bool) {x : Dy} {c : Nat}
    (hc : c < f.top) (h0 : x.val ≠ 0) (h : |x.val| = f.mag c) : roundDy f rm zneg x = (f.sign (x.val < 0) + c, 0) := by
  have hround := roundDy_roundsTo rm zneg (one_le_mb hf) h0
  rw [h] at hround
  exact roundsTo_exact hc hround

/-- The value of an exact result. -/
theorem FRat_exact {f : Fmt} (hf : f ∈ [Fmt.f32, .bf16, .f16, .e4m3f, .e5m2]) {x : ℚ} {c : Nat} (hc : c < f.top)
    (h : |x| = f.mag c) : FRat (unpackF f (f.sign (x < 0) + c)) = x := by
  rw [FRat_sign_add hf _ hc, ← h]
  by_cases hx : x < 0
  · simp [hx, abs_of_neg hx]
  · simp [hx, abs_of_nonneg (not_lt.1 hx)]

/-- Powers of two of the range of FP32. -/
theorem exists_mag_pow {n : Int} (hlow : -149 ≤ n) (hhigh : n ≤ 127) : ∃ c < Fmt.f32.top, (2 : ℚ) ^ n = Fmt.f32.mag c := by
  rcases lt_or_ge n (-126) with h | h
  · have hc : 2 ^ (n + 149).toNat ≤ 2 ^ Fmt.f32.mb := Nat.pow_le_pow_right two_pos (show (n + 149).toNat ≤ 23 by omega)
    refine ⟨2 ^ (n + 149).toNat, hc.trans_lt (by decide), ?_⟩
    rw [Fmt.f32.mag_subnormal hc, Nat.cast_pow, ← zpow_natCast, Nat.cast_ofNat, ← zpow_add₀ two_ne_zero]
    congr 1
    change n = ((n + 149).toNat : Int) + (1 - 127 - 23)
    omega
  · have hb : 1 ≤ (n + 127).toNat := by omega
    have hm := Fmt.f32.mag_binade (Nat.zero_le _) hb
    refine ⟨(n + 127).toNat * 2 ^ Fmt.f32.mb + 0, ?_, ?_⟩
    · change (n + 127).toNat * 2 ^ 23 + 0 < 255 * 2 ^ 23
      omega
    · rw [hm, add_zero, Nat.cast_pow, ← zpow_natCast, Nat.cast_ofNat, ← zpow_add₀ two_ne_zero]
      congr 1
      change n = 23 + (((n + 127).toNat : Int) - 127 - 23)
      omega

/-- Small natural numbers are numbers of FP32. -/
theorem exists_mag_nat {n : Nat} (h0 : n ≠ 0) (h : n < 2 ^ 24) : ∃ c < Fmt.f32.top, (n : ℚ) = Fmt.f32.mag c := by
  obtain ⟨l, hl⟩ : ∃ l, l = Nat.log2 n := ⟨_, rfl⟩
  have hlow : 2 ^ l ≤ n := hl ▸ Nat.log2_self_le h0
  have hhigh : n < 2 ^ (l + 1) := hl ▸ Nat.lt_log2_self
  have hl23 : l ≤ 23 := by
    have := (Nat.pow_lt_pow_iff_right (le_refl 2)).1 (hlow.trans_lt h)
    omega
  have hpow : 2 ^ l * 2 ^ (23 - l) = 2 ^ 23 := by rw [← pow_add]; congr 1; omega
  have hqlow : 2 ^ 23 ≤ n * 2 ^ (23 - l) := hpow ▸ Nat.mul_le_mul_right _ hlow
  have hqhigh : n * 2 ^ (23 - l) < 2 ^ 24 := by
    calc n * 2 ^ (23 - l) < 2 ^ (l + 1) * 2 ^ (23 - l) := Nat.mul_lt_mul_of_pos_right hhigh (Nat.two_pow_pos _)
      _ = 2 ^ 24 := by rw [← pow_add]; congr 1; omega
  have hm := (mag_of_units (f := .f32) (ex := l) hqhigh (by change (1 : Int) - 127 ≤ l; omega) (Or.inr hqlow)).1
  have hexp : ((l : Int) + Fmt.f32.bias - 1).toNat = l + 126 := by
    change ((l : Int) + 127 - 1).toNat = l + 126
    omega
  rw [hexp] at hm
  refine ⟨(l + 126) * 2 ^ Fmt.f32.mb + n * 2 ^ (23 - l), ?_, ?_⟩
  · change (l + 126) * 2 ^ 23 + n * 2 ^ (23 - l) < 255 * 2 ^ 23
    omega
  · rw [hm, Nat.cast_mul, Nat.cast_pow, mul_assoc, ← zpow_natCast, Nat.cast_ofNat, ← zpow_add₀ two_ne_zero]
    have : ((23 - l : ℕ) : Int) + ((l : Int) - (Fmt.f32.mb : ℕ)) = 0 := by
      change ((23 - l : ℕ) : Int) + ((l : Int) - 23) = 0
      omega
    rw [this, zpow_zero, mul_one]

/-! ## Numbers that are integers -/

section Integers

variable {x : Nat} {neg : Bool} {m : Nat} {e n : Int} (h : unpackF .f32 x = .fin neg m e) (ha : FRat (.fin neg m e) = n)

include ha

theorem natAbs_of_FRat : (n.natAbs : ℚ) = m * (2 : ℚ) ^ e ∧ (m ≠ 0 → n = if neg then -(n.natAbs : Int) else n.natAbs) := by
  have hpos : (0 : ℚ) ≤ m * (2 : ℚ) ^ e := by positivity
  have hcast : (n.natAbs : ℚ) = |(n : ℚ)| := by rw [Nat.cast_natAbs, Int.cast_abs]
  refine ⟨?_, fun hm => ?_⟩
  · rw [hcast, ← ha, FRat_fin, abs_mul, abs_of_nonneg hpos, signQ]
    cases neg <;> simp
  · have hneg := FRat_neg_iff (neg := neg) (e := e) hm
    rw [ha] at hneg
    have hn : n < 0 ↔ neg = true := by
      rw [← hneg]
      exact_mod_cast Iff.rfl
    split
    next hs => have := hn.2 hs; omega
    next hs => have := mt hn.1 hs; omega

theorem natAbs_of_exponent_nonneg (he : 0 ≤ e) : n.natAbs = m * 2 ^ e.toNat := by
  have hn := (natAbs_of_FRat ha).1
  rw [← Int.toNat_of_nonneg he, zpow_natCast] at hn
  exact_mod_cast hn

theorem mantissa_of_integer (he : e < 0) : m = n.natAbs * 2 ^ (-e).toNat := by
  have hn := (natAbs_of_FRat ha).1
  have hpow : (2 : ℚ) ^ e * 2 ^ (-e).toNat = 1 := by
    rw [← zpow_natCast, Int.toNat_of_nonneg (by omega), ← zpow_add₀ two_ne_zero, add_neg_cancel, zpow_zero]
  have : (m : ℚ) = n.natAbs * 2 ^ (-e).toNat := by rw [hn, mul_assoc, hpow, mul_one]
  exact_mod_cast this

theorem fraction_of_integer (he : e < 0) : m % 2 ^ (-e).toNat = 0 ∧ m / 2 ^ (-e).toNat = n.natAbs := by
  rw [mantissa_of_integer ha he]
  exact ⟨Nat.mul_mod_left _ _, Nat.mul_div_cancel _ (Nat.two_pow_pos _)⟩

omit ha in
theorem clamp_low {k : Int} (h : k ≤ -2000) : max (-2000) (min 2000 k) = -2000 := max_eq_left ((min_le_right _ _).trans h)

omit ha in
theorem clamp_high {k : Int} (h : 2000 ≤ k) : max (-2000) (min 2000 k) = 2000 := by
  rw [min_eq_left h]
  rfl

/-- The integer that EX2 takes as its argument, beyond 2^20 cut off. -/
theorem clamped_of_integer (hm : m ≠ 0) {k : Int} (hk : k = if e ≥ 0 then (m * 2 ^ (min e 20).toNat : Int) else (m / 2 ^ (-e).toNat : ℕ)) :
    max (-2000) (min 2000 (if neg then -k else k)) = max (-2000) (min 2000 n) := by
  have hsign := (natAbs_of_FRat ha).2 hm
  rcases lt_or_ge e 0 with he | he
  · rw [if_neg (not_le.2 he), (fraction_of_integer ha he).2] at hk
    rw [hk, ← hsign]
  · have habs := natAbs_of_exponent_nonneg ha he
    rw [if_pos he] at hk
    rcases le_or_gt e 20 with hle | hgt
    · have : k = n.natAbs := by
        rw [hk, habs, min_eq_left hle]
        push_cast
        rfl
      rw [this, ← hsign]
    · have hbig : 2 ^ 20 ≤ n.natAbs := by
        rw [habs]
        calc 2 ^ 20 ≤ 2 ^ e.toNat := Nat.pow_le_pow_right two_pos (by omega)
          _ ≤ m * 2 ^ e.toNat := Nat.le_mul_of_pos_left _ (Nat.pos_of_ne_zero hm)
      have hk' : k = m * 2 ^ 20 := by
        rw [hk, min_eq_right hgt.le]
        rfl
      have hklarge : 2000 ≤ k := by
        have : (1 : Int) ≤ m := by exact_mod_cast Nat.pos_of_ne_zero hm
        omega
      have hnlarge : (2000 : Int) ≤ n.natAbs := by exact_mod_cast le_trans (by decide) hbig
      split at hsign
      next hneg => rw [if_pos hneg, hsign, clamp_low (neg_le_neg hklarge), clamp_low (neg_le_neg hnlarge)]
      next hneg => rw [if_neg hneg, hsign, clamp_high hklarge, clamp_high hnlarge]

/-! ## EX2 of integers -/

include h in
theorem special_ex2_integer (hm : m ≠ 0) :
    special .ex2 x = roundDy .f32 .rn false { m := 1, e := max (-2000) (min 2000 n) } := by
  have hcond : (decide (e ≥ 0) || decide (m % 2 ^ (-e).toNat = 0)) = true := by
    rcases lt_or_ge e 0 with he | he
    · rw [decide_eq_true (fraction_of_integer ha he).1, Bool.or_true]
    · rw [decide_eq_true he, Bool.true_or]
  obtain ⟨j, rfl⟩ := Nat.exists_eq_succ_of_ne_zero hm
  rw [← clamped_of_integer ha hm rfl]
  simp only [special, h, hcond, if_true]
  rfl

end Integers

theorem val_pow (E : Int) : ({ m := 1, e := E } : Dy).val = (2 : ℚ) ^ E := by
  rw [Dy.val, Int.cast_one, one_mul]

theorem roundDy_pow_exact {n : Int} (hlow : -149 ≤ n) (hhigh : n ≤ 127) :
    FRat (unpackF .f32 (roundDy .f32 .rn false { m := 1, e := n }).1) = (2 : ℚ) ^ n ∧ (roundDy .f32 .rn false { m := 1, e := n }).2 = 0 := by
  obtain ⟨c, hc, hv⟩ := exists_mag_pow hlow hhigh
  have habs : |({ m := 1, e := n } : Dy).val| = Fmt.f32.mag c := by
    rw [val_pow, abs_of_pos (zpow_pos two_pos n), hv]
  have h0 : ({ m := 1, e := n } : Dy).val ≠ 0 := val_pow n ▸ zpow_ne_zero n two_ne_zero
  rw [roundDy_exact f32_mem .rn false hc h0 habs]
  exact ⟨(FRat_exact f32_mem hc habs).trans (val_pow n), rfl⟩

theorem roundDy_pow_roundsTo (E : Int) :
    RoundsTo .f32 .rn false ((2 : ℝ) ^ E) (roundDy .f32 .rn false { m := 1, e := E }) := by
  have hpos : (0 : ℚ) < (2 : ℚ) ^ E := zpow_pos two_pos E
  have h := roundDy_roundsTo (f := .f32) .rn false (x := { m := 1, e := E }) (by decide) (val_pow E ▸ hpos.ne')
  rw [val_pow, abs_of_pos hpos, decide_eq_false (not_lt.2 hpos.le)] at h
  push_cast at h
  exact h

theorem roundDy_pow_huge {E : Int} (h : 128 ≤ E) :
    roundDy .f32 .rn false { m := 1, e := E } = (0x7F800000, Flags.overflow ||| Flags.inexact) := by
  have htop : ((Fmt.f32.mag Fmt.f32.top : ℚ) : ℝ) ≤ (2 : ℝ) ^ (128 : ℤ) := by exact_mod_cast mag_top_le f32_mem
  exact eq_of_huge (htop.trans (zpow_le_zpow_right₀ one_le_two h)) (roundDy_pow_roundsTo E)

theorem roundDy_pow_tiny {E : Int} (h : E ≤ -150) :
    roundDy .f32 .rn false { m := 1, e := E } = (0, Flags.underflow ||| Flags.inexact) := by
  obtain ⟨c, k, tiny, hlow, -, -, hdown, -, hsub, hr⟩ := roundDy_pow_roundsTo E
  have hulp : Fmt.f32.ulpExp 0 = -149 := by decide
  have hone := magR_succ .f32 0
  rw [Fmt.f32.mag_zero, Rat.cast_zero, sub_zero, hulp, zero_add] at hone
  have hhalf : 2 * (2 : ℝ) ^ E ≤ (2 : ℝ) ^ (-149 : ℤ) := by
    rw [← zpow_one_add₀ two_ne_zero]
    exact zpow_le_zpow_right₀ one_le_two (by omega)
  have hpos : (0 : ℝ) < (2 : ℝ) ^ E := zpow_pos two_pos E
  have hlt : (2 : ℝ) ^ E < Fmt.f32.mag 1 := by rw [hone]; linarith
  have hc : c = 0 := by
    have := (magR_strictMono .f32).lt_iff_lt.1 (hlow.trans_lt hlt)
    omega
  subst hc
  have hzero : ((Fmt.f32.mag 0 : ℚ) : ℝ) = 0 := by rw [Fmt.f32.mag_zero, Rat.cast_zero]
  have hk : k = 0 := hdown fun hu => by
    rw [RoundsUp, hzero, sub_zero, hulp] at hu
    rcases hu with hu | ⟨-, hu⟩
    · linarith
    · exact absurd hu (by decide)
  have htiny : tiny = true := hsub (hlt.le.trans ((magR_strictMono .f32).monotone (by decide)))
  rw [hr, hk, htiny, hzero, decide_eq_false hpos.ne']
  rfl


end Sys2Proof.Machine

/-! # LG2, SINPI, COSPI and TANH where they are exact or reach a limit (R40, R126, R127) -/

namespace Sys2Proof.Machine

open Sys2Proof Sys2Proof.Claims

section Numbers

variable {x : Nat} {neg : Bool} {m : Nat} {e n : Int} (h : unpackF .f32 x = .fin neg m e) (hm : m ≠ 0)

/-! ## LG2 of powers of two -/

theorem Dy.val_ofInt (n : Int) : (Dy.ofInt n).val = n := by simp [Dy.ofInt, Dy.val]

theorem roundDy_integer {n : Int} (hn : n.natAbs < 2 ^ 24) :
    FRat (unpackF .f32 (roundDy .f32 .rn false (Dy.ofInt n)).1) = n ∧ (roundDy .f32 .rn false (Dy.ofInt n)).2 = 0 := by
  by_cases h0 : n = 0
  · subst h0
    rw [roundDy_of_zero .rn false (by rw [Dy.val_ofInt, Int.cast_zero])]
    have hz : unpackF .f32 (Fmt.sign .f32 false) = .fin false 0 (-149) := by decide
    exact ⟨by rw [hz]; simp [FRat], rfl⟩
  · obtain ⟨c, hc, hv⟩ := exists_mag_nat (Int.natAbs_ne_zero.2 h0) hn
    have habs : |(Dy.ofInt n).val| = Fmt.f32.mag c := by
      rw [Dy.val_ofInt, ← hv, Nat.cast_natAbs, Int.cast_abs]
    have hne : (Dy.ofInt n).val ≠ 0 := by
      rw [Dy.val_ofInt]
      exact_mod_cast h0
    rw [roundDy_exact f32_mem .rn false hc hne habs]
    exact ⟨(FRat_exact f32_mem hc habs).trans (Dy.val_ofInt n), rfl⟩

include hm in
/-- A power of two has a mantissa that is one. -/
theorem mantissa_of_pow (ha : FRat (.fin neg m e) = (2 : ℚ) ^ n) : neg = false ∧ m = 2 ^ Nat.log2 m ∧ e + Nat.log2 m = n := by
  have hneg : neg = false := by
    rw [← Bool.not_eq_true, ← FRat_neg_iff (e := e) hm, ha]
    exact (zpow_pos two_pos n).not_gt
  subst hneg
  have hval : (m : ℚ) = (2 : ℚ) ^ (n - e) := by
    rw [zpow_sub₀ two_ne_zero, eq_div_iff (zpow_ne_zero e two_ne_zero), ← ha, FRat_fin]
    simp [signQ]
  have hnonneg : 0 ≤ n - e := by
    by_contra hlt
    have h1 : (2 : ℚ) ^ (n - e) < 1 := zpow_lt_one_of_neg₀ one_lt_two (not_le.1 hlt)
    rw [← hval] at h1
    exact hm (Nat.lt_one_iff.1 (by exact_mod_cast h1))
  have hnat : m = 2 ^ (n - e).toNat := by
    rw [← Int.toNat_of_nonneg hnonneg, zpow_natCast] at hval
    exact_mod_cast hval
  have hlog : Nat.log2 m = (n - e).toNat := by rw [hnat, Nat.log2_two_pow]
  exact ⟨rfl, by rw [hlog]; exact hnat, by omega⟩

include h hm in
theorem lg2_pow (ha : FRat (unpackF .f32 x) = (2 : ℚ) ^ n) :
    FRat (unpackF .f32 (special .lg2 x).1) = n ∧ (special .lg2 x).2 = 0 := by
  have hfin : FFin (unpackF .f32 x) := by rw [h]; exact ⟨rfl, fun _ hi => by cases hi⟩
  obtain ⟨hlow, hhigh⟩ := FRat_range f32_mem hfin (ha ▸ zpow_ne_zero n two_ne_zero)
  rw [ha, abs_of_pos (zpow_pos two_pos n)] at hlow hhigh
  have h1 := (zpow_le_zpow_iff_right₀ (one_lt_two (α := ℚ))).1 hlow
  have h2 := (zpow_lt_zpow_iff_right₀ (one_lt_two (α := ℚ))).1 hhigh
  rw [h] at ha
  obtain ⟨rfl, hpow, hexp⟩ := mantissa_of_pow hm ha
  rw [special_lg2 h hm, if_neg Bool.false_ne_true, if_pos hpow, hexp]
  exact roundDy_integer (by omega)

/-! ## SINPI and COSPI of integers and halves -/

theorem natAbs_odd_iff (n : Int) : n.natAbs % 2 = 1 ↔ n % 2 = 1 := by
  rw [← Nat.odd_iff, ← Int.odd_iff, Int.natAbs_odd]

theorem unpackF_sign (b : Bool) : unpackF .f32 (Fmt.sign .f32 b) = .fin b 0 (-149) := by cases b <;> decide

theorem FRat_sign_one (b : Bool) : FRat (unpackF .f32 (Fmt.sign .f32 b + 0x3F800000)) = if b then -1 else 1 := by
  have hu : unpackF .f32 (Fmt.sign .f32 b + 0x3F800000) = .fin b (2 ^ 23) (-23) := by cases b <;> decide
  rw [hu]
  cases b <;> norm_num [FRat]

section

include h hm

theorem special_sinpi : special .sinpi x =
    if e ≥ 0 then (Fmt.sign .f32 neg, 0)
    else if (fracPart m e).1 = 0 then (Fmt.sign .f32 neg, 0)
    else if 2 * (fracPart m e).1 = 2 ^ (-e).toNat then (Fmt.sign .f32 (neg != (fracPart m e).2) + 0x3F800000, 0)
    else sinpiFin (neg != (fracPart m e).2) (fracPart m e).1 e := by
  obtain ⟨j, rfl⟩ := Nat.exists_eq_succ_of_ne_zero hm
  simp only [special, h]

theorem special_cospi : special .cospi x =
    if e ≥ 0 then (Fmt.sign .f32 (e = 0 && m % 2 = 1) + 0x3F800000, 0)
    else if (fracPart m e).1 = 0 then (Fmt.sign .f32 (fracPart m e).2 + 0x3F800000, 0)
    else if (fracPart m e).1 = 2 ^ ((-e).toNat - 1) then (0, 0)
    else if (fracPart m e).1 < 2 ^ ((-e).toNat - 1) then sinpiFin (fracPart m e).2 (2 ^ ((-e).toNat - 1) - (fracPart m e).1) e
    else sinpiFin (!(fracPart m e).2) ((fracPart m e).1 - 2 ^ ((-e).toNat - 1)) e := by
  obtain ⟨j, rfl⟩ := Nat.exists_eq_succ_of_ne_zero hm
  simp only [special, h]

theorem sinpi_integer (ha : FRat (.fin neg m e) = n) : special .sinpi x = (Fmt.sign .f32 neg, 0) := by
  rw [special_sinpi h hm]
  split
  next => rfl
  next he => exact if_pos (fraction_of_integer ha (not_le.1 he)).1

theorem cospi_integer (ha : FRat (.fin neg m e) = n) :
    special .cospi x = (Fmt.sign .f32 (decide (n % 2 = 1)) + 0x3F800000, 0) := by
  rw [special_cospi h hm]
  split
  next he =>
    have habs := natAbs_of_exponent_nonneg ha he
    have hodd : (decide (e = 0) && decide (m % 2 = 1)) = decide (n % 2 = 1) := by
      rcases eq_or_ne e 0 with rfl | hne
      · rw [Int.toNat_zero, pow_zero, mul_one] at habs
        rw [decide_eq_true rfl, Bool.true_and]
        rw [← habs]
        exact decide_eq_decide.2 (natAbs_odd_iff n)
      · obtain ⟨k, hk⟩ : ∃ k, e.toNat = k + 1 := ⟨e.toNat - 1, by omega⟩
        rw [hk, pow_succ, ← mul_assoc] at habs
        rw [decide_eq_false hne, Bool.false_and, eq_comm, decide_eq_false_iff_not, ← natAbs_odd_iff, habs, Nat.mul_mod_left]
        decide
    rw [hodd]
  next he =>
    obtain ⟨hfrac, hint⟩ := fraction_of_integer ha (not_le.1 he)
    have hodd : (fracPart m e).2 = decide (n % 2 = 1) := by
      rw [fracPart, hint]
      exact decide_eq_decide.2 (natAbs_odd_iff n)
    have hfrac' : (fracPart m e).1 = 0 := hfrac
    rw [if_pos hfrac', hodd]

end

/-- The integer of which |2n + 1| is one more than the double. -/
theorem natAbs_two_mul_add_one (n : Int) :
    ∃ j : Nat, (2 * n + 1).natAbs = 2 * j + 1 ∧ (j : Int) = if n < 0 then -n - 1 else n := by
  cases n with
  | ofNat j => exact ⟨j, Int.natAbs_natCast (2 * j + 1), (if_neg (not_lt.2 (Int.natCast_nonneg j))).symm⟩
  | negSucc j =>
    have hneg : 2 * Int.negSucc j + 1 = -((2 * j + 1 : Nat) : Int) := by
      rw [Int.negSucc_eq]
      push_cast
      ring
    refine ⟨j, by rw [hneg, Int.natAbs_neg, Int.natAbs_natCast], ?_⟩
    rw [if_pos (Int.negSucc_lt_zero j), Int.negSucc_eq]
    ring

/-- The mantissa of a number that is an odd integer halved. -/
theorem mantissa_of_half {j k : Nat} (hdouble : FRat (.fin neg m (e + 1)) = ((2 * n + 1 : ℤ) : ℚ)) (hk : (-e).toNat = k + 1)
    (hj : (2 * n + 1).natAbs = 2 * j + 1) : m = (2 * j + 1) * 2 ^ k := by
  rcases lt_or_ge (e + 1) 0 with he' | he'
  · have := mantissa_of_integer hdouble he'
    rw [hj] at this
    rw [this]
    congr 2
    omega
  · have := natAbs_of_exponent_nonneg hdouble he'
    have hk0 : k = 0 := by omega
    have h0 : (e + 1).toNat = 0 := by omega
    rw [h0, pow_zero, mul_one, hj] at this
    rw [hk0, pow_zero, mul_one, this]

include hm in
/-- A number halfway between two integers. -/
theorem parts_of_half (ha : FRat (.fin neg m e) = n + 1 / 2) :
    e < 0 ∧ (neg = true ↔ n < 0) ∧ (fracPart m e).1 = 2 ^ ((-e).toNat - 1) ∧
    ((fracPart m e).2 = decide ((if n < 0 then -n - 1 else n) % 2 = 1)) := by
  have hdouble : FRat (.fin neg m (e + 1)) = ((2 * n + 1 : ℤ) : ℚ) := by
    have : FRat (.fin neg m (e + 1)) = 2 * FRat (.fin neg m e) := by
      rw [FRat_fin, FRat_fin, zpow_add_one₀ two_ne_zero]
      ring
    rw [this, ha]
    push_cast
    ring
  have he : e < 0 := by
    by_contra hge
    have habs := natAbs_of_exponent_nonneg hdouble (by omega)
    obtain ⟨k, hk⟩ : ∃ k, (e + 1).toNat = k + 1 := ⟨e.toNat, by omega⟩
    rw [hk, pow_succ, ← mul_assoc] at habs
    have hodd := (natAbs_odd_iff (2 * n + 1)).2 (by omega)
    rw [habs, Nat.mul_mod_left] at hodd
    exact absurd hodd (by decide)
  have hneg : neg = true ↔ n < 0 := by
    rw [← FRat_neg_iff (e := e + 1) hm, hdouble]
    constructor
    · intro hlt
      have : 2 * n + 1 < 0 := by exact_mod_cast hlt
      omega
    · intro hlt
      have : 2 * n + 1 < 0 := by omega
      exact_mod_cast this
  obtain ⟨k, hk⟩ : ∃ k, (-e).toNat = k + 1 := ⟨(-e).toNat - 1, by omega⟩
  obtain ⟨j, hj, hjn⟩ := natAbs_two_mul_add_one n
  have hparts : m = 2 ^ k + j * 2 ^ (k + 1) := by rw [mantissa_of_half hdouble hk hj, pow_succ]; ring
  have hlt : 2 ^ k < 2 ^ (k + 1) := Nat.pow_lt_pow_right one_lt_two (Nat.lt_succ_self k)
  refine ⟨he, hneg, ?_, ?_⟩
  · rw [fracPart, hk, Nat.add_sub_cancel, hparts, Nat.add_mul_mod_self_right, Nat.mod_eq_of_lt hlt]
  · rw [fracPart, hk, hparts, Nat.add_mul_div_right _ _ (Nat.two_pow_pos _), Nat.div_eq_of_lt hlt, zero_add]
    rw [← hjn]
    exact decide_eq_decide.2 (by norm_cast)

section

include h hm

theorem sinpi_half (ha : FRat (.fin neg m e) = n + 1 / 2) :
    FRat (unpackF .f32 (special .sinpi x).1) = (if n % 2 = 0 then 1 else -1) ∧ (special .sinpi x).2 = 0 := by
  obtain ⟨he, hneg, hfrac, hodd⟩ := parts_of_half hm ha
  have hpow : 2 * 2 ^ ((-e).toNat - 1) = 2 ^ (-e).toNat := by rw [← pow_succ', Nat.sub_add_cancel (by omega)]
  rw [special_sinpi h hm, if_neg (not_le.2 he), hfrac, if_neg (Nat.two_pow_pos _).ne', if_pos hpow, FRat_sign_one, hodd]
  refine ⟨?_, rfl⟩
  have hsign : (neg != decide ((if n < 0 then -n - 1 else n) % 2 = 1)) = decide (n % 2 = 1) := by
    cases neg with
    | true =>
      rw [if_pos (hneg.1 rfl), Bool.true_bne, ← decide_not]
      exact decide_eq_decide.2 (by omega)
    | false =>
      rw [if_neg fun hlt => Bool.false_ne_true (hneg.2 hlt), Bool.false_bne]
  rw [hsign]
  rcases Int.emod_two_eq_zero_or_one n with h0 | h1
  · simp [h0]
  · simp [h1]

theorem cospi_half (ha : FRat (.fin neg m e) = n + 1 / 2) : special .cospi x = (0, 0) := by
  obtain ⟨he, -, hfrac, -⟩ := parts_of_half hm ha
  rw [special_cospi h hm, if_neg (not_le.2 he), hfrac, if_neg (Nat.two_pow_pos _).ne', if_pos rfl]

/-! ## TANH -/

theorem tanh_large (ha : 16 ≤ |FRat (.fin neg m e)|) : special .tanh x = (Fmt.sign .f32 neg + 0x3F800000, Flags.inexact) := by
  have habs : |FRat (.fin neg m e)| = m * (2 : ℚ) ^ e := by
    rw [FRat_fin, abs_mul, abs_of_nonneg (by positivity : (0 : ℚ) ≤ m * (2 : ℚ) ^ e), signQ]
    cases neg <;> simp
  have hlt : (m : ℚ) * (2 : ℚ) ^ e < (2 : ℚ) ^ (e + Nat.log2 m + 1) := by
    have h1 : (m : ℚ) < 2 ^ (Nat.log2 m + 1) := by exact_mod_cast Nat.lt_log2_self
    have h2 : (2 : ℚ) ^ (e + Nat.log2 m + 1) = 2 ^ (Nat.log2 m + 1) * (2 : ℚ) ^ e := by
      rw [← zpow_natCast, ← zpow_add₀ two_ne_zero]
      congr 1
      push_cast
      ring
    rw [h2]
    exact mul_lt_mul_of_pos_right h1 (zpow_pos two_pos e)
  have hmag : 4 ≤ e + Nat.log2 m := by
    have h16 : (2 : ℚ) ^ (4 : ℤ) < (2 : ℚ) ^ (e + Nat.log2 m + 1) := by
      rw [habs] at ha
      exact lt_of_le_of_lt (by norm_num; exact ha) hlt
    have := (zpow_lt_zpow_iff_right₀ (one_lt_two (α := ℚ))).1 h16
    omega
  rw [special_tanh h hm, tanhFin]
  dsimp only
  rw [if_neg (by omega), if_pos hmag]

end

/-- A subnormal number less a small part of its last place rounds back to it. -/
theorem roundDy_below_subnormal {c : Nat} (hc0 : c ≠ 0) (hc : c < 2 ^ 23) :
    roundDy .f32 .rn neg { m := (if neg then -1 else 1) * (c * 2 ^ 40 - 1), e := -149 - 40 } =
      (Fmt.sign .f32 neg + c, Flags.underflow ||| Flags.inexact) := by
  obtain ⟨d, hd⟩ : ∃ d : Dy, d = { m := (if neg then -1 else 1) * (c * 2 ^ 40 - 1), e := -149 - 40 } := ⟨_, rfl⟩
  obtain ⟨j, rfl⟩ := Nat.exists_eq_succ_of_ne_zero hc0
  have hulp : Fmt.f32.ulpExp j = -149 := Fmt.f32.ulpExp_subnormal (Nat.lt_of_succ_lt hc)
  have hsucc := Fmt.f32.mag_succ j
  rw [hulp] at hsucc
  have hmag : Fmt.f32.mag (j + 1) = ((j + 1 : ℕ) : ℚ) * (2 : ℚ) ^ (-149 : ℤ) := Fmt.f32.mag_subnormal hc.le
  have hsmall : (2 : ℚ) ^ (-149 - 40 : ℤ) * 2 ^ 40 = (2 : ℚ) ^ (-149 : ℤ) := by
    rw [← zpow_natCast, ← zpow_add₀ two_ne_zero]
    rfl
  have hU : (0 : ℚ) < (2 : ℚ) ^ (-149 - 40 : ℤ) := zpow_pos two_pos _
  obtain ⟨U, hUdef⟩ : ∃ U, U = (2 : ℚ) ^ (-149 - 40 : ℤ) := ⟨_, rfl⟩
  have hv : d.val = signQ neg * (Fmt.f32.mag (j + 1) - U) := by
    rw [hd, hmag, ← hsmall, ← hUdef, Dy.val, signQ, ← hUdef]
    split <;> push_cast <;> ring
  rw [← hUdef] at hsmall hU
  rw [← hsmall] at hsucc
  have hlow := Fmt.f32.mag_nonneg j
  have hpos : 0 < Fmt.f32.mag (j + 1) - U := by linarith
  have habs : |d.val| = Fmt.f32.mag (j + 1) - U := by
    rw [hv, abs_mul, abs_of_pos hpos, signQ]
    cases neg <;> simp
  have hneg : decide (d.val < 0) = neg := by
    rw [hv, signQ]
    cases neg with
    | true => rw [decide_eq_true_eq, if_pos rfl]; linarith
    | false => rw [decide_eq_false_iff_not, if_neg Bool.false_ne_true]; linarith
  have h0 : d.val ≠ 0 := abs_pos.1 (habs ▸ hpos)
  obtain ⟨i, k, tiny, hi, hi', hup, -, -, hsub, hr⟩ := roundDy_roundsTo (f := .f32) .rn neg (by decide) h0
  rw [habs] at hi hi' hup hsub hr
  have hij : i = j := by
    have h1 : Fmt.f32.mag i < Fmt.f32.mag (j + 1) := lt_of_le_of_lt (by exact_mod_cast hi) (sub_lt_self _ hU)
    have h2 : Fmt.f32.mag j < Fmt.f32.mag (i + 1) := lt_trans (by linarith) (Rat.cast_lt.1 hi')
    have := Fmt.f32.mag_strictMono.lt_iff_lt.1 h1
    have := Fmt.f32.mag_strictMono.lt_iff_lt.1 h2
    omega
  subst hij
  have hk : k = i + 1 := hup <| Or.inl <| by
    rw [hulp]
    have : (2 : ℚ) ^ (-149 : ℤ) < 2 * (Fmt.f32.mag (i + 1) - U - Fmt.f32.mag i) := by
      rw [hsucc, ← hsmall]
      linarith
    have := (Rat.cast_lt (K := ℝ)).2 this
    push_cast at this
    push_cast
    exact this
  have htiny : tiny = true := hsub <| by
    have : Fmt.f32.mag (i + 1) ≤ Fmt.f32.mag (2 ^ Fmt.f32.mb - 1) :=
      Fmt.f32.mag_strictMono.monotone (show i + 1 ≤ 2 ^ 23 - 1 by omega)
    exact_mod_cast (sub_lt_self _ hU).le.trans this
  have hne : ((Fmt.f32.mag (i + 1) - U : ℚ) : ℝ) ≠ Fmt.f32.mag i := by
    rw [Ne, Rat.cast_inj, hsucc]
    intro heq
    linarith
  have hlt : i + 1 < Fmt.f32.top := lt_trans hc (by decide)
  rw [← hd, hr, hk, htiny, hneg, decide_eq_false hne, roundedAs, if_neg (not_le.2 hlt)]
  rfl

theorem tanh_subnormal (hfin : FFin (unpackF .f32 x)) (h0 : FRat (unpackF .f32 x) ≠ 0)
    (hlt : |FRat (unpackF .f32 x)| < (2 : ℚ) ^ (-126 : ℤ)) :
    FRat (unpackF .f32 (special .tanh x).1) = FRat (unpackF .f32 x) ∧ (special .tanh x).2 = Flags.underflow ||| Flags.inexact := by
  obtain ⟨neg, c, hc, hx⟩ := exists_sign_add f32_mem hfin
  have hval := FRat_sign_add f32_mem neg hc
  have habs : |FRat (unpackF .f32 x)| = Fmt.f32.mag c := by
    rw [hx, hval, abs_mul, abs_of_nonneg (Fmt.f32.mag_nonneg c)]
    cases neg <;> simp
  have hsub : c < 2 ^ 23 := by
    have hleast : Fmt.f32.mag (2 ^ 23) = (2 : ℚ) ^ (-126 : ℤ) := by
      have := Fmt.f32.mag_binade (Nat.zero_le _) (le_refl 1)
      rw [one_mul, add_zero, Nat.cast_pow, ← zpow_natCast, Nat.cast_ofNat, ← zpow_add₀ two_ne_zero] at this
      exact this
    rw [habs, ← hleast] at hlt
    exact Fmt.f32.mag_strictMono.lt_iff_lt.1 hlt
  have hc0 : c ≠ 0 := by
    rintro rfl
    rw [Fmt.f32.mag_zero, abs_eq_zero] at habs
    exact h0 habs
  have hparts : unpackF .f32 x = .fin neg c (-149) := by
    have hulp : Fmt.f32.ulpExp c = -149 := Fmt.f32.ulpExp_subnormal hsub
    have hsig : Fmt.f32.signif c = c := if_pos hsub
    rw [hx, unpackF_sign_add f32_mem neg hc, hulp, hsig]
  have hlog : Nat.log2 c < 23 := (Nat.log2_lt hc0).2 hsub
  have hround := roundDy_below_subnormal (neg := neg) hc0 hsub
  have htanh : special .tanh x = (Fmt.sign .f32 neg + c, Flags.underflow ||| Flags.inexact) := by
    rw [special_tanh hparts hc0, tanhFin]
    dsimp only
    have hflags : (Flags.underflow ||| Flags.inexact) ||| Flags.inexact = Flags.underflow ||| Flags.inexact := by decide
    rw [if_pos (by omega), hround]
    exact congrArg (Prod.mk _) hflags
  rw [htanh]
  exact ⟨by rw [hx], rfl⟩

end Numbers

/-! ## The values of the special functions -/

theorem exists_fin_ne_zero {v : FVal} (hfin : FFin v) (h0 : FRat v ≠ 0) : ∃ neg m e, v = .fin neg m e ∧ m ≠ 0 := by
  obtain ⟨neg, m, e, rfl⟩ := exists_fin hfin
  refine ⟨neg, m, e, rfl, ?_⟩
  rintro rfl
  exact h0 (by simp [FRat])

section Values

variable {x : Nat} (hfin : FFin (unpackF .f32 x))

theorem special_of_nan (k : SFun) (h : (unpackF .f32 x).isNan = true) :
    special k x = (0x7FC00000, if (unpackF .f32 x).isSnan then Flags.invalid else 0) := by
  cases hv : unpackF .f32 x with
  | nan sg => simp only [special, hv]; rfl
  | inf b => rw [hv] at h; cases h
  | fin neg m e => rw [hv] at h; cases h

/-- What a special function gives of a zero. -/
theorem special_zero (h0 : FRat (unpackF .f32 x) = 0) (hx : FFin (unpackF .f32 x)) :
    special .ex2 x = (0x3F800000, 0) ∧ special .sinpi x = (x, 0) ∧ special .cospi x = (0x3F800000, 0) := by
  obtain ⟨neg, m, e, hv⟩ := exists_fin hx
  have hm : m = 0 := by
    by_contra hm
    rw [hv, FRat_fin] at h0
    have : (m : ℚ) * (2 : ℚ) ^ e ≠ 0 := mul_ne_zero (by exact_mod_cast hm) (zpow_ne_zero e two_ne_zero)
    rcases mul_eq_zero.1 h0 with hs | hz
    · cases neg <;> simp [signQ] at hs
    · exact this hz
  subst hm
  simp only [special, hv, and_self]

include hfin

theorem special_of_negative (h : FRat (unpackF .f32 x) < 0) :
    special .rsq x = (0x7FC00000, Flags.invalid) ∧ special .sqrt x = (0x7FC00000, Flags.invalid) ∧
    special .lg2 x = (0x7FC00000, Flags.invalid) := by
  obtain ⟨neg, m, e, hv, hm⟩ := exists_fin_ne_zero hfin h.ne
  rw [hv] at h
  obtain rfl := (FRat_neg_iff hm).1 h
  rw [special_rsq hv hm, special_sqrt hv hm, special_lg2 hv hm]
  exact ⟨rfl, rfl, rfl⟩

theorem rcp_rounded (h : FRat (unpackF .f32 x) ≠ 0) :
    Rounded .f32 .rn (FRat (unpackF .f32 x) < 0) (1 / (FRat (unpackF .f32 x) : ℝ)) (special .rcp x) := by
  obtain ⟨neg, m, e, hv, hm⟩ := exists_fin_ne_zero hfin h
  have hneg : decide (FRat (.fin neg m e) < 0) = neg := by
    have hiff := FRat_neg_iff (neg := neg) (e := e) hm
    cases neg with
    | true => exact decide_eq_true (hiff.2 rfl)
    | false => exact decide_eq_false fun hlt => Bool.false_ne_true (hiff.1 hlt)
  rw [hv, hneg]
  exact rounded_rcp hv hm

theorem roots_rounded (h : 0 < FRat (unpackF .f32 x)) :
    Rounded .f32 .rn false (Real.sqrt (FRat (unpackF .f32 x))) (special .sqrt x) ∧
    Rounded .f32 .rn false (1 / Real.sqrt (FRat (unpackF .f32 x))) (special .rsq x) := by
  obtain ⟨neg, m, e, hv, hm⟩ := exists_fin_ne_zero hfin h.ne'
  have hneg : neg = false := by
    rw [hv] at h
    rw [← Bool.not_eq_true, ← FRat_neg_iff (e := e) hm]
    exact h.not_gt
  subst hneg
  have hval : ((FRat (.fin false m e) : ℚ) : ℝ) = m * (2 : ℝ) ^ e := by rw [FRat_finR, signR_false, one_mul]
  rw [special_sqrt hv hm, special_rsq hv hm, if_neg Bool.false_ne_true, if_neg Bool.false_ne_true, hv, hval]
  exact ⟨rounded_sqrtFin hm, rounded_rsqFin hm (f32_mantissa_lt hv)⟩

theorem ex2_integer {n : Int} (h : FRat (unpackF .f32 x) = n) :
    (-149 ≤ n → n ≤ 127 → FRat (unpackF .f32 (special .ex2 x).1) = (2 : ℚ) ^ n ∧ (special .ex2 x).2 = 0) ∧
    (128 ≤ n → special .ex2 x = (0x7F800000, Flags.overflow ||| Flags.inexact)) ∧
    (n ≤ -150 → special .ex2 x = (0, Flags.underflow ||| Flags.inexact)) := by
  rcases eq_or_ne n 0 with rfl | hn
  · have hone := FRat_sign_one false
    rw [Fmt.sign, if_neg Bool.false_ne_true, zero_add] at hone
    rw [(special_zero (h.trans Int.cast_zero) hfin).1]
    exact ⟨fun _ _ => ⟨hone, rfl⟩, fun hlow => by omega, fun hhigh => by omega⟩
  · obtain ⟨neg, m, e, hv, hm⟩ := exists_fin_ne_zero hfin (h ▸ Int.cast_ne_zero.2 hn)
    rw [hv] at h
    rw [special_ex2_integer hv h hm]
    refine ⟨fun h1 h2 => ?_, fun h1 => roundDy_pow_huge (by omega), fun h1 => roundDy_pow_tiny (by omega)⟩
    rw [min_eq_right (by omega), max_eq_right (by omega)]
    exact roundDy_pow_exact h1 h2

theorem sinpi_cospi_integer {n : Int} (h : FRat (unpackF .f32 x) = n) :
    FFin (unpackF .f32 (special .sinpi x).1) ∧ FRat (unpackF .f32 (special .sinpi x).1) = 0 ∧
    (unpackF .f32 (special .sinpi x).1).sgn = (unpackF .f32 x).sgn ∧ (special .sinpi x).2 = 0 ∧
    FRat (unpackF .f32 (special .cospi x).1) = (if n % 2 = 0 then 1 else -1) ∧ (special .cospi x).2 = 0 := by
  rcases eq_or_ne n 0 with rfl | hn
  · have hone := FRat_sign_one false
    rw [Fmt.sign, if_neg Bool.false_ne_true, zero_add] at hone
    have h0 := h.trans Int.cast_zero
    obtain ⟨-, hsin, hcos⟩ := special_zero h0 hfin
    rw [hsin, hcos]
    exact ⟨hfin, h0, rfl, rfl, hone, rfl⟩
  · obtain ⟨neg, m, e, hv, hm⟩ := exists_fin_ne_zero hfin (h ▸ Int.cast_ne_zero.2 hn)
    rw [hv] at h
    rw [sinpi_integer hv hm h, cospi_integer hv hm h, unpackF_sign, FRat_sign_one, hv]
    refine ⟨⟨rfl, fun _ hi => nomatch hi⟩, by simp [FRat], rfl, rfl, ?_, rfl⟩
    rcases Int.emod_two_eq_zero_or_one n with h0 | h1
    · simp [h0]
    · simp [h1]

theorem lg2_of_pow {n : Int} (h : FRat (unpackF .f32 x) = (2 : ℚ) ^ n) :
    FRat (unpackF .f32 (special .lg2 x).1) = n ∧ (special .lg2 x).2 = 0 := by
  obtain ⟨neg, m, e, hv, hm⟩ := exists_fin_ne_zero hfin (h ▸ zpow_ne_zero n two_ne_zero)
  exact lg2_pow hv hm h

theorem sinpi_cospi_half {n : Int} (h : FRat (unpackF .f32 x) = n + 1 / 2) :
    FRat (unpackF .f32 (special .sinpi x).1) = (if n % 2 = 0 then 1 else -1) ∧ (special .sinpi x).2 = 0 ∧
    special .cospi x = (0, 0) := by
  have h0 : FRat (unpackF .f32 x) ≠ 0 := by
    rw [h]
    intro hz
    have : (2 * n + 1 : ℤ) = (0 : ℚ) := by push_cast; linarith
    have : 2 * n + 1 = 0 := by exact_mod_cast this
    omega
  obtain ⟨neg, m, e, hv, hm⟩ := exists_fin_ne_zero hfin h0
  rw [hv] at h
  obtain ⟨hval, hfl⟩ := sinpi_half hv hm h
  exact ⟨hval, hfl, cospi_half hv hm h⟩

theorem tanh_of_large : (16 ≤ FRat (unpackF .f32 x) → special .tanh x = (0x3F800000, Flags.inexact)) ∧
    (FRat (unpackF .f32 x) ≤ -16 → special .tanh x = (0xBF800000, Flags.inexact)) := by
  constructor
  · intro h
    obtain ⟨neg, m, e, hv, hm⟩ := exists_fin_ne_zero hfin (by intro h0; linarith)
    rw [hv] at h
    rw [tanh_large hv hm (h.trans (le_abs_self _))]
    have hneg : neg = false := by
      rw [← Bool.not_eq_true, ← FRat_neg_iff (e := e) hm]
      intro hlt
      linarith
    rw [hneg]
    rfl
  · intro h
    obtain ⟨neg, m, e, hv, hm⟩ := exists_fin_ne_zero hfin (by intro h0; linarith)
    rw [hv] at h
    have hneg : neg = true := (FRat_neg_iff (e := e) hm).1 (by linarith)
    rw [tanh_large hv hm (by rw [abs_of_neg (by linarith)]; linarith), hneg]
    rfl

end Values

theorem specialFunctionValues : Sys2Proof.Claims.SpecialFunctionValues := by
  refine ⟨fun k x => special_of_nan k, ?_, ?_, ?_, ?_, ?_⟩
  iterate 4
    · intro k r hkr
      fin_cases hkr <;> rfl
  intro x a hfin ha
  subst ha
  exact ⟨special_of_negative hfin, rcp_rounded hfin, roots_rounded hfin, fun n hn => ⟨(ex2_integer hfin hn).1, (ex2_integer hfin hn).2.1,
    (ex2_integer hfin hn).2.2, sinpi_cospi_integer hfin hn⟩, fun n hn => lg2_of_pow hfin hn, fun n hn => sinpi_cospi_half hfin hn,
    (tanh_of_large hfin).1, (tanh_of_large hfin).2, fun h0 hlt => tanh_subnormal hfin (abs_pos.1 h0) hlt⟩

end Sys2Proof.Machine

/-! # Floating-point instructions (R113 to R127) -/

namespace Sys2Proof.Machine

open Sys2Proof Sys2Proof.Claims

/-! ## Instructions of one, two and three sources with flags -/

theorem fgives1 {i : Ctl → Dst → Src → Instr} {pk : Pack} {f : Word → Word × Flags}
    (h : ∀ s c d a, exec (i c d a) s = fop1 s c d a pk f) : FGives1 i pk f := by
  intro s k c m d a x hi hx hd
  refine ⟨lift1 (fun w => (f w).1) x, fun l hl => laneVal_lift1 _ x hl, ?_⟩
  rw [h]
  refine onResult_produces hi hd ?_
  rw [hx]
  rfl

theorem fgives2 {i : Ctl → Dst → Src → Src → Instr} {pk : Pack} {kb : SrcKind} {f : Word → Word → Word × Flags}
    (h : ∀ s c d a b, exec (i c d a b) s = fop2 s c d a b pk kb f) : FGives2 i pk kb f := by
  intro s k c m d a b x y hi hx hy hd
  refine ⟨lift2 (fun v w => (f v w).1) x y, fun l hl => laneVal_lift2 _ x y hl, ?_⟩
  rw [h]
  refine onResult_produces hi hd ?_
  rw [hx, hy]
  rfl

theorem fgives3 {i : Ctl → Dst → Src → Src → Src → Instr} {pk pc : Pack} {f : Word → Word → Word → Word × Flags}
    (h : ∀ s c d a b e, exec (i c d a b e) s = fop3 s c d a b e pk pc f) : FGives3 i pk pc f := by
  intro s k c m d a b e x y z hi hx hy hz hd
  refine ⟨lift3 (fun u v w => (f u v w).1) x y z, fun l hl => laneVal_lift3 _ x y z hl, ?_⟩
  rw [h]
  refine onResult_produces hi hd ?_
  rw [hx, hy, hz]
  rfl

theorem floatArithmetic : Sys2Proof.Claims.FloatArithmetic :=
  ⟨fun _ _ => fgives2 fun _ _ _ _ _ => rfl, fun _ _ => fgives2 fun _ _ _ _ _ => rfl, fun _ _ => fgives2 fun _ _ _ _ _ => rfl,
    fun _ _ => fgives3 fun _ _ _ _ _ _ => rfl, fun _ => fgives2 fun _ _ _ _ _ => rfl, fun _ => fgives2 fun _ _ _ _ _ => rfl,
    fun _ _ => fgives1 fun _ _ _ _ => rfl, fgives1 fun _ _ _ _ => rfl, fun _ _ => fgives2 fun _ _ _ _ _ => rfl,
    fun _ _ => fgives3 fun _ _ _ _ _ _ => rfl⟩

theorem specialFunctions : Sys2Proof.Claims.SpecialFunctions :=
  ⟨fgives1 fun _ _ _ _ => rfl, fgives1 fun _ _ _ _ => rfl, fgives1 fun _ _ _ _ => rfl, fgives1 fun _ _ _ _ => rfl,
    fgives1 fun _ _ _ _ => rfl, fgives1 fun _ _ _ _ => rfl, fgives1 fun _ _ _ _ => rfl, fgives1 fun _ _ _ _ => rfl⟩

/-- Settles O15: the frames come from the rule for results with flags; a rounded result is pinned between the two codes next to the
exact number, and the root functions round alike on a grid finer than the format's. -/
theorem floatInstructions : Obligations.FloatInstructions :=
  ⟨floatArithmetic, specialFunctions, floatResultsAreRounded, specialFunctionValues⟩

end Sys2Proof.Machine

/-! # Codes of format pages decoded (R20, R27, R28) -/

namespace Sys2Proof.Machine

open Sys2Proof Sys2Proof.Claims

/-! ## The scale of a block -/

theorem scaleDy_of_positive {s : BitVec 16} (hfin : FFin (unpackF .bf16 s.toNat)) (hpos : 0 < FRat (unpackF .bf16 s.toNat)) :
    ∃ k, scaleDy s = some k ∧ k.val = FRat (unpackF .bf16 s.toNat) := by
  obtain ⟨neg, m, e, hv, hm⟩ := exists_fin_ne_zero hfin hpos.ne'
  rw [hv] at hpos
  have hneg : neg = false := by
    rw [← Bool.not_eq_true, ← FRat_neg_iff (e := e) hm]
    exact hpos.not_gt
  subst hneg
  refine ⟨{ m := m, e := e }, by simp only [scaleDy, hv, if_neg hm], ?_⟩
  rw [hv, FRat_eq_val_dy]
  rfl

theorem scaleDy_of_not_positive {s : BitVec 16} (h : ¬(FFin (unpackF .bf16 s.toNat) ∧ 0 < FRat (unpackF .bf16 s.toNat))) :
    scaleDy s = none := by
  unfold scaleDy
  split
  next m e hv =>
    refine if_pos (Decidable.not_not.1 fun hm => h ?_)
    rw [hv]
    exact ⟨⟨rfl, fun _ hi => nomatch hi⟩, by
      rw [FRat_fin]
      exact mul_pos one_pos (mul_pos (by exact_mod_cast Nat.pos_of_ne_zero hm) (zpow_pos two_pos e))⟩
  next => rfl

/-! ## The point of a code -/

/-- The point of a code in eighths of its place. -/
def pointEighths (neg : Bool) (m : Nat) (d : Int) : Int := (if neg then -8 * (m : Int) else 8 * m) - d

theorem present_of_fin {f c : Nat} {neg : Bool} {m : Nat} {e : Int} (d : Int) (hf : isFp8 f = true)
    (h : unpackF (fp8Of f) c = .fin neg m e) :
    present f c d = .fin (if pointEighths neg m d = 0 then neg else decide (pointEighths neg m d < 0)) (pointEighths neg m d).natAbs (e - 3) := by
  simp only [present, if_pos hf, h]
  rfl

theorem present_of_int {f : Nat} (c : Nat) (d : Int) (hf : isFp8 f = false) :
    present f c d = .fin (decide (8 * intOfCode f c - d < 0)) (8 * intOfCode f c - d).natAbs (-3) := by
  simp only [present, hf]
  rfl

/-- A signed magnitude is its number. -/
theorem FRat_signed {n : Int} {neg : Bool} (h : n ≠ 0 → neg = decide (n < 0)) (e : Int) :
    FRat (.fin neg n.natAbs e) = n * (2 : ℚ) ^ e := by
  rw [FRat_fin, ← mul_assoc]
  congr 1
  by_cases h0 : n = 0
  · simp [h0]
  · have habs : (n.natAbs : ℚ) = |(n : ℚ)| := by rw [Nat.cast_natAbs, Int.cast_abs]
    rw [h h0, habs, signQ]
    by_cases hn : n < 0
    · have : (n : ℚ) < 0 := by exact_mod_cast hn
      simp [hn, abs_of_neg this]
    · have : (0 : ℚ) ≤ n := by exact_mod_cast not_lt.1 hn
      simp [hn, abs_of_nonneg this]

theorem zpow_sub_three (e : Int) : (2 : ℚ) ^ (e - 3) = (2 : ℚ) ^ e / 8 := by
  rw [zpow_sub₀ two_ne_zero]
  norm_num

theorem gridPoint_of_fin {f c : Nat} {neg : Bool} {m : Nat} {e : Int} (d : Int) (hf : isFp8 f = true)
    (h : unpackF (fp8Of f) c = .fin neg m e) : gridPoint f c d = pointEighths neg m d * (2 : ℚ) ^ (e - 3) := by
  simp only [gridPoint, if_pos hf, h, pointEighths, zpow_sub_three]
  split <;> push_cast <;> ring

theorem gridPoint_of_int {f : Nat} (c : Nat) (d : Int) (hf : isFp8 f = false) :
    gridPoint f c d = (8 * intOfCode f c - d : ℤ) * (2 : ℚ) ^ (-3 : ℤ) := by
  simp only [gridPoint, hf]
  norm_num
  ring

/-- What a code presents is its point. -/
theorem FRat_present (f c : Nat) (d : Int) : FRat (present f c d) = gridPoint f c d := by
  cases hf : isFp8 f with
  | false =>
    rw [present_of_int c d hf, gridPoint_of_int c d hf]
    exact FRat_signed (fun _ => rfl) _
  | true =>
    cases hv : unpackF (fp8Of f) c with
    | nan sg => simp only [present, gridPoint, if_pos hf, hv]; rfl
    | inf b => simp only [present, gridPoint, if_pos hf, hv]; rfl
    | fin neg m e =>
      rw [present_of_fin d hf hv, gridPoint_of_fin d hf hv]
      exact FRat_signed (fun h => if_neg h) _

theorem pointEighths_eq_zero {neg : Bool} {m : Nat} {d : Int} (h1 : -3 ≤ d) (h2 : d ≤ 3) (h : pointEighths neg m d = 0) : m = 0 ∧ d = 0 := by
  unfold pointEighths at h
  split at h <;> omega

/-! ## Decode -/

theorem codeAt_of_fp8 {f : Nat} (b : Byte) (sub : Nat) (hf : isFp8 f = true) : codeAt f b sub = b.toNat := by
  have h6 : f ≠ 6 := by rintro rfl; cases hf
  have h7 : f ≠ 7 := by rintro rfl; cases hf
  rw [codeAt, if_neg h6, if_neg h7]

theorem roundDy_lt (rm : RMode) (zneg : Bool) (x : Dy) : (roundDy .f32 rm zneg x).1 < 2 ^ 32 := by
  have hsign (b : Bool) : Fmt.sign .f32 b ≤ 2 ^ 31 := by cases b <;> decide
  by_cases h0 : x.val = 0
  · rw [roundDy_of_zero rm zneg h0]
    exact (hsign zneg).trans_lt (by decide)
  · obtain ⟨c, k, tiny, -, -, -, -, -, -, hr⟩ := roundDy_roundsTo (f := .f32) rm zneg (by decide) h0
    have htop : Fmt.f32.top = 255 * 2 ^ 23 := rfl
    have hmax : Fmt.f32.maxFin = 255 * 2 ^ 23 - 1 := rfl
    have hs := hsign (decide (x.val < 0))
    rw [hr, roundedAs]
    split
    next =>
      dsimp only
      split
      next => cases decide (x.val < 0) <;> decide
      next => rw [hmax]; omega
    next hk =>
      rw [htop] at hk
      dsimp only
      omega

theorem fields_of_zero {f : Fmt} {c : Nat} {neg : Bool} {e : Int} (h : unpackF f c = .fin neg 0 e) :
    (neg = true ↔ c / 2 ^ (f.eb + f.mb) % 2 = 1) ∧ c % 2 ^ f.mb = 0 ∧ c / 2 ^ f.mb % 2 ^ f.eb = 0 := by
  have hpos := Nat.two_pow_pos f.mb
  unfold unpackF at h
  dsimp only at h
  split at h
  next => cases h
  next =>
    split at h
    next => split at h <;> cases h
    next =>
      split at h
      next hexp =>
        obtain ⟨rfl, hfrac, -⟩ := FVal.fin.inj h
        exact ⟨decide_eq_true_iff, hfrac, hexp⟩
      next =>
        obtain ⟨-, hfrac, -⟩ := FVal.fin.inj h
        omega

/-- The only code of a zero with the sign bit. -/
theorem negative_zero {f c : Nat} {neg : Bool} {e : Int} (hc : c < 256) (h : unpackF (fp8Of f) c = .fin neg 0 e) :
    neg = true ↔ c = 0x80 := by
  have hg : fp8Of f = .e4m3f ∨ fp8Of f = .e5m2 := by
    unfold fp8Of
    split
    · exact Or.inl rfl
    · exact Or.inr rfl
  obtain ⟨hneg, hfrac, hexp⟩ := fields_of_zero h
  rw [hneg]
  rcases hg with hg | hg <;>
  · rw [hg] at hfrac hexp ⊢
    simp only [Fmt.e4m3f, Fmt.e5m2, Nat.reduceAdd, Nat.reducePow] at hfrac hexp ⊢
    omega

section Decode

variable {f : Nat} {b : Byte} {sub : Nat} {d : Int} {s : BitVec 16} {k : Dy}

theorem decodeElem_reserved (h : reservedTern f b = true) : decodeElem f b sub d s = (0x7FC00000, Flags.corrupt) := if_pos h

theorem decodeElem_no_scale (h : reservedTern f b = false) (hs : scaleDy s = none) :
    decodeElem f b sub d s = (0x7FC00000, Flags.invalidScale) := by
  simp only [decodeElem, h, hs]
  rfl

variable (h : reservedTern f b = false) (hs : scaleDy s = some k)

include h hs

theorem decodeElem_nan {sg : Bool} (hp : present f (codeAt f b sub) d = .nan sg) : decodeElem f b sub d s = (0x7FC00000, 0) := by
  simp only [decodeElem, h, hs, hp]
  rfl

theorem decodeElem_inf {n : Bool} (hp : present f (codeAt f b sub) d = .inf n) :
    decodeElem f b sub d s = (if n then 0xFF800000 else 0x7F800000, 0) := by
  simp only [decodeElem, h, hs, hp]
  cases n <;> rfl

theorem decodeElem_fin {neg : Bool} {m : Nat} {e : Int} (hp : present f (codeAt f b sub) d = .fin neg m e) :
    decodeElem f b sub d s = (BitVec.ofNat 32 (roundDy .f32 .rn neg ((FVal.fin neg m e).dy.mul k)).1,
      (roundDy .f32 .rn neg ((FVal.fin neg m e).dy.mul k)).2) := by
  simp only [decodeElem, h, hs, hp]
  rfl

/-- Decode of a number: zero, or rounded once. -/
theorem decodeElem_number {neg : Bool} {m : Nat} {e : Int} (hp : present f (codeAt f b sub) d = .fin neg m e) {v : ℚ}
    (hv : v = gridPoint f (codeAt f b sub) d * k.val) :
    (v = 0 → decodeElem f b sub d s = (if neg then 0x80000000 else 0, 0)) ∧
    (v ≠ 0 → Rounded .f32 .rn (v < 0) (v : ℝ) ((decodeElem f b sub d s).1.toNat, (decodeElem f b sub d s).2)) := by
  have hval : ((FVal.fin neg m e).dy.mul k).val = v := by
    rw [Dy.val_mul, ← FRat_eq_val_dy, ← hp, FRat_present, hv]
  rw [decodeElem_fin h hs hp]
  refine ⟨fun h0 => ?_, fun h0 => ?_⟩
  · rw [roundDy_of_zero .rn neg (hval.trans h0)]
    cases neg <;> rfl
  · rw [BitVec.toNat_ofNat, Nat.mod_eq_of_lt (roundDy_lt ..)]
    have := rounded_roundDy f32_mem .rn neg (x := (FVal.fin neg m e).dy.mul k) (by rw [hval]; exact h0)
    rwa [hval] at this

end Decode

theorem decodeOfDitheredCodes : Sys2Proof.Claims.DecodeOfDitheredCodes := by
  intro f hf b sub d s v hlow hhigh c k r hv
  refine ⟨decodeElem_reserved, fun h hbad => decodeElem_no_scale h (scaleDy_of_not_positive hbad), fun h hfin hpos => ?_⟩
  obtain ⟨kd, hs, hk⟩ := scaleDy_of_positive hfin hpos
  have hv' : v = gridPoint f (codeAt f b sub) d * kd.val := hv.trans (congrArg _ hk.symm)
  have gridPoint_zero (h0 : v = 0) : gridPoint f c d = 0 := (mul_eq_zero.1 (hv.symm.trans h0)).resolve_right hpos.ne'
  have hnonzero (hg : gridPoint f c d ≠ 0) : v ≠ 0 := by rw [hv]; exact mul_ne_zero hg hpos.ne'
  refine ⟨fun hfp hnan => ?_, fun hfp n hinf => ?_, fun hnum => ?_⟩
  · have hp : present f c d = unpackF (fp8Of f) c := by
      cases hu : unpackF (fp8Of f) c with
      | nan sg => simp only [present, if_pos hfp, hu]
      | inf n => rw [hu] at hnan; cases hnan
      | fin neg m e => rw [hu] at hnan; cases hnan
    cases hu : unpackF (fp8Of f) c with
    | nan sg => exact decodeElem_nan h hs (hp.trans hu)
    | inf n => rw [hu] at hnan; cases hnan
    | fin neg m e => rw [hu] at hnan; cases hnan
  · exact decodeElem_inf h hs (by simp only [present, if_pos hfp, ← hinf]; rw [hinf])
  · cases hfp : isFp8 f with
    | false =>
      obtain ⟨hzero, hround⟩ := decodeElem_number h hs (present_of_int c d hfp) hv'
      have hint (hg : gridPoint f c d = 0) : 8 * intOfCode f c - d = 0 := by
        rw [gridPoint_of_int c d hfp, mul_eq_zero, or_iff_left (zpow_ne_zero _ two_ne_zero)] at hg
        exact_mod_cast hg
      refine ⟨fun h0 => ?_, hround, fun hd => hnonzero fun hg => hd ?_⟩
      · have := hint (gridPoint_zero h0)
        refine (hzero h0).trans ?_
        rw [this]
        rfl
      · have := hint hg
        omega
    | true =>
      obtain ⟨neg, m, e, hu⟩ := exists_fin (hnum hfp)
      obtain ⟨hzero, hround⟩ := decodeElem_number h hs (present_of_fin d hfp hu) hv'
      have hint (hg : gridPoint f c d = 0) : pointEighths neg m d = 0 := by
        rw [gridPoint_of_fin d hfp hu, mul_eq_zero, or_iff_left (zpow_ne_zero _ two_ne_zero)] at hg
        exact_mod_cast hg
      refine ⟨fun h0 => ?_, hround, fun hd => hnonzero fun hg => hd (pointEighths_eq_zero hlow hhigh (hint hg)).2⟩
      have hn := hint (gridPoint_zero h0)
      obtain ⟨rfl, -⟩ := pointEighths_eq_zero hlow hhigh hn
      have hcode : c < 256 := by
        have hc : c = b.toNat := codeAt_of_fp8 b sub hfp
        rw [hc]
        exact b.isLt
      refine (hzero h0).trans ?_
      rw [if_pos hn, if_congr (negative_zero hcode hu) rfl rfl, if_congr (and_iff_right rfl) rfl rfl]

/-- Settles O21: results arrive through the writes of their registers, and a decoded code is its dithered point times the scale,
rounded once. -/
theorem resultsArriveWithTheirValues : Obligations.ResultsArriveWithTheirValues :=
  ⟨resultsArrive, loadedValues, ditherIsTheTables, decodeOfDitheredCodes⟩

end Sys2Proof.Machine

/-! # The grid of codes in its order (R20, R29, R30) -/

namespace Sys2Proof.Machine

open Sys2Proof Sys2Proof.Claims

/-! ## Codes on the grid -/

/-- The place of a code of the grid in the order of its points: 0 is the code 0. -/
def gridIdx (f c : Nat) : Int := if isFp8 f then (if c < 128 then (c : Int) else 128 - c) else intOfCode f c

/-- The place of the outermost point. -/
def gridTop (f : Nat) : Int := if f = 3 then 126 else if f = 4 then 123 else if f = 5 then 127 else if f = 6 then 7 else 1

/-- The code at a place of the grid. -/
def gridCode (f : Nat) (i : Int) : Nat :=
  if 0 ≤ i then i.toNat
  else if isFp8 f then 128 + (-i).toNat else if f = 5 then 256 - (-i).toNat else if f = 6 then 16 - (-i).toNat else 3 - (-i).toNat

theorem fp8Of_mem (f : Nat) : fp8Of f ∈ [Fmt.f32, .bf16, .f16, .e4m3f, .e5m2] := by
  unfold fp8Of
  split <;> simp

/-- The formats whose codes are FP8. -/
theorem isFp8_iff {f : Nat} : isFp8 f = true ↔ f = 3 ∨ f = 4 := by simp [isFp8]

theorem ffin_iff {v : FVal} : FFin v ↔ (match v with | .fin _ _ _ => true | _ => false) = true := by
  cases v with
  | nan sg => exact iff_of_false (fun h => by cases h.1) Bool.false_ne_true
  | inf n => exact iff_of_false (fun h => h.2 n rfl) Bool.false_ne_true
  | fin neg m e => exact iff_of_true ⟨rfl, fun _ h => nomatch h⟩ rfl

/-- What the grid holds. -/
theorem mem_gridCodes {f : Nat} (c : Nat) :
    c ∈ gridCodes f ↔ if f = 5 then c < 256 ∧ c ≠ 128 else if f = 6 then c < 16 ∧ c ≠ 8 else if f = 7 then c < 3
      else c < 256 ∧ c ≠ 128 ∧ FFin (unpackF (fp8Of f) c) := by
  unfold gridCodes
  split
  next => simp
  next =>
    split
    next => simp
    next =>
      split
      next => simp; omega
      next =>
        rw [List.mem_filter, List.mem_range, Bool.and_eq_true, bne_iff_ne]
        exact and_congr_right fun _ => and_congr_right fun _ => ffin_iff.symm

/-- Which codes are numbers. -/
theorem ffin_unpackF (f : Fmt) (c : Nat) : FFin (unpackF f c) ↔
    ¬(f.e4m3 && c / 2 ^ f.mb % 2 ^ f.eb = 15 && c % 2 ^ f.mb = 7) = true ∧ ¬(!f.e4m3 && c / 2 ^ f.mb % 2 ^ f.eb = 2 ^ f.eb - 1) = true := by
  rw [ffin_iff]
  unfold unpackF
  dsimp only
  by_cases h1 : (f.e4m3 && c / 2 ^ f.mb % 2 ^ f.eb = 15 && c % 2 ^ f.mb = 7) = true
  · rw [if_pos h1]
    exact iff_of_false Bool.false_ne_true fun h => h.1 h1
  · rw [if_neg h1]
    by_cases h2 : (!f.e4m3 && c / 2 ^ f.mb % 2 ^ f.eb = 2 ^ f.eb - 1) = true
    · rw [if_pos h2]
      refine iff_of_false ?_ fun h => h.2 h2
      by_cases h3 : c % 2 ^ f.mb = 0
      · rw [if_pos h3]; exact Bool.false_ne_true
      · rw [if_neg h3]; exact Bool.false_ne_true
    · rw [if_neg h2]
      refine iff_of_true ?_ ⟨h1, h2⟩
      by_cases h3 : c / 2 ^ f.mb % 2 ^ f.eb = 0
      · rw [if_pos h3]
      · rw [if_neg h3]

/-- Which codes of a byte are numbers. -/
theorem ffin_fp8 {f c : Nat} (hf : f = 3 ∨ f = 4) : FFin (unpackF (fp8Of f) c) ↔ (c % 128 : Int) ≤ gridTop f := by
  rw [ffin_unpackF]
  simp only [Bool.and_eq_true, decide_eq_true_eq]
  rcases hf with rfl | rfl
  · simp [fp8Of, Fmt.e4m3f, gridTop]
    omega
  · simp [fp8Of, Fmt.e5m2, gridTop]
    omega

theorem mem_gridCodes_fp8 {f c : Nat} (hf : f = 3 ∨ f = 4) :
    c ∈ gridCodes f ↔ c < 256 ∧ c ≠ 128 ∧ (c % 128 : Int) ≤ gridTop f := by
  rw [mem_gridCodes, if_neg (by omega), if_neg (by omega), if_neg (by omega), ffin_fp8 hf]

section Places

variable {f : Nat} (hf : f ∈ [3, 4, 5, 6, 7])

include hf

/-- The formats, with what their codes are. -/
theorem format_cases : (isFp8 f = true ∧ (f = 3 ∨ f = 4)) ∨ f = 5 ∨ f = 6 ∨ f = 7 := by
  simp only [List.mem_cons, List.not_mem_nil, or_false] at hf
  rcases hf with rfl | rfl | rfl | rfl | rfl <;> simp [isFp8]

/-- Codes of the grid lie at the places from −top to top. -/
theorem gridIdx_range {c : Nat} (hc : c ∈ gridCodes f) : -gridTop f ≤ gridIdx f c ∧ gridIdx f c ≤ gridTop f := by
  rcases format_cases hf with ⟨hfp, h⟩ | rfl | rfl | rfl
  · obtain ⟨h1, h2, h3⟩ := (mem_gridCodes_fp8 h).1 hc
    rw [gridIdx, if_pos hfp]
    split <;> omega
  · obtain ⟨h1, h2⟩ := (mem_gridCodes c).1 hc
    change -127 ≤ sextN 8 c ∧ sextN 8 c ≤ 127
    simp only [sextN, Nat.reducePow, Nat.reduceSub]
    split <;> omega
  · obtain ⟨h1, h2⟩ := (mem_gridCodes c).1 hc
    change -7 ≤ sextN 4 c ∧ sextN 4 c ≤ 7
    simp only [sextN, Nat.reducePow, Nat.reduceSub]
    split <;> omega
  · change -1 ≤ (if c = 1 then (1 : Int) else if c = 2 then -1 else 0) ∧ (if c = 1 then (1 : Int) else if c = 2 then -1 else 0) ≤ 1
    split
    · omega
    · split <;> omega

/-- Every place from −top to top has a code of the grid. -/
theorem gridCode_spec {i : Int} (h1 : -gridTop f ≤ i) (h2 : i ≤ gridTop f) : gridCode f i ∈ gridCodes f ∧ gridIdx f (gridCode f i) = i := by
  rcases lt_or_ge i 0 with hi | hi
  · obtain ⟨n, rfl⟩ : ∃ n : Nat, i = -(n : Int) := ⟨(-i).toNat, by omega⟩
    rw [gridCode, if_neg (not_le.2 hi), neg_neg, Int.toNat_natCast]
    rcases format_cases hf with ⟨hfp, h⟩ | rfl | rfl | rfl
    · have htop : gridTop f ≤ 126 := by rcases h with rfl | rfl <;> decide
      rw [if_pos hfp, mem_gridCodes_fp8 h, gridIdx, if_pos hfp, if_neg (by omega)]
      omega
    · have hn : n ≤ 127 := Int.ofNat_le.1 (neg_le_neg_iff.1 h1)
      rw [mem_gridCodes]
      change (256 - n < 256 ∧ 256 - n ≠ 128) ∧ sextN 8 (256 - n) = -(n : Int)
      rw [sextN, Nat.mod_eq_of_lt (by omega), if_neg (by omega)]
      omega
    · have hn : n ≤ 7 := Int.ofNat_le.1 (neg_le_neg_iff.1 h1)
      rw [mem_gridCodes]
      change (16 - n < 16 ∧ 16 - n ≠ 8) ∧ sextN 4 (16 - n) = -(n : Int)
      rw [sextN, Nat.mod_eq_of_lt (by omega), if_neg (by omega)]
      omega
    · obtain rfl : n = 1 := by
        have : n ≤ 1 := Int.ofNat_le.1 (neg_le_neg_iff.1 h1)
        omega
      exact ⟨(mem_gridCodes _).2 (show 2 < 3 by decide), rfl⟩
  · obtain ⟨n, rfl⟩ := Int.eq_ofNat_of_zero_le hi
    rw [gridCode, if_pos hi, Int.toNat_natCast]
    rcases format_cases hf with ⟨hfp, h⟩ | rfl | rfl | rfl
    · have htop : gridTop f ≤ 126 := by rcases h with rfl | rfl <;> decide
      rw [mem_gridCodes_fp8 h, gridIdx, if_pos hfp, if_pos (by omega)]
      omega
    · have hn : n ≤ 127 := Int.ofNat_le.1 h2
      rw [mem_gridCodes]
      change (n < 256 ∧ n ≠ 128) ∧ sextN 8 n = n
      rw [sextN, Nat.mod_eq_of_lt (by omega), if_pos (by omega)]
      omega
    · have hn : n ≤ 7 := Int.ofNat_le.1 h2
      rw [mem_gridCodes]
      change (n < 16 ∧ n ≠ 8) ∧ sextN 4 n = n
      rw [sextN, Nat.mod_eq_of_lt (by omega), if_pos (by omega)]
      omega
    · have hn : n ≤ 1 := Int.ofNat_le.1 h2
      rw [mem_gridCodes]
      change n < 3 ∧ intOfCode 7 n = n
      interval_cases n <;> exact ⟨by decide, rfl⟩

theorem outerCode_spec (n : Bool) : outerCode f n ∈ gridCodes f ∧ gridIdx f (outerCode f n) = if n then -gridTop f else gridTop f := by
  rcases format_cases hf with ⟨-, h⟩ | rfl | rfl | rfl
  · rw [mem_gridCodes_fp8 h]
    rcases h with rfl | rfl <;> cases n <;> decide
  · exact ⟨(mem_gridCodes _).2 (by cases n <;> exact ⟨by decide, by decide⟩), by cases n <;> rfl⟩
  · exact ⟨(mem_gridCodes _).2 (by cases n <;> exact ⟨by decide, by decide⟩), by cases n <;> rfl⟩
  · exact ⟨(mem_gridCodes _).2 (by cases n <;> exact show _ < 3 by decide), by cases n <;> rfl⟩

omit hf in
/-- A tie goes to a code at an even place. -/
theorem evenCode_iff {c : Nat} : evenCode f c = true ↔ gridIdx f c % 2 = 0 := by
  cases hfp : isFp8 f with
  | true =>
    rw [evenCode, gridIdx, if_pos hfp, if_pos hfp, decide_eq_true_eq]
    split <;> omega
  | false =>
    rw [evenCode, gridIdx, hfp]
    exact decide_eq_true_iff

end Places

/-! ## Points in their order -/

/-- The point at a place of the grid. -/
def placePoint (f : Nat) (d i : Int) : ℚ :=
  if isFp8 f then (if i < 0 then -1 else 1) * (fp8Of f).mag i.natAbs - (d : ℚ) / 8 * (2 : ℚ) ^ (fp8Of f).ulpExp i.natAbs
  else i - (d : ℚ) / 8

theorem fp8_top {f : Nat} (hf : f = 3 ∨ f = 4) : (((fp8Of f).top : ℕ) : Int) = gridTop f + 1 := by
  rcases hf with rfl | rfl <;> decide

theorem fp8_sign {f : Nat} (hf : f = 3 ∨ f = 4) (neg : Bool) : (fp8Of f).sign neg = if neg then 128 else 0 := by
  rcases hf with rfl | rfl <;> cases neg <;> decide

theorem gridPoint_eq {f : Nat} {c : Nat} (hc : c ∈ gridCodes f) (d : Int) :
    gridPoint f c d = placePoint f d (gridIdx f c) := by
  cases hfp : isFp8 f with
  | false => simp only [gridPoint, placePoint, gridIdx, hfp]; rfl
  | true =>
    have h := isFp8_iff.1 hfp
    obtain ⟨h1, h2, h3⟩ := (mem_gridCodes_fp8 h).1 hc
    obtain ⟨neg, k, hk, hcode, hidx⟩ : ∃ (neg : Bool) (k : Nat), (k : Int) ≤ gridTop f ∧ c = (if neg then 128 else 0) + k ∧
        gridIdx f c = (if neg then -(k : Int) else k) ∧ (neg = true → 0 < k) := by
      rw [gridIdx, if_pos hfp]
      rcases lt_or_ge c 128 with hlt | hge
      · rw [Int.emod_eq_of_lt (by omega) (by omega)] at h3
        exact ⟨false, c, h3, (zero_add c).symm, by rw [if_pos hlt]; rfl, fun hn => by cases hn⟩
      · obtain ⟨k, rfl⟩ := Nat.exists_eq_add_of_le hge
        exact ⟨true, k, by omega, rfl, by rw [if_neg (not_lt.2 hge), if_pos rfl]; push_cast; ring, fun _ => by omega⟩
    obtain ⟨hidx, hpos⟩ := hidx
    have htop : k < (fp8Of f).top := by
      have := fp8_top h
      omega
    have hu := unpackF_sign_add (fp8Of_mem f) neg htop
    rw [fp8_sign h, ← hcode] at hu
    have habs : (gridIdx f c).natAbs = k := by
      rw [hidx]
      cases neg with
      | true => exact Int.natAbs_neg k
      | false => rfl
    have hneg : gridIdx f c < 0 ↔ neg = true := by
      rw [hidx]
      cases neg with
      | true => exact iff_of_true (neg_neg_of_pos (by exact_mod_cast hpos rfl)) rfl
      | false => exact iff_of_false (not_lt.2 (Int.natCast_nonneg k)) Bool.false_ne_true
    rw [placePoint, if_pos hfp, habs, if_congr hneg rfl rfl, Fmt.mag]
    simp only [gridPoint, if_pos hfp, hu, mul_assoc]

/-- The last place of the next code is the same or twice as large. -/
theorem ulp_succ (f : Fmt) (c : Nat) :
    (2 : ℚ) ^ f.ulpExp (c + 1) = (2 : ℚ) ^ f.ulpExp c ∨ (2 : ℚ) ^ f.ulpExp (c + 1) = 2 * (2 : ℚ) ^ f.ulpExp c := by
  have hdiv : (c + 1) / 2 ^ f.mb = c / 2 ^ f.mb ∨ (c + 1) / 2 ^ f.mb = c / 2 ^ f.mb + 1 := by
    rw [Nat.succ_div]
    split
    · exact Or.inr rfl
    · exact Or.inl rfl
  have hexp : f.ulpExp (c + 1) = f.ulpExp c ∨ f.ulpExp (c + 1) = 1 + f.ulpExp c := by
    unfold Fmt.ulpExp
    rcases hdiv with h | h
    · exact Or.inl (by rw [h])
    · rw [h, max_eq_left (Nat.le_add_left 1 _)]
      rcases Nat.eq_zero_or_pos (c / 2 ^ f.mb) with h0 | h0
      · exact Or.inl (by rw [h0]; rfl)
      · refine Or.inr ?_
        rw [max_eq_left h0]
        push_cast
        ring
  rcases hexp with h | h
  · exact Or.inl (by rw [h])
  · exact Or.inr (by rw [h, zpow_add₀ two_ne_zero, zpow_one])

/-- A dither is at most three eighths of its place. -/
theorem dither_bounds {d : ℚ} (h1 : -3 ≤ d) (h2 : d ≤ 3) (u : Int) :
    0 < (2 : ℚ) ^ u ∧ -3 / 8 * (2 : ℚ) ^ u ≤ d / 8 * (2 : ℚ) ^ u ∧ d / 8 * (2 : ℚ) ^ u ≤ 3 / 8 * (2 : ℚ) ^ u := by
  have hpos := zpow_pos (two_pos (α := ℚ)) u
  exact ⟨hpos, mul_le_mul_of_nonneg_right (by linarith) hpos.le, mul_le_mul_of_nonneg_right (by linarith) hpos.le⟩

section Order

variable {f : Nat} {d : Int} (h1 : -3 ≤ d) (h2 : d ≤ 3)

include h1 h2

theorem placePoint_lt_succ (i : Int) : placePoint f d i < placePoint f d (i + 1) := by
  have hd1 : (-3 : ℚ) ≤ d := by exact_mod_cast h1
  have hd2 : (d : ℚ) ≤ 3 := by exact_mod_cast h2
  unfold placePoint
  split
  next =>
    obtain ⟨g, hg⟩ : ∃ g, g = fp8Of f := ⟨_, rfl⟩
    rw [← hg]
    rcases lt_or_ge i 0 with hi | hi
    · obtain ⟨j, rfl⟩ : ∃ j : Nat, i = -((j : Int) + 1) := ⟨(-i - 1).toNat, by omega⟩
      have ha : (-((j : Int) + 1)).natAbs = j + 1 := by omega
      have hb : (-((j : Int) + 1) + 1).natAbs = j := by omega
      have hs : (if -((j : Int) + 1) + 1 < 0 then (-1 : ℚ) else 1) * g.mag j = -g.mag j := by
        rcases Nat.eq_zero_or_pos j with rfl | hj
        · rw [g.mag_zero]; simp
        · rw [if_pos (by omega), neg_one_mul]
      rw [ha, hb, if_pos hi, hs, g.mag_succ]
      obtain ⟨hU, hlow, hhigh⟩ := dither_bounds hd1 hd2 (g.ulpExp j)
      rcases ulp_succ g j with h | h <;> rw [h] <;> linarith
    · obtain ⟨j, rfl⟩ : ∃ j : Nat, i = j := ⟨i.toNat, by omega⟩
      have ha : (j : Int).natAbs = j := by omega
      have hb : ((j : Int) + 1).natAbs = j + 1 := by omega
      rw [ha, hb, if_neg (by omega), if_neg (by omega), g.mag_succ]
      obtain ⟨hU, hlow, hhigh⟩ := dither_bounds hd1 hd2 (g.ulpExp j)
      rcases ulp_succ g j with h | h <;> rw [h] <;> linarith
  next =>
    push_cast
    linarith

theorem placePoint_strictMono : StrictMono (placePoint f d) := strictMono_int_of_lt_succ (placePoint_lt_succ h1 h2)

variable (hf : f ∈ [3, 4, 5, 6, 7])

include hf

/-- The outermost points bound the others. -/
theorem outer_bounds (n : Bool) {c : Nat} (hc : c ∈ gridCodes f) :
    if n then gridPoint f (outerCode f n) d ≤ gridPoint f c d else gridPoint f c d ≤ gridPoint f (outerCode f n) d := by
  obtain ⟨hout, hidx⟩ := outerCode_spec hf n
  obtain ⟨hlow, hhigh⟩ := gridIdx_range hf hc
  rw [gridPoint_eq hout, gridPoint_eq hc, hidx]
  cases n with
  | true => exact (placePoint_strictMono h1 h2).monotone hlow
  | false => exact (placePoint_strictMono h1 h2).monotone hhigh

/-- Between two odd codes lies an even one. -/
theorem exists_between_odd {a b : Nat} (ha : a ∈ gridCodes f) (hb : b ∈ gridCodes f) (hodd : evenCode f a = false)
    (hodd' : evenCode f b = false) (hlt : gridPoint f a d < gridPoint f b d) :
    ∃ c ∈ gridCodes f, gridPoint f a d < gridPoint f c d ∧ gridPoint f c d < gridPoint f b d := by
  have hmono := placePoint_strictMono (f := f) h1 h2
  have hoddIdx {c : Nat} (h : evenCode f c = false) : ¬gridIdx f c % 2 = 0 := by
    rw [← evenCode_iff, h]
    exact Bool.false_ne_true
  have hia := hoddIdx hodd
  have hib := hoddIdx hodd'
  rw [gridPoint_eq ha, gridPoint_eq hb] at hlt
  have hidx := hmono.lt_iff_lt.1 hlt
  have hra := gridIdx_range hf ha
  have hrb := gridIdx_range hf hb
  obtain ⟨hmem, hi⟩ := gridCode_spec hf (i := gridIdx f a + 1) (by omega) (by omega)
  refine ⟨_, hmem, ?_, ?_⟩
  · rw [gridPoint_eq ha, gridPoint_eq hmem, hi]
    exact hmono (by omega)
  · rw [gridPoint_eq hb, gridPoint_eq hmem, hi]
    exact hmono (by omega)

end Order

end Sys2Proof.Machine

/-! # Values quantised to the nearest point of the grid (R29 to R31) -/

namespace Sys2Proof.Machine

open Sys2Proof Sys2Proof.Claims

/-! ## The nearest code -/

/-- The distance of a value from a code's point at a scale. -/
def gridDist (f : Nat) (d : Int) (k x : Dy) (c : Nat) : ℚ := |x.val - gridPoint f c d * k.val|

theorem val_dist (f : Nat) (d : Int) (k x : Dy) (c : Nat) :
    ((x.sub (((present f c d).dy).mul k)).abs).val = gridDist f d k x c := by
  rw [Dy.val_abs, Dy.val_sub, Dy.val_mul, ← FRat_eq_val_dy, FRat_present, gridDist]

/-- r is nearest among some codes, and even where an even one is as near. -/
def IsNearest (D : Nat → ℚ) (even : Nat → Bool) (P : Nat → Prop) (r : Nat) : Prop :=
  P r ∧ ∀ c, P c → D r ≤ D c ∧ (D c = D r → even c = true → even r = true)

/-- One code more. -/
theorem isNearest_or {D : Nat → ℚ} {even : Nat → Bool} {P : Nat → Prop} {r c : Nat} (h : IsNearest D even P r) :
    IsNearest D even (fun j => P j ∨ j = c) (if D c < D r ∨ (D c = D r ∧ even c = true) then c else r) := by
  obtain ⟨hr, hmin⟩ := h
  split
  next hc =>
    have hle : D c ≤ D r := hc.elim le_of_lt fun h => h.1.le
    refine ⟨Or.inr rfl, ?_⟩
    rintro j (hj | rfl)
    · obtain ⟨h1, h2⟩ := hmin j hj
      refine ⟨hle.trans h1, fun heq hj' => ?_⟩
      rcases hc with hlt | ⟨-, heven⟩
      · exact absurd h1 (not_le.2 (heq ▸ hlt))
      · exact heven
    · exact ⟨le_refl _, fun _ he => he⟩
  next hc =>
    obtain ⟨h1, h2⟩ := not_or.1 hc
    refine ⟨Or.inl hr, ?_⟩
    rintro j (hj | rfl)
    · exact hmin j hj
    · exact ⟨not_lt.1 h1, fun heq he => absurd ⟨heq, he⟩ h2⟩

theorem nearest_spec {f : Nat} {d : Int} {k x : Dy} (l : List Nat) {b : Dy × Nat} {P : Nat → Prop}
    (hb : b.1.val = gridDist f d k x b.2) (h : IsNearest (gridDist f d k x) (evenCode f) P b.2) :
    IsNearest (gridDist f d k x) (evenCode f) (fun c => P c ∨ c ∈ l) (nearest f d k x l b) := by
  induction l generalizing b P with
  | nil =>
    rw [nearest]
    simpa only [List.not_mem_nil, or_false] using h
  | cons c l ih =>
    have hcond : (((x.sub (((present f c d).dy).mul k)).abs).lt b.1 ||
        (((x.sub (((present f c d).dy).mul k)).abs).eq b.1 && evenCode f c)) = true ↔
        gridDist f d k x c < gridDist f d k x b.2 ∨ (gridDist f d k x c = gridDist f d k x b.2 ∧ evenCode f c = true) := by
      rw [Bool.or_eq_true, Bool.and_eq_true, Dy.lt_iff, Dy.eq_iff, val_dist, hb]
    have hstep := isNearest_or (c := c) h
    rw [nearest]
    have hnext : IsNearest (gridDist f d k x) (evenCode f) (fun j => P j ∨ j = c)
        (if (((x.sub (((present f c d).dy).mul k)).abs).lt b.1 ||
          (((x.sub (((present f c d).dy).mul k)).abs).eq b.1 && evenCode f c)) = true
          then ((x.sub (((present f c d).dy).mul k)).abs, c) else b).2 := by
      rw [apply_ite Prod.snd, if_congr hcond rfl rfl]
      exact hstep
    have := ih (P := fun j => P j ∨ j = c) (by split; exacts [val_dist .., hb]) hnext
    simpa only [List.mem_cons, or_assoc] using this

/-- Two codes as near to a value as any are one point, or both even, or the nearest is. -/
theorem tie_goes_to_even {f : Nat} (hf : f ∈ [3, 4, 5, 6, 7]) {d : Int} (h1 : -3 ≤ d) (h2 : d ≤ 3) {y : ℚ} {r c : Nat}
    (hr : r ∈ gridCodes f) (hmin : ∀ j ∈ gridCodes f, |gridPoint f r d - y| ≤ |gridPoint f j d - y|)
    (heven : ∀ j ∈ gridCodes f, |gridPoint f j d - y| = |gridPoint f r d - y| → evenCode f j = true → evenCode f r = true)
    (hc : c ∈ gridCodes f) (heq : |gridPoint f r d - y| = |gridPoint f c d - y|) :
    gridPoint f c d = gridPoint f r d ∨ evenCode f r = true := by
  by_contra hcon
  obtain ⟨hne, hodd⟩ := not_or.1 hcon
  have hodd' : evenCode f c = false := Bool.eq_false_iff.2 fun hc' => hodd (heven c hc heq.symm hc')
  have hsum : gridPoint f r d - y = -(gridPoint f c d - y) := by
    rcases abs_eq_abs.1 heq with h | h
    · exact absurd (sub_left_injective h).symm hne
    · exact h
  rcases lt_or_gt_of_ne hne with hlt | hlt
  · obtain ⟨j, hj, hlow, hhigh⟩ := exists_between_odd h1 h2 hf hc hr hodd' (Bool.eq_false_iff.2 hodd) hlt
    have := hmin j hj
    rw [abs_of_pos (by linarith)] at this
    have : |gridPoint f j d - y| < gridPoint f r d - y := abs_lt.2 ⟨by linarith, by linarith⟩
    linarith
  · obtain ⟨j, hj, hlow, hhigh⟩ := exists_between_odd h1 h2 hf hr hc (Bool.eq_false_iff.2 hodd) hodd' hlt
    have := hmin j hj
    rw [abs_of_neg (by linarith)] at this
    have : |gridPoint f j d - y| < -(gridPoint f r d - y) := abs_lt.2 ⟨by linarith, by linarith⟩
    linarith

/-! ## QuantiseToGrid, case by case -/

/-- What an FP8 format or another gives where there is no value. -/
def noValue (f : Nat) : Nat := if isFp8 f then (fp8Of f).nan else 0

section Quantise

variable {f : Nat} {x : FVal} {d : Int} {s : BitVec 16} {k : Dy}

theorem quantise_no_scale (hs : scaleDy s = none) : quantise f x d s = (noValue f, Flags.invalidScale) := by
  simp only [quantise, hs]
  rfl

variable (hs : scaleDy s = some k)

include hs

theorem quantise_nan (hx : x.isNan = true) : quantise f x d s = (noValue f, Flags.invalid) := by
  cases x with
  | nan sg => simp only [quantise, hs]; rfl
  | inf n => cases hx
  | fin neg m e => cases hx

theorem quantise_inf (n : Bool) : quantise f (.inf n) d s =
    if f = 4 then (if n then 0xFC else 0x7C, 0) else (outerCode f n, Flags.saturate ||| Flags.inexact) := by
  simp only [quantise, hs]
  cases n <;> rfl

/-- The nearest code of a number. -/
def nearestCode (f : Nat) (d : Int) (k v : Dy) : Nat :=
  nearest f d k v (gridCodes f) ((v.sub (((present f 0 d).dy).mul k)).abs, 0)

omit hs in
theorem val_point (c : Nat) : (((present f c d).dy).mul k).val = gridPoint f c d * k.val := by
  rw [Dy.val_mul, ← FRat_eq_val_dy, FRat_present]

theorem quantise_fin (neg : Bool) (m : Nat) (e : Int) (v : ℚ) (hv : v = FRat (.fin neg m e)) : quantise f (.fin neg m e) d s =
    if v < gridPoint f (outerCode f true) d * k.val then (outerCode f true, Flags.saturate ||| Flags.inexact)
    else if gridPoint f (outerCode f false) d * k.val < v then (outerCode f false, Flags.saturate ||| Flags.inexact)
    else (if isFp8 f = true ∧ nearestCode f d k (FVal.fin neg m e).dy = 0 ∧ d = 0 ∧ neg = true then 0x80
        else nearestCode f d k (FVal.fin neg m e).dy,
      if gridPoint f (nearestCode f d k (FVal.fin neg m e).dy) d * k.val = v then 0 else Flags.inexact) := by
  have hval : (FVal.fin neg m e).dy.val = v := by rw [hv, FRat_eq_val_dy]
  have hshape : quantise f (.fin neg m e) d s =
      if (FVal.fin neg m e).dy.lt (((present f (outerCode f true) d).dy).mul k) = true then
        (outerCode f true, Flags.saturate ||| Flags.inexact)
      else if (((present f (outerCode f false) d).dy).mul k).lt (FVal.fin neg m e).dy = true then
        (outerCode f false, Flags.saturate ||| Flags.inexact)
      else (if (isFp8 f && decide (nearestCode f d k (FVal.fin neg m e).dy = 0) && decide (d = 0) && neg) = true then 0x80
          else nearestCode f d k (FVal.fin neg m e).dy,
        Flags.when (!(((present f (nearestCode f d k (FVal.fin neg m e).dy) d).dy).mul k).eq (FVal.fin neg m e).dy) Flags.inexact) := by
    simp only [quantise, hs]
    rfl
  have hlow : (FVal.fin neg m e).dy.lt (((present f (outerCode f true) d).dy).mul k) = true ↔
      v < gridPoint f (outerCode f true) d * k.val := by rw [Dy.lt_iff, hval, val_point]
  have hhigh : (((present f (outerCode f false) d).dy).mul k).lt (FVal.fin neg m e).dy = true ↔
      gridPoint f (outerCode f false) d * k.val < v := by rw [Dy.lt_iff, hval, val_point]
  have hzero : (isFp8 f && decide (nearestCode f d k (FVal.fin neg m e).dy = 0) && decide (d = 0) && neg) = true ↔
      isFp8 f = true ∧ nearestCode f d k (FVal.fin neg m e).dy = 0 ∧ d = 0 ∧ neg = true := by
    simp only [Bool.and_eq_true, decide_eq_true_eq, and_assoc]
  have hexact : Flags.when (!(((present f (nearestCode f d k (FVal.fin neg m e).dy) d).dy).mul k).eq (FVal.fin neg m e).dy) Flags.inexact =
      if gridPoint f (nearestCode f d k (FVal.fin neg m e).dy) d * k.val = v then 0 else Flags.inexact := by
    have heq := Dy.eq_iff (a := ((present f (nearestCode f d k (FVal.fin neg m e).dy) d).dy).mul k) (b := (FVal.fin neg m e).dy)
    rw [val_point, hval] at heq
    rw [← if_congr heq rfl rfl]
    cases (((present f (nearestCode f d k (FVal.fin neg m e).dy) d).dy).mul k).eq (FVal.fin neg m e).dy <;> rfl
  rw [hshape, if_congr hlow rfl rfl, if_congr hhigh rfl rfl, if_congr hzero rfl rfl, hexact]

end Quantise

/-! ## The nearest point -/

section Nearest

variable {f : Nat} (hf : f ∈ [3, 4, 5, 6, 7]) {d : Int} (h1 : -3 ≤ d) (h2 : d ≤ 3) {k v : Dy}

include hf

theorem zero_mem_gridCodes : 0 ∈ gridCodes f := by
  simp only [List.mem_cons, List.not_mem_nil, or_false] at hf
  rcases hf with rfl | rfl | rfl | rfl | rfl
  · exact (mem_gridCodes_fp8 (Or.inl rfl)).2 (by decide)
  · exact (mem_gridCodes_fp8 (Or.inr rfl)).2 (by decide)
  · exact (mem_gridCodes 0).2 ⟨by decide, by decide⟩
  · exact (mem_gridCodes 0).2 ⟨by decide, by decide⟩
  · exact (mem_gridCodes 0).2 (show 0 < 3 by decide)

theorem nearestCode_spec : IsNearest (gridDist f d k v) (evenCode f) (· ∈ gridCodes f) (nearestCode f d k v) := by
  have hstart : IsNearest (gridDist f d k v) (evenCode f) (· = 0) 0 :=
    ⟨rfl, fun c hc => by rw [hc]; exact ⟨le_refl _, fun _ he => he⟩⟩
  obtain ⟨hr, hmin⟩ := nearest_spec (gridCodes f) (b := ((v.sub (((present f 0 d).dy).mul k)).abs, 0)) (val_dist f d k v 0) hstart
  exact ⟨hr.elim (fun h => (show nearestCode f d k v = 0 from h) ▸ zero_mem_gridCodes hf) id, fun c hc => hmin c (Or.inr hc)⟩

omit hf in
/-- Distances from the quotient by the scale. -/
theorem dist_scaled (hk : 0 < k.val) (c : Nat) : gridDist f d k v c = |gridPoint f c d - v.val / k.val| * k.val := by
  rw [gridDist, abs_sub_comm, ← abs_of_pos hk, ← abs_mul, sub_mul, abs_of_pos hk, div_mul_cancel₀ _ hk.ne']

include h1 h2

/-- The nearest code is nearest, and a tie goes to the even one. -/
theorem nearestCode_nearest (hk : 0 < k.val) {c : Nat} (hc : c ∈ gridCodes f) :
    |gridPoint f (nearestCode f d k v) d - v.val / k.val| ≤ |gridPoint f c d - v.val / k.val| ∧
    (|gridPoint f (nearestCode f d k v) d - v.val / k.val| = |gridPoint f c d - v.val / k.val| →
      gridPoint f c d = gridPoint f (nearestCode f d k v) d ∨ evenCode f (nearestCode f d k v) = true) := by
  obtain ⟨hr, hmin⟩ := nearestCode_spec hf (d := d) (k := k) (v := v)
  have hle {j : Nat} (hj : j ∈ gridCodes f) :
      |gridPoint f (nearestCode f d k v) d - v.val / k.val| ≤ |gridPoint f j d - v.val / k.val| := by
    have := (hmin j hj).1
    rw [dist_scaled hk, dist_scaled hk] at this
    exact le_of_mul_le_mul_right this hk
  refine ⟨hle hc, tie_goes_to_even hf h1 h2 hr (fun j hj => hle hj) (fun j hj heq => (hmin j hj).2 ?_) hc⟩
  rw [dist_scaled hk, dist_scaled hk, heq]

end Nearest

/-- Without dither both zeros of FP8 are one point. -/
theorem gridPoint_negative_zero {f : Nat} (hfp : isFp8 f = true) : gridPoint f 0x80 0 = gridPoint f 0 0 := by
  rcases isFp8_iff.1 hfp with rfl | rfl
  · rw [gridPoint_of_fin 0 hfp (show unpackF (fp8Of 3) 0x80 = .fin true 0 (-9) by decide),
      gridPoint_of_fin 0 hfp (show unpackF (fp8Of 3) 0 = .fin false 0 (-9) by decide)]
    simp [pointEighths]
  · rw [gridPoint_of_fin 0 hfp (show unpackF (fp8Of 4) 0x80 = .fin true 0 (-16) by decide),
      gridPoint_of_fin 0 hfp (show unpackF (fp8Of 4) 0 = .fin false 0 (-16) by decide)]
    simp [pointEighths]

theorem quantiseGivesTheNearestPoint : Sys2Proof.Claims.QuantiseGivesTheNearestPoint := by
  intro f hf x d s h1 h2 k r bad y p
  refine ⟨fun hbad => quantise_no_scale (scaleDy_of_not_positive hbad), fun hfin hpos => ?_, mem_gridCodes,
    fun n => ⟨(outerCode_spec hf n).1, fun c hc => outer_bounds h1 h2 hf n hc⟩⟩
  obtain ⟨kd, hs, hk⟩ := scaleDy_of_positive hfin hpos
  have hk' : kd.val = FRat k := hk
  refine ⟨quantise_nan hs, fun n hn => by rw [show r = quantise f x d s from rfl, hn]; exact quantise_inf hs n, fun hx hlt => ?_,
    fun hx hlt => ?_, fun hx hlow hhigh => ?_⟩
  all_goals
    obtain ⟨neg, m, e, rfl⟩ := exists_fin hx
    have hr := quantise_fin (f := f) (d := d) hs neg m e _ rfl
    rw [hk'] at hr
  · exact hr.trans (if_pos ((div_lt_iff₀ hpos).1 hlt))
  · have hle : p (outerCode f true) ≤ p (outerCode f false) := outer_bounds h1 h2 hf false (outerCode_spec hf true).1
    exact hr.trans ((if_neg ((div_lt_iff₀ hpos).not.1 (not_lt.2 (hle.trans hlt.le)))).trans (if_pos ((lt_div_iff₀ hpos).1 hlt)))
  · rw [if_neg ((div_lt_iff₀ hpos).not.1 (not_lt.2 hlow)), if_neg ((lt_div_iff₀ hpos).not.1 (not_lt.2 hhigh))] at hr
    obtain ⟨c, hc⟩ : ∃ c, c = nearestCode f d kd (FVal.fin neg m e).dy := ⟨_, rfl⟩
    rw [← hc] at hr
    have hy : (FVal.fin neg m e).dy.val / kd.val = y := by rw [hk', ← FRat_eq_val_dy]
    have hmem : c ∈ gridCodes f := hc ▸ (nearestCode_spec hf).1
    have hnear {j : Nat} (hj : j ∈ gridCodes f) := nearestCode_nearest hf h1 h2 (k := kd) (v := (FVal.fin neg m e).dy) (hk' ▸ hpos) hj
    rw [← hc, hy] at hnear
    have hflags : r.2 = if p c = y then 0 else Flags.inexact := by
      rw [if_congr (eq_div_iff hpos.ne') rfl rfl]
      exact congrArg Prod.snd hr
    have hcode : r.1 = if isFp8 f = true ∧ c = 0 ∧ d = 0 ∧ neg = true then 0x80 else c := congrArg Prod.fst hr
    by_cases hz : isFp8 f = true ∧ c = 0 ∧ d = 0 ∧ neg = true
    · rw [if_pos hz] at hcode
      obtain ⟨hfp, rfl, rfl, rfl⟩ := hz
      have hp : p 0x80 = p 0 := gridPoint_negative_zero hfp
      rw [hcode, hp, hflags]
      refine ⟨Or.inr ⟨rfl, hfp⟩, fun j hj => ⟨(hnear hj).1, fun _ => Or.inr ?_⟩, rfl, fun _ _ => iff_of_true rfl ⟨rfl, rfl⟩⟩
      rw [evenCode, if_pos hfp]
      rfl
    · rw [if_neg hz] at hcode
      rw [hcode, hflags]
      refine ⟨Or.inl hmem, fun j hj => hnear hj, rfl, fun hfp hcz => ?_⟩
      have hne : c ≠ 0x80 := ((mem_gridCodes_fp8 (isFp8_iff.1 hfp)).1 hmem).2.1
      refine iff_of_false hne fun hdn => hz ⟨hfp, hcz.resolve_right hne, hdn.1, hdn.2⟩

/-- Settles O22: the fold over the lanes keeps the highest lane's bytes, the codes of the grid taken in their order have rising points,
so that a tie lies between two neighbours of which one is even, and a versioned write reads its line's version first. -/
theorem storesInLaneOrderAndByVersion : Obligations.StoresInLaneOrderAndByVersion :=
  ⟨highestLaneStoreRemains, quantiseGivesTheNearestPoint, versionedWriteChecksItsLine⟩

end Sys2Proof.Machine
